-- ==== Sys2Proof/Word.lean ====
section
/-! DEFINITION. The word types: 32-bit register and memory words, bytes, and two's complement numbers. -/

namespace Sys2Proof

/-- A register or memory word (R7). -/
abbrev Word := BitVec 32

/-- A byte of memory or of a message. -/
abbrev Byte := BitVec 8

end Sys2Proof
end

