-- ==== Sys2Proof/Syntax.lean ====
section
/-! DEFINITION. The commands of the block: the operand types and `Instr`, one constructor for each row of the spec's table
of operations and events (spec/opcode_table.json). A command is a request of the host, an instruction of a ring's sequencer
or Juggler, a flit, a pin event, or an internal occurrence whose beat has come. -/

namespace Sys2Proof

/-- An Ethernet port (R33). -/
abbrev Port := Fin 2
/-- A session number (R44, R53). -/
abbrev Sid := Fin 8
/-- A ring number (R11). -/
abbrev RingId := Fin 12

/-- Where a request came from, and where its answer and the session's pushes go (R39, R58): `raw` when the message came
directly in an Ethernet frame with EtherType 0x88B5, else `own` is the address of the device that it was sent to. An IPv4 address
stands as a number below 2^32. -/
structure PushAddr where
  mac : BitVec 48 := 0
  ip : BitVec 128 := 0
  udp : BitVec 16 := 0
  own : BitVec 128 := 0
  raw : Bool := false
  deriving DecidableEq, Repr

/-- What the headers of a received frame say beside its addresses (R36, R38): its 802.1Q tag (PCP in bits 15 to 13, VID in bits 11 to
0), the IHL of an IPv4 header, whether the datagram is a fragment, whether an IPv6 extension header stands in it, and its UDP
checksum. -/
structure RxHead where
  tag : Option (BitVec 16) := none
  ihl : Nat := 5
  fragment : Bool := false
  extension : Bool := false
  checksum : BitVec 16 := 0
  deriving DecidableEq, Repr

/-- Where a received frame comes from, and what its headers say. -/
structure RxFrom where
  addr : PushAddr := {}
  head : RxHead := {}
  deriving DecidableEq, Repr

/-- A lease register (R64, R89). -/
inductive Lease where
  | ring (n : RingId)
  | chip
  | time
  deriving DecidableEq, Repr

/-- What the lanes of a link show beside the flit of a beat (R343, R347, R355, R356): whether their symbols mix, the lanes (0 to 8) with a
symbol error, those whose marker is missing where it is expected, and whether the spare's byte differs from that of the lane it copies or a
flit rebuilt with it fails. -/
structure LaneSigns where
  codeErr : Bool := false
  errors : BitVec 9 := 0
  noMarker : BitVec 9 := 0
  mismatch : Bool := false
  deriving DecidableEq, Repr

/-- The causes that take a link to FAILED (R352, R353), by their STATUS.CAUSE names (R374), codes 1 to 7. -/
inductive LinkCause where
  | noclk | freq | lanes | skew | align | long | peer
  deriving DecidableEq, Repr

/-- What an Announce message says of a grandmaster (R384; IEEE 1588): its priorities, quality and identity, and the steps to it. -/
structure PtpAnnounce where
  priority1 : BitVec 8 := 0
  clockClass : BitVec 8 := 0
  accuracy : BitVec 8 := 0
  variance : BitVec 16 := 0
  priority2 : BitVec 8 := 0
  identity : BitVec 64 := 0
  steps : BitVec 16 := 0
  deriving DecidableEq, Repr

/-- A received IEEE 1588 message (R384-R386): what carried it (`layer2`, else UDP, over IPv6 with `v6`), the headers of its frame and
whether a UDP checksum that is not 0 is right (R36), the fields of its header and body that the standard's processing uses (`src` and `req`
are the sourcePortIdentity and the requestingPortIdentity, `origin` is the timestamp in its body), and `ago`, how many bins of 1/64 beat
before the start of the present beat its timestamp point passed the balls. -/
structure PtpMsg where
  layer2 : Bool := false
  v6 : Bool := false
  head : RxHead := {}
  sumRight : Bool := true
  typ : BitVec 4 := 0
  sdo : BitVec 4 := 0
  version : BitVec 4 := 2
  domain : BitVec 8 := 0
  twoStep : Bool := false
  correction : BitVec 64 := 0
  src : BitVec 80 := 0
  seqId : BitVec 16 := 0
  origin : BitVec 80 := 0
  req : BitVec 80 := 0
  ann : PtpAnnounce := {}
  ago : Nat := 0
  deriving DecidableEq, Repr

/-- The codes of one ADC slice over a calibration block: how many, their sum and the sum of their squares (R407, R408). -/
structure SliceSum where
  n : Nat := 0
  sum : Int := 0
  pow : Nat := 0
  deriving DecidableEq, Repr, Inhabited

/-- What the estimators of one calibration block find beside what the codes of the block say (R408, R415, R419, R421); analog results, so
operands of the command. The figures of the tests are in millionths: T in dBc, B in dB, and S, a ratio that counts only where every code
of the block is 0 and leaves it without a value. `spare` holds the codes of a slice that stood by in the whole block, `skews` every
slice's correlation in sixteenths of a trim step, and `noPower` the gain correction of a slice whose codes are all 0, in the same unit; the
difference of the spare's and the incumbent's codes is in thousandths of an LSB, the power left after an injected sequence is subtracted
in millionths of a dBFS. -/
structure BlockStats where
  s : Int := 0
  t : Int := 0
  b : Int := 0
  spare : SliceSum := {}
  skews : List Int := []
  noPower : Int := 0
  diffMean : Int := 0
  diffRms : Nat := 0
  remain : Int := 0
  deriving DecidableEq, Repr, Inhabited

/-- What a monitor-receiver visit finds on its channel (R241, R425); analog results, so operands of the command. A cell's estimate is the
trim that would correct it, in sixteenths of a step, by cell number; `dead` lists the cells that carry no current; the delay is in fs;
`spareErr` is how far the current of the spare being matched lies from its weight, in thousandths of an LSB. -/
structure MonVisit where
  cells : List (Nat × Int) := []
  dead : List Nat := []
  delay : Int := 0
  spareErr : Int := 0
  deriving DecidableEq, Repr, Inhabited

/-- What puts the device into reset (R512). -/
inductive ResetCause where
  | por | pin | pwrOk
  deriving DecidableEq, Repr


/-- The commands, one constructor a row of the table, named after the row's mnemonic. Operands: `p` the port that carried a
host operation, `u` its session, `n` a ring, then the indices and values that the row's rule names. -/
inductive Instr where
  /-- RCP_REQUEST (R50). A received RCP request frame is checked at frame level, deduplicated and its operations executed in block order. -/
  | rcpRequest (p : Port) (a : RxFrom) (m : List Byte)
  /-- PFC_XOFF_REPEAT (R86). Every 20 us while the XOFF condition holds the port repeats the PFC frame. -/
  | pfcXoffRepeat (p : Port) (q : Fin 8)
  /-- PFC_XON (R86). When occupancy falls below XON_KIB the port sends a PFC frame with quanta 0. -/
  | pfcXon (p : Port) (q : Fin 8)
  /-- PFC_FRAME_RECEIVE (R85). A received PFC frame holds back frames of the paused priority for the quanta given. -/
  | pfcFrameReceive (p : Port) (q : Fin 8) (quanta : BitVec 16)
  /-- PAUSE_FRAME_DISCARD (R34). A received 802.3x PAUSE frame is discarded and counted in PAUSE_RX. -/
  | pauseFrameDiscard (p : Port)
  /-- OVERSIZE_DISCARD (R35). A frame longer than the maximum length is discarded and sets OVERSIZE. -/
  | oversizeDiscard (p : Port) (len : Nat)
  /-- VLAN_DISCARD (R38). A frame with a non-matching VLAN tag is discarded and counted in RX_DROP. -/
  | vlanDiscard (p : Port) (tag : Option (BitVec 12))
  /-- ARP_REQUEST (R37). Fyndofen answers an ARP request on the port. -/
  | arpRequest (p : Port) (a : RxFrom) (target : BitVec 32)
  /-- NEIGHBOR_SOLICITATION (R37). Fyndofen answers an IPv6 Neighbor Solicitation. -/
  | neighborSolicitation (p : Port) (a : RxFrom) (target : BitVec 128)
  /-- ECHO_REQUEST (R37). Fyndofen answers an ICMPv4 or ICMPv6 echo request. -/
  | echoRequest (p : Port) (a : RxFrom) (v6 : Bool) (target : BitVec 128) (data : List Byte)
  /-- READ (R46). READ returns a 32-bit register value, with snapshot and read-clear behaviour where defined. -/
  | read (p : Port) (u : Sid) (a : Word)
  /-- WRITE (R96). WRITE sets a register with no row of its own as one access under the access codes. -/
  | write (p : Port) (u : Sid) (a : Word) (v : Word)
  /-- WRITE_MASK (R47). WRITE_MASK writes (old & ~mask) | (value & mask) in one access. -/
  | writeMask (p : Port) (u : Sid) (a : Word) (v : Word) (m : Word)
  /-- BLOCK_READ (R48). BLOCK_READ reads 1 to 2,048 words of memory. -/
  | blockRead (p : Port) (u : Sid) (a : Word) (k : Nat)
  /-- BLOCK_WRITE (R48). BLOCK_WRITE writes 1 to 2,048 words of memory, with BUSY retry and restore in exchange memory. -/
  | blockWrite (p : Port) (u : Sid) (a : Word) (ws : List Word)
  /-- SCHEDULE (R69). SCHEDULE enters, or with OFLAGS[0] cancels, a write for a target beat. -/
  | schedule (p : Port) (u : Sid) (cancel : Bool) (a : Word) (t : BitVec 64) (v : Word) (m : Word)
  /-- SCHEDULE_APPLY (R70). At its target beat a scheduled write is checked again and applied. -/
  | scheduleApply (h : BitVec 16)
  /-- STREAM_DATA (R72). STREAM_DATA writes one stream unit, discards it as stale or rejects it by credit. -/
  | streamData (p : Port) (u : Sid) (n : Nat) (j : Nat) (i : Word) (ws : List Word)
  /-- CREDIT (R73). A host CREDIT query returns the present credit limit. -/
  | credit (p : Port) (u : Sid) (n : Nat) (j : Nat)
  /-- RESULT_ACK (R78). RESULT_ACK frees the result records below the acknowledged index. -/
  | resultAck (p : Port) (u : Sid) (n : Nat) (i : Word)
  /-- SESSION_OPEN (R53). SESSION_OPEN creates a session with a random tag, timeout and CTRL. -/
  | sessionOpen (p : Port) (a : PushAddr) (seq : Word) (timeout : Word) (ctrl : Word)
  /-- SESSION_CLOSE (R57). SESSION_CLOSE closes the session and releases its leases. -/
  | sessionClose (p : Port) (u : Sid)
  /-- DISCOVER (R43). DISCOVER is answered with the 64-byte identity body after a serial-dependent delay. -/
  | discover (p : Port) (a : PushAddr) (seq : Word)
  /-- SESSION_TIMEOUT (R57). A session with no frame for TIMEOUT ms closes, releases leases and optionally halts its rings. -/
  | sessionTimeout (u : Sid)
  /-- LEASE_ACQUIRE (R65). A session writes its own number to a free lease HOLDER to take the lease. -/
  | leaseAcquire (p : Port) (u : Sid) (l : Lease)
  /-- LEASE_RELEASE (R65). The holder writes 0xF to HOLDER to release the lease. -/
  | leaseRelease (p : Port) (u : Sid) (l : Lease)
  /-- LEASE_BREAK (R65). The chip-lease holder breaks another session's ring or time lease, cancelling its scheduled writes. -/
  | leaseBreak (p : Port) (u : Sid) (l : Lease)
  /-- NET_APPLY (R91). APPLY brings all staged NET values into force in one step. -/
  | netApply (p : Port) (u : Sid)
  /-- NET_SAVE (R91). SAVE stores the NET values and STARTUP_CFG into NVM. -/
  | netSave (p : Port) (u : Sid)
  /-- ETH_CTRL_WRITE (R90). A MODE or JUMBO change takes the port DOWN and through alignment and SHADOW. -/
  | ethCtrlWrite (p : Port) (u : Sid) (q : Port) (v : Word)
  /-- RESQ_CTRL_WRITE (R79). A write of RESQ CTRL enables or disables result pushes and sets NEXT_INDEX. -/
  | resqCtrlWrite (p : Port) (u : Sid) (n : RingId) (v : Word)
  /-- STRM_CFG_WRITE (R71). A STRM CFG write configures a stream; enabling resets its pointers and causes a CREDIT push. -/
  | strmCfgWrite (p : Port) (u : Sid) (n : RingId) (j : Fin 4) (v : Word)
  /-- PORT_LOST (R61). A port that lost alignment or FEC for 10 us is declared DOWN and pushes move to the other port. -/
  | portLost (p : Port)
  /-- PORT_ALIGNED (R63). A port that regains alignment enters SHADOW, or UP at once on first alignment after reset. -/
  | portAligned (p : Port)
  /-- PORT_UP (R63). After SHADOW.MS ms of clean link the port becomes UP and pushes return to it. -/
  | portUp (p : Port)
  /-- RESULT_PUSH (R77). A RESULT frame is sent when MAXREC records wait or the oldest has waited FLUSH. -/
  | resultPush (n : RingId)
  /-- CREDIT_PUSH (R73). A CREDIT push carrying the latest limit is sent, at most once per 1,500 beats. -/
  | creditPush (n : RingId) (j : Fin 4)
  /-- EVENT_PUSH (R82). An event record is pushed to every session whose EV_MIN admits it. -/
  | eventPush
  /-- EVENT_DEFERRED_RECORD (R107). At the end of a rate-limit interval a deferred event record is emitted. -/
  | eventDeferredRecord (code : BitVec 16) (src : BitVec 8) (subj : BitVec 16)
  /-- MODULE_POLL (R40). Every 100 ms Fyndofen polls module presence and alarms. -/
  | modulePoll (p : Port) (present : Bool) (alarms : Word)
  /-- MODULE_MIRROR (R40). Every 1 s Fyndofen mirrors the CMIS pages into MODULE. -/
  | moduleMirror (p : Port) (page : List Byte)
  /-- MODULE_INTERRUPT (R550). A falling edge of MOD_INT_N starts an alarm poll within 1 ms. -/
  | moduleInterrupt (p : Port)
  /-- SEQ_START (R183). START initialises the sequencer and enters RUNNING in the beat of the write. -/
  | seqStart (p : Port) (u : Sid) (n : RingId)
  /-- SEQ_ARM (R183). ARM puts the ring into ARMED to wait for a Trapeze barrier. -/
  | seqArm (p : Port) (u : Sid) (n : RingId)
  /-- SEQ_DISARM (R183). DISARM returns an ARMED ring to its former state. -/
  | seqDisarm (p : Port) (u : Sid) (n : RingId)
  /-- SEQ_RESUME (R197). RESUME continues at SEQ_PC from RSC.CP, or cancels a pending halt. -/
  | seqResume (p : Port) (u : Sid) (n : RingId)
  /-- SEQ_HALT (R194). A host HALT sets HALT_PEND, taken at CP2 at once or at the next SHOT CP1. -/
  | seqHalt (p : Port) (u : Sid) (n : RingId)
  /-- SEQ_ABORT (R195). A host ABORT requests an abort of the ring, or disarms an ARMED ring. -/
  | seqAbort (p : Port) (u : Sid) (n : RingId)
  /-- SEQ_HOLD_SET (R183). HOLD_SET sets the host hold pause condition. -/
  | seqHoldSet (p : Port) (u : Sid) (n : RingId)
  /-- SEQ_HOLD_CLR (R183). HOLD_CLR clears the host hold pause condition. -/
  | seqHoldClr (p : Port) (u : Sid) (n : RingId)
  /-- ABORT_ACCEPT (R195). An abort is accepted at a checkpoint: queue emptied, ramp started, windows truncated or cancelled. -/
  | abortAccept (n : RingId)
  /-- ABORT_RAMP_END (R195). 25 beats after acceptance all voices stop and the ring enters ABORTED or MCK. -/
  | abortRampEnd (n : RingId)
  /-- MACHINE_CHECK (R176). Both microcode copies fail parity: the queue is emptied, the ring aborted and RING_MCK set. -/
  | machineCheck (n : RingId) (upc : BitVec 12)
  /-- ILLEGAL_INSTRUCTION (R135). An illegal Zwiec instruction honours its timing, sets ILL and records its address. -/
  | illegalInstruction (n : RingId)
  /-- NOP (R132). NOP does nothing. -/
  | nop (n : RingId)
  /-- HALT (R169). HALT drains the queue, voices and windows and stops the ring. -/
  | halt (n : RingId)
  /-- HALT_COMPLETE (R169). When queue, voices and windows are done, the HALT instruction stops the ring in HALTED. -/
  | haltComplete (n : RingId)
  /-- SHOT (R168). SHOT holds at CP0 until the timed-action queue is empty. -/
  | shot (n : RingId)
  /-- SHOT_BOUNDARY (R168). At CP1 the ring takes a pending halt, applies swaps and evaluates pause conditions. -/
  | shotBoundary (n : RingId)
  /-- SHOT_START (R118). In the first beat with no pause condition sc increments, tb resets and shot flags clear. -/
  | shotStart (n : RingId)
  /-- WAIT (R164). WAIT holds the front end for a number of beats. -/
  | wait (n : RingId)
  /-- WAIT_END (R164). The WAIT count expires and the next instruction issues. -/
  | waitEnd (n : RingId)
  /-- TIMING_HOLD_END (R123). A MODE 1 or 2 hold reaches its target beat and the instruction executes. -/
  | timingHoldEnd (n : RingId)
  /-- WAITC (R165). WAITC holds until its wait condition holds or it times out. -/
  | waitc (n : RingId)
  /-- WAIT_CONDITION_MET (R134). A WAITC or MODE 3 condition holds and the instruction goes on, consuming a trigger latch if named. -/
  | waitConditionMet (n : RingId)
  /-- DECISION_TIMEOUT (R147). A DEC, CASE or WAITC with TOE times out, sets st.TO and branches. -/
  | decisionTimeout (n : RingId)
  /-- SYNC (R166). SYNC waits at an on-chip barrier among rings. -/
  | sync (n : RingId)
  /-- SYNC_RELEASE (R166). When all rings of the mask wait, they issue their next instruction 8 beats later. -/
  | syncRelease (m : BitVec 12)
  /-- XSYNC (R167). XSYNC joins a Trapeze barrier of the domain. -/
  | xsync (n : RingId)
  /-- BR (R140). BR branches on a condition of st. -/
  | br (n : RingId)
  /-- CALL (R142). CALL pushes PC + 1 and branches. -/
  | call (n : RingId)
  /-- RET (R142). RET pops the call stack and branches. -/
  | ret (n : RingId)
  /-- LOOP (R143). LOOP loads a loop counter and enters or skips the body. -/
  | loop (n : RingId)
  /-- ENDL (R143). ENDL decrements the loop counter and branches back or falls through. -/
  | endl (n : RingId)
  /-- CASE (R146). CASE waits for four decision bits and dispatches into a 16-entry table. -/
  | caseOp (n : RingId)
  /-- DEC (R145). DEC waits for decision bits and writes them into a g register. -/
  | dec (n : RingId)
  /-- LDI (R136). LDI loads a 32-bit immediate. -/
  | ldi (n : RingId)
  /-- LD (R138). LD loads a word from exchange memory through port A. -/
  | ld (n : RingId)
  /-- LD_COMPLETE (R138). The loaded value is written to rd after bank-conflict and borrow stalls. -/
  | ldComplete (n : RingId)
  /-- ST (R138). ST stores a word into exchange memory through port A. -/
  | st (n : RingId)
  /-- ADD (R137). ADD adds modulo 2^32 and sets flags. -/
  | add (n : RingId)
  /-- SUB (R137). SUB subtracts modulo 2^32 and sets flags. -/
  | sub (n : RingId)
  /-- AND (R137). AND is bitwise and sets flags. -/
  | and (n : RingId)
  /-- OR (R137). OR is bitwise and sets flags. -/
  | or (n : RingId)
  /-- XOR (R137). XOR is bitwise and sets flags. -/
  | xor (n : RingId)
  /-- SHL (R137). SHL shifts left and sets flags. -/
  | shl (n : RingId)
  /-- SHR (R137). SHR shifts right logically and sets flags. -/
  | shr (n : RingId)
  /-- CMP (R137). CMP sets flags from ra - b without writing. -/
  | cmp (n : RingId)
  /-- ACTION_RELEASE (R129). The timed-action queue releases up to 8 entries whose action beat has come. -/
  | actionRelease (n : RingId)
  /-- PLAY (R151). PLAY starts a segment on a voice, prefetches it, or requests a jump. -/
  | play (n : RingId)
  /-- PLAYS (R152). PLAYS takes stream units and plays them on a voice. -/
  | plays (n : RingId)
  /-- STOP (R153). STOP ends a voice at its boundary, or ramps it down at its own pin beat. -/
  | stop (n : RingId)
  /-- FRQ (R154). FRQ sets the frequency word of a voice or lane NCO. -/
  | frq (n : RingId)
  /-- PHS (R155). PHS adds to the phase frame of a voice or lane. -/
  | phs (n : RingId)
  /-- PHSET (R155). PHSET sets the phase frame of a voice or lane. -/
  | phset (n : RingId)
  /-- AMP (R156). AMP sets the voice amplitude. -/
  | amp (n : RingId)
  /-- ACQ (R285). ACQ opens an integration window on a lane, truncating any open one. -/
  | acq (n : RingId)
  /-- KER (R158). KER selects the kernel for a lane's next windows. -/
  | ker (n : RingId)
  /-- BIAS (R159). BIAS sends a code to a bias output's update queue. -/
  | bias (n : RingId)
  /-- MARK (R398). MARK places marker edges relative to its reference instant. -/
  | mark (n : RingId)
  /-- TSET (R160). TSET writes the delay or width of a timing set. -/
  | tset (n : RingId)
  /-- FADE (R161). FADE requests a cross-fade of a channel's predistortion bank. -/
  | fade (n : RingId)
  /-- SEND (R149). SEND posts a decision to rings and optionally over Trapeze. -/
  | send (n : RingId)
  /-- EVT (R162). EVT writes SEQ_USER and optionally raises the Juggler SEQEVT interrupt. -/
  | evt (n : RingId)
  /-- DECISION_ARRIVE (R117). A decision post reaches dr and sets its data and valid bits. -/
  | decisionArrive (n : RingId)
  /-- REQUEST_REACHES_VOICE (R220). A voice request reaches the voice at A + 4 after its descriptor check, replacing a pending one. -/
  | requestReachesVoice (n : RingId) (v : Fin 32)
  /-- SEGMENT_BOUNDARY (R223). At a segment boundary the voice starts a jump, a repetition, a chained segment or falls idle. -/
  | segmentBoundary (n : RingId) (v : Fin 32)
  /-- UNIT_CLAIM (R204). A PLAYS voice claims a stream unit 18 beats before its first pin beat. -/
  | unitClaim (n : RingId) (v : Fin 32)
  /-- STOP_RAMP_END (R153). 24 pin beats after a ramped STOP the voice is idle. -/
  | stopRampEnd (n : RingId) (v : Fin 32)
  /-- FADE_REACH (R231). A fade request from FADE or the host reaches the channel and starts, pends or is rejected. -/
  | fadeReach (n : RingId) (c : Fin 4)
  /-- FADE_END (R229). A fade ends after 8 x L samples and a pending request starts. -/
  | fadeEnd (n : RingId) (c : Fin 4)
  /-- FADE_REQ (R232). A host FADE_REQ write makes a request host-pending, or sets the bank at once while stopped. -/
  | fadeReq (p : Port) (u : Sid) (n : RingId) (c : Fin 4) (b : Bool)
  /-- COEF_WRITE (R235). A coefficient write is applied or rejected under the fade state. -/
  | coefWrite (p : Port) (u : Sid) (n : RingId) (c : Fin 4) (b : Bool) (t : Fin 32) (v : Word)
  /-- TX_CTRL_WRITE (R246). A TX CTRL write enables the channel or changes MODE through zero. -/
  | txCtrlWrite (p : Port) (u : Sid) (n : RingId) (c : Fin 4) (v : Word)
  /-- TX_FS_WRITE (R246). An FS write on an enabled channel ramps the leg currents through zero. -/
  | txFsWrite (p : Port) (u : Sid) (n : RingId) (c : Fin 4) (v : Word)
  /-- TX_SETTLE_END (R246). The MODE hold or FS ramp ends and SETTLING returns to 0. -/
  | txSettleEnd (n : RingId) (c : Fin 4)
  /-- BIAS_TARGET_WRITE (R252). A host TARGET write enters an entry into the bias update queue. -/
  | biasTargetWrite (p : Port) (u : Sid) (n : RingId) (b : Fin 4) (v : Word)
  /-- BIAS_TAKE (R253). The slew limiter takes the oldest queue entry as its target and steps or starts slewing. -/
  | biasTake (n : RingId) (b : Fin 4)
  /-- BIAS_SLEW_END (R253). The limiter value reaches the target and SLEWING clears. -/
  | biasSlewEnd (n : RingId) (b : Fin 4)
  /-- SPAN_WRITE (R257). A SPAN write starts the span change: move to 0, hold, switch gain, move to the new code. -/
  | spanWrite (p : Port) (u : Sid) (n : RingId) (b : Fin 4) (v : Word)
  /-- SPAN_SETTLE_END (R257). After the 1,500-beat hold the new span comes into force and SETTLING clears. -/
  | spanSettleEnd (n : RingId) (b : Fin 4)
  /-- QCLR (R266). QCLR empties the bias queue and sets t = y. -/
  | qclr (p : Port) (u : Sid) (n : RingId) (b : Fin 4)
  /-- CLEAR_WRITE (R260). A CLEAR write sets the clear code, becoming the target at once while CLR_N is in force. -/
  | clearWrite (p : Port) (u : Sid) (n : RingId) (b : Fin 4) (v : Word)
  /-- CLR_N_ASSERT (R259). CLR_N in force empties every bias queue and moves every output to its clear code. -/
  | clrNAssert
  /-- CLR_N_RELEASE (R260). CLR_N release ends CLEARING; outputs stay at their clear codes. -/
  | clrNRelease
  /-- VBIAS_LOSS (R263). VBIAS leaving the valid range takes every bias output to high impedance. -/
  | vbiasLoss
  /-- VBIAS_VALID (R262). VBIAS valid for 1 ms drives the bias outputs at code 0 and then towards their clear codes. -/
  | vbiasValid
  /-- RX_CTRL_WRITE (R270). An RX CTRL write powers the converter or changes the zone and clears READY. -/
  | rxCtrlWrite (p : Port) (u : Sid) (n : RingId) (r : Fin 2) (v : Word)
  /-- RX_READY (R270). 15,000 beats after enable or zone change READY returns to 1. -/
  | rxReady (n : RingId) (r : Fin 2)
  /-- RX_CLIP (R272). A pin beat with a clipped sample sets OVR_NOW, OVR and OVR_BEATS, and NBR_OVR on its neighbours. -/
  | rxClip (n : RingId) (r : Fin 2)
  /-- OVERLOAD_REMOVED (R273). The first unclipped pin beat after an overload starts the recovery periods. -/
  | overloadRemoved (n : RingId) (r : Fin 2)
  /-- WINDOW_CLOSE (R285). An integration window closes in beat C = A + 26 + L. -/
  | windowClose (n : RingId) (l : Fin 32)
  /-- COARSE_RESULT (R320). At C + 4 the coarse result and RINFO are written and CRDY set. -/
  | coarseResult (n : RingId) (l : Fin 32)
  /-- FINE_RESULT (R320). At C + 18 the fine result is written, FRDY set and the record written. -/
  | fineResult (n : RingId) (l : Fin 32)
  /-- RAW_ARM (R299). RAW_CMD ARM arms the raw-capture buffer. -/
  | rawArm (p : Port) (u : Sid) (n : RingId) (r : Fin 2)
  /-- RAW_START (R299). RAW_CMD START starts a capture from pin beat E + 6. -/
  | rawStart (p : Port) (u : Sid) (n : RingId) (r : Fin 2)
  /-- RAW_DISARM (R299). RAW_CMD DISARM returns an ARMED buffer to IDLE. -/
  | rawDisarm (p : Port) (u : Sid) (n : RingId) (r : Fin 2)
  /-- RAW_CAPTURE_END (R300). After LEN pin beats the capture ends and the buffer becomes FULL or PUSHING. -/
  | rawCaptureEnd (n : RingId) (r : Fin 2)
  /-- RAW_PUSH (R301). A PUSHING buffer is sent as CLASS_DATA frames and then re-armed or made FULL. -/
  | rawPush (n : RingId) (r : Fin 2)
  /-- JUG_CMD_START (R336). JUG_CMD START performs a Juggler start. -/
  | jugCmdStart (p : Port) (u : Sid) (n : RingId)
  /-- JUG_CMD_STOP (R337). JUG_CMD STOP stops issue at the next allowed boundary and enters HALTED. -/
  | jugCmdStop (p : Port) (u : Sid) (n : RingId)
  /-- DOORBELL (R337). DOORBELL sets IPEND bit 5. -/
  | doorbell (p : Port) (u : Sid) (n : RingId)
  /-- INTERRUPT_ENTRY (R331). A pending enabled interrupt is entered: PC and sr pushed, handler issued at B + 3. -/
  | interruptEntry (n : RingId)
  /-- JUG_TIMER_EXPIRY (R340). The Juggler timer reaches 0, sets IPEND bit 6 and stops. -/
  | jugTimerExpiry (n : RingId)
  /-- ILLEGAL_PACKET (R335). An illegal packet issues as NOP, sets ILLEGAL and records its address. -/
  | illegalPacket (n : RingId)
  /-- MOVE (R311). A class M or MOVE packet performs only its X and Y memory moves. -/
  | move (n : RingId)
  /-- MAC (R316). A single MAC or MPY accumulates a product into one accumulator. -/
  | mac (n : RingId)
  /-- MAC2 (R316). A dual MAC2 or MPY2 accumulates two products into a0 and a1. -/
  | mac2 (n : RingId)
  /-- MOV (R334). MOV copies src to dst. -/
  | mov (n : RingId)
  /-- JUG_ADD (R334). Juggler ADD adds modulo 2^32. -/
  | jugAdd (n : RingId)
  /-- JUG_SUB (R334). Juggler SUB subtracts modulo 2^32. -/
  | jugSub (n : RingId)
  /-- JUG_CMP (R334). Juggler CMP sets flags of dst - src. -/
  | jugCmp (n : RingId)
  /-- JUG_AND (R334). Juggler AND is bitwise. -/
  | jugAnd (n : RingId)
  /-- JUG_OR (R334). Juggler OR is bitwise. -/
  | jugOr (n : RingId)
  /-- JUG_XOR (R334). Juggler XOR is bitwise. -/
  | jugXor (n : RingId)
  /-- JUG_SHL (R334). Juggler SHL shifts left. -/
  | jugShl (n : RingId)
  /-- JUG_SHR (R334). Juggler SHR shifts right logically. -/
  | jugShr (n : RingId)
  /-- ASR (R334). ASR shifts right arithmetically. -/
  | asr (n : RingId)
  /-- NEG (R334). NEG negates src. -/
  | neg (n : RingId)
  /-- ABS (R318). ABS takes the saturated absolute value. -/
  | abs (n : RingId)
  /-- MIN (R334). MIN takes the signed minimum. -/
  | min (n : RingId)
  /-- MAX (R334). MAX takes the signed maximum. -/
  | max (n : RingId)
  /-- ADDS (R318). ADDS adds with saturation. -/
  | adds (n : RingId)
  /-- SUBS (R318). SUBS subtracts with saturation. -/
  | subs (n : RingId)
  /-- ACLR (R334). ACLR clears an accumulator. -/
  | aclr (n : RingId)
  /-- AMOV (R334). AMOV loads an accumulator from src, sign-extended. -/
  | amov (n : RingId)
  /-- AADD (R334). AADD adds the other accumulator. -/
  | aadd (n : RingId)
  /-- ASUB (R334). ASUB subtracts the other accumulator. -/
  | asub (n : RingId)
  /-- ASHL (R334). ASHL shifts an accumulator left. -/
  | ashl (n : RingId)
  /-- ASHR (R334). ASHR shifts an accumulator right arithmetically. -/
  | ashr (n : RingId)
  /-- ANEG (R334). ANEG negates an accumulator. -/
  | aneg (n : RingId)
  /-- AABS (R334). AABS takes an accumulator's absolute value. -/
  | aabs (n : RingId)
  /-- SGNB (R334). SGNB shifts the sign bit of src into dst. -/
  | sgnb (n : RingId)
  /-- ABSOLUTE_MOVE (R313). A class B packet moves any register to or from an addressed X or Y word. -/
  | absoluteMove (n : RingId)
  /-- JUG_NOP (R334). Juggler NOP does nothing. -/
  | jugNop (n : RingId)
  /-- JUG_HALT (R337). Juggler HALT behaves as STOP taken after the packet. -/
  | jugHalt (n : RingId)
  /-- JUG_BR (R325). Juggler BR branches with two delay slots. -/
  | jugBr (n : RingId)
  /-- BRR (R325). BRR branches to an address held in a d register. -/
  | brr (n : RingId)
  /-- JUG_CALL (R326). Juggler CALL pushes the return address and branches. -/
  | jugCall (n : RingId)
  /-- JUG_RET (R326). Juggler RET pops an address and branches. -/
  | jugRet (n : RingId)
  /-- RTI (R332). RTI pops an entry and restores PC and, for interrupt entries, sr. -/
  | rti (n : RingId)
  /-- DO (R327). DO sets up the hardware loop. -/
  | doLoop (n : RingId)
  /-- JUG_WAIT (R329). Juggler WAIT holds issue until its ready or interrupt condition holds. -/
  | jugWait (n : RingId)
  /-- JUG_WAIT_RELEASE (R329). The WAIT condition holds and the next packet issues. -/
  | jugWaitRelease (n : RingId)
  /-- JUG_LDI (R334). Juggler LDI loads a 16-bit immediate, low or high half. -/
  | jugLdi (n : RingId)
  /-- LDR (R334). LDR loads an immediate into a pointer, offset, modulo, loop or status register. -/
  | ldr (n : RingId)
  /-- MOVR (R334). MOVR copies any numbered register to another. -/
  | movr (n : RingId)
  /-- IN (R319). IN reads a port, optionally clearing a ready bit. -/
  | inPort (n : RingId)
  /-- OUT (R319). OUT writes a port: ready clears, mailbox, timer, masks or annotation. -/
  | outPort (n : RingId)
  /-- POST (R323). POST posts a decision to rings and optionally over Trapeze. -/
  | post (n : RingId)
  /-- RND (R317). RND rounds and saturates an accumulator into a d register. -/
  | rnd (n : RingId)
  /-- TRAPEZE_START (R352). Link CMD START begins bring-up of both directions. -/
  | trapezeStart (p : Port) (u : Sid) (k : Fin 4)
  /-- TRAPEZE_STOP (R354). Link CMD STOP takes the link to OFF. -/
  | trapezeStop (p : Port) (u : Sid) (k : Fin 4)
  /-- TRAINING_PATTERN_END (R352). 150,000 beats after START the transmitter ends D21.5 and sends idle, marker and TIME flits. -/
  | trainingPatternEnd (k : Fin 4)
  /-- LINK_STATE_ADVANCE (R352). A receiver bring-up state's leaving condition is met and the next state is entered. -/
  | linkStateAdvance (k : Fin 4)
  /-- LINK_UP (R352). After TRAIN_DONE from the partner the link becomes UP at the next marker boundary. -/
  | linkUp (k : Fin 4)
  /-- LINK_FAIL (R353). A bring-up failure or loss of clock, frequency, delay or lane lock takes the link to FAILED. -/
  | linkFail (k : Fin 4) (c : LinkCause)
  /-- TIME_FLIT_RECEIVE (R350). A TIME flit gives a measurement of the link delay D. -/
  | timeFlitReceive (k : Fin 4) (x : BitVec 64)
  /-- FLIT_DISCARD (R347). A flit with a CRC, type, code or symbol-mix error is discarded and counted. -/
  | flitDiscard (k : Fin 4) (x : BitVec 64) (f : LaneSigns)
  /-- DEC_FLIT_TRANSMIT (R364). A DEC flit takes a transmit slot after its post beat or forwarding. -/
  | decFlitTransmit (k : Fin 4)
  /-- DEC_FLIT_RECEIVE (R365). A received DEC is forwarded and held in the release buffer or discarded. -/
  | decFlitReceive (k : Fin 4) (x : BitVec 64)
  /-- DEC_RELEASE (R365). At its release beat a held DEC writes the importing rings' dr. -/
  | decRelease
  /-- BARRIER_ARRIVE (R368). The chip arrives in a barrier and broadcasts a BAR flit. -/
  | barrierArrive (b : Fin 16)
  /-- BAR_FLIT_RECEIVE (R369). A received BAR flit records a chip's arrival or is discarded with BAR_MISMATCH. -/
  | barFlitReceive (k : Fin 4) (x : BitVec 64)
  /-- BARRIER_RELEASE (R370). At release beat R the waiting rings go on and ARMED rings start. -/
  | barrierRelease (b : Fin 16)
  /-- TRAPEZE_ABORT_SEND (R371). TRP_ABORT SEND, or an accepted abort in an OUT ring, broadcasts an ABORT flit. -/
  | trapezeAbortSend (p : Port) (u : Sid) (v : Word)
  /-- ABORT_FLIT_RECEIVE (R372). A received ABORT flit delivers a Trapeze abort to the IN rings 2 beats later. -/
  | abortFlitReceive (k : Fin 4) (x : BitVec 64)
  /-- TMARK_FLIT_RECEIVE (R394). A received TMARK flit becomes a time-interval event at its local beat. -/
  | tmarkFlitReceive (k : Fin 4) (x : BitVec 64)
  /-- TRAIN_DONE (R352). A received LCTL TRAIN_DONE marks the partner trained. -/
  | trainDone (k : Fin 4) (x : BitVec 64)
  /-- MIRROR_REQ (R356). A received MIRROR_REQ makes the transmitter copy the named lane on the spare. -/
  | mirrorReq (k : Fin 4) (x : BitVec 64)
  /-- SWAPPED (R356). A received SWAPPED makes the transmitter raise LANE_SPARED. -/
  | swapped (k : Fin 4) (x : BitVec 64)
  /-- RETURNED (R357). A received RETURNED makes the transmitter resume rotation and raise LANE_RETURNED. -/
  | returned (k : Fin 4) (x : BitVec 64)
  /-- LANE_FAILING (R356). A data lane reaches ERR_THR or loses markers and the receiver requests mirroring. -/
  | laneFailing (k : Fin 4) (j : Fin 9)
  /-- LANE_SWAP (R356). After the shadow match the receiver takes the lane's byte from the spare. -/
  | laneSwap (k : Fin 4)
  /-- SPARE_BAD (R355). Spare errors or a failed match mark the spare bad until the next START. -/
  | spareBad (k : Fin 4)
  /-- LANE_RETURN (R357). After RETURN_MS clean ms the receiver takes the lane back. -/
  | laneReturn (k : Fin 4)
  /-- SNAP_CAPTURE (R378). SNAP_CMD CAPTURE copies BEATCOUNT and network time of one beat. -/
  | snapCapture (p : Port) (u : Sid)
  /-- ADJ_ARM (R380). ADJ_CTRL ARM makes a staged time adjustment pending. -/
  | adjArm (p : Port) (u : Sid) (mode : Bool)
  /-- ADJ_CANCEL (R380). ADJ_CTRL CANCEL voids a pending adjustment. -/
  | adjCancel (p : Port) (u : Sid)
  /-- ADJUSTMENT_APPLY (R381). At ADJ_BEAT the new INCREMENT and OFFSET take effect. -/
  | adjustmentApply
  /-- PTP_MESSAGE_RECEIVE (R384). A received PTP message is timestamped and processed or discarded. -/
  | ptpMessageReceive (p : Port) (m : PtpMsg)
  /-- PTP_MESSAGE_SEND (R386). A sent PTP event message is timestamped in flight or queued in the timestamp queue. -/
  | ptpMessageSend (p : Port) (typ : BitVec 4)
  /-- PTP_HOLDOVER (R388). No Sync for announceReceiptTimeout intervals puts the servo in HOLDOVER. -/
  | ptpHoldover
  /-- TRIGGER_EDGE (R390). A trigger edge is timestamped, offered to the units and sets ring latches, or is lost. -/
  | triggerEdge (i : Fin 8) (bin : Nat) (rise : Bool)
  /-- TRIG_LATCH_CLEAR (R392). A TRIG_LCLR write clears ring trigger latches. -/
  | trigLatchClear (p : Port) (u : Sid) (n : RingId) (v : Word)
  /-- TIU_RUN (R396). TIU CMD RUN clears the statistics and starts the unit. -/
  | tiuRun (p : Port) (u : Sid) (k : Fin 4)
  /-- TIU_ABORT (R396). TIU CMD ABORT ends the run early. -/
  | tiuAbort (p : Port) (u : Sid) (k : Fin 4)
  /-- TIU_EVENT (R395). An event is handled 256 beats after its stamp: opens, closes or is orphaned. -/
  | tiuEvent (k : Fin 4)
  /-- TIU_DONE (R396). After N intervals or an abort the unit computes statistics and enters DONE. -/
  | tiuDone (k : Fin 4)
  /-- MARK_HOST (R401). A MARK HOST write acts as a MARK from the host. -/
  | markHost (p : Port) (u : Sid) (m : Fin 16) (v : Word)
  /-- CAL_BLOCK_EVALUATION (R408). At a block's evaluation beat the estimators and tests update trims, freezes and rotation. -/
  | calBlockEvaluation (r : Fin 24) (b : BlockStats)
  /-- INJECTION_START (R418). RXCAL INJ START starts an injected calibration at the next block boundary. -/
  | injectionStart (p : Port) (u : Sid) (r : Fin 24) (v : Word)
  /-- CAL_APPLY_WRITE (R413). A CAL_APPLY write requests an APPLY of a die. -/
  | calApplyWrite (p : Port) (u : Sid) (v : Word)
  /-- APPLY (R411). An APPLY copies every shadow trim of a die to active in one beat. -/
  | applyDie (d : Fin 4)
  /-- SLICE_ROTATE (R422). After a match the spare slice takes the slot at beat W and the incumbent becomes spare. -/
  | sliceRotate (r : Fin 24)
  /-- ROTATION_STEP_START (R422). GAP_MS after a swap the next rotation step starts. -/
  | rotationStepStart (r : Fin 24)
  /-- MONITOR_VISIT (R425). A monitor-receiver visit trims cell currents, measures delay and judges failing cells. -/
  | monitorVisit (d : Fin 4) (m : MonVisit)
  /-- CAL_SAVE (R429). CAL_STORE SAVE starts a calibration store. -/
  | calSave (p : Port) (u : Sid)
  /-- CLR_SAVE (R429). CAL_STORE CLR_SAVE starts a clear-code store. -/
  | clrSave (p : Port) (u : Sid)
  /-- CAL_STORE_PERIODIC (R429). PERIOD_MIN minutes after the last store a calibration store starts. -/
  | calStorePeriodic
  /-- STORE_COMPLETE (R429). An NVM store finishes its read-back and counts or sets STORE_FAIL. -/
  | storeComplete (ok : Bool)
  /-- ECC_WRITEBACK (R440). A corrected word is written back in the next free beat of its bank. -/
  | eccWriteback (a : Word)
  /-- SCRUB_READ (R441). The scrubber reads an array word in a free beat. -/
  | scrubRead (a : Word)
  /-- MTEST_START (R448). MTEST_CMD START begins a destructive or preserving march run. -/
  | mtestStart (p : Port) (u : Sid)
  /-- MTEST_ABORT (R457). MTEST_CMD ABORT ends the run after the present window. -/
  | mtestAbort (p : Port) (u : Sid)
  /-- WINDOW_BORROW (R450). GAP beats after a release the engine borrows the next row as a window. -/
  | windowBorrow
  /-- WINDOW_RELEASE (R450). After the march the window is restored, repaired if faulty and released. -/
  | windowRelease (faulty : Bool)
  /-- WINDOW_ABANDON (R451). A real-time access to a borrowed window restores it, serves the access and abandons the test. -/
  | windowAbandon (faulty : Bool)
  /-- MTEST_DONE (R449). A destructive run completes, repairs and clears the instance. -/
  | mtestDone (faults : List Nat)
  /-- REPMAP_SAVE (R453). REPMAP_CTRL SAVE stores the repair map. -/
  | repmapSave (p : Port) (u : Sid)
  /-- RET_MODE_WRITE (R454). A RET MODE write puts ring memories into on, retention or off. -/
  | retModeWrite (p : Port) (u : Sid) (n : RingId) (v : Word)
  /-- RET_WAKE_DONE (R455). A wake ends and the memories are on, cleared after off. -/
  | retWakeDone (n : RingId)
  /-- CAROUSEL_START (R459). CAR CMD START sets a slot RUNNING at start pin beat P0. -/
  | carouselStart (p : Port) (u : Sid) (i : Fin 8)
  /-- CAROUSEL_STOP (R460). CAR CMD STOP sets STOPPING to finish the present spectrum. -/
  | carouselStop (p : Port) (u : Sid) (i : Fin 8)
  /-- CAROUSEL_FRAME (R461). Every 1,024 beats the slot produces a frame of 4,096 bins into the accumulator. -/
  | carouselFrame (i : Fin 8)
  /-- SPECTRUM_READY (R465). A spectrum becomes ready, is counted and pushed or thinned. -/
  | spectrumReady (i : Fin 8)
  /-- SPECTRUM_PUSH (R469). A ready spectrum is sent in CLASS_DATA operations. -/
  | spectrumPush (i : Fin 8)
  /-- HK_ROUND_START (R477). A housekeeping round starts, after the previous one or at a fan PWM edge. -/
  | hkRoundStart (edge : Bool)
  /-- HK_CONVERSION (R473). A housekeeping slot conversion completes and its reading is judged. -/
  | hkConversion (code : BitVec 12) (val : Int)
  /-- SHUTDOWN_POWER_DOWN (R486). When NVM writes end or 3 ms pass, TX ramps to 0 mA and converters power down. -/
  | shutdownPowerDown
  /-- SHUTDOWN_DONE (R486). 150,000 beats after power-down SHUT_DONE is set. -/
  | shutdownDone
  /-- HARD_TRIP (R487). Four comparator samples above 122 C pull THERM_TRIP_N low and force all outputs safe. -/
  | hardTrip (i : Fin 16)
  /-- FAN_TACH_UPDATE (R488). Every 1 s the fan RPM updates and FAN_FAIL may be set. -/
  | fanTachUpdate (f : Fin 2) (pulses : BitVec 16)
  /-- TELEMETRY_PUSH (R489). Every EVERY-th round is pushed as a CLASS_DATA operation. -/
  | telemetryPush
  /-- FW_UPDATE_START (R496). FW_UPD_CMD START copies, checks and writes a firmware image. -/
  | fwUpdateStart (p : Port) (u : Sid)
  /-- FW_UPDATE_COMPLETE (R496). The update ends with RESULT set and STATE DONE. -/
  | fwUpdateComplete (readBack : Bool)
  /-- FUSE_MIN_SVN (R497). FUSE_CMD OP 1 raises MIN_SVN to the running SVN. -/
  | fuseMinSvn (p : Port) (u : Sid) (confirm : BitVec 16)
  /-- FUSE_REVOKE (R497). FUSE_CMD OP 2 sets REVOKED[0]. -/
  | fuseRevoke (p : Port) (u : Sid) (confirm : BitVec 16)
  /-- FUSE_WRITE_COMPLETE (R497). A fuse write completes and RESULT is set. -/
  | fuseWriteComplete
  /-- ATTESTATION_START (R500). ATT_CMD START signs an attestation report over the nonce. -/
  | attestationStart (p : Port) (u : Sid)
  /-- ATTESTATION_COMPLETE (R500). The new report replaces the old one and ATT_COUNT increments. -/
  | attestationComplete
  /-- OWNER_CHECK (R503). OWN_CMD CHECK verifies a ring's program against the owner key. -/
  | ownerCheck (p : Port) (u : Sid) (n : RingId)
  /-- OWNER_LOCK (R503). OWN_CMD LOCK enrols an owner key and sets OWNER_LOCK. -/
  | ownerLock (p : Port) (u : Sid) (confirm : BitVec 16)
  /-- OWNER_UNLOCK (R503). OWN_CMD UNLOCK clears the owner lock. -/
  | ownerUnlock (p : Port) (u : Sid) (confirm : BitVec 16)
  /-- OWNER_OP_COMPLETE (R503). An owner operation ends and its RESULT and OK bits are set. -/
  | ownerOpComplete
  /-- RESET_ASSERT (R512). VDDIO low, PWR_OK low or RESET_N low puts the device into reset. -/
  | resetAssert (c : ResetCause)
  /-- RESET_END (R512). 10 us after the last reset condition ceases the device samples straps and starts up. -/
  | resetEnd
  /-- RST_CMD_RESET (R514). RST_CMD RESET schedules a reset 15,000 beats later. -/
  | rstCmdReset (p : Port) (u : Sid) (confirm : BitVec 16)
  /-- SOFTWARE_RESET_EXPIRY (R514). 15,000 beats after RST_CMD the reset begins. -/
  | softwareResetExpiry
  /-- STARTUP_PHASE_COMPLETE (R522). A start-up phase completes and the next begins, or recovery or test is entered. -/
  | startupPhaseComplete (faults : List (Nat × Nat × Nat))
  /-- LINK_PHASE_TIMEOUT (R523). 2,000 ms after phase 0x4 began the device enters ready without a port UP. -/
  | linkPhaseTimeout
  /-- REF_CLK_LOST (R519). REF_CLK lost puts the PLLs in holdover, clears DB_VALID and fails UP links. -/
  | refClkLost
  /-- RELOCK (R520). CLK_CMD RELOCK starts a relock of the PLLs. -/
  | relock (p : Port) (u : Sid)
  /-- RELOCK_DONE (R520). The relock ends, BEATCOUNT advances to a multiple of 6 and RELOCKED is set. -/
  | relockDone
  /-- ETHREF_LOST (R521). ETH_REFCLK lost puts the management PLL in holdover and the ports lose alignment. -/
  | ethrefLost
  /-- ETHREF_RELOCK (R521). ETH_REFCLK returns and the management PLL relocks by itself. -/
  | ethrefRelock
  /-- SYNC_CAPTURE (R530). A SYNC_IN pulse is captured, recorded and, if armed, sets DB_OFFSET and DB_VALID. -/
  | syncCapture
  /-- SYNC_ARM (R531). SYNC_CMD ARM arms the domain-beat alignment. -/
  | syncArm (p : Port) (u : Sid)
  /-- SYNC_CANCEL (R531). SYNC_CMD CANCEL ends an armed alignment. -/
  | syncCancel (p : Port) (u : Sid)
  /-- SYNC_PULSE (R533). SYNC_CMD PULSE drives a 12-beat SYNC_OUT pulse. -/
  | syncPulse (p : Port) (u : Sid)
  /-- SYNC_PULSE_PERIODIC (R533). With OUT_MODE 2 SYNC_OUT pulses every 6 x PERIOD_REF beats. -/
  | syncPulsePeriodic
  /-- BIAS_SAMPLE_TICK (R254). Every 60 beats on the ring's tick grid each bias converter takes the truncated limiter value and OUT.CODE
  updates. -/
  | biasSampleTick (n : RingId) (b : Fin 4)
  /-- UNIT_RELEASE (R152). A PLAYS segment has played its last sample from a stream unit; the unit is released and loses its filled mark,
  and the play pointer and credit limit advance. -/
  | unitRelease (n : RingId) (v : Fin 32)
  /-- PCS_LOCK_LOSS (R61). A port's PCS loses alignment-marker lock; the 15,000-beat loss count starts, and a port in SHADOW restarts its
  shadow period. -/
  | pcsLockLoss (p : Port)
  /-- UNCORRECTABLE_CODEWORD (R63). A port receives an uncorrectable FEC codeword; it sets FEC_UNC, counts FEC_UNCORR, restarts the shadow
  period and counts towards the 8-codeword loss condition. -/
  | uncorrectableCodeword (p : Port)
  /-- MARKER_FLIT (R345). When DB mod 256 reaches 255 each link transmitter sends a marker flit; marker-boundary actions follow: spare
  rotation, mirror start, swap, return, UP and the TIME flit slot. -/
  | markerFlit (k : Fin 4)
  /-- MARKER_EDGE (R399). A placed marker edge reaches the MARK output at its instant; the level changes, PULSE ends on a falling edge, the
  edge goes to the time-interval units and TMARK flits are sent. -/
  | markerEdge (m : Fin 16)
  /-- REF_CLK_RETURN (R520). REF_CLK has again been present and within limits for 1 ms, and CLK_STATUS.REF_OK becomes 1, so RELOCK is allowed. -/
  | refClkReturn
  /-- BIAS_CURRENT_LIMIT_OR_SENSE_OPEN (R264). A bias output limits its current, or its force and sense differ by more than 100 mV, and it
  sets ILIM or SENSE_OPEN. -/
  | biasCurrentLimitOrSenseOpen (n : RingId) (b : Fin 4) (ilim : Bool) (senseOpen : Bool)
  deriving DecidableEq, Repr

end Sys2Proof
end

