-- ==== Sys2Proof/Decode.lean ====
section
/-! DEFINITION. The words of the table of operations. The table of this hardware gives no row bits, so no word spells a
command. -/

namespace Sys2Proof

/-- The command that a word spells by the table's bits: none, because no row of spec/opcode_table.json has a bit field. The
bytes of the host's messages are read by RCP_REQUEST, and instruction words by the machines that fetch them. -/
def decodeTableWord (_nbits _w : Nat) : Option Instr := none

end Sys2Proof
end

