-- ==== Sys2Proof/Config.lean ====
section
/-! DEFINITION. What the spec leaves to the implementation or to chance, and what comes in from the analog world: constants
without a value, so that no proof can rest on one. Each is named in the assumption log. -/

namespace Sys2Proof.Config

/-- The session tag that the random source gives (R53), by the number of the draw. -/
opaque sessionTag : Nat → BitVec 32

/-- OWN_NONCE (R503, R507), by the number of the draw. -/
opaque ownNonce : Nat → BitVec 32

/-- What the microcode ROM of ring `n` holds at a microaddress (R174, R177): each microcode version's own. -/
opaque microRom (n : Nat) (u : BitVec 12) : BitVec 128

/-- The bits that ring `n` reads wrong in beat `b` at a microaddress of copy A or B, the parity bits above the others (R174). -/
opaque microFlips (n b : Nat) (copyB : Bool) (u : BitVec 12) : BitVec 132

/-- The traffic class byte of the device's IPv4 datagrams. -/
opaque ipTos : BitVec 8
/-- Traffic class and flow label of the device's IPv6 packets. -/
opaque ipFlow : BitVec 28
/-- TTL or hop limit of the device's datagrams. -/
opaque ipHops : BitVec 8
/-- The identification of an IPv4 datagram sent in beat `b`. -/
opaque ipIdent (b : Nat) : BitVec 16
/-- Whether the device's IPv4 datagrams forbid fragmenting. -/
opaque ipDontFragment : Bool

/-- How many codewords port `p` corrects in beat `b` (R90). -/
opaque fecCorrected (p b : Nat) : Nat

/-- What a poll of the module of a port finds (R40), by the number of the draw: presence. -/
opaque modPresent : Nat → Bool
/-- What a poll of the module of a port finds (R40), by the number of the draw: alarms. -/
opaque modAlarm : Nat → BitVec 32
/-- The 256 bytes of the lower memory page and upper page 0x00 of a module (R40), by the number of the draw. -/
opaque modPages : Nat → Vector (BitVec 8) 256

/-- Whether condition `c` of the routine that ring `n` runs in beat `b` holds (R177). -/
opaque microCond (n b c : Nat) : Bool

/-- The errors that appear in array words in beat `b` (R438): byte address of the word, damaged byte of its codeword, and the bits that
flip. -/
opaque upsets (b : Nat) : List (Nat × Nat × BitVec 8)

/-- What the decoder makes of an array word with more damaged bytes than it can correct (R438): nothing, so that the word is uncorrectable,
or a wrong correction, which leaves these bits of its data bytes flipped. -/
opaque miscorrected (errs : List (Nat × BitVec 8)) : Option (List (BitVec 8))

/-- Whether the bank of the array word at byte address `a` is free of requests in beat `b` (R437, R440, R441), in a memory of which the
spec does not give the banks. -/
opaque bankFree (a b : Nat) : Bool

/-- Whether an oscillator gives the upper one of two integers that are about as near to its true value (R213, R278): a lane's or a voice's,
sine or cosine, by its 20-bit phase. -/
opaque ncoUp (lane sine : Bool) (phase : BitVec 20) : Bool

/-- Where within sample `j` (0 to 191) the raised cosine of R16 is taken, in steps of 2^-16 of the weight. -/
opaque rampWithin (j : Nat) : Nat

/-- Coefficients of the fractional delay for a nonzero FRAC (R236): tap `t` of 16, with 16 fractional bits. -/
opaque fracTap : BitVec 6 → Nat → Int

/-- The signals at the pins of RX channel `r` (global) at sample `i` of pin beat `b`, noise among them, in nanovolts (R267, R569). -/
opaque rxSignals (r b i : Nat) : List Int

/-- Where between two TX samples sample `i` of pin beat `b` of RX channel `r` falls in loopback, in 2^-16 (R570). -/
opaque loopWithin (r b i : Nat) : Nat
/-- The noise of sample `i` of pin beat `b` of RX channel `r` in loopback, in 2^-16 codes (R560, R570). -/
opaque loopNoise (r b i : Nat) : Nat
/-- The gain of the loopback coupler from TX channel `c` to RX channel `r`, in millionths of -20 dB beyond the least of R271. -/
opaque loopGain (r c : Nat) : Nat

/-- RX_FREQ_OK of link `k` in beat `b`: whether the received clock drifts by less than 1/8 cycle (R353). -/
opaque rxFreqOk (k b : Nat) : Bool

/-- The bin of beat `b` in which the timestamp point of a frame that leaves port `p` in it passes the balls (R385). -/
opaque ptpEgress (p b : Nat) : Fin 64
/-- The draw of a gap between two messages of one kind that the PTP instance sends (R384, R404). -/
opaque ptpGap : Nat → Nat
/-- clockAccuracy, offsetScaledLogVariance, currentUtcOffset and timeSource of the device as a grandmaster (R384). -/
opaque ptpAccuracy : BitVec 8
opaque ptpVariance : BitVec 16
opaque ptpUtcOffset : BitVec 16
opaque ptpTimeSource : BitVec 8
/-- The scope of the IPv6 multicast address of PTP (R384). -/
opaque ptpScope : BitVec 4

/-- Whether Fyndofen takes an entry of the transmit-timestamp queue of port `p` in beat `b` (R386). -/
opaque tsqTake (p b : Nat) : Bool

/-- The INCREMENT that the LOCKED servo asks for (R388), by the number of the draw. -/
opaque servoInc : Nat → Nat

/-- How many beats after a measurement the LOCKED servo's adjustment acts, beyond the 1,500 of R380. -/
opaque servoLead : Nat → Nat

/-- Whether a spare row is itself faulty (R452): memory code, instance, spare. -/
opaque spareFaulty (code inst k : Nat) : Bool

/-- Whether a march test finds its row faulty (R447), by the number of the draw. -/
opaque rowFaulty : Nat → Bool

/-- The faulty rows that a destructive run finds (R449), by the number of the draw. -/
opaque faultyRows : Nat → List Nat

/-- Whether the read-back of an NVM store is good (R429), by the number of the draw. -/
opaque readBack : Nat → Bool

/-- What the estimators of an RX channel find in a block (R408), by the number of the draw. -/
opaque blockStats : Nat → BlockStats

/-- The delay of the device's markers (R562), of which `State.markDelay` keeps what the limits leave open. -/
opaque markDelay : Nat

/-- How far marker output `m` lies from the others (R562), of which `State.markDelay` keeps what the limits leave open. -/
opaque markSkew (m : Nat) : Nat

/-- What a monitor visit finds (R425), by the number of the draw. -/
opaque monVisit : Nat → MonVisit

/-- Tap `j` of the prototype filter of the Carousel channeliser (R461), with 32 fractional bits; one tap is what makes the gain 1. -/
opaque carTap (j : Nat) : Int

/-- Whether a reference check of a round lies outside its factory window (R476), by the number of the draw. -/
opaque refFails : Nat → Bool

/-- The code of a housekeeping conversion (R473), by the number of the draw. -/
opaque hkCode : Nat → BitVec 12

/-- The converted value of a housekeeping conversion in the unit of its slot (R473), by the number of the draw. -/
opaque hkValue : Nat → Int

/-- The beat of a period of FAN_PWM[f] that beat 0 is (R488). -/
opaque pwmPhase (f : Nat) : Nat
/-- By how many beats the period of FAN_PWM[f] is longer than its shortest, which lies 1 % below that of 25 kHz (R488). -/
opaque pwmLonger (f : Nat) : Nat

/-- By how many beats the analog ramp of a bias output to 0 V is longer than its shortest (R529), modulo the width of the range. -/
opaque rampOff (k n b : Nat) : Nat

/-- The pulses of FAN_TACH in a second (R488), by the number of the draw. -/
opaque fanPulses : Nat → BitVec 16

/-- Whether fuse bit `i` of a write that was cut reads 1 (R502), by the number of the draw. -/
opaque fuseCut (k i : Nat) : Bool

/-- The certificate chain of the device, written at manufacture (R492, R499). -/
opaque certChain : List (BitVec 8)

/-- The 16 bytes that randomise a signature (R500), by the message that is signed. -/
opaque slhRandom (msg : List (BitVec 8)) : Vector (BitVec 8) 16

/-- The rows that the start-up march test finds faulty (R524), by the number of the draw: memory code, instance, row. -/
opaque startupFaults : Nat → List (Nat × Nat × Nat)

end Sys2Proof.Config
end

