-- ==== Sys2Proof/Machine/Bits.lean ====
section
/-! DEFINITION. Bit fields, byte order and saturation: the arithmetic helpers that every block uses. -/

namespace Sys2Proof.Machine

/-- The field `[hi:lo]` of a word as a number. -/
def fld {w : Nat} (x : BitVec w) (hi lo : Nat) : Nat := (x.toNat >>> lo) % 2 ^ (hi + 1 - lo)

/-- Bit `i` of a word. -/
def bit {w : Nat} (x : BitVec w) (i : Nat) : Bool := x.toNat.testBit i

/-- The mask of the field `[hi:lo]`. -/
def fieldMask (hi lo : Nat) : Nat := (2 ^ (hi + 1 - lo) - 1) <<< lo

/-- `x` with the field `[hi:lo]` set to `v`. -/
def putFld {w : Nat} (x : BitVec w) (hi lo v : Nat) : BitVec w :=
  (x &&& ~~~ BitVec.ofNat w (fieldMask hi lo)) ||| BitVec.ofNat w ((v <<< lo) &&& fieldMask hi lo)

/-- `x` with bit `i` set to `b`. -/
def putBit {w : Nat} (x : BitVec w) (i : Nat) (b : Bool) : BitVec w := putFld x i i b.toNat

/-- The number a two's complement field of `k` bits stands for (R7). -/
def toSigned (k x : Nat) : Int := if x % 2 ^ k < 2 ^ (k - 1) then (x % 2 ^ k : Nat) else ((x % 2 ^ k : Nat) : Int) - 2 ^ k

/-- The signed field `[hi:lo]`. -/
def sfld {w : Nat} (x : BitVec w) (hi lo : Nat) : Int := toSigned (hi + 1 - lo) (fld x hi lo)

/-- `x` saturated to a signed number of `k` bits. -/
def sat (k : Nat) (x : Int) : Int := max (-(2 ^ (k - 1))) (min (2 ^ (k - 1) - 1) x)

/-- Whether `x` fits in a signed number of `k` bits. -/
def fits (k : Nat) (x : Int) : Bool := decide (-(2 ^ (k - 1)) ≤ x ∧ x < 2 ^ (k - 1))

/-- `x / 2^k` rounded half up. -/
def roundShift (x : Int) (k : Nat) : Int := if k = 0 then x else Int.fdiv (x + 2 ^ (k - 1)) (2 ^ k)

/-- Low and high word of a 64-bit value. -/
def loWord (x : BitVec 64) : BitVec 32 := x.truncate 32
/-- The high word. -/
def hiWord (x : BitVec 64) : BitVec 32 := BitVec.ofNat 32 (x.toNat >>> 32)
/-- The 64-bit value of a low and a high word. -/
def pairWord (lo hi : BitVec 32) : BitVec 64 := BitVec.ofNat 64 (hi.toNat * 2 ^ 32 + lo.toNat)

/-- The `k` bytes of a number, little-endian (R8). -/
def leBytes : Nat → Nat → List Byte
  | 0, _ => []
  | k + 1, x => BitVec.ofNat 8 x :: leBytes k (x / 256)

/-- The number whose little-endian bytes are given (R8). -/
def ofLe : List Byte → Nat
  | [] => 0
  | b :: t => b.toNat + 256 * ofLe t

/-- The `k` bytes of a number in network order (R8). -/
def beBytes (k x : Nat) : List Byte := (leBytes k x).reverse

/-- Bytes `[off, off + k)` of a message as a little-endian number. -/
def leAt (m : List Byte) (off k : Nat) : Nat := ofLe ((m.drop off).take k)

/-- The 32-bit words of a byte sequence, little-endian; bytes left over are dropped. -/
def toWords : List Byte → List Word
  | a :: b :: c :: d :: t => BitVec.ofNat 32 (ofLe [a, b, c, d]) :: toWords t
  | _ => []

/-- The bytes of a sequence of words. -/
def ofWords (ws : List Word) : List Byte := ws.flatMap fun w => leBytes 4 w.toNat

/-- One bit of a reflected 32-bit CRC. -/
def crcBit (poly c : Nat) : Nat := if c % 2 = 1 then (c / 2) ^^^ poly else c / 2

/-- A reflected 32-bit CRC with all-ones start and final inversion. -/
def crc32 (poly : Nat) (bs : List Byte) : Nat :=
  (bs.foldl (fun c b => (List.range 8).foldl (fun c _ => crcBit poly c) (c ^^^ b.toNat)) 0xFFFFFFFF) ^^^ 0xFFFFFFFF

/-- Whether index `x` is below `y`, modulo 2^32 (R72). -/
def below (x y : BitVec 32) : Bool := decide (1 ≤ (y - x).toNat ∧ (y - x).toNat ≤ 2 ^ 31 - 1)

/-- The indices of a mask's 1 bits, below `k`, rising. -/
def onesOf {w : Nat} (m : BitVec w) (k : Nat) : List Nat := (List.range k).filter fun i => bit m i

/-- Number of 1 bits below `k`. -/
def popCount {w : Nat} (m : BitVec w) (k : Nat) : Nat := (onesOf m k).length

end Sys2Proof.Machine
end

