-- ==== Sys2Proof/Machine/Cells.lean ====
section
/-! DEFINITION. Sparse stores: a list of addresses and values in one canonical form, addresses strictly rising and no entry
equal to what an unlisted address reads as. The register file and the addressed memories are such stores. -/

namespace Sys2Proof.Machine

/-- Reads an address; `d` is what an unlisted address reads as. -/
def Cells.get {w : Nat} (d : Nat → BitVec w) : List (Nat × BitVec w) → Nat → BitVec w
  | [], a => d a
  | c :: t, a => if c.1 = a then c.2 else Cells.get d t a

/-- Writes an address; `d` is what this address reads as when unlisted. -/
def Cells.put {w : Nat} (d : BitVec w) : List (Nat × BitVec w) → Nat → BitVec w → List (Nat × BitVec w)
  | [], a, v => if v = d then [] else [(a, v)]
  | c :: t, a, v =>
    if a < c.1 then if v = d then c :: t else (a, v) :: c :: t
    else if a = c.1 then if v = d then t else (a, v) :: t
    else c :: Cells.put d t a v

/-- The canonical form: addresses strictly rising from above `lo`, and no entry equal to its unlisted value. -/
def Cells.wfFrom {w : Nat} (d : Nat → BitVec w) : Option Nat → List (Nat × BitVec w) → Bool
  | _, [] => true
  | lo, c :: t => (match lo with | none => true | some b => decide (b < c.1)) && decide (c.2 ≠ d c.1) &&
      Cells.wfFrom d (some c.1) t

/-- The canonical form of a store. -/
def Cells.wf {w : Nat} (d : Nat → BitVec w) (l : List (Nat × BitVec w)) : Bool := Cells.wfFrom d none l

/-- The addressed memories: what an unlisted byte reads as. Memories are cleared to 0 at start-up (R456). -/
def Memory.unlisted : Nat → BitVec 8 := fun _ => 0

/-- The canonical form of the addressed memories. -/
def Memory.wf (m : List Host.Cell) : Bool := Cells.wf Memory.unlisted m

end Sys2Proof.Machine
end

