-- ==== Sys2Proof/Machine/RegMap.lean ====
section
/-! DEFINITION. The register map: every register of the device, one name a 32-bit word, taken from the register tables
of the spec (R88-R94, R104, R105, R108, R109, R179, R186, R248, R249, R266, R303, R304, R341, R373, R374, R404, R405,
R433, R457, R472, R490, R507, R535). The registers of ring n lie at 0x0010_0000 + n x 0x0010_0000 (R31, R32). -/

namespace Sys2Proof.Machine

/-- The names of the registers. A 64-bit register is two words, `...Lo` and `...Hi` (R100). -/
inductive RegName where
  | sessCtrl | sessStatus | sessTimeout | sessLastSeq | leaseRing | leaseChip | leaseTime | ethCtrl | ethStatus 
  | ethFlags | ethFlagCnt0 | ethFecCorrLo | ethFecCorrHi | ethFecUncorrLo | ethFecUncorrHi | ethRxFramesLo 
  | ethRxFramesHi | ethTxFramesLo | ethTxFramesHi | ethRxDrop | ethDupDiscard | ethClasscDrop | ethPfcMap | ethPfcThr 
  | ethShadow | ethClasscLimit | ethFlagCnt1 | ethModule | netMacLo | netMacHi | netIpv4Addr | netIpv4Mask 
  | netIpv4Gw | netIpv6Addr | netIpv6Pfx | netVlan | netCtrl | resqCtrl | resqHwm | resqLwm | resqShotMax | resqFill 
  | resqNextIndex | resqFlags | resqFlagCnt | strmCfg | strmLimit | strmPlayptr | strmLow | strmFlags | strmFlagCnt 
  | strmTakeptr | schedFree | schedLead | schedFlags | schedFlagCnt | ident | revision | serialLo | serialHi | fwVer 
  | mcodeVer | chipStatus | sevFlags | sevFlagCnt | alertCtrl | carmineFirst | seqG | seqLc | seqDr | seqDrvf 
  | seqDrvc | seqSc | seqTb | seqSt | seqPc | seqRsc | seqUpc | seqTaq | seqIllPc | seqUser | seqStack | seqPflags 
  | seqPflagCnt0 | seqPflagCnt1 | seqCmd | seqStartCfg | seqState | seqCtrl | seqUdrVec | seqStartBeatLo 
  | seqStartBeatHi | seqFlags | seqFlagCnt0 | seqFlagCnt1 | seqAbortSrc | txCtrl | txFs | txDelay | txFadeLen 
  | txFadeReq | txStatus | txFlags | txFlagCnt | txDescInfo | txCellMap | txCoefA | txCoefB | voiceFreqLo 
  | voiceFreqHi | voicePhase | voiceAmp | voiceState | voiceAccHi | biasCtrl | biasSpan | biasTarget | biasRate 
  | biasStep | biasClear | biasOut | biasStatus | biasFlags | biasFlagCnt0 | biasFlagCnt1 | biasReadback 
  | biasMismatchThr | biasQclr | rxCtrl | rxStatus | rxFlags | rxFlagCnt | rxOvrBeatsLo | rxOvrBeatsHi | rxRawCtrl 
  | rxRawCmd | rxRawStatus | rxRawBeatLo | rxRawBeatHi | rxRawNum | laneCfg | laneShift | laneFreqLo | laneFreqHi 
  | lanePhase | lanePdly | laneKsel | laneState | laneFlags | laneFlagCnt0 | laneFlagCnt1 | laneLastCoarse 
  | laneLastFineLo | laneLastFineHi | jugCmd | jugCtrl | jugVbase | jugState | jugSr | jugMboxIn | jugMboxOut 
  | jugTimer | jugFlags | jugFlagCnt0 | jugFlagCnt1 | jugIllPc | jugFault | jugImc | jugImf | jugReg | trpDomain 
  | trpXport | trpBarlat | trpAbort | trpAbortChips | trpFlags | trpFlagCnt0 | trpFlagCnt1 | trpDbLo | trpDbHi 
  | trpStatus | trpBar | barStatus | barRel | trpImport | trpFwd | linkCmd | linkCtrl | linkStatus | linkDelay 
  | linkFlags | linkFlagCnt0 | linkFlagCnt1 | linkReturnMs | linkLaneErr | linkRxFlitsLo | linkRxFlitsHi 
  | linkTxFlitsLo | linkTxFlitsHi | beatcountLo | beatcountHi | incrementLo | incrementHi | offsetNsLo | offsetNsHi 
  | offsetSub | snapCmd | snapBeatLo | snapBeatHi | snapNsLo | snapNsHi | snapSub | adjIncLo | adjIncHi | adjOffNsLo 
  | adjOffNsHi | adjOffSub | adjBeatLo | adjBeatHi | adjCtrl | adjLastLo | adjLastHi | timeFlags | timeFlagCnt 
  | ptpCtrl | ptpInterval | ptpPrio | ptpStatus | ptpOffsetLo | ptpOffsetHi | ptpPathLo | ptpPathHi | ptpMeas 
  | ptpPortEgressPs | ptpPortIngressPs | ptpPortTsqStatus | ptpPortTsqFlags | ptpPortTsqFlagCnt | ptpPortTsqDrop 
  | trigCtrl | trigLastTs | trigLastSub | trigMissed | trigLatch | trigLclr | markCtrl | markHost | markState 
  | tsetOwner | tsetDelay | tsetWidth | markFlags | markFlagCnt | tiuCtrl | tiuN | tiuCmd | tiuStatus | tiuCount 
  | tiuMin | tiuMax | tiuStd | tiuMeanLo | tiuMeanHi | tiuFlags | tiuFlagCnt0 | tiuFlagCnt1 | tiuOrphans | calCtrl 
  | calConf | calRot | calApplyWait | calApply | calStatus | lastApplyLo | lastApplyHi | calFlags | calFlagCnt 
  | calStore | calStoreStatus | calSeq | calStores | rxcalStatus | rxcalConfA | rxcalConfB | rxcalInj | rxcalFlags 
  | rxcalFlagCnt | rxcalBlocks | txcal | txdly | biastrim | biastrimAct | rxtrim | rxtrimAct | txtrim | txtrimAct 
  | mtestCmd | mtestCfg | mtestStatus | mtestFaults | mtestFailAddr | mtestAbandon | scrubCtrl | scrubPasses 
  | eccCorrLo | eccCorrHi | eccUncorr | lastCorr | lastUncorr | memFlags | memFlagCnt0 | memFlagCnt1 | xmRetries 
  | repmapStatus | repmapCtrl | ret | spares | carCmd | carCfg | carInteg | carStatus | carSpecNum | carStartBeatLo 
  | carStartBeatHi | carThin | carFlags | carFlagCnt | hkCtrl | hkAinDelay | hkStatus | thermStatus | thermFlags 
  | thermFlagCnt0 | thermFlagCnt1 | throttleR | telemCtrl | hkVal | thermSens | supWin | supOor | fanCtrl | fanCurve 
  | fanTach | fanMinRpm | secStatus | fwUpdSrc | fwUpdLen | fwUpdCmd | fwUpdStatus | fuseCmd | fuseStatus | vkeyHash0 
  | vkeyHash1 | fwHash | ownAuth | ownCmd | ownSrc | ownNonce | ownStatus | ownHash | attCmd | attStatus | attCount 
  | attNonce | certLen | cert | attReport | rstCause | rstCmd | startupCfg | startupTime | clkStatus | clkCmd 
  | clkFlags | clkFlagCnt | syncCtrl | syncCmd | syncDbLo | syncDbHi | dbOffsetLo | dbOffsetHi | syncLastLo 
  | syncLastHi | syncFlags | syncFlagCnt | evlogWr | evlog 
  deriving DecidableEq, Repr

/-- The lease that covers a register (R64, R65, R88). -/
inductive LeaseKind where
  | ring | time | chip | session | leaseReg
  deriving DecidableEq, Repr

/-- One register of the map, relative to its block. `dims` gives stride and count of each index, widest stride first.
The masks say which bits carry each access code (R95); a bit in no mask is reserved. `pair` is 1 for the low and 2 for the
high word of a 64-bit register (R100, R101). -/
structure RegDesc where
  name : RegName
  off : Nat
  dims : List (Nat × Nat) := []
  lease : LeaseKind
  reset : BitVec 32 := 0
  rw : BitVec 32 := 0
  ro : BitVec 32 := 0
  wo : BitVec 32 := 0
  w1c : BitVec 32 := 0
  w1s : BitVec 32 := 0
  pair : Nat := 0
  deriving DecidableEq, Repr

/-- Registers of the block `chip` (R88, R89, R104, R105, R108, R109, R535). -/
def chipRegs : List RegDesc := [
  { name := .sessCtrl, off := 0x100, dims := [(0x10, 8)], lease := .session, reset := 0x40, rw := 0xF1 },
  { name := .sessStatus, off := 0x104, dims := [(0x10, 8)], lease := .session, ro := 0xFFFF0007 },
  { name := .sessTimeout, off := 0x108, dims := [(0x10, 8)], lease := .session, reset := 0x7D0, rw := 0xFFFF },
  { name := .sessLastSeq, off := 0x10C, dims := [(0x10, 8)], lease := .session, ro := 0xFFFFFFFF },
  { name := .leaseRing, off := 0x180, dims := [(0x4, 12)], lease := .leaseReg, reset := 0xF, rw := 0xF, wo := 0x80000000 },
  { name := .leaseChip, off := 0x1B0, lease := .leaseReg, reset := 0xF, rw := 0xF, wo := 0x80000000 },
  { name := .leaseTime, off := 0x1B4, lease := .leaseReg, reset := 0xF, rw := 0xF, wo := 0x80000000 },
  { name := .ident, off := 0x0, lease := .chip, reset := 0xED504824, ro := 0xFFFFFFFF },
  { name := .revision, off := 0x4, lease := .chip, reset := 0x200, ro := 0xFFFF },
  { name := .serialLo, off := 0x8, lease := .chip, ro := 0xFFFFFF, pair := 1 },
  { name := .serialHi, off := 0xC, lease := .chip, ro := 0xFFFFFFFF, pair := 2 },
  { name := .fwVer, off := 0x20, lease := .chip, ro := 0xFFFFFFFF },
  { name := .mcodeVer, off := 0x24, lease := .chip, reset := 0x200, ro := 0xFFFF },
  { name := .chipStatus, off := 0x10, lease := .chip, ro := 0xFFFFF2FF },
  { name := .sevFlags, off := 0x200, lease := .chip, w1c := 0x7 },
  { name := .sevFlagCnt, off := 0x204, lease := .chip, ro := 0xFFFFFF },
  { name := .alertCtrl, off := 0x208, lease := .chip, reset := 0x4, rw := 0x7 },
  { name := .carmineFirst, off := 0x20C, lease := .chip, ro := 0xFFFFFF00 },
  { name := .rstCause, off := 0x400, lease := .chip, ro := 0xFFFF001F },
  { name := .rstCmd, off := 0x404, lease := .chip, wo := 0xFFFF0001 },
  { name := .startupCfg, off := 0x408, lease := .chip, rw := 0x1 },
  { name := .startupTime, off := 0x40C, lease := .chip, ro := 0xFFFFFFFF },
  { name := .clkStatus, off := 0x410, lease := .chip, ro := 0xFF },
  { name := .clkCmd, off := 0x414, lease := .chip, w1s := 0x1 },
  { name := .clkFlags, off := 0x418, lease := .chip, w1c := 0x7 },
  { name := .clkFlagCnt, off := 0x41C, lease := .chip, ro := 0xFFFFFF },
  { name := .syncCtrl, off := 0x420, lease := .chip, reset := 0x40000, rw := 0xFFFFFF13 },
  { name := .syncCmd, off := 0x424, lease := .chip, wo := 0x6, w1s := 0x1 },
  { name := .syncDbLo, off := 0x428, lease := .chip, rw := 0xFFFFFFFF, pair := 1 },
  { name := .syncDbHi, off := 0x42C, lease := .chip, rw := 0xFFFFFFFF, pair := 2 },
  { name := .dbOffsetLo, off := 0x430, lease := .chip, ro := 0xFFFFFFFF, pair := 1 },
  { name := .dbOffsetHi, off := 0x434, lease := .chip, ro := 0xFFFFFFFF, pair := 2 },
  { name := .syncLastLo, off := 0x438, lease := .chip, ro := 0xFFFFFFFF, pair := 1 },
  { name := .syncLastHi, off := 0x43C, lease := .chip, ro := 0xFFFFFFFF, pair := 2 },
  { name := .syncFlags, off := 0x440, lease := .chip, w1c := 0x3 },
  { name := .syncFlagCnt, off := 0x444, lease := .chip, ro := 0xFFFF },
  { name := .evlogWr, off := 0x210, lease := .chip, ro := 0xFFFFFFFF },
  { name := .evlog, off := 0x1000, dims := [(0x10, 256), (0x4, 4)], lease := .chip, ro := 0xFFFFFFFF }]

/-- Registers of the block `eth` (R90, R91, R92, R93, R94). -/
def ethRegs : List RegDesc := [
  { name := .ethCtrl, off := 0x0, dims := [(0x1000, 2)], lease := .chip, reset := 0x300, rw := 0x330 },
  { name := .ethStatus, off := 0x4, dims := [(0x1000, 2)], lease := .chip, ro := 0x1FF1F },
  { name := .ethFlags, off := 0x8, dims := [(0x1000, 2)], lease := .chip, w1c := 0x3F },
  { name := .ethFlagCnt0, off := 0xC, dims := [(0x1000, 2)], lease := .chip, ro := 0xFFFFFFFF },
  { name := .ethFecCorrLo, off := 0x10, dims := [(0x1000, 2)], lease := .chip, ro := 0xFFFFFFFF, pair := 1 },
  { name := .ethFecCorrHi, off := 0x14, dims := [(0x1000, 2)], lease := .chip, ro := 0xFFFFFFFF, pair := 2 },
  { name := .ethFecUncorrLo, off := 0x18, dims := [(0x1000, 2)], lease := .chip, ro := 0xFFFFFFFF, pair := 1 },
  { name := .ethFecUncorrHi, off := 0x1C, dims := [(0x1000, 2)], lease := .chip, ro := 0xFFFFFFFF, pair := 2 },
  { name := .ethRxFramesLo, off := 0x20, dims := [(0x1000, 2)], lease := .chip, ro := 0xFFFFFFFF, pair := 1 },
  { name := .ethRxFramesHi, off := 0x24, dims := [(0x1000, 2)], lease := .chip, ro := 0xFFFFFFFF, pair := 2 },
  { name := .ethTxFramesLo, off := 0x28, dims := [(0x1000, 2)], lease := .chip, ro := 0xFFFFFFFF, pair := 1 },
  { name := .ethTxFramesHi, off := 0x2C, dims := [(0x1000, 2)], lease := .chip, ro := 0xFFFFFFFF, pair := 2 },
  { name := .ethRxDrop, off := 0x30, dims := [(0x1000, 2)], lease := .chip, ro := 0xFFFFFFFF },
  { name := .ethDupDiscard, off := 0x34, dims := [(0x1000, 2)], lease := .chip, ro := 0xFFFFFFFF },
  { name := .ethClasscDrop, off := 0x38, dims := [(0x1000, 2)], lease := .chip, ro := 0xFFFFFFFF },
  { name := .ethPfcMap, off := 0x40, dims := [(0x1000, 2)], lease := .chip, reset := 0x1566, rw := 0x7777 },
  { name := .ethPfcThr, off := 0x44, dims := [(0x1000, 2)], lease := .chip, reset := 0x1000080, rw := 0x3FF03FF },
  { name := .ethShadow, off := 0x48, dims := [(0x1000, 2)], lease := .chip, reset := 0x64, rw := 0xFFFF },
  { name := .ethClasscLimit, off := 0x4C, dims := [(0x1000, 2)], lease := .chip, reset := 0xC8, rw := 0x1FF },
  { name := .ethFlagCnt1, off := 0x50, dims := [(0x1000, 2)], lease := .chip, ro := 0xFFFF },
  { name := .ethModule, off := 0x400, dims := [(0x1000, 2), (0x4, 64)], lease := .chip, ro := 0xFFFFFFFF },
  { name := .netMacLo, off := 0x2000, lease := .chip, rw := 0xFFFFFFFF, pair := 1 },
  { name := .netMacHi, off := 0x2004, lease := .chip, rw := 0xFFFF, pair := 2 },
  { name := .netIpv4Addr, off := 0x2008, lease := .chip, rw := 0xFFFFFFFF },
  { name := .netIpv4Mask, off := 0x200C, lease := .chip, reset := 0x18, rw := 0x3F },
  { name := .netIpv4Gw, off := 0x2010, lease := .chip, rw := 0xFFFFFFFF },
  { name := .netIpv6Addr, off := 0x2020, dims := [(0x4, 4)], lease := .chip, rw := 0xFFFFFFFF },
  { name := .netIpv6Pfx, off := 0x2030, lease := .chip, reset := 0x40, rw := 0xFF },
  { name := .netVlan, off := 0x2034, lease := .chip, rw := 0x8FFF },
  { name := .netCtrl, off := 0x2038, lease := .chip, w1s := 0x3 },
  { name := .resqCtrl, off := 0x3000, dims := [(0x20, 12)], lease := .ring, reset := 0xF010000, rw := 0xFF01FF73 },
  { name := .resqHwm, off := 0x3004, dims := [(0x20, 12)], lease := .ring, reset := 0x6000, rw := 0xFFFF },
  { name := .resqLwm, off := 0x3008, dims := [(0x20, 12)], lease := .ring, reset := 0x4000, rw := 0xFFFF },
  { name := .resqShotMax, off := 0x300C, dims := [(0x20, 12)], lease := .ring, reset := 0x400, rw := 0xFFFF },
  { name := .resqFill, off := 0x3010, dims := [(0x20, 12)], lease := .ring, ro := 0xFFFF },
  { name := .resqNextIndex, off := 0x3014, dims := [(0x20, 12)], lease := .ring, ro := 0xFFFFFFFF },
  { name := .resqFlags, off := 0x3018, dims := [(0x20, 12)], lease := .ring, w1c := 0x3 },
  { name := .resqFlagCnt, off := 0x301C, dims := [(0x20, 12)], lease := .ring, ro := 0xFFFF },
  { name := .strmCfg, off := 0x4000, dims := [(0x80, 12), (0x20, 4)], lease := .ring, rw := 0x713F7F },
  { name := .strmLimit, off := 0x4004, dims := [(0x80, 12), (0x20, 4)], lease := .ring, ro := 0xFFFFFFFF },
  { name := .strmPlayptr, off := 0x4008, dims := [(0x80, 12), (0x20, 4)], lease := .ring, ro := 0xFFFFFFFF },
  { name := .strmLow, off := 0x400C, dims := [(0x80, 12), (0x20, 4)], lease := .ring, reset := 0x2, rw := 0x7F },
  { name := .strmFlags, off := 0x4010, dims := [(0x80, 12), (0x20, 4)], lease := .ring, w1c := 0xF },
  { name := .strmFlagCnt, off := 0x4014, dims := [(0x80, 12), (0x20, 4)], lease := .ring, ro := 0xFFFFFFFF },
  { name := .strmTakeptr, off := 0x4018, dims := [(0x80, 12), (0x20, 4)], lease := .ring, ro := 0xFFFFFFFF },
  { name := .schedFree, off := 0x6000, lease := .chip, reset := 0x100, ro := 0x1FF },
  { name := .schedLead, off := 0x6004, lease := .chip, reset := 0x5DC, ro := 0xFFFFFFFF },
  { name := .schedFlags, off := 0x6008, lease := .chip, w1c := 0x1 },
  { name := .schedFlagCnt, off := 0x600C, lease := .chip, ro := 0xFF }]

/-- Registers of the block `ringSeq` (R179, R186). -/
def ringSeqRegs : List RegDesc := [
  { name := .seqG, off := 0x1000, dims := [(0x4, 16)], lease := .ring, rw := 0xFFFFFFFF },
  { name := .seqLc, off := 0x1040, dims := [(0x4, 4)], lease := .ring, rw := 0xFFFFFFFF },
  { name := .seqDr, off := 0x1050, lease := .ring, ro := 0xFFFFFFFF },
  { name := .seqDrvf, off := 0x1054, lease := .ring, ro := 0xFFFFFFFF },
  { name := .seqDrvc, off := 0x1058, lease := .ring, ro := 0xFFFFFFFF },
  { name := .seqSc, off := 0x105C, lease := .ring, rw := 0xFFFFFFFF },
  { name := .seqTb, off := 0x1060, lease := .ring, ro := 0xFFFFFFFF },
  { name := .seqSt, off := 0x1064, lease := .ring, ro := 0x1F01FF },
  { name := .seqPc, off := 0x1068, lease := .ring, rw := 0x7FFF },
  { name := .seqRsc, off := 0x106C, lease := .ring, rw := 0xF, ro := 0xFFFFFF00 },
  { name := .seqUpc, off := 0x1070, lease := .ring, ro := 0xFFF },
  { name := .seqTaq, off := 0x1074, lease := .ring, ro := 0x7F },
  { name := .seqIllPc, off := 0x1078, lease := .ring, ro := 0x80007FFF },
  { name := .seqUser, off := 0x107C, lease := .ring, ro := 0xFFFF },
  { name := .seqStack, off := 0x1080, dims := [(0x4, 16)], lease := .ring, ro := 0x7FFF },
  { name := .seqPflags, off := 0x10C0, lease := .ring, w1c := 0x1F },
  { name := .seqPflagCnt0, off := 0x10C4, lease := .ring, ro := 0xFFFFFFFF },
  { name := .seqPflagCnt1, off := 0x10C8, lease := .ring, ro := 0xFF },
  { name := .seqCmd, off := 0x0, lease := .ring, wo := 0xFF },
  { name := .seqStartCfg, off := 0x4, lease := .ring, rw := 0xFFFF000F },
  { name := .seqState, off := 0x8, lease := .ring, ro := 0x11F0F0F },
  { name := .seqCtrl, off := 0xC, lease := .ring, rw := 0x1 },
  { name := .seqUdrVec, off := 0x10, lease := .ring, rw := 0x7FFF },
  { name := .seqStartBeatLo, off := 0x18, lease := .ring, ro := 0xFFFFFFFF, pair := 1 },
  { name := .seqStartBeatHi, off := 0x1C, lease := .ring, ro := 0xFFFFFFFF, pair := 2 },
  { name := .seqFlags, off := 0x20, lease := .ring, w1c := 0x3F },
  { name := .seqFlagCnt0, off := 0x24, lease := .ring, ro := 0xFFFFFFFF },
  { name := .seqFlagCnt1, off := 0x28, lease := .ring, ro := 0xFFFF },
  { name := .seqAbortSrc, off := 0x2C, lease := .ring, ro := 0x3 }]

/-- Registers of the block `ringTx` (R248, R249). -/
def ringTxRegs : List RegDesc := [
  { name := .txCtrl, off := 0x10000, dims := [(0x1000, 4)], lease := .ring, rw := 0x331 },
  { name := .txFs, off := 0x10004, dims := [(0x1000, 4)], lease := .ring, reset := 0x60, rw := 0xFF },
  { name := .txDelay, off := 0x10008, dims := [(0x1000, 4)], lease := .ring, rw := 0x3F },
  { name := .txFadeLen, off := 0x1000C, dims := [(0x1000, 4)], lease := .ring, reset := 0x40, rw := 0xFFF },
  { name := .txFadeReq, off := 0x10010, dims := [(0x1000, 4)], lease := .ring, wo := 0x1 },
  { name := .txStatus, off := 0x10014, dims := [(0x1000, 4)], lease := .ring, ro := 0x10333 },
  { name := .txFlags, off := 0x10018, dims := [(0x1000, 4)], lease := .ring, w1c := 0xF },
  { name := .txFlagCnt, off := 0x1001C, dims := [(0x1000, 4)], lease := .ring, ro := 0xFFFFFFFF },
  { name := .txDescInfo, off := 0x10020, dims := [(0x1000, 4)], lease := .ring, ro := 0xDF0FFF },
  { name := .txCellMap, off := 0x10024, dims := [(0x1000, 4)], lease := .ring, ro := 0xFFFFFFFF },
  { name := .txCoefA, off := 0x10100, dims := [(0x1000, 4), (0x4, 32)], lease := .ring, reset := 0x10000, rw := 0x3FFFF },
  { name := .txCoefB, off := 0x10180, dims := [(0x1000, 4), (0x4, 32)], lease := .ring, reset := 0x10000, rw := 0x3FFFF },
  { name := .voiceFreqLo, off := 0x18000, dims := [(0x20, 32)], lease := .ring, rw := 0xFFFFFFFF, pair := 1 },
  { name := .voiceFreqHi, off := 0x18004, dims := [(0x20, 32)], lease := .ring, rw := 0xFFFF, pair := 2 },
  { name := .voicePhase, off := 0x18008, dims := [(0x20, 32)], lease := .ring, rw := 0xFFFFFFFF },
  { name := .voiceAmp, off := 0x1800C, dims := [(0x20, 32)], lease := .ring, reset := 0x7FFF, rw := 0xFFFF },
  { name := .voiceState, off := 0x18010, dims := [(0x20, 32)], lease := .ring, ro := 0xEFFFFFFF },
  { name := .voiceAccHi, off := 0x18014, dims := [(0x20, 32)], lease := .ring, ro := 0xFFFF }]

/-- Registers of the block `ringBias` (R266). -/
def ringBiasRegs : List RegDesc := [
  { name := .biasCtrl, off := 0x30000, dims := [(0x100, 4)], lease := .ring, rw := 0x3 },
  { name := .biasSpan, off := 0x30004, dims := [(0x100, 4)], lease := .ring, rw := 0x3FFFFF },
  { name := .biasTarget, off := 0x30008, dims := [(0x100, 4)], lease := .ring, rw := 0xFFFFF },
  { name := .biasRate, off := 0x3000C, dims := [(0x100, 4)], lease := .ring, reset := 0x40, rw := 0xFFFF },
  { name := .biasStep, off := 0x30010, dims := [(0x100, 4)], lease := .ring, rw := 0xFFFFF },
  { name := .biasClear, off := 0x30014, dims := [(0x100, 4)], lease := .ring, rw := 0xFFFFF },
  { name := .biasOut, off := 0x30018, dims := [(0x100, 4)], lease := .ring, ro := 0xFFFFFFFF },
  { name := .biasStatus, off := 0x3001C, dims := [(0x100, 4)], lease := .ring, ro := 0xF1F },
  { name := .biasFlags, off := 0x30020, dims := [(0x100, 4)], lease := .ring, w1c := 0x3F },
  { name := .biasFlagCnt0, off := 0x30024, dims := [(0x100, 4)], lease := .ring, ro := 0xFFFFFFFF },
  { name := .biasFlagCnt1, off := 0x30028, dims := [(0x100, 4)], lease := .ring, ro := 0xFFFF },
  { name := .biasReadback, off := 0x3002C, dims := [(0x100, 4)], lease := .ring, ro := 0xFFFFFFFF },
  { name := .biasMismatchThr, off := 0x30030, dims := [(0x100, 4)], lease := .ring, reset := 0x28, rw := 0xFFFF },
  { name := .biasQclr, off := 0x30034, dims := [(0x100, 4)], lease := .ring, wo := 0x1 }]

/-- Registers of the block `ringRx` (R303, R304). -/
def ringRxRegs : List RegDesc := [
  { name := .rxCtrl, off := 0x20000, dims := [(0x1000, 2)], lease := .ring, reset := 0x20, rw := 0x731 },
  { name := .rxStatus, off := 0x20004, dims := [(0x1000, 2)], lease := .ring, reset := 0x300000, ro := 0xE03F0001 },
  { name := .rxFlags, off := 0x20008, dims := [(0x1000, 2)], lease := .ring, w1c := 0x7 },
  { name := .rxFlagCnt, off := 0x2000C, dims := [(0x1000, 2)], lease := .ring, ro := 0xFFFFFF },
  { name := .rxOvrBeatsLo, off := 0x20010, dims := [(0x1000, 2)], lease := .ring, ro := 0xFFFFFFFF, pair := 1 },
  { name := .rxOvrBeatsHi, off := 0x20014, dims := [(0x1000, 2)], lease := .ring, ro := 0xFFFFFFFF, pair := 2 },
  { name := .rxRawCtrl, off := 0x20040, dims := [(0x1000, 2)], lease := .ring, reset := 0xAAAA, rw := 0xF1FFFF },
  { name := .rxRawCmd, off := 0x20044, dims := [(0x1000, 2)], lease := .ring, wo := 0x7 },
  { name := .rxRawStatus, off := 0x20048, dims := [(0x1000, 2)], lease := .ring, ro := 0xFFFF0107 },
  { name := .rxRawBeatLo, off := 0x20050, dims := [(0x1000, 2)], lease := .ring, ro := 0xFFFFFFFF, pair := 1 },
  { name := .rxRawBeatHi, off := 0x20054, dims := [(0x1000, 2)], lease := .ring, ro := 0xFFFFFFFF, pair := 2 },
  { name := .rxRawNum, off := 0x20058, dims := [(0x1000, 2)], lease := .ring, ro := 0xFFFFFFFF },
  { name := .laneCfg, off := 0x24000, dims := [(0x40, 32)], lease := .ring, reset := 0x131, rw := 0x173 },
  { name := .laneShift, off := 0x24004, dims := [(0x40, 32)], lease := .ring, reset := 0x1010, rw := 0x1F1F },
  { name := .laneFreqLo, off := 0x24008, dims := [(0x40, 32)], lease := .ring, rw := 0xFFFFFFFF, pair := 1 },
  { name := .laneFreqHi, off := 0x2400C, dims := [(0x40, 32)], lease := .ring, rw := 0xFFFF, pair := 2 },
  { name := .lanePhase, off := 0x24010, dims := [(0x40, 32)], lease := .ring, rw := 0xFFFFFFFF },
  { name := .lanePdly, off := 0x24014, dims := [(0x40, 32)], lease := .ring, rw := 0x3F },
  { name := .laneKsel, off := 0x24018, dims := [(0x40, 32)], lease := .ring, rw := 0xFFFF0FFF },
  { name := .laneState, off := 0x2401C, dims := [(0x40, 32)], lease := .ring, ro := 0x8000FFFF },
  { name := .laneFlags, off := 0x24020, dims := [(0x40, 32)], lease := .ring, w1c := 0x3F },
  { name := .laneFlagCnt0, off := 0x24024, dims := [(0x40, 32)], lease := .ring, ro := 0xFFFFFFFF },
  { name := .laneFlagCnt1, off := 0x24028, dims := [(0x40, 32)], lease := .ring, ro := 0xFFFF },
  { name := .laneLastCoarse, off := 0x2402C, dims := [(0x40, 32)], lease := .ring, ro := 0xFFFFFFFF },
  { name := .laneLastFineLo, off := 0x24030, dims := [(0x40, 32)], lease := .ring, ro := 0xFFFFFFFF, pair := 1 },
  { name := .laneLastFineHi, off := 0x24034, dims := [(0x40, 32)], lease := .ring, ro := 0xFFFFFFFF, pair := 2 }]

/-- Registers of the block `ringJug` (R341). -/
def ringJugRegs : List RegDesc := [
  { name := .jugCmd, off := 0x40000, lease := .ring, wo := 0x7 },
  { name := .jugCtrl, off := 0x40004, lease := .ring, reset := 0x10000, rw := 0x10FFF },
  { name := .jugVbase, off := 0x40008, lease := .ring, rw := 0xFE0 },
  { name := .jugState, off := 0x4000C, lease := .ring, ro := 0xFFFFFFF7 },
  { name := .jugSr, off := 0x40010, lease := .ring, ro := 0xFFFFFFFF },
  { name := .jugMboxIn, off := 0x40014, lease := .ring, rw := 0xFFFFFFFF },
  { name := .jugMboxOut, off := 0x40018, lease := .ring, ro := 0xFFFFFFFF },
  { name := .jugTimer, off := 0x4001C, lease := .ring, ro := 0xFFFFFFFF },
  { name := .jugFlags, off := 0x40020, lease := .ring, w1c := 0x3F },
  { name := .jugFlagCnt0, off := 0x40024, lease := .ring, ro := 0xFFFFFFFF },
  { name := .jugFlagCnt1, off := 0x40028, lease := .ring, ro := 0xFFFF },
  { name := .jugIllPc, off := 0x4002C, lease := .ring, ro := 0x80000FFF },
  { name := .jugFault, off := 0x40030, lease := .ring, ro := 0x80030FFF },
  { name := .jugImc, off := 0x40034, lease := .ring, ro := 0xFFFFFFFF },
  { name := .jugImf, off := 0x40038, lease := .ring, ro := 0xFFFFFFFF },
  { name := .jugReg, off := 0x40100, dims := [(0x4, 42)], lease := .ring, rw := 0xFFFFFFFF }]

/-- Registers of the block `trp` (R373, R374). -/
def trpRegs : List RegDesc := [
  { name := .trpDomain, off := 0x0, lease := .chip, reset := 0x100, rw := 0xFFFF0300 },
  { name := .trpXport, off := 0x4, lease := .chip, reset := 0x800, rw := 0xFFF1F1F },
  { name := .trpBarlat, off := 0x8, lease := .chip, reset := 0xA0, rw := 0xFFFF },
  { name := .trpAbort, off := 0xC, lease := .chip, rw := 0xFFF0FFF, wo := 0x80000000 },
  { name := .trpAbortChips, off := 0x10, lease := .chip, rw := 0xFFFF },
  { name := .trpFlags, off := 0x14, lease := .chip, w1c := 0xFF },
  { name := .trpFlagCnt0, off := 0x18, lease := .chip, ro := 0xFFFFFFFF },
  { name := .trpFlagCnt1, off := 0x1C, lease := .chip, ro := 0xFFFFFFFF },
  { name := .trpDbLo, off := 0x20, lease := .chip, ro := 0xFFFFFFFF, pair := 1 },
  { name := .trpDbHi, off := 0x24, lease := .chip, ro := 0xFFFFFFFF, pair := 2 },
  { name := .trpStatus, off := 0x28, lease := .chip, ro := 0x1 },
  { name := .trpBar, off := 0x100, dims := [(0x10, 16)], lease := .chip, rw := 0xFFF },
  { name := .barStatus, off := 0x104, dims := [(0x10, 16)], lease := .chip, ro := 0xFFFF0000 },
  { name := .barRel, off := 0x108, dims := [(0x10, 16)], lease := .chip, ro := 0xFFFFFFFF },
  { name := .trpImport, off := 0x200, dims := [(0x4, 16)], lease := .chip, rw := 0xFFF001F },
  { name := .trpFwd, off := 0x240, dims := [(0x4, 16)], lease := .chip, rw := 0xF },
  { name := .linkCmd, off := 0x1000, dims := [(0x100, 4)], lease := .chip, wo := 0x3 },
  { name := .linkCtrl, off := 0x1004, dims := [(0x100, 4)], lease := .chip, reset := 0x11000, rw := 0x1FF00 },
  { name := .linkStatus, off := 0x1008, dims := [(0x100, 4)], lease := .chip, reset := 0xFF00000, ro := 0xFFF10F0F },
  { name := .linkDelay, off := 0x100C, dims := [(0x100, 4)], lease := .chip, ro := 0x3F },
  { name := .linkFlags, off := 0x1010, dims := [(0x100, 4)], lease := .chip, w1c := 0x3F },
  { name := .linkFlagCnt0, off := 0x1014, dims := [(0x100, 4)], lease := .chip, ro := 0xFFFFFFFF },
  { name := .linkFlagCnt1, off := 0x1018, dims := [(0x100, 4)], lease := .chip, ro := 0xFFFF },
  { name := .linkReturnMs, off := 0x101C, dims := [(0x100, 4)], lease := .chip, reset := 0x3E8, rw := 0xFFFF },
  { name := .linkLaneErr, off := 0x1020, dims := [(0x100, 4), (0x4, 9)], lease := .chip, ro := 0xFFFFFFFF },
  { name := .linkRxFlitsLo, off := 0x1048, dims := [(0x100, 4)], lease := .chip, ro := 0xFFFFFFFF, pair := 1 },
  { name := .linkRxFlitsHi, off := 0x104C, dims := [(0x100, 4)], lease := .chip, ro := 0xFFFFFFFF, pair := 2 },
  { name := .linkTxFlitsLo, off := 0x1050, dims := [(0x100, 4)], lease := .chip, ro := 0xFFFFFFFF, pair := 1 },
  { name := .linkTxFlitsHi, off := 0x1054, dims := [(0x100, 4)], lease := .chip, ro := 0xFFFFFFFF, pair := 2 }]

/-- Registers of the block `time` (R404). -/
def timeRegs : List RegDesc := [
  { name := .beatcountLo, off := 0x0, lease := .time, ro := 0xFFFFFFFF, pair := 1 },
  { name := .beatcountHi, off := 0x4, lease := .time, ro := 0xFFFFFFFF, pair := 2 },
  { name := .incrementLo, off := 0x8, lease := .time, reset := 0xAAAAAAAB, ro := 0xFFFFFFFF, pair := 1 },
  { name := .incrementHi, off := 0xC, lease := .time, reset := 0xAA, ro := 0xFFFF, pair := 2 },
  { name := .offsetNsLo, off := 0x10, lease := .time, ro := 0xFFFFFFFF, pair := 1 },
  { name := .offsetNsHi, off := 0x14, lease := .time, ro := 0xFFFFFFFF, pair := 2 },
  { name := .offsetSub, off := 0x18, lease := .time, ro := 0xFFFF },
  { name := .snapCmd, off := 0x20, lease := .time, wo := 0x1 },
  { name := .snapBeatLo, off := 0x28, lease := .time, ro := 0xFFFFFFFF, pair := 1 },
  { name := .snapBeatHi, off := 0x2C, lease := .time, ro := 0xFFFFFFFF, pair := 2 },
  { name := .snapNsLo, off := 0x30, lease := .time, ro := 0xFFFFFFFF, pair := 1 },
  { name := .snapNsHi, off := 0x34, lease := .time, ro := 0xFFFFFFFF, pair := 2 },
  { name := .snapSub, off := 0x38, lease := .time, ro := 0xFFFF },
  { name := .adjIncLo, off := 0x40, lease := .time, reset := 0xAAAAAAAB, rw := 0xFFFFFFFF, pair := 1 },
  { name := .adjIncHi, off := 0x44, lease := .time, reset := 0xAA, rw := 0xFFFF, pair := 2 },
  { name := .adjOffNsLo, off := 0x48, lease := .time, rw := 0xFFFFFFFF, pair := 1 },
  { name := .adjOffNsHi, off := 0x4C, lease := .time, rw := 0xFFFFFFFF, pair := 2 },
  { name := .adjOffSub, off := 0x50, lease := .time, rw := 0xFFFF },
  { name := .adjBeatLo, off := 0x58, lease := .time, rw := 0xFFFFFFFF, pair := 1 },
  { name := .adjBeatHi, off := 0x5C, lease := .time, rw := 0xFFFFFFFF, pair := 2 },
  { name := .adjCtrl, off := 0x60, lease := .time, rw := 0x100, wo := 0x2, w1s := 0x1 },
  { name := .adjLastLo, off := 0x68, lease := .time, ro := 0xFFFFFFFF, pair := 1 },
  { name := .adjLastHi, off := 0x6C, lease := .time, ro := 0xFFFFFFFF, pair := 2 },
  { name := .timeFlags, off := 0x70, lease := .time, w1c := 0x7 },
  { name := .timeFlagCnt, off := 0x74, lease := .time, ro := 0xFFFFFF },
  { name := .ptpCtrl, off := 0x100, lease := .time, reset := 0x200, rw := 0xFF077F },
  { name := .ptpInterval, off := 0x104, lease := .time, reset := 0x3000100, rw := 0xFFFFFFFF },
  { name := .ptpPrio, off := 0x108, lease := .time, reset := 0xF88080, rw := 0xFFFFFF },
  { name := .ptpStatus, off := 0x10C, lease := .time, ro := 0x1FF },
  { name := .ptpOffsetLo, off := 0x110, lease := .time, ro := 0xFFFFFFFF, pair := 1 },
  { name := .ptpOffsetHi, off := 0x114, lease := .time, ro := 0xFFFFFFFF, pair := 2 },
  { name := .ptpPathLo, off := 0x118, lease := .time, ro := 0xFFFFFFFF, pair := 1 },
  { name := .ptpPathHi, off := 0x11C, lease := .time, ro := 0xFFFFFFFF, pair := 2 },
  { name := .ptpMeas, off := 0x120, lease := .time, ro := 0xFFFFFFFF },
  { name := .ptpPortEgressPs, off := 0x200, dims := [(0x20, 2)], lease := .time, rw := 0xFFFFFFFF },
  { name := .ptpPortIngressPs, off := 0x204, dims := [(0x20, 2)], lease := .time, rw := 0xFFFFFFFF },
  { name := .ptpPortTsqStatus, off := 0x208, dims := [(0x20, 2)], lease := .time, ro := 0x1F },
  { name := .ptpPortTsqFlags, off := 0x20C, dims := [(0x20, 2)], lease := .time, w1c := 0x1 },
  { name := .ptpPortTsqFlagCnt, off := 0x210, dims := [(0x20, 2)], lease := .time, ro := 0xFF },
  { name := .ptpPortTsqDrop, off := 0x214, dims := [(0x20, 2)], lease := .time, ro := 0xFFFFFFFF }]

/-- Registers of the block `tiu` (R405). -/
def tiuRegs : List RegDesc := [
  { name := .trigCtrl, off := 0x0, dims := [(0x10, 8)], lease := .chip, rw := 0xFFF0003 },
  { name := .trigLastTs, off := 0x4, dims := [(0x10, 8)], lease := .chip, ro := 0xFFFFFFFF },
  { name := .trigLastSub, off := 0x8, dims := [(0x10, 8)], lease := .chip, ro := 0x1FFFF },
  { name := .trigMissed, off := 0xC, dims := [(0x10, 8)], lease := .chip, ro := 0xFFFFFFFF },
  { name := .trigLatch, off := 0x100, dims := [(0x4, 12)], lease := .chip, ro := 0xFFFF },
  { name := .trigLclr, off := 0x140, dims := [(0x4, 12)], lease := .chip, wo := 0xFFFF },
  { name := .markCtrl, off := 0x200, dims := [(0x10, 16)], lease := .chip, reset := 0xF0000000, rw := 0xF0000F03 },
  { name := .markHost, off := 0x204, dims := [(0x10, 16)], lease := .chip, wo := 0x73 },
  { name := .markState, off := 0x208, dims := [(0x10, 16)], lease := .chip, ro := 0x3 },
  { name := .tsetOwner, off := 0x300, dims := [(0x10, 8)], lease := .chip, reset := 0xF, rw := 0xF },
  { name := .tsetDelay, off := 0x304, dims := [(0x10, 8)], lease := .chip, rw := 0xFFF },
  { name := .tsetWidth, off := 0x308, dims := [(0x10, 8)], lease := .chip, reset := 0x40, rw := 0xFFFF },
  { name := .markFlags, off := 0x380, lease := .chip, w1c := 0x1 },
  { name := .markFlagCnt, off := 0x384, lease := .chip, ro := 0xFF },
  { name := .tiuCtrl, off := 0x400, dims := [(0x40, 4)], lease := .chip, reset := 0x10000, rw := 0x9FDFCF00 },
  { name := .tiuN, off := 0x404, dims := [(0x40, 4)], lease := .chip, reset := 0x1, rw := 0xFFFFFF },
  { name := .tiuCmd, off := 0x408, dims := [(0x40, 4)], lease := .chip, wo := 0x2, w1s := 0x1 },
  { name := .tiuStatus, off := 0x40C, dims := [(0x40, 4)], lease := .chip, ro := 0x3 },
  { name := .tiuCount, off := 0x410, dims := [(0x40, 4)], lease := .chip, ro := 0x1FFFFFF },
  { name := .tiuMin, off := 0x414, dims := [(0x40, 4)], lease := .chip, ro := 0xFFFFFFFF },
  { name := .tiuMax, off := 0x418, dims := [(0x40, 4)], lease := .chip, ro := 0xFFFFFFFF },
  { name := .tiuStd, off := 0x41C, dims := [(0x40, 4)], lease := .chip, ro := 0xFFFFFFFF },
  { name := .tiuMeanLo, off := 0x420, dims := [(0x40, 4)], lease := .chip, ro := 0xFFFFFFFF, pair := 1 },
  { name := .tiuMeanHi, off := 0x424, dims := [(0x40, 4)], lease := .chip, ro := 0xFFFF, pair := 2 },
  { name := .tiuFlags, off := 0x428, dims := [(0x40, 4)], lease := .chip, w1c := 0x1F },
  { name := .tiuFlagCnt0, off := 0x42C, dims := [(0x40, 4)], lease := .chip, ro := 0xFFFFFFFF },
  { name := .tiuFlagCnt1, off := 0x430, dims := [(0x40, 4)], lease := .chip, ro := 0xFF },
  { name := .tiuOrphans, off := 0x434, dims := [(0x40, 4)], lease := .chip, ro := 0xFFFFFFFF }]

/-- Registers of the block `cal` (R433). -/
def calRegs : List RegDesc := [
  { name := .calCtrl, off := 0x0, lease := .chip, reset := 0x1103F, rw := 0x1103F },
  { name := .calConf, off := 0x4, lease := .chip, reset := 0x8000, rw := 0xFFFF },
  { name := .calRot, off := 0x8, lease := .chip, reset := 0x3E8, rw := 0xFFFF },
  { name := .calApplyWait, off := 0xC, lease := .chip, reset := 0x16E360, rw := 0xFFFFFFFF },
  { name := .calApply, off := 0x10, lease := .chip, w1s := 0xF },
  { name := .calStatus, off := 0x14, lease := .chip, ro := 0xF },
  { name := .lastApplyLo, off := 0x20, dims := [(0x8, 4)], lease := .chip, ro := 0xFFFFFFFF, pair := 1 },
  { name := .lastApplyHi, off := 0x24, dims := [(0x8, 4)], lease := .chip, ro := 0xFFFFFFFF, pair := 2 },
  { name := .calFlags, off := 0x40, lease := .chip, w1c := 0x7 },
  { name := .calFlagCnt, off := 0x44, lease := .chip, ro := 0xFFFFFF },
  { name := .calStore, off := 0x80, lease := .chip, rw := 0xFFFF0000, w1s := 0x3 },
  { name := .calStoreStatus, off := 0x84, lease := .chip, ro := 0x3310003 },
  { name := .calSeq, off := 0x88, lease := .chip, ro := 0xFFFFFFFF },
  { name := .calStores, off := 0x8C, lease := .chip, ro := 0xFFFFFFFF },
  { name := .rxcalStatus, off := 0x100, dims := [(0x20, 24)], lease := .chip, reset := 0xFC0000, ro := 0xFFFFF887 },
  { name := .rxcalConfA, off := 0x104, dims := [(0x20, 24)], lease := .chip, ro := 0xFFFFFFFF },
  { name := .rxcalConfB, off := 0x108, dims := [(0x20, 24)], lease := .chip, ro := 0xFFFF },
  { name := .rxcalInj, off := 0x10C, dims := [(0x20, 24)], lease := .chip, reset := 0x2, rw := 0x2, w1s := 0x1 },
  { name := .rxcalFlags, off := 0x110, dims := [(0x20, 24)], lease := .chip, w1c := 0xF },
  { name := .rxcalFlagCnt, off := 0x114, dims := [(0x20, 24)], lease := .chip, ro := 0xFFFFFFFF },
  { name := .rxcalBlocks, off := 0x118, dims := [(0x20, 24)], lease := .chip, ro := 0xFFFFFFFF },
  { name := .txcal, off := 0x400, dims := [(0x4, 48)], lease := .chip, ro := 0x3FFFF },
  { name := .txdly, off := 0x500, dims := [(0x4, 48)], lease := .chip, ro := 0xFFFFFFFF },
  { name := .biastrim, off := 0x600, dims := [(0x4, 48)], lease := .chip, rw := 0x3FF03FF },
  { name := .biastrimAct, off := 0x700, dims := [(0x4, 48)], lease := .chip, ro := 0xFFFFFFFF },
  { name := .rxtrim, off := 0x1000, dims := [(0x100, 24), (0x4, 49)], lease := .chip, rw := 0x3FFFFFF },
  { name := .rxtrimAct, off := 0x3000, dims := [(0x100, 24), (0x4, 49)], lease := .chip, ro := 0xFFFFFFFF },
  { name := .txtrim, off := 0x5000, dims := [(0x80, 48), (0x4, 21)], lease := .chip, rw := 0x3F3F3F3F },
  { name := .txtrimAct, off := 0x7000, dims := [(0x80, 48), (0x4, 21)], lease := .chip, ro := 0xFFFFFFFF }]

/-- Registers of the block `mem` (R457). -/
def memRegs : List RegDesc := [
  { name := .mtestCmd, off := 0x0, lease := .chip, wo := 0x2, w1s := 0x1 },
  { name := .mtestCfg, off := 0x4, lease := .chip, reset := 0x5DC0003, rw := 0xFFFFFF07 },
  { name := .mtestStatus, off := 0x8, lease := .chip, ro := 0xFFFFFF03 },
  { name := .mtestFaults, off := 0xC, lease := .chip, ro := 0xFFFFFFFF },
  { name := .mtestFailAddr, off := 0x10, lease := .chip, ro := 0xFFFFFFFF },
  { name := .mtestAbandon, off := 0x14, lease := .chip, ro := 0xFFFFFFFF },
  { name := .scrubCtrl, off := 0x20, lease := .chip, reset := 0x103E8, rw := 0x1FFFF },
  { name := .scrubPasses, off := 0x24, lease := .chip, ro := 0xFFFFFFFF },
  { name := .eccCorrLo, off := 0x28, lease := .chip, ro := 0xFFFFFFFF, pair := 1 },
  { name := .eccCorrHi, off := 0x2C, lease := .chip, ro := 0xFFFFFFFF, pair := 2 },
  { name := .eccUncorr, off := 0x30, lease := .chip, ro := 0xFFFFFFFF },
  { name := .lastCorr, off := 0x34, lease := .chip, ro := 0xFFFFFFFF },
  { name := .lastUncorr, off := 0x38, lease := .chip, ro := 0xFFFFFFFF },
  { name := .memFlags, off := 0x40, lease := .chip, w1c := 0x1F },
  { name := .memFlagCnt0, off := 0x44, lease := .chip, ro := 0xFFFFFFFF },
  { name := .memFlagCnt1, off := 0x48, lease := .chip, ro := 0xFF },
  { name := .xmRetries, off := 0x4C, lease := .chip, ro := 0xFFFFFFFF },
  { name := .repmapStatus, off := 0x50, lease := .chip, ro := 0x3FFFF },
  { name := .repmapCtrl, off := 0x54, lease := .chip, w1s := 0x1 },
  { name := .ret, off := 0x100, dims := [(0x4, 12)], lease := .ring, rw := 0x3, ro := 0x30000 },
  { name := .spares, off := 0x200, dims := [(0x40, 11), (0x4, 16)], lease := .chip, ro := 0xFFFFFFFF }]

/-- Registers of the block `car` (R472). -/
def carRegs : List RegDesc := [
  { name := .carCmd, off := 0x0, dims := [(0x40, 8)], lease := .chip, wo := 0x3 },
  { name := .carCfg, off := 0x4, dims := [(0x40, 8)], lease := .chip, rw := 0x1F0071 },
  { name := .carInteg, off := 0x8, dims := [(0x40, 8)], lease := .chip, reset := 0x5B9, rw := 0xFFFFF },
  { name := .carStatus, off := 0xC, dims := [(0x40, 8)], lease := .chip, ro := 0x103 },
  { name := .carSpecNum, off := 0x10, dims := [(0x40, 8)], lease := .chip, ro := 0xFFFFFFFF },
  { name := .carStartBeatLo, off := 0x14, dims := [(0x40, 8)], lease := .chip, ro := 0xFFFFFFFF, pair := 1 },
  { name := .carStartBeatHi, off := 0x18, dims := [(0x40, 8)], lease := .chip, ro := 0xFFFFFFFF, pair := 2 },
  { name := .carThin, off := 0x1C, dims := [(0x40, 8)], lease := .chip, ro := 0xFFFFFFFF },
  { name := .carFlags, off := 0x20, dims := [(0x40, 8)], lease := .chip, w1c := 0xF },
  { name := .carFlagCnt, off := 0x24, dims := [(0x40, 8)], lease := .chip, ro := 0xFFFFFFFF }]

/-- Registers of the block `hk` (R490). -/
def hkRegs : List RegDesc := [
  { name := .hkCtrl, off := 0x0, lease := .chip, rw := 0x111 },
  { name := .hkAinDelay, off := 0x4, lease := .chip, rw := 0xFFFF },
  { name := .hkStatus, off := 0x8, lease := .chip, ro := 0xFFFFFFFF },
  { name := .thermStatus, off := 0xC, lease := .chip, ro := 0xFF0FC3 },
  { name := .thermFlags, off := 0x10, lease := .chip, w1c := 0x7F },
  { name := .thermFlagCnt0, off := 0x14, lease := .chip, ro := 0xFFFFFFFF },
  { name := .thermFlagCnt1, off := 0x18, lease := .chip, ro := 0xFFFFFF },
  { name := .throttleR, off := 0x1C, lease := .chip, reset := 0x14, ro := 0x1F },
  { name := .telemCtrl, off := 0x20, lease := .chip, reset := 0x41200, rw := 0xFFFF71 },
  { name := .hkVal, off := 0x100, dims := [(0x4, 96)], lease := .chip, ro := 0xFFFFFFFF },
  { name := .thermSens, off := 0x300, dims := [(0x4, 16)], lease := .chip, ro := 0xE30FFFF },
  { name := .supWin, off := 0x400, dims := [(0x4, 24)], lease := .chip, rw := 0xFFFFFFFF },
  { name := .supOor, off := 0x480, lease := .chip, ro := 0xFFFFFF },
  { name := .fanCtrl, off := 0x500, dims := [(0x10, 2)], lease := .chip, reset := 0x1E640003, rw := 0xFFFF0003 },
  { name := .fanCurve, off := 0x504, dims := [(0x10, 2)], lease := .chip, reset := 0x5A32, rw := 0xFFFF },
  { name := .fanTach, off := 0x508, dims := [(0x10, 2)], lease := .chip, ro := 0xFFFF },
  { name := .fanMinRpm, off := 0x50C, dims := [(0x10, 2)], lease := .chip, reset := 0x3E8, rw := 0xFFFF }]

/-- Registers of the block `sec` (R507). -/
def secRegs : List RegDesc := [
  { name := .secStatus, off := 0x0, lease := .chip, ro := 0xFFFF0F1C },
  { name := .fwUpdSrc, off := 0x4, lease := .chip, reset := 0x10000000, rw := 0xFFFFFFFF },
  { name := .fwUpdLen, off := 0x8, lease := .chip, rw := 0xFFFFFFFF },
  { name := .fwUpdCmd, off := 0xC, lease := .chip, w1s := 0x1 },
  { name := .fwUpdStatus, off := 0x10, lease := .chip, ro := 0xFFFF0003 },
  { name := .fuseCmd, off := 0x14, lease := .chip, wo := 0xFFFF0003 },
  { name := .fuseStatus, off := 0x18, lease := .chip, ro := 0xFFFF0003 },
  { name := .vkeyHash0, off := 0x20, dims := [(0x4, 8)], lease := .chip, ro := 0xFFFFFFFF },
  { name := .vkeyHash1, off := 0x40, dims := [(0x4, 8)], lease := .chip, ro := 0xFFFFFFFF },
  { name := .fwHash, off := 0x60, dims := [(0x4, 8)], lease := .chip, ro := 0xFFFFFFFF },
  { name := .ownAuth, off := 0x80, lease := .chip, ro := 0xFFF0FFF },
  { name := .ownCmd, off := 0x84, lease := .chip, wo := 0xFFFF0F07 },
  { name := .ownSrc, off := 0x88, lease := .chip, reset := 0x10000000, rw := 0xFFFFFFFF },
  { name := .ownNonce, off := 0x8C, lease := .chip, ro := 0xFFFFFFFF },
  { name := .ownStatus, off := 0x90, lease := .chip, ro := 0xFFFF0003 },
  { name := .ownHash, off := 0x94, dims := [(0x4, 8)], lease := .chip, ro := 0xFFFFFFFF },
  { name := .attCmd, off := 0x100, lease := .chip, w1s := 0x1 },
  { name := .attStatus, off := 0x104, lease := .chip, ro := 0x3 },
  { name := .attCount, off := 0x108, lease := .chip, ro := 0xFFFFFFFF },
  { name := .attNonce, off := 0x110, dims := [(0x4, 8)], lease := .chip, rw := 0xFFFFFFFF },
  { name := .certLen, off := 0x130, lease := .chip, ro := 0xFFFFFFFF },
  { name := .cert, off := 0x1000, dims := [(0x4, 2048)], lease := .chip, ro := 0xFFFFFFFF },
  { name := .attReport, off := 0x4000, dims := [(0x4, 2012)], lease := .chip, ro := 0xFFFFFFFF }]

namespace Reg

/-- Address of sessCtrl (R88). -/
def sessCtrl (i : Nat) : Nat := 0x00000100 + 0x10 * i
/-- Address of sessStatus (R88). -/
def sessStatus (i : Nat) : Nat := 0x00000104 + 0x10 * i
/-- Address of sessTimeout (R88). -/
def sessTimeout (i : Nat) : Nat := 0x00000108 + 0x10 * i
/-- Address of sessLastSeq (R88). -/
def sessLastSeq (i : Nat) : Nat := 0x0000010C + 0x10 * i
/-- Address of leaseRing (R89). -/
def leaseRing (i : Nat) : Nat := 0x00000180 + 0x4 * i
/-- Address of leaseChip (R89). -/
def leaseChip : Nat := 0x000001B0
/-- Address of leaseTime (R89). -/
def leaseTime : Nat := 0x000001B4
/-- Address of ethCtrl (R90). -/
def ethCtrl (i : Nat) : Nat := 0x00050000 + 0x1000 * i
/-- Address of ethStatus (R90). -/
def ethStatus (i : Nat) : Nat := 0x00050004 + 0x1000 * i
/-- Address of ethFlags (R90). -/
def ethFlags (i : Nat) : Nat := 0x00050008 + 0x1000 * i
/-- Address of ethFlagCnt0 (R90). -/
def ethFlagCnt0 (i : Nat) : Nat := 0x0005000C + 0x1000 * i
/-- Address of ethFecCorrLo (R90). -/
def ethFecCorrLo (i : Nat) : Nat := 0x00050010 + 0x1000 * i
/-- Address of ethFecCorrHi (R90). -/
def ethFecCorrHi (i : Nat) : Nat := 0x00050014 + 0x1000 * i
/-- Address of ethFecUncorrLo (R90). -/
def ethFecUncorrLo (i : Nat) : Nat := 0x00050018 + 0x1000 * i
/-- Address of ethFecUncorrHi (R90). -/
def ethFecUncorrHi (i : Nat) : Nat := 0x0005001C + 0x1000 * i
/-- Address of ethRxFramesLo (R90). -/
def ethRxFramesLo (i : Nat) : Nat := 0x00050020 + 0x1000 * i
/-- Address of ethRxFramesHi (R90). -/
def ethRxFramesHi (i : Nat) : Nat := 0x00050024 + 0x1000 * i
/-- Address of ethTxFramesLo (R90). -/
def ethTxFramesLo (i : Nat) : Nat := 0x00050028 + 0x1000 * i
/-- Address of ethTxFramesHi (R90). -/
def ethTxFramesHi (i : Nat) : Nat := 0x0005002C + 0x1000 * i
/-- Address of ethRxDrop (R90). -/
def ethRxDrop (i : Nat) : Nat := 0x00050030 + 0x1000 * i
/-- Address of ethDupDiscard (R90). -/
def ethDupDiscard (i : Nat) : Nat := 0x00050034 + 0x1000 * i
/-- Address of ethClasscDrop (R90). -/
def ethClasscDrop (i : Nat) : Nat := 0x00050038 + 0x1000 * i
/-- Address of ethPfcMap (R90). -/
def ethPfcMap (i : Nat) : Nat := 0x00050040 + 0x1000 * i
/-- Address of ethPfcThr (R90). -/
def ethPfcThr (i : Nat) : Nat := 0x00050044 + 0x1000 * i
/-- Address of ethShadow (R90). -/
def ethShadow (i : Nat) : Nat := 0x00050048 + 0x1000 * i
/-- Address of ethClasscLimit (R90). -/
def ethClasscLimit (i : Nat) : Nat := 0x0005004C + 0x1000 * i
/-- Address of ethFlagCnt1 (R90). -/
def ethFlagCnt1 (i : Nat) : Nat := 0x00050050 + 0x1000 * i
/-- Address of ethModule (R90). -/
def ethModule (i j : Nat) : Nat := 0x00050400 + 0x1000 * i + 0x4 * j
/-- Address of netMacLo (R91). -/
def netMacLo : Nat := 0x00052000
/-- Address of netMacHi (R91). -/
def netMacHi : Nat := 0x00052004
/-- Address of netIpv4Addr (R91). -/
def netIpv4Addr : Nat := 0x00052008
/-- Address of netIpv4Mask (R91). -/
def netIpv4Mask : Nat := 0x0005200C
/-- Address of netIpv4Gw (R91). -/
def netIpv4Gw : Nat := 0x00052010
/-- Address of netIpv6Addr (R91). -/
def netIpv6Addr (i : Nat) : Nat := 0x00052020 + 0x4 * i
/-- Address of netIpv6Pfx (R91). -/
def netIpv6Pfx : Nat := 0x00052030
/-- Address of netVlan (R91). -/
def netVlan : Nat := 0x00052034
/-- Address of netCtrl (R91). -/
def netCtrl : Nat := 0x00052038
/-- Address of resqCtrl (R92). -/
def resqCtrl (i : Nat) : Nat := 0x00053000 + 0x20 * i
/-- Address of resqHwm (R92). -/
def resqHwm (i : Nat) : Nat := 0x00053004 + 0x20 * i
/-- Address of resqLwm (R92). -/
def resqLwm (i : Nat) : Nat := 0x00053008 + 0x20 * i
/-- Address of resqShotMax (R92). -/
def resqShotMax (i : Nat) : Nat := 0x0005300C + 0x20 * i
/-- Address of resqFill (R92). -/
def resqFill (i : Nat) : Nat := 0x00053010 + 0x20 * i
/-- Address of resqNextIndex (R92). -/
def resqNextIndex (i : Nat) : Nat := 0x00053014 + 0x20 * i
/-- Address of resqFlags (R92). -/
def resqFlags (i : Nat) : Nat := 0x00053018 + 0x20 * i
/-- Address of resqFlagCnt (R92). -/
def resqFlagCnt (i : Nat) : Nat := 0x0005301C + 0x20 * i
/-- Address of strmCfg (R93). -/
def strmCfg (i j : Nat) : Nat := 0x00054000 + 0x80 * i + 0x20 * j
/-- Address of strmLimit (R93). -/
def strmLimit (i j : Nat) : Nat := 0x00054004 + 0x80 * i + 0x20 * j
/-- Address of strmPlayptr (R93). -/
def strmPlayptr (i j : Nat) : Nat := 0x00054008 + 0x80 * i + 0x20 * j
/-- Address of strmLow (R93). -/
def strmLow (i j : Nat) : Nat := 0x0005400C + 0x80 * i + 0x20 * j
/-- Address of strmFlags (R93). -/
def strmFlags (i j : Nat) : Nat := 0x00054010 + 0x80 * i + 0x20 * j
/-- Address of strmFlagCnt (R93). -/
def strmFlagCnt (i j : Nat) : Nat := 0x00054014 + 0x80 * i + 0x20 * j
/-- Address of strmTakeptr (R93). -/
def strmTakeptr (i j : Nat) : Nat := 0x00054018 + 0x80 * i + 0x20 * j
/-- Address of schedFree (R94). -/
def schedFree : Nat := 0x00056000
/-- Address of schedLead (R94). -/
def schedLead : Nat := 0x00056004
/-- Address of schedFlags (R94). -/
def schedFlags : Nat := 0x00056008
/-- Address of schedFlagCnt (R94). -/
def schedFlagCnt : Nat := 0x0005600C
/-- Address of ident (R104). -/
def ident : Nat := 0x00000000
/-- Address of revision (R104). -/
def revision : Nat := 0x00000004
/-- Address of serialLo (R104). -/
def serialLo : Nat := 0x00000008
/-- Address of serialHi (R104). -/
def serialHi : Nat := 0x0000000C
/-- Address of fwVer (R104). -/
def fwVer : Nat := 0x00000020
/-- Address of mcodeVer (R104). -/
def mcodeVer : Nat := 0x00000024
/-- Address of chipStatus (R105). -/
def chipStatus : Nat := 0x00000010
/-- Address of sevFlags (R109). -/
def sevFlags : Nat := 0x00000200
/-- Address of sevFlagCnt (R109). -/
def sevFlagCnt : Nat := 0x00000204
/-- Address of alertCtrl (R109). -/
def alertCtrl : Nat := 0x00000208
/-- Address of carmineFirst (R109). -/
def carmineFirst : Nat := 0x0000020C
/-- Address of seqG (R179). -/
def seqG (n i : Nat) : Nat := 0x00101000 + 0x100000 * n + 0x4 * i
/-- Address of seqLc (R179). -/
def seqLc (n i : Nat) : Nat := 0x00101040 + 0x100000 * n + 0x4 * i
/-- Address of seqDr (R179). -/
def seqDr (n : Nat) : Nat := 0x00101050 + 0x100000 * n
/-- Address of seqDrvf (R179). -/
def seqDrvf (n : Nat) : Nat := 0x00101054 + 0x100000 * n
/-- Address of seqDrvc (R179). -/
def seqDrvc (n : Nat) : Nat := 0x00101058 + 0x100000 * n
/-- Address of seqSc (R179). -/
def seqSc (n : Nat) : Nat := 0x0010105C + 0x100000 * n
/-- Address of seqTb (R179). -/
def seqTb (n : Nat) : Nat := 0x00101060 + 0x100000 * n
/-- Address of seqSt (R179). -/
def seqSt (n : Nat) : Nat := 0x00101064 + 0x100000 * n
/-- Address of seqPc (R179). -/
def seqPc (n : Nat) : Nat := 0x00101068 + 0x100000 * n
/-- Address of seqRsc (R179). -/
def seqRsc (n : Nat) : Nat := 0x0010106C + 0x100000 * n
/-- Address of seqUpc (R179). -/
def seqUpc (n : Nat) : Nat := 0x00101070 + 0x100000 * n
/-- Address of seqTaq (R179). -/
def seqTaq (n : Nat) : Nat := 0x00101074 + 0x100000 * n
/-- Address of seqIllPc (R179). -/
def seqIllPc (n : Nat) : Nat := 0x00101078 + 0x100000 * n
/-- Address of seqUser (R179). -/
def seqUser (n : Nat) : Nat := 0x0010107C + 0x100000 * n
/-- Address of seqStack (R179). -/
def seqStack (n i : Nat) : Nat := 0x00101080 + 0x100000 * n + 0x4 * i
/-- Address of seqPflags (R179). -/
def seqPflags (n : Nat) : Nat := 0x001010C0 + 0x100000 * n
/-- Address of seqPflagCnt0 (R179). -/
def seqPflagCnt0 (n : Nat) : Nat := 0x001010C4 + 0x100000 * n
/-- Address of seqPflagCnt1 (R179). -/
def seqPflagCnt1 (n : Nat) : Nat := 0x001010C8 + 0x100000 * n
/-- Address of seqCmd (R186). -/
def seqCmd (n : Nat) : Nat := 0x00100000 + 0x100000 * n
/-- Address of seqStartCfg (R186). -/
def seqStartCfg (n : Nat) : Nat := 0x00100004 + 0x100000 * n
/-- Address of seqState (R186). -/
def seqState (n : Nat) : Nat := 0x00100008 + 0x100000 * n
/-- Address of seqCtrl (R186). -/
def seqCtrl (n : Nat) : Nat := 0x0010000C + 0x100000 * n
/-- Address of seqUdrVec (R186). -/
def seqUdrVec (n : Nat) : Nat := 0x00100010 + 0x100000 * n
/-- Address of seqStartBeatLo (R186). -/
def seqStartBeatLo (n : Nat) : Nat := 0x00100018 + 0x100000 * n
/-- Address of seqStartBeatHi (R186). -/
def seqStartBeatHi (n : Nat) : Nat := 0x0010001C + 0x100000 * n
/-- Address of seqFlags (R186). -/
def seqFlags (n : Nat) : Nat := 0x00100020 + 0x100000 * n
/-- Address of seqFlagCnt0 (R186). -/
def seqFlagCnt0 (n : Nat) : Nat := 0x00100024 + 0x100000 * n
/-- Address of seqFlagCnt1 (R186). -/
def seqFlagCnt1 (n : Nat) : Nat := 0x00100028 + 0x100000 * n
/-- Address of seqAbortSrc (R186). -/
def seqAbortSrc (n : Nat) : Nat := 0x0010002C + 0x100000 * n
/-- Address of txCtrl (R248). -/
def txCtrl (n i : Nat) : Nat := 0x00110000 + 0x100000 * n + 0x1000 * i
/-- Address of txFs (R248). -/
def txFs (n i : Nat) : Nat := 0x00110004 + 0x100000 * n + 0x1000 * i
/-- Address of txDelay (R248). -/
def txDelay (n i : Nat) : Nat := 0x00110008 + 0x100000 * n + 0x1000 * i
/-- Address of txFadeLen (R248). -/
def txFadeLen (n i : Nat) : Nat := 0x0011000C + 0x100000 * n + 0x1000 * i
/-- Address of txFadeReq (R248). -/
def txFadeReq (n i : Nat) : Nat := 0x00110010 + 0x100000 * n + 0x1000 * i
/-- Address of txStatus (R248). -/
def txStatus (n i : Nat) : Nat := 0x00110014 + 0x100000 * n + 0x1000 * i
/-- Address of txFlags (R248). -/
def txFlags (n i : Nat) : Nat := 0x00110018 + 0x100000 * n + 0x1000 * i
/-- Address of txFlagCnt (R248). -/
def txFlagCnt (n i : Nat) : Nat := 0x0011001C + 0x100000 * n + 0x1000 * i
/-- Address of txDescInfo (R248). -/
def txDescInfo (n i : Nat) : Nat := 0x00110020 + 0x100000 * n + 0x1000 * i
/-- Address of txCellMap (R248). -/
def txCellMap (n i : Nat) : Nat := 0x00110024 + 0x100000 * n + 0x1000 * i
/-- Address of txCoefA (R248). -/
def txCoefA (n i j : Nat) : Nat := 0x00110100 + 0x100000 * n + 0x1000 * i + 0x4 * j
/-- Address of txCoefB (R248). -/
def txCoefB (n i j : Nat) : Nat := 0x00110180 + 0x100000 * n + 0x1000 * i + 0x4 * j
/-- Address of voiceFreqLo (R249). -/
def voiceFreqLo (n i : Nat) : Nat := 0x00118000 + 0x100000 * n + 0x20 * i
/-- Address of voiceFreqHi (R249). -/
def voiceFreqHi (n i : Nat) : Nat := 0x00118004 + 0x100000 * n + 0x20 * i
/-- Address of voicePhase (R249). -/
def voicePhase (n i : Nat) : Nat := 0x00118008 + 0x100000 * n + 0x20 * i
/-- Address of voiceAmp (R249). -/
def voiceAmp (n i : Nat) : Nat := 0x0011800C + 0x100000 * n + 0x20 * i
/-- Address of voiceState (R249). -/
def voiceState (n i : Nat) : Nat := 0x00118010 + 0x100000 * n + 0x20 * i
/-- Address of voiceAccHi (R249). -/
def voiceAccHi (n i : Nat) : Nat := 0x00118014 + 0x100000 * n + 0x20 * i
/-- Address of biasCtrl (R266). -/
def biasCtrl (n i : Nat) : Nat := 0x00130000 + 0x100000 * n + 0x100 * i
/-- Address of biasSpan (R266). -/
def biasSpan (n i : Nat) : Nat := 0x00130004 + 0x100000 * n + 0x100 * i
/-- Address of biasTarget (R266). -/
def biasTarget (n i : Nat) : Nat := 0x00130008 + 0x100000 * n + 0x100 * i
/-- Address of biasRate (R266). -/
def biasRate (n i : Nat) : Nat := 0x0013000C + 0x100000 * n + 0x100 * i
/-- Address of biasStep (R266). -/
def biasStep (n i : Nat) : Nat := 0x00130010 + 0x100000 * n + 0x100 * i
/-- Address of biasClear (R266). -/
def biasClear (n i : Nat) : Nat := 0x00130014 + 0x100000 * n + 0x100 * i
/-- Address of biasOut (R266). -/
def biasOut (n i : Nat) : Nat := 0x00130018 + 0x100000 * n + 0x100 * i
/-- Address of biasStatus (R266). -/
def biasStatus (n i : Nat) : Nat := 0x0013001C + 0x100000 * n + 0x100 * i
/-- Address of biasFlags (R266). -/
def biasFlags (n i : Nat) : Nat := 0x00130020 + 0x100000 * n + 0x100 * i
/-- Address of biasFlagCnt0 (R266). -/
def biasFlagCnt0 (n i : Nat) : Nat := 0x00130024 + 0x100000 * n + 0x100 * i
/-- Address of biasFlagCnt1 (R266). -/
def biasFlagCnt1 (n i : Nat) : Nat := 0x00130028 + 0x100000 * n + 0x100 * i
/-- Address of biasReadback (R266). -/
def biasReadback (n i : Nat) : Nat := 0x0013002C + 0x100000 * n + 0x100 * i
/-- Address of biasMismatchThr (R266). -/
def biasMismatchThr (n i : Nat) : Nat := 0x00130030 + 0x100000 * n + 0x100 * i
/-- Address of biasQclr (R266). -/
def biasQclr (n i : Nat) : Nat := 0x00130034 + 0x100000 * n + 0x100 * i
/-- Address of rxCtrl (R303). -/
def rxCtrl (n i : Nat) : Nat := 0x00120000 + 0x100000 * n + 0x1000 * i
/-- Address of rxStatus (R303). -/
def rxStatus (n i : Nat) : Nat := 0x00120004 + 0x100000 * n + 0x1000 * i
/-- Address of rxFlags (R303). -/
def rxFlags (n i : Nat) : Nat := 0x00120008 + 0x100000 * n + 0x1000 * i
/-- Address of rxFlagCnt (R303). -/
def rxFlagCnt (n i : Nat) : Nat := 0x0012000C + 0x100000 * n + 0x1000 * i
/-- Address of rxOvrBeatsLo (R303). -/
def rxOvrBeatsLo (n i : Nat) : Nat := 0x00120010 + 0x100000 * n + 0x1000 * i
/-- Address of rxOvrBeatsHi (R303). -/
def rxOvrBeatsHi (n i : Nat) : Nat := 0x00120014 + 0x100000 * n + 0x1000 * i
/-- Address of rxRawCtrl (R303). -/
def rxRawCtrl (n i : Nat) : Nat := 0x00120040 + 0x100000 * n + 0x1000 * i
/-- Address of rxRawCmd (R303). -/
def rxRawCmd (n i : Nat) : Nat := 0x00120044 + 0x100000 * n + 0x1000 * i
/-- Address of rxRawStatus (R303). -/
def rxRawStatus (n i : Nat) : Nat := 0x00120048 + 0x100000 * n + 0x1000 * i
/-- Address of rxRawBeatLo (R303). -/
def rxRawBeatLo (n i : Nat) : Nat := 0x00120050 + 0x100000 * n + 0x1000 * i
/-- Address of rxRawBeatHi (R303). -/
def rxRawBeatHi (n i : Nat) : Nat := 0x00120054 + 0x100000 * n + 0x1000 * i
/-- Address of rxRawNum (R303). -/
def rxRawNum (n i : Nat) : Nat := 0x00120058 + 0x100000 * n + 0x1000 * i
/-- Address of laneCfg (R304). -/
def laneCfg (n i : Nat) : Nat := 0x00124000 + 0x100000 * n + 0x40 * i
/-- Address of laneShift (R304). -/
def laneShift (n i : Nat) : Nat := 0x00124004 + 0x100000 * n + 0x40 * i
/-- Address of laneFreqLo (R304). -/
def laneFreqLo (n i : Nat) : Nat := 0x00124008 + 0x100000 * n + 0x40 * i
/-- Address of laneFreqHi (R304). -/
def laneFreqHi (n i : Nat) : Nat := 0x0012400C + 0x100000 * n + 0x40 * i
/-- Address of lanePhase (R304). -/
def lanePhase (n i : Nat) : Nat := 0x00124010 + 0x100000 * n + 0x40 * i
/-- Address of lanePdly (R304). -/
def lanePdly (n i : Nat) : Nat := 0x00124014 + 0x100000 * n + 0x40 * i
/-- Address of laneKsel (R304). -/
def laneKsel (n i : Nat) : Nat := 0x00124018 + 0x100000 * n + 0x40 * i
/-- Address of laneState (R304). -/
def laneState (n i : Nat) : Nat := 0x0012401C + 0x100000 * n + 0x40 * i
/-- Address of laneFlags (R304). -/
def laneFlags (n i : Nat) : Nat := 0x00124020 + 0x100000 * n + 0x40 * i
/-- Address of laneFlagCnt0 (R304). -/
def laneFlagCnt0 (n i : Nat) : Nat := 0x00124024 + 0x100000 * n + 0x40 * i
/-- Address of laneFlagCnt1 (R304). -/
def laneFlagCnt1 (n i : Nat) : Nat := 0x00124028 + 0x100000 * n + 0x40 * i
/-- Address of laneLastCoarse (R304). -/
def laneLastCoarse (n i : Nat) : Nat := 0x0012402C + 0x100000 * n + 0x40 * i
/-- Address of laneLastFineLo (R304). -/
def laneLastFineLo (n i : Nat) : Nat := 0x00124030 + 0x100000 * n + 0x40 * i
/-- Address of laneLastFineHi (R304). -/
def laneLastFineHi (n i : Nat) : Nat := 0x00124034 + 0x100000 * n + 0x40 * i
/-- Address of jugCmd (R341). -/
def jugCmd (n : Nat) : Nat := 0x00140000 + 0x100000 * n
/-- Address of jugCtrl (R341). -/
def jugCtrl (n : Nat) : Nat := 0x00140004 + 0x100000 * n
/-- Address of jugVbase (R341). -/
def jugVbase (n : Nat) : Nat := 0x00140008 + 0x100000 * n
/-- Address of jugState (R341). -/
def jugState (n : Nat) : Nat := 0x0014000C + 0x100000 * n
/-- Address of jugSr (R341). -/
def jugSr (n : Nat) : Nat := 0x00140010 + 0x100000 * n
/-- Address of jugMboxIn (R341). -/
def jugMboxIn (n : Nat) : Nat := 0x00140014 + 0x100000 * n
/-- Address of jugMboxOut (R341). -/
def jugMboxOut (n : Nat) : Nat := 0x00140018 + 0x100000 * n
/-- Address of jugTimer (R341). -/
def jugTimer (n : Nat) : Nat := 0x0014001C + 0x100000 * n
/-- Address of jugFlags (R341). -/
def jugFlags (n : Nat) : Nat := 0x00140020 + 0x100000 * n
/-- Address of jugFlagCnt0 (R341). -/
def jugFlagCnt0 (n : Nat) : Nat := 0x00140024 + 0x100000 * n
/-- Address of jugFlagCnt1 (R341). -/
def jugFlagCnt1 (n : Nat) : Nat := 0x00140028 + 0x100000 * n
/-- Address of jugIllPc (R341). -/
def jugIllPc (n : Nat) : Nat := 0x0014002C + 0x100000 * n
/-- Address of jugFault (R341). -/
def jugFault (n : Nat) : Nat := 0x00140030 + 0x100000 * n
/-- Address of jugImc (R341). -/
def jugImc (n : Nat) : Nat := 0x00140034 + 0x100000 * n
/-- Address of jugImf (R341). -/
def jugImf (n : Nat) : Nat := 0x00140038 + 0x100000 * n
/-- Address of jugReg (R341). -/
def jugReg (n i : Nat) : Nat := 0x00140100 + 0x100000 * n + 0x4 * i
/-- Address of trpDomain (R373). -/
def trpDomain : Nat := 0x00040000
/-- Address of trpXport (R373). -/
def trpXport : Nat := 0x00040004
/-- Address of trpBarlat (R373). -/
def trpBarlat : Nat := 0x00040008
/-- Address of trpAbort (R373). -/
def trpAbort : Nat := 0x0004000C
/-- Address of trpAbortChips (R373). -/
def trpAbortChips : Nat := 0x00040010
/-- Address of trpFlags (R373). -/
def trpFlags : Nat := 0x00040014
/-- Address of trpFlagCnt0 (R373). -/
def trpFlagCnt0 : Nat := 0x00040018
/-- Address of trpFlagCnt1 (R373). -/
def trpFlagCnt1 : Nat := 0x0004001C
/-- Address of trpDbLo (R373). -/
def trpDbLo : Nat := 0x00040020
/-- Address of trpDbHi (R373). -/
def trpDbHi : Nat := 0x00040024
/-- Address of trpStatus (R373). -/
def trpStatus : Nat := 0x00040028
/-- Address of trpBar (R373). -/
def trpBar (i : Nat) : Nat := 0x00040100 + 0x10 * i
/-- Address of barStatus (R373). -/
def barStatus (i : Nat) : Nat := 0x00040104 + 0x10 * i
/-- Address of barRel (R373). -/
def barRel (i : Nat) : Nat := 0x00040108 + 0x10 * i
/-- Address of trpImport (R373). -/
def trpImport (i : Nat) : Nat := 0x00040200 + 0x4 * i
/-- Address of trpFwd (R373). -/
def trpFwd (i : Nat) : Nat := 0x00040240 + 0x4 * i
/-- Address of linkCmd (R374). -/
def linkCmd (i : Nat) : Nat := 0x00041000 + 0x100 * i
/-- Address of linkCtrl (R374). -/
def linkCtrl (i : Nat) : Nat := 0x00041004 + 0x100 * i
/-- Address of linkStatus (R374). -/
def linkStatus (i : Nat) : Nat := 0x00041008 + 0x100 * i
/-- Address of linkDelay (R374). -/
def linkDelay (i : Nat) : Nat := 0x0004100C + 0x100 * i
/-- Address of linkFlags (R374). -/
def linkFlags (i : Nat) : Nat := 0x00041010 + 0x100 * i
/-- Address of linkFlagCnt0 (R374). -/
def linkFlagCnt0 (i : Nat) : Nat := 0x00041014 + 0x100 * i
/-- Address of linkFlagCnt1 (R374). -/
def linkFlagCnt1 (i : Nat) : Nat := 0x00041018 + 0x100 * i
/-- Address of linkReturnMs (R374). -/
def linkReturnMs (i : Nat) : Nat := 0x0004101C + 0x100 * i
/-- Address of linkLaneErr (R374). -/
def linkLaneErr (i j : Nat) : Nat := 0x00041020 + 0x100 * i + 0x4 * j
/-- Address of linkRxFlitsLo (R374). -/
def linkRxFlitsLo (i : Nat) : Nat := 0x00041048 + 0x100 * i
/-- Address of linkRxFlitsHi (R374). -/
def linkRxFlitsHi (i : Nat) : Nat := 0x0004104C + 0x100 * i
/-- Address of linkTxFlitsLo (R374). -/
def linkTxFlitsLo (i : Nat) : Nat := 0x00041050 + 0x100 * i
/-- Address of linkTxFlitsHi (R374). -/
def linkTxFlitsHi (i : Nat) : Nat := 0x00041054 + 0x100 * i
/-- Address of beatcountLo (R404). -/
def beatcountLo : Nat := 0x00010000
/-- Address of beatcountHi (R404). -/
def beatcountHi : Nat := 0x00010004
/-- Address of incrementLo (R404). -/
def incrementLo : Nat := 0x00010008
/-- Address of incrementHi (R404). -/
def incrementHi : Nat := 0x0001000C
/-- Address of offsetNsLo (R404). -/
def offsetNsLo : Nat := 0x00010010
/-- Address of offsetNsHi (R404). -/
def offsetNsHi : Nat := 0x00010014
/-- Address of offsetSub (R404). -/
def offsetSub : Nat := 0x00010018
/-- Address of snapCmd (R404). -/
def snapCmd : Nat := 0x00010020
/-- Address of snapBeatLo (R404). -/
def snapBeatLo : Nat := 0x00010028
/-- Address of snapBeatHi (R404). -/
def snapBeatHi : Nat := 0x0001002C
/-- Address of snapNsLo (R404). -/
def snapNsLo : Nat := 0x00010030
/-- Address of snapNsHi (R404). -/
def snapNsHi : Nat := 0x00010034
/-- Address of snapSub (R404). -/
def snapSub : Nat := 0x00010038
/-- Address of adjIncLo (R404). -/
def adjIncLo : Nat := 0x00010040
/-- Address of adjIncHi (R404). -/
def adjIncHi : Nat := 0x00010044
/-- Address of adjOffNsLo (R404). -/
def adjOffNsLo : Nat := 0x00010048
/-- Address of adjOffNsHi (R404). -/
def adjOffNsHi : Nat := 0x0001004C
/-- Address of adjOffSub (R404). -/
def adjOffSub : Nat := 0x00010050
/-- Address of adjBeatLo (R404). -/
def adjBeatLo : Nat := 0x00010058
/-- Address of adjBeatHi (R404). -/
def adjBeatHi : Nat := 0x0001005C
/-- Address of adjCtrl (R404). -/
def adjCtrl : Nat := 0x00010060
/-- Address of adjLastLo (R404). -/
def adjLastLo : Nat := 0x00010068
/-- Address of adjLastHi (R404). -/
def adjLastHi : Nat := 0x0001006C
/-- Address of timeFlags (R404). -/
def timeFlags : Nat := 0x00010070
/-- Address of timeFlagCnt (R404). -/
def timeFlagCnt : Nat := 0x00010074
/-- Address of ptpCtrl (R404). -/
def ptpCtrl : Nat := 0x00010100
/-- Address of ptpInterval (R404). -/
def ptpInterval : Nat := 0x00010104
/-- Address of ptpPrio (R404). -/
def ptpPrio : Nat := 0x00010108
/-- Address of ptpStatus (R404). -/
def ptpStatus : Nat := 0x0001010C
/-- Address of ptpOffsetLo (R404). -/
def ptpOffsetLo : Nat := 0x00010110
/-- Address of ptpOffsetHi (R404). -/
def ptpOffsetHi : Nat := 0x00010114
/-- Address of ptpPathLo (R404). -/
def ptpPathLo : Nat := 0x00010118
/-- Address of ptpPathHi (R404). -/
def ptpPathHi : Nat := 0x0001011C
/-- Address of ptpMeas (R404). -/
def ptpMeas : Nat := 0x00010120
/-- Address of ptpPortEgressPs (R404). -/
def ptpPortEgressPs (i : Nat) : Nat := 0x00010200 + 0x20 * i
/-- Address of ptpPortIngressPs (R404). -/
def ptpPortIngressPs (i : Nat) : Nat := 0x00010204 + 0x20 * i
/-- Address of ptpPortTsqStatus (R404). -/
def ptpPortTsqStatus (i : Nat) : Nat := 0x00010208 + 0x20 * i
/-- Address of ptpPortTsqFlags (R404). -/
def ptpPortTsqFlags (i : Nat) : Nat := 0x0001020C + 0x20 * i
/-- Address of ptpPortTsqFlagCnt (R404). -/
def ptpPortTsqFlagCnt (i : Nat) : Nat := 0x00010210 + 0x20 * i
/-- Address of ptpPortTsqDrop (R404). -/
def ptpPortTsqDrop (i : Nat) : Nat := 0x00010214 + 0x20 * i
/-- Address of trigCtrl (R405). -/
def trigCtrl (i : Nat) : Nat := 0x00060000 + 0x10 * i
/-- Address of trigLastTs (R405). -/
def trigLastTs (i : Nat) : Nat := 0x00060004 + 0x10 * i
/-- Address of trigLastSub (R405). -/
def trigLastSub (i : Nat) : Nat := 0x00060008 + 0x10 * i
/-- Address of trigMissed (R405). -/
def trigMissed (i : Nat) : Nat := 0x0006000C + 0x10 * i
/-- Address of trigLatch (R405). -/
def trigLatch (i : Nat) : Nat := 0x00060100 + 0x4 * i
/-- Address of trigLclr (R405). -/
def trigLclr (i : Nat) : Nat := 0x00060140 + 0x4 * i
/-- Address of markCtrl (R405). -/
def markCtrl (i : Nat) : Nat := 0x00060200 + 0x10 * i
/-- Address of markHost (R405). -/
def markHost (i : Nat) : Nat := 0x00060204 + 0x10 * i
/-- Address of markState (R405). -/
def markState (i : Nat) : Nat := 0x00060208 + 0x10 * i
/-- Address of tsetOwner (R405). -/
def tsetOwner (i : Nat) : Nat := 0x00060300 + 0x10 * i
/-- Address of tsetDelay (R405). -/
def tsetDelay (i : Nat) : Nat := 0x00060304 + 0x10 * i
/-- Address of tsetWidth (R405). -/
def tsetWidth (i : Nat) : Nat := 0x00060308 + 0x10 * i
/-- Address of markFlags (R405). -/
def markFlags : Nat := 0x00060380
/-- Address of markFlagCnt (R405). -/
def markFlagCnt : Nat := 0x00060384
/-- Address of tiuCtrl (R405). -/
def tiuCtrl (i : Nat) : Nat := 0x00060400 + 0x40 * i
/-- Address of tiuN (R405). -/
def tiuN (i : Nat) : Nat := 0x00060404 + 0x40 * i
/-- Address of tiuCmd (R405). -/
def tiuCmd (i : Nat) : Nat := 0x00060408 + 0x40 * i
/-- Address of tiuStatus (R405). -/
def tiuStatus (i : Nat) : Nat := 0x0006040C + 0x40 * i
/-- Address of tiuCount (R405). -/
def tiuCount (i : Nat) : Nat := 0x00060410 + 0x40 * i
/-- Address of tiuMin (R405). -/
def tiuMin (i : Nat) : Nat := 0x00060414 + 0x40 * i
/-- Address of tiuMax (R405). -/
def tiuMax (i : Nat) : Nat := 0x00060418 + 0x40 * i
/-- Address of tiuStd (R405). -/
def tiuStd (i : Nat) : Nat := 0x0006041C + 0x40 * i
/-- Address of tiuMeanLo (R405). -/
def tiuMeanLo (i : Nat) : Nat := 0x00060420 + 0x40 * i
/-- Address of tiuMeanHi (R405). -/
def tiuMeanHi (i : Nat) : Nat := 0x00060424 + 0x40 * i
/-- Address of tiuFlags (R405). -/
def tiuFlags (i : Nat) : Nat := 0x00060428 + 0x40 * i
/-- Address of tiuFlagCnt0 (R405). -/
def tiuFlagCnt0 (i : Nat) : Nat := 0x0006042C + 0x40 * i
/-- Address of tiuFlagCnt1 (R405). -/
def tiuFlagCnt1 (i : Nat) : Nat := 0x00060430 + 0x40 * i
/-- Address of tiuOrphans (R405). -/
def tiuOrphans (i : Nat) : Nat := 0x00060434 + 0x40 * i
/-- Address of calCtrl (R433). -/
def calCtrl : Nat := 0x00030000
/-- Address of calConf (R433). -/
def calConf : Nat := 0x00030004
/-- Address of calRot (R433). -/
def calRot : Nat := 0x00030008
/-- Address of calApplyWait (R433). -/
def calApplyWait : Nat := 0x0003000C
/-- Address of calApply (R433). -/
def calApply : Nat := 0x00030010
/-- Address of calStatus (R433). -/
def calStatus : Nat := 0x00030014
/-- Address of lastApplyLo (R433). -/
def lastApplyLo (i : Nat) : Nat := 0x00030020 + 0x8 * i
/-- Address of lastApplyHi (R433). -/
def lastApplyHi (i : Nat) : Nat := 0x00030024 + 0x8 * i
/-- Address of calFlags (R433). -/
def calFlags : Nat := 0x00030040
/-- Address of calFlagCnt (R433). -/
def calFlagCnt : Nat := 0x00030044
/-- Address of calStore (R433). -/
def calStore : Nat := 0x00030080
/-- Address of calStoreStatus (R433). -/
def calStoreStatus : Nat := 0x00030084
/-- Address of calSeq (R433). -/
def calSeq : Nat := 0x00030088
/-- Address of calStores (R433). -/
def calStores : Nat := 0x0003008C
/-- Address of rxcalStatus (R433). -/
def rxcalStatus (i : Nat) : Nat := 0x00030100 + 0x20 * i
/-- Address of rxcalConfA (R433). -/
def rxcalConfA (i : Nat) : Nat := 0x00030104 + 0x20 * i
/-- Address of rxcalConfB (R433). -/
def rxcalConfB (i : Nat) : Nat := 0x00030108 + 0x20 * i
/-- Address of rxcalInj (R433). -/
def rxcalInj (i : Nat) : Nat := 0x0003010C + 0x20 * i
/-- Address of rxcalFlags (R433). -/
def rxcalFlags (i : Nat) : Nat := 0x00030110 + 0x20 * i
/-- Address of rxcalFlagCnt (R433). -/
def rxcalFlagCnt (i : Nat) : Nat := 0x00030114 + 0x20 * i
/-- Address of rxcalBlocks (R433). -/
def rxcalBlocks (i : Nat) : Nat := 0x00030118 + 0x20 * i
/-- Address of txcal (R433). -/
def txcal (i : Nat) : Nat := 0x00030400 + 0x4 * i
/-- Address of txdly (R433). -/
def txdly (i : Nat) : Nat := 0x00030500 + 0x4 * i
/-- Address of biastrim (R433). -/
def biastrim (i : Nat) : Nat := 0x00030600 + 0x4 * i
/-- Address of biastrimAct (R433). -/
def biastrimAct (i : Nat) : Nat := 0x00030700 + 0x4 * i
/-- Address of rxtrim (R433). -/
def rxtrim (i j : Nat) : Nat := 0x00031000 + 0x100 * i + 0x4 * j
/-- Address of rxtrimAct (R433). -/
def rxtrimAct (i j : Nat) : Nat := 0x00033000 + 0x100 * i + 0x4 * j
/-- Address of txtrim (R433). -/
def txtrim (i j : Nat) : Nat := 0x00035000 + 0x80 * i + 0x4 * j
/-- Address of txtrimAct (R433). -/
def txtrimAct (i j : Nat) : Nat := 0x00037000 + 0x80 * i + 0x4 * j
/-- Address of mtestCmd (R457). -/
def mtestCmd : Nat := 0x00070000
/-- Address of mtestCfg (R457). -/
def mtestCfg : Nat := 0x00070004
/-- Address of mtestStatus (R457). -/
def mtestStatus : Nat := 0x00070008
/-- Address of mtestFaults (R457). -/
def mtestFaults : Nat := 0x0007000C
/-- Address of mtestFailAddr (R457). -/
def mtestFailAddr : Nat := 0x00070010
/-- Address of mtestAbandon (R457). -/
def mtestAbandon : Nat := 0x00070014
/-- Address of scrubCtrl (R457). -/
def scrubCtrl : Nat := 0x00070020
/-- Address of scrubPasses (R457). -/
def scrubPasses : Nat := 0x00070024
/-- Address of eccCorrLo (R457). -/
def eccCorrLo : Nat := 0x00070028
/-- Address of eccCorrHi (R457). -/
def eccCorrHi : Nat := 0x0007002C
/-- Address of eccUncorr (R457). -/
def eccUncorr : Nat := 0x00070030
/-- Address of lastCorr (R457). -/
def lastCorr : Nat := 0x00070034
/-- Address of lastUncorr (R457). -/
def lastUncorr : Nat := 0x00070038
/-- Address of memFlags (R457). -/
def memFlags : Nat := 0x00070040
/-- Address of memFlagCnt0 (R457). -/
def memFlagCnt0 : Nat := 0x00070044
/-- Address of memFlagCnt1 (R457). -/
def memFlagCnt1 : Nat := 0x00070048
/-- Address of xmRetries (R457). -/
def xmRetries : Nat := 0x0007004C
/-- Address of repmapStatus (R457). -/
def repmapStatus : Nat := 0x00070050
/-- Address of repmapCtrl (R457). -/
def repmapCtrl : Nat := 0x00070054
/-- Address of ret (R457). -/
def ret (i : Nat) : Nat := 0x00070100 + 0x4 * i
/-- Address of spares (R457). -/
def spares (i j : Nat) : Nat := 0x00070200 + 0x40 * i + 0x4 * j
/-- Address of carCmd (R472). -/
def carCmd (i : Nat) : Nat := 0x00090000 + 0x40 * i
/-- Address of carCfg (R472). -/
def carCfg (i : Nat) : Nat := 0x00090004 + 0x40 * i
/-- Address of carInteg (R472). -/
def carInteg (i : Nat) : Nat := 0x00090008 + 0x40 * i
/-- Address of carStatus (R472). -/
def carStatus (i : Nat) : Nat := 0x0009000C + 0x40 * i
/-- Address of carSpecNum (R472). -/
def carSpecNum (i : Nat) : Nat := 0x00090010 + 0x40 * i
/-- Address of carStartBeatLo (R472). -/
def carStartBeatLo (i : Nat) : Nat := 0x00090014 + 0x40 * i
/-- Address of carStartBeatHi (R472). -/
def carStartBeatHi (i : Nat) : Nat := 0x00090018 + 0x40 * i
/-- Address of carThin (R472). -/
def carThin (i : Nat) : Nat := 0x0009001C + 0x40 * i
/-- Address of carFlags (R472). -/
def carFlags (i : Nat) : Nat := 0x00090020 + 0x40 * i
/-- Address of carFlagCnt (R472). -/
def carFlagCnt (i : Nat) : Nat := 0x00090024 + 0x40 * i
/-- Address of hkCtrl (R490). -/
def hkCtrl : Nat := 0x00020000
/-- Address of hkAinDelay (R490). -/
def hkAinDelay : Nat := 0x00020004
/-- Address of hkStatus (R490). -/
def hkStatus : Nat := 0x00020008
/-- Address of thermStatus (R490). -/
def thermStatus : Nat := 0x0002000C
/-- Address of thermFlags (R490). -/
def thermFlags : Nat := 0x00020010
/-- Address of thermFlagCnt0 (R490). -/
def thermFlagCnt0 : Nat := 0x00020014
/-- Address of thermFlagCnt1 (R490). -/
def thermFlagCnt1 : Nat := 0x00020018
/-- Address of throttleR (R490). -/
def throttleR : Nat := 0x0002001C
/-- Address of telemCtrl (R490). -/
def telemCtrl : Nat := 0x00020020
/-- Address of hkVal (R490). -/
def hkVal (i : Nat) : Nat := 0x00020100 + 0x4 * i
/-- Address of thermSens (R490). -/
def thermSens (i : Nat) : Nat := 0x00020300 + 0x4 * i
/-- Address of supWin (R490). -/
def supWin (i : Nat) : Nat := 0x00020400 + 0x4 * i
/-- Address of supOor (R490). -/
def supOor : Nat := 0x00020480
/-- Address of fanCtrl (R490). -/
def fanCtrl (i : Nat) : Nat := 0x00020500 + 0x10 * i
/-- Address of fanCurve (R490). -/
def fanCurve (i : Nat) : Nat := 0x00020504 + 0x10 * i
/-- Address of fanTach (R490). -/
def fanTach (i : Nat) : Nat := 0x00020508 + 0x10 * i
/-- Address of fanMinRpm (R490). -/
def fanMinRpm (i : Nat) : Nat := 0x0002050C + 0x10 * i
/-- Address of secStatus (R507). -/
def secStatus : Nat := 0x00080000
/-- Address of fwUpdSrc (R507). -/
def fwUpdSrc : Nat := 0x00080004
/-- Address of fwUpdLen (R507). -/
def fwUpdLen : Nat := 0x00080008
/-- Address of fwUpdCmd (R507). -/
def fwUpdCmd : Nat := 0x0008000C
/-- Address of fwUpdStatus (R507). -/
def fwUpdStatus : Nat := 0x00080010
/-- Address of fuseCmd (R507). -/
def fuseCmd : Nat := 0x00080014
/-- Address of fuseStatus (R507). -/
def fuseStatus : Nat := 0x00080018
/-- Address of vkeyHash0 (R507). -/
def vkeyHash0 (i : Nat) : Nat := 0x00080020 + 0x4 * i
/-- Address of vkeyHash1 (R507). -/
def vkeyHash1 (i : Nat) : Nat := 0x00080040 + 0x4 * i
/-- Address of fwHash (R507). -/
def fwHash (i : Nat) : Nat := 0x00080060 + 0x4 * i
/-- Address of ownAuth (R507). -/
def ownAuth : Nat := 0x00080080
/-- Address of ownCmd (R507). -/
def ownCmd : Nat := 0x00080084
/-- Address of ownSrc (R507). -/
def ownSrc : Nat := 0x00080088
/-- Address of ownNonce (R507). -/
def ownNonce : Nat := 0x0008008C
/-- Address of ownStatus (R507). -/
def ownStatus : Nat := 0x00080090
/-- Address of ownHash (R507). -/
def ownHash (i : Nat) : Nat := 0x00080094 + 0x4 * i
/-- Address of attCmd (R507). -/
def attCmd : Nat := 0x00080100
/-- Address of attStatus (R507). -/
def attStatus : Nat := 0x00080104
/-- Address of attCount (R507). -/
def attCount : Nat := 0x00080108
/-- Address of attNonce (R507). -/
def attNonce (i : Nat) : Nat := 0x00080110 + 0x4 * i
/-- Address of certLen (R507). -/
def certLen : Nat := 0x00080130
/-- Address of cert (R507). -/
def cert (i : Nat) : Nat := 0x00081000 + 0x4 * i
/-- Address of attReport (R507). -/
def attReport (i : Nat) : Nat := 0x00084000 + 0x4 * i
/-- Address of rstCause (R535). -/
def rstCause : Nat := 0x00000400
/-- Address of rstCmd (R535). -/
def rstCmd : Nat := 0x00000404
/-- Address of startupCfg (R535). -/
def startupCfg : Nat := 0x00000408
/-- Address of startupTime (R535). -/
def startupTime : Nat := 0x0000040C
/-- Address of clkStatus (R535). -/
def clkStatus : Nat := 0x00000410
/-- Address of clkCmd (R535). -/
def clkCmd : Nat := 0x00000414
/-- Address of clkFlags (R535). -/
def clkFlags : Nat := 0x00000418
/-- Address of clkFlagCnt (R535). -/
def clkFlagCnt : Nat := 0x0000041C
/-- Address of syncCtrl (R535). -/
def syncCtrl : Nat := 0x00000420
/-- Address of syncCmd (R535). -/
def syncCmd : Nat := 0x00000424
/-- Address of syncDbLo (R535). -/
def syncDbLo : Nat := 0x00000428
/-- Address of syncDbHi (R535). -/
def syncDbHi : Nat := 0x0000042C
/-- Address of dbOffsetLo (R535). -/
def dbOffsetLo : Nat := 0x00000430
/-- Address of dbOffsetHi (R535). -/
def dbOffsetHi : Nat := 0x00000434
/-- Address of syncLastLo (R535). -/
def syncLastLo : Nat := 0x00000438
/-- Address of syncLastHi (R535). -/
def syncLastHi : Nat := 0x0000043C
/-- Address of syncFlags (R535). -/
def syncFlags : Nat := 0x00000440
/-- Address of syncFlagCnt (R535). -/
def syncFlagCnt : Nat := 0x00000444
/-- Address of evlogWr (R108). -/
def evlogWr : Nat := 0x00000210
/-- Address of evlog (R108). -/
def evlog (i j : Nat) : Nat := 0x00001000 + 0x10 * i + 0x4 * j

end Reg

end Sys2Proof.Machine
end

