-- ==== Sys2Proof/Machine/State.lean ====
section
/-! DEFINITION. The state of the device (INVENTORY.md, '## State'): the register file, the addressed memories, and every
queue, counter, mode and pin that the spec gives its blocks. Plain data. -/

namespace Sys2Proof.Machine

/-- State of an Ethernet port (R61, R63, R90). -/
inductive PortState where
  /-- STATE 0x0 -/
  | down
  /-- STATE 0x1 -/
  | aligning
  /-- STATE 0x2 -/
  | shadow
  /-- STATE 0x3 -/
  | up
  deriving DecidableEq, Repr

/-- State of a ring (R181). -/
inductive RingState where
  /-- code 0x0 -/
  | idle
  /-- code 0x1 -/
  | armed
  /-- code 0x2 -/
  | running
  /-- code 0x3 -/
  | paused
  /-- code 0x4 -/
  | halted
  /-- code 0x5 -/
  | aborting
  /-- code 0x6 -/
  | aborted
  /-- code 0x7 -/
  | mck
  deriving DecidableEq, Repr

/-- What the front end of a sequencer holds on (R123, R168, R186 SEQ_STATE.WAIT). -/
inductive Wait where
  /-- issues -/
  | none
  /-- MODE 1 or 2 hold until a beat (R123) -/
  | timing (target : Nat)
  /-- MODE 3 hold on a wait condition (R134) -/
  | cond (c : BitVec 16)
  /-- WAIT until a beat (R164) -/
  | waitN (target : Nat)
  /-- DEC hold with its timeout beat (R145, R200) -/
  | dec (timeout : Option Nat)
  /-- CASE hold (R146) -/
  | caseW (timeout : Option Nat)
  /-- WAITC hold (R165) -/
  | waitc (timeout : Option Nat)
  /-- SYNC hold (R166) -/
  | sync (mask : BitVec 12)
  /-- XSYNC hold (R167) -/
  | xsync (bar : Nat) (mask : BitVec 16)
  /-- queue holds 64 entries (R128) -/
  | queueFull
  /-- SHOT CP0 (R168) -/
  | cp0
  /-- SHOT CP1 due in a beat (R168) -/
  | cp1 (at_ : Nat)
  /-- SHOT CP2 and CP3 (R168) -/
  | cp2
  /-- HALT drain (R169) -/
  | haltDrain
  /-- LD interlock or port-A stall (R126, R442) -/
  | ld
  deriving DecidableEq, Repr

/-- State of a Juggler (R336). -/
inductive JugState where
  /-- 0 -/
  | idle
  /-- 1 -/
  | running
  /-- 2 -/
  | halted
  /-- 3 -/
  | fault
  deriving DecidableEq, Repr

/-- Egress class of a frame, in the priority order of R84. -/
inductive TxClass where
  /-- IEEE 1588 -/
  | ptp
  /-- responses and DISCOVER answers -/
  | response
  /-- EVENT and CREDIT -/
  | event
  /-- RESULT -/
  | result
  /-- CLASS_DATA -/
  | classC
  /-- IEEE 802.1Qbb PFC (R86) -/
  | pfc
  /-- ARP, Neighbor Discovery and echo answers (R37) -/
  | answer
  deriving DecidableEq, Repr

/-- What a frame to the host carries (R36-R39, R86). -/
inductive Carried where
  /-- the RCP message of its header and operation blocks (R44) -/
  | rcp
  /-- data after an EtherType of its own -/
  | ether (type : BitVec 16) (data : List (BitVec 8))
  /-- data after an IP header -/
  | ip (proto : Nat) (data : List (BitVec 8))
  /-- data after IP and UDP headers (R384) -/
  | udp (dport : BitVec 16) (data : List (BitVec 8))
  deriving DecidableEq, Repr

/-- Why a segment starts (R223). -/
inductive Origin where
  /-- a request that found the voice free -/
  | request
  /-- a request at a boundary -/
  | jump
  /-- a repetition -/
  | rep
  /-- descriptor NEXT -/
  | chain
  deriving DecidableEq, Repr

/-- A parameter change that acts at a pin beat (R210, R277). -/
inductive PinKind where
  /-- FRQ -/
  | frq (f : BitVec 48)
  /-- PHS -/
  | phs (d : BitVec 32)
  /-- PHSET -/
  | phset (p : BitVec 32)
  /-- AMP -/
  | amp (a : BitVec 16)
  /-- the accumulator holds 0 (R211, R276) -/
  | zero
  deriving DecidableEq, Repr

/-- What a request asks of a voice (R151-R153). -/
inductive VKind where
  /-- PLAY -/
  | play (desc : Nat) (off : Nat) (pf : Bool)
  /-- PLAYS with the units it took (R152) or the fill for its whole length (R76) -/
  | plays (stream : Nat) (len : Nat) (off : Nat) (code : Nat) (first : BitVec 32) (units : Nat) (dead : Bool)
  /-- STOP with RAMP 0 -/
  | stop
  /-- STOP with RAMP 1 -/
  | ramp
  deriving DecidableEq, Repr

/-- The bias limiter (R253). -/
inductive SlewMode where
  /-- y = t -/
  | rest
  /-- the move is a step -/
  | step
  /-- RATE moves -/
  | slew
  deriving DecidableEq, Repr

/-- Span change steps of R257. -/
inductive SpanPhase where
  /-- step 1 -/
  | toZero
  /-- step 2 -/
  | holdZero (until_ : Nat)
  deriving DecidableEq, Repr

/-- Raw-capture buffer (R299). -/
inductive CapState where
  /-- 0 -/
  | idle
  /-- 1 -/
  | armed
  /-- 2 -/
  | capturing
  /-- 3 -/
  | full
  /-- 4 -/
  | pushing
  deriving DecidableEq, Repr

/-- Receiver state of a Trapeze link (R352). -/
inductive LinkState where
  /-- 0x0 -/
  | off
  /-- 0x1 -/
  | clock
  /-- 0x2 -/
  | bit
  /-- 0x3 -/
  | symbol
  /-- 0x4 -/
  | deskew
  /-- 0x5 -/
  | delay
  /-- 0x6 -/
  | waitPeer
  /-- 0x7 -/
  | up
  /-- 0x8 -/
  | failed
  deriving DecidableEq, Repr

/-- The PTP servo (R388). -/
inductive ServoState where
  /-- 0 -/
  | free
  /-- 1 -/
  | step
  /-- 2 -/
  | locked
  /-- 3 -/
  | holdover
  deriving DecidableEq, Repr

/-- Slice rotation (R433 ROT). -/
inductive RotState where
  /-- 0 -/
  | gap
  /-- 1 -/
  | shadow
  /-- 2 -/
  | swapWait
  /-- 3 -/
  | noSpare
  deriving DecidableEq, Repr

/-- Security operation (R502). -/
inductive SecKind where
  /-- FW_UPD_CMD -/
  | update
  /-- FUSE_CMD -/
  | fuse (op : Nat)
  /-- ATT_CMD -/
  | attest
  /-- OWN_CMD CHECK -/
  | check (ring : Nat)
  /-- OWN_CMD LOCK -/
  | lock
  /-- OWN_CMD UNLOCK -/
  | unlock
  deriving DecidableEq, Repr

/-- NVM store (R429, R453, R91). -/
inductive StoreKind where
  /-- calibration store -/
  | cal
  /-- clear-code store -/
  | clr
  /-- repair map -/
  | rep
  /-- network configuration -/
  | net
  deriving DecidableEq, Repr

/-- CHIP_STATUS.PHASE (R105, R522). -/
inductive Phase where
  /-- 0x0 -/
  | bootRom
  /-- 0x1 -/
  | fwCheck
  /-- 0x2 -/
  | memClear
  /-- 0x3 -/
  | pllLock
  /-- 0x4 -/
  | link
  /-- 0x5 -/
  | ready
  /-- 0x6 -/
  | recovery
  /-- 0x7 -/
  | test
  deriving DecidableEq, Repr

/-- Analog state of a TX output (R244, R245, R486). -/
inductive TxOut where
  /-- 0 mA on both legs -/
  | off
  /-- ramp from 0 mA to FS/2 -/
  | rampUp (until_ : Nat)
  /-- balanced, or driven when EN = 1 -/
  | live
  /-- ramp to 0 mA -/
  | rampDown (until_ : Nat)
  deriving DecidableEq, Repr

/-- Thermal level (R478). -/
inductive Thermal where
  /-- 0b00 -/
  | normal
  /-- 0b01 -/
  | warn
  /-- 0b10 -/
  | throttle
  /-- 0b11 -/
  | shutdown
  deriving DecidableEq, Repr

/-- One operation block of a response or push (R45). -/
structure OpResp where
  /-- operation code (R45). -/
  op : BitVec 8 := 0
  /-- address or selector (R45). -/
  addr : BitVec 32 := 0
  /-- error code (R45, R112). -/
  status : BitVec 16 := 0
  /-- COUNT, 16 bits on the wire (R45). -/
  count : Nat := 0
  /-- body bytes (R46). -/
  body : List (BitVec 8) := []
  deriving DecidableEq, Repr

/-- A frame handed to a port's egress (R84). -/
structure OutFrame where
  /-- egress class (R84). -/
  cls : TxClass := .response
  /-- session number (R44). -/
  sess : BitVec 8 := 0
  /-- SEQ (R44). -/
  seq : BitVec 32 := 0
  /-- FLAGS (R44). -/
  flags : BitVec 8 := 0
  /-- frame-level error code (R50). -/
  fstatus : BitVec 16 := 0
  /-- TAG (R44). -/
  tag : BitVec 32 := 0
  /-- addresses and transport of the receiver (R39, R58). -/
  dest : Option PushAddr := none
  /-- operation blocks (R45). -/
  ops : List OpResp := []
  /-- beat before which it does not leave (DISCOVER delay) (R43). -/
  notBefore : Nat := 0
  /-- PFC priority (R85, R90). -/
  prio : Nat := 0
  /-- what follows the addresses (R37-R39, R86). -/
  carry : Carried := .rcp
  /-- the 802.1Q tag it is sent with (R38). -/
  vlan : Option (BitVec 16) := none
  deriving DecidableEq, Repr

/-- A retained response (R55). -/
structure Cached where
  /-- SEQ of the request (R55). -/
  seq : BitVec 32 := 0
  /-- port of the first copy (R55). -/
  port : Nat := 0
  /-- the response, none when none was sent (R55). -/
  frame : Option OutFrame := none
  deriving DecidableEq, Repr

/-- A request frame whose block operation the DMA engine serves (R52, R67). -/
structure FrameRun where
  /-- port it came on (R52). -/
  port : Nat := 0
  /-- its source (R58). -/
  addr : PushAddr := {}
  /-- its message (R44). -/
  msg : List (BitVec 8) := []
  /-- operations executed, the one in service among them (R52). -/
  done : Nat := 0
  /-- their response blocks, without the one in service (R52). -/
  resp : List OpResp := []
  /-- session number that its SESSION_OPEN takes (R53). -/
  free : Nat := 0
  deriving DecidableEq, Repr

/-- A block operation in the host DMA engine (R67, R442-R446). -/
structure Dma where
  /-- port it came on (R67). -/
  port : Nat := 0
  /-- session (R64). -/
  sess : Nat := 0
  /-- BLOCK_WRITE (R48). -/
  write : Bool := false
  /-- address (R48). -/
  addr : BitVec 32 := 0
  /-- length in words (R48). -/
  count : Nat := 0
  /-- data of a BLOCK_WRITE (R48). -/
  words : List (BitVec 32) := []
  /-- its checks have passed and its array words are being served (R67). -/
  begun : Bool := false
  /-- beat its turn came, when it waits for a bank or a borrowed window (R437, R451). -/
  since : Nat := 0
  /-- array words to serve and how often each has received BUSY (R442, R445). -/
  todo : List (Nat × Nat) := []
  /-- array words served, with what the block's bytes in them held (R445). -/
  got : List (Nat × List (BitVec 8)) := []
  /-- its frame; none for an operation that stands alone (R52). -/
  frame : Option FrameRun := none
  deriving DecidableEq, Repr

/-- A session (R53-R60, R100, R101). -/
structure Sess where
  /-- open (R53). -/
  isOpen : Bool := false
  /-- session tag (R53). -/
  tag : BitVec 32 := 0
  /-- executed SEQ values with the port of the first copy (R54, R55). -/
  executed : List (BitVec 32 × Nat) := []
  /-- last 16 responses, newest first (R55). -/
  cache : List Cached := []
  /-- push address on port 0 (R58). -/
  addr0 : Option PushAddr := none
  /-- push address on port 1 (R58). -/
  addr1 : Option PushAddr := none
  /-- beat of the latest frame (R57). -/
  lastFrame : Nat := 0
  /-- next push sequence number (R44, R83). -/
  pushSeq : BitVec 32 := 0
  /-- snapshot register (R100). -/
  snap : BitVec 32 := 0
  /-- address of the most recent register READ (R100). -/
  snapOf : Option Nat := none
  /-- staged low word with its address (R101). -/
  stage : Option (Nat × BitVec 32) := none
  deriving DecidableEq, Repr

/-- A request that waits behind a frame of its port (R56, R86). -/
structure HeldReq where
  /-- the port it came on (R56). -/
  port : Nat := 0
  /-- its source (R39). -/
  addr : PushAddr := {}
  /-- the priority its bytes count under (R38, R86). -/
  prio : Nat := 0
  /-- bytes it holds of the ingress buffer (R86). -/
  len : Nat := 0
  /-- the message (R44). -/
  msg : List (BitVec 8) := []
  deriving DecidableEq, Repr

/-- An Ethernet port (R33-R40, R61-R63, R84-R87). -/
structure EthPort where
  /-- STATUS.STATE (R61, R90). -/
  state : PortState := .down
  /-- alignment-marker lock held (R61). -/
  locked : Bool := false
  /-- beat since which lock or FEC is lost (R61). -/
  lossFrom : Option Nat := none
  /-- consecutive uncorrectable codewords (R61). -/
  badRun : Nat := 0
  /-- beat of the latest uncorrectable codeword (R61). -/
  badAt : Nat := 0
  /-- FEC_CORR, corrected codewords (R90). -/
  fecCorr : BitVec 64 := 0
  /-- beat the shadow period began (R63). -/
  shadowFrom : Nat := 0
  /-- has aligned since reset (R523). -/
  aligned : Bool := false
  /-- ingress bytes held per priority (R86). -/
  ingress : List Nat := List.replicate 8 0
  /-- beat of the latest XOFF frame per priority while XOFF holds (R86). -/
  xoffAt : List (Option Nat) := List.replicate 8 none
  /-- beat until which a priority is held back (R85). -/
  pausedTo : List Nat := List.replicate 8 0
  /-- frames that wait for the MAC, oldest first (R84). -/
  egress : List OutFrame := []
  /-- the frame that the MAC took last, from its destination address through its FCS (R36, R38, R39). -/
  sent : List (BitVec 8) := []
  /-- bytes in the class C egress queue (R85). -/
  classCHeld : Nat := 0
  /-- class C allowance of the port, in 1/240 of a byte (R87). -/
  classCTok : Nat := 0
  /-- MOD_PRS_N low (R40, R550). -/
  modPresent : Bool := false
  /-- alarms of the latest poll (R40). -/
  modAlarm : BitVec 32 := 0
  /-- beat of the latest poll (R40, R550). -/
  modPollAt : Nat := 0
  /-- beat of the latest mirroring (R40). -/
  mirrorAt : Nat := 0
  /-- beat in which MOD_INT_N fell, its poll still due (R550). -/
  pollFrom : Option Nat := none
  deriving DecidableEq, Repr

/-- A scheduled write (R68-R70, R102). -/
structure Sched where
  /-- handle (R69). -/
  handle : BitVec 16 := 0
  /-- scheduling session (R69). -/
  sess : Nat := 0
  /-- register address (R69). -/
  addr : Nat := 0
  /-- target beat (R68). -/
  target : Nat := 0
  /-- value (R46). -/
  value : BitVec 32 := 0
  /-- mask (R47). -/
  mask : BitVec 32 := 0
  deriving DecidableEq, Repr

/-- A stream of a ring (R71-R76, R152). -/
structure Strm where
  /-- indices of the filled units (R72). -/
  filled : List (BitVec 32) := []
  /-- units released out of index order (R152). -/
  released : List (BitVec 32) := []
  /-- the limit has advanced since the latest CREDIT push (R73). -/
  creditDue : Bool := false
  /-- beat of the latest CREDIT push (R73). -/
  creditAt : Option Nat := none
  deriving DecidableEq, Repr

/-- An unfreed result record (R77-R81, R191). -/
structure Rec where
  /-- record index (R77). -/
  idx : BitVec 32 := 0
  /-- lane (R293). -/
  lane : Nat := 0
  /-- held until its shot's boundary (R191). -/
  held : Bool := true
  /-- beat it became waiting (R77). -/
  since : Nat := 0
  deriving DecidableEq, Repr

/-- Result queue of a ring (R77-R81). -/
structure ResQ where
  /-- unfreed records, oldest first (R78). -/
  recs : List Rec := []
  /-- index the next record receives (R77). -/
  next : BitVec 32 := 0
  /-- index of the next record to push (R78). -/
  pushed : BitVec 32 := 0
  /-- records written for a shot, by shot number (R81). -/
  shotRecs : List (Nat × Nat) := []
  deriving DecidableEq, Repr

/-- A segment descriptor as a voice has read it (R218, R221). -/
structure Desc where
  /-- word 0 (R218). -/
  w0 : BitVec 32 := 0
  /-- word 1 (R218). -/
  w1 : BitVec 32 := 0
  /-- word 2 (R218). -/
  w2 : BitVec 32 := 0
  /-- word 3 (R218). -/
  w3 : BitVec 32 := 0
  /-- its array word is uncorrectable (R440). -/
  bad : Bool := false
  /-- envelope pairs fetched with it, by number (R148). -/
  pairs : List (Nat × BitVec 32) := []
  deriving DecidableEq, Repr

/-- What a CASE with P = 1 has fetched early (R148). -/
structure CaseGot where
  /-- the coarse value v' (R148). -/
  val : Nat := 0
  /-- the table entry at base + v' (R148). -/
  word : BitVec 64 := 0
  /-- its array word is uncorrectable (R440). -/
  bad : Bool := false
  /-- the descriptor of a PLAY entry (R148). -/
  desc : Option Desc := none
  deriving DecidableEq, Repr

/-- A timed-action queue entry (R122, R126, R128). -/
structure Entry where
  /-- action beat (R123). -/
  at_ : Nat := 0
  /-- instruction (R119). -/
  word : BitVec 64 := 0
  /-- first register operand, read at issue (R126). -/
  v1 : BitVec 32 := 0
  /-- second register operand, read at issue (R126). -/
  v2 : BitVec 32 := 0
  /-- descriptor that a CASE has fetched for a PLAY (R148). -/
  got : Option Desc := none
  deriving DecidableEq, Repr

/-- A decision on its way to a ring's dr (R117, R324). -/
structure Post where
  /-- beat it reaches dr (R117). -/
  due : Nat := 0
  /-- data (R117). -/
  data : BitVec 32 := 0
  /-- mask (R117). -/
  mask : BitVec 32 := 0
  /-- marked coarse (R117). -/
  coarse : Bool := false
  /-- place in the order of R324 (R324). -/
  rank : Nat := 0
  /-- posted by this ring's Juggler (R330). -/
  ownJug : Bool := false
  deriving DecidableEq, Repr

/-- Posts that reached a ring's dr in one beat (R117, R118, R199, R324). -/
structure Meet where
  /-- the beat (R117). -/
  at_ : Nat := 0
  /-- dr before them (R117). -/
  dr : BitVec 32 := 0
  /-- drvf before them, less what the beat has consumed or cleared (R117, R199). -/
  drvf : BitVec 32 := 0
  /-- drvc before them, less what the beat has consumed or cleared (R117). -/
  drvc : BitVec 32 := 0
  /-- the posts, in the order of R324 (R324). -/
  posts : List Post := []
  /-- DR_OVERWRITE has been judged (R199). -/
  judged : Bool := false
  deriving DecidableEq, Repr

/-- A pending LD or ST (R138, R442, R443). -/
structure LdReq where
  /-- destination register of an LD (R138). -/
  rd : Option Nat := none
  /-- word address in exchange memory (R138). -/
  word : Nat := 0
  /-- value of an ST (R138). -/
  store : BitVec 32 := 0
  /-- it is an ST (R138). -/
  isStore : Bool := false
  /-- issue beat I (R138). -/
  issued : Nat := 0
  /-- beat in which port A served it (R443). -/
  served : Option Nat := none
  /-- value read (R138). -/
  value : BitVec 32 := 0
  deriving DecidableEq, Repr

/-- A ring sequencer beside its registers (R115, R122-R131, R181-R197). -/
structure Seq where
  /-- ring state (R181). -/
  st : RingState := .idle
  /-- state held before ARM (R183). -/
  armedFrom : RingState := .idle
  /-- hold of the front end (R186). -/
  wait : Wait := .none
  /-- beat from which the next instruction may issue (R122). -/
  issueAt : Nat := 0
  /-- S, beat of the present shot start (R123). -/
  shotAt : Nat := 0
  /-- F, reference beat (R124). -/
  refAt : Nat := 0
  /-- timed-action queue, program order (R128). -/
  taq : List Entry := []
  /-- beat of the latest release (R129). -/
  relBeat : Nat := 0
  /-- entries released in that beat (R129). -/
  relCount : Nat := 0
  /-- HALT_PEND (R192). -/
  haltPend : Bool := false
  /-- host hold (R189). -/
  hold : Bool := false
  /-- HOLD_PAUSE set in this pause (R190). -/
  holdMarked : Bool := false
  /-- first beat after the thermal pause (R483). -/
  thermEnd : Option Nat := none
  /-- beat in which CP2 last evaluated the pause conditions (R168). -/
  evalAt : Option Nat := none
  /-- the thermal pause condition held in a CP2 beat of the present SHOT (R295). -/
  thermHeld : Bool := false
  /-- watermark condition holds (R189). -/
  pWm : Bool := false
  /-- stream condition holds (R189). -/
  pCredit : Bool := false
  /-- CP1 beat of the present SHOT (R168). -/
  boundaryAt : Nat := 0
  /-- st.UDR and UDR_MODE were 1 at CP1 (R206). -/
  udrCp1 : Bool := false
  /-- the shot started after a thermal pause (R295). -/
  thrShot : Bool := false
  /-- LDs and STs not yet performed or written, oldest first (R138, R442). -/
  ldq : List LdReq := []
  /-- decisions in flight (R117). -/
  posts : List Post := []
  /-- posts that reached dr in its beat and what they met (R117, R199). -/
  meet : Option Meet := none
  /-- what the CASE that holds has fetched early (R148). -/
  caseGot : Option CaseGot := none
  /-- the fetched table entry that issues next (R148). -/
  caseUse : Option CaseGot := none
  /-- descriptor fetched for the PLAY that acts (R148). -/
  got : Option Desc := none
  /-- abort waiting for a checkpoint, by SRC (R195). -/
  abortReq : Option Nat := none
  /-- beat 0 of the running abort (R195). -/
  abortAt : Option Nat := none
  /-- the running abort is a machine check (R176). -/
  mckAbort : Bool := false
  /-- beat from which boundaries start no repetition or chain (R169, R225). -/
  haltFrom : Option Nat := none
  /-- counts shots, names the shot of a record (R191). -/
  shotNo : Nat := 0
  /-- the ring has started since reset (R254). -/
  started : Bool := false
  /-- S', start of the bias tick grid (R254). -/
  gridAt : Nat := 0
  /-- release beat of a completed SYNC (R166). -/
  syncAt : Option Nat := none
  deriving DecidableEq, Repr

/-- A parameter change in flight to the pins (R210, R277). -/
structure PinOp where
  /-- pin beat (R210). -/
  at_ : Nat := 0
  /-- change (R210). -/
  kind : PinKind := .zero
  deriving DecidableEq, Repr

/-- A segment of a voice's timeline (R218-R224). -/
structure Seg where
  /-- descriptor number; 0 for PLAYS (R218). -/
  desc : Nat := 0
  /-- descriptor word 0 copy (R221) (R218). -/
  w0 : BitVec 32 := 0
  /-- word 1 (R218). -/
  w1 : BitVec 32 := 0
  /-- word 2 (R218). -/
  w2 : BitVec 32 := 0
  /-- word 3 (R218). -/
  w3 : BitVec 32 := 0
  /-- pin beat of the first sample (R223). -/
  start : Nat := 0
  /-- boundary pin beat B (R223). -/
  bnd : Nat := 0
  /-- sample offset k (R223). -/
  off : Nat := 0
  /-- repetitions still to play (R249). -/
  repLeft : Nat := 0
  /-- why it starts (R223). -/
  origin : Origin := .request
  /-- stream of a PLAYS (R152). -/
  stream : Option Nat := none
  /-- first unit taken (R152). -/
  first : BitVec 32 := 0
  /-- units taken (R152). -/
  units : Nat := 0
  /-- units claimed so far (R204). -/
  claimed : Nat := 0
  /-- units released so far (R152). -/
  released : Nat := 0
  /-- pin beat from which the under-run fill plays (R204). -/
  fillAt : Option Nat := none
  /-- what happens at its boundary has been chosen (R223). -/
  chosen : Bool := false
  /-- a ramped STOP ends it: it ends with sample 0 of its boundary pin beat (R153). -/
  ramped : Bool := false
  /-- pin beat from which an earlier ramped STOP keeps it silent (R153). -/
  silentAt : Option Nat := none
  /-- envelope pairs that a CASE has fetched for its start (R148). -/
  got : List (Nat × BitVec 32) := []
  deriving DecidableEq, Repr

/-- A request in flight to a voice (R220). -/
structure VReq where
  /-- action beat A (R220). -/
  act : Nat := 0
  /-- request (R151). -/
  kind : VKind := .stop
  /-- it has been marked late (R202). -/
  late : Bool := false
  /-- descriptor read for it (R148, R221). -/
  got : Option Desc := none
  deriving DecidableEq, Repr

/-- A voice beside its registers (R211-R225). -/
structure Voice where
  /-- phase accumulator for sample 0 of pin beat accAt (R211). -/
  acc : BitVec 48 := 0
  /-- pin beat acc stands for; from it on the frequency word has not changed (R211). -/
  accAt : Nat := 0
  /-- changes in flight to the pins (R210). -/
  pins : List PinOp := []
  /-- requests in flight (R220). -/
  reqs : List VReq := []
  /-- pending jump request (R201, R203). -/
  jump : Option VReq := none
  /-- pin beat at which the pending request takes effect, once that has been chosen (R201). -/
  jumpAt : Option Nat := none
  /-- beats that its envelope comes late (R22, R209). -/
  lag : Nat := 0
  /-- envelope fetches on their way: beat and segment (R148, R151). -/
  pre : List (Nat × Seg) := []
  /-- timeline of segments, oldest first (R223). -/
  segs : List Seg := []
  /-- pin beats of ramped STOPs whose ramps run (R153). -/
  stops : List Nat := []
  /-- envelope samples read: pin beat they reach, pin beat they were due in, samples (R209, R221). -/
  env : List (Nat × Nat × List (Int × Int)) := []
  /-- start of the segment whose pairs were read last, and those pairs (R221). -/
  pairs : Nat × List (Nat × BitVec 32) := (0, [])
  /-- first pin beat from which a choice taken back leaves other samples (R203, R225). -/
  redo : Option Nat := none
  deriving DecidableEq, Repr

/-- A running fade (R229). -/
structure FadeRun where
  /-- first pin beat P (R229). -/
  start : Nat := 0
  /-- L as read at the start (R229). -/
  len : Nat := 0
  /-- bank faded to (R229). -/
  to_ : Bool := false
  deriving DecidableEq, Repr

/-- A TX channel beside its registers (R226-R247). -/
structure TxCh where
  /-- bank in force (R229). -/
  act : Bool := false
  /-- running fade (R231). -/
  run : Option FadeRun := none
  /-- the fade that ended last (R229, R236). -/
  past : Option FadeRun := none
  /-- pending request (R231). -/
  pend : Option Bool := none
  /-- host-pending request (R230). -/
  host : Option Bool := none
  /-- pin beat X + 26 at which it reaches the channel (R230). -/
  hostAt : Option Nat := none
  /-- FADE requests in flight, by pin beat (R161). -/
  reqs : List (Nat × Bool) := []
  /-- pin-beat intervals in which a fade ran (R234). -/
  fadeLog : List (Nat × Nat) := []
  /-- end of the MODE hold or FS ramp (R246). -/
  settleTo : Option Nat := none
  /-- analog output state (R244). -/
  out : TxOut := .off
  /-- voice sums by pin beat, before shift (R215, R209). -/
  ys : List (Nat × List Int) := []
  /-- samples x by pin beat (R226). -/
  xs : List (Nat × List Int) := []
  /-- DAC codes by pin beat (R237). -/
  codes : List (Nat × List Int) := []
  /-- last pin beat for which codes were made under fades that may have changed since (R229, R230). -/
  stir : Nat := 0
  /-- FS.CODE from which the leg currents ramp (R246). -/
  fsOld : BitVec 8 := 96
  /-- failing cell and the spare being matched (R241). -/
  subst : Option (Nat × Nat) := none
  /-- consecutive matching measurements (R241). -/
  substRun : Nat := 0
  /-- measurements made (R241). -/
  substTry : Nat := 0
  /-- spare matched, swap waits for APPLY (R241). -/
  substReady : Bool := false
  /-- spares found unfit (R241). -/
  substTried : List Nat := []
  /-- DAC_CELL_EXHAUSTED raised (R243). -/
  exhausted : Bool := false
  deriving DecidableEq, Repr

/-- A bias output beside its registers (R252-R263). -/
structure BiasOut where
  /-- update queue, oldest first, at most 8: beat of entry and code (R252). -/
  queue : List (Nat × Int) := []
  /-- limiter value in 1/64 LSB (R253). -/
  y : Int := 0
  /-- target in 1/64 LSB (R253). -/
  t : Int := 0
  /-- limiter state (R253). -/
  mode : SlewMode := .rest
  /-- beat in which y reached t (R253). -/
  reachedAt : Nat := 0
  /-- running span change (R257). -/
  span : Option SpanPhase := none
  /-- span written (R257). -/
  newSpan : BitVec 2 := 0
  /-- SPAN.CODE written (R257). -/
  newCode : Int := 0
  /-- span in force (R250). -/
  spanNow : BitVec 2 := 0
  /-- the span change ends at the clear code (R259). -/
  clearEnd : Bool := false
  /-- STATUS.DRIVEN (R262). -/
  driven : Bool := false
  /-- tick, since the end of reset, in which the analog ramp to 0 V that a reset began has ended (R529). -/
  rampTo : Nat := 0
  /-- entry of the latest BIAS action: beat and code (R130, R252). -/
  acted : Option (Nat × Int) := none
  /-- limiter value that stood for the output's voltage when that ramp began (R529). -/
  rampY : Int := 0
  /-- ticks that the ramp takes (R529). -/
  rampLen : Nat := 0
  /-- span in force until the ramp has ended (R529). -/
  rampSpan : BitVec 2 := 0
  /-- NVM is read and the output waits for the end of that ramp (R529). -/
  bootDue : Bool := false
  /-- STATUS.CLR_DEFAULT (R258). -/
  clrDefault : Bool := false
  deriving DecidableEq, Repr

/-- A running raw capture (R300). -/
structure Capture where
  /-- first pin beat (R300). -/
  start : Nat := 0
  /-- RAW_CTRL.LEN (R300). -/
  len : Nat := 0
  deriving DecidableEq, Repr

/-- An RX channel beside its registers (R267-R273, R298-R302). -/
structure RxCh where
  /-- STATUS.READY (R270). -/
  ready : Bool := false
  /-- beat READY returns (R270). -/
  readyAt : Option Nat := none
  /-- the latest pin beat clipped (R272). -/
  clip : Bool := false
  /-- beat in which the overload detector last acted (R272). -/
  detAt : Nat := 0
  /-- overloads: first clipped pin beat and E (R273). -/
  ovl : List (Nat × Option Nat) := []
  /-- raw-capture buffer (R299). -/
  raw : CapState := .idle
  /-- capture in progress (R300). -/
  cap : Option Capture := none
  /-- captured beats already pushed (R301). -/
  pushPos : Nat := 0
  /-- running sum of thinning, twentieths (R484). -/
  rawSum : Nat := 0
  /-- pin beats of a slice return or trim APPLY (R295). -/
  calAt : List Nat := []
  /-- codes of the latest 11,264 pin beats, newest first (R267, R461). -/
  hist : List (Nat × List Int) := []
  /-- sums of squared codes of the latest 1,500 pin beats, newest first (R418). -/
  energy : List Nat := []
  deriving DecidableEq, Repr

/-- An integration window (R285-R292). -/
structure Win where
  /-- action beat A (R285). -/
  act : Nat := 0
  /-- set length L (R285). -/
  len : Nat := 0
  /-- close beat C (R285). -/
  closeAt : Nat := 0
  /-- NR (R157). -/
  nr : Bool := false
  /-- RAW (R157, R300). -/
  raw : Bool := false
  /-- base tap (R286). -/
  base : Nat := 0
  /-- kernel number (R158). -/
  num : BitVec 16 := 0
  /-- it has closed; its results or record are to come (R285). -/
  closed : Bool := false
  /-- outputs taken (R285). -/
  n : Nat := 0
  /-- outputs on their way to the integrator: beat, weight, value, saturations (R275, R285). -/
  fifo : List (Nat × (Int × Int) × (Int × Int) × Nat) := []
  /-- fine sum I, 56 bits (R288). -/
  accI : Int := 0
  /-- fine sum Q (R288). -/
  accQ : Int := 0
  /-- coarse sum I, 40 bits (R289). -/
  cI : Int := 0
  /-- coarse sum Q (R289). -/
  cQ : Int := 0
  /-- truncated (R292). -/
  trunc : Bool := false
  /-- truncated by a machine check (R196). -/
  mck : Bool := false
  /-- sc[15:0] of its shot (R293). -/
  shot : BitVec 16 := 0
  /-- shot of its ACQ (R191). -/
  shotNo : Nat := 0
  /-- flags of its shot once that shot has ended (R191). -/
  shotFlags : Option (BitVec 16) := none
  /-- coarse result delivered (R320). -/
  coarseDone : Bool := false
  /-- coarse result as delivered (R289). -/
  cres : BitVec 32 := 0
  /-- record flags known at the close (R295). -/
  flags : BitVec 16 := 0
  /-- annotation word (R296). -/
  annot : BitVec 32 := 0
  deriving DecidableEq, Repr

/-- The most recently closed window of a lane, for annotation (R322). -/
structure LastWin where
  /-- its action beat (R322). -/
  act : Nat := 0
  /-- its record has been written, or it has none (R322). -/
  written : Bool := false
  /-- index of its record, none without one (R322). -/
  recIdx : Option (BitVec 32) := none
  deriving DecidableEq, Repr

/-- A readout lane beside its registers (R275-R292). -/
structure Lane where
  /-- phase accumulator for sample 0 of RX pin beat accAt (R276). -/
  acc : BitVec 48 := 0
  /-- pin beat acc stands for; from it on the frequency word has not changed (R276). -/
  accAt : Nat := 0
  /-- changes in flight to the RX pins (R277). -/
  pins : List PinOp := []
  /-- mixed samples, newest first (R278). -/
  mix : List (Int × Int) := []
  /-- windows that are open or whose results or record are to come, oldest first (R285, R290). -/
  wins : List Win := []
  /-- the most recently closed window (R322). -/
  last : Option LastWin := none
  deriving DecidableEq, Repr

/-- A Juggler result in flight (R307). -/
structure JWr where
  /-- pipeline beat from which it is seen (R307). -/
  due : Nat := 0
  /-- register number; 42, 43 the whole accumulators; 44 Z, N, C, V; 45 AV and AVS; 46 SAT (R305). -/
  dst : Nat := 0
  /-- value (R307). -/
  val : BitVec 72 := 0
  /-- a program write of ls, le, lc or sr, which governs the loop test later (R328). -/
  prog : Bool := false
  deriving DecidableEq, Repr

/-- A Juggler beside its registers (R305-R341). -/
structure Jug where
  /-- state (R336). -/
  st : JugState := .idle
  /-- program counter (R305). -/
  pc : BitVec 12 := 0
  /-- return stack, newest first, with the sr of an interrupt entry and the delay slots of an untaken branch it met (R326). -/
  stack : List (BitVec 12 × Option (BitVec 32) × Nat) := []
  /-- beat of the next issue (R307). -/
  issueAt : Nat := 0
  /-- beats the pipeline has been held; its beat is the present one less these (R310). -/
  held : Nat := 0
  /-- end of a borrow hold (R310). -/
  holdTo : Nat := 0
  /-- beat of the latest issue (R331). -/
  issuedAt : Option Nat := none
  /-- results in flight (R307). -/
  pipe : List JWr := []
  /-- delay slots left, target, sr to restore and slots of an untaken branch at the target of a taken branch (R325). -/
  slots : Option (Nat × BitVec 12 × Option (BitVec 32) × Nat) := none
  /-- sr that comes into force with the issue of an RTI's target (R332). -/
  srBack : Option (BitVec 32) := none
  /-- no packet has issued at the latest RTI's target (R331). -/
  rtiHold : Bool := false
  /-- WAIT kind, mask and address (R329). -/
  wait : Option (Nat × BitVec 32 × BitVec 12) := none
  /-- delay slots left of any branch (R325). -/
  inSlots : Nat := 0
  /-- STOP or HALT waits for its boundary (R337). -/
  stopReq : Bool := false
  /-- beat it enters HALTED (R337). -/
  stopAt : Option Nat := none
  /-- pending interrupts (R330). -/
  ipend : BitVec 8 := 0
  /-- pending interrupts at the end of the previous beat (R331). -/
  ipendB : BitVec 8 := 0
  /-- beat of the latest interrupt entry (R331). -/
  entryAt : Option Nat := none
  /-- coarse-ready mask (R319). -/
  crdy : BitVec 32 := 0
  /-- fine-ready mask (R319). -/
  frdy : BitVec 32 := 0
  /-- coarse results (R319). -/
  cres : List (BitVec 32) := List.replicate 32 0
  /-- fine I (R319). -/
  fresI : List (BitVec 32) := List.replicate 32 0
  /-- fine Q (R319). -/
  fresQ : List (BitVec 32) := List.replicate 32 0
  /-- RINFO (R319). -/
  rinfo : List (BitVec 32) := List.replicate 32 0
  /-- beat in which the running timer reaches 0 (R340). -/
  timerAt : Option Nat := none
  /-- OUT in flight: beat, port, value (R321, R322). -/
  outs : List (Nat × Nat × BitVec 32) := []
  /-- values that still govern the loop test: until which pipeline beat, of ls, le, lc or LEN (0 to 3), value (R328). -/
  loopW : List (Nat × Nat × BitVec 32) := []
  /-- results that arrived in the present beat: lane, 32 more for a fine one, the values before, and whether they overran unread ones (R321). -/
  arr : List (Nat × BitVec 32 × BitVec 32 × Bool) := []
  deriving DecidableEq, Repr

/-- A data flit waiting for a transmit slot (R346, R348). -/
structure Flit where
  /-- TYPE (R346). -/
  typ : Nat := 0
  /-- flit bits with the CRC (R346). -/
  bits : BitVec 64 := 0
  /-- beat from which it may take a slot (R364). -/
  ready : Nat := 0
  deriving DecidableEq, Repr

/-- A Trapeze link beside its registers (R342-R358). -/
structure Link where
  /-- receiver state (R352). -/
  st : LinkState := .off
  /-- beat it entered the state (R352). -/
  since : Nat := 0
  /-- end of the D21.5 pattern (R352). -/
  txTrain : Option Nat := none
  /-- transmitter sends flits (R352). -/
  txOn : Bool := false
  /-- flits waiting for a slot, oldest first (R348). -/
  queue : List Flit := []
  /-- delays of the latest TIME flits, newest first (R352). -/
  delays : List Nat := []
  /-- partner's TRAIN_DONE received (R352). -/
  peerDone : Bool := false
  /-- beat in which the first TRAIN_DONE was decoded (R352). -/
  doneAt : Nat := 0
  /-- TRAIN_DONE is being sent (R352). -/
  trainSent : Bool := false
  /-- RX_FREQ_OK (R353). -/
  freqOk : Bool := false
  /-- beat of the latest transmit slot taken (R348). -/
  slotAt : Option Nat := none
  /-- marker interval (DB div 256) of the latest TIME flit (R348). -/
  timeSent : Option Nat := none
  /-- receive lane replaced by the spare (R356). -/
  spareLane : Option Nat := none
  /-- lane copied by the own transmitter (R356). -/
  mirror : Option Nat := none
  /-- MIRROR_REQ decoded, starts after the next marker (R356). -/
  mirrorReq : Option Nat := none
  /-- lane whose replacement is under way (R356). -/
  failing : Option Nat := none
  /-- spare not used until the next START (R355). -/
  spareBad : Bool := false
  /-- start of the return period (R357). -/
  returnFrom : Nat := 0
  /-- transmitter resumes rotation after its next marker (R357). -/
  returnDue : Bool := false
  /-- failing lanes not covered by the spare (R358). -/
  uncovered : List Nat := []
  /-- symbol errors of data lanes in the latest 2^20 beats: lane and beat (R356). -/
  errAt : List (Nat × Nat) := []
  /-- lanes whose marker was missing: lane, latest beat, and how many intervals in a row (R356). -/
  missed : List (Nat × Nat × Nat) := []
  /-- marker intervals in which the free spare showed an error or a mismatch, newest first (R355). -/
  spareErrs : List Nat := []
  /-- beat in which the copy of the failing lane begins to arrive on the spare (R356). -/
  copyFrom : Option Nat := none
  /-- first beat of the copy's present run of good marker intervals (R356). -/
  goodFrom : Nat := 0
  /-- the latest data flit sent (R345, R346). -/
  sent : BitVec 64 := 0
  /-- LANE_EXHAUSTED condition holds until START or STOP (R568). -/
  down : Bool := false
  deriving DecidableEq, Repr

/-- A DEC held in the release buffer (R365). -/
structure RelDec where
  /-- release domain beat (R365). -/
  release : Nat := 0
  /-- source chip (R365). -/
  src : Nat := 0
  /-- coarse (R365). -/
  co : Bool := false
  /-- MASK (R365). -/
  mask : BitVec 16 := 0
  /-- DATA (R365). -/
  data : BitVec 16 := 0
  deriving DecidableEq, Repr

/-- A Trapeze barrier (R368-R370). -/
structure Barrier where
  /-- own arrival beat A (domain beat) (R368). -/
  arrived : Option Nat := none
  /-- M (R368). -/
  mask : BitVec 16 := 0
  /-- BAR flits held: chip, arrival beat, CHIPS (R369). -/
  got : List (Nat × Nat × BitVec 16) := []
  /-- domain beat in which the set of arrivals became complete (R370). -/
  full : Option Nat := none
  /-- the differing masks of the participants that wait have been reported (R368). -/
  mismatch : Bool := false
  deriving DecidableEq, Repr

/-- Trapeze domain state (R349-R372). -/
structure Trap where
  /-- release buffer, at most 64 (R367). -/
  relBuf : List RelDec := []
  /-- barriers (R368). -/
  bars : List Barrier := List.replicate 16 ({} : Barrier)
  /-- post beat of the latest DEC sent (R363). -/
  lastDec : Option Nat := none
  /-- exporting posts of the present beat: rank, ring, coarse, mask, data (R361). -/
  exports : List (Nat × Nat × Bool × BitVec 16 × BitVec 16) := []
  /-- ABORT of the present beat: ring, cause (R371). -/
  abortOut : Option (Nat × Nat) := none
  /-- beats in which Trapeze aborts are delivered (R372). -/
  abortIn : List Nat := []
  /-- DB_VALID (R349). -/
  dbValid : Bool := false
  deriving DecidableEq, Repr

/-- Transmit-timestamp queue entry (R386). -/
structure Tsq where
  /-- sequenceId (R386). -/
  id : BitVec 16 := 0
  /-- messageType (R386). -/
  typ : BitVec 4 := 0
  /-- egress timestamp (R382, R386). -/
  ts : BitVec 48 := 0
  deriving DecidableEq, Repr

/-- A master whose Announce messages the port receives (R384; IEEE 1588). -/
structure Foreign where
  /-- its sourcePortIdentity (R384). -/
  src : BitVec 80 := 0
  /-- its latest Announce (R384). -/
  ann : PtpAnnounce := {}
  /-- beats of its latest Announce messages, newest first (R384). -/
  times : List Nat := []
  deriving DecidableEq, Repr

/-- A Pdelay_Req that the port answers (R386, R387). -/
structure PdelayOwed where
  /-- sequenceId (R386). -/
  id : BitVec 16 := 0
  /-- its sourcePortIdentity (R387). -/
  req : BitVec 80 := 0
  /-- its correctionField (R387). -/
  correction : BitVec 64 := 0
  /-- its ingress timestamp (R385). -/
  ts : BitVec 48 := 0
  deriving DecidableEq, Repr

/-- Network time and PTP (R375-R389). -/
structure Timing where
  /-- OFFSET in 2^-40 ns (R376). -/
  offset : Int := 0
  /-- settings that adjustments replaced, newest first: the beat up to which INCREMENT and OFFSET held, and the two (R377). -/
  past : List (Nat × Nat × Int) := []
  /-- servo state (R388). -/
  servo : ServoState := .free
  /-- PTP portState (R404). -/
  portState : BitVec 4 := 0
  /-- port in use (R389). -/
  actPort : Nat := 0
  /-- masters whose Announce messages came (R384). -/
  foreign : List Foreign := []
  /-- sourcePortIdentity of the selected master (R384). -/
  parent : BitVec 80 := 0
  /-- beat from which the announce receipt timeout runs (R384). -/
  annFrom : Nat := 0
  /-- beat of the next Sync of a master (R404). -/
  nextSync : Nat := 0
  /-- beat of the next Announce of a master (R404). -/
  nextAnnounce : Nat := 0
  /-- beat of the next Delay_Req or Pdelay_Req (R404). -/
  nextReq : Nat := 0
  /-- sequenceId of the next Sync (R386). -/
  syncId : BitVec 16 := 0
  /-- sequenceId of the next Announce (R384). -/
  announceId : BitVec 16 := 0
  /-- sequenceId of the next Delay_Req or Pdelay_Req (R386). -/
  reqId : BitVec 16 := 0
  /-- Pdelay_Req messages whose answer is not complete (R386, R387). -/
  owed : List PdelayOwed := []
  /-- beat of the latest Sync (R388). -/
  lastSync : Nat := 0
  /-- two-step Sync without its Follow_Up: sequenceId, ingress timestamp, correctionField (R388). -/
  sync : Option (BitVec 16 × BitVec 48 × BitVec 64) := none
  /-- latest master-to-slave difference in 2^-16 ns (R388). -/
  ms : Int := 0
  /-- latest Delay_Req: sequenceId and egress timestamp (R388). -/
  reqT : Option (BitVec 16 × BitVec 48) := none
  /-- latest Pdelay_Req: sequenceId and egress timestamp (R388). -/
  preqT : Option (BitVec 16 × BitVec 48) := none
  /-- two-step Pdelay_Resp without its Follow_Up: sequenceId and the round trip less corrections, in 2^-16 ns (R388). -/
  presp : Option (BitVec 16 × Int) := none
  /-- meanPathDelay in 2^-16 ns (R388). -/
  path : Int := 0
  /-- queue of port 0 (R386). -/
  tsq0 : List Tsq := []
  /-- queue of port 1 (R386). -/
  tsq1 : List Tsq := []
  deriving DecidableEq, Repr

/-- A trigger input (R390-R392). -/
structure Trig where
  /-- bin of the latest taken edge (R391). -/
  last : Option Nat := none
  /-- taken edges on their way, with the bin and whether rising; they act from 8 beats after the pin beat (R390). -/
  pend : List (Nat × Bool) := []
  deriving DecidableEq, Repr

/-- An event on its way to a measurement unit (R395). -/
structure TiuEv where
  /-- stamp in bins (R395). -/
  bin_ : Nat := 0
  /-- a START event (R395). -/
  isStart : Bool := false
  deriving DecidableEq, Repr

/-- A time-interval unit beside its registers (R393-R396). -/
structure Tiu where
  /-- RUNNING (R396). -/
  running : Bool := false
  /-- DONE (R396). -/
  done : Bool := false
  /-- stamp of the open start (R395). -/
  start : Option Nat := none
  /-- intervals taken in the run (R396). -/
  xs : List Nat := []
  /-- events not yet handled, in stamp order, a START before a STOP (R395). -/
  evs : List TiuEv := []
  /-- beat the run ended, statistics due (R396). -/
  endFrom : Option Nat := none
  deriving DecidableEq, Repr

/-- A placed marker edge (R398, R399). -/
structure MEdge where
  /-- instant in bins (R398). -/
  bin_ : Nat := 0
  /-- edge to high (R398). -/
  high : Bool := false
  /-- order of placing (R399). -/
  order : Nat := 0
  /-- belongs to a pulse (R398). -/
  pulse : Bool := false
  deriving DecidableEq, Repr

/-- A marker output (R397-R403). -/
structure Mark where
  /-- level before inversion (R399). -/
  level : Bool := false
  /-- placed edges not yet reached (R398). -/
  edges : List MEdge := []
  deriving DecidableEq, Repr

/-- An injected calibration (R418, R419). -/
structure Inj where
  /-- block boundary at which it starts (R419). -/
  from_ : Nat := 0
  /-- blocks left (R419). -/
  left : Nat := 4
  /-- shadow slice trims before the first injected block (R419). -/
  saved : List (BitVec 32) := []
  deriving DecidableEq, Repr

/-- Calibration of an RX channel (R407-R424). -/
structure RxCal where
  /-- sum of squares of the codes of the present sub-block (R415). -/
  pow : Nat := 0
  /-- those of the present block's complete sub-blocks (R415). -/
  pows : List Nat := []
  /-- those of the latest complete block (R415). -/
  seenPows : List Nat := []
  /-- codes of every slice in the present block (R408). -/
  sums : List SliceSum := List.replicate 49 {}
  /-- those of the latest complete block (R408). -/
  seenSums : List SliceSum := List.replicate 49 {}
  /-- rotation state (R433). -/
  rot : RotState := .gap
  /-- beat the next step starts (R422). -/
  gapTo : Nat := 0
  /-- beat the present rotation step began (R421). -/
  stepFrom : Nat := 0
  /-- consecutive confident matching blocks (R421). -/
  matchRun : Nat := 0
  /-- the spare has matched in this step (R421). -/
  matched : Bool := false
  /-- READY was 0 in a beat of the running block (R407). -/
  bad : Bool := false
  /-- evaluation beat of the latest complete block (R407). -/
  evalAt : Option Nat := none
  /-- earliest swap beat (R422). -/
  swapFrom : Nat := 0
  /-- slice holding each slot (R420). -/
  slots : List Nat := List.range 48
  /-- consecutive low blocks per quantity (R417). -/
  lowRun : List Nat := List.replicate 3 0
  /-- consecutive high blocks per quantity (R417). -/
  highRun : List Nat := List.replicate 3 0
  /-- confident blocks a slice was out of range (R423). -/
  failRun : List Nat := List.replicate 49 0
  /-- failing slice to be mapped out (R423). -/
  failing : Option Nat := none
  /-- SLICE_EXHAUSTED raised (R424). -/
  exhausted : Bool := false
  /-- injection (R418). -/
  inj : Option Inj := none
  deriving DecidableEq, Repr

/-- Calibration of a TX channel (R417, R425). -/
structure TxCal where
  /-- low visits of quantities 3 and 4 (R417). -/
  lowRun : List Nat := List.replicate 2 0
  /-- high visits (R417). -/
  highRun : List Nat := List.replicate 2 0
  /-- latest measured delay in fs (R425). -/
  delay : Option Int := none
  deriving DecidableEq, Repr

/-- Calibration of a converter die (R411-R413, R425). -/
structure DieCal where
  /-- beat of the pending APPLY request (R413). -/
  req : Option Nat := none
  /-- TX channel that a substitution keeps under the monitor receiver (R425). -/
  hold : Option Nat := none
  /-- TX channel observed in the running block (R425). -/
  chan : Option Nat := none
  /-- channel observed in the latest complete block, and its evaluation beat (R425). -/
  seen : Option (Nat × Nat) := none
  /-- beats of the running block in which the observed channel was active (R415). -/
  active : Nat := 0
  /-- those of the latest complete block (R415). -/
  seenActive : Nat := 0
  deriving DecidableEq, Repr

/-- Header of an NVM slot or copy (R427). -/
structure NvmHdr where
  /-- MAGIC (R427). -/
  magic : BitVec 32 := 0
  /-- SEQ (R427). -/
  seq : BitVec 32 := 0
  /-- LENGTH (R427). -/
  length : BitVec 32 := 0
  /-- FORMAT (R427). -/
  format : BitVec 16 := 0
  /-- UNIT (R427). -/
  unit : BitVec 32 := 0
  /-- CHECK, the CRC-32C over bytes 0 to 27 and the content (R427). -/
  check : BitVec 32 := 0
  /-- CHECK matches the bytes that stand in the NVM (R427, R428). -/
  checkOk : Bool := false
  deriving DecidableEq, Repr

/-- A firmware image in a slot (R493). -/
structure FwImg where
  /-- FW_VER (R493). -/
  fwVer : BitVec 32 := 0
  /-- SVN (R493). -/
  svn : Nat := 0
  /-- KEY (R493). -/
  key : Nat := 0
  /-- the image passes every check of R494 but REVOKED and SVN (R494). -/
  good : Bool := false
  /-- SHA-256 of header and body (R500). -/
  hash : List (BitVec 8) := List.replicate 32 0
  deriving DecidableEq, Repr

/-- Firmware slot (R492). -/
structure NvmFw where
  /-- header (R492). -/
  hdr : NvmHdr := {}
  /-- image (R493). -/
  img : FwImg := {}
  deriving DecidableEq, Repr

/-- NVM copy holding register words (calibration, clear codes, network configuration). -/
structure NvmRegs where
  /-- header (R427). -/
  hdr : NvmHdr := {}
  /-- register addresses and values (R427). -/
  words : List (Nat × BitVec 32) := []
  deriving DecidableEq, Repr

/-- A repair map entry (R453). -/
structure RepEnt where
  /-- memory code (R453). -/
  code : Nat := 0
  /-- instance (R453). -/
  inst : Nat := 0
  /-- spare index (R453). -/
  spare : Nat := 0
  /-- row; none marks a faulty spare (R452) (R453). -/
  row : Option Nat := none
  deriving DecidableEq, Repr

/-- Repair map copy (R453). -/
structure NvmRep where
  /-- header (R453). -/
  hdr : NvmHdr := {}
  /-- entries (R453). -/
  ents : List (BitVec 32) := []
  deriving DecidableEq, Repr

/-- Owner record copy (R492, R503). -/
structure NvmOwn where
  /-- header (R492). -/
  hdr : NvmHdr := {}
  /-- locked (R503). -/
  locked : Bool := false
  /-- owner key hash (R503). -/
  hash : List (BitVec 8) := List.replicate 32 0
  deriving DecidableEq, Repr

/-- The NVM (R492). -/
structure Nvm where
  /-- firmware slot A (R492). -/
  fwA : NvmFw := { hdr := { magic := 0x4D524946, seq := 1, length := 8048, format := 2, checkOk := true }, img := { good := true } }
  /-- firmware slot B (R492). -/
  fwB : NvmFw := {}
  /-- calibration slot A (R427). -/
  calA : NvmRegs := {}
  /-- calibration slot B (R427). -/
  calB : NvmRegs := {}
  /-- slot assignments in A (R427). -/
  calMapA : List (List Nat) := []
  /-- slot assignments in B (R427). -/
  calMapB : List (List Nat) := []
  /-- repair map A (R453). -/
  repA : NvmRep := {}
  /-- repair map B (R453). -/
  repB : NvmRep := {}
  /-- certificates; empty stands for those written at manufacture (R492, R499). -/
  cert : List (BitVec 8) := []
  /-- network configuration A (R492). -/
  netA : NvmRegs := {}
  /-- network configuration B (R492). -/
  netB : NvmRegs := {}
  /-- owner record A (R492). -/
  ownA : NvmOwn := { hdr := { magic := 0x524E574F, seq := 1, length := 36, format := 2, checkOk := true } }
  /-- owner record B (R492). -/
  ownB : NvmOwn := { hdr := { magic := 0x524E574F, seq := 1, length := 36, format := 2, checkOk := true } }
  /-- clear codes A (R427). -/
  clrA : NvmRegs := {}
  /-- clear codes B (R427). -/
  clrB : NvmRegs := {}
  deriving DecidableEq, Repr

/-- A running NVM store (R429). -/
structure Store where
  /-- what is stored (R429). -/
  kind : StoreKind := .cal
  /-- start beat (R429). -/
  start : Nat := 0
  /-- target copy (R429). -/
  toB : Bool := false
  /-- staged content (R429). -/
  words : List (Nat × BitVec 32) := []
  /-- staged slot assignments (R427). -/
  map : List (List Nat) := []
  /-- staged repair map (R453). -/
  ents : List RepEnt := []
  deriving DecidableEq, Repr

/-- Background calibration (R406-R434). -/
structure CalUnit where
  /-- per RX channel (R407). -/
  rx : List RxCal := List.replicate 24 ({} : RxCal)
  /-- per TX channel (R425). -/
  tx : List TxCal := List.replicate 48 ({} : TxCal)
  /-- per converter die (R411). -/
  die : List DieCal := List.replicate 4 ({} : DieCal)
  /-- the NVM store that runs (R430). -/
  store : Option Store := none
  /-- beat of the latest completed calibration store (R429). -/
  lastStore : Nat := 0
  /-- a periodic store waits for NVM (R430). -/
  storeDue : Bool := false
  /-- a repair-map store waits for NVM (R453). -/
  repDue : Bool := false
  /-- trims whose active value takes the shadow value in the next beat: active and shadow address, and the bits that do (R410). -/
  follow : List (Nat × Nat × BitVec 32) := []
  deriving DecidableEq, Repr

/-- A march run (R447-R451). -/
structure March where
  /-- memory code (R447). -/
  code : Nat := 0
  /-- instance (R447). -/
  inst : Nat := 0
  /-- mode (R448). -/
  preserving : Bool := true
  /-- next row (R450). -/
  row : Nat := 0
  /-- window that is borrowed again after an abandon: memory code, instance, row (R451). -/
  again : Option (Nat × Nat × Nat) := none
  /-- consecutive abandons of the row (R451). -/
  abandons : Nat := 0
  /-- ABORT written (R457). -/
  stopping : Bool := false
  /-- start of a destructive run; in a preserving one, beat from which the next row may be borrowed (R449, R450). -/
  nextAt : Nat := 0
  deriving DecidableEq, Repr

/-- A borrowed window (R450). -/
structure Borrow where
  /-- memory code (R450). -/
  code : Nat := 0
  /-- instance (R450). -/
  inst : Nat := 0
  /-- row (R450). -/
  row : Nat := 0
  /-- borrow beat (R450). -/
  at_ : Nat := 0
  /-- beat of a real-time access to it (R451). -/
  hit : Option Nat := none
  deriving DecidableEq, Repr

/-- Memory protection, test and retention (R438-R457). -/
structure MemUnit where
  /-- array words holding errors: byte address, and their damaged bytes with the bits that are flipped; bytes past the data are the check
  bytes (R438). -/
  damaged : List (Nat × List (Nat × BitVec 8)) := []
  /-- corrected words waiting for write-back (R440). -/
  writeback : List Nat := []
  /-- words corrected in the latest complete scrub pass (R441). -/
  passFix : List Nat := []
  /-- words corrected in the present scrub pass (R441). -/
  curFix : List Nat := []
  /-- damaged words read in the present scrub pass (R441). -/
  scrubbed : List Nat := []
  /-- beat the present scrub pass began (R441). -/
  scrubFrom : Nat := 0
  /-- suspect words (R441). -/
  suspects : List Nat := []
  /-- run in progress (R447). -/
  march : Option March := none
  /-- borrowed window (R450). -/
  borrow : Option Borrow := none
  /-- repair map in force (R453). -/
  repair : List RepEnt := []
  /-- end of a wake and whether memories are cleared (R455). -/
  wake : List (Option (Nat × Bool)) := List.replicate 12 none
  /-- port-A accesses of the present beat: bank, array word, write (R442, R444). -/
  portA : List (Nat × Nat × Bool) := []
  /-- banks of exchange memory that have served the host in the present beat (R442). -/
  portB : List Nat := []
  /-- words corrected in the present beat (R440). -/
  fixed : List Nat := []
  /-- host writes of ring memories that take effect with the end of the beat: address and bytes (R314, R437). -/
  late : List (Nat × List (BitVec 8)) := []
  /-- block operations in the DMA engine, oldest first (R67). -/
  dma : List Dma := []
  /-- a faulty row was found for which no spare was left (R452, R568). -/
  rowsOut : Bool := false
  deriving DecidableEq, Repr

/-- Statistics of one Carousel bin (R464). -/
structure BinAcc where
  /-- S1 (R464). -/
  s1 : Nat := 0
  /-- S2 (R464). -/
  s2 : Nat := 0
  /-- largest P (R464). -/
  mx : Nat := 0
  /-- smallest P (R464). -/
  mn : Option Nat := none
  /-- frames above the threshold (R464). -/
  occ : Nat := 0
  deriving DecidableEq, Repr

/-- A Carousel slot beside its registers (R458-R471). -/
structure CarSlot where
  /-- RUNNING or STOPPING (R459). -/
  running : Bool := false
  /-- spectrum to complete after STOP (R460). -/
  stopping : Option Nat := none
  /-- start pin beat (R459). -/
  p0 : Nat := 0
  /-- K as read at START (R464). -/
  k : Nat := 1
  /-- next frame f (R461). -/
  frame : Nat := 0
  /-- accumulators of the present spectrum (R464). -/
  bins : List BinAcc := []
  /-- flags of the spectra whose spans have begun, by spectrum number (R466). -/
  flags : List (Nat × BitVec 16) := []
  /-- finished spectra: number, ready beat, flags, statistics (R465). -/
  ready : List (Nat × Nat × BitVec 16 × List BinAcc) := []
  /-- running sum of r in twentieths (R470). -/
  thinSum : Nat := 0
  /-- ready spectra that are to be pushed (R469). -/
  toPush : List Nat := []
  /-- a spectrum was thinned since the latest pushed (R466). -/
  thinned : Bool := false
  /-- the session closed (R470). -/
  sessGone : Bool := false
  deriving DecidableEq, Repr

/-- A temperature sensor (R474-R482). -/
structure Sensor where
  /-- level (R478). -/
  level : Thermal := .normal
  /-- consecutive readings at or above 95, 100, 112 C (R478). -/
  up : List Nat := List.replicate 3 0
  /-- consecutive readings below 92, 97 C (R478). -/
  below : List Nat := List.replicate 2 0
  /-- declared broken (R479). -/
  broken : Bool := false
  /-- code of the latest counted round (R479). -/
  lastCode : Option Nat := none
  /-- counted rounds with the same code (R479). -/
  sameRun : Nat := 0
  /-- consecutive comparator samples above 122 C (R487). -/
  trips : Nat := 0
  /-- e (R482). -/
  excess : Nat := 0
  /-- counted reading in 1/16 C (R490). -/
  temp : Int := 0
  deriving DecidableEq, Repr

/-- A fan (R488). -/
structure Fan where
  /-- seconds RPM stayed below MIN_RPM (R488). -/
  lowFor : Nat := 0
  /-- beat of the next update of RPM (R488). -/
  nextAt : Nat := 1500000000
  deriving DecidableEq, Repr

/-- Housekeeping and thermal management (R473-R490). -/
structure HkUnit where
  /-- beat the present round began (R473). -/
  roundAt : Nat := 0
  /-- next slot (R473). -/
  slot : Nat := 0
  /-- beat in which the running conversion ends (R473). -/
  convAt : Nat := 1500
  /-- end of the previous round, waiting for the next to start (R477). -/
  waitEdge : Option Nat := none
  /-- first rising PWM edge since then (R477). -/
  edgeAt : Option Nat := none
  /-- a reference check of the round lies outside its window, so that no reading of it counts (R476). -/
  refBad : Bool := false
  /-- sensors (R474). -/
  sens : List Sensor := List.replicate 16 ({} : Sensor)
  /-- fans (R488). -/
  fans : List Fan := List.replicate 2 ({} : Fan)
  /-- rounds since the latest push (R489). -/
  telemN : Nat := 0
  /-- number of a round that is to be pushed, and the beat it started (R489). -/
  telemDue : Option (Nat × Nat) := none
  /-- running sum of thinning, twentieths (R484). -/
  telemSum : Nat := 0
  /-- beat 0 of the graceful shutdown (R486). -/
  shutAt : Option Nat := none
  /-- beat W (R486). -/
  shutW : Option Nat := none
  /-- THERM_TRIP_N low (R487). -/
  tripped : Bool := false
  /-- beat TX outputs go to 0 mA after a trip (R487). -/
  tripOff : Option Nat := none
  /-- RX converters, monitor receivers and Trapeze data lanes powered (R486). -/
  powered : Bool := true
  deriving DecidableEq, Repr

/-- A security operation (R502). -/
structure SecOp where
  /-- operation (R502). -/
  kind : SecKind := .update
  /-- start beat (R502). -/
  start : Nat := 0
  /-- bytes copied at the start: image, or signature block and memory (R496, R501). -/
  block : List (BitVec 8) := []
  /-- ATT_NONCE, BEATCOUNT and NT captured (R500). -/
  nonce : List (BitVec 8) := []
  /-- an NVM or fuse write has begun (R502). -/
  writing : Bool := false
  /-- the second owner record is being written (R503). -/
  second : Bool := false
  deriving DecidableEq, Repr

/-- One-time fuses (R491). -/
structure Fuses where
  /-- SERIAL (R491). -/
  serial : BitVec 64 := 0
  /-- VKH0 (R491). -/
  vkh0 : List (BitVec 8) := List.replicate 32 0
  /-- VKH1 (R491). -/
  vkh1 : List (BitVec 8) := List.replicate 32 0
  /-- REVOKED (R491). -/
  revoked : BitVec 2 := 0
  /-- MIN_SVN, 0 to 32 (R491). -/
  minSvn : Nat := 0
  /-- identity private key (R491). -/
  privKey : List (BitVec 8) := List.replicate 64 0
  /-- debug disable (R491). -/
  debugDis : Bool := true
  deriving DecidableEq, Repr

/-- Security (R491-R507). -/
structure SecUnit where
  /-- running operation (R502). -/
  op : Option SecOp := none
  /-- fuses (R491). -/
  fuses : Fuses := {}
  /-- running image (R495). -/
  img : FwImg := {}
  /-- the running image came from slot B (R495). -/
  slotB : Bool := false
  /-- KEY_LOST (R506). -/
  keyLost : Bool := false
  /-- OWNER_LOCK (R506). -/
  locked : Bool := false
  /-- owner key hash in force (R506). -/
  ownHash : List (BitVec 8) := List.replicate 32 0
  /-- draw that gave OWN_NONCE; none before the first (R503, R507). -/
  nonceNo : Option Nat := none
  deriving DecidableEq, Repr

/-- Reset, clocks and start-up (R511-R535). -/
structure Rst where
  /-- phase (R522). -/
  phase : Phase := .bootRom
  /-- time since the latest reset ended, in beat periods, running before the core PLL locks (R535). -/
  ticks : Nat := 0
  /-- the device is in reset (R512). -/
  inReset : Bool := false
  /-- PWR_OK (R511). -/
  pwrOk : Bool := true
  /-- RESET_N (R512). -/
  resetN : Bool := true
  /-- tick of the reset in which its latest condition began (R512). -/
  assertAt : Nat := 0
  /-- latest capture beat since the reset (R530). -/
  syncAt : Option Nat := none
  /-- VDDIO at or above 1.5 V (R512). -/
  vddio : Bool := true
  /-- tick in which the last reset condition ceased, none while one holds (R512). -/
  clearAt : Option Nat := none
  /-- beat reset ended (R527). -/
  endAt : Nat := 0
  /-- beat a software reset begins (R514). -/
  swAt : Option Nat := none
  /-- STRAP[3:0] as sampled (R522). -/
  strap : BitVec 4 := 0
  /-- BOOT_MODE as sampled (R522). -/
  bootMode : BitVec 2 := 0
  /-- STRAP[3:0] pins (R549). -/
  strapPin : BitVec 4 := 0
  /-- BOOT_MODE pins (R549). -/
  bootPin : BitVec 2 := 0
  /-- beat phase 0x4 began (R523). -/
  linkAt : Nat := 0
  /-- tick the present phase began (R522). -/
  phaseAt : Nat := 0
  /-- core and converter PLLs in holdover (R519). -/
  refHold : Bool := false
  /-- REF_OK (R520). -/
  refOk : Bool := false
  /-- management PLL in holdover (R521). -/
  mgmtHold : Bool := false
  /-- a relock runs, started in this beat (R520). -/
  relockTo : Option Nat := none
  /-- CONV_LOCK (R535). -/
  convLock : BitVec 4 := 0
  /-- CORE_LOCK (R535). -/
  coreLock : Bool := false
  /-- a relock ended in the present beat: BEATCOUNT goes on at a multiple of 6 (R520). -/
  realign : Bool := false
  /-- MGMT_LOCK (R535). -/
  mgmtLock : Bool := false
  /-- alignment armed (R531). -/
  armed : Bool := false
  /-- first beat of a single SYNC_OUT pulse (R533). -/
  pulseAt : Option Nat := none
  /-- VBIAS valid for 1 ms (R262). -/
  vbiasOk : Bool := false
  /-- CLR_N in force (R259). -/
  clrN : Bool := false
  /-- MOD_RST_N driven low (R550). -/
  modRst : Bool := true
  /-- a shutdown or trip holds the clear in force (R261). -/
  clrShut : Bool := false
  deriving DecidableEq, Repr

/-- Rate-limit state of one code, source and subject (R107). -/
structure EvKey where
  /-- code (R107). -/
  code : BitVec 16 := 0
  /-- source (R107). -/
  source : BitVec 8 := 0
  /-- subject (R107). -/
  subject : BitVec 16 := 0
  /-- beat of the latest record (R107). -/
  lastAt : Nat := 0
  /-- latest suppressed occurrence: stamp and data (R107). -/
  deferred : Option (Nat × BitVec 32) := none
  deriving DecidableEq, Repr

/-- Occurrence count of one code and source (R107). -/
structure EvCount where
  /-- code (R107). -/
  code : BitVec 16 := 0
  /-- source (R107). -/
  source : BitVec 8 := 0
  /-- occurrences modulo 2^16 (R107). -/
  count : BitVec 16 := 0
  deriving DecidableEq, Repr

/-- A ring (R11-R13). -/
structure Ring where
  /-- sequencer (R115). -/
  seq : Seq := {}
  /-- voices (R13). -/
  voices : List Voice := List.replicate 32 ({} : Voice)
  /-- TX channels (R13). -/
  tx : List TxCh := List.replicate 4 ({} : TxCh)
  /-- bias outputs (R12). -/
  bias : List BiasOut := List.replicate 4 ({} : BiasOut)
  /-- RX channels (R13). -/
  rx : List RxCh := List.replicate 2 ({} : RxCh)
  /-- lanes (R13). -/
  lanes : List Lane := List.replicate 32 ({} : Lane)
  /-- Juggler (R305). -/
  jug : Jug := {}
  /-- result queue (R77). -/
  resq : ResQ := {}
  /-- streams (R71). -/
  strm : List Strm := List.replicate 4 ({} : Strm)
  /-- pin beats of a DAC cell substitution or bias trim APPLY (R242, R251). -/
  calAt : List Nat := []
  deriving DecidableEq, Repr

/-- The whole device. -/
structure State where
  /-- BEATCOUNT, beats since the core PLL locked; the register shows it modulo 2^64 (R375). -/
  beat : Nat := 0
  /-- register file: words that differ from their reset value, addresses rising (R7, R95). -/
  regs : List (Nat × BitVec 32) := []
  /-- addressed memories: bytes that differ from 0, addresses rising (R31, R435, R436). -/
  mem : List Host.Cell := []
  /-- sessions (R53). -/
  sess : List Sess := List.replicate 8 ({} : Sess)
  /-- Ethernet ports (R33). -/
  ports : List EthPort := List.replicate 2 ({} : EthPort)
  /-- response blocks of the request in progress, oldest first (R52). -/
  resp : List OpResp := []
  /-- frames whose block operation is done and whose further operations are not (R52, R67). -/
  resume : List FrameRun := []
  /-- requests behind a frame in execution (R56). -/
  held : List HeldReq := []
  /-- port that carried the request in progress (R66). -/
  curPort : Nat := 0
  /-- registers written in the present beat, with the port (2: scheduled) (R66). -/
  beatWrites : List (Nat × Nat) := []
  /-- flags set by hardware in the present beat: register, bit (R99). -/
  beatSets : List (Nat × Nat) := []
  /-- pending scheduled writes, in order of receipt (R69). -/
  sched : List Sched := []
  /-- next SCHEDULE handle (R69). -/
  nextHandle : BitVec 16 := 1
  /-- rate-limit state (R107). -/
  evKeys : List EvKey := []
  /-- occurrence counts (R107). -/
  evCounts : List EvCount := []
  /-- numbers of the event records not yet pushed, oldest first (R82). -/
  evToPush : List Nat := []
  /-- SEV_FLAGS & ALERT_CTRL.MASK was not 0 at the start of the present beat (R110). -/
  alertLow : Bool := false
  /-- code and source of the first carmine event of the present beat (R110). -/
  carmineNow : Option (BitVec 16 × BitVec 8) := none
  /-- rings (R11). -/
  rings : List Ring := List.replicate 12 ({} : Ring)
  /-- Trapeze domain (R349). -/
  trap : Trap := {}
  /-- Trapeze links (R342). -/
  links : List Link := List.replicate 4 ({} : Link)
  /-- network time and PTP (R375). -/
  time : Timing := {}
  /-- trigger inputs (R390). -/
  trigs : List Trig := List.replicate 8 ({} : Trig)
  /-- latest taken edge of each marker output and of each marker of a TMARK link, in bins (R393). -/
  srcEdges : List (Nat × Nat) := []
  /-- time-interval units (R393). -/
  tius : List Tiu := List.replicate 4 ({} : Tiu)
  /-- marker outputs (R397). -/
  marks : List Mark := List.replicate 16 ({} : Mark)
  /-- marker edges placed so far, their order (R399). -/
  markNo : Nat := 0
  /-- background calibration (R406). -/
  cal : CalUnit := {}
  /-- memory protection, test, retention (R438). -/
  memu : MemUnit := {}
  /-- Carousel slots (R458). -/
  car : List CarSlot := List.replicate 8 ({} : CarSlot)
  /-- housekeeping and thermal (R473). -/
  hk : HkUnit := {}
  /-- security (R491). -/
  sec : SecUnit := {}
  /-- NVM contents (R492). -/
  nvm : Nvm := {}
  /-- reset, clocks, start-up (R511). -/
  rst : Rst := {}
  /-- CLASS_DATA sequence counters, keyed source + 256 x instance (R83). -/
  seqNo : List (Nat × BitVec 32) := []
  /-- no firmware slot is good (R568). -/
  fwBad : Bool := false
  /-- NET values in force that differ from their reset value (R91). -/
  netNow : List (Nat × BitVec 32) := []
  /-- NET.MAC is in force, no blank address (R41). -/
  macOwn : Bool := false
  /-- the host has written NET.MAC (R41). -/
  macWritten : Bool := false
  /-- no calibration slot is valid (R568). -/
  calBad : Bool := false
  /-- the model's own counter: numbers the free values drawn; not the spec's (DESIGN CHOICE, log entry 3). -/
  freeCtr : Nat := 0
  /-- the commands waiting, first in first out; not the spec's (DESIGN CHOICE, log entry 3). -/
  pending : List Instr := []
  deriving DecidableEq, Repr

/-- Why a step can fault. No command of this block faults: every rejected operation reports an error code and leaves the
state as it was (R112), so nothing raises it. -/
inductive Fault where
  /-- Raised by nothing (safe). -/
  | none
  deriving DecidableEq, Repr

/-- Why a step can be refused. -/
inductive Refusal where
  /-- A command without a meaning yet, by its mnemonic; raised by `exec` (safe). -/
  | notModelled (mnemonic : String)
  deriving DecidableEq, Repr

/-- The device right after reset (R103, R512, R522): phase 0x0, every register at its reset value, memories listing
nothing. -/
def State.reset : State := {}


end Sys2Proof.Machine
end

