-- ==== Sys2Proof/Machine/Ops.lean ====
section
/-! DEFINITION. The named operations over the register file, the memories and the parts of a ring: every meaning reads and
writes the state through these. -/

namespace Sys2Proof.Machine

/-! ### Error codes -/

/-- The error codes of an operation (R112). -/
inductive Err where
  | ok | eRange | eState | eConflict | eLease | eAddr | eAlign | eBusy | eAuth | eSeq | eCredit | eLate | eFormat | eRo
  | eCapacity | eInternal
  deriving DecidableEq, Repr

/-- The code of R112. -/
def Err.code : Err → BitVec 16
  | .ok => 0x0000 | .eRange => 0x0001 | .eState => 0x0002 | .eConflict => 0x0003 | .eLease => 0x0004 | .eAddr => 0x0005
  | .eAlign => 0x0006 | .eBusy => 0x0007 | .eAuth => 0x0008 | .eSeq => 0x0009 | .eCredit => 0x000A | .eLate => 0x000B
  | .eFormat => 0x000C | .eRo => 0x000D | .eCapacity => 0x000E | .eInternal => 0x000F

/-- `e`, or the next check when `e` is OK: the first code in the order of the checks (R113). -/
def Err.orElse (e f : Err) : Err := if e = .ok then f else e

/-- `e` where the condition fails. -/
def Err.need (c : Bool) (e : Err) : Err := if c then .ok else e

/-- The place of an error code in the order in which codes are reported (R113); OK comes last. -/
def Err.rank : Err → Nat
  | .eFormat => 0 | .eSeq => 1 | .eAddr => 2 | .eAlign => 3 | .eRo => 4 | .eLease => 5 | .eLate => 6 | .eRange => 7 | .eState => 8
  | .eAuth => 9 | .eCredit => 10 | .eCapacity => 11 | .eConflict => 12 | .eBusy => 13 | .eInternal => 14 | .ok => 15

/-- The code to report when several checks are made (R113). -/
def Err.first (l : List Err) : Err := l.foldl (fun e f => if f.rank < e.rank then f else e) .ok

/-! ### The register map -/

/-- A register found in the map: its row and its indices, the ring first where the register belongs to a ring. -/
structure RegHit where
  desc : RegDesc
  ix : List Nat := []
  deriving DecidableEq, Repr

/-- First index. -/
def RegHit.i (h : RegHit) : Nat := h.ix.getD 0 0
/-- Second index. -/
def RegHit.j (h : RegHit) : Nat := h.ix.getD 1 0
/-- Third index. -/
def RegHit.k (h : RegHit) : Nat := h.ix.getD 2 0

/-- The indices that an offset into a register array spells, none where it misses every element. -/
def matchDims : List (Nat × Nat) → Nat → Option (List Nat)
  | [], r => if r = 0 then some [] else none
  | (s, c) :: t, r => if r / s < c then (matchDims t (r % s)).map (r / s :: ·) else none

/-- The row of a block's table that holds an offset. -/
def findIn (pre : List Nat) (off : Nat) : List RegDesc → Option RegHit
  | [] => none
  | d :: t =>
    match if d.off ≤ off then matchDims d.dims (off - d.off) else none with
    | some ix => some ⟨d, pre ++ ix⟩
    | none => findIn pre off t

/-- The register at a word address below 0x1000_0000, none where the address is reserved (R31, R32). -/
def findReg (a : Nat) : Option RegHit :=
  if a < 0x10000 then findIn [] a chipRegs
  else if a < 0x20000 then findIn [] (a - 0x10000) timeRegs
  else if a < 0x30000 then findIn [] (a - 0x20000) hkRegs
  else if a < 0x40000 then findIn [] (a - 0x30000) calRegs
  else if a < 0x50000 then findIn [] (a - 0x40000) trpRegs
  else if a < 0x60000 then findIn [] (a - 0x50000) ethRegs
  else if a < 0x70000 then findIn [] (a - 0x60000) tiuRegs
  else if a < 0x80000 then findIn [] (a - 0x70000) memRegs
  else if a < 0x90000 then findIn [] (a - 0x80000) secRegs
  else if a < 0xA0000 then findIn [] (a - 0x90000) carRegs
  else if a < 0x100000 then none
  else if a < 0xD00000 then
    let n := (a - 0x100000) / 0x100000
    let off := a % 0x100000
    match off / 0x10000 with
    | 0 => findIn [n] off ringSeqRegs
    | 1 => findIn [n] off ringTxRegs
    | 2 => findIn [n] off ringRxRegs
    | 3 => findIn [n] off ringBiasRegs
    | 4 => findIn [n] off ringJugRegs
    | _ => none
  else none

/-- Nominal value of the rail of supply monitor `m` in mV (R475, R508). -/
def supNominal (m : Nat) : Int :=
  [750, 750, 750, 750, 850, 1000, 1000, 1000, 1000, 900, 900, 900, 900, 1800, 1800, 850, 1200, 900, 1000, 1800, 6000,
    -6000, 1800, 0].getD m 0

/-- What SUP_WIN[m] resets to: 5 % either side of the nominal value (R490), a fraction of a millivolt dropped; 50 mV either
side for monitor 23, whose nominal value is 0. DESIGN CHOICE (log entry 2). -/
def supWinReset (m : Nat) : BitVec 32 :=
  let w : Int := if m = 23 then 50 else (supNominal m).natAbs / 20
  BitVec.ofInt 16 (supNominal m + w) ++ BitVec.ofInt 16 (supNominal m - w)

/-- Spare rows of one instance of memory `code` (R435, R436). -/
def spareRows (code : Nat) : Nat := [16, 128, 4, 32, 64, 4, 4, 4, 32, 256, 32].getD code 0

/-- Instances of memory `code` (R448). -/
def memInstances (code : Nat) : Nat := if code ≤ 8 then 12 else if code = 9 then 1 else if code = 10 then 4 else 0

/-- What a register reads as after reset (R103). -/
def RegHit.reset (h : RegHit) : BitVec 32 :=
  match h.desc.name with
  | .txCoefA | .txCoefB => if h.k = 8 then 0x10000 else 0
  | .supWin => supWinReset h.i
  | _ => h.desc.reset

/-- What an unlisted word of the register file reads as. -/
def resetWord (a : Nat) : BitVec 32 := ((findReg a).map RegHit.reset).getD 0

/-- The canonical form of the register file. -/
def Regs.wf (r : List (Nat × BitVec 32)) : Bool := Cells.wf resetWord r

namespace State

/-! ### Register file -/

/-- The word a register holds. -/
def getReg (s : State) (a : Nat) : BitVec 32 := Cells.get resetWord s.regs a
/-- Sets the word a register holds. -/
def setReg (s : State) (a : Nat) (v : BitVec 32) : State := { s with regs := Cells.put (resetWord a) s.regs a v }
/-- A field of a register. -/
def regFld (s : State) (a hi lo : Nat) : Nat := fld (s.getReg a) hi lo
/-- A bit of a register. -/
def regBit (s : State) (a i : Nat) : Bool := bit (s.getReg a) i
/-- Sets a field of a register. -/
def setFld (s : State) (a hi lo v : Nat) : State := s.setReg a (putFld (s.getReg a) hi lo v)
/-- Sets a bit of a register. -/
def setBit (s : State) (a i : Nat) (b : Bool) : State := s.setReg a (putBit (s.getReg a) i b)
/-- A 64-bit register. -/
def getReg64 (s : State) (lo : Nat) : BitVec 64 := pairWord (s.getReg lo) (s.getReg (lo + 4))
/-- Sets a 64-bit register. -/
def setReg64 (s : State) (lo : Nat) (v : BitVec 64) : State := (s.setReg lo (loWord v)).setReg (lo + 4) (hiWord v)
/-- Adds to a counter register, modulo 2^32. -/
def addReg (s : State) (a k : Nat) : State := s.setReg a (s.getReg a + BitVec.ofNat 32 k)
/-- Adds 1 to a saturating counter register. -/
def satReg (s : State) (a : Nat) : State := if s.getReg a = 0xFFFFFFFF then s else s.addReg a 1
/-- Adds to a 64-bit counter register. -/
def addReg64 (s : State) (lo k : Nat) : State := s.setReg64 lo (s.getReg64 lo + BitVec.ofNat 64 k)

/-! ### Memories -/

/-- A byte of the addressed memories. -/
def byte (s : State) (a : Nat) : BitVec 8 := Cells.get Memory.unlisted s.mem a
/-- Writes a byte. -/
def setByte (s : State) (a : Nat) (v : BitVec 8) : State := { s with mem := Cells.put 0 s.mem a v }
/-- `k` bytes from an address. -/
def bytes (s : State) (a k : Nat) : List Byte := (List.range k).map fun i => s.byte (a + i)
/-- Writes bytes from an address. -/
def setBytes (s : State) (a : Nat) : List Byte → State
  | [] => s
  | b :: t => (s.setByte a b).setBytes (a + 1) t
/-- A 32-bit word, little-endian (R8). -/
def word (s : State) (a : Nat) : BitVec 32 := BitVec.ofNat 32 (ofLe (s.bytes a 4))
/-- Writes a 32-bit word. -/
def setWord (s : State) (a : Nat) (v : BitVec 32) : State := s.setBytes a (leBytes 4 v.toNat)
/-- A 64-bit word. -/
def word64 (s : State) (a : Nat) : BitVec 64 := BitVec.ofNat 64 (ofLe (s.bytes a 8))

/-! ### Parts -/

/-- Ring `n`. -/
def ring (s : State) (n : Nat) : Ring := s.rings.getD n {}
/-- Changes ring `n`. -/
def modRing (s : State) (n : Nat) (f : Ring → Ring) : State := { s with rings := s.rings.modify n f }
/-- The sequencer of ring `n`. -/
def seq (s : State) (n : Nat) : Seq := (s.ring n).seq
/-- Changes a sequencer. -/
def modSeq (s : State) (n : Nat) (f : Seq → Seq) : State := s.modRing n fun r => { r with seq := f r.seq }
/-- Voice `v` of ring `n`. -/
def voice (s : State) (n v : Nat) : Voice := (s.ring n).voices.getD v {}
/-- Changes a voice. -/
def modVoice (s : State) (n v : Nat) (f : Voice → Voice) : State :=
  s.modRing n fun r => { r with voices := r.voices.modify v f }
/-- TX channel `c` of ring `n`. -/
def tx (s : State) (n c : Nat) : TxCh := (s.ring n).tx.getD c {}
/-- Changes a TX channel. -/
def modTx (s : State) (n c : Nat) (f : TxCh → TxCh) : State := s.modRing n fun r => { r with tx := r.tx.modify c f }
/-- Bias output `b` of ring `n`. -/
def biasOut (s : State) (n b : Nat) : BiasOut := (s.ring n).bias.getD b {}
/-- Changes a bias output. -/
def modBias (s : State) (n b : Nat) (f : BiasOut → BiasOut) : State :=
  s.modRing n fun r => { r with bias := r.bias.modify b f }
/-- RX channel `c` of ring `n`. -/
def rx (s : State) (n c : Nat) : RxCh := (s.ring n).rx.getD c {}
/-- Changes an RX channel. -/
def modRx (s : State) (n c : Nat) (f : RxCh → RxCh) : State := s.modRing n fun r => { r with rx := r.rx.modify c f }
/-- Lane `l` of ring `n`. -/
def lane (s : State) (n l : Nat) : Lane := (s.ring n).lanes.getD l {}
/-- Changes a lane. -/
def modLane (s : State) (n l : Nat) (f : Lane → Lane) : State :=
  s.modRing n fun r => { r with lanes := r.lanes.modify l f }
/-- The Juggler of ring `n`. -/
def jug (s : State) (n : Nat) : Jug := (s.ring n).jug
/-- Changes a Juggler. -/
def modJug (s : State) (n : Nat) (f : Jug → Jug) : State := s.modRing n fun r => { r with jug := f r.jug }
/-- The result queue of ring `n`. -/
def resq (s : State) (n : Nat) : ResQ := (s.ring n).resq
/-- Changes a result queue. -/
def modResq (s : State) (n : Nat) (f : ResQ → ResQ) : State := s.modRing n fun r => { r with resq := f r.resq }
/-- Stream `j` of ring `n`. -/
def strm (s : State) (n j : Nat) : Strm := (s.ring n).strm.getD j {}
/-- Changes a stream. -/
def modStrm (s : State) (n j : Nat) (f : Strm → Strm) : State :=
  s.modRing n fun r => { r with strm := r.strm.modify j f }
/-- Session `u`. -/
def session (s : State) (u : Nat) : Sess := s.sess.getD u {}
/-- Changes a session. -/
def modSess (s : State) (u : Nat) (f : Sess → Sess) : State := { s with sess := s.sess.modify u f }
/-- Port `p`. -/
def port (s : State) (p : Nat) : EthPort := s.ports.getD p {}
/-- Changes a port. -/
def modPort (s : State) (p : Nat) (f : EthPort → EthPort) : State := { s with ports := s.ports.modify p f }
/-- Link `k`. -/
def link (s : State) (k : Nat) : Link := s.links.getD k {}
/-- Changes a link. -/
def modLink (s : State) (k : Nat) (f : Link → Link) : State := { s with links := s.links.modify k f }

/-- A graceful shutdown is pending or runs (R430, R486). -/
def shutting (s : State) : Bool := s.hk.shutAt.isSome

/-- A number that names the next free value, and the state that has drawn it. -/
def draw (s : State) : Nat × State := (s.freeCtr, { s with freeCtr := s.freeCtr + 1 })

/-- BEATCOUNT as the register shows it (R375). -/
def beatCount (s : State) : BitVec 64 := BitVec.ofNat 64 s.beat

/-- Folds an operation over the rings of a mask, lowest first. -/
def forRings (s : State) (m : BitVec 12) (f : Nat → State → State) : State :=
  (onesOf m 12).foldl (fun s n => f n s) s

/-- Folds an operation over the numbers below `k`. -/
def forBelow (s : State) (k : Nat) (f : Nat → State → State) : State := (List.range k).foldl (fun s i => f i s) s

end State

/-- Successful command: the next state. -/
abbrev Res := Host.Outcome State Fault Refusal

end Sys2Proof.Machine
end

