-- ==== Sys2Proof/Machine/Flags.lean ====
section
/-! DEFINITION. Flags: setting and clearing the W1C flags with their saturating counters (R99), and the condition flags of
the sequencer's and the Juggler's arithmetic. -/

namespace Sys2Proof.Machine

/-- The address of the counter word of bit `b` of the flag register at `a`: FLAG_CNT0 follows the flags and FLAG_CNT1
follows that, except that the second counter word of an Ethernet port lies at +0x050 (R90, R99). -/
def flagCntAddr (a b : Nat) : Nat :=
  if b < 4 then a + 4 else if a / 0x10000 = 5 ∧ a % 0x1000 = 8 ∧ a < 0x52000 then a + 0x48 else a + 8

/-- The flag's 8-bit counter. -/
def State.flagCount (s : State) (a b : Nat) : Nat := s.regFld (flagCntAddr a b) (8 * (b % 4) + 7) (8 * (b % 4))

/-- Sets the flag's counter. -/
def State.setFlagCount (s : State) (a b k : Nat) : State := s.setFld (flagCntAddr a b) (8 * (b % 4) + 7) (8 * (b % 4)) k

/-- Hardware sets flag `b` of the register at `a`: the counter counts the setting up to 255 (R99). -/
def State.raiseFlag (s : State) (a b : Nat) : State :=
  let s := (s.setBit a b true).setFlagCount a b (min 255 (s.flagCount a b + 1))
  { s with beatSets := (a, b) :: s.beatSets }

/-- Sets the flag when the condition holds. -/
def State.raiseIf (s : State) (c : Bool) (a b : Nat) : State := if c then s.raiseFlag a b else s

/-- A W1C write of 1: clears the flag and its counter, unless hardware set the flag in this beat, when setting wins and the
counter reads 1 (R99). -/
def State.clearFlag (s : State) (a b : Nat) : State :=
  if (a, b) ∈ s.beatSets then (s.setBit a b true).setFlagCount a b 1 else (s.setBit a b false).setFlagCount a b 0

/-- A W1C write of a mask of flags. -/
def State.clearFlags (s : State) (a : Nat) (m : BitVec 32) : State := (onesOf m 32).foldl (fun s b => s.clearFlag a b) s

/-! ### Condition flags -/

/-- The flags Z, N, C, V of a sequencer or Juggler result. -/
structure Cond where
  z : Bool
  n : Bool
  c : Bool
  v : Bool
  deriving DecidableEq, Repr

/-- Z and N of a result. -/
def Cond.ofRes (r : Word) (c v : Bool) : Cond := ⟨decide (r = 0), bit r 31, c, v⟩

/-- Sum with its flags: C the carry out of bit 31, V signed overflow. -/
def addCond (a b : Word) : Word × Cond :=
  let r := a + b
  (r, .ofRes r (decide (2 ^ 32 ≤ a.toNat + b.toNat)) (decide (r.toInt ≠ a.toInt + b.toInt)))

/-- Difference with its flags: C is 1 when no borrow occurs, V signed overflow. -/
def subCond (a b : Word) : Word × Cond :=
  let r := a - b
  (r, .ofRes r (decide (b.toNat ≤ a.toNat)) (decide (r.toInt ≠ a.toInt - b.toInt)))

end Sys2Proof.Machine
end

