-- ==== Sys2Proof/Machine/NetTime.lean ====
section
/-! DEFINITION. Network time and timestamps (R376, R377, R382). Times are integers in units of 2^-40 ns. -/

namespace Sys2Proof.Machine

namespace State

/-- INCREMENT in units of 2^-40 ns (R376). -/
def increment (s : State) : Nat := (s.getReg64 Reg.incrementLo).toNat % 2 ^ 48

/-- INCREMENT and OFFSET in force in beat `b` (R377): the present ones, or those that a later adjustment replaced. -/
def settingAt (s : State) (b : Nat) : Nat × Int :=
  s.time.past.foldl (fun cur p => if b < p.1 then (p.2.1, p.2.2) else cur) (s.increment, s.time.offset)

/-- The network time of beat `b` (R376). -/
def netTime (s : State) (b : Nat) : Int := (s.settingAt b).2 + b * (s.settingAt b).1

/-- The network time of the sub-beat position `b + f/64` (R377). -/
def netTimeSub (s : State) (b f : Nat) : Int := s.netTime b + (f * (s.settingAt b).1 : Nat) / 64

/-- The network time of a bin, 1/64 beat (R390). -/
def netTimeBin (s : State) (bin : Nat) : Int := s.netTimeSub (bin / 64) (bin % 64)

end State

/-- TS32: bits [31:0] of the integer nanoseconds of an instant (R382). -/
def ts32 (x : Int) : BitVec 32 := BitVec.ofInt 32 (Int.fdiv x (2 ^ 40))

/-- SUBNS: the 16 fractional bits, truncated towards minus infinity (R376, R382). -/
def subNs (x : Int) : BitVec 16 := BitVec.ofInt 16 (Int.fdiv x (2 ^ 24))

/-- The integer nanoseconds of a reading, modulo 2^64 (R376). -/
def intNs (x : Int) : BitVec 64 := BitVec.ofInt 64 (Int.fdiv x (2 ^ 40))

end Sys2Proof.Machine
end

