-- ==== Sys2Proof/Machine/Events.lean ====
section
/-! DEFINITION. Events: severities, rate limiting, the event log and the severity registers (R106-R111). -/

namespace Sys2Proof.Machine

/-- The severity of an event code (R111): 0 slate, 1 amber, 2 carmine. -/
def severity (code : Nat) : Nat :=
  if code ∈ [0x0103, 0x0305, 0x0402, 0x0407, 0x0409, 0x0503, 0x0602, 0x0604, 0x0702, 0x0F01] then 2
  else if code ∈ [0x0101, 0x0104, 0x0105, 0x0107, 0x0108, 0x0302, 0x0304, 0x0401, 0x0403, 0x0406, 0x0408, 0x0501, 0x0603]
  then 1
  else 0

/-- The subject of an event (R107): event data [15:0] for the codes whose data names a channel, slice, cell, lane or quantity;
one subject for every other code. -/
def eventSubject (code : Nat) (data : BitVec 32) : BitVec 16 :=
  if (0x0403 ≤ code ∧ code ≤ 0x0409) ∨ (0x0501 ≤ code ∧ code ≤ 0x0503) then data.truncate 16 else 0

/-- The source byte of sub-block `k` of ring `n` (R106): 0 sequencer, 1 TX, 2 RX and lanes, 3 bias, 4 Juggler. -/
def ringSource (n k : Nat) : Nat := 0x10 * (n + 1) + k

/-- The 16 bytes of an event record as four words (R49): TS32; SUBNS, severity, source; code, count; data. -/
def recordWords (stamp : Int) (code src : Nat) (count : BitVec 16) (data : BitVec 32) : List Word :=
  [ts32 stamp, BitVec.ofNat 32 ((subNs stamp).toNat + 2 ^ 16 * severity code + 2 ^ 24 * (src % 256)),
    BitVec.ofNat 32 (code + 2 ^ 16 * count.toNat), data]

/-- Writes record number EVLOG_WR into its entry and counts it (R108). -/
def State.logRecord (s : State) (ws : List Word) : State :=
  let w := (s.getReg Reg.evlogWr).toNat
  let s := s.forBelow 4 fun k s => s.setReg (Reg.evlog (w % 256) k) (ws.getD k 0)
  { s with evToPush := s.evToPush ++ [w] }.addReg Reg.evlogWr 1

/-- Emits one record (R106): the log entry, the severity flag, and for the first carmine event since CARMINE was cleared,
CARMINE_FIRST (R109, R110). -/
def State.emitRecord (s : State) (stamp : Int) (code src : Nat) (count : BitVec 16) (data : BitVec 32) : State :=
  let first := severity code = 2 ∧ ¬ s.regBit Reg.sevFlags 2
  let s := s.logRecord (recordWords stamp code src count data)
  let s := if first then s.setReg Reg.carmineFirst (BitVec.ofNat 32 (code * 2 ^ 16 + src * 2 ^ 8)) else s
  let s := if severity code = 2 ∧ s.carmineNow = none then
    { s with carmineNow := some (BitVec.ofNat 16 code, BitVec.ofNat 8 src) } else s
  s.raiseFlag Reg.sevFlags (severity code)

/-- SEV_FLAGS & ALERT_CTRL.MASK is not 0 (R110). -/
def State.alertDue (s : State) : Bool := decide (s.getReg Reg.sevFlags &&& s.getReg Reg.alertCtrl &&& 7 ≠ 0)

/-- The level of ALERT_N (R110): low while a flag under the mask is set, and released in the beat after that. -/
def State.alertN (s : State) : Bool := !(s.alertLow || s.alertDue)

/-- The occurrences of a code from a source, modulo 2^16 (R107). -/
def State.eventCount (s : State) (code src : Nat) : BitVec 16 :=
  ((s.evCounts.find? fun e => e.code.toNat = code ∧ e.source.toNat = src).map (·.count)).getD 0

/-- Counts an occurrence. -/
def State.countEvent (s : State) (code src : Nat) : State :=
  if s.evCounts.any fun e => e.code.toNat = code ∧ e.source.toNat = src then
    { s with evCounts := s.evCounts.map fun e =>
        if e.code.toNat = code ∧ e.source.toNat = src then { e with count := e.count + 1 } else e }
  else { s with evCounts := s.evCounts ++ [⟨BitVec.ofNat 16 code, BitVec.ofNat 8 src, 1⟩] }

/-- Whether a rate-limit entry is that of a code, source and subject. -/
def EvKey.is (e : EvKey) (code src : Nat) (subj : BitVec 16) : Bool :=
  decide (e.code.toNat = code ∧ e.source.toNat = src ∧ e.subject = subj)

/-- Starts a rate-limit interval in the present beat. -/
def State.startInterval (s : State) (code src : Nat) (subj : BitVec 16) : State :=
  { s with evKeys := s.evKeys.filter (fun e => !e.is code src subj) ++
      [{ code := BitVec.ofNat 16 code, source := BitVec.ofNat 8 src, subject := subj, lastAt := s.beat }] }

/-- An occurrence of an event (R107): its record at once when carmine or outside the 15,000-beat interval of its code, source
and subject; otherwise it is the latest suppressed occurrence of that interval. In beat b + 15,000 itself, an occurrence
before the deferred record is made still belongs to the interval that ends, and the record carries it (DESIGN CHOICE, log entry 87). -/
def State.raiseEvent (s : State) (code src : Nat) (data : BitVec 32) : State :=
  let subj := eventSubject code data
  let s := s.countEvent code src
  match s.evKeys.find? (·.is code src subj) with
  | some k =>
    if severity code = 2 ∨ (k.lastAt + 15000 ≤ s.beat ∧ k.deferred = none) then
      (s.startInterval code src subj).emitRecord (s.netTime s.beat) code src (s.eventCount code src) data
    else
      { s with evKeys := s.evKeys.map fun e =>
          if e.is code src subj then { e with deferred := some (s.beat, data) } else e }
  | none => (s.startInterval code src subj).emitRecord (s.netTime s.beat) code src (s.eventCount code src) data

/-- Raises an event when a condition holds. -/
def State.raiseEventIf (s : State) (c : Bool) (code src : Nat) (data : BitVec 32) : State :=
  if c then s.raiseEvent code src data else s

/-- Whether the deferred record of a code, source and subject is due: its interval has ended (R107). -/
def State.deferredDue (s : State) (code : BitVec 16) (src : BitVec 8) (subj : BitVec 16) : Bool :=
  s.evKeys.any fun e => e.is code.toNat src.toNat subj && e.deferred.isSome && decide (e.lastAt + 15000 ≤ s.beat)

/-- EVENT_DEFERRED_RECORD: the record of the latest suppressed occurrence with the present count starts a new interval
(R107). Nothing happens unless the record is due (log entry 4). -/
def execEventDeferredRecord (code : BitVec 16) (src : BitVec 8) (subj : BitVec 16) (s : State) : Res :=
  .next <|
    if s.deferredDue code src subj then
      match s.evKeys.find? (·.is code.toNat src.toNat subj) with
      | some { deferred := some (b, d), .. } =>
        (s.startInterval code.toNat src.toNat subj).emitRecord (s.netTime b) code.toNat src.toNat
          (s.eventCount code.toNat src.toNat) d
      | _ => s
    else s

end Sys2Proof.Machine
end

