-- ==== Sys2Proof/Machine/Frames.lean ====
section
/-! DEFINITION. The device's addresses (R41, R42, R91) and the bytes of frames (R8, R35-R39, R44, R45): RCP messages, the headers before
them, and their checksums. Fields of the standards' headers that the spec leaves open are free values of Config (log entry 69). -/

namespace Sys2Proof.Machine

/-! ### Messages -/

/-- Length of a message in bytes (R44, R45). -/
def OutFrame.len (f : OutFrame) : Nat := 20 + (f.ops.map fun o => 12 + o.body.length).sum

/-- The bytes of an operation block (R45). -/
def OpResp.bytes (o : OpResp) : List Byte :=
  [o.op, 0] ++ leBytes 2 (12 + o.body.length) ++ leBytes 4 o.addr.toNat ++ leBytes 2 o.status.toNat ++ leBytes 2 o.count ++ o.body

/-- KIND of a message (R44): 1 response, 2 push. -/
def OutFrame.kind (f : OutFrame) : Nat := if f.cls = .response then 1 else 2

/-- The bytes of an RCP message (R44). -/
def OutFrame.message (f : OutFrame) : List Byte :=
  [1, BitVec.ofNat 8 f.kind] ++ leBytes 2 f.len ++ [f.sess, f.flags] ++ leBytes 2 f.ops.length ++ leBytes 4 f.seq.toNat ++
    leBytes 4 f.tag.toNat ++ leBytes 2 f.fstatus.toNat ++ [0, 0] ++ f.ops.flatMap OpResp.bytes

/-! ### Internet headers -/

/-- The sum of 16-bit words in network order, an odd last byte taken with a zero after it. -/
def wordSum : List Byte → Nat
  | a :: b :: t => 256 * a.toNat + b.toNat + wordSum t
  | [a] => 256 * a.toNat
  | [] => 0

/-- A sum with its carries added back, as the Internet checksum adds (RFC 1071). -/
def addBack (x : Nat) : Nat :=
  let y := x % 65536 + x / 65536
  y % 65536 + y / 65536

/-- The Internet checksum of a byte string. -/
def inetSum (bs : List Byte) : Nat := 65535 - addBack (wordSum bs)

/-- An IPv4 address stands as a number below 2^32. -/
def isV4 (x : BitVec 128) : Bool := decide (x.toNat < 2 ^ 32)

/-- The bytes of an IP address (R8: network order). -/
def ipAddr (v4 : Bool) (x : BitVec 128) : List Byte := beBytes (if v4 then 4 else 16) x.toNat

/-- The pseudo-header under a UDP or ICMPv6 checksum. -/
def pseudoHead (v4 : Bool) (src dst : BitVec 128) (proto len : Nat) : List Byte :=
  ipAddr v4 src ++ ipAddr v4 dst ++ (if v4 then [0, BitVec.ofNat 8 proto] ++ beBytes 2 len else beBytes 4 len ++ [0, 0, 0, BitVec.ofNat 8 proto])

/-- A UDP header (R36) with a given checksum. -/
def udpHead (sport dport len c : Nat) : List Byte := beBytes 2 sport ++ beBytes 2 dport ++ beBytes 2 (8 + len) ++ beBytes 2 c

/-- A UDP datagram; the checksum is always generated (R36), and 0 is sent as 0xFFFF. -/
def udpBytes (v4 : Bool) (src dst : BitVec 128) (sport dport : Nat) (data : List Byte) : List Byte :=
  let c := inetSum (pseudoHead v4 src dst 17 (8 + data.length) ++ udpHead sport dport data.length 0 ++ data)
  udpHead sport dport data.length (if c = 0 then 65535 else c) ++ data

/-- The checksum of a received datagram from `a` to device port 60752 holds (R36): one of IPv4 without a checksum passes. -/
def udpOk (a : PushAddr) (c : BitVec 16) (m : List Byte) : Bool :=
  if c = 0 then isV4 a.ip
  else
    let v4 := isV4 a.ip
    addBack (wordSum (pseudoHead v4 a.ip a.own 17 (8 + m.length) ++ udpHead a.udp.toNat 60752 m.length c.toNat ++ m)) == 65535

/-- An ICMP message of a type: the checksum covers the pseudo-header on IPv6 alone. -/
def icmpBytes (v4 : Bool) (src dst : BitVec 128) (typ : Byte) (rest : List Byte) : List Byte :=
  let pre := if v4 then [] else pseudoHead false src dst 58 (4 + rest.length)
  [typ, 0] ++ beBytes 2 (inetSum (pre ++ [typ, 0, 0, 0] ++ rest)) ++ rest

/-- The hop limit of a datagram: 255 for a neighbor advertisement (RFC 4861). -/
def hopLimit (proto : Nat) (data : List Byte) : Byte := if proto = 58 ∧ data.head? = some 136 then 255 else Config.ipHops

/-- An IP datagram (R36): IPv4 without options, or IPv6 without extension headers; `k` numbers it. -/
def ipBytes (v4 : Bool) (src dst : BitVec 128) (proto k : Nat) (data : List Byte) : List Byte :=
  let hop := hopLimit proto data
  if v4 then
    let head := fun c => [0x45, Config.ipTos] ++ beBytes 2 (20 + data.length) ++ beBytes 2 (Config.ipIdent k).toNat ++
      [if Config.ipDontFragment then 0x40 else 0, 0, hop, BitVec.ofNat 8 proto] ++ beBytes 2 c ++ ipAddr true src ++ ipAddr true dst
    head (inetSum (head 0)) ++ data
  else
    beBytes 4 (6 * 2 ^ 28 + Config.ipFlow.toNat) ++ beBytes 2 data.length ++ [BitVec.ofNat 8 proto, hop] ++ ipAddr false src ++
      ipAddr false dst ++ data

/-- The frame check sequence of IEEE 802.3, in the order of its bytes. -/
def fcs (bs : List Byte) : List Byte := leBytes 4 (crc32 0xEDB88320 bs)

/-! ### Lengths -/

/-- Length of a frame from its destination address through its FCS (R35): at least 64 bytes. -/
def OutFrame.ethLen (f : OutFrame) : Nat :=
  let a := f.dest.getD {}
  let ip := if isV4 a.ip then 20 else 40
  let n := match f.carry with
    | .rcp => f.len + (if a.raw then 0 else ip + 8)
    | .ether _ d => d.length
    | .ip _ d => d.length + ip
    | .udp _ d => d.length + ip + 8
  max 64 (18 + n + (if f.vlan.isSome then 4 else 0))

namespace State

/-! ### Addresses -/

/-- A NET value in force (R91): what an APPLY or NVM brought into force, else its reset value. -/
def netVal (s : State) (a : Nat) : Word := ((s.netNow.find? fun e => e.1 = a).map (·.2)).getD (resetWord a)

/-- The MAC address of a port of a blank device (R41). -/
def blankMac (s : State) (p : Nat) : BitVec 48 :=
  BitVec.ofNat 48 ((2 + 4 * p) * 2 ^ 40 + 0xED50 * 2 ^ 24 + s.sec.fuses.serial.toNat % 2 ^ 24)

/-- The MAC address of a port (R41). -/
def portMac (s : State) (p : Nat) : BitVec 48 :=
  if s.macOwn then BitVec.ofNat 48 ((pairWord (s.netVal Reg.netMacLo) (s.netVal Reg.netMacHi)).toNat + p) else s.blankMac p

/-- What the two words of NET.MAC read as: what the host or NVM has put there, else the port 0 address of a blank device (R41). A NET
register reads its staged value, also before APPLY (DESIGN CHOICE, log entry 70: R91 gives no other view). -/
def netMacRead (s : State) : BitVec 64 :=
  if s.macOwn ∨ s.macWritten then s.getReg64 Reg.netMacLo else BitVec.ofNat 64 (s.blankMac 0).toNat

/-- The IPv4 address in force, 0 when IPv4 is off (R91). -/
def ipv4 (s : State) : Word := s.netVal Reg.netIpv4Addr

/-- The IPv6 global address in force, 0 when there is none (R91). -/
def ipv6 (s : State) : BitVec 128 :=
  BitVec.ofNat 128 (((List.range 4).map fun k => (s.netVal (Reg.netIpv6Addr k)).toNat * 2 ^ (32 * k)).sum)

/-- The EUI-64 of the MAC address of a port (R42). -/
def eui64 (s : State) (p : Nat) : Nat :=
  let m := (s.portMac p).toNat
  (m / 2 ^ 24) * 2 ^ 40 + 0xFFFE * 2 ^ 24 + m % 2 ^ 24

/-- The IPv6 link-local address of a port (R42): fe80::/64 with the modified EUI-64 of its MAC address. -/
def linkLocal (s : State) (p : Nat) : BitVec 128 := BitVec.ofNat 128 (0xFE80 * 2 ^ 112 + (s.eui64 p ^^^ 2 ^ 57))

/-- Whether an IPv6 address is one of a port (R37, R42). -/
def ownV6 (s : State) (p : Nat) (x : BitVec 128) : Bool := x == s.linkLocal p || (s.ipv6 != 0 && x == s.ipv6)

/-- Whether an IPv4 address is the device's (R37, R91). -/
def ownV4 (s : State) (x : Word) : Bool := s.ipv4 != 0 && x == s.ipv4

/-- The device's address in a frame to `a` (R39): the one its request went to, else the one of the same kind. -/
def sourceIp (s : State) (p : Nat) (a : PushAddr) : BitVec 128 :=
  if isV4 a.ip then s.ipv4.zeroExtend 128
  else if s.ownV6 p a.own then a.own
  else if a.ip.toNat / 2 ^ 118 = 0x3FA then s.linkLocal p else s.ipv6

/-! ### Frames -/

/-- EtherType and payload of a frame on a port (R36, R39). -/
def payload (s : State) (p : Nat) (f : OutFrame) : BitVec 16 × List Byte :=
  let a := f.dest.getD {}
  let v4 := isV4 a.ip
  let src := s.sourceIp p a
  let ip := fun proto data => ((if v4 then 0x0800 else 0x86DD : BitVec 16), ipBytes v4 src a.ip proto s.beat data)
  match f.carry with
  | .rcp => if a.raw then (0x88B5, f.message) else ip 17 (udpBytes v4 src a.ip 60752 a.udp.toNat f.message)
  | .ether t d => (t, d)
  | .ip proto d => ip proto d
  | .udp port d => ip 17 (udpBytes v4 src a.ip port.toNat port.toNat d)

/-- The bytes of a frame on a port, from its destination address through its FCS (R35, R38). -/
def wire (s : State) (p : Nat) (f : OutFrame) : List Byte :=
  let (t, d) := s.payload p f
  let tag := match f.vlan with | some v => beBytes 2 0x8100 ++ beBytes 2 v.toNat | none => []
  let bs := beBytes 6 (f.dest.getD {}).mac.toNat ++ beBytes 6 (s.portMac p).toNat ++ tag ++ beBytes 2 t.toNat ++ d
  let bs := bs ++ List.replicate (60 - bs.length) 0
  bs ++ fcs bs

end State

end Sys2Proof.Machine
end

