-- ==== Sys2Proof/Machine/Push.lean ====
section
/-! DEFINITION. Frames to the host: the choice of a push port (R51, R58-R60), the egress queues with their priorities (R38, R84, R85),
and the pushes of events (R82). -/

namespace Sys2Proof.Machine

namespace State

/-- ETH[p].CTRL.JUMBO. -/
def jumbo (s : State) (p : Nat) : Bool := s.regBit (Reg.ethCtrl p) 9

/-- The maximum message length of a port (R51). -/
def maxLen (s : State) (p : Nat) : Nat := if s.jumbo p then 9144 else 1452

/-- Whether a port answers requests: SHADOW or UP (R63). -/
def portAnswers (s : State) (p : Nat) : Bool := decide ((s.port p).state = .shadow ∨ (s.port p).state = .up)

/-- Whether a port is UP. -/
def portUp (s : State) (p : Nat) : Bool := decide ((s.port p).state = .up)

/-- The push address of a session on a port (R58). -/
def pushAddr (s : State) (u p : Nat) : Option PushAddr := if p = 0 then (s.session u).addr0 else (s.session u).addr1

/-- A port qualifies for a session's pushes: UP, and the session has a push address there (R59, R60). -/
def pushOk (s : State) (u p : Nat) : Bool := s.portUp p && (s.pushAddr u p).isSome

/-- SESS[u].CTRL.HOME_PORT. -/
def homePort (s : State) (u : Nat) : Nat := s.regFld (Reg.sessCtrl u) 0 0

/-- The ports that carry a push of a session now (R59, R60): both under PUSH_DUAL, else the home port, else the other. -/
def pushPorts (s : State) (u : Nat) : List Nat :=
  if (s.session u).isOpen then
    let h := s.homePort u
    if s.regBit (Reg.sessCtrl u) 4 then [0, 1].filter (s.pushOk u)
    else if s.pushOk u h then [h] else if s.pushOk u (1 - h) then [1 - h] else []
  else []

/-- Whether every port of a push has JUMBO = 1 (R59). -/
def pushJumbo (s : State) (ps : List Nat) : Bool := ps.all s.jumbo

/-- The PFC priority of a class of frames on a port (R90). PFC_MAP names neither the answers to ARP, Neighbour Discovery and echo requests,
which go as responses do, nor IEEE 1588 messages and PFC frames, which have 0 (DESIGN CHOICE, log entry 69). -/
def framePrio (s : State) (p : Nat) (c : TxClass) : Nat :=
  let m := s.getReg (Reg.ethPfcMap p)
  match c with
  | .response | .answer => fld m 2 0
  | .event => fld m 6 4
  | .result => fld m 10 8
  | .classC => fld m 14 12
  | .ptp | .pfc => 0

/-! ### Frames -/

/-- The 802.1Q tag of a frame of a class on a port (R38): NET.VLAN.VID with the class's priority under TAG_EN, on every frame that
the port sends. -/
def frameTag (s : State) (p : Nat) (c : TxClass) : Option (BitVec 16) :=
  let v := s.netVal Reg.netVlan
  if bit v 15 then some (BitVec.ofNat 16 (8192 * s.framePrio p c + fld v 11 0)) else none

/-- A frame with what its port adds (R38, R85). -/
def dressed (s : State) (p : Nat) (f : OutFrame) : OutFrame := { f with prio := s.framePrio p f.cls, vlan := s.frameTag p f.cls }

/-- Hands a frame to a port's egress; a port that is neither SHADOW nor UP sends nothing. A class C frame is dropped, counted and
flagged when the port's class C queue holds more than 256 KiB (R85); its frames count there as R35 counts them (DESIGN CHOICE,
log entry 71). -/
def sendFrame (s : State) (p : Nat) (f : OutFrame) : State :=
  if ¬ s.portAnswers p then s
  else if f.cls = .classC ∧ 262144 < (s.port p).classCHeld then
    (s.satReg (Reg.ethClasscDrop p)).raiseFlag (Reg.ethFlags p) 3
  else
    let g := s.dressed p f
    s.modPort p fun e => { e with
      egress := e.egress ++ [g]
      classCHeld := e.classCHeld + (if g.cls = .classC then g.ethLen else 0) }

/-- Sends one push frame of a session on the ports that carry it, with the session's next push SEQ (R59, R83). -/
def sendPush (s : State) (u : Nat) (c : TxClass) (ops : List OpResp) : State :=
  let ps := s.pushPorts u
  let seq := (s.session u).pushSeq
  let tag := (s.session u).tag
  let s := ps.foldl (fun s p =>
    s.sendFrame p { cls := c, sess := BitVec.ofNat 8 u, seq := seq, tag := tag, ops := ops, dest := s.pushAddr u p }) s
  if ps.isEmpty then s else s.modSess u fun x => { x with pushSeq := x.pushSeq + 1 }

/-- Pushes a class C operation: on the ports that qualify, otherwise it is dropped and counted on the home port (R60). -/
def pushClassC (s : State) (u : Nat) (ops : List OpResp) : State :=
  if (s.pushPorts u).isEmpty then
    (s.satReg (Reg.ethClasscDrop (s.homePort u))).raiseFlag (Reg.ethFlags (s.homePort u)) 3
  else s.sendPush u .classC ops

/-- The next sequence number of a class C source and instance, and the state that has counted it (R83). -/
def nextSeqNo (s : State) (src inst : Nat) : BitVec 32 × State :=
  let k := src + 256 * inst
  let x := ((s.seqNo.find? fun e => e.1 = k).map (·.2)).getD 0
  (x, { s with seqNo := s.seqNo.filter (fun e => e.1 ≠ k) ++ [(k, x + 1)] })

/-- A CLASS_DATA operation (R46, R83). -/
def classData (src inst : Nat) (seq : BitVec 32) (data : List Byte) : OpResp :=
  { op := 0x0B, addr := BitVec.ofNat 32 (src + 256 * inst), count := data.length / 4, body := leBytes 4 seq.toNat ++ data }

/-- Pushes event record number `w` to every open session whose EV_MIN admits its severity (R82). -/
def pushRecord (s : State) (w : Nat) : State :=
  let ws := (List.range 4).map fun k => s.getReg (Reg.evlog (w % 256) k)
  let sev := fld (ws.getD 1 0) 23 16
  s.forBelow 8 fun u s =>
    if (s.session u).isOpen ∧ s.regFld (Reg.sessCtrl u) 7 6 ≤ sev then
      s.sendPush u .event [{ op := 0x0A, count := 1, body := ofWords ws }]
    else s

end State

/-- EVENT_PUSH: the oldest event record not yet pushed goes to the sessions that admit it (R82). -/
def execEventPush (s : State) : Res :=
  .next <| match s.evToPush with
    | [] => s
    | w :: t => { s with evToPush := t }.pushRecord w

end Sys2Proof.Machine
end

