-- ==== Sys2Proof/Machine/Ecc.lean ====
section
/-! DEFINITION. The memories' geometry, error correction on reads and writes, and real-time accesses to a borrowed window
(R435, R436, R438-R440, R451). -/

namespace Sys2Proof.Machine

/-- Base address of ring `n`'s memories (R31). -/
def State.ringMem (n : Nat) : Nat := 0x20000000 + 0x1000000 * n

/-- Offset and size of a ring memory in its ring's window (R435), by memory code 0 to 8. -/
def memPlace (code : Nat) : Nat × Nat :=
  [(0x0, 0x40000), (0x100000, 0x200000), (0x400000, 0x10000), (0x500000, 0x80000), (0x600000, 0x100000), (0x700000, 0x4000),
    (0x710000, 0x8000), (0x720000, 0x8000), (0x800000, 0x80000)].getD code (0, 0)

/-- First byte address of a memory instance (R435, R436). -/
def memBase (code inst : Nat) : Nat :=
  if code = 9 then 0x10000000 else if code = 10 then 0x30000000 + 0x80000 * inst else State.ringMem inst + (memPlace code).1

/-- Size of a memory instance in bytes (R435, R436). -/
def memSize (code : Nat) : Nat := if code = 9 then 0x400000 else if code = 10 then 0x80000 else (memPlace code).2

/-- Data bytes of an array word: 16 under RS(20,16), 32 under RS(36,32) (R435). -/
def arrayBytes (code : Nat) : Nat := if code = 5 ∨ code = 6 ∨ code = 7 then 16 else 32

/-- The memory that holds a byte address: its code, its instance and the offset in it (R31, R435, R436). -/
def memAt (a : Nat) : Option (Nat × Nat × Nat) :=
  if 0x10000000 ≤ a ∧ a < 0x10400000 then some (9, 0, a - 0x10000000)
  else if 0x30000000 ≤ a ∧ a < 0x30200000 then some (10, (a - 0x30000000) / 0x80000, a % 0x80000)
  else if 0x20000000 ≤ a ∧ a < 0x2C000000 then
    let n := (a - 0x20000000) / 0x1000000
    let o := a % 0x1000000
    ((List.range 9).find? fun c => decide ((memPlace c).1 ≤ o ∧ o < (memPlace c).1 + (memPlace c).2)).map fun c =>
      (c, n, o - (memPlace c).1)
  else none

/-- The byte address of the array word that holds a byte. -/
def arrayBase (a : Nat) : Nat := a - a % (match memAt a with | some (c, _, _) => arrayBytes c | none => 32)

/-- An array word with damage (R438). -/
abbrev Damage := Nat × List (Nat × Byte)

/-- Data bytes of the array word at a byte address. -/
def wordBytes (a : Nat) : Nat := match memAt a with | some (c, _, _) => arrayBytes c | none => 32

/-- A damaged array word is uncorrectable (R438): more than 2 damaged bytes, which the decoder does not take for another word. -/
def Damage.bad (d : Damage) : Bool := decide (2 < d.2.length) && (Config.miscorrected d.2).isNone

/-- The bits of data byte `i` that a read of a damaged word gets wrong (R438). -/
def Damage.wrong (d : Damage) (i : Nat) : Byte :=
  if d.2.length ≤ 2 then 0 else (((Config.miscorrected d.2).getD []).getD i 0)

/-- Further bits of a codeword's byte flip. -/
def flipByte (p : Nat) (x : Byte) (l : List (Nat × Byte)) : List (Nat × Byte) :=
  let y := x ^^^ ((l.find? fun e => e.1 == p).map (·.2)).getD 0
  (l.filter fun e => e.1 != p) ++ (if y = 0 then [] else [(p, y)])

namespace State

/-- Damaged array words that overlap `k` bytes from `a` (R438). -/
def damageIn (s : State) (a k : Nat) : List Damage :=
  s.memu.damaged.filter fun d => decide (d.1 < a + k ∧ a < d.1 + wordBytes d.1)

/-- Whether a byte lies in an uncorrectable array word (R440). -/
def uncorr (s : State) (a : Nat) : Bool := (s.damageIn a 1).any Damage.bad

/-- Changes the memory unit. -/
def modMemu (s : State) (f : MemUnit → MemUnit) : State := { s with memu := f s.memu }

/-- What a read of a damaged array word does (R440, R457): counters, addresses, flags and events; a corrected word waits for
its write-back. -/
def eccWord (s : State) (d : Damage) : State :=
  if d.bad then
    (((s.satReg Reg.eccUncorr).setReg Reg.lastUncorr (BitVec.ofNat 32 d.1)).raiseFlag Reg.memFlags 1).raiseEvent 0x0602 0x07
      (BitVec.ofNat 32 d.1)
  else
    ((((s.addReg64 Reg.eccCorrLo 1).setReg Reg.lastCorr (BitVec.ofNat 32 d.1)).raiseFlag Reg.memFlags 0).raiseEvent 0x0601 0x07
      (BitVec.ofNat 32 d.1)).modMemu fun m => { m with
      fixed := d.1 :: m.fixed, writeback := if d.1 ∈ m.writeback then m.writeback else m.writeback ++ [d.1] }

/-- A read of `k` bytes from `a` decodes every array word it meets (R438). -/
def eccRead (s : State) (a k : Nat) : State := (s.damageIn a k).foldl eccWord s

/-- Errors appear in the codeword of an array word (R438): its data bytes, then its 4 check bytes. -/
def upset (s : State) (e : Nat × Nat × Byte) : State :=
  let (a, p, x) := e
  if a = arrayBase a ∧ (memAt a).isSome ∧ p < wordBytes a + 4 then
    let l := flipByte p x (((s.memu.damaged.find? fun d => d.1 == a).map (·.2)).getD [])
    s.modMemu fun m => { m with damaged := (m.damaged.filter fun d => d.1 != a) ++ (if l.isEmpty then [] else [(a, l)]) }
  else s

/-- The byte that a read of a damaged word delivers (R440): corrected, 0 of an uncorrectable word, or wrong. -/
def badByte (s : State) (d : Damage) (a : Nat) : Byte := if d.bad then 0 else s.byte a ^^^ d.wrong (a - d.1)

/-- The bytes a read delivers (R440). -/
def load (s : State) (a k : Nat) : List Byte :=
  if (s.damageIn a k).isEmpty then s.bytes a k
  else (List.range k).map fun i =>
    match (s.damageIn (a + i) 1).head? with
    | some d => s.badByte d (a + i)
    | none => s.byte (a + i)

/-- A damaged word takes the bytes that a read of it delivers, and is correct again (R439, R440). -/
def settleWord (s : State) (d : Damage) : State :=
  let s := if d.2.length ≤ 2 then s else s.setBytes d.1 ((List.range (wordBytes d.1)).map fun i => s.badByte d (d.1 + i))
  s.modMemu fun m => { m with damaged := m.damaged.filter (fun e => e.1 != d.1), writeback := m.writeback.filter (· != d.1) }

/-- The word a read delivers. -/
def loadWord (s : State) (a : Nat) : Word := BitVec.ofNat 32 (ofLe (s.load a 4))

/-- A write of bytes (R439, R440): a partial write reads the array word first, and one into an uncorrectable word sets its other
bytes to 0; every word written is correct again. -/
def store (s : State) (a : Nat) (bs : List Byte) : State :=
  let k := bs.length
  let s := (s.damageIn a k).foldl (fun s d => (if a ≤ d.1 ∧ d.1 + wordBytes d.1 ≤ a + k then s else s.eccWord d).settleWord d) s
  s.setBytes a bs

/-- A write whose every array word is read first (R439, R445, R446). -/
def storeRead (s : State) (a : Nat) (bs : List Byte) : State :=
  ((s.damageIn a bs.length).foldl (fun s d => (s.eccWord d).settleWord d) s).setBytes a bs

/-- Whether `k` bytes from `a` meet the borrowed window (R450, R451). -/
def meetsWindow (s : State) (a k : Nat) : Bool :=
  s.memu.borrow.any fun w =>
    let base := memBase w.code w.inst + 256 * w.row
    decide (base < a + k ∧ a < base + 256)

/-- A bank is free of requests in this beat (R437, R440, R441): in exchange memory, of the rings' and the host's; the banks of the
other memories are the free value Config.bankFree, since the spec does not give them. -/
def bankFree (s : State) (a : Nat) : Bool :=
  match memAt a with
  | some (9, _, o) => !(s.memu.portA.any fun p => p.1 == o / 32 % 16) && !s.memu.portB.contains (o / 32 % 16)
  | _ => Config.bankFree a s.beat

/-- Beats by which a real-time access to `a` in this beat is served later (R22, R451), and the state in which the access has
stopped the test of a borrowed window. -/
def touch (s : State) (a : Nat) : Nat × State :=
  match s.memu.borrow with
  | none => (0, s)
  | some w =>
    let base := memBase w.code w.inst + 256 * w.row
    if base ≤ a ∧ a < base + 256 then
      let k := w.hit.getD s.beat
      (k + 2 - s.beat, s.modMemu fun m => { m with borrow := some { w with hit := some k } })
    else (0, s)

/-- A real-time read whose requester waits for no window: it stops the test of one, and decodes. -/
def rtRead (s : State) (a k : Nat) : State := (s.touch a).2.eccRead a k

/-- A real-time write. -/
def rtStore (s : State) (a : Nat) (bs : List Byte) : State := (s.touch a).2.store a bs

end State

end Sys2Proof.Machine
end

