-- ==== Sys2Proof/Machine/Streams.lean ====
section
/-! DEFINITION. Waveform streams: units, pointers and credits (R71-R76, R152). -/

namespace Sys2Proof.Machine

namespace State

/-- STRM[n][j].CFG.EN. -/
def strmEn (s : State) (n j : Nat) : Bool := s.regBit (Reg.strmCfg n j) 16
/-- STRM[n][j].CFG.UNITS. -/
def strmUnits (s : State) (n j : Nat) : Nat := s.regFld (Reg.strmCfg n j) 6 0
/-- STRM[n][j].CFG.BASE. -/
def strmBase (s : State) (n j : Nat) : Nat := s.regFld (Reg.strmCfg n j) 13 8
/-- The play pointer (R72). -/
def playPtr (s : State) (n j : Nat) : BitVec 32 := s.getReg (Reg.strmPlayptr n j)
/-- The credit limit (R72). -/
def creditLimit (s : State) (n j : Nat) : BitVec 32 := s.getReg (Reg.strmLimit n j)
/-- The take pointer (R152). -/
def takePtr (s : State) (n j : Nat) : BitVec 32 := s.getReg (Reg.strmTakeptr n j)

/-- The byte address of the unit with index `i` (R71). -/
def unitAddr (s : State) (n j : Nat) (i : BitVec 32) : Nat :=
  ringMem n + 0x2C0000 + (s.strmBase n j + i.toNat % s.strmUnits n j) * 0x1000

/-- Whether a unit is filled. -/
def unitFilled (s : State) (n j : Nat) (i : BitVec 32) : Bool := decide (i ∈ (s.strm n j).filled)

/-- The ready run of a stream: consecutive filled units from the play pointer, up to the limit (R74). -/
def readyRun (s : State) (n j : Nat) : Nat :=
  ((List.range (s.strmUnits n j)).takeWhile fun k => s.unitFilled n j (s.playPtr n j + BitVec.ofNat 32 k)).length

/-- The stream pause condition of a ring (R74): some enabled stream has a ready run below its LOW mark. -/
def creditPause (s : State) (n : Nat) : Bool :=
  (List.range 4).any fun j => s.strmEn n j && decide (s.readyRun n j < s.regFld (Reg.strmLow n j) 6 0)

/-- Sets the play pointer and with it the credit limit; an advance makes a CREDIT push due (R72, R73). -/
def setPlayPtr (s : State) (n j : Nat) (i : BitVec 32) : State :=
  ((s.setReg (Reg.strmPlayptr n j) i).setReg (Reg.strmLimit n j) (i + BitVec.ofNat 32 (s.strmUnits n j))).modStrm n j
    fun t => { t with creditDue := true }

/-- Enables a stream: both pointers 0, no unit filled, a CREDIT push carrying UNITS due (R72, R73). -/
def enableStream (s : State) (n j : Nat) : State :=
  ((s.setReg (Reg.strmTakeptr n j) 0).modStrm n j fun t => { t with filled := [], released := [] }).setPlayPtr n j 0

/-- Moves the play pointer over the units released in index order; `fuel` bounds the walk. -/
def advancePlay (s : State) (n j : Nat) : Nat → State
  | 0 => s
  | fuel + 1 =>
    let i := s.playPtr n j
    if i ∈ (s.strm n j).released then
      ((s.modStrm n j fun t => { t with released := t.released.filter (· ≠ i) }).setPlayPtr n j (i + 1)).advancePlay n j fuel
    else s

/-- Releases a unit: it loses its filled mark, and the play pointer advances over the units released in order (R75, R152). -/
def releaseUnit (s : State) (n j : Nat) (i : BitVec 32) : State :=
  let s := s.modStrm n j fun t => { t with filled := t.filled.filter (· ≠ i), released := t.released ++ [i] }
  s.advancePlay n j (s.strm n j).released.length

/-- Releases `k` units from index `i`. -/
def releaseUnits (s : State) (n j : Nat) (i : BitVec 32) (k : Nat) : State :=
  s.forBelow k fun m s => s.releaseUnit n j (i + BitVec.ofNat 32 m)

/-- Takes `k` units from the take pointer (R152): the first index, and the state. -/
def takeUnits (s : State) (n j k : Nat) : BitVec 32 × State :=
  (s.takePtr n j, s.addReg (Reg.strmTakeptr n j) k)

/-- A unit of stream data arrives (R72, R76): written, discarded as stale, or rejected. -/
def streamUnit (s : State) (n j : Nat) (i : BitVec 32) (ws : List Word) : Err × State :=
  let p := s.playPtr n j
  let l := s.creditLimit n j
  if ¬ s.strmEn n j then (.eState, s)
  else if below i p then (.ok, s.raiseFlag (Reg.strmFlags n j) 1)
  else if (i = p ∨ below p i) ∧ below i l then
    if s.unitFilled n j i then (.eState, s)
    else (.ok, (s.store (s.unitAddr n j i) (ofWords ws)).modStrm n j fun t => { t with filled := t.filled ++ [i] })
  else (.eCredit, s.raiseFlag (Reg.strmFlags n j) 2)

/-- Whether a CREDIT push of a stream is due: its limit has advanced, 1,500 beats have passed since the latest push, and a port
qualifies (R60, R73). -/
def creditPushDue (s : State) (n j : Nat) : Bool :=
  (s.strm n j).creditDue && (match (s.strm n j).creditAt with | none => true | some b => decide (b + 1500 ≤ s.beat)) &&
    !(s.pushPorts (s.regFld (Reg.strmCfg n j) 22 20)).isEmpty

end State

/-- CREDIT_PUSH: the latest limit of the stream goes to its session (R73). Nothing happens unless the push is due (log
entry 4). -/
def execCreditPush (n : RingId) (j : Fin 4) (s : State) : Res :=
  .next <| if s.creditPushDue n j then
      (s.sendPush (s.regFld (Reg.strmCfg n j) 22 20) .event
        [{ op := 0x08, addr := BitVec.ofNat 32 (n.val + 256 * j.val), body := leBytes 4 (s.creditLimit n j).toNat }]).modStrm
        n j fun t => { t with creditDue := false, creditAt := some s.beat }
    else s

end Sys2Proof.Machine
end

