-- ==== Sys2Proof/Machine/Results.lean ====
section
/-! DEFINITION. Result queues: records waiting and held, pushes and acknowledgement (R77-R81, R191). -/

namespace Sys2Proof.Machine

namespace State

/-- RESQ[n].CTRL.EN. -/
def resqEn (s : State) (n : Nat) : Bool := s.regBit (Reg.resqCtrl n) 0
/-- RESQ[n].CTRL.SESS. -/
def resqSess (s : State) (n : Nat) : Nat := s.regFld (Reg.resqCtrl n) 6 4
/-- RESQ[n].FILL: records written and not yet freed (R78). -/
def resqFill (s : State) (n : Nat) : Nat := (s.resq n).recs.length

/-- The index of the oldest unfreed record, or the index the next record receives. -/
def oldestUnfreed (s : State) (n : Nat) : BitVec 32 :=
  match (s.resq n).recs with
  | r :: _ => r.idx
  | [] => (s.resq n).next

/-- NEXT_INDEX (R78, R79). -/
def nextIndex (s : State) (n : Nat) : BitVec 32 := if s.resqEn n then (s.resq n).pushed else s.oldestUnfreed n

/-- The address of a record (R297): slot index mod 32,768 of the results memory. -/
def recordAddr (n : Nat) (i : BitVec 32) : Nat := ringMem n + 0x600000 + 32 * (i.toNat % 32768)

/-- Frees the waiting records whose index lies below `i` (R72, R78); held records stay (R79). -/
def freeBelow (s : State) (n : Nat) (i : BitVec 32) : State :=
  s.modResq n fun q => { q with recs := q.recs.filter fun r => r.held || !below r.idx i }

/-- The records that can be pushed now: from the next index to push onward, up to the first held one (R77). -/
def pushable (s : State) (n : Nat) : List Rec :=
  ((s.resq n).recs.filter fun r => !below r.idx (s.resq n).pushed).takeWhile fun r => !r.held

/-- Records a RESULT operation may carry on the ports of a push (R59, R77). -/
def resultCap (s : State) (n : Nat) : Nat := if s.pushJumbo (s.pushPorts (s.resqSess n)) then 256 else 44

/-- Whether a RESULT frame is due (R77): pushes are enabled, a port qualifies, and MAXREC records wait or the oldest has
waited FLUSH x 1,500 beats. MAXREC counts as it is written, also where the frame will carry 44 records at most (DESIGN CHOICE, log
entry 74). -/
def resultPushDue (s : State) (n : Nat) : Bool :=
  let c := s.getReg (Reg.resqCtrl n)
  s.resqEn n && !(s.pushPorts (s.resqSess n)).isEmpty &&
    match s.pushable n with
    | [] => false
    | r :: t => decide (fld c 16 8 ≤ t.length + 1) || decide (r.since + fld c 31 24 * 1500 ≤ s.beat)

/-- Sends one RESULT frame (R77). Under AUTO_ACK its records are freed when the MAC takes the frame (R78). -/
def pushResults (s : State) (n : Nat) : State :=
  let rs := (s.pushable n).take (min (s.regFld (Reg.resqCtrl n) 16 8) (s.resultCap n))
  match rs with
  | [] => s
  | r :: _ =>
    let i := r.idx
    let body := leBytes 4 i.toNat ++ rs.flatMap fun x => s.load (recordAddr n x.idx) 32
    let s := rs.foldl (fun s x => s.eccRead (recordAddr n x.idx) 32) s
    let s := s.sendPush (s.resqSess n) .result [{ op := 0x09, addr := BitVec.ofNat 32 n, count := rs.length, body := body }]
    s.modResq n fun q => { q with pushed := i + BitVec.ofNat 32 rs.length }

/-- The index following that of the newest waiting record, or NEXT_INDEX when none waits: `E` of R79. -/
def ackEnd (s : State) (n : Nat) : BitVec 32 :=
  match ((s.resq n).recs.filter fun r => !r.held).getLast? with
  | some r => r.idx + 1
  | none => s.nextIndex n

/-- The check of a RESULT_ACK with index `i` from session `u` (R78, R79). -/
def ackCheck (s : State) (n u : Nat) (i : BitVec 32) : Err :=
  if s.resqEn n then
    (Err.need (i = s.nextIndex n || below i (s.nextIndex n)) .eRange).orElse (Err.need (decide (u = s.resqSess n)) .eState)
  else
    let h := s.regFld (Reg.leaseRing n) 3 0
    (Err.need (decide (h = u ∨ h = 0xF)) .eLease).orElse (Err.need (i = s.ackEnd n || below i (s.ackEnd n)) .eRange)

/-- A RESULT_ACK: frees the waiting records below the index (R78, R79). -/
def resultAck (s : State) (n u : Nat) (i : BitVec 32) : Err × State :=
  if 12 ≤ n then (.eRange, s)
  else if s.ackCheck n u i = .ok then (.ok, s.freeBelow n i) else (s.ackCheck n u i, s)

/-- Pushes of a queue restart from its oldest unacknowledged record (R62, R79). -/
def restartPush (s : State) (n : Nat) : State := s.modResq n fun q => { q with pushed := s.oldestUnfreed n }

/-- Held records of a ring become waiting with the flags of their shot (R191): its FLAGS, bytes 10 and 11 (R293), take `flags`. -/
def releaseHeld (s : State) (n : Nat) (flags : BitVec 16) : State :=
  let held := (s.resq n).recs.filter (·.held)
  let s := held.foldl (fun s r =>
    let a := recordAddr n r.idx + 10
    s.rtStore a (leBytes 2 ((ofLe (s.load a 2)) ||| flags.toNat))) s
  s.modResq n fun q => { q with
    recs := q.recs.map (fun r => if r.held then { r with held := false, since := s.beat } else r) }

end State

/-- RESULT_PUSH: a RESULT frame of the ring's queue is sent (R77). Nothing happens unless it is due (log entry 4). -/
def execResultPush (n : RingId) (s : State) : Res :=
  .next <| if s.resultPushDue n then s.pushResults n else s

end Sys2Proof.Machine
end

