-- ==== Sys2Proof/Machine/Voices.lean ====
section
/-! DEFINITION. Voices: segment descriptors, the timeline of segments at the pins, jump requests and stops, streamed units and
under-run (R151-R153, R201-R205, R211-R225). Beats named P and B are pin beats. -/

namespace Sys2Proof.Machine

/-- LEN of a descriptor or PLAYS word 1. -/
def descLen (w1 : Word) : Nat := fld w1 31 16
/-- The interpolation factor of a descriptor or PLAYS word 1 (R218). -/
def descFactor (w1 : Word) : Nat := 2 ^ fld w1 15 13

/-- How many pairs the first beat of a segment uses, its interpolation included (R148, R151, R222): none of a flat one. -/
def firstPairs (w1 : Word) : Nat := if bit w1 12 then 0 else min (7 / descFactor w1 + 2) (8 * descLen w1 / descFactor w1)

/-- The DESC_ERR cause of an illegal descriptor (R218-R220, R248): 0 LEN, 1 INTERP or factor, 2 pair range, 3 a reserved bit or
field not 0; none when it is legal. Of several, the first in this order (log entry 62). -/
def Desc.cause (d : Desc) : Option Nat :=
  let len := descLen d.w1
  let flat := bit d.w1 12
  if d.bad then some 3
  else if len < 4 then some 0
  else if ¬ flat ∧ (5 ≤ fld d.w1 15 13 ∨ len * 8 % descFactor d.w1 ≠ 0) then some 1
  else if ¬ flat ∧ 524288 < fld d.w0 18 0 + len * 8 / descFactor d.w1 then some 2
  else if fld d.w0 31 19 ≠ 0 ∨ fld d.w1 11 0 ≠ 0 ∨ fld d.w2 14 12 ≠ 0 ∨
      (flat ∧ (fld d.w0 18 0 ≠ 0 ∨ fld d.w1 15 13 ≠ 0)) ∨ (¬ flat ∧ d.w3 ≠ 0) ∨
      (¬ bit d.w2 15 ∧ fld d.w2 11 0 ≠ 0) then some 3
  else none

/-- The samples a segment has: LEN x 8. -/
def Seg.samples (g : Seg) : Nat := 8 * descLen g.w1

/-- Whether a segment plays at pin beat `P` (R201). -/
def Seg.covers (g : Seg) (P : Nat) : Bool := decide (g.start ≤ P ∧ P < g.bnd)

/-- The sample after a segment's last (R153, R223): sample `off` of its boundary pin beat, or sample 0 where a ramped STOP ends it. -/
def Seg.endAt (g : Seg) : Nat := 8 * g.bnd + if g.ramped then 0 else g.off

/-- The pin beat of output `j` of a segment. -/
def Seg.beatOf (g : Seg) (j : Nat) : Nat := g.start + (g.off + j) / 8

/-- Outputs that one stream unit gives: 1,024 pairs times the factor (R152). -/
def Seg.unitOuts (g : Seg) : Nat := 1024 * descFactor g.w1

/-- The request pin beat of a request (R201). -/
def VReq.pin (r : VReq) : Nat := r.act + 26

/-- Whether a request is a PLAY or a PLAYS. -/
def VReq.isPlay (r : VReq) : Bool :=
  match r.kind with
  | .play .. | .plays .. => true
  | _ => false

namespace State

/-- Reads descriptor `d` of ring `n` (R218). -/
def readDesc (s : State) (n d : Nat) : Desc :=
  let a := ringMem n + 0x400000 + 16 * d
  { w0 := s.loadWord a, w1 := s.loadWord (a + 4), w2 := s.loadWord (a + 8), w3 := s.loadWord (a + 12), bad := s.uncorr a }

/-- The read of descriptor `d` decodes its array word and stops the test of its window (R440, R451). -/
def descTouch (s : State) (n d : Nat) : State := s.rtRead (ringMem n + 0x400000 + 16 * d) 16

/-- The address of pair `m` of a sampled segment (R218). -/
def descPair (n : Nat) (w0 : Word) (m : Nat) : Nat := ringMem n + 0x100000 + 4 * (fld w0 18 0 + m)

/-- Descriptor `d` of ring `n` with the first granules of its envelope, as a CASE fetches them (R148; log entry 63). -/
def fetchDesc (s : State) (n d : Nat) : Desc × State :=
  let w := s.readDesc n d
  let s := s.descTouch n d
  if w.cause.isSome then (w, s)
  else
    let l := (List.range (firstPairs w.w1)).map fun m => (m, descPair n w.w0 m)
    ({ w with pairs := l.map fun e => (e.1, s.loadWord e.2) }, l.foldl (fun s e => s.rtRead e.2 4) s)

/-- An illegal descriptor is met: the channel's flag and DESC_INFO (R220). -/
def descErr (s : State) (n v d cause : Nat) : State :=
  (s.raiseFlag (Reg.txFlags n (v / 8)) 2).setReg (Reg.txDescInfo n (v / 8))
    (BitVec.ofNat 32 (cause * 2 ^ 22 + v * 2 ^ 16 + d))

/-- Marks the ring's shot late: st.LATE and SEQ_PFLAGS.LATE (R125, R129, R202). -/
def markLate (s : State) (n : Nat) : State := (s.setBit (Reg.seqSt n) 5 true).raiseFlag (Reg.seqPflags n) 1

/-- A request ends without being played: its stream units are released (R152). -/
def dropReq (s : State) (n : Nat) (r : VReq) : State :=
  match r.kind with
  | .plays st _ _ _ first units _ => s.releaseUnits n st first units
  | _ => s

/-- The pin beat from which the pipelines of a voice are to follow its timeline again (R203, R225). -/
def earlier (P : Nat) (o : Option Nat) : Option Nat := some (min P (o.getD P))

/-- A choice made ahead of pin beat `P` is taken back: what it put into the timeline goes, and the last segment's boundary is open
again (R203, R225; log entry 40). -/
def takeBack (s : State) (n v P : Nat) : State :=
  s.modVoice n v fun x =>
    let segs := x.segs.filter fun g => decide (g.start < P)
    { x with
      jumpAt := none, redo := earlier P x.redo
      segs := segs.dropLast ++ (segs.getLast?.map fun g => { g with chosen := false }).toList }

/-- Voids the pending jump request of a voice (R203): it is pending up to the pin beat in which it takes effect (log entry 40). -/
def voidJump (s : State) (n v : Nat) : State :=
  match (s.voice n v).jump with
  | some r =>
    let s := match (s.voice n v).jumpAt with
      | some P => s.takeBack n v P
      | none => s
    (s.dropReq n r).modVoice n v fun x => { x with jump := none }
  | none => s

/-- The pending request for which no boundary has been chosen yet. -/
def waitingJump (s : State) (n v : Nat) : Option VReq := if (s.voice n v).jumpAt.isNone then (s.voice n v).jump else none

/-- Adds a segment to a voice's timeline. -/
def addSeg (s : State) (n v : Nat) (g : Seg) : State := s.modVoice n v fun x => { x with segs := x.segs ++ [g] }

/-- A request starts at pin beat `P`; `off` is the running offset at a boundary, none where the voice is free and the request's
own offset holds (R223). One that waits for `P` stays pending until then (R249). A PLAY plays the descriptor that was read when it reached
the voice (R221). -/
def startReq (s : State) (n v : Nat) (r : VReq) (P : Nat) (off : Option Nat) (waits : Bool) : State :=
  let s := s.modVoice n v fun x => { x with
    jump := if waits then some r else none, jumpAt := if waits then some P else none }
  let o : Origin := if off.isSome then .jump else .request
  match r.kind with
  | .play d own _ =>
    let w := r.got.getD (s.readDesc n d)
    s.addSeg n v {
      desc := d, w0 := w.w0, w1 := w.w1, w2 := w.w2, w3 := w.w3, start := P, bnd := P + descLen w.w1,
      off := off.getD own, repLeft := fld w.w2 31 16, origin := o, got := w.pairs }
  | .plays st len own code first units dead =>
    s.addSeg n v {
      w1 := BitVec.ofNat 32 (len * 2 ^ 16 + code * 2 ^ 13), start := P, bnd := P + len, off := off.getD own,
      origin := o, stream := some st, first := first, units := units, fillAt := if dead then some P else none }
  | .stop | .ramp => s

/-- A pending request is late: the ring's shot and flags are marked, once for the request (R202). -/
def lateJump (s : State) (n v : Nat) (r : VReq) : State :=
  if r.late then s
  else ((s.markLate n).raiseFlag (Reg.seqFlags n) 2).modVoice n v fun x => { x with jump := some { r with late := true } }

/-- Where a pending jump request finds the voice free, it acts at its pin beat, or one beat after the boundary that it came
one beat too late for (R201, R202). -/
def settleJump (s : State) (n v : Nat) : State :=
  match s.waitingJump n v, (s.voice n v).segs.getLast? with
  | some r, none => s.startReq n v r r.pin none false
  | some r, some g =>
    if g.chosen ∧ g.bnd ≤ r.pin then s.startReq n v r r.pin none false
    else if g.chosen ∧ g.bnd = r.pin + 1 then (s.lateJump n v r).startReq n v { r with late := true } (g.bnd + 1) none true
    else s
  | none, _ => s

/-- Sets that the choice at the last segment's boundary is made. -/
def markChosen (s : State) (n v : Nat) : State :=
  s.modVoice n v fun x => { x with segs := x.segs.dropLast ++ (x.segs.getLast?.map fun g => { g with chosen := true }).toList }

/-- The segment that follows `g` at its boundary under REPEAT and CHAIN (R223). -/
def continueSeg (s : State) (n v : Nat) (g : Seg) : Option Seg × State :=
  if 0 < g.repLeft then
    (some { g with
      start := g.bnd, bnd := g.bnd + descLen g.w1, repLeft := g.repLeft - 1, origin := .rep, chosen := false, got := [] }, s)
  else if bit g.w2 15 then
    let d := fld g.w2 11 0
    let w := s.readDesc n d
    let s := s.descTouch n d
    match w.cause with
    | some c => (none, s.descErr n v d c)
    | none =>
      (some {
        desc := d, w0 := w.w0, w1 := w.w1, w2 := w.w2, w3 := w.w3, start := g.bnd, bnd := g.bnd + descLen w.w1,
        off := g.off, repLeft := fld w.w2 31 16, origin := .chain }, s)
  else (none, s)

/-- Whether boundaries at pin beat `B` start no repetition and no chain, because the ring is halted or drains for HALT
(R169, R225). -/
def haltedFrom (s : State) (n B : Nat) : Bool :=
  match (s.seq n).haltFrom with
  | some h => decide (h ≤ B)
  | none => false

/-- The choice at the boundary of the voice's last segment, made 22 beats before the boundary pin beat, when the descriptor of
what follows has been read (R209, R223): a jump request that takes effect there, the next repetition, the chained
descriptor, or idle. A request one beat late is marked, and waits or acts one beat after (R202). -/
def chooseBoundary (s : State) (n v : Nat) : State :=
  match (s.voice n v).segs.getLast? with
  | none => s
  | some g =>
    let s := s.markChosen n v
    match s.waitingJump n v with
    | some r =>
      if r.pin + 2 ≤ g.bnd then s.startReq n v r g.bnd (some g.off) true
      else
        let (c, s) := if s.haltedFrom n g.bnd then (none, s) else s.continueSeg n v g
        match c with
        | some h =>
          (if r.pin + 1 = g.bnd then s.lateJump n v r else s).addSeg n v h
        | none => s.settleJump n v
    | none =>
      let (c, s) := if s.haltedFrom n g.bnd then (none, s) else s.continueSeg n v g
      match c with
      | some h => s.addSeg n v h
      | none => s

/-- The boundary choice of a voice is due. -/
def boundaryDue (s : State) (n v : Nat) : Bool :=
  match (s.voice n v).segs.getLast? with
  | some g => !g.chosen && decide (g.bnd ≤ s.beat + 22)
  | none => false

/-- What was chosen for boundaries from the present beat on as a repetition or a chain is taken back (R153, R169, R225; log entry 40); a
request that waited for a boundary that is no more finds the voice free. -/
def endFollowers (s : State) (n v : Nat) : State :=
  match (s.voice n v).segs.find? fun g => decide (s.beat ≤ g.start) && (g.origin == .rep || g.origin == .chain) with
  | none => s
  | some d =>
    (s.modVoice n v fun x => { x with
      segs := x.segs.filter fun g => decide (g.start < d.start) || (g.origin == .request && x.jumpAt != some g.start)
      jumpAt := if x.jumpAt.any fun P => decide (d.start ≤ P) then none else x.jumpAt
      redo := earlier d.start x.redo }).settleJump n v

/-- A ramped STOP reaches the voice (R153): it voids the pending jump request, no repetition or chain starts any more, and when the
voice plays at its pin beat `P` the segment ends with sample 0 of `P + 24`. Where the ramp of an earlier one still runs then, the voice
plays nothing from that one's end on (log entry 41). -/
def rampStop (s : State) (n v P : Nat) : State :=
  let s := (s.voidJump n v).endFollowers n v
  match (s.voice n v).segs.getLast? with
  | some g =>
    if P < g.bnd then
      s.modVoice n v fun x =>
        let ends := ((x.stops.filter fun q => decide (P < q + 24)).map (· + 24)) ++ g.silentAt.toList
        { x with
          segs := x.segs.dropLast ++
            [{ g with bnd := P + 24, repLeft := 0, w2 := 0, chosen := false, ramped := true, silentAt := ends.min? }]
          stops := P :: x.stops }
    else s.markChosen n v
  | none => s

/-- A legal PLAY with PF = 1 starts the fetch of the envelope of descriptor `w`, which reads its first granules in the envelope read
stage, 8 beats after the action (R151, R209; log entry 63). -/
def fetchEnv (s : State) (n v : Nat) (w : Desc) (off k : Nat) : State :=
  s.modVoice n v fun x => { x with pre := x.pre ++ [(s.beat + k, { w0 := w.w0, w1 := w.w1, w2 := w.w2, w3 := w.w3, off := off })] }

/-- A request is a jump request, or finds the voice free (R201). After a host halt a jump request is void (R225). -/
def offerReq (s : State) (n v : Nat) (r : VReq) : State :=
  let free : Bool := match (s.voice n v).segs.getLast? with
    | some g => decide (g.bnd ≤ r.pin)
    | none => true
  if (s.seq n).st = .halted ∧ ¬ free then s.dropReq n r
  else
    let s := (s.voidJump n v).modVoice n v fun x => { x with jump := some r }
    s.settleJump n v

/-- A request reaches the voice in beat A + 4 (R220); a descriptor that a CASE has fetched is not read again (R148). -/
def reachVoice (s : State) (n v : Nat) (r : VReq) : State :=
  match r.kind with
  | .play d off pf =>
    let w := r.got.getD (s.readDesc n d)
    let s := if r.got.isSome then s else s.descTouch n d
    match w.cause with
    | some c => s.descErr n v d c
    | none => if pf then s.fetchEnv n v w off 4 else s.offerReq n v { r with got := some w }
  | .plays .. => s.offerReq n v r
  | .stop => s.offerReq n v r
  | .ramp => s.rampStop n v r.pin

/-- The requests of a voice that reach it now, oldest first. Of two PLAY or PLAYS of one beat only the later is a request
(R130, R220). -/
def reaching (s : State) (n v : Nat) : List VReq :=
  let rs := (s.voice n v).reqs.filter fun r => decide (r.act + 4 ≤ s.beat)
  (rs.zipIdx.filter fun p =>
    !(p.1.isPlay && (rs.drop (p.2 + 1)).any fun q => q.isPlay && decide (q.act = p.1.act))).map (·.1)

/-- The requests that a later PLAY or PLAYS of their beat replaces. -/
def outdone (s : State) (n v : Nat) : List VReq :=
  let rs := (s.voice n v).reqs.filter fun r => decide (r.act + 4 ≤ s.beat)
  (rs.zipIdx.filter fun p =>
    p.1.isPlay && (rs.drop (p.2 + 1)).any fun q => q.isPlay && decide (q.act = p.1.act)).map (·.1)

/-- The segment and unit number whose claim is due (R204): 18 beats before the pin beat of the unit's first sample. A PLAYS of
a disabled stream claims once, for its under-run (R76). -/
def claimDue (s : State) (n v : Nat) : Option (Nat × Seg) :=
  ((s.voice n v).segs.zipIdx.find? fun p =>
    let g := p.1
    g.stream.isSome && (decide (g.claimed < g.units) || (g.units == 0 && g.claimed == 0)) &&
      decide (g.beatOf (g.claimed * g.unitOuts) ≤ s.beat + 18 ∧ 8 * g.start + g.off + g.claimed * g.unitOuts < g.endAt)).map
    fun p => (p.2, p.1)

/-- Changes segment `i` of a voice. -/
def modSeg (s : State) (n v i : Nat) (f : Seg → Seg) : State :=
  s.modVoice n v fun x => { x with segs := x.segs.modify i f }

/-- An under-run (R75, R205): st.UDR, the stream's flag and the event. The fill plays from the unit's first sample on (R204). -/
def underrun (s : State) (n st : Nat) : State :=
  ((s.setBit (Reg.seqSt n) 6 true).raiseFlag (Reg.strmFlags n st) 0).raiseEvent 0x0108 (ringSource n 0)
    (BitVec.ofNat 32 (st + (s.getReg (Reg.seqSc n)).toNat % 2 ^ 24 * 2 ^ 8))

/-- The voice claims a unit: an under-run where it is not filled, and the rest of the segment plays the fill. -/
def claimUnit (s : State) (n v i : Nat) (g : Seg) : State :=
  let st := g.stream.getD 0
  let s := s.modSeg n v i fun g => { g with claimed := g.claimed + 1 }
  if g.units = 0 then s.underrun n st
  else if g.fillAt.isSome then s
  else if s.unitFilled n st (g.first + BitVec.ofNat 32 g.claimed) then s
  else (s.modSeg n v i fun g => { g with fillAt := some (g.beatOf ((g.claimed - 1) * g.unitOuts)) }).underrun n st

/-- The segment whose next unit is to be released: it has played past the unit, or has ended (R75, R152). -/
def unitDue (s : State) (n v : Nat) : Option (Nat × Seg) :=
  ((s.voice n v).segs.zipIdx.find? fun p =>
    let g := p.1
    g.stream.isSome && decide (g.released < g.units) &&
      (decide (g.bnd ≤ s.beat) ||
        decide (g.beatOf (min ((g.released + 1) * g.unitOuts) g.samples - 1) < s.beat))).map fun p => (p.2, p.1)

/-- Whether a voice is still playing, up to the pin beat of its boundary, or holds a request (R186 OUT_BUSY, R194). -/
def voiceBusy (s : State) (n v : Nat) : Bool :=
  let x := s.voice n v
  x.segs.any (fun g => decide (s.beat < g.bnd + (if g.endAt = 8 * g.bnd then 0 else 1))) || !x.reqs.isEmpty || x.jump.isSome

/-- A ring enters HALTED by a host halt in the present beat, or its HALT finds the queue empty (R169, R225): what was chosen for
boundaries from now on as a repetition or a chain is taken back, and under a host halt pending jump requests are void. The pipeline plays
what is left (log entry 40). -/
def haltVoices (s : State) (n : Nat) (host : Bool) : State :=
  let s := s.modSeq n fun q => { q with haltFrom := some s.beat }
  s.forBelow 32 fun v s => (if host then s.voidJump n v else s).endFollowers n v

/-- Every voice of a ring is stopped (R195): segments, requests and jumps end; streams keep their units (R196). -/
def stopVoices (s : State) (n : Nat) : State :=
  s.forBelow 32 fun v s => s.modVoice n v fun x => { x with
    segs := [], reqs := [], jump := none, jumpAt := none, stops := [], env := [], pre := [], lag := 0 }

end State

/-- REQUEST_REACHES_VOICE: the requests with action beat 4 beats ago or earlier reach the voice in order (R220). -/
def execRequestReachesVoice (n : RingId) (v : Fin 32) (s : State) : Res :=
  .next <|
    let rs := s.reaching n v
    let ds := s.outdone n v
    let s := s.modVoice n v fun x => { x with reqs := x.reqs.filter fun r => !decide (r.act + 4 ≤ s.beat) }
    let s := ds.foldl (fun s r => s.dropReq n r) s
    rs.foldl (fun s r => s.reachVoice n v r) s

/-- SEGMENT_BOUNDARY: the choice at the boundary of the voice's segment (R223). Nothing happens before it is due (log
entry 4). -/
def execSegmentBoundary (n : RingId) (v : Fin 32) (s : State) : Res :=
  .next <| if s.boundaryDue n v then s.chooseBoundary n v else s

/-- UNIT_CLAIM: the voice claims the next unit of its PLAYS (R204). -/
def execUnitClaim (n : RingId) (v : Fin 32) (s : State) : Res :=
  .next <| match s.claimDue n v with
    | some (i, g) => s.claimUnit n v i g
    | none => s

/-- UNIT_RELEASE: a unit that the segment has played past is released (R152). -/
def execUnitRelease (n : RingId) (v : Fin 32) (s : State) : Res :=
  .next <| match s.unitDue n v with
    | some (i, g) =>
      (s.releaseUnit n (g.stream.getD 0) (g.first + BitVec.ofNat 32 g.released)).modSeg n v i fun g =>
        { g with released := g.released + 1 }
    | none => s

/-- STOP_RAMP_END: 24 pin beats after the latest ramped STOP the voice is idle (R153). -/
def execStopRampEnd (n : RingId) (v : Fin 32) (s : State) : Res :=
  .next <| if (s.voice n v).stops.all fun P => decide (P + 24 ≤ s.beat) then s.modVoice n v fun x => { x with stops := [] } else s

end Sys2Proof.Machine
end

