-- ==== Sys2Proof/Machine/Decisions.lean ====
section
/-! DEFINITION. Decision posts: their way to the decision registers, their order and their meeting with valid bits (R117, R149,
R199, R323, R324, R361). -/

namespace Sys2Proof.Machine

namespace State

/-- Puts a post on its way to ring `n`. -/
def addPost (s : State) (n : Nat) (p : Post) : State := s.modSeq n fun q => { q with posts := q.posts ++ [p] }

/-- A post of ring `n` in the present beat under a mask (R149, R323): own ring after 2 beats, another ring after 6; with X = 1
from a ring of TRP_XPORT.RINGS it takes part in the chip's export (R361). `jug` says the Juggler posts it. -/
def postDecision (s : State) (n : Nat) (data mask : Word) (rings : BitVec 12) (x coarse jug : Bool) : State :=
  let s := s.forRings rings fun m s =>
    s.addPost m { due := s.beat + (if m = n then 2 else 6), data := data, mask := mask, coarse := coarse,
                  rank := (if m ≠ n then 16 + n else if jug then 33 else 32), ownJug := jug && decide (m = n) }
  if x ∧ s.regBit Reg.trpXport (16 + n) then
    let b := s.regFld Reg.trpXport 4 0
    { s with trap := { s.trap with exports := s.trap.exports ++
      [(2 * n + jug.toNat, n, coarse, BitVec.ofNat 16 (mask.toNat >>> b), BitVec.ofNat 16 (data.toNat >>> b))] } }
  else s

/-- Inserts a post by rank, behind posts of the same rank. -/
def insertPost (p : Post) : List Post → List Post
  | [] => [p]
  | q :: t => if p.rank < q.rank then p :: q :: t else q :: insertPost p t

/-- The posts that reach ring `n`'s dr now, in the order of R324. -/
def arriving (s : State) (n : Nat) : List Post :=
  ((s.seq n).posts.filter fun p => decide (p.due ≤ s.beat)).foldl (fun l p => insertPost p l) []

/-- One post writes dr and its valid masks (R117). -/
def applyPost (s : State) (n : Nat) (p : Post) : State :=
  let s := s.setReg (Reg.seqDr n) ((s.getReg (Reg.seqDr n) &&& ~~~p.mask) ||| (p.data &&& p.mask))
  let s := s.setReg (Reg.seqDrvc n) (s.getReg (Reg.seqDrvc n) ||| p.mask)
  if p.coarse then s else s.setReg (Reg.seqDrvf n) (s.getReg (Reg.seqDrvf n) ||| p.mask)

/-- Whether a bit is written twice, or while its fine-valid bit is set (R199, R324). -/
def overwrites (valid : Word) : List Post → Bool
  | [] => false
  | p :: t => decide (p.mask &&& valid ≠ 0) || overwrites (valid ||| p.mask) t

/-- Whether bits `b` to `b + w - 1` are all set in a valid mask. -/
def bitsValid (m : Word) (b w : Nat) : Bool := (List.range w).all fun i => bit m (b + i)

/-- A valid mask of ring `n`: drvc for coarse, drvf for fine. -/
def validMask (s : State) (n : Nat) (coarse : Bool) : Word :=
  s.getReg (if coarse then Reg.seqDrvc n else Reg.seqDrvf n)

/-- The posts that have reached ring `n`'s dr in the present beat and what they met; without any, what the registers hold (R117). -/
def meetNow (s : State) (n : Nat) : Meet :=
  match (s.seq n).meet.filter fun m => m.at_ == s.beat with
  | some m => m
  | none => { at_ := s.beat, dr := s.getReg (Reg.seqDr n), drvf := s.getReg (Reg.seqDrvf n), drvc := s.getReg (Reg.seqDrvc n) }

/-- The bits that posts make valid: in drvc, or in drvf those of posts that are not coarse (R117). -/
def postMask (fine : Bool) (ps : List Post) : Word :=
  ps.foldl (fun m p => if fine ∧ p.coarse then m else m ||| p.mask) 0

/-- The valid bits of ring `n` outside `keep` end; those that posts of the present beat set stay where `old` says that what ends was
valid before them (R117, R118). -/
def endValid (s : State) (n : Nat) (keep : Word) (old : Bool) : State :=
  let m := s.meetNow n
  let still := fun fine : Bool => if old then postMask fine m.posts else 0
  let s := s.setReg (Reg.seqDrvf n) ((s.getReg (Reg.seqDrvf n) &&& keep) ||| still true)
  let s := s.setReg (Reg.seqDrvc n) ((s.getReg (Reg.seqDrvc n) &&& keep) ||| still false)
  s.modSeq n fun q => { q with
    meet := q.meet.map fun e => if e.at_ = s.beat then { e with drvf := e.drvf &&& keep, drvc := e.drvc &&& keep } else e }

/-- Consumes bits: they leave both valid masks (R117). -/
def consume (s : State) (n b w : Nat) (old : Bool) : State := s.endValid n (~~~ BitVec.ofNat 32 (fieldMask (b + w - 1) b)) old

/-- What a DEC or CASE of bits `b` to `b + w - 1` sees in this beat (R117): the data it reads, and whether the bits were all valid before
the posts of the beat; none while they are not all valid. -/
def decSees (s : State) (n b w : Nat) (coarse : Bool) : Option (Word × Bool) :=
  let m := s.meetNow n
  if bitsValid (if coarse then m.drvc else m.drvf) b w then some (m.dr, true)
  else if bitsValid (s.validMask n coarse) b w then some (s.getReg (Reg.seqDr n), false)
  else none

/-- A shot start clears drvf and drvc before the posts of its beat are applied (R118). -/
def clearValid (s : State) (n : Nat) : State := s.endValid n 0 true

/-- A ring start clears dr too (R116); posts of its beat are applied after (R117). -/
def clearDr (s : State) (n : Nat) : State :=
  let s := (s.setReg (Reg.seqDr n) 0).clearValid n
  (s.meetNow n).posts.foldl (fun s p => s.applyPost n p) s

/-- Posts of the present beat overwrite what was valid, or one another; the beat's consumption and shot-start clear come first (R199,
R324). -/
def overDue (s : State) (n : Nat) : Bool :=
  let m := s.meetNow n
  !m.judged && overwrites m.drvf m.posts

/-- DR_OVERWRITE is judged (R199). -/
def judgePosts (s : State) (n : Nat) : State :=
  (s.raiseIf (s.overDue n) (Reg.seqFlags n) 3).modSeq n fun q => { q with meet := q.meet.map fun e => { e with judged := true } }

end State

end Sys2Proof.Machine
end

