-- ==== Sys2Proof/Machine/Transmit.lean ====
section
/-! DEFINITION. TX channels: the cross-fade of the predistortion banks (R229-R235), enabling and changes through zero
(R244-R247), and the requests that the action instructions send to voices (R151-R156, R210). -/

namespace Sys2Proof.Machine

namespace State

/-- A ring or its sequencer runs (R182). -/
def ringRuns (s : State) (n : Nat) : Bool :=
  match (s.seq n).st with
  | .armed | .running | .paused | .aborting => true
  | _ => false

/-! ### Cross-fade -/

/-- FADE_LEN of a channel. -/
def fadeLen (s : State) (n c : Nat) : Nat := s.regFld (Reg.txFadeLen n c) 11 0

/-- The bank that will be in force once every fade running or pending has ended (R230). -/
def fadeTarget (s : State) (n c : Nat) : Bool :=
  let x := s.tx n c
  x.pend.getD ((x.run.map (·.to_)).getD x.act)

/-- Bank `b` is in force at once from pin beat `P` on (R229, R232): what was in force before stays so for the samples before `P`, which the
fractional delay still uses (R236). -/
def switchBank (x : TxCh) (P : Nat) (b : Bool) : TxCh :=
  { x with
    act := b, run := none
    past := if x.act == b || x.past.any fun r => r.start + r.len == P then x.past else some { start := P, len := 0, to_ := b } }

/-- A fade to a bank starts at pin beat `P` with the FADE_LEN of now; length 0 puts the bank in force at once (R229). -/
def startFade (s : State) (n c P : Nat) (b : Bool) : State :=
  let len := s.fadeLen n c
  s.modTx n c fun x =>
    if len = 0 then { switchBank x P b with stir := s.beat + 3 }
    else { x with run := some { start := P, len := len, to_ := b }, stir := s.beat + 3 }

/-- A fade whose last sample has left ends, and a pending request starts (R229, R231). -/
def endFade (s : State) (n c : Nat) : State :=
  match (s.tx n c).run with
  | some r =>
    if r.start + r.len ≤ s.beat then
      let s := s.modTx n c fun x =>
        { x with act := r.to_, run := none, past := some r, stir := s.beat + 3, fadeLog := (r.start, r.start + r.len) :: x.fadeLog.filter (fun p => s.beat < p.2 + 131072) }
      match (s.tx n c).pend with
      | some b => (s.modTx n c fun x => { x with pend := none }).startFade n c (r.start + r.len) b
      | none => s
    else s
  | none => s

/-- A request reaches a channel in the present pin beat (R230, R231): no effect, a fade, pending, or rejected; a host request
that meets a running and a pending fade stays host-pending for the next boundary. -/
def reachFade (s : State) (n c : Nat) (b host : Bool) : State :=
  let x := s.tx n c
  let drop := fun s : State => if host then s.modTx n c fun x => { x with host := none, hostAt := none } else s
  if b = s.fadeTarget n c then drop s
  else if x.run.isNone then (drop s).startFade n c s.beat b
  else if x.pend.isNone then (drop s).modTx n c fun x => { x with pend := some b }
  else if host then s.modTx n c fun x => { x with hostAt := none }
  else (s.setBit (Reg.seqSt n) 8 true).raiseFlag (Reg.seqPflags n) 3

/-- At a boundary beat the host requests of a ring set out for their channels (R230). -/
def offerFades (s : State) (n : Nat) : State :=
  s.forBelow 4 fun c s => s.modTx n c fun x =>
    if x.host.isSome ∧ x.hostAt.isNone then { x with hostAt := some (s.beat + 26) } else x

/-- An abort voids the host-pending requests of a ring (R233). -/
def voidHostFades (s : State) (n : Nat) : State :=
  s.forBelow 4 fun c s => s.modTx n c fun x =>
    { x with host := none, hostAt := none, stir := s.beat + 3 }

/-- The channel's fades may come otherwise than the codes made ahead say: those are made again at the pins (R229, R230). -/
def stirFades (s : State) (n c : Nat) : State := s.modTx n c fun x => { x with stir := s.beat + 3 }

/-- The check of a FADE_REQ write (R232). -/
def fadeReqCheck (s : State) (n c : Nat) : Err :=
  let x := s.tx n c
  if s.ringRuns n then Err.need (!(x.run.isSome && x.pend.isSome)) .eBusy
  else Err.need (x.run.isNone && x.pend.isNone && x.host.isNone) .eBusy

/-- The effect of a FADE_REQ write (R232). -/
def fadeReqDo (s : State) (n c : Nat) (b : Bool) : State :=
  s.modTx n c fun x =>
    if s.ringRuns n then { x with host := some b, stir := s.beat + 3 } else { switchBank x s.beat b with stir := s.beat + 3 }

/-- A coefficient of bank `b` may be written (R235). -/
def coefCheck (s : State) (n c : Nat) (b : Bool) : Err :=
  let x := s.tx n c
  Err.need (!s.ringRuns n || !(x.act == b || x.run.isSome || x.pend.isSome || x.host.isSome)) .eState

/-- Whether a fade ran at the pins of any TX channel of the ring in pin beats `a` to `b` (R234). -/
def fadeIn (s : State) (n a b : Nat) : Bool :=
  (s.ring n).tx.any fun x =>
    x.fadeLog.any (fun p => decide (p.1 ≤ b ∧ a < p.2)) ||
      match x.run with
      | some r => decide (r.start ≤ b ∧ a < r.start + r.len)
      | none => false

/-! ### Enabling and changes through zero -/

/-- STATUS.SETTLING of a channel (R246). -/
def settling (s : State) (n c : Nat) : Bool := (s.tx n c).settleTo.isSome

/-- The check of a TX CTRL write (R239, R246, R247). -/
def txCtrlCheck (s : State) (n c : Nat) (v : Word) : Err :=
  ((Err.need (decide (fld v 5 4 ≠ 3)) .eRange).orElse (Err.need (!s.ringRuns n) .eState)).orElse
    (Err.need (!s.settling n c || fld v 5 4 == s.regFld (Reg.txCtrl n c) 5 4) .eBusy)

/-- The effect of a TX CTRL write: a MODE change on an enabled channel holds the balanced state for 1,500 beats (R246). -/
def txCtrlDo (s : State) (n c : Nat) (v : Word) : State :=
  let old := s.getReg (Reg.txCtrl n c)
  let s := s.setReg (Reg.txCtrl n c) v
  if bit old 0 ∧ bit v 0 ∧ fld old 5 4 ≠ fld v 5 4 then s.modTx n c fun x =>
      { x with settleTo := some (s.beat + 1500), fsOld := BitVec.ofNat 8 (s.regFld (Reg.txFs n c) 7 0) }
  else s

/-- The check of an FS write (R246-R248). -/
def txFsCheck (s : State) (n c : Nat) (v : Word) : Err :=
  ((Err.need (decide (fld v 7 0 ≤ 192)) .eRange).orElse (Err.need (!s.ringRuns n) .eState)).orElse
    (Err.need (!s.settling n c || fld v 7 0 == s.regFld (Reg.txFs n c) 7 0) .eBusy)

/-- The effect of an FS write: on an enabled channel the leg currents ramp for 3,000 beats (R246). -/
def txFsDo (s : State) (n c : Nat) (v : Word) : State :=
  let old := s.getReg (Reg.txFs n c)
  let s := s.setReg (Reg.txFs n c) v
  if s.regBit (Reg.txCtrl n c) 0 ∧ old ≠ v then
    s.modTx n c fun x => { x with settleTo := some (s.beat + 3000), fsOld := old.truncate 8 }
  else s

/-- TX[c].STATUS (R248). -/
def txStatus (s : State) (n c : Nat) : Word :=
  let x := s.tx n c
  let act := (x.run.map (·.to_)).getD x.act
  BitVec.ofNat 32 (act.toNat + 2 * x.run.isSome.toNat + 16 * x.pend.isSome.toNat + 32 * (x.pend.getD false).toNat +
    256 * x.host.isSome.toNat + 512 * (x.host.getD false).toNat + 65536 * x.settleTo.isSome.toNat)

/-! ### Requests of the action instructions -/

/-- A request goes to a voice in its action beat (R220). -/
def sendReq (s : State) (n v : Nat) (k : VKind) : State :=
  s.modVoice n v fun x => { x with reqs := x.reqs ++ [{ act := s.beat, kind := k }] }

/-- Whether two changes set the same quantity, so that of two in one beat the later prevails (R130). -/
def sameSet (a b : PinKind) : Bool :=
  match a, b with
  | .frq _, .frq _ | .phset _, .phset _ | .amp _, .amp _ => true
  | _, _ => false

/-- A change joins those on their way to the pins. -/
def addPin (o : PinOp) (l : List PinOp) : List PinOp := l.filter (fun e => !(e.at_ == o.at_ && sameSet e.kind o.kind)) ++ [o]

/-- A parameter change goes to a voice's pins (R210). -/
def sendPin (s : State) (n v : Nat) (k : PinKind) : State :=
  s.modVoice n v fun x => { x with pins := addPin { at_ := s.beat + 26, kind := k } x.pins }

/-- A parameter change goes to a lane's pins: it acts on the RX samples of pin beat A + 6 (R277). -/
def sendLanePin (s : State) (n l : Nat) (k : PinKind) : State :=
  s.modLane n l fun x => { x with pins := addPin { at_ := s.beat + 6, kind := k } x.pins }

/-- The action that follows in this beat has a fetched descriptor (R148). -/
def setGot (s : State) (n : Nat) (g : Option Desc) : State :=
  match g with
  | some d => s.modSeq n fun q => { q with got := some d }
  | none => s

/-- PLAY acts (R151), with the descriptor that a CASE has fetched for it, if any (R148). -/
def actPlay (s : State) (n : Nat) (w : BitVec 64) : State :=
  let k : VKind := .play (fld w 34 23) (fld w 22 20) (bit w 19)
  match (s.seq n).got with
  | some d =>
    (s.modSeq n fun q => { q with got := none }).modVoice n (fld w 39 35) fun x => { x with
      reqs := x.reqs ++ [{ act := s.beat, kind := k, got := some d }] }
  | none => s.sendReq n (fld w 39 35) k

/-- PLAYS acts: it takes its units, or none where the stream is disabled (R76, R152). -/
def actPlays (s : State) (n : Nat) (w : BitVec 64) : State :=
  let st := fld w 34 33
  let len := fld w 32 17
  let code := fld w 13 11
  let u := (len * 8 + 2 ^ code * 1024 - 1) / (2 ^ code * 1024)
  let dead := !s.strmEn n st
  let (first, s) := if dead then (0, s) else s.takeUnits n st u
  s.sendReq n (fld w 39 35) (.plays st len (fld w 16 14) code first (if dead then 0 else u) dead)

/-- STOP acts, on one voice or on all (R153). -/
def actStop (s : State) (n : Nat) (w : BitVec 64) : State :=
  let k : VKind := if bit w 33 then .ramp else .stop
  if bit w 34 then s.forBelow 32 fun v s => s.sendReq n v k else s.sendReq n (fld w 39 35) k

/-- FRQ acts: the frequency word of a voice or lane (R154). `v1` and `v2` are g[i] and g[i + 1]. -/
def actFrq (s : State) (n : Nat) (w : BitVec 64) (v1 v2 : Word) : State :=
  let f : BitVec 48 :=
    if bit w 32 then BitVec.ofNat 48 (v1.toNat + 2 ^ 32 * (v2.toNat % 2 ^ 16))
    else BitVec.ofNat 48 ((if bit w 33 then v1.toNat else fld w 31 0) * 2 ^ 16)
  if bit w 39 then s.sendLanePin n (fld w 38 34) (.frq f) else s.sendPin n (fld w 38 34) (.frq f)

/-- PHS acts: it adds to the phase frame (R155). -/
def actPhs (s : State) (n : Nat) (w : BitVec 64) (v1 : Word) : State :=
  let d : Word := if bit w 33 then v1 else BitVec.ofNat 32 (fld w 31 0)
  if bit w 39 then s.sendLanePin n (fld w 38 34) (.phs d) else s.sendPin n (fld w 38 34) (.phs d)

/-- PHSET acts: it sets the phase frame (R155). -/
def actPhset (s : State) (n : Nat) (w : BitVec 64) (v1 : Word) : State :=
  let d : Word := if bit w 33 then v1 else BitVec.ofNat 32 (fld w 31 0)
  if bit w 39 then s.sendLanePin n (fld w 38 34) (.phset d) else s.sendPin n (fld w 38 34) (.phset d)

/-- AMP acts (R156). -/
def actAmp (s : State) (n : Nat) (w : BitVec 64) (v1 : Word) : State :=
  s.sendPin n (fld w 39 35) (.amp (if bit w 34 then v1.truncate 16 else BitVec.ofNat 16 (fld w 15 0)))

/-- FADE acts: its request reaches the channel at its pin beat (R161, R230). -/
def actFade (s : State) (n : Nat) (w : BitVec 64) : State :=
  s.modTx n (fld w 39 38) fun x => { x with reqs := x.reqs ++ [(s.beat + 26, bit w 37)] }

/-- SEND acts (R149). -/
def actSend (s : State) (n : Nat) (w : BitVec 64) (v1 v2 : Word) : State :=
  s.postDecision n v1 v2 (BitVec.ofNat 12 (fld w 31 20)) (bit w 19) (bit w 18) false

end State

/-- FADE_REACH: the requests whose pin beat has come reach the channel: those of FADE, then the host's (R230, R231). A fade
that ends in this beat ends first. -/
def execFadeReach (n : RingId) (c : Fin 4) (s : State) : Res :=
  .next <|
    let s := s.endFade n c
    let rs := (s.tx n c).reqs.filter fun r => decide (r.1 ≤ s.beat)
    let s := s.modTx n c fun x => { x with reqs := x.reqs.filter fun r => !decide (r.1 ≤ s.beat) }
    let s := rs.foldl (fun s r => s.reachFade n c r.2 false) s
    match (s.tx n c).host, (s.tx n c).hostAt with
    | some b, some t => if t ≤ s.beat then s.reachFade n c b true else s
    | _, _ => s

/-- FADE_END: a fade ends after 8 x L samples and a pending request starts (R229). -/
def execFadeEnd (n : RingId) (c : Fin 4) (s : State) : Res := .next (s.endFade n c)

/-- TX_SETTLE_END: the MODE hold or FS ramp ends (R246). -/
def execTxSettleEnd (n : RingId) (c : Fin 4) (s : State) : Res :=
  .next <| match (s.tx n c).settleTo with
    | some t => if t ≤ s.beat then s.modTx n c fun x => { x with settleTo := none } else s
    | none => s

end Sys2Proof.Machine
end

