-- ==== Sys2Proof/Machine/Bias.lean ====
section
/-! DEFINITION. Bias outputs: the update queue, the slew limiter, span changes, the clear input and the VBIAS supply
(R250-R266). The limiter value y and the target t are in units of 1/64 LSB. -/

namespace Sys2Proof.Machine

namespace State

/-- A bias code: the signed 20-bit field of a word (R250). -/
def biasCode (v : Word) : Int := sfld v 19 0

/-- The limiter takes a new target in this beat: a step when the distance is at most STEP, or when `force` says so, a slew
otherwise (R253, R259). -/
def takeTarget (s : State) (n b : Nat) (t : Int) (force : Bool) : State :=
  let step : Int := (s.regFld (Reg.biasStep n b) 19 0 : Nat)
  s.modBias n b fun o =>
    let d := (t - o.y).natAbs
    if d = 0 then { o with t := t, mode := .rest, reachedAt := s.beat }
    else { o with t := t, mode := if force ∨ (d : Int) ≤ 64 * step then .step else .slew }

/-- CLR_N is in force, from the pin (R259) or by a shutdown or trip (R261). -/
def clrForce (s : State) : Bool := s.rst.clrN || s.rst.clrShut

/-- An entry reaches the update queue (R252): with CLR_N in force it is discarded (R260), and on a full queue it replaces the
newest. -/
def biasEntry (s : State) (n b : Nat) (code : Int) : State :=
  if s.clrForce then s.raiseFlag (Reg.biasFlags n b) 2
  else
    let full := 8 ≤ (s.biasOut n b).queue.length
    (s.modBias n b fun o => { o with queue := (if full then o.queue.dropLast else o.queue) ++ [(s.beat, code)] }).raiseIf
      full (Reg.biasFlags n b) 1

/-- The clear code becomes the target (R259); a clear move is a step when CTRL.CLR_STEP is 1, or in a hard trip (R261). -/
def clearTake (s : State) (n b : Nat) (force : Bool) : State :=
  s.takeTarget n b (64 * biasCode (s.getReg (Reg.biasClear n b))) (force || s.regBit (Reg.biasCtrl n b) 1)

/-- CLR_N comes into force at an output: its queue empties and it takes its clear code, a span change in progress at the end
of its steps 1 to 3 (R259). -/
def clearAssert (s : State) (n b : Nat) (force : Bool) : State :=
  let s := s.modBias n b fun o => { o with queue := [] }
  if (s.biasOut n b).span.isSome then s.modBias n b fun o => { o with clearEnd := true } else s.clearTake n b force

/-- Folds an operation over the 48 bias outputs. -/
def forBias (s : State) (f : Nat → Nat → State → State) : State := s.forBelow 12 fun n s => s.forBelow 4 fun b s => f n b s

/-- Whether the limiter may take the oldest entry in this beat: y = t, and the entry and the reaching of t lie in earlier beats
(R253). -/
def takeDue (s : State) (n b : Nat) : Option Int :=
  let o := s.biasOut n b
  match o.queue with
  | e :: _ =>
    if o.mode = .rest ∧ o.span = none ∧ e.1 < s.beat ∧ o.reachedAt < s.beat then some (64 * e.2) else none
  | [] => none

/-- The limiter's move of one beat (R253): `o` in the beat after. -/
def limiterBeat (s : State) (n b : Nat) (o : BiasOut) : BiasOut :=
  let rate : Int := (s.regFld (Reg.biasRate n b) 15 0 : Nat)
  match o.mode with
  | .rest => o
  | .step => { o with y := o.t }
  | .slew =>
    if ((o.t - o.y).natAbs : Int) ≤ rate then { o with y := o.t }
    else if o.y < o.t then { o with y := o.y + rate } else { o with y := o.y - rate }

/-- Step 1 of a span change has reached 0 V: the hold of step 2 begins (R257). -/
def spanHold (s : State) (n b : Nat) : State :=
  let o := s.biasOut n b
  if o.span = some .toZero ∧ o.y = 0 ∧ o.mode = .rest then
    s.modBias n b fun o => { o with span := some (.holdZero (s.beat + 1500)) }
  else s

/-- The checks of TARGET, RATE, STEP, CTRL and QCLR writes: not while the ring runs (R255). -/
def biasIdle (s : State) (n : Nat) : Err := Err.need (!s.ringRuns n) .eState

/-- The check of a TARGET write (R255, R257, R260). -/
def biasTargetCheck (s : State) (n b : Nat) : Err :=
  ((s.biasIdle n).orElse (Err.need (!s.clrForce) .eState)).orElse (Err.need (s.biasOut n b).span.isNone .eBusy)

/-- STATUS.SLEWING (R253). -/
def slewing (s : State) (n b : Nat) : Bool := decide ((s.biasOut n b).mode ≠ .rest)

/-- The check of a SPAN write (R250, R257). -/
def spanCheck (s : State) (n b : Nat) (v : Word) : Err :=
  let o := s.biasOut n b
  (((Err.need (decide (fld v 21 20 ≠ 3)) .eRange).orElse (s.biasIdle n)).orElse (Err.need (!s.clrForce) .eState)).orElse
    (Err.need (o.span.isNone && !s.slewing n b && o.queue.isEmpty) .eBusy)

/-- The effect of a SPAN write (R257): the span in force skips steps 1 to 3. -/
def spanDo (s : State) (n b : Nat) (v : Word) : State :=
  let s := s.setReg (Reg.biasSpan n b) v
  if BitVec.ofNat 2 (fld v 21 20) = (s.biasOut n b).spanNow then s.biasEntry n b (biasCode v)
  else
    ((s.modBias n b fun o =>
      { o with span := some .toZero, newSpan := BitVec.ofNat 2 (fld v 21 20), newCode := biasCode v, clearEnd := false }).takeTarget
      n b 0 false).spanHold n b

/-- An output empties its queue and sets t = y (R256, QCLR). Step 1 of a span change goes on to code 0 (R257; log entry 65). -/
def biasStop (s : State) (n b : Nat) : State :=
  s.modBias n b fun o =>
    if o.span = some .toZero then { o with queue := [] }
    else { o with queue := [], t := o.y, mode := .rest, reachedAt := s.beat }

/-- The effect of a CLEAR write (R260): with CLR_N in force the code becomes t at once. -/
def clearDo (s : State) (n b : Nat) (v : Word) : State :=
  let s := s.setReg (Reg.biasClear n b) v
  if s.clrForce then
    if (s.biasOut n b).span.isSome then s else s.clearTake n b s.hk.tripped
  else s

/-- The converter of an output takes the limiter value, truncated towards minus infinity (R254). -/
def biasSample (s : State) (n b : Nat) : State :=
  s.setReg (Reg.biasOut n b) (BitVec.ofInt 32 (Int.fdiv (s.biasOut n b).y 64))

/-- BIAS[k].STATUS (R266). -/
def biasStatus (s : State) (n b : Nat) : Word :=
  let o := s.biasOut n b
  BitVec.ofNat 32 (o.clrDefault.toNat + 2 * o.driven.toNat + 4 * (s.slewing n b).toNat + 8 * o.span.isSome.toNat +
    16 * s.clrForce.toNat + 256 * o.queue.length)

/-- What BIAS[k].TARGET reads as: the newest queued entry, else t (R266). -/
def biasTargetRead (s : State) (n b : Nat) : Word :=
  let o := s.biasOut n b
  let c : Int := (o.queue.getLast?.map (·.2)).getD (Int.fdiv o.t 64)
  BitVec.zeroExtend 32 (BitVec.ofInt 20 c)

/-- The entry of an earlier BIAS of the present beat leaves the queue of an output (R130). -/
def dropBias (s : State) (n b : Nat) : State :=
  match (s.biasOut n b).acted with
  | some e => if e.1 = s.beat then s.modBias n b fun o => { o with queue := (o.queue.reverse.erase e).reverse } else s
  | none => s

/-- BIAS acts (R159): its code enters the queue, in place of that of an earlier BIAS of the same beat (R130, R252). -/
def actBias (s : State) (n : Nat) (w : BitVec 64) (v1 : Word) : State :=
  let b := fld w 39 38
  let code := biasCode (if bit w 37 then v1 else BitVec.ofNat 32 (fld w 19 0))
  ((s.dropBias n b).biasEntry n b code).modBias n b fun o => { o with acted := if s.clrForce then none else some (s.beat, code) }

/-- MISMATCH is judged on a reading of the sensed voltage in units of 0.25 mV (R250, R265). The reading and y are compared in
units of 2^-26 of the span of 1.25 V. -/
def biasReadback (s : State) (n b : Nat) (round : Nat) (v : Int) : State :=
  let s := s.setReg (Reg.biasReadback n b) (BitVec.ofNat 16 round ++ BitVec.ofInt 16 v)
  let o := s.biasOut n b
  let thr := s.regFld (Reg.biasMismatchThr n b) 15 0
  let lim : Int := o.y * (5000 * 2 ^ o.spanNow.toNat)
  s.raiseIf (!s.slewing n b && o.span.isNone && o.driven && decide (thr * 33554432 < (v * 33554432 - lim).natAbs))
    (Reg.biasFlags n b) 0

end State

/-- BIAS_TAKE: the limiter takes the oldest queue entry (R253). Nothing happens unless it may (log entry 4). -/
def execBiasTake (n : RingId) (b : Fin 4) (s : State) : Res :=
  .next <| match s.takeDue n b with
    | some t => (s.modBias n b fun o => { o with queue := o.queue.drop 1 }).takeTarget n b t false
    | none => s

/-- BIAS_SLEW_END: y has reached t and SLEWING clears; step 1 of a span change gives way to step 2 (R253, R257). -/
def execBiasSlewEnd (n : RingId) (b : Fin 4) (s : State) : Res :=
  .next <|
    let o := s.biasOut n b
    if o.mode ≠ .rest ∧ o.y = o.t then
      (s.modBias n b fun o => { o with mode := .rest, reachedAt := s.beat }).spanHold n b
    else s

/-- SPAN_SETTLE_END: the new span comes into force, and SPAN.CODE enters the queue, or under CLR_N the clear code becomes t
(R257, R259). -/
def execSpanSettleEnd (n : RingId) (b : Fin 4) (s : State) : Res :=
  .next <|
    let o := s.biasOut n b
    match o.span with
    | some (.holdZero t) =>
      if t ≤ s.beat then
        let s := s.modBias n b fun o => { o with span := none, spanNow := o.newSpan, clearEnd := false }
        if o.clearEnd then s.clearTake n b s.hk.tripped else s.biasEntry n b o.newCode
      else s
    | _ => s

/-- CLR_N_ASSERT: CLR_N comes into force at every output (R259): the row stands for the first beat in force, 4 beats after the pin has
fallen (log entry 66). -/
def execClrNAssert (s : State) : Res :=
  .next <|
    let was := s.clrForce
    let s := { s with rst := { s.rst with clrN := true } }
    if was then s else s.forBias fun n b s => s.clearAssert n b false

/-- CLR_N_RELEASE: CLR_N is no longer in force, 4 beats after the pin has risen (R259; log entry 66); the outputs stay at their clear codes
until the next entry (R260). -/
def execClrNRelease (s : State) : Res := .next { s with rst := { s.rst with clrN := false } }

/-- VBIAS_LOSS: every output goes to high impedance and empties its queue (R263). -/
def execVbiasLoss (s : State) : Res :=
  .next <| ({ s with rst := { s.rst with vbiasOk := false } }).forBias fun n b s =>
    (s.modBias n b fun o => { o with driven := false, queue := [], span := none, mode := .rest }).raiseFlag
      (Reg.biasFlags n b) 5

/-- VBIAS_VALID: every output drives code 0 in its present span and moves to its clear code (R262, R263), which is 0 until NVM
has been read. -/
def execVbiasValid (s : State) : Res :=
  .next <| ({ s with rst := { s.rst with vbiasOk := true } }).forBias fun n b s =>
    (s.modBias n b fun o => { o with driven := true, y := 0, t := 0, mode := .rest, span := none }).clearTake n b false

/-- BIAS_SAMPLE_TICK: a tick of the ring's grid, S' + 60 j (R254). Nothing happens in another beat (log entry 4). -/
def execBiasSampleTick (n : RingId) (b : Fin 4) (s : State) : Res :=
  .next <| if (s.beat - (s.seq n).gridAt) % 60 = 0 then s.biasSample n b else s

/-- BIAS_CURRENT_LIMIT_OR_SENSE_OPEN: the flags of a beat in which the output limits its current, or its force and sense
differ by more than 100 mV (R264). -/
def execBiasCurrentLimitOrSenseOpen (n : RingId) (b : Fin 4) (ilim senseOpen : Bool) (s : State) : Res :=
  .next ((s.raiseIf ilim (Reg.biasFlags n b) 4).raiseIf senseOpen (Reg.biasFlags n b) 3)

end Sys2Proof.Machine
end

