-- ==== Sys2Proof/Machine/Operands.lean ====
section
/-! DEFINITION. The Zwiec instruction word: fields, wait conditions, register numbers and legality (R119, R132-R135, R136,
R139, R144, R150, R163). -/

namespace Sys2Proof.Machine

/-- OP (R119). -/
def zOp (w : BitVec 64) : Nat := fld w 63 58
/-- MODE (R119). -/
def zMode (w : BitVec 64) : Nat := fld w 57 56
/-- T (R119). -/
def zT (w : BitVec 64) : Nat := fld w 55 40
/-- Whether an instruction is an action instruction: OP[5] (R122). -/
def zAction (w : BitVec 64) : Bool := bit w 63

/-- A wait condition is defined: its kind is known and its reserved and range rules hold (R134). -/
def condLegal (c : Nat) : Bool :=
  let a := c % 0x1000
  match c / 0x1000 with
  | 0 | 1 => decide (a / 0x100 = 0 ∧ a % 32 + (a / 32 % 8 + 1) ≤ 32)
  | 2 => decide (a / 16 = 0)
  | 3 => decide (a / 16 = 0)
  | 4 => decide (a / 0x200 = 0 ∧ 1 ≤ a / 4 % 128 ∧ a / 4 % 128 ≤ 64)
  | 5 => decide (a ≤ 63)
  | _ => false

/-- The timing field of an instruction is legal: MODE 0 with T = 0, MODE 1 or 2, or MODE 3 with a defined condition (R135). -/
def zTimingLegal (w : BitVec 64) : Bool :=
  match zMode w with
  | 0 => decide (zT w = 0)
  | 3 => condLegal (zT w)
  | _ => true

/-- A value field `[hi:0]` under G: with G = 1 only the g index in [3:0] (R150). -/
def gField (w : BitVec 64) (g hi : Nat) : Bool := !bit w g || decide (fld w hi 4 = 0)

/-- The operands of an instruction keep the formats and ranges of R136, R139, R144, R150 and R163. Ring and state rules (the
call stack, the own ring in a mask, the owner of a marker) are judged at issue. -/
def zOperandsLegal (w : BitVec 64) : Bool :=
  let z := fun hi lo => decide (fld w hi lo = 0)
  let rd := fld w 39 35
  match zOp w with
  | 0x00 | 0x01 | 0x02 | 0x0A => z 39 0
  | 0x03 => z 39 33 && gField w 32 31
  | 0x04 => condLegal (fld w 39 24) && z 23 21 && z 15 15
  | 0x05 => z 39 12
  | 0x06 => z 35 16
  | 0x08 => decide (fld w 39 36 ≤ 0xD) && z 35 15
  | 0x09 => z 39 15
  | 0x0B => z 16 15
  | 0x0C => z 37 15
  | 0x0D => decide (fld w 39 35 ≤ 28) && z 27 26
  | 0x0E => decide (fld w 35 31 + fld w 30 28 + 1 ≤ 32) && z 20 15
  | 0x10 => decide (rd ≤ 19) && z 34 32
  | 0x11 => decide (rd ≤ 19) && z 30 20
  | 0x12 => z 31 20
  | 0x13 | 0x14 | 0x15 | 0x16 | 0x17 | 0x18 | 0x19 =>
    decide (rd ≤ 19) && decide (fld w 34 30 ≤ 25) && (bit w 29 || (decide (fld w 28 24 ≤ 25) && z 23 0))
  | 0x1A => decide (rd = 0) && decide (fld w 34 30 ≤ 25) && (bit w 29 || (decide (fld w 28 24 ≤ 25) && z 23 0))
  | 0x20 => z 18 0
  | 0x21 => decide (4 ≤ fld w 32 17) && decide (fld w 13 11 ≤ 4) && z 10 0 &&
      decide (fld w 32 17 * 8 % 2 ^ fld w 13 11 = 0)
  | 0x22 => z 32 0 && (!bit w 34 || z 39 35)
  | 0x23 => gField w 33 31 && (!bit w 32 || (bit w 33 && decide (fld w 3 0 % 2 = 0 ∧ fld w 3 0 < 14)))
  | 0x24 | 0x25 => z 32 32 && gField w 33 31
  | 0x26 => z 33 16 && gField w 34 15
  | 0x27 => decide (4 ≤ fld w 34 19) && z 16 0
  | 0x28 => z 6 0 && (decide (fld w 22 7 ≠ 0xFFFF) || z 34 23)
  | 0x29 => z 36 20 && gField w 37 19
  | 0x2A => decide (fld w 32 31 ≤ 2) && z 30 0
  | 0x2B => decide (fld w 36 35 ≤ 1) && z 33 16 && gField w 34 15 &&
      (bit w 34 || (if fld w 36 35 = 0 then decide (fld w 15 0 ≤ 4095) else decide (1 ≤ fld w 15 0)))
  | 0x2C => z 36 0
  | 0x2D => z 17 0
  | 0x2E => z 39 17
  | _ => false

/-- The register numbers an instruction names, as operands or as a destination (R126, R133): an LD that has not written one of
them yet holds the instruction. -/
def zUses (w : BitVec 64) : List Nat :=
  let g := fun (b : Bool) (x : Nat) => if b then [x] else []
  let c := fun (c : Nat) => if c / 0x1000 = 3 then [c % 16] else []
  let timing := if zMode w = 3 then c (zT w) else []
  timing ++
  match zOp w with
  | 0x03 => g (bit w 32) (fld w 3 0)
  | 0x04 => c (fld w 39 24) ++ g (bit w 20) (fld w 19 16)
  | 0x0B => (16 + fld w 39 38) :: g (bit w 37) (fld w 36 33)
  | 0x0C => [16 + fld w 39 38]
  | 0x0D => g (bit w 32) (fld w 31 28)
  | 0x0E => fld w 39 36 :: g (bit w 25) (fld w 24 21)
  | 0x10 => [fld w 39 35]
  | 0x11 => [fld w 39 35, fld w 34 31]
  | 0x12 => [fld w 39 36, fld w 35 32]
  | 0x13 | 0x14 | 0x15 | 0x16 | 0x17 | 0x18 | 0x19 => fld w 39 35 :: fld w 34 30 :: g (!bit w 29) (fld w 28 24)
  | 0x1A => fld w 34 30 :: g (!bit w 29) (fld w 28 24)
  | 0x23 => g (bit w 33) (fld w 3 0) ++ g (bit w 32) (fld w 3 0 + 1)
  | 0x24 | 0x25 => g (bit w 33) (fld w 3 0)
  | 0x26 | 0x2B => g (bit w 34) (fld w 3 0)
  | 0x29 => g (bit w 37) (fld w 3 0)
  | 0x2D => [fld w 39 36, fld w 35 32]
  | _ => []

/-- A BR condition on st (R140). -/
def brTaken (st : Word) (c : Nat) : Bool :=
  let z := bit st 0
  let n := bit st 1
  let cy := bit st 2
  let v := bit st 3
  match c with
  | 0x0 => true
  | 0x1 => z
  | 0x2 => !z
  | 0x3 => n != v
  | 0x4 => n == v
  | 0x5 => !z && n == v
  | 0x6 => z || n != v
  | 0x7 => !cy
  | 0x8 => cy
  | 0x9 => n
  | 0xA => !n
  | 0xB => bit st 4
  | 0xC => bit st 5
  | 0xD => bit st 6
  | _ => false

end Sys2Proof.Machine
end

