-- ==== Sys2Proof/Machine/JugIn.lean ====
section
/-! DEFINITION. What reaches a Juggler from its lanes and its ring: results with their ready bits, and interrupts (R319-R321,
R330). -/

namespace Sys2Proof.Machine

namespace State

/-- Interrupt source `i` sets its pending bit (R330). -/
def jugPend (s : State) (n i : Nat) : State := s.modJug n fun j => { j with ipend := putBit j.ipend i true }

/-- A coarse result arrives for lane `l` (R320, R321). -/
def jugCoarse (s : State) (n l : Nat) (res info : Word) : State :=
  let s := s.modJug n fun j => { j with
    arr := (l, j.cres.getD l 0, j.cres.getD l 0, bit j.crdy l) :: j.arr
    cres := j.cres.set l res, rinfo := j.rinfo.set l info, crdy := putBit j.crdy l true }
  if bit (s.getReg (Reg.jugImc n)) l then s.jugPend n 0 else s

/-- A fine result arrives for lane `l` (R320, R321). -/
def jugFine (s : State) (n l : Nat) (fi fq : Word) : State :=
  let s := s.modJug n fun j => { j with
    arr := (32 + l, j.fresI.getD l 0, j.fresQ.getD l 0, bit j.frdy l) :: j.arr
    fresI := j.fresI.set l fi, fresQ := j.fresQ.set l fq, frdy := putBit j.frdy l true }
  if bit (s.getReg (Reg.jugImf n)) l then s.jugPend n 1 else s

/-- At the end of a beat, a result that replaced an unread one whose ready bit nothing cleared in the beat sets RES_OVERRUN
(R321). -/
def jugOverruns (s : State) (n : Nat) : State :=
  let late := (s.jug n).arr.filter (·.2.2.2)
  (late.foldl (fun s _ => s.raiseFlag (Reg.jugFlags n) 2) s).modJug n fun j => { j with arr := [] }

end State

end Sys2Proof.Machine
end

