-- ==== Sys2Proof/Machine/Nco.lean ====
section
/-! DEFINITION. Sines and cosines of the oscillators, the raised-cosine window, and the conversion of a voltage to a code (R16, R213, R278,
R569, R570): the nominal value in exact integers, and within a bound what the spec leaves open (log entries 9 and 10). -/

namespace Sys2Proof.Machine

/-- A quotient rounded half up. -/
def roundDiv (x d : Int) : Int := Int.fdiv (2 * x + d) (2 * d)

/-- One turn of an angle, 2 pi, with 62 fractional bits. -/
def turn62 : Int := 28976077832308491369

/-- The cosine of `k / d` of a turn, up to a quarter, with 62 fractional bits: 14 terms of its series. -/
def cosQuarter (k d : Nat) : Int :=
  let a := turn62 * k / d
  let q := a * a / 2 ^ 62
  ((List.range 14).foldl (fun (p : Int × Int) i =>
    let t := -(p.1 * q / 2 ^ 62) / (((2 * i + 1) * (2 * i + 2) : Nat) : Int)
    (t, p.2 + t)) (2 ^ 62, 2 ^ 62)).2

/-- The cosine of a 20-bit phase, with 62 fractional bits; exact at the quarters of the turn. -/
def cosPhase (p : Nat) : Int :=
  let r := p % 2 ^ 18
  let up := if r = 0 then 0 else cosQuarter (2 ^ 18 - r) (2 ^ 20)
  let down := if r = 0 then 2 ^ 62 else cosQuarter r (2 ^ 20)
  match p / 2 ^ 18 % 4 with
  | 0 => down
  | 1 => -up
  | 2 => -down
  | _ => up

/-- The sine of a 20-bit phase, as the cosine a quarter of a turn earlier. -/
def sinPhase (p : Nat) : Int := cosPhase (p + 3 * 2 ^ 18)

/-- A value with 62 fractional bits at full scale `k`, rounded to the nearest integer; within 1/256 of the middle between two integers, either
one. So a cycle of 256 phases or more has no spur above those of R213 and R278 (DEDUCED, log entry 9: the spec gives the width and no
rounding). -/
def nextTo (k x : Int) (up : Bool) : Int :=
  let y := k * x
  let n := Int.fdiv y (2 ^ 62)
  let part := y - n * 2 ^ 62
  if part + 2 ^ 54 < 2 ^ 61 then n else if 2 ^ 61 + 2 ^ 54 < part then n + 1 else if up then n + 1 else n

/-- The cosine of a voice's NCO: 18 bits with 16 fractional bits (R213). -/
def voiceCos (ph : BitVec 20) : Int := nextTo 65536 (cosPhase ph.toNat) (Config.ncoUp false false ph)
/-- The sine of a voice's NCO (R213). -/
def voiceSin (ph : BitVec 20) : Int := nextTo 65536 (sinPhase ph.toNat) (Config.ncoUp false true ph)
/-- The cosine of a lane's NCO: 16 bits of magnitude at most 32,767 (R278). -/
def laneCos (ph : BitVec 20) : Int := nextTo 32767 (cosPhase ph.toNat) (Config.ncoUp true false ph)
/-- The sine of a lane's NCO (R278). -/
def laneSin (ph : BitVec 20) : Int := nextTo 32767 (sinPhase ph.toNat) (Config.ncoUp true true ph)

/-- (1 + cos (pi j / 192)) / 2 with 16 fractional bits, rounded half up: the fall of the window up to the end of sample `j - 1` (R16). -/
def cosineFall (j : Nat) : Int :=
  let c := if j ≤ 96 then cosQuarter j 384 else -cosQuarter (192 - j) 384
  roundDiv (2 ^ 62 + c) (2 ^ 47)

/-- The window's weight of sample `j` of 192, with 16 fractional bits (R16): the raised cosine somewhere within the sample (DESIGN CHOICE, log
entry 9). -/
def rampWeight (j : Nat) : Int :=
  let lo := cosineFall (j + 1)
  lo + Config.rampWithin j % (cosineFall j - lo + 1)

/-- The code of a differential voltage at the RX pins, in nanovolts: round_half_up(v / 0.5 V x 2,048), saturated (R569). -/
def rxConvert (v : Int) : Int := sat 12 (roundDiv (v * 2048) 500000000)

/-- The code of a loopback sample between TX samples of codes `x` and `y` at FS code `fs` (R271, R570): a value between the two, at the
coupler's -20 dB within 1 dB, that is `x` (FS / 20 mA) / 160 nominally, with the noise of R560 added, which is taken to stay within 16 codes
(log entry 10). -/
def loopConvert (r c b i : Nat) (x y : Int) (fs : Nat) : Int :=
  let t : Int := Config.loopWithin r b i % 65537
  let g : Int := 891251 + Config.loopGain r c % 230768
  let noise : Int := Config.loopNoise r b i % 2097153 - 1048576
  sat 12 (roundDiv ((x * (65536 - t) + y * t) * (64 + fs : Nat) * g + noise * 25600000000) (25600 * 65536 * 1000000))

end Sys2Proof.Machine
end

