-- ==== Sys2Proof/Machine/Receive.lean ====
section
/-! DEFINITION. The receive path: RX channels and overload, lanes from the mixer to the integrator, windows, results, records
and raw capture (R267-R304). -/

namespace Sys2Proof.Machine

/-! ### Exact arithmetic of a lane -/

/-- Sums of `m` consecutive entries of a list: the moving sum (1 - z^-m) / (1 - z^-1). -/
def movingSum (m : Nat) (xs : List Int) : List Int :=
  if xs.length < m then []
  else (List.range (xs.length + 1 - m)).map fun i => ((xs.drop i).take m).sum

/-- The CIC response of order `n` and decimation `m` to samples given newest first (R279, R280): the moving sum applied `n`
times, which is what integrators and combs modulo 2^56 give. -/
def cic (n m : Nat) (xs : List Int) : Int :=
  ((movingSum m)^[n] (xs.take (n * (m - 1) + 1))).headD 0

/-- The normalised comb output y (R280), with `m = 2^g` and G = n g. -/
def cicOut (n g : Nat) (xs : List Int) : Int :=
  let c := cic n (2 ^ g) xs
  if n * g ≤ 8 then c * 2 ^ (8 - n * g) else roundShift c (n * g - 8)

/-- The compensation constants a and b of an order (R282). -/
def compConst (n : Nat) : Int × Int := if n = 3 then (20480, 2048) else if n = 4 then (21846, 2731) else (23210, 3413)

/-- The coefficients h0 to h3 of the phase delay for STEPS = `k` (R283), with 14 fractional bits; h0, h2 and h3 are rounded
half up from cubics in `k / 64`, and h1 makes the sum 2^14. -/
def lagrange (k : Int) : Int × Int × Int × Int :=
  let r := fun x : Int => Int.fdiv (2 * x + 96) 192
  let h0 := r (-(k * (k - 64) * (k - 128)))
  let h2 := r (-3 * ((64 + k) * k * (k - 128)))
  let h3 := r ((64 + k) * k * (k - 64))
  (h0, 16384 - h0 - h2 - h3, h2, h3)

/-- A value saturated to `k` bits and whether that changed it. -/
def satTell (k : Nat) (x : Int) : Int × Nat := (sat k x, if fits k x then 0 else 1)

/-- A lane's filter settings: order N, log2 of M, COMP, STEPS (R279, R282, R283). -/
structure LaneCfg where
  n : Nat
  g : Nat
  comp : Bool
  steps : Nat
  deriving DecidableEq, Repr

/-- The compensated output u of one component, `i` outputs before the newest, with its saturation (R282). -/
def laneU (c : LaneCfg) (xs : List Int) (i : Nat) : Int × Nat :=
  let y := fun k => cicOut c.n c.g (xs.drop ((i + k) * 2 ^ c.g))
  let (a, b) := compConst c.n
  satTell 24 (if c.comp then roundShift (-b * y 0 + a * y 1 - b * y 2) 14 else y 1)

/-- The output v of one component (R283), and the saturations met: those of v and of u, also those of the three earlier u when
`first` says that no output before has counted them. -/
def laneV (c : LaneCfg) (xs : List Int) (first : Bool) : Int × Nat :=
  let us := (List.range 4).map (laneU c xs)
  let (h0, h1, h2, h3) := lagrange c.steps
  let x := fun i => (us.getD i (0, 0)).1
  let (v, sv) := satTell 24 (roundShift (h0 * x 0 + h1 * x 1 + h2 * x 2 + h3 * x 3) 14)
  (v, sv + if first then (us.map (·.2)).sum else (us.getD 0 (0, 0)).2)

/-- LENGTH of a window: the beats it integrates (R292, R293). -/
def Win.used (w : Win) : Nat := w.closeAt - w.act - 26

namespace State

/-! ### RX channels -/

/-- A TX channel holds the balanced state, carries no current, or ramps (R244-R246, R486, R520). -/
def txBalanced (s : State) (n c : Nat) : Bool :=
  !s.regBit (Reg.txCtrl n c) 0 || (s.tx n c).settleTo.isSome || s.rst.relockTo.isSome || decide ((s.tx n c).out ≠ .live)

/-- The codes of the other TX channel samples that a loopback sees (R271): the TX code of sample `i` of pin beat `P`. -/
def txCode (s : State) (n c P i : Nat) : Int :=
  if s.txBalanced n c then 0 else (((s.tx n c).codes.find? fun e => e.1 = P).map fun e => e.2.getD i 0).getD 0

/-- Whether the converter of a channel delivers samples: powered, enabled and settled (R270, R486). -/
def rxLive (s : State) (n r : Nat) : Bool := s.hk.powered && s.regBit (Reg.rxCtrl n r) 0 && (s.rx n r).ready

/-- The codes of the four samples of RX pin beat `P` (R267, R270, R271, R569, R570): signals present together add before conversion. In
mix-mode a TX sample ends inverted (R239). -/
def rxCodes (s : State) (n r P : Nat) : List Int :=
  let ctl := s.getReg (Reg.rxCtrl n r)
  if ¬ s.rxLive n r then [0, 0, 0, 0]
  else (List.range 4).map fun i =>
    if bit ctl 10 then
      let c := fld ctl 9 8
      let fs := s.regFld (Reg.txFs n c) 7 0
      let x := fun k => if i = 0 then s.txCode n c (P - 1) (6 + k) else s.txCode n c P (2 * i - 2 + k)
      loopConvert (2 * n + r) c P i (if s.regFld (Reg.txCtrl n c) 5 4 = 1 then -x 0 else x 0) (x 1) fs
    else rxConvert (Config.rxSignals (2 * n + r) P i).sum

/-- Whether a list of codes holds a clipped sample (R272). -/
def clipped (cs : List Int) : Bool := cs.any fun c => c == 2047 || c == -2048

/-- Whether recent pin beat `P` of a channel holds a clipped sample. -/
def clippedAt (s : State) (n r P : Nat) : Bool :=
  (s.rx n r).hist.any fun e => e.1 == P && clipped e.2

/-- An overload `(f, E)` of the own channel makes pin beat `P` clipped or recovering (R273). -/
def ownRecov (lo hi : Nat) (o : Nat × Option Nat) : Bool :=
  match o.2 with
  | none => decide (o.1 ≤ hi)
  | some e => decide (o.1 ≤ hi ∧ lo ≤ e + 1)

/-- An overload of another channel of the die makes some pin beat from `lo` to `hi` recovering (R273). -/
def nbrRecov (lo hi : Nat) (o : Nat × Option Nat) : Bool :=
  match o.2 with
  | none => decide (o.1 ≤ hi)
  | some e => decide (o.1 ≤ hi ∧ lo ≤ e + 15)

/-- The other RX channels of a channel's converter die (R11, R273). -/
def dieOthers (n r : Nat) : List (Nat × Nat) :=
  (((List.range 3).map fun i => 3 * (n / 3) + i).flatMap fun m => [(m, 0), (m, 1)]).filter fun p => p ≠ (n, r)

/-- Whether pin beats `lo` to `hi` of a channel hold a clipped or recovering sample (R274). -/
def rxOvr (s : State) (n r lo hi : Nat) : Bool :=
  (s.rx n r).ovl.any (ownRecov lo hi) ||
    (dieOthers n r).any fun p => (s.rx p.1 p.2).ovl.any (nbrRecov lo hi)

/-- RX[r].STATUS (R303): the overload bits are those of the pin beat 12 beats ago. -/
def rxStatus (s : State) (n r : Nat) : Word :=
  let P := s.beat - 12
  let spare := ((List.range 49).find? fun x => !(s.cal.rx.getD (2 * n + r) {}).slots.contains x).getD 48
  let own := (s.rx n r).ovl.any fun o => match o.2 with | none => false | some e => decide (e ≤ P ∧ P ≤ e + 1)
  let nbr := (dieOthers n r).any fun p => (s.rx p.1 p.2).ovl.any (nbrRecov P P)
  BitVec.ofNat 32 ((s.rx n r).ready.toNat + 2 ^ 16 * spare + 2 ^ 29 * nbr.toNat + 2 ^ 30 * own.toNat +
    2 ^ 31 * (s.clippedAt n r P && decide (12 ≤ s.beat)).toNat)

/-- The check of an RX CTRL write (R268, R270). -/
def rxCtrlCheck (s : State) (n : Nat) (v : Word) : Err :=
  (Err.need (decide (fld v 5 4 ≠ 3)) .eRange).orElse (Err.need (!s.ringRuns n) .eState)

/-- The effect of an RX CTRL write (R270): enabling, or a zone change while enabled, clears READY for 15,000 beats. -/
def rxCtrlDo (s : State) (n r : Nat) (v : Word) : State :=
  let old := s.getReg (Reg.rxCtrl n r)
  let s := s.setReg (Reg.rxCtrl n r) v
  if ¬ bit v 0 then s.modRx n r fun x => { x with ready := false, readyAt := none }
  else if ¬ bit old 0 ∨ fld old 5 4 ≠ fld v 5 4 then
    s.modRx n r fun x => { x with ready := false, readyAt := some (s.beat + 15000) }
  else s

/-! ### Raw capture -/

/-- RAW_STATUS.STATE (R299). -/
def rawCode : CapState → Nat
  | .idle => 0 | .armed => 1 | .capturing => 2 | .full => 3 | .pushing => 4

/-- The address of raw-capture buffer `r` of ring `n` (R298). -/
def rawAddr (n r : Nat) : Nat := ringMem n + 0x800000 + 0x40000 * r

/-- A capture starts at pin beat `P` (R300). -/
def startCapture (s : State) (n r P : Nat) : State :=
  let len := s.regFld (Reg.rxRawCtrl n r) 15 0
  let s := s.modRx n r fun x => { x with raw := .capturing, cap := some { start := P, len := len }, pushPos := 0 }
  ((s.addReg (Reg.rxRawNum n r) 1).setReg64 (Reg.rxRawBeatLo n r) (BitVec.ofNat 64 P)).setReg (Reg.rxRawStatus n r) 0

/-- The windows of a channel's lanes that the ACQs of the present beat have opened with RAW = 1. -/
def rawWindows (s : State) (n r : Nat) : Nat :=
  ((List.range 16).map fun i => ((s.lane n (16 * r + i)).wins.filter fun w => decide (w.act = s.beat) && w.raw).length).sum

/-- The ACQs with RAW = 1 that have acted on a channel in a beat (R292, R300): together they start one capture, each sets RAW_MISS where
the buffer is not ARMED. -/
def rawAcq (s : State) (n r : Nat) : State :=
  let k := s.rawWindows n r
  if k = 0 then s
  else if (s.rx n r).raw = .armed then s.startCapture n r (s.beat + 6)
  else (List.range k).foldl (fun s _ => s.raiseFlag (Reg.rxFlags n r) 2) s

/-- The codes of pin beat `P` go into the buffer of a running capture (R298, R300). -/
def captureBeat (s : State) (n r P : Nat) (cs : List Int) : State :=
  match (s.rx n r).cap with
  | some c =>
    if c.start ≤ P ∧ P < c.start + c.len then
      let v := cs.foldr (fun x acc => (BitVec.ofInt 12 x).toNat + 4096 * acc) 0
      let s := s.rtStore (rawAddr n r + 6 * (P - c.start)) (leBytes 6 v)
      let s := s.setFld (Reg.rxRawStatus n r) 31 16 (P - c.start + 1)
      if clipped cs then s.setBit (Reg.rxRawStatus n r) 8 true else s
    else s
  | none => s

/-- RX[r].RAW_STATUS (R303). -/
def rawStatus (s : State) (n r : Nat) : Word := putFld (s.getReg (Reg.rxRawStatus n r)) 2 0 (rawCode (s.rx n r).raw)

/-- The check of a RAW_CMD write (R299, R303). -/
def rawCmdCheck (s : State) (n r : Nat) (v : Word) : Err :=
  let st := (s.rx n r).raw
  (Err.need (decide (popCount v 3 ≤ 1)) .eRange).orElse <|
    if bit v 0 then Err.need (decide (st ≠ .capturing ∧ st ≠ .pushing)) .eBusy
    else if bit v 1 ∨ bit v 2 then Err.need (decide (st = .armed)) .eState
    else .ok

/-- The effect of a RAW_CMD write (R299). -/
def rawCmdDo (s : State) (n r : Nat) (v : Word) : State :=
  if bit v 0 then s.modRx n r fun x => { x with raw := .armed }
  else if bit v 1 then s.startCapture n r (s.beat + 6)
  else if bit v 2 then s.modRx n r fun x => { x with raw := .idle }
  else s

/-- The check of a RAW_CTRL write (R302, R303). -/
def rawCtrlCheck (s : State) (n r : Nat) (v : Word) : Err :=
  let st := (s.rx n r).raw
  ((Err.need (decide (1 ≤ fld v 15 0 ∧ fld v 15 0 ≤ 43690)) .eRange).orElse
    (Err.need (decide (st ≠ .armed ∧ st ≠ .capturing ∧ st ≠ .pushing)) .eState)).orElse
    (Err.need (!bit v 16 || (s.session (fld v 22 20)).isOpen) .eState)

/-- Keeping a class C frame under thermal reduction (R470, R484): the running sum in twentieths, and whether the frame is
kept. -/
def thin (s : State) (sum : Nat) : Bool × Nat :=
  let x := sum + s.regFld Reg.throttleR 4 0
  if 20 ≤ x then (true, x - 20) else (false, x)

/-- One frame of a PUSHING buffer (R301). -/
def pushRaw (s : State) (n r : Nat) : State :=
  let x := s.rx n r
  let ctl := s.getReg (Reg.rxRawCtrl n r)
  let g := 2 * n + r
  let total := s.regFld (Reg.rxRawStatus n r) 31 16
  let per := if s.pushJumbo (s.pushPorts (fld ctl 22 20)) then 1360 else 232
  let k := min per (total - x.pushPos)
  let isLast := decide (total ≤ x.pushPos + k)
  let body := s.load (rawAddr n r + 6 * x.pushPos) (6 * k)
  let s := s.eccRead (rawAddr n r + 6 * x.pushPos) (6 * k)
  let data := leBytes 4 (s.getReg (Reg.rxRawNum n r)).toNat ++ leBytes 4 x.pushPos ++ leBytes 2 k ++
    [BitVec.ofNat 8 (isLast.toNat + 2 * (s.regBit (Reg.rxRawStatus n r) 8).toNat), BitVec.ofNat 8 g] ++
    leBytes 4 (s.getReg (Reg.rxRawBeatLo n r)).toNat ++ body ++ List.replicate ((4 - body.length % 4) % 4) 0
  let (keep, sum) := s.thin x.rawSum
  let (q, s) := s.nextSeqNo 2 g
  let s := if keep then s.pushClassC (fld ctl 22 20) [classData 2 g q data] else s
  s.modRx n r fun x => { x with
    rawSum := sum
    pushPos := x.pushPos + k }

/-- A frame of a raw buffer waits for the MAC of a port. -/
def rawQueued (s : State) (g : Nat) : Bool :=
  s.ports.any fun e => e.egress.any fun f => decide (f.cls = .classC) && f.ops.any fun o => o.addr == BitVec.ofNat 32 (2 + 256 * g)

/-- The last frame of a PUSHING buffer has been made. -/
def rawMade (s : State) (n r : Nat) : Bool :=
  decide ((s.rx n r).raw = .pushing ∧ s.regFld (Reg.rxRawStatus n r) 31 16 ≤ (s.rx n r).pushPos)

/-- The end of a beat of a buffer whose frames have all been made (R301): when the last one has been handed to the MAC, or has been
dropped, the buffer is ARMED or FULL. -/
def rawHandOver (s : State) (n r : Nat) : State :=
  if s.rawMade n r ∧ ¬ s.rawQueued (2 * n + r) then
    s.modRx n r fun x => { x with raw := if s.regBit (Reg.rxRawCtrl n r) 23 then .armed else .full }
  else s

/-! ### Lanes -/

/-- The lane's settings (R304). -/
def laneCfg (s : State) (n l : Nat) : LaneCfg :=
  let c := s.getReg (Reg.laneCfg n l)
  { n := 3 + fld c 1 0, g := 2 + fld c 6 4, comp := bit c 8, steps := s.regFld (Reg.lanePdly n l) 5 0 }

/-- D of a lane (R279). -/
def laneDec (s : State) (n l : Nat) : Nat := 2 ^ s.regFld (Reg.laneCfg n l) 6 4

/-- The lane's frequency word F. -/
def laneFreq (s : State) (n l : Nat) : Nat := (s.getReg64 (Reg.laneFreqLo n l)).toNat

/-- How far an accumulator with word `f` moves from sample 0 of pin beat `p` to sample 0 of pin beat `q`, with `r` samples a
beat and the frequency changes in flight (R212, R277): a new word takes the step into sample 0 of its pin beat. -/
def advance (r f : Nat) : List PinOp → Nat → Nat → Nat
  | [], p, q => r * f * (q - p)
  | o :: t, p, q =>
    match o.kind with
    | .frq g => if p < o.at_ ∧ o.at_ ≤ q then f * (r * (o.at_ - p) - 1) + g.toNat + advance r g.toNat t o.at_ q
      else advance r f t p q
    | _ => advance r f t p q

/-- A change acts on the lane at its RX pin beat (R277). -/
def lanePin (s : State) (n l : Nat) (o : PinOp) : State :=
  match o.kind with
  | .frq f =>
    let x := s.lane n l
    let a := x.acc.toNat + advance 4 (s.laneFreq n l) [o] x.accAt o.at_
    (s.modLane n l fun x => { x with acc := BitVec.ofNat 48 a, accAt := o.at_ }).setReg64 (Reg.laneFreqLo n l)
      (f.zeroExtend 64)
  | .phs d => s.setReg (Reg.lanePhase n l) (s.getReg (Reg.lanePhase n l) + d)
  | .phset p => s.setReg (Reg.lanePhase n l) p
  | .amp _ | .zero => s

/-- A start in beat `S` sets the accumulator of a lane so that it holds 0 for sample 0 of RX pin beat S + 26, by the frequency word in force
and the changes on their way; from then on it goes on as ever (R276; log entry 22). -/
def zeroLane (s : State) (n l S : Nat) : State :=
  let f := s.laneFreq n l
  s.modLane n l fun x => { x with acc := BitVec.ofNat 48 (2 ^ 48 - advance 4 f x.pins S (S + 26) % 2 ^ 48), accAt := S }

/-- The changes whose pin beat has come act on the lane (R276, R277). -/
def lanePins (s : State) (n l P : Nat) : State :=
  let x := s.lane n l
  let s := (x.pins.filter fun o => decide (o.at_ ≤ P)).foldl (fun s o => s.lanePin n l o) s
  s.modLane n l fun x => { x with pins := x.pins.filter fun o => !decide (o.at_ ≤ P) }

/-- The accumulator for sample 0 of RX pin beat `P` (R276). -/
def laneAcc (s : State) (n l P : Nat) : Nat :=
  let x := s.lane n l
  (x.acc.toNat + 4 * s.laneFreq n l * (P - x.accAt)) % 2 ^ 48

/-- The mixed samples of RX pin beat `P`, newest first (R278). -/
def laneMix (s : State) (n l P : Nat) (cs : List Int) : List (Int × Int) :=
  let a := s.laneAcc n l P
  let f := s.laneFreq n l
  let frame := (s.getReg (Reg.lanePhase n l)).toNat * 2 ^ 16
  ((List.range 4).map fun i =>
    let ph := BitVec.ofNat 20 ((a + i * f + frame) % 2 ^ 48 / 2 ^ 28)
    let x := cs.getD i 0
    (roundShift (x * laneCos ph) 11, roundShift (-x * laneSin ph) 11)).reverse

/-- The kernel weight of tap `t` for a window (R286): none where the index lies past the region. -/
def kernelTap (s : State) (n l : Nat) (w : Win) (t : Nat) : Option (Int × Int) :=
  if w.num = 0xFFFF ∧ w.base = 0 then some (32768, 0)
  else if 4096 ≤ t then none
  else
    let x := s.loadWord (ringMem n + 0x500000 + 0x4000 * l + 4 * t)
    some (sfld x 15 0, sfld x 31 16)

/-- The output of window `w` whose newest sample is sample 3 of pin beat `P` sets out for the integrator (R281, R285). -/
def laneOutput (s : State) (n l P : Nat) (w : Win) : State × Win :=
  let d := s.laneDec n l
  let j := w.fifo.length + w.n
  if ¬ w.closed ∧ P = w.act + 5 + (j + 1) * d ∧ (j + 1) * d ≤ w.used then
    let xs := (s.lane n l).mix
    let c := s.laneCfg n l
    let (vi, si) := laneV c (xs.map (·.1)) (j == 0)
    let (vq, sq) := laneV c (xs.map (·.2)) (j == 0)
    match s.kernelTap n l w (w.base + j) with
    | some k =>
      let s := if w.num = 0xFFFF ∧ w.base = 0 then s else s.rtRead (ringMem n + 0x500000 + 0x4000 * l + 4 * (w.base + j)) 4
      (s, { w with fifo := w.fifo ++ [(P + 20, k, (vi, vq), si + sq)] })
    | none => (s.raiseFlag (Reg.laneFlags n l) 4, { w with fifo := w.fifo ++ [(P + 20, (0, 0), (vi, vq), si + sq)] })
  else (s, w)

/-- The outputs that reach the integrator in beat `b` are added to the sums (R288, R289). -/
def laneAdd (b : Nat) (w : Win) : Win × Nat :=
  (w.fifo.filter fun e => decide (e.1 ≤ b)).foldl (fun (p : Win × Nat) e =>
    let (_, (wi, wq), (vi, vq), k) := e
    let h := fun x : Int => Int.fdiv x 256
    ({ p.1 with
        n := p.1.n + 1
        accI := p.1.accI + (wi * vi - wq * vq)
        accQ := p.1.accQ + (wi * vq + wq * vi)
        cI := p.1.cI + (h wi * h vi - h wq * h vq)
        cQ := p.1.cQ + (h wi * h vq + h wq * h vi) }, p.2 + k))
    ({ w with fifo := w.fifo.filter fun e => !decide (e.1 ≤ b) }, 0)

/-- One beat of a lane at RX pin beat `P`, with the codes of its channel. -/
def laneBeat (s : State) (n l P : Nat) (cs : List Int) : State :=
  let s := s.lanePins n l P
  let m := s.laneMix n l P cs
  let s := s.modLane n l fun x => { x with mix := (m ++ x.mix).take 2560 }
  let (s, ws) := (s.lane n l).wins.foldl (fun (p : State × List Win) w =>
    let (s, w) := p.1.laneOutput n l P w
    let (w, k) := laneAdd P w
    ((List.range k).foldl (fun s _ => s.raiseFlag (Reg.laneFlags n l) 0) s, p.2 ++ [w])) (s, [])
  s.modLane n l fun x => { x with wins := ws }

/-- The start of a beat at the lanes' pins: their changes act (R276, R277). -/
def lanePinBeat (s : State) : State :=
  s.forBelow 12 fun n s => s.forBelow 32 fun l s =>
    if (s.lane n l).pins.isEmpty then s else s.lanePins n l s.beat

/-- One beat of every RX channel and lane at RX pin beat `P`. -/
def rxBeat (s : State) (P : Nat) : State :=
  s.forBelow 12 fun n s => s.forBelow 2 fun r s =>
    let s := s.rawAcq n r
    let cs := s.rxCodes n r P
    let s := s.modRx n r fun x => { x with
      hist := ((P, cs) :: x.hist).take 11264
      energy := ((cs.map fun c => (c * c).toNat).sum :: x.energy).take 1500 }
    let s := s.captureBeat n r P cs
    s.forBelow 16 fun i s => s.laneBeat n (16 * r + i) P cs

/-! ### Windows -/

/-- ACQ acts (R157, R285, R287, R292): it truncates a window still open, and takes the place of one of the same beat
(R130). -/
def actAcq (s : State) (n : Nat) (w : BitVec 64) : State :=
  let l := fld w 39 35
  let len := fld w 34 19
  let A := s.beat
  let cut := fun x : Win => !x.closed && decide (x.act ≠ A) && decide (A + 26 < x.closeAt)
  let s := s.raiseIf ((s.lane n l).wins.any cut) (Reg.laneFlags n l) 3
  let ks := s.getReg (Reg.laneKsel n l)
  let new : Win := {
    act := A, len := len, closeAt := A + 26 + len, nr := bit w 18, raw := bit w 17, base := fld ks 11 0,
    num := BitVec.ofNat 16 (fld ks 31 16), shot := BitVec.ofNat 16 (s.getReg (Reg.seqSc n)).toNat, shotNo := (s.seq n).shotNo }
  s.modLane n l fun x => { x with
    wins := ((x.wins.filter fun y => decide (y.act ≠ A)).map fun y =>
      if cut y then { y with closeAt := A + 26, trunc := true } else y) ++ [new] }

/-- KER acts (R158). -/
def actKer (s : State) (n : Nat) (w : BitVec 64) : State :=
  s.setReg (Reg.laneKsel n (fld w 39 35)) (BitVec.ofNat 32 (fld w 34 23 + 2 ^ 16 * fld w 22 7))

/-- CRES, and the halves of a record: Q above I in 16 bits each (R293, R319). -/
def coarsePair (i q : Int) : Word := BitVec.ofInt 16 q ++ BitVec.ofInt 16 i

/-- The flags of a record that are known at its window's close: OVR, CAL, FADE, MCK and TRUNC (R295). -/
def closeFlags (s : State) (n l : Nat) (w : Win) : BitVec 16 :=
  let k := w.used
  let lo := w.act + 6
  let hi := w.act + 5 + k
  let x := s.rx n (l / 16)
  let ovr := decide (0 < k) && s.rxOvr n (l / 16) lo hi
  let cal := x.calAt.any (fun p => decide (lo ≤ p ∧ p ≤ hi)) ||
    (s.ring n).calAt.any fun p => decide (lo + 20 ≤ p ∧ p ≤ hi + 20)
  let fade := decide (0 < k) && s.fadeIn n (w.act + 26) (w.act + 25 + k)
  BitVec.ofNat 16 (ovr.toNat + 8 * cal.toNat + 32 * fade.toNat + 64 * w.mck.toNat + 128 * w.trunc.toNat)

/-- Changes the windows of a lane that satisfy `p`. -/
def modWins (s : State) (n l : Nat) (p : Win → Bool) (f : Win → Win) : State :=
  s.modLane n l fun x => { x with wins := x.wins.map fun w => if p w then f w else w }

/-- The window of a lane whose close is due (R285). -/
def closing (s : State) (n l : Nat) : Option Win := (s.lane n l).wins.find? fun w => !w.closed && decide (w.closeAt ≤ s.beat)

/-- A window closes: what its results and record need is settled (R285, R290, R295). -/
def closeWin (s : State) (n l : Nat) (w : Win) : State :=
  let fl := s.closeFlags n l w
  (s.modWins n l (fun x => decide (x = w)) fun x => { x with closed := true, flags := fl, fifo := [] }).modLane n l
    fun x => { x with last := some { act := w.act } }

/-- The window whose coarse result is due, 4 beats after its close (R290). -/
def coarseDue (s : State) (n l : Nat) : Option Win :=
  (s.lane n l).wins.find? fun w => w.closed && !w.coarseDone && decide (w.closeAt + 4 ≤ s.beat)

/-- The coarse result of a window (R289): both components, with their saturations. -/
def coarseOf (s : State) (n l : Nat) (w : Win) : Word × Nat :=
  let sh := s.regFld (Reg.laneShift n l) 4 0
  let (i, si) := satTell 16 (roundShift w.cI sh)
  let (q, sq) := satTell 16 (roundShift w.cQ sh)
  (coarsePair i q, si + sq)

/-- Raises a flag `k` times. -/
def raiseTimes (s : State) (k a b : Nat) : State := (List.range k).foldl (fun s _ => s.raiseFlag a b) s

/-- The coarse result is delivered (R289, R304, R320). -/
def deliverCoarse (s : State) (n l : Nat) (w : Win) : State :=
  let (res, k) := s.coarseOf n l w
  let info := BitVec.ofNat 32 (fld w.flags 0 0 + 2 * fld w.flags 7 7 + 4 * fld w.flags 6 6 + 2 ^ 16 * w.used)
  let s := s.raiseTimes k (Reg.laneFlags n l) 1
  let s := (s.setReg (Reg.laneLastCoarse n l) res).jugCoarse n l res info
  s.modWins n l (fun x => decide (x = w)) fun x => { x with coarseDone := true, cres := res }

/-- The window whose fine result is due, 18 beats after its close (R290). -/
def fineDue (s : State) (n l : Nat) : Option Win :=
  (s.lane n l).wins.find? fun w => w.closed && w.coarseDone && decide (w.closeAt + 18 ≤ s.beat)

/-- The fine result of a window (R288). -/
def fineOf (s : State) (n l : Nat) (w : Win) : Int × Int × Nat :=
  let sh := s.regFld (Reg.laneShift n l) 12 8
  let (i, si) := satTell 32 (roundShift w.accI sh)
  let (q, sq) := satTell 32 (roundShift w.accQ sh)
  (i, q, si + sq)

/-- The bytes of a result record (R293, R294). -/
def recordBytes (s : State) (n l : Nat) (w : Win) (fi fq : Int) : List Byte :=
  let t := s.netTime (w.act + 6 + w.used)
  let fl := w.flags ||| w.shotFlags.getD 0
  leBytes 4 (ts32 t).toNat ++ leBytes 2 (subNs t).toNat ++ leBytes 2 w.shot.toNat ++
    [BitVec.ofNat 8 l, BitVec.ofNat 8 (n + 16 * s.rst.strap.toNat)] ++ leBytes 2 fl.toNat ++
    leBytes 4 (BitVec.ofInt 32 fi).toNat ++ leBytes 4 (BitVec.ofInt 32 fq).toNat ++ leBytes 4 w.cres.toNat ++
    leBytes 4 w.annot.toNat ++ leBytes 2 w.used ++ leBytes 2 w.num.toNat

/-- Records written for a shot (R81). -/
def shotCount (s : State) (n shot : Nat) : Nat :=
  (((s.resq n).shotRecs.find? fun p => p.1 = shot).map (·.2)).getD 0

/-- A window's record is written (R81, R191, R297), or EXCESS is raised beyond SHOT_MAX: the state and the record's index. -/
def writeRecord (s : State) (n l : Nat) (w : Win) (fi fq : Int) : Option (BitVec 32) × State :=
  let k := s.shotCount n w.shotNo
  if s.regFld (Reg.resqShotMax n) 15 0 ≤ k then
    (none, (s.raiseFlag (Reg.resqFlags n) 1).raiseEvent 0x0107 0x05 (s.resq n).next)
  else
    let i := (s.resq n).next
    let s := s.rtStore (recordAddr n i) (s.recordBytes n l w fi fq)
    (some i, s.modResq n fun q => { q with
      next := i + 1
      recs := q.recs ++ [{ idx := i, lane := l, held := w.shotFlags.isNone, since := s.beat }]
      shotRecs := (w.shotNo, k + 1) :: q.shotRecs.filter fun p => decide (p.1 ≠ w.shotNo) })

/-- The fine result is delivered and the record written (R288, R290, R320). -/
def deliverFine (s : State) (n l : Nat) (w : Win) : State :=
  let (fi, fq, k) := s.fineOf n l w
  let s := s.raiseTimes k (Reg.laneFlags n l) 2
  let s := (s.setReg (Reg.laneLastFineLo n l) (BitVec.ofInt 32 fi)).setReg (Reg.laneLastFineHi n l) (BitVec.ofInt 32 fq)
  let s := s.jugFine n l (BitVec.ofInt 32 fi) (BitVec.ofInt 32 fq)
  let (i, s) := if w.nr then (none, s) else s.writeRecord n l w fi fq
  s.modLane n l fun x => { x with
    wins := x.wins.filter fun y => decide (y.act ≠ w.act)
    last := x.last.map fun z => if z.act = w.act then { z with written := true, recIdx := i } else z }

/-- OUT to ANN[l] writes the annotation of the lane's most recently closed window (R296, R322). -/
def annotate (s : State) (n l : Nat) (v : Word) : State :=
  match (s.lane n l).last with
  | none => s
  | some z =>
    if ¬ z.written then s.modWins n l (fun w => decide (w.act = z.act ∧ w.closed)) fun w => { w with annot := v }
    else match z.recIdx with
      | none => s
      | some i =>
        if (s.resq n).recs.any fun r => decide (r.idx = i) && r.held then s.rtStore (recordAddr n i + 24) (leBytes 4 v.toNat)
        else s.raiseFlag (Reg.laneFlags n l) 5

/-- The flags of a shot reach its windows whose record is not written (R191). -/
def flagWins (s : State) (n shot : Nat) (fl : BitVec 16) : State :=
  s.forBelow 32 fun l s => s.modWins n l (fun w => decide (w.shotNo = shot ∧ w.shotFlags = none)) fun w =>
    { w with shotFlags := some fl }

/-- Whether a window of the ring is open. -/
def windowOpen (s : State) (n : Nat) : Bool :=
  (s.ring n).lanes.any fun x => x.wins.any fun w => !w.closed && decide (s.beat < w.closeAt)

/-- The pending windows of R80: ACQs with NR = 0 whose record has not been written. -/
def pendingWins (s : State) (n : Nat) : Nat :=
  ((s.ring n).lanes.map fun x => (x.wins.filter fun w => !w.nr).length).sum

/-- An abort in the present beat truncates the windows whose first sample has reached the integrator, and cancels the others
(R196). -/
def abortWins (s : State) (n : Nat) (mck : Bool) : State :=
  let b := s.beat
  s.forBelow 32 fun l s =>
    let late := fun w : Win => !w.closed && decide (b < w.closeAt)
    let s := s.raiseIf ((s.lane n l).wins.any fun w => late w && decide (w.act + 26 < b)) (Reg.laneFlags n l) 3
    s.modLane n l fun x => { x with
      wins := (x.wins.filter fun w => !(late w && decide (b ≤ w.act + 26))).map fun w =>
        if late w then { w with closeAt := b, trunc := true, mck := mck } else w }

/-- LANE[n][l].STATE (R304). -/
def laneState (s : State) (n l : Nat) : Word :=
  match ((s.lane n l).wins.filter fun w => !w.closed && decide (s.beat < w.closeAt)).getLast? with
  | some w => BitVec.ofNat 32 (2 ^ 31 + (w.closeAt - s.beat) % 2 ^ 16)
  | none => 0

/-- The check of a write to a lane register (R286, R304). -/
def laneCheck (s : State) (n : Nat) (legal : Bool) : Err := (Err.need legal .eRange).orElse (Err.need (!s.ringRuns n) .eState)

end State

/-- RX_READY: 15,000 beats after enabling or a zone change READY returns to 1 (R270). -/
def execRxReady (n : RingId) (r : Fin 2) (s : State) : Res :=
  .next <| match (s.rx n r).readyAt with
    | some t =>
      if t ≤ s.beat ∧ s.rst.relockTo.isNone then s.modRx n r fun x => { x with ready := true, readyAt := none } else s
    | none => s

/-- RX_CLIP: a pin beat with a clipped sample leaves the overload detector, 12 beats after it (R272); the first of an overload
tells the other channels of the die (R273). -/
def execRxClip (n : RingId) (r : Fin 2) (s : State) : Res :=
  .next <|
    let P := s.beat - 12
    if 12 ≤ s.beat ∧ (s.rx n r).detAt ≠ s.beat ∧ s.clippedAt n r P then
      let new := !(s.rx n r).clip
      let s := s.modRx n r fun x => { x with
        detAt := s.beat, clip := true
        ovl := if new then (P, none) :: x.ovl.filter (fun o => (o.2.map fun e => decide (s.beat ≤ e + 131072)).getD true) else x.ovl }
      let s := (s.raiseFlag (Reg.rxFlags n r) 0).addReg64 (Reg.rxOvrBeatsLo n r) 1
      if new then (State.dieOthers n r).foldl (fun s p => s.raiseFlag (Reg.rxFlags p.1 p.2) 1) s else s
    else s

/-- OVERLOAD_REMOVED: the first pin beat E without a clipped sample leaves the detector (R273). -/
def execOverloadRemoved (n : RingId) (r : Fin 2) (s : State) : Res :=
  .next <|
    let P := s.beat - 12
    if (s.rx n r).clip ∧ (s.rx n r).detAt ≠ s.beat ∧ ¬ s.clippedAt n r P then
      s.modRx n r fun x => { x with
        detAt := s.beat, clip := false
        ovl := match x.ovl with | o :: t => (o.1, some P) :: t | [] => [] }
    else s

/-- WINDOW_CLOSE: a window of the lane closes (R285). Nothing happens before its close beat (log entry 4). -/
def execWindowClose (n : RingId) (l : Fin 32) (s : State) : Res :=
  .next <| match s.closing n l with
    | some w => s.closeWin n l w
    | none => s

/-- COARSE_RESULT: the coarse result, 4 beats after the close (R290, R320). -/
def execCoarseResult (n : RingId) (l : Fin 32) (s : State) : Res :=
  .next <| match s.coarseDue n l with
    | some w => s.deliverCoarse n l w
    | none => s

/-- FINE_RESULT: the fine result and the record, 18 beats after the close (R290, R320). -/
def execFineResult (n : RingId) (l : Fin 32) (s : State) : Res :=
  .next <| match s.fineDue n l with
    | some w => s.deliverFine n l w
    | none => s

/-- RAW_CAPTURE_END: after LEN pin beats the buffer becomes FULL, or PUSHING (R300). -/
def execRawCaptureEnd (n : RingId) (r : Fin 2) (s : State) : Res :=
  .next <| match (s.rx n r).cap with
    | some c =>
      if c.start + c.len ≤ s.beat then
        let push := s.regBit (Reg.rxRawCtrl n r) 16
        s.modRx n r fun x => { x with cap := none, raw := if push then .pushing else .full, pushPos := 0 }
      else s
    | none => s

/-- RAW_PUSH: a frame of a PUSHING buffer (R301). -/
def execRawPush (n : RingId) (r : Fin 2) (s : State) : Res :=
  .next <| if (s.rx n r).raw = .pushing ∧ ¬ s.rawMade n r then s.pushRaw n r else s

end Sys2Proof.Machine
end

