-- ==== Sys2Proof/Machine/Flit.lean ====
section
/-! DEFINITION. Trapeze flits: the CRC, the fields of each type, the domain beat, and the queues of a link's transmitter
(R345-R349, R360). -/

namespace Sys2Proof.Machine

/-- One step of the CRC-8 of R346 with the next message bit. -/
def crcStep (c : Nat) (b : Bool) : Nat :=
  let top := c.testBit 7 != b
  let c := 2 * c % 256
  if top then Nat.xor c 0x07 else c

/-- The CRC-8 over bits [63:8] of a flit, most significant bit first (R346). -/
def flitCrc (x : BitVec 64) : Nat := (List.range 56).foldl (fun c i => crcStep c (bit x (63 - i))) 0

/-- A flit with its CRC in bits [7:0]. -/
def withCrc (x : BitVec 64) : BitVec 64 := putFld x 7 0 (flitCrc x)

/-- A flit from its fields, each given as a place and a value. -/
def mkFlit (fs : List (Nat × Nat × Nat)) : BitVec 64 :=
  withCrc (fs.foldl (fun x f => putFld x f.1 f.2.1 f.2.2) 0)

/-- TYPE of a flit. -/
def flitType (x : BitVec 64) : Nat := fld x 63 61
/-- SRC of a flit. -/
def flitSrc (x : BitVec 64) : Nat := fld x 60 57

/-- The place of HOPS in the flits that are forwarded. -/
def hopsAt (x : BitVec 64) : Nat := if flitType x = 1 then 54 else if flitType x = 2 then 51 else 55

/-- HOPS of a DEC, BAR or ABORT flit. -/
def flitHops (x : BitVec 64) : Nat := fld x (hopsAt x + 1) (hopsAt x)

/-- Whether a receiver keeps a data flit (R346, R347): its CRC, TYPE, CODE and CAUSE are valid and its reserved bits 0. -/
def flitOk (x : BitVec 64) : Bool :=
  decide (fld x 7 0 = flitCrc x) &&
  match flitType x with
  | 1 => decide (fld x 13 8 = 0)
  | 2 => decide (fld x 18 8 = 0)
  | 3 => decide (fld x 48 8 = 0) && decide (fld x 50 49 ≠ 1)
  | 4 => decide (fld x 29 8 = 0)
  | 5 => decide (fld x 48 8 = 0) && decide (fld x 56 53 ≤ 3)
  | 6 => decide (fld x 8 8 = 0)
  | _ => false

namespace State

/-- The domain beat: the beat counter plus DB_OFFSET, 64 bits (R349). -/
def db (s : State) : Nat := (s.beat + (s.getReg64 Reg.dbOffsetLo).toNat) % 2 ^ 64

/-- The latest domain beat not after the present one whose low `k` bits equal `x`. -/
def dbLatest (s : State) (k x : Nat) : Nat := s.db - (s.db % 2 ^ k + 2 ^ k - x % 2 ^ k) % 2 ^ k

/-- The chip's number (R359). -/
def chipNum (s : State) : Nat := s.rst.strap.toNat

/-- TRP_DOMAIN.MEMBERS. -/
def member (s : State) (c : Nat) : Bool := s.regBit Reg.trpDomain (16 + c)
/-- TRP_DOMAIN.TOPO. -/
def topo (s : State) : Nat := s.regFld Reg.trpDomain 9 8

/-- The chip that link `k` expects as its peer (R359): none in TOPO 0 and where the link is unused. -/
def expectedPeer (s : State) (k : Nat) : Option Nat :=
  let c := s.chipNum
  let a := c / 4
  let b := c % 4
  if s.topo = 1 then some ((c + k + 1) % 5)
  else if s.topo = 2 then
    if k < 3 then some (4 * a + (b + k + 1) % 4) else if a = b then none else some (4 * b + a)
  else none

/-- TRP_FWD[x] as in force (R360): derived in TOPO 1 and 2, written by the host in TOPO 0. -/
def fwd (s : State) (x : Nat) : BitVec 4 :=
  let c := s.chipNum
  let a := c / 4
  let b := c % 4
  let links := fun f : Nat → Bool => BitVec.ofNat 4 (((List.range 4).map fun k => if f k then 2 ^ k else 0).sum)
  if s.topo = 1 then
    if x = c then links fun k => s.member ((c + k + 1) % 5) else 0
  else if s.topo = 2 then
    if x = c then links fun k => decide (k < 3 ∨ a ≠ b)
    else if x / 4 = a ∧ a ≠ b ∧ x % 4 ≠ b then 8
    else if x / 4 = b ∧ a ≠ b then 7
    else 0
  else BitVec.ofNat 4 (s.getReg (Reg.trpFwd x)).toNat

/-- Puts a flit in a link's transmit queue. -/
def queueFlit (s : State) (k : Nat) (x : BitVec 64) (ready : Nat) : State :=
  s.modLink k fun l => { l with queue := l.queue ++ [{ typ := flitType x, bits := x, ready := ready }] }

/-- Puts a DEC, BAR or ABORT flit in the queues of the links of a mask that are UP (R352, R360). -/
def spreadFlit (s : State) (m : BitVec 4) (x : BitVec 64) (ready : Nat) : State :=
  (onesOf m 4).foldl (fun s k => if (s.link k).st = .up then s.queueFlit k x ready else s) s

/-- Forwards a received flit with HOPS + 1 (R360); a flit with HOPS = 2 is not forwarded. -/
def forwardFlit (s : State) (x : BitVec 64) (ready : Nat) : State :=
  let m := s.fwd (flitSrc x)
  if flitSrc x = s.chipNum ∨ m = 0 then s
  else if 2 ≤ flitHops x then s.raiseFlag Reg.trpFlags 1
  else s.spreadFlit m (withCrc (putFld x (hopsAt x + 1) (hopsAt x) (flitHops x + 1))) ready

/-- Sends a control flit on a link (R346 LCTL), ready from beat `ready`. -/
def sendLctl (s : State) (k code lane ready : Nat) : State :=
  s.queueFlit k (mkFlit [(63, 61, 5), (60, 57, s.chipNum), (56, 53, code), (52, 49, lane)]) ready

/-- Sends a TMARK flit on a link: dropped with MARK_FLAGS.TMARK_DROP when 16 wait (R403). -/
def sendTmark (s : State) (k m bin : Nat) (falling : Bool) : State :=
  if 16 ≤ ((s.link k).queue.filter fun f => f.typ = 4).length then s.raiseFlag Reg.markFlags 0
  else
    let eb := s.db - (s.beat - bin / 64)
    s.queueFlit k (mkFlit [(63, 61, 4), (60, 57, s.chipNum), (56, 53, m), (52, 37, eb % 2 ^ 16), (36, 31, bin % 64),
      (30, 30, falling.toNat)]) s.beat

/-- The order of the kinds of flits in a transmit slot (R348), by TYPE. -/
def slotOrder : List Nat := [1, 3, 2, 5, 4]

/-- The flit that a link sends next: the oldest ready one of the first kind that has one (R348). -/
def nextFlit (s : State) (k : Nat) : Option Flit :=
  slotOrder.findSome? fun t => (s.link k).queue.find? fun f => decide (f.typ = t ∧ f.ready ≤ s.beat)

/-- Whether a link may send a data flit in this beat: its transmitter is on, the beat is no marker beat and its slot is
free. -/
def slotFree (s : State) (k : Nat) : Bool :=
  (s.link k).txOn && decide (s.db % 256 ≠ 255) && decide ((s.link k).slotAt ≠ some s.beat)

/-- The link delay as DELAY records it (R350). -/
def linkD (s : State) (k : Nat) : Nat := s.regFld (Reg.linkDelay k) 5 0

/-- The beat in which the copy of a lane begins to arrive when its MIRROR_REQ takes the slot of this beat (R356): the partner decodes it
after the link delay, taken as that of both directions (DEDUCED, log entry 80), and copies from the beat after its next marker. -/
def copyStart (s : State) (k : Nat) : Nat :=
  let d := s.linkD k
  s.beat + ((s.db + d) / 256 + 1) * 256 + d - s.db

/-- A data flit takes the transmit slot of this beat. -/
def takeSlot (s : State) (k : Nat) (f : Flit) : State :=
  let s := if f.typ = 5 ∧ fld f.bits 56 53 = 1 then
      s.modLink k fun l => { l with copyFrom := some (s.copyStart k), goodFrom := s.copyStart k }
    else s
  (s.modLink k fun l => { l with queue := l.queue.erase f, slotAt := some s.beat, sent := f.bits }).addReg64 (Reg.linkTxFlitsLo k) 1

/-- The data lane of which the transmitter sends a copy on the spare in this beat (R355, R356). -/
def spareSource (s : State) (k : Nat) : Nat := (s.link k).mirror.getD (s.db / 256 % 8)

/-- The TIME flit of this beat (R346). -/
def timeBits (s : State) : BitVec 64 := mkFlit [(63, 61, 6), (60, 57, s.chipNum), (56, 9, s.db % 2 ^ 48)]

/-- The transmit slot of a link for everything but DEC flits, which DEC_FLIT_TRANSMIT sends: the next flit, or a TIME flit once
a marker interval (R348). -/
def linkSlot (s : State) (k : Nat) : State :=
  if s.slotFree k then
    match s.nextFlit k with
    | some f => if f.typ = 1 then s else s.takeSlot k f
    | none =>
      if (s.link k).timeSent = some (s.db / 256) then s
      else (s.modLink k fun l => { l with timeSent := some (s.db / 256), slotAt := some s.beat, sent := s.timeBits }).addReg64
        (Reg.linkTxFlitsLo k) 1
  else s

end State

end Sys2Proof.Machine
end

