-- ==== Sys2Proof/Machine/Time.lean ====
section
/-! DEFINITION. Network time as registers show it, captures and adjustments (R375-R381). -/

namespace Sys2Proof.Machine

namespace State

/-! ### Captures and adjustments -/

/-- SNAP_CMD.CAPTURE (R378). -/
def snapDo (s : State) : State :=
  let t := s.netTime s.beat
  ((s.setReg64 Reg.snapBeatLo s.beatCount).setReg64 Reg.snapNsLo (intNs t)).setReg Reg.snapSub ((subNs t).zeroExtend 32)

/-- An adjustment is pending: ADJ_CTRL.ARM reads 1. -/
def adjPending (s : State) : Bool := s.regBit Reg.adjCtrl 0

/-- ADJ_BEAT. -/
def adjBeat (s : State) : Nat := (s.getReg64 Reg.adjBeatLo).toNat

/-- The check of an ARM write (R380); `host` is false for the servo. -/
def adjArmCheck (s : State) (host : Bool) : Err :=
  Err.first [Err.need (decide (s.beat + 1500 ≤ s.adjBeat)) .eLate, Err.need (decide (s.adjBeat ≤ s.beat + 2 ^ 32)) .eRange,
    Err.need (!(host && s.regBit Reg.ptpCtrl 0 && !s.regBit Reg.ptpCtrl 10)) .eState, Err.need (!s.adjPending) .eBusy]

/-- The check of an ADJ_CTRL write (R380): ARM, CANCEL, or MODE alone. ARM and CANCEL in one write are each checked, so that one of them
stands against it in every state (DESIGN CHOICE, log entry 88). -/
def adjCtrlCheck (s : State) (v : Word) : Err :=
  Err.first [if bit v 1 then Err.need s.adjPending .eState else .ok,
    if bit v 0 then s.adjArmCheck true else if bit v 1 then .ok else Err.need (!s.adjPending) .eBusy]

/-- The effect of an ADJ_CTRL write: MODE as written, and ARM unless CANCEL makes the adjustment void. -/
def adjCtrlDo (s : State) (v : Word) : State := s.setReg Reg.adjCtrl (v &&& if bit v 1 then 0x100 else 0x101)

/-- The adjustment takes effect in beat `B` (R381). -/
def applyAdj (s : State) (B : Nat) : State :=
  let inc : Nat := (s.getReg64 Reg.adjIncLo).toNat % 2 ^ 48
  let ns := s.getReg64 Reg.adjOffNsLo
  let sub : Int := (s.regFld Reg.adjOffSub 15 0 : Nat) * 2 ^ 24
  let old : Int := s.increment
  let off : Int :=
    if s.regBit Reg.adjCtrl 8 then (ns.toNat : Int) * 2 ^ 40 + sub
    else s.time.offset + (B : Int) * (old - (inc : Int)) + (ns.toInt * 2 ^ 40 + sub)
  let sv := if s.time.servo = .step then .locked else s.time.servo
  let s := { s with time := { s.time with past := (B, s.increment, s.time.offset) :: s.time.past, offset := off, servo := sv } }
  (((s.setReg64 Reg.incrementLo (BitVec.ofNat 64 inc)).setBit Reg.adjCtrl 0 false).setReg64 Reg.adjLastLo
    (BitVec.ofNat 64 B)).raiseFlag Reg.timeFlags 0

end State

/-- ADJUSTMENT_APPLY: in beat ADJ_BEAT the pending adjustment takes effect (R381). -/
def execAdjustmentApply (s : State) : Res :=
  .next <| if s.adjPending ∧ s.adjBeat ≤ s.beat then s.applyAdj s.adjBeat else s

end Sys2Proof.Machine
end

