-- ==== Sys2Proof/Machine/Marks.lean ====
section
/-! DEFINITION. Trigger inputs, the time-interval units, and marker outputs with their timing sets (R390-R405). Instants are in
bins of 1/64 beat. -/

namespace Sys2Proof.Machine

/-- MEAN with 16 fractional bits, rounded half up (R396). -/
def tiuMean (xs : List Nat) : Nat :=
  let n := xs.length
  if n = 0 then 0 else (2 * (xs.sum * 2 ^ 16) + n) / (2 * n)

/-- STD with 8 fractional bits, rounded half up (R396): the largest `r` with (2r - 1)/512 at most the deviation. -/
def tiuStd (xs : List Nat) : Nat :=
  let n := xs.length
  if n = 0 then 0
  else
    let var := n * (xs.map fun x => x * x).sum - xs.sum * xs.sum
    (Nat.sqrt (2 ^ 18 * var / (n * n)) + 1) / 2

namespace State

/-! ### Time-interval units -/

/-- Changes a unit. -/
def modTiu (s : State) (u : Nat) (f : Tiu → Tiu) : State := { s with tius := s.tius.modify u f }
/-- Unit `u`. -/
def tiu (s : State) (u : Nat) : Tiu := s.tius.getD u {}

/-- An EDGE field takes an edge: 0 rising, 1 falling, 2 both (R393). -/
def edgeTakes (e : Nat) (falling : Bool) : Bool := e == 2 || (e == 1) == falling

/-- Inserts an event in stamp order, START before STOP at one stamp (R395). -/
def insertEv (e : TiuEv) : List TiuEv → List TiuEv
  | [] => [e]
  | x :: t => if e.bin_ < x.bin_ ∨ (e.bin_ = x.bin_ ∧ e.isStart ∧ ¬ x.isStart) then e :: x :: t else x :: insertEv e t

/-- An event is offered to unit `u` under one of its roles: discarded with LATE_EV when its beat has passed (R395). -/
def offerRole (s : State) (u bin : Nat) (isStart : Bool) : State :=
  if bin / 64 + 256 < s.beat then s.raiseFlag (Reg.tiuFlags u) 4
  else s.modTiu u fun t => { t with evs := insertEv { bin_ := bin, isStart := isStart } t.evs }

/-- A source other than a trigger input takes an edge (R393): none within 128 bins of the edge it took before. Sources are numbered 8 to
23 for MARK[source - 8], and from 24 on 16 to a link, one for each marker of its TMARK flits. -/
def srcTakes (s : State) (src bin : Nat) : State × Bool :=
  if s.srcEdges.any fun e => e.1 == src && decide (bin < e.2 + 128) then (s, false)
  else ({ s with srcEdges := (src, bin) :: s.srcEdges.filter fun e => e.1 != src }, true)

/-- A taken edge of a source is offered to a running unit (R393, R395). -/
def offerTiu (s : State) (u src bin : Nat) (falling : Bool) : State :=
  let c := s.getReg (Reg.tiuCtrl u)
  if ¬ (s.tiu u).running then s
  else
    let s := if fld c 28 24 = src ∧ edgeTakes (fld c 23 22) falling then s.offerRole u bin true else s
    if ¬ bit c 31 ∧ fld c 20 16 = src ∧ edgeTakes (fld c 15 14) falling then s.offerRole u bin false else s

/-- A unit reads RUNNING: it takes intervals, or its statistics are still due (R396, R405). -/
def tiuBusy (s : State) (u : Nat) : Bool := (s.tiu u).running || (s.tiu u).endFrom.isSome

/-- Ends a run: its statistics are due (R396). -/
def tiuEnd (s : State) (u : Nat) : State :=
  s.modTiu u fun t => { t with running := false, endFrom := some s.beat, evs := [], start := none }

/-- N of a unit (R396). -/
def tiuN (s : State) (u : Nat) : Nat := let n := s.regFld (Reg.tiuN u) 23 0; if n = 0 then 2 ^ 24 else n

/-- An interval is taken, and the run ends at N (R395, R396). -/
def tiuTake (s : State) (u x : Nat) : State :=
  if 2 ^ 32 ≤ x then s.raiseFlag (Reg.tiuFlags u) 3
  else
    let s := s.raiseIf (x = 0) (Reg.tiuFlags u) 0
    let s := (s.modTiu u fun t => { t with xs := t.xs ++ [x] }).addReg (Reg.tiuCount u) 1
    if s.tiuN u ≤ (s.tiu u).xs.length then s.tiuEnd u else s

/-- A unit handles an event (R395). -/
def tiuHandle (s : State) (u : Nat) (e : TiuEv) : State :=
  let period := s.regBit (Reg.tiuCtrl u) 31
  match (s.tiu u).start, e.isStart with
  | none, true => s.modTiu u fun t => { t with start := some e.bin_ }
  | some b, true =>
    if period then (s.modTiu u fun t => { t with start := some e.bin_ }).tiuTake u (e.bin_ - b) |> fun s =>
      if 2 ^ 32 ≤ e.bin_ - b then s.modTiu u fun t => { t with start := none } else s
    else (s.modTiu u fun t => { t with start := some e.bin_ }).raiseFlag (Reg.tiuFlags u) 2
  | some b, false => (s.modTiu u fun t => { t with start := none }).tiuTake u (e.bin_ - b)
  | none, false => (s.satReg (Reg.tiuOrphans u)).raiseFlag (Reg.tiuFlags u) 1

/-- The event whose beat has come: 256 beats after its stamped beat (R395). -/
def tiuDue (s : State) (u : Nat) : Option TiuEv :=
  match (s.tiu u).evs with
  | e :: _ => if (s.tiu u).running ∧ e.bin_ / 64 + 256 ≤ s.beat then some e else none
  | [] => none

/-- The checks of a TIU CTRL write (R395, R396, R405). -/
def tiuCtrlCheck (s : State) (u : Nat) (v : Word) : Err :=
  let same := fld v 28 24 = fld v 20 16 ∧ fld v 23 22 = fld v 15 14
  (Err.need (decide (fld v 28 24 < 28 ∧ fld v 20 16 < 28 ∧ fld v 23 22 < 3 ∧ fld v 15 14 < 3 ∧ ¬ (¬ bit v 31 ∧ same)))
    .eRange).orElse (Err.need (!s.tiuBusy u) .eState)

/-- The check of a TIU CMD write (R396, R405). RUN and ABORT in one write are each checked, so that one of them stands against it in every
state (DESIGN CHOICE, log entry 88). -/
def tiuCmdCheck (s : State) (u : Nat) (v : Word) : Err :=
  let b := s.tiuBusy u
  (if bit v 1 then Err.need b .eState else .ok).orElse (if bit v 0 then (Err.need (!s.shutting) .eState).orElse (Err.need (!b) .eBusy)
      else .ok)

/-- The effect of a TIU CMD write: RUN clears COUNT and the statistics; ABORT ends the run (R396). -/
def tiuCmdDo (s : State) (u : Nat) (v : Word) : State :=
  if bit v 1 then (if (s.tiu u).running then s.tiuEnd u else s)
  else if bit v 0 then
    let s := s.modTiu u fun _ => { running := true }
    let s := [Reg.tiuCount u, Reg.tiuMin u, Reg.tiuMax u, Reg.tiuStd u, Reg.tiuMeanLo u, Reg.tiuMeanHi u, Reg.tiuOrphans u].foldl
      (fun s a => s.setReg a 0) s
    s
  else s

/-- TIU[u].STATUS (R405): a run whose statistics are still due reads RUNNING. -/
def tiuStatus (s : State) (u : Nat) : Word :=
  if s.tiuBusy u then 1 else if (s.tiu u).done then 2 else 0

/-! ### Trigger inputs -/

/-- Changes a trigger input. -/
def modTrig (s : State) (i : Nat) (f : Trig → Trig) : State := { s with trigs := s.trigs.modify i f }
/-- Trigger input `i`. -/
def trig (s : State) (i : Nat) : Trig := s.trigs.getD i {}

/-- Sets the latch of an input and polarity in a ring (R390). -/
def setLatch (s : State) (n i : Nat) (rise : Bool) : State :=
  let b := 2 * i + (!rise).toNat
  let s := s.setBit (Reg.trigLatch n) b true
  { s with beatSets := (Reg.trigLatch n, b) :: s.beatSets }

/-- A taken edge acts, from 8 beats after its pin beat (R390). -/
def trigAct (s : State) (i bin : Nat) (rise : Bool) : State :=
  let t := s.netTimeBin bin
  let s := s.setReg (Reg.trigLastTs i) (ts32 t)
  let s := s.setReg (Reg.trigLastSub i) (BitVec.ofNat 32 ((subNs t).toNat + 2 ^ 16 * (!rise).toNat))
  let s := s.forBelow 4 fun u s => s.offerTiu u i bin (!rise)
  s.forRings (BitVec.ofNat 12 (s.regFld (Reg.trigCtrl i) 27 16)) fun n s => s.setLatch n i rise

/-- The taken edges of an input whose beat has come act, oldest first. -/
def trigDeliver (s : State) (i : Nat) : State :=
  let due := fun e : Nat × Bool => decide (e.1 / 64 + 8 ≤ s.beat)
  let es := (s.trig i).pend.filter due
  es.foldl (fun s e => s.trigAct i e.1 e.2) (s.modTrig i fun t => { t with pend := t.pend.filter fun e => !due e })

/-- An edge at a trigger input (R390, R391): none while disabled; lost within 128 bins of the edge taken before. -/
def trigEdge (s : State) (i bin : Nat) (rise : Bool) : State :=
  if ¬ s.regBit (Reg.trigCtrl i) 0 then s
  else if (s.trig i).last.any fun b => decide (bin < b + 128) then s.satReg (Reg.trigMissed i)
  else (s.modTrig i fun t => { t with last := some bin, pend := t.pend ++ [(bin, rise)] }).trigDeliver i

/-- The host or an instruction clears latches of a ring (R392); a latch that an edge sets in this beat stays set. -/
def clearLatch (s : State) (n : Nat) (m : Word) : State :=
  (onesOf m 16).foldl (fun s b =>
    if (Reg.trigLatch n, b) ∈ s.beatSets then s else s.setBit (Reg.trigLatch n) b false) s

/-! ### Markers -/

/-- Changes a marker output. -/
def modMark (s : State) (m : Nat) (f : Mark → Mark) : State := { s with marks := s.marks.modify m f }
/-- Marker output `m`. -/
def markOut (s : State) (m : Nat) : Mark := s.marks.getD m {}

/-- Places an edge (R398). -/
def placeEdge (s : State) (m bin : Nat) (high pulse : Bool) : State :=
  ({ s with markNo := s.markNo + 1 } : State).modMark m fun x => { x with
    edges := x.edges ++ [{ bin_ := bin, high := high, order := s.markNo, pulse := pulse }] }

/-- A MARK with action beat `A` (R398). -/
def markAt (s : State) (m ts action A : Nat) : State :=
  let t := 64 * (A + 26) + s.regFld (Reg.tsetDelay ts) 11 0
  if action = 0 then s.placeEdge m t true false
  else if action = 1 then s.placeEdge m t false false
  else (s.placeEdge m t true true).placeEdge m (t + s.regFld (Reg.tsetWidth ts) 15 0) false true

/-- MARK acts (R160, R398). -/
def actMark (s : State) (w : BitVec 64) : State := s.markAt (fld w 39 36) (fld w 35 33) (fld w 32 31) s.beat

/-- TSET acts (R160): a value from a g register uses bits [15:0], clamped to the field's range. -/
def actTset (s : State) (w : BitVec 64) (v1 : Word) : State :=
  let v := if bit w 34 then fld v1 15 0 else fld w 15 0
  let ts := fld w 39 37
  if fld w 36 35 = 0 then s.setReg (Reg.tsetDelay ts) (BitVec.ofNat 32 (min v 4095))
  else s.setReg (Reg.tsetWidth ts) (BitVec.ofNat 32 (max v 1))

/-- The earliest instant at which placed edges of a marker are due. -/
def edgeDue (s : State) (m : Nat) : Option Nat :=
  (((s.markOut m).edges.filter fun e => decide (e.bin_ / 64 ≤ s.beat)).map (·.bin_)).min?

/-- The fixed delay of output `m` from a placed edge to the ball, in bins (R562): free in 1.2 ns to 1.6 ns at the nominal reference, and no two
outputs of a device more than 50 ps apart. -/
def markDelay (m : Nat) : Nat := 115 + Config.markDelay % 34 + Config.markSkew m % 6

/-- The edges of one instant reach the output (R399): it takes the level of the one placed last, and a change of level at an
enabled output is an edge for TMARK flits (R402, R403) and, at the ball, its fixed delay later, for the units (R393, R562). -/
def reachEdge (s : State) (m bin : Nat) : State :=
  let x := s.markOut m
  let at_ := x.edges.filter fun e => decide (e.bin_ = bin)
  let level := (at_.foldl (fun (p : Nat × Bool) e => if p.1 ≤ e.order then (e.order, e.high) else p) (0, x.level)).2
  let s := s.modMark m fun x => { x with level := level, edges := x.edges.filter fun e => decide (e.bin_ ≠ bin) }
  let c := s.getReg (Reg.markCtrl m)
  if level = x.level ∨ ¬ bit c 0 then s
  else
    let ball := bin + markDelay m
    let (s, ok) := s.srcTakes (8 + m) ball
    let s := if ok then s.forBelow 4 fun u s => s.offerTiu u (8 + m) ball (level == bit c 1) else s
    if s.trap.dbValid then
      (onesOf (BitVec.ofNat 4 (fld c 11 8)) 4).foldl (fun s k =>
        if (s.link k).st = .up then s.sendTmark k m bin (!level) else s) s
    else s

/-- The level that output `m` drives at the ball (R398, R402): low while EN is 0, else its level, inverted by INV. -/
def markBall (s : State) (m : Nat) : Bool :=
  let c := s.getReg (Reg.markCtrl m)
  bit c 0 && ((s.markOut m).level != bit c 1)

/-- MARK[m].STATE (R405): a pulse is in progress between its two edges. -/
def markState (s : State) (m : Nat) : Word :=
  let x := s.markOut m
  let rises := (x.edges.filter fun e => e.pulse && e.high).length
  let falls := (x.edges.filter fun e => e.pulse && !e.high).length
  BitVec.ofNat 32 (x.level.toNat + 2 * (decide (rises < falls)).toNat)

/-- An owner field is 0 to 11 or 0xF. -/
def ownerLegal (x : Nat) : Bool := decide (x < 12 ∨ x = 15)

/-- An owner field may be written, also with the value it has: neither the old owner ring nor the new one runs (R397). -/
def ownerCheck (s : State) (old new : Nat) : Err :=
  (Err.need (ownerLegal new) .eRange).orElse
    (Err.need (!(decide (old < 12) && s.ringRuns old) && !(decide (new < 12) && s.ringRuns new)) .eState)

/-- The check of a TSET DELAY or WIDTH write (R400). -/
def tsetCheck (s : State) (ts : Nat) : Err :=
  let o := s.regFld (Reg.tsetOwner ts) 3 0
  Err.need (decide (o = 15) || !s.ringRuns o) .eState

/-- The check of a MARK[m].HOST write (R401, R405). -/
def markHostCheck (s : State) (m : Nat) (v : Word) : Err :=
  (Err.need (decide (fld v 1 0 ≠ 3)) .eRange).orElse
    (Err.need (decide (s.regFld (Reg.markCtrl m) 31 28 = 15 ∧ s.regFld (Reg.tsetOwner (fld v 6 4)) 3 0 = 15)) .eState)

/-- Ownership makes MARK and TSET legal for a ring (R160, R397). -/
def markOwned (s : State) (n m ts : Nat) : Bool :=
  decide (s.regFld (Reg.markCtrl m) 31 28 = n ∧ s.regFld (Reg.tsetOwner ts) 3 0 = n)

end State

/-- TRIGGER_EDGE: an edge in bin `bin` at input `i` (R390, R391). Nothing happens for an instant that has not come (log
entry 4). -/
def execTriggerEdge (i : Fin 8) (bin : Nat) (rise : Bool) (s : State) : Res :=
  .next <| if bin / 64 ≤ s.beat then s.trigEdge i bin rise else s

/-- TIU_EVENT: a unit handles an event 256 beats after its stamped beat (R395). -/
def execTiuEvent (k : Fin 4) (s : State) : Res :=
  .next <| match s.tiuDue k with
    | some e => (s.modTiu k fun t => { t with evs := t.evs.drop 1 }).tiuHandle k e
    | none => s

/-- TIU_DONE: the statistics of an ended run (R396). -/
def execTiuDone (k : Fin 4) (s : State) : Res :=
  .next <| if (s.tiu k).endFrom.isSome then
      let xs := (s.tiu k).xs
      let s := s.setReg (Reg.tiuMin k) (BitVec.ofNat 32 ((xs.min?).getD 0))
      let s := s.setReg (Reg.tiuMax k) (BitVec.ofNat 32 ((xs.max?).getD 0))
      let s := s.setReg (Reg.tiuStd k) (BitVec.ofNat 32 (tiuStd xs))
      (s.setReg64 (Reg.tiuMeanLo k) (BitVec.ofNat 64 (tiuMean xs))).modTiu k fun t => { t with endFrom := none, done := true }
    else s

/-- MARKER_EDGE: the placed edges of the earliest due instant reach the output (R399). -/
def execMarkerEdge (m : Fin 16) (s : State) : Res :=
  .next <| match s.edgeDue m with
    | some bin => s.reachEdge m bin
    | none => s

end Sys2Proof.Machine
end

