-- ==== Sys2Proof/Machine/Seq.lean ====
section
/-! DEFINITION. Rings as a whole: states, start, resume, halt, abort, pauses and the shot start (R115-R118, R168-R173, R181-R197,
R206). -/

namespace Sys2Proof.Machine

namespace State

/-! ### What a start needs -/

/-- OUT_BUSY: a voice still plays, or a window is open (R186); an abort keeps it at 1 until its ramp ends (R195). -/
def outBusy (s : State) (n : Nat) : Bool :=
  (List.range 32).any (fun v => s.voiceBusy n v) || s.windowOpen n || decide ((s.seq n).st = .aborting)

/-- Some TX channel or bias output of the ring settles, or an enabled RX channel is not ready, or an injection runs on one
(R246, R257, R270, R419), so that a start gives E_BUSY. -/
def unsettled (s : State) (n : Nat) : Bool :=
  (List.range 4).any (fun c => s.settling n c) || (List.range 4).any (fun b => (s.biasOut n b).span.isSome) ||
    (List.range 2).any fun r =>
      (s.regBit (Reg.rxCtrl n r) 0 && !(s.rx n r).ready) || (s.cal.rx.getD (2 * n + r) {}).inj.isSome

/-- RET[n].STATE: the ring's memories are on (R455). -/
def memOn (s : State) (n : Nat) : Bool := decide (s.regFld (Reg.ret n) 17 16 = 0)

/-- A destructive march run is on a memory of the ring (R449). -/
def marchOn (s : State) (n : Nat) : Bool :=
  match s.memu.march with
  | some m => !m.preserving && decide (m.code ≤ 8 ∧ m.inst = n)
  | none => false

/-- An owner CHECK runs on the ring (R504). -/
def checkOn (s : State) (n : Nat) : Bool :=
  match s.sec.op with
  | some o => decide (o.kind = .check n)
  | none => false

/-- An owner CHECK reads memory `code` of ring `n`: instruction memory for KIND 0, Juggler program for KIND 1 (R501, R504). -/
def checkReads (s : State) (code n : Nat) : Bool :=
  match s.sec.op with
  | some o => decide (o.kind = .check n) && ((o.block.getD 8 0 == 0 && code == 0) || (o.block.getD 8 0 == 1 && code == 5))
  | none => false

/-- The OK bit of a program memory is cleared by a change of the memory (R504). -/
def unsign (s : State) (code n : Nat) : State :=
  if code = 0 then s.setBit Reg.ownAuth n false else if code = 5 then s.setBit Reg.ownAuth (16 + n) false else s

/-- JUG_CTRL.WITH_RING. -/
def withRing (s : State) (n : Nat) : Bool := s.regBit (Reg.jugCtrl n) 16

/-- The owner lock allows the Juggler to start (R339, R505). -/
def jugAllowed (s : State) (n : Nat) : Bool := !s.sec.locked || s.regBit Reg.ownAuth (16 + n)

/-- The owner lock allows the ring to start (R505). -/
def ownerOk (s : State) (n : Nat) : Bool :=
  !s.sec.locked || (s.regBit Reg.ownAuth n && (!s.withRing n || s.regBit Reg.ownAuth (16 + n)))

/-- The states in which a ring may be started (R183). -/
def startable (s : State) (n : Nat) : Bool := decide ((s.seq n).st ∈ [RingState.idle, .halted, .aborted])

/-- The check of START and ARM (R80, R184, R486, R505). -/
def startCheck (s : State) (n : Nat) : Err :=
  ((Err.need (s.startable n && decide (s.resqFill n ≤ s.regFld (Reg.resqHwm n) 15 0) && s.memOn n && !s.marchOn n && !s.shutting) .eState).orElse
    (Err.need (s.ownerOk n) .eAuth)).orElse
    (Err.need (!s.outBusy n && !s.unsettled n && !s.checkOn n) .eBusy)

/-! ### Starting -/

/-- The posts that have come reach ring `n`'s dr in this beat, the first in which they can be read (R117, R324, R330). -/
def decArrive (s : State) (n : Nat) : State :=
  let ps := s.arriving n
  if ps.isEmpty then s
  else
    let m := s.meetNow n
    let s := s.modSeq n fun q => { q with
      posts := q.posts.filter (fun p => !decide (p.due ≤ s.beat)), meet := some { m with posts := m.posts ++ ps } }
    ps.foldl (fun s p => s.applyPost n p) (if ps.any (!·.ownJug) then s.jugPend n 7 else s)

/-- A Juggler start (R336): the first packet issues in this beat. -/
def jugStart (s : State) (n : Nat) : State :=
  let pc := BitVec.ofNat 12 (s.regFld (Reg.jugCtrl n) 11 0)
  let s := s.modJug n fun j => { j with
    st := .running, pc := pc, stack := [], issueAt := s.beat, holdTo := 0, issuedAt := none, pipe := [], slots := none
    srBack := none, rtiHold := false, wait := none, inSlots := 0, stopReq := false, stopAt := none, ipend := 0, ipendB := 0, entryAt := none
    crdy := 0, frdy := 0, timerAt := none, outs := [], loopW := [] }
  [Reg.jugReg n 35, Reg.jugImc n, Reg.jugImf n].foldl (fun s a => s.setReg a 0) s

/-- Ring `n` runs with Trapeze decision posting or consumption enabled when its bit is set (R362). -/
def trapBits (s : State) (n : Nat) : Bool :=
  s.regBit Reg.trpXport (16 + n) || (List.range 16).any fun c => s.regBit (Reg.trpImport c) (16 + n)

/-- A ring that comes to run with Trapeze decisions takes back a window of its memories that the march test holds: the test of it is
abandoned, and no access of the ring waits (R23, R451; log entry 67). -/
def ownWindow (s : State) (n : Nat) : State :=
  if s.trapBits n then
    { s with memu := { s.memu with borrow := s.memu.borrow.map fun w =>
      if w.code ≤ 8 ∧ w.inst = n then { w with hit := some (s.beat - 2) } else w } }
  else s

/-- The ring starts in the present beat (R116, R188): the registers of R116 are initialised, voices and lanes set their phase
accumulators so that they hold 0 at pin beat S + 26 (R211, R276; log entry 22), and the Juggler starts with the ring (R337) where the owner lock
still allows it (R339). The
record index and NEXT_INDEX run on across starts (DESIGN CHOICE, log entry 84). -/
def startRing (s : State) (n : Nat) : State :=
  let S := s.beat
  let s := s.ownWindow n
  let s := ([Reg.seqSt n, Reg.seqRsc n, Reg.seqIllPc n].foldl (fun s a => s.setReg a 0) s).clearDr n
  let s := s.forBelow 16 fun i s => s.setReg (Reg.seqStack n i) 0
  let s := s.setReg64 (Reg.seqStartBeatLo n) s.beatCount
  let s := s.modSeq n fun q => { q with
    st := .running, wait := .none, issueAt := S, shotAt := S, refAt := S, taq := [], holdMarked := false
    thermEnd := none, thermHeld := false, evalAt := none, pWm := false, pCredit := false, udrCp1 := false, thrShot := false
    abortReq := none, haltFrom := none, shotNo := q.shotNo + 1, started := true, gridAt := S, syncAt := none
    caseGot := none, caseUse := none }
  let s := s.forBelow 32 fun v s => s.modVoice n v fun x => { x with pins := x.pins ++ [{ at_ := S + 26, kind := .zero }] }
  let s := s.forBelow 32 fun l s => s.zeroLane n l S
  let s := s.forBelow 4 fun b s => s.biasSample n b
  if s.withRing n && s.jugAllowed n then s.jugStart n else s

/-- ARM (R183); an ARMED ring runs (R23, R182). -/
def armRing (s : State) (n : Nat) : State := (s.ownWindow n).modSeq n fun q => { q with st := .armed, armedFrom := q.st, wait := .none }

/-- DISARM (R183): a timeout halt that waited for the ring's first boundary ends with it. -/
def disarmRing (s : State) (n : Nat) : State := s.modSeq n fun q => { q with st := q.armedFrom, haltPend := false }

/-- The check of RESUME (R183, R184, R486). -/
def resumeCheck (s : State) (n : Nat) : Err :=
  match (s.seq n).st with
  | .halted | .aborted =>
    (Err.need (s.memOn n && !s.marchOn n && !s.shutting) .eState).orElse (Err.need (!s.outBusy n && !s.unsettled n) .eBusy)
  | .running | .paused => Err.need ((s.seq n).haltPend && !s.shutting) .eState
  | _ => .eState

/-- RESUME (R23, R173, R183, R188, R197). -/
def resumeRing (s : State) (n : Nat) : State :=
  match (s.seq n).st with
  | .running | .paused => s.modSeq n fun q => { q with haltPend := false }
  | _ => ((s.ownWindow n).setReg64 (Reg.seqStartBeatLo n) s.beatCount).modSeq n fun q => { q with
      st := .running, wait := .none, issueAt := s.beat, refAt := s.beat, haltFrom := none, haltPend := false
      caseGot := none, caseUse := none }

/-! ### Stopping -/

/-- The per-shot flags of a ring's shot as they stand (R191, R295). -/
def shotFlags (s : State) (n : Nat) : BitVec 16 :=
  BitVec.ofNat 16 (2 * (s.regBit (Reg.seqSt n) 6).toNat + 4 * (s.regBit (Reg.seqSt n) 5).toNat + 16 * (s.seq n).thrShot.toNat)

/-- The records of the present shot receive its flags; the held ones become waiting (R191). -/
def endShotRecords (s : State) (n : Nat) : State :=
  (s.releaseHeld n (s.shotFlags n)).flagWins n (s.seq n).shotNo (s.shotFlags n)

/-- RSC as a stop saves it (R172). -/
def setRsc (s : State) (n cp arg : Nat) : State := s.setReg (Reg.seqRsc n) (BitVec.ofNat 32 (cp + 256 * arg))

/-- The ring enters HALTED (R191, R194, R225, R330). -/
def enterHalted (s : State) (n : Nat) : State :=
  ((s.modSeq n fun q => { q with st := .halted, wait := .none, haltPend := false }).endShotRecords n).jugPend n 4

/-- A host halt is taken at CP1 or CP2 of SHOT (R172, R194, R225): a pause pending there is void (R17). -/
def takeHalt (s : State) (n : Nat) : State :=
  let s := (s.setRsc n 2 0).haltVoices n true
  (s.modSeq n fun q => { q with thermEnd := none, pWm := false, pCredit := false }).enterHalted n

/-- A host halt or a timeout halt (R57, R192, R194): taken at once in CP2. An armed ring takes it at its first boundary; a ring that
aborts reaches none. -/
def requestHalt (s : State) (n : Nat) : State :=
  if (s.seq n).haltPend ∨ ¬ s.ringRuns n ∨ (s.seq n).st = .aborting then s
  else
    let s := s.modSeq n fun q => { q with haltPend := true }
    if (s.seq n).wait = .cp2 then s.takeHalt n else s

/-- A microword (R177): the fields that a program can observe, and the datapath control. -/
structure MicroWord where
  /-- NEXT -/
  next : BitVec 12
  /-- MWAY -/
  mway : BitVec 5
  /-- CP -/
  cp : Bool
  /-- CPN -/
  cpn : BitVec 4
  /-- HOLD -/
  hold : Bool
  /-- COND -/
  cond : BitVec 5
  /-- bits [99:0] -/
  control : BitVec 100
  deriving DecidableEq, Repr

/-- Whether the microword of a ring is a checkpoint (R170): the ring holds, or an instruction issues in this beat. The beat after a taken
branch, and one for which a borrowed window delays the fetch, is none (log entry 68). -/
def routineCp (s : State) (n : Nat) : Bool := decide ((s.seq n).wait ≠ .none) || decide ((s.seq n).issueAt ≤ s.beat)

/-- The number that the microword of a ring has for RSC.CP (R172): what an abort taken there saves. -/
def routineCpn (s : State) (n : Nat) : Nat :=
  match (s.seq n).wait with
  | .waitN _ => 1
  | .cp2 => 2
  | .cp0 | .cp1 _ => 0
  | _ => s.regFld (Reg.seqRsc n) 3 0

/-- The microword at the present microaddress of ring `n` (R174, R177). CP and CPN are what R170 and R172 give for microcode 2.0 (R178); the
other fields are the free value Config.microRom, since the spec lists no microcode (log entry 7). -/
def microWord (s : State) (n : Nat) : MicroWord :=
  let w := Config.microRom n (BitVec.ofNat 12 (s.regFld (Reg.seqUpc n) 11 0))
  { next := BitVec.ofNat 12 (fld w 127 116), mway := BitVec.ofNat 5 (fld w 115 111), cp := s.routineCp n
    cpn := BitVec.ofNat 4 (s.routineCpn n), hold := bit w 105, cond := BitVec.ofNat 5 (fld w 104 100)
    control := BitVec.ofNat 100 (fld w 99 0) }

/-- RSC for an abort, by the checkpoint at which it is taken (R172): CPN of its microword, and the routine's argument. -/
def abortRsc (s : State) (n : Nat) : State :=
  s.setRsc n (s.microWord n).cpn.toNat (match (s.seq n).wait with
    | .waitN t => min (t - s.beat) (2 ^ 24 - 1)
    | .cp2 | .cp0 | .cp1 _ => 0
    | _ => s.regFld (Reg.seqRsc n) 31 8)

/-- An ABORT flit is due for an abort accepted in a ring of TRP_ABORT.OUT_RINGS (R371): the aborts of one beat merge into the
lowest ring's. -/
def offerAbort (s : State) (n cause : Nat) : State :=
  if s.regBit Reg.trpAbort n then
    { s with trap := { s.trap with abortOut :=
      (match s.trap.abortOut with | some (m, c) => if m ≤ n then some (m, c) else some (n, cause) | none => some (n, cause)) } }
  else s

/-- An abort is accepted in the present beat (R131, R171, R195, R196, R233, R256): source 0 host, 1 Trapeze, 2 thermal shutdown,
3 machine check. Bias outputs hold; while the clear input is in force they go on to their clear codes (R16, R261; log entry 65). -/
def acceptAbort (s : State) (n src : Nat) : State :=
  let mck := src = 3
  let s := if mck then s.setRsc n 0 0 else s.abortRsc n
  let s := (s.raiseFlag (Reg.seqFlags n) 1).setReg (Reg.seqAbortSrc n) (BitVec.ofNat 32 src)
  let s := s.modSeq n fun q => { q with
    st := .aborting, wait := .none, taq := [], haltPend := false, thermEnd := none, pWm := false, pCredit := false
    abortReq := none, abortAt := some s.beat, mckAbort := mck, syncAt := none }
  let s := (s.voidHostFades n).abortWins n mck
  let s := s.forBelow 32 fun l s => match s.closing n l with | some w => s.closeWin n l w | none => s
  let s := if s.clrForce then s else s.forBelow 4 fun b s => s.biasStop n b
  let s := s.jugPend n 4
  if src = 1 then s else s.offerAbort n (if src = 0 then 0 else src)

/-- The sequencer is at a checkpoint (R170): CP of its microword is set. -/
def atCheckpoint (s : State) (n : Nat) : Bool := (s.microWord n).cp

/-- An abort reaches a ring (R183, R195): accepted at the first checkpoint; an armed ring is disarmed. -/
def requestAbort (s : State) (n src : Nat) : State :=
  match (s.seq n).st with
  | .running | .paused =>
    if s.atCheckpoint n then s.acceptAbort n src
    else if (s.seq n).abortReq.isSome then s else s.modSeq n fun q => { q with abortReq := some src }
  | .armed => s.disarmRing n
  | _ => s

/-! ### SEQ_CMD -/

/-- The check of a SEQ_CMD write (R183, R184). -/
def seqCmdCheck (s : State) (n : Nat) (v : Word) : Err :=
  let st := (s.seq n).st
  let live := decide (st = .running ∨ st = .paused)
  (Err.need (decide (popCount v 8 ≤ 1)) .eRange).orElse <|
    if bit v 0 ∨ bit v 6 then s.startCheck n
    else if bit v 1 then s.resumeCheck n
    else if bit v 2 then Err.need live .eState
    else if bit v 3 then Err.need (live || decide (st = .armed ∨ st = .aborting)) .eState
    else if bit v 7 then Err.need (decide (st = .armed)) .eState
    else .ok

/-- The effect of a SEQ_CMD write (R183). -/
def seqCmdDo (s : State) (n : Nat) (v : Word) : State :=
  if bit v 0 then s.startRing n
  else if bit v 1 then s.resumeRing n
  else if bit v 2 then s.requestHalt n
  else if bit v 3 then s.requestAbort n 0
  else if bit v 4 then s.modSeq n fun q => { q with hold := true }
  else if bit v 5 then s.modSeq n fun q => { q with hold := false }
  else if bit v 6 then s.armRing n
  else if bit v 7 then s.disarmRing n
  else s

/-! ### Shot boundary and shot start -/

/-- e of a ring: the largest excess of its governing sensors, those of its converter die and sensors 12 to 15 (R482). -/
def ringExcess (s : State) (n : Nat) : Nat :=
  let d := n / 3
  (([3 * d, 3 * d + 1, 3 * d + 2] ++ [12, 13, 14, 15]).map fun i => (s.hk.sens.getD i {}).excess).foldl max 0

/-- CP1, the boundary beat (R17, R80, R168, R189, R191, R230, R233, R483): a pending halt, the host's fade requests, and without a
halt the pause conditions. -/
def boundary (s : State) (n : Nat) : State :=
  let s := s.modSeq n fun q => { q with
    boundaryAt := s.beat, udrCp1 := s.regBit (Reg.seqSt n) 6 && s.regBit (Reg.seqCtrl n) 0, thermHeld := false, holdMarked := false }
  if (s.seq n).haltPend then (s.offerFades n).takeHalt n
  else
    let s := (s.endShotRecords n).offerFades n
    let e := s.ringExcess n
    let wm := decide (s.regFld (Reg.resqHwm n) 15 0 < s.resqFill n + s.pendingWins n)
    let s := s.raiseIf wm (Reg.resqFlags n) 0
    let s := s.forBelow 4 fun j s =>
      s.raiseIf (s.strmEn n j && decide (s.readyRun n j < s.regFld (Reg.strmLow n j) 6 0)) (Reg.strmFlags n j) 3
    s.modSeq n fun q => { q with
      wait := .cp2, evalAt := none, pWm := wm, pCredit := s.creditPause n
      thermEnd := if 1 ≤ e then some (s.beat + min (1500 * e) 1500000) else none }

/-- The pause conditions of one beat of CP2 (R80, R189), evaluated anew in every beat (log entry 5): whether one holds, and the ring
with them brought up to date. -/
def evalPauses (s : State) (n : Nat) : Bool × State :=
  let high := decide (s.regFld (Reg.resqHwm n) 15 0 < s.resqFill n + s.pendingWins n)
  let wm := ((s.seq n).pWm && decide (s.regFld (Reg.resqLwm n) 15 0 < s.resqFill n)) || high
  let s := s.raiseIf (high && !(s.seq n).pWm) (Reg.resqFlags n) 0
  let cr := s.creditPause n
  let s := s.forBelow 4 fun j s =>
    s.raiseIf (!(s.seq n).pCredit && s.strmEn n j && decide (s.readyRun n j < s.regFld (Reg.strmLow n j) 6 0)) (Reg.strmFlags n j) 3
  let th := (s.seq n).thermEnd.any fun t => decide (s.beat < t)
  let s := s.modSeq n fun q => { q with
    pWm := wm, pCredit := cr, thermEnd := if th then q.thermEnd else none, thermHeld := q.thermHeld || th, evalAt := some s.beat }
  (wm || cr || th || (s.seq n).hold, s)

/-- A PAUSED beat (R189, R190). -/
def pauseBeat (s : State) (n : Nat) : State :=
  let mark := (s.seq n).hold && !(s.seq n).holdMarked
  (s.modSeq n fun q => { q with st := .paused, holdMarked := q.holdMarked || q.hold }).raiseIf mark (Reg.seqFlags n) 0

/-- The present program counter. -/
def seqPc (s : State) (n : Nat) : Nat := s.regFld (Reg.seqPc n) 14 0

/-- The instruction completes: the next one, at address `pc`, may issue `k` beats from now (R120, R122, R172). -/
def goTo (s : State) (n pc k : Nat) : State :=
  ((s.setReg (Reg.seqPc n) (BitVec.ofNat 32 (pc % 32768))).setReg (Reg.seqRsc n) 0).modSeq n fun q => { q with
    wait := .none, issueAt := s.beat + k, caseGot := none, caseUse := none }

/-- The next instruction in program order may issue in the following beat. -/
def goNext (s : State) (n : Nat) : State := s.goTo n (s.seqPc n + 1) 1

/-- st.DEPTH. -/
def depth (s : State) (n : Nat) : Nat := s.regFld (Reg.seqSt n) 20 16

/-- Pushes a return address (R142). -/
def pushCall (s : State) (n a : Nat) : State :=
  let d := s.depth n
  (s.setReg (Reg.seqStack n d) (BitVec.ofNat 32 (a % 32768))).setFld (Reg.seqSt n) 20 16 (d + 1)

/-- CP3, the shot start (R118, R124, R168, R206, R254, R330). -/
def shotStart (s : State) (n : Nat) : State :=
  let s := (s.addReg (Reg.seqSc n) 1).clearValid n
  let s := s.setReg (Reg.seqSt n) (s.getReg (Reg.seqSt n) &&& ~~~(0x160 : Word))
  let s := s.modSeq n fun q => { q with
    st := .running, shotAt := s.beat, refAt := s.beat, thrShot := q.thermHeld, shotNo := q.shotNo + 1, gridAt := s.beat
    thermEnd := none, pWm := false, pCredit := false }
  let s := (s.forBelow 4 fun b s => s.biasSample n b).jugPend n 3
  let next := s.seqPc n + 1
  if (s.seq n).udrCp1 then
    if s.depth n < 16 then
      ((s.pushCall n next).raiseFlag (Reg.seqFlags n) 4).goTo n (s.regFld (Reg.seqUdrVec n) 14 0) 1
    else (s.raiseFlag (Reg.seqFlags n) 5).goTo n next 1
  else s.goTo n next 1

/-- HALT may complete: the queue is empty, every voice has finished, no window is open (R169). -/
def haltReady (s : State) (n : Nat) : Bool :=
  (s.seq n).taq.isEmpty && !(List.range 32).any (fun v => s.voiceBusy n v) && !s.windowOpen n

/-! ### What the host reads -/

/-- tb (R115, R118): beats since the shot start, saturating; 0 before the first start. -/
def seqTb (s : State) (n : Nat) : Word :=
  if (s.seq n).started then BitVec.ofNat 32 (min (s.beat - (s.seq n).shotAt) (2 ^ 32 - 1)) else 0

/-- SEQ_STATE.WAIT (R186). -/
def waitCode : Wait → Nat
  | .none | .cp1 _ => 0
  | .timing _ | .cond _ | .waitN _ => 1
  | .dec _ => 2
  | .caseW _ => 3
  | .waitc _ => 4
  | .sync _ => 5
  | .xsync _ _ => 6
  | .queueFull => 7
  | .cp0 | .haltDrain => 8
  | .cp2 => 9
  | .ld => 10

/-- SEQ_STATE.STATE (R181). -/
def ringCode : RingState → Nat
  | .idle => 0 | .armed => 1 | .running => 2 | .paused => 3 | .halted => 4 | .aborting => 5 | .aborted => 6 | .mck => 7

/-! ### Microcode -/

/-- The bits of a microword (R177). -/
def MicroWord.bits (m : MicroWord) : BitVec 128 :=
  m.next ++ (m.mway ++ (BitVec.ofBool m.cp ++ (m.cpn ++ (BitVec.ofBool m.hold ++ (m.cond ++ m.control)))))

/-- A microword with its parity bits, [131:128], as a copy gives it: parity bit q is the odd parity of bits [32q + 31:32q] (R174). -/
def microParity (w : BitVec 128) : BitVec 4 :=
  BitVec.ofNat 4 (((List.range 4).map fun q => if popCount (BitVec.ofNat 32 (fld w (32 * q + 31) (32 * q))) 32 % 2 = 0 then 2 ^ q else 0).sum)

/-- All four parity bits of a microword check (R174). -/
def microSound (w : BitVec 132) : Bool := decide (microParity (w.truncate 128) = BitVec.ofNat 4 (fld w 131 128))

/-- The microword at the present microaddress as copy A or B gives it to ring `n` in this beat: what the ROM holds, with the errors of that
read (R174; log entry 7). -/
def microRead (s : State) (n : Nat) (copyB : Bool) : BitVec 132 :=
  let w := (s.microWord n).bits
  (microParity w ++ w) ^^^ Config.microFlips n s.beat copyB (BitVec.ofNat 12 (s.regFld (Reg.seqUpc n) 11 0))

/-- Both copies fail in the present beat (R176). -/
def microLost (s : State) (n : Nat) : Bool := !microSound (s.microRead n false) && !microSound (s.microRead n true)

/-- The next microaddress (R177): HOLD repeats the microword until its condition holds; MWAY ORs four bits of dr into NEXT. -/
def microNext (s : State) (n : Nat) (w : BitVec 132) : BitVec 12 :=
  let mway := fld w 115 111
  if bit w 105 ∧ ¬ Config.microCond n s.beat (fld w 104 100) then BitVec.ofNat 12 (s.regFld (Reg.seqUpc n) 11 0)
  else
    BitVec.ofNat 12 (fld w 127 116) |||
      (if 1 ≤ mway ∧ mway ≤ 29 then BitVec.ofNat 12 (fld (s.getReg (Reg.seqDr n)) (mway + 2) (mway - 1)) else 0)

/-- The end of a beat: the microaddress goes on with the copy that checks; that of a ring that does not run stays (log entry 7). -/
def microStep (s : State) (n : Nat) : State :=
  if ¬ s.ringRuns n ∨ s.microLost n then s
  else
    let w := if microSound (s.microRead n false) then s.microRead n false else s.microRead n true
    s.setReg (Reg.seqUpc n) ((s.microNext n w).zeroExtend 32)

/-- A machine check of ring `n` at microaddress `upc` (R176): in any state in which the ring runs (R182). An abort that is under way
goes on, and ends in MCK. A ring that does not run raises nothing (log entry 7). -/
def machineCheck (s : State) (n : Nat) (upc : BitVec 12) : State :=
  if ¬ s.ringRuns n then s
  else
    let s := s.setReg (Reg.seqUpc n) (upc.zeroExtend 32)
    let s :=
      if (s.seq n).st = .aborting then (s.setRsc n 0 0).modSeq n fun q => { q with mckAbort := true }
      else s.acceptAbort n 3
    s.raiseEvent 0x0702 (ringSource n 0) (upc.zeroExtend 32)

/-- The microword of a beat (R174-R176), which ring `n` reads whether it runs or not: from copy A, from copy B where A fails, which raises
UCODE_PARITY with the microaddress and the failing copy, bit 12 = 0 for A, or a machine check where both fail. -/
def microBeat (s : State) (n : Nat) : State :=
  let u := BitVec.ofNat 12 (s.regFld (Reg.seqUpc n) 11 0)
  if microSound (s.microRead n false) then s
  else if microSound (s.microRead n true) then
    (s.raiseFlag (Reg.seqPflags n) 4).raiseEvent 0x0701 (ringSource n 0) (u.zeroExtend 32)
  else s.machineCheck n u

/-- A ring that a command of the present beat has started meets the microword of this beat, too (R174, R176). -/
def microLate (s : State) (n : Nat) : State :=
  if s.microLost n ∧ ¬ ((s.seq n).st = .aborting ∧ (s.seq n).mckAbort = true) then
    s.machineCheck n (BitVec.ofNat 12 (s.regFld (Reg.seqUpc n) 11 0))
  else s

/-- CHIP_STATUS.RING_MCK bit `n` (R176, R187). -/
def ringMck (s : State) (n : Nat) : Bool :=
  decide ((s.seq n).st = .mck ∨ ((s.seq n).st = .aborting ∧ (s.seq n).mckAbort = true))

end State

/-- ABORT_ACCEPT: a waiting abort is accepted at a checkpoint (R171, R195). -/
def execAbortAccept (n : RingId) (s : State) : Res :=
  .next <| match (s.seq n).abortReq with
    | some src => if s.ringRuns n ∧ s.atCheckpoint n then s.acceptAbort n src else s
    | none => s

/-- ABORT_RAMP_END: beat 25 of an abort (R191, R195). -/
def execAbortRampEnd (n : RingId) (s : State) : Res :=
  .next <| match (s.seq n).abortAt with
    | some b =>
      if b + 25 ≤ s.beat then
        ((s.stopVoices n).modSeq n fun q => { q with st := if q.mckAbort then .mck else .aborted, abortAt := none }).endShotRecords n
      else s
    | none => s

/-- MACHINE_CHECK: both copies of the microcode fail parity at `upc` (R176). The ring must run. -/
def execMachineCheck (n : RingId) (upc : BitVec 12) (s : State) : Res := .next (s.machineCheck n upc)

/-- HALT_COMPLETE: HALT's drain (R169, R225): once the queue is empty no repetition or chain starts; when all has ended the ring
enters HALTED with PC at the instruction after HALT. -/
def execHaltComplete (n : RingId) (s : State) : Res :=
  .next <|
    if (s.seq n).st = .running ∧ (s.seq n).wait = .haltDrain ∧ (s.seq n).taq = [] then
      let s := if (s.seq n).haltFrom.isNone then s.haltVoices n false else s
      if s.haltReady n then (s.goNext n).enterHalted n else s
    else s

/-- SHOT_BOUNDARY: CP0 passes when the queue is empty, and CP1 follows in the beat after (R168). -/
def execShotBoundary (n : RingId) (s : State) : Res :=
  .next <|
    if (s.seq n).st ≠ .running then s
    else match (s.seq n).wait with
      | .cp0 => if (s.seq n).taq = [] then s.modSeq n fun q => { q with wait := .cp1 (s.beat + 1) } else s
      | .cp1 t => if t ≤ s.beat then s.boundary n else s
      | _ => s

/-- SHOT_START: a beat of CP2: a halt, a pause, or the shot start in the first beat after CP1 without a pause condition (R168,
R189, R194). -/
def execShotStart (n : RingId) (s : State) : Res :=
  .next <|
    let q := s.seq n
    if (q.st = .running ∨ q.st = .paused) ∧ q.wait = .cp2 ∧ q.boundaryAt < s.beat ∧ q.evalAt ≠ some s.beat then
      if q.haltPend then s.takeHalt n
      else
        let (hold, s) := s.evalPauses n
        if hold then s.pauseBeat n else s.shotStart n
    else s

end Sys2Proof.Machine
end

