-- ==== Sys2Proof/Machine/Zwiec.lean ====
section
/-! DEFINITION. The Zwiec instructions: issue, timing, holds, the timed-action queue and what each instruction does (R119-R169,
R198-R200). A row of an instruction acts when the front end of its ring can issue that instruction in the present beat. -/

namespace Sys2Proof.Machine

namespace State

/-! ### Fetch and legality -/

/-- Byte address of the instruction at the program counter (R120). -/
def zAddr (s : State) (n : Nat) : Nat := ringMem n + 8 * s.seqPc n

/-- The instruction at the program counter (R120). -/
def zFetch (s : State) (n : Nat) : BitVec 64 :=
  match (s.seq n).caseUse with
  | some g => g.word
  | none => BitVec.ofNat 64 (ofLe (s.load (s.zAddr n) 8))

/-- The word at the program counter is uncorrectable (R440). -/
def zBad (s : State) (n : Nat) : Bool :=
  match (s.seq n).caseUse with
  | some g => g.bad
  | none => s.uncorr (s.zAddr n)

/-- The descriptor that a CASE has fetched for the PLAY at the program counter (R148). -/
def zGot (s : State) (n : Nat) : Option Desc := (s.seq n).caseUse.bind (·.desc)

/-- The front end may issue in this beat (R122): the ring is RUNNING and holds on nothing but an interlock or a full queue. -/
def zReady (s : State) (n : Nat) : Bool :=
  let q := s.seq n
  decide (q.st = .running) && decide (q.issueAt ≤ s.beat) && decide (q.wait ∈ [Wait.none, .ld, .queueFull])

/-- The rules of legality that the ring's state decides (R142, R160, R166, R167, R397). -/
def zStateLegal (s : State) (n : Nat) (w : BitVec 64) : Bool :=
  match zOp w with
  | 0x05 => bit w n
  | 0x06 => bit w s.chipNum
  | 0x09 => decide (s.depth n < 16)
  | 0x0A => decide (0 < s.depth n)
  | 0x2A => s.markOwned n (fld w 39 36) (fld w 35 33)
  | 0x2B => decide (s.regFld (Reg.tsetOwner (fld w 39 37)) 3 0 = n)
  | _ => true

/-- The instruction word of ring `n` is legal (R135). -/
def zLegal (s : State) (n : Nat) (w : BitVec 64) : Bool := zTimingLegal w && zOperandsLegal w && s.zStateLegal n w

/-- An LD of the ring that has not written a register the instruction names, or a request that port A has not served, holds the
front end (R126, R138, R442). -/
def ldBlocks (s : State) (n : Nat) (w : BitVec 64) : Bool :=
  (s.seq n).ldq.any fun r => r.served.isNone || r.rd.any fun x => decide (x ∈ zUses w)

/-! ### Registers -/

/-- A g register. -/
def gReg (s : State) (n i : Nat) : Word := s.getReg (Reg.seqG n i)

/-- A register by its 5-bit number (R133). -/
def zReg (s : State) (n i : Nat) : Word :=
  if i < 16 then s.gReg n i
  else if i < 20 then s.getReg (Reg.seqLc n (i - 16))
  else match i with
    | 20 => s.getReg (Reg.seqDr n)
    | 21 => s.getReg (Reg.seqSc n)
    | 22 => s.seqTb n
    | 23 => s.getReg (Reg.seqSt n)
    | 24 => s.getReg (Reg.seqDrvf n)
    | 25 => s.getReg (Reg.seqDrvc n)
    | _ => 0

/-- Writes a g register or a loop counter (R133). -/
def setZReg (s : State) (n i : Nat) (v : Word) : State :=
  if i < 16 then s.setReg (Reg.seqG n i) v else if i < 20 then s.setReg (Reg.seqLc n (i - 16)) v else s

/-- Sets Z, N, C and V of st (R137). -/
def setCond (s : State) (n : Nat) (c : Cond) : State :=
  s.setFld (Reg.seqSt n) 3 0 (c.z.toNat + 2 * c.n.toNat + 4 * c.c.toNat + 8 * c.v.toNat)

/-! ### Wait conditions and timing -/

/-- A wait condition holds in this beat (R134). -/
def condHolds (s : State) (n : Nat) (c : BitVec 16) : Bool :=
  match fld c 15 12 with
  | 0 => bitsValid (s.getReg (Reg.seqDrvf n)) (fld c 4 0) (fld c 7 5 + 1)
  | 1 => bitsValid (s.getReg (Reg.seqDrvc n)) (fld c 4 0) (fld c 7 5 + 1)
  | 2 => bit (s.getReg (Reg.trigLatch n)) (2 * fld c 2 0 + fld c 3 3)
  | 3 => decide ((s.gReg n (fld c 3 0)).toNat ≤ (s.seqTb n).toNat)
  | 4 => decide (fld c 8 2 ≤ s.readyRun n (fld c 1 0))
  | 5 => decide ((s.seq n).taq.length ≤ fld c 6 0)
  | _ => false

/-- The instruction goes on: a TRIG condition's latch clears (R134). -/
def condGo (s : State) (n : Nat) (c : BitVec 16) : State :=
  if fld c 15 12 = 2 then s.clearLatch n (BitVec.ofNat 32 (2 ^ (2 * fld c 2 0 + fld c 3 3))) else s

/-- Puts the front end into a hold. -/
def hold (s : State) (n : Nat) (h : Wait) : State := s.modSeq n fun q => { q with wait := h }

/-- The present beat becomes the reference beat (R124). -/
def refNow (s : State) (n : Nat) : State := s.modSeq n fun q => { q with refAt := s.beat }

/-- The beat a MODE 1 or 2 instruction names (R123). -/
def timedBeat (s : State) (n : Nat) (w : BitVec 64) : Nat :=
  (if zMode w = 1 then (s.seq n).shotAt else (s.seq n).refAt) + zT w

/-- The timing field of an instruction that holds the front end (R123-R125): whether it goes on in this beat. -/
def zGate (s : State) (n : Nat) (w : BitVec 64) : Bool × State :=
  if zMode w = 0 then (true, s)
  else if zMode w = 3 then
    let c := BitVec.ofNat 16 (zT w)
    if s.condHolds n c then (true, (s.condGo n c).refNow n) else (false, s.hold n (.cond c))
  else
    let t := s.timedBeat n w
    if s.beat < t then (false, s.hold n (.timing t))
    else (true, (if t < s.beat then s.markLate n else s).refNow n)

/-! ### Illegal instructions -/

/-- What an illegal instruction does once its timing is honoured (R135). -/
def zIll (s : State) (n : Nat) : State :=
  (((s.setBit (Reg.seqSt n) 7 true).raiseFlag (Reg.seqPflags n) 0).setReg (Reg.seqIllPc n)
    (BitVec.ofNat 32 (2 ^ 31 + s.seqPc n))).goNext n

/-! ### The timed-action queue -/

/-- EVT acts (R162). -/
def actEvt (s : State) (n : Nat) (w : BitVec 64) : State :=
  let s := (s.setReg (Reg.seqUser n) (BitVec.ofNat 32 (fld w 15 0))).raiseFlag (Reg.seqPflags n) 2
  if bit w 16 then s.jugPend n 2 else s

/-- An action takes effect in the present beat (R127, R150); `v1` and `v2` are its register operands as read at issue. -/
def actOne (s : State) (n : Nat) (w : BitVec 64) (v1 v2 : Word) : State :=
  match zOp w with
  | 0x20 => s.actPlay n w
  | 0x21 => s.actPlays n w
  | 0x22 => s.actStop n w
  | 0x23 => s.actFrq n w v1 v2
  | 0x24 => s.actPhs n w v1
  | 0x25 => s.actPhset n w v1
  | 0x26 => s.actAmp n w v1
  | 0x27 => s.actAcq n w
  | 0x28 => s.actKer n w
  | 0x29 => s.actBias n w v1
  | 0x2A => s.actMark w
  | 0x2B => s.actTset w v1
  | 0x2C => s.actFade n w
  | 0x2D => s.actSend n w v1 v2
  | 0x2E => s.actEvt n w
  | _ => s

/-- The register operands of an action, read in its issue beat (R126, R150). -/
def zVals (s : State) (n : Nat) (w : BitVec 64) : Word × Word :=
  if zOp w = 0x2D then (s.gReg n (fld w 39 36), s.gReg n (fld w 35 32))
  else (s.gReg n (fld w 3 0), s.gReg n ((fld w 3 0 + 1) % 16))

/-- Entries released in the present beat so far (R129). -/
def releasedNow (s : State) (n : Nat) : Nat := if (s.seq n).relBeat = s.beat then (s.seq n).relCount else 0

/-- The entries that a beat releases, of a queue in program order, with room for `k`; and those that stay (R129). -/
def pickDue (b : Nat) : Nat → List Entry → List Entry × List Entry
  | _, [] => ([], [])
  | k, e :: t =>
    if e.at_ ≤ b ∧ 0 < k then
      let r := pickDue b (k - 1) t
      (e :: r.1, r.2)
    else
      let r := pickDue b k t
      (r.1, e :: r.2)

/-- The queue releases its due entries, up to 8 in a beat, in program order (R129, R130); one released after its action beat is
late. -/
def releaseTaq (s : State) (n : Nat) : State :=
  let done := s.releasedNow n
  let (out, rest) := pickDue s.beat (8 - done) (s.seq n).taq
  let s := s.modSeq n fun q => { q with taq := rest, relBeat := s.beat, relCount := done + out.length }
  out.foldl (fun s e => ((if e.at_ < s.beat then s.markLate n else s).setGot n e.got).actOne n e.word e.v1 e.v2) s

/-- The queue can release an entry in this beat. -/
def releaseDue (s : State) (n : Nat) : Bool :=
  (s.seq n).taq.any (fun e => decide (e.at_ ≤ s.beat)) && decide (s.releasedNow n < 8)

/-- An action instruction of MODE 0 to 2 issues (R122-R125, R128): it enters the queue with its action beat, and acts in this
beat if that beat has come. -/
def zEnqueue (s : State) (n : Nat) (w : BitVec 64) : State :=
  let m := zMode w
  let t := if m = 0 then s.beat else s.timedBeat n w
  let s := if t < s.beat then s.markLate n else s
  let a := max t s.beat
  let s := if m = 0 then s else s.modSeq n fun q => { q with refAt := a }
  if s.zLegal n w then
    let v := s.zVals n w
    ((s.modSeq n fun q => { q with taq := q.taq ++ [{ at_ := a, word := w, v1 := v.1, v2 := v.2, got := s.zGot n }] }).goNext n).releaseTaq n
  else s.zIll n

/-! ### Control instructions -/

/-- The timeout beat of DEC, CASE and WAITC (R147, R200), from TOE and the tg index. -/
def timeoutAt (s : State) (n : Nat) (toe : Bool) (tg : Nat) : Option Nat :=
  if toe then some (s.beat + (s.gReg n tg).toNat) else none

/-- TOE of the DEC, CASE or WAITC at the program counter. -/
def zToe (w : BitVec 64) : Bool :=
  match zOp w with
  | 0x0E => bit w 25
  | 0x0D => bit w 32
  | _ => bit w 20

/-- A wait with TOE completes: st.TO clears (R147). -/
def clearTo (s : State) (n : Nat) (w : BitVec 64) : State := if zToe w then s.setBit (Reg.seqSt n) 4 false else s

/-- A CASE with P = 1 that waits for fine bits reads its table entry early, once the coarse value is there, and with a PLAY entry the
segment's descriptor and first granules (R148; log entry 63). -/
def caseFetch (s : State) (n : Nat) (w : BitVec 64) : State :=
  let b := fld w 39 35
  if (s.seq n).caseGot.isSome ∨ ¬ bit w 33 ∨ bit w 34 ∨ ¬ bitsValid (s.getReg (Reg.seqDrvc n)) b 4 then s
  else
    let v := fld (s.getReg (Reg.seqDr n)) (b + 3) b
    let a := ringMem n + 8 * (16 * fld w 25 15 + v)
    let e := s.word64 a
    let got : CaseGot := { val := v, word := e, bad := s.uncorr a }
    let s := s.rtRead a 8
    if zOp e = 0x20 ∧ ¬ got.bad then
      let (d, s) := s.fetchDesc n (fld e 34 23)
      s.modSeq n fun q => { q with caseGot := some { got with desc := some d } }
    else s.modSeq n fun q => { q with caseGot := some got }

/-- The CASE commits on value `v` (R146, R148): of what it has fetched early, `got`, what was fetched for `v` issues, and what was fetched
for another value is discarded. -/
def caseCommit (s : State) (n v : Nat) (got : Option CaseGot) : State :=
  s.modSeq n fun q => { q with caseUse := got.filter fun g => decide (g.val = v) }

/-- DEC and CASE complete when their bits are all valid (R145, R146, R117). A DEC that consumes nothing reads dr as it stands (log
entry 64). -/
def decTry (s : State) (n : Nat) (w : BitVec 64) : Option State :=
  if zOp w = 0x0E then
    let b := fld w 35 31
    let k := fld w 30 28 + 1
    (s.decSees n b k (bit w 27)).map fun r =>
      let v := fld (if bit w 26 then s.getReg (Reg.seqDr n) else r.1) (b + k - 1) b
      let s := s.setReg (Reg.seqG n (fld w 39 36)) (BitVec.ofNat 32 v)
      let s := if bit w 26 then s else s.consume n b k r.2
      (s.clearTo n w).goNext n
  else
    let b := fld w 39 35
    (s.decSees n b 4 (bit w 34)).map fun r =>
      let v := fld r.1 (b + 3) b
      (((s.consume n b 4 r.2).clearTo n w).goTo n (16 * fld w 25 15 + v) 2).caseCommit n v (s.seq n).caseGot

/-- A DEC or CASE that holds completes in this beat (R117). -/
def decGo (s : State) (n : Nat) : State :=
  match (s.seq n).wait with
  | .dec _ => if (s.seq n).st = .running then (s.decTry n (s.zFetch n)).getD s else s
  | .caseW _ => if (s.seq n).st = .running then (s.decTry n (s.zFetch n)).getD (s.caseFetch n (s.zFetch n)) else s
  | _ => s

/-- A DEC or CASE that holds sees its bits valid, or reads its table entry early. -/
def decGoDue (s : State) (n : Nat) : Bool :=
  let w := s.zFetch n
  decide ((s.seq n).st = .running) && match (s.seq n).wait with
    | .dec _ => (s.decTry n w).isSome
    | .caseW _ => (s.decTry n w).isSome ||
        ((s.seq n).caseGot.isNone && bit w 33 && !bit w 34 && bitsValid (s.getReg (Reg.seqDrvc n)) (fld w 39 35) 4)
    | _ => false

/-- WAITC completes when its condition holds (R165). -/
def waitcTry (s : State) (n : Nat) (w : BitVec 64) : Option State :=
  let c := BitVec.ofNat 16 (fld w 39 24)
  if s.condHolds n c then some (((s.condGo n c).clearTo n w).goNext n) else none

/-- A branch taken: the target issues 2 beats later (R141). -/
def branch (s : State) (n target : Nat) : State := s.goTo n target 2

/-- b of an arithmetic instruction (R136, R137): rb, or imm29 sign-extended. -/
def zB (s : State) (n : Nat) (w : BitVec 64) : Word :=
  if bit w 29 then BitVec.ofInt 32 (sfld w 28 0) else s.zReg n (fld w 28 24)

/-- The result and flags of an arithmetic instruction (R137), by OP. -/
def zAlu (op : Nat) (a b : Word) : Word × Cond :=
  let k := b.toNat % 32
  match op with
  | 0x13 => addCond a b
  | 0x14 | 0x1A => subCond a b
  | 0x15 => (a &&& b, .ofRes (a &&& b) false false)
  | 0x16 => (a ||| b, .ofRes (a ||| b) false false)
  | 0x17 => (a ^^^ b, .ofRes (a ^^^ b) false false)
  | 0x18 => (a <<< k, .ofRes (a <<< k) (decide (0 < k) && bit a (32 - k)) false)
  | _ => (a >>> k, .ofRes (a >>> k) (decide (0 < k) && bit a (k - 1)) false)

/-- ADD, SUB, AND, OR, XOR, SHL, SHR and CMP (R137). -/
def zArith (s : State) (n : Nat) (w : BitVec 64) : State :=
  let r := zAlu (zOp w) (s.zReg n (fld w 34 30)) (s.zB n w)
  let s := if zOp w = 0x1A then s else s.setZReg n (fld w 39 35) r.1
  (s.setCond n r.2).goNext n

/-- The word address of LD and ST (R138). -/
def zWordAddr (s : State) (n : Nat) (w : BitVec 64) : Nat :=
  ((s.gReg n (if zOp w = 0x11 then fld w 34 31 else fld w 35 32)).toNat + fld w 19 0) % 2 ^ 20

/-- Port A serves a ring's request in this beat, unless its bank has served another or a borrowed window holds it (R442, R443,
R451); the front end goes on in the beat after. -/
def serveLd (s : State) (n : Nat) : State :=
  match (s.seq n).ldq.find? (·.served.isNone) with
  | none => s
  | some r =>
    let aw := r.word / 8
    let a := 0x10000000 + 4 * r.word
    if s.memu.portA.any fun p => p.1 == aw % 16 then s
    else
      let (d, s) := s.touch a
      if 0 < d then s
      else
        let s := s.modMemu fun m => { m with portA := (aw % 16, aw, r.isStore) :: m.portA }
        let s := s.modSeq n fun q => { q with issueAt := max q.issueAt (s.beat + 1) }
        if r.isStore then
          (s.store a (leBytes 4 r.store.toNat)).modSeq n fun q => { q with ldq := q.ldq.filter fun x => x.served.isSome }
        else
          let v := s.loadWord a
          (s.eccRead a 4).modSeq n fun q => { q with
            ldq := q.ldq.map fun x => if x.served.isNone then { x with served := some s.beat, value := v } else x }

/-- LD and ST present a request to port A (R138). -/
def zMem (s : State) (n : Nat) (w : BitVec 64) : State :=
  let r : LdReq := {
    rd := if zOp w = 0x11 then some (fld w 39 35) else none, word := s.zWordAddr n w
    store := s.gReg n (fld w 39 36), isStore := zOp w == 0x12, issued := s.beat }
  ((s.modSeq n fun q => { q with ldq := q.ldq ++ [r] }).goNext n).serveLd n

/-- WAIT (R164). -/
def zWait (s : State) (n : Nat) (w : BitVec 64) : State :=
  let k := if bit w 32 then (s.gReg n (fld w 3 0)).toNat else fld w 31 0
  s.hold n (.waitN (s.beat + max 1 k))

/-- SHOT (R168): CP0 passes in this beat when the queue is empty. -/
def zShot (s : State) (n : Nat) : State :=
  s.hold n (if (s.seq n).taq.isEmpty then .cp1 (s.beat + 1) else .cp0)

/-- The rings of a SYNC mask all wait in SYNC with that mask (R166). -/
def syncAll (s : State) (m : BitVec 12) : Bool :=
  (onesOf m 12).all fun k => decide ((s.seq k).st = .running ∧ (s.seq k).wait = .sync m)

/-- SYNC (R166): the last ring to arrive fixes the release beat. -/
def zSync (s : State) (n : Nat) (w : BitVec 64) : State :=
  let m := BitVec.ofNat 12 (fld w 11 0)
  let s := s.hold n (.sync m)
  if s.syncAll m then s.forRings m fun k s => s.modSeq k fun q => { q with syncAt := some (s.beat + 8) } else s

/-- XSYNC (R167): the ring waits at a Trapeze barrier; the chip arrives by BARRIER_ARRIVE. -/
def zXsync (s : State) (n : Nat) (w : BitVec 64) : State :=
  s.hold n (.xsync (fld w 39 36) (BitVec.ofNat 16 (fld w 15 0)))

/-- RET (R142): pops a return address. -/
def popCall (s : State) (n : Nat) : Nat × State :=
  let d := s.depth n - 1
  ((s.getReg (Reg.seqStack n d)).toNat, (s.setReg (Reg.seqStack n d) 0).setFld (Reg.seqSt n) 20 16 d)

/-- LOOP (R143). -/
def zLoop (s : State) (n : Nat) (w : BitVec 64) : State :=
  let c : Word := if bit w 37 then s.gReg n (fld w 36 33) else BitVec.ofNat 32 (fld w 32 17)
  let s := s.setReg (Reg.seqLc n (fld w 39 38)) c
  if c = 0 then s.branch n (fld w 14 0 + 1) else s.goNext n

/-- ENDL (R143). -/
def zEndl (s : State) (n : Nat) (w : BitVec 64) : State :=
  let a := Reg.seqLc n (fld w 39 38)
  let c := s.getReg a
  if 1 < c.toNat then (s.setReg a (c - 1)).branch n (fld w 14 0) else (s.setReg a 0).goNext n

/-- A control instruction executes in the present beat. -/
def zControl (s : State) (n : Nat) (w : BitVec 64) : State :=
  match zOp w with
  | 0x01 => s.hold n .haltDrain
  | 0x02 => s.zShot n
  | 0x03 => s.zWait n w
  | 0x04 => (s.waitcTry n w).getD (s.hold n (.waitc (s.timeoutAt n (bit w 20) (fld w 19 16))))
  | 0x05 => s.zSync n w
  | 0x06 => s.zXsync n w
  | 0x08 => if brTaken (s.getReg (Reg.seqSt n)) (fld w 39 36) then s.branch n (fld w 14 0) else s.goNext n
  | 0x09 => (s.pushCall n (s.seqPc n + 1)).branch n (fld w 14 0)
  | 0x0A => let r := s.popCall n; r.2.branch n r.1
  | 0x0B => s.zLoop n w
  | 0x0C => s.zEndl n w
  | 0x0D =>
    let s := s.modSeq n fun q => { q with caseGot := none }
    (s.decTry n w).getD ((s.hold n (.caseW (s.timeoutAt n (bit w 32) (fld w 31 28)))).caseFetch n w)
  | 0x0E => (s.decTry n w).getD (s.hold n (.dec (s.timeoutAt n (bit w 25) (fld w 24 21))))
  | 0x10 => (s.setZReg n (fld w 39 35) (BitVec.ofNat 32 (fld w 31 0))).goNext n
  | 0x11 | 0x12 => s.zMem n w
  | 0x13 | 0x14 | 0x15 | 0x16 | 0x17 | 0x18 | 0x19 | 0x1A => s.zArith n w
  | _ => s.goNext n

/-- What an instruction does in the beat in which its timing lets it go on: an illegal one sets ILL, a MODE 3 action acts at
once without an entry (R128, R135). -/
def zBody (s : State) (n : Nat) (w : BitVec 64) : State :=
  if ¬ s.zLegal n w then s.zIll n
  else if zAction w then
    let v := s.zVals n w
    ((s.goNext n).setGot n (s.zGot n)).actOne n w v.1 v.2
  else s.zControl n w

/-- The instruction at the program counter goes on in this beat. -/
def zGoOn (s : State) (n : Nat) : State := s.zBody n (s.zFetch n)

/-- The instruction at the program counter resumes at a checkpoint (R173): SHOT at CP2, WAIT with the beats still to wait. -/
def zReenter (s : State) (n : Nat) : State :=
  let rsc := s.getReg (Reg.seqRsc n)
  if fld rsc 3 0 = 2 then s.modSeq n fun q => { q with
      wait := .cp2, boundaryAt := s.beat - 1, evalAt := none, holdMarked := false }
  else s.hold n (.waitN (s.beat + fld rsc 31 8))

/-- The front end issues the instruction at the program counter (R122, R126, R128). A borrowed window delays its fetch (R22), an
uncorrectable word is illegal with no timing hold (R440); an entry that a CASE has fetched is not fetched again (R148). The interlock of a
pending LD comes before the check of legality, so that an illegal word which names its rd waits as well (DESIGN CHOICE, log entry 90). -/
def zIssue (s : State) (n : Nat) : State :=
  let w := s.zFetch n
  let bad := s.zBad n
  let got := (s.seq n).caseUse.isSome
  let (d, s) := if got then (0, s) else s.touch (s.zAddr n)
  if 0 < d then s.modSeq n fun q => { q with issueAt := s.beat + d }
  else
    let s := if got then s else s.eccRead (s.zAddr n) 8
    if bad then s.zIll n
    else if s.regFld (Reg.seqRsc n) 3 0 ≠ 0 then s.zReenter n
    else if s.ldBlocks n w then s.hold n .ld
    else if ¬ zTimingLegal w then (s.hold n .none).zIll n
    else if zAction w ∧ zMode w ≠ 3 then
      if s.zLegal n w ∧ 64 ≤ (s.seq n).taq.length then s.hold n .queueFull else (s.hold n .none).zEnqueue n w
    else
      let (go, s) := (s.hold n .none).zGate n w
      if go then s.zBody n w else s

/-- The row of the instruction with opcode `op`: it issues when the front end can issue and the word at the program counter is a
legal instruction with that opcode (R132, R135). Nothing happens otherwise (log entry 4). -/
def zRow (s : State) (n op : Nat) : State :=
  let w := s.zFetch n
  if s.zReady n ∧ ¬ s.zBad n ∧ zOp w = op ∧ s.zLegal n w then s.zIssue n else s

/-! ### Leaving a hold -/

/-- The timeout beat of the hold of ring `n`. -/
def holdTimeout (s : State) (n : Nat) : Option Nat :=
  match (s.seq n).wait with
  | .dec t | .caseW t | .waitc t => t
  | _ => none

/-- The hold of ring `n` times out in this beat (R147, R200). -/
def timeoutDue (s : State) (n : Nat) : Bool :=
  decide ((s.seq n).st = .running) && (s.holdTimeout n).any fun t => decide (t ≤ s.beat)

/-- The wait condition of ring `n`'s hold, if it holds on one (R134). -/
def heldCond (s : State) (n : Nat) : Option (BitVec 16) :=
  if (s.seq n).st ≠ .running then none
  else match (s.seq n).wait with
    | .cond c => some c
    | .waitc _ => some (BitVec.ofNat 16 (fld (s.zFetch n) 39 24))
    | _ => none

/-- The instruction's wait condition holds and it goes on (R134, R165). -/
def condMet (s : State) (n : Nat) : State :=
  match (s.seq n).wait with
  | .cond c => (((s.condGo n c).refNow n).hold n .none).zGoOn n
  | .waitc _ => (s.waitcTry n (s.zFetch n)).getD s
  | _ => s

/-- An LD's value is due in its register: 4 beats after its request was served (R138). -/
def ldDue (s : State) (n : Nat) : Option LdReq :=
  (s.seq n).ldq.find? fun r => r.served.any fun b => decide (b + 4 ≤ s.beat)

/-- A request of ring `n` waits for port A. -/
def ldWaits (s : State) (n : Nat) : Bool := (s.seq n).ldq.any (·.served.isNone)

/-- Port A can serve ring `n`'s request in this beat (R442). -/
def ldServable (s : State) (n : Nat) : Bool :=
  (s.seq n).ldq.any fun r => r.served.isNone && !s.memu.portA.any fun p => p.1 == r.word / 8 % 16

/-- SEQ_STATE.WAIT now (R186, R442): a request that port A has not served shows as the LD interlock, which ends with the beat in which the
value is due (R138). -/
def seqWait (s : State) (n : Nat) : Nat :=
  let q := s.seq n
  let held := q.ldq.any fun r =>
    r.served.isNone || (r.served.all (fun b => decide (s.beat < b + 4)) && r.rd.any fun x => decide (x ∈ zUses (s.zFetch n)))
  match q.wait with
  | .none => if s.ldWaits n then 10 else 0
  | .ld => if held then 10 else 0
  | w => waitCode w

/-- SEQ_STATE (R186). -/
def seqState (s : State) (n : Nat) : Word :=
  let q := s.seq n
  BitVec.ofNat 32 (ringCode q.st + 2 ^ 8 * s.seqWait n + 2 ^ 16 * q.thermEnd.isSome.toNat + 2 ^ 17 * q.pWm.toNat +
    2 ^ 18 * q.pCredit.toNat + 2 ^ 19 * q.hold.toNat + 2 ^ 20 * q.haltPend.toNat + 2 ^ 24 * (s.outBusy n).toNat)

/-- The rings of a SYNC mask are released in this beat (R166). -/
def syncDue (s : State) (m : BitVec 12) : List Nat :=
  (List.range 12).filter fun k =>
    decide ((s.seq k).wait = .sync m) && (s.seq k).syncAt.any fun t => decide (t ≤ s.beat)

end State

/-! ### Rows of the opcode table -/

/-- ILLEGAL_INSTRUCTION: an illegal instruction issues (R135, R440): it honours its timing when that is legal, and then sets
ILL. -/
def execIllegalInstruction (n : RingId) (s : State) : Res :=
  .next <| if s.zReady n ∧ (s.zBad n ∨ ¬ s.zLegal n (s.zFetch n)) then s.zIssue n else s

/-- NOP (R132). -/
def execNop (n : RingId) (s : State) : Res := .next (s.zRow n 0x00)
/-- HALT (R169). -/
def execHalt (n : RingId) (s : State) : Res := .next (s.zRow n 0x01)
/-- SHOT (R168). -/
def execShot (n : RingId) (s : State) : Res := .next (s.zRow n 0x02)
/-- WAIT (R164). -/
def execWait (n : RingId) (s : State) : Res := .next (s.zRow n 0x03)
/-- WAITC (R165). -/
def execWaitc (n : RingId) (s : State) : Res := .next (s.zRow n 0x04)
/-- SYNC (R166). -/
def execSync (n : RingId) (s : State) : Res := .next (s.zRow n 0x05)
/-- XSYNC (R167). -/
def execXsync (n : RingId) (s : State) : Res := .next (s.zRow n 0x06)
/-- BR (R140). -/
def execBr (n : RingId) (s : State) : Res := .next (s.zRow n 0x08)
/-- CALL (R142). -/
def execCall (n : RingId) (s : State) : Res := .next (s.zRow n 0x09)
/-- RET (R142). -/
def execRet (n : RingId) (s : State) : Res := .next (s.zRow n 0x0A)
/-- LOOP (R143). -/
def execLoop (n : RingId) (s : State) : Res := .next (s.zRow n 0x0B)
/-- ENDL (R143). -/
def execEndl (n : RingId) (s : State) : Res := .next (s.zRow n 0x0C)
/-- CASE (R146). -/
def execCaseOp (n : RingId) (s : State) : Res := .next (s.zRow n 0x0D)
/-- DEC (R145). -/
def execDec (n : RingId) (s : State) : Res := .next (s.zRow n 0x0E)
/-- LDI (R136). -/
def execLdi (n : RingId) (s : State) : Res := .next (s.zRow n 0x10)
/-- LD (R138). -/
def execLd (n : RingId) (s : State) : Res := .next (s.zRow n 0x11)
/-- ST (R138). -/
def execSt (n : RingId) (s : State) : Res := .next (s.zRow n 0x12)
/-- ADD (R137). -/
def execAdd (n : RingId) (s : State) : Res := .next (s.zRow n 0x13)
/-- SUB (R137). -/
def execSub (n : RingId) (s : State) : Res := .next (s.zRow n 0x14)
/-- AND (R137). -/
def execAnd (n : RingId) (s : State) : Res := .next (s.zRow n 0x15)
/-- OR (R137). -/
def execOr (n : RingId) (s : State) : Res := .next (s.zRow n 0x16)
/-- XOR (R137). -/
def execXor (n : RingId) (s : State) : Res := .next (s.zRow n 0x17)
/-- SHL (R137). -/
def execShl (n : RingId) (s : State) : Res := .next (s.zRow n 0x18)
/-- SHR (R137). -/
def execShr (n : RingId) (s : State) : Res := .next (s.zRow n 0x19)
/-- CMP (R137). -/
def execCmp (n : RingId) (s : State) : Res := .next (s.zRow n 0x1A)
/-- PLAY (R151). -/
def execPlay (n : RingId) (s : State) : Res := .next (s.zRow n 0x20)
/-- PLAYS (R152). -/
def execPlays (n : RingId) (s : State) : Res := .next (s.zRow n 0x21)
/-- STOP (R153). -/
def execStop (n : RingId) (s : State) : Res := .next (s.zRow n 0x22)
/-- FRQ (R154). -/
def execFrq (n : RingId) (s : State) : Res := .next (s.zRow n 0x23)
/-- PHS (R155). -/
def execPhs (n : RingId) (s : State) : Res := .next (s.zRow n 0x24)
/-- PHSET (R155). -/
def execPhset (n : RingId) (s : State) : Res := .next (s.zRow n 0x25)
/-- AMP (R156). -/
def execAmp (n : RingId) (s : State) : Res := .next (s.zRow n 0x26)
/-- ACQ (R157). -/
def execAcq (n : RingId) (s : State) : Res := .next (s.zRow n 0x27)
/-- KER (R158). -/
def execKer (n : RingId) (s : State) : Res := .next (s.zRow n 0x28)
/-- BIAS (R159). -/
def execBias (n : RingId) (s : State) : Res := .next (s.zRow n 0x29)
/-- MARK (R160). -/
def execMark (n : RingId) (s : State) : Res := .next (s.zRow n 0x2A)
/-- TSET (R160). -/
def execTset (n : RingId) (s : State) : Res := .next (s.zRow n 0x2B)
/-- FADE (R161). -/
def execFade (n : RingId) (s : State) : Res := .next (s.zRow n 0x2C)
/-- SEND (R149). -/
def execSend (n : RingId) (s : State) : Res := .next (s.zRow n 0x2D)
/-- EVT (R162). -/
def execEvt (n : RingId) (s : State) : Res := .next (s.zRow n 0x2E)

/-- ACTION_RELEASE: the queue releases its due entries (R129). -/
def execActionRelease (n : RingId) (s : State) : Res := .next <| if s.releaseDue n then s.releaseTaq n else s

/-- TIMING_HOLD_END: a MODE 1 or 2 hold reaches its beat (R123, R124). -/
def execTimingHoldEnd (n : RingId) (s : State) : Res :=
  .next <| match (s.seq n).wait with
    | .timing t => if (s.seq n).st = .running ∧ t ≤ s.beat then ((s.refNow n).hold n .none).zGoOn n else s
    | _ => s

/-- WAIT_END: WAIT's beats have passed, and the next instruction may issue in this beat (R164). -/
def execWaitEnd (n : RingId) (s : State) : Res :=
  .next <| match (s.seq n).wait with
    | .waitN t => if (s.seq n).st = .running ∧ t ≤ s.beat then s.goTo n (s.seqPc n + 1) 0 else s
    | _ => s

/-- WAIT_CONDITION_MET: the condition of a WAITC or MODE 3 hold holds (R134). -/
def execWaitConditionMet (n : RingId) (s : State) : Res :=
  .next <| match s.heldCond n with
    | some c => if s.condHolds n c then s.condMet n else s
    | none => s

/-- DECISION_TIMEOUT: a DEC, CASE or WAITC with TOE times out (R147, R200): it consumes and writes nothing. -/
def execDecisionTimeout (n : RingId) (s : State) : Res :=
  .next <| if s.timeoutDue n then (s.setBit (Reg.seqSt n) 4 true).branch n (fld (s.zFetch n) 14 0) else s

/-- SYNC_RELEASE: the rings of a completed SYNC go on 8 beats after the last arrived, and that beat is their reference beat
(R124, R166). -/
def execSyncRelease (m : BitVec 12) (s : State) : Res :=
  .next <| (s.syncDue m).foldl (fun s k =>
    ((s.refNow k).goTo k (s.seqPc k + 1) 0).modSeq k fun q => { q with syncAt := none }) s

/-- LD_COMPLETE: a request of the ring is served by port A, or the value of one served 4 beats ago is written to rd (R138,
R442). -/
def execLdComplete (n : RingId) (s : State) : Res :=
  .next <| match s.ldDue n with
    | some r =>
      (s.setZReg n (r.rd.getD 0) r.value).modSeq n fun q => { q with ldq := q.ldq.filter fun x => decide (x.issued ≠ r.issued) }
    | none => s.serveLd n

/-- DECISION_ARRIVE: every post whose beat has come reaches the ring's dr, in the order of R324, and a DEC or CASE that waits for their
bits goes on (R117, R198). -/
def execDecisionArrive (n : RingId) (s : State) : Res := .next ((s.decArrive n).decGo n)

end Sys2Proof.Machine
end

