-- ==== Sys2Proof/Machine/JugCtl.lean ====
section
/-! DEFINITION. The Juggler outside its packets: registers, results in flight, ports, interrupts, the timer, start and stop (R305-R310,
R319-R322, R328-R341). -/

namespace Sys2Proof.Machine

/-! ### Registers -/

/-- A register as it is held and read: narrow ones zero-extended, o0 to o7 and the guard parts sign-extended, sr without its
reserved bits (R305, R306). -/
def jugNorm (r : Nat) (v : Word) : Word :=
  if r < 8 then v
  else if r < 16 then v &&& 0x1FFF
  else if r < 24 then BitVec.ofInt 32 (sfld v 13 0)
  else if r < 32 then v &&& 0x1FFF
  else if r < 34 then v &&& 0xFFF
  else if r = 34 then v &&& 0xFFFF
  else if r = 35 then v &&& 0x00FF01FF
  else if r = 38 ∨ r = 41 then BitVec.ofInt 32 (sfld v 7 0)
  else v

namespace State

/-- A register (R305). -/
def jReg (s : State) (n r : Nat) : Word := s.getReg (Reg.jugReg n r)

/-- Writes a register, keeping the low bits it holds (R305). -/
def setJReg (s : State) (n r : Nat) (v : Word) : State := s.setReg (Reg.jugReg n r) (jugNorm r v)

/-- sr (R306). -/
def jSr (s : State) (n : Nat) : Word := s.jReg n 35

/-- An accumulator as a number (R305). -/
def jAcc (s : State) (n a : Nat) : Int :=
  toSigned 72 ((s.jReg n (36 + 3 * a)).toNat + 2 ^ 32 * (s.jReg n (37 + 3 * a)).toNat +
    2 ^ 64 * ((s.jReg n (38 + 3 * a)).toNat % 256))

/-- Writes an accumulator, modulo 2^72 (R315). -/
def setJAcc (s : State) (n a : Nat) (x : BitVec 72) : State :=
  ((s.setJReg n (36 + 3 * a) (BitVec.ofNat 32 x.toNat)).setJReg n (37 + 3 * a) (BitVec.ofNat 32 (x.toNat >>> 32))).setJReg n
    (38 + 3 * a) (BitVec.ofNat 32 (x.toNat >>> 64))

/-- The present beat of the pipeline: a borrow hold stops it (R310). -/
def jBeat (s : State) (n : Nat) : Nat := s.beat - (s.jug n).held

/-! ### The loop registers -/

/-- ls, le, lc (0 to 2) or LEN (3) as visible. -/
def loopSeen (s : State) (n i : Nat) : Word :=
  if i = 3 then BitVec.ofNat 32 (fld (s.jSr n) 8 8) else s.jReg n (32 + i)

/-- The value of ls, le, lc or LEN that governs the loop test (R328). -/
def loopGov (s : State) (n i : Nat) : Word :=
  (((s.jug n).loopW.find? fun e => e.2.1 == i && decide (s.jBeat n < e.1)).map (·.2.2)).getD (s.loopSeen n i)

/-- Before a program write of a loop register becomes visible in pipeline beat `b`, its old value is kept to govern until
`b + 2` (R328). -/
def keepLoop (s : State) (n i b : Nat) : State :=
  let v := s.loopSeen n i
  s.modJug n fun j => { j with loopW := (j.loopW.filter fun e => decide (b < e.1)) ++ [(b + 2, i, v)] }

/-! ### Results in flight -/

/-- Puts a result on its way, behind those due no later (R307, R309). -/
def insertWr (w : JWr) : List JWr → List JWr
  | [] => [w]
  | x :: t => if w.due < x.due then w :: x :: t else x :: insertWr w t

/-- A result seen `k` pipeline beats from now (R307). -/
def jSend (s : State) (n k dst : Nat) (val : BitVec 72) (prog : Bool) : State :=
  s.modJug n fun j => { j with pipe := insertWr { due := s.jBeat n + k, dst := dst, val := val, prog := prog } j.pipe }

/-- One result becomes visible. -/
def jLand (s : State) (n : Nat) (w : JWr) : State :=
  let v := BitVec.ofNat 32 w.val.toNat
  let s := if w.prog ∧ 32 ≤ w.dst ∧ w.dst ≤ 35 then s.keepLoop n (w.dst - 32) w.due else s
  if w.dst < 42 then s.setJReg n w.dst v
  else match w.dst with
    | 42 => s.setJAcc n 0 w.val
    | 43 => s.setJAcc n 1 w.val
    | 44 => s.setJReg n 35 (putFld (s.jSr n) 3 0 v.toNat)
    | 45 => s.setJReg n 35 (putBit (putBit (s.jSr n) 4 (bit v 0)) 5 (bit v 0 || bit (s.jSr n) 5))
    | _ => s.setJReg n 35 (putBit (s.jSr n) 6 true)

/-- The results whose beat has come become visible (R307). -/
def jSettle (s : State) (n : Nat) : State :=
  let b := s.jBeat n
  let ws := (s.jug n).pipe.filter fun w => decide (w.due ≤ b)
  if ws.isEmpty then s
  else ws.foldl (fun s w => s.jLand n w) (s.modJug n fun j => { j with pipe := j.pipe.filter fun w => !decide (w.due ≤ b) })

/-! ### Ports -/

/-- The timer's present count (R340). -/
def jTimer (s : State) (n : Nat) : Word := BitVec.ofNat 32 (((s.jug n).timerAt.map (· - s.beat)).getD 0)

/-- A result port: 0 coarse, 1 fine; and its lane (R319). -/
def resPort (p : Nat) : Option (Bool × Nat) :=
  if p < 0x20 then some (false, p) else if 0x40 ≤ p ∧ p < 0x80 then some (true, (p - 0x40) / 2) else none

/-- An IN with CLR from a result port in the beat in which its result arrives reads the value before, and the ready bit stays 1
(R321). -/
def arrived (s : State) (n : Nat) (fine : Bool) (l : Nat) : Option (Word × Word) :=
  ((s.jug n).arr.find? fun e => e.1 == (if fine then 32 + l else l)).map fun e => (e.2.1, e.2.2.1)

/-- IN from a result port (R319-R321): the value and the state. -/
def inRes (s : State) (n p : Nat) (fine : Bool) (l : Nat) (clr : Bool) : Word × State :=
  let j := s.jug n
  let now : Word := if fine then (if p % 2 = 0 then j.fresI.getD l 0 else j.fresQ.getD l 0) else j.cres.getD l 0
  if ¬ clr then (now, s)
  else match s.arrived n fine l with
    | some (a, b) =>
      let k := if fine then 32 + l else l
      ((if fine ∧ p % 2 = 1 then b else a), s.modJug n fun j => { j with
        arr := j.arr.map fun e => if e.1 == k then (e.1, e.2.1, e.2.2.1, false) else e })
    | none => (now, s.modJug n fun j =>
        if fine then { j with frdy := putBit j.frdy l false } else { j with crdy := putBit j.crdy l false })

/-- IN (R319): the value and the state. -/
def jIn (s : State) (n p : Nat) (clr : Bool) : Word × State :=
  match resPort p with
  | some (fine, l) => s.inRes n p fine l clr
  | none =>
    let j := s.jug n
    if 0xC0 ≤ p ∧ p < 0xE0 then (j.rinfo.getD (p - 0xC0) 0, s)
    else match p with
      | 0x100 => (j.crdy, s)
      | 0x101 => (j.frdy, s)
      | 0x102 => (s.getReg (Reg.seqDr n), s)
      | 0x103 => (s.getReg (Reg.seqDrvf n), s)
      | 0x104 => (s.getReg (Reg.seqDrvc n), s)
      | 0x105 => (s.getReg (Reg.seqSc n), s)
      | 0x106 => (s.seqTb n, s)
      | 0x107 => (s.getReg (Reg.seqUser n), s)
      | 0x108 => (j.ipend.zeroExtend 32, s)
      | 0x109 => (loWord s.beatCount, s)
      | 0x10A => (s.getReg (Reg.jugMboxIn n), s)
      | 0x183 => (s.jTimer n, s)
      | 0x184 => (s.getReg (Reg.jugImc n), s)
      | 0x185 => (s.getReg (Reg.jugImf n), s)
      | _ => (0, s.raiseFlag (Reg.jugFlags n) 1)

/-- A port of the OUT column (R319). -/
def outPort (p : Nat) : Bool :=
  decide (p = 0x108 ∨ (0x180 ≤ p ∧ p ≤ 0x185) ∨ (0x200 ≤ p ∧ p < 0x220))

/-- OUT (R319): its effect falls in the following beat (R321, R322). -/
def jOut (s : State) (n p : Nat) (v : Word) : State :=
  if outPort p then s.modJug n fun j => { j with outs := j.outs ++ [(s.beat + 1, p, v)] }
  else s.raiseFlag (Reg.jugFlags n) 1

/-- The effect of an OUT (R319, R321, R322, R340). -/
def outAct (s : State) (n p : Nat) (v : Word) : State :=
  if 0x200 ≤ p then s.annotate n (p - 0x200) v
  else match p with
    | 0x108 => s.modJug n fun j => { j with ipend := j.ipend &&& ~~~ (v.truncate 8) }
    | 0x180 => s.modJug n fun j => { j with crdy := j.crdy &&& ~~~ v }
    | 0x181 => s.modJug n fun j => { j with frdy := j.frdy &&& ~~~ v }
    | 0x182 => s.setReg (Reg.jugMboxOut n) v
    | 0x183 => s.modJug n fun j => { j with timerAt := if v = 0 then none else some (s.beat + v.toNat) }
    | 0x184 => s.setReg (Reg.jugImc n) v
    | _ => s.setReg (Reg.jugImf n) v

/-- The OUTs due in this beat act: those to annotations at its end, when the windows that close in it have closed (R322), the others
at its start (R321). -/
def jugOuts (s : State) (n : Nat) (ann : Bool) : State :=
  let due := fun e : Nat × Nat × Word => decide (e.1 ≤ s.beat) && (decide (0x200 ≤ e.2.1) == ann)
  let os := (s.jug n).outs.filter due
  if os.isEmpty then s
  else os.foldl (fun s e => s.outAct n e.2.1 e.2.2) (s.modJug n fun j => { j with outs := j.outs.filter fun e => !due e })

/-! ### Boundaries: interrupts and stops -/

/-- The present beat begins at a boundary that R331 lets through, but for IE, IEN and the pending bits: a packet issued or a WAIT
held in the beat before. -/
def jBoundary (s : State) (n : Nat) : Bool :=
  let j := s.jug n
  decide (j.st = .running) && j.stopAt.isNone && decide (j.stack.length < 8) && j.slots.isNone && !j.rtiHold &&
    (j.wait.isSome || j.issuedAt.any fun b => b + 1 == s.beat) && j.issuedAt != some s.beat && j.entryAt != some s.beat

/-- The interrupt that is entered in this beat: the highest-priority one enabled and pending at the end of the beat before (R330,
R331). -/
def jEntry (s : State) (n : Nat) : Option Nat :=
  let sr := s.jSr n
  if s.jBoundary n ∧ bit sr 7 then
    (List.range 8).find? fun i => bit (s.jug n).ipendB i && bit sr (16 + i)
  else none

/-- The address at which a stop or an interrupt leaves the program: the WAIT in its hold, else the next packet. -/
def jNext (s : State) (n : Nat) : BitVec 12 :=
  match (s.jug n).wait with
  | some (_, _, a) => a
  | none => (s.jug n).pc

/-- The delay slots of an untaken branch that are left at the address a stop or an interrupt leaves: a WAIT held in the first of two issues
there again (R325, R331). -/
def slotsAt (j : Jug) : Nat := if j.wait.isSome ∧ j.inSlots = 1 then 2 else j.inSlots

/-- Interrupt entry (R331). -/
def jEnter (s : State) (n src : Nat) : State :=
  let sr := s.jSr n
  let pc := s.jNext n
  let vec := BitVec.ofNat 12 ((s.getReg (Reg.jugVbase n)).toNat + 4 * src)
  let s := s.modJug n fun j => { j with
    stack := (pc, some sr, slotsAt j) :: j.stack, ipend := putBit j.ipend src false, ipendB := putBit j.ipendB src false
    wait := none, inSlots := 0, pc := vec, issueAt := s.beat + 2, entryAt := some s.beat
    loopW := j.loopW.filter fun e => e.2.1 != 3 }
  s.setJReg n 35 (putBit (putBit sr 7 false) 8 false)

/-- The sr that an RTI restores comes into force, and its LEN governs the loop test (R332). -/
def jRestore (s : State) (n : Nat) : State :=
  match (s.jug n).srBack with
  | some v => (s.modJug n fun j => { j with srBack := none, loopW := j.loopW.filter fun e => e.2.1 != 3 }).setJReg n 35 v
  | none => s

/-- Issue stops at this boundary; the Juggler is HALTED two beats later (R337). -/
def jStop (s : State) (n k : Nat) : State :=
  let pc := s.jNext n
  s.modJug n fun j => { j with pc := pc, wait := none, stopReq := false, stopAt := some (s.beat + k) }

/-- FAULT (R338): causes 0 fetch, 1 stack full, 2 stack empty. -/
def jFault (s : State) (n cause : Nat) : State :=
  ((s.raiseFlag (Reg.jugFlags n) 3).setReg (Reg.jugFault n)
    (BitVec.ofNat 32 (2 ^ 31 + cause * 2 ^ 16 + (s.jug n).pc.toNat))).modJug n fun j => { j with st := .fault }

/-- What a Juggler does at the start of a beat: its results land, its OUTs act, a stop takes its boundary or ends (R307, R321,
R337). -/
def jugBeat (s : State) (n : Nat) : State :=
  let s := (s.jSettle n).jugOuts n false
  let j := s.jug n
  let s := if j.st = .running ∧ j.wait.isNone ∧ j.stopAt.isNone ∧ j.issueAt ≤ s.beat then s.jRestore n else s
  if j.st = .running ∧ j.stopAt.any (fun t => decide (t ≤ s.beat)) then
    s.modJug n fun j => { j with st := .halted, stopAt := none }
  else if j.stopReq ∧ s.jBoundary n then s.jStop n 2
  else s

/-- What a Juggler keeps from a beat that ends (R331). -/
def jugBeatEnd (s : State) (n : Nat) : State :=
  let s := s.jugOuts n true
  if (s.jug n).ipendB = (s.jug n).ipend then s else s.modJug n fun j => { j with ipendB := j.ipend }

/-! ### WAIT -/

/-- A WAIT's condition holds (R329). -/
def jWaitHolds (s : State) (n kind : Nat) (m : Word) : Bool :=
  let j := s.jug n
  match kind with
  | 0 => decide (j.crdy &&& m = m)
  | 1 => decide (j.frdy &&& m = m)
  | 2 => decide (j.crdy &&& m ≠ 0)
  | 3 => decide (j.frdy &&& m ≠ 0)
  | _ => decide (j.ipend.zeroExtend 32 &&& m ≠ 0)

/-- A WAIT ends in this beat: its condition holds in a beat after its issue, and no interrupt is entered (R329, R331). -/
def jWaitDue (s : State) (n : Nat) : Bool :=
  let j := s.jug n
  match j.wait with
  | some (k, m, _) =>
    decide (j.st = .running) && j.stopAt.isNone && decide (j.issueAt ≤ s.beat) && (s.jEntry n).isNone && s.jWaitHolds n k m
  | none => false

/-! ### Host side -/

/-- The owner lock allows a JUG_CMD.START (R505). -/
def jugAuth (s : State) (n : Nat) : Err := Err.need (s.jugAllowed n) .eAuth

/-- The check of a JUG_CMD write (R337, R505). -/
def jugCmdCheck (s : State) (n : Nat) (v : Word) : Err :=
  let st := (s.jug n).st
  (Err.need (decide (popCount v 3 ≤ 1)) .eRange).orElse <|
    if bit v 0 then (Err.need (decide (st = .idle ∨ st = .halted)) .eState).orElse (s.jugAuth n)
    else if bit v 1 then Err.need (decide (st = .running)) .eState
    else .ok

/-- The effect of a JUG_CMD write (R337). -/
def jugCmdDo (s : State) (n : Nat) (v : Word) : State :=
  if bit v 0 then s.jugStart n
  else if bit v 1 then s.modJug n fun j => { j with stopReq := true }
  else if bit v 2 then s.jugPend n 5
  else s

/-- JUG_CTRL, JUG_VBASE and JUG_REG may be written only while the Juggler is not RUNNING (R339). -/
def jugIdle (s : State) (n : Nat) : Err := Err.need (decide ((s.jug n).st ≠ .running)) .eState

/-- A value that JUG_REG[r] takes: what the register holds reads back as written (R306, R341). -/
def jugRegLegal (r : Nat) (v : Word) : Bool := decide (jugNorm r v = v)

/-- JUG_STATE (R341). -/
def jugState (s : State) (n : Nat) : Word :=
  let j := s.jug n
  let w := if s.beat < j.holdTo then 2
    else if j.stopAt.isSome ∨ j.entryAt.any (fun b => decide (s.beat ≤ b + 1)) then 3
    else if j.wait.isSome then 1 else 0
  let st := match j.st with | .idle => 0 | .running => 1 | .halted => 2 | .fault => 3
  BitVec.ofNat 32 (st + 2 ^ 4 * w + 2 ^ 8 * j.ipend.toNat + 2 ^ 16 * j.stack.length + 2 ^ 20 * (s.jNext n).toNat)

end State

/-- INTERRUPT_ENTRY: an enabled pending interrupt is entered at the boundary before this beat (R331). Nothing happens otherwise
(log entry 4). -/
def execInterruptEntry (n : RingId) (s : State) : Res :=
  .next <| match s.jEntry n with
    | some i => s.jEnter n i
    | none => s

/-- JUG_TIMER_EXPIRY: the timer reaches 0 (R340). -/
def execJugTimerExpiry (n : RingId) (s : State) : Res :=
  .next <| match (s.jug n).timerAt with
    | some t => if t ≤ s.beat then (s.modJug n fun j => { j with timerAt := none }).jugPend n 6 else s
    | none => s

/-- JUG_WAIT_RELEASE: a WAIT's condition holds and the next packet may issue in this beat (R329). -/
def execJugWaitRelease (n : RingId) (s : State) : Res :=
  .next <| if s.jWaitDue n then s.modJug n fun j => { j with wait := none, issueAt := s.beat } else s

end Sys2Proof.Machine
end

