-- ==== Sys2Proof/Machine/Juggler.lean ====
section
/-! DEFINITION. The Juggler's packets: encoding, legality, arithmetic, moves, control flow and loops (R311-R318, R323, R325-R335). A
row of a packet acts when the Juggler of its ring issues that packet in the present beat. -/

namespace Sys2Proof.Machine

/-! ### Encoding -/

/-- Class of a packet (R334). -/
def jClass (w : Word) : Nat := fld w 31 30
/-- MOP of a class M packet. -/
def jMop (w : Word) : Nat := fld w 29 28
/-- OP of a class A packet. -/
def jAop (w : Word) : Nat := fld w 29 25
/-- OP of a class C packet. -/
def jCop (w : Word) : Nat := fld w 29 24

/-- A move field is 0 or has EN set (R311). -/
def moveLegal (x : Nat) : Bool := decide (x = 0 ∨ x.testBit 8 = true)

/-- A class A operation that writes an accumulator (R334). -/
def accOp (op : Nat) : Bool := decide (0x11 ≤ op ∧ op ≤ 0x18)

/-- A control instruction, which may not stand in a delay slot (R325). -/
def jControl (w : Word) : Bool := jClass w == 2 && decide (1 ≤ jCop w ∧ jCop w ≤ 7)

/-- The rules of R334 and R335 for a class C packet. -/
def cLegal (w : Word) : Bool :=
  let z := fun hi lo => decide (fld w hi lo = 0)
  match jCop w with
  | 0x00 | 0x01 | 0x05 | 0x06 => z 23 0
  | 0x02 => decide (fld w 23 20 ≤ 0xD) && z 19 12
  | 0x03 => decide (fld w 23 20 ≤ 0xD) && z 16 0
  | 0x04 => z 23 12
  | 0x07 => !bit w 23 || z 19 12
  | 0x08 => z 16 8 && (if fld w 23 20 = 4 then z 19 17 else decide (fld w 23 20 < 4) && z 7 0)
  | 0x09 => z 19 16
  | 0x0A => decide (8 ≤ fld w 23 18 ∧ fld w 23 18 ≤ 35) && z 17 16
  | 0x0B => decide (fld w 23 18 ≤ 41 ∧ fld w 17 12 ≤ 41) && z 11 0
  | 0x0C => z 19 10 && (!bit w 20 || (State.resPort (fld w 9 0)).isSome)
  | 0x0D => z 20 10
  | 0x0E => z 15 12
  | 0x0F => z 19 6 && decide (fld w 5 0 ≤ 40)
  | _ => false

/-- A packet is legal wherever it stands (R335). -/
def jLegal (w : Word) : Bool :=
  let z := fun hi lo => decide (fld w hi lo = 0)
  let moves := moveLegal (fld w 17 9) && moveLegal (fld w 8 0)
  match jClass w with
  | 0 => moves && (match jMop w with | 0 => z 27 18 | 1 => z 18 18 | 2 => true | _ => false)
  | 1 =>
    let op := jAop w
    moves && decide (op ≤ 0x19) &&
      (if accOp op then z 24 22 && (z 21 19 || op == 0x12 || op == 0x15 || op == 0x16)
       else z 18 18 && (op != 0 || z 24 19))
  | 2 => cLegal w
  | _ => decide (fld w 27 22 ≤ 41) && z 21 13

/-- What a packet is, as the rows of the opcode table name it: class C by its OP, class A by 0x20 + OP, class M single and dual 0x40
and 0x41, moves only (class M or A) 0x20, absolute moves 0x42. -/
def jRowOf (w : Word) : Nat :=
  match jClass w with
  | 0 => if jMop w = 0 then 0x20 else 0x3F + jMop w
  | 1 => 0x20 + jAop w
  | 2 => jCop w
  | _ => 0x42

namespace State

/-- Byte address of a word of X (0) or Y (1) memory (R306). -/
def jData (n xy k : Nat) : Nat := ringMem n + 0x710000 + 0x10000 * xy + 4 * (k % 8192)

/-- The packet at the program counter (R306). -/
def jFetch (s : State) (n : Nat) : Word := s.loadWord (ringMem n + 0x700000 + 4 * (s.jug n).pc.toNat)

/-- The packet at the program counter is legal where it stands (R325, R335). -/
def jLegalHere (s : State) (n : Nat) (w : Word) : Bool := jLegal w && !(decide (0 < (s.jug n).inSlots) && jControl w)

/-- The Juggler issues a packet in this beat (R307, R329, R331, R337). -/
def jReady (s : State) (n : Nat) : Bool :=
  let j := s.jug n
  decide (j.st = .running) && j.wait.isNone && j.stopAt.isNone && decide (j.issueAt ≤ s.beat) && (s.jEntry n).isNone

/-! ### Moves -/

/-- The pointer after post-modify (R312). -/
def postMod (p : Nat) (o : Int) (m : Nat) : Nat :=
  if m = 0 then (((p : Int) + o) % 8192).toNat
  else
    let b := (((List.range 14).map fun i => 2 ^ i).find? fun x => decide (m ≤ x)).getD 8192
    let base := p / b * b
    let r := ((p - base : Nat) : Int) + o
    let r := if (m : Int) ≤ r then r - m else if r < 0 then r + m else r
    (((base : Int) + r) % 8192).toNat

/-- The new value of pointer `k` from the value `p` (R312). -/
def jPostMod (s : State) (n k p : Nat) : Nat :=
  postMod p (s.jReg n (16 + k)).toInt (s.jReg n (24 + k)).toNat

/-- One move (R311, R314): a load lands in two beats, a store at once. -/
def jMove (s : State) (n xy : Nat) (f : Nat) : State :=
  let x := BitVec.ofNat 9 f
  if ¬ bit x 8 then s
  else
    let a := jData n xy (s.jReg n (8 + fld x 7 5)).toNat
    let d := fld x 2 0
    if bit x 3 then s.rtStore a (leBytes 4 (s.jReg n d).toNat)
    else
      let v := s.loadWord a
      (s.rtRead a 4).jSend n 2 d (BitVec.ofNat 72 v.toNat) false

/-- The post-modifies of a packet's moves (R311, R312): when both name one pointer, X's applies first. -/
def jPointers (s : State) (n : Nat) (w : Word) : State :=
  let x := BitVec.ofNat 9 (fld w 17 9)
  let y := BitVec.ofNat 9 (fld w 8 0)
  let mx := bit x 8 && bit x 4
  let my := bit y 8 && bit y 4
  let kx := fld x 7 5
  let ky := fld y 7 5
  let px := s.jPostMod n kx (s.jReg n (8 + kx)).toNat
  let py := s.jPostMod n ky (if mx ∧ kx = ky then px else (s.jReg n (8 + ky)).toNat)
  let s := if mx ∧ ¬ (my ∧ kx = ky) then s.jSend n 1 (8 + kx) (BitVec.ofNat 72 px) false else s
  if my then s.jSend n 1 (8 + ky) (BitVec.ofNat 72 py) false else s

/-- The moves of a class M or A packet, X then Y (R309, R311, R312). -/
def jMoves (s : State) (n : Nat) (w : Word) : State :=
  ((s.jMove n 0 (fld w 17 9)).jMove n 1 (fld w 8 0)).jPointers n w

/-- The data memory addresses that a packet accesses. -/
def jTouched (s : State) (n : Nat) (w : Word) : List Nat :=
  let mv := fun xy f => let x := BitVec.ofNat 9 f; if bit x 8 then [jData n xy (s.jReg n (8 + fld x 7 5)).toNat] else []
  match jClass w with
  | 0 | 1 => mv 0 (fld w 17 9) ++ mv 1 (fld w 8 0)
  | 2 => []
  | _ => [jData n (fld w 29 29) (fld w 12 0)]

/-! ### Arithmetic -/

/-- A saturation sets SAT (R306, R341). -/
def jSat (s : State) (n : Nat) : State := (s.jSend n 1 46 1 false).raiseFlag (Reg.jugFlags n) 5

/-- Results of accumulators (R307, R315): modulo 2^72, with AV and AVS when one leaves the range. -/
def jAccs (s : State) (n : Nat) (rs : List (Nat × Int)) : State :=
  let av := rs.any fun r => !fits 72 r.2
  let s := rs.foldl (fun s r => s.jSend n 2 (42 + r.1) (BitVec.ofInt 72 r.2) false) s
  (s.jSend n 2 45 (if av then 1 else 0) false).raiseIf av (Reg.jugFlags n) 4

/-- The accumulator a MAC with CLR = 0 accumulates onto (R308): the result of the packet before, or the visible value. -/
def jAccFwd (s : State) (n a : Nat) : Int :=
  match (s.jug n).pipe.reverse.find? fun w => w.dst == 42 + a && w.due == s.jBeat n + 1 with
  | some w => w.val.toInt
  | none => s.jAcc n a

/-- A class M packet's arithmetic (R316). -/
def jMac (s : State) (n : Nat) (w : Word) : State :=
  let d := fun r => (s.jReg n r).toInt
  let ra := d (fld w 24 22)
  let rb := fld w 21 19
  let one := fun (a r : Nat) (neg : Bool) =>
    let base := if bit w 27 then 0 else s.jAccFwd n a
    (a, if neg then base - ra * d r else base + ra * d r)
  match jMop w with
  | 1 => s.jAccs n [one (fld w 25 25) rb (bit w 26)]
  | 2 =>
    let x := Nat.xor rb 1
    let (r0, r1) := if bit w 18 then (x, rb) else (rb, x)
    s.jAccs n [one 0 r0 (bit w 26), one 1 r1 (bit w 25)]
  | _ => s

/-- A class A accumulator operation (R334). -/
def jAccOp (s : State) (n : Nat) (w : Word) : State :=
  let a := fld w 18 18
  let x := s.jAcc n a
  let src := s.jReg n (fld w 21 19)
  let k := src.toNat % 64
  let r : Int := match jAop w with
    | 0x11 => 0
    | 0x12 => src.toInt
    | 0x13 => x + s.jAcc n (1 - a)
    | 0x14 => x - s.jAcc n (1 - a)
    | 0x15 => x * 2 ^ k
    | 0x16 => Int.fdiv x (2 ^ k)
    | 0x17 => -x
    | _ => x.natAbs
  s.jAccs n [(a, r)]

/-- A class A data operation on dst and src (R318, R334): its result, its flags, and whether it saturated. -/
def jAlu (op : Nat) (d x : Word) : Word × Cond × Bool :=
  let k := x.toNat % 32
  let plain := fun r : Word => (r, Cond.ofRes r false false, false)
  let clip := fun (v : Int) (r : Word × Cond) => (BitVec.ofInt 32 (sat 32 v), r.2, !fits 32 v)
  match op with
  | 0x01 => plain x
  | 0x02 => let r := addCond d x; (r.1, r.2, false)
  | 0x03 | 0x04 => let r := subCond d x; (r.1, r.2, false)
  | 0x05 => plain (d &&& x)
  | 0x06 => plain (d ||| x)
  | 0x07 => plain (d ^^^ x)
  | 0x08 => (d <<< k, .ofRes (d <<< k) (decide (0 < k) && bit d (32 - k)) false, false)
  | 0x09 => (d >>> k, .ofRes (d >>> k) (decide (0 < k) && bit d (k - 1)) false, false)
  | 0x0A => (d.sshiftRight k, .ofRes (d.sshiftRight k) (decide (0 < k) && bit d (k - 1)) false, false)
  | 0x0B => let r := subCond 0 x; (r.1, r.2, false)
  | 0x0C => clip x.toInt.natAbs (subCond 0 (BitVec.ofInt 32 (-(x.toInt.natAbs : Int))))
  | 0x0D => plain (if x.toInt < d.toInt then x else d)
  | 0x0E => plain (if d.toInt < x.toInt then x else d)
  | 0x0F => clip (d.toInt + x.toInt) (addCond d x)
  | 0x10 => clip (d.toInt - x.toInt) (subCond d x)
  | _ => plain (BitVec.ofNat 32 (2 * d.toNat + fld x 31 31))

/-- A class A packet's operation (R318, R334). -/
def jAluOp (s : State) (n : Nat) (w : Word) : State :=
  let op := jAop w
  if op = 0 then s
  else if accOp op then s.jAccOp n w
  else
    let dst := fld w 24 22
    let r := jAlu op (s.jReg n dst) (s.jReg n (fld w 21 19))
    let s := if op = 0x04 then s else s.jSend n 1 dst (BitVec.ofNat 72 r.1.toNat) false
    let c := r.2.1
    let s := s.jSend n 1 44 (BitVec.ofNat 72 (c.z.toNat + 2 * c.n.toNat + 4 * c.c.toNat + 8 * c.v.toNat)) false
    if r.2.2 then s.jSat n else s

/-- RND (R317). -/
def jRnd (s : State) (n : Nat) (w : Word) : State :=
  let x := roundShift (s.jAcc n (fld w 20 20)) (fld w 5 0)
  let s := s.jSend n 1 (fld w 23 21) (BitVec.ofNat 72 (BitVec.ofInt 32 (sat 32 x)).toNat) false
  if fits 32 x then s else s.jSat n

/-- An absolute move (R313). -/
def jAbsolute (s : State) (n : Nat) (w : Word) : State :=
  let a := jData n (fld w 29 29) (fld w 12 0)
  let r := fld w 27 22
  if bit w 28 then s.rtStore a (leBytes 4 (s.jReg n r).toNat)
  else
    let v := s.loadWord a
    (s.rtRead a 4).jSend n 2 r (BitVec.ofNat 72 v.toNat) true

/-! ### Control flow -/

/-- A branch condition (R325). -/
def jCond (s : State) (n c : Nat) : Bool :=
  match c with
  | 0xB => decide (s.jAcc n 0 < 0)
  | 0xC => decide (s.jAcc n 1 < 0)
  | 0xD => decide (s.jAcc n 0 = 0)
  | _ => brTaken (s.jSr n) c

/-- Where a packet sends the program counter. -/
inductive JFlow where
  /-- onward -/
  | plain
  /-- an untaken branch: two delay slots follow -/
  | untaken
  /-- DO with count 1 or more: to its first packet, past the loop hardware (R327) -/
  | into
  /-- a taken branch, with what its return-stack entry restores -/
  | taken (target : BitVec 12) (sr : Option (BitVec 32)) (ins : Nat)
  /-- DO with count 0 -/
  | skip (target : BitVec 12)
  /-- FAULT -/
  | fault (cause : Nat)
  deriving DecidableEq, Repr

/-- DO (R327). -/
def jDo (s : State) (n : Nat) (w : Word) : JFlow × State :=
  let pc := (s.jug n).pc
  let c : Nat := if bit w 23 then (s.jReg n (fld w 22 20)).toNat % 65536 else fld w 22 12
  let e := BitVec.ofNat 12 (fld w 11 0)
  let s := s.modJug n fun j => { j with loopW := [] }
  let s := ((s.setJReg n 32 ((pc + 1).zeroExtend 32)).setJReg n 33 (e.zeroExtend 32)).setJReg n 34 (BitVec.ofNat 32 c)
  let s := s.setJReg n 35 (putBit (s.jSr n) 8 (decide (0 < c)))
  if c = 0 then (.skip (e + 1), s) else (.into, s)

/-- A class C packet (R325-R329, R334). -/
def jCop_ (s : State) (n : Nat) (w : Word) : JFlow × State :=
  let pc := (s.jug n).pc
  let d := fun r => s.jReg n r
  let branch := fun (t : BitVec 12) => if s.jCond n (fld w 23 20) then JFlow.taken t none 0 else .untaken
  match jCop w with
  | 0x01 => (.plain, s)
  | 0x02 => (branch (BitVec.ofNat 12 (fld w 11 0)), s)
  | 0x03 => (branch (BitVec.ofNat 12 (fld (d (fld w 19 17)) 11 0)), s)
  | 0x04 =>
    if 8 ≤ (s.jug n).stack.length then (.fault 1, s)
    else (.taken (BitVec.ofNat 12 (fld w 11 0)) none 0, s.modJug n fun j => { j with stack := (pc + 3, none, 0) :: j.stack })
  | 0x05 | 0x06 =>
    match (s.jug n).stack with
    | [] => (.fault 2, s)
    | (a, sr, ins) :: t =>
      let rti := jCop w == 6
      (.taken a (if rti then sr else none) ins, s.modJug n fun j => { j with stack := t, rtiHold := rti || j.rtiHold })
  | 0x07 => s.jDo n w
  | 0x08 =>
    let k := fld w 23 20
    let m : Word := if k = 4 then BitVec.ofNat 32 (fld w 7 0) else d (fld w 19 17)
    (.plain, s.modJug n fun j => { j with wait := some (k, m, pc) })
  | 0x09 =>
    let r := fld w 23 21
    let v : Word := if bit w 20 then putFld (d r) 31 16 (fld w 15 0) else BitVec.ofInt 32 (sfld w 15 0)
    (.plain, s.jSend n 1 r (BitVec.ofNat 72 v.toNat) false)
  | 0x0A => (.plain, s.jSend n 1 (fld w 23 18) (BitVec.ofNat 72 (fld w 15 0)) true)
  | 0x0B => (.plain, s.jSend n 1 (fld w 23 18) (BitVec.ofNat 72 (d (fld w 17 12)).toNat) true)
  | 0x0C =>
    let r := s.jIn n (fld w 9 0) (bit w 20)
    (.plain, r.2.jSend n 2 (fld w 23 21) (BitVec.ofNat 72 r.1.toNat) false)
  | 0x0D => (.plain, s.jOut n (fld w 9 0) (d (fld w 23 21)))
  | 0x0E =>
    (.plain, s.postDecision n (d (fld w 23 21)) (d (fld w 20 18)) (BitVec.ofNat 12 (fld w 11 0)) (bit w 16) (bit w 17) true)
  | 0x0F => (.plain, s.jRnd n w)
  | _ => (.plain, s)

/-- What a legal packet does, and where it sends the program counter. -/
def jExec (s : State) (n : Nat) (w : Word) : JFlow × State :=
  match jClass w with
  | 0 => (.plain, (s.jMoves n w).jMac n w)
  | 1 => (.plain, (s.jMoves n w).jAluOp n w)
  | 2 => s.jCop_ n w
  | _ => (.plain, s.jAbsolute n w)

/-- The kept value of loop register `i` that governs in pipeline beat `b` becomes `v`; one kept for later beats stays (R328). -/
def setGov (b i : Nat) (v : Word) : List (Nat × Nat × Word) → List (Nat × Nat × Word)
  | [] => []
  | e :: t => if e.2.1 = i ∧ b < e.1 then (e.1, i, v) :: t else e :: setGov b i v t

/-- The loop hardware at the packet at `pc` (R328): the next address, and the state. -/
def jLoop (s : State) (n : Nat) (pc : BitVec 12) : BitVec 12 × State :=
  if s.loopGov n 3 = 0 ∨ s.loopGov n 1 ≠ pc.zeroExtend 32 then (pc + 1, s)
  else
    let c := s.loopGov n 2
    let held := (s.jug n).loopW.any fun e => e.2.1 == 2 && decide (s.jBeat n < e.1)
    let put := fun (v : Word) (s : State) =>
      if held then s.modJug n fun j => { j with loopW := setGov (s.jBeat n) 2 v j.loopW }
      else s.setJReg n 34 v
    if 2 ≤ c.toNat then ((s.loopGov n 0).truncate 12, put (c - 1) s)
    else if c = 1 then (pc + 1, put 0 s)
    else (pc + 1, s)

/-- The program counter, the delay slots and the next issue beat after the packet at `pc` (R325, R327, R328, R332). -/
def jAdvance (s : State) (n : Nat) (f : JFlow) : State :=
  let j := s.jug n
  let pc := j.pc
  let t := s.beat + 1
  match j.slots with
  | some (k, tgt, sr, ins) =>
    if 2 ≤ k then s.modJug n fun j => { j with slots := some (k - 1, tgt, sr, ins), inSlots := k - 1, pc := pc + 1, issueAt := t }
    else
      s.modJug n fun j => { j with slots := none, inSlots := ins, pc := tgt, issueAt := t, srBack := sr }
  | none =>
    match f with
    | .taken tgt sr ins =>
      s.modJug n fun j => { j with slots := some (2, tgt, sr, ins), inSlots := 2, pc := pc + 1, issueAt := t }
    | .skip tgt => s.modJug n fun j => { j with inSlots := 0, pc := tgt, issueAt := s.beat + 3 }
    | .fault c => s.jFault n c
    | .into => s.modJug n fun j => { j with inSlots := 0, pc := pc + 1, issueAt := t }
    | .plain | .untaken =>
      let r := s.jLoop n pc
      r.2.modJug n fun j => { j with
        inSlots := if f = .untaken then 2 else j.inSlots - 1, pc := r.1, issueAt := t }

/-- The Juggler issues the packet at its program counter (R307, R310, R325, R335, R338). -/
def jIssue (s : State) (n : Nat) : State :=
  let s := s.jSettle n
  let w := s.jFetch n
  let a := ringMem n + 0x700000 + 4 * (s.jug n).pc.toNat
  let bad := s.uncorr a
  let legal := s.jLegalHere n w
  let (d, s) := (a :: (if legal ∧ ¬ bad then s.jTouched n w else [])).foldl (fun (p : Nat × State) x =>
    let r := p.2.touch x
    (max p.1 r.1, r.2)) (0, s)
  if 0 < d then s.modJug n fun j => { j with held := j.held + d, holdTo := s.beat + d, issueAt := s.beat + d }
  else
    let s := (s.eccRead a 4).jRestore n
    let s := s.modJug n fun j => { j with issuedAt := some s.beat, rtiHold := j.rtiHold && j.slots.isSome }
    if bad then s.jFault n 0
    else if ¬ legal then
      ((s.raiseFlag (Reg.jugFlags n) 0).setReg (Reg.jugIllPc n) (BitVec.ofNat 32 (2 ^ 31 + (s.jug n).pc.toNat))).jAdvance n .plain
    else
      let r := s.jExec n w
      let s := r.2.jAdvance n r.1
      if jClass w = 2 ∧ jCop w = 1 then s.modJug n fun j => { j with stopAt := some (s.beat + 3) } else s

/-- The row of a packet: it issues when the Juggler issues a packet in this beat and the legal packet at the program counter is one
of this row. Nothing happens otherwise (log entry 4). -/
def jRow (s : State) (n row : Nat) : State :=
  let w := s.jFetch n
  if s.jReady n ∧ ¬ s.uncorr (ringMem n + 0x700000 + 4 * (s.jug n).pc.toNat) ∧ s.jLegalHere n w ∧ jRowOf w = row then s.jIssue n
  else s

end State

/-! ### Rows of the opcode table -/

/-- ILLEGAL_PACKET: an illegal packet issues as NOP (R335); an uncorrectable one puts the Juggler into FAULT (R338). -/
def execIllegalPacket (n : RingId) (s : State) : Res :=
  .next <|
    if s.jReady n ∧ (s.uncorr (State.ringMem n + 0x700000 + 4 * (s.jug n).pc.toNat) ∨ ¬ s.jLegalHere n (s.jFetch n)) then s.jIssue n
    else s

/-- MOVE: moves only (R311, R334). -/
def execMove (n : RingId) (s : State) : Res := .next (s.jRow n 0x20)
/-- MAC, single form (R316). -/
def execMac (n : RingId) (s : State) : Res := .next (s.jRow n 0x40)
/-- MAC2, dual form (R316). -/
def execMac2 (n : RingId) (s : State) : Res := .next (s.jRow n 0x41)
/-- MOV (R334). -/
def execMov (n : RingId) (s : State) : Res := .next (s.jRow n 0x21)
/-- ADD (R318). -/
def execJugAdd (n : RingId) (s : State) : Res := .next (s.jRow n 0x22)
/-- SUB (R318). -/
def execJugSub (n : RingId) (s : State) : Res := .next (s.jRow n 0x23)
/-- CMP (R318). -/
def execJugCmp (n : RingId) (s : State) : Res := .next (s.jRow n 0x24)
/-- AND (R318). -/
def execJugAnd (n : RingId) (s : State) : Res := .next (s.jRow n 0x25)
/-- OR (R318). -/
def execJugOr (n : RingId) (s : State) : Res := .next (s.jRow n 0x26)
/-- XOR (R318). -/
def execJugXor (n : RingId) (s : State) : Res := .next (s.jRow n 0x27)
/-- SHL (R318). -/
def execJugShl (n : RingId) (s : State) : Res := .next (s.jRow n 0x28)
/-- SHR (R318). -/
def execJugShr (n : RingId) (s : State) : Res := .next (s.jRow n 0x29)
/-- ASR (R334). -/
def execAsr (n : RingId) (s : State) : Res := .next (s.jRow n 0x2A)
/-- NEG (R318). -/
def execNeg (n : RingId) (s : State) : Res := .next (s.jRow n 0x2B)
/-- ABS (R318). -/
def execAbs (n : RingId) (s : State) : Res := .next (s.jRow n 0x2C)
/-- MIN (R318). -/
def execMin (n : RingId) (s : State) : Res := .next (s.jRow n 0x2D)
/-- MAX (R318). -/
def execMax (n : RingId) (s : State) : Res := .next (s.jRow n 0x2E)
/-- ADDS (R318). -/
def execAdds (n : RingId) (s : State) : Res := .next (s.jRow n 0x2F)
/-- SUBS (R318). -/
def execSubs (n : RingId) (s : State) : Res := .next (s.jRow n 0x30)
/-- ACLR (R334). -/
def execAclr (n : RingId) (s : State) : Res := .next (s.jRow n 0x31)
/-- AMOV (R334). -/
def execAmov (n : RingId) (s : State) : Res := .next (s.jRow n 0x32)
/-- AADD (R334). -/
def execAadd (n : RingId) (s : State) : Res := .next (s.jRow n 0x33)
/-- ASUB (R334). -/
def execAsub (n : RingId) (s : State) : Res := .next (s.jRow n 0x34)
/-- ASHL (R334). -/
def execAshl (n : RingId) (s : State) : Res := .next (s.jRow n 0x35)
/-- ASHR (R334). -/
def execAshr (n : RingId) (s : State) : Res := .next (s.jRow n 0x36)
/-- ANEG (R334). -/
def execAneg (n : RingId) (s : State) : Res := .next (s.jRow n 0x37)
/-- AABS (R334). -/
def execAabs (n : RingId) (s : State) : Res := .next (s.jRow n 0x38)
/-- SGNB (R334). -/
def execSgnb (n : RingId) (s : State) : Res := .next (s.jRow n 0x39)
/-- ABSOLUTE_MOVE (R313). -/
def execAbsoluteMove (n : RingId) (s : State) : Res := .next (s.jRow n 0x42)
/-- NOP (R334). -/
def execJugNop (n : RingId) (s : State) : Res := .next (s.jRow n 0x00)
/-- HALT (R337). -/
def execJugHalt (n : RingId) (s : State) : Res := .next (s.jRow n 0x01)
/-- BR (R325). -/
def execJugBr (n : RingId) (s : State) : Res := .next (s.jRow n 0x02)
/-- BRR (R325). -/
def execBrr (n : RingId) (s : State) : Res := .next (s.jRow n 0x03)
/-- CALL (R326). -/
def execJugCall (n : RingId) (s : State) : Res := .next (s.jRow n 0x04)
/-- RET (R326). -/
def execJugRet (n : RingId) (s : State) : Res := .next (s.jRow n 0x05)
/-- RTI (R332). -/
def execRti (n : RingId) (s : State) : Res := .next (s.jRow n 0x06)
/-- DO (R327). -/
def execDoLoop (n : RingId) (s : State) : Res := .next (s.jRow n 0x07)
/-- WAIT (R329). -/
def execJugWait (n : RingId) (s : State) : Res := .next (s.jRow n 0x08)
/-- LDI (R334). -/
def execJugLdi (n : RingId) (s : State) : Res := .next (s.jRow n 0x09)
/-- LDR (R334). -/
def execLdr (n : RingId) (s : State) : Res := .next (s.jRow n 0x0A)
/-- MOVR (R334). -/
def execMovr (n : RingId) (s : State) : Res := .next (s.jRow n 0x0B)
/-- IN (R319). -/
def execInPort (n : RingId) (s : State) : Res := .next (s.jRow n 0x0C)
/-- OUT (R319). -/
def execOutPort (n : RingId) (s : State) : Res := .next (s.jRow n 0x0D)
/-- POST (R323). -/
def execPost (n : RingId) (s : State) : Res := .next (s.jRow n 0x0E)
/-- RND (R317). -/
def execRnd (n : RingId) (s : State) : Res := .next (s.jRow n 0x0F)

end Sys2Proof.Machine
end

