-- ==== Sys2Proof/Machine/Trapeze.lean ====
section
/-! DEFINITION. Trapeze: bring-up and failure of links, the spare lane, decisions across chips, barriers and aborts (R342-R374,
R394). -/

namespace Sys2Proof.Machine

/-- STATUS.CAUSE of a failure (R374). -/
def causeCode : LinkCause → Nat
  | .noclk => 1 | .freq => 2 | .lanes => 3 | .skew => 4 | .align => 5 | .long => 6 | .peer => 7

/-- STATUS.STATE (R352). -/
def linkCode : LinkState → Nat
  | .off => 0 | .clock => 1 | .bit => 2 | .symbol => 3 | .deskew => 4 | .delay => 5 | .waitPeer => 6 | .up => 7 | .failed => 8

namespace State

/-! ### Links -/

/-- The receiver of a link enters a state. -/
def enterLink (s : State) (k : Nat) (st : LinkState) : State := s.modLink k fun l => { l with st := st, since := s.beat }

/-- Event data of the lane events: link, direction (1 receive) and lane (R111). -/
def laneData (k : Nat) (rx : Bool) (lane : Nat) : BitVec 32 := BitVec.ofNat 32 (k + 4 * rx.toNat + 8 * lane)

/-- A lane event; Trapeze events carry source byte 0x04 (R106). -/
def laneEvent (s : State) (code k : Nat) (rx : Bool) (lane : Nat) : State := s.raiseEvent code 0x04 (laneData k rx lane)

/-- The link goes to FAILED with a cause (R352, R353): an UP link sets LINK_DOWN, raises LANE_EXHAUSTED with lane field 0xF, and
sends no more DEC, BAR or ABORT. -/
def failLink (s : State) (k : Nat) (c : LinkCause) : State :=
  let wasUp := decide ((s.link k).st = .up)
  let s := (s.setFld (Reg.linkStatus k) 11 8 (causeCode c)).enterLink k .failed
  let s := s.modLink k fun l => { l with queue := l.queue.filter fun f => decide (3 < f.typ), down := l.down || wasUp }
  if wasUp then (s.raiseFlag (Reg.linkFlags k) 3).laneEvent 0x0503 k true 15 else s

/-- Some ring runs with Trapeze decisions enabled (R354, R362). -/
def trapRuns (s : State) : Bool := (List.range 12).any fun n => s.ringRuns n && s.trapBits n

/-- The check of a link CMD write (R353, R354). -/
def linkCmdCheck (s : State) (k : Nat) (v : Word) : Err :=
  (Err.need (fld v 1 0 != 3) .eRange).orElse <|
    if bit v 0 then Err.need ((s.link k).freqOk && !s.shutting) .eState
    else if bit v 1 then Err.need (!((s.link k).st == .up && s.trapRuns)) .eState
    else .ok

/-- The effect of a link CMD write: START begins bring-up anew, STOP takes the link to OFF (R352, R354). -/
def linkCmdDo (s : State) (k : Nat) (v : Word) : State :=
  if bit v 0 then
    (s.setFld (Reg.linkStatus k) 11 8 0).modLink k fun l =>
      { freqOk := l.freqOk, st := .clock, since := s.beat, txTrain := some (s.beat + 150000) }
  else if bit v 1 then
    if (s.link k).st = .off then s
    else (s.setFld (Reg.linkStatus k) 11 8 0).modLink k fun l => { freqOk := l.freqOk, st := .off, since := s.beat }
  else s

/-- TRP_LINK[k].STATUS (R374). -/
def linkStatus (s : State) (k : Nat) : Word :=
  let l := s.link k
  let w := s.getReg (Reg.linkStatus k)
  BitVec.ofNat 32 (linkCode l.st + 2 ^ 8 * fld w 11 8 + 2 ^ 16 * l.freqOk.toNat + 2 ^ 20 * l.mirror.getD 15 +
    2 ^ 24 * l.spareLane.getD 15 + 2 ^ 28 * fld w 31 28)

/-- The receiver decodes flits: DESKEW is past (R352). -/
def linkRx (s : State) (k : Nat) : Bool :=
  decide ((s.link k).st = .delay ∨ (s.link k).st = .waitPeer ∨ (s.link k).st = .up)

/-- A valid data flit of a type reaches the receiver of a link and counts (R347, R374). -/
def flitTaken (s : State) (k : Nat) (x : BitVec 64) (t : Nat) : Bool := s.linkRx k && flitOk x && decide (flitType x = t)

/-- Counts an accepted data flit. -/
def countRx (s : State) (k : Nat) : State := s.addReg64 (Reg.linkRxFlitsLo k) 1

/-- The delays of the last four TIME flits agree and are allowed: DELAY may be left (R352). -/
def delayDone (s : State) (k : Nat) : Bool :=
  let ds := (s.link k).delays
  s.trap.dbValid && decide (4 ≤ ds.length) && (ds.take 4).all (fun d => decide (d = ds.headD 0 ∧ 17 ≤ d ∧ d ≤ 32))

/-- A measurement of the link delay from a TIME flit, which is recorded (R350, R352, R359). -/
def timeFlit (s : State) (k : Nat) (x : BitVec 64) : State :=
  let s := (s.countRx k).setFld (Reg.linkStatus k) 31 28 (flitSrc x)
  let d := (s.db % 2 ^ 48 + 2 ^ 48 - fld x 56 9) % 2 ^ 48
  if (s.expectedPeer k).any fun c => c != flitSrc x then s.failLink k .peer
  else if ¬ s.trap.dbValid then s
  else if (s.link k).st = .delay then
    let was := (s.link k).delays
    let s := (s.setReg (Reg.linkDelay k) (BitVec.ofNat 32 (min d 63))).modLink k fun l => { l with delays := (d :: l.delays).take 4 }
    if 32 < d then s.failLink k .long
    else if d < 17 ∨ was.any (· ≠ d) then s.failLink k .align
    else s
  else if d ≠ s.regFld (Reg.linkDelay k) 5 0 then
    let s := (s.raiseFlag (Reg.linkFlags k) 4).setReg (Reg.linkDelay k) (BitVec.ofNat 32 (min d 63))
    if (s.link k).st = .up then s.failLink k .align else s
  else s

/-- Whether a cause can take the link to FAILED in its state (R352, R353). -/
def failAllowed (s : State) (k : Nat) (c : LinkCause) : Bool :=
  let l := s.link k
  match c, l.st with
  | .noclk, .clock => decide (l.since + 1500000 ≤ s.beat)
  | .noclk, .up => true
  | .freq, .clock | .freq, .up => !l.freqOk
  | .lanes, .bit | .lanes, .up => true
  | .lanes, .symbol => decide (l.since + 15000 ≤ s.beat)
  | .skew, .deskew => true
  | .align, .delay | .align, .up => true
  | .long, .delay => true
  | .peer, .delay => true
  | .peer, .waitPeer => decide (l.since + 1500000 ≤ s.beat)
  | _, _ => false

/-! ### The spare lane -/

/-- How many intervals in a row, up to now, a lane's marker has been missing (R356). -/
def missedRun (l : Link) (j b : Nat) : Nat := ((l.missed.find? fun e => e.1 = j ∧ b < e.2.1 + 256).map (·.2.2)).getD 0

/-- A data lane of a running link meets the condition of R356 and is not yet failing: ERR_THR symbol errors within 2^20 beats, or its
marker missing in two intervals in a row. -/
def laneDue (s : State) (k j : Nat) : Bool :=
  let l := s.link k
  s.linkRx k && decide (j < 8 ∧ l.spareLane ≠ some j ∧ l.failing ≠ some j ∧ j ∉ l.uncovered) &&
    (decide (s.regFld (Reg.linkCtrl k) 15 8 ≤ (l.errAt.filter fun e => decide (e.1 = j ∧ s.beat < e.2 + 2 ^ 20)).length) ||
      decide (2 ≤ missedRun l j s.beat))

/-- A lane does not train in BIT or SYMBOL (R352, R354): the spare replaces the first data lane at once, and a second lane, the spare among
them, fails the link. -/
def laneUntrained (s : State) (k j : Nat) : State :=
  let l := s.link k
  if l.spareLane = some j ∨ (j = 8 ∧ l.spareBad) then s
  else if l.spareLane.isSome ∨ l.spareBad then s.failLink k .lanes
  else if j = 8 then s.modLink k fun l => { l with spareBad := true }
  else (s.modLink k fun l => { l with spareLane := some j, returnFrom := s.beat }).laneEvent 0x0501 k true j

/-- A data lane is failing, or a lane does not train (R352, R354, R356, R358): a lane of a running link is to be mirrored, asked for from
the next beat on, and a second one with the spare in use or bad exhausts the link. -/
def laneFails (s : State) (k j : Nat) : State :=
  let l := s.link k
  if l.st = .bit ∨ (l.st = .symbol ∧ l.since + 15000 ≤ s.beat) then s.laneUntrained k j
  else if s.laneDue k j then
    let s := s.raiseFlag (Reg.linkFlags k) 0
    if l.spareLane.isSome ∨ l.spareBad ∨ l.failing.isSome then
      (s.modLink k fun l => { l with uncovered := l.uncovered ++ [j] }).laneEvent 0x0503 k true j
    else (s.modLink k fun l => { l with failing := some j, copyFrom := none }).sendLctl k 1 j (s.beat + 1)
  else s

/-- The partner's domain beat of the flit decoded in this beat (R350). -/
def rxDb (s : State) (k : Nat) : Nat := s.db - s.linkD k

/-- The copy on the spare has matched: four good marker intervals in a row (R356). -/
def copyMatched (s : State) (k : Nat) : Bool :=
  (s.link k).copyFrom.isSome && decide ((s.link k).goodFrom + 1024 ≤ s.beat)

/-- The swap of the failing lane is due: the first flit after the marker that follows the match (R356). -/
def swapDue (s : State) (k : Nat) : Bool :=
  let l := s.link k
  s.linkRx k && l.failing.isSome && l.spareLane.isNone && !l.spareBad && s.copyMatched k && decide (l.goodFrom + 1280 ≤ s.beat)

/-- The spare is found bad (R355, R356): it is free and has shown an error in 4 of 16 intervals, or 64 intervals of a copy have not
matched. -/
def spareBadDue (s : State) (k : Nat) : Bool :=
  let l := s.link k
  s.linkRx k && !l.spareBad && l.spareLane.isNone &&
    match l.failing, l.copyFrom with
    | none, _ => decide (4 ≤ (l.spareErrs.filter fun i => decide (l.spareErrs.headD 0 < i + 16)).length)
    | some _, some c => decide (c + 16384 ≤ s.beat ∧ c + 16384 < l.goodFrom + 1024)
    | some _, none => false

/-- The lane that the spare replaces may be taken back: RETURN_MS clean milliseconds have passed, and this beat's flit is the first after a
marker (R357). -/
def returnDueNow (s : State) (k : Nat) : Bool :=
  (s.link k).spareLane.isSome && s.linkRx k && s.regBit (Reg.linkCtrl k) 16 && decide (s.rxDb k % 256 = 0) &&
    decide ((s.link k).returnFrom + 1500000 * s.regFld (Reg.linkReturnMs k) 15 0 ≤ s.beat)

/-- A symbol error of a lane, or its missing marker (R343, R355-R357). -/
def laneSign (s : State) (k j : Nat) (err noMarker : Bool) : State :=
  if ¬ err ∧ ¬ noMarker then s
  else
    let s := if err then s.satReg (Reg.linkLaneErr k j) else s
    s.modLink k fun l => { l with
      returnFrom := if l.spareLane = some j then s.beat else l.returnFrom
      errAt := if err ∧ j < 8 then (j, s.beat) :: l.errAt.filter (fun e => decide (s.beat < e.2 + 2 ^ 20)) else l.errAt
      missed := if noMarker then
          (j, s.beat, (if l.missed.any fun e => decide (e.1 = j ∧ e.2.1 + 256 = s.beat) then missedRun l j (s.beat - 1) else 0) + 1) ::
            l.missed.filter fun e => decide (e.1 ≠ j)
        else l.missed }

/-- The spare shows an error or differs from what it copies (R355, R356): the interval counts against a free spare, and a copy that has not
matched starts its run of good intervals again with the next. -/
def spareSign (s : State) (k : Nat) : State :=
  s.modLink k fun l =>
    if l.failing.isSome then
      match l.copyFrom with
      | some c => if c ≤ s.beat ∧ ¬ s.copyMatched k then { l with goodFrom := c + ((s.beat - c) / 256 + 1) * 256 } else l
      | none => l
    else if l.spareLane.isNone ∧ l.spareErrs.head? ≠ some (s.rxDb k / 256) then
      { l with spareErrs := (s.rxDb k / 256 :: l.spareErrs).take 16 }
    else l

/-- What the lanes show in a beat takes effect. -/
def laneSigns (s : State) (k : Nat) (f : LaneSigns) : State :=
  let s := s.forBelow 9 fun j s => s.laneSign k j (bit f.errors j) (bit f.noMarker j)
  if bit f.errors 8 ∨ bit f.noMarker 8 ∨ f.mismatch then s.spareSign k else s

/-- A lane in use shows a symbol error or no marker: the symbols of the beat are no flit (R345). -/
def mixed (s : State) (k : Nat) (f : LaneSigns) : Bool :=
  let bad := fun j => bit f.errors j || bit f.noMarker j
  match (s.link k).spareLane with
  | some i => (List.range 9).any fun j => bad j && decide (j ≠ i)
  | none => (List.range 8).any bad

/-! ### Decisions across chips -/

/-- Inserts an exporting post in the order of R361. -/
def insertExport (p : Nat × Nat × Bool × BitVec 16 × BitVec 16) :
    List (Nat × Nat × Bool × BitVec 16 × BitVec 16) → List (Nat × Nat × Bool × BitVec 16 × BitVec 16)
  | [] => [p]
  | q :: t => if p.1 < q.1 then p :: q :: t else q :: insertExport p t

/-- The MASK and DATA of the DEC that the exporting posts of one CO value merge into (R361). -/
def mergeExport (s : State) (co : Bool) : BitVec 16 × BitVec 16 :=
  ((s.trap.exports.filter fun p => p.2.2.1 == co).foldl (fun l p => insertExport p l) []).foldl (fun a p =>
    let m := p.2.2.2.1
    (a.1 ||| m, (a.2 &&& ~~~m) ||| (p.2.2.2.2 &&& m))) (0, 0)

/-- The chip's own DEC of the present post beat (R361, R363, R364). -/
def exportBeat (s : State) : State :=
  let f := s.mergeExport false
  let c := s.mergeExport true
  let s := { s with trap := { s.trap with exports := [] } }
  let s := s.raiseIf (decide (f.1 ≠ 0 ∧ c.1 ≠ 0)) Reg.trpFlags 0
  let (co, m, d) := if f.1 ≠ 0 then (false, f) else (true, c)
  if m = 0 then s
  else if s.trap.lastDec.any fun p => decide (s.db < p + s.regFld Reg.trpXport 12 8) then s.raiseFlag Reg.trpFlags 0
  else
    ({ s with trap := { s.trap with lastDec := some s.db } }).spreadFlit (s.fwd s.chipNum)
      (mkFlit [(63, 61, 1), (60, 57, s.chipNum), (56, 56, co.toNat), (53, 46, s.db % 256), (45, 30, m.toNat), (29, 14, d.toNat)])
      (s.beat + 3)

/-- A DEC reaches the chip (R360, R365-R367). -/
def decFlit (s : State) (k : Nat) (x : BitVec 64) : State :=
  let s := (s.countRx k).forwardFlit x (s.beat + 2)
  let src := flitSrc x
  if s.regFld (Reg.trpImport src) 27 16 = 0 then s
  else if 64 ≤ s.trap.relBuf.length then s.raiseFlag Reg.trpFlags 7
  else
    let r := s.dbLatest 8 (fld x 53 46) + 56 + 40 * flitHops x
    let late := decide (r < s.db + 2)
    let e : RelDec := {
      release := if late then s.db + 2 else r, src := src, co := bit x 56, mask := BitVec.ofNat 16 (fld x 45 30)
      data := BitVec.ofNat 16 (fld x 29 14) }
    ({ s with trap := { s.trap with relBuf := s.trap.relBuf ++ [e] } }).raiseIf late Reg.trpFlags 2

/-- A held DEC is released to the importing rings (R365). -/
def releaseDec (s : State) (e : RelDec) : State :=
  let w := s.getReg (Reg.trpImport e.src)
  let pos := fld w 4 0
  s.forRings (BitVec.ofNat 12 (fld w 27 16)) fun n s =>
    s.addPost n { due := s.beat, data := BitVec.ofNat 32 (e.data.toNat <<< pos), mask := BitVec.ofNat 32 (e.mask.toNat <<< pos),
                  coarse := e.co, rank := e.src }

/-- A DEC of the release buffer is due. -/
def releaseDecDue (s : State) : Bool := s.trap.relBuf.any fun e => decide (e.release ≤ s.db)

/-! ### Barriers -/

/-- Changes barrier `b`. -/
def modBar (s : State) (b : Nat) (f : Barrier → Barrier) : State := { s with trap := { s.trap with bars := s.trap.bars.modify b f } }
/-- Barrier `b`. -/
def bar (s : State) (b : Nat) : Barrier := s.trap.bars.getD b {}

/-- The chip mask with which ring `n` waits in barrier `b`, if it does (R368). -/
def barWait (s : State) (n b : Nat) : Option (BitVec 16) :=
  let q := s.seq n
  if q.st = .armed then
    if s.regFld (Reg.seqStartCfg n) 3 0 = b then
      some (BitVec.ofNat 16 (s.regFld (Reg.seqStartCfg n) 31 16) ||| BitVec.ofNat 16 (2 ^ s.chipNum))
    else none
  else match q.wait with
    | .xsync c m => if q.st = .running ∧ c = b then some m else none
    | _ => none

/-- The masks of the local participants of barrier `b`, when all of them wait in it (R368). -/
def barMasks (s : State) (b : Nat) : Option (List (BitVec 16)) :=
  let ms := (onesOf (s.getReg (Reg.trpBar b)) 12).map fun n => s.barWait n b
  if ms ≠ [] ∧ ms.all (·.isSome) then some (ms.filterMap id) else none

/-- The chip has yet to arrive in barrier `b`, or to report differing masks (R368). -/
def arriveDue (s : State) (b : Nat) : Bool :=
  match s.barMasks b with
  | some (m :: t) => (s.bar b).arrived.isNone && (t.all (· == m) || !(s.bar b).mismatch)
  | _ => false

/-- The arrivals held: chips and beats, the own among them (R370). -/
def barHeld (s : State) (b : Nat) : List (Nat × Nat) :=
  (match (s.bar b).arrived with | some a => [(s.chipNum, a)] | none => []) ++ (s.bar b).got.map fun g => (g.1, g.2.1)

/-- The set of arrivals may have become complete (R370). -/
def barCheck (s : State) (b : Nat) : State :=
  let x := s.bar b
  if x.arrived.isSome ∧ x.full.isNone ∧
      (List.range 16).all (fun c => !bit x.mask c || (s.barHeld b).any fun h => h.1 == c) then
    s.modBar b fun x => { x with full := some s.db }
  else s

/-- The chip arrives in a barrier (R368, R369). -/
def arrive (s : State) (b : Nat) : State :=
  match s.barMasks b with
  | some (m :: t) =>
    if t.all (· == m) then
      let bad := (s.bar b).got.filter fun g => g.2.2 != m
      let s := bad.foldl (fun s _ => s.raiseFlag Reg.trpFlags 3) s
      let s := s.modBar b fun x => { x with arrived := some s.db, mask := m, got := x.got.filter fun g => g.2.2 == m }
      let s := s.spreadFlit (s.fwd s.chipNum)
        (mkFlit [(63, 61, 2), (60, 57, s.chipNum), (56, 53, b), (50, 35, s.db % 2 ^ 16), (34, 19, m.toNat)]) (s.beat + 1)
      s.barCheck b
    else (s.modBar b fun x => { x with mismatch := true }).raiseFlag Reg.trpFlags 3
  | _ => s

/-- Participants that no longer all wait may report differing masks anew when they meet again (R368). -/
def barMeet (s : State) : State :=
  if s.trap.bars.any (·.mismatch) then
    s.forBelow 16 fun b s => if (s.bar b).mismatch ∧ s.barMasks b = none then s.modBar b fun x => { x with mismatch := false } else s
  else s

/-- A BAR flit reaches the chip (R369). -/
def barFlit (s : State) (k : Nat) (x : BitVec 64) : State :=
  let s := (s.countRx k).forwardFlit x (s.beat + 2)
  let b := fld x 56 53
  let m := BitVec.ofNat 16 (fld x 34 19)
  let y := s.bar b
  if y.got.any (fun g => g.1 == flitSrc x) ∨ (y.arrived.isSome ∧ m ≠ y.mask) then s.raiseFlag Reg.trpFlags 3
  else (s.modBar b fun y => { y with got := y.got ++ [(flitSrc x, s.dbLatest 16 (fld x 50 35), m)] }).barCheck b

/-- The beat in which a complete barrier is released, and whether that is late (R370). -/
def barRelease (s : State) (b : Nat) : Option (Nat × Bool) :=
  match (s.bar b).full with
  | some f =>
    let r := ((s.barHeld b).map (·.2)).foldl max 0 + s.regFld Reg.trpBarlat 15 0
    some (if f ≤ r then (r, false) else (f + 1, true))
  | none => none

/-- A barrier is released (R167, R368, R370): the rings that wait in it go on, armed participants start. -/
def releaseBar (s : State) (b : Nat) (late : Bool) : State :=
  let set := s.getReg (Reg.trpBar b)
  let s := (s.raiseIf late Reg.trpFlags 4).setReg (Reg.barRel b) (BitVec.ofNat 32 s.db)
  let s := s.modBar b fun _ => {}
  s.forBelow 12 fun n s =>
    if (s.barWait n b).isNone then s
    else if (s.seq n).st = .armed then if bit set n then s.startRing n else s
    else ((s.raiseIf (!bit set n) Reg.trpFlags 5).refNow n).goTo n (s.seqPc n + 1) 0

/-- The check of a TRP_BAR write: E_STATE while a ring of the set in force waits on the barrier (R373). -/
def trpBarCheck (s : State) (b : Nat) : Err :=
  Err.need (!(onesOf (s.getReg (Reg.trpBar b)) 12).any fun n => (s.barWait n b).isSome) .eState

/-- BAR_STATUS[b] (R373). -/
def barStatus (s : State) (b : Nat) : Word :=
  BitVec.ofNat 32 (2 ^ 16 * ((List.range 16).map fun c => if (s.barHeld b).any (fun h => h.1 == c) then 2 ^ c else 0).sum)

/-! ### Aborts -/

/-- TRP_ABORT.SEND: an ABORT with ring field 0xF and cause 0 joins those of the beat (R371). -/
def sendAbort (s : State) : State :=
  { s with trap := { s.trap with abortOut := s.trap.abortOut.or (some (15, 0)) } }

/-- The ABORT flit of the present beat (R371). -/
def abortBeat (s : State) : State :=
  match s.trap.abortOut with
  | some (r, c) =>
    ({ s with trap := { s.trap with abortOut := none } }).spreadFlit (s.fwd s.chipNum)
      (mkFlit [(63, 61, 3), (60, 57, s.chipNum), (54, 51, r), (50, 49, c)]) s.beat
  | none => s

/-- An ABORT flit reaches the chip (R372). -/
def abortFlit (s : State) (k : Nat) (x : BitVec 64) : State :=
  let s := (s.countRx k).forwardFlit x (s.beat + 2)
  if s.regBit Reg.trpAbortChips (flitSrc x) then
    ({ s with trap := { s.trap with abortIn := s.trap.abortIn ++ [s.beat + 2] } }).raiseFlag Reg.trpFlags 6
  else s

/-- The Trapeze aborts due in this beat reach the rings of TRP_ABORT.IN_RINGS (R372). -/
def deliverAborts (s : State) : State :=
  if s.trap.abortIn.any fun t => decide (t ≤ s.beat) then
    ({ s with trap := { s.trap with abortIn := s.trap.abortIn.filter fun t => decide (s.beat < t) } }).forRings
      (BitVec.ofNat 12 (s.regFld Reg.trpAbort 27 16)) fun n s => s.requestAbort n 1
  else s

/-- A TMARK flit reaches the chip: an edge for the units whose TMARK_M names its marker (R393, R394). -/
def tmarkFlit (s : State) (k : Nat) (x : BitVec 64) : State :=
  let s := s.countRx k
  if ¬ s.trap.dbValid then s
  else
    let e := s.beat - (s.db - s.dbLatest 16 (fld x 52 37))
    let m := fld x 56 53
    let bin := 64 * e + fld x 36 31
    let (s, ok) := s.srcTakes (24 + 16 * k + m) bin
    if ok then s.forBelow 4 fun u s => if s.regFld (Reg.tiuCtrl u) 11 8 = m then s.offerTiu u (24 + k) bin (bit x 30) else s else s

/-! ### Register rules -/

/-- MEMBERS and TOPO are allowed together (R359, R373). -/
def domainLegal (s : State) (v : Word) : Bool :=
  let m := fld v 31 16
  let t := fld v 9 8
  decide (t ≠ 3) && (decide (m = 0) || m.testBit s.chipNum) && (t != 1 || decide (m < 32)) && (t != 2 || decide (m = 0 ∨ m = 0xFFFF))

/-- The least XGAP and BARLAT of a topology (R363, R370). -/
def minGap (s : State) : Nat := if s.topo = 1 then 2 else 8
/-- The least BARLAT (R370). -/
def minBarlat (s : State) : Nat := if s.topo = 1 then 64 else 160

/-- The check of a TRP_XPORT write (R362, R363, R373): it writes BASE and XGAP whatever their values. -/
def xportCheck (s : State) (v : Word) : Err :=
  (Err.need (decide (fld v 4 0 ≤ 16 ∧ s.minGap ≤ fld v 12 8)) .eRange).orElse (Err.need (!s.trapRuns) .eState)

/-- The check of a TRP_IMPORT write (R362, R373): RINGS may not change while a ring runs with Trapeze decisions. -/
def importCheck (s : State) (c : Nat) (v : Word) : Err :=
  (Err.need (decide (fld v 4 0 ≤ 16)) .eRange).orElse
    (Err.need (!(s.trapRuns && (s.regFld (Reg.trpImport c) 27 16 != fld v 27 16))) .eState)

/-- A TRP_XPORT or TRP_IMPORT write: a running ring that it enables takes back a borrowed window of its memories (R23). -/
def trapWrite (s : State) (a : Nat) (v : Word) : State :=
  (s.setReg a v).forBelow 12 fun n t => if t.ringRuns n && t.trapBits n && !s.trapBits n then t.ownWindow n else t

/-! ### Marker boundaries -/

/-- What a link's transmitter and receiver do at a marker (R355-R357): the mirror of a requested lane starts, and rotation
resumes after a return. -/
def markerActs (s : State) (k : Nat) : State :=
  let l := s.link k
  let s := match l.mirrorReq with
    | some j => s.modLink k fun l => { l with mirror := some j, mirrorReq := none }
    | none => s
  let s := if l.returnDue then
      ((s.modLink k fun l => { l with mirror := none, returnDue := false }).laneEvent 0x0502 k false (l.mirror.getD 15))
    else s
  if l.trainSent ∧ l.st = .waitPeer then s.sendLctl k 0 0 s.beat else s

end State

/-! ### Rows -/

/-- TRAINING_PATTERN_END: the D21.5 pattern ends and flits are sent (R352). -/
def execTrainingPatternEnd (k : Fin 4) (s : State) : Res :=
  .next <| match (s.link k).txTrain with
    | some t => if t ≤ s.beat then s.modLink k fun l => { l with txTrain := none, txOn := true } else s
    | none => s

/-- LINK_STATE_ADVANCE: the receiver leaves a bring-up state through its condition (R352). Nothing happens in a state whose
condition the registers show to be unmet (log entry 4). -/
def execLinkStateAdvance (k : Fin 4) (s : State) : Res :=
  .next <| match (s.link k).st with
    | .clock => if (s.link k).freqOk then s.enterLink k .bit else s
    | .bit => s.enterLink k .symbol
    | .symbol => s.enterLink k .deskew
    | .deskew => (s.modLink k fun l => { l with delays := [] }).enterLink k .delay
    | .delay =>
      if s.delayDone k then ((s.modLink k fun l => { l with trainSent := true }).enterLink k .waitPeer).sendLctl k 0 0 s.beat else s
    | _ => s

/-- LINK_UP: the partner is trained, and the link is UP from the next marker boundary (R352): one after the beat in which DELAY was left and
after that in which TRAIN_DONE was decoded. -/
def execLinkUp (k : Fin 4) (s : State) : Res :=
  .next <|
    let l := s.link k
    if l.st = .waitPeer ∧ l.peerDone ∧ s.db % 256 = 0 ∧ l.since < s.beat ∧ l.doneAt < s.beat then s.enterLink k .up else s

/-- LINK_FAIL: the link goes to FAILED (R352, R353). -/
def execLinkFail (k : Fin 4) (c : LinkCause) (s : State) : Res :=
  .next <| if s.failAllowed k c then s.failLink k c else s

/-- TIME_FLIT_RECEIVE (R350). -/
def execTimeFlitReceive (k : Fin 4) (x : BitVec 64) (s : State) : Res :=
  .next <| if s.flitTaken k x 6 then s.timeFlit k x else s

/-- FLIT_DISCARD: a beat with a mix of symbols, or a data flit that fails its checks, with what the lanes showed in it (R343, R345, R347,
R355-R357). In DESKEW, where symbols are locked but no flit is taken yet, symbol errors count. -/
def execFlitDiscard (k : Fin 4) (x : BitVec 64) (f : LaneSigns) (s : State) : Res :=
  .next <|
    if ¬ s.linkRx k then
      if (s.link k).st = .deskew then s.forBelow 9 fun j s => s.laneSign k j (bit f.errors j) false else s
    else
      let t := s.laneSigns k f
      if f.codeErr ∨ s.mixed k f then t.raiseFlag (Reg.linkFlags k) 2
      else t.raiseIf (!flitOk x) (Reg.linkFlags k) 1

/-- DEC_FLIT_TRANSMIT: the oldest ready DEC takes the transmit slot of this beat (R348, R364). -/
def execDecFlitTransmit (k : Fin 4) (s : State) : Res :=
  .next <| if s.slotFree k then
      match s.nextFlit k with
      | some f => if f.typ = 1 then s.takeSlot k f else s
      | none => s
    else s

/-- DEC_FLIT_RECEIVE (R365). -/
def execDecFlitReceive (k : Fin 4) (x : BitVec 64) (s : State) : Res :=
  .next <| if s.flitTaken k x 1 then s.decFlit k x else s

/-- DEC_RELEASE: the DECs whose release beat has come reach the importing rings, in ascending chip number (R324, R365). -/
def execDecRelease (s : State) : Res :=
  .next <|
    let es := s.trap.relBuf.filter fun e => decide (e.release ≤ s.db)
    let s := { s with trap := { s.trap with relBuf := s.trap.relBuf.filter fun e => !decide (e.release ≤ s.db) } }
    es.foldl State.releaseDec s

/-- BARRIER_ARRIVE: every local participant waits and the chip arrives (R368). -/
def execBarrierArrive (b : Fin 16) (s : State) : Res := .next <| if s.arriveDue b then s.arrive b else s

/-- BAR_FLIT_RECEIVE (R369). -/
def execBarFlitReceive (k : Fin 4) (x : BitVec 64) (s : State) : Res :=
  .next <| if s.flitTaken k x 2 then s.barFlit k x else s

/-- BARRIER_RELEASE: the release beat has come (R370). -/
def execBarrierRelease (b : Fin 16) (s : State) : Res :=
  .next <| match s.barRelease b with
    | some (r, late) => if r ≤ s.db then s.releaseBar b late else s
    | none => s

/-- ABORT_FLIT_RECEIVE (R372). -/
def execAbortFlitReceive (k : Fin 4) (x : BitVec 64) (s : State) : Res :=
  .next <| if s.flitTaken k x 3 then s.abortFlit k x else s

/-- TMARK_FLIT_RECEIVE (R394). -/
def execTmarkFlitReceive (k : Fin 4) (x : BitVec 64) (s : State) : Res :=
  .next <| if s.flitTaken k x 4 then s.tmarkFlit k x else s

/-- TRAIN_DONE: the partner has left DELAY (R352). -/
def execTrainDone (k : Fin 4) (x : BitVec 64) (s : State) : Res :=
  .next <| if s.flitTaken k x 5 ∧ fld x 56 53 = 0 then (s.countRx k).modLink k fun l =>
      { l with peerDone := true, doneAt := if l.peerDone then l.doneAt else s.beat }
    else s

/-- MIRROR_REQ: the transmitter copies the named lane on the spare from its next marker (R356). -/
def execMirrorReq (k : Fin 4) (x : BitVec 64) (s : State) : Res :=
  .next <| if s.flitTaken k x 5 ∧ fld x 56 53 = 1 then
      (s.countRx k).modLink k fun l => { l with mirrorReq := some (fld x 52 49) }
    else s

/-- SWAPPED: the partner takes the lane's byte from the spare (R356). -/
def execSwapped (k : Fin 4) (x : BitVec 64) (s : State) : Res :=
  .next <| if s.flitTaken k x 5 ∧ fld x 56 53 = 2 then (s.countRx k).laneEvent 0x0501 k false (fld x 52 49) else s

/-- RETURNED: the partner has taken the lane back; rotation resumes after the next marker (R357). -/
def execReturned (k : Fin 4) (x : BitVec 64) (s : State) : Res :=
  .next <| if s.flitTaken k x 5 ∧ fld x 56 53 = 3 then (s.countRx k).modLink k fun l => { l with returnDue := true } else s

/-- LANE_FAILING (R352, R354, R356, R358). Nothing happens to a lane of a running link that does not meet the condition of R356 (log
entry 4). -/
def execLaneFailing (k : Fin 4) (j : Fin 9) (s : State) : Res := .next (s.laneFails k j)

/-- LANE_SWAP: from the flit after a marker the failing lane's byte comes from the spare (R356). Nothing happens unless the copy has
matched (log entry 4). -/
def execLaneSwap (k : Fin 4) (s : State) : Res :=
  .next <| match (s.link k).failing with
    | some j =>
      if s.swapDue k then
        ((s.modLink k fun l => { l with spareLane := some j, failing := none, copyFrom := none, returnFrom := s.beat }).laneEvent
          0x0501 k true j).sendLctl k 2 j s.beat
      else s
    | none => s

/-- SPARE_BAD: the spare is not used until the next START (R355, R356); a lane that waited for it is uncovered (R358). Nothing happens
unless the spare has been found bad (log entry 4). -/
def execSpareBad (k : Fin 4) (s : State) : Res :=
  .next <|
    if ¬ s.spareBadDue k then s
    else
      let f := (s.link k).failing
      let s := (s.modLink k fun l => { l with
        spareBad := true, failing := none, copyFrom := none, uncovered := l.uncovered ++ f.toList }).raiseFlag (Reg.linkFlags k) 5
      match f with
      | some j => s.laneEvent 0x0503 k true j
      | none => s

/-- LANE_RETURN: after RETURN_MS clean milliseconds the receiver takes the lane back with the first flit after a marker (R357). -/
def execLaneReturn (k : Fin 4) (s : State) : Res :=
  .next <| match (s.link k).spareLane with
    | some j =>
      if s.returnDueNow k then
        ((s.modLink k fun l => { l with spareLane := none }).laneEvent 0x0502 k true j).sendLctl k 3 j s.beat
      else s
    | none => s

/-- MARKER_FLIT: the marker flit of a beat whose DB mod 256 is 255, with what follows it (R345, R355-R357). -/
def execMarkerFlit (k : Fin 4) (s : State) : Res :=
  .next <| if (s.link k).txOn ∧ s.db % 256 = 255 ∧ (s.link k).slotAt ≠ some s.beat then
      (s.modLink k fun l => { l with slotAt := some s.beat }).markerActs k
    else s

end Sys2Proof.Machine
end

