-- ==== Sys2Proof/Machine/Nvm.lean ====
section
/-! DEFINITION. The NVM: validity and age of its slots and copies, and the stores into them (R427-R431, R453, R492). -/

namespace Sys2Proof.Machine

/-- MAGIC of the areas (R492). -/
def calMagic : Word := 0x4C414345
/-- MAGIC of a clear-code copy. -/
def clrMagic : Word := 0x524C4345
/-- MAGIC of a repair-map copy. -/
def repMagic : Word := 0x52504552
/-- MAGIC of a network-configuration copy. -/
def netMagic : Word := 0x2054454E
/-- MAGIC of an owner record. -/
def ownMagic : Word := 0x524E574F
/-- MAGIC of a firmware slot. -/
def fwMagic : Word := 0x4D524946

/-- Bytes of content that an area holds beside its header (R427, R453, R492). -/
def areaRoom (magic : Word) : Nat :=
  if magic = calMagic then 65504 else if magic = fwMagic then 175072 else if magic = repMagic then 16352
  else if magic = netMagic then 480 else 224

/-- The addresses of the active trims and of the CELL_MAPs, which a calibration slot holds (R427). -/
def inCalSlot (a : Nat) : Bool :=
  decide ((0x30700 ≤ a ∧ a < 0x307C0) ∨ (0x33000 ≤ a ∧ a < 0x34800) ∨ (0x37000 ≤ a ∧ a < 0x38800)) ||
    decide (0x100000 ≤ a ∧ a < 0xD00000 ∧ 0x10000 ≤ a % 0x100000 ∧ a % 0x100000 < 0x14000 ∧ a % 0x1000 = 0x24)

/-- The addresses of the BIAS[k].CLEAR registers, which a clear-code copy holds (R427). -/
def inClrCopy (a : Nat) : Bool :=
  decide (0x100000 ≤ a ∧ a < 0xD00000 ∧ 0x30000 ≤ a % 0x100000 ∧ a % 0x100000 < 0x30400 ∧ a % 0x100 = 0x14)

/-- The addresses of the NET registers that a network-configuration copy holds, and of STARTUP_CFG (R91, R525). -/
def inNetCopy (a : Nat) : Bool := decide ((0x52000 ≤ a ∧ a < 0x52038)) || decide (a = Reg.startupCfg)

/-- The active trims and the CELL_MAPs in the order in which the model stores them (log entry 30). -/
def calAddrs : List Nat :=
  ((List.range 48).map fun k => 0x30700 + 4 * k) ++
    ((List.range 24).flatMap fun r => (List.range 49).map fun x => 0x33000 + 0x100 * r + 4 * x) ++
    ((List.range 48).flatMap fun t => (List.range 21).map fun w => 0x37000 + 0x80 * t + 4 * w) ++
    (List.range 12).flatMap fun n => (List.range 4).map fun c => 0x110024 + 0x100000 * n + 0x1000 * c

/-- The BIAS[k].CLEAR registers in order. -/
def clrAddrs : List Nat := (List.range 12).flatMap fun n => (List.range 4).map fun b => Reg.biasClear n b

/-- The registers of the network configuration in order. -/
def netAddrs : List Nat := ((List.range 14).map fun k => 0x52000 + 4 * k) ++ [Reg.startupCfg]

/-- The bytes of registers, those at their reset value not listed. -/
def wordBytesOf (as : List Nat) (ws : List (Nat × Word)) : List Byte :=
  as.flatMap fun a => leBytes 4 (((ws.find? fun e => e.1 = a).map (·.2)).getD (resetWord a)).toNat

/-- Bytes 0 to 27 of a header (R427). -/
def NvmHdr.bytes (h : NvmHdr) : List Byte :=
  leBytes 4 h.magic.toNat ++ leBytes 4 h.seq.toNat ++ leBytes 4 h.length.toNat ++ leBytes 2 h.format.toNat ++ [0, 0] ++
    leBytes 4 h.unit.toNat ++ List.replicate 8 0

/-- A header with its CHECK: the CRC-32C over its bytes 0 to 27 and the content (R427). -/
def NvmHdr.sealed (h : NvmHdr) (content : List Byte) : NvmHdr :=
  { h with check := BitVec.ofNat 32 (crc32 0x82F63B78 (h.bytes ++ content)) }

/-- An entry of the repair map (R453); a spare that is itself faulty shows row 0xFFFF (DESIGN CHOICE, log entry 30). -/
def RepEnt.word (e : RepEnt) : Word :=
  BitVec.ofNat 32 (2 ^ 28 * e.code + 2 ^ 24 * e.inst + 2 ^ 16 * e.spare + e.row.getD 0xFFFF)

/-- The entry that a word of the repair map holds (R453). -/
def RepEnt.ofWord (w : Word) : RepEnt :=
  { code := fld w 31 28, inst := fld w 27 24, spare := fld w 23 16, row := if fld w 15 0 = 0xFFFF then none else some (fld w 15 0) }

namespace State

/-- SERIAL[31:0] of the device. -/
def serial32 (s : State) : Word := loWord s.sec.fuses.serial

/-- A slot or copy is valid (R428). -/
def hdrValid (s : State) (magic : Word) (h : NvmHdr) : Bool :=
  decide (h.magic = magic ∧ h.format = 2 ∧ h.unit = s.serial32 ∧ h.length.toNat ≤ areaRoom magic) && h.checkOk

/-- Which of a pair is the newer valid one (R428): `some true` for B, none when neither is valid. -/
def newerOf (s : State) (magic : Word) (a b : NvmHdr) : Option Bool :=
  match s.hdrValid magic a, s.hdrValid magic b with
  | true, true => some (below a.seq b.seq)
  | true, false => some false
  | false, true => some true
  | false, false => none

/-- The header that a store writes into its target: SEQ one greater than that of the newer valid one, or 1 (R429). -/
def nextHdr (s : State) (magic : Word) (a b : NvmHdr) (len : Nat) (ok : Bool) : NvmHdr :=
  let seq := match s.newerOf magic a b with
    | some true => b.seq + 1
    | some false => a.seq + 1
    | none => 1
  { magic := magic, seq := seq, length := BitVec.ofNat 32 len, format := 2, unit := s.serial32, checkOk := ok }

/-- The target of a store: the one that is not the newer valid one; A when neither is valid (R429). -/
def targetB (s : State) (magic : Word) (a b : NvmHdr) : Bool := s.newerOf magic a b == some false

/-- The headers of the pair that a store writes. -/
def pairOf (s : State) : StoreKind → Word × NvmHdr × NvmHdr
  | .cal => (calMagic, s.nvm.calA.hdr, s.nvm.calB.hdr)
  | .clr => (clrMagic, s.nvm.clrA.hdr, s.nvm.clrB.hdr)
  | .rep => (repMagic, s.nvm.repA.hdr, s.nvm.repB.hdr)
  | .net => (netMagic, s.nvm.netA.hdr, s.nvm.netB.hdr)

/-- Changes the NVM. -/
def modNvm (s : State) (f : Nvm → Nvm) : State := { s with nvm := f s.nvm }
/-- Changes the calibration unit. -/
def modCal (s : State) (f : CalUnit → CalUnit) : State := { s with cal := f s.cal }

/-- Replaces the header of one of a pair. -/
def setHdr (s : State) (k : StoreKind) (toB : Bool) (h : NvmHdr) : State :=
  s.modNvm fun v => match k, toB with
    | .cal, false => { v with calA := { v.calA with hdr := h } }
    | .cal, true => { v with calB := { v.calB with hdr := h } }
    | .clr, false => { v with clrA := { v.clrA with hdr := h } }
    | .clr, true => { v with clrB := { v.clrB with hdr := h } }
    | .rep, false => { v with repA := { v.repA with hdr := h } }
    | .rep, true => { v with repB := { v.repB with hdr := h } }
    | .net, false => { v with netA := { v.netA with hdr := h } }
    | .net, true => { v with netB := { v.netB with hdr := h } }

/-- An NVM write of the security engine is under way (R502). -/
def secWrites (s : State) : Bool :=
  match s.sec.op with
  | some o => o.writing && (match o.kind with | .fuse _ => false | _ => true)
  | none => false

/-- NVM is busy: a store runs, or a firmware update (R430). -/
def nvmBusy (s : State) : Bool :=
  s.cal.store.isSome || (match s.sec.op with | some o => decide (o.kind = .update) || s.secWrites | none => false)

/-- The check of a write that starts a store (R430, R91, R453). -/
def storeCheck (s : State) : Err := (Err.need (!s.shutting) .eState).orElse (Err.need (!s.nvmBusy) .eBusy)

/-- The registers that a store copies in its first beat, those that differ from their reset value (R429). -/
def staged (s : State) (p : Nat → Bool) : List (Nat × Word) := s.regs.filter fun e => p e.1

/-- The slot assignments: 48 slots of each RX channel, then its mapped-out slice (R427). -/
def slotMap (s : State) : List (List Nat) :=
  (List.range 24).map fun r => (s.cal.rx.getD r {}).slots ++ [s.regFld (Reg.rxcalStatus r) 23 18]

/-- A store starts (R429): its content is copied, and the target is erased first. -/
def startStore (s : State) (k : StoreKind) : State :=
  let (m, a, b) := s.pairOf k
  let toB := s.targetB m a b
  let words := match k with
    | .cal => s.staged inCalSlot
    | .clr => s.staged inClrCopy
    | .net => (s.staged inNetCopy).filter (fun e => decide (e.1 ≠ Reg.netMacLo ∧ e.1 ≠ Reg.netMacHi)) ++
        [(Reg.netMacLo, loWord s.netMacRead), (Reg.netMacHi, hiWord s.netMacRead)]
    | .rep => []
  (s.modCal fun c => { c with store := some {
    kind := k, start := s.beat, toB := toB, words := words
    map := if k = .cal then s.slotMap else []
    ents := if k = .rep then s.memu.repair else [] } }).setHdr k toB {}

/-- Bits [25:24], [21:20] and [16] of CAL_STORE_STATUS, CAL_SEQ and REPMAP_STATUS show what NVM holds (R432, R453). -/
def showNvm (s : State) : State :=
  let v := fun m h => (s.hdrValid m h).toNat
  let n := s.nvm
  let newest := s.newerOf calMagic n.calA.hdr n.calB.hdr
  let st := 2 ^ 24 * v calMagic n.calA.hdr + 2 ^ 25 * v calMagic n.calB.hdr + 2 ^ 20 * v clrMagic n.clrA.hdr +
    2 ^ 21 * v clrMagic n.clrB.hdr + 2 ^ 16 * (newest == some true).toNat
  let s := s.setReg Reg.calStoreStatus (BitVec.ofNat 32 st)
  let s := s.setReg Reg.calSeq (match newest with | some true => n.calB.hdr.seq | some false => n.calA.hdr.seq | none => 0)
  (s.setBit Reg.repmapStatus 16 (s.hdrValid repMagic n.repA.hdr)).setBit Reg.repmapStatus 17 (s.hdrValid repMagic n.repB.hdr)

/-- NVM_SLOT_INVALID of an area: 0 firmware, raised by the security block, 1 calibration (R106, R111). -/
def slotInvalid (s : State) (area : Nat) (b : Bool) : State :=
  s.raiseEvent 0x0401 (if area = 0 then 0x08 else 0x03) (BitVec.ofNat 32 (area + 256 * b.toNat))

/-- Bytes of content that a store writes: but for the repair map the number is the model's, the layout is not given (log entry 30). -/
def contentLen (t : Store) : Nat := match t.kind with | .cal => 10296 | .clr => 192 | .net => 60 | .rep => 4 * t.ents.length

/-- The content of a store (R427, R453, R492); the order of its parts is the model's but for the repair map (log entry 30). -/
def contentOf (t : Store) : List Byte :=
  match t.kind with
  | .cal => wordBytesOf calAddrs t.words ++ t.map.flatten.map (BitVec.ofNat 8)
  | .clr => wordBytesOf clrAddrs t.words
  | .net => wordBytesOf netAddrs t.words
  | .rep => t.ents.flatMap fun e => leBytes 4 e.word.toNat

/-- The content and the header of a finished store (R429): header and CHECK hold when the read-back is good. -/
def writeStore (s : State) (t : Store) (ok : Bool) : State :=
  let (m, a, b) := s.pairOf t.kind
  let h := (s.nextHdr m a b (contentLen t) ok).sealed (contentOf t)
  let regs : NvmRegs := { hdr := h, words := t.words }
  s.modNvm fun v => match t.kind, t.toB with
    | .cal, false => { v with calA := regs, calMapA := t.map }
    | .cal, true => { v with calB := regs, calMapB := t.map }
    | .clr, false => { v with clrA := regs }
    | .clr, true => { v with clrB := regs }
    | .net, false => { v with netA := regs }
    | .net, true => { v with netB := regs }
    | .rep, false => { v with repA := { hdr := h, ents := t.ents.map RepEnt.word } }
    | .rep, true => { v with repB := { hdr := h, ents := t.ents.map RepEnt.word } }

/-- The beats within which a store completes (R429); for the repair map and the network configuration, to which the spec gives
no figure, that of a clear-code store (log entry 30). -/
def storeLimit : StoreKind → Nat
  | .cal => 4500000
  | _ => 300000

/-- The network configuration in NVM is valid now on a device that was blank (R41): NET.MAC, which reads as the port 0 address, is in
force. A NET.MAC that the host has written and no APPLY has brought into force stays staged, and the blank port 0 address comes into force
for NET.MAC (DESIGN CHOICE, log entry 83: R41 does not say from which address it then counts). -/
def ownMac (s : State) : State :=
  let x := BitVec.ofNat 64 (s.blankMac 0).toNat
  let s := { s with
    macOwn := true
    netNow := s.netNow.filter (fun e => decide (e.1 ≠ Reg.netMacLo ∧ e.1 ≠ Reg.netMacHi)) ++
      [(Reg.netMacLo, loWord x), (Reg.netMacHi, hiWord x)] }
  if s.macWritten then s else s.setReg64 Reg.netMacLo x

/-- A store finishes its read-back (R41, R429). -/
def finishStore (s : State) (t : Store) (ok : Bool) : State :=
  let s := ((s.writeStore t ok).modCal fun c => { c with store := none }).showNvm
  match t.kind with
  | .cal =>
    let s := (s.satReg Reg.calStores).modCal fun c => { c with lastStore := s.beat }
    if ok then { s with calBad := false } else (s.raiseFlag Reg.calFlags 1).slotInvalid 1 t.toB
  | .clr =>
    let s := s.satReg Reg.calStores
    if ok then s else (s.raiseFlag Reg.calFlags 1).slotInvalid 1 t.toB
  | .net => if ok ∧ ¬ s.macOwn then s.ownMac else s
  | .rep => s

/-- A store that is cut leaves its target invalid (R431). -/
def cutStore (s : State) : State := s.modCal fun c => { c with store := none }

/-- Whether the periodic store is due (R429, R430). -/
def periodicDue (s : State) : Bool :=
  let m := s.regFld Reg.calStore 31 16
  decide (m ≠ 0 ∧ s.cal.lastStore + m * 90000000000 ≤ s.beat) && s.storeCheck == .ok && decide (s.rst.phase = .ready)

/-- CAL_STORE.STATE and the bits of REPMAP_CTRL, NET.CTRL and CAL_STORE that read 1 while their store runs (R97, R433). -/
def storing (s : State) (k : StoreKind) : Bool := (s.cal.store.map (·.kind)) == some k

end State

/-- CAL_STORE_PERIODIC: PERIOD_MIN minutes after the latest calibration store another starts (R429). Nothing happens unless it
is due (log entry 4). -/
def execCalStorePeriodic (s : State) : Res := .next <| if s.periodicDue then s.startStore .cal else s

/-- STORE_COMPLETE: the running store finishes with its read-back (R429). Nothing happens unless one runs (log entry 4). -/
def execStoreComplete (ok : Bool) (s : State) : Res :=
  .next <| match s.cal.store with
    | some t => if t.start < s.beat then s.finishStore t ok else s
    | none => s

end Sys2Proof.Machine
end

