-- ==== Sys2Proof/Machine/Cal.lean ====
section
/-! DEFINITION. Background calibration: estimation and freezing, shadow and active trims, APPLY, injected calibration, slice
rotation, the monitor receiver and cell substitution (R241-R243, R406-R426, R432-R434). -/

namespace Sys2Proof.Machine

/-! ### Arithmetic -/

/-- A test value (R415): linear from 0 at `lo` to 65,535 at `hi`, rounded down. -/
def testValue (lo hi x : Int) : Nat := (max 0 (min 65535 (Int.fdiv (65535 * (x - lo)) (hi - lo)))).toNat

/-- Test E (R415) from the sum `p` of the squares of `n` codes: linear in dB from 0 at -50 dBFS to 65,535 at -40 dBFS, rounded down
exactly, as the largest `v` with 10 log10(p / (n x 2^21)) at least -50 + 10 v / 65,535. A full-scale sine has the mean square 2^21
(R569). -/
def energyTest (p n : Nat) : Nat :=
  if p = 0 then 0
  else (List.range 16).foldl (fun v i =>
    let w := v + 2 ^ (15 - i)
    if 10 ^ w * (n * 2 ^ 21) ^ 65535 ≤ (p * 10 ^ 5) ^ 65535 then w else v) 0

/-- Beats of a calibration block (R407). -/
def blockBeats : Nat := 786432

/-- The least number whose square is at least `x`. -/
def sqrtUp (x : Nat) : Nat := if x = 0 then 0 else Nat.sqrt (x - 1) + 1

/-- Test S from the powers of the sub-blocks (R415): linear from 0 at a ratio of 0.5 of their standard deviation to their mean to 65,535 at
0.1, rounded down exactly. -/
def stationarity (ps : List Nat) : Nat :=
  let p := ps.sum
  let var := ps.length * (ps.map fun x => x * x).sum - p * p
  let y := sqrtUp ((655350 * 655350 * var + p * p - 1) / (p * p))
  min 65535 ((327675 - y) / 4)

/-- The confidences of offset, gain and skew (R415, R416), from the powers of the block's sub-blocks and its other figures. -/
def rxConf (ps : List Nat) (st : BlockStats) : Nat × Nat × Nat :=
  let e := energyTest ps.sum (4 * blockBeats)
  let s := if ps.sum = 0 then testValue (-500000) (-100000) (-st.s) else stationarity ps
  let t := testValue 40000000 50000000 (-st.t)
  let b := testValue (-20000000) (-10000000) st.b
  (min s t, min e (min s t), min (min e s) (min t b))

/-- The confidence of the transmit quantities (R415, R416): test A, linear from 0 to 65,535 at 5 % of the dwell's beats. -/
def txConf (active : Nat) : Nat := min 65535 (65535 * 20 * active / blockBeats)

/-- The freeze rule for one quantity of one channel (R417): whether it is frozen, its run of low and its run of high blocks. -/
def freezeRule (confMin c : Nat) (frozen : Bool) (lo hi : Nat) : Bool × Nat × Nat :=
  let lo := if c < confMin then lo + 1 else 0
  let hi := if min 65535 (confMin + 8192) ≤ c then hi + 1 else 0
  if frozen then if 8 ≤ hi then (false, 0, 0) else (true, lo, hi)
  else if 4 ≤ lo then (true, lo, 0)
  else (false, lo, hi)

/-- A trim moved towards an estimate in sixteenths of a step, by at most `lim` steps and inside the range of its `k` bits
(R408, R409). -/
def moveTrim (k lim : Nat) (x est16 : Int) : Int :=
  sat k (x + max (-(lim : Int)) (min lim (roundShift est16 4 - x)))

/-- Whether an estimate lies more than `slack` steps beyond the range of a trim of `k` bits (R423, R426). -/
def beyond (k slack : Nat) (est16 : Int) : Bool :=
  decide (16 * (2 ^ (k - 1) - 1 + slack) < est16 ∨ est16 < -(16 * (2 ^ (k - 1) + slack)))

/-- Place of the trim of quantity `q` in RXTRIM: high and low bit (R433). -/
def rxField (q : Nat) : Nat × Nat := if q = 0 then (7, 0) else if q = 1 then (15, 8) else (25, 16)

/-- Bits of the trim of quantity `q` (R409). -/
def rxBits (q : Nat) : Nat := if q = 2 then 10 else 8

/-- The mean of a slice's codes in 2^-16 LSB, rounded down (R408). -/
def sliceMean (a : SliceSum) : Int := Int.fdiv (65536 * a.sum) a.n

/-- The mean square of a slice's codes in 2^-16 LSB^2, rounded down (R408). -/
def slicePower (a : SliceSum) : Nat := 65536 * a.pow / a.n

/-- The variance of a slice's codes in 2^-16 LSB^2, rounded down (R423). -/
def sliceVar (a : SliceSum) : Int := Int.fdiv (65536 * (a.n * a.pow - a.sum * a.sum)) (a.n * a.n)

/-- All codes of a slice are one value: their variance is 0 (R423). -/
def sliceStill (a : SliceSum) : Bool := decide (a.n ≠ 0 ∧ (a.n * a.pow : Int) = a.sum * a.sum)

/-- A code goes into a slice's sums. -/
def sliceAdd (c : Int) (a : SliceSum) : SliceSum := { n := a.n + 1, sum := a.sum + c, pow := a.pow + (c * c).toNat }

/-- The square root of `a / b`, in units of 2^-17, rounded down. -/
def rootRatio (a b : Nat) : Nat := Nat.sqrt (2 ^ 34 * a / b)

/-- The slices that follow the spare `sp` in rotation order; `out` is mapped out (R420). -/
def nextSlice (out sp : Nat) : Nat := (((List.range 48).map fun k => (sp + 1 + k) % 49).find? (· ≠ out)).getD 0

/-- The mean of a list, rounded towards minus infinity; 0 of an empty list. -/
def meanOf (xs : List Int) : Int := if xs.isEmpty then 0 else Int.fdiv xs.sum xs.length

namespace State

/-- Calibration state of RX channel `r`. -/
def rxCal (s : State) (r : Nat) : RxCal := s.cal.rx.getD r {}
/-- Changes it. -/
def modRxCal (s : State) (r : Nat) (f : RxCal → RxCal) : State := s.modCal fun c => { c with rx := c.rx.modify r f }
/-- Calibration state of TX channel `t`. -/
def txCal (s : State) (t : Nat) : TxCal := s.cal.tx.getD t {}
/-- Changes it. -/
def modTxCal (s : State) (t : Nat) (f : TxCal → TxCal) : State := s.modCal fun c => { c with tx := c.tx.modify t f }
/-- Calibration state of die `d`. -/
def dieCal (s : State) (d : Nat) : DieCal := s.cal.die.getD d {}
/-- Changes it. -/
def modDie (s : State) (d : Nat) (f : DieCal → DieCal) : State := s.modCal fun c => { c with die := c.die.modify d f }

/-- CAL_CTRL.EN of quantity `q`. -/
def calEn (s : State) (q : Nat) : Bool := s.regBit Reg.calCtrl q
/-- CAL_CONF.CONF_MIN. -/
def confMin (s : State) : Nat := s.regFld Reg.calConf 15 0
/-- CAL_CTRL.APPLY_AT. -/
def applyAt (s : State) : Bool := s.regBit Reg.calCtrl 12

/-! ### Slices -/

/-- The mapped-out slice of a channel, 63 for none (R423, R433). -/
def mappedOut (s : State) (r : Nat) : Nat := s.regFld (Reg.rxcalStatus r) 23 18

/-- The spare slice of a channel: the one that holds no slot and is not mapped out (R420). -/
def spareSlice (s : State) (r : Nat) : Option Nat :=
  (List.range 49).find? fun x => !(s.rxCal r).slots.contains x && x ≠ s.mappedOut r

/-- The incumbent of the present or next step (R420, R423). -/
def incumbent (s : State) (r : Nat) : Nat :=
  (s.rxCal r).failing.getD (nextSlice (s.mappedOut r) ((s.spareSlice r).getD (s.mappedOut r)))

/-- RXCAL[r].STATUS.ROT (R433). -/
def rotCode : RotState → Nat
  | .gap => 0 | .shadow => 1 | .swapWait => 2 | .noSpare => 3

/-- RXCAL[r].STATUS (R433). -/
def rxcalStatus (s : State) (r : Nat) : Word :=
  let w := putFld (putFld (s.getReg (Reg.rxcalStatus r)) 31 30 (rotCode (s.rxCal r).rot)) 29 24 (s.incumbent r)
  putBit w 7 (s.rxCal r).inj.isSome

/-- A shadow slice trim changes (R410): the active trim of the slice that stands by or runs in shadow follows in the next
beat. -/
def setRxTrim (s : State) (r x : Nat) (v : Word) : State :=
  let s := s.setReg (Reg.rxtrim r x) v
  if s.spareSlice r = some x then s.modCal fun c => { c with follow := c.follow ++ [(Reg.rxtrimAct r x, Reg.rxtrim r x, 0xFFFFFFFF)] }
  else s

/-- Slice `x` is mapped out (R423). -/
def mapOut (s : State) (r x : Nat) : State :=
  let s := (s.setFld (Reg.rxcalStatus r) 23 18 x).raiseFlag (Reg.rxcalFlags r) 1
  (s.raiseEvent 0x0406 0x03 (BitVec.ofNat 32 (r + 256 * x))).modRxCal r fun c => { c with rot := .noSpare, failing := none }

/-- A rotation step begins: the spare runs in shadow beside the incumbent (R420). -/
def rotStep (s : State) (r : Nat) : State :=
  (s.setFld (Reg.rxcalStatus r) 17 11 0).modRxCal r fun c =>
    { c with rot := .shadow, matchRun := 0, matched := false, stepFrom := s.beat }

/-! ### Windows and APPLY -/

/-- Beat `b` is a pin beat of the window or lies in its window interval (R234, R285, R412). -/
def winHolds (w : Win) (b : Nat) : Bool :=
  decide ((w.act + 6 ≤ b ∧ b < w.act + 6 + w.used) ∨ (w.act + 26 ≤ b ∧ b < w.act + 26 + w.used))

/-- No window of the lanes of ring `n` that `p` picks holds the present beat. -/
def freeOf (s : State) (n : Nat) (p : Nat → Bool) : Bool :=
  (List.range 32).all fun l => !p l || !(s.lane n l).wins.any fun w => winHolds w s.beat

/-- CAL_APPLY_WAIT.BEATS (R412). -/
def applyWait (s : State) : Nat := (s.getReg Reg.calApplyWait).toNat

/-- Whether the pending APPLY of die `d` takes effect in this beat, and whether at the wait limit (R412). -/
def applyDue (s : State) (d : Nat) : Option Bool :=
  match (s.dieCal d).req with
  | some q =>
    if s.beat ≤ q then none
    else if ¬ s.applyAt then some false
    else if (List.range 3).all fun i => s.freeOf (3 * d + i) fun _ => true then some false
    else if q + 1 + s.applyWait ≤ s.beat then some true
    else none
  | none => none

/-- An APPLY of die `d` is requested; requests that are pending merge (R412). -/
def requestApply (s : State) (d : Nat) : State :=
  s.modDie d fun c => { c with req := some (c.req.getD s.beat) }

/-- The entries of a list of CAL beats that a record can still meet. -/
def recentCal (s : State) (l : List Nat) : List Nat := s.beat :: l.filter fun p => decide (s.beat < p + 140000)

/-- Notes that records of ring `n` whose window interval holds this beat carry CAL (R242, R251, R413). -/
def markRingCal (s : State) (n : Nat) : State := s.modRing n fun x => { x with calAt := s.recentCal x.calAt }

/-- Notes that records of RX channel `r` (global) with this beat among their pin beats carry CAL (R295, R422). -/
def markRxCal (s : State) (r : Nat) : State := s.modRx (r / 2) (r % 2) fun x => { x with calAt := s.recentCal x.calAt }

/-- Copies a trim word from shadow to active; tells whether that changed it. -/
def applyWord (p : State × Bool) (act shadow : Nat) : State × Bool :=
  let v := p.1.getReg shadow
  if p.1.getReg act = v then p else (p.1.setReg act v, true)

/-- APPLY of the slice trims of RX channel `r` (R411, R413). -/
def applyRx (s : State) (r : Nat) : State :=
  let p := (List.range 49).foldl (fun p x => applyWord p (Reg.rxtrimAct r x) (Reg.rxtrim r x)) (s, false)
  if p.2 then p.1.markRxCal r else p.1

/-- APPLY of the cell trims of TX channel `t` (R411, R413). -/
def applyTx (s : State) (t : Nat) : State :=
  let p := (List.range 21).foldl (fun p w => applyWord p (Reg.txtrimAct t w) (Reg.txtrim t w)) (s, false)
  if p.2 then p.1.markRingCal (t / 4) else p.1

/-- APPLY of the trims of bias output `k` (R251, R411). -/
def applyBias (s : State) (k : Nat) : State :=
  let p := applyWord (s, false) (Reg.biastrimAct k) (Reg.biastrim k)
  if p.2 then p.1.markRingCal (k / 4) else p.1

/-- A matched spare cell of TX channel `t` takes over its failing cell (R241, R242). -/
def swapCell (s : State) (t : Nat) : State :=
  let n := t / 4
  let c := t % 4
  match (s.tx n c).subst with
  | some (cell, k) =>
    if (s.tx n c).substReady then
      let old := s.getReg (Reg.txCellMap n c)
      let was := (List.range 4).filter fun i => bit old (8 * i + 7) && decide (fld old (8 * i + 5) (8 * i) = cell)
      let s := was.foldl (fun s i => s.setFld (Reg.txCellMap n c) (8 * i + 7) (8 * i) 0) s
      let s := (s.setFld (Reg.txCellMap n c) (8 * k + 7) (8 * k) (128 + cell)).raiseFlag (Reg.txFlags n c) 3
      let s := s.raiseEvent 0x0408 0x03 (BitVec.ofNat 32 (t + 256 * cell))
      (s.modTx n c fun x =>
        { x with subst := none, substReady := false, substRun := 0, substTry := 0, substTried := x.substTried ++ was }).markRingCal n
    else s
  | none => s

/-- APPLY of die `d` (R411-R413): every shadow trim goes into force, and matched spare cells take over. -/
def applyDie (s : State) (d : Nat) (forced : Bool) : State :=
  let s := s.forBelow 6 fun i s => s.applyRx (6 * d + i)
  let s := s.forBelow 12 fun i s => (s.applyTx (12 * d + i)).applyBias (12 * d + i)
  let s := s.forBelow 12 fun i s => s.swapCell (12 * d + i)
  let s := s.setReg64 (Reg.lastApplyLo d) s.beatCount
  (s.raiseIf forced Reg.calFlags 0).modDie d fun c => { c with req := none }

/-- CAL_APPLY reads 1 for a die whose APPLY is pending (R413). -/
def calApplyRead (s : State) : Word := BitVec.ofNat 32 ((List.range 4).map fun d => 2 ^ d * (s.dieCal d).req.isSome.toNat).sum

/-- CAL_STATUS (R433). -/
def calStatus (s : State) : Word := BitVec.ofNat 32 ((List.range 4).map fun d => 2 ^ d * (s.dieCal d).hold.isSome.toNat).sum

/-- The check of a CAL_APPLY write (R413). -/
def calApplyCheck (s : State) (v : Word) : Err := Err.need ((onesOf v 4).all fun d => (s.dieCal d).req.isNone) .eBusy

/-- The effect of a CAL_APPLY write (R412). -/
def calApplyDo (s : State) (v : Word) : State := (onesOf v 4).foldl (fun s d => s.requestApply d) s

/-! ### Evaluation of a block -/

/-- Ends the freezes of quantities `qs` of RX channel `r`, each with CAL_RESUMED (R417, R419). -/
def resumeRx (s : State) (r q : Nat) : State :=
  if s.regBit (Reg.rxcalStatus r) q then
    (s.setBit (Reg.rxcalStatus r) q false).raiseEvent 0x0404 0x03 (BitVec.ofNat 32 (r + 256 * q))
  else s

/-- The freeze rule on quantity `q` of RX channel `r` with confidence `c` (R417). -/
def freezeRx (s : State) (r q c : Nat) : State :=
  if ¬ s.calEn q then s
  else
    let x := s.rxCal r
    let was := s.regBit (Reg.rxcalStatus r) q
    let (f, lo, hi) := freezeRule s.confMin c was (x.lowRun.getD q 0) (x.highRun.getD q 0)
    let s := s.modRxCal r fun x => { x with lowRun := x.lowRun.set q lo, highRun := x.highRun.set q hi }
    if was ∧ ¬ f then s.resumeRx r q
    else if f ∧ ¬ was then
      ((s.setBit (Reg.rxcalStatus r) q true).raiseFlag (Reg.rxcalFlags r) 2).raiseEvent 0x0403 0x03
        (BitVec.ofNat 32 (r + 256 * q + 65536 * c))
    else s

/-- The codes of slice `x` in the block that is evaluated (R407, R420): those that it put into its slot, and for a slice that stood by in
the whole block those of the spare. -/
def sliceSum (s : State) (r : Nat) (st : BlockStats) (x : Nat) : SliceSum :=
  let a := (s.rxCal r).seenSums.getD x {}
  if a.n = 0 then st.spare else a

/-- The target of the trim of slice `x`, in sixteenths of a step (R408, R409): the active trim, changed so that the slice's mean meets the
mean of the slices in service, or 0 for an offset in the second and third zones, its power their mean power, or its correlation their mean
correlation. A step of an offset trim adds 1/8 LSB to the codes, one of a gain trim 2^-13 of the uncorrected amplitude; a slice whose codes
are all 0 has no gain, and takes the free figure. -/
def sliceTarget (s : State) (r q : Nat) (st : BlockStats) (x : Nat) : Int :=
  let trim := sfld (s.getReg (Reg.rxtrimAct r x)) (rxField q).1 (rxField q).2
  let a := s.sliceSum r st x
  let all := fun f : Nat → Int => meanOf ((s.rxCal r).slots.map f)
  if q = 0 then
    let ref := if s.regFld (Reg.rxCtrl (r / 2) (r % 2)) 5 4 = 0 then all fun y => sliceMean (s.sliceSum r st y) else 0
    16 * trim + Int.fdiv (ref - sliceMean a) 512
  else if q = 1 then
    let ref := (all fun y => slicePower (s.sliceSum r st y)).toNat
    if slicePower a = 0 then 16 * trim + st.noPower
    else Int.fdiv ((8192 + trim) * rootRatio ref (slicePower a)) 8192 - 2 ^ 17
  else 16 * trim + (all (st.skews.getD · 0) - st.skews.getD x 0)

/-- The slices whose trims are estimated: those in service and the spare (R407, R420). -/
def liveSlices (s : State) (r : Nat) : List Nat :=
  (List.range 49).filter fun x => (s.rxCal r).slots.contains x || s.spareSlice r == some x

/-- The shadow trims of quantity `q` move towards their targets (R408). -/
def moveRx (s : State) (r q lim : Nat) (st : BlockStats) : State :=
  let (hi, lo) := rxField q
  let moves := (s.liveSlices r).map fun x =>
    let v := moveTrim (rxBits q) lim (sfld (s.getReg (Reg.rxtrim r x)) hi lo) (s.sliceTarget r q st x)
    (x, (BitVec.ofInt 16 v).toNat)
  moves.foldl (fun s m => s.setRxTrim r m.1 (putFld (s.getReg (Reg.rxtrim r m.1)) hi lo m.2)) s

/-- A slice in service whose codes do not vary, while those of the channel vary by more than 1 LSB^2 on average (R423). -/
def sliceDead (s : State) (r : Nat) (st : BlockStats) (x : Nat) : Bool :=
  let vars := (s.rxCal r).slots.map fun y => sliceVar (s.sliceSum r st y)
  sliceStill (s.sliceSum r st x) && decide (65536 * (vars.length : Int) < vars.sum)

/-- The channel's slice that is found failing in this block, and the runs of blocks out of range (R423). -/
def judgeSlices (s : State) (r : Nat) (st : BlockStats) (confident : Bool) : Option Nat × List Nat :=
  let served := (List.range 49).filter fun x => (s.rxCal r).slots.contains x
  let runs := served.foldl (fun (l : List Nat) x =>
    if confident then
      let far := (List.range 3).any fun q => beyond (rxBits q) 2 (s.sliceTarget r q st x)
      l.set x (if far then l.getD x 0 + 1 else 0)
    else l) (s.rxCal r).failRun
  (served.find? fun x => s.sliceDead r st x || decide (4 ≤ runs.getD x 0), runs)

/-- Failing slices (R423, R424): the first becomes the incumbent at once; without a spare the channel is exhausted. -/
def failSlices (s : State) (r : Nat) (st : BlockStats) (confident : Bool) : State :=
  let (bad, runs) := s.judgeSlices r st confident
  let s := s.modRxCal r fun c => { c with failRun := runs }
  match bad with
  | none => s
  | some x =>
    if (s.spareSlice r).isNone then
      if (s.rxCal r).exhausted then s
      else (s.modRxCal r fun c => { c with exhausted := true }).raiseEvent 0x0407 0x03 (BitVec.ofNat 32 (r + 256 * x))
    else if (s.rxCal r).failing.isSome then s
    else (s.modRxCal r fun c => { c with failing := some x }).rotStep r

/-- A confident block of a step in shadow (R421, R422): matching, a match, and a spare that has not matched after 64. A block that began
before the step did, in part without this spare and incumbent side by side, does not count. -/
def shadowBlock (s : State) (r : Nat) (st : BlockStats) : State :=
  if s.beat < (s.rxCal r).stepFrom + blockBeats + 64 then s
  else match (s.rxCal r).rot, s.spareSlice r with
  | .shadow, some sp =>
    let inc := s.incumbent r
    let good := st.diffMean.natAbs ≤ 250 ∧ st.diffRms ≤ 2000 ∧ (st.skews.getD sp 0 - st.skews.getD inc 0).natAbs ≤ 64
    let k := min 64 (s.regFld (Reg.rxcalStatus r) 17 11 + 1)
    let run := if good then (s.rxCal r).matchRun + 1 else 0
    let s := (s.setFld (Reg.rxcalStatus r) 17 11 k).modRxCal r fun c =>
      { c with matchRun := run, matched := c.matched || decide (4 ≤ run) }
    if 4 ≤ run ∧ (s.regBit Reg.calCtrl 5 ∨ (s.rxCal r).failing.isSome) then
      s.modRxCal r fun c => { c with rot := .swapWait, swapFrom := s.beat + 64 }
    else if k = 64 ∧ ¬ (s.rxCal r).matched then s.mapOut r sp
    else s
  | _, _ => s

/-- Whether the block that is evaluated in this beat was injected (R419). -/
def injected (s : State) (r : Nat) : Bool :=
  match (s.rxCal r).inj with
  | some j => decide (j.from_ + blockBeats + 64 ≤ s.beat)
  | none => false

/-- The injection is ended because the input carries power (R419). -/
def abortInj (s : State) (r : Nat) : State :=
  match (s.rxCal r).inj with
  | some j =>
    let s := (List.range 49).foldl (fun s x => s.setRxTrim r x (j.saved.getD x 0)) s
    (s.modRxCal r fun c => { c with inj := none }).raiseFlag (Reg.rxcalFlags r) 3
  | none => s

/-- The fourth injected block has been evaluated: the injection completes (R419). -/
def finishInj (s : State) (r : Nat) : State :=
  match (s.rxCal r).inj with
  | some j =>
    if j.from_ + 4 * blockBeats + 64 ≤ s.beat then
      let s := s.modRxCal r fun c => { c with inj := none, lowRun := [0, 0, 0], highRun := [0, 0, 0] }
      let s := s.forBelow 3 fun q s => s.resumeRx r q
      if s.regBit (Reg.rxcalInj r) 1 then s.requestApply (r / 6) else s
    else s
  | none => s

/-- A block of RX channel `r` is evaluated (R408, R415-R424). -/
def evalBlock (s : State) (r : Nat) (st : BlockStats) : State :=
  let inj := s.injected r
  let (c0, c1, c2) := if inj then (65535, 65535, 65535) else rxConf (s.rxCal r).seenPows st
  let conf := fun q => if q = 0 then c0 else if q = 1 then c1 else c2
  let s := (s.addReg (Reg.rxcalBlocks r) 1).setReg (Reg.rxcalConfA r) (BitVec.ofNat 32 (65536 * c1 + c0))
  let s := s.setReg (Reg.rxcalConfB r) (BitVec.ofNat 32 c2)
  let s :=
    if inj ∧ -60000000 < st.remain then s.abortInj r
    else
      let s := s.forBelow 3 fun q s => s.freezeRx r q (conf q)
      let live := fun (s : State) q => !s.regBit (Reg.rxcalStatus r) q && decide (s.confMin ≤ conf q)
      let confident := (List.range 3).all (live s)
      let s := s.forBelow 3 fun q s => if s.calEn q && live s q then s.moveRx r q (if inj then 16 else 4) st else s
      let s := s.failSlices r st confident
      let s := if confident then s.shadowBlock r st else s
      s.finishInj r
  if s.regBit Reg.calCtrl 16 then s.requestApply (r / 6) else s

end State

end Sys2Proof.Machine
end

