-- ==== Sys2Proof/Machine/CalRows.lean ====
section
/-! DEFINITION. Background calibration, continued: injections, the monitor receiver and cell substitution, the beats of blocks,
what start-up loads, and the commands (R241, R243, R407, R414, R417-R419, R425, R426, R432). -/

namespace Sys2Proof.Machine

namespace State

/-! ### Injected calibration -/

/-- CAR[i].STATUS.STATE is not IDLE. -/
def carBusy (s : State) (i : Nat) : Bool := (s.car.getD i {}).running

/-- A Carousel slot that is not IDLE observes RX channel `r` (R418, R459). -/
def carObserves (s : State) (r : Nat) : Bool :=
  (List.range 8).any fun i => s.carBusy i && decide (s.regFld (Reg.carCfg i) 20 16 = r)

/-- The input power of an RX channel over the latest 1,500 beats is -60 dBFS or more (R418): the mean square of the codes
against that of a sine of amplitude 2,048 LSB (R569). -/
def inputLoud (s : State) (r : Nat) : Bool :=
  decide (6000 * 2 ^ 21 ≤ 1000000 * (s.rx (r / 2) (r % 2)).energy.sum)

/-- The check of an RXCAL[r].INJ write (R418). -/
def injCheck (s : State) (r : Nat) (v : Word) : Err :=
  if bit v 0 then
    (Err.need (s.rxLive (r / 2) (r % 2) && !s.ringRuns (r / 2) && !s.carObserves r && !s.inputLoud r) .eState).orElse
      (Err.need (s.rxCal r).inj.isNone .eBusy)
  else .ok

/-- The effect of an RXCAL[r].INJ write (R418, R419): the injection starts at the next block boundary. -/
def injDo (s : State) (r : Nat) (v : Word) : State :=
  let s := s.setBit (Reg.rxcalInj r) 1 (bit v 1)
  if bit v 0 then s.modRxCal r fun c => { c with inj := some { from_ := (s.beat / blockBeats + 1) * blockBeats } } else s

/-! ### The monitor receiver -/

/-- Spare cell 63 + `k` of TX channel `t` stands in the dump node (R241, R434). -/
def spareFree (s : State) (t k : Nat) : Bool := !s.regBit (Reg.txCellMap (t / 4) (t % 4)) (8 * k + 7)

/-- The cell that spare `k` replaces. -/
def spareFor (s : State) (t k : Nat) : Nat := s.regFld (Reg.txCellMap (t / 4) (t % 4)) (8 * k + 5) (8 * k)

/-- Cell `c` (R434) is in the dump node: a free spare, or a cell that a spare replaces. -/
def inDump (s : State) (t c : Nat) : Bool :=
  if 63 ≤ c ∧ c < 67 then s.spareFree t (c - 63)
  else (List.range 4).any fun k => !s.spareFree t k && decide (s.spareFor t k = c)

/-- A shadow cell trim changes (R410): that of a spare in the dump node acts in the next beat, and no other cell of its word with it. -/
def setTxTrim (s : State) (t c : Nat) (x : Int) : State :=
  let a := Reg.txtrim t (c / 4)
  let k := 8 * (c % 4)
  let s := s.setFld a (k + 5) k (BitVec.ofInt 6 x).toNat
  if 63 ≤ c ∧ c < 67 ∧ s.spareFree t (c - 63) then
    s.modCal fun u => { u with follow := u.follow ++ [(Reg.txtrimAct t (c / 4), a, (0xFF : Word) <<< k)] }
  else s

/-- The spare that a substitution may take: the lowest that is free and not found unfit (R241). -/
def pickSpare (s : State) (t : Nat) : Option Nat :=
  (List.range 4).find? fun k => s.spareFree t k && !(s.tx (t / 4) (t % 4)).substTried.contains k

/-- A substitution for failing cell `cell` of TX channel `t` begins, or without a spare the channel is exhausted (R241, R243). While the
monitor receiver of the die stays on another channel for its substitution (R425), this one waits for a later visit of its own. -/
def startSubst (s : State) (t cell : Nat) : State :=
  let x := s.tx (t / 4) (t % 4)
  if x.subst.isSome then s
  else match s.pickSpare t with
    | some k =>
      if (s.dieCal (t / 12)).hold.any (· ≠ t) then s
      else (s.modTx (t / 4) (t % 4) fun x => { x with subst := some (cell, k), substRun := 0, substTry := 0, substReady := false }).modDie
        (t / 12) fun c => { c with hold := some t }
    | none =>
      if x.exhausted then s
      else (s.modTx (t / 4) (t % 4) fun x => { x with exhausted := true }).raiseEvent 0x0409 0x03 (BitVec.ofNat 32 t)

/-- One measurement of the spare that is being matched (R241). -/
def substVisit (s : State) (t : Nat) (err : Int) : State :=
  let n := t / 4
  let c := t % 4
  let x := s.tx n c
  match x.subst with
  | some (cell, k) =>
    if x.substReady then s
    else
      let run := if err.natAbs ≤ 100 then x.substRun + 1 else 0
      let s := s.modTx n c fun x => { x with substRun := run, substTry := x.substTry + 1 }
      if 8 ≤ run then
        ((s.modTx n c fun x => { x with substReady := true }).modDie (t / 12) fun d => { d with hold := none }).requestApply (t / 12)
      else if 4096 ≤ x.substTry + 1 then
        ((s.modTx n c fun x => { x with subst := none, substTried := x.substTried ++ [k] }).modDie (t / 12) fun d =>
          { d with hold := none }).startSubst t cell
      else s
  | none => s

/-- The freeze rule on transmit quantity 3 + `q` of TX channel `t` (R417, R425). -/
def freezeTx (s : State) (t q c : Nat) : State :=
  if ¬ s.calEn (3 + q) then s
  else
    let x := s.txCal t
    let was := s.regBit (Reg.txcal t) (16 + q)
    let (f, lo, hi) := freezeRule s.confMin c was (x.lowRun.getD q 0) (x.highRun.getD q 0)
    let s := s.modTxCal t fun x => { x with lowRun := x.lowRun.set q lo, highRun := x.highRun.set q hi }
    let s := s.setBit (Reg.txcal t) (16 + q) f
    if was ∧ ¬ f then s.raiseEvent 0x0404 0x03 (BitVec.ofNat 32 (t + 256 * (3 + q)))
    else if f ∧ ¬ was then s.raiseEvent 0x0403 0x03 (BitVec.ofNat 32 (t + 256 * (3 + q) + 65536 * c))
    else s

/-- The cell that a visit finds failing (R241, R426): out of range or without current, not yet replaced; a spare in service
stands for the cell it replaces. -/
def failingCell (s : State) (t : Nat) (m : MonVisit) : Option Nat :=
  (((List.range 67).filter fun c => !s.inDump t c && (m.dead.contains c || m.cells.any fun e => e.1 == c && beyond 6 8 e.2)).map
    fun c => if 63 ≤ c then s.spareFor t (c - 63) else c).head?

/-- The delay of a visit goes into TXDLY relative to the mean over the die's observed channels (R425). -/
def putDelay (s : State) (t : Nat) (x : Int) : State :=
  let s := s.modTxCal t fun c => { c with delay := some x }
  let ds := (List.range 12).filterMap fun i => (s.txCal (12 * (t / 12) + i)).delay
  s.setReg (Reg.txdly t) (BitVec.ofInt 32 (x - meanOf ds))

/-- A monitor visit of TX channel `t`, active in `active` beats of its dwell, is evaluated (R415-R417, R425, R426). -/
def evalVisit (s : State) (t active : Nat) (m : MonVisit) : State :=
  let c := txConf active
  let s := s.setFld (Reg.txcal t) 15 0 c
  let s := s.forBelow 2 fun q s => s.freezeTx t q c
  let live := fun q => decide (s.confMin ≤ c) && !s.regBit (Reg.txcal t) (16 + q)
  let w := s
  let s := m.cells.foldl (fun s e =>
    let k := 8 * (e.1 % 4)
    if e.1 < 82 ∧ s.calEn 3 ∧ (live 0 ∨ (63 ≤ e.1 ∧ e.1 < 67 ∧ w.inDump t e.1)) then
      s.setTxTrim t e.1 (moveTrim 6 4 (sfld (s.getReg (Reg.txtrim t (e.1 / 4))) (k + 5) k) e.2)
    else s) s
  let s := if s.calEn 4 ∧ live 1 then s.putDelay t m.delay else s
  let s := s.substVisit t m.spareErr
  let s := if live 0 then match s.failingCell t m with
      | some cell => s.startSubst t cell
      | none => s
    else s
  if s.regBit Reg.calCtrl 16 then s.requestApply (t / 12) else s

/-- The channel that the monitor receiver of die `d` observes in the next block (R425): the one a substitution holds, else the
next enabled one in ascending order. -/
def nextChan (s : State) (d : Nat) : Option Nat :=
  let c := s.dieCal d
  if ¬ s.hk.powered then none
  else match c.hold with
    | some t => some t
    | none =>
      let en := (List.range 12).filterMap fun i =>
        let t := 12 * d + i
        if s.regBit (Reg.txCtrl (t / 4) (t % 4)) 0 then some t else none
      match c.chan with
      | some t => ((en.find? fun x => decide (t < x)).orElse fun _ => en.head?)
      | none => en.head?

/-! ### Beats -/

/-- Some code of TX channel `t` in the present pin beat has a magnitude of at least 1,024 (R415). -/
def txActive (s : State) (t : Nat) : Bool :=
  !s.txBalanced (t / 4) (t % 4) && ((s.tx (t / 4) (t % 4)).codes.any fun e => e.1 == s.beat && e.2.any fun z => decide (1024 ≤ z.natAbs))

/-- The codes of the present beat go into the sums of the slices that took them (R267, R407, R420): sample `j` of pin beat `P` has index
`4P + j`, and a slice takes the samples of its slot. -/
def sliceBeat (s : State) (r : Nat) : State :=
  match (s.rx (r / 2) (r % 2)).hist.head? with
  | some (P, cs) =>
    if s.rxLive (r / 2) (r % 2) ∧ P = s.beat then
      s.modRxCal r fun c => { c with sums := cs.zipIdx.foldl (fun l e =>
        l.modify (c.slots.getD ((4 * P + e.2) % 48) 49) (sliceAdd e.1)) c.sums }
    else s
  | none => s

/-- One beat of what the codes tell (R408, R415): the sums of every slice, the power of RX channel codes in sub-blocks of 1/64 block, and the
observed TX channels' activity. -/
def testBeat (s : State) : State :=
  let s := s.forBelow 24 fun r s => s.sliceBeat r
  let s := s.forBelow 24 fun r s =>
    let c := s.rxCal r
    let p := c.pow + ((s.rx (r / 2) (r % 2)).energy.head?).getD 0
    if (s.beat + 1) % (blockBeats / 64) = 0 then s.modRxCal r fun c => { c with pow := 0, pows := c.pows ++ [p] }
    else if p = c.pow then s else s.modRxCal r fun c => { c with pow := p }
  s.forBelow 4 fun d s =>
    if (s.dieCal d).chan.any s.txActive then s.modDie d fun c => { c with active := c.active + 1 } else s

/-- The end of a beat: READY is watched, a block that ends here becomes due for evaluation, trims that follow their shadow do so,
and an injection whose last block was discarded completes (R407, R410, R419, R425). -/
def calBeat (s : State) : State :=
  let s := s.testBeat
  let s := s.cal.follow.foldl (fun s e => s.setReg e.1 (s.getReg e.1 &&& ~~~e.2.2 ||| s.getReg e.2.1 &&& e.2.2)) s
  let s := if s.cal.follow.isEmpty then s else s.modCal fun c => { c with follow := [] }
  let s := s.forBelow 24 fun r s =>
    let s := if (s.rxCal r).inj.isSome then s.finishInj r else s
    if s.rxLive (r / 2) (r % 2) || (s.rxCal r).bad then s else s.modRxCal r fun c => { c with bad := true }
  if (s.beat + 1) % blockBeats = 0 then
    let s := s.forBelow 24 fun r s =>
      s.modRxCal r fun c => { c with
        evalAt := if c.bad then none else some (s.beat + 65)
        bad := false
        seenPows := c.pows
        seenSums := c.sums
        sums := List.replicate 49 {}
        pows := []
        inj := c.inj.map fun j => if j.from_ = s.beat + 1 then
          { j with saved := (List.range 49).map fun x => s.getReg (Reg.rxtrim r x) } else j }
    s.forBelow 4 fun d s => s.modDie d fun c => { c with
      seen := c.chan.map fun t => (t, s.beat + 65), chan := s.nextChan d, seenActive := c.active, active := 0 }
  else s

/-- Whether the swap of RX channel `r` takes effect in this beat, and whether at the wait limit (R422). -/
def rotateDue (s : State) (r : Nat) : Option Bool :=
  let c := s.rxCal r
  if c.rot = .swapWait ∧ c.swapFrom ≤ s.beat ∧ (s.regBit Reg.calCtrl 5 ∨ c.failing.isSome) then
    if ¬ s.applyAt then some false
    else if s.freeOf (r / 2) fun l => l / 16 == r % 2 then some false
    else if c.swapFrom + s.applyWait ≤ s.beat then some true
    else none
  else none

/-- The swap (R422, R423): the spare takes the incumbent's slot, and the incumbent becomes the spare or is mapped out. -/
def rotate (s : State) (r : Nat) (forced : Bool) : State :=
  match s.spareSlice r with
  | some sp =>
    let inc := s.incumbent r
    let bad := (s.rxCal r).failing.isSome
    let gap := s.regFld Reg.calRot 15 0 * 1500000
    let s := (s.modRxCal r fun c => { c with
      slots := c.slots.map (fun x => if x = inc then sp else x)
      failRun := c.failRun.set inc 0
      rot := .gap
      gapTo := s.beat + gap }).markRxCal r
    let s := (s.raiseFlag (Reg.rxcalFlags r) 0).raiseEvent 0x0405 0x03 (BitVec.ofNat 32 (r + 256 * sp))
    let s := s.raiseIf forced Reg.calFlags 2
    if bad then s.mapOut r inc else s
  | none => s

/-- Whether the next rotation step of RX channel `r` begins (R422). -/
def rotStepDue (s : State) (r : Nat) : Bool := decide ((s.rxCal r).rot = .gap ∧ (s.rxCal r).gapTo ≤ s.beat)

/-! ### Host writes -/

/-- The effect of a CAL_CTRL write: clearing an EN bit ends every freeze of its quantity without an event (R417). -/
def calCtrlDo (s : State) (v : Word) : State :=
  let s := s.setReg Reg.calCtrl v
  let off := fun q => !bit v q
  let s := s.forBelow 24 fun r s => s.forBelow 3 fun q s =>
    if off q then
      (if s.regBit (Reg.rxcalStatus r) q then s.setBit (Reg.rxcalStatus r) q false else s).modRxCal r fun c =>
        { c with lowRun := c.lowRun.set q 0, highRun := c.highRun.set q 0 }
    else s
  s.forBelow 48 fun t s => s.forBelow 2 fun q s =>
    if off (3 + q) then
      (if s.regBit (Reg.txcal t) (16 + q) then s.setBit (Reg.txcal t) (16 + q) false else s).modTxCal t fun c =>
        { c with lowRun := c.lowRun.set q 0, highRun := c.highRun.set q 0 }
    else s

/-- The check of an RXTRIM write (R414). -/
def rxtrimCheck (s : State) : Err := Err.need (decide (s.regFld Reg.calCtrl 2 0 = 0)) .eState

/-- The check of a TXTRIM write (R414, R434). -/
def txtrimCheck (s : State) (w : Nat) (v : Word) : Err :=
  (Err.need (w ≠ 20 || decide (fld v 31 16 = 0)) .eRange).orElse (Err.need (!s.calEn 3) .eState)

/-- The effect of a TXTRIM write (R410). -/
def txtrimDo (s : State) (t w : Nat) (v : Word) : State :=
  s.forBelow 4 fun i s => s.setTxTrim t (4 * w + i) (sfld v (8 * i + 5) (8 * i))

/-- The check of a CAL_STORE write (R430). -/
def calStoreCheck (s : State) (v : Word) : Err :=
  let p := fld v 31 16
  ((Err.need (p = 0 || decide (10 ≤ p)) .eRange).orElse (if bit v 0 ∨ bit v 1 then s.storeCheck else .ok)).orElse
    (Err.need (!(bit v 0 && bit v 1)) .eBusy)

/-- The effect of a CAL_STORE write (R429). -/
def calStoreDo (s : State) (v : Word) : State :=
  let s := s.setFld Reg.calStore 31 16 (fld v 31 16)
  if bit v 0 then s.startStore .cal else if bit v 1 then s.startStore .clr else s

/-- CAL_STORE (R97, R433). -/
def calStoreRead (s : State) : Word :=
  putBit (putBit (s.getReg Reg.calStore) 0 (s.storing .cal)) 1 (s.storing .clr)

/-- CAL_STORE_STATUS (R433). -/
def calStoreStatus (s : State) : Word :=
  putFld (s.getReg Reg.calStoreStatus) 1 0 (if s.storing .cal then 1 else if s.storing .clr then 2 else 0)

/-! ### Start-up -/

/-- The address of the shadow value of an active trim (R433). -/
def shadowOf (a : Nat) : Nat := if a < 0x31000 then a - 0x100 else a - 0x2000

/-- The calibration slot goes into trims, slots and CELL_MAPs (R432). -/
def loadSlot (s : State) (x : NvmRegs) (map : List (List Nat)) : State :=
  let s := x.words.foldl (fun (s : State) (e : Nat × Word) =>
    let s := s.setReg e.1 e.2
    if e.1 < 0x100000 then s.setReg (shadowOf e.1) e.2 else s) s
  s.forBelow 24 fun r s =>
    let m := map.getD r []
    let out := m.getD 48 63
    (s.setFld (Reg.rxcalStatus r) 23 18 out).modRxCal r fun c =>
      { c with slots := m.take 48, rot := if out = 63 then .gap else .noSpare }

/-- What is said of a pair of NVM copies at start-up (R432): one invalid. -/
def pairEvents (s : State) (magic : Word) (a b : NvmHdr) : State :=
  match s.hdrValid magic a, s.hdrValid magic b with
  | true, false => s.slotInvalid 1 true
  | false, true => s.slotInvalid 1 false
  | _, _ => s

/-- The calibration store and the clear codes are loaded at start-up (R258, R432). -/
def loadCal (s : State) : State :=
  let v := s.nvm
  let s := (s.pairEvents calMagic v.calA.hdr v.calB.hdr).pairEvents clrMagic v.clrA.hdr v.clrB.hdr
  let s := match s.newerOf calMagic v.calA.hdr v.calB.hdr with
    | some false => s.loadSlot v.calA v.calMapA
    | some true => s.loadSlot v.calB v.calMapB
    | none => { s.raiseEvent 0x0402 0x03 1 with calBad := true }
  let s := match s.newerOf clrMagic v.clrA.hdr v.clrB.hdr with
    | some b =>
      ((if b then v.clrB else v.clrA).words.foldl (fun (s : State) (e : Nat × Word) => s.setReg e.1 e.2) s).forBias fun n b s =>
        s.modBias n b fun o => { o with clrDefault := false }
    | none => s.forBias fun n b s => s.modBias n b fun o => { o with clrDefault := true }
  s.showNvm

end State

/-- CAL_BLOCK_EVALUATION: the block of an RX channel is evaluated with what its estimators found (R407, R408). Nothing happens in
another beat than its evaluation beat, or for a discarded block (log entry 4). -/
def execCalBlockEvaluation (r : Fin 24) (b : BlockStats) (s : State) : Res :=
  .next <|
    if (s.rxCal r).evalAt = some s.beat then
      (s.modRxCal r fun c => { c with evalAt := none }).evalBlock r b
    else s

/-- APPLY: the shadow trims of a die go into force (R411). Nothing happens unless it is due (log entry 4). -/
def execApplyDie (d : Fin 4) (s : State) : Res :=
  .next <| match s.applyDue d with
    | some forced => s.applyDie d forced
    | none => s

/-- SLICE_ROTATE: the swap of an RX channel (R422). Nothing happens unless it is due (log entry 4). -/
def execSliceRotate (r : Fin 24) (s : State) : Res :=
  .next <| match s.rotateDue r with
    | some forced => s.rotate r forced
    | none => s

/-- ROTATION_STEP_START: the next rotation step of an RX channel begins (R420, R422). Nothing happens unless it is due (log
entry 4). -/
def execRotationStepStart (r : Fin 24) (s : State) : Res := .next <| if s.rotStepDue r then s.rotStep r else s

/-- MONITOR_VISIT: the block that the monitor receiver of a die spent on a channel is evaluated (R425). Nothing happens in
another beat than its evaluation beat (log entry 4). -/
def execMonitorVisit (d : Fin 4) (m : MonVisit) (s : State) : Res :=
  .next <| match (s.dieCal d).seen with
    | some (t, e) => if e = s.beat then (s.modDie d fun c => { c with seen := none }).evalVisit t (s.dieCal d).seenActive m else s
    | none => s

end Sys2Proof.Machine
end

