-- ==== Sys2Proof/Machine/Mem.lean ====
section
/-! DEFINITION. The memories' own machinery: write-back and scrubbing, the march test with borrowed windows, row repair,
retention, power-off and clearing (R440, R441, R447-R457). -/

namespace Sys2Proof.Machine

/-- Rows of a memory instance. -/
def memRows (code : Nat) : Nat := memSize code / 256

/-- Array words of a row (R450). -/
def rowWords (code : Nat) : Nat := 256 / arrayBytes code

/-- Byte address of a row. -/
def rowAddr (code inst row : Nat) : Nat := memBase code inst + 256 * row

/-- Beats of a destructive run: 10 A + B / 64 (R449). -/
def destructBeats (code : Nat) : Nat := 10 * (memSize code / arrayBytes code) + memSize code / 64

namespace State

/-! ### Clearing -/

/-- Bytes `[a, a + k)` become 0 with valid check bytes (R456). -/
def clearBytes (s : State) (a k : Nat) : State :=
  let out := fun x : Nat => !decide (a ≤ x ∧ x < a + k)
  ({ s with mem := s.mem.filter fun c => out c.1 }).modMemu fun m => { m with
    damaged := m.damaged.filter (fun d => out d.1), writeback := m.writeback.filter out, late := m.late.filter fun w => out w.1 }

/-- A memory instance is cleared (R456). -/
def clearMem (s : State) (code inst : Nat) : State := s.clearBytes (memBase code inst) (memSize code)

/-- A change of ring `n`'s instruction memory takes a stopped ring to IDLE (R187). -/
def instrWritten (s : State) (n : Nat) : State :=
  match (s.seq n).st with
  | .halted | .aborted | .mck => s.modSeq n fun q => { q with st := .idle }
  | _ => s

/-- The nine memories of ring `n` are cleared, which ends what an owner CHECK found (R455, R456, R504). -/
def clearRing (s : State) (n : Nat) : State := s.forBelow 9 fun c s => (s.clearMem c n).unsign c n

/-- All memories are cleared (R456). -/
def clearAll (s : State) : State := ({ s with mem := [] }).modMemu fun m => { m with damaged := [], writeback := [], late := [] }

/-! ### Write-back and scrubbing -/

/-- A corrected word is written back (R440). -/
def writeBack (s : State) (a : Nat) : State :=
  if a ∈ s.memu.writeback then
    match s.memu.damaged.find? fun d => d.1 == a with
    | some d => if Damage.bad d then s.modMemu fun m => { m with writeback := m.writeback.filter (· != a) } else s.settleWord d
    | none => s.modMemu fun m => { m with writeback := m.writeback.filter (· != a) }
  else s

/-- A memory instance is on: in no retention, off or wake (R441, R448, R455). -/
def instOn (s : State) (code inst : Nat) : Bool := decide (8 < code) || s.memOn inst

/-- A destructive run is on this instance (R441, R449). -/
def destructOn (s : State) (code inst : Nat) : Bool :=
  match s.memu.march with
  | some m => !m.preserving && decide (m.code = code ∧ m.inst = inst)
  | none => false

/-- The scrubber may read the word at a byte address (R441): the memory is on and not under a destructive test, and the word
does not lie in a borrowed window. -/
def scrubbable (s : State) (a : Nat) : Bool :=
  s.regBit Reg.scrubCtrl 16 &&
    match memAt a with
    | some (c, i, _) =>
      s.instOn c i && !s.destructOn c i &&
        (match s.memu.borrow with
         | some w => !decide (rowAddr w.code w.inst w.row ≤ a ∧ a < rowAddr w.code w.inst w.row + 256)
         | none => true)
    | none => false

/-- The scrubber reads an array word (R441): one that needs correction again in the pass after its correction is suspect. -/
def scrub (s : State) (a : Nat) : State :=
  match s.memu.damaged.find? fun d => d.1 = a with
  | none => s
  | some d =>
    let s := s.eccWord d
    s.modMemu fun m => { m with
      scrubbed := m.scrubbed ++ [a]
      curFix := if Damage.bad d then m.curFix else m.curFix ++ [a]
      suspects := if !Damage.bad d && m.passFix.contains a && !m.suspects.contains a then m.suspects ++ [a] else m.suspects }

/-- Whether a scrub pass ends with this beat (R441). -/
def passEnds (s : State) : Bool :=
  s.regBit Reg.scrubCtrl 16 && decide (s.memu.scrubFrom + s.regFld Reg.scrubCtrl 15 0 * 1500000 ≤ s.beat + 1)

/-- The damaged words that the pass reads in this beat: each in the first beat of the last 15,000 of the pass in which its bank is free of
other requests; other words show no effect (DESIGN CHOICE, log entry 31). -/
def scrubDue (s : State) : List Nat :=
  if s.memu.scrubFrom + s.regFld Reg.scrubCtrl 15 0 * 1500000 ≤ s.beat + 15000 then
    (s.memu.damaged.map (·.1)).filter fun a => s.scrubbable a && s.bankFree a && !s.memu.scrubbed.contains a
  else []

/-- The end of a beat: a scrub pass that ends here counts (R441). -/
def scrubBeat (s : State) : State :=
  if s.passEnds then
    (s.satReg Reg.scrubPasses).modMemu fun m => { m with scrubFrom := s.beat + 1, passFix := m.curFix, curFix := [], scrubbed := [] }
  else if s.regBit Reg.scrubCtrl 16 then s
  else s.modMemu fun m => { m with scrubFrom := s.beat + 1 }

/-! ### Row repair -/

/-- Whether a spare row can stand for a row (R436): in exchange memory a row's eight array words lie in banks 0 to 7 or 8 to 15, and of
the 16 spare rows of a bank the lower 128 rows of the pool are those of banks 0 to 7 (DESIGN CHOICE, log entry 39). -/
def spareFits (code row k : Nat) : Bool := decide (code ≠ 9 ∨ k / 128 = row % 2)

/-- The lowest spare row of an instance that is free and can stand for a row (R436, R452). -/
def freeSpare (s : State) (code inst row : Nat) : Option Nat :=
  (List.range (spareRows code)).find? fun k =>
    spareFits code row k && !s.memu.repair.any fun e => decide (e.code = code ∧ e.inst = inst ∧ e.spare = k)

/-- SPARES and REPMAP_STATUS.ENTRIES follow the repair map (R453, R457). -/
def showRepair (s : State) (code inst : Nat) : State :=
  let used := (s.memu.repair.filter fun e => decide (e.code = code ∧ e.inst = inst)).length
  let s := s.setReg (Reg.spares code inst) (BitVec.ofNat 32 ((spareRows code - used) * 65536 + used))
  s.setFld Reg.repmapStatus 15 0 (s.memu.repair.filter fun e => e.row.isSome).length

/-- A faulty row is repaired with the lowest free spare that is itself sound (R452); `fuel` bounds the spares tried. -/
def repairRow (s : State) (code inst row : Nat) : Nat → State
  | 0 => s
  | fuel + 1 =>
    match s.freeSpare code inst row with
    | none =>
      ((s.modMemu fun m => { m with rowsOut := true }).raiseFlag Reg.memFlags 3).raiseEvent 0x0604 0x07
        (BitVec.ofNat 32 (rowAddr code inst row))
    | some k =>
      let bad := Config.spareFaulty code inst k
      let s := (s.modMemu fun m => { m with repair :=
        (m.repair.map fun e => if e.code = code ∧ e.inst = inst ∧ e.row = some row ∧ !bad then { e with row := none } else e) ++
          [{ code := code, inst := inst, spare := k, row := if bad then none else some row }] }).showRepair code inst
      if bad then s.repairRow code inst row fuel
      else
        let s := (s.raiseFlag Reg.memFlags 2).raiseEvent 0x0603 0x07 (BitVec.ofNat 32 (rowAddr code inst row))
        s.setFld Reg.mtestFaults 31 16 (min 65535 (s.regFld Reg.mtestFaults 31 16 + 1))

/-- A row is found faulty (R447, R452). -/
def faultyRow (s : State) (code inst row : Nat) (repair : Bool) : State :=
  let s := (s.setFld Reg.mtestFaults 15 0 (min 65535 (s.regFld Reg.mtestFaults 15 0 + 1))).setReg Reg.mtestFailAddr
    (BitVec.ofNat 32 (rowAddr code inst row))
  if repair then s.repairRow code inst row (spareRows code + 1) else s

/-! ### The march test -/

/-- MTEST_CFG.AUTO. -/
def mtestAuto (s : State) : Bool := s.regBit Reg.mtestCfg 2
/-- MTEST_CFG.REPAIR. -/
def mtestRepair (s : State) : Bool := s.regBit Reg.mtestCfg 1
/-- MTEST_CFG.GAP. -/
def mtestGap (s : State) : Nat := s.regFld Reg.mtestCfg 31 16

/-- The state of ring `n` lets its memories be tested destructively or leave the on state (R448, R454). -/
def ringQuiet (s : State) (n : Nat) : Bool :=
  !s.ringRuns n && decide ((s.jug n).st ≠ .running) &&
    (List.range 2).all fun r => decide ((s.rx n r).raw ≠ .capturing ∧ (s.rx n r).raw ≠ .pushing)

/-- The E_STATE cases of MTEST_CMD.START (R448, R486). -/
def marchState (s : State) (code inst : Nat) (preserving : Bool) : Bool :=
  !s.shutting && s.instOn code inst &&
    (preserving ||
      if code ≤ 8 then s.ringQuiet inst
      else if code = 9 then (List.range 12).all fun n => !s.ringRuns n
      else !s.carBusy (2 * inst) && !s.carBusy (2 * inst + 1))

/-- The check of an MTEST_CMD write (R448, R457, R504). START and ABORT in one write are each checked, so that one of them stands against it
in every state (DESIGN CHOICE, log entry 88). -/
def mtestCmdCheck (s : State) (v : Word) : Err :=
  let code := s.regFld Reg.mtestCfg 15 12
  let inst := s.regFld Reg.mtestCfg 11 8
  Err.first [if bit v 1 then Err.need s.memu.march.isSome .eState else .ok,
    if bit v 0 ∧ ¬ s.mtestAuto then
      Err.first [Err.need (decide (inst < memInstances code)) .eRange,
        Err.need (s.marchState code inst (s.regBit Reg.mtestCfg 0)) .eState,
        Err.need (s.memu.march.isNone && (s.regBit Reg.mtestCfg 0 || !s.checkReads code inst)) .eBusy]
    else .ok]

/-- A run starts (R448-R450). -/
def startMarch (s : State) (code inst : Nat) (preserving : Bool) : State :=
  ((s.setReg Reg.mtestStatus 1).setReg Reg.mtestFaults 0).modMemu fun m => { m with march := some {
    code := code, inst := inst, preserving := preserving, row := 0, nextAt := s.beat + 1 } }

/-- The check of an MTEST_CFG write (R457). -/
def mtestCfgCheck (s : State) (v : Word) : Err :=
  (Err.need (decide (64 ≤ fld v 31 16)) .eRange).orElse (Err.need s.memu.march.isNone .eState)

/-- The effect of an MTEST_CFG write: AUTO = 1 starts the preserving runs over every instance (R448). -/
def mtestCfgDo (s : State) (v : Word) : State :=
  let s := s.setReg Reg.mtestCfg v
  if bit v 2 ∧ ¬ s.shutting then s.startMarch 0 0 true else s

/-- MTEST_STATUS (R457): a destructive run shows the row of the present beat. -/
def mtestStatus (s : State) : Word :=
  let w := s.getReg Reg.mtestStatus
  match s.memu.march with
  | some m =>
    if m.preserving then w else putFld w 31 16 (min (memRows m.code - 1) ((s.beat - m.nextAt) / (10 * rowWords m.code)))
  | none => w

/-- The instance that follows in the order of code and instance (R448). -/
def nextInst (code inst : Nat) : Nat × Nat :=
  if inst + 1 < memInstances code then (code, inst + 1) else if code < 10 then (code + 1, 0) else (0, 0)

/-- A window may be borrowed in an instance: it is on, and not one of a ring that runs with Trapeze decisions (R448, R450). -/
def borrowable (s : State) (code inst : Nat) : Bool :=
  s.instOn code inst && !(decide (code ≤ 8) && s.ringRuns inst && s.trapBits inst)

/-- The row that is borrowed next (R441, R448, R450, R451): one that was abandoned, else under AUTO that of a suspect word. -/
def nextRow (s : State) (m : March) : Nat × Nat × Nat :=
  let sus := if s.mtestAuto then s.memu.suspects.find? fun a =>
      match memAt a with
      | some (c, i, _) => s.borrowable c i
      | none => false
    else none
  match m.again, sus.bind memAt with
  | some r, _ => r
  | none, some (c, i, o) => (c, i, o / 256)
  | none, none => (m.code, m.inst, m.row)

/-- Under AUTO an instance in which no window may be borrowed is passed over (log entry 32). -/
def passInst (s : State) : State :=
  match s.memu.march with
  | some m =>
    if s.mtestAuto ∧ s.memu.borrow.isNone ∧ ¬ m.stopping then
      if m.again.any fun r => !s.borrowable r.1 r.2.1 then
        s.modMemu fun u => { u with march := some { m with again := none, abandons := 0 } }
      else if ¬ s.borrowable m.code m.inst then
        let (c, i) := nextInst m.code m.inst
        s.modMemu fun u => { u with march := some { m with code := c, inst := i, row := 0 } }
      else s
    else s
  | none => s

/-- Whether a window is borrowed in this beat (R450). -/
def borrowDue (s : State) : Bool :=
  match s.memu.march with
  | some m =>
    m.preserving && !m.stopping && s.memu.borrow.isNone && decide (m.nextAt ≤ s.beat) &&
      (let r := s.nextRow m; s.borrowable r.1 r.2.1)
  | none => false

/-- A window is borrowed (R450): its contents are read through ECC. -/
def borrowWin (s : State) (m : March) : State :=
  let (c, i, r) := s.nextRow m
  let a := rowAddr c i r
  let s := (s.eccRead a 256).setFld Reg.mtestStatus 31 16 r
  s.modMemu fun u => { u with
    borrow := some { code := c, inst := i, row := r, at_ := s.beat }
    suspects := u.suspects.filter fun x => !decide (a ≤ x ∧ x < a + 256) }

/-- The contents of a window return as they were read (R450-R452). -/
def restoreWin (s : State) (w : Borrow) : State :=
  let a := rowAddr w.code w.inst w.row
  (s.damageIn a 256).foldl settleWord s

/-- A run ends in a state, 2 done or 3 aborted; the map is stored when it repaired a row (R453, R457). -/
def endMarch (s : State) (st : Nat) : State :=
  let s := (s.setFld Reg.mtestStatus 1 0 st).modMemu fun u => { u with march := none }
  if s.regFld Reg.mtestFaults 31 16 = 0 then s else s.modCal fun c => { c with repDue := true }

/-- The effect of an MTEST_CMD write (R448, R457): ABORT ends a run after the present window, so at once while none is borrowed. -/
def mtestCmdDo (s : State) (v : Word) : State :=
  if bit v 1 then
    if s.memu.borrow.isNone ∧ s.memu.march.any (·.preserving) then s.endMarch 3
    else s.modMemu fun m => { m with march := m.march.map fun r => { r with stopping := true } }
  else if bit v 0 ∧ ¬ s.mtestAuto then
    s.startMarch (s.regFld Reg.mtestCfg 15 12) (s.regFld Reg.mtestCfg 11 8) (s.regBit Reg.mtestCfg 0)
  else s

/-- What follows a release (R448, R450, R451, R457): the next row, the next instance under AUTO, or the end of the run. -/
def afterWin (s : State) (m : March) (w : Borrow) (advance : Bool) : State :=
  let own := m.code = w.code ∧ m.inst = w.inst ∧ m.row = w.row
  let row := if own ∧ advance then m.row + 1 else m.row
  let m' := { m with
    row := row, again := if advance then none else some (w.code, w.inst, w.row), abandons := if advance then 0 else m.abandons + 1
    nextAt := s.beat + s.mtestGap }
  let s := s.modMemu fun u => { u with borrow := none, march := some m' }
  if m.stopping then s.endMarch 3
  else if row < memRows m.code then s
  else if s.mtestAuto then
    let (c, i) := nextInst m.code m.inst
    s.modMemu fun u => { u with march := some { m' with code := c, inst := i, row := 0 } }
  else s.endMarch 2

/-- Whether the borrowed window has been tested in full and is released in this beat (R450). -/
def releaseWinDue (s : State) : Bool :=
  match s.memu.borrow with
  | some w => w.hit.isNone && decide (w.at_ + 11 * rowWords w.code + 2 ≤ s.beat)
  | none => false

/-- Whether the borrowed window is released in this beat because of an access (R451). -/
def abandonDue (s : State) : Bool :=
  match s.memu.borrow with
  | some { hit := some k, .. } => decide (k + 2 ≤ s.beat)
  | _ => false

/-- A window is released, tested in full or abandoned (R450-R452). -/
def releaseWin (s : State) (m : March) (w : Borrow) (faulty abandoned : Bool) : State :=
  let s := s.restoreWin w
  let s := if faulty then s.faultyRow w.code w.inst w.row s.mtestRepair else s
  if ¬ abandoned then s.afterWin m w true
  else
    let s := s.satReg Reg.mtestAbandon
    if m.abandons + 1 < 16 then s.afterWin m w false
    else (s.setFld Reg.mtestStatus 15 8 (min 255 (s.regFld Reg.mtestStatus 15 8 + 1))).afterWin m w true

/-- Rows that a destructive run has tested by this beat, when it ends here: all, or up to the present one on ABORT (R449, R457). -/
def destructEnds (s : State) : Option Nat :=
  match s.memu.march with
  | some m =>
    if m.preserving then none
    else
      let k := 10 * rowWords m.code
      if m.nextAt + destructBeats m.code ≤ s.beat then some (memRows m.code)
      else if m.stopping ∧ m.nextAt ≤ s.beat ∧ (s.beat - m.nextAt) % k = 0 then some (min (memRows m.code) ((s.beat - m.nextAt) / k))
      else none
  | none => none

/-- A destructive run ends (R449, R452, R456): faulty rows are repaired and the instance is cleared; on ABORT the rows tested hold
0. -/
def endDestruct (s : State) (m : March) (rows : Nat) (faults : List Nat) : State :=
  let fs := faults.filter fun r => decide (r < rows)
  let s := fs.foldl (fun (s : State) r => s.faultyRow m.code m.inst r (s.mtestRepair && !m.stopping)) s
  let s := s.setFld Reg.mtestStatus 31 16 (rows - 1)
  let s := s.clearBytes (memBase m.code m.inst) (256 * rows)
  let s := if m.code = 0 then s.instrWritten m.inst else s
  let s := s.unsign m.code m.inst
  s.endMarch (if rows < memRows m.code ∨ m.stopping then 3 else 2)

/-- A repair map that waits for NVM is stored (R453). -/
def repBeat (s : State) : State :=
  if s.cal.repDue ∧ s.storeCheck = .ok then (s.modCal fun c => { c with repDue := false }).startStore .rep else s

/-- SPARES of every instance show what NVM gives (R103, R457). -/
def showSpares (s : State) : State := s.forBelow 11 fun c s => s.forBelow (memInstances c) fun i s => s.showRepair c i

/-- The repair map is loaded at start-up (R453); without a valid one every spare row is free. -/
def loadRepair (s : State) : State :=
  let v := s.nvm
  match s.newerOf repMagic v.repA.hdr v.repB.hdr with
  | some b =>
    (s.modMemu fun m => { m with repair := (if b then v.repB else v.repA).ents.map RepEnt.ofWord }).showSpares
  | none => s.showSpares

/-! ### Retention -/

/-- RET[n].STATE (R457). -/
def retState (s : State) (n : Nat) : Nat := s.regFld (Reg.ret n) 17 16

/-- The check of a RET[n] write (R454, R455, R504). -/
def retCheck (s : State) (n : Nat) (v : Word) : Err :=
  let st := s.retState n
  let mode := fld v 1 0
  let leaves := st = 0 ∧ mode ≠ 0
  let streams := (List.range 4).any fun j => s.strmEn n j
  ((Err.need (decide (mode ≠ 3)) .eRange).orElse
    (Err.need (!decide leaves || (s.ringQuiet n && decide (s.resqFill n = 0) && !streams)) .eState)).orElse
    (Err.need (decide (st ≠ 3) && (!decide leaves || !(s.marchOn n || s.checkOn n ||
      (match s.memu.borrow with | some w => decide (w.code ≤ 8 ∧ w.inst = n) | none => false)))) .eBusy)

/-- The effect of a RET[n] write (R454, R455): off loses the contents; what an owner CHECK found of them ends with the clear after the
wake (R504). -/
def retDo (s : State) (n : Nat) (v : Word) : State :=
  let st := s.retState n
  let mode := fld v 1 0
  let s := s.setFld (Reg.ret n) 1 0 mode
  if mode = st then s
  else if mode = 0 then
    let w := (s.beat + (if st = 2 then 35768 else 3000), decide (st = 2))
    (s.setFld (Reg.ret n) 17 16 3).modMemu fun m => { m with wake := m.wake.set n (some w) }
  else
    let s := s.setFld (Reg.ret n) 17 16 mode
    if mode = 2 then s.forBelow 9 fun c s => s.clearMem c n else s

/-- The wake of ring `n`'s memories that ends in this beat (R455). -/
def wakeDue (s : State) (n : Nat) : Option Bool :=
  match s.memu.wake.getD n none with
  | some (t, c) => if t ≤ s.beat then some c else none
  | none => none

/-- A wake ends (R455): after off the memories are cleared, which acts as a write to the instruction memory. -/
def wakeEnd (s : State) (n : Nat) (cleared : Bool) : State :=
  let s := (s.setFld (Reg.ret n) 17 16 0).modMemu fun m => { m with wake := m.wake.set n none }
  if cleared then (s.clearRing n).instrWritten n else s

end State

/-- ECC_WRITEBACK: a corrected word is written back (R440). Nothing happens unless it waits for it (log entry 4). -/
def execEccWriteback (a : Word) (s : State) : Res := .next (s.writeBack a.toNat)

/-- SCRUB_READ: the scrubber reads the array word at an address (R441), where it may. -/
def execScrubRead (a : Word) (s : State) : Res := .next <| if s.scrubbable a.toNat then s.scrub (arrayBase a.toNat) else s

/-- WINDOW_BORROW: the engine borrows the next row (R450). Nothing happens unless that is due (log entry 4). -/
def execWindowBorrow (s : State) : Res :=
  .next <| match s.memu.march with
    | some m => if s.borrowDue then s.borrowWin m else s
    | none => s

/-- WINDOW_RELEASE: a window tested in full is released, repaired when faulty (R450, R452). Nothing happens unless that is due (log
entry 4). -/
def execWindowRelease (faulty : Bool) (s : State) : Res :=
  .next <| match s.memu.march, s.memu.borrow with
    | some m, some w => if s.releaseWinDue then s.releaseWin m w faulty false else s
    | _, _ => s

/-- WINDOW_ABANDON: a window that a real-time access met is released (R451); `faulty` tells what was found before the access.
Nothing happens unless that is due (log entry 4). -/
def execWindowAbandon (faulty : Bool) (s : State) : Res :=
  .next <| match s.memu.march, s.memu.borrow with
    | some m, some w => if s.abandonDue then s.releaseWin m w faulty true else s
    | _, _ => s

/-- MTEST_DONE: a destructive run ends with the rows it found faulty (R449). Nothing happens unless that is due (log entry 4). -/
def execMtestDone (faults : List Nat) (s : State) : Res :=
  .next <| match s.memu.march, s.destructEnds with
    | some m, some rows => s.endDestruct m rows faults
    | _, _ => s

/-- RET_WAKE_DONE: the wake of a ring's memories ends (R455). Nothing happens unless that is due (log entry 4). -/
def execRetWakeDone (n : RingId) (s : State) : Res :=
  .next <| match s.wakeDue n with
    | some c => s.wakeEnd n c
    | none => s

end Sys2Proof.Machine
end

