-- ==== Sys2Proof/Machine/Carousel.lean ====
section
/-! DEFINITION. Carousel surveillance: slots, frames, statistics, spectra and their pushes (R458-R472). -/

namespace Sys2Proof.Machine

/-- The largest number from `x` to `x + 2^k - 1` that satisfies `ge`, which holds up to some number. -/
def searchDb (ge : Int → Bool) : Nat → Int → Int
  | 0, x => x
  | k + 1, x => if ge (x + 2 ^ k) then searchDb ge k (x + 2 ^ k) else searchDb ge k x

/-- `p / q` is at least 10^((u - 1/2) / 2560): in dB units it rounds to `u` or more (R463). -/
def dbAtLeast (p q : Nat) (u : Int) : Bool :=
  if 0 ≤ 2 * u - 1 then decide (q ^ 5120 * 10 ^ (2 * u - 1).toNat ≤ p ^ 5120) else decide (q ^ 5120 ≤ p ^ 5120 * 10 ^ (1 - 2 * u).toNat)

/-- The power `p / q` of full scale in dB units (R463): rounded half up, saturated; -32,768 for 0. -/
def dbUnits (p q : Nat) : Int := if p = 0 then -32768 else searchDb (dbAtLeast p q) 16 (-32768)

/-- Tap `j` of the 32,768 of the prototype filter (R461): free but for its gain, which tap 16,384 makes 1 (DESIGN CHOICE, log entry 12). -/
def carTap (j : Nat) : Int :=
  if j = 16384 then 2 ^ 32 - ((List.range 32768).map fun i => if i = 16384 then 0 else Config.carTap i).sum else Config.carTap j

/-- Bin `k` of the transform of 32,768 samples under the filter (R461), real and imaginary part with 94 fractional bits: 4 taps in each of
8,192 branches. -/
def binSum (xs : List Int) (k : Nat) : Int × Int :=
  xs.zipIdx.foldl (fun p x =>
    let y := carTap x.2 * x.1
    let a := 128 * (x.2 * k % 8192)
    (p.1 + y * cosPhase a, p.2 - y * sinPhase a)) (0, 0)

/-- The power of bin `k` of a frame (R461, R462): in the second zone the folded order is reversed. -/
def binPower (zone : Nat) (xs : List Int) (k : Nat) : Nat :=
  let z := binSum xs (if zone = 1 then 4096 - k else k)
  (z.1 * z.1 + z.2 * z.2).toNat

/-- The power that reads 0 dBFS (R462): that of a sine of amplitude 2,048 LSB centred on a bin. -/
def fullPower : Nat := (1024 * 2 ^ 94) ^ 2

/-- One frame enters a bin's statistics (R464); `thr` is the bin's threshold in dB units. -/
def binAdd (a : BinAcc) (p : Nat) (thr : Int) : BinAcc :=
  { s1 := a.s1 + p, s2 := a.s2 + p * p, mx := max a.mx p, mn := some (min (a.mn.getD p) p)
    occ := a.occ + if thr < dbUnits p fullPower then 1 else 0 }

/-- `x / y` rounded half up and saturated to 16 bits. -/
def ratio16 (x y : Nat) : Nat := min 65535 ((2 * x + y) / (2 * y))

/-- SK in 2^-12 (R464). -/
def skOf (k : Nat) (a : BinAcc) : Nat :=
  if a.s1 = 0 then 0 else ratio16 (4096 * (k + 1) * (k * a.s2 - a.s1 * a.s1)) ((k - 1) * (a.s1 * a.s1))

/-- The ten bytes of a bin (R464, R469). -/
def binBytes (k : Nat) (a : BinAcc) : List Byte :=
  let w := fun x : Int => leBytes 2 (BitVec.ofInt 16 x).toNat
  w (dbUnits a.s1 (k * fullPower)) ++ w (dbUnits a.mx fullPower) ++ w (dbUnits (a.mn.getD 0) fullPower) ++
    leBytes 2 (skOf k a) ++ leBytes 2 (ratio16 (a.occ * 65535) k)

namespace State

/-- Slot `i`. -/
def carSlot (s : State) (i : Nat) : CarSlot := s.car.getD i {}
/-- Changes a slot. -/
def modCar (s : State) (i : Nat) (f : CarSlot → CarSlot) : State := { s with car := s.car.modify i f }

/-- CAR[i].CFG.RX. -/
def carRx (s : State) (i : Nat) : Nat := s.regFld (Reg.carCfg i) 20 16
/-- CAR[i].CFG.SESS. -/
def carSess (s : State) (i : Nat) : Nat := s.regFld (Reg.carCfg i) 6 4
/-- CAR[i].CFG.PUSH. -/
def carPush (s : State) (i : Nat) : Bool := s.regBit (Reg.carCfg i) 0

/-- INTEG.FRAMES (R472). -/
def carK (s : State) (i : Nat) : Nat := let k := s.regFld (Reg.carInteg i) 19 0; if k = 0 then 2 ^ 20 else k

/-- The check of a CAR[i].CMD write (R459, R460, R486). -/
def carCmdCheck (s : State) (i : Nat) (v : Word) : Err :=
  let r := s.carRx i
  (Err.need (fld v 1 0 != 3) .eRange).orElse <|
    if bit v 0 then
      Err.need (!s.carBusy i && !s.shutting && s.rxLive (r / 2) (r % 2) && !s.carObserves r && (s.rxCal r).inj.isNone &&
        (!s.carPush i || (s.session (s.carSess i)).isOpen)) .eState
    else if bit v 1 then Err.need (s.carBusy i) .eState
    else .ok

/-- A slot starts (R459). -/
def carStart (s : State) (i : Nat) : State :=
  let p0 := s.beat + 6
  ((s.setReg64 (Reg.carStartBeatLo i) (BitVec.ofNat 64 p0)).setReg (Reg.carSpecNum i) 0).modCar i fun _ =>
    { running := true, p0 := p0, k := s.carK i }

/-- STOP (R460): the slot completes the spectrum whose span holds beat E + 6. -/
def carStop (s : State) (i : Nat) : State :=
  s.modCar i fun c => { c with stopping := some (c.stopping.getD ((s.beat + 6 - c.p0) / (1024 * c.k))) }

/-- The effect of a CAR[i].CMD write. -/
def carCmdDo (s : State) (i : Nat) (v : Word) : State :=
  if bit v 0 then s.carStart i else if bit v 1 then s.carStop i else s

/-- Writes of CFG and INTEG: only in IDLE (R460, R472). -/
def carCfgCheck (s : State) (i : Nat) (v : Word) : Err :=
  (Err.need (decide (fld v 20 16 < 24)) .eRange).orElse (Err.need (!s.carBusy i) .eState)
/-- The check of an INTEG write (R460, R472). -/
def carIntegCheck (s : State) (i : Nat) (v : Word) : Err :=
  (Err.need (fld v 19 0 = 0 || decide (32 ≤ fld v 19 0)) .eRange).orElse (Err.need (!s.carBusy i) .eState)

/-- CAR[i].STATUS (R472). -/
def carStatus (s : State) (i : Nat) : Word :=
  let c := s.carSlot i
  putFld (s.getReg (Reg.carStatus i)) 1 0 (if ¬ c.running then 0 else if c.stopping.isSome then 2 else 1)

/-- Every slot stops at once (R471). -/
def carHalt (s : State) : State :=
  s.forBelow 8 fun i s => s.modCar i fun c => { c with running := false, stopping := none, ready := [], toPush := [] }

/-- The byte address of result buffer `b` of slot `i` (R467). -/
def carBuf (i b : Nat) : Nat := 0x30000000 + 0x80000 * (i / 2) + 0xC000 * (2 * (i % 2) + b)

/-- The threshold of bin `k` of slot `i` (R467). -/
def carThr (s : State) (i k : Nat) : Int :=
  toSigned 16 (ofLe (s.load (0x30000000 + 0x80000 * (i / 2) + 0x30000 + 0x2000 * (i % 2) + 2 * k) 2))

/-- The last pin beat of the new part of the next frame of slot `i` (R461). -/
def frameEnd (c : CarSlot) : Nat := c.p0 + 1024 * c.frame + 1023

/-- Whether the next frame enters the accumulator in this beat (R465). -/
def frameDue (s : State) (i : Nat) : Bool :=
  let c := s.carSlot i
  c.running && decide (frameEnd c + 3072 ≤ s.beat) && !(match c.stopping with | some x => decide (x < c.frame / c.k) | none => false)

/-- The samples of the frame whose new part ends with pin beat `N` (R461): those of 8,192 pin beats, and 0 before the first beat. -/
def frameSamples (s : State) (r N : Nat) : List Int :=
  (List.range 8192).flatMap fun b =>
    ((s.rx (r / 2) (r % 2)).hist.find? fun e => e.1 + 8191 == N + b).elim [0, 0, 0, 0] (·.2)

/-- A frame enters the accumulator, and the last of a spectrum finishes it (R464, R465). -/
def carFrame (s : State) (i : Nat) : State :=
  let c := s.carSlot i
  let r := s.carRx i
  let N := frameEnd c
  let old := if c.bins.isEmpty then List.replicate 4096 {} else c.bins
  let xs := s.frameSamples r N
  let zone := s.regFld (Reg.rxCtrl (r / 2) (r % 2)) 5 4
  let bins := List.zipWith (fun (a : BinAcc) k => binAdd a (binPower zone xs k) (s.carThr i k)) old (List.range 4096)
  let s := s.rtRead (0x30000000 + 0x80000 * (i / 2) + 0x30000 + 0x2000 * (i % 2)) 0x2000
  let num := c.frame / c.k
  if (c.frame + 1) % c.k = 0 then
    let fl := ((c.flags.find? fun e => e.1 = num).map (·.2)).getD 0
    s.modCar i fun c => { c with
      frame := c.frame + 1, bins := [], flags := c.flags.filter (fun e => decide (num < e.1))
      ready := c.ready ++ [(num, N + 7232, fl, bins)] }
  else s.modCar i fun c => { c with frame := c.frame + 1, bins := bins }

/-- The spectrum of slot `i` that is being written to its buffer in this beat (R465, R468): number and ready beat. The 4,160 beats begin with
the one in which its last frame enters the accumulator, and the ready beat is past them. -/
def carWriting (s : State) (i : Nat) : Option (Nat × Nat) :=
  let c := s.carSlot i
  if s.frameDue i ∧ (c.frame + 1) % c.k = 0 then some (c.frame / c.k, frameEnd c + 7232)
  else (c.ready.find? fun x => decide (s.beat < x.2.1)).map fun x => (x.1, x.2.1)

/-- The header of a spectrum or of a part of it (R469). -/
def specHeader (s : State) (i num first count : Nat) (flags : BitVec 16) : List Byte :=
  let c := s.carSlot i
  let b := c.p0 + 1024 * c.k * num
  let t := s.netTime b
  let r := s.carRx i
  leBytes 4 num ++ leBytes 2 first ++ leBytes 2 count ++ leBytes 4 (ts32 t).toNat ++ leBytes 2 (subNs t).toNat ++
    [BitVec.ofNat 8 r, BitVec.ofNat 8 (s.regFld (Reg.rxCtrl (r / 2) (r % 2)) 5 4)] ++ leBytes 4 c.k ++ leBytes 2 flags.toNat ++
    [0, 0] ++ leBytes 8 b

/-- A spectrum is ready (R465, R466, R470): it stands in its buffer, and under PUSH it is pushed or thinned. -/
def specReady (s : State) (i num : Nat) (fl : BitVec 16) (bins : List BinAcc) : State :=
  let c := s.carSlot i
  let fl := putBit fl 4 c.thinned
  let buf := carBuf i (num % 2)
  let s := s.rtStore buf (s.specHeader i num 0 4096 (putBit fl 0 true) ++ bins.flatMap (binBytes c.k))
  let s := (s.addReg (Reg.carSpecNum i) 1).setBit (Reg.carStatus i) 8 (num % 2 = 1)
  let s := (s.raiseIf (bit fl 3) (Reg.carFlags i) 1).raiseIf (bit fl 1) (Reg.carFlags i) 0
  let s := s.modCar i fun c => { c with
    ready := c.ready.drop 1
    running := c.running && c.stopping != some num
    stopping := if c.stopping = some num then none else c.stopping }
  if s.carPush i ∧ ¬ c.sessGone then
    let (keep, sum) := s.thin c.thinSum
    let s := s.modCar i fun c => { c with thinSum := sum }
    if keep then s.modCar i fun c => { c with thinned := false, toPush := c.toPush ++ [num] }
    else ((s.satReg (Reg.carThin i)).raiseFlag (Reg.carFlags i) 2).modCar i fun c => { c with thinned := true }
  else s

/-- A spectrum is pushed from its buffer (R469): 5 parts where every port is JUMBO, else 32. -/
def specPush (s : State) (i num : Nat) : State :=
  let u := s.carSess i
  let buf := carBuf i (num % 2)
  let parts : List (Nat × Nat) :=
    if s.pushJumbo (s.pushPorts u) then [(0, 896), (896, 896), (1792, 896), (2688, 896), (3584, 512)]
    else (List.range 32).map fun k => (128 * k, 128)
  let head := s.load buf 32
  let all := s.load (buf + 32) 40960
  let s := s.eccRead buf 40992
  let s := parts.foldl (fun (s : State) (p : Nat × Nat) =>
    let (q, s) := s.nextSeqNo 1 i
    let isLast := decide (p.1 + p.2 = 4096)
    let fl := BitVec.ofNat 16 (leAt head 20 2)
    let h := head.take 4 ++ leBytes 2 p.1 ++ leBytes 2 p.2 ++ (head.drop 8).take 12 ++ leBytes 2 (putBit fl 0 isLast).toNat ++ head.drop 22
    s.pushClassC u [classData 1 i q (h ++ (all.drop (10 * p.1)).take (10 * p.2))]) s
  s.modCar i fun c => { c with toPush := c.toPush.drop 1 }

/-- Sets a flag of the spectrum whose span holds pin beat `P` (R466). -/
def specFlag (s : State) (i P b : Nat) : State :=
  let c := s.carSlot i
  if P < c.p0 then s
  else
    let num := (P - c.p0) / (1024 * c.k)
    let old := ((c.flags.find? fun e => e.1 = num).map (·.2)).getD 0
    s.modCar i fun c => { c with flags := (num, putBit old b true) :: c.flags.filter fun e => e.1 ≠ num }

/-- The end of a beat for the slots (R466): what the pin beat shows of READY, LOOP_EN and trims, and of overload 24 beats ago,
when an overload that ended in it is known. -/
def carBeat (s : State) : State :=
  s.forBelow 8 fun i s =>
    if ¬ s.carBusy i then s
    else
      let r := s.carRx i
      let n := r / 2
      let c := r % 2
      let b := s.beat
      let s := if (s.rx n c).ready then s else s.specFlag i b 3
      let s := if s.regBit (Reg.rxCtrl n c) 10 then s.specFlag i b 5 else s
      let s := if (s.rx n c).calAt.contains b then s.specFlag i b 2 else s
      if 24 ≤ b ∧ s.rxOvr n c (b - 24) (b - 24) then s.specFlag i (b - 24) 1 else s

/-- A session closes: its pushing slots stop pushing (R470). -/
def carSessGone (s : State) (u : Nat) : State :=
  s.forBelow 8 fun i s =>
    if s.carBusy i ∧ s.carPush i ∧ s.carSess i = u ∧ ¬ (s.carSlot i).sessGone then
      (s.modCar i fun c => { c with sessGone := true, toPush := [] }).raiseFlag (Reg.carFlags i) 3
    else s

end State

/-- CAROUSEL_FRAME: a frame of 4,096 bins enters the slot's accumulator (R461, R464). Nothing happens unless it is due (log
entry 4). -/
def execCarouselFrame (i : Fin 8) (s : State) : Res := .next <| if s.frameDue i then s.carFrame i else s

/-- SPECTRUM_READY: a finished spectrum is ready (R465). Nothing happens before its ready beat (log entry 4). -/
def execSpectrumReady (i : Fin 8) (s : State) : Res :=
  .next <| match (s.carSlot i).ready with
    | (num, at_, fl, bins) :: _ => if at_ ≤ s.beat then s.specReady i num fl bins else s
    | [] => s

/-- SPECTRUM_PUSH: a ready spectrum goes out in CLASS_DATA operations (R469). Nothing happens when none waits (log entry 4). -/
def execSpectrumPush (i : Fin 8) (s : State) : Res :=
  .next <| match (s.carSlot i).toPush with
    | num :: _ => s.specPush i num
    | [] => s

end Sys2Proof.Machine
end

