-- ==== Sys2Proof/Machine/Slh.lean ====
section
/-! DEFINITION. SLH-DSA-SHA2-128s (FIPS 205), pure, with an empty context string: what every signature of the device is (R491-R507). The
details are the standard's (PRESUMED, log entry 14). Parameters: n = 16, h = 63, d = 7, h' = 9, a = 12, k = 14, w = 16, m = 30. -/

namespace Sys2Proof.Machine

/-- A compressed address: layer, tree, type and its three last words. -/
structure Adrs where
  layer : Nat := 0
  tree : Nat := 0
  typ : Nat := 0
  x : Nat := 0
  y : Nat := 0
  z : Nat := 0
  deriving DecidableEq, Repr

/-- The 22 bytes of an address. -/
def Adrs.bytes (r : Adrs) : List Byte :=
  BitVec.ofNat 8 r.layer :: beBytes 8 r.tree ++ BitVec.ofNat 8 r.typ :: (beBytes 4 r.x ++ beBytes 4 r.y ++ beBytes 4 r.z)

/-- The hash that F, H, T and PRF share: 16 bytes from PK.seed, an address and a message. -/
def slhHash (seed : List Byte) (r : Adrs) (m : List Byte) : List Byte :=
  (sha256 (seed ++ List.replicate 48 0 ++ r.bytes ++ m)).take 16

/-- `k` digits of `b` bits of a byte string read as a big-endian bit string. -/
def slhDigits (m : List Byte) (b k : Nat) : List Nat :=
  let v := beNat m
  (List.range k).map fun i => v / 2 ^ (8 * m.length - b * (i + 1)) % 2 ^ b

/-- Node `i` of 16 bytes of a signature. -/
def slhNode (sig : List Byte) (i : Nat) : List Byte := (sig.drop (16 * i)).take 16

/-- `k` steps of a chain from step `i`. -/
def slhChain (seed : List Byte) (r : Adrs) : Nat → Nat → List Byte → List Byte
  | _, 0, x => x
  | i, k + 1, x => slhChain seed r (i + 1) k (slhHash seed { r with z := i } x)

/-- The 35 digits of a message of 16 bytes with its checksum. -/
def wotsDigits (m : List Byte) : List Nat :=
  let d := slhDigits m 4 32
  d ++ slhDigits (beBytes 2 (16 * d.foldl (fun c x => c + (15 - x)) 0)) 4 3

/-- The one-time public key that a signature of `m` spells. -/
def wotsFromSig (seed : List Byte) (r : Adrs) (sig m : List Byte) : List Byte :=
  let parts := ((List.range 35).zip (wotsDigits m)).flatMap fun e =>
    slhChain seed { r with typ := 0, y := e.1 } e.2 (15 - e.2) (slhNode sig e.1)
  slhHash seed { r with typ := 1, y := 0, z := 0 } parts

/-- The climb from a node along its authentication path of `k` nodes: `idx` is the leaf, counted within its tree, and `base` the number
of trees before it. -/
def slhClimb (seed : List Byte) (r : Adrs) (path : List Byte) (idx base : Nat) : Nat → List Byte → List Byte
  | 0, x => x
  | k + 1, x =>
    let below := slhClimb seed r path idx base k x
    let at_ := { r with y := k + 1, z := (base + idx) / 2 ^ (k + 1) }
    if idx / 2 ^ k % 2 = 0 then slhHash seed at_ (below ++ slhNode path k) else slhHash seed at_ (slhNode path k ++ below)

/-- The root of a tree of one layer that a signature of `m` spells. -/
def xmssFromSig (seed : List Byte) (layer tree idx : Nat) (sig m : List Byte) : List Byte :=
  let leaf := wotsFromSig seed { layer := layer, tree := tree, x := idx } sig m
  slhClimb seed { layer := layer, tree := tree, typ := 2 } (sig.drop 560) idx 0 9 leaf

/-- The root of the top layer that `k` layers of a signature spell. -/
def hyperRoot (seed : List Byte) : Nat → Nat → Nat → Nat → List Byte → List Byte → List Byte
  | 0, _, _, _, _, m => m
  | k + 1, layer, tree, idx, sig, m =>
    hyperRoot seed k (layer + 1) (tree / 512) (tree % 512) (sig.drop 704) (xmssFromSig seed layer tree idx sig m)

/-- The FORS public key that a signature of the digest `md` spells. -/
def forsFromSig (seed : List Byte) (tree leaf : Nat) (sig md : List Byte) : List Byte :=
  let r : Adrs := { tree := tree, typ := 3, x := leaf }
  let roots := ((List.range 14).zip (slhDigits md 12 14)).flatMap fun e =>
    let part := sig.drop (208 * e.1)
    slhClimb seed r (part.drop 16) e.2 (4096 * e.1) 12 (slhHash seed { r with z := 4096 * e.1 + e.2 } (slhNode part 0))
  slhHash seed { r with typ := 4 } roots

/-- The digest of a message: FORS digits, tree and leaf. -/
def slhDigest (rnd pub msg : List Byte) : List Byte × Nat × Nat :=
  let inner := sha256 (rnd ++ pub ++ msg)
  let d := sha256 (rnd ++ pub.take 16 ++ inner ++ List.replicate 4 0)
  (d.take 21, beNat ((d.drop 21).take 7) % 2 ^ 54, beNat ((d.drop 28).take 2) % 512)

/-- The message as the pure interface signs it, with an empty context string. -/
def slhPure (msg : List Byte) : List Byte := 0 :: 0 :: msg

/-- Verification under a public key of 32 bytes: PK.seed, then PK.root. -/
def slhVerify (pub msg sig : List Byte) : Bool :=
  let seed := pub.take 16
  let (md, tree, leaf) := slhDigest (sig.take 16) pub (slhPure msg)
  let fors := forsFromSig seed tree leaf (sig.drop 16) md
  decide (sig.length = 7856 ∧ pub.length = 32 ∧ hyperRoot seed 7 0 tree leaf (sig.drop 2928) fors = pub.drop 16)

/-! ### Signing -/

/-- The secret of a chain or of a FORS leaf. -/
def slhSecret (seed sk : List Byte) (r : Adrs) : List Byte := slhHash seed r sk

/-- A one-time signature of `m`; with 15 for every digit, the ends of its chains. -/
def wotsChains (seed sk : List Byte) (r : Adrs) (digits : List Nat) : List Byte :=
  ((List.range 35).zip digits).flatMap fun e =>
    slhChain seed { r with typ := 0, y := e.1 } 0 e.2 (slhSecret seed sk { r with typ := 5, y := e.1 })

/-- Node `i` at height `k` of a tree of one layer. -/
def xmssNode (seed sk : List Byte) (layer tree : Nat) : Nat → Nat → List Byte
  | 0, i =>
    let r : Adrs := { layer := layer, tree := tree, x := i }
    slhHash seed { r with typ := 1 } (wotsChains seed sk r (List.replicate 35 15))
  | k + 1, i =>
    slhHash seed { layer := layer, tree := tree, typ := 2, y := k + 1, z := i }
      (xmssNode seed sk layer tree k (2 * i) ++ xmssNode seed sk layer tree k (2 * i + 1))

/-- The other child of a node's parent. -/
def buddy (i : Nat) : Nat := if i % 2 = 0 then i + 1 else i - 1

/-- The signature of `m` by one layer. -/
def xmssSign (seed sk : List Byte) (layer tree idx : Nat) (m : List Byte) : List Byte :=
  wotsChains seed sk { layer := layer, tree := tree, x := idx } (wotsDigits m) ++
    (List.range 9).flatMap fun j => xmssNode seed sk layer tree j (buddy (idx / 2 ^ j))

/-- The signatures of `k` layers. -/
def hyperSign (seed sk : List Byte) : Nat → Nat → Nat → Nat → List Byte → List Byte
  | 0, _, _, _, _ => []
  | k + 1, layer, tree, idx, m =>
    let sig := xmssSign seed sk layer tree idx m
    sig ++ hyperSign seed sk k (layer + 1) (tree / 512) (tree % 512) (xmssFromSig seed layer tree idx sig m)

/-- The secret of FORS leaf `i`. -/
def forsSecret (seed sk : List Byte) (r : Adrs) (i : Nat) : List Byte := slhSecret seed sk { r with typ := 6, y := 0, z := i }

/-- Node `i` at height `k` of the FORS trees. -/
def forsNode (seed sk : List Byte) (r : Adrs) : Nat → Nat → List Byte
  | 0, i => slhHash seed { r with typ := 3, y := 0, z := i } (forsSecret seed sk r i)
  | k + 1, i =>
    slhHash seed { r with typ := 3, y := k + 1, z := i } (forsNode seed sk r k (2 * i) ++ forsNode seed sk r k (2 * i + 1))

/-- The FORS signature of a digest. -/
def forsSign (seed sk : List Byte) (r : Adrs) (md : List Byte) : List Byte :=
  ((List.range 14).zip (slhDigits md 12 14)).flatMap fun e =>
    forsSecret seed sk r (4096 * e.1 + e.2) ++
      (List.range 12).flatMap fun j => forsNode seed sk r j (buddy ((4096 * e.1 + e.2) / 2 ^ j))

/-- The HMAC of SHA-256 under a key of 16 bytes. -/
def hmac (key msg : List Byte) : List Byte :=
  let block := key ++ List.replicate (64 - key.length) 0
  sha256 (block.map (· ^^^ 0x5C) ++ sha256 (block.map (· ^^^ 0x36) ++ msg))

/-- The signature of a message under a private key of 64 bytes, SK.seed, SK.prf, PK.seed and PK.root; the 16 bytes that randomise it
are a free value. -/
def slhSign (key msg : List Byte) : List Byte :=
  let sk := key.take 16
  let pub := key.drop 32
  let seed := pub.take 16
  let m := slhPure msg
  let rnd := (hmac ((key.drop 16).take 16) ((Config.slhRandom msg).toList ++ m)).take 16
  let (md, tree, leaf) := slhDigest rnd pub m
  let fors := forsSign seed sk { tree := tree, x := leaf } md
  rnd ++ fors ++ hyperSign seed sk 7 0 tree leaf (forsFromSig seed tree leaf fors md)

end Sys2Proof.Machine
end

