-- ==== Sys2Proof/Machine/Thermal.lean ====
section
/-! DEFINITION. Housekeeping, thermal levels and throttling, shutdown and hard trip, fans and telemetry (R473-R490). -/

namespace Sys2Proof.Machine

/-- The code of a thermal level (R478). -/
def thermalCode : Thermal → Nat
  | .normal => 0 | .warn => 1 | .throttle => 2 | .shutdown => 3

/-- The die of a temperature sensor: 0 to 3 the converter dies, 4 the digital die (R474). -/
def sensorDie (i : Nat) : Nat := if i < 12 then i / 3 else 4

/-- Counts a condition in a run of consecutive readings. -/
def runOf (k : Nat) (c : Bool) : Nat := if c then k + 1 else 0

/-- The level that a sensor takes (R478): the highest whose entry condition holds, or that it is at or above, and whose leaving
condition does not hold. -/
def levelOf (x : Sensor) : Thermal :=
  let at_ := thermalCode x.level
  let holds := fun L : Nat => (decide (4 ≤ x.up.getD (L - 1) 0) || decide (L ≤ at_)) && (L == 3 || decide (x.below.getD (L - 1) 0 < 4))
  if holds 3 then .shutdown else if holds 2 then .throttle else if holds 1 then .warn else .normal

/-- The excess of a sensor (R482), in steps of 0.5 degrees. -/
def excessOf (x : Sensor) : Nat :=
  if thermalCode x.level < 2 then 0 else max 1 (Int.fdiv (x.temp - 1600 + 7) 8).toNat

namespace State

/-- Changes the housekeeping unit. -/
def modHk (s : State) (f : HkUnit → HkUnit) : State := { s with hk := f s.hk }
/-- Sensor `i`. -/
def sens (s : State) (i : Nat) : Sensor := s.hk.sens.getD i {}
/-- Changes a sensor. -/
def modSens (s : State) (i : Nat) (f : Sensor → Sensor) : State := s.modHk fun h => { h with sens := h.sens.modify i f }

/-- The chip level (R478); 0b11 in a graceful shutdown (R486). -/
def chipLevel (s : State) : Nat :=
  if s.shutting then 3 else (s.hk.sens.map fun x => thermalCode x.level).foldl max 0

/-- e_chip (R482). -/
def chipExcess (s : State) : Nat := (s.hk.sens.map (·.excess)).foldl max 0

/-- The sensors of which a reading has counted (R490). -/
def countedSens (s : State) : List Nat := (List.range 16).filter fun i => (s.sens i).lastCode.isSome

/-- The sensor with the highest counted reading (R490), the lowest of several (DESIGN CHOICE, log entry 82). -/
def hottest (s : State) : Nat :=
  match s.countedSens with
  | [] => 0
  | i :: l => l.foldl (fun b i => if (s.sens b).temp < (s.sens i).temp then i else b) i

/-- THERM_STATUS and THROTTLE_R follow the counted readings (R484, R490). -/
def showThermal (s : State) : State :=
  let s := s.setFld Reg.thermStatus 23 16 (min 255 s.chipExcess)
  let s := (s.setFld Reg.thermStatus 11 8 s.hottest).setFld Reg.thermStatus 1 0 s.chipLevel
  s.setFld Reg.throttleR 4 0 (20 - s.chipExcess)

/-- THERM_SENS[i] follows its sensor (R490). -/
def showSens (s : State) (i : Nat) : State :=
  let x := s.sens i
  (s.setFld (Reg.thermSens i) 21 20 (thermalCode x.level)).setFld (Reg.thermSens i) 15 0 (BitVec.ofInt 16 x.temp).toNat

/-! ### Shutdown -/

/-- The clear input's action on every bias output in a shutdown or trip (R261). -/
def clearShut (s : State) (force : Bool) : State :=
  let was := s.clrForce
  let s := { s with rst := { s.rst with clrShut := true } }
  if was ∧ ¬ force then s else s.forBias fun n b s => s.clearAssert n b force

/-- Changes the security unit. -/
def modSec (s : State) (f : SecUnit → SecUnit) : State := { s with sec := f s.sec }

/-- The register that holds a security operation's RESULT (R507). -/
def resultReg : SecKind → Nat
  | .update => Reg.fwUpdStatus
  | .fuse _ => Reg.fuseStatus
  | .attest => Reg.attStatus
  | .check _ | .lock | .unlock => Reg.ownStatus

/-- OWN_NONCE (R503, R507): a random value, of which the state holds the number of the draw. -/
def ownNonce (s : State) : Word := Config.ownNonce (match s.sec.nonceNo with | some k => k + 1 | none => 0)

/-- A new OWN_NONCE is drawn (R503, R507). -/
def newNonce (s : State) : State :=
  let (k, s) := s.draw
  s.modSec fun x => { x with nonceNo := some k }

/-- The fuses after a write that was cut (R491, R502): each bit that was to be written reads its old value or 1. `k` is the number of the
draw. -/
def cutFuses (f : Fuses) (op svn k : Nat) : Fuses :=
  if op = 2 then { f with revoked := f.revoked ||| BitVec.ofNat 2 (Config.fuseCut k 0).toNat }
  else { f with minSvn := f.minSvn + ((List.range (svn - f.minSvn)).filter (Config.fuseCut k)).length }

/-- A security operation ends: STATE is DONE, with a RESULT but for an attestation, which has none (R507); after an UNLOCK attempt a new
OWN_NONCE is drawn (R503). -/
def endSecOp (s : State) (o : SecOp) (e : Err) : State :=
  let s := if o.kind = .unlock then s.newNonce else s
  (s.setReg (resultReg o.kind) (if o.kind = .attest then 2 else e.code.zeroExtend 32 <<< 16 ||| 2)).modSec fun x => { x with op := none }

/-- Beat 0 of a shutdown for the security operation (R502): one that writes neither NVM nor fuses ends with E_STATE. -/
def shutSec (s : State) : State :=
  match s.sec.op with
  | some o => if o.writing then s else s.endSecOp o .eState
  | none => s

/-- The device decides on the graceful shutdown (R486). -/
def startShutdown (s : State) (i : Nat) (second : Bool) : State :=
  if s.shutting then s
  else
    let s := (s.modHk fun h => { h with shutAt := some s.beat }).raiseEvent 0x0305 0x02 (BitVec.ofNat 32 (i + 256 * second.toNat))
    let s := s.setFld Reg.thermStatus 1 0 3
    let s := s.forBelow 12 fun n s => s.requestAbort n 2
    ((s.clearShut false).carHalt).shutSec

/-- Whether beat W of the shutdown has come (R486): the abort ramps have ended, 28 beats after beat 0 (DESIGN CHOICE, log entry 34), and no
NVM write runs, or 3 ms have passed. -/
def powerDownDue (s : State) : Bool :=
  match s.hk.shutAt, s.hk.shutW with
  | some b, none => decide (b + 28 ≤ s.beat) && ((s.cal.store.isNone && !s.secWrites) || decide (b + 4500000 ≤ s.beat))
  | _, _ => false

/-- An NVM write is abandoned: its target stays invalid (R431, R502). -/
def cutNvm (s : State) : State :=
  let s := s.cutStore
  match s.sec.op with
  | some o => if s.secWrites then s.endSecOp o .eState else s
  | none => s

/-- RX converters, monitor receivers and Trapeze data lanes power down (R486); a link whose lanes do goes to OFF (log entry
34), and a block or visit that a receiver has not finished comes to nothing. -/
def powerDown (s : State) : State :=
  let s := s.modHk fun h => { h with powered := false }
  let s := s.modCal fun c => { c with die := c.die.map fun d => { d with chan := none, seen := none } }
  s.forBelow 4 fun k s => if (s.link k).st = .off then s else s.modLink k fun l => { freqOk := l.freqOk, st := .off, since := s.beat }

/-- Every TX output changes its analog state. -/
def allTx (s : State) (o : TxOut) : State := s.forBelow 12 fun n s => s.forBelow 4 fun c s => s.modTx n c fun x => { x with out := o }

/-- The TX outputs ramp to 0 mA by a beat (R486); one that is off stays so. -/
def rampDownTx (s : State) (t : Nat) : State :=
  s.forBelow 12 fun n s => s.forBelow 4 fun c s => s.modTx n c fun x => { x with out := if x.out = .off then .off else .rampDown t }

/-- Beat W (R486). -/
def shutPower (s : State) : State :=
  ((s.cutNvm.modHk fun h => { h with shutW := some s.beat }).powerDown).rampDownTx (s.beat + 150000)

/-- The hard trip (R487). -/
def trip (s : State) : State :=
  let s := (s.modHk fun h => { h with tripped := true, tripOff := some (s.beat + 30) }).setBit Reg.thermStatus 7 true
  let s := s.forBelow 12 fun n s => s.requestAbort n 2
  let s := ((s.clearShut true).carHalt).cutNvm
  match s.sec.op with
  | some o =>
    match o.kind, o.writing with
    | .fuse op, true =>
      let (k, s) := s.draw
      s.modSec fun x => { x with op := none, fuses := cutFuses x.fuses op x.img.svn k }
    | _, _ => s
  | none => s

/-- The end of a beat: 30 beats after a trip every TX output carries 0 mA (R487). -/
def tripBeat (s : State) : State :=
  match s.hk.tripOff with
  | some t => if t ≤ s.beat + 1 then (s.modHk fun h => { h with tripOff := none }).allTx .off else s
  | none => s

/-! ### Readings -/

/-- What makes a sensor broken (R479), by its cause code. -/
def brokenCause (s : State) (i : Nat) (code : Nat) (t : Int) (same : Nat) : Option Nat :=
  let mates := (List.range 16).filter fun j =>
    j ≠ i && sensorDie j = sensorDie i && !(s.sens j).broken && (s.sens j).lastCode.isSome
  if 4080 ≤ code then some 0
  else if code ≤ 15 then some 1
  else if t < -640 ∨ 2400 < t ∨ (¬ mates.isEmpty ∧ mates.all fun j => decide (480 < (t - (s.sens j).temp).natAbs)) then some 2
  else if 64 ≤ same then some 3
  else none

/-- Sensor `i` is declared broken (R479, R480). -/
def breakSens (s : State) (i cause : Nat) : State :=
  let others := (List.range 16).any fun j => j ≠ i && sensorDie j = sensorDie i && (s.sens j).broken
  let s := (s.modSens i fun x => { x with broken := true }).raiseFlag Reg.thermFlags 2
  let s := (s.setFld (Reg.thermSens i) 27 26 cause).setBit (Reg.thermSens i) 25 true
  let s := s.raiseEvent 0x0304 0x02 (BitVec.ofNat 32 (i + 256 * cause))
  if others then s.startShutdown i true else s

/-- A counted reading of sensor `i` in 1/16 degree (R478, R482): dwell counts, level, excess and what an entered level does. -/
def countTemp (s : State) (i : Nat) (t : Int) : State :=
  let s := s.modSens i fun x => { x with
    temp := t
    up := [runOf (x.up.getD 0 0) (1520 ≤ t), runOf (x.up.getD 1 0) (1600 ≤ t), runOf (x.up.getD 2 0) (1792 ≤ t)]
    below := [runOf (x.below.getD 0 0) (t < 1472), runOf (x.below.getD 1 0) (t < 1552)] }
  let was : Thermal := (s.sens i).level
  let now : Thermal := levelOf (s.sens i)
  let s := s.modSens i fun x => { x with level := now, excess := excessOf { x with level := now } }
  let s := match now with
    | .warn => if was = Thermal.normal then (s.raiseFlag Reg.thermFlags 0).raiseEvent 0x0301 0x02 (BitVec.ofNat 32 i) else s
    | .throttle =>
      if was = Thermal.normal ∨ was = Thermal.warn then
        (s.raiseFlag Reg.thermFlags 1).raiseEvent 0x0302 0x02 (BitVec.ofNat 32 (i + 256 * min 255 (s.sens i).excess))
      else s
    | .normal => if was = Thermal.normal then s else s.raiseEvent 0x0303 0x02 (BitVec.ofNat 32 i)
    | .shutdown => if was = Thermal.shutdown then s else s.startShutdown i false
  (s.showSens i).showThermal

/-- The reading of temperature sensor `i` (R478, R479): a broken sensor counts as 105 degrees. -/
def tempReading (s : State) (i code : Nat) (t : Int) : State :=
  if (s.sens i).broken then s.countTemp i 1680
  else
    let x := s.sens i
    let same := if x.lastCode = some code then x.sameRun + 1 else 1
    let cause := s.brokenCause i code t same
    let s := s.modSens i fun x => { x with lastCode := some code, sameRun := same }
    match cause with
    | some c => (s.breakSens i c).countTemp i 1680
    | none => s.countTemp i t

/-- The reading of supply monitor `m` (R475). -/
def supplyReading (s : State) (m : Nat) (v : Int) : State :=
  let w := s.getReg (Reg.supWin m)
  let out := decide (v < sfld w 15 0 ∨ sfld w 31 16 < v)
  (s.setBit Reg.supOor m out).raiseIf out Reg.thermFlags 3

/-- HK_CTRL.LOWPWR stretches a conversion from 1 to 4 us (R473). -/
def convBeats (s : State) : Nat := if s.regBit Reg.hkCtrl 0 then 6000 else 1500

/-- Whether the reference checks of a round discard it (R476) is the free value Config.refFails, since the spec does not give the factory
windows; it is drawn as the round begins, because readings of it would count before its last slots are converted (DESIGN CHOICE, log
entry 10). -/
def drawRefs (s : State) : State :=
  let (k, s) := s.draw
  s.modHk fun h => { h with refBad := Config.refFails k }

/-- A round starts in the present beat (R477). -/
def startRound (s : State) : State :=
  (s.modHk fun h => { h with
    roundAt := s.beat, slot := 0, convAt := s.beat + s.convBeats, waitEdge := none, edgeAt := none }).drawRefs

/-- The period of FAN_PWM[f] in beats (R488): that of 25 kHz within 1 %. -/
def pwmPeriod (f : Nat) : Nat := 59406 + Config.pwmLonger f % 1201

/-- The beat of its PWM period that the present beat is. -/
def pwmAt (s : State) (f : Nat) : Nat := (s.beat + Config.pwmPhase f) % pwmPeriod f

/-- The duty of FAN_PWM[f] in % (R485, R488), rounded down to a step of 1 % (DESIGN CHOICE, log entry 82): 100 in reset and until the first
counted reading (R528). -/
def fanDuty (s : State) (f : Nat) : Nat :=
  let c := s.getReg (Reg.fanCtrl f)
  let lo : Int := s.regFld (Reg.fanCurve f) 7 0
  let hi : Int := s.regFld (Reg.fanCurve f) 15 8
  let mn : Int := fld c 31 24
  let t := (s.sens s.hottest).temp
  if s.rst.inReset ∨ s.countedSens = [] then 100
  else if ¬ bit c 0 then 0
  else if ¬ bit c 1 then fld c 23 16
  else if 1 ≤ s.chipLevel then 100
  else (max mn (min 100 (mn + Int.fdiv ((100 - mn) * (t - 16 * lo)) (16 * (hi - lo))))).toNat

/-- The level of FAN_PWM[f] (R488, R528): high for its share of each period, from the period's first beat on. -/
def fanPwm (s : State) (f : Nat) : Bool := decide (100 * s.pwmAt f < s.fanDuty f * pwmPeriod f)

/-- FAN_PWM[f] rises in this beat: a duty of 0 or 100 % has no edges (R477, R488). -/
def pwmRises (s : State) (f : Nat) : Bool := decide (0 < s.fanDuty f ∧ s.fanDuty f < 100 ∧ s.pwmAt f = 0)

/-- One beat of the wait for a PWM edge (R477). -/
def edgeBeat (s : State) : State :=
  if s.hk.waitEdge.isSome ∧ s.hk.edgeAt.isNone ∧ s.regBit Reg.hkCtrl 8 ∧ s.pwmRises (s.regFld Reg.hkCtrl 4 4) then
    s.modHk fun h => { h with edgeAt := some s.beat }
  else s

/-- A round ends (R476, R477, R489, R490); the beat after its last is the first in which a PWM edge counts for the next. -/
def endRound (s : State) : State :=
  let num := (s.getReg Reg.hkStatus).toNat
  let s := (s.addReg Reg.hkStatus 1).raiseIf s.hk.refBad Reg.thermFlags 6
  let s := (s.modHk fun h => { h with waitEdge := some s.beat, telemN := h.telemN + 1 }).edgeBeat
  if s.regBit Reg.telemCtrl 0 ∧ s.regFld Reg.telemCtrl 23 8 ≤ s.hk.telemN then
    s.modHk fun h => { h with telemN := 0, telemDue := some (num, h.roundAt) }
  else s

/-- A conversion of the round is complete (R473). -/
def conversion (s : State) (code : BitVec 12) (val : Int) : State :=
  let k := s.hk.slot
  let c := code.toNat
  let shown : Int := if k < 4 ∨ 92 ≤ k then c else val
  let round := (s.getReg Reg.hkStatus).toNat
  let s := s.setReg (Reg.hkVal k) (BitVec.ofNat 16 round ++ BitVec.ofInt 16 shown)
  let s := s.modHk fun h => { h with slot := k + 1, convAt := s.beat + s.convBeats }
  let s :=
    if k < 4 then s
    else if k < 20 then (if s.hk.refBad then s else s.tempReading (k - 4) c val)
    else if k < 44 then s.supplyReading (k - 20) val
    else if k < 92 then s.biasReadback ((k - 44) / 4) ((k - 44) % 4) round val
    else s
  if k = 95 then s.endRound else s

/-- Whether a conversion ends in this beat. -/
def conversionDue (s : State) : Bool := s.hk.waitEdge.isNone && decide (s.hk.slot < 96 ∧ s.hk.convAt ≤ s.beat)

/-- Whether a round may start in this beat (R477): at once without AIN_SYNC, from the beat on that follows the one before it; with AIN_SYNC
HK_AIN_DELAY after the first PWM edge, or without an edge after 1 ms. -/
def roundDue (s : State) (edge : Bool) : Bool :=
  match s.hk.waitEdge with
  | some e =>
    let sync := s.regBit Reg.hkCtrl 8
    if edge then sync && s.hk.edgeAt.any fun t => decide (t + 15 * s.regFld Reg.hkAinDelay 15 0 ≤ s.beat)
    else if sync then s.hk.edgeAt.isNone && decide (e + 1500000 ≤ s.beat) else decide (e ≤ s.beat)
  | none => false

/-- The check of an HK_CTRL write (R477). -/
def hkCtrlCheck (s : State) (v : Word) : Err := Err.need (!bit v 0 || decide (s.chipLevel = 0)) .eState

/-- The check of a TELEM_CTRL write (R489, R490). -/
def telemCheck (s : State) (v : Word) : Err :=
  (Err.need (decide (fld v 23 8 ≠ 0)) .eRange).orElse (Err.need (!bit v 0 || (s.session (fld v 6 4)).isOpen) .eState)

/-- The check of a SUP_WIN write (R490). -/
def supWinCheck (v : Word) : Err := Err.need (decide (sfld v 15 0 < sfld v 31 16)) .eRange

/-- The checks of FAN[f].CTRL and FAN[f].CURVE writes (R490). -/
def fanCtrlCheck (v : Word) : Err := Err.need (decide (fld v 31 24 ≤ 100 ∧ fld v 23 16 ≤ 100)) .eRange
/-- The check of a CURVE write. -/
def fanCurveCheck (v : Word) : Err := Err.need (decide (fld v 7 0 < fld v 15 8)) .eRange

/-- The speed of a fan of which FAN_TACH has given so many pulses in a second, 2 of them a revolution (R488); it saturates (DESIGN CHOICE, log
entry 82). -/
def rpmOf (pulses : BitVec 16) : BitVec 16 := BitVec.ofNat 16 (min 65535 (30 * pulses.toNat))

/-- A fan's speed is updated (R488). -/
def fanUpdate (s : State) (f : Nat) (rpm : BitVec 16) : State :=
  let low := s.regBit (Reg.fanCtrl f) 0 && decide (rpm.toNat < s.regFld (Reg.fanMinRpm f) 15 0)
  let k := runOf (s.hk.fans.getD f {}).lowFor low
  let s := (s.setReg (Reg.fanTach f) (rpm.zeroExtend 32)).modHk fun h => { h with
    fans := h.fans.modify f fun x => { lowFor := k, nextAt := x.nextAt + 1500000000 } }
  s.raiseIf (k == 3) Reg.thermFlags 4

/-- The telemetry push of a round (R489), thinned like the other class C sources (R484). -/
def telemetry (s : State) (num from_ : Nat) : State :=
  let t := s.netTime from_
  let vals := (List.range 96).flatMap fun k => leBytes 2 (s.regFld (Reg.hkVal k) 15 0)
  let data := leBytes 4 num ++ leBytes 4 (ts32 t).toNat ++ leBytes 2 (subNs t).toNat ++ List.replicate 6 0 ++ vals
  let (keep, sum) := s.thin s.hk.telemSum
  let (q, s) := s.nextSeqNo 3 0
  let s := s.modHk fun h => { h with telemSum := sum, telemDue := none }
  if keep then s.pushClassC (s.regFld Reg.telemCtrl 6 4) [classData 3 0 q data] else s

end State

/-- HK_ROUND_START: a housekeeping round starts (R477), at a fan's PWM edge when `edge` says so. Nothing happens unless it may (log
entry 4). -/
def execHkRoundStart (edge : Bool) (s : State) : Res :=
  .next <|
    if s.roundDue edge then
      (if ¬ edge ∧ s.regBit Reg.hkCtrl 8 then s.raiseFlag Reg.thermFlags 5 else s).startRound
    else s

/-- HK_CONVERSION: a conversion ends with its code and the value it stands for in the unit of its slot (R473). Nothing happens
before its end (log entry 4). -/
def execHkConversion (code : BitVec 12) (val : Int) (s : State) : Res :=
  .next <| if s.conversionDue then s.conversion code val else s

/-- SHUTDOWN_POWER_DOWN: beat W of the graceful shutdown (R486). Nothing happens unless it is due (log entry 4). -/
def execShutdownPowerDown (s : State) : Res := .next <| if s.powerDownDue then s.shutPower else s

/-- SHUTDOWN_DONE: 150,000 beats after W (R486). Nothing happens before (log entry 4). -/
def execShutdownDone (s : State) : Res :=
  .next <| match s.hk.shutW with
    | some w => if w + 150000 ≤ s.beat ∧ ¬ s.regBit Reg.thermStatus 6 then (s.setBit Reg.thermStatus 6 true).allTx .off else s
    | none => s

/-- HARD_TRIP: the comparator of a sensor has sampled above 122 degrees four times in a row (R487); that of a broken sensor is
disabled (R479). -/
def execHardTrip (i : Fin 16) (s : State) : Res := .next <| if (s.sens i).broken ∨ s.hk.tripped then s else s.trip

/-- FAN_TACH_UPDATE: the speed of a fan is updated every second from the pulses that FAN_TACH has given in it (R488). Nothing happens in
between (log entry 4). -/
def execFanTachUpdate (f : Fin 2) (pulses : BitVec 16) (s : State) : Res :=
  .next <| if (s.hk.fans.getD f {}).nextAt ≤ s.beat then s.fanUpdate f (State.rpmOf pulses) else s

/-- TELEMETRY_PUSH: every EVERY-th round is pushed (R489). Nothing happens when none waits (log entry 4). -/
def execTelemetryPush (s : State) : Res :=
  .next <| match s.hk.telemDue with
    | some (num, b) => s.telemetry num b
    | none => s

end Sys2Proof.Machine
end

