-- ==== Sys2Proof/Machine/Sec.lean ====
section
/-! DEFINITION. Firmware update, fuses, attestation and the owner lock (R491-R507). -/

namespace Sys2Proof.Machine

/-- A 32-bit field of a byte string. -/
def wordAt (m : List Byte) (off : Nat) : Word := BitVec.ofNat 32 (leAt m off 4)

/-- Bytes `[off, off + k)` are all 0. -/
def zeroAt (m : List Byte) (off k : Nat) : Bool := ((m.drop off).take k).all (· == 0)

/-- The header of an image of `len` bytes is as R493 gives it. -/
def imgHeaderOk (m : List Byte) : Bool :=
  decide (wordAt m 0 = 0x4E594646 ∧ leAt m 8 4 ≤ 32 ∧ leAt m 12 4 + 7984 = m.length ∧ leAt m 12 4 % 64 = 0 ∧ 64 ≤ leAt m 12 4 ∧
    leAt m 12 4 ≤ 167040 ∧ leAt m 16 1 ≤ 1 ∧ wordAt m 20 = 0xED504824) && zeroAt m 17 3 && zeroAt m 60 68

/-- Vendor public key of an image. -/
def imgKey (m : List Byte) : List Byte := (m.drop 28).take 32

/-- Header and body of an image. -/
def imgSigned (m : List Byte) : List Byte := m.take (m.length - 7856)

/-- What an image says of itself, and whether it passes the checks of R494 that no fuse can change later. -/
def readImg (f : Fuses) (m : List Byte) : FwImg :=
  let k := leAt m 16 1
  { fwVer := wordAt m 4, svn := leAt m 8 4, key := k
    good := imgHeaderOk m && decide (leAt m 24 2 ≤ 0x0200 ∧ 0x0200 ≤ leAt m 26 2) &&
      decide (sha256 (imgKey m) = if k = 0 then f.vkh0 else f.vkh1) &&
      slhVerify (imgKey m) (imgSigned m) (m.drop (m.length - 7856))
    hash := sha256 (imgSigned m) }

/-- KIND of a signature block (R501). -/
def blkKind (m : List Byte) : Nat := leAt m 8 1

/-- A signature block is as R501 gives it; what an UNLOCK checks is left to it (R503). -/
def blkOk (serial : Word) (m : List Byte) : Bool :=
  decide (wordAt m 0 = 0x4E474953 ∧ wordAt m 4 = 1 ∧ blkKind m ≤ 3 ∧ wordAt m 16 = 0xED504824) && zeroAt m 9 3 && zeroAt m 20 4 &&
    zeroAt m 60 4 && (blkKind m == 3 || (decide (wordAt m 12 = serial ∨ wordAt m 12 = 0) && zeroAt m 56 4))

/-- Owner public key of a block. -/
def blkKey (m : List Byte) : List Byte := (m.drop 24).take 32

namespace State

/-- An image may run: REVOKED and MIN_SVN allow it (R494). -/
def imgGood (s : State) (i : FwImg) : Bool :=
  i.good && !bit s.sec.fuses.revoked i.key && decide (s.sec.fuses.minSvn ≤ i.svn)

/-- A firmware slot is good (R494). -/
def slotGood (s : State) (b : Bool) : Bool :=
  let x := if b then s.nvm.fwB else s.nvm.fwA
  s.hdrValid fwMagic x.hdr && s.imgGood x.img

/-- The newer good slot (R495). -/
def goodSlot (s : State) : Option Bool :=
  match s.slotGood false, s.slotGood true with
  | true, true => some (below s.nvm.fwA.hdr.seq s.nvm.fwB.hdr.seq)
  | true, false => some false
  | false, true => some true
  | false, false => none

/-- SEC_STATUS (R507). -/
def secStatus (s : State) : Word :=
  let f := s.sec.fuses
  BitVec.ofNat 32 (2 ^ 24 * s.sec.img.svn + 2 ^ 16 * f.minSvn + 2 ^ 11 * s.sec.keyLost.toNat + 2 ^ 10 * f.debugDis.toNat +
    2 ^ 8 * f.revoked.toNat + 2 ^ 4 * s.sec.img.key + 2 ^ 3 * (s.slotGood true).toNat + 2 ^ 2 * (s.slotGood false).toNat)

/-- Only one security operation runs, and none starts in a shutdown (R502). -/
def secFree (s : State) : Err := (Err.need (!s.shutting) .eState).orElse (Err.need s.sec.op.isNone .eBusy)

/-- A security operation starts: its STATE is running (R507). -/
def startSecOp (s : State) (o : SecOp) : State :=
  (s.setFld (resultReg o.kind) 1 0 1).modSec fun x => { x with op := some { o with start := s.beat } }

/-- The operation that runs is of this kind. -/
def secIs (s : State) (k : SecKind) : Bool := (s.sec.op.map (·.kind)) == some k

/-! ### Firmware update -/

/-- The check of an FW_UPD_CMD write (R496). -/
def fwUpdCheck (s : State) (v : Word) : Err :=
  let src := (s.getReg Reg.fwUpdSrc).toNat
  let len := (s.getReg Reg.fwUpdLen).toNat
  if bit v 0 then
    ((Err.need (decide (src % 32 = 0 ∧ 0x10000000 ≤ src ∧ src + len ≤ 0x10400000)) .eAddr).orElse
      (Err.need (decide (8048 ≤ len ∧ len ≤ 175024 ∧ (len - 7984) % 64 = 0)) .eRange)).orElse
      (s.secFree.orElse (Err.need (!s.nvmBusy) .eBusy))
  else .ok

/-- The effect of an FW_UPD_CMD write: the image is copied (R496; at once, log entry 35). -/
def fwUpdDo (s : State) (v : Word) : State :=
  if bit v 0 then
    let src := (s.getReg Reg.fwUpdSrc).toNat
    let len := (s.getReg Reg.fwUpdLen).toNat
    (s.eccRead src len).startSecOp { kind := .update, block := s.load src len }
  else s

/-- The error with which an update's image fails, if it does (R496). -/
def updError (s : State) (m : List Byte) : Err :=
  if ¬ imgHeaderOk m then .eFormat else if s.imgGood (readImg s.sec.fuses m) then .ok else .eAuth

/-- The target of an update: the slot other than the newer good one (R496). -/
def updTarget (s : State) : Bool := s.goodSlot == some false

/-- The verified image begins to be written: the target is erased (R429, R496). -/
def beginUpdate (s : State) (o : SecOp) : State :=
  (s.modNvm fun v => if s.updTarget then { v with fwB := {} } else { v with fwA := {} }).modSec fun x =>
    { x with op := some { o with writing := true } }

/-- The image has been written and read back (R496). -/
def finishUpdate (s : State) (o : SecOp) (ok : Bool) : State :=
  let toB := s.updTarget
  let seq := match s.goodSlot with
    | some true => s.nvm.fwB.hdr.seq + 1
    | some false => s.nvm.fwA.hdr.seq + 1
    | none => 1
  let x : NvmFw := {
    hdr := ({ magic := fwMagic, seq := seq, length := BitVec.ofNat 32 o.block.length, format := 2, unit := s.serial32, checkOk := ok } :
      NvmHdr).sealed o.block
    img := readImg s.sec.fuses o.block }
  let s := s.modNvm fun v => if toB then { v with fwB := x } else { v with fwA := x }
  if ok then { s.endSecOp o .ok with fwBad := false } else (s.endSecOp o .eInternal).slotInvalid 0 toB

/-- The next step of an update (R494, R496): verification, about 7,500,000 beats after the copy, then the write. -/
def stepUpdate (s : State) (o : SecOp) (ok : Bool) : State :=
  if o.writing then s.finishUpdate o ok
  else if s.updError o.block = .ok then s.beginUpdate o
  else s.endSecOp o (s.updError o.block)

/-! ### Fuses -/

/-- The check of a FUSE_CMD write (R497, R502). -/
def fuseCheck (s : State) (v : Word) : Err :=
  let op := fld v 1 0
  let img := s.sec.img
  let other := !s.sec.slotB
  let svn := (if other then s.nvm.fwB else s.nvm.fwA).img.svn
  ((Err.need (decide (fld v 31 16 = 0xF05E ∧ (op = 1 ∨ op = 2))) .eRange).orElse
    (Err.need (if op = 2 then img.key == 1 else decide (s.sec.fuses.minSvn < img.svn) && !(s.slotGood other && decide (svn < img.svn)))
      .eState)).orElse s.secFree

/-- The effect of a FUSE_CMD write (R497). -/
def fuseDo (s : State) (v : Word) : State := s.startSecOp { kind := .fuse (fld v 1 0), writing := true }

/-- A fuse write completes (R497). -/
def finishFuse (s : State) (o : SecOp) (op : Nat) : State :=
  (s.modSec fun x => { x with fuses :=
    if op = 2 then { x.fuses with revoked := x.fuses.revoked ||| 1 } else { x.fuses with minSvn := x.img.svn } }).endSecOp o .ok

/-! ### Attestation -/

/-- The check of an ATT_CMD write (R502). -/
def attCheck (s : State) (v : Word) : Err := if bit v 0 then s.secFree else .ok

/-- The identity public key: the second half of the private key (FIPS 205; PRESUMED, log entry 36). -/
def identityKey (s : State) : List Byte := s.sec.fuses.privKey.drop 32

/-- The bytes of the owner key hash: 0 while unlocked (R507). -/
def ownerHash (s : State) : List Byte := if s.sec.locked then s.sec.ownHash else List.replicate 32 0

/-- Bytes 0 to 191 of a report (R500). -/
def reportBytes (s : State) : List Byte :=
  let f := s.sec.fuses
  let flags := s.sec.locked.toNat + 2 * s.sec.slotB.toNat + 4 * s.rst.bootMode.toNat + 16 * s.sec.img.key + 32 * s.sec.keyLost.toNat
  leBytes 4 0x54544157 ++ leBytes 4 1 ++ leBytes 4 0xED504824 ++ leBytes 4 0x0200 ++ leBytes 8 f.serial.toNat ++
    leBytes 4 s.sec.img.fwVer.toNat ++ leBytes 4 0x0200 ++ leBytes 4 s.sec.img.svn ++ leBytes 4 f.minSvn ++ leBytes 4 flags ++
    leBytes 4 0 ++ ((List.range 8).flatMap fun i => leBytes 4 (s.getReg (Reg.attNonce i)).toNat) ++ s.sec.img.hash ++ s.ownerHash ++
    leBytes 8 s.beat ++ leBytes 8 (intNs (s.netTime s.beat)).toNat ++ s.identityKey

/-- The effect of an ATT_CMD write (R500): what the report says is that of this beat. -/
def attDo (s : State) (v : Word) : State :=
  if bit v 0 then s.startSecOp { kind := .attest, nonce := s.reportBytes } else s

/-- The new report replaces the old one (R500). -/
def finishAtt (s : State) (o : SecOp) : State :=
  let r := o.nonce ++ slhSign s.sec.fuses.privKey o.nonce
  let s := (List.range 2012).foldl (fun (s : State) i => s.setReg (Reg.attReport i) (wordAt r (4 * i))) s
  (s.addReg Reg.attCount 1).endSecOp o .ok

/-! ### Owner operations -/

/-- The memory that a block's KIND names, as code (R501). -/
def kindCode (k : Nat) : Nat := if k = 0 then 0 else 5

/-- The signature block at OWN_SRC. -/
def ownBlock (s : State) : List Byte := s.load (s.getReg Reg.ownSrc).toNat 7920

/-- The check of an OWN_CMD write (R502, R503, R507). -/
def ownCheck (s : State) (v : Word) : Err :=
  let ring := fld v 11 8
  let conf := fld v 31 16
  if fld v 2 0 = 0 then Err.need (decide (ring < 12)) .eRange
  else
    ((Err.need (decide (popCount v 3 = 1 ∧ ring < 12) && (if bit v 0 then decide (conf = 0) else decide (conf = 0xF05E))) .eRange).orElse
      (Err.need
        (if bit v 0 then
          !s.ringRuns ring && decide ((s.jug ring).st ≠ .running) && !s.destructOn (kindCode (blkKind s.ownBlock)) ring
        else
          ((List.range 12).all fun n => !s.ringRuns n) &&
            (if bit v 1 then !s.sec.locked || (s.sec.keyLost && decide (s.rst.phase = .recovery)) else s.sec.locked)) .eState)).orElse
      s.secFree

/-- The effect of an OWN_CMD write: the block is copied (R503). -/
def ownDo (s : State) (v : Word) : State :=
  let go := fun k : SecKind => (s.eccRead (s.getReg Reg.ownSrc).toNat 7920).startSecOp { kind := k, block := s.ownBlock }
  if bit v 0 then go (.check (fld v 11 8)) else if bit v 1 then go .lock else if bit v 2 then go .unlock else s

/-- What the signature of a block covers (R501): KIND 0 and 1 with the memory of the ring. -/
def blkSigned (s : State) (m : List Byte) (ring : Nat) : List Byte :=
  let k := blkKind m
  m.take 64 ++ if k ≤ 1 then s.load (memBase (kindCode k) ring) (memSize (kindCode k)) else []

/-- The result of an owner operation's checks (R503, R506). -/
def ownError (s : State) (o : SecOp) : Err :=
  let m := o.block
  let hashOk := decide (sha256 (blkKey m) = s.sec.ownHash) && s.sec.locked && !s.sec.keyLost
  let sig := fun n => slhVerify (blkKey m) (s.blkSigned m n) (m.drop 64)
  if ¬ blkOk s.serial32 m then .eFormat
  else
    let k := blkKind m
    let pass := match o.kind with
      | .check n => decide (k ≤ 1) && hashOk && sig n
      | .lock => decide (k = 2) && sig 0
      | _ => decide (k = 3 ∧ wordAt m 12 = s.serial32 ∧ wordAt m 56 = s.ownNonce) && hashOk && sig 0
    if pass then .ok else .eAuth

/-- The records of a LOCK or UNLOCK begin to be written: the target is erased (R429, R502, R503). -/
def beginOwner (s : State) (o : SecOp) : State :=
  let toB := s.targetB ownMagic s.nvm.ownA.hdr s.nvm.ownB.hdr
  (s.modNvm fun v => if toB then { v with ownB := {} } else { v with ownA := {} }).modSec fun x => { x with op := some { o with writing := true } }

/-- The content of an owner record (the order of its parts is the model's, log entry 30). -/
def ownContent (locked : Bool) (hash : List Byte) : List Byte := leBytes 4 locked.toNat ++ hash

/-- The target takes an owner record, whose read-back is good or not (R429, R492, R503). -/
def writeOwner (s : State) (locked : Bool) (hash : List Byte) (ok : Bool) : State :=
  let a := s.nvm.ownA.hdr
  let b := s.nvm.ownB.hdr
  let r : NvmOwn := { hdr := (s.nextHdr ownMagic a b 36 ok).sealed (ownContent locked hash), locked := locked, hash := hash }
  s.modNvm fun v => if s.targetB ownMagic a b then { v with ownB := r } else { v with ownA := r }

/-- A record of a LOCK or UNLOCK has been written (R429, R503, R506): after the first good one the other is erased and written in turn.
When the first fails its read-back the operation ends with E_INTERNAL and the other copy as it was; once the first is good, what the
operation does stands (DESIGN CHOICE, log entry 35). -/
def finishOwner (s : State) (o : SecOp) : State :=
  let (k, s) := s.draw
  let ok := Config.readBack k
  let lock := decide (o.kind = .lock)
  let h := if lock then sha256 (blkKey o.block) else List.replicate 32 0
  let s := s.writeOwner lock h ok
  if ¬ o.second then
    if ok then (s.beginOwner o).modSec fun x => { x with op := x.op.map fun y => { y with second := true } } else s.endSecOp o .eInternal
  else
    let s := if lock then s.setReg Reg.ownAuth 0 else s
    (s.modSec fun x => { x with locked := lock, keyLost := if lock then false else x.keyLost, ownHash := h }).endSecOp o .ok

/-- The next step of an owner operation (R503): its checks, about 9,000,000 beats after the start (R504), then the records. -/
def stepOwner (s : State) (o : SecOp) : State :=
  if o.writing then s.finishOwner o
  else
    let e := s.ownError o
    match o.kind with
    | .check n =>
      if e = .ok then (s.setBit Reg.ownAuth (n + if blkKind o.block = 0 then 0 else 16) true).endSecOp o .ok else s.endSecOp o e
    | _ => if e = .ok then s.beginOwner o else s.endSecOp o e

/-- Beats after its start from which the running operation's next step may come (R494, R504), and by which it must (R496, R497,
R500, R503); the verification of an image or block takes its stated time, and where no limit is stated a store's is taken
(log entry 35). -/
def secTimes (o : SecOp) : Nat × Nat :=
  match o.kind, o.writing with
  | .update, false => (7501500, 7501500)
  | .update, true => (7501501, 30000000)
  | .fuse _, _ => (1, 15000000)
  | .attest, _ => (1, 2400000000)
  | _, false => (9000000, 9000000)
  | _, true => if o.second then (9000002, 9600000) else (9000001, 9300000)

/-- The running operation, when its next step may come in this beat. -/
def secReady (s : State) : Option SecOp := s.sec.op.filter fun o => decide (o.start + (secTimes o).1 ≤ s.beat)

/-- Whether the next step must come in this beat. -/
def secMust (s : State) : Option SecOp := s.sec.op.filter fun o => decide (o.start + (secTimes o).2 ≤ s.beat)

/-- ATT_NONCE is locked while an attestation runs (R507). -/
def attNonceCheck (s : State) : Err := Err.need (!s.secIs .attest) .eBusy

/-- The check of an OWN_SRC write (R507). -/
def ownSrcCheck (v : Word) : Err := Err.need (decide (v.toNat % 32 = 0 ∧ 0x10000000 ≤ v.toNat ∧ v.toNat < 0x10400000)) .eAddr

/-! ### Start-up -/

/-- At boot the newer valid firmware slot is verified, then the other (R495): the slot booted. -/
def bootSlot (s : State) : Option Bool :=
  let a := s.hdrValid fwMagic s.nvm.fwA.hdr
  let b := s.hdrValid fwMagic s.nvm.fwB.hdr
  let first := if a && b then below s.nvm.fwA.hdr.seq s.nvm.fwB.hdr.seq else b
  if s.slotGood first then some first else if s.slotGood (!first) then some (!first) else none

/-- Firmware is booted, with the events of R495. -/
def bootFw (s : State) : State :=
  let s := if s.slotGood false then s else s.slotInvalid 0 false
  let s := if s.slotGood true then s else s.slotInvalid 0 true
  match s.bootSlot with
  | some b =>
    let img := (if b then s.nvm.fwB else s.nvm.fwA).img
    { s.modSec fun x => { x with img := img, slotB := b } with fwBad := false }
  | none =>
    let s := s.raiseEvent 0x0402 0x08 0
    { s.modSec fun x => { x with img := {}, slotB := false } with fwBad := true }

/-- The owner record is read (R506). -/
def loadOwner (s : State) : State :=
  let v := s.nvm
  match s.newerOf ownMagic v.ownA.hdr v.ownB.hdr with
  | some b =>
    let r := if b then v.ownB else v.ownA
    s.modSec fun x => { x with locked := r.locked, ownHash := r.hash, keyLost := false }
  | none => s.modSec fun x => { x with locked := true, keyLost := true }

/-- The certificate chain (R492, R499): at most the 8 KiB of its area. -/
def certBytes (s : State) : List Byte := (if s.nvm.cert.isEmpty then Config.certChain else s.nvm.cert).take 8192

end State

/-- FW_UPDATE_COMPLETE: the update takes its next step, to the write of a verified image or to its end, where `readBack` tells
whether the read-back is good (R496). Nothing happens before its time (log entry 4). -/
def execFwUpdateComplete (readBack : Bool) (s : State) : Res :=
  .next <| match s.secReady with
    | some o => if o.kind = .update then s.stepUpdate o readBack else s
    | none => s

/-- FUSE_WRITE_COMPLETE: a fuse write completes (R497). Nothing happens when none runs (log entry 4). -/
def execFuseWriteComplete (s : State) : Res :=
  .next <| match s.secReady with
    | some o => (match o.kind with | .fuse op => s.finishFuse o op | _ => s)
    | none => s

/-- ATTESTATION_COMPLETE: the new report stands in the window (R500). Nothing happens when none is being made (log entry 4). -/
def execAttestationComplete (s : State) : Res :=
  .next <| match s.secReady with
    | some o => if o.kind = .attest then s.finishAtt o else s
    | none => s

/-- OWNER_OP_COMPLETE: an owner operation takes its next step, to the records or to its end (R503). Nothing happens before its time
(log entry 4). -/
def execOwnerOpComplete (s : State) : Res :=
  .next <| match s.secReady with
    | some o => (match o.kind with | .check _ | .lock | .unlock => s.stepOwner o | _ => s)
    | none => s

end Sys2Proof.Machine
end

