-- ==== Sys2Proof/Machine/Power.lean ====
section
/-! DEFINITION. Reset, start-up, clocks, and the alignment of chips by SYNC (R511-R535). -/

namespace Sys2Proof.Machine

/-- CHIP_STATUS.PHASE (R105). -/
def phaseCode : Phase → Nat
  | .bootRom => 0 | .fwCheck => 1 | .memClear => 2 | .pllLock => 3 | .link => 4 | .ready => 5 | .recovery => 6 | .test => 7

/-- The bit of RST_CAUSE that a cause sets (R535). -/
def causeBit : ResetCause → Nat
  | .por => 0 | .pin => 1 | .pwrOk => 2

namespace State

/-- Changes the reset unit. -/
def modRst (s : State) (f : Rst → Rst) : State := { s with rst := f s.rst }

/-- The beats that the analog ramp of an output from the limiter value `y` in span `span` to 0 V takes (R529): 1 V/ms within 20 %, the
rate being a free value. V = y / 64 x VSPAN / 524,288, and 1.25 V at 1 V/ms are 1,875,000 beats. -/
def analogRamp (k n b : Nat) (y : Int) (span : BitVec 2) : Nat :=
  let at1 := y.natAbs * 2 ^ span.toNat * 1875000
  let unit := 64 * 524288
  let lo := at1 * 10 / (12 * unit)
  let hi := at1 * 10 / (8 * unit)
  lo + Config.rampOff k n b % (hi - lo + 1)

/-! ### Reset -/

/-- What drives a bias output at the moment (R529): the analog ramp that a reset began, or the limiter. -/
def biasAnalog (s : State) (n b : Nat) : Int × BitVec 2 :=
  let o := s.biasOut n b
  let left := o.rampTo - s.rst.ticks
  if left = 0 then (o.y, o.spanNow) else (o.rampY * left / o.rampLen, o.rampSpan)

/-- A bias output as a reset leaves it (R529): when it is driven and VBIAS is valid, it ramps to 0 V from the voltage it has, in the span
it has, before it is at code 0 of the lowest span; a ramp that an earlier reset began goes on. -/
def biasInReset (s : State) (n b : Nat) : BiasOut :=
  let o := s.biasOut n b
  let (y, span) := s.biasAnalog n b
  let left := o.rampTo - s.rst.ticks
  if ¬ (o.driven ∧ s.rst.vbiasOk) then { driven := o.driven }
  else if 0 < left then { driven := true, rampTo := left, rampY := o.rampY, rampLen := o.rampLen, rampSpan := o.rampSpan }
  else
    let len := analogRamp s.freeCtr n b y span
    { driven := true, rampTo := len, rampY := y, rampLen := len, rampSpan := span }

/-- Every register and every run at its reset value (R513); NVM, fuses, the memory arrays, the pins and what drives a bias output
stay, and so do the model's own fields. A fuse write that is cut leaves each of its bits open (R502). -/
def wiped (s : State) : State :=
  let (k, s) := s.draw
  let fuses := match s.sec.op with
    | some { kind := .fuse op, writing := true, .. } => cutFuses s.sec.fuses op s.sec.img.svn k
    | _ => s.sec.fuses
  let base : State := {}
  let rings := base.rings.mapIdx fun n r => { r with bias := (List.range 4).map fun b => s.biasInReset n b }
  let rst : Rst := {
    strapPin := s.rst.strapPin, bootPin := s.rst.bootPin, vbiasOk := s.rst.vbiasOk, clrN := s.rst.clrN, pwrOk := s.rst.pwrOk,
    resetN := s.rst.resetN, vddio := s.rst.vddio }
  { base with
    rings := rings, mem := s.mem, memu := { damaged := s.memu.damaged }, nvm := s.nvm, sec := { fuses := fuses }
    rst := rst, freeCtr := s.freeCtr, pending := s.pending }

/-- The device enters reset, with the bit of its cause (R512, R513, R515). A loss of VDDIO clears RST_CAUSE first. -/
def enterReset (s : State) (cause : Nat) : State :=
  let old := s.getReg Reg.rstCause
  let count := if cause = 0 then 0 else min 65535 (fld old 31 16 + 1)
  let bits := 2 ^ cause + (if s.hk.tripped then 16 else 0)
  let s := s.wiped.modRst fun r => { r with inReset := true }
  s.setReg Reg.rstCause (BitVec.ofNat 32 (65536 * count + bits))

/-- A reset condition begins (R512): a reset that runs lasts until 10 us after it, too. A loss of VDDIO clears RST_CAUSE (R515). -/
def assertReset (s : State) (c : ResetCause) : State :=
  let s :=
    if s.rst.inReset then (if c = .por then s.setReg Reg.rstCause 0 else s)
    else s.enterReset (causeBit c)
  s.modRst fun r => { r with
    clearAt := none, assertAt := r.ticks
    vddio := if c = .por then false else r.vddio
    resetN := if c = .pin then false else r.resetN
    pwrOk := if c = .pwrOk then false else r.pwrOk }

/-- 10 us have passed since the last reset condition began, the least that R512 lets a reset last. -/
def resetMayEnd (s : State) : Bool := s.rst.inReset && decide (s.rst.assertAt + 15000 ≤ s.rst.ticks)

/-- RST_CAUSE at the end of reset (R515): the causes that held, an RST_CMD among them when its 10 us end now, beside COUNT and TRIP. -/
def causesHeld (s : State) : Word :=
  let old := s.getReg Reg.rstCause
  let sw := bit old 3 && decide (s.rst.ticks ≤ 15000)
  BitVec.ofNat 32 (65536 * fld old 31 16 + 16 * (bit old 4).toNat + 8 * sw.toNat + 4 * (!s.rst.pwrOk).toNat + 2 * (!s.rst.resetN).toNat +
    (!s.rst.vddio).toNat)

/-- Reset ends (R512, R515, R522): the straps are sampled and the boot ROM starts; OWN_NONCE takes a random value (R507). An analog ramp of
a bias output goes on (R529). -/
def endReset (s : State) : State :=
  let s := (s.setReg Reg.rstCause s.causesHeld).newNonce
  (s.forBias fun n b s => s.modBias n b fun o => { o with rampTo := o.rampTo - s.rst.ticks }).modRst fun r => { r with
    inReset := false, clearAt := none, assertAt := 0, vddio := true, resetN := true, pwrOk := true, ticks := 0, phaseAt := 0
    phase := .bootRom, strap := r.strapPin, bootMode := r.bootPin }

/-- The check of an RST_CMD write (R514). -/
def rstCheck (s : State) (v : Word) : Err :=
  if bit v 0 then
    ((Err.need (decide (fld v 31 16 = 0xF05E)) .eRange).orElse (Err.need ((List.range 12).all fun n => !s.ringRuns n) .eState)).orElse
      (Err.need (s.cal.store.isNone && s.sec.op.isNone) .eBusy)
  else .ok

/-- The effect of an RST_CMD write (R514): the reset comes 15,000 beats after the first one. -/
def rstDo (s : State) (v : Word) : State :=
  if bit v 0 then s.modRst fun r => { r with swAt := some (r.swAt.getD (s.beat + 15000)) } else s

/-! ### Start-up -/

/-- Microseconds since the end of reset (R527). -/
def upTime (s : State) : Word := BitVec.ofNat 32 (s.rst.ticks / 1500)

/-- A phase begins. -/
def toPhase (s : State) (p : Phase) : State := s.modRst fun r => { r with phase := p, phaseAt := r.ticks }

/-- A phase begins with which start-up ends: STARTUP_TIME is set (R527). -/
def lastPhase (s : State) (p : Phase) : State := (s.toPhase p).setReg Reg.startupTime s.upTime

/-- The network configuration in force (R41, R91): that of NVM when it is valid. -/
def loadNet (s : State) : State :=
  let v := s.nvm
  match s.newerOf netMagic v.netA.hdr v.netB.hdr with
  | some b =>
    let ws := (if b then v.netB else v.netA).words
    let s := ws.foldl (fun (s : State) (e : Nat × Word) => s.setReg e.1 e.2) s
    { s with netNow := ws.filter (fun e => e.1 ≠ Reg.startupCfg), macOwn := true }
  | none => s

/-- STARTUP_CFG.MTEST as NVM holds it (R525). -/
def nvmMtest (s : State) : Bool :=
  match s.newerOf netMagic s.nvm.netA.hdr s.nvm.netB.hdr with
  | some b => (((if b then s.nvm.netB else s.nvm.netA).words.find? fun e => e.1 = Reg.startupCfg).map fun e => bit e.2 0).getD false
  | none => false

/-- NVM is read and the analog ramp that the reset began has ended: the output takes its clear code (R262, R529). -/
def bootTakes (s : State) (n b : Nat) : Bool := (s.biasOut n b).bootDue && decide ((s.biasOut n b).rampTo ≤ s.rst.ticks)

/-- An output takes its clear code in the start-up sequence. -/
def bootTake (s : State) (n b : Nat) : State :=
  if s.bootTakes n b then
    let s := s.modBias n b fun o => { o with bootDue := false }
    if (s.biasOut n b).driven then s.clearTake n b false else s
  else s

/-- NVM is read: every driven bias output takes its clear code (R262), after its ramp (R529). -/
def biasBoot (s : State) : State :=
  s.forBias fun n b s => (s.modBias n b fun o => { o with bootDue := o.driven }).bootTake n b

/-- The ports start to align (R522, R526): each port whose MODE is not off. -/
def startPorts (s : State) : State :=
  s.forBelow 2 fun p s => s.modPort p fun e => { e with
    state := if s.regFld (Reg.ethCtrl p) 5 4 = 2 then .down else .aligning }

/-- Recovery mode (R498, R526): memories clear, clear codes and owner record loaded, both ports 400GBASE-R with JUMBO. -/
def enterRecovery (s : State) : State :=
  let s := ((s.clearAll.showSpares.loadCal).loadOwner).loadNet.biasBoot
  let s := s.forBelow 2 fun p s => (s.setBit (Reg.ethCtrl p) 9 true).setFld (Reg.ethCtrl p) 5 4 0
  let s := (s.startPorts.modHk fun h => { h with powered := false }).lastPhase .recovery
  s.modRst fun r => { r with linkAt := s.beat, modRst := false }

/-- Phase 0x0 ends (R522, R526): the core PLL has locked, and the first housekeeping round has begun. -/
def endBoot (s : State) : State :=
  let s := (s.modRst fun r => { r with coreLock := true, mgmtLock := true, refOk := true }).drawRefs
  if s.rst.bootMode = 2 then s.lastPhase .test
  else if s.rst.bootMode = 1 then s.enterRecovery
  else if s.rst.bootMode = 3 then s
  else s.toPhase .fwCheck

/-- Phase 0x1 ends (R495): firmware is booted, or the device goes into recovery mode. -/
def endFw (s : State) : State :=
  let s := s.bootFw
  if s.fwBad then s.enterRecovery else s.toPhase .memClear

/-- The repair map is stored within phase 0x2 (R453, R524); whether its read-back is good is drawn. -/
def storeRepairs (s : State) : State :=
  let (k, s) := (s.startStore .rep).draw
  match s.cal.store with
  | some t => s.finishStore t (Config.readBack k)
  | none => s

/-- The start-up march test (R524): it repairs the rows that it finds faulty, and the repair map is stored after its last instance. -/
def startupTest (s : State) (faults : List (Nat × Nat × Nat)) : State :=
  (faults.foldl (fun (s : State) (f : Nat × Nat × Nat) =>
    if f.2.1 < memInstances f.1 ∧ f.2.2 < memRows f.1 then s.faultyRow f.1 f.2.1 f.2.2 true else s) s).storeRepairs

/-- Phase 0x2 ends (R453, R456, R524). -/
def endClear (s : State) (faults : List (Nat × Nat × Nat)) : State :=
  let t := s.nvmMtest
  let s := s.loadRepair.setBit Reg.startupCfg 0 t
  (if t then s.startupTest faults else s).clearAll.toPhase .pllLock

/-- Phase 0x3 ends (R244, R262, R522). After a shutdown or a trip the TX outputs stay at 0 mA (R486, R487). -/
def endPll (s : State) : State :=
  let s := s.modRst fun r => { r with convLock := 0xF }
  let s := ((if s.shutting || s.hk.tripped then s else s.allTx (.rampUp (s.beat + 150000))).loadCal).loadOwner
  ((s.loadNet.biasBoot.startPorts).toPhase .link).modRst fun r => { r with linkAt := s.beat, modRst := false }

/-- Ticks that a phase needs at least (R456, R524): the clear of the exchange memory, and the start-up march test before it. -/
def phaseMin (s : State) : Nat :=
  match s.rst.phase with
  | .memClear => if s.nvmMtest then 117227520 + 65536 else 65536
  | _ => 0

/-- Ticks within which a phase ends (R522). -/
def phaseMax (s : State) : Nat :=
  match s.rst.phase with
  | .bootRom => 15000000
  | .fwCheck => 18000000
  | .memClear => if s.nvmMtest then 187500000 else 150000
  | .pllLock => 150000000
  | _ => 3000000000

/-- A phase whose end is its work's end, which may have come. -/
def workPhase (s : State) : Bool :=
  !s.rst.inReset && decide (s.rst.phaseAt + s.phaseMin ≤ s.rst.ticks) && match s.rst.phase with
    | .bootRom => decide (s.rst.bootMode ≠ 3)
    | .fwCheck | .memClear | .pllLock => true
    | _ => false

/-- The present phase is complete (R522). -/
def endPhase (s : State) (faults : List (Nat × Nat × Nat)) : State :=
  match s.rst.phase with
  | .bootRom => s.endBoot
  | .fwCheck => s.endFw
  | .memClear => s.endClear faults
  | .pllLock => s.endPll
  | _ => s

/-- The end of a beat: a TX output's ramp from or to 0 mA ends (R244, R486). -/
def rampBeat (s : State) : State :=
  if (s.rings.any fun r => r.tx.any fun x => match x.out with | .rampUp t | .rampDown t => decide (t ≤ s.beat + 1) | _ => false) then
    s.forBelow 12 fun n s => s.forBelow 4 fun c s => s.modTx n c fun x =>
      match x.out with
      | .rampUp t => if t ≤ s.beat + 1 then { x with out := .live } else x
      | .rampDown t => if t ≤ s.beat + 1 then { x with out := .off } else x
      | _ => x
  else s

/-! ### Clocks -/

/-- CLK_STATUS (R535): a PLL in holdover or in a relock is not locked. -/
def clkStatus (s : State) : Word :=
  let r := s.rst
  let free := r.refHold || r.relockTo.isSome
  BitVec.ofNat 32 (16 * (if free then 0 else r.convLock.toNat) + 8 * (r.mgmtLock && !r.mgmtHold).toNat + 4 * (r.coreLock && !free).toNat +
    2 * r.refHold.toNat + r.refOk.toNat)

/-- A Trapeze link is in a state from 0x1 to 0x7 (R520, R531). -/
def linkActive (s : State) : Bool := s.links.any fun l => decide (l.st ≠ .off ∧ l.st ≠ .failed)

/-- REF_CLK is lost (R519). -/
def loseRef (s : State) : State :=
  let s := (s.modRst fun r => { r with refHold := true, refOk := false }).raiseFlag Reg.clkFlags 0
  let s := { s with trap := { s.trap with dbValid := false } }
  s.forBelow 4 fun k s => if (s.link k).st = .up then s.failLink k .freq else s

/-- The check of a CLK_CMD write (R520). -/
def relockCheck (s : State) (v : Word) : Err :=
  if bit v 0 then
    (Err.need (s.rst.refOk && ((List.range 12).all fun n => !s.ringRuns n) && ((List.range 8).all fun i => !s.carBusy i) &&
      !s.linkActive) .eState).orElse (Err.need s.rst.relockTo.isNone .eBusy)
  else .ok

/-- The effect of a CLK_CMD write (R520): READY goes to 0 on every RX channel. -/
def relockDo (s : State) (v : Word) : State :=
  if bit v 0 then
    (s.modRst fun r => { r with relockTo := some s.beat }).forBelow 12 fun n s => s.forBelow 2 fun c s =>
      s.modRx n c fun x => { x with ready := false, readyAt := if x.ready then some s.beat else x.readyAt }
  else s

/-- The relock ends with the present beat (R520): BEATCOUNT goes on at the next multiple of 6. -/
def endRelock (s : State) : State :=
  (s.modRst fun r => { r with relockTo := none, refHold := false, realign := true }).raiseFlag Reg.clkFlags 2

/-- The number of the beat that follows the present one (R375, R520). -/
def followingBeat (s : State) : Nat := if s.rst.realign then (s.beat / 6 + 1) * 6 else s.beat + 1

/-- Beats count: the core PLL has locked and the device is not in reset (R375, R512). -/
def beating (s : State) : Bool := s.rst.coreLock && !s.rst.inReset

/-! ### SYNC -/

/-- 6 x PERIOD_REF. -/
def syncPeriod (s : State) : Nat := 6 * s.regFld Reg.syncCtrl 31 8

/-- A pulse is on SYNC_OUT or about to be (R533). -/
def pulseBusy (s : State) : Bool := s.rst.pulseAt.any fun p => decide (s.beat < p + 12)

/-- SYNC_OUT is high (R533): low while OUT_MODE is 0. -/
def syncOut (s : State) : Bool := decide (s.regFld Reg.syncCtrl 1 0 ≠ 0) && s.rst.pulseAt.any fun p => decide (p ≤ s.beat ∧ s.beat < p + 12)

/-- A capture edge may start the present beat (R518, R530): beats count, a reference edge starts it, and SYNC_IN has been low at two
edges since it was high at the latest capture. -/
def mayCapture (s : State) : Bool := s.beating && decide (s.beat % 6 = 0) && s.rst.syncAt.all fun b => decide (b + 18 ≤ s.beat)

/-- A capture edge starts the present beat (R530, R531, R534): the difference of the domain beat and SYNC_DB is taken as a signed number
(DEDUCED, log entry 82). -/
def capture (s : State) : State :=
  let s := ((s.setReg64 Reg.syncLastLo s.beatCount).raiseFlag Reg.syncFlags 0).modRst fun r => { r with syncAt := some s.beat }
  let db := s.getReg64 Reg.syncDbLo
  let s := if s.rst.armed then
      let s := (s.setReg64 Reg.dbOffsetLo (db - s.beatCount)).modRst fun r => { r with armed := false }
      { s with trap := { s.trap with dbValid := true } }
    else s
  let d := (s.beatCount + s.getReg64 Reg.dbOffsetLo - db).toInt
  s.raiseIf (s.regBit Reg.syncCtrl 4 && s.trap.dbValid && decide (d.natAbs % s.syncPeriod ≠ 0)) Reg.syncFlags 1

/-- The check of a SYNC_CMD write (R531, R533). -/
def syncCmdCheck (s : State) (v : Word) : Err :=
  (Err.need (decide (popCount v 3 ≤ 1)) .eRange).orElse <|
    if bit v 0 then (Err.need (!s.linkActive) .eState).orElse (Err.need (!s.rst.armed) .eBusy)
    else if bit v 2 then Err.need s.rst.armed .eState
    else if bit v 1 then (Err.need (decide (s.regFld Reg.syncCtrl 1 0 = 1)) .eState).orElse (Err.need (!s.pulseBusy) .eBusy)
    else .ok

/-- The effect of a SYNC_CMD write (R531, R533). -/
def syncCmdDo (s : State) (v : Word) : State :=
  if bit v 0 then s.modRst fun r => { r with armed := true }
  else if bit v 2 then s.modRst fun r => { r with armed := false }
  else if bit v 1 then s.modRst fun r => { r with pulseAt := some ((s.beat + 11) / 6 * 6) }
  else s

/-- The check of a SYNC_CTRL write (R535). -/
def syncCtrlCheck (s : State) (v : Word) : Err :=
  (Err.need (decide (4 ≤ fld v 31 8 ∧ fld v 1 0 ≠ 3)) .eRange).orElse
    (Err.need (decide (s.regFld Reg.syncCtrl 1 0 ≠ 2 ∨ fld v 31 8 = s.regFld Reg.syncCtrl 31 8)) .eState)

/-- SYNC_DB may not be written while an alignment is armed (R535). -/
def syncDbCheck (s : State) : Err := Err.need (!s.rst.armed) .eBusy

/-- Whether a periodic pulse starts in this beat (R533). -/
def periodicPulse (s : State) : Bool :=
  decide (s.regFld Reg.syncCtrl 1 0 = 2 ∧ s.beat % s.syncPeriod = 0 ∧ s.rst.pulseAt ≠ some s.beat)

end State

/-- RESET_ASSERT: VDDIO, PWR_OK or RESET_N puts the device into reset (R512, R513). -/
def execResetAssert (c : ResetCause) (s : State) : Res := .next (s.assertReset c)

/-- RESET_END: 10 us after the last reset condition ceased (R512, R522), which the command says (log entry 4). Nothing happens outside
reset, or within 10 us of the beginning of a condition. -/
def execResetEnd (s : State) : Res := .next <| if s.resetMayEnd then s.endReset else s

/-- SOFTWARE_RESET_EXPIRY: 15,000 beats after RST_CMD (R514). The device is in reset for 10 us. Nothing happens before (log
entry 4). -/
def execSoftwareResetExpiry (s : State) : Res :=
  .next <| match s.rst.swAt with
    | some t => if t ≤ s.beat then (s.enterReset 3).modRst fun r => { r with clearAt := some 0 } else s
    | none => s

/-- STARTUP_PHASE_COMPLETE: the work of a phase is done (R522); `faults` lists the rows that a start-up march test found faulty
(R524). Nothing happens in a phase that ends otherwise (log entry 4). -/
def execStartupPhaseComplete (faults : List (Nat × Nat × Nat)) (s : State) : Res :=
  .next <| if s.workPhase then s.endPhase faults else s

/-- LINK_PHASE_TIMEOUT: 2,000 ms after phase 0x4 began (R523). Nothing happens before (log entry 4). -/
def execLinkPhaseTimeout (s : State) : Res :=
  .next <| if s.rst.phase = .link ∧ s.rst.linkAt + 3000000000 ≤ s.beat then s.lastPhase .ready else s

/-- REF_CLK_LOST (R519). -/
def execRefClkLost (s : State) : Res := .next s.loseRef

/-- REF_CLK_RETURN: REF_CLK has again been within limits for 1 ms (R520). -/
def execRefClkReturn (s : State) : Res := .next (s.modRst fun r => { r with refOk := true })

/-- RELOCK_DONE: the relock ends (R520). Nothing happens when none runs (log entry 4). -/
def execRelockDone (s : State) : Res :=
  .next <| match s.rst.relockTo with
    | some t => if t < s.beat then s.endRelock else s
    | none => s

/-- SYNC_CAPTURE: a capture edge starts the present beat (R530). Nothing happens in a beat that none can start (R518, log entry 4). -/
def execSyncCapture (s : State) : Res := .next <| if s.mayCapture then s.capture else s

/-- SYNC_PULSE_PERIODIC: a periodic pulse starts on SYNC_OUT (R533). Nothing happens unless it is due (log entry 4). -/
def execSyncPulsePeriodic (s : State) : Res :=
  .next <| if s.periodicPulse then s.modRst fun r => { r with pulseAt := some s.beat } else s

end Sys2Proof.Machine
end

