-- ==== Sys2Proof/Machine/Datapath.lean ====
section
/-! DEFINITION. The transmit datapath from the envelope reads to the DAC codes (R209, R211-R217, R222, R226, R227, R229, R236, R237), and
the voices' parameters at the pins. Samples are counted from sample 0 of pin beat 0, eight a beat. -/

namespace Sys2Proof.Machine

namespace State

/-! ### The voices' parameters -/

/-- A voice's accumulator for sample 0 of a pin beat, its frequency word, phase frame and amplitude in force there. -/
structure Nco where
  acc : Nat
  at_ : Nat
  f : Nat
  frame : Word
  amp : BitVec 16
  deriving DecidableEq, Repr

/-- A change acts at its pin beat (R211, R212, R217): a new frequency word takes the step into sample 0 of it. -/
def ncoStep (x : Nco) (o : PinOp) : Nco :=
  match o.kind with
  | .frq g =>
    if x.at_ < o.at_ then { x with acc := (x.acc + x.f * (8 * (o.at_ - x.at_) - 1) + g.toNat) % 2 ^ 48, at_ := o.at_, f := g.toNat }
    else { x with f := g.toNat }
  | .phs d => { x with frame := x.frame + d }
  | .phset p => { x with frame := p }
  | .amp a => { x with amp := a }
  | .zero => { x with acc := 0, at_ := o.at_ }

/-- What the registers of a voice hold: the values in force at the pins (R249). -/
def ncoReg (s : State) (n v : Nat) : Nco :=
  let x := s.voice n v
  { acc := x.acc.toNat, at_ := x.accAt, f := (s.getReg64 (Reg.voiceFreqLo n v)).toNat % 2 ^ 48,
    frame := s.getReg (Reg.voicePhase n v), amp := BitVec.ofNat 16 (s.regFld (Reg.voiceAmp n v) 15 0) }

/-- The parameters of a voice at pin beat `P`, from its registers and the changes on their way. -/
def ncoAt (s : State) (n v P : Nat) : Nco :=
  ((s.voice n v).pins.filter fun o => decide (o.at_ ≤ P)).foldl ncoStep (s.ncoReg n v)

/-- The accumulator for sample 0 of pin beat `P` (R211): before the pin beat at which a start makes it 0, what leads there. -/
def voiceAcc (s : State) (n v P : Nat) : Nat :=
  let x := s.ncoAt n v P
  let later := (s.voice n v).pins.filter fun o => decide (P < o.at_)
  match later.find? fun o => decide (o.kind = .zero) with
  | some z => (2 ^ 48 - advance 8 x.f later P z.at_ % 2 ^ 48) % 2 ^ 48
  | none => (x.acc + 8 * x.f * (P - x.at_)) % 2 ^ 48

/-- Writes a voice's parameters into its registers. -/
def setNco (s : State) (n v : Nat) (x : Nco) : State :=
  let s := s.modVoice n v fun y => { y with acc := BitVec.ofNat 48 x.acc, accAt := x.at_ }
  ((s.setReg64 (Reg.voiceFreqLo n v) (BitVec.ofNat 64 x.f)).setReg (Reg.voicePhase n v) x.frame).setReg (Reg.voiceAmp n v)
    (x.amp.zeroExtend 32)

/-- The changes whose pin beat has come act on a voice (R210). -/
def voicePins (s : State) (n v : Nat) : State :=
  if (s.voice n v).pins.any fun o => decide (o.at_ ≤ s.beat) then
    (s.setNco n v (s.ncoAt n v s.beat)).modVoice n v fun x => { x with pins := x.pins.filter fun o => decide (s.beat < o.at_) }
  else s

/-- A host write of FREQ: the new word takes the steps from the present pin beat on (R213, R249). -/
def hostFreq (s : State) (n v : Nat) (f : BitVec 64) : State :=
  s.setNco n v (ncoStep (s.ncoReg n v) { at_ := s.beat, kind := .frq (f.truncate 48) })

/-- A host write of a lane's FREQ (R276, R304). -/
def hostLaneFreq (s : State) (n l : Nat) (f : BitVec 64) : State :=
  (s.lanePins n l s.beat).lanePin n l { at_ := s.beat, kind := .frq (f.truncate 48) }

/-- ACC_HI of a voice (R249). -/
def voiceAccHi (s : State) (n v : Nat) : Word := BitVec.ofNat 32 (s.voiceAcc n v s.beat / 2 ^ 32)

/-- VOICE[n][v].STATE (R249): in its boundary pin beat a segment with a sample offset still plays, unless another starts there (R223). After
a halt no repetition is still to play (R169, R225). -/
def voiceState (s : State) (n v : Nat) : Word :=
  let x := s.voice n v
  let g := (x.segs.find? fun g => g.covers s.beat).or (x.segs.find? fun g => g.bnd == s.beat && decide (8 * g.bnd < g.endAt))
  BitVec.ofNat 32 (2 ^ 31 * g.isSome.toNat + 2 ^ 30 * x.jump.isSome.toNat +
    match g with
    | some g => 2 ^ 29 * g.stream.isSome.toNat + 2 ^ 16 * g.desc + (if s.haltedFrom n g.bnd then 0 else g.repLeft)
    | none => 0)

/-! ### Envelopes -/

/-- The segment that sample `k` belongs to (R223). -/
def segAt (s : State) (n v k : Nat) : Option Seg :=
  (s.voice n v).segs.find? fun g => decide (8 * g.start + g.off ≤ k ∧ k < g.endAt)

/-- The address of pair `m` of a segment (R71, R152, R218). -/
def pairAddr (s : State) (n : Nat) (g : Seg) (m : Nat) : Nat :=
  match g.stream with
  | some st => s.unitAddr n st (g.first + BitVec.ofNat 32 (m / 1024)) + 4 * (m % 1024)
  | none => descPair n g.w0 m

/-- Pair `m` of a segment: as read already, or as a CASE has fetched it, or read now (R148, R221). A read that meets a borrowed window makes
what the voice has still to play come late, by at most the 2 beats of R22 and R209, since every read is asked for in its own beat (log
entry 42). -/
def readPair (s : State) (n v : Nat) (g : Seg) (m : Nat) : Word × State :=
  let c := (s.voice n v).pairs
  let l := if c.1 = g.start then c.2 else g.got
  match l.find? fun e => e.1 = m with
  | some e => (e.2, s)
  | none =>
    let a := s.pairAddr n g m
    let w := s.loadWord a
    let (d, s) := s.touch a
    (w, (s.eccRead a 4).modVoice n v fun x => { x with pairs := (g.start, ((m, w) :: l).take 16), lag := max x.lag d })

/-- The interpolated envelope of sample `k` (R204, R222): 0 where nothing plays. -/
def envSample (s : State) (n v k : Nat) : (Int × Int) × State :=
  match s.segAt n v k with
  | none => ((0, 0), s)
  | some g =>
    let j := k - (8 * g.start + g.off)
    if g.samples ≤ j ∨ (g.fillAt.any fun p => decide (p ≤ k / 8)) ∨ (g.silentAt.any fun p => decide (p ≤ k / 8)) then ((0, 0), s)
    else if g.stream = none ∧ bit g.w1 12 then ((sfld g.w3 15 0, sfld g.w3 31 16), s)
    else
      let f := descFactor g.w1
      let m := j / f
      let r : Int := (j % f : Nat)
      let (a, s) := s.readPair n v g m
      if r = 0 then ((sfld a 15 0, sfld a 31 16), s)
      else
        let (b, s) := s.readPair n v g (min (m + 1) (g.samples / f - 1))
        let mid := fun x y : Int => Int.fdiv (2 * (x * f + (y - x) * r) + f) (2 * f)
        ((mid (sfld a 15 0) (sfld b 15 0), mid (sfld a 31 16) (sfld b 31 16)), s)

/-- The pin beat from which a ramped STOP keeps what was due in pin beat `P` silent, should it come late (R153). -/
def silentFrom (s : State) (n v P : Nat) : Option Nat :=
  ((s.voice n v).segs.find? fun g => g.ramped && g.covers P).map (·.bnd)

/-- The envelope read stage of a voice for pin beat `P`, 18 beats before it (R209). A pin beat in which nothing is to play takes up a beat
by which the envelope comes late. -/
def envBeat (s : State) (n v P : Nat) : State :=
  if (s.voice n v).segs.isEmpty then s
  else
    let (es, s) := (List.range 8).foldl (fun (p : List (Int × Int) × State) i =>
      let (e, s) := p.2.envSample n v (8 * P + i)
      (p.1 ++ [e], s)) ([], s)
    let lag := (s.voice n v).lag
    if 0 < lag ∧ (List.range 8).all (fun i => (s.segAt n v (8 * P + i)).isNone) then
      s.modVoice n v fun x => { x with lag := lag - 1 }
    else if (s.silentFrom n v P).any fun q => decide (q ≤ P + lag) then s
    else s.modVoice n v fun x => { x with env := ((P + lag, P, es) :: x.env).take 20 }

/-- The envelope fetches that a PLAY with PF = 1 has started read the granules of their first beat (R151). -/
def fetchBeat (s : State) (n v : Nat) : State :=
  if (s.voice n v).pre.isEmpty then s
  else
    let s := ((s.voice n v).pre.filter fun e => decide (e.1 ≤ s.beat)).foldl (fun (s : State) (e : Nat × Seg) =>
      (List.range (firstPairs e.2.w1)).foldl (fun s m => s.rtRead (s.pairAddr n e.2 m) 4) s) s
    s.modVoice n v fun x => { x with pre := x.pre.filter fun e => decide (s.beat < e.1) }

/-! ### Voice products and their sum -/

/-- A value under sample `j` of the raised-cosine window (R16), rounded half up. -/
def windowed (y : Int) (j : Nat) : Int := if j < 192 then roundShift (y * rampWeight j) 16 else 0

/-- The eight samples of a voice for pin beat `P`, at its amplitude stage 10 beats before it (R16, R153, R215, R216). -/
def voiceSamples (s : State) (n v P : Nat) : List Int :=
  let x := s.voice n v
  match x.env.find? fun e => e.1 = P with
  | none => List.replicate 8 0
  | some (_, _, es) =>
    let o := s.ncoAt n v P
    let acc := s.voiceAcc n v P
    let flux := s.regFld (Reg.txCtrl n (v / 8)) 5 4 = 2
    es.zipIdx.map fun p =>
      let (e, i) := p
      let ph := BitVec.ofNat 20 ((acc + i * o.f + o.frame.toNat * 2 ^ 16) % 2 ^ 48 / 2 ^ 28)
      let y := if flux then roundShift (o.amp.toInt * e.1) 14
        else roundShift (o.amp.toInt * (e.1 * voiceCos ph - e.2 * voiceSin ph)) 30
      let y := x.stops.foldl (fun y q => if q ≤ P ∧ P < q + 24 then windowed y (8 * (P - q) + i) else y) y
      match (s.seq n).abortAt with
      | some b => if b + 10 < P then windowed y (8 * (P - b - 11) + i) else y
      | none => y

/-- The voice sums of a channel for pin beat `P` (R226). -/
def sumBeat (s : State) (n c P : Nat) : State :=
  let ss := (List.range 8).map fun v => s.voiceSamples n (8 * c + v) P
  s.modTx n c fun x => { x with ys := ((P, (List.range 8).map fun i => (ss.map fun l => l.getD i 0).sum) :: x.ys).take 4 }

/-- What the summation stage of a channel finds for pin beat `P` before it saturates (R226). -/
def shifted (s : State) (n c P : Nat) : List Int :=
  ((((s.tx n c).ys.find? fun e => e.1 = P).map (·.2)).getD (List.replicate 8 0)).map fun y =>
    roundShift y (s.regFld (Reg.txCtrl n c) 9 8)

/-- The sums of a channel for pin beat `P`, saturated (R226). -/
def putSums (s : State) (n c P : Nat) : State :=
  let zs := s.shifted n c P
  s.modTx n c fun x => { x with xs := ((P, zs.map (sat 17)) :: x.xs.filter fun e => decide (e.1 ≠ P)).take 16 }

/-- The summation stage of a channel for pin beat `P`, 9 beats before it (R226). -/
def shiftBeat (s : State) (n c P : Nat) : State :=
  (s.putSums n c P).raiseIf ((s.shifted n c P).any fun z => !fits 17 z) (Reg.txFlags n c) 0

/-! ### Predistortion, fractional delay and rounding -/

/-- A channel's fades as they will stand in pin beat `q`, from how they stand before it (R229-R231). -/
def fadeStep (len q : Nat) (x : TxCh) : TxCh :=
  let start := fun (x : TxCh) (P : Nat) (b : Bool) =>
    if len = 0 then { x with act := b, run := none } else { x with run := some { start := P, len := len, to_ := b } }
  let x := match x.run with
    | some r =>
      if r.start + r.len ≤ q then
        let y := { x with act := r.to_, run := none, past := some r }
        match x.pend with
        | some b => start { y with pend := none } (r.start + r.len) b
        | none => y
      else x
    | none => x
  let reach := fun (x : TxCh) (b : Bool) =>
    if b = x.pend.getD ((x.run.map (·.to_)).getD x.act) then x
    else if x.run.isNone then start x q b
    else if x.pend.isNone then { x with pend := some b }
    else x
  let x := (x.reqs.filter fun r => r.1 == q).foldl (fun x r => reach x r.2) x
  match x.host, x.hostAt with
  | some b, some t => if t = q then { reach x b with host := none, hostAt := none } else x
  | _, _ => x

/-- A channel's fades as they stand in pin beat `q`, one near the present: as they will stand later, or stood when the fade that ended
last still ran (R229-R231). -/
def fadeView (s : State) (n c q : Nat) : TxCh :=
  let x := (List.range (q - s.beat)).foldl (fun x i => fadeStep (s.fadeLen n c) (s.beat + 1 + i) x) (s.tx n c)
  match x.past with
  | some r => if q < r.start + r.len then { x with run := some r } else x
  | none => x

/-- A tap of a bank (R227). -/
def coef (s : State) (n c : Nat) (b : Bool) (t : Nat) : Int :=
  sfld (s.getReg (if b then Reg.txCoefB n c t else Reg.txCoefA n c t)) 17 0

/-- Sample x of a channel, 0 where the pipeline holds none. -/
def txX (s : State) (n c k : Nat) : Int := (((s.tx n c).xs.find? fun e => e.1 = k / 8).map fun e => e.2.getD (k % 8) 0).getD 0

/-- The FIR output of a bank for sample `k`, with 32 fractional bits (R227). -/
def fir (s : State) (n c : Nat) (b : Bool) (k : Nat) : Int :=
  ((List.range 32).map fun t => s.coef n c b t * (if t ≤ k + 8 then s.txX n c (k + 8 - t) else 0)).sum

/-- The predistorted sample `k`, with 32 fractional bits; in a fade rounded half up to 16 (R229). -/
def predistort (s : State) (n c k : Nat) : Int :=
  let x := s.fadeView n c (k / 8)
  match x.run with
  | some r =>
    let j := k - 8 * r.start
    if 8 * r.start ≤ k ∧ j < 8 * r.len then
      let d : Int := (8 * r.len : Nat)
      let w : Int := (j + 1 : Nat)
      let z := s.fir n c (!r.to_) k * (d - w) + s.fir n c r.to_ k * w
      Int.fdiv (2 * z + d * 65536) (2 * d * 65536) * 65536
    else if 8 * r.start ≤ k then s.fir n c r.to_ k
    else s.fir n c (!r.to_) k
  | none => s.fir n c x.act k

/-- Coefficients of the fractional delay for a nonzero FRAC, with 16 fractional bits: 16 free ones of which the eighth makes the gain 1
at DC (R236; log entry 9). -/
def fracTap (frac : BitVec 6) (t : Nat) : Int :=
  if t = 7 then 65536 - ((List.range 16).map fun i => if i = 7 then 0 else Config.fracTap frac i).sum else Config.fracTap frac t

/-- The value of sample `k` after the fractional delay, times 32,768 and rounded half up (R236, R237). -/
def rounded (s : State) (n c k : Nat) : Int :=
  let frac := s.regFld (Reg.txDelay n c) 5 0
  if frac = 0 then roundShift (s.predistort n c k) 17
  else
    roundShift (((List.range 16).map fun t =>
      fracTap (BitVec.ofNat 6 frac) t * (if t ≤ k + 7 then s.predistort n c (k + 7 - t) else 0)).sum) 33

/-- The eight values that the rounding stage finds for pin beat `P` before it saturates (R237). -/
def roundedBeat (s : State) (n c P : Nat) : List Int :=
  if (s.tx n c).xs.all fun e => e.2.all (· == 0) then List.replicate 8 0
  else (List.range 8).map fun i => s.rounded n c (8 * P + i)

/-- The codes of a channel for pin beat `P`, saturated (R237). -/
def putCodes (s : State) (n c P : Nat) (zs : List Int) : State :=
  s.modTx n c fun x =>
    let old := x.codes.filter fun e => decide (P < e.1 + 64 ∧ e.1 ≠ P)
    { x with codes := if zs.all (· == 0) then old else (P, zs.map (sat 16)) :: old }

/-- The rounding stage of a channel for pin beat `P`, 3 beats before it (R237). -/
def codeBeat (s : State) (n c P : Nat) : State :=
  let zs := s.roundedBeat n c P
  (s.putCodes n c P zs).raiseIf (zs.any fun z => !fits 16 z) (Reg.txFlags n c) 1

/-- The codes of the present pin beat follow the channel's fades as they stand: one that a request made ahead was to start may have been
replaced or void since, or FADE_LEN written (R229, R230, R233; log entry 40). -/
def codePin (s : State) : State :=
  s.forBelow 12 fun n s => s.forBelow 4 fun c s =>
    if s.beat ≤ (s.tx n c).stir then s.putCodes n c s.beat (s.roundedBeat n c s.beat) else s

/-- After a halt took back choices that start at pin beat `P`, a voice reads its envelope again up to where the read stage has
come (R225; log entry 40). -/
def redoVoice (s : State) (n v P : Nat) : State :=
  let s := s.modVoice n v fun x => { x with env := x.env.filter (fun e => decide (e.2.1 < P)), redo := none }
  (List.range (s.beat + 18 - P)).foldl (fun s i => s.envBeat n v (P + i)) s

/-- What stands in a channel's later stages for pin beats from `P` on follows the voices again (R225; log entry 40). -/
def redoTx (s : State) (n c P : Nat) : State :=
  let s := s.forBelow 10 fun i s => if P ≤ s.beat + i then (s.sumBeat n c (s.beat + i)).putSums n c (s.beat + i) else s
  s.forBelow 3 fun i s => if P ≤ s.beat + i + 8 then s.putCodes n c (s.beat + i) (s.roundedBeat n c (s.beat + i)) else s

/-- The pipelines of a ring whose voices had choices taken back in the present beat. -/
def redoRing (s : State) (n : Nat) : State :=
  match ((List.range 32).filterMap fun v => (s.voice n v).redo).min? with
  | none => s
  | some P =>
    let s := s.forBelow 32 fun v s => match (s.voice n v).redo with
      | some q => s.redoVoice n v q
      | none => s
    s.forBelow 4 fun c s => s.redoTx n c P

/-- What the transmit pipelines do in the present beat. -/
def txBeat (s : State) : State :=
  s.forBelow 12 fun n s =>
    let s := s.redoRing n
    let s := s.forBelow 32 fun v s => (s.fetchBeat n v).envBeat n v (s.beat + 18)
    s.forBelow 4 fun c s => ((s.sumBeat n c (s.beat + 10)).shiftBeat n c (s.beat + 9)).codeBeat n c (s.beat + 3)

/-- A request that waited for the present pin beat takes effect in it (R201, R249). -/
def jumpTaken (s : State) (n v : Nat) : State :=
  if (s.voice n v).jumpAt.any fun B => decide (B ≤ s.beat) then s.modVoice n v fun x => { x with jump := none, jumpAt := none } else s

/-- The start of a beat at the voices' pins. -/
def pinBeat (s : State) : State := s.forBelow 12 fun n s => s.forBelow 32 fun v s => (s.voicePins n v).jumpTaken n v

end State

end Sys2Proof.Machine
end

