-- ==== Sys2Proof/Machine/Ptp.lean ====
section
/-! DEFINITION. The PTP instance (R384-R389, R404): its messages, their timestamps, the choice of the best master, and the servo. What
the spec names of IEEE 1588 without saying it is that standard's (PRESUMED, log entry 20). Times are integers in units of 2^-16 ns. -/

namespace Sys2Proof.Machine

/-! ### Times -/

/-- A network time in units of 2^-16 ns, truncated towards minus infinity (R376). -/
def stampUnits (x : Int) : Int := Int.fdiv x (2 ^ 24)

/-- Picoseconds in units of 2^-16 ns, rounded towards minus infinity. -/
def psUnits (v : Word) : Int := Int.fdiv (v.toInt * 65536) 1000

/-- A time as the 80-bit timestamp of a message: 48 bits of seconds and 32 of nanoseconds. -/
def wireTime (x : Int) : BitVec 80 :=
  let ns := Int.fdiv x 65536
  BitVec.ofInt 48 (Int.fdiv ns 1000000000) ++ BitVec.ofNat 32 (ns % 1000000000).toNat

/-- The time that an 80-bit timestamp tells. -/
def wireUnits (o : BitVec 80) : Int := ((o.toNat / 2 ^ 32) * 1000000000 + o.toNat % 2 ^ 32 : Nat) * 65536

/-- The part of a time below a nanosecond, as a correctionField counts it. -/
def subUnits (x : Int) : BitVec 64 := BitVec.ofInt 64 (x % 65536)

/-- Beats of 2^x seconds. -/
def logBeats (x : BitVec 8) : Nat := 1500000000 * 2 ^ (x.toInt + 7).toNat / 128

namespace State

/-- Changes the time block. -/
def modTime (s : State) (f : Timing → Timing) : State := { s with time := f s.time }

/-- PTP_CTRL.EN. -/
def ptpEn (s : State) : Bool := s.regBit Reg.ptpCtrl 0
/-- PTP_CTRL.P2P. -/
def ptpP2p (s : State) : Bool := s.regBit Reg.ptpCtrl 3
/-- PTP_CTRL.ROLE: 0 slave-only, 1 BMCA, 2 master-only. -/
def ptpRole (s : State) : Nat := s.regFld Reg.ptpCtrl 2 1

/-- A field of PTP_INTERVAL, a logarithm of seconds (R404). -/
def ptpLog (s : State) (hi lo : Nat) : BitVec 8 := BitVec.ofNat 8 (s.regFld Reg.ptpInterval hi lo)

/-- The announce interval in beats. -/
def announceBeats (s : State) : Nat := logBeats (s.ptpLog 15 8)

/-- The announce receipt timeout in beats: announceReceiptTimeout announce intervals (R388). -/
def announceTimeout (s : State) : Nat := s.regFld Reg.ptpInterval 31 24 * s.announceBeats

/-- The ingress timestamp of a message whose timestamp point passed the balls `ago` bins before the present beat (R377, R382, R385). -/
def ingressStamp (s : State) (p ago : Nat) : BitVec 48 :=
  BitVec.ofInt 48 (stampUnits (s.netTimeBin (64 * s.beat - ago)) - psUnits (s.getReg (Reg.ptpPortIngressPs p)))

/-- The egress timestamp of a frame that leaves port `p` in the present beat (R377, R382, R385). -/
def egressStamp (s : State) (p : Nat) : BitVec 48 :=
  BitVec.ofInt 48 (stampUnits (s.netTimeSub s.beat (Config.ptpEgress p s.beat)) + psUnits (s.getReg (Reg.ptpPortEgressPs p)))

/-- The instant that a timestamp tells: the one nearest to the present network time (R383). -/
def extend (s : State) (t : BitVec 48) : Int :=
  let now := stampUnits (s.netTime s.beat)
  now + (t - BitVec.ofInt 48 now).toInt

/-! ### Messages -/

/-- clockIdentity (R384): the EUI-64 of the MAC address of port 0. -/
def ptpClock (s : State) : BitVec 64 := BitVec.ofNat 64 (s.eui64 0)

/-- The portIdentity of the instance (R384): portNumber 1. -/
def ptpIdentity (s : State) : BitVec 80 := s.ptpClock ++ (1 : BitVec 16)

/-- Whether a message is one of the peer delay mechanism. -/
def ptpPeer (typ : BitVec 4) : Bool := decide (typ = 2 ∨ typ = 3 ∨ typ = 10)

/-- The multicast address of a message (R384; IEEE 1588): over Layer 2 the MAC address, over UDP the IP address and its MAC address. -/
def ptpDest (s : State) (typ : BitVec 4) : PushAddr :=
  let peer := ptpPeer typ
  match s.regFld Reg.ptpCtrl 6 5 with
  | 0 => { mac := if peer then 0x0180C200000E else 0x011B19000000, raw := true }
  | 1 => { mac := if peer then 0x01005E00006B else 0x01005E000181, ip := if peer then 0xE000006B else 0xE0000181 }
  | _ =>
    let low : Nat := if peer then 0x6B else 0x181
    let scope : Nat := if peer then 2 else Config.ptpScope.toNat
    { mac := BitVec.ofNat 48 (0x333300000000 + low), ip := BitVec.ofNat 128 ((0xFF00 + scope) * 2 ^ 112 + low) }

/-- Length of a message by its messageType. -/
def ptpLen (typ : BitVec 4) : Nat :=
  if typ = 11 then 64 else if typ = 9 ∨ ptpPeer typ then 54 else 44

/-- The bytes of a message (IEEE 1588): the header of 34 bytes, and its body. -/
def ptpBytes (s : State) (typ : BitVec 4) (two : Bool) (id : BitVec 16) (corr : BitVec 64) (body : List Byte) : List Byte :=
  let flags : Nat := (if two then 0x0200 else 0) + (if typ = 11 then 8 else 0)
  let control : Byte := match typ.toNat with | 0 => 0 | 1 => 1 | 8 => 2 | 9 => 3 | _ => 5
  let log : Byte := match typ.toNat with | 0 | 8 => s.ptpLog 7 0 | 11 => s.ptpLog 15 8 | 9 => s.ptpLog 23 16 | _ => 0x7F
  [typ.zeroExtend 8, 0x12] ++ beBytes 2 (34 + body.length) ++ [BitVec.ofNat 8 (s.regFld Reg.ptpCtrl 23 16), 0] ++ beBytes 2 flags ++
    beBytes 8 corr.toNat ++ [0, 0, 0, 0] ++ beBytes 10 s.ptpIdentity.toNat ++ beBytes 2 id.toNat ++ [control, log] ++ body

/-- Hands a message to a port's egress (R84, R384): event messages go to UDP port 319, general ones to 320, and a one-step message over
UDP has 2 bytes appended (R387). -/
def ptpOut (s : State) (p : Nat) (typ : BitVec 4) (two : Bool) (id : BitVec 16) (corr : BitVec 64) (body : List Byte) : State :=
  let bs := s.ptpBytes typ two id corr body
  let l2 := decide (s.regFld Reg.ptpCtrl 6 5 = 0)
  let pad : List Byte := if !l2 && !two && (typ = 0 || typ = 3) then [0, 0] else []
  s.sendFrame p {
    cls := .ptp, flags := typ.zeroExtend 8 + (if two then 16 else 0), seq := id.zeroExtend 32, dest := some (s.ptpDest typ)
    carry := if l2 then .ether 0x88F7 bs else .udp (if typ < 4 then 319 else 320) (bs ++ pad) }

/-- PTP_CTRL.TWO_STEP. -/
def ptpTwo (s : State) : Bool := s.regBit Reg.ptpCtrl 4

/-- What the device says of itself as a grandmaster (R404): CLOCK_CLASS is 255 while it is slave-only. -/
def ownAnnounce (s : State) : PtpAnnounce :=
  let v := s.getReg Reg.ptpPrio
  { priority1 := BitVec.ofNat 8 (fld v 7 0)
    clockClass := if s.ptpRole = 0 then 255 else BitVec.ofNat 8 (fld v 23 16)
    accuracy := Config.ptpAccuracy, variance := Config.ptpVariance
    priority2 := BitVec.ofNat 8 (fld v 15 8)
    identity := s.ptpClock }

/-- The body of an Announce of the device as grandmaster. -/
def announceBody (s : State) : List Byte :=
  let a := s.ownAnnounce
  beBytes 10 0 ++ beBytes 2 Config.ptpUtcOffset.toNat ++ [0, a.priority1, a.clockClass, a.accuracy] ++ beBytes 2 a.variance.toNat ++
    [a.priority2] ++ beBytes 8 a.identity.toNat ++ [0, 0] ++ [Config.ptpTimeSource]

/-! ### Sent messages -/

/-- The transmit-timestamp queue of a port. -/
def tsq (s : State) (p : Nat) : List Tsq := if p = 0 then s.time.tsq0 else s.time.tsq1
/-- Sets the transmit-timestamp queue of a port. -/
def setTsq (s : State) (p : Nat) (q : List Tsq) : State :=
  s.modTime fun t => if p = 0 then { t with tsq0 := q } else { t with tsq1 := q }

/-- Changes the message that a frame carries. Over UDP the last 2 bytes then keep the sum of the whole, and with it the checksum (R387). -/
def inFlight (c : Carried) (g : List Byte → List Byte) : Carried :=
  match c with
  | .ether t d => .ether t (g d)
  | .udp q d =>
    let e := (g d).take (d.length - 2)
    .udp q (e ++ beBytes 2 (addBack (65535 - wordSum e % 65535 + wordSum d)))
  | c => c

/-- Bytes of a message replaced from position `k` on. -/
def putAt (k : Nat) (x d : List Byte) : List Byte := d.take k ++ x ++ d.drop (k + x.length)

/-- The turnaround of a one-step Pdelay_Resp with an egress timestamp, and the request's correctionField (R387). -/
def turnaround (s : State) (id : BitVec 16) (ts : BitVec 48) : BitVec 64 :=
  match s.time.owed.find? fun o => o.id == id with
  | some o => o.correction + (ts - o.ts).signExtend 64
  | none => 0

/-- A request is answered in full. -/
def pdelayDone (s : State) (id : BitVec 16) : State :=
  s.modTime fun t => { t with owed := t.owed.filter fun o => o.id != id }

/-- A frame leaves a port (R385-R387). A two-step Sync or Pdelay_Resp, a Delay_Req and a Pdelay_Req leave an entry in the timestamp queue,
which is dropped when it finds 16. A one-step Sync takes its egress time into originTimestamp, a one-step Pdelay_Resp the
turnaround into correctionField. -/
def ptpLeaves (s : State) (p : Nat) (f : OutFrame) : State × OutFrame :=
  let typ : BitVec 4 := f.flags.truncate 4
  let two := bit f.flags 4
  let id : BitVec 16 := f.seq.truncate 16
  if f.cls ≠ .ptp ∨ 4 ≤ typ.toNat then (s, f)
  else
    let ts := s.egressStamp p
    if typ = 1 ∨ typ = 2 ∨ two then
      (if 16 ≤ (s.tsq p).length then
        ((s.satReg (Reg.ptpPortTsqDrop p)).raiseFlag (Reg.ptpPortTsqFlags p) 0).raiseEvent 0x0201 0x01 (BitVec.ofNat 32 p)
      else s.setTsq p (s.tsq p ++ [{ id := id, typ := typ, ts := ts }]), f)
    else if typ = 0 then (s, { f with carry := inFlight f.carry (putAt 34 (beBytes 10 (wireTime (s.extend ts)).toNat)) })
    else (s.pdelayDone id, { f with carry := inFlight f.carry (putAt 8 (beBytes 8 (s.turnaround id ts).toNat)) })

/-- Fyndofen takes the oldest entry of a port's timestamp queue (R386): the Follow_Up of a Sync or Pdelay_Resp is sent, the
egress time of a request is kept. -/
def tsqTake (s : State) (p : Nat) : State :=
  match s.tsq p with
  | [] => s
  | e :: t =>
    let s := s.setTsq p t
    let x := s.extend e.ts
    if ¬ s.ptpEn then s
    else if e.typ = 0 then s.ptpOut p 8 false e.id (subUnits x) (beBytes 10 (wireTime x).toNat)
    else if e.typ = 3 then
      match s.time.owed.find? fun o => o.id == e.id with
      | some o => (s.ptpOut p 10 false e.id (o.correction + subUnits x) (beBytes 10 (wireTime x).toNat ++ beBytes 10 o.req.toNat)).pdelayDone e.id
      | none => s
    else if e.typ = 1 then s.modTime fun t => { t with reqT := some (e.id, e.ts) }
    else s.modTime fun t => { t with preqT := some (e.id, e.ts) }

/-- A gap between two messages with a mean of `d` beats, `w` hundredths to either side. -/
def ptpGapBeats (k d w : Nat) : Nat := d * (100 - w) / 100 + Config.ptpGap k % (2 * d * w / 100 + 1)

/-- The instance sends a message of a kind now at the latest: Sync and Announce as master, Delay_Req as slave, Pdelay_Req with peer-to-peer
delay (R384, R404). -/
def ptpSendDue (s : State) (p : Nat) (typ : BitVec 4) : Bool :=
  let t := s.time
  s.ptpEn && decide (p = t.actPort) &&
    match typ.toNat with
    | 0 => decide (t.portState = 6 ∧ t.nextSync ≤ s.beat)
    | 11 => decide (t.portState = 6 ∧ t.nextAnnounce ≤ s.beat)
    | 1 => !s.ptpP2p && decide ((t.portState = 8 ∨ t.portState = 9) ∧ t.nextReq ≤ s.beat)
    | 2 => s.ptpP2p && decide (t.nextReq ≤ s.beat)
    | _ => false

/-- The instance sends a message of a kind, and the next of that kind follows after its interval. -/
def ptpSend (s : State) (p : Nat) (typ : BitVec 4) : State :=
  let t := s.time
  let (k, s) := s.draw
  match typ.toNat with
  | 0 => (s.ptpOut p 0 s.ptpTwo t.syncId 0 (beBytes 10 0)).modTime fun t =>
      { t with syncId := t.syncId + 1, nextSync := s.beat + ptpGapBeats k (logBeats (s.ptpLog 7 0)) 30 }
  | 11 => (s.ptpOut p 11 false t.announceId 0 s.announceBody).modTime fun t =>
      { t with announceId := t.announceId + 1, nextAnnounce := s.beat + ptpGapBeats k s.announceBeats 30 }
  | 1 => (s.ptpOut p 1 false t.reqId 0 (beBytes 10 0)).modTime fun t =>
      { t with reqId := t.reqId + 1, nextReq := s.beat + ptpGapBeats k (logBeats (s.ptpLog 23 16)) 100 }
  | 2 => (s.ptpOut p 2 false t.reqId 0 (beBytes 20 0)).modTime fun t =>
      { t with reqId := t.reqId + 1, nextReq := s.beat + ptpGapBeats k (logBeats (s.ptpLog 23 16)) 30 }
  | _ => s

/-! ### The servo -/

/-- Stages and arms an adjustment of the servo (R380, R388): nothing when one is pending. -/
def servoAdjust (s : State) (inc : Nat) (step : Int) (B : Nat) : State :=
  if s.adjPending then s
  else
    let x := step * 2 ^ 24
    let s := (s.setReg64 Reg.adjIncLo (BitVec.ofNat 64 inc)).setReg64 Reg.adjOffNsLo (intNs x)
    let s := (s.setReg Reg.adjOffSub ((subNs x).zeroExtend 32)).setReg64 Reg.adjBeatLo (BitVec.ofNat 64 B)
    s.setReg Reg.adjCtrl 1

/-- INCREMENT within 200 ppm of nominal (R388). -/
def clampInc (x : Nat) : Nat := max 732861150301 (min x 733154353401)

/-- A completed measurement (R388): the registers, and the servo when it steers. With it the port of a selected master is SLAVE. -/
def ptpMeasure (s : State) (off : Int) : State :=
  let s := ((s.setReg64 Reg.ptpOffsetLo (BitVec.ofInt 64 off)).setReg64 Reg.ptpPathLo (BitVec.ofInt 64 s.time.path)).addReg
    Reg.ptpMeas 1
  let s := s.modTime fun t => if t.portState = 8 then { t with portState := 9 } else t
  if s.regBit Reg.ptpCtrl 10 then s
  else if 65536000 < off.natAbs then
    if s.adjPending then s
    else
      ((s.servoAdjust s.increment (-off) (s.beat + 3000)).modTime fun t => { t with servo := .step }).raiseFlag Reg.timeFlags 2
  else if s.time.servo = .free ∨ s.time.servo = .holdover then s.modTime fun t => { t with servo := .locked }
  else if s.time.servo = .locked then
    let (k, s) := s.draw
    s.servoAdjust (clampInc (Config.servoInc k)) 0 (s.beat + 1500 + Config.servoLead k % 65536)
  else s

/-- The master's timestamps of a Sync are complete: `t1` its egress time with corrections, `t2` its ingress time. -/
def ptpSync (s : State) (t1 t2 : Int) : State :=
  let s := s.modTime fun t => { t with ms := t2 - t1, sync := none }
  s.ptpMeasure (t2 - t1 - s.time.path)

/-! ### The best master clock algorithm (IEEE 1588) -/

/-- The attributes of a grandmaster in the order in which they are compared. -/
def annKey (a : PtpAnnounce) : Nat :=
  (a.priority1 ++ a.clockClass ++ a.accuracy ++ a.variance ++ a.priority2 ++ a.identity : BitVec 112).toNat

/-- Data set comparison: whether what `x` announces is better than what `y` announces, by its grandmaster, else by the steps to it and the
identity of its sender. -/
def annBetter (x y : BitVec 80 × PtpAnnounce) : Bool :=
  let a := x.2; let b := y.2
  if a.identity = b.identity then decide (a.steps < b.steps ∨ (a.steps = b.steps ∧ x.1 < y.1)) else decide (annKey a < annKey b)

/-- A master qualifies with two Announce messages in four announce intervals, the selected one with any. -/
def qualified (s : State) (f : Foreign) : Bool :=
  f.src == s.time.parent || (f.times[1]?).any fun b => decide (s.beat ≤ b + 4 * s.announceBeats)

/-- The best qualified master. -/
def bestMaster (s : State) : Option Foreign :=
  (s.time.foreign.filter s.qualified).foldl (fun m f =>
    match m with
    | none => some f
    | some g => if annBetter (f.src, f.ann) (g.src, g.ann) then some f else m) none

/-- The port becomes MASTER. -/
def ptpMaster (s : State) : State :=
  if s.time.portState = 6 then s
  else s.modTime fun t => { t with portState := 6, parent := 0, nextSync := s.beat, nextAnnounce := s.beat, sync := none, reqT := none }

/-- The port follows a master: UNCALIBRATED until a measurement, when the master is another than before. -/
def ptpFollow (s : State) (f : Foreign) : State :=
  if f.src = s.time.parent ∧ (s.time.portState = 8 ∨ s.time.portState = 9) then s
  else s.modTime fun t => { t with
    portState := 8, parent := f.src, annFrom := s.beat, nextReq := s.beat, sync := none, reqT := none }

/-- The port becomes PASSIVE behind a better master, whose Announce messages it waits for from now on. -/
def ptpPassive (s : State) (f : Foreign) : State :=
  if s.time.portState = 7 ∧ s.time.parent = f.src then s
  else s.modTime fun t => { t with portState := 7, parent := f.src, annFrom := s.beat, sync := none, reqT := none }

/-- The state decision of the port. -/
def ptpDecide (s : State) : State :=
  match s.bestMaster with
  | none => s
  | some f =>
    let own := (s.ptpIdentity, s.ownAnnounce)
    let c := own.2.clockClass.toNat
    if s.ptpRole = 0 then s.ptpFollow f
    else if annBetter own (f.src, f.ann) then s.ptpMaster
    else if 1 ≤ c ∧ c ≤ 127 then s.ptpPassive f
    else s.ptpFollow f

/-- An Announce of another clock; a master-only instance takes none. -/
def ptpAnnounced (s : State) (m : PtpMsg) : State :=
  if s.ptpRole = 2 ∨ m.src.toNat / 65536 = s.ptpClock.toNat ∨ 255 ≤ m.ann.steps.toNat then s
  else
    let old := s.time.foreign.find? fun f => f.src == m.src
    let f : Foreign := { src := m.src, ann := m.ann, times := (s.beat :: (old.map (·.times)).getD []).take 2 }
    let s := s.modTime fun t => { t with
      foreign := f :: t.foreign.filter fun g => g.src != m.src
      annFrom := if m.src = t.parent then s.beat else t.annFrom }
    s.ptpDecide

/-- No Announce of the selected master, or of any, for the announce receipt timeout: MASTER, or LISTENING when slave-only. -/
def announceLost (s : State) : State :=
  let t := s.time
  if s.ptpEn ∧ t.portState ≠ 6 ∧ t.annFrom + s.announceTimeout ≤ s.beat then
    let s := s.modTime fun t => { t with foreign := [], parent := 0, annFrom := s.beat, sync := none, reqT := none }
    if s.ptpRole = 0 then s.modTime fun t => { t with portState := 4 } else s.ptpMaster
  else s

/-! ### Received messages -/

/-- A PTP message of a supported kind, in the instance's domain and on its transport (R384). -/
def ptpTakes (s : State) (p : Nat) (m : PtpMsg) : Bool :=
  s.ptpEn && decide (p = s.time.actPort) && decide (m.sdo = 0 ∧ m.version = 2 ∧ m.domain.toNat = s.regFld Reg.ptpCtrl 23 16) &&
    decide (m.typ.toNat ∈ [0, 1, 2, 3, 8, 9, 10, 11]) &&
    (match s.regFld Reg.ptpCtrl 6 5 with
      | 0 => m.layer2
      | 1 => !m.layer2 && !m.v6
      | _ => !m.layer2 && m.v6)

/-- A message of the master that the port follows. -/
def fromMaster (s : State) (m : PtpMsg) : Bool :=
  decide ((s.time.portState = 8 ∨ s.time.portState = 9) ∧ m.src = s.time.parent)

/-- A received Delay_Req is answered by a master with its receive time. -/
def delayResp (s : State) (p : Nat) (m : PtpMsg) (t4 : Int) : State :=
  s.ptpOut p 9 false m.seqId (m.correction - subUnits t4) (beBytes 10 (wireTime t4).toNat ++ beBytes 10 m.src.toNat)

/-- A received Pdelay_Req is answered: two-step with its receive time, one-step with the turnaround that the port adds (R387). -/
def pdelayResp (s : State) (p : Nat) (m : PtpMsg) (ts : BitVec 48) : State :=
  let s := s.modTime fun t => { t with
    owed := { id := m.seqId, req := m.src, correction := m.correction, ts := ts } :: t.owed.filter fun o => o.id != m.seqId }
  let t2 := s.extend ts
  let two := s.ptpTwo
  s.ptpOut p 3 two m.seqId (if two then 0 - subUnits t2 else 0)
    (beBytes 10 (if two then (wireTime t2).toNat else 0) ++ beBytes 10 m.src.toNat)

/-- A received message that the instance takes (R384, R388), with its ingress timestamp. -/
def ptpReceive (s : State) (p : Nat) (m : PtpMsg) : State :=
  let ts := s.ingressStamp p m.ago
  let t := s.extend ts
  let origin := wireUnits m.origin
  let corr := m.correction.toInt
  let half := fun x : Int => Int.fdiv x 2
  let mine := decide (m.req = s.ptpIdentity)
  match m.typ.toNat with
  | 0 =>
    if s.fromMaster m then
      let s := s.modTime fun t => { t with lastSync := s.beat }
      if m.twoStep then s.modTime fun t => { t with sync := some (m.seqId, ts, m.correction) } else s.ptpSync (origin + corr) t
    else s
  | 8 =>
    match s.time.sync with
    | some (id, ts, c) => if id = m.seqId ∧ s.fromMaster m then s.ptpSync (origin + c.toInt + corr) (s.extend ts) else s
    | none => s
  | 9 =>
    match s.time.reqT with
    | some (id, t3) =>
      if id = m.seqId ∧ mine ∧ s.fromMaster m then
        s.modTime fun t => { t with path := half (t.ms + (origin - corr - s.extend t3)), reqT := none }
      else s
    | none => s
  | 3 =>
    match s.time.preqT with
    | some (id, t1) =>
      let trip := (ts - t1).toInt - corr
      if id = m.seqId ∧ mine ∧ s.ptpP2p then
        if m.twoStep then s.modTime fun t => { t with presp := some (id, trip + origin) }
        else s.modTime fun t => { t with path := half trip, preqT := none }
      else s
    | none => s
  | 10 =>
    match s.time.presp with
    | some (id, x) =>
      if id = m.seqId ∧ mine ∧ s.ptpP2p then
        s.modTime fun t => { t with path := half (x - origin - corr), presp := none, preqT := none }
      else s
    | none => s
  | 1 => if s.time.portState = 6 ∧ ¬ s.ptpP2p then s.delayResp p m t else s
  | 2 => if s.ptpP2p then s.pdelayResp p m ts else s
  | 11 => s.ptpAnnounced m
  | _ => s

/-! ### The instance -/

/-- HOLDOVER is due: no Sync for announceReceiptTimeout announce intervals (R388); with SERVO = 1 the states of the servo do not apply. -/
def holdoverDue (s : State) : Bool :=
  s.ptpEn && !s.regBit Reg.ptpCtrl 10 && decide (s.time.servo ≠ .holdover) && decide (s.time.lastSync + s.announceTimeout ≤ s.beat)

/-- The port in use (R389): PTP_CTRL.PORT, or with FAILOVER the other one from its loss until it is UP again. A port that a MODE or JUMBO
change has taken DOWN is lost too while it aligns (R90). -/
def ptpPortNow (s : State) : Nat :=
  let own := s.regFld Reg.ptpCtrl 8 8
  let moves := s.regBit Reg.ptpCtrl 9
  if moves ∧ ¬ s.portAnswers own ∧ s.portUp (1 - own) then 1 - own
  else if moves ∧ s.ptpEn ∧ s.time.actPort = 1 - own ∧ ¬ s.portUp own then 1 - own
  else own

/-- What the instance does in every beat: it runs on its port, drops a master that is silent, and Fyndofen takes timestamps. -/
def ptpBeat (s : State) : State :=
  let s := (s.modTime fun t => { t with actPort := s.ptpPortNow }).announceLost
  s.forBelow 2 fun p s => if Config.tsqTake p s.beat then s.tsqTake p else s

/-- The PTP instance is enabled (R388, R389): FREE, and LISTENING, or MASTER when master-only. -/
def ptpStart (s : State) : State :=
  s.modTime fun t => { t with
    servo := .free, lastSync := s.beat, annFrom := s.beat, nextSync := s.beat, nextAnnounce := s.beat, nextReq := s.beat
    foreign := [], parent := 0, owed := [], sync := none, reqT := none, preqT := none, presp := none
    portState := if s.ptpRole = 2 then 6 else 4 }

/-- The check of a PTP_CTRL write (R389, R404): only EN may change while EN is 1. -/
def ptpCtrlCheck (s : State) (v : Word) : Err :=
  let old := s.getReg Reg.ptpCtrl
  (Err.need (decide (fld v 23 16 ≤ 127 ∧ fld v 6 5 ≠ 3 ∧ fld v 2 1 ≠ 3)) .eRange).orElse <|
    (Err.need (!bit old 0 || decide (v &&& 0xFFFFFFFE = old &&& 0xFFFFFFFE)) .eState).orElse <|
    Err.need (!(bit v 0 && !bit old 0 &&
      ((decide (fld v 6 5 = 1) && decide (s.ipv4 = 0)) ||
       (decide (fld v 6 5 = 2) && decide (s.ipv6 = 0))))) .eState

/-- The effect of a PTP_CTRL write. -/
def ptpCtrlDo (s : State) (v : Word) : State :=
  let old := s.getReg Reg.ptpCtrl
  let s := s.setReg Reg.ptpCtrl v
  if bit v 0 ∧ ¬ bit old 0 then (s.modTime fun t => { t with actPort := fld v 8 8 }).ptpStart
  else if ¬ bit v 0 ∧ bit old 0 then s.modTime fun t => { t with servo := .free, portState := 0 }
  else s

/-- PTP_STATUS (R404). -/
def ptpStatus (s : State) : Word :=
  let sv := match s.time.servo with | .free => 0 | .step => 1 | .locked => 2 | .holdover => 3
  BitVec.ofNat 32 (s.time.portState.toNat + 16 * sv + 256 * s.time.actPort)

end State

/-- PTP_MESSAGE_SEND: the running instance sends a message on its port; its timestamp is taken as it leaves (R386, R387). Nothing happens
unless one is due (log entry 4). -/
def execPtpMessageSend (p : Port) (typ : BitVec 4) (s : State) : Res :=
  .next <| if s.ptpSendDue p typ then s.ptpSend p typ else s

/-- PTP_HOLDOVER: no Sync for announceReceiptTimeout announce intervals (R388). -/
def execPtpHoldover (s : State) : Res :=
  .next <| if s.holdoverDue then (s.modTime fun t => { t with servo := .holdover }).raiseFlag Reg.timeFlags 1 else s

end Sys2Proof.Machine
end

