-- ==== Sys2Proof/Machine/Eth.lean ====
section
/-! DEFINITION. The Ethernet ports: states, loss and return (R33-R36, R61-R63, R521, R523), received and sent frames, flow
control (R84-R87), address resolution (R37), and the optical modules (R40, R550). -/

namespace Sys2Proof.Machine

namespace State

/-- ETH[p].CTRL.MODE (R33): 0 400GBASE-R, 1 200GBASE-R, 2 off. -/
def ethMode (s : State) (p : Nat) : Nat := s.regFld (Reg.ethCtrl p) 5 4

/-- ETH[p].CTRL.PFC_EN. -/
def pfcEn (s : State) (p : Nat) : Bool := s.regBit (Reg.ethCtrl p) 8

/-- ETH[p].STATUS (R90). -/
def ethStatus (s : State) (p : Nat) : Word :=
  let e := s.port p
  let st := match e.state with | .down => 0 | .aligning => 1 | .shadow => 2 | .up => 3
  let lanes := if e.locked then (if s.ethMode p = 0 then 0xFF else 0x0F) else 0
  BitVec.ofNat 32 (st + 16 * e.locked.toNat + 256 * lanes + 65536 * e.modPresent.toNat)

/-! ### Received frames -/

/-- The destination of MAC control frames (IEEE 802.1Qbb). -/
def controlMac : BitVec 48 := 0x0180C2000001

/-- The PFC frame of priority `q` with its quanta (R86; IEEE 802.1Qbb). -/
def pfcFrame (q : Nat) (quanta : BitVec 16) : OutFrame :=
  { cls := .pfc, dest := some { mac := controlMac, raw := true }
    carry := .ether 0x8808 (beBytes 2 0x0101 ++ beBytes 2 (2 ^ q) ++
      (List.range 8).flatMap fun k => beBytes 2 (if k = q then quanta.toNat else 0)) }

/-- Whether a frame with this 802.1Q tag is accepted (R38): untagged, or with NET.VLAN.VID under TAG_EN, else with VID 0. -/
def vlanTakes (s : State) (vid : Option Nat) : Bool :=
  let v := s.netVal Reg.netVlan
  match vid with
  | none => true
  | some t => if bit v 15 then t == fld v 11 0 else t == 0

/-- The priority under which a received frame counts (R38, R86): the PCP of its tag under TAG_EN, else 0. -/
def rxPrio (s : State) (tag : Option (BitVec 16)) : Nat :=
  match tag with
  | some t => if bit (s.netVal Reg.netVlan) 15 then fld t 15 13 else 0
  | none => 0

/-- A frame arrives on a port (R86): counted, and its `len` bytes held in the ingress buffer under priority `q`; dropped, counted and
flagged when they find the buffer full. A port that is neither SHADOW nor UP receives nothing. The second part says whether the frame
is taken. Above XOFF_KIB the port sends a PFC frame with quanta 0xFFFF. A frame that the MAC discards holds nothing. -/
def rxFrame (s : State) (p len q : Nat) : State × Bool :=
  if ¬ s.portAnswers p then (s, false)
  else
    let s := s.addReg64 (Reg.ethRxFramesLo p) 1
    let s := s.modPort p fun e => if e.badRun = 0 then e else { e with badRun := 0, lossFrom := if e.locked then none else e.lossFrom }
    if 524288 < (s.port p).ingress.sum + len then ((s.satReg (Reg.ethRxDrop p)).raiseFlag (Reg.ethFlags p) 2, false)
    else
      let s := s.modPort p fun e => { e with ingress := e.ingress.modify q (· + len) }
      let e := s.port p
      if s.pfcEn p ∧ s.regFld (Reg.ethPfcThr p) 25 16 * 1024 < e.ingress.getD q 0 ∧ e.xoffAt.getD q none = none then
        ((s.sendFrame p (pfcFrame q 0xFFFF)).modPort p fun e => { e with xoffAt := e.xoffAt.set q (some s.beat) }, true)
      else (s, true)

/-- What a received datagram's headers must be (R36): IPv4 without options, IPv6 without extension headers, no fragment. -/
def headOk (v4 : Bool) (h : RxHead) : Bool := !h.fragment && (if v4 then decide (h.ihl = 5) else !h.extension)

/-- A frame of `len` bytes without its tag comes through the MAC (R35, R38): one that is too long sets OVERSIZE, one whose tag is not
accepted counts in RX_DROP, and neither goes further. -/
def macTakes (s : State) (p : Nat) (h : RxHead) (len : Nat) : State × Bool :=
  let n := len + (if h.tag.isSome then 4 else 0)
  if (if s.jumbo p then 9216 else 1522) < n then
    let (s, ok) := s.rxFrame p 0 0
    (if ok then s.raiseFlag (Reg.ethFlags p) 5 else s, false)
  else if s.vlanTakes (h.tag.map fun t => fld t 11 0) then s.rxFrame p n (s.rxPrio h.tag)
  else
    let (s, ok) := s.rxFrame p 0 0
    (if ok then s.satReg (Reg.ethRxDrop p) else s, false)

/-- The end of a beat: of the frames on ingress, those that wait behind a frame in execution are still held (R56, R86). -/
def ingressBeat (s : State) : State :=
  s.forBelow 2 fun p s =>
    let l := (List.range 8).map fun q => ((s.held.filter fun x => decide (x.port = p ∧ x.prio = q)).map (·.len)).sum
    if (s.port p).ingress = l then s else s.modPort p fun e => { e with ingress := l }

/-- Whether the PFC frame of a priority is to be sent again (R86): every 30,000 beats while the occupancy is above XOFF_KIB, and at once
when a write of PFC_EN or of XOFF_KIB has brought that about. -/
def xoffRepeatDue (s : State) (p q : Nat) : Bool :=
  let e := s.port p
  s.portAnswers p && s.pfcEn p && decide (s.regFld (Reg.ethPfcThr p) 25 16 * 1024 < e.ingress.getD q 0) &&
    (e.xoffAt.getD q none).all fun b => decide (b + 30000 ≤ s.beat)

/-- Whether the PFC frame that ends a pause is to be sent (R86); also when PFC_EN has been cleared since the pause was sent (DESIGN
CHOICE, log entry 85). -/
def xonDue (s : State) (p q : Nat) : Bool :=
  let e := s.port p
  (e.xoffAt.getD q none).isSome && decide (e.ingress.getD q 0 < s.regFld (Reg.ethPfcThr p) 9 0 * 1024)

/-! ### Sent frames -/

/-- The bytes that a frame takes of its port's rate: with preamble and gap, as the bandwidth budget of R87's chapter counts them
(DEDUCED, log entry 71). -/
def wireLen (f : OutFrame) : Nat := f.ethLen + 20

/-- The rank of an egress class (R84); PFC frames go first. -/
def classRank : TxClass → Nat
  | .pfc => 0 | .ptp => 1 | .response | .answer => 2 | .event => 3 | .result => 4 | .classC => 5

/-- What a beat adds to a port's class C allowance (R87): GBPS, less the thermal reduction, in 240ths of a byte. -/
def classCRate (s : State) (p : Nat) : Nat := s.regFld (Reg.ethClasscLimit p) 8 0 * s.regFld Reg.throttleR 4 0

/-- Whether a frame may start now: it has waited its delay, its priority is not paused (R85), and a class C frame has its
allowance and a rate above 0 (R87). A pause received under PFC_EN runs on after PFC_EN is cleared (DESIGN CHOICE, log entry 85). -/
def mayStart (s : State) (p : Nat) (e : EthPort) (f : OutFrame) : Bool :=
  decide (f.notBefore ≤ s.beat) &&
    match f.cls with
    | .pfc | .ptp => true
    | .classC => decide (e.pausedTo.getD f.prio 0 ≤ s.beat) && decide (0 < s.classCRate p) && decide (240 * wireLen f ≤ e.classCTok)
    | _ => decide (e.pausedTo.getD f.prio 0 ≤ s.beat)

/-- The place of the next frame to leave a port: the oldest of the first class that has one (R84). -/
def nextFrame (s : State) (p : Nat) (e : EthPort) : Option Nat :=
  let ok := (List.range e.egress.length).filter fun i => (e.egress[i]?).any (s.mayStart p e)
  (List.range 6).findSome? fun k => ok.find? fun i => (e.egress[i]?).any fun f => classRank f.cls == k

/-- A frame has been handed to the MAC: under AUTO_ACK the records of a RESULT are freed (R78, R81). -/
def handedOver (s : State) (f : OutFrame) : State :=
  f.ops.foldl (fun s o =>
    let n := o.addr.toNat
    if f.cls = .result ∧ s.regBit (Reg.resqCtrl n) 1 then s.freeBelow n (BitVec.ofNat 32 (leAt o.body 0 4 + o.count)) else s) s

/-- Bytes of the class C frames of an egress queue (R85). -/
def classCBytes (l : List OutFrame) : Nat := ((l.filter fun f => decide (f.cls = .classC)).map OutFrame.ethLen).sum

/-- One beat of a port's egress (R84, R87): the class C allowance grows by GBPS, less the thermal reduction, up to one frame of
9,216 bytes, and at most one frame leaves (log entry 60). -/
def egressBeat (s : State) (p : Nat) : State :=
  if ¬ s.portAnswers p then s
  else
    let e := s.port p
    let tok := min (9236 * 240) (e.classCTok + s.classCRate p)
    let e := { e with classCTok := tok }
    match (s.nextFrame p e).bind fun i => (e.egress[i]?).map fun f => (i, f) with
    | none => if tok = (s.port p).classCTok then s else s.modPort p fun _ => e
    | some (i, f) =>
      let c := decide (f.cls = .classC)
      let (s, g) := s.ptpLeaves p f
      (((s.modPort p fun _ => { e with
        egress := e.egress.eraseIdx i
        sent := s.wire p g
        classCHeld := if c then e.classCHeld - f.ethLen else e.classCHeld
        classCTok := if c then tok - 240 * wireLen f else tok }).handedOver f).addReg64 (Reg.ethTxFramesLo p) 1)

/-- Corrected codewords are counted while alignment is held (R90). -/
def fecBeat (s : State) (p : Nat) : State :=
  if (s.port p).locked then
    s.modPort p fun e => { e with fecCorr := e.fecCorr + BitVec.ofNat 64 (Config.fecCorrected p s.beat) }
  else s

/-! ### Loss and return -/

/-- Sessions whose pushes find a port now and found none before continue from the oldest unacknowledged record (R60). -/
def regainPushes (old s : State) : State :=
  s.forBelow 8 fun u s =>
    if (old.pushPorts u).isEmpty ∧ ¬ (s.pushPorts u).isEmpty then
      s.forBelow 12 fun n s => if s.resqEn n ∧ s.resqSess n = u then s.restartPush n else s
    else s

/-- The result queues pushed on a port restart from their oldest unacknowledged record, and the streams' CREDIT pushes with the
present limit (R62). -/
def restartPort (s : State) (p : Nat) : State :=
  s.forBelow 12 fun n t =>
    let t := if s.resqEn n ∧ p ∈ s.pushPorts (s.resqSess n) then t.restartPush n else t
    t.forBelow 4 fun j t =>
      if s.strmEn n j ∧ p ∈ s.pushPorts (s.regFld (Reg.strmCfg n j) 22 20) then
        t.modStrm n j fun x => { x with creditDue := true }
      else t

/-- Cuts `total` things into parts of at most `k`: where each begins, and how many it holds. -/
def parts (k total : Nat) : List (Nat × Nat) := (List.range ((total + k - 1) / k)).map fun i => (k * i, min k (total - k * i))

/-- A RESULT, a raw or a spectrum operation cut to the limits of a port without JUMBO (R59, R77, R301, R469). -/
def cutOp (o : OpResp) : List OpResp :=
  let d := o.body.drop 4
  let data := fun bs : List Byte => ({ o with count := bs.length / 4, body := o.body.take 4 ++ bs } : OpResp)
  if o.op = 0x09 then
    (parts 44 o.count).map fun x =>
      { o with count := x.2, body := leBytes 4 (leAt o.body 0 4 + x.1) ++ (d.drop (32 * x.1)).take (32 * x.2) }
  else if o.op = 0x0B ∧ fld o.addr 7 0 = 2 then
    let n := leAt d 8 2
    (parts 232 n).map fun x =>
      let bs := (d.drop (16 + 6 * x.1)).take (6 * x.2)
      let fl := leAt d 10 1
      data (d.take 4 ++ leBytes 4 (leAt d 4 4 + x.1) ++ leBytes 2 x.2 ++ leBytes 1 (if x.1 + x.2 = n then fl else fl - fl % 2) ++
        (d.drop 11).take 5 ++ bs ++ List.replicate ((4 - bs.length % 4) % 4) 0)
  else if o.op = 0x0B ∧ fld o.addr 7 0 = 1 then
    let n := leAt d 6 2
    (parts 128 n).map fun x =>
      let fl := leAt d 20 2
      data (d.take 4 ++ leBytes 2 (leAt d 4 2 + x.1) ++ leBytes 2 x.2 ++ (d.drop 8).take 12 ++
        leBytes 2 (if x.1 + x.2 = n then fl else fl - fl % 2) ++ (d.drop 22).take 10 ++ (d.drop (32 + 10 * x.1)).take (10 * x.2))
  else [o]

/-- The operations of a push frame as port `p` carries them, one frame each (R59). -/
def rebuilt (s : State) (p : Nat) (f : OutFrame) : List OpResp := if f.len ≤ s.maxLen p then f.ops else f.ops.flatMap cutOp

/-- A frame made from a part of another takes the next push SEQ, and the next sequence number of its class C source (DESIGN CHOICE, log
entry 72). -/
def sendPart (s : State) (p : Nat) (f : OutFrame) (o : OpResp) : State :=
  let u := f.sess.toNat
  let (x, s) := if o.op = 0x0B then s.nextSeqNo (fld o.addr 7 0) (fld o.addr 15 8) else (0, s)
  let o := if o.op = 0x0B then { o with body := leBytes 4 x.toNat ++ o.body.drop 4 } else o
  (s.sendFrame p { f with seq := (s.session u).pushSeq, ops := [o], dest := s.pushAddr u p }).modSess u fun y =>
    { y with pushSeq := y.pushSeq + 1 }

/-- A push frame moves to port `p` and is built again to its limits (R59): what fits keeps its numbers. -/
def movePush (s : State) (p : Nat) (f : OutFrame) : State :=
  match s.rebuilt p f with
  | [] => s
  | o :: t =>
    let s := s.sendFrame p { f with ops := if t.isEmpty then f.ops else [o], dest := s.pushAddr f.sess.toNat p }
    t.foldl (fun s o => s.sendPart p f o) s

/-- A queued EVENT or CLASS_DATA frame of a port that is lost (R59, R60): it moves to the port that carries its session's pushes now,
unless PUSH_DUAL has put a copy there; a class C frame that finds no port is dropped and counted. RESULT and CREDIT start again
by R62. `old` is the state before the loss. -/
def movePushFrom (old : State) (p : Nat) (s : State) (f : OutFrame) : State :=
  let u := f.sess.toNat
  if (f.cls = .event ∧ f.ops.any fun o => o.op = 0x0A) ∨ f.cls = .classC then
    match (s.pushPorts u).filter fun q => decide (q ≠ p) with
    | [] => if f.cls = .classC ∧ (s.session u).isOpen then
        (s.satReg (Reg.ethClasscDrop (s.homePort u))).raiseFlag (Reg.ethFlags (s.homePort u)) 3
      else s
    | qs => qs.foldl (fun s q => if s.regBit (Reg.sessCtrl u) 4 ∧ q ∈ old.pushPorts u then s else s.movePush q f) s
  else s

/-- A port stops carrying frames: responses in its queue are lost, and pushes move or start again. -/
def dropPort (s : State) (p : Nat) (st : PortState) : State :=
  let t := (s.restartPort p).modPort p fun e => { e with
    state := st, egress := [], classCHeld := 0, badRun := 0, lossFrom := none, xoffAt := List.replicate 8 none }
  (s.port p).egress.foldl (movePushFrom s p) t

/-- A push frame queued on the other port of a session whose home port `p` is UP again (R63). -/
def goesHome (s : State) (p : Nat) (f : OutFrame) : Bool :=
  let u := f.sess.toNat
  decide (f.cls = .event ∨ f.cls = .result ∨ f.cls = .classC) && decide (s.homePort u = p) && !s.regBit (Reg.sessCtrl u) 4 && s.pushOk u p

/-- Pushes whose home port has just become UP move back to it, from the first frame that has not started (R63). -/
def movePushesHome (s : State) (p : Nat) : State :=
  let l := (s.port (1 - p)).egress
  if l.any (s.goesHome p) then
    let rest := l.filter fun f => !s.goesHome p f
    (l.filter (s.goesHome p)).foldl (fun s f => s.movePush p f)
      (s.modPort (1 - p) fun e => { e with egress := rest, classCHeld := classCBytes rest })
  else s

/-- How long one RS(544,514) codeword of a port lasts, in beats rounded up (R33, R61): 5,440 bits at the lane rate of the mode. -/
def codewordBeats (s : State) (p : Nat) : Nat := if s.ethMode p = 1 then 39 else 20

/-- An uncorrectable codeword that comes now directly follows the latest one (R61). -/
def badGoesOn (s : State) (p : Nat) : Bool := decide (0 < (s.port p).badRun ∧ s.beat ≤ (s.port p).badAt + s.codewordBeats p)

/-- Since when the condition of R61 has held without a break: no lock, or uncorrectable codewords that still come. -/
def lossSince (s : State) (p : Nat) : Option Nat := if (s.port p).locked ∧ ¬ s.badGoesOn p then none else (s.port p).lossFrom

/-- A port loses alignment-marker lock (R61): the time of the loss runs, and a shadow period restarts (R63). -/
def loseLock (s : State) (p : Nat) : State :=
  if (s.port p).locked then
    s.modPort p fun e => { e with
      locked := false, shadowFrom := s.beat
      lossFrom := if e.state = .up ∨ e.state = .shadow then (if (s.lossSince p).isSome then e.lossFrom else some s.beat) else none }
  else s

/-- Whether a port is to be declared lost (R61). -/
def portLostDue (s : State) (p : Nat) : Bool :=
  s.portAnswers p && ((s.lossSince p).any fun b => decide (b + 15000 ≤ s.beat))

/-- A port is declared lost (R61, R62): DOWN, LINK_LOST, amber; carmine when the other is not UP either. -/
def losePort (s : State) (p : Nat) : State :=
  let s := (s.dropPort p .down).modPort p fun e => { e with locked := false }
  let s := (s.raiseFlag (Reg.ethFlags p) 0).raiseEvent 0x0101 0x05 (BitVec.ofNat 32 p)
  s.raiseEventIf (!s.portUp (1 - p)) 0x0103 0x05 0

/-- Whether the ports run: from phase 0x4 on, in ready and in recovery mode (R522, R526), while the management PLL is locked. -/
def portsRun (s : State) : Bool :=
  !s.rst.inReset && !s.rst.mgmtHold && decide (s.rst.phase = .link ∨ s.rst.phase = .ready ∨ s.rst.phase = .recovery)

/-- A port is UP (R63, R523): with it phase 0x4 ends, and pushes that belong to it move back. -/
def bringUp (s : State) (p : Nat) : State :=
  let t := (s.modPort p fun e => { e with state := .up }).movePushesHome p
  regainPushes s (if s.rst.phase = .link then t.lastPhase .ready else t)

/-- A push frame waits in a port's egress; a CREDIT is made again from its stream (R60, R62). -/
def isPush (f : OutFrame) : Bool := decide (f.cls = .event ∨ f.cls = .result ∨ f.cls = .classC)

/-- A port that was UP goes to SHADOW: it goes on answering, and its pushes move or start again as from a port that is lost (R60, R62,
R63; DEDUCED, log entry 73). -/
def shadePort (s : State) (p : Nat) : State :=
  let l := (s.port p).egress
  let t := (s.restartPort p).modPort p fun e => { e with state := .shadow, egress := l.filter fun f => !isPush f, classCHeld := 0 }
  (l.filter isPush).foldl (movePushFrom s p) t

/-- A port reaches alignment: UP at once the first time after reset (R523), else SHADOW (R63), also when it was still UP. -/
def alignPort (s : State) (p : Nat) : State :=
  if s.ethMode p = 2 ∨ ¬ s.portsRun ∨ (s.port p).locked then s
  else
    let e := s.port p
    let s := s.modPort p fun e => { e with locked := true, lossFrom := none, badRun := 0, shadowFrom := s.beat, aligned := true }
    if e.state = .up then s.shadePort p
    else if e.aligned then s.modPort p fun e => { e with state := .shadow }
    else s.bringUp p

/-- Whether the shadow period of a port has ended (R63). -/
def portUpDue (s : State) (p : Nat) : Bool :=
  let e := s.port p
  decide (e.state = .shadow ∧ e.locked = true ∧ s.lossSince p = none ∧
    e.shadowFrom + s.regFld (Reg.ethShadow p) 15 0 * 1500000 ≤ s.beat)

/-- An uncorrectable codeword (R61, R63): eight in a row are a loss. -/
def badCodeword (s : State) (p : Nat) : State :=
  if (s.port p).locked then
    let run := if s.badGoesOn p then (s.port p).badRun + 1 else 1
    ((s.raiseFlag (Reg.ethFlags p) 1).addReg64 (Reg.ethFecUncorrLo p) 1).modPort p fun e => { e with
      shadowFrom := s.beat, badRun := run, badAt := s.beat
      lossFrom := if 8 ≤ run ∧ (e.state = .up ∨ e.state = .shadow) then (if (s.lossSince p).isSome then e.lossFrom else some s.beat)
        else none }
  else s

/-- The check of an ETH CTRL write (R90). -/
def ethCtrlCheck (v : Word) : Err := Err.need (decide (fld v 5 4 ≠ 3)) .eRange

/-- The effect of an ETH CTRL write (R90): a MODE or JUMBO change takes the port DOWN and through alignment and SHADOW; no
beat shows DOWN, for the port seeks alignment from the beat of the write on, unless MODE is off (DESIGN CHOICE, log entry 52). -/
def ethCtrlDo (s : State) (p : Nat) (v : Word) : State :=
  let old := s.getReg (Reg.ethCtrl p)
  if fld old 5 4 ≠ fld v 5 4 ∨ bit old 9 ≠ bit v 9 then
    let s := s.dropPort p (if fld v 5 4 = 2 then .down else .aligning)
    (s.modPort p fun e => { e with locked := false }).setReg (Reg.ethCtrl p) v
  else s.setReg (Reg.ethCtrl p) v

/-! ### Answers and modules -/

/-- An answer of Fyndofen on a port (R37), to where its request came from. -/
def answer (s : State) (p : Nat) (a : PushAddr) (c : Carried) : State := s.sendFrame p { cls := .answer, dest := some a, carry := c }

/-- The ARP reply with the port's MAC address (RFC 826). -/
def arpReply (s : State) (p : Nat) (a : PushAddr) (target : BitVec 32) : Carried :=
  .ether 0x0806 (beBytes 2 1 ++ beBytes 2 0x0800 ++ [6, 4] ++ beBytes 2 2 ++ beBytes 6 (s.portMac p).toNat ++ beBytes 4 target.toNat ++
    beBytes 6 a.mac.toNat ++ beBytes 4 a.ip.toNat)

/-- The solicited neighbor advertisement with the port's MAC address (RFC 4861). -/
def advertisement (s : State) (p : Nat) (a : PushAddr) (target : BitVec 128) : Carried :=
  .ip 58 (icmpBytes false target a.ip 136 ([0x60, 0, 0, 0] ++ beBytes 16 target.toNat ++ [2, 1] ++ beBytes 6 (s.portMac p).toNat))

/-- The echo reply: what followed the request's checksum comes back (RFC 792, RFC 4443). -/
def echoReply (v6 : Bool) (target ip : BitVec 128) (data : List Byte) : Carried :=
  if v6 then .ip 58 (icmpBytes false target ip 129 data) else .ip 1 (icmpBytes true target ip 0 data)

/-- A poll of the module is to be made now at the latest (R40, R550): 100 ms after the one before, or 1 ms after MOD_INT_N fell. -/
def pollDue (s : State) (p : Nat) : Bool :=
  s.portsRun && (decide ((s.port p).modPollAt + 150000000 ≤ s.beat) || (s.port p).pollFrom.any fun b => decide (b + 1500000 ≤ s.beat))

/-- The pages of the module are to be mirrored now (R40). -/
def mirrorDue (s : State) (p : Nat) : Bool := s.portsRun && decide ((s.port p).mirrorAt + 1500000000 ≤ s.beat)

/-- The CMIS mirror of a port (R40): the 256 bytes of the two pages, all 0 without a module. -/
def mirror (s : State) (p : Nat) (page : List Byte) : State :=
  let ws := if (s.port p).modPresent then toWords page else []
  s.forBelow 64 fun k s => s.setReg (Reg.ethModule p k) (ws.getD k 0)

end State

/-- PFC_XOFF_REPEAT: the PFC frame of a priority is sent again (R86). Nothing happens unless it is due (log entry 4). -/
def execPfcXoffRepeat (p : Port) (q : Fin 8) (s : State) : Res :=
  .next <| if s.xoffRepeatDue p q then
      (s.sendFrame p (State.pfcFrame q 0xFFFF)).modPort p fun e =>
        { e with xoffAt := e.xoffAt.set q (some s.beat) }
    else s

/-- PFC_XON: a PFC frame with quanta 0 ends the pause of a priority (R86). Nothing happens unless it is due (log entry 4). -/
def execPfcXon (p : Port) (q : Fin 8) (s : State) : Res :=
  .next <| if s.xonDue p q then
      (s.sendFrame p (State.pfcFrame q 0)).modPort p fun e => { e with xoffAt := e.xoffAt.set q none }
    else s

/-- PFC_FRAME_RECEIVE: frames of a priority are held back for the quanta given, 512 bit times each (R85); nothing is held back
while PFC_EN is 0. -/
def execPfcFrameReceive (p : Port) (q : Fin 8) (quanta : BitVec 16) (s : State) : Res :=
  let (s, ok) := s.rxFrame p 0 0
  .next <| if ok && s.pfcEn p then
      let d := quanta.toNat * (if s.ethMode p = 1 then 96 else 48)
      s.modPort p fun e => { e with pausedTo := e.pausedTo.set q (s.beat + (d + 24) / 25) }
    else s

/-- PAUSE_FRAME_DISCARD: a received PAUSE frame only sets PAUSE_RX (R34). -/
def execPauseFrameDiscard (p : Port) (s : State) : Res :=
  let (s, ok) := s.rxFrame p 0 0
  .next <| if ok then s.raiseFlag (Reg.ethFlags p) 4 else s

/-- OVERSIZE_DISCARD: a frame longer than 1,522 bytes, or 9,216 with JUMBO, only sets OVERSIZE (R35). A frame within the limit
is not this command's (log entry 4). -/
def execOversizeDiscard (p : Port) (len : Nat) (s : State) : Res :=
  .next <| if (if s.jumbo p then 9216 else 1522) < len then
      let (s, ok) := s.rxFrame p 0 0
      if ok then s.raiseFlag (Reg.ethFlags p) 5 else s
    else s

/-- VLAN_DISCARD: a frame whose tag R38 does not accept is counted in RX_DROP. A frame that it accepts is not this command's
(log entry 4). -/
def execVlanDiscard (p : Port) (tag : Option (BitVec 12)) (s : State) : Res :=
  .next <| if s.vlanTakes (tag.map (·.toNat)) then s
    else
      let (s, ok) := s.rxFrame p 0 0
      if ok then s.satReg (Reg.ethRxDrop p) else s

/-- ARP_REQUEST: answered when it asks for the device's IPv4 address (R37). -/
def execArpRequest (p : Port) (a : RxFrom) (target : BitVec 32) (s : State) : Res :=
  let (s, ok) := s.macTakes p a.head 64
  .next <| if ok && s.ownV4 target then s.answer p a.addr (s.arpReply p a.addr target) else s

/-- NEIGHBOR_SOLICITATION: answered when it asks for an IPv6 address of the port (R36, R37, R42). -/
def execNeighborSolicitation (p : Port) (a : RxFrom) (target : BitVec 128) (s : State) : Res :=
  let (s, ok) := s.macTakes p a.head 90
  .next <| if ok && State.headOk false a.head && s.ownV6 p target then s.answer p { a.addr with own := target } (s.advertisement p a.addr target) else s

/-- ECHO_REQUEST: answered when sent to an address of the port (R36, R37), `data` being what follows the message's checksum; in recovery
mode it is not (R498). -/
def execEchoRequest (p : Port) (a : RxFrom) (v6 : Bool) (target : BitVec 128) (data : List Byte) (s : State) : Res :=
  let (s, ok) := s.macTakes p a.head (data.length + (if v6 then 62 else 42))
  let own := if v6 then s.ownV6 p target else s.ownV4 (target.truncate 32)
  .next <| if ok && State.headOk (!v6) a.head && own && decide (s.rst.phase ≠ .recovery) then
      s.answer p { a.addr with own := target } (State.echoReply v6 target a.addr.ip data)
    else s

/-- PCS_LOCK_LOSS: a port's PCS loses alignment-marker lock (R61, R63). -/
def execPcsLockLoss (p : Port) (s : State) : Res := .next (s.loseLock p)

/-- UNCORRECTABLE_CODEWORD: a port receives one (R61, R63). -/
def execUncorrectableCodeword (p : Port) (s : State) : Res := .next (s.badCodeword p)

/-- PORT_LOST: 15,000 beats of continuous loss (R61). Nothing happens before (log entry 4). -/
def execPortLost (p : Port) (s : State) : Res := .next <| if s.portLostDue p then s.losePort p else s

/-- PORT_ALIGNED: a port reaches or regains alignment (R63, R523). -/
def execPortAligned (p : Port) (s : State) : Res := .next (s.alignPort p)

/-- PORT_UP: the shadow period has ended without loss (R63). Nothing happens before (log entry 4). -/
def execPortUp (p : Port) (s : State) : Res :=
  .next <| if s.portUpDue p then (s.bringUp p).raiseEvent 0x0102 0x05 (BitVec.ofNat 32 p) else s

/-- MODULE_POLL: presence and alarms of the module (R40, R550); a poll that MOD_INT_N asks for comes in addition and leaves the period as it
is. Nothing happens unless the period has passed or MOD_INT_N asks for it
(log entry 4). -/
def execModulePoll (p : Port) (present : Bool) (alarms : Word) (s : State) : Res :=
  .next <| if s.pollDue p || (s.port p).pollFrom.isSome then
      let s := s.modPort p fun e => { e with
        modPresent := present, modAlarm := alarms
        modPollAt := if e.modPollAt + 150000000 ≤ s.beat then s.beat else e.modPollAt
        pollFrom := none }
      if present then s else s.mirror p []
    else s

/-- MODULE_MIRROR: the CMIS pages are mirrored into MODULE (R40). Nothing happens unless the period has passed (log entry 4). -/
def execModuleMirror (p : Port) (page : List Byte) (s : State) : Res :=
  .next <| if s.mirrorDue p then (s.mirror p page).modPort p fun e => { e with mirrorAt := s.beat } else s

/-- MODULE_INTERRUPT: a falling edge of MOD_INT_N asks for an alarm poll within 1 ms (R550). -/
def execModuleInterrupt (p : Port) (s : State) : Res :=
  .next (s.modPort p fun e => { e with pollFrom := some (e.pollFrom.getD s.beat) })

/-- The headers under a received IEEE 1588 message (R36): none on layer 2; in UDP what every datagram needs, and a checksum that is right,
or 0 on IPv4. -/
def State.ptpHeadOk (m : PtpMsg) : Bool :=
  m.layer2 || (headOk (!m.v6) m.head && (m.sumRight || (!m.v6 && decide (m.head.checksum = 0))))

/-- PTP_MESSAGE_RECEIVE: timestamped and processed when the instance takes it, discarded otherwise (R384, R385); its frame comes through
the MAC as every other, and one in UDP needs sound headers and a right checksum (R36, R38). -/
def execPtpMessageReceive (p : Port) (m : PtpMsg) (s : State) : Res :=
  let ip := if m.layer2 then 0 else if m.v6 then 48 else 28
  let (s, ok) := s.macTakes p m.head (18 + ip + State.ptpLen m.typ)
  .next <| if ok && State.ptpHeadOk m && s.ptpTakes p m then s.ptpReceive p m else s

/-- ETHREF_LOST: the management PLL goes into holdover and the ports lose alignment (R521). -/
def execEthrefLost (s : State) : Res :=
  .next ((((s.modRst fun r => { r with mgmtHold := true }).raiseFlag Reg.clkFlags 1).loseLock 0).loseLock 1)

/-- ETHREF_RELOCK: the management PLL relocks by itself; the ports align again (R521). -/
def execEthrefRelock (s : State) : Res := .next (s.modRst fun r => { r with mgmtHold := false })

end Sys2Proof.Machine
end

