-- ==== Sys2Proof/Machine/Live.lean ====
section
/-! DEFINITION. What a register reads as (R95, R100, R105, R568): the word it holds, or what its block shows at the moment. -/

namespace Sys2Proof.Machine

namespace State

/-- A carmine condition of R568 holds. It holds from reset until a port is UP: R568's row of the ports is followed, and the reset value 0
of R105 is read as that of the bit before the ports exist (DEDUCED, log entry 78). -/
def carmineCond (s : State) : Bool :=
  (!s.portUp 0 && !s.portUp 1) || s.shutting || s.hk.tripped || s.fwBad || s.calBad || s.cal.rx.any (·.exhausted) ||
    s.rings.any (fun r => r.tx.any (·.exhausted)) || s.links.any (fun l => l.down || !l.uncovered.isEmpty) || s.memu.rowsOut ||
    (List.range 12).any (fun n => s.ringMck n)

/-- CHIP_STATUS (R105). -/
def chipStatus (s : State) : Word :=
  let mck := ((List.range 12).map fun n => 2 ^ n * (s.ringMck n).toNat).sum
  BitVec.ofNat 32 (2 ^ 28 * s.rst.strap.toNat + 2 ^ 26 * s.rst.bootMode.toNat + 2 ^ 25 * s.sec.slotB.toNat +
    2 ^ 24 * s.sec.locked.toNat + 2 ^ 12 * mck + 2 ^ 9 * s.carmineCond.toNat + 2 ^ 6 * s.regFld Reg.thermStatus 1 0 +
    2 ^ 5 * (s.portUp 1).toNat + 2 ^ 4 * (s.portUp 0).toNat + phaseCode s.rst.phase)

/-- SESS[u].STATUS (R88). -/
def sessStatus (s : State) (u : Nat) : Word :=
  let x := s.session u
  BitVec.ofNat 32 (2 ^ 16 * (s.sched.filter fun e => decide (e.sess = u)).length + 4 * x.addr1.isSome.toNat + 2 * x.addr0.isSome.toNat +
    x.isOpen.toNat)

/-- The word of a register at address `a` that a READ returns (R95): fields coded WO and reserved bits read 0. -/
def readWord (s : State) (h : RegHit) (a : Nat) : Word :=
  let n := h.i
  let j := h.j
  match h.desc.name with
  | .sessStatus => s.sessStatus n
  | .ethStatus => s.ethStatus n
  | .ethFecCorrLo => loWord (s.port n).fecCorr
  | .ethFecCorrHi => hiWord (s.port n).fecCorr
  | .netMacLo => loWord s.netMacRead
  | .netMacHi => hiWord s.netMacRead
  | .netCtrl => putBit (s.getReg a) 1 (s.storing .net)
  | .resqFill => BitVec.ofNat 32 (s.resqFill n)
  | .resqNextIndex => s.nextIndex n
  | .schedFree => BitVec.ofNat 32 (256 - s.sched.length)
  | .serialLo => loWord s.sec.fuses.serial &&& 0xFFFFFF
  | .serialHi => hiWord s.sec.fuses.serial
  | .fwVer => s.sec.img.fwVer
  | .chipStatus => s.chipStatus
  | .seqTb => s.seqTb n
  | .seqTaq => BitVec.ofNat 32 (s.seq n).taq.length
  | .seqState => s.seqState n
  | .txStatus => s.txStatus n j
  | .voiceState => s.voiceState n j
  | .voiceAccHi => s.voiceAccHi n j
  | .biasStatus => s.biasStatus n j
  | .biasTarget => s.biasTargetRead n j
  | .rxStatus => s.rxStatus n j
  | .rxRawStatus => s.rawStatus n j
  | .laneState => s.laneState n j
  | .jugState => s.jugState n
  | .jugSr => s.jSr n
  | .jugTimer => s.jTimer n
  | .trpDbLo => loWord (BitVec.ofNat 64 s.db)
  | .trpDbHi => hiWord (BitVec.ofNat 64 s.db)
  | .trpStatus => BitVec.ofNat 32 s.trap.dbValid.toNat
  | .barStatus => s.barStatus n
  | .trpFwd => (s.fwd n).zeroExtend 32
  | .linkStatus => s.linkStatus n
  | .beatcountLo => loWord s.beatCount
  | .beatcountHi => hiWord s.beatCount
  | .offsetNsLo => loWord (intNs s.time.offset)
  | .offsetNsHi => hiWord (intNs s.time.offset)
  | .offsetSub => (subNs s.time.offset).zeroExtend 32
  | .ptpStatus => s.ptpStatus
  | .ptpPortTsqStatus => BitVec.ofNat 32 (s.tsq n).length
  | .markState => s.markState n
  | .tiuCmd => BitVec.ofNat 32 (s.tiu n).running.toNat
  | .tiuStatus => s.tiuStatus n
  | .calApply => s.calApplyRead
  | .calStatus => s.calStatus
  | .calStore => s.calStoreRead
  | .calStoreStatus => s.calStoreStatus
  | .rxcalStatus => s.rxcalStatus n
  | .rxcalInj => putBit (s.getReg a) 0 (s.rxCal n).inj.isSome
  | .mtestCmd => BitVec.ofNat 32 (s.memu.march.isSome && !s.mtestAuto).toNat
  | .mtestStatus => s.mtestStatus
  | .repmapCtrl => BitVec.ofNat 32 (s.storing .rep).toNat
  | .carStatus => s.carStatus n
  | .fwUpdCmd => BitVec.ofNat 32 (s.secIs .update).toNat
  | .attCmd => BitVec.ofNat 32 (s.secIs .attest).toNat
  | .secStatus => s.secStatus
  | .vkeyHash0 => wordAt s.sec.fuses.vkh0 (4 * n)
  | .vkeyHash1 => wordAt s.sec.fuses.vkh1 (4 * n)
  | .fwHash => wordAt s.sec.img.hash (4 * n)
  | .ownHash => wordAt s.ownerHash (4 * n)
  | .ownNonce => s.ownNonce
  | .certLen => BitVec.ofNat 32 s.certBytes.length
  | .cert => wordAt s.certBytes (4 * n)
  | .clkStatus => s.clkStatus
  | .clkCmd => BitVec.ofNat 32 s.rst.relockTo.isSome.toNat
  | .syncCmd => BitVec.ofNat 32 s.rst.armed.toNat
  | _ => s.getReg a

/-! ### Reads -/

/-- The register that an operation addresses, or why there is none (R31, R48): an address that is not a multiple of 4 first has
to lie in a register. -/
def findAt (a : Nat) : Except Err RegHit :=
  if 0x10000000 ≤ a then .error .eAddr
  else match findReg (a - a % 4) with
    | none => .error .eAddr
    | some h => if a % 4 = 0 then .ok h else .error .eAlign

/-- READ by session `u` (R46, R100): a low word puts its high word into the session's snapshot, and the high word returns the
snapshot when the session's latest READ was of its low word. -/
def readReg (s : State) (u a : Nat) : Err × Word × State :=
  let x := s.session u
  let t := s.modSess u fun x => { x with snapOf := none }
  match findAt a with
  | .error e => (e, 0, s)
  | .ok h =>
    if h.desc.pair = 1 then
      let hi := match findReg (a + 4) with | some g => s.readWord g (a + 4) | none => 0
      (.ok, s.readWord h a, s.modSess u fun x => { x with snap := hi, snapOf := some a })
    else if h.desc.pair = 2 ∧ x.snapOf = some (a - 4) then (.ok, x.snap, t)
    else (.ok, s.readWord h a, t)

end State

end Sys2Proof.Machine
end

