-- ==== Sys2Proof/Machine/Sess.lean ====
section
/-! DEFINITION. Sessions and leases (R53, R57, R58, R64, R65, R88, R89). -/

namespace Sys2Proof.Machine

/-- The address of a lease register (R89). -/
def leaseAddr : Lease → Nat
  | .ring n => Reg.leaseRing n
  | .chip => Reg.leaseChip
  | .time => Reg.leaseTime

/-- The lease registers (R89). -/
def leaseRegs : List Nat := ((List.range 12).map Reg.leaseRing) ++ [Reg.leaseChip, Reg.leaseTime]

/-- The lease register that covers a register, none where no lease does (R64). -/
def RegHit.lease (h : RegHit) : Option Nat :=
  match h.desc.lease with
  | .ring => some (Reg.leaseRing h.i)
  | .time => some Reg.leaseTime
  | .chip => some Reg.leaseChip
  | .session | .leaseReg => none

namespace State

/-- HOLDER of the lease register at `a`. -/
def holder (s : State) (a : Nat) : Nat := s.regFld a 3 0

/-- A lease lets session `u` write (R64). -/
def leaseOk (s : State) (a u : Nat) : Bool := decide (s.holder a = 0xF ∨ s.holder a = u)

/-- The lease check of a write to a register (R64, R88). -/
def leaseCheck (s : State) (u : Nat) (h : RegHit) : Err :=
  match h.desc.lease with
  | .session => Err.need (decide (h.i = u)) .eLease
  | _ => match h.lease with
    | some a => Err.need (s.leaseOk a u) .eLease
    | none => .ok

/-- The check of a write to the lease register at `a` (R65). An ordinary write of 0xF to a lease that is free is accepted and changes
nothing (DESIGN CHOICE, log entry 76). -/
def leaseRegCheck (s : State) (u a : Nat) (v : Word) : Err :=
  let h := s.holder a
  let x := fld v 3 0
  if bit v 31 then
    Err.first [Err.need (decide (s.holder Reg.leaseChip = u ∧ a ≠ Reg.leaseChip)) .eLease, Err.need (decide (x = 0xF)) .eRange,
      Err.need (decide (h ≠ 0xF)) .eState]
  else Err.first [Err.need (s.leaseOk a u) .eLease, Err.need (decide (x = u ∨ x = 0xF)) .eRange]

/-- The pending scheduled writes of session `u` to what the lease register at `a` covers are cancelled (R65). -/
def cancelUnder (s : State) (u a : Nat) : State :=
  { s with sched := s.sched.filter fun e =>
      !(decide (e.sess = u) && (match findReg e.addr with | some h => h.lease == some a | none => false)) }

/-- The effect of a write to the lease register at `a` (R65): with BREAK the lease of another session is released, that session's
scheduled writes there are cancelled, and it gets an amber event. -/
def leaseRegDo (s : State) (u a : Nat) (v : Word) : State :=
  let h := s.holder a
  let t := s.setFld a 3 0 (fld v 3 0)
  if bit v 31 ∧ h ≠ u then
    (t.cancelUnder h a).raiseEvent 0x0105 0x00
      (BitVec.ofNat 32 ((if a = Reg.leaseTime then 0x10 else (a - Reg.leaseRing 0) / 4) + 256 * h))
  else t

/-! ### Sessions -/

/-- A frame of session `u` has come on port `p` (R57, R58): its time and, where known, the push address; pushes that had no port
continue (R60). -/
def noteFrame (s : State) (u p : Nat) (a : Option PushAddr) : State :=
  let t := s.modSess u fun x =>
    { x with lastFrame := s.beat, addr0 := if p = 0 then a.or x.addr0 else x.addr0, addr1 := if p = 0 then x.addr1 else a.or x.addr1 }
  regainPushes s t

/-- The check of SESSION_OPEN (R53): the timeout, the initial CTRL, and a free session. -/
def openCheck (s : State) (timeout ctrl : Word) : Err :=
  Err.first [Err.need (timeout = 0 || decide (10 ≤ timeout.toNat ∧ timeout.toNat ≤ 60000)) .eRange,
    Err.need (decide (ctrl &&& 0xFFFFFF0E = 0)) .eRange, Err.need (s.sess.any fun x => !x.isOpen) .eCapacity]

/-- SESSION_OPEN on port `p` (R53, R58): the lowest free session opens with a random tag; its number, and the state. -/
def openSession (s : State) (p : Nat) (a : PushAddr) (seq timeout ctrl : Word) : Nat × State :=
  let u := s.sess.findIdx fun x => !x.isOpen
  let (k, s) := s.draw
  let t := s.modSess u fun _ => { isOpen := true, tag := Config.sessionTag k, executed := [(seq, p)], lastFrame := s.beat }
  let t := ((t.setReg (Reg.sessCtrl u) ctrl).setReg (Reg.sessTimeout u) (if timeout = 0 then 2000 else timeout)).setReg
    (Reg.sessLastSeq u) seq
  (u, t.noteFrame u p (some a))

/-- A session closes (R57): its leases are released, its registers take their reset values (R88), its slots stop pushing (R470),
and its scheduled writes stay pending. -/
def closeSession (s : State) (u : Nat) : State :=
  let s := leaseRegs.foldl (fun s a => if s.holder a = u then s.setFld a 3 0 0xF else s) s
  let s := [Reg.sessCtrl u, Reg.sessTimeout u, Reg.sessLastSeq u].foldl (fun s a => s.setReg a (resetWord a)) s
  let old := s.sched
  let s := { s with sched := old.map fun (e : Sched) => if e.sess = u then { e with sess := 8 } else e }
  (s.carSessGone u).modSess u fun _ => {}

/-- Whether no frame of a session has come for its timeout (R57). -/
def sessionLate (s : State) (u : Nat) : Bool :=
  (s.session u).isOpen && decide ((s.session u).lastFrame + s.regFld (Reg.sessTimeout u) 15 0 * 1500000 ≤ s.beat)

/-- A session closes by timeout (R57): with HALT_ON_LOSS the running rings that it held halt at their next shot boundary. -/
def expireSession (s : State) (u : Nat) : State :=
  let held := (List.range 12).filter fun n => decide (s.holder (Reg.leaseRing n) = u) && s.ringRuns n
  let halt := s.regBit (Reg.sessCtrl u) 5
  let s := s.closeSession u
  let s := if halt then held.foldl (fun s n => s.requestHalt n) s else s
  s.raiseEvent 0x0104 0x00 (BitVec.ofNat 32 u)

end State

/-- SESSION_TIMEOUT: no frame of the session for its TIMEOUT (R57). Nothing happens before (log entry 4). -/
def execSessionTimeout (u : Sid) (s : State) : Res := .next <| if s.sessionLate u then s.expireSession u else s

end Sys2Proof.Machine
end

