-- ==== Sys2Proof/Machine/Judge.lean ====
section
/-! DEFINITION. How a register write is judged: the values that each register takes (R96, R114), the states in which it may be
written, and the order of the codes (R113). -/

namespace Sys2Proof.Machine

/-- The bits of a register that are reserved: they take 0 only (R95, R96). -/
def RegDesc.reserved (d : RegDesc) : Word := ~~~(d.rw ||| d.ro ||| d.wo ||| d.w1c ||| d.w1s)

/-- A register with a field coded RW, WO, W1C or W1S (R96); of a 64-bit register both words are. -/
def RegDesc.writable (d : RegDesc) : Bool := decide (d.rw ||| d.wo ||| d.w1c ||| d.w1s ≠ 0)

/-- A number lies in a closed interval. -/
def within (x lo hi : Nat) : Bool := decide (lo ≤ x ∧ x ≤ hi)

/-- Whether a signed 8-bit field lies in a closed interval. -/
def within8 (x : Nat) (lo hi : Int) : Bool := decide (lo ≤ toSigned 8 x ∧ toSigned 8 x ≤ hi)

/-- Whether a value is legal for the fields of a register, by itself (R69, R96): the ranges of the register tables. -/
def fieldLegal (h : RegHit) (v : Word) : Bool :=
  match h.desc.name with
  | .sessTimeout => within (fld v 15 0) 10 60000
  | .leaseRing | .leaseChip | .leaseTime => decide (fld v 3 0 < 8 ∨ fld v 3 0 = 15)
  | .ethCtrl => decide (fld v 5 4 ≠ 3)
  | .ethPfcThr => within (fld v 25 16) 64 448 && decide (fld v 9 0 < fld v 25 16)
  | .ethShadow => within (fld v 15 0) 10 10000
  | .ethClasscLimit => decide (fld v 8 0 ≤ 400)
  | .netMacHi => !bit v 8
  | .netIpv4Mask => within (fld v 5 0) 1 30
  | .netIpv6Pfx => within (fld v 7 0) 1 127
  | .netVlan => !bit v 15 || within (fld v 11 0) 1 4094
  | .resqCtrl => decide (fld v 31 24 ≠ 0) && within (fld v 16 8) 1 256
  | .resqShotMax => within (fld v 15 0) 1 32767
  | .strmCfg =>
    if fld v 6 0 = 0 then !bit v 16 else within (fld v 6 0) 2 64 && decide (fld v 13 8 + fld v 6 0 ≤ 64)
  | .strmLow => decide (fld v 6 0 ≤ 64)
  | .seqRsc => decide (fld v 3 0 = 0)
  | .seqCmd => decide (popCount v 8 ≤ 1)
  | .txCtrl => decide (fld v 5 4 ≠ 3)
  | .txFs => decide (fld v 7 0 ≤ 192)
  | .biasSpan => decide (fld v 21 20 ≠ 3)
  | .biasRate | .biasMismatchThr => decide (fld v 15 0 ≠ 0)
  | .rxCtrl => decide (fld v 5 4 ≠ 3)
  | .rxRawCtrl => within (fld v 15 0) 1 43690
  | .rxRawCmd => decide (popCount v 3 ≤ 1)
  | .laneCfg => decide (fld v 6 4 ≠ 7 ∧ fld v 1 0 ≠ 3)
  | .laneShift => decide (fld v 12 8 ≤ 24)
  | .laneKsel => decide (fld v 31 16 ≠ 0xFFFF ∨ fld v 11 0 = 0)
  | .jugCmd => decide (popCount v 3 ≤ 1)
  | .jugReg => State.jugRegLegal h.j v
  | .trpDomain => decide (fld v 9 8 ≠ 3)
  | .trpXport => decide (fld v 4 0 ≤ 16)
  | .trpImport => decide (fld v 4 0 ≤ 16)
  | .linkCmd => decide (fld v 1 0 ≠ 3)
  | .linkCtrl => decide (fld v 15 8 ≠ 0)
  | .linkReturnMs => within (fld v 15 0) 10 60000
  | .ptpCtrl => decide (fld v 23 16 ≤ 127 ∧ fld v 6 5 ≠ 3 ∧ fld v 2 1 ≠ 3)
  | .ptpInterval => within (fld v 31 24) 2 10 && within8 (fld v 23 16) (-7) 5 && within8 (fld v 15 8) (-3) 4 &&
      within8 (fld v 7 0) (-7) 1
  | .markCtrl => State.ownerLegal (fld v 31 28)
  | .markHost => decide (fld v 1 0 ≠ 3)
  | .tsetOwner => State.ownerLegal (fld v 3 0)
  | .tsetWidth => decide (fld v 15 0 ≠ 0)
  | .tiuCtrl => decide (fld v 28 24 < 28 ∧ fld v 20 16 < 28 ∧ fld v 23 22 < 3 ∧ fld v 15 14 < 3) &&
      (bit v 31 || decide (¬ (fld v 28 24 = fld v 20 16 ∧ fld v 23 22 = fld v 15 14)))
  | .calConf => decide (fld v 15 0 < 57344)
  | .calRot => within (fld v 15 0) 10 60000
  | .calStore => decide (fld v 31 16 = 0 ∨ 10 ≤ fld v 31 16)
  | .txtrim => h.j ≠ 20 || decide (fld v 31 16 = 0)
  | .mtestCfg => decide (64 ≤ fld v 31 16)
  | .scrubCtrl => within (fld v 15 0) 100 60000
  | .ret => decide (fld v 1 0 ≠ 3)
  | .carCmd => decide (fld v 1 0 ≠ 3)
  | .carCfg => decide (fld v 20 16 < 24)
  | .carInteg => decide (fld v 19 0 = 0 ∨ 32 ≤ fld v 19 0)
  | .telemCtrl => decide (fld v 23 8 ≠ 0)
  | .supWin => decide (sfld v 15 0 < sfld v 31 16)
  | .fanCtrl => decide (fld v 31 24 ≤ 100 ∧ fld v 23 16 ≤ 100)
  | .fanCurve => decide (fld v 7 0 < fld v 15 8)
  | .fuseCmd => decide (fld v 31 16 = 0xF05E ∧ (fld v 1 0 = 1 ∨ fld v 1 0 = 2))
  | .ownCmd => decide (popCount v 3 ≤ 1 ∧ fld v 11 8 < 12)
  | .rstCmd => !bit v 0 || decide (fld v 31 16 = 0xF05E)
  | .syncCtrl => decide (4 ≤ fld v 31 8 ∧ fld v 1 0 ≠ 3)
  | .syncCmd => decide (popCount v 3 ≤ 1)
  | _ => true

/-- ADJ_INC is within 1,000 ppm of the nominal value (R380). -/
def adjIncLegal (x : BitVec 64) : Bool := within x.toNat 732274744099 733740759602

namespace State

/-- The check of a stream CFG write (R71): with the other streams and LOW of the ring. -/
def strmCfgCheck (s : State) (n j : Nat) (v : Word) : Err :=
  let u := fld v 6 0
  let b := fld v 13 8
  let clash := (List.range 4).any fun k =>
    k != j && s.strmUnits n k != 0 && decide (b < s.strmBase n k + s.strmUnits n k ∧ s.strmBase n k < b + u)
  (Err.need (u = 0 || (!clash && decide (s.regFld (Reg.strmLow n j) 6 0 ≤ u))) .eRange).orElse (Err.need (!s.ringRuns n) .eState)

/-- HWM, LWM and SHOT_MAX fit together (R80). -/
def marksLegal (hwm lwm shot : Nat) : Bool := decide (lwm < hwm ∧ hwm + shot ≤ 32768)

/-- No write while the ring runs (R179, R186, R247, R249, R304). -/
def whileStopped (s : State) (n : Nat) : Err := Err.need (!s.ringRuns n) .eState

/-- The rule of a register's own block for a write of `v` in the present beat: ranges between fields, and states; `x` is the whole
value when the register is the high word of a 64-bit one. -/
def blockCheck (s : State) (u : Nat) (h : RegHit) (a : Nat) (v : Word) (x : BitVec 64) : Err :=
  let n := h.i
  let j := h.j
  match h.desc.name with
  | .leaseRing | .leaseChip | .leaseTime => s.leaseRegCheck u a v
  | .netCtrl => if bit v 1 then s.storeCheck else .ok
  | .resqCtrl => Err.need (!bit v 0 || (s.session (fld v 6 4)).isOpen) .eState
  | .resqHwm => Err.need (marksLegal (fld v 15 0) (s.regFld (Reg.resqLwm n) 15 0) (s.regFld (Reg.resqShotMax n) 15 0)) .eRange
  | .resqLwm => Err.need (decide (fld v 15 0 < s.regFld (Reg.resqHwm n) 15 0)) .eRange
  | .resqShotMax => (Err.need (decide (s.regFld (Reg.resqHwm n) 15 0 + fld v 15 0 ≤ 32768)) .eRange).orElse (s.whileStopped n)
  | .strmCfg => s.strmCfgCheck n j v
  | .strmLow => Err.need (s.strmUnits n j = 0 || decide (fld v 6 0 ≤ s.strmUnits n j)) .eRange
  | .seqG | .seqLc | .seqSc | .seqPc | .seqRsc | .seqStartCfg | .seqCtrl | .seqUdrVec => s.whileStopped n
  | .seqCmd => s.seqCmdCheck n v
  | .txCtrl => s.txCtrlCheck n j v
  | .txFs => s.txFsCheck n j v
  | .txDelay => s.whileStopped n
  | .txFadeReq => s.fadeReqCheck n j
  | .txCoefA => s.coefCheck n j false
  | .txCoefB => s.coefCheck n j true
  | .voiceFreqLo | .voiceFreqHi | .voicePhase | .voiceAmp => s.whileStopped n
  | .biasCtrl | .biasRate | .biasStep | .biasQclr => s.biasIdle n
  | .biasSpan => s.spanCheck n j v
  | .biasTarget => s.biasTargetCheck n j
  | .rxCtrl => s.rxCtrlCheck n v
  | .rxRawCtrl => s.rawCtrlCheck n j v
  | .rxRawCmd => s.rawCmdCheck n j v
  | .laneCfg | .laneShift | .laneFreqLo | .laneFreqHi | .lanePhase | .lanePdly | .laneKsel => s.whileStopped n
  | .jugCmd => s.jugCmdCheck n v
  | .jugCtrl | .jugVbase | .jugReg => s.jugIdle n
  | .trpDomain => (Err.need (s.domainLegal v) .eRange).orElse (Err.need (!s.trapRuns) .eState)
  | .trpXport => s.xportCheck v
  | .trpBarlat => Err.need (decide (s.minBarlat ≤ fld v 15 0)) .eRange
  | .trpBar => s.trpBarCheck n
  | .trpImport => s.importCheck n v
  | .trpFwd => Err.need (decide (s.topo = 0)) .eState
  | .linkCmd => s.linkCmdCheck n v
  | .adjIncLo | .adjOffNsLo | .adjOffNsHi | .adjOffSub | .adjBeatLo | .adjBeatHi => Err.need (!s.adjPending) .eBusy
  | .adjIncHi => (Err.need (adjIncLegal x) .eRange).orElse (Err.need (!s.adjPending) .eBusy)
  | .adjCtrl => s.adjCtrlCheck v
  | .ptpCtrl => s.ptpCtrlCheck v
  | .markCtrl => s.ownerCheck (s.regFld a 31 28) (fld v 31 28)
  | .markHost => s.markHostCheck n v
  | .tsetOwner => s.ownerCheck (s.regFld a 3 0) (fld v 3 0)
  | .tsetDelay | .tsetWidth => s.tsetCheck n
  | .tiuCtrl => s.tiuCtrlCheck n v
  | .tiuN => Err.need (!s.tiuBusy n) .eState
  | .tiuCmd => s.tiuCmdCheck n v
  | .calApply => s.calApplyCheck v
  | .calStore => s.calStoreCheck v
  | .rxcalInj => s.injCheck n v
  | .rxtrim => s.rxtrimCheck
  | .txtrim => s.txtrimCheck j v
  | .mtestCmd => s.mtestCmdCheck v
  | .mtestCfg => s.mtestCfgCheck v
  | .repmapCtrl => if bit v 0 then s.storeCheck else .ok
  | .ret => s.retCheck n v
  | .carCmd => s.carCmdCheck n v
  | .carCfg => s.carCfgCheck n v
  | .carInteg => s.carIntegCheck n v
  | .hkCtrl => s.hkCtrlCheck v
  | .telemCtrl => s.telemCheck v
  | .fwUpdCmd => s.fwUpdCheck v
  | .fuseCmd => s.fuseCheck v
  | .attCmd => s.attCheck v
  | .attNonce => s.attNonceCheck
  | .ownCmd => s.ownCheck v
  | .ownSrc => ownSrcCheck v
  | .rstCmd => s.rstCheck v
  | .clkCmd => s.relockCheck v
  | .syncCtrl => s.syncCtrlCheck v
  | .syncCmd => s.syncCmdCheck v
  | .syncDbLo | .syncDbHi => s.syncDbCheck
  | _ => .ok

/-- In recovery mode only a plain WRITE to LEASE_*, SESS[s] and the security registers is served (R498). -/
def recoveryCheck (s : State) (a : Nat) (plain : Bool) : Err :=
  Err.need (decide (s.rst.phase ≠ .recovery) || (plain && (decide (0x100 ≤ a ∧ a < 0x1C0) || decide (a / 0x10000 = 8)))) .eState

/-- What WRITE_MASK writes (R47): the bits outside the mask keep what the register reads as. -/
def maskedWord (s : State) (h : RegHit) (a : Nat) (v m : Word) : Word :=
  if m = 0xFFFFFFFF then v else (s.readWord h a &&& ~~~m) ||| (v &&& m)

/-- The code of a write of `v` by session `u` in the present beat, from every check but the contest of R66 (R96, R97, R101, R113);
`lo` is the low word that a high word goes with, none where it has none. -/
def writeCheck (s : State) (u : Nat) (h : RegHit) (a : Nat) (v : Word) (lo : Option Word) (plain : Bool) : Err :=
  let d := h.desc
  Err.first [
    Err.need d.writable .eRo,
    s.leaseCheck u h,
    Err.need (v &&& d.reserved = 0) .eRange,
    Err.need (fieldLegal h v) .eRange,
    s.recoveryCheck a plain,
    Err.need (decide (d.pair ≠ 2) || lo.isSome) .eState,
    (if d.pair = 2 ∧ lo = none then .ok else s.blockCheck u h a v (pairWord (lo.getD 0) v)),
    Err.need (decide (v &&& d.w1s &&& s.readWord h a = 0)) .eBusy]

/-- Whether the value of a write can be judged on receipt of a SCHEDULE (R69): reserved bits and the ranges of the fields. -/
def receiptCheck (h : RegHit) (v : Word) : Err :=
  Err.first [Err.need (v &&& h.desc.reserved = 0) .eRange, Err.need (fieldLegal h v) .eRange,
    (match h.desc.name with | .ownSrc => ownSrcCheck v | _ => .ok)]

end State

end Sys2Proof.Machine
end

