-- ==== Sys2Proof/Machine/Effect.lean ====
section
/-! DEFINITION. What an accepted register write does (R95): the fields coded RW take the value, W1C bits clear flags, and each
register has its block's effect. -/

namespace Sys2Proof.Machine

namespace State

/-- The effect of any write to a register without an effect of its own (R95, R99): fields coded RW take the value, W1C bits clear
their flags. -/
def plainWrite (s : State) (d : RegDesc) (a : Nat) (v : Word) : State :=
  let s := if d.rw = 0 then s else s.setReg a ((s.getReg a &&& ~~~d.rw) ||| (v &&& d.rw))
  if v &&& d.w1c = 0 then s else s.clearFlags a (v &&& d.w1c)

/-- A SEV_FLAGS write: clearing CARMINE also clears CARMINE_FIRST, unless a carmine event came in this beat (R110). -/
def sevFlagsDo (s : State) (v : Word) : State :=
  let s := s.clearFlags Reg.sevFlags (v &&& 7)
  if bit v 2 then
    s.setReg Reg.carmineFirst (match s.carmineNow with
      | some (code, src) => BitVec.ofNat 32 (code.toNat * 2 ^ 16 + src.toNat * 2 ^ 8)
      | none => 0)
  else s

/-- Whether a NET register is one that APPLY brings into force (R91). -/
def inNet (a : Nat) : Bool := decide (0x52000 ≤ a ∧ a < 0x52038)

/-- A NET.CTRL write (R41, R91): APPLY brings the staged values into force in one step, a host-written NET.MAC among them; SAVE
stores them. -/
def netCtrlDo (s : State) (v : Word) : State :=
  let s := if bit v 0 then
      { s with
        netNow := s.regs.filter (fun e => inNet e.1)
        macOwn := s.macOwn || s.macWritten }
    else s
  if bit v 1 then s.startStore .net else s

/-- A RESQ CTRL write (R79): when EN goes from 0 to 1, pushes start at NEXT_INDEX. -/
def resqCtrlDo (s : State) (n : Nat) (v : Word) : State :=
  let on := bit v 0 && !s.resqEn n
  let s := if on then s.restartPush n else s
  s.setReg (Reg.resqCtrl n) v

/-- A stream CFG write (R71-R73): enabling resets the pointers; a larger UNITS of an enabled stream advances its limit. -/
def strmCfgDo (s : State) (n j : Nat) (v : Word) : State :=
  let was := s.strmEn n j
  let old := s.strmUnits n j
  let s := s.setReg (Reg.strmCfg n j) v
  if bit v 16 ∧ ¬ was then s.enableStream n j
  else
    let s := s.setReg (Reg.strmLimit n j) (s.playPtr n j + BitVec.ofNat 32 (s.strmUnits n j))
    if bit v 16 ∧ old < s.strmUnits n j then s.modStrm n j fun t => { t with creditDue := true } else s

/-- A TELEM_CTRL write (R489): the rounds are counted from enabling. -/
def telemDo (s : State) (v : Word) : State :=
  let s := if bit v 0 ∧ ¬ s.regBit Reg.telemCtrl 0 then s.modHk fun h => { h with telemN := 0 } else s
  s.setReg Reg.telemCtrl v

/-- The effect of an accepted write of `v` to the register at `a` by session `u`; `x` is the whole value where the register is the
high word of a 64-bit one, whose words come into force together (R101). -/
def writeDo (s : State) (u : Nat) (h : RegHit) (a : Nat) (v : Word) (x : BitVec 64) : State :=
  let n := h.i
  let j := h.j
  match h.desc.name with
  | .leaseRing | .leaseChip | .leaseTime => s.leaseRegDo u a v
  | .ethCtrl => s.ethCtrlDo n v
  | .netCtrl => s.netCtrlDo v
  | .netMacHi => { s.setReg64 (a - 4) x with macWritten := true }
  | .resqCtrl => s.resqCtrlDo n v
  | .strmCfg => s.strmCfgDo n j v
  | .sevFlags => s.sevFlagsDo v
  | .seqPc => (s.plainWrite h.desc a v).setReg (Reg.seqRsc n) 0
  | .seqCmd => s.seqCmdDo n v
  | .txCtrl => s.txCtrlDo n j v
  | .txFs => s.txFsDo n j v
  | .txFadeLen => (s.plainWrite h.desc a v).stirFades n j
  | .txFadeReq => s.fadeReqDo n j (bit v 0)
  | .voiceFreqHi => s.hostFreq n j x
  | .biasSpan => s.spanDo n j v
  | .biasTarget => s.biasEntry n j (biasCode v)
  | .biasClear => s.clearDo n j v
  | .biasQclr => if bit v 0 then s.biasStop n j else s
  | .rxCtrl => s.rxCtrlDo n j v
  | .rxRawCmd => s.rawCmdDo n j v
  | .laneFreqHi => s.hostLaneFreq n j x
  | .jugCmd => s.jugCmdDo n v
  | .jugReg => s.setJReg n j v
  | .trpAbort => let s := s.plainWrite h.desc a v; if bit v 31 then s.sendAbort else s
  | .trpXport | .trpImport => s.trapWrite a v
  | .linkCmd => s.linkCmdDo n v
  | .snapCmd => if bit v 0 then s.snapDo else s
  | .adjCtrl => s.adjCtrlDo v
  | .ptpCtrl => s.ptpCtrlDo v
  | .trigLclr => s.clearLatch n v
  | .markHost => s.markAt n (fld v 6 4) (fld v 1 0) s.beat
  | .tiuCmd => s.tiuCmdDo n v
  | .calCtrl => s.calCtrlDo v
  | .calApply => s.calApplyDo v
  | .calStore => s.calStoreDo v
  | .rxcalInj => s.injDo n v
  | .rxtrim => s.setRxTrim n j v
  | .txtrim => s.txtrimDo n j v
  | .mtestCmd => s.mtestCmdDo v
  | .mtestCfg => s.mtestCfgDo v
  | .repmapCtrl => if bit v 0 then s.startStore .rep else s
  | .ret => s.retDo n v
  | .carCmd => s.carCmdDo n v
  | .telemCtrl => s.telemDo v
  | .fwUpdCmd => s.fwUpdDo v
  | .fuseCmd => s.fuseDo v
  | .attCmd => s.attDo v
  | .ownCmd => s.ownDo v
  | .rstCmd => s.rstDo v
  | .clkCmd => s.relockDo v
  | .syncCmd => s.syncCmdDo v
  | _ => if h.desc.pair = 2 then s.setReg64 (a - 4) x else s.plainWrite h.desc a v

/-- A write to a register from port `p` in the present beat loses the contest of R66: against a scheduled write of this beat, or,
from port 1, against a write from port 0. -/
def lostWrite (s : State) (p a : Nat) : Bool :=
  decide ((a, 2) ∈ s.beatWrites ∨ (p = 1 ∧ (a, 0) ∈ s.beatWrites)) || s.sched.any fun e => decide (e.addr = a ∧ e.target ≤ s.beat)

/-- Notes a write of this beat (R66). -/
def noteWrite (s : State) (p a : Nat) : State :=
  if (a, p) ∈ s.beatWrites then s else { s with beatWrites := (a, p) :: s.beatWrites }

/-- An immediate write by session `u` on port `p` (R47, R52, R95, R96, R101, R112, R113). The write of a low word is staged for the
session; any other accepted write of the session ends the stage, and a rejected one leaves it (log entry 61). -/
def hostWriteReg (s : State) (p u a : Nat) (v m : Word) (plain : Bool) : Err × State :=
  let st := (s.session u).stage
  let c := if st.isSome then s.modSess u fun x => { x with stage := none } else s
  match findAt a with
  | .error e => (e, s)
  | .ok h =>
    let w := c.maskedWord h a v m
    let lo := if h.desc.pair = 2 then st.bind fun x => if x.1 + 4 = a then some x.2 else none else none
    let e := Err.first [c.writeCheck u h a w lo plain, Err.need (!c.lostWrite p a) .eConflict]
    if e ≠ .ok then (e, s)
    else if h.desc.pair = 1 then (.ok, (c.modSess u fun x => { x with stage := some (a, w) }).noteWrite p a)
    else (.ok, (c.writeDo u h a w (pairWord (lo.getD 0) w)).noteWrite p a)

end State

end Sys2Proof.Machine
end

