-- ==== Sys2Proof/Machine/Block.lean ====
section
/-! DEFINITION. Block operations on the addressed memories: where a block lies, when it is allowed, its meetings with ring
accesses of exchange memory, and its effect (R48, R67, R435-R437, R440, R444-R446, R467, R468, R504). -/

namespace Sys2Proof.Machine

/-- How a word written to exchange memory meets the old one (R446): plain, or under the bit-set or the bit-clear address range. -/
inductive Merge where
  | plain | bitSet | bitClear
  deriving DecidableEq, Repr

/-- The word that a write leaves (R446). -/
def Merge.of (k : Merge) (old v : Word) : Word :=
  match k with
  | .plain => v
  | .bitSet => old ||| v
  | .bitClear => old &&& ~~~v

/-- The memory that a block address names: how it writes, its byte address there, code, instance and offset. -/
structure BlockHit where
  how : Merge
  addr : Nat
  code : Nat
  inst : Nat
  off : Nat
  deriving DecidableEq, Repr

/-- The address of the exchange memory under its address ranges (R31, R446). -/
def unmerge (a : Nat) : Merge × Nat :=
  if 0x11000000 ≤ a ∧ a < 0x11400000 then (.bitSet, a - 0x1000000)
  else if 0x12000000 ≤ a ∧ a < 0x12400000 then (.bitClear, a - 0x2000000)
  else (.plain, a)

/-- Bytes of a memory instance that a block may reach: all but the accumulators of Carousel memory (R467). -/
def blockSize (code : Nat) : Nat := if code = 10 then 0x34000 else memSize code

/-- A block of `len` bytes at `a` lies in one memory and begins at a multiple of 4 (R48, R467). -/
def findBlock (a len : Nat) : Except Err BlockHit :=
  let (how, b) := unmerge a
  match memAt b with
  | some (c, i, o) =>
    if o < blockSize c ∧ o + len ≤ blockSize c then
      if a % 4 = 0 then .ok { how := how, addr := b, code := c, inst := i, off := o } else .error .eAlign
    else .error .eAddr
  | none => .error .eAddr

/-- Whether `len` bytes from `off` meet `size` bytes from `lo`. -/
def meets (off len lo size : Nat) : Bool := decide (off < lo + size ∧ lo < off + len)

namespace State

/-- A block operation meets a raw buffer in one of the given states (R302). -/
def meetsRaw (s : State) (h : BlockHit) (len : Nat) (bad : CapState → Bool) : Bool :=
  decide (h.code = 8) && (List.range 2).any fun r => meets h.off len (0x40000 * r) 0x40000 && bad (s.rx h.inst r).raw

/-- A block operation meets units of an enabled stream (R71). -/
def meetsStream (s : State) (h : BlockHit) (len : Nat) : Bool :=
  decide (h.code = 1) && (List.range 4).any fun j =>
    s.strmEn h.inst j && meets h.off len (0x1C0000 + 0x1000 * s.strmBase h.inst j) (0x1000 * s.strmUnits h.inst j)

/-- A block operation meets a result buffer of a slot that is not IDLE (R468). -/
def meetsSlot (s : State) (h : BlockHit) (len : Nat) : Bool :=
  decide (h.code = 10) && (List.range 2).any fun j => meets h.off len (0x18000 * j) 0x18000 && s.carBusy (2 * h.inst + j)

/-- A block operation meets the result buffer that a slot is writing (R468). -/
def meetsSpectrum (s : State) (h : BlockHit) (len : Nat) : Bool :=
  decide (h.code = 10) && (List.range 2).any fun j =>
    match s.carWriting (2 * h.inst + j) with
    | some x => meets h.off len (0xC000 * (2 * j + x.1 % 2)) 0xC000
    | none => false

/-- In recovery mode block operations reach exchange memory only (R498). -/
def blockRecovery (s : State) (h : BlockHit) : Err := Err.need (decide (s.rst.phase ≠ .recovery ∨ h.code = 9)) .eState

/-- The memory takes host accesses: it is on, and no destructive test runs on it (R449, R455). -/
def blockServed (s : State) (h : BlockHit) : Err := Err.need (s.instOn h.code h.inst && !s.destructOn h.code h.inst) .eState

/-- A block holds 1 to 2,048 words (R46); another COUNT gives E_RANGE (DESIGN CHOICE, log entry 77: R46 names no code for it). -/
def blockCount (k : Nat) : Err := Err.need (decide (1 ≤ k ∧ k ≤ 2048)) .eRange

/-- The check of a BLOCK_READ (R302, R435, R468). -/
def blockReadCheck (s : State) (h : BlockHit) (k : Nat) : Err :=
  Err.first [blockCount k, s.blockRecovery h, s.blockServed h, Err.need (!s.meetsRaw h (4 * k) fun x => x == .capturing) .eState,
    Err.need (!s.meetsSpectrum h (4 * k)) .eBusy]

/-- The lease that a BLOCK_WRITE needs (R64, R468). -/
def blockLease (s : State) (u : Nat) (h : BlockHit) : Err :=
  if h.code = 9 then .ok
  else Err.need (s.leaseOk (if h.code = 10 then Reg.leaseChip else Reg.leaseRing h.inst) u) .eLease

/-- The states in which a memory takes a BLOCK_WRITE (R71, R121, R302, R339, R435, R468). -/
def blockWriteState (s : State) (h : BlockHit) (len : Nat) : Bool :=
  match h.code with
  | 0 => !s.ringRuns h.inst
  | 1 => !s.meetsStream h len
  | 4 => !s.ringRuns h.inst && decide (s.resqFill h.inst = 0)
  | 5 => decide ((s.jug h.inst).st ≠ .running)
  | 8 => !s.meetsRaw h len fun x => x != .idle
  | 10 => !s.meetsSlot h len
  | _ => true

/-- The check of a BLOCK_WRITE (R113, R435, R504). -/
def blockWriteCheck (s : State) (u : Nat) (h : BlockHit) (k : Nat) : Err :=
  Err.first [s.blockLease u h, blockCount k, s.blockRecovery h, s.blockServed h, Err.need (s.blockWriteState h (4 * k)) .eState,
    Err.need (decide (8 < h.code) || !s.checkReads h.code h.inst) .eBusy]

/-- A port-B request for array word `w` of exchange memory receives BUSY in this beat (R444). -/
def portBBusy (s : State) (wr : Bool) (w : Nat) : Bool := s.memu.portA.any fun p => p.2.1 == w && (wr || p.2.2)

/-- Adds 1 to XM_RETRIES, saturating (R445, R457). -/
def addRetry (s : State) : State :=
  s.setReg Reg.xmRetries (BitVec.ofNat 32 (min (2 ^ 32 - 1) ((s.getReg Reg.xmRetries).toNat + 1)))

/-- The array words of exchange memory that a block meets, which are its port-B requests (R442). -/
def portBWords (h : BlockHit) (k : Nat) : List Nat := (List.range ((h.off + 4 * k + 31) / 32 - h.off / 32)).map (h.off / 32 + ·)

/-- Memories that a ring reads or writes while the host writes them: a host write shows with the end of its beat (R314, R437). -/
def lateMem (code : Nat) : Bool := decide (code = 1 ∨ code = 2 ∨ code = 3 ∨ code = 6 ∨ code = 7)

/-- The host writes of the beat take effect (R314, R437); one into a borrowed window waits until the window is released (R451). -/
def applyLate (s : State) : State :=
  let wait := fun w : Nat × List Byte => s.meetsWindow w.1 w.2.length
  ((s.memu.late.filter fun w => !wait w).foldl (fun s w => s.store w.1 w.2) s).modMemu fun m => { m with late := m.late.filter wait }

/-- A host write of bytes: at once, or with the end of the beat where a ring may meet them (R314, R437). -/
def hostStore (s : State) (code a : Nat) (bs : List Byte) : State :=
  if lateMem code then s.modMemu fun m => { m with late := m.late ++ [(a, bs)] } else s.store a bs

/-- Whether the host waits for a memory in this beat: for the release of a borrowed window (R451); in a ring memory for a beat in which
its bank is free, at most 7 beats (R437), and with a read for the writes that land with the end of the beat (DEDUCED, log entry 28). -/
def hostWaits (s : State) (h : BlockHit) (d : Dma) : Bool :=
  s.meetsWindow h.addr (4 * d.count) || (decide (h.code ≤ 8 ∧ s.beat < d.since + 7) && !s.bankFree h.addr) ||
    (!d.write && s.memu.late.any fun w => meets w.1 w.2.length h.addr (4 * d.count))

/-- BLOCK_READ of `k` words of a memory that serves the host (R48, R437, R440). -/
def blockRead (s : State) (h : BlockHit) (k : Nat) : List Byte × State := (s.load h.addr (4 * k), s.eccRead h.addr (4 * k))

/-- What a write of a memory does beside its bytes: a program memory's ring or Juggler becomes IDLE (R187, R339), and its OK bit
clears (R504). -/
def programWritten (s : State) (h : BlockHit) : State :=
  if h.code = 0 then (s.instrWritten h.inst).unsign 0 h.inst
  else if h.code = 5 then
    (if (s.jug h.inst).st = .fault then s.modJug h.inst fun j => { j with st := .idle } else s).unsign 5 h.inst
  else s

/-- The words that a block leaves in memory (R446). -/
def mergeWords (s : State) (h : BlockHit) (ws : List Word) : List Word :=
  (List.range ws.length).zipWith (fun i w => h.how.of (s.loadWord (h.addr + 4 * i)) w) ws

/-- A word that reads 0 (R298, R467): the last of a raw-capture buffer, and those behind the bins of a Carousel result buffer. -/
def zeroTail (a : Nat) : Bool :=
  ((List.range 12).any fun n => (List.range 2).any fun r => a == rawAddr n r + 0x3FFFC) ||
    (decide (0x30000000 ≤ a ∧ a < 0x30200000 ∧ a % 0x80000 < 0x30000) && decide (40992 ≤ a % 0x80000 % 0xC000))

/-- BLOCK_WRITE of a memory that serves the host without a conflict (R48, R298, R437, R440, R467). -/
def blockWrite (s : State) (h : BlockHit) (ws : List Word) : State :=
  let ws := ws.zipIdx.map fun p => if zeroTail (h.addr + 4 * p.2) then 0 else p.1
  (s.hostStore h.code h.addr (ofWords ws)).programWritten h

/-! ### The DMA engine in exchange memory (R67, R442, R444-R446) -/

/-- The part of array word `w` that a block of `k` words meets: its byte address and its length in words. -/
def partOf (h : BlockHit) (k w : Nat) : Nat × Nat :=
  let lo := max h.addr (0x10000000 + 32 * w)
  (lo, (min (h.addr + 4 * k) (0x10000000 + 32 * w + 32) - lo) / 4)

/-- Array word `w` of an operation is served (R440, R444-R446): it is read, and a write merges its data into it, in one
read-modify-write. -/
def serveWord (s : State) (d : Dma) (h : BlockHit) (w : Nat) : Dma × State :=
  let (a, k) := partOf h d.count w
  let old := s.load a (4 * k)
  let d' := { d with got := d.got ++ [(w, old)] }
  if d.write then (d', s.storeRead a (ofWords (s.mergeWords { h with addr := a } ((d.words.drop ((a - h.addr) / 4)).take k))))
  else (d', s.eccRead a (4 * k))

/-- What one beat of the DMA engine has done: the operation, the state, and whether a word has received BUSY after its eighth
repetition (R445). -/
structure DmaBeat where
  op : Dma
  st : State
  dead : Bool := false
  deriving DecidableEq, Repr

/-- One waiting array word and how often it has received BUSY: presented when its bank is free (R442) and no borrowed window holds it
(R451), repeated after BUSY up to 8 times (R445). -/
def dmaWord (h : BlockHit) (x : DmaBeat) (q : Nat × Nat) : DmaBeat :=
  if x.dead ∨ q.1 % 16 ∈ x.st.memu.portB ∨ x.st.meetsWindow (0x10000000 + 32 * q.1) 32 then { x with op := { x.op with todo := x.op.todo ++ [q] } }
  else
    let s := (if 0 < q.2 then x.st.addRetry else x.st).modMemu fun m => { m with portB := (q.1 % 16) :: m.portB }
    if s.portBBusy x.op.write q.1 then
      { x with op := { x.op with todo := x.op.todo ++ [(q.1, q.2 + 1)] }, st := s, dead := decide (q.2 = 8) }
    else
      let (d, s) := s.serveWord x.op h q.1
      { x with op := d, st := s }

/-- What an operation that ends with E_BUSY has written is restored (R445). -/
def dmaRestore (s : State) (d : Dma) (h : BlockHit) : State :=
  if d.write then d.got.foldl (fun s w => s.store (partOf h d.count w.1).1 w.2) s else s

/-- The bytes that a BLOCK_READ of exchange memory has read, in address order. -/
def dmaBody (d : Dma) (h : BlockHit) : List Byte :=
  (portBWords h d.count).flatMap fun w => ((d.got.find? fun e => e.1 = w).map (·.2)).getD []

end State

end Sys2Proof.Machine
end

