-- ==== Sys2Proof/Machine/Schedule.lean ====
section
/-! DEFINITION. Scheduled writes: receipt, cancelling, and what happens at the target beat (R47, R66, R68-R70, R102). -/

namespace Sys2Proof.Machine

/-- An entry is for a register and a target beat of a session (R47, R102). -/
def Sched.isFor (e : Sched) (u a t : Nat) : Bool := decide (e.sess = u ∧ e.addr = a ∧ e.target = t)

namespace State

/-- The entry of a session for a register and a target beat. -/
def schedFor (s : State) (u a t : Nat) : Option Sched := s.sched.find? fun e => e.isFor u a t

/-- The handle after this one (R69): 0 is left out. -/
def handleAfter (h : BitVec 16) : BitVec 16 := if h = 0xFFFF then 1 else h + 1

/-- The handle that the next accepted entry gets (R69): one that no pending entry has. -/
def freshHandle (s : State) : BitVec 16 :=
  (List.range 256).foldl (fun k _ => if s.sched.any fun e => e.handle == k then handleAfter k else k) s.nextHandle

/-- The value of a 64-bit register that goes with a low word already accepted (R69, R102): its range as a whole. -/
def pairRange (s : State) (u : Nat) (h : RegHit) (a t : Nat) (v : Word) : Err :=
  match h.desc.name, s.schedFor u (a - 4) t with
  | .adjIncHi, some lo => Err.need (adjIncLegal (pairWord lo.value v)) .eRange
  | _, _ => .ok

/-- The check of a SCHEDULE on receipt (R66, R69, R102, R498). -/
def scheduleCheck (s : State) (u a t : Nat) (h : RegHit) (v : Word) : Err :=
  Err.first [
    Err.need h.desc.writable .eRo,
    s.leaseCheck u h,
    Err.need (decide (s.beat + 1500 ≤ t)) .eLate,
    Err.need (decide (t ≤ s.beat + 2 ^ 32)) .eRange,
    receiptCheck h v,
    s.pairRange u h a t v,
    Err.need (decide (s.rst.phase ≠ .recovery)) .eState,
    Err.need (decide (h.desc.pair ≠ 2) || (s.schedFor u (a - 4) t).isSome) .eState,
    Err.need (decide (s.sched.length < 256)) .eCapacity,
    Err.need (decide ((s.sched.filter fun e => decide (e.target = t)).length < 16)) .eCapacity,
    Err.need (!s.sched.any fun e => decide (e.addr = a ∧ e.target = t)) .eConflict]

/-- SCHEDULE by session `u` (R69): the code, the handle, and the state; with `cancel` it cancels (R47). -/
def schedule (s : State) (u : Nat) (cancel : Bool) (a t : Nat) (v m : Word) : Err × BitVec 16 × State :=
  match findAt a with
  | .error e => (e, 0, s)
  | .ok h =>
    if cancel then
      if (s.schedFor u a t).isSome then (.ok, 0, { s with sched := s.sched.filter fun e => !e.isFor u a t }) else (.eState, 0, s)
    else
      let e := s.scheduleCheck u a t h (s.maskedWord h a v m)
      if e ≠ .ok then (e, 0, s)
      else
        let k := s.freshHandle
        (.ok, k, { s with
          nextHandle := handleAfter k
          sched := s.sched ++ [{ handle := k, sess := u, addr := a, target := t, value := v, mask := m }] })

/-- A scheduled write is not applied (R70). -/
def schedDrop (s : State) (e : Sched) (c : Err) : State :=
  (s.raiseFlag Reg.schedFlags 0).raiseEvent 0x0106 0x05 (BitVec.ofNat 32 (e.handle.toNat + 65536 * c.code.toNat))

/-- A scheduled write is checked again and applied or dropped (R70, R101, R102); `lo` is the entry of the low word. -/
def schedWrite (s : State) (e : Sched) (lo : Option Sched) : State :=
  match findAt e.addr with
  | .error c => s.schedDrop e c
  | .ok h =>
    let w := s.maskedWord h e.addr e.value e.mask
    let l := match lo, findAt (e.addr - 4) with
      | some x, .ok g => some (s.maskedWord g x.addr x.value x.mask)
      | _, _ => none
    let c := s.writeCheck e.sess h e.addr w l (e.mask = 0xFFFFFFFF)
    if c = .ok then s.writeDo e.sess h e.addr w (pairWord (l.getD 0) w) else s.schedDrop e c

/-- The turn of a scheduled write (R70, R102): a low word comes into force with its high word, and has no effect without one.
A high word whose present low word was accepted after it, the one before having been cancelled, does not pair with it: its turn comes
first, without a low word, and both are dropped with E_STATE (DESIGN CHOICE, log entry 86). -/
def schedTurn (s : State) (e : Sched) : State :=
  let s := ({ s with sched := s.sched.filter fun x => decide (x.handle ≠ e.handle) } : State).noteWrite 2 e.addr
  match findAt e.addr with
  | .ok h =>
    if h.desc.pair = 1 then
      match s.schedFor e.sess (e.addr + 4) e.target with
      | some hi =>
        let s := ({ s with sched := s.sched.filter fun x => decide (x.handle ≠ hi.handle) } : State).noteWrite 2 hi.addr
        s.schedWrite hi (some e)
      | none => s.schedDrop e .eState
    else s.schedWrite e none
  | .error _ => s.schedWrite e none

/-- The slot that an entry starts, if it is a Carousel START (R459). -/
def startsSlot (e : Sched) : Option Nat :=
  if bit (e.value &&& e.mask) 0 then (List.range 8).find? fun i => e.addr == Reg.carCmd i else none

/-- Puts the elements of `ys` one after another into the places of `xs` that satisfy `p`. -/
def refill {α : Type} (p : α → Bool) : List α → List α → List α
  | x :: xs, y :: ys => if p x then y :: refill p xs ys else x :: refill p xs (y :: ys)
  | xs, _ => xs

/-- The scheduled writes whose target beat has come, in order of receipt, but Carousel STARTs among themselves in the order of their
slots (R459). -/
def schedDue (s : State) : List (BitVec 16) :=
  let l := s.sched.filter fun e => decide (e.target ≤ s.beat)
  (refill (fun e => (startsSlot e).isSome) l ((List.range 8).flatMap fun i => l.filter fun e => startsSlot e == some i)).map (·.handle)

end State

/-- SCHEDULE_APPLY: at its target beat a scheduled write is checked again and applied (R70). Nothing happens unless an entry with
this handle is due (log entry 4). -/
def execScheduleApply (h : BitVec 16) (s : State) : Res :=
  .next <| match s.sched.find? fun e => decide (e.handle = h ∧ e.target ≤ s.beat) with
    | some e => s.schedTurn e
    | none => s

end Sys2Proof.Machine
end

