-- ==== Sys2Proof/Machine/HostOps.lean ====
section
/-! DEFINITION. The operations of a request, each with its answer (R43, R46-R48, R52-R54, R57, R65, R69, R72, R73, R78), and the
commands that are one such operation. -/

namespace Sys2Proof.Machine

/-- The answer to an operation: OK carries a body, an error none (R45, R46). -/
def opResp (op : Nat) (a : Word) (e : Err) (count : Nat) (body : List Byte) : OpResp :=
  { op := BitVec.ofNat 8 op, addr := a, status := e.code, count := count, body := if e = .ok then body else [] }

/-- The selector of a stream (R46). -/
def selector (n j : Nat) : Word := BitVec.ofNat 32 (n + 256 * j)

namespace State

/-- In recovery mode an operation other than those of R498 gives E_STATE. -/
def notRecovery (s : State) : Err := Err.need (decide (s.rst.phase ≠ .recovery)) .eState

/-- READ (R46, R100). -/
def opRead (s : State) (u : Nat) (a : Word) : OpResp × State :=
  let (e, v, t) := s.readReg u a.toNat
  (opResp 0x01 a e 1 (leBytes 4 v.toNat), t)

/-- WRITE (R46, R96). -/
def opWrite (s : State) (p u : Nat) (a v : Word) : OpResp × State :=
  let (e, t) := s.hostWriteReg p u a.toNat v 0xFFFFFFFF true
  (opResp 0x02 a e 1 [], t)

/-- WRITE_MASK (R47). -/
def opWriteMask (s : State) (p u : Nat) (a v m : Word) : OpResp × State :=
  let (e, t) := s.hostWriteReg p u a.toNat v m false
  (opResp 0x03 a e 1 [], t)

/-- The response block of a block operation. -/
def dmaResp (d : Dma) (e : Err) (body : List Byte) : OpResp := opResp (if d.write then 0x05 else 0x04) d.addr e d.count body

/-- A block operation on a ring or Carousel memory that has passed its checks (R48, R437, R451): its response, or none while it waits. -/
def blockServe (s : State) (h : BlockHit) (d : Dma) : Option OpResp × State :=
  if s.hostWaits h d then (none, s.modMemu fun m => { m with dma := d :: m.dma })
  else if d.write then (some (dmaResp d .ok []), s.blockWrite h d.words)
  else
    let (bs, s) := s.blockRead h d.count
    (some (dmaResp d .ok bs), s)

/-- A block operation whose turn has come (R48, R67): its response, or none when the DMA engine holds it. -/
def blockStart (s : State) (d : Dma) : Option OpResp × State :=
  match findBlock d.addr.toNat (4 * d.count) with
  | .error e => (some (dmaResp d e []), s)
  | .ok h =>
    let e := if d.write then s.blockWriteCheck d.sess h d.count else s.blockReadCheck h d.count
    if e ≠ .ok then (some (dmaResp d e []), s)
    else if h.code = 9 then
      let d := { d with begun := true, todo := (portBWords h d.count).map fun w => (w, 0) }
      (none, s.modMemu fun m => { m with dma := d :: m.dma })
    else s.blockServe h { d with begun := true, since := s.beat }

/-- A block operation arrives (R67): behind those that the DMA engine holds. -/
def blockOp (s : State) (d : Dma) : Option OpResp × State :=
  if s.memu.dma.isEmpty then s.blockStart d else (none, s.modMemu fun m => { m with dma := m.dma ++ [d] })

/-- A block operation is done: its answer goes to its frame, or stands in `resp`. -/
def blockDone (s : State) (d : Dma) (r : OpResp) : State :=
  match d.frame with
  | some c => { s with resume := s.resume ++ [{ c with resp := c.resp ++ [r] }] }
  | none => { s with resp := [r] }

/-- One beat of an operation in exchange memory (R442, R445): as many of its array words are served as can be. The second part says
whether it is done. -/
def dmaServe (s : State) (h : BlockHit) (d : Dma) : State × Bool :=
  let x := d.todo.foldl (dmaWord h) { op := { d with todo := [] }, st := s }
  if x.dead then (((x.st.dmaRestore x.op h).raiseFlag Reg.memFlags 4).blockDone d (dmaResp d .eBusy []), true)
  else if x.op.todo.isEmpty then (x.st.blockDone d (dmaResp d .ok (if d.write then [] else dmaBody x.op h)), true)
  else (x.st.modMemu fun m => { m with dma := x.op :: m.dma }, false)

/-- One beat of the oldest operation (R67, R442, R445, R451), which the DMA engine no longer holds in `s`. The second part says whether
the engine goes on. -/
def dmaOne (s : State) (d : Dma) : State × Bool :=
  if ¬ d.begun then
    match s.blockStart d with
    | (some r, u) => (u.blockDone d r, true)
    | (none, u) => (u, true)
  else
    match findBlock d.addr.toNat (4 * d.count) with
    | .error _ => (s, false)
    | .ok h =>
      if h.code = 9 then s.dmaServe h d
      else
        match s.blockServe h d with
        | (some r, u) => (u.blockDone d r, true)
        | (none, u) => (u, false)

/-- The DMA engine in one beat (R67): operations in order, each as far as it is served. -/
def dmaRun : Nat → State → State
  | 0, s => s
  | k + 1, s =>
    match s.memu.dma with
    | [] => s
    | d :: t =>
      match (s.modMemu fun m => { m with dma := t }).dmaOne d with
      | (u, true) => dmaRun k u
      | (u, false) => u

/-- The DMA engine at the end of a beat, when port A has served the rings (R442, R444). -/
def dmaBeat (s : State) : State := dmaRun (2 * s.memu.dma.length + 1) s

/-- SCHEDULE (R69): an accepted one returns its handle. -/
def opSchedule (s : State) (u : Nat) (cancel : Bool) (a : Word) (t : BitVec 64) (v m : Word) : OpResp × State :=
  let (e, h, x) := s.schedule u cancel a.toNat t.toNat v m
  (opResp 0x06 a e h.toNat [], x)

/-- STREAM_DATA (R51, R64, R72, R455). -/
def opStreamData (s : State) (p u n j : Nat) (i : Word) (ws : List Word) : OpResp × State :=
  let e := Err.first [Err.need (s.jumbo p && decide (ws.length = 1024)) .eFormat, Err.need (decide (n < 12 ∧ j < 4)) .eRange,
    Err.need (decide (12 ≤ n) || s.leaseOk (Reg.leaseRing n) u) .eLease, s.notRecovery,
    Err.need (s.memOn n && !s.destructOn 1 n) .eState]
  if e ≠ .ok then (opResp 0x07 (selector n j) e ws.length [], s)
  else
    let (e, t) := s.streamUnit n j i ws
    (opResp 0x07 (selector n j) e ws.length [], t)

/-- A CREDIT query returns the present limit (R73). -/
def opCredit (s : State) (n j : Nat) : OpResp × State :=
  let e := Err.first [Err.need (decide (n < 12 ∧ j < 4)) .eRange, s.notRecovery]
  (opResp 0x08 (selector n j) e 0 (leBytes 4 (s.creditLimit n j).toNat), s)

/-- RESULT_ACK (R78, R79). -/
def opResultAck (s : State) (u n : Nat) (i : Word) : OpResp × State :=
  let a := BitVec.ofNat 32 n
  if 12 ≤ n ∨ s.notRecovery = .ok then
    let (e, t) := s.resultAck n u i
    (opResp 0x0D a e 0 [], t)
  else (opResp 0x0D a (Err.first [s.ackCheck n u i, .eState]) 0 [], s)

/-- SESSION_OPEN on port `p` (R53). -/
def opOpen (s : State) (p : Nat) (a : PushAddr) (seq timeout ctrl : Word) : OpResp × State :=
  let e := s.openCheck timeout ctrl
  (opResp 0x10 0 e 0 [], if e = .ok then (s.openSession p a seq timeout ctrl).2 else s)

/-- SESSION_CLOSE (R57). -/
def opClose (s : State) (u : Nat) : OpResp × State := (opResp 0x11 0 .ok 0 [], s.closeSession u)

/-- The 64 bytes of a DISCOVER answer on port `p` (R43). -/
def discoverBody (s : State) (p : Nat) : List Byte :=
  leBytes 4 (s.getReg Reg.ident).toNat ++ leBytes 4 (s.getReg Reg.revision).toNat ++ leBytes 8 s.sec.fuses.serial.toNat ++
    leBytes 4 s.sec.img.fwVer.toNat ++ leBytes 4 (s.getReg Reg.mcodeVer).toNat ++
    leBytes 1 s.rst.strap.toNat ++ leBytes 1 s.rst.bootMode.toNat ++ leBytes 1 p ++
    leBytes 1 (s.sess.filter (·.isOpen)).length ++ beBytes 6 (s.portMac p).toNat ++ leBytes 2 0 ++
    beBytes 4 s.ipv4.toNat ++ beBytes 16 s.ipv6.toNat ++ leBytes 8 0

/-- DISCOVER (R43). -/
def opDiscover (s : State) (p : Nat) : OpResp × State := (opResp 0x12 0 .ok 0 (s.discoverBody p), s)

/-- The beat before which an answer to DISCOVER does not leave (R43). -/
def discoverAt (s : State) : Nat := s.beat + s.sec.fuses.serial.toNat % 16 * 1500000

/-- One operation of an accepted frame of session `u` on port `p` (R50, R57): its answer stands in `resp`. A session that is not
open gets E_AUTH, and a port that answers nothing takes nothing. -/
def hostOp (s : State) (p u : Nat) (f : State → OpResp × State) : State :=
  if ¬ s.portAnswers p then s
  else if ¬ (s.session u).isOpen then { s with resp := [opResp 0 0 .eAuth 0 []] }
  else
    let r := f { s.noteFrame u p none with curPort := p }
    { r.2 with resp := [r.1] }

/-- A block operation of an accepted frame, as `hostOp`: its answer stands in `resp` when it is done (R67). -/
def hostBlock (s : State) (p u : Nat) (d : Dma) : State :=
  if ¬ s.portAnswers p then s
  else if ¬ (s.session u).isOpen then { s with resp := [opResp 0 0 .eAuth 0 []] }
  else
    let r := State.blockOp { s.noteFrame u p none with curPort := p } { d with port := p, sess := u }
    { r.2 with resp := r.1.toList }

/-- A register write of the host as a command of its own (R96). -/
def hostWrite (s : State) (p u a : Nat) (v : Word) : State := s.hostOp p u fun s => s.opWrite p u (BitVec.ofNat 32 a) v

end State

/-- READ: the value of a register (R46, R100). -/
def execRead (p : Port) (u : Sid) (a : Word) (s : State) : Res := .next <| s.hostOp p u fun s => s.opRead u a

/-- WRITE: one access under the access codes (R95, R96). -/
def execWrite (p : Port) (u : Sid) (a v : Word) (s : State) : Res := .next <| s.hostOp p u fun s => s.opWrite p u a v

/-- WRITE_MASK: (old & ~mask) | (value & mask) in one access (R47). -/
def execWriteMask (p : Port) (u : Sid) (a v m : Word) (s : State) : Res := .next <| s.hostOp p u fun s => s.opWriteMask p u a v m

/-- BLOCK_READ: 1 to 2,048 words of memory (R48). -/
def execBlockRead (p : Port) (u : Sid) (a : Word) (k : Nat) (s : State) : Res :=
  .next <| s.hostBlock p u { addr := a, count := k }

/-- BLOCK_WRITE: 1 to 2,048 words of memory (R48). -/
def execBlockWrite (p : Port) (u : Sid) (a : Word) (ws : List Word) (s : State) : Res :=
  .next <| s.hostBlock p u { write := true, addr := a, count := ws.length, words := ws }

/-- SCHEDULE: enters or cancels a write for a target beat (R47, R69). -/
def execSchedule (p : Port) (u : Sid) (cancel : Bool) (a : Word) (t : BitVec 64) (v m : Word) (s : State) : Res :=
  .next <| s.hostOp p u fun s => s.opSchedule u cancel a t v m

/-- STREAM_DATA: one unit of a stream (R72). -/
def execStreamData (p : Port) (u : Sid) (n j : Nat) (i : Word) (ws : List Word) (s : State) : Res :=
  .next <| s.hostOp p u fun s => s.opStreamData p u n j i ws

/-- CREDIT: the present credit limit of a stream (R73). -/
def execCredit (p : Port) (u : Sid) (n j : Nat) (s : State) : Res := .next <| s.hostOp p u fun s => s.opCredit n j

/-- RESULT_ACK: frees the records below an index (R78, R79). -/
def execResultAck (p : Port) (u : Sid) (n : Nat) (i : Word) (s : State) : Res :=
  .next <| s.hostOp p u fun s => s.opResultAck u n i

/-- SESSION_OPEN: a session with a random tag, its timeout and CTRL (R53); the response carries its number and tag. -/
def execSessionOpen (p : Port) (a : PushAddr) (seq timeout ctrl : Word) (s : State) : Res :=
  .next <| if ¬ s.portAnswers p then s
    else
      let u := s.sess.findIdx fun x => !x.isOpen
      let r := State.opOpen { s with curPort := p } p a seq timeout ctrl
      let ok := r.1.status = 0
      let f : OutFrame := {
        cls := .response, sess := if ok then BitVec.ofNat 8 u else 0xFF, seq := seq, tag := if ok then (r.2.session u).tag else 0
        dest := some a, ops := [r.1] }
      State.sendFrame { r.2 with resp := [r.1] } p f

/-- SESSION_CLOSE: the session closes and its leases are released (R57). -/
def execSessionClose (p : Port) (u : Sid) (s : State) : Res := .next <| s.hostOp p u fun s => s.opClose u

/-- DISCOVER: the 64-byte identity body, after a delay of SERIAL[3:0] ms (R43). -/
def execDiscover (p : Port) (a : PushAddr) (seq : Word) (s : State) : Res :=
  .next <| if ¬ s.portAnswers p then s
    else
      let r := State.opDiscover { s with curPort := p } p
      let f : OutFrame := { cls := .response, sess := 0xFF, seq := seq, dest := some a, ops := [r.1], notBefore := s.discoverAt }
      State.sendFrame { r.2 with resp := [r.1] } p f

/-- LEASE_ACQUIRE: a session writes its own number to HOLDER (R65). -/
def execLeaseAcquire (p : Port) (u : Sid) (l : Lease) (s : State) : Res :=
  .next <| s.hostWrite p u (leaseAddr l) (BitVec.ofNat 32 u)

/-- LEASE_RELEASE: the holder writes 0xF to HOLDER (R65). -/
def execLeaseRelease (p : Port) (u : Sid) (l : Lease) (s : State) : Res := .next <| s.hostWrite p u (leaseAddr l) 0xF

/-- LEASE_BREAK: BREAK with HOLDER = 0xF (R65). -/
def execLeaseBreak (p : Port) (u : Sid) (l : Lease) (s : State) : Res := .next <| s.hostWrite p u (leaseAddr l) 0x8000000F

end Sys2Proof.Machine
end

