-- ==== Sys2Proof/Machine/RegCmds.lean ====
section
/-! DEFINITION. The commands that are a write of one register: each is a WRITE of the register's address and the value that the
command stands for (R46, R96); the register's own chapter gives its checks and its effect. -/

namespace Sys2Proof.Machine

/-- NET_APPLY: the staged NET values come into force (R91). -/
def execNetApply (p : Port) (u : Sid) (s : State) : Res := .next <| s.hostWrite p u Reg.netCtrl 1

/-- NET_SAVE: the NET values and STARTUP_CFG go to NVM (R91). -/
def execNetSave (p : Port) (u : Sid) (s : State) : Res := .next <| s.hostWrite p u Reg.netCtrl 2

/-- ETH_CTRL_WRITE: a MODE or JUMBO change takes the port DOWN (R90). -/
def execEthCtrlWrite (p : Port) (u : Sid) (q : Port) (v : Word) (s : State) : Res := .next <| s.hostWrite p u (Reg.ethCtrl q) v

/-- RESQ_CTRL_WRITE: pushes of a ring's results (R79, R92). -/
def execResqCtrlWrite (p : Port) (u : Sid) (n : RingId) (v : Word) (s : State) : Res :=
  .next <| s.hostWrite p u (Reg.resqCtrl n) v

/-- STRM_CFG_WRITE: a stream is configured (R71, R73). -/
def execStrmCfgWrite (p : Port) (u : Sid) (n : RingId) (j : Fin 4) (v : Word) (s : State) : Res :=
  .next <| s.hostWrite p u (Reg.strmCfg n j) v

/-- SEQ_START: the ring starts (R183). -/
def execSeqStart (p : Port) (u : Sid) (n : RingId) (s : State) : Res := .next <| s.hostWrite p u (Reg.seqCmd n) 0x01

/-- SEQ_RESUME: the ring goes on, or a pending halt is cancelled (R197). -/
def execSeqResume (p : Port) (u : Sid) (n : RingId) (s : State) : Res := .next <| s.hostWrite p u (Reg.seqCmd n) 0x02

/-- SEQ_HALT: a halt at the next checkpoint that takes it (R194). -/
def execSeqHalt (p : Port) (u : Sid) (n : RingId) (s : State) : Res := .next <| s.hostWrite p u (Reg.seqCmd n) 0x04

/-- SEQ_ABORT: an abort of the ring (R195). -/
def execSeqAbort (p : Port) (u : Sid) (n : RingId) (s : State) : Res := .next <| s.hostWrite p u (Reg.seqCmd n) 0x08

/-- SEQ_HOLD_SET: the host hold begins (R183). -/
def execSeqHoldSet (p : Port) (u : Sid) (n : RingId) (s : State) : Res := .next <| s.hostWrite p u (Reg.seqCmd n) 0x10

/-- SEQ_HOLD_CLR: the host hold ends (R183). -/
def execSeqHoldClr (p : Port) (u : Sid) (n : RingId) (s : State) : Res := .next <| s.hostWrite p u (Reg.seqCmd n) 0x20

/-- SEQ_ARM: the ring waits for a Trapeze barrier (R183). -/
def execSeqArm (p : Port) (u : Sid) (n : RingId) (s : State) : Res := .next <| s.hostWrite p u (Reg.seqCmd n) 0x40

/-- SEQ_DISARM: an ARMED ring returns to its former state (R183). -/
def execSeqDisarm (p : Port) (u : Sid) (n : RingId) (s : State) : Res := .next <| s.hostWrite p u (Reg.seqCmd n) 0x80

/-- FADE_REQ: a coefficient bank swap at the next shot boundary (R232). -/
def execFadeReq (p : Port) (u : Sid) (n : RingId) (c : Fin 4) (b : Bool) (s : State) : Res :=
  .next <| s.hostWrite p u (Reg.txFadeReq n c) (BitVec.ofNat 32 b.toNat)

/-- COEF_WRITE: a coefficient of a bank, A or B (R235). -/
def execCoefWrite (p : Port) (u : Sid) (n : RingId) (c : Fin 4) (b : Bool) (t : Fin 32) (v : Word) (s : State) : Res :=
  .next <| s.hostWrite p u (if b then Reg.txCoefB n c t else Reg.txCoefA n c t) v

/-- TX_CTRL_WRITE: output mode and enables of a TX channel (R246). -/
def execTxCtrlWrite (p : Port) (u : Sid) (n : RingId) (c : Fin 4) (v : Word) (s : State) : Res :=
  .next <| s.hostWrite p u (Reg.txCtrl n c) v

/-- TX_FS_WRITE: the full-scale code of a TX channel (R246). -/
def execTxFsWrite (p : Port) (u : Sid) (n : RingId) (c : Fin 4) (v : Word) (s : State) : Res :=
  .next <| s.hostWrite p u (Reg.txFs n c) v

/-- BIAS_TARGET_WRITE: an entry in a bias output's target queue (R252). -/
def execBiasTargetWrite (p : Port) (u : Sid) (n : RingId) (b : Fin 4) (v : Word) (s : State) : Res :=
  .next <| s.hostWrite p u (Reg.biasTarget n b) v

/-- SPAN_WRITE: the span of a bias output (R257). -/
def execSpanWrite (p : Port) (u : Sid) (n : RingId) (b : Fin 4) (v : Word) (s : State) : Res :=
  .next <| s.hostWrite p u (Reg.biasSpan n b) v

/-- QCLR: a bias output's queue is emptied (R266). -/
def execQclr (p : Port) (u : Sid) (n : RingId) (b : Fin 4) (s : State) : Res := .next <| s.hostWrite p u (Reg.biasQclr n b) 1

/-- CLEAR_WRITE: the clear code of a bias output (R260). -/
def execClearWrite (p : Port) (u : Sid) (n : RingId) (b : Fin 4) (v : Word) (s : State) : Res :=
  .next <| s.hostWrite p u (Reg.biasClear n b) v

/-- RX_CTRL_WRITE: zone, enable and loopback of an RX channel (R270, R271). -/
def execRxCtrlWrite (p : Port) (u : Sid) (n : RingId) (r : Fin 2) (v : Word) (s : State) : Res :=
  .next <| s.hostWrite p u (Reg.rxCtrl n r) v

/-- RAW_ARM: the raw buffer waits for a capture (R299). -/
def execRawArm (p : Port) (u : Sid) (n : RingId) (r : Fin 2) (s : State) : Res := .next <| s.hostWrite p u (Reg.rxRawCmd n r) 1

/-- RAW_START: an ARMED raw buffer captures (R299). -/
def execRawStart (p : Port) (u : Sid) (n : RingId) (r : Fin 2) (s : State) : Res := .next <| s.hostWrite p u (Reg.rxRawCmd n r) 2

/-- RAW_DISARM: an ARMED raw buffer becomes IDLE (R299). -/
def execRawDisarm (p : Port) (u : Sid) (n : RingId) (r : Fin 2) (s : State) : Res := .next <| s.hostWrite p u (Reg.rxRawCmd n r) 4

/-- JUG_CMD_START: the Juggler starts (R336). -/
def execJugCmdStart (p : Port) (u : Sid) (n : RingId) (s : State) : Res := .next <| s.hostWrite p u (Reg.jugCmd n) 1

/-- JUG_CMD_STOP: the Juggler stops (R337). -/
def execJugCmdStop (p : Port) (u : Sid) (n : RingId) (s : State) : Res := .next <| s.hostWrite p u (Reg.jugCmd n) 2

/-- DOORBELL: interrupt source 5 of the Juggler (R337). -/
def execDoorbell (p : Port) (u : Sid) (n : RingId) (s : State) : Res := .next <| s.hostWrite p u (Reg.jugCmd n) 4

/-- TRAPEZE_START: bring-up of a link begins (R352). -/
def execTrapezeStart (p : Port) (u : Sid) (k : Fin 4) (s : State) : Res := .next <| s.hostWrite p u (Reg.linkCmd k) 1

/-- TRAPEZE_STOP: a link goes to OFF (R354). -/
def execTrapezeStop (p : Port) (u : Sid) (k : Fin 4) (s : State) : Res := .next <| s.hostWrite p u (Reg.linkCmd k) 2

/-- TRAPEZE_ABORT_SEND: TRP_ABORT is written; SEND broadcasts an ABORT flit (R371). -/
def execTrapezeAbortSend (p : Port) (u : Sid) (v : Word) (s : State) : Res := .next <| s.hostWrite p u Reg.trpAbort v

/-- SNAP_CAPTURE: BEATCOUNT and network time of one beat (R378). -/
def execSnapCapture (p : Port) (u : Sid) (s : State) : Res := .next <| s.hostWrite p u Reg.snapCmd 1

/-- ADJ_ARM: a staged adjustment becomes pending (R380). -/
def execAdjArm (p : Port) (u : Sid) (mode : Bool) (s : State) : Res :=
  .next <| s.hostWrite p u Reg.adjCtrl (BitVec.ofNat 32 (1 + 256 * mode.toNat))

/-- ADJ_CANCEL: a pending adjustment is void (R380). -/
def execAdjCancel (p : Port) (u : Sid) (s : State) : Res := .next <| s.hostWrite p u Reg.adjCtrl 2

/-- TRIG_LATCH_CLEAR: trigger latches of a ring (R392). -/
def execTrigLatchClear (p : Port) (u : Sid) (n : RingId) (v : Word) (s : State) : Res :=
  .next <| s.hostWrite p u (Reg.trigLclr n) v

/-- TIU_RUN: a time-interval unit starts (R396). -/
def execTiuRun (p : Port) (u : Sid) (k : Fin 4) (s : State) : Res := .next <| s.hostWrite p u (Reg.tiuCmd k) 1

/-- TIU_ABORT: a run of a time-interval unit ends early (R396). -/
def execTiuAbort (p : Port) (u : Sid) (k : Fin 4) (s : State) : Res := .next <| s.hostWrite p u (Reg.tiuCmd k) 2

/-- MARK_HOST: a marker action of the host (R401). -/
def execMarkHost (p : Port) (u : Sid) (m : Fin 16) (v : Word) (s : State) : Res := .next <| s.hostWrite p u (Reg.markHost m) v

/-- INJECTION_START: an injected calibration at the next block boundary (R418). -/
def execInjectionStart (p : Port) (u : Sid) (r : Fin 24) (v : Word) (s : State) : Res :=
  .next <| s.hostWrite p u (Reg.rxcalInj r) (v ||| 1)

/-- CAL_APPLY_WRITE: an APPLY of a die is requested (R413). -/
def execCalApplyWrite (p : Port) (u : Sid) (v : Word) (s : State) : Res := .next <| s.hostWrite p u Reg.calApply v

/-- CAL_SAVE: a calibration store (R429). -/
def execCalSave (p : Port) (u : Sid) (s : State) : Res :=
  .next <| s.hostWrite p u Reg.calStore ((s.getReg Reg.calStore &&& 0xFFFF0000) ||| 1)

/-- CLR_SAVE: a clear-code store (R429). -/
def execClrSave (p : Port) (u : Sid) (s : State) : Res :=
  .next <| s.hostWrite p u Reg.calStore ((s.getReg Reg.calStore &&& 0xFFFF0000) ||| 2)

/-- MTEST_START: a march run begins (R448). -/
def execMtestStart (p : Port) (u : Sid) (s : State) : Res := .next <| s.hostWrite p u Reg.mtestCmd 1

/-- MTEST_ABORT: a march run ends after the present window (R457). -/
def execMtestAbort (p : Port) (u : Sid) (s : State) : Res := .next <| s.hostWrite p u Reg.mtestCmd 2

/-- REPMAP_SAVE: the repair map goes to NVM (R453). -/
def execRepmapSave (p : Port) (u : Sid) (s : State) : Res := .next <| s.hostWrite p u Reg.repmapCtrl 1

/-- RET_MODE_WRITE: a ring's memories on, in retention or off (R454). -/
def execRetModeWrite (p : Port) (u : Sid) (n : RingId) (v : Word) (s : State) : Res := .next <| s.hostWrite p u (Reg.ret n) v

/-- CAROUSEL_START: a slot runs (R459). -/
def execCarouselStart (p : Port) (u : Sid) (i : Fin 8) (s : State) : Res := .next <| s.hostWrite p u (Reg.carCmd i) 1

/-- CAROUSEL_STOP: a slot finishes its spectrum (R460). -/
def execCarouselStop (p : Port) (u : Sid) (i : Fin 8) (s : State) : Res := .next <| s.hostWrite p u (Reg.carCmd i) 2

/-- FW_UPDATE_START: a firmware image is checked and written (R496). -/
def execFwUpdateStart (p : Port) (u : Sid) (s : State) : Res := .next <| s.hostWrite p u Reg.fwUpdCmd 1

/-- FUSE_MIN_SVN: MIN_SVN is raised (R497). -/
def execFuseMinSvn (p : Port) (u : Sid) (confirm : BitVec 16) (s : State) : Res :=
  .next <| s.hostWrite p u Reg.fuseCmd (confirm ++ (1 : BitVec 16))

/-- FUSE_REVOKE: REVOKED[0] is set (R497). -/
def execFuseRevoke (p : Port) (u : Sid) (confirm : BitVec 16) (s : State) : Res :=
  .next <| s.hostWrite p u Reg.fuseCmd (confirm ++ (2 : BitVec 16))

/-- ATTESTATION_START: a report over the nonce (R500). -/
def execAttestationStart (p : Port) (u : Sid) (s : State) : Res := .next <| s.hostWrite p u Reg.attCmd 1

/-- OWNER_CHECK: a ring's program against the owner key (R503). -/
def execOwnerCheck (p : Port) (u : Sid) (n : RingId) (s : State) : Res :=
  .next <| s.hostWrite p u Reg.ownCmd (BitVec.ofNat 32 (256 * n.val + 1))

/-- OWNER_LOCK: an owner key is enrolled (R503). -/
def execOwnerLock (p : Port) (u : Sid) (confirm : BitVec 16) (s : State) : Res :=
  .next <| s.hostWrite p u Reg.ownCmd (confirm ++ (2 : BitVec 16))

/-- OWNER_UNLOCK: the owner lock is cleared (R503). -/
def execOwnerUnlock (p : Port) (u : Sid) (confirm : BitVec 16) (s : State) : Res :=
  .next <| s.hostWrite p u Reg.ownCmd (confirm ++ (4 : BitVec 16))

/-- RST_CMD_RESET: a reset 15,000 beats later (R514). -/
def execRstCmdReset (p : Port) (u : Sid) (confirm : BitVec 16) (s : State) : Res :=
  .next <| s.hostWrite p u Reg.rstCmd (confirm ++ (1 : BitVec 16))

/-- RELOCK: the PLLs relock (R520). -/
def execRelock (p : Port) (u : Sid) (s : State) : Res := .next <| s.hostWrite p u Reg.clkCmd 1

/-- SYNC_ARM: the domain-beat alignment is armed (R531). -/
def execSyncArm (p : Port) (u : Sid) (s : State) : Res := .next <| s.hostWrite p u Reg.syncCmd 1

/-- SYNC_PULSE: a pulse on SYNC_OUT (R533). -/
def execSyncPulse (p : Port) (u : Sid) (s : State) : Res := .next <| s.hostWrite p u Reg.syncCmd 2

/-- SYNC_CANCEL: an armed alignment ends (R531). -/
def execSyncCancel (p : Port) (u : Sid) (s : State) : Res := .next <| s.hostWrite p u Reg.syncCmd 4

end Sys2Proof.Machine
end

