-- ==== Sys2Proof/Machine/Rcp.lean ====
section
/-! DEFINITION. Request frames (R35, R44, R45, R50-R57, R567): how a message is read, judged, deduplicated and answered. -/

namespace Sys2Proof.Machine

/-- An operation block of a request (R45). -/
structure Block where
  op : Nat := 0
  oflags : Nat := 0
  addr : Word := 0
  status : Nat := 0
  count : Nat := 0
  body : List Byte := []
  deriving DecidableEq, Repr

/-- The operation blocks of a message after its header (R45): none where they do not fill it; `fuel` bounds their number. -/
def readBlocks : Nat → List Byte → Option (List Block)
  | 0, _ => none
  | fuel + 1, m =>
    if m.isEmpty then some []
    else
      let k := leAt m 2 2
      if m.length < 12 ∨ k < 12 ∨ k % 4 ≠ 0 ∨ m.length < k then none
      else
        let b : Block := {
          op := leAt m 0 1, oflags := leAt m 1 1, addr := BitVec.ofNat 32 (leAt m 4 4), status := leAt m 8 2,
          count := leAt m 10 2, body := (m.drop 12).take (k - 12) }
        (readBlocks fuel (m.drop k)).map (b :: ·)

/-- The operations that a request may hold (R46, R50). -/
def requestOps : List Nat := [0x01, 0x02, 0x03, 0x04, 0x05, 0x06, 0x07, 0x08, 0x0D, 0x10, 0x11, 0x12]

/-- A block has a known operation and zeros where R45 wants them. -/
def Block.ok (b : Block) : Bool :=
  decide (b.op ∈ requestOps ∧ b.status = 0 ∧ (b.oflags = 0 ∨ (b.op = 0x06 ∧ b.oflags = 1)))

/-- The header of a message (R44). -/
structure Header where
  ver : Nat := 0
  len : Nat := 0
  sess : Nat := 0
  flags : Nat := 0
  nops : Nat := 0
  seq : Word := 0
  tag : Word := 0
  fstatus : Nat := 0
  last : Nat := 0
  deriving DecidableEq, Repr

/-- Reads a header (R44). -/
def readHeader (m : List Byte) : Header :=
  { ver := leAt m 0 1, len := leAt m 2 2, sess := leAt m 4 1, flags := leAt m 5 1, nops := leAt m 6 2,
    seq := BitVec.ofNat 32 (leAt m 8 4), tag := BitVec.ofNat 32 (leAt m 12 4), fstatus := leAt m 16 2, last := leAt m 18 2 }

/-- The format of a request (R44, R45, R50, R567): its blocks, none for E_FORMAT. Two SESSION_OPEN blocks do not fit one response. -/
def readRequest (m : List Byte) : Option (List Block) :=
  let h := readHeader m
  match readBlocks (m.length + 1) (m.drop 20) with
  | some bs =>
    if 20 ≤ m.length ∧ h.ver = 1 ∧ h.len = m.length ∧ 1 ≤ h.nops ∧ h.nops ≤ 255 ∧ h.nops = bs.length ∧ h.flags < 4 ∧ h.fstatus = 0 ∧
        h.last = 0 ∧ bs.all (·.ok) ∧ (bs.filter fun b => b.op = 0x10).length ≤ 1 then some bs else none
  | none => none

/-- The length of the response to a request whose operations all succeed (R50). -/
def responseLen (bs : List Block) : Nat :=
  20 + (bs.map fun b => 12 + (if b.op = 0x01 ∨ b.op = 0x08 then 4 else if b.op = 0x04 then 4 * b.count else if b.op = 0x12 then 64
    else 0)).sum

/-- The length of the untagged Ethernet frame that carries a message (R35, R39): a raw frame, UDP over IPv4, or UDP over IPv6. -/
def frameLen (a : PushAddr) (m : List Byte) : Nat := m.length + (if a.raw then 18 else if isV4 a.ip then 46 else 66)

namespace State

/-- A response that rejects a whole frame (R50). -/
def reject (s : State) (p : Nat) (a : PushAddr) (h : Header) (e : Err) (cached : Bool) : State :=
  let f : OutFrame := {
    cls := .response, sess := BitVec.ofNat 8 h.sess, seq := h.seq, tag := h.tag, fstatus := e.code, flags := if cached then 4 else 0
    dest := some a }
  s.sendFrame p f

/-- A request names an open session with its tag, or none for SESSION_OPEN and DISCOVER alone (R44, R50). R44 wants TAG 0
in these, and R50 names no code for another TAG: it counts as a TAG that differs, with E_AUTH (DESIGN CHOICE, log entry 83). -/
def authOk (s : State) (h : Header) (bs : List Block) : Bool :=
  if h.sess = 0xFF then decide (h.tag = 0) && bs.all fun b => b.op == 0x10 || b.op == 0x12
  else decide (h.sess < 8) && (s.session h.sess).isOpen && decide (h.tag = (s.session h.sess).tag)

/-- The last executed sequence number L of a session (R54). -/
def lastSeq (s : State) (u : Nat) : Word := s.getReg (Reg.sessLastSeq u)

/-- SEQ lies in the session's window (R54). -/
def inWindow (s : State) (u : Nat) (q : Word) : Bool :=
  decide ((q - s.lastSeq u).toNat ≤ 2 ^ 31 ∨ (s.lastSeq u - q).toNat ≤ 63)

/-- The port of the first copy of an executed request (R55). -/
def firstPort (s : State) (u : Nat) (q : Word) : Option Nat := ((s.session u).executed.find? fun e => e.1 = q).map (·.2)

/-- A duplicate (R55): discarded when it comes on the other port, answered again when it comes on the same. -/
def duplicate (s : State) (p first : Nat) (a : PushAddr) (h : Header) : State :=
  if first ≠ p then s.satReg (Reg.ethDupDiscard p)
  else
    match ((s.session h.sess).cache.find? fun c => c.seq = h.seq).bind (·.frame) with
    | some f => s.sendFrame p { f with flags := f.flags ||| 4, dest := some a }
    | none => s.reject p a h .eSeq true

/-- A SEQ has been executed on a port (R54). -/
def noteSeq (s : State) (u p : Nat) (q : Word) : State :=
  let l := s.lastSeq u
  let l' := if 0 < (q - l).toNat ∧ (q - l).toNat ≤ 2 ^ 31 then q else l
  (s.setReg (Reg.sessLastSeq u) l').modSess u fun x => { x with
    executed := ((q, p) :: x.executed).filter fun e => decide ((l' - e.1).toNat ≤ 63) }

/-- A BLOCK_READ or BLOCK_WRITE block of the right form, as the DMA engine takes it (R46, R48, R67). -/
def blockJob (u : Nat) (b : Block) : Option Dma :=
  if b.op = 0x04 ∧ b.body = [] then some { sess := u, addr := b.addr, count := b.count }
  else if b.op = 0x05 ∧ b.body.length = 4 * b.count then
    some { sess := u, write := true, addr := b.addr, count := b.count, words := toWords b.body }
  else none

/-- An operation block of a session that is no such block (R46, R52): a wrong COUNT or body gives E_FORMAT, and a SESSION_OPEN in a frame of
an open session E_STATE (DESIGN CHOICE, log entry 75). -/
def sessionBlock (s : State) (p u : Nat) (b : Block) : OpResp × State :=
  let w := toWords b.body
  let k := b.body.length
  let x := fun i => w.getD i 0
  let bad : OpResp × State := (opResp b.op b.addr .eFormat b.count [], s)
  let form := fun (c : Bool) (r : OpResp × State) => if c then r else bad
  match b.op with
  | 0x01 => form (decide (b.count = 1 ∧ k = 0)) (s.opRead u b.addr)
  | 0x02 => form (decide (b.count = 1 ∧ k = 4)) (s.opWrite p u b.addr (x 0))
  | 0x03 => form (decide (b.count = 1 ∧ k = 8)) (s.opWriteMask p u b.addr (x 0) (x 1))
  | 0x06 => form (decide (b.count = 0 ∧ k = 16)) (s.opSchedule u (decide (b.oflags = 1)) b.addr (pairWord (x 0) (x 1)) (x 2) (x 3))
  | 0x07 => form (decide (b.count = 1024 ∧ k = 4100))
      (if fld b.addr 31 16 = 0 then s.opStreamData p u (fld b.addr 7 0) (fld b.addr 15 8) (x 0) (w.drop 1)
       else (opResp b.op b.addr .eRange b.count [], s))
  | 0x08 => form (decide (b.count = 0 ∧ k = 0))
      (if fld b.addr 31 16 = 0 then s.opCredit (fld b.addr 7 0) (fld b.addr 15 8) else (opResp b.op b.addr .eRange 0 [], s))
  | 0x0D => form (decide (b.count = 0 ∧ k = 4)) (s.opResultAck u b.addr.toNat (x 0))
  | 0x10 => form (decide (b.addr = 0 ∧ b.count = 0 ∧ k = 8)) (opResp b.op 0 .eState 0 [], s)
  | 0x11 => form (decide (b.addr = 0 ∧ b.count = 0 ∧ k = 0)) (s.opClose u)
  | 0x12 => form (decide (b.addr = 0 ∧ b.count = 0 ∧ k = 0)) (s.opDiscover p)
  | _ => bad

/-- An operation block of a request without a session (R43, R53). -/
def openBlock (s : State) (p : Nat) (a : PushAddr) (q : Word) (b : Block) : OpResp × State :=
  let w := toWords b.body
  let k := b.body.length
  let bad : OpResp × State := (opResp b.op b.addr .eFormat b.count [], s)
  if b.op = 0x10 ∧ b.addr = 0 ∧ b.count = 0 ∧ k = 8 then s.opOpen p a q (w.getD 0 0) (w.getD 1 0)
  else if b.op = 0x12 ∧ b.addr = 0 ∧ b.count = 0 ∧ k = 0 then s.opDiscover p
  else bad

/-- Keeps a response among the last 16 of a session, when it is no longer than 1,024 bytes (R55). -/
def keepResponse (s : State) (u p : Nat) (q : Word) (f : OutFrame) : State :=
  let c : Cached := { seq := q, port := p, frame := if f.len ≤ 1024 then some f else none }
  s.modSess u fun x => if x.isOpen then { x with cache := (c :: x.cache).take 16 } else x

/-- The response to an executed frame (R43, R44, R53, R55): left out under NORESP when every operation succeeded; `u` is the
lowest session that was free before. -/
def respond (s : State) (p : Nat) (a : PushAddr) (h : Header) (u : Nat) : State :=
  let ok := s.resp.all fun r => r.status == 0
  if h.flags.testBit 1 ∧ ok then s
  else
    let new := s.resp.any fun r => r.op == 0x10 && r.status == 0
    let v := if new then u else h.sess
    let f : OutFrame := {
      cls := .response, sess := BitVec.ofNat 8 v, seq := h.seq, tag := if new then (s.session u).tag else h.tag, dest := some a
      ops := s.resp
      notBefore := if s.resp.any (fun r => r.op == 0x12 && r.status == 0) then s.discoverAt else 0 }
    (if v < 8 then s.keepResponse v p h.seq f else s).sendFrame p f

/-- The operations of a frame in block order, and its response (R52); after a SESSION_CLOSE the rest get E_AUTH (R57). A block
operation that the DMA engine serves over beats holds the rest (R67). -/
def runBlocks (s : State) (c : FrameRun) (h : Header) : List Block → State
  | [] => s.respond c.port c.addr h c.free
  | b :: t =>
    let c' := { c with done := c.done + 1 }
    let on := decide (h.sess = 0xFF) || (s.session h.sess).isOpen
    match (if h.sess = 0xFF ∨ ¬ on then none else blockJob h.sess b) with
    | some d =>
      match s.blockOp { d with port := c.port, frame := some { c' with resp := s.resp } } with
      | (some r, s) => State.runBlocks { s with resp := s.resp ++ [r] } c' h t
      | (none, s) => s
    | none =>
      let r :=
        if h.sess = 0xFF then s.openBlock c.port c.addr h.seq b
        else if on then s.sessionBlock c.port h.sess b
        else (opResp b.op b.addr .eAuth b.count [], s)
      State.runBlocks { r.2 with resp := r.2.resp ++ [r.1] } c' h t

/-- A frame goes on after operations that are done (R52, R67). -/
def goOn (s : State) (c : FrameRun) : State :=
  State.runBlocks { s with curPort := c.port, resp := c.resp } c (readHeader c.msg) (((readRequest c.msg).getD []).drop c.done)

/-- Executes an accepted frame (R52, R54). -/
def runFrame (s : State) (p : Nat) (a : PushAddr) (m : List Byte) (h : Header) : State :=
  let u := s.sess.findIdx fun x => !x.isOpen
  let s := if h.sess < 8 then s.noteSeq h.sess p h.seq else s
  s.goOn { port := p, addr := a, msg := m, free := u }

/-- A request whose format is right, in the order of R50 and R55. -/
def request (s : State) (p : Nat) (a : PushAddr) (m : List Byte) (h : Header) (bs : List Block) : State :=
  if s.maxLen p < h.len then s.reject p a h .eCapacity false
  else if ¬ s.authOk h bs then s.reject p a h .eAuth false
  else
    let s := if h.sess < 8 then s.noteFrame h.sess p (some a) else s
    match (if h.sess < 8 then s.firstPort h.sess h.seq else none) with
    | some q => s.duplicate p q a h
    | none =>
      if h.sess < 8 ∧ ¬ s.inWindow h.sess h.seq then s.reject p a h .eSeq false
      else if s.maxLen p < responseLen bs then s.reject p a h .eCapacity false
      else s.runFrame p a m h

/-- A frame of port `p` is in execution: the DMA engine serves an operation of it, or it is to go on (R56, R67). -/
def inFrame (s : State) (p : Nat) : Bool :=
  s.memu.dma.any (fun d => match d.frame with | some c => c.port == p | none => false) || s.resume.any fun c => c.port == p

/-- A request in its order: it waits behind a frame of its port that is in execution, and behind what waits there (R56); meanwhile it
holds `len` bytes of the ingress buffer under priority `q` (R86). -/
def ordered (s : State) (p : Nat) (a : PushAddr) (q len : Nat) (m : List Byte) : State :=
  if s.inFrame p ∨ s.held.any (fun x => x.port == p) then
    { s with held := s.held ++ [{ port := p, addr := a, prio := q, len := len, msg := m }] }
  else match readRequest m with
    | none => s.reject p a (readHeader m) .eFormat false
    | some bs => s.request p a m (readHeader m) bs

/-- Frames that have no further operation answer (R67). -/
def answerFrames (s : State) : State :=
  let isLast := fun c : FrameRun => decide (((readRequest c.msg).getD []).length ≤ c.done)
  (s.resume.filter isLast).foldl goOn { s with resume := s.resume.filter fun c => !isLast c }

/-- At the start of a beat the frames go on whose block operation has been done, then the requests that waited behind them
(R52, R56). -/
def goOnFrames (s : State) : State :=
  let s := s.resume.foldl goOn { s with resume := [] }
  s.held.foldl (fun s x => s.ordered x.port x.addr x.prio x.len x.msg) { s with held := [] }

/-- A message arrives on a port (R35, R36, R38, R50, R567). -/
def receive (s : State) (p : Nat) (a : PushAddr) (h : RxHead) (m : List Byte) : State :=
  let (s, ok) := s.macTakes p h (frameLen a m)
  if ¬ ok ∨ ¬ (a.raw || (headOk (isV4 a.ip) h && udpOk a h.checksum m)) then s
  else if leAt m 1 1 ≠ 0 then s.satReg (Reg.ethRxDrop p)
  else s.ordered p a (s.rxPrio h.tag) (frameLen a m + (if h.tag.isSome then 4 else 0)) m

end State

/-- RCP_REQUEST: a request frame is checked, deduplicated and executed in block order (R50, R52, R55). -/
def execRcpRequest (p : Port) (a : RxFrom) (m : List Byte) (s : State) : Res := .next <| s.receive p a.addr a.head m

end Sys2Proof.Machine
end

