-- ==== Sys2Proof/Machine/Dispatch.lean ====
section
/-! DEFINITION. One arm for each command: the call of its meaning. -/

namespace Sys2Proof.Machine

/-- The effect of a command on everything but the queue of waiting commands. -/
def exec (i : Instr) (s : State) : Host.Outcome State Fault Refusal :=
  match i with
  | .rcpRequest p a m => Sys2Proof.Machine.execRcpRequest p a m s
  | .pfcXoffRepeat p q => Sys2Proof.Machine.execPfcXoffRepeat p q s
  | .pfcXon p q => Sys2Proof.Machine.execPfcXon p q s
  | .pfcFrameReceive p q quanta => Sys2Proof.Machine.execPfcFrameReceive p q quanta s
  | .pauseFrameDiscard p => Sys2Proof.Machine.execPauseFrameDiscard p s
  | .oversizeDiscard p len => Sys2Proof.Machine.execOversizeDiscard p len s
  | .vlanDiscard p tag => Sys2Proof.Machine.execVlanDiscard p tag s
  | .arpRequest p a target => Sys2Proof.Machine.execArpRequest p a target s
  | .neighborSolicitation p a target => Sys2Proof.Machine.execNeighborSolicitation p a target s
  | .echoRequest p a v6 target data => Sys2Proof.Machine.execEchoRequest p a v6 target data s
  | .read p u a => Sys2Proof.Machine.execRead p u a s
  | .write p u a v => Sys2Proof.Machine.execWrite p u a v s
  | .writeMask p u a v m => Sys2Proof.Machine.execWriteMask p u a v m s
  | .blockRead p u a k => Sys2Proof.Machine.execBlockRead p u a k s
  | .blockWrite p u a ws => Sys2Proof.Machine.execBlockWrite p u a ws s
  | .schedule p u cancel a t v m => Sys2Proof.Machine.execSchedule p u cancel a t v m s
  | .scheduleApply h => Sys2Proof.Machine.execScheduleApply h s
  | .streamData p u n j x ws => Sys2Proof.Machine.execStreamData p u n j x ws s
  | .credit p u n j => Sys2Proof.Machine.execCredit p u n j s
  | .resultAck p u n x => Sys2Proof.Machine.execResultAck p u n x s
  | .sessionOpen p a seq timeout ctrl => Sys2Proof.Machine.execSessionOpen p a seq timeout ctrl s
  | .sessionClose p u => Sys2Proof.Machine.execSessionClose p u s
  | .discover p a seq => Sys2Proof.Machine.execDiscover p a seq s
  | .sessionTimeout u => Sys2Proof.Machine.execSessionTimeout u s
  | .leaseAcquire p u l => Sys2Proof.Machine.execLeaseAcquire p u l s
  | .leaseRelease p u l => Sys2Proof.Machine.execLeaseRelease p u l s
  | .leaseBreak p u l => Sys2Proof.Machine.execLeaseBreak p u l s
  | .netApply p u => Sys2Proof.Machine.execNetApply p u s
  | .netSave p u => Sys2Proof.Machine.execNetSave p u s
  | .ethCtrlWrite p u q v => Sys2Proof.Machine.execEthCtrlWrite p u q v s
  | .resqCtrlWrite p u n v => Sys2Proof.Machine.execResqCtrlWrite p u n v s
  | .strmCfgWrite p u n j v => Sys2Proof.Machine.execStrmCfgWrite p u n j v s
  | .portLost p => Sys2Proof.Machine.execPortLost p s
  | .portAligned p => Sys2Proof.Machine.execPortAligned p s
  | .portUp p => Sys2Proof.Machine.execPortUp p s
  | .resultPush n => Sys2Proof.Machine.execResultPush n s
  | .creditPush n j => Sys2Proof.Machine.execCreditPush n j s
  | .eventPush => Sys2Proof.Machine.execEventPush s
  | .eventDeferredRecord code src subj => Sys2Proof.Machine.execEventDeferredRecord code src subj s
  | .modulePoll p present alarms => Sys2Proof.Machine.execModulePoll p present alarms s
  | .moduleMirror p page => Sys2Proof.Machine.execModuleMirror p page s
  | .moduleInterrupt p => Sys2Proof.Machine.execModuleInterrupt p s
  | .seqStart p u n => Sys2Proof.Machine.execSeqStart p u n s
  | .seqArm p u n => Sys2Proof.Machine.execSeqArm p u n s
  | .seqDisarm p u n => Sys2Proof.Machine.execSeqDisarm p u n s
  | .seqResume p u n => Sys2Proof.Machine.execSeqResume p u n s
  | .seqHalt p u n => Sys2Proof.Machine.execSeqHalt p u n s
  | .seqAbort p u n => Sys2Proof.Machine.execSeqAbort p u n s
  | .seqHoldSet p u n => Sys2Proof.Machine.execSeqHoldSet p u n s
  | .seqHoldClr p u n => Sys2Proof.Machine.execSeqHoldClr p u n s
  | .abortAccept n => Sys2Proof.Machine.execAbortAccept n s
  | .abortRampEnd n => Sys2Proof.Machine.execAbortRampEnd n s
  | .machineCheck n upc => Sys2Proof.Machine.execMachineCheck n upc s
  | .illegalInstruction n => Sys2Proof.Machine.execIllegalInstruction n s
  | .nop n => Sys2Proof.Machine.execNop n s
  | .halt n => Sys2Proof.Machine.execHalt n s
  | .haltComplete n => Sys2Proof.Machine.execHaltComplete n s
  | .shot n => Sys2Proof.Machine.execShot n s
  | .shotBoundary n => Sys2Proof.Machine.execShotBoundary n s
  | .shotStart n => Sys2Proof.Machine.execShotStart n s
  | .wait n => Sys2Proof.Machine.execWait n s
  | .waitEnd n => Sys2Proof.Machine.execWaitEnd n s
  | .timingHoldEnd n => Sys2Proof.Machine.execTimingHoldEnd n s
  | .waitc n => Sys2Proof.Machine.execWaitc n s
  | .waitConditionMet n => Sys2Proof.Machine.execWaitConditionMet n s
  | .decisionTimeout n => Sys2Proof.Machine.execDecisionTimeout n s
  | .sync n => Sys2Proof.Machine.execSync n s
  | .syncRelease m => Sys2Proof.Machine.execSyncRelease m s
  | .xsync n => Sys2Proof.Machine.execXsync n s
  | .br n => Sys2Proof.Machine.execBr n s
  | .call n => Sys2Proof.Machine.execCall n s
  | .ret n => Sys2Proof.Machine.execRet n s
  | .loop n => Sys2Proof.Machine.execLoop n s
  | .endl n => Sys2Proof.Machine.execEndl n s
  | .caseOp n => Sys2Proof.Machine.execCaseOp n s
  | .dec n => Sys2Proof.Machine.execDec n s
  | .ldi n => Sys2Proof.Machine.execLdi n s
  | .ld n => Sys2Proof.Machine.execLd n s
  | .ldComplete n => Sys2Proof.Machine.execLdComplete n s
  | .st n => Sys2Proof.Machine.execSt n s
  | .add n => Sys2Proof.Machine.execAdd n s
  | .sub n => Sys2Proof.Machine.execSub n s
  | .and n => Sys2Proof.Machine.execAnd n s
  | .or n => Sys2Proof.Machine.execOr n s
  | .xor n => Sys2Proof.Machine.execXor n s
  | .shl n => Sys2Proof.Machine.execShl n s
  | .shr n => Sys2Proof.Machine.execShr n s
  | .cmp n => Sys2Proof.Machine.execCmp n s
  | .actionRelease n => Sys2Proof.Machine.execActionRelease n s
  | .play n => Sys2Proof.Machine.execPlay n s
  | .plays n => Sys2Proof.Machine.execPlays n s
  | .stop n => Sys2Proof.Machine.execStop n s
  | .frq n => Sys2Proof.Machine.execFrq n s
  | .phs n => Sys2Proof.Machine.execPhs n s
  | .phset n => Sys2Proof.Machine.execPhset n s
  | .amp n => Sys2Proof.Machine.execAmp n s
  | .acq n => Sys2Proof.Machine.execAcq n s
  | .ker n => Sys2Proof.Machine.execKer n s
  | .bias n => Sys2Proof.Machine.execBias n s
  | .mark n => Sys2Proof.Machine.execMark n s
  | .tset n => Sys2Proof.Machine.execTset n s
  | .fade n => Sys2Proof.Machine.execFade n s
  | .send n => Sys2Proof.Machine.execSend n s
  | .evt n => Sys2Proof.Machine.execEvt n s
  | .decisionArrive n => Sys2Proof.Machine.execDecisionArrive n s
  | .requestReachesVoice n v => Sys2Proof.Machine.execRequestReachesVoice n v s
  | .segmentBoundary n v => Sys2Proof.Machine.execSegmentBoundary n v s
  | .unitClaim n v => Sys2Proof.Machine.execUnitClaim n v s
  | .stopRampEnd n v => Sys2Proof.Machine.execStopRampEnd n v s
  | .fadeReach n c => Sys2Proof.Machine.execFadeReach n c s
  | .fadeEnd n c => Sys2Proof.Machine.execFadeEnd n c s
  | .fadeReq p u n c b => Sys2Proof.Machine.execFadeReq p u n c b s
  | .coefWrite p u n c b t v => Sys2Proof.Machine.execCoefWrite p u n c b t v s
  | .txCtrlWrite p u n c v => Sys2Proof.Machine.execTxCtrlWrite p u n c v s
  | .txFsWrite p u n c v => Sys2Proof.Machine.execTxFsWrite p u n c v s
  | .txSettleEnd n c => Sys2Proof.Machine.execTxSettleEnd n c s
  | .biasTargetWrite p u n b v => Sys2Proof.Machine.execBiasTargetWrite p u n b v s
  | .biasTake n b => Sys2Proof.Machine.execBiasTake n b s
  | .biasSlewEnd n b => Sys2Proof.Machine.execBiasSlewEnd n b s
  | .spanWrite p u n b v => Sys2Proof.Machine.execSpanWrite p u n b v s
  | .spanSettleEnd n b => Sys2Proof.Machine.execSpanSettleEnd n b s
  | .qclr p u n b => Sys2Proof.Machine.execQclr p u n b s
  | .clearWrite p u n b v => Sys2Proof.Machine.execClearWrite p u n b v s
  | .clrNAssert => Sys2Proof.Machine.execClrNAssert s
  | .clrNRelease => Sys2Proof.Machine.execClrNRelease s
  | .vbiasLoss => Sys2Proof.Machine.execVbiasLoss s
  | .vbiasValid => Sys2Proof.Machine.execVbiasValid s
  | .rxCtrlWrite p u n r v => Sys2Proof.Machine.execRxCtrlWrite p u n r v s
  | .rxReady n r => Sys2Proof.Machine.execRxReady n r s
  | .rxClip n r => Sys2Proof.Machine.execRxClip n r s
  | .overloadRemoved n r => Sys2Proof.Machine.execOverloadRemoved n r s
  | .windowClose n l => Sys2Proof.Machine.execWindowClose n l s
  | .coarseResult n l => Sys2Proof.Machine.execCoarseResult n l s
  | .fineResult n l => Sys2Proof.Machine.execFineResult n l s
  | .rawArm p u n r => Sys2Proof.Machine.execRawArm p u n r s
  | .rawStart p u n r => Sys2Proof.Machine.execRawStart p u n r s
  | .rawDisarm p u n r => Sys2Proof.Machine.execRawDisarm p u n r s
  | .rawCaptureEnd n r => Sys2Proof.Machine.execRawCaptureEnd n r s
  | .rawPush n r => Sys2Proof.Machine.execRawPush n r s
  | .jugCmdStart p u n => Sys2Proof.Machine.execJugCmdStart p u n s
  | .jugCmdStop p u n => Sys2Proof.Machine.execJugCmdStop p u n s
  | .doorbell p u n => Sys2Proof.Machine.execDoorbell p u n s
  | .interruptEntry n => Sys2Proof.Machine.execInterruptEntry n s
  | .jugTimerExpiry n => Sys2Proof.Machine.execJugTimerExpiry n s
  | .illegalPacket n => Sys2Proof.Machine.execIllegalPacket n s
  | .move n => Sys2Proof.Machine.execMove n s
  | .mac n => Sys2Proof.Machine.execMac n s
  | .mac2 n => Sys2Proof.Machine.execMac2 n s
  | .mov n => Sys2Proof.Machine.execMov n s
  | .jugAdd n => Sys2Proof.Machine.execJugAdd n s
  | .jugSub n => Sys2Proof.Machine.execJugSub n s
  | .jugCmp n => Sys2Proof.Machine.execJugCmp n s
  | .jugAnd n => Sys2Proof.Machine.execJugAnd n s
  | .jugOr n => Sys2Proof.Machine.execJugOr n s
  | .jugXor n => Sys2Proof.Machine.execJugXor n s
  | .jugShl n => Sys2Proof.Machine.execJugShl n s
  | .jugShr n => Sys2Proof.Machine.execJugShr n s
  | .asr n => Sys2Proof.Machine.execAsr n s
  | .neg n => Sys2Proof.Machine.execNeg n s
  | .abs n => Sys2Proof.Machine.execAbs n s
  | .min n => Sys2Proof.Machine.execMin n s
  | .max n => Sys2Proof.Machine.execMax n s
  | .adds n => Sys2Proof.Machine.execAdds n s
  | .subs n => Sys2Proof.Machine.execSubs n s
  | .aclr n => Sys2Proof.Machine.execAclr n s
  | .amov n => Sys2Proof.Machine.execAmov n s
  | .aadd n => Sys2Proof.Machine.execAadd n s
  | .asub n => Sys2Proof.Machine.execAsub n s
  | .ashl n => Sys2Proof.Machine.execAshl n s
  | .ashr n => Sys2Proof.Machine.execAshr n s
  | .aneg n => Sys2Proof.Machine.execAneg n s
  | .aabs n => Sys2Proof.Machine.execAabs n s
  | .sgnb n => Sys2Proof.Machine.execSgnb n s
  | .absoluteMove n => Sys2Proof.Machine.execAbsoluteMove n s
  | .jugNop n => Sys2Proof.Machine.execJugNop n s
  | .jugHalt n => Sys2Proof.Machine.execJugHalt n s
  | .jugBr n => Sys2Proof.Machine.execJugBr n s
  | .brr n => Sys2Proof.Machine.execBrr n s
  | .jugCall n => Sys2Proof.Machine.execJugCall n s
  | .jugRet n => Sys2Proof.Machine.execJugRet n s
  | .rti n => Sys2Proof.Machine.execRti n s
  | .doLoop n => Sys2Proof.Machine.execDoLoop n s
  | .jugWait n => Sys2Proof.Machine.execJugWait n s
  | .jugWaitRelease n => Sys2Proof.Machine.execJugWaitRelease n s
  | .jugLdi n => Sys2Proof.Machine.execJugLdi n s
  | .ldr n => Sys2Proof.Machine.execLdr n s
  | .movr n => Sys2Proof.Machine.execMovr n s
  | .inPort n => Sys2Proof.Machine.execInPort n s
  | .outPort n => Sys2Proof.Machine.execOutPort n s
  | .post n => Sys2Proof.Machine.execPost n s
  | .rnd n => Sys2Proof.Machine.execRnd n s
  | .trapezeStart p u k => Sys2Proof.Machine.execTrapezeStart p u k s
  | .trapezeStop p u k => Sys2Proof.Machine.execTrapezeStop p u k s
  | .trainingPatternEnd k => Sys2Proof.Machine.execTrainingPatternEnd k s
  | .linkStateAdvance k => Sys2Proof.Machine.execLinkStateAdvance k s
  | .linkUp k => Sys2Proof.Machine.execLinkUp k s
  | .linkFail k c => Sys2Proof.Machine.execLinkFail k c s
  | .timeFlitReceive k x => Sys2Proof.Machine.execTimeFlitReceive k x s
  | .flitDiscard k x f => Sys2Proof.Machine.execFlitDiscard k x f s
  | .decFlitTransmit k => Sys2Proof.Machine.execDecFlitTransmit k s
  | .decFlitReceive k x => Sys2Proof.Machine.execDecFlitReceive k x s
  | .decRelease => Sys2Proof.Machine.execDecRelease s
  | .barrierArrive b => Sys2Proof.Machine.execBarrierArrive b s
  | .barFlitReceive k x => Sys2Proof.Machine.execBarFlitReceive k x s
  | .barrierRelease b => Sys2Proof.Machine.execBarrierRelease b s
  | .trapezeAbortSend p u v => Sys2Proof.Machine.execTrapezeAbortSend p u v s
  | .abortFlitReceive k x => Sys2Proof.Machine.execAbortFlitReceive k x s
  | .tmarkFlitReceive k x => Sys2Proof.Machine.execTmarkFlitReceive k x s
  | .trainDone k x => Sys2Proof.Machine.execTrainDone k x s
  | .mirrorReq k x => Sys2Proof.Machine.execMirrorReq k x s
  | .swapped k x => Sys2Proof.Machine.execSwapped k x s
  | .returned k x => Sys2Proof.Machine.execReturned k x s
  | .laneFailing k j => Sys2Proof.Machine.execLaneFailing k j s
  | .laneSwap k => Sys2Proof.Machine.execLaneSwap k s
  | .spareBad k => Sys2Proof.Machine.execSpareBad k s
  | .laneReturn k => Sys2Proof.Machine.execLaneReturn k s
  | .snapCapture p u => Sys2Proof.Machine.execSnapCapture p u s
  | .adjArm p u mode => Sys2Proof.Machine.execAdjArm p u mode s
  | .adjCancel p u => Sys2Proof.Machine.execAdjCancel p u s
  | .adjustmentApply => Sys2Proof.Machine.execAdjustmentApply s
  | .ptpMessageReceive p m => Sys2Proof.Machine.execPtpMessageReceive p m s
  | .ptpMessageSend p typ => Sys2Proof.Machine.execPtpMessageSend p typ s
  | .ptpHoldover => Sys2Proof.Machine.execPtpHoldover s
  | .triggerEdge x bin rise => Sys2Proof.Machine.execTriggerEdge x bin rise s
  | .trigLatchClear p u n v => Sys2Proof.Machine.execTrigLatchClear p u n v s
  | .tiuRun p u k => Sys2Proof.Machine.execTiuRun p u k s
  | .tiuAbort p u k => Sys2Proof.Machine.execTiuAbort p u k s
  | .tiuEvent k => Sys2Proof.Machine.execTiuEvent k s
  | .tiuDone k => Sys2Proof.Machine.execTiuDone k s
  | .markHost p u m v => Sys2Proof.Machine.execMarkHost p u m v s
  | .calBlockEvaluation r b => Sys2Proof.Machine.execCalBlockEvaluation r b s
  | .injectionStart p u r v => Sys2Proof.Machine.execInjectionStart p u r v s
  | .calApplyWrite p u v => Sys2Proof.Machine.execCalApplyWrite p u v s
  | .applyDie d => Sys2Proof.Machine.execApplyDie d s
  | .sliceRotate r => Sys2Proof.Machine.execSliceRotate r s
  | .rotationStepStart r => Sys2Proof.Machine.execRotationStepStart r s
  | .monitorVisit d m => Sys2Proof.Machine.execMonitorVisit d m s
  | .calSave p u => Sys2Proof.Machine.execCalSave p u s
  | .clrSave p u => Sys2Proof.Machine.execClrSave p u s
  | .calStorePeriodic => Sys2Proof.Machine.execCalStorePeriodic s
  | .storeComplete ok => Sys2Proof.Machine.execStoreComplete ok s
  | .eccWriteback a => Sys2Proof.Machine.execEccWriteback a s
  | .scrubRead a => Sys2Proof.Machine.execScrubRead a s
  | .mtestStart p u => Sys2Proof.Machine.execMtestStart p u s
  | .mtestAbort p u => Sys2Proof.Machine.execMtestAbort p u s
  | .windowBorrow => Sys2Proof.Machine.execWindowBorrow s
  | .windowRelease faulty => Sys2Proof.Machine.execWindowRelease faulty s
  | .windowAbandon faulty => Sys2Proof.Machine.execWindowAbandon faulty s
  | .mtestDone faults => Sys2Proof.Machine.execMtestDone faults s
  | .repmapSave p u => Sys2Proof.Machine.execRepmapSave p u s
  | .retModeWrite p u n v => Sys2Proof.Machine.execRetModeWrite p u n v s
  | .retWakeDone n => Sys2Proof.Machine.execRetWakeDone n s
  | .carouselStart p u x => Sys2Proof.Machine.execCarouselStart p u x s
  | .carouselStop p u x => Sys2Proof.Machine.execCarouselStop p u x s
  | .carouselFrame x => Sys2Proof.Machine.execCarouselFrame x s
  | .spectrumReady x => Sys2Proof.Machine.execSpectrumReady x s
  | .spectrumPush x => Sys2Proof.Machine.execSpectrumPush x s
  | .hkRoundStart edge => Sys2Proof.Machine.execHkRoundStart edge s
  | .hkConversion code val => Sys2Proof.Machine.execHkConversion code val s
  | .shutdownPowerDown => Sys2Proof.Machine.execShutdownPowerDown s
  | .shutdownDone => Sys2Proof.Machine.execShutdownDone s
  | .hardTrip x => Sys2Proof.Machine.execHardTrip x s
  | .fanTachUpdate f pulses => Sys2Proof.Machine.execFanTachUpdate f pulses s
  | .telemetryPush => Sys2Proof.Machine.execTelemetryPush s
  | .fwUpdateStart p u => Sys2Proof.Machine.execFwUpdateStart p u s
  | .fwUpdateComplete readBack => Sys2Proof.Machine.execFwUpdateComplete readBack s
  | .fuseMinSvn p u confirm => Sys2Proof.Machine.execFuseMinSvn p u confirm s
  | .fuseRevoke p u confirm => Sys2Proof.Machine.execFuseRevoke p u confirm s
  | .fuseWriteComplete => Sys2Proof.Machine.execFuseWriteComplete s
  | .attestationStart p u => Sys2Proof.Machine.execAttestationStart p u s
  | .attestationComplete => Sys2Proof.Machine.execAttestationComplete s
  | .ownerCheck p u n => Sys2Proof.Machine.execOwnerCheck p u n s
  | .ownerLock p u confirm => Sys2Proof.Machine.execOwnerLock p u confirm s
  | .ownerUnlock p u confirm => Sys2Proof.Machine.execOwnerUnlock p u confirm s
  | .ownerOpComplete => Sys2Proof.Machine.execOwnerOpComplete s
  | .resetAssert c => Sys2Proof.Machine.execResetAssert c s
  | .resetEnd => Sys2Proof.Machine.execResetEnd s
  | .rstCmdReset p u confirm => Sys2Proof.Machine.execRstCmdReset p u confirm s
  | .softwareResetExpiry => Sys2Proof.Machine.execSoftwareResetExpiry s
  | .startupPhaseComplete faults => Sys2Proof.Machine.execStartupPhaseComplete faults s
  | .linkPhaseTimeout => Sys2Proof.Machine.execLinkPhaseTimeout s
  | .refClkLost => Sys2Proof.Machine.execRefClkLost s
  | .relock p u => Sys2Proof.Machine.execRelock p u s
  | .relockDone => Sys2Proof.Machine.execRelockDone s
  | .ethrefLost => Sys2Proof.Machine.execEthrefLost s
  | .ethrefRelock => Sys2Proof.Machine.execEthrefRelock s
  | .syncCapture => Sys2Proof.Machine.execSyncCapture s
  | .syncArm p u => Sys2Proof.Machine.execSyncArm p u s
  | .syncCancel p u => Sys2Proof.Machine.execSyncCancel p u s
  | .syncPulse p u => Sys2Proof.Machine.execSyncPulse p u s
  | .syncPulsePeriodic => Sys2Proof.Machine.execSyncPulsePeriodic s
  | .biasSampleTick n b => Sys2Proof.Machine.execBiasSampleTick n b s
  | .unitRelease n v => Sys2Proof.Machine.execUnitRelease n v s
  | .pcsLockLoss p => Sys2Proof.Machine.execPcsLockLoss p s
  | .uncorrectableCodeword p => Sys2Proof.Machine.execUncorrectableCodeword p s
  | .markerFlit k => Sys2Proof.Machine.execMarkerFlit k s
  | .markerEdge m => Sys2Proof.Machine.execMarkerEdge m s
  | .refClkReturn => Sys2Proof.Machine.execRefClkReturn s
  | .biasCurrentLimitOrSenseOpen n b ilim senseOpen => Sys2Proof.Machine.execBiasCurrentLimitOrSenseOpen n b ilim senseOpen s

end Sys2Proof.Machine
end

