-- ==== Sys2Proof/Machine/Due.lean ====
section
/-! DEFINITION. What is due in a beat: for each kind of event that the passing of time brings, the meanings of the commands that
stand for it (log entry 1). The guard of the command's meaning says again whether it is due; a list here only finds it. -/

namespace Sys2Proof.Machine

/-- The meaning of a command, its operands given. -/
abbrev Act := State → Res

/-- One command when a condition holds. -/
def one (c : Bool) (i : Act) : List Act := if c then [i] else []

/-- One command for each index for which a condition holds. -/
def each (k : Nat) (c : Fin k → Bool) (i : Fin k → Act) : List Act := ((List.finRange k).filter c).map i

/-- One command for each ring and each index for which a condition holds. -/
def eachOf (k : Nat) (c : RingId → Fin k → Bool) (i : RingId → Fin k → Act) : List Act :=
  (List.finRange 12).flatMap fun (n : RingId) => each k (c n) (i n)

/-- The row of a sequencer opcode (R132, R135, R154). -/
def zRowAct (n : RingId) : Nat → Act
  | 0x00 => execNop n | 0x01 => execHalt n | 0x02 => execShot n | 0x03 => execWait n | 0x04 => execWaitc n
  | 0x05 => execSync n | 0x06 => execXsync n | 0x08 => execBr n | 0x09 => execCall n | 0x0A => execRet n
  | 0x0B => execLoop n | 0x0C => execEndl n | 0x0D => execCaseOp n | 0x0E => execDec n | 0x10 => execLdi n
  | 0x11 => execLd n | 0x12 => execSt n | 0x13 => execAdd n | 0x14 => execSub n | 0x15 => execAnd n | 0x16 => execOr n
  | 0x17 => execXor n | 0x18 => execShl n | 0x19 => execShr n | 0x1A => execCmp n | 0x20 => execPlay n
  | 0x21 => execPlays n | 0x22 => execStop n | 0x23 => execFrq n | 0x24 => execPhs n | 0x25 => execPhset n
  | 0x26 => execAmp n | 0x27 => execAcq n | 0x28 => execKer n | 0x29 => execBias n | 0x2A => execMark n
  | 0x2B => execTset n | 0x2C => execFade n | 0x2D => execSend n | 0x2E => execEvt n
  | _ => execIllegalInstruction n

/-- The row of a Juggler packet, by the number that `jRowOf` gives it (R309, R333). -/
def jRowAct (n : RingId) : Nat → Act
  | 0x00 => execJugNop n | 0x01 => execJugHalt n | 0x02 => execJugBr n | 0x03 => execBrr n | 0x04 => execJugCall n
  | 0x05 => execJugRet n | 0x06 => execRti n | 0x07 => execDoLoop n | 0x08 => execJugWait n | 0x09 => execJugLdi n
  | 0x0A => execLdr n | 0x0B => execMovr n | 0x0C => execInPort n | 0x0D => execOutPort n | 0x0E => execPost n
  | 0x0F => execRnd n | 0x20 => execMove n | 0x21 => execMov n | 0x22 => execJugAdd n | 0x23 => execJugSub n
  | 0x24 => execJugCmp n | 0x25 => execJugAnd n | 0x26 => execJugOr n | 0x27 => execJugXor n | 0x28 => execJugShl n
  | 0x29 => execJugShr n | 0x2A => execAsr n | 0x2B => execNeg n | 0x2C => execAbs n | 0x2D => execMin n
  | 0x2E => execMax n | 0x2F => execAdds n | 0x30 => execSubs n | 0x31 => execAclr n | 0x32 => execAmov n
  | 0x33 => execAadd n | 0x34 => execAsub n | 0x35 => execAshl n | 0x36 => execAshr n | 0x37 => execAneg n
  | 0x38 => execAabs n | 0x39 => execSgnb n | 0x40 => execMac n | 0x41 => execMac2 n | 0x42 => execAbsoluteMove n
  | _ => execIllegalPacket n

namespace State

/-- The front end of ring `n` can issue, and the instruction does not hold on what it held on before (R126, R128). -/
def issueDue (s : State) (n : Nat) : Bool :=
  s.zReady n && !(decide ((s.seq n).wait = .ld) && s.ldBlocks n (s.zFetch n)) &&
    !(decide ((s.seq n).wait = .queueFull) && decide (64 ≤ (s.seq n).taq.length))

/-- The command of the instruction at a ring's program counter. -/
def issueAct (s : State) (n : RingId) : Act :=
  if s.zBad n ∨ ¬ s.zLegal n (s.zFetch n) then execIllegalInstruction n else zRowAct n (zOp (s.zFetch n))

/-- The command of the packet at a Juggler's program counter. -/
def packetAct (s : State) (n : RingId) : Act :=
  if s.uncorr (ringMem n + 0x700000 + 4 * (s.jug n).pc.toNat) ∨ ¬ s.jLegalHere n (s.jFetch n) then execIllegalPacket n
  else jRowAct n (jRowOf (s.jFetch n))

/-- Port A serves the oldest request of ring `n` in this beat: its bank is free (R442), and no borrowed window delays it beyond a
first access that stops the test (R451). -/
def serveDue (s : State) (n : Nat) : Bool :=
  match (s.seq n).ldq.find? (·.served.isNone) with
  | none => false
  | some r =>
    let a := 0x10000000 + 4 * r.word
    !(s.memu.portA.any fun p => p.1 == r.word / 8 % 16) &&
      (decide ((s.touch a).1 = 0) || s.memu.borrow.any fun w => w.hit.isNone)

/-! ### The front end of a ring -/

/-- A meaning run inside a beat; one that stopped would leave the state as it was. -/
def run (s : State) (f : Act) : State :=
  match f s with
  | .next t => t
  | _ => s

/-- A hold of ring `n` that ends in this beat by its beat, its bits or its condition (R123, R117, R134, R164). -/
def endHold (s : State) (n : RingId) : State :=
  let s := match (s.seq n).wait with
    | .timing _ => s.run (execTimingHoldEnd n)
    | .waitN _ => s.run (execWaitEnd n)
    | .dec _ | .caseW _ => s.run (execDecisionArrive n)
    | _ => s
  s.run (execWaitConditionMet n)

/-- The front end of ring `n` in one beat: port A, the end of a hold, and the issue, which may follow a hold in its last beat (R122, R164,
R442). -/
def frontEnd (s : State) (n : RingId) : State :=
  let s := (if s.serveDue n then s.run (execLdComplete n) else s).endHold n
  if s.issueDue n then s.run (s.issueAct n) else s

/-- Whether the front end of ring `n` has something to do in this beat. -/
def frontDue (s : State) (n : RingId) : Bool :=
  s.serveDue n || s.issueDue n || s.decGoDue n || ((s.heldCond n).any fun c => s.condHolds n c) ||
    (decide ((s.seq n).st = .running) && match (s.seq n).wait with
      | .timing t | .waitN t => decide (t ≤ s.beat)
      | _ => false)

/-! ### The stages of a beat -/

/-- Decisions that reach dr (R117, R365): the beat is the first in which they can be read. -/
def stageDecisions (s : State) : List Act :=
  one (s.trap.relBuf.any fun e => decide (e.release ≤ s.db)) execDecRelease ++
    each 12 (fun n => !(s.arriving n).isEmpty) fun n s => .next (s.decArrive n)

/-- What a unit's clock ends or makes ready with the beat (R61, R195, R229-R231, R252, R253, R257, R270, R272, R273, R455): it holds already
for the scheduled writes and for the commands of the beat. -/
def stageClock (s : State) : List Act :=
  eachOf 4 (fun n c => let x := s.tx n c
      x.reqs.any (fun r => decide (r.1 ≤ s.beat)) || (x.host.isSome && x.hostAt.any fun t => decide (t ≤ s.beat))) execFadeReach ++
    eachOf 4 (fun n c => (s.tx n c).run.any fun r => decide (r.start + r.len ≤ s.beat)) execFadeEnd ++
    eachOf 4 (fun n b => let o := s.biasOut n b; decide (o.mode ≠ .rest ∧ o.y = o.t)) execBiasSlewEnd ++
    eachOf 4 (fun n b => s.bootTakes n b) (fun n b s => .next (s.bootTake n b)) ++
    eachOf 4 (fun n b => (s.takeDue n b).isSome) execBiasTake ++
  each 12 (fun n => (s.seq n).abortAt.any fun b => decide (b + 25 ≤ s.beat)) execAbortRampEnd ++
    eachOf 4 (fun n c => (s.tx n c).settleTo.any fun t => decide (t ≤ s.beat)) execTxSettleEnd ++
    eachOf 4 (fun n b => match (s.biasOut n b).span with | some (.holdZero t) => decide (t ≤ s.beat) | _ => false) execSpanSettleEnd ++
    eachOf 2 (fun n r => ((s.rx n r).readyAt.any fun t => decide (t ≤ s.beat)) && s.rst.relockTo.isNone) execRxReady ++
    eachOf 2 (fun n r => decide (12 ≤ s.beat ∧ (s.rx n r).detAt ≠ s.beat) && s.clippedAt n r (s.beat - 12)) execRxClip ++
    eachOf 2 (fun n r => (s.rx n r).clip && decide ((s.rx n r).detAt ≠ s.beat) && !s.clippedAt n r (s.beat - 12))
      execOverloadRemoved ++
    each 12 (fun n => (s.wakeDue n).isSome) execRetWakeDone ++
    each 2 (fun p => s.portLostDue p) execPortLost ++ each 2 (fun p => s.portUpDue p) execPortUp

/-- Scheduled writes (R68), resets, time and sessions. -/
def stageTime (s : State) : List Act :=
  s.schedDue.map execScheduleApply ++
    one (s.rst.swAt.any fun t => decide (t ≤ s.beat)) execSoftwareResetExpiry ++
    one (decide (s.rst.phase = .link ∧ s.rst.linkAt + 3000000000 ≤ s.beat)) execLinkPhaseTimeout ++
    one s.periodicPulse execSyncPulsePeriodic ++
    each 8 (fun u => s.sessionLate u) execSessionTimeout

/-- LD values that reach their registers, actions, and the checkpoints of rings (R129, R138, R168, R169, R195). -/
def stageRings (s : State) : List Act :=
  each 12 (fun n => (s.ldDue n).isSome) execLdComplete ++
    each 12 (fun n => (s.seq n).abortReq.isSome && s.ringRuns n && s.atCheckpoint n) execAbortAccept ++
    each 12 (fun n => s.releaseDue n) execActionRelease

/-- SHOT and HALT (R168, R169), barriers and SYNC (R166, R370), and what calibration does at them (R413, R421, R422). -/
def stageShots (s : State) : List Act :=
  each 12 (fun n => decide ((s.seq n).st = .running) && match (s.seq n).wait with
      | .cp0 => (s.seq n).taq.isEmpty
      | .cp1 t => decide (t ≤ s.beat)
      | _ => false) execShotBoundary ++
    each 12 (fun n =>
      let q := s.seq n
      decide ((q.st = .running ∨ q.st = .paused) ∧ q.wait = .cp2 ∧ q.boundaryAt < s.beat ∧ q.evalAt ≠ some s.beat)) execShotStart ++
    each 12 (fun n =>
      decide ((s.seq n).st = .running ∧ (s.seq n).wait = .haltDrain ∧ (s.seq n).taq = []) &&
        ((s.seq n).haltFrom.isNone || s.haltReady n)) execHaltComplete ++
    each 16 (fun b => match s.barRelease b with | some (r, _) => decide (r ≤ s.db) | none => false) execBarrierRelease ++
    (List.finRange 12).flatMap (fun (n : RingId) => match (s.seq n).wait with
      | .sync m => one (!(s.syncDue m).isEmpty) (execSyncRelease m)
      | _ => []) ++
    each 24 (fun r => s.rotStepDue r) execRotationStepStart

/-- Windows and their results (R285, R320). -/
def stageOutputs (s : State) : List Act :=
  eachOf 32 (fun n l => (s.closing n l).isSome) execWindowClose ++
    eachOf 32 (fun n l => (s.coarseDue n l).isSome) execCoarseResult ++
    eachOf 32 (fun n l => (s.fineDue n l).isSome) execFineResult

/-- Voices (R152, R153, R204, R220, R223). -/
def stageVoices (s : State) : List Act :=
  eachOf 32 (fun n v => (s.voice n v).reqs.any fun r => decide (r.act + 4 ≤ s.beat)) execRequestReachesVoice ++
    eachOf 32 (fun n v => s.boundaryDue n v) execSegmentBoundary ++
    eachOf 32 (fun n v => (s.claimDue n v).isSome) execUnitClaim ++
    eachOf 32 (fun n v => (s.unitDue n v).isSome) execUnitRelease ++
    eachOf 32 (fun n v => let l := (s.voice n v).stops
      !l.isEmpty && l.all fun P => decide (P + 24 ≤ s.beat)) execStopRampEnd

/-- Raw captures (R300). -/
def stageReceive (s : State) : List Act :=
  eachOf 2 (fun n r => (s.rx n r).cap.any fun c => decide (c.start + c.len ≤ s.beat)) execRawCaptureEnd

/-- Port A and the front ends of the sequencers, in the order of the rings (R122, R123, R134, R164, R165, R442, R443): a WAIT re-entered for
no beat at all goes on at once, in a second turn (R173). -/
def stageIssue (s : State) : List Act := each 12 (fun n => s.frontDue n) fun n s => .next ((s.frontEnd n).frontEnd n)

/-- The Jugglers (R329, R331, R340). -/
def stageJugglers (s : State) : List Act :=
  (List.finRange 12).flatMap fun (n : RingId) =>
    one ((s.jug n).timerAt.any fun t => decide (t ≤ s.beat)) (execJugTimerExpiry n) ++
      one (s.jEntry n).isSome (execInterruptEntry n) ++ one (s.jWaitDue n) (execJugWaitRelease n) ++ one (s.jReady n) (s.packetAct n)

/-- Time intervals, markers, memories, Carousel, housekeeping (R395, R396, R398, R450, R455, R461, R465, R469, R473, R486, R489). -/
def stageUnits (s : State) : List Act :=
  each 4 (fun k => (s.tiuDue k).isSome) execTiuEvent ++ each 4 (fun k => (s.tiu k).endFrom.isSome) execTiuDone ++
    each 16 (fun m => (s.edgeDue m).isSome) execMarkerEdge ++
    one s.borrowDue execWindowBorrow ++
    each 8 (fun i => s.frameDue i) execCarouselFrame ++
    each 8 (fun i => match (s.carSlot i).ready with | (_, t, _) :: _ => decide (t ≤ s.beat) | [] => false) execSpectrumReady ++
    each 8 (fun i => !(s.carSlot i).toPush.isEmpty) execSpectrumPush ++
    one (s.roundDue false) (execHkRoundStart false) ++ one (s.roundDue true) (execHkRoundStart true) ++ one s.powerDownDue execShutdownPowerDown ++
    one ((s.hk.shutW.any fun w => decide (w + 150000 ≤ s.beat)) && !s.regBit Reg.thermStatus 6) execShutdownDone ++
    one s.hk.telemDue.isSome execTelemetryPush

/-- The security operation that has taken its longest time (R502), except an update. -/
def stageSecurity (s : State) : List Act :=
  match s.secMust with
  | some o => (match o.kind with
    | .update => []
    | .fuse _ => [execFuseWriteComplete]
    | .attest => [execAttestationComplete]
    | _ => [execOwnerOpComplete])
  | none => []

/-- Trapeze links (R348, R352, R353, R355-R358) and PTP (R388). -/
def stageLinks (s : State) : List Act :=
  each 4 (fun k => (s.link k).txTrain.any fun t => decide (t ≤ s.beat)) execTrainingPatternEnd ++
    each 4 (fun k => decide ((s.link k).st = .delay) && s.delayDone k) execLinkStateAdvance ++
    each 4 (fun k => decide ((s.link k).st = .waitPeer) && (s.link k).peerDone &&
      decide (s.db % 256 = 0 ∧ (s.link k).since < s.beat ∧ (s.link k).doneAt < s.beat)) execLinkUp ++
    each 4 (fun k => decide ((s.link k).st = .clock) && s.failAllowed k .noclk) (fun k => execLinkFail k .noclk) ++
    each 4 (fun k => decide ((s.link k).st = .waitPeer) && s.failAllowed k .peer) (fun k => execLinkFail k .peer) ++
    each 4 (fun k => decide ((s.link k).st = .symbol) && s.failAllowed k .lanes) (fun k => execLinkFail k .lanes) ++
    (List.finRange 4).flatMap (fun (k : Fin 4) => each 9 (fun j => s.laneDue k j) (execLaneFailing k)) ++
    each 4 (fun k => decide ((s.link k).st = .up) && (s.link k).uncovered.any fun j => decide (2 ≤ missedRun (s.link k) j s.beat))
      (fun k => execLinkFail k .lanes) ++
    each 4 (fun k => s.spareBadDue k) execSpareBad ++ each 4 (fun k => s.swapDue k) execLaneSwap ++
    each 4 (fun k => s.returnDueNow k) execLaneReturn ++
    each 4 (fun k => (s.link k).txOn && decide (s.db % 256 = 255 ∧ (s.link k).slotAt ≠ some s.beat)) execMarkerFlit ++
    (List.finRange 2).flatMap (fun (p : Port) =>
      ([0, 11, 1, 2].filter fun t => s.ptpSendDue p t).map fun t => execPtpMessageSend p t) ++
    one s.holdoverDue execPtpHoldover

/-- The ports and the frames that leave (R61, R63, R73, R78, R82, R86, R107), and the periodic store (R429). -/
def stagePorts (s : State) : List Act :=
  one s.periodicDue execCalStorePeriodic ++
    (List.finRange 2).flatMap (fun (p : Port) =>
      each 8 (fun q => s.xoffRepeatDue p q) (execPfcXoffRepeat p) ++ each 8 (fun q => s.xonDue p q) (execPfcXon p)) ++
    (s.evKeys.filter fun e => e.deferred.isSome && decide (e.lastAt + 15000 ≤ s.beat)).map
      (fun e => execEventDeferredRecord e.code e.source e.subject) ++
    each 12 (fun n => s.resultPushDue n) execResultPush ++ eachOf 4 (fun n j => s.creditPushDue n j) execCreditPush ++
    s.evToPush.map fun _ => execEventPush

/-- Timeouts, which come last: what completes a hold in the same beat comes first (R147, R200). What posts overwrote is judged when the
beat's consumption is known (R199). -/
def stageLast (s : State) : List Act :=
  each 12 (fun n => s.timeoutDue n) execDecisionTimeout ++ each 12 (fun n => s.overDue n) fun n s => .next (s.judgePosts n)

/-- Arrivals at barriers (R368), the transmit slots of data flits (R348) and the scrubber (R441). -/
def stageClosing (s : State) : List Act :=
  each 16 (fun b => s.arriveDue b) execBarrierArrive ++
    each 4 (fun k => s.slotFree k && (s.nextFlit k).any fun f => f.typ == 1) execDecFlitTransmit

/-- The stages, in the order in which they act in a beat. Of the flags set in a shot-start beat itself, a BUSY by the clock stage falls to
the clear of R118, which comes later, and a LATE or UDR by the voices stays (DESIGN CHOICE, log entry 89: R118 orders only posts). -/
def stages : List (State → List Act) :=
  [stageDecisions, stageClock, stageTime, stageRings, stageShots, stageOutputs, stageVoices, stageIssue, stageReceive,
    stageJugglers, stageUnits, stageSecurity, stageLinks, stagePorts, stageClosing]

/-! ### What comes in from the analog world: each takes a free value, numbered by the model's counter -/

/-- Tests of memory rows (R447, R449, R450, R451). -/
def drawTest (s : State) : List (Nat → Act) :=
  (if s.memu.march.isSome && s.releaseWinDue then [fun k => execWindowRelease (Config.rowFaulty k)] else []) ++
    (if s.memu.march.isSome && s.abandonDue then [fun k => execWindowAbandon (Config.rowFaulty k)] else []) ++
    (if s.destructEnds.isSome then [fun k => execMtestDone (Config.faultyRows k)] else [])

/-- NVM writes that end at their longest (R429, R502). -/
def drawStore (s : State) : List (Nat → Act) :=
  (match s.cal.store with
    | some t => if t.start + storeLimit t.kind ≤ s.beat then [fun k => execStoreComplete (Config.readBack k)] else []
    | none => []) ++
    (match s.secMust with
      | some o => if o.kind = .update then [fun k => execFwUpdateComplete (Config.readBack k)] else []
      | none => [])

/-- Calibration blocks and monitor visits (R407, R425). -/
def drawCal (s : State) : List (Nat → Act) :=
  ((List.finRange 24).filter fun (r : Fin 24) => decide ((s.rxCal r).evalAt = some s.beat)).map
      (fun (r : Fin 24) k => execCalBlockEvaluation r (Config.blockStats k)) ++
    ((List.finRange 4).filter fun (d : Fin 4) => (s.dieCal d).seen.any fun e => decide (e.2 = s.beat)).map
      (fun (d : Fin 4) k => execMonitorVisit d (Config.monVisit k))

/-- Housekeeping (R473, R488). -/
def drawHk (s : State) : List (Nat → Act) :=
  (if s.conversionDue then [fun k => execHkConversion (Config.hkCode k) (Config.hkValue k)] else []) ++
    ((List.finRange 2).filter fun (f : Fin 2) => decide ((s.hk.fans.getD f {}).nextAt ≤ s.beat)).map
      (fun (f : Fin 2) k => execFanTachUpdate f (Config.fanPulses k))

/-- Phases of start-up and relocks at their longest (R520, R522). -/
def drawPower (s : State) : List (Nat → Act) :=
  (if s.workPhase && decide (s.rst.phaseAt + s.phaseMax ≤ s.rst.ticks) then [fun k => execStartupPhaseComplete (Config.startupFaults k)]
    else []) ++
    (if s.rst.relockTo.any fun t => decide (t + 3000000 ≤ s.beat) then [fun _ => execRelockDone] else [])

/-- Optical modules (R40, R550). -/
def drawModules (s : State) : List (Nat → Act) :=
  ((List.finRange 2).filter fun (p : Port) => s.pollDue p).map (fun p k => execModulePoll p (Config.modPresent k) (Config.modAlarm k)) ++
    ((List.finRange 2).filter fun (p : Port) => s.mirrorDue p).map (fun p k => execModuleMirror p (Config.modPages k).toList)

/-- The sources of such values, in the order in which they act. -/
def draws : List (State → List (Nat → Act)) := [drawTest, drawStore, drawCal, drawHk, drawPower, drawModules]

end State

end Sys2Proof.Machine
end

