-- ==== Sys2Proof/Machine/Tick.lean ====
section
/-! DEFINITION. The passing of one beat (log entry 1): what the step does when no command waits. -/

namespace Sys2Proof.Machine

namespace State

/-- Everything that a stage finds due acts; the flag says whether anything was due. -/
def runStage (p : Bool × State) (f : State → List Act) : Bool × State :=
  let l := f p.2
  (p.1 || !l.isEmpty, l.foldl run p.2)

/-- Every stage acts once, in order. -/
def pass (fs : List (State → List Act)) (s : State) : Bool × State := fs.foldl runStage (false, s)

/-- The stages act until nothing more is due in the beat, at most `k` times. -/
def settle (fs : List (State → List Act)) : Nat → State → State
  | 0, s => s
  | k + 1, s =>
    match pass fs s with
    | (true, t) => settle fs k t
    | (false, t) => t

/-- A row that takes a free value takes the next one. -/
def runDraw (s : State) (f : Nat → Act) : State := { s with freeCtr := s.freeCtr + 1 }.run (f s.freeCtr)

/-- Everything that the analog world brings in the beat acts. -/
def drawAll (s : State) : State := draws.foldl (fun s f => (f s).foldl runDraw s) s

/-- The most passes that one beat makes. -/
def passMax : Nat := 4096

/-- What is due in a beat acts, after the commands that the queue brought in it: first what comes from the analog world, a thermal
shutdown with its aborts among it (R171); holds that nothing has ended time out last. -/
def settleBeat (s : State) : State :=
  let s := (settle stages passMax (s.forBelow 12 fun n s => s.microLate n).drawAll).drawAll
  settle (stages ++ [stageLast]) passMax (settle stages passMax s)

/-- What is left to the memories at the end of a beat: the host's block operations (R437, R442), then, in banks that these and the rings have
left free, write-backs of words corrected in an earlier beat (R440) and the scrubber (R441). -/
def memBeat (s : State) : State :=
  let s := s.dmaBeat
  let s := (s.memu.writeback.filter fun a => s.bankFree a && !s.memu.fixed.contains a).foldl writeBack s
  let s := s.scrubDue.foldl (fun s a => s.run (execScrubRead (BitVec.ofNat 32 a))) s
  s.scrubBeat

/-- What every unit but the ports does at the end of a beat. -/
def endUnits (s : State) : State :=
  let s := (s.rxBeat s.beat).txBeat
  let s := s.forBelow 12 fun n s => ((s.jugOverruns n).jugBeatEnd n).microStep n
  let s := (s.exportBeat.abortBeat.barMeet.forBelow 4 fun k s => s.linkSlot k).calBeat
  ((((s.repBeat).passInst).carBeat).tripBeat).rampBeat.memBeat.answerFrames.applyLate

/-- The ports at the end of a beat, and what counts within one beat ends. -/
def endPorts (s : State) : State :=
  let s := (s.forBelow 2 fun p s => (s.fecBeat p).egressBeat p).ingressBeat
  let s := s.forBelow 12 fun n s => s.forBelow 2 fun r s => s.rawHandOver n r
  let s := s.modMemu fun m => { m with portA := [], portB := [], fixed := [] }
  { s with beatWrites := [], beatSets := [], carmineNow := none }

/-- The end of a beat. -/
def endBeat (s : State) : State := s.endUnits.endPorts

/-- RX_FREQ_OK of a link in the present beat (R353): a link whose received clock drifts fails. -/
def freqBeat (s : State) (k : Nat) : State :=
  let ok := Config.rxFreqOk k s.beat
  let s := s.modLink k fun l => { l with freqOk := ok }
  if ¬ ok ∧ s.failAllowed k .freq then s.failLink k .freq else s

/-- The bias tick grid and the limiter of every output (R253, R254). -/
def biasBeat (s : State) : State :=
  s.forBelow 12 fun n s => s.forBelow 4 fun b s =>
    let s := s.modBias n b fun o => s.limiterBeat n b o
    if (s.beat - (s.seq n).gridAt) % 60 = 0 then s.biasSample n b else s

/-- Raw-capture frames (R301), one for each buffer that pushes. -/
def rawBeat (s : State) : State :=
  s.forBelow 12 fun n s => s.forBelow 2 fun r s => if (s.rx n r).raw = .pushing ∧ ¬ s.rawMade n r then s.pushRaw n r else s

/-- What every unit does at the start of a beat. -/
def startBeat (s : State) : State :=
  let s := { s with alertLow := s.alertDue }.pinBeat.lanePinBeat.biasBeat
  let s := s.forBelow 12 fun n s => s.jugBeat n
  let s := (Config.upsets s.beat).foldl upset (s.forBelow 12 fun n s => s.microBeat n)
  let s := (s.forBelow 8 fun i s => s.trigDeliver i).deliverAborts
  let s := s.forBelow 4 fun k s => s.freqBeat k
  s.ptpBeat.edgeBeat.rawBeat

/-- A beat period of the boot ROM before the core PLL locks, or of reset: nothing counts but the time since reset, which ends a
reset by command after 10 us (R514) and phase 0x0 at its longest (R522). -/
def earlyBeat (s : State) : State :=
  let s := s.modRst fun r => { r with ticks := r.ticks + 1 }
  if s.rst.inReset then
    if s.rst.clearAt = some 0 ∧ 15000 ≤ s.rst.ticks then s.run execResetEnd else s
  else if s.workPhase ∧ s.rst.phaseAt + s.phaseMax ≤ s.rst.ticks then
    s.runDraw fun k => execStartupPhaseComplete (Config.startupFaults k)
  else s

/-- The next beat begins: a due adjustment of network time, which every reading of the beat sees (R381), due APPLYs and slice swaps, which
come before what the host writes in the beat (R411, R422), what its clocks end, then scheduled writes, which come before the commands of
the beat (R68), and the rest of frames that a block operation held (R52). -/
def nextBeat (s : State) : State :=
  let s := { s with beat := s.followingBeat, rst := { s.rst with ticks := s.rst.ticks + 1, realign := false } }
  let s := (List.finRange 4).foldl (fun s d => s.run (execApplyDie d)) (s.run execAdjustmentApply)
  let s := (List.finRange 24).foldl (fun s r => s.run (execSliceRotate r)) s
  let s := (settle [stageDecisions, stageClock] passMax s.startBeat).codePin
  (settle [stageDecisions, stageClock, stageTime] passMax s).goOnFrames

/-- One beat passes (log entry 1): what is due in the present one acts, it ends, and the next begins. -/
def tick (s : State) : State :=
  if s.beating then
    let s := s.settleBeat
    if s.beating then s.endBeat.nextBeat else s
  else s.earlyBeat

end State

end Sys2Proof.Machine
end

