-- ==== Sys2Proof/Machine/Step.lean ====
section
/-! DEFINITION. The step of the block: the command at the front of the queue, or the passing of a beat when the queue is
empty (log entry 1). -/

namespace Sys2Proof.Machine

/-- One step: the oldest waiting command takes effect on the state with the rest of the queue; when none waits, one beat
passes. -/
def step (s : State) : Host.Outcome State Fault Refusal :=
  match s.pending with
  | [] => .next s.tick
  | c :: t => exec c { s with pending := t }

/-- `s` with the command that a table word spells in front of its queue: unchanged, because the table gives no bits. -/
def State.withFetchWord (s : State) (nbits w : Nat) : State :=
  match Sys2Proof.decodeTableWord nbits w with
  | some c => { s with pending := c :: s.pending }
  | none => s

end Sys2Proof.Machine
end

