-- ==== Sys2Proof/Safety.lean ====
section
/-! DEFINITION. What counts as a sound state: the sparse stores are in their canonical form, and every unit that the spec counts
is there that many times. -/

namespace Sys2Proof.Machine

/-- A Juggler has its 32 coarse results, fine results and RINFO words (R319, R322). -/
def Jug.Sized (j : Jug) : Prop :=
  j.cres.length = 32 ∧ j.fresI.length = 32 ∧ j.fresQ.length = 32 ∧ j.rinfo.length = 32

/-- A ring has 32 voices, 4 TX channels, 4 bias outputs, 2 RX channels, 32 lanes and 4 streams (R11-R13, R71). -/
def Ring.Sized (r : Ring) : Prop :=
  r.voices.length = 32 ∧ r.tx.length = 4 ∧ r.bias.length = 4 ∧ r.rx.length = 2 ∧ r.lanes.length = 32 ∧ r.strm.length = 4 ∧ r.jug.Sized

/-- A port has eight priorities (R85, R86). -/
def EthPort.Sized (e : EthPort) : Prop := e.ingress.length = 8 ∧ e.xoffAt.length = 8 ∧ e.pausedTo.length = 8

/-- Calibration of 24 RX channels, 48 TX channels and 4 converter dies (R407, R411, R425). -/
def CalUnit.Sized (c : CalUnit) : Prop := c.rx.length = 24 ∧ c.tx.length = 48 ∧ c.die.length = 4

/-- 16 sensors and 2 fans (R474, R488). -/
def HkUnit.Sized (h : HkUnit) : Prop := h.sens.length = 16 ∧ h.fans.length = 2

/-- Every unit of the device is there as often as the spec counts it (R11, R33, R53, R342, R368, R390, R393, R397, R455, R458). -/
def State.Sized (s : State) : Prop :=
  s.rings.length = 12 ∧ (∀ r ∈ s.rings, r.Sized) ∧ s.sess.length = 8 ∧ s.ports.length = 2 ∧ (∀ e ∈ s.ports, e.Sized) ∧
    s.links.length = 4 ∧ s.trap.bars.length = 16 ∧ s.trigs.length = 8 ∧ s.tius.length = 4 ∧ s.marks.length = 16 ∧
    s.car.length = 8 ∧ s.memu.wake.length = 12 ∧ s.cal.Sized ∧ s.hk.Sized

/-- The register file and the memories are in canonical form: equal contents are equal data. -/
def State.Canonical (s : State) : Prop := Regs.wf s.regs = true ∧ Memory.wf s.mem = true

/-- The invariant of the block. -/
def State.Inv (s : State) : Prop := s.Canonical ∧ s.Sized

/-! ### What statements about Zwiec instructions speak of -/

/-- Ring `n` issues the instruction `w` in this beat and nothing stands in the way: its front end may issue, `w` lies at the program
counter in array words without errors, not fetched early by a CASE, no resume point is saved, no LD is on its way and no memory window is
borrowed (R120, R122, R126, R148, R172, R438, R451). -/
structure State.Issues (s : State) (n : Nat) (w : BitVec 64) : Prop where
  ready : s.zReady n = true
  fetched : s.zFetch n = w
  own : (s.seq n).caseUse = none
  sound : s.damageIn (s.zAddr n) 8 = []
  whole : s.memu.borrow = none
  fresh : s.regFld (Reg.seqRsc n) 3 0 = 0
  free : (s.seq n).ldq = []

/-- A legal control instruction, or a legal action in MODE 3, issues and its timing lets it go on in this beat; `g` is the state in which it acts
(R123, R128). -/
def State.Goes (s : State) (n : Nat) (w : BitVec 64) (g : State) : Prop :=
  s.Issues n w ∧ s.zLegal n w = true ∧ (zAction w = true → zMode w = 3) ∧
    (s.modSeq n fun q => { q with wait := .none }).zGate n w = (true, g)

/-- Nothing but the sequencer of ring `n` and the registers listed differs between the states. -/
def State.OnlySeq (g t : State) (n : Nat) (as : List Nat) : Prop :=
  (∀ a, a ∉ as → t.getReg a = g.getReg a) ∧
    ∃ q r b, t = { g.modSeq n (fun _ => q) with regs := r, beatSets := b }

/-- An instruction of ring `n` that a TRIG condition `c` completes clears the latch of its input and edge; what sets the latch in the same
beat keeps it set (R118, R134). -/
def State.LatchSpent (g t : State) (n : Nat) (c : BitVec 16) : Prop :=
  fld c 15 12 = 2 →
    let b := 2 * fld c 2 0 + fld c 3 3
    t.getReg (Reg.trigLatch n) =
      if (Reg.trigLatch n, b) ∈ g.beatSets then g.getReg (Reg.trigLatch n) else putBit (g.getReg (Reg.trigLatch n)) b false

/-- The ring goes on at `pc`, `k` beats from now (R120, R122, R141). -/
def State.Onward (g t : State) (n pc k : Nat) : Prop :=
  t.getReg (Reg.seqPc n) = BitVec.ofNat 32 (pc % 32768) ∧ t.getReg (Reg.seqRsc n) = 0 ∧
    t.seq n = { g.seq n with wait := .none, issueAt := g.beat + k, caseGot := none, caseUse := none }

/-- The register that an operation writes (R133). -/
def destReg (n i : Nat) : Nat := if i < 16 then Reg.seqG n i else Reg.seqLc n (i - 16)

/-- Z, N, C and V of st stand for the result `r`, carry `c` and overflow `v`, and the other bits of st are as before (R115, R137). -/
def State.CondIs (g t : State) (n : Nat) (r : Word) (c v : Bool) : Prop :=
  let st := t.getReg (Reg.seqSt n)
  bit st 0 = decide (r = 0) ∧ bit st 1 = bit r 31 ∧ bit st 2 = c ∧ bit st 3 = v ∧
    fld st 31 4 = fld (g.getReg (Reg.seqSt n)) 31 4

/-- An arithmetic instruction has ended: the result is written, the flags stand for it, the ring goes on at the next instruction, and
nothing else changed (R137). -/
def State.Result (g t : State) (n : Nat) (w : BitVec 64) (r : Word) (c v : Bool) : Prop :=
  t.getReg (destReg n (fld w 39 35)) = r ∧ g.CondIs t n r c v ∧ g.Onward t n (g.seqPc n + 1) 1 ∧
    g.OnlySeq t n [destReg n (fld w 39 35), Reg.seqSt n, Reg.seqPc n, Reg.seqRsc n]

/-- A DEC or CASE of bits `b` to `b + k - 1` of ring `n` finds them valid in this beat: as they stood before the posts of the beat, with
`old`, or through those posts; it reads its bits from `v` (R117). -/
def State.Sees (g : State) (n b k : Nat) (coarse : Bool) (v : Word) (old : Bool) : Prop :=
  let m := g.meetNow n
  let before := ∀ i < k, bit (if coarse then m.drvc else m.drvf) (b + i) = true
  let now := ∀ i < k, bit (g.getReg (if coarse then Reg.seqDrvc n else Reg.seqDrvf n)) (b + i) = true
  if old then before ∧ v = m.dr else ¬ before ∧ now ∧ v = g.getReg (Reg.seqDr n)

/-- Bits `b` to `b + k - 1` of ring `n` are consumed: they leave both valid masks, and with `old` what posts of the beat set stays (R117). -/
def State.Spent (g t : State) (n b k : Nat) (old : Bool) : Prop :=
  let keep := ~~~(BitVec.ofNat 32 (fieldMask (b + k - 1) b))
  let still := fun fine : Bool => if old then State.postMask fine (g.meetNow n).posts else 0
  t.getReg (Reg.seqDrvf n) = (g.getReg (Reg.seqDrvf n) &&& keep) ||| still true ∧
    t.getReg (Reg.seqDrvc n) = (g.getReg (Reg.seqDrvc n) &&& keep) ||| still false

/-- The command of a Zwiec opcode in ring `n` (R132). -/
def zwiecRow (op : Nat) (n : RingId) : Option Instr :=
  match op with
  | 0x00 => some (.nop n) | 0x01 => some (.halt n) | 0x02 => some (.shot n) | 0x03 => some (.wait n) | 0x04 => some (.waitc n)
  | 0x05 => some (.sync n) | 0x06 => some (.xsync n) | 0x08 => some (.br n) | 0x09 => some (.call n) | 0x0A => some (.ret n)
  | 0x0B => some (.loop n) | 0x0C => some (.endl n) | 0x0D => some (.caseOp n) | 0x0E => some (.dec n) | 0x10 => some (.ldi n)
  | 0x11 => some (.ld n) | 0x12 => some (.st n) | 0x13 => some (.add n) | 0x14 => some (.sub n) | 0x15 => some (.and n)
  | 0x16 => some (.or n) | 0x17 => some (.xor n) | 0x18 => some (.shl n) | 0x19 => some (.shr n) | 0x1A => some (.cmp n)
  | 0x20 => some (.play n) | 0x21 => some (.plays n) | 0x22 => some (.stop n) | 0x23 => some (.frq n) | 0x24 => some (.phs n)
  | 0x25 => some (.phset n) | 0x26 => some (.amp n) | 0x27 => some (.acq n) | 0x28 => some (.ker n) | 0x29 => some (.bias n)
  | 0x2A => some (.mark n) | 0x2B => some (.tset n) | 0x2C => some (.fade n) | 0x2D => some (.send n) | 0x2E => some (.evt n)
  | _ => none

/-- Nothing but ring `n` and the registers listed differs between the states, and memory is the same (R12, R13). -/
def State.OnlyRing (s t : State) (n : Nat) (as : List Nat) : Prop :=
  (∀ a, a ∉ as → t.getReg a = s.getReg a) ∧ (∀ k, k ≠ n → t.ring k = s.ring k) ∧
    ∃ l r b, t = { s with rings := l, regs := r, beatSets := b }

/-- No record of the ring is held for its shot (R191). -/
def State.NoneHeld (s : State) (n : Nat) : Prop := ∀ r ∈ (s.resq n).recs, r.held = false

/-- The registers that the streams of a ring move when units are released (R72). -/
def streamRegs (n : Nat) : List Nat := (List.range 4).flatMap fun j => [Reg.strmPlayptr n j, Reg.strmLimit n j]

/-- An action instruction acts in this beat in the state `g`, and the ring has gone on: in MODE 3 when its condition holds, in MODE 0 at
once through a queue that is not full, holds nothing due and may release in this beat (R123, R125, R128, R129). -/
def State.ActsNow (s : State) (n : Nat) (w : BitVec 64) (g : State) : Prop :=
  zAction w = true ∧
    ((zMode w = 3 ∧ ∃ h, s.Goes n w h ∧ g = h.goNext n) ∨
      (zMode w = 0 ∧ s.Issues n w ∧ s.zLegal n w = true ∧ (s.seq n).taq.length < 64 ∧ (∀ e ∈ (s.seq n).taq, s.beat < e.at_) ∧
        s.releasedNow n < 8 ∧
        g = ((s.modSeq n fun q => { q with wait := .none }).goNext n).modSeq n fun q =>
          { q with relBeat := s.beat, relCount := s.releasedNow n + 1 }))

/-! ### What statements about host commands speak of -/

/-- The state in which an operation of a frame of session `u` from port `p` acts: the frame is noted for the session's timeout and its
pushes, and a register write ends a low word that the session had staged (R57, R60, R101). -/
def State.heard (s : State) (p u : Nat) : State := { s.noteFrame u p none with curPort := p }

/-- The lease register that covers the register at `a`, none where no lease does (R64). -/
def leaseOf (a : Nat) : Option Nat := (findReg a).bind RegHit.lease

/-- Session `u` may write the register at `a` through port `p` now, whatever the register's own rules say: the port answers, the session
is open, it or nobody holds the lease, the device is not in recovery mode, and no other write of this beat has won the register. The write
acts in the state `g` (R50, R63, R64, R66, R498). -/
structure State.Takes (s : State) (p u a : Nat) (g : State) : Prop where
  answers : s.portAnswers p = true
  isOpen : (s.session u).isOpen = true
  state : g = (s.heard p u).modSess u fun x => { x with stage := none }
  lease : ∀ x, leaseOf a = some x → g.leaseOk x u = true
  served : g.rst.phase ≠ .recovery
  won : g.lostWrite p a = false

/-- `t` with the answer OK to a WRITE of the register at `a`, which the rest of the beat sees (R46, R66). -/
def State.wrote (t : State) (p a : Nat) : State :=
  { t.noteWrite p a with resp := [{ op := 0x02, addr := BitVec.ofNat 32 a, status := 0, count := 1 }] }

/-- The Juggler of ring `n` issues the legal packet `w` in this beat: no memory window is borrowed, and neither the packet nor a data word
that it accesses holds an error; with the results that are due visible, and the sr that an RTI has restored, the packet acts in the state `g`
(R307, R309, R310, R332, R335, R338). -/
structure State.JIssues (s : State) (n : Nat) (w : Word) (g : State) : Prop where
  ready : s.jReady n = true
  fetched : s.jFetch n = w
  whole : s.memu.borrow = none
  sound : s.damageIn (ringMem n + 0x700000 + 4 * (s.jug n).pc.toNat) 4 = []
  data : ∀ a ∈ g.jTouched n w, g.damageIn a 4 = []
  legal : s.jLegalHere n w = true
  state : g = ((s.jSettle n).jRestore n).modJug n fun j => { j with issuedAt := some s.beat, rtiHold := j.rtiHold && j.slots.isSome }

/-- The flags that the next packet sees stand for the result `r`, carry `c` and overflow `v` (R137, R307, R318). -/
def State.jFlagged (g : State) (n : Nat) (r : Word) (c v : Bool) : State :=
  g.jSend n 1 44 (BitVec.ofNat 72 ((decide (r = 0)).toNat + 2 * (bit r 31).toNat + 4 * c.toNat + 8 * v.toNat)) false

/-- The next packet sees the result `r` in the d register `dst`, and its flags (R307, R318). -/
def State.jResult (g : State) (n dst : Nat) (r : Word) (c v : Bool) : State :=
  (g.jSend n 1 dst (BitVec.ofNat 72 r.toNat) false).jFlagged n r c v

/-- The packet after the next sees the exact result `r` in accumulator `a` modulo 2^72, and AV; a result out of range sets the flag ACC_OVF
(R307, R315, R341). -/
def State.jAccResult (g : State) (n a : Nat) (r : Int) : State :=
  let out := !fits 72 r
  ((g.jSend n 2 (42 + a) (BitVec.ofInt 72 r) false).jSend n 2 45 (if out then 1 else 0) false).raiseIf out (Reg.jugFlags n) 4

/-- An operation of a frame of session `u` from port `p` is executed, in the state `g`: the port answers, the session is open, and the
device is not in recovery mode (R50, R63, R498). -/
structure State.Hears (s : State) (p u : Nat) (g : State) : Prop where
  answers : s.portAnswers p = true
  isOpen : (s.session u).isOpen = true
  state : g = s.heard p u
  served : g.rst.phase ≠ .recovery

/-- `t` with the answer OK to an operation (R46). -/
def State.says (t : State) (op : Nat) (a : Word) (count : Nat) (body : List Byte) : State :=
  { t with resp := [{ op := BitVec.ofNat 8 op, addr := a, status := 0, count := count, body := body }] }

/-- `t` with the answer that an operation is refused (R46, R112, R113). -/
def State.refuses (t : State) (op : Nat) (a : Word) (count : Nat) (e : Err) : State :=
  { t with resp := [{ op := BitVec.ofNat 8 op, addr := a, status := e.code, count := count }] }

/-- The frame `f` stands last in the egress queue of port `p`, with its priority and tag, and the queue held what it holds in `s` before
(R38, R84). -/
def State.Queued (s t : State) (p : Nat) (f : OutFrame) : Prop :=
  (t.port p).egress = (s.port p).egress ++ [s.dressed p f]

end Sys2Proof.Machine
end

