-- ==== Sys2Proof/Certificates/Slice0/Obligations.lean ====
section
/-! DEFINITION. The statements for the provers. -/

open Sys2Proof Sys2Proof.Machine

/-! ### Zwiec instructions -/

/-- ADD, SUB, AND, OR, XOR, SHL and SHR write their result modulo 2^32 and set Z, N, C and V from it; CMP sets the flags as SUB does and
writes nothing (R136, R137). -/
def Obligations.ZwiecArithmeticWritesResultAndFlags : Prop :=
  ∀ (s g : State) (n : RingId) (w : BitVec 64), s.Inv → s.Goes n w g →
    let a := g.zReg n (fld w 34 30)
    let b := if bit w 29 then BitVec.ofInt 32 (sfld w 28 0) else g.zReg n (fld w 28 24)
    let k := b.toNat % 32
    let noBorrow := decide (b.toNat ≤ a.toNat)
    let subV := decide ((a - b).toInt ≠ a.toInt - b.toInt)
    (zOp w = 0x13 → ∃ t, exec (.add n) s = .next t ∧
      g.Result t n w (a + b) (decide (2 ^ 32 ≤ a.toNat + b.toNat)) (decide ((a + b).toInt ≠ a.toInt + b.toInt))) ∧
    (zOp w = 0x14 → ∃ t, exec (.sub n) s = .next t ∧ g.Result t n w (a - b) noBorrow subV) ∧
    (zOp w = 0x15 → ∃ t, exec (.and n) s = .next t ∧ g.Result t n w (a &&& b) false false) ∧
    (zOp w = 0x16 → ∃ t, exec (.or n) s = .next t ∧ g.Result t n w (a ||| b) false false) ∧
    (zOp w = 0x17 → ∃ t, exec (.xor n) s = .next t ∧ g.Result t n w (a ^^^ b) false false) ∧
    (zOp w = 0x18 → ∃ t, exec (.shl n) s = .next t ∧ g.Result t n w (a <<< k) (decide (0 < k) && bit a (32 - k)) false) ∧
    (zOp w = 0x19 → ∃ t, exec (.shr n) s = .next t ∧ g.Result t n w (a >>> k) (decide (0 < k) && bit a (k - 1)) false) ∧
    (zOp w = 0x1A → ∃ t, exec (.cmp n) s = .next t ∧ g.CondIs t n (a - b) noBorrow subV ∧ g.Onward t n (g.seqPc n + 1) 1 ∧
      g.OnlySeq t n [Reg.seqSt n, Reg.seqPc n, Reg.seqRsc n])

/-- LDI writes its 32-bit immediate and NOP nothing; both go on at the next instruction and change nothing else, no flag among it (R132,
R136, R137). BR, CALL, RET, LOOP and ENDL: where the ring goes on, 2 beats later when the branch is taken and 1 beat later when it is not;
the return stack with st.DEPTH, and the loop counter (R140-R143). -/
def Obligations.ZwiecLoadNopAndControlFlow : Prop :=
  (∀ (s g : State) (n : RingId) (w : BitVec 64), s.Inv → s.Goes n w g →
    (zOp w = 0x10 → ∃ t, exec (.ldi n) s = .next t ∧ t.getReg (destReg n (fld w 39 35)) = BitVec.ofNat 32 (fld w 31 0) ∧
      g.Onward t n (g.seqPc n + 1) 1 ∧ g.OnlySeq t n [destReg n (fld w 39 35), Reg.seqPc n, Reg.seqRsc n]) ∧
    (zOp w = 0x00 → ∃ t, exec (.nop n) s = .next t ∧ g.Onward t n (g.seqPc n + 1) 1 ∧
      g.OnlySeq t n [Reg.seqPc n, Reg.seqRsc n])) ∧
  (∀ (s g : State) (n : RingId) (w : BitVec 64), s.Inv → s.Goes n w g →
    let pc := g.seqPc n
    let d := fld (g.getReg (Reg.seqSt n)) 20 16
    let lc := Reg.seqLc n (fld w 39 38)
    let c : Word := if bit w 37 then g.getReg (Reg.seqG n (fld w 36 33)) else BitVec.ofNat 32 (fld w 32 17)
    (zOp w = 0x08 → ∃ t, exec (.br n) s = .next t ∧ g.OnlySeq t n [Reg.seqPc n, Reg.seqRsc n] ∧
      (brTaken (g.getReg (Reg.seqSt n)) (fld w 39 36) = true → g.Onward t n (fld w 14 0) 2) ∧
      (brTaken (g.getReg (Reg.seqSt n)) (fld w 39 36) = false → g.Onward t n (pc + 1) 1)) ∧
    (zOp w = 0x09 → ∃ t, exec (.call n) s = .next t ∧ g.Onward t n (fld w 14 0) 2 ∧
      t.getReg (Reg.seqStack n d) = BitVec.ofNat 32 ((pc + 1) % 32768) ∧ fld (t.getReg (Reg.seqSt n)) 20 16 = d + 1 ∧
      g.OnlySeq t n [Reg.seqStack n d, Reg.seqSt n, Reg.seqPc n, Reg.seqRsc n]) ∧
    (zOp w = 0x0A → ∃ t, exec (.ret n) s = .next t ∧ g.Onward t n (g.getReg (Reg.seqStack n (d - 1))).toNat 2 ∧
      fld (t.getReg (Reg.seqSt n)) 20 16 = d - 1 ∧
      g.OnlySeq t n [Reg.seqStack n (d - 1), Reg.seqSt n, Reg.seqPc n, Reg.seqRsc n]) ∧
    (zOp w = 0x0B → ∃ t, exec (.loop n) s = .next t ∧ t.getReg lc = c ∧ g.OnlySeq t n [lc, Reg.seqPc n, Reg.seqRsc n] ∧
      (c ≠ 0 → g.Onward t n (pc + 1) 1) ∧ (c = 0 → g.Onward t n (fld w 14 0 + 1) 2)) ∧
    (zOp w = 0x0C → ∃ t, exec (.endl n) s = .next t ∧ g.OnlySeq t n [lc, Reg.seqPc n, Reg.seqRsc n] ∧
      (1 < (g.getReg lc).toNat → t.getReg lc = g.getReg lc - 1 ∧ g.Onward t n (fld w 14 0) 2) ∧
      ((g.getReg lc).toNat ≤ 1 → t.getReg lc = 0 ∧ g.Onward t n (pc + 1) 1)))

/-- DEC, CASE and WAITC complete in their issue beat when their bits are valid or their condition holds, and hold with the timeout beat of
their tg register otherwise. Bits that were valid before the posts of the beat are read as they were then; those that only its posts made
valid are read with them; what is consumed leaves both valid masks, but for bits that the beat's posts set again (R117, R145-R147, R165). A
TRIG condition that completes WAITC clears its latch (R134). A CASE with P = 1 that holds for its fine bits while the coarse ones are valid
fetches its table entry, and for a PLAY entry the descriptor and the first pairs; when it commits, what was fetched for the value it
commits on issues next, and what was fetched for another is discarded (R148; what counts as the first granules is the model's choice, log
entry 63). Posts reach dr in their beat: masked bits take the data, valid bits are set, drvf only by a fine post, and the beat's judgement
flags a post that meets a valid bit (R117, R199). -/
def Obligations.DecisionsArriveAndAreRead : Prop :=
  (∀ (s g : State) (n : RingId) (w : BitVec 64), s.Inv → s.Goes n w g →
    let st := Reg.seqSt n
    let timeout := fun (toe : Bool) (tg : Nat) => if toe then some (g.beat + (g.getReg (Reg.seqG n tg)).toNat) else none
    (zOp w = 0x0E →
      let b := fld w 35 31
      let k := fld w 30 28 + 1
      (∀ v old, g.Sees n b k (bit w 27) v old → ∃ t, exec (.dec n) s = .next t ∧
        t.getReg (Reg.seqG n (fld w 39 36)) =
          BitVec.ofNat 32 (fld (if bit w 26 then g.getReg (Reg.seqDr n) else v) (b + k - 1) b) ∧
        (bit w 26 = false → g.Spent t n b k old) ∧
        t.getReg st = (if bit w 25 then putBit (g.getReg st) 4 false else g.getReg st) ∧
        (g.modSeq n fun q => { q with meet := (t.seq n).meet }).Onward t n (g.seqPc n + 1) 1 ∧
        g.OnlySeq t n ([Reg.seqG n (fld w 39 36), st, Reg.seqPc n, Reg.seqRsc n] ++
          if bit w 26 then [] else [Reg.seqDrvf n, Reg.seqDrvc n])) ∧
      ((∀ v old, ¬ g.Sees n b k (bit w 27) v old) →
        exec (.dec n) s = .next (g.modSeq n fun q => { q with wait := .dec (timeout (bit w 25) (fld w 24 21)) }))) ∧
    (zOp w = 0x0D →
      let b := fld w 39 35
      (∀ v old, g.Sees n b 4 (bit w 34) v old → ∃ t, exec (.caseOp n) s = .next t ∧ g.Spent t n b 4 old ∧
        t.getReg st = (if bit w 32 then putBit (g.getReg st) 4 false else g.getReg st) ∧
        (g.modSeq n fun q => { q with meet := (t.seq n).meet }).Onward t n (16 * fld w 25 15 + fld v (b + 3) b) 2 ∧
        g.OnlySeq t n [Reg.seqDrvf n, Reg.seqDrvc n, st, Reg.seqPc n, Reg.seqRsc n]) ∧
      ((∀ v old, ¬ g.Sees n b 4 (bit w 34) v old) →
        let h := g.modSeq n fun q => { q with caseGot := none, wait := .caseW (timeout (bit w 32) (fld w 31 28)) }
        let v := fld (g.getReg (Reg.seqDr n)) (b + 3) b
        let a := State.ringMem n + 8 * (16 * fld w 25 15 + v)
        let e := g.word64 a
        let da := State.ringMem n + 0x400000 + 16 * fld e 34 23
        let d : Desc := { w0 := g.loadWord da, w1 := g.loadWord (da + 4), w2 := g.loadWord (da + 8), w3 := g.loadWord (da + 12), bad := false }
        let firsts := List.range (firstPairs d.w1)
        let pairAt := fun m => State.ringMem n + 0x100000 + 4 * (fld d.w0 18 0 + m)
        let fetched := fun got => exec (.caseOp n) s = .next (h.modSeq n fun q => { q with caseGot := some got })
        (bit w 33 = false ∨ bit w 34 = true ∨ (∃ i < 4, bit (g.getReg (Reg.seqDrvc n)) (b + i) = false) →
          exec (.caseOp n) s = .next h) ∧
        (bit w 33 = true → bit w 34 = false → (∀ i < 4, bit (g.getReg (Reg.seqDrvc n)) (b + i) = true) → g.damageIn a 8 = [] →
          (zOp e ≠ 0x20 → fetched { val := v, word := e, bad := false, desc := none }) ∧
          (zOp e = 0x20 → g.damageIn da 16 = [] → d.cause.isSome = true →
            fetched { val := v, word := e, bad := false, desc := some d }) ∧
          (zOp e = 0x20 → g.damageIn da 16 = [] → d.cause = none → (∀ m ∈ firsts, g.damageIn (pairAt m) 4 = []) →
            fetched { val := v, word := e, bad := false, desc := some { d with
              pairs := firsts.map fun m => (m, g.loadWord (pairAt m)) } })))) ∧
    (zOp w = 0x04 →
      let c := BitVec.ofNat 16 (fld w 39 24)
      (g.condHolds n c = true → ∃ t, exec (.waitc n) s = .next t ∧
        t.getReg st = (if bit w 20 then putBit (g.getReg st) 4 false else g.getReg st) ∧ g.Onward t n (g.seqPc n + 1) 1 ∧
        g.LatchSpent t n c ∧ g.OnlySeq t n ([st, Reg.seqPc n, Reg.seqRsc n] ++ if fld c 15 12 = 2 then [Reg.trigLatch n] else [])) ∧
      (g.condHolds n c = false →
        exec (.waitc n) s = .next (g.modSeq n fun q => { q with wait := .waitc (timeout (bit w 20) (fld w 19 16)) })))) ∧
  (∀ (s : State) (n : RingId) (v : Word) (old : Bool) (got : Option CaseGot) (b : Option Nat), s.Inv → (s.seq n).posts = [] →
    (s.seq n).st = .running → (s.seq n).wait = .caseW b → (s.seq n).caseUse = none → (s.seq n).caseGot = got →
    let w := s.zFetch n
    let i := fld w 39 35
    zOp w = 0x0D → s.Sees n i 4 (bit w 34) v old →
    ∃ t, exec (.decisionArrive n) s = .next t ∧ s.Spent t n i 4 old ∧
      t.getReg (Reg.seqPc n) = BitVec.ofNat 32 ((16 * fld w 25 15 + fld v (i + 3) i) % 32768) ∧ t.getReg (Reg.seqRsc n) = 0 ∧
      t.seq n = { s.seq n with
        wait := .none, issueAt := s.beat + 2, meet := (t.seq n).meet, caseGot := none
        caseUse := got.filter fun x => decide (x.val = fld v (i + 3) i) } ∧
      (∀ x, (t.seq n).caseUse = some x → t.zFetch n = x.word ∧ t.zGot n = x.desc) ∧
      s.OnlySeq t n [Reg.seqDrvf n, Reg.seqDrvc n, Reg.seqSt n, Reg.seqPc n, Reg.seqRsc n]) ∧
  (∀ (s : State) (n : RingId) (p : Post), s.Inv → (s.seq n).posts = [p] → p.due ≤ s.beat → (s.seq n).wait = .none →
    let m := s.meetNow n
    ∃ t, exec (.decisionArrive n) s = .next t ∧
      t.seq n = { s.seq n with posts := [], meet := some { m with posts := m.posts ++ [p] } } ∧
      t.getReg (Reg.seqDr n) = (s.getReg (Reg.seqDr n) &&& ~~~p.mask) ||| (p.data &&& p.mask) ∧
      t.getReg (Reg.seqDrvc n) = s.getReg (Reg.seqDrvc n) ||| p.mask ∧
      t.getReg (Reg.seqDrvf n) = (if p.coarse then s.getReg (Reg.seqDrvf n) else s.getReg (Reg.seqDrvf n) ||| p.mask) ∧
      (m.judged = false → m.posts = [] → p.mask &&& m.drvf ≠ 0 → bit ((t.judgePosts n).getReg (Reg.seqFlags n)) 3 = true) ∧
      t.jug n = (if p.ownJug then s.jug n else { s.jug n with ipend := putBit (s.jug n).ipend 7 true }) ∧
      s.OnlyRing t n [Reg.seqDr n, Reg.seqDrvc n, Reg.seqDrvf n])

/-- The six wait conditions (R134). A control instruction, or an action in MODE 3, whose timing field names a later beat or a condition
that does not hold, puts the front end into that hold and does nothing else; one that comes late marks the shot and goes on; in MODE 3 with
a condition that holds in the issue beat it goes on in that beat, which becomes the reference beat, and the latch of a TRIG condition
clears (R123-R125, R134). -/
def Obligations.ZwiecTimingFieldsAndConditions : Prop :=
  (∀ (s : State) (n a : Nat), a < 4096 →
    let holds := fun (k : Nat) => s.condHolds n (BitVec.ofNat 16 (4096 * k + a))
    (a < 256 → holds 0 = decide (∀ i < a / 32 + 1, bit (s.getReg (Reg.seqDrvf n)) (a % 32 + i) = true)) ∧
    (a < 256 → holds 1 = decide (∀ i < a / 32 + 1, bit (s.getReg (Reg.seqDrvc n)) (a % 32 + i) = true)) ∧
    (a < 16 → holds 2 = bit (s.getReg (Reg.trigLatch n)) (2 * (a % 8) + a / 8)) ∧
    (a < 16 → holds 3 = decide ((s.getReg (Reg.seqG n a)).toNat ≤ (s.seqTb n).toNat)) ∧
    (a < 512 → holds 4 = decide (a / 4 ≤ s.readyRun n (a % 4))) ∧
    (a < 128 → holds 5 = decide ((s.seq n).taq.length ≤ a))) ∧
  (∀ (s : State) (n : RingId) (w : BitVec 64) (c : Instr), s.Inv → s.Issues n w → s.zLegal n w = true →
    zwiecRow (zOp w) n = some c →
    let h := s.modSeq n fun q => { q with wait := .none }
    let t := (if zMode w = 1 then (s.seq n).shotAt else (s.seq n).refAt) + zT w
    let k := BitVec.ofNat 16 (zT w)
    (zAction w = false → zMode w = 1 ∨ zMode w = 2 → s.beat < t →
      exec c s = .next (s.modSeq n fun q => { q with wait := .timing t })) ∧
    (zMode w = 3 → s.condHolds n k = false → exec c s = .next (s.modSeq n fun q => { q with wait := .cond k })) ∧
    (zMode w = 3 → s.condHolds n k = true → ∃ g, h.zGate n w = (true, g) ∧ g.seq n = { h.seq n with refAt := s.beat } ∧
      s.LatchSpent g n k ∧ h.OnlySeq g n (if fld k 15 12 = 2 then [Reg.trigLatch n] else [])) ∧
    (zMode w = 0 → h.zGate n w = (true, h)) ∧
    (zMode w = 1 ∨ zMode w = 2 → t = s.beat → h.zGate n w = (true, h.modSeq n fun q => { q with refAt := s.beat })) ∧
    (zMode w = 1 ∨ zMode w = 2 → t < s.beat →
      h.zGate n w = (true, ((h.setReg (Reg.seqSt n) (putBit (s.getReg (Reg.seqSt n)) 5 true)).raiseFlag (Reg.seqPflags n) 1).modSeq n
        fun q => { q with refAt := s.beat })))

/-- HALT drains, SHOT waits at CP0 or passes it, WAIT holds for its beats, and SYNC and XSYNC hold; the last ring of a SYNC fixes the
release beat of all of them (R164, R166-R169). -/
def Obligations.ZwiecHolds : Prop :=
  ∀ (s g : State) (n : RingId) (w : BitVec 64), s.Inv → s.Goes n w g →
    (zOp w = 0x01 → exec (.halt n) s = .next (g.modSeq n fun q => { q with wait := .haltDrain })) ∧
    (zOp w = 0x02 → exec (.shot n) s = .next (g.modSeq n fun q => { q with
      wait := if (g.seq n).taq = [] then .cp1 (s.beat + 1) else .cp0 })) ∧
    (zOp w = 0x03 →
      let k := if bit w 32 then (g.getReg (Reg.seqG n (fld w 3 0))).toNat else fld w 31 0
      exec (.wait n) s = .next (g.modSeq n fun q => { q with wait := .waitN (s.beat + max 1 k) })) ∧
    (zOp w = 0x05 →
      let m := BitVec.ofNat 12 (fld w 11 0)
      let here := g.modSeq n fun q => { q with wait := .sync m }
      ((∃ k < 12, bit m k = true ∧ ¬ ((here.seq k).st = .running ∧ (here.seq k).wait = .sync m)) → exec (.sync n) s = .next here) ∧
      ((∀ k < 12, bit m k = true → (here.seq k).st = .running ∧ (here.seq k).wait = .sync m) → ∃ t, exec (.sync n) s = .next t ∧
        (∀ k < 12, t.seq k = if bit m k then { here.seq k with syncAt := some (s.beat + 8) } else here.seq k) ∧
        { t with rings := here.rings } = here ∧ ∀ k, { t.ring k with seq := here.seq k } = here.ring k)) ∧
    (zOp w = 0x06 → exec (.xsync n) s = .next (g.modSeq n fun q => { q with
      wait := .xsync (fld w 39 36) (BitVec.ofNat 16 (fld w 15 0)) }))

/-- What ends a hold of the front end: the beat that a MODE 1 or 2 instruction names, the condition of a MODE 3 one, the beats of WAIT, and
the condition of WAITC; a TRIG condition that ends a hold clears its latch (R123, R124, R134, R164, R165). -/
def Obligations.ZwiecHoldsEnd : Prop :=
  ∀ (s : State) (n : RingId), s.Inv → (s.seq n).st = .running →
    let w := s.zFetch n
    let free := s.modSeq n fun q => { q with wait := .none }
    (∀ c, free.Issues n w → s.zLegal n w = true → zwiecRow (zOp w) n = some c →
      (zAction w = false → zMode w = 1 ∨ zMode w = 2 → s.timedBeat n w = s.beat → (s.seq n).wait = .timing s.beat →
        ∃ t, exec (.timingHoldEnd n) s = .next t ∧ exec c free = .next t) ∧
      (zMode w = 3 → (s.seq n).wait = .cond (BitVec.ofNat 16 (zT w)) → s.condHolds n (BitVec.ofNat 16 (zT w)) = true →
        ∃ g t, free.zGate n w = (true, g) ∧ s.LatchSpent g n (BitVec.ofNat 16 (zT w)) ∧ exec (.waitConditionMet n) s = .next t ∧
          exec c free = .next t)) ∧
    (∀ b, (s.seq n).wait = .waitN b → b ≤ s.beat → ∃ t, exec (.waitEnd n) s = .next t ∧ s.Onward t n (s.seqPc n + 1) 0 ∧
      s.OnlySeq t n [Reg.seqPc n, Reg.seqRsc n]) ∧
    (∀ b, let c := BitVec.ofNat 16 (fld w 39 24)
      (s.seq n).wait = .waitc b → zOp w = 0x04 → s.condHolds n c = true →
      ∃ t, exec (.waitConditionMet n) s = .next t ∧ s.Onward t n (s.seqPc n + 1) 1 ∧ s.LatchSpent t n c ∧
        t.getReg (Reg.seqSt n) = (if bit w 20 then putBit (s.getReg (Reg.seqSt n)) 4 false else s.getReg (Reg.seqSt n)) ∧
        s.OnlySeq t n ([Reg.seqSt n, Reg.seqPc n, Reg.seqRsc n] ++ if fld c 15 12 = 2 then [Reg.trigLatch n] else []))

/-- A DEC, CASE or WAITC that waits with TOE times out in its beat: st.TO is set and the ring goes on at TGT, and nothing is consumed or
written; the rings of a completed SYNC go on in their release beat, which becomes their reference beat, and no other ring does (R124, R147,
R165, R166, R200). -/
def Obligations.TimeoutsAndSyncRelease : Prop :=
  ∀ (s : State) (n : RingId) (m : BitVec 12), s.Inv →
    let w := s.zFetch n
    let due := fun k => decide ((s.seq k).wait = .sync m) && (s.seq k).syncAt.any fun b => decide (b ≤ s.beat)
    (∀ b, (s.seq n).st = .running →
      ((s.seq n).wait = .dec (some b) ∨ (s.seq n).wait = .caseW (some b) ∨ (s.seq n).wait = .waitc (some b)) → b ≤ s.beat →
      ∃ t, exec (.decisionTimeout n) s = .next t ∧ s.Onward t n (fld w 14 0) 2 ∧
        t.getReg (Reg.seqSt n) = putBit (s.getReg (Reg.seqSt n)) 4 true ∧
        s.OnlySeq t n [Reg.seqSt n, Reg.seqPc n, Reg.seqRsc n]) ∧
    (∀ b, ((s.seq n).wait = .dec (some b) ∨ (s.seq n).wait = .caseW (some b) ∨ (s.seq n).wait = .waitc (some b)) → s.beat < b →
      exec (.decisionTimeout n) s = .next s) ∧
    (∃ t, exec (.syncRelease m) s = .next t ∧
      (∀ k < 12, due k = true →
        t.seq k = { s.seq k with
          wait := .none, issueAt := s.beat, refAt := s.beat, syncAt := none
          caseGot := none, caseUse := none } ∧
        t.getReg (Reg.seqPc k) = BitVec.ofNat 32 ((s.seqPc k + 1) % 32768) ∧ t.getReg (Reg.seqRsc k) = 0) ∧
      (∀ k < 12, due k = false → t.seq k = s.seq k ∧ t.getReg (Reg.seqPc k) = s.getReg (Reg.seqPc k) ∧
        t.getReg (Reg.seqRsc k) = s.getReg (Reg.seqRsc k)) ∧
      (∀ a, (∀ k < 12, a ≠ Reg.seqPc k ∧ a ≠ Reg.seqRsc k) → t.getReg a = s.getReg a) ∧
      ∃ l r, t = { s with rings := l, regs := r })

/-- The boundary of a shot: CP0 passes in the beat in which the queue is empty, CP1 follows one beat later and leads to CP2, and a halt
that waits is taken there (R168, R172, R194, R230). HALT's drain ends when the queue is empty, every voice has finished and no window is
open: the ring is HALTED with PC at the instruction after HALT (R169, R191, R225). -/
def Obligations.ShotBoundaryAndHalt : Prop :=
  (∀ (s : State) (n : RingId), s.Inv → (s.seq n).st = .running →
    ((s.seq n).wait = .cp0 → (s.seq n).taq = [] →
      exec (.shotBoundary n) s = .next (s.modSeq n fun q => { q with wait := .cp1 (s.beat + 1) })) ∧
    ((s.seq n).wait = .cp0 → (s.seq n).taq ≠ [] → exec (.shotBoundary n) s = .next s) ∧
    (∀ b, (s.seq n).wait = .cp1 b → b ≤ s.beat → s.NoneHeld n → (s.seq n).haltPend = false →
      ∃ t, exec (.shotBoundary n) s = .next t ∧ (t.seq n).wait = .cp2 ∧ (t.seq n).st = .running ∧ (t.seq n).boundaryAt = s.beat ∧
        (t.seq n).udrCp1 = (s.regBit (Reg.seqSt n) 6 && s.regBit (Reg.seqCtrl n) 0) ∧ (t.seq n).pCredit = s.creditPause n ∧
        (t.seq n).pWm = decide (s.regFld (Reg.resqHwm n) 15 0 < s.resqFill n + s.pendingWins n) ∧
        (∀ c < 4, t.tx n c = { s.tx n c with
          hostAt := if (s.tx n c).host.isSome ∧ (s.tx n c).hostAt = none then some (s.beat + 26) else (s.tx n c).hostAt }) ∧
        s.OnlyRing t n ([Reg.resqFlags n, Reg.resqFlags n + 4] ++
          (List.range 4).flatMap fun j => [Reg.strmFlags n j, Reg.strmFlags n j + 4])) ∧
    (∀ b, (s.seq n).wait = .cp1 b → b ≤ s.beat → s.NoneHeld n → (s.seq n).haltPend = true →
      ∃ t, exec (.shotBoundary n) s = .next t ∧ (t.seq n).st = .halted ∧ (t.seq n).wait = .none ∧ (t.seq n).haltPend = false ∧
        t.getReg (Reg.seqRsc n) = 2 ∧ t.getReg (Reg.seqPc n) = s.getReg (Reg.seqPc n) ∧ (t.seq n).haltFrom = some s.beat ∧
        bit (t.jug n).ipend 4 = true ∧ s.OnlyRing t n (Reg.seqRsc n :: streamRegs n))) ∧
  (∀ (s : State) (n : RingId), s.Inv → (s.seq n).st = .running → (s.seq n).wait = .haltDrain → (s.seq n).taq = [] →
    (s.seq n).haltFrom.isSome = true → s.haltReady n = true → s.NoneHeld n →
    ∃ t, exec (.haltComplete n) s = .next t ∧
      t.seq n = { s.seq n with
        st := .halted, wait := .none, issueAt := s.beat + 1, haltPend := false, caseGot := none, caseUse := none } ∧
      t.getReg (Reg.seqPc n) = BitVec.ofNat 32 ((s.seqPc n + 1) % 32768) ∧ t.getReg (Reg.seqRsc n) = 0 ∧
      bit (t.jug n).ipend 4 = true ∧ s.OnlyRing t n [Reg.seqPc n, Reg.seqRsc n])

/-- A beat of CP2: with no pause condition the next shot starts, and only the posts of its beat keep their bits valid; otherwise the ring
is PAUSED (R118, R124, R168, R189, R206, R254). -/
def Obligations.ShotStartOrPause : Prop :=
  ∀ (s : State) (n : RingId), s.Inv →
    let q := s.seq n
    let st := s.getReg (Reg.seqSt n) &&& ~~~(0x160 : Word)
    let fill := s.resqFill n
    let wm := (q.pWm = true ∧ s.regFld (Reg.resqLwm n) 15 0 < fill) ∨ s.regFld (Reg.resqHwm n) 15 0 < fill + s.pendingWins n
    let hot := ∃ b, q.thermEnd = some b ∧ s.beat < b
    let vector := q.udrCp1 = true
    let posts := (s.meetNow n).posts
    q.st = .running ∨ q.st = .paused → q.wait = .cp2 → q.boundaryAt < s.beat → q.evalAt ≠ some s.beat → q.haltPend = false →
    (¬ wm → s.creditPause n = false → ¬ hot → q.hold = false → ∃ t, exec (.shotStart n) s = .next t ∧
      t.seq n = { q with
        st := .running, wait := .none, issueAt := s.beat + 1, shotAt := s.beat, refAt := s.beat, gridAt := s.beat
        thrShot := q.thermHeld, shotNo := q.shotNo + 1, pWm := false, pCredit := false, thermEnd := none, evalAt := some s.beat
        caseGot := none, caseUse := none, meet := (t.seq n).meet } ∧
      t.getReg (Reg.seqSc n) = s.getReg (Reg.seqSc n) + 1 ∧ t.getReg (Reg.seqDrvf n) = State.postMask true posts ∧
      t.getReg (Reg.seqDrvc n) = State.postMask false posts ∧
      t.getReg (Reg.seqRsc n) = 0 ∧ bit (t.jug n).ipend 3 = true ∧
      (∀ b < 4, t.getReg (Reg.biasOut n b) = BitVec.ofInt 32 (Int.fdiv (s.biasOut n b).y 64)) ∧
      (¬ vector → t.getReg (Reg.seqSt n) = st ∧ t.getReg (Reg.seqPc n) = BitVec.ofNat 32 ((s.seqPc n + 1) % 32768)) ∧
      (vector → s.depth n < 16 → t.getReg (Reg.seqSt n) = putFld st 20 16 (s.depth n + 1) ∧
        t.getReg (Reg.seqStack n (s.depth n)) = BitVec.ofNat 32 ((s.seqPc n + 1) % 32768) ∧
        t.getReg (Reg.seqPc n) = BitVec.ofNat 32 (s.regFld (Reg.seqUdrVec n) 14 0) ∧ bit (t.getReg (Reg.seqFlags n)) 4 = true) ∧
      (vector → 16 ≤ s.depth n → t.getReg (Reg.seqSt n) = st ∧ bit (t.getReg (Reg.seqFlags n)) 5 = true ∧
        t.getReg (Reg.seqPc n) = BitVec.ofNat 32 ((s.seqPc n + 1) % 32768)) ∧
      s.OnlyRing t n ([Reg.seqSc n, Reg.seqDrvf n, Reg.seqDrvc n, Reg.seqSt n, Reg.seqPc n, Reg.seqRsc n, Reg.seqFlags n,
        Reg.seqFlags n + 4, Reg.seqFlags n + 8, Reg.seqStack n (s.depth n)] ++ (List.range 4).map (Reg.biasOut n))) ∧
    (wm ∨ s.creditPause n = true ∨ hot ∨ q.hold = true → ∃ t, exec (.shotStart n) s = .next t ∧ (t.seq n).st = .paused ∧
      (t.seq n).wait = .cp2 ∧ ((t.seq n).pWm = true ↔ wm) ∧ (t.seq n).pCredit = s.creditPause n ∧ ((t.seq n).thermEnd.isSome = true ↔ hot) ∧
      (q.hold = true → q.holdMarked = false → bit (t.getReg (Reg.seqFlags n)) 0 = true) ∧
      s.OnlyRing t n ([Reg.seqFlags n, Reg.seqFlags n + 4, Reg.resqFlags n, Reg.resqFlags n + 4] ++
        (List.range 4).flatMap fun j => [Reg.strmFlags n j, Reg.strmFlags n j + 4]))

/-- LD and ST present a request to port A of exchange memory: it is served in the issue beat unless a request of this beat has taken the
bank, ST stores the g register, and an LD's value enters its register 4 beats after it was served (R126, R138, R442, R443). LD_COMPLETE
writes the register of an LD that was served 4 beats ago, or has the request that waits served (R138, R442). That the ring goes on in the
beat after a late service is the model's choice (log entry 29). -/
def Obligations.ZwiecLoadAndStore : Prop :=
  (∀ (s g : State) (n : RingId) (w : BitVec 64), s.Inv → s.Goes n w g →
    let next := g.goNext n
    let word := fun base => ((g.getReg (Reg.seqG n base)).toNat + fld w 19 0) % 2 ^ 20
    let free := fun a => ∀ p ∈ g.memu.portA, p.1 ≠ a / 8 % 16
    let sound := fun a => g.damageIn (0x10000000 + 4 * a) 4 = []
    (zOp w = 0x11 →
      let a := word (fld w 34 31)
      let r : LdReq := { rd := some (fld w 39 35), word := a, store := g.getReg (Reg.seqG n (fld w 39 36)), issued := s.beat }
      (free a → sound a → exec (.ld n) s = .next ((next.modMemu fun m => { m with portA := (a / 8 % 16, a / 8, false) :: m.portA }).modSeq n
        fun q => { q with ldq := [{ r with served := some s.beat, value := g.word (0x10000000 + 4 * a) }] })) ∧
      (¬ free a → exec (.ld n) s = .next (next.modSeq n fun q => { q with ldq := [r] }))) ∧
    (zOp w = 0x12 →
      let a := word (fld w 35 32)
      let v := g.getReg (Reg.seqG n (fld w 39 36))
      (free a → sound a → ∃ t, exec (.st n) s = .next t ∧ t.word (0x10000000 + 4 * a) = v ∧
        (∀ b, b < 0x10000000 + 4 * a ∨ 0x10000000 + 4 * a + 4 ≤ b → t.byte b = g.byte b) ∧
        { t with mem := g.mem } = next.modMemu fun m => { m with portA := (a / 8 % 16, a / 8, true) :: m.portA }) ∧
      (¬ free a → exec (.st n) s = .next (next.modSeq n fun q => { q with
        ldq := [{ word := a, store := v, isStore := true, issued := s.beat }] })))) ∧
  (∀ (s : State) (n : RingId) (r : LdReq), s.Inv → (s.seq n).ldq = [r] →
    (∀ b d, r.served = some b → r.rd = some d → d ≤ 19 → b + 4 ≤ s.beat →
      exec (.ldComplete n) s = .next ((s.setReg (destReg n d) r.value).modSeq n fun q => { q with ldq := [] })) ∧
    (r.served = none → (∃ p ∈ s.memu.portA, p.1 = r.word / 8 % 16) → exec (.ldComplete n) s = .next s) ∧
    (r.served = none → (∀ p ∈ s.memu.portA, p.1 ≠ r.word / 8 % 16) → s.memu.borrow = none →
      s.damageIn (0x10000000 + 4 * r.word) 4 = [] →
      let u := (s.modMemu fun m => { m with portA := (r.word / 8 % 16, r.word / 8, r.isStore) :: m.portA }).modSeq n
        fun q => { q with issueAt := max q.issueAt (s.beat + 1) }
      (r.isStore = false → exec (.ldComplete n) s = .next (u.modSeq n fun q => { q with
        ldq := [{ r with served := some s.beat, value := s.word (0x10000000 + 4 * r.word) }] })) ∧
      (r.isStore = true → exec (.ldComplete n) s = .next ((u.setWord (0x10000000 + 4 * r.word) r.store).modSeq n fun q => { q with
        ldq := [] }))))

/-- An illegal instruction sets st.ILL, the ILL flag and ILL_PC and goes on at the next instruction once its timing is honoured; one with
an undefined timing field waits for nothing (R135). That a timed action is judged in its issue beat, is flagged there and does not enter
the queue, and that its timing field still moves the reference beat, is the model's choice (log entry 46). -/
def Obligations.IllegalInstruction : Prop :=
  ∀ (s : State) (n : RingId) (w : BitVec 64), s.Inv → s.Issues n w → s.zLegal n w = false →
    let free := s.modSeq n fun q => { q with wait := .none }
    let ill := fun (g t : State) => t.getReg (Reg.seqSt n) = putBit (g.getReg (Reg.seqSt n)) 7 true ∧
      bit (t.getReg (Reg.seqPflags n)) 0 = true ∧ t.getReg (Reg.seqIllPc n) = BitVec.ofNat 32 (2 ^ 31 + s.seqPc n) ∧
      g.Onward t n (s.seqPc n + 1) 1 ∧ g.OnlySeq t n [Reg.seqSt n, Reg.seqPflags n, Reg.seqPflags n + 4, Reg.seqIllPc n,
        Reg.seqPc n, Reg.seqRsc n]
    (zTimingLegal w = false → ∃ t, exec (.illegalInstruction n) s = .next t ∧ ill free t) ∧
    (zTimingLegal w = true → zMode w = 0 → ∃ t, exec (.illegalInstruction n) s = .next t ∧ ill free t) ∧
    (zAction w = true → zMode w = 1 ∨ zMode w = 2 → s.beat ≤ s.timedBeat n w → ∃ t, exec (.illegalInstruction n) s = .next t ∧
      ill (free.modSeq n fun q => { q with refAt := s.timedBeat n w }) t) ∧
    (zAction w = true → zMode w = 1 ∨ zMode w = 2 → s.timedBeat n w < s.beat → ∃ t, exec (.illegalInstruction n) s = .next t ∧
      ill ((free.markLate n).modSeq n fun q => { q with refAt := s.beat }) t) ∧
    (∀ g, zTimingLegal w = true → zAction w = false ∨ zMode w = 3 → free.zGate n w = (true, g) →
      ∃ t, exec (.illegalInstruction n) s = .next t ∧ ill g t) ∧
    (∀ g, zTimingLegal w = true → zAction w = false ∨ zMode w = 3 → free.zGate n w = (false, g) →
      exec (.illegalInstruction n) s = .next g)

/-- An action in MODE 1 or 2 whose beat is to come enters the queue behind its entries with that beat and its g registers as read now, the
reference beat moves there, and the ring goes on; one in MODE 0 enters with the present beat, and the queue releases what is due; a full
queue holds either (R122-R124, R126, R128). ACTION_RELEASE takes the due entries out of the queue, at most 8 in a beat and in program
order, and they act; here the one due entry is a PHSET of a voice, on time or late (R125, R129, R155). -/
def Obligations.ActionQueue : Prop :=
  (∀ (s : State) (n : RingId) (w : BitVec 64) (c : Instr), s.Issues n w → s.zLegal n w = true → zAction w = true →
    zwiecRow (zOp w) n = some c →
    let g := fun i => s.getReg (Reg.seqG n i)
    let at_ := (if zMode w = 1 then (s.seq n).shotAt else (s.seq n).refAt) + zT w
    let v : Word × Word := if zOp w = 0x2D then (g (fld w 39 36), g (fld w 35 32)) else (g (fld w 3 0), g ((fld w 3 0 + 1) % 16))
    (zMode w = 1 ∨ zMode w = 2 → s.beat < at_ → (s.seq n).taq.length < 64 → (∀ e ∈ (s.seq n).taq, s.beat < e.at_) →
      exec c s = .next (((s.modSeq n fun q => { q with wait := .none }).goNext n).modSeq n fun q => { q with
        refAt := at_, taq := q.taq ++ [{ at_ := at_, word := w, v1 := v.1, v2 := v.2 }]
        relBeat := s.beat, relCount := s.releasedNow n })) ∧
    (zMode w = 0 → (s.seq n).taq.length < 64 →
      let u := (s.modSeq n fun q => { q with
        wait := .none, taq := q.taq ++ [{ at_ := s.beat, word := w, v1 := v.1, v2 := v.2 }] }).goNext n
      (s.releasedNow n < 8 → ∃ t, exec c s = .next t ∧ exec (.actionRelease n) u = .next t) ∧
      (8 ≤ s.releasedNow n → exec c s = .next (u.modSeq n fun q => { q with relBeat := s.beat, relCount := s.releasedNow n }))) ∧
    (zMode w ≠ 3 → 64 ≤ (s.seq n).taq.length → exec c s = .next (s.modSeq n fun q => { q with wait := .queueFull }))) ∧
  ((∀ (s : State) (n : RingId) (e : Entry) (rest : List Entry), s.Inv → (s.seq n).taq = e :: rest → e.at_ ≤ s.beat →
    (∀ x ∈ rest, s.beat < x.at_) → s.releasedNow n < 8 →
    let u := s.modSeq n fun q => { q with taq := rest, relBeat := s.beat, relCount := s.releasedNow n + 1 }
    let act := fun (g : State) => g.modVoice n (fld e.word 38 34) fun x => { x with
      pins := State.addPin { at_ := s.beat + 26, kind := .phset (if bit e.word 33 then e.v1 else BitVec.ofNat 32 (fld e.word 31 0)) } x.pins }
    zOp e.word = 0x25 → bit e.word 39 = false →
    (e.at_ = s.beat → exec (.actionRelease n) s = .next (act u)) ∧
    (e.at_ < s.beat → exec (.actionRelease n) s = .next
      (act ((u.setReg (Reg.seqSt n) (putBit (s.getReg (Reg.seqSt n)) 5 true)).raiseFlag (Reg.seqPflags n) 1)))) ∧
  (∀ (s t : State) (n : RingId), s.Inv → exec (.actionRelease n) s = .next t →
    (∃ e ∈ (s.seq n).taq, e.at_ ≤ s.beat) → s.releasedNow n < 8 →
    (t.seq n).relCount ≤ 8 ∧ (t.seq n).taq.Sublist (s.seq n).taq ∧ (t.seq n).taq.length < (s.seq n).taq.length ∧
      ∀ e ∈ (s.seq n).taq, s.beat < e.at_ → e ∈ (t.seq n).taq))

/-- PLAY, PLAYS and STOP send their request to the voice, PLAYS with the units it takes from its stream, or none when the stream is
disabled (R76, R151-R153, R220). FRQ, PHS, PHSET and AMP change a voice at pin beat A + 26 and a lane at A + 6; of two changes of one
quantity for one pin beat the later prevails: at pin beat A + 26 the voice holds the frequency word, the phase frame or the amplitude that
the action set, PHS added to what it held, and its other two as they came without the action (R130, R154-R156, R210, R277). A PLAY for
which a CASE has fetched the descriptor carries it to the voice (R148). -/
def Obligations.VoiceAndParameterActions : Prop :=
  (∀ (s g : State) (n : RingId) (w : BitVec 64), s.ActsNow n w g →
    let send := fun (u : State) (v : Nat) (k : VKind) =>
      u.modVoice n v fun x => { x with reqs := x.reqs ++ [{ act := s.beat, kind := k }] }
    let kind := if bit w 33 then VKind.ramp else .stop
    (zOp w = 0x20 → exec (.play n) s = .next ((g.modSeq n fun q => { q with got := none }).modVoice n (fld w 39 35) fun x => { x with
      reqs := x.reqs ++ [{ act := s.beat, kind := .play (fld w 34 23) (fld w 22 20) (bit w 19), got := (g.seq n).got }] })) ∧
    (zOp w = 0x21 →
      let j := fld w 34 33
      let len := fld w 32 17
      let code := fld w 13 11
      let units := (len * 8 + 2 ^ code * 1024 - 1) / (2 ^ code * 1024)
      let take := Reg.strmTakeptr n j
      (g.regBit (Reg.strmCfg n j) 16 = true → exec (.plays n) s = .next (send (g.setReg take (g.getReg take + BitVec.ofNat 32 units))
        (fld w 39 35) (.plays j len (fld w 16 14) code (g.getReg take) units false))) ∧
      (g.regBit (Reg.strmCfg n j) 16 = false → exec (.plays n) s = .next (send g (fld w 39 35) (.plays j len (fld w 16 14) code 0 0 true)))) ∧
    (zOp w = 0x22 →
      (bit w 34 = false → exec (.stop n) s = .next (send g (fld w 39 35) kind)) ∧
      (bit w 34 = true → exec (.stop n) s = .next ((List.range 32).foldl (fun u v => send u v kind) g)))) ∧
  (∀ (s g : State) (n : RingId) (w : BitVec 64), s.ActsNow n w g →
    let reg := fun i => g.getReg (Reg.seqG n i)
    let chg := fun (k : PinKind) =>
      if bit w 39 then g.modLane n (fld w 38 34) fun x => { x with pins := State.addPin { at_ := s.beat + 6, kind := k } x.pins }
      else g.modVoice n (fld w 38 34) fun x => { x with pins := State.addPin { at_ := s.beat + 26, kind := k } x.pins }
    let v : Word := if bit w 33 then reg (fld w 3 0) else BitVec.ofNat 32 (fld w 31 0)
    (zOp w = 0x23 → exec (.frq n) s = .next (chg (.frq
      (if bit w 32 then BitVec.ofNat 48 ((reg (fld w 3 0)).toNat + 2 ^ 32 * ((reg ((fld w 3 0 + 1) % 16)).toNat % 2 ^ 16))
       else BitVec.ofNat 48 (v.toNat * 2 ^ 16))))) ∧
    (zOp w = 0x24 → exec (.phs n) s = .next (chg (.phs v))) ∧
    (zOp w = 0x25 → exec (.phset n) s = .next (chg (.phset v))) ∧
    (zOp w = 0x26 → exec (.amp n) s = .next (g.modVoice n (fld w 39 35) fun x => { x with
      pins := State.addPin { at_ := s.beat + 26, kind := .amp (if bit w 34 then (reg (fld w 3 0)).truncate 16 else BitVec.ofNat 16 (fld w 15 0)) }
        x.pins }))) ∧
  (∀ (s g : State) (n : RingId) (w : BitVec 64), s.Inv → s.ActsNow n w g →
    let reg := fun i => g.getReg (Reg.seqG n i)
    let val : Word := if bit w 33 then reg (fld w 3 0) else BitVec.ofNat 32 (fld w 31 0)
    let word : BitVec 48 :=
      if bit w 32 then BitVec.ofNat 48 ((reg (fld w 3 0)).toNat + 2 ^ 32 * ((reg ((fld w 3 0 + 1) % 16)).toNat % 2 ^ 16))
      else BitVec.ofNat 48 (val.toNat * 2 ^ 16)
    let pinned := fun (u : State) (v : Nat) => ({ u with beat := s.beat + 26 } : State).voicePins n v
    let freq := fun (u : State) (v : Nat) => ((pinned u v).getReg64 (Reg.voiceFreqLo n v)).truncate 48
    let frame := fun (u : State) (v : Nat) => (pinned u v).getReg (Reg.voicePhase n v)
    let amp := fun (u : State) (v : Nat) => (pinned u v).regFld (Reg.voiceAmp n v) 15 0
    let v := fld w 38 34
    let a := fld w 39 35
    (bit w 39 = false →
      (zOp w = 0x23 → ∃ t, exec (.frq n) s = .next t ∧ freq t v = word ∧ frame t v = frame g v ∧ amp t v = amp g v) ∧
      (zOp w = 0x24 → ∃ t, exec (.phs n) s = .next t ∧ freq t v = freq g v ∧ frame t v = frame g v + val ∧ amp t v = amp g v) ∧
      (zOp w = 0x25 → ∃ t, exec (.phset n) s = .next t ∧ freq t v = freq g v ∧ frame t v = val ∧ amp t v = amp g v)) ∧
    (zOp w = 0x26 → ∃ t, exec (.amp n) s = .next t ∧ freq t a = freq g a ∧ frame t a = frame g a ∧
      amp t a = if bit w 34 then (reg (fld w 3 0)).toNat % 2 ^ 16 else fld w 15 0))

/-- ACQ opens a window that closes LEN beats after pin beat A + 26 and cuts one that is still open; of two on a lane in one beat the later
counts; KER selects the kernel of a lane's coming windows (R157, R158, R285-R287, R292). FADE's request reaches its channel at pin beat A +
26; SEND posts to the rings of its mask, 2 beats to the own ring and 6 to another; EVT writes USER, sets its flag and with J = 1 interrupts
the Juggler (R149, R161, R162, R230, R323). -/
def Obligations.WindowFadeSendAndEventActions : Prop :=
  (∀ (s g : State) (n : RingId) (w : BitVec 64), s.Inv → s.ActsNow n w g →
    let l := fld w 39 35
    let ks := g.getReg (Reg.laneKsel n l)
    let new : Win := {
      act := s.beat, len := fld w 34 19, closeAt := s.beat + 26 + fld w 34 19, nr := bit w 18, raw := bit w 17, base := fld ks 11 0
      num := BitVec.ofNat 16 (fld ks 31 16), shot := BitVec.ofNat 16 (g.getReg (Reg.seqSc n)).toNat, shotNo := (g.seq n).shotNo }
    (zOp w = 0x27 →
      ((∀ x ∈ (g.lane n l).wins, x.closed = true ∨ x.act = s.beat ∨ x.closeAt ≤ s.beat + 26) →
        exec (.acq n) s = .next (g.modLane n l fun x => { x with wins := (x.wins.filter fun y => decide (y.act ≠ s.beat)) ++ [new] })) ∧
      (∀ x, (g.lane n l).wins = [x] → x.closed = false → x.act ≠ s.beat → s.beat + 26 < x.closeAt →
        ∃ t, exec (.acq n) s = .next t ∧ (t.lane n l).wins = [{ x with closeAt := s.beat + 26, trunc := true }, new] ∧
          bit (t.getReg (Reg.laneFlags n l)) 3 = true ∧ g.OnlyRing t n [Reg.laneFlags n l, Reg.laneFlags n l + 4])) ∧
    (zOp w = 0x28 → exec (.ker n) s = .next (g.setReg (Reg.laneKsel n l) (BitVec.ofNat 32 (fld w 34 23 + 2 ^ 16 * fld w 22 7))))) ∧
  (∀ (s g : State) (n : RingId) (w : BitVec 64), s.Inv → s.ActsNow n w g →
    (zOp w = 0x2C → exec (.fade n) s = .next (g.modTx n (fld w 39 38) fun x => { x with reqs := x.reqs ++ [(s.beat + 26, bit w 37)] })) ∧
    (zOp w = 0x2D → ∃ t, exec (.send n) s = .next t ∧
      (∀ k < 12, t.seq k = { g.seq k with
        posts := (g.seq k).posts ++ if bit w (20 + k) then
          [{ due := s.beat + (if k = n.val then 2 else 6), data := g.getReg (Reg.seqG n (fld w 39 36)),
             mask := g.getReg (Reg.seqG n (fld w 35 32)), coarse := bit w 18, rank := if k = n.val then 32 else 16 + n.val }] else [] }) ∧
      (∀ k, { t.ring k with seq := g.seq k } = g.ring k) ∧ { t with rings := g.rings, trap := g.trap } = g ∧
      t.trap = if bit w 19 && g.regBit Reg.trpXport (16 + n.val) then { g.trap with exports := g.trap.exports ++
          [(2 * n.val, n.val, bit w 18,
            BitVec.ofNat 16 ((g.getReg (Reg.seqG n (fld w 35 32))).toNat >>> g.regFld Reg.trpXport 4 0),
            BitVec.ofNat 16 ((g.getReg (Reg.seqG n (fld w 39 36))).toNat >>> g.regFld Reg.trpXport 4 0))] }
        else g.trap) ∧
    (zOp w = 0x2E → ∃ t, exec (.evt n) s = .next t ∧ t.getReg (Reg.seqUser n) = BitVec.ofNat 32 (fld w 15 0) ∧
      bit (t.getReg (Reg.seqPflags n)) 2 = true ∧
      t.jug n = (if bit w 16 then { g.jug n with ipend := putBit (g.jug n).ipend 2 true } else g.jug n) ∧ t.seq n = g.seq n ∧
      g.OnlyRing t n [Reg.seqUser n, Reg.seqPflags n, Reg.seqPflags n + 4]))

/-- BIAS puts its code in the update queue of the output, in place of the newest entry when 8 wait, and nothing while CLR_N is in force; of
two BIAS of one output in one beat the later takes the place of the earlier, and a host's entry between them stays; MARK places its edges
from pin beat A + 26; TSET sets DELAY or WIDTH, a g register's value clamped to the range (R130, R159, R160, R252, R260, R398). -/
def Obligations.BiasAndMarkerActions : Prop :=
  ∀ (s g : State) (n : RingId) (w : BitVec 64), s.ActsNow n w g →
    let reg := g.getReg (Reg.seqG n (fld w 3 0))
    (zOp w = 0x29 →
      let b := fld w 39 38
      let code := sfld (if bit w 37 then reg else BitVec.ofNat 32 (fld w 19 0)) 19 0
      let o := g.biasOut n b
      let clr := g.rst.clrN = true ∨ g.rst.clrShut = true
      let put := fun (q : List (Nat × Int)) => g.modBias n b fun o => { o with queue := q ++ [(s.beat, code)] }
      let noted := fun (u : State) (e : Option (Nat × Int)) => u.modBias n b fun o => { o with acted := e }
      ((∀ e, o.acted = some e → e.1 ≠ s.beat) →
        (¬ clr → o.queue.length < 8 → exec (.bias n) s = .next (noted (put o.queue) (some (s.beat, code)))) ∧
        (¬ clr → 8 ≤ o.queue.length →
          exec (.bias n) s = .next (noted ((put o.queue.dropLast).raiseFlag (Reg.biasFlags n b) 1) (some (s.beat, code)))) ∧
        (clr → exec (.bias n) s = .next (noted (g.raiseFlag (Reg.biasFlags n b) 2) none))) ∧
      (∀ c q r, ¬ clr → o.acted = some (s.beat, c) → o.queue = q ++ (s.beat, c) :: r → (s.beat, c) ∉ r → (q ++ r).length < 8 →
        exec (.bias n) s = .next (noted (put (q ++ r)) (some (s.beat, code))))) ∧
    (zOp w = 0x2A →
      let m := fld w 39 36
      let t := 64 * (s.beat + 26) + g.regFld (Reg.tsetDelay (fld w 35 33)) 11 0
      let edge := fun (u : State) (bin : Nat) (high pulse : Bool) =>
        { u with
          markNo := u.markNo + 1
          marks := u.marks.modify m fun x => { x with
            edges := x.edges ++ [{ bin_ := bin, high := high, order := u.markNo, pulse := pulse }] } }
      (fld w 32 31 = 0 → exec (.mark n) s = .next (edge g t true false)) ∧
      (fld w 32 31 = 1 → exec (.mark n) s = .next (edge g t false false)) ∧
      (fld w 32 31 = 2 → exec (.mark n) s = .next (edge (edge g t true true) (t + g.regFld (Reg.tsetWidth (fld w 35 33)) 15 0) false true))) ∧
    (zOp w = 0x2B →
      let v := if bit w 34 then fld reg 15 0 else fld w 15 0
      (fld w 36 35 = 0 → exec (.tset n) s = .next (g.setReg (Reg.tsetDelay (fld w 39 37)) (BitVec.ofNat 32 (min v 4095)))) ∧
      (fld w 36 35 = 1 → exec (.tset n) s = .next (g.setReg (Reg.tsetWidth (fld w 39 37)) (BitVec.ofNat 32 (max v 1)))))

/-! ### Voices and TX channels -/

/-- A request reaches its voice in beat A + 4: on a free voice a PLAY or PLAYS starts a segment at pin beat A + 26, a PRELOAD or a STOP
starts none, an illegal descriptor sets DESC_ERR, and on a voice that plays the request waits for the boundary with the descriptor that was
read for it; one that a CASE has fetched is not read again (R148, R151, R152, R201, R220, R221, R223). A ramped STOP ends what plays with
sample 0 of pin beat A + 50 and takes back the repetition or chain that was chosen for a boundary to come; that what a ramp which still
runs leaves silent stays silent under a later one, and the beat in which a PRELOAD's fetch starts, are the model's choices (R153; log
entries 41 and 63). -/
def Obligations.RequestsReachVoices : Prop :=
  ∀ (s : State) (n : RingId) (v : Fin 32) (r : VReq), s.Inv → (s.voice n v).reqs = [r] → r.act + 4 ≤ s.beat →
    (s.voice n v).jump = none → (s.voice n v).jumpAt = none → s.memu.borrow = none →
    let P := r.act + 26
    let chg := fun (f : Voice → Voice) => s.modVoice n v fun x => f { x with reqs := [] }
    let follows := fun (h : Seg) => h.origin = .rep ∨ h.origin = .chain
    let cut := fun (h : Seg) => { h with bnd := P + 24, repLeft := 0, w2 := 0, chosen := false, ramped := true }
    (∀ d own pf, r.kind = .play d own pf → (r.got = none → s.damageIn (State.ringMem n + 0x400000 + 16 * d) 16 = []) →
      let w := r.got.getD (s.readDesc n d)
      let g : Seg := {
        desc := d, w0 := w.w0, w1 := w.w1, w2 := w.w2, w3 := w.w3, start := P, bnd := P + fld w.w1 31 16, off := own
        repLeft := fld w.w2 31 16, origin := .request, got := w.pairs }
      (w.cause = none → pf = false → (s.voice n v).segs = [] →
        exec (.requestReachesVoice n v) s = .next (chg fun x => { x with segs := [g] })) ∧
      (w.cause = none → pf = false → ∀ h, (s.voice n v).segs = [h] → h.chosen = false → (s.seq n).st ≠ .halted →
        exec (.requestReachesVoice n v) s = .next (chg fun x => { x with jump := some { r with got := some w } })) ∧
      (w.cause = none → pf = true → exec (.requestReachesVoice n v) s = .next (chg fun x => { x with
        pre := x.pre ++ [(s.beat + 4, { w0 := w.w0, w1 := w.w1, w2 := w.w2, w3 := w.w3, off := own })] })) ∧
      (∀ c, w.cause = some c → exec (.requestReachesVoice n v) s = .next (((chg id).raiseFlag (Reg.txFlags n (v.val / 8)) 2).setReg
        (Reg.txDescInfo n (v.val / 8)) (BitVec.ofNat 32 (c * 2 ^ 22 + v.val * 2 ^ 16 + d))))) ∧
    (∀ j len own code first units, r.kind = .plays j len own code first units false → (s.voice n v).segs = [] →
      exec (.requestReachesVoice n v) s = .next (chg fun x => { x with segs := [{
        w1 := BitVec.ofNat 32 (len * 2 ^ 16 + code * 2 ^ 13), start := P, bnd := P + len, off := own, origin := .request
        stream := some j, first := first, units := units }] })) ∧
    (r.kind = .stop → (s.voice n v).segs = [] → exec (.requestReachesVoice n v) s = .next (chg id)) ∧
    (∀ h, r.kind = .ramp → (s.voice n v).segs = [h] → ¬ follows h ∨ h.start < s.beat → P < h.bnd → (s.voice n v).stops = [] →
      exec (.requestReachesVoice n v) s = .next (chg fun x => { x with segs := [cut h], stops := [P] })) ∧
    (∀ h k, r.kind = .ramp → (s.voice n v).segs = [h, k] → ¬ follows h → h.start < k.start → follows k → s.beat ≤ k.start →
      P < h.bnd → (s.voice n v).stops = [] → (s.voice n v).redo = none →
      exec (.requestReachesVoice n v) s = .next (chg fun x => { x with segs := [cut h], stops := [P], redo := some k.start })) ∧
    (∀ h q, r.kind = .ramp → (s.voice n v).segs = [h] → ¬ follows h ∨ h.start < s.beat → P < h.bnd → (s.voice n v).stops = [q] →
      P < q + 24 → h.silentAt = none →
      exec (.requestReachesVoice n v) s = .next (chg fun x => { x with
        segs := [{ cut h with silentAt := some (q + 24) }], stops := [P, q] }))

/-- At the boundary of a segment a jump request that came in time starts there with the running offset, and is pending until then, else the
next repetition follows, else the voice is idle; nothing is chosen before 22 beats ahead of the boundary (R201, R209, R223). A voice claims
a unit 18 beats before its first sample: a filled one plays, an unfilled one is an under-run from there on; a unit that has been played is
released, and the play pointer and the credit limit follow; a STOP ramp ends after 24 pin beats (R72, R75, R152, R153, R204, R205). That
the choice is made exactly 22 beats ahead, and that a jump is pending until its pin beat, are the model's choices (log entry 40). -/
def Obligations.SegmentsAndStreams : Prop :=
  (∀ (s : State) (n : RingId) (v : Fin 32) (g : Seg), s.Inv → (s.voice n v).segs = [g] → g.chosen = false → (s.voice n v).jumpAt = none →
    let done := { g with chosen := true }
    (s.beat + 22 < g.bnd → exec (.segmentBoundary n v) s = .next s) ∧
    (g.bnd ≤ s.beat + 22 → (s.voice n v).jump = none → (s.seq n).haltFrom = none → 0 < g.repLeft →
      exec (.segmentBoundary n v) s = .next (s.modVoice n v fun x => { x with segs := [done, { g with
        start := g.bnd, bnd := g.bnd + fld g.w1 31 16, repLeft := g.repLeft - 1, origin := .rep, got := [] }] })) ∧
    (g.bnd ≤ s.beat + 22 → (s.voice n v).jump = none → (s.seq n).haltFrom = none → g.repLeft = 0 → bit g.w2 15 = true →
      s.memu.borrow = none → s.damageIn (State.ringMem n + 0x400000 + 16 * fld g.w2 11 0) 16 = [] →
      (s.readDesc n (fld g.w2 11 0)).cause = none →
      let w := s.readDesc n (fld g.w2 11 0)
      exec (.segmentBoundary n v) s = .next (s.modVoice n v fun x => { x with segs := [done, {
        desc := fld g.w2 11 0, w0 := w.w0, w1 := w.w1, w2 := w.w2, w3 := w.w3, start := g.bnd, bnd := g.bnd + fld w.w1 31 16
        off := g.off, repLeft := fld w.w2 31 16, origin := .chain }] })) ∧
    (g.bnd ≤ s.beat + 22 → (s.voice n v).jump = none →
      (g.repLeft = 0 ∧ bit g.w2 15 = false) ∨ (∃ h, (s.seq n).haltFrom = some h ∧ h ≤ g.bnd) →
      exec (.segmentBoundary n v) s = .next (s.modVoice n v fun x => { x with segs := [done] })) ∧
    (∀ r, g.bnd ≤ s.beat + 22 → (s.voice n v).jump = some r → r.act + 28 ≤ g.bnd → r.kind = .stop →
      exec (.segmentBoundary n v) s = .next (s.modVoice n v fun x => { x with segs := [done], jumpAt := some g.bnd })) ∧
    (∀ r j len own code first units, g.bnd ≤ s.beat + 22 → (s.voice n v).jump = some r → r.act + 28 ≤ g.bnd →
      r.kind = .plays j len own code first units false →
      exec (.segmentBoundary n v) s = .next (s.modVoice n v fun x => { x with jumpAt := some g.bnd, segs := [done, {
        w1 := BitVec.ofNat 32 (len * 2 ^ 16 + code * 2 ^ 13), start := g.bnd, bnd := g.bnd + len, off := g.off, origin := .jump
        stream := some j, first := first, units := units }] })) ∧
    (∀ r d own pf w, g.bnd ≤ s.beat + 22 → (s.voice n v).jump = some r → r.act + 28 ≤ g.bnd → r.kind = .play d own pf → r.got = some w →
      exec (.segmentBoundary n v) s = .next (s.modVoice n v fun x => { x with jumpAt := some g.bnd, segs := [done, {
        desc := d, w0 := w.w0, w1 := w.w1, w2 := w.w2, w3 := w.w3, start := g.bnd, bnd := g.bnd + fld w.w1 31 16, off := g.off
        repLeft := fld w.w2 31 16, origin := .jump, got := w.pairs }] }))) ∧
  (∀ (s : State) (n : RingId) (v : Fin 32) (g : Seg) (j : Nat), s.Inv → (s.voice n v).segs = [g] → g.stream = some j → j < 4 →
    let claimed := fun (f : Option Nat) => s.modVoice n v fun x => { x with segs := [{ g with claimed := g.claimed + 1, fillAt := f }] }
    (g.claimed < g.units → g.beatOf (g.claimed * g.unitOuts) ≤ s.beat + 18 → 8 * g.start + g.off + g.claimed * g.unitOuts < g.endAt →
      g.fillAt = none →
      ((g.first + BitVec.ofNat 32 g.claimed) ∈ (s.strm n j).filled → exec (.unitClaim n v) s = .next (claimed none)) ∧
      ((g.first + BitVec.ofNat 32 g.claimed) ∉ (s.strm n j).filled → ∃ t, exec (.unitClaim n v) s = .next t ∧
        t.voice n v = (claimed (some (g.beatOf (g.claimed * g.unitOuts)))).voice n v ∧ bit (t.getReg (Reg.seqSt n)) 6 = true ∧
        bit (t.getReg (Reg.strmFlags n j)) 0 = true ∧ t.mem = s.mem ∧ ∀ k, k ≠ n.val → t.ring k = s.ring k)) ∧
    (g.released < g.units → g.bnd ≤ s.beat → s.playPtr n j = g.first + BitVec.ofNat 32 g.released → (s.strm n j).released = [] →
      exec (.unitRelease n v) s = .next ((((s.setReg (Reg.strmPlayptr n j) (s.playPtr n j + 1)).setReg (Reg.strmLimit n j)
        (s.playPtr n j + 1 + BitVec.ofNat 32 (s.strmUnits n j))).modStrm n j fun q =>
          { q with filled := q.filled.filter (· ≠ s.playPtr n j), creditDue := true }).modVoice n v fun x =>
            { x with segs := [{ g with released := g.released + 1 }] })) ∧
    (((s.voice n v).stops.all fun P => decide (P + 24 ≤ s.beat)) = true →
      exec (.stopRampEnd n v) s = .next (s.modVoice n v fun x => { x with stops := [] })))

/-- A fade request reaches its channel at its pin beat: for the bank in force it has no effect, else the fade starts, or waits for the one
that runs, or is rejected with a flag; a fade ends after its length, and one of length 0 puts its bank in force at once, the samples before
it keeping the old one (R229-R231, R236). The host's writes to a TX channel: FADE_REQ waits for the boundary while the ring runs and acts
at once otherwise, a coefficient may be written while its bank is not in use, and a MODE or FS change of an enabled channel settles for
1,500 or 3,000 beats (R232, R235, R246). -/
def Obligations.TransmitChannels : Prop :=
  (∀ (s : State) (n : RingId) (c : Fin 4) (P : Nat) (b : Bool), s.Inv → (s.tx n c).reqs = [(P, b)] → P ≤ s.beat →
    (s.tx n c).host = none →
    let x := s.tx n c
    let len := s.regFld (Reg.txFadeLen n c) 11 0
    let run : FadeRun := { start := s.beat, len := len, to_ := b }
    (x.run = none → x.pend = none → b = x.act → exec (.fadeReach n c) s = .next (s.modTx n c fun y => { y with reqs := [] })) ∧
    (x.run = none → x.pend = none → b ≠ x.act → exec (.fadeReach n c) s = .next (s.modTx n c fun y =>
      if len = 0 then { y with
        reqs := [], act := b, stir := s.beat + 3
        past := if y.past.any fun r => r.start + r.len == s.beat then y.past else some { start := s.beat, len := 0, to_ := b } }
      else { y with reqs := [], run := some run, stir := s.beat + 3 })) ∧
    (∀ r, x.run = some r → s.beat < r.start + r.len → x.pend = none → b ≠ r.to_ →
      exec (.fadeReach n c) s = .next (s.modTx n c fun y => { y with reqs := [], pend := some b })) ∧
    (∀ r d, x.run = some r → s.beat < r.start + r.len → x.pend = some d → b ≠ d →
      exec (.fadeReach n c) s = .next (((s.modTx n c fun y => { y with reqs := [] }).setReg (Reg.seqSt n)
        (putBit (s.getReg (Reg.seqSt n)) 8 true)).raiseFlag (Reg.seqPflags n) 3)) ∧
    (∀ r, x.run = some r → r.start + r.len ≤ s.beat → x.pend = none →
      ∃ t, exec (.fadeEnd n c) s = .next t ∧ (t.tx n c).act = r.to_ ∧ (t.tx n c).run = none ∧ (t.tx n c).reqs = x.reqs ∧
        s.OnlyRing t n []) ∧
    (∀ r d, x.run = some r → r.start + r.len ≤ s.beat → x.pend = some d → 0 < len →
      ∃ t, exec (.fadeEnd n c) s = .next t ∧ (t.tx n c).act = r.to_ ∧ (t.tx n c).pend = none ∧
        (t.tx n c).run = some { start := r.start + r.len, len := len, to_ := d } ∧ s.OnlyRing t n []) ∧
    (∀ b, x.settleTo = some b → b ≤ s.beat → exec (.txSettleEnd n c) s = .next (s.modTx n c fun y => { y with settleTo := none }))) ∧
  (∀ (s g : State) (p : Port) (u : Sid) (n : RingId) (c : Fin 4) (v : Word), s.Inv →
    let x := g.tx n c
    let idle := x.run = none ∧ x.pend = none ∧ x.host = none
    let ctl := Reg.txCtrl n c
    let kept := fun a => (g.getReg a &&& ~~~(0x3FFFF : Word)) ||| v
    (s.Takes p u (Reg.txFadeReq n c) g → ∀ b,
      (g.ringRuns n = true → x.run = none ∨ x.pend = none →
        exec (.fadeReq p u n c b) s = .next ((g.modTx n c fun y => { y with host := some b, stir := g.beat + 3 }).wrote p (Reg.txFadeReq n c))) ∧
      (g.ringRuns n = false → idle →
        exec (.fadeReq p u n c b) s = .next ((g.modTx n c fun y => { y with
          act := b, stir := g.beat + 3
          past := if y.act = b ∨ (y.past.any fun r => r.start + r.len == g.beat) = true then y.past
            else some { start := g.beat, len := 0, to_ := b } }).wrote p (Reg.txFadeReq n c)))) ∧
    (∀ t : Fin 32, s.Takes p u (Reg.txCoefA n c t) g → g.ringRuns n = false ∨ (x.act = true ∧ idle) → v.toNat < 2 ^ 18 →
      exec (.coefWrite p u n c false t v) s = .next ((g.setReg (Reg.txCoefA n c t) (kept (Reg.txCoefA n c t))).wrote p (Reg.txCoefA n c t))) ∧
    (∀ t : Fin 32, s.Takes p u (Reg.txCoefB n c t) g → g.ringRuns n = false ∨ (x.act = false ∧ idle) → v.toNat < 2 ^ 18 →
      exec (.coefWrite p u n c true t v) s = .next ((g.setReg (Reg.txCoefB n c t) (kept (Reg.txCoefB n c t))).wrote p (Reg.txCoefB n c t))) ∧
    (s.Takes p u ctl g → v &&& ~~~(0x331 : Word) = 0 → fld v 5 4 ≠ 3 → g.ringRuns n = false →
      x.settleTo = none ∨ fld v 5 4 = g.regFld ctl 5 4 →
      exec (.txCtrlWrite p u n c v) s = .next (((g.setReg ctl v).modTx n c fun y => { y with
        settleTo := if g.regBit ctl 0 ∧ bit v 0 ∧ g.regFld ctl 5 4 ≠ fld v 5 4 then some (g.beat + 1500) else y.settleTo
        fsOld := if g.regBit ctl 0 ∧ bit v 0 ∧ g.regFld ctl 5 4 ≠ fld v 5 4 then BitVec.ofNat 8 (g.regFld (Reg.txFs n c) 7 0)
          else y.fsOld }).wrote p ctl)) ∧
    (s.Takes p u (Reg.txFs n c) g → v.toNat ≤ 192 → g.ringRuns n = false → x.settleTo = none ∨ fld v 7 0 = g.regFld (Reg.txFs n c) 7 0 →
      exec (.txFsWrite p u n c v) s = .next (((g.setReg (Reg.txFs n c) v).modTx n c fun y => { y with
        settleTo := if g.regBit ctl 0 ∧ g.getReg (Reg.txFs n c) ≠ v then some (g.beat + 3000) else y.settleTo
        fsOld := if g.regBit ctl 0 ∧ g.getReg (Reg.txFs n c) ≠ v then (g.getReg (Reg.txFs n c)).truncate 8 else y.fsOld }).wrote p
          (Reg.txFs n c))))

/-! ### Bias outputs -/

/-- The host's writes to a bias output: TARGET enters the queue, QCLR empties it and stops a move that is no step of a span change, CLEAR
sets the clear code, and SPAN starts the move to 0 V, or enters its code where the span is already in force (R252, R255-R257, R260, R266).
The limiter takes the oldest code of the queue a beat after it came, steps there when it is near enough and slews otherwise; at the target
SLEWING clears; the converter samples the truncated value on the ring's grid of 60 beats (R252-R254). That QCLR leaves step 1 of a span
change going, and that this step takes its first move in the beat of the write, are the model's choices (log entries 65 and 51). -/
def Obligations.BiasWritesAndMoves : Prop :=
  (∀ (s g : State) (p : Port) (u : Sid) (n : RingId) (b : Fin 4) (v : Word), s.Inv →
    let o := g.biasOut n b
    let clr := g.rst.clrN = true ∨ g.rst.clrShut = true
    (s.Takes p u (Reg.biasTarget n b) g → v.toNat < 2 ^ 20 → g.ringRuns n = false → ¬ clr → o.span = none → o.queue.length < 8 →
      exec (.biasTargetWrite p u n b v) s = .next
        ((g.modBias n b fun o => { o with queue := o.queue ++ [(g.beat, sfld v 19 0)] }).wrote p (Reg.biasTarget n b))) ∧
    (s.Takes p u (Reg.biasQclr n b) g → g.ringRuns n = false → exec (.qclr p u n b) s = .next
      ((g.modBias n b fun o =>
      if o.span = some .toZero then { o with queue := [] } else { o with queue := [], t := o.y, mode := .rest, reachedAt := g.beat }).wrote p
        (Reg.biasQclr n b))) ∧
    (s.Takes p u (Reg.biasClear n b) g → v.toNat < 2 ^ 20 → ¬ clr →
      exec (.clearWrite p u n b v) s = .next ((g.setReg (Reg.biasClear n b) v).wrote p (Reg.biasClear n b))) ∧
    (s.Takes p u (Reg.biasSpan n b) g → v.toNat < 2 ^ 22 → fld v 21 20 ≠ 3 → g.ringRuns n = false → ¬ clr → o.span = none →
      o.mode = .rest → o.queue = [] →
      (BitVec.ofNat 2 (fld v 21 20) = o.spanNow → exec (.spanWrite p u n b v) s = .next
        (((g.setReg (Reg.biasSpan n b) v).modBias n b fun o => { o with queue := [(g.beat, sfld v 19 0)] }).wrote p (Reg.biasSpan n b))) ∧
      (BitVec.ofNat 2 (fld v 21 20) ≠ o.spanNow → o.y ≠ 0 → ∃ t, exec (.spanWrite p u n b v) s = .next t ∧
        t.getReg (Reg.biasSpan n b) = v ∧ t.biasOut n b = { o with
          span := some .toZero, newSpan := BitVec.ofNat 2 (fld v 21 20), newCode := sfld v 19 0, clearEnd := false, t := 0
          mode := if (o.y.natAbs : Int) ≤ 64 * (g.regFld (Reg.biasStep n b) 19 0 : Nat) then .step else .slew } ∧
        g.OnlyRing { t with beatWrites := g.beatWrites, resp := g.resp } n [Reg.biasSpan n b]) ∧
      (BitVec.ofNat 2 (fld v 21 20) ≠ o.spanNow → o.y = 0 → exec (.spanWrite p u n b v) s = .next
        (((g.setReg (Reg.biasSpan n b) v).modBias n b fun o => { o with
          span := some (.holdZero (g.beat + 1500)), newSpan := BitVec.ofNat 2 (fld v 21 20), newCode := sfld v 19 0, clearEnd := false
          t := 0, mode := .rest, reachedAt := g.beat }).wrote p (Reg.biasSpan n b))))) ∧
  (∀ (s : State) (n : RingId) (b : Fin 4), s.Inv →
    let o := s.biasOut n b
    let near := fun (t : Int) => ((t - o.y).natAbs : Int) ≤ 64 * (s.regFld (Reg.biasStep n b) 19 0 : Nat)
    (∀ e rest, o.queue = e :: rest → o.mode = .rest → o.span = none → e.1 < s.beat → o.reachedAt < s.beat → 64 * e.2 ≠ o.y →
      exec (.biasTake n b) s = .next (s.modBias n b fun x => { x with
        queue := rest, t := 64 * e.2, mode := if near (64 * e.2) then .step else .slew })) ∧
    (∀ e rest, o.queue = e :: rest → o.mode = .rest → o.span = none → e.1 < s.beat → o.reachedAt < s.beat → 64 * e.2 = o.y →
      exec (.biasTake n b) s = .next (s.modBias n b fun x => { x with queue := rest, t := 64 * e.2, reachedAt := s.beat })) ∧
    (∀ e rest, o.queue = e :: rest → o.mode ≠ .rest ∨ o.span.isSome = true ∨ e.1 = s.beat ∨ o.reachedAt = s.beat →
      exec (.biasTake n b) s = .next s) ∧
    (o.mode ≠ .rest → o.y = o.t → o.span = none →
      exec (.biasSlewEnd n b) s = .next (s.modBias n b fun x => { x with mode := .rest, reachedAt := s.beat })) ∧
    (o.mode ≠ .rest → o.y = 0 → o.t = 0 → o.span = some .toZero → exec (.biasSlewEnd n b) s = .next (s.modBias n b fun x => { x with
      mode := .rest, reachedAt := s.beat, span := some (.holdZero (s.beat + 1500)) })) ∧
    (o.mode ≠ .rest → o.y ≠ o.t → exec (.biasSlewEnd n b) s = .next s) ∧
    (∀ t, o.span = some (.holdZero t) → t ≤ s.beat → o.clearEnd = false → s.rst.clrN = false → s.rst.clrShut = false → o.queue = [] →
      exec (.spanSettleEnd n b) s = .next (s.modBias n b fun x => { x with
        span := none, spanNow := x.newSpan, queue := [(s.beat, x.newCode)] })) ∧
    ((s.beat - (s.seq n).gridAt) % 60 = 0 → exec (.biasSampleTick n b) s = .next
      (s.setReg (Reg.biasOut n b) (BitVec.ofInt 32 (Int.fdiv o.y 64)))) ∧
    ((s.beat - (s.seq n).gridAt) % 60 ≠ 0 → exec (.biasSampleTick n b) s = .next s))

/-- CLR_N empties every queue and sends every output to its clear code, and its release leaves them there; a loss of VBIAS stops them all
with a flag, and its return drives 0 V and starts the move to the clear code; limiting or an open sense sets its flag (R258-R264). That the
CLR_N commands stand for the beats in which the pin comes into force and goes out of it, and that a loss of VBIAS abandons a span change
and rests the limiter, are the model's choices (log entries 66 and 51). -/
def Obligations.BiasSafety : Prop :=
  ∀ (s : State), s.Inv →
    let code := fun (n b : Nat) => 64 * sfld (s.getReg (Reg.biasClear n b)) 19 0
    let moved := fun (n b : Nat) (y : Int) => (((code n b - y).natAbs : Int) ≤ 64 * (s.regFld (Reg.biasStep n b) 19 0 : Nat)) ∨
      s.regBit (Reg.biasCtrl n b) 1 = true
    (s.rst.clrN = false → s.rst.clrShut = false → ∃ t, exec .clrNAssert s = .next t ∧ t.rst = { s.rst with clrN := true } ∧
      (∀ n < 12, ∀ b < 4, (s.biasOut n b).span = none → (t.biasOut n b).queue = [] ∧ (t.biasOut n b).t = code n b ∧
        (t.biasOut n b).y = (s.biasOut n b).y ∧ (code n b ≠ (s.biasOut n b).y →
          ((t.biasOut n b).mode = .step ↔ moved n b (s.biasOut n b).y) ∧ (t.biasOut n b).mode ≠ .rest)) ∧
      (∀ n < 12, ∀ b < 4, (s.biasOut n b).span.isSome = true → t.biasOut n b = { s.biasOut n b with queue := [], clearEnd := true }) ∧
      (∀ n, { t.ring n with bias := (s.ring n).bias } = s.ring n) ∧ { t with rst := s.rst, rings := s.rings } = s) ∧
    exec .clrNRelease s = .next { s with rst := { s.rst with clrN := false } } ∧
    (∃ t, exec .vbiasLoss s = .next t ∧ t.rst = { s.rst with vbiasOk := false } ∧
      (∀ n < 12, ∀ b < 4, t.biasOut n b = { s.biasOut n b with driven := false, queue := [], span := none, mode := .rest } ∧
        bit (t.getReg (Reg.biasFlags n b)) 5 = true) ∧
      (∀ n, { t.ring n with bias := (s.ring n).bias } = s.ring n) ∧
      { t with rst := s.rst, rings := s.rings, regs := s.regs, beatSets := s.beatSets } = s ∧
      ∀ a, (∀ n < 12, ∀ b < 4, a ≠ Reg.biasFlags n b ∧ a ≠ Reg.biasFlags n b + 8) → t.getReg a = s.getReg a) ∧
    (∃ t, exec .vbiasValid s = .next t ∧ t.rst = { s.rst with vbiasOk := true } ∧
      (∀ n < 12, ∀ b < 4, (t.biasOut n b).driven = true ∧ (t.biasOut n b).y = 0 ∧ (t.biasOut n b).t = code n b ∧
        (code n b ≠ 0 → ((t.biasOut n b).mode = .step ↔ moved n b 0) ∧ (t.biasOut n b).mode ≠ .rest)) ∧
      (∀ n, { t.ring n with bias := (s.ring n).bias } = s.ring n) ∧ { t with rst := s.rst, rings := s.rings } = s) ∧
    ∀ (n : RingId) (b : Fin 4) (ilim sense : Bool), ∃ t, exec (.biasCurrentLimitOrSenseOpen n b ilim sense) s = .next t ∧
      (bit (t.getReg (Reg.biasFlags n b)) 4 = (s.regBit (Reg.biasFlags n b) 4 || ilim)) ∧
      (bit (t.getReg (Reg.biasFlags n b)) 3 = (s.regBit (Reg.biasFlags n b) 3 || sense)) ∧
      s.OnlyRing t n [Reg.biasFlags n b, Reg.biasFlags n b + 4, Reg.biasFlags n b + 8]

/-! ### Receive path -/

/-- Enabling an RX channel or changing its zone clears READY for 15,000 beats; disabling clears it; RX_READY sets it again (R270). The
overload detector: a clipped pin beat 12 beats ago sets CLIP and counts, the first of an overload tells the other RX channels of the die,
and the first pin beat without a clipped sample ends it (R272, R273). -/
def Obligations.ReceiveReadyAndOverload : Prop :=
  ((∀ (s g : State) (p : Port) (u : Sid) (n : RingId) (r : Fin 2) (v : Word), s.Inv → s.Takes p u (Reg.rxCtrl n r) g →
    v &&& ~~~(0x731 : Word) = 0 → fld v 5 4 ≠ 3 → g.ringRuns n = false →
    let old := g.getReg (Reg.rxCtrl n r)
    let chg := fun (f : RxCh → RxCh) => ((g.setReg (Reg.rxCtrl n r) v).modRx n r f).wrote p (Reg.rxCtrl n r)
    (bit v 0 = false → exec (.rxCtrlWrite p u n r v) s = .next (chg fun x => { x with ready := false, readyAt := none })) ∧
    (bit v 0 = true → bit old 0 = false ∨ fld old 5 4 ≠ fld v 5 4 →
      exec (.rxCtrlWrite p u n r v) s = .next (chg fun x => { x with ready := false, readyAt := some (g.beat + 15000) })) ∧
    (bit v 0 = true → bit old 0 = true → fld old 5 4 = fld v 5 4 → exec (.rxCtrlWrite p u n r v) s = .next (chg id))) ∧
  (∀ (s : State) (n : RingId) (r : Fin 2) (t : Nat), (s.rx n r).readyAt = some t → t ≤ s.beat → s.rst.relockTo = none →
    exec (.rxReady n r) s = .next (s.modRx n r fun x => { x with ready := true, readyAt := none }))) ∧
  (∀ (s : State) (n : RingId) (r : Fin 2), s.Inv → 12 ≤ s.beat → (s.rx n r).detAt ≠ s.beat →
    let hit := ∃ e ∈ (s.rx n r).hist, e.1 = s.beat - 12 ∧ ∃ c ∈ e.2, c = 2047 ∨ c = -2048
    let others := (List.range 12).flatMap fun m => ([0, 1].filter fun q => decide (m / 3 = n.val / 3 ∧ (m, q) ≠ (n.val, r.val))).map fun q => (m, q)
    (hit → ∃ t, exec (.rxClip n r) s = .next t ∧ (t.rx n r).clip = true ∧ (t.rx n r).detAt = s.beat ∧
      bit (t.getReg (Reg.rxFlags n r)) 0 = true ∧ t.getReg64 (Reg.rxOvrBeatsLo n r) = s.getReg64 (Reg.rxOvrBeatsLo n r) + 1 ∧
      ((s.rx n r).clip = false → (t.rx n r).ovl.head? = some (s.beat - 12, none) ∧
        ∀ q ∈ others, bit (t.getReg (Reg.rxFlags q.1 q.2)) 1 = true) ∧
      ((s.rx n r).clip = true → (t.rx n r).ovl = (s.rx n r).ovl) ∧
      s.OnlyRing t n ([Reg.rxOvrBeatsLo n r, Reg.rxOvrBeatsLo n r + 4, Reg.rxFlags n r, Reg.rxFlags n r + 4] ++
        others.flatMap fun q => [Reg.rxFlags q.1 q.2, Reg.rxFlags q.1 q.2 + 4])) ∧
    (¬ hit → exec (.rxClip n r) s = .next s) ∧
    (∀ f rest, ¬ hit → (s.rx n r).clip = true → (s.rx n r).ovl = (f, none) :: rest →
      exec (.overloadRemoved n r) s = .next (s.modRx n r fun x => { x with
        detAt := s.beat, clip := false, ovl := (f, some (s.beat - 12)) :: rest })))

/-- The life of a window: it closes in its close beat and its flags are fixed, the coarse result follows 4 beats later and goes to the
Juggler, and the fine result 18 beats after the close, with a record unless the ACQ said NR (R285, R288-R290, R293, R297, R320). -/
def Obligations.WindowResults : Prop :=
  ∀ (s : State) (n : RingId) (l : Fin 32) (w : Win), s.Inv → (s.lane n l).wins = [w] →
    (w.closed = false → w.closeAt ≤ s.beat → exec (.windowClose n l) s = .next (s.modLane n l fun x => { x with
      wins := [{ w with closed := true, flags := s.closeFlags n l w, fifo := [] }], last := some { act := w.act } })) ∧
    (w.closed = false → s.beat < w.closeAt → exec (.windowClose n l) s = .next s) ∧
    (w.closed = true → w.coarseDone = false → w.closeAt + 4 ≤ s.beat →
      let sh := s.regFld (Reg.laneShift n l) 4 0
      let res := BitVec.ofInt 16 (sat 16 (roundShift w.cQ sh)) ++ BitVec.ofInt 16 (sat 16 (roundShift w.cI sh))
      ∃ t, exec (.coarseResult n l) s = .next t ∧ (t.lane n l).wins = [{ w with coarseDone := true, cres := res }] ∧
        t.getReg (Reg.laneLastCoarse n l) = res ∧ (t.jug n).cres = (s.jug n).cres.set l res ∧
        (t.jug n).crdy = putBit (s.jug n).crdy l true ∧
        (s.regBit (Reg.jugImc n) l = true → bit (t.jug n).ipend 0 = true) ∧
        (fits 16 (roundShift w.cQ sh) = false → bit (t.getReg (Reg.laneFlags n l)) 1 = true) ∧
        s.OnlyRing t n [Reg.laneLastCoarse n l, Reg.laneFlags n l, Reg.laneFlags n l + 4]) ∧
    (w.closed = true → w.coarseDone = true → w.closeAt + 18 ≤ s.beat → s.memu.borrow = none → s.memu.damaged = [] →
      let sh := s.regFld (Reg.laneShift n l) 12 8
      let fi := sat 32 (roundShift w.accI sh)
      let fq := sat 32 (roundShift w.accQ sh)
      let i := (s.resq n).next
      let room := s.shotCount n w.shotNo < s.regFld (Reg.resqShotMax n) 15 0
      (w.nr = true ∨ room → ∃ t, exec (.fineResult n l) s = .next t ∧ (t.lane n l).wins = [] ∧
        t.getReg (Reg.laneLastFineLo n l) = BitVec.ofInt 32 fi ∧ t.getReg (Reg.laneLastFineHi n l) = BitVec.ofInt 32 fq ∧
        (t.jug n).fresI = (s.jug n).fresI.set l (BitVec.ofInt 32 fi) ∧ (t.jug n).fresQ = (s.jug n).fresQ.set l (BitVec.ofInt 32 fq) ∧
        (t.jug n).frdy = putBit (s.jug n).frdy l true ∧
        (w.nr = true → t.resq n = s.resq n ∧ t.mem = s.mem) ∧
        (w.nr = false → (t.resq n).next = i + 1 ∧ (t.resq n).recs = (s.resq n).recs ++
            [{ idx := i, lane := l, held := w.shotFlags.isNone, since := s.beat }] ∧
          t.bytes (State.recordAddr n i) 32 = s.recordBytes n l w fi fq ∧
          ∀ a, a < State.recordAddr n i ∨ State.recordAddr n i + 32 ≤ a → t.byte a = s.byte a) ∧
        (∀ k, k ≠ n.val → t.ring k = s.ring k) ∧
        (∀ a, a ≠ Reg.laneLastFineLo n l → a ≠ Reg.laneLastFineHi n l → a ≠ Reg.laneFlags n l → a ≠ Reg.laneFlags n l + 4 →
          t.getReg a = s.getReg a)) ∧
      (w.nr = false → ¬ room → ∃ t, exec (.fineResult n l) s = .next t ∧ (t.lane n l).wins = [] ∧ t.resq n = s.resq n ∧
        bit (t.getReg (Reg.resqFlags n)) 1 = true ∧ t.mem = s.mem ∧ ∀ k, k ≠ n.val → t.ring k = s.ring k))

/-- Raw capture: ARM, START and DISARM, the start of a capture by a command or by the ACQs with RAW of a beat, its end, and the state that
the buffer takes when the last frame of its push has been handed to the MAC. A frame of the push goes to the queue of each port that
carries the session's pushes, with the number of the capture, the index of its first beat, the count of its beats, LAST and OVR, the RX
number, the pin beat and the samples, unless the thermal reduction drops it (R83, R292, R299-R301, R470). -/
def Obligations.RawCapture : Prop :=
  (∀ (s g : State) (p : Port) (u : Sid) (n : RingId) (r : Fin 2), s.Inv → s.Takes p u (Reg.rxRawCmd n r) g →
    let raw := (g.rx n r).raw
    let len := g.regFld (Reg.rxRawCtrl n r) 15 0
    (raw ≠ .capturing → raw ≠ .pushing →
      exec (.rawArm p u n r) s = .next ((g.modRx n r fun x => { x with raw := .armed }).wrote p (Reg.rxRawCmd n r))) ∧
    (raw = .armed → exec (.rawDisarm p u n r) s = .next ((g.modRx n r fun x => { x with raw := .idle }).wrote p (Reg.rxRawCmd n r))) ∧
    (raw = .armed → exec (.rawStart p u n r) s = .next (((((g.modRx n r fun x => { x with
        raw := .capturing, cap := some { start := g.beat + 6, len := len }, pushPos := 0 }).setReg (Reg.rxRawNum n r)
          (g.getReg (Reg.rxRawNum n r) + 1)).setReg64 (Reg.rxRawBeatLo n r) (BitVec.ofNat 64 (g.beat + 6))).setReg
            (Reg.rxRawStatus n r) 0).wrote p (Reg.rxRawCmd n r)))) ∧
  (∀ (s : State) (n : RingId) (r : Fin 2), s.Inv →
    let opened := ∃ l < 16, ∃ w ∈ (s.lane n (16 * r.val + l)).wins, w.act = s.beat ∧ w.raw = true
    (opened → (s.rx n r).raw = .armed → ∃ t, s.rawAcq n r = t ∧
      t.rx n r = { s.rx n r with
        raw := .capturing, cap := some { start := s.beat + 6, len := s.regFld (Reg.rxRawCtrl n r) 15 0 }, pushPos := 0 } ∧
      t.getReg (Reg.rxRawNum n r) = s.getReg (Reg.rxRawNum n r) + 1 ∧
      t.getReg64 (Reg.rxRawBeatLo n r) = BitVec.ofNat 64 (s.beat + 6) ∧
      s.OnlyRing t n [Reg.rxRawNum n r, Reg.rxRawBeatLo n r, Reg.rxRawBeatLo n r + 4, Reg.rxRawStatus n r]) ∧
    (opened → (s.rx n r).raw ≠ .armed → (s.rawAcq n r).rx n r = s.rx n r ∧ bit ((s.rawAcq n r).getReg (Reg.rxFlags n r)) 2 = true ∧
      s.OnlyRing (s.rawAcq n r) n [Reg.rxFlags n r, Reg.rxFlags n r + 4]) ∧
    (¬ opened → s.rawAcq n r = s)) ∧
  (∀ (s : State) (n : RingId) (r : Fin 2) (c : Capture), (s.rx n r).cap = some c →
    (c.start + c.len ≤ s.beat → exec (.rawCaptureEnd n r) s = .next (s.modRx n r fun x => { x with
      cap := none, raw := if s.regBit (Reg.rxRawCtrl n r) 16 then .pushing else .full, pushPos := 0 })) ∧
    (s.beat < c.start + c.len → exec (.rawCaptureEnd n r) s = .next s)) ∧
  (∀ (s : State) (n : RingId) (r : Fin 2), s.Inv → (s.rx n r).raw = .pushing →
    let total := s.regFld (Reg.rxRawStatus n r) 31 16
    let per := if s.pushJumbo (s.pushPorts (s.regFld (Reg.rxRawCtrl n r) 22 20)) then 1360 else 232
    let x := s.rx n r
    let k := min per (total - x.pushPos)
    let u := s.regFld (Reg.rxRawCtrl n r) 22 20
    let num := 2 * n.val + r.val
    let last := decide (total ≤ x.pushPos + k)
    let sum := x.rawSum + s.regFld Reg.throttleR 4 0
    let samples := s.bytes (State.ringMem n + 0x800000 + 0x40000 * r.val + 6 * x.pushPos) (6 * k)
    let data := leBytes 4 (s.getReg (Reg.rxRawNum n r)).toNat ++ leBytes 4 x.pushPos ++ leBytes 2 k ++
      [BitVec.ofNat 8 (last.toNat + 2 * (s.regBit (Reg.rxRawStatus n r) 8).toNat), BitVec.ofNat 8 num] ++
      leBytes 4 (s.getReg (Reg.rxRawBeatLo n r)).toNat ++ samples ++ List.replicate ((4 - 6 * k % 4) % 4) 0
    let seqNo := ((s.seqNo.find? fun e => e.1 = 2 + 256 * num).map (·.2)).getD 0
    (x.pushPos < total → s.memu.damaged = [] → ∃ t, exec (.rawPush n r) s = .next t ∧
      (t.rx n r).pushPos = x.pushPos + k ∧ (t.rx n r).raw = .pushing ∧ t.mem = s.mem ∧
      (20 ≤ sum → ∀ q ∈ s.pushPorts u, (s.port q).classCHeld ≤ 262144 → s.Queued t q {
        cls := .classC, sess := BitVec.ofNat 8 u, seq := (s.session u).pushSeq, tag := (s.session u).tag, dest := s.pushAddr u q
        ops := [{
          op := 0x0B, addr := BitVec.ofNat 32 (2 + 256 * num), count := data.length / 4, body := leBytes 4 seqNo.toNat ++ data }] }) ∧
      (sum < 20 → t.ports = s.ports) ∧ ∀ m, m ≠ n.val → t.ring m = s.ring m) ∧
    (total ≤ (s.rx n r).pushPos → exec (.rawPush n r) s = .next s ∧
      ((∀ e ∈ s.ports, ∀ f ∈ e.egress, f.cls = .classC → ∀ o ∈ f.ops, o.addr ≠ BitVec.ofNat 32 (2 + 256 * (2 * n.val + r.val))) →
        s.rawHandOver n r = s.modRx n r fun x => { x with raw := if s.regBit (Reg.rxRawCtrl n r) 23 then .armed else .full }) ∧
      (∀ e ∈ s.ports, ∀ f ∈ e.egress, f.cls = .classC → (∃ o ∈ f.ops, o.addr = BitVec.ofNat 32 (2 + 256 * (2 * n.val + r.val))) →
        s.rawHandOver n r = s)))

/-! ### Juggler -/

/-- A Juggler's start, stop, doorbell, timer, interrupt entry, the end of a WAIT, and the issue of an illegal packet (R329, R331, R335,
R337, R338, R340). That a start succeeds in a shutdown, and what an interrupt entry saves of a packet in delay slots, are the model's
choices (log entries 50 and 47). -/
def Obligations.JugglerHostAndEvents : Prop :=
  ∀ (s g : State) (p : Port) (u : Sid) (n : RingId), s.Inv →
    let j := s.jug n
    (s.Takes p u (Reg.jugCmd n) g → (g.jug n).st = .idle ∨ (g.jug n).st = .halted →
      (g.sec.locked = true → g.regBit Reg.ownAuth (16 + n.val) = true) → ∃ t, exec (.jugCmdStart p u n) s = .next (t.wrote p (Reg.jugCmd n)) ∧
        (t.jug n).st = .running ∧ (t.jug n).pc = BitVec.ofNat 12 (g.regFld (Reg.jugCtrl n) 11 0) ∧ (t.jug n).stack = [] ∧
        (t.jug n).issueAt = g.beat ∧ (t.jug n).ipend = 0 ∧ (t.jug n).crdy = 0 ∧ (t.jug n).frdy = 0 ∧ (t.jug n).timerAt = none ∧
        t.jSr n = 0 ∧ t.getReg (Reg.jugImc n) = 0 ∧ t.getReg (Reg.jugImf n) = 0 ∧
        (∀ r, r < 42 → r ≠ 35 → t.jReg n r = g.jReg n r) ∧ (t.jug n).cres = (g.jug n).cres ∧
        g.OnlyRing t n [Reg.jugReg n 35, Reg.jugImc n, Reg.jugImf n]) ∧
    (s.Takes p u (Reg.jugCmd n) g → (g.jug n).st = .running → exec (.jugCmdStop p u n) s = .next
      ((g.modJug n fun j => { j with stopReq := true }).wrote p (Reg.jugCmd n))) ∧
    (s.Takes p u (Reg.jugCmd n) g → exec (.doorbell p u n) s = .next
      ((g.modJug n fun j => { j with ipend := j.ipend ||| 0x20 }).wrote p (Reg.jugCmd n))) ∧
    (∀ t, j.timerAt = some t → t ≤ s.beat → exec (.jugTimerExpiry n) s = .next
      (s.modJug n fun j => { j with timerAt := none, ipend := j.ipend ||| 0x40 })) ∧
    (∀ i, s.jBoundary n = true → bit (s.jSr n) 7 = true → i < 8 → bit j.ipendB i = true → bit (s.jSr n) (16 + i) = true →
      (∀ k, k < i → ¬ (bit j.ipendB k = true ∧ bit (s.jSr n) (16 + k) = true)) → ∃ t, exec (.interruptEntry n) s = .next t ∧
        (t.jug n).stack = (s.jNext n, some (s.jSr n), if j.wait.isSome ∧ j.inSlots = 1 then 2 else j.inSlots) :: j.stack ∧ bit (t.jug n).ipend i = false ∧
        (t.jug n).pc = BitVec.ofNat 12 ((s.getReg (Reg.jugVbase n)).toNat + 4 * i) ∧ (t.jug n).issueAt = s.beat + 2 ∧
        (t.jug n).wait = none ∧ bit (t.jSr n) 7 = false ∧ bit (t.jSr n) 8 = false ∧
        (∀ k, k ≠ i → k < 8 → bit (t.jug n).ipend k = bit j.ipend k) ∧ s.OnlyRing t n [Reg.jugReg n 35]) ∧
    (bit (s.jSr n) 7 = false → exec (.interruptEntry n) s = .next s) ∧
    (∀ k m a, j.wait = some (k, m, a) → j.st = .running → j.stopAt = none → j.issueAt ≤ s.beat → s.jEntry n = none →
      (s.jWaitHolds n k m = true → exec (.jugWaitRelease n) s = .next (s.modJug n fun j => { j with wait := none, issueAt := s.beat })) ∧
      (s.jWaitHolds n k m = false → exec (.jugWaitRelease n) s = .next s)) ∧
    (s.jReady n = true → s.memu.borrow = none → s.damageIn (State.ringMem n + 0x700000 + 4 * j.pc.toNat) 4 = [] →
      s.jLegalHere n (s.jFetch n) = false → exec (.illegalPacket n) s = .next
        ((((((s.jSettle n).jRestore n).modJug n fun j => { j with issuedAt := some s.beat, rtiHold := j.rtiHold && j.slots.isSome }).raiseFlag
          (Reg.jugFlags n) 0).setReg (Reg.jugIllPc n) (BitVec.ofNat 32 (2 ^ 31 + j.pc.toNat))).jAdvance n .plain)) ∧
    (s.jReady n = true → s.memu.borrow = none → s.uncorr (State.ringMem n + 0x700000 + 4 * j.pc.toNat) = true →
      ∃ t, exec (.illegalPacket n) s = .next t ∧ (t.jug n).st = .fault ∧
        t.getReg (Reg.jugFault n) = BitVec.ofNat 32 (2 ^ 31 + j.pc.toNat) ∧ bit (t.getReg (Reg.jugFlags n)) 3 = true)

/-- Class A data operations and SGNB: the result in the destination and the flags that the next packet sees; ABS, ADDS and SUBS saturate
and set SAT; CMP writes flags alone (R137, R307, R318, R334). -/
def Obligations.JugglerArithmetic : Prop :=
  ∀ (s g : State) (n : RingId) (w : Word), s.Inv → s.JIssues n w g → jClass w = 1 →
    let dst := fld w 24 22
    let d := g.jReg n dst
    let x := g.jReg n (fld w 21 19)
    let k := x.toNat % 32
    let ends := fun (c : RingId → Instr) (r : Word) (cy v : Bool) =>
      exec (c n) s = .next (((g.jMoves n w).jResult n dst r cy v).jAdvance n .plain)
    let clips := fun (c : RingId → Instr) (i : Int) (r : Word) (cy v : Bool) =>
      let t := (((g.jMoves n w).jSend n 1 dst (BitVec.ofNat 72 (BitVec.ofInt 32 (sat 32 i)).toNat) false).jFlagged n r cy v)
      exec (c n) s = .next (((if fits 32 i then t else (t.jSend n 1 46 1 false).raiseFlag (Reg.jugFlags n) 5)).jAdvance n .plain)
    let carry := decide (2 ^ 32 ≤ d.toNat + x.toNat)
    let noBorrow := fun (a b : Word) => decide (b.toNat ≤ a.toNat)
    let subV := fun (a b : Word) => decide ((a - b).toInt ≠ a.toInt - b.toInt)
    let low := BitVec.ofInt 32 (-(x.toInt.natAbs : Int))
    (jAop w = 0x01 → ends .mov x false false) ∧
    (jAop w = 0x02 → ends .jugAdd (d + x) carry (decide ((d + x).toInt ≠ d.toInt + x.toInt))) ∧
    (jAop w = 0x03 → ends .jugSub (d - x) (noBorrow d x) (subV d x)) ∧
    (jAop w = 0x04 → exec (.jugCmp n) s = .next
      (((g.jMoves n w).jFlagged n (d - x) (noBorrow d x) (subV d x)).jAdvance n .plain)) ∧
    (jAop w = 0x05 → ends .jugAnd (d &&& x) false false) ∧
    (jAop w = 0x06 → ends .jugOr (d ||| x) false false) ∧
    (jAop w = 0x07 → ends .jugXor (d ^^^ x) false false) ∧
    (jAop w = 0x08 → ends .jugShl (d <<< k) (decide (0 < k) && bit d (32 - k)) false) ∧
    (jAop w = 0x09 → ends .jugShr (d >>> k) (decide (0 < k) && bit d (k - 1)) false) ∧
    (jAop w = 0x0A → ends .asr (d.sshiftRight k) (decide (0 < k) && bit d (k - 1)) false) ∧
    (jAop w = 0x0B → ends .neg (0 - x) (noBorrow 0 x) (subV 0 x)) ∧
    (jAop w = 0x0C → clips .abs x.toInt.natAbs (0 - low) (noBorrow 0 low) (subV 0 low)) ∧
    (jAop w = 0x0D → ends .min (if x.toInt < d.toInt then x else d) false false) ∧
    (jAop w = 0x0E → ends .max (if d.toInt < x.toInt then x else d) false false) ∧
    (jAop w = 0x0F → clips .adds (d.toInt + x.toInt) (d + x) carry (decide ((d + x).toInt ≠ d.toInt + x.toInt))) ∧
    (jAop w = 0x10 → clips .subs (d.toInt - x.toInt) (d - x) (noBorrow d x) (subV d x)) ∧
    (jAop w = 0x19 → ends .sgnb (BitVec.ofNat 32 (2 * d.toNat + fld x 31 31)) false false)

/-- The accumulators: MAC and MAC2 add or subtract exact products to the accumulator of the packet before or to 0, the accumulator
operations compute on 72 bits, and RND rounds half up and saturates (R308, R315-R317, R334). -/
def Obligations.JugglerAccumulators : Prop :=
  ∀ (s g : State) (n : RingId) (w : Word), s.Inv → s.JIssues n w g →
    let m := g.jMoves n w
    let d := fun r => (g.jReg n r).toInt
    let a := fld w 18 18
    let x := g.jAcc n a
    let y := g.jAcc n (1 - a)
    let k := (g.jReg n (fld w 21 19)).toNat % 64
    let base := fun i => if bit w 27 then 0 else m.jAccFwd n i
    let prod := fun (i r : Nat) (neg : Bool) => if neg then base i - d (fld w 24 22) * d r else base i + d (fld w 24 22) * d r
    let ends := fun (c : RingId → Instr) (r : Int) => exec (c n) s = .next ((m.jAccResult n a r).jAdvance n .plain)
    (jClass w = 0 → jMop w = 1 → exec (.mac n) s = .next
      ((m.jAccResult n (fld w 25 25) (prod (fld w 25 25) (fld w 21 19) (bit w 26))).jAdvance n .plain)) ∧
    (jClass w = 0 → jMop w = 2 →
      let rb := fld w 21 19
      let rx := if rb % 2 = 0 then rb + 1 else rb - 1
      let r0 := prod 0 (if bit w 18 then rx else rb) (bit w 26)
      let r1 := prod 1 (if bit w 18 then rb else rx) (bit w 25)
      let out := !fits 72 r0 || !fits 72 r1
      exec (.mac2 n) s = .next ((((m.jSend n 2 42 (BitVec.ofInt 72 r0) false).jSend n 2 43 (BitVec.ofInt 72 r1) false).jSend n 2 45
        (if out then 1 else 0) false).raiseIf out (Reg.jugFlags n) 4 |>.jAdvance n .plain)) ∧
    (jClass w = 1 →
      (jAop w = 0x11 → ends .aclr 0) ∧ (jAop w = 0x12 → ends .amov (d (fld w 21 19))) ∧
      (jAop w = 0x13 → ends .aadd (x + y)) ∧ (jAop w = 0x14 → ends .asub (x - y)) ∧
      (jAop w = 0x15 → ends .ashl (x * 2 ^ k)) ∧ (jAop w = 0x16 → ends .ashr (Int.fdiv x (2 ^ k))) ∧
      (jAop w = 0x17 → ends .aneg (-x)) ∧ (jAop w = 0x18 → ends .aabs x.natAbs)) ∧
    (jClass w = 2 → jCop w = 0x0F →
      let q := fld w 5 0
      let v := if q = 0 then g.jAcc n (fld w 20 20) else Int.fdiv (g.jAcc n (fld w 20 20) + 2 ^ (q - 1)) (2 ^ q)
      let t := g.jSend n 1 (fld w 23 21) (BitVec.ofNat 72 (BitVec.ofInt 32 (sat 32 v)).toNat) false
      exec (.rnd n) s = .next
        ((if fits 32 v then t else (t.jSend n 1 46 1 false).raiseFlag (Reg.jugFlags n) 5).jAdvance n .plain))

/-- Moves, register loads and ports: a packet of moves alone; a store takes effect at once and a load two beats later; absolute moves; LDI,
LDR and MOVR; IN and OUT; POST (R311-R313, R319-R323, R334). -/
def Obligations.JugglerMovesAndPorts : Prop :=
  ∀ (s g : State) (n : RingId) (w : Word), s.Inv → s.JIssues n w g →
    let on := fun (t : State) => t.jAdvance n .plain
    let d := fun r => g.jReg n r
    let xw := BitVec.ofNat 9 (fld w 17 9)
    let at_ := State.jData n 0 (g.jReg n (8 + fld xw 7 5)).toNat
    (jRowOf w = 0x20 → exec (.move n) s = .next (on (g.jMoves n w)) ∧
      (bit xw 8 = true → fld w 8 0 = 0 →
        (bit xw 4 = false → bit xw 3 = true →
          g.jMoves n w = g.setBytes at_ (leBytes 4 (d (fld xw 2 0)).toNat)) ∧
        (bit xw 4 = false → bit xw 3 = false →
          g.jMoves n w = g.jSend n 2 (fld xw 2 0) (BitVec.ofNat 72 (g.word at_).toNat) false) ∧
        (bit xw 4 = true → bit xw 3 = false →
          g.jMoves n w = (g.jSend n 2 (fld xw 2 0) (BitVec.ofNat 72 (g.word at_).toNat) false).jSend n 1 (8 + fld xw 7 5)
            (BitVec.ofNat 72 (State.postMod (d (8 + fld xw 7 5)).toNat (d (16 + fld xw 7 5)).toInt (d (24 + fld xw 7 5)).toNat)) false))) ∧
    (jClass w = 3 →
      let a := State.jData n (fld w 29 29) (fld w 12 0)
      (bit w 28 = true → exec (.absoluteMove n) s = .next (on (g.setBytes a (leBytes 4 (d (fld w 27 22)).toNat)))) ∧
      (bit w 28 = false → exec (.absoluteMove n) s = .next
        (on (g.jSend n 2 (fld w 27 22) (BitVec.ofNat 72 (g.word a).toNat) true)))) ∧
    (jClass w = 2 →
      (jCop w = 0x09 →
        let v : Word := if bit w 20 then putFld (d (fld w 23 21)) 31 16 (fld w 15 0) else BitVec.ofInt 32 (sfld w 15 0)
        exec (.jugLdi n) s = .next (on (g.jSend n 1 (fld w 23 21) (BitVec.ofNat 72 v.toNat) false))) ∧
      (jCop w = 0x0A → exec (.ldr n) s = .next (on (g.jSend n 1 (fld w 23 18) (BitVec.ofNat 72 (fld w 15 0)) true))) ∧
      (jCop w = 0x0B → exec (.movr n) s = .next
        (on (g.jSend n 1 (fld w 23 18) (BitVec.ofNat 72 (d (fld w 17 12)).toNat) true))) ∧
      (jCop w = 0x0C → exec (.inPort n) s = .next (on ((g.jIn n (fld w 9 0) (bit w 20)).2.jSend n 2 (fld w 23 21)
        (BitVec.ofNat 72 (g.jIn n (fld w 9 0) (bit w 20)).1.toNat) false))) ∧
      (jCop w = 0x0D → State.outPort (fld w 9 0) = true → exec (.outPort n) s = .next
        (on (g.modJug n fun j => { j with outs := j.outs ++ [(g.beat + 1, fld w 9 0, d (fld w 23 21))] }))) ∧
      (jCop w = 0x0D → State.outPort (fld w 9 0) = false →
        exec (.outPort n) s = .next (on (g.raiseFlag (Reg.jugFlags n) 1))) ∧
      (jCop w = 0x0E → exec (.post n) s = .next (on (g.postDecision n (d (fld w 23 21)) (d (fld w 20 18))
        (BitVec.ofNat 12 (fld w 11 0)) (bit w 16) (bit w 17) true))))

/-- Control flow of the Juggler: taken branches go on at their target after two delay slots, CALL and RET keep the return stack, RTI
restores sr, DO sets up a loop and the loop hardware runs it, WAIT holds, HALT stops (R325-R329, R332, R337, R338). That a DO at the end
address of its loop does not count, and that HALT reaches HALTED at k + 3, are the model's choices (log entry 47). -/
def Obligations.JugglerControlFlow : Prop :=
  ∀ (s g : State) (n : RingId) (w : Word), s.Inv → s.JIssues n w g → jClass w = 2 → (g.jug n).slots = none → (g.jug n).loopW = [] →
    let j := g.jug n
    let goes := fun (t : State) (tgt : BitVec 12) (sr : Option (BitVec 32)) (ins : Nat) => t.modJug n fun j => { j with
      slots := some (2, tgt, sr, ins), inSlots := 2, pc := j.pc + 1, issueAt := g.beat + 1 }
    let atEnd := bit (g.jSr n) 8 = true ∧ g.jReg n 33 = j.pc.zeroExtend 32
    let onward := fun (t : State) (pc : BitVec 12) (k : Nat) => t.modJug n fun x => { x with inSlots := k, pc := pc, issueAt := g.beat + 1 }
    (jCop w = 0x02 → g.jCond n (fld w 23 20) = true →
      exec (.jugBr n) s = .next (goes g (BitVec.ofNat 12 (fld w 11 0)) none 0)) ∧
    (jCop w = 0x02 → g.jCond n (fld w 23 20) = false → ¬ atEnd → exec (.jugBr n) s = .next (onward g (j.pc + 1) 2)) ∧
    (jCop w = 0x03 → g.jCond n (fld w 23 20) = true →
      exec (.brr n) s = .next (goes g (BitVec.ofNat 12 (fld (g.jReg n (fld w 19 17)) 11 0)) none 0)) ∧
    (jCop w = 0x03 → g.jCond n (fld w 23 20) = false → ¬ atEnd → exec (.brr n) s = .next (onward g (j.pc + 1) 2)) ∧
    (jCop w = 0x04 → j.stack.length < 8 → exec (.jugCall n) s = .next
      (goes (g.modJug n fun x => { x with stack := (j.pc + 3, none, 0) :: x.stack }) (BitVec.ofNat 12 (fld w 11 0)) none 0)) ∧
    (jCop w = 0x04 → 8 ≤ j.stack.length → exec (.jugCall n) s = .next (g.jFault n 1)) ∧
    (∀ a sr ins rest, j.stack = (a, sr, ins) :: rest →
      (jCop w = 0x05 → exec (.jugRet n) s = .next (goes (g.modJug n fun x => { x with stack := rest }) a none ins)) ∧
      (jCop w = 0x06 → exec (.rti n) s = .next
        (goes (g.modJug n fun x => { x with stack := rest, rtiHold := true }) a sr ins))) ∧
    (j.stack = [] → (jCop w = 0x05 → exec (.jugRet n) s = .next (g.jFault n 2)) ∧
      (jCop w = 0x06 → exec (.rti n) s = .next (g.jFault n 2))) ∧
    (jCop w = 0x07 →
      let c : Nat := if bit w 23 then (g.jReg n (fld w 22 20)).toNat % 65536 else fld w 22 12
      ∃ t, exec (.doLoop n) s = .next t ∧ t.jReg n 34 = BitVec.ofNat 32 c ∧ t.jReg n 33 = BitVec.ofNat 32 (fld w 11 0) ∧
        t.jReg n 32 = (j.pc + 1).zeroExtend 32 ∧ bit (t.jSr n) 8 = decide (0 < c) ∧
        (0 < c → (t.jug n).pc = j.pc + 1 ∧ (t.jug n).issueAt = g.beat + 1) ∧
        (c = 0 → (t.jug n).pc = BitVec.ofNat 12 (fld w 11 0) + 1 ∧ (t.jug n).issueAt = g.beat + 3) ∧
        g.OnlyRing t n [Reg.jugReg n 32, Reg.jugReg n 33, Reg.jugReg n 34, Reg.jugReg n 35]) ∧
    (jCop w = 0x08 → ¬ atEnd →
      let m : Word := if fld w 23 20 = 4 then BitVec.ofNat 32 (fld w 7 0) else g.jReg n (fld w 19 17)
      exec (.jugWait n) s = .next (onward (g.modJug n fun x => { x with wait := some (fld w 23 20, m, j.pc) }) (j.pc + 1) (j.inSlots - 1))) ∧
    (jCop w = 0x01 → ¬ atEnd → exec (.jugHalt n) s = .next
      ((onward g (j.pc + 1) (j.inSlots - 1)).modJug n fun x => { x with stopAt := some (g.beat + 3) })) ∧
    (jCop w = 0x00 → ¬ atEnd → exec (.jugNop n) s = .next (onward g (j.pc + 1) (j.inSlots - 1))) ∧
    (jCop w = 0x00 → atEnd → 2 ≤ (g.jReg n 34).toNat → exec (.jugNop n) s = .next
      (onward (g.setJReg n 34 (g.jReg n 34 - 1)) ((g.jReg n 32).truncate 12) (j.inSlots - 1))) ∧
    (jCop w = 0x00 → atEnd → g.jReg n 34 = 1 → exec (.jugNop n) s = .next
      (onward (g.setJReg n 34 0) (j.pc + 1) (j.inSlots - 1))) ∧
    (jCop w = 0x00 → atEnd → g.jReg n 34 = 0 → exec (.jugNop n) s = .next (onward g (j.pc + 1) (j.inSlots - 1)))

/-! ### Host operations -/

/-- READ, WRITE and WRITE_MASK: the value that a READ returns, the snapshot that keeps the two words of a 64-bit register together, the
write of a register whose checks pass, and the low word that waits for its high word (R46, R47, R95, R100, R101). -/
def Obligations.HostReadsAndWrites : Prop :=
  ∀ (s g : State) (p : Port) (u : Sid) (a v m : Word) (h : RegHit), s.Inv → s.Hears p u g → State.findAt a.toNat = .ok h →
    let r := g.modSess u fun x => { x with snapOf := none }
    let f := g.modSess u fun x => { x with stage := none }
    let w := (f.readWord h a.toNat &&& ~~~m) ||| (v &&& m)
    (h.desc.pair = 0 → exec (.read p u a) s = .next (r.says 0x01 a 1 (leBytes 4 (g.readWord h a.toNat).toNat))) ∧
    (∀ k, h.desc.pair = 1 → findReg (a.toNat + 4) = some k → exec (.read p u a) s = .next
      ((g.modSess u fun x => { x with snap := g.readWord k (a.toNat + 4), snapOf := some a.toNat }).says 0x01 a 1
        (leBytes 4 (g.readWord h a.toNat).toNat))) ∧
    (h.desc.pair = 2 → (g.session u).snapOf = some (a.toNat - 4) →
      exec (.read p u a) s = .next (r.says 0x01 a 1 (leBytes 4 (g.session u).snap.toNat))) ∧
    (h.desc.pair = 2 → (g.session u).snapOf ≠ some (a.toNat - 4) →
      exec (.read p u a) s = .next (r.says 0x01 a 1 (leBytes 4 (g.readWord h a.toNat).toNat))) ∧
    (h.desc.pair = 0 → f.writeCheck u h a.toNat v none true = .ok → f.lostWrite p a.toNat = false → exec (.write p u a v) s = .next
      (((f.writeDo u h a.toNat v (pairWord 0 v)).noteWrite p a.toNat).says 0x02 a 1 [])) ∧
    (h.desc.pair = 1 → f.writeCheck u h a.toNat v none true = .ok → f.lostWrite p a.toNat = false → exec (.write p u a v) s = .next
      (((f.modSess u fun x => { x with stage := some (a.toNat, v) }).noteWrite p a.toNat).says 0x02 a 1 [])) ∧
    (∀ lo, h.desc.pair = 2 → (g.session u).stage = some (a.toNat - 4, lo) → f.writeCheck u h a.toNat v (some lo) true = .ok →
      f.lostWrite p a.toNat = false → exec (.write p u a v) s = .next
        (((f.writeDo u h a.toNat v (pairWord lo v)).noteWrite p a.toNat).says 0x02 a 1 [])) ∧
    (h.desc.pair = 0 → m ≠ 0xFFFFFFFF → f.writeCheck u h a.toNat w none false = .ok → f.lostWrite p a.toNat = false →
      exec (.writeMask p u a v m) s = .next (((f.writeDo u h a.toNat w (pairWord 0 w)).noteWrite p a.toNat).says 0x03 a 1 []))

/-- A rejected operation changes nothing in the device but what its frame does, a staged low word among it: a WRITE or WRITE_MASK that a
check refuses is answered with its code (R101, R112). That the staged low word stands is the model's choice (log entry 61). -/
def Obligations.RejectedWriteChangesNothing : Prop :=
  ∀ (s g : State) (p : Port) (u : Sid) (a v m : Word), s.Inv → s.Hears p u g →
    let f := g.modSess u fun x => { x with stage := none }
    (∀ e, State.findAt a.toNat = .error e → exec (.write p u a v) s = .next (g.refuses 0x02 a 1 e) ∧
      exec (.writeMask p u a v m) s = .next (g.refuses 0x03 a 1 e) ∧ exec (.read p u a) s = .next (g.refuses 0x01 a 1 e)) ∧
    (∀ h e, State.findAt a.toNat = .ok h → h.desc.pair ≠ 2 → f.writeCheck u h a.toNat v none true = e → e ≠ .ok → f.lostWrite p a.toNat = false →
      exec (.write p u a v) s = .next (g.refuses 0x02 a 1 e)) ∧
    (∀ h, State.findAt a.toNat = .ok h → h.desc.writable = false → exec (.write p u a v) s = .next (g.refuses 0x02 a 1 .eRo)) ∧
    (∀ h x, State.findAt a.toNat = .ok h → h.desc.writable = true → leaseOf a.toNat = some x → f.leaseOk x u = false →
      exec (.write p u a v) s = .next (g.refuses 0x02 a 1 .eLease)) ∧
    (∀ h e, State.findAt a.toNat = .ok h → h.desc.pair ≠ 2 →
      f.writeCheck u h a.toNat ((f.readWord h a.toNat &&& ~~~m) ||| (v &&& m)) none false = e → e ≠ .ok → m ≠ 0xFFFFFFFF →
      f.lostWrite p a.toNat = false → exec (.writeMask p u a v m) s = .next (g.refuses 0x03 a 1 e))

/-- Block operations on memories: a read returns the words as they stand, a write shows at once or with the end of the beat and leaves the
words that read 0 (R298, R467), a program write stops nothing but makes its ring IDLE, and an operation on exchange memory goes to the DMA
engine (R46, R48, R67, R437, R504). One that meets a borrowed window or a busy bank waits (R437, R451). Streams and results: a unit within
its window is stored and marked, a stale one is discarded and one beyond the limit refused; CREDIT answers the limit; RESULT_ACK frees the
waiting records below its index (R72, R73, R76, R78). That a write to a ring memory lands with the end of its beat and a read waits for it,
and that an operation which waits holds the later ones, are the model's choices (log entries 28 and 26). -/
def Obligations.BlocksStreamsAndAcknowledgements : Prop :=
  (∀ (s g : State) (p : Port) (u : Sid) (a : Word) (k : Nat) (ws : List Word) (h : BlockHit), s.Inv → s.Hears p u g → g.memu.dma = [] →
    let kept := ws.zipIdx.map fun x => if State.zeroTail (h.addr + 4 * x.2) then 0 else x.1
    let waits := fun (len : Nat) => g.meetsWindow h.addr (4 * len) = true ∨ (h.code ≤ 8 ∧ g.bankFree h.addr = false)
    let behind := ∃ x ∈ g.memu.late, meets x.1 x.2.length h.addr (4 * k) = true
    let held := fun (d : Dma) => exec (if d.write then .blockWrite p u a ws else .blockRead p u a k) s = .next
      { g with memu := { g.memu with dma := [d] }, resp := [] }
    (findBlock a.toNat (4 * k) = .ok h → g.blockReadCheck h k = .ok → h.code ≠ 9 →
      (¬ waits k → ¬ behind → exec (.blockRead p u a k) s = .next
        ((g.eccRead h.addr (4 * k)).says 0x04 a k (g.load h.addr (4 * k)))) ∧
      (waits k ∨ behind → held { port := p, sess := u, addr := a, count := k, begun := true, since := g.beat })) ∧
    (findBlock a.toNat (4 * k) = .ok h → g.blockReadCheck h k = .ok → h.code = 9 →
      held { port := p, sess := u, addr := a, count := k, begun := true, todo := (State.portBWords h k).map fun w => (w, 0) }) ∧
    (∀ e, findBlock a.toNat (4 * k) = .ok h → g.blockReadCheck h k = e → e ≠ .ok →
      exec (.blockRead p u a k) s = .next (g.refuses 0x04 a k e)) ∧
    (findBlock a.toNat (4 * ws.length) = .ok h → g.blockWriteCheck u h ws.length = .ok →
      (h.code ≠ 9 → waits ws.length → held {
        port := p, sess := u, write := true, addr := a, count := ws.length, words := ws, begun := true, since := g.beat }) ∧
      (h.code ∈ [4, 8, 10] → ¬ waits ws.length →
        exec (.blockWrite p u a ws) s = .next ((g.store h.addr (ofWords kept)).says 0x05 a ws.length [])) ∧
      (h.code ∈ [1, 2, 3, 6, 7] → ¬ waits ws.length → exec (.blockWrite p u a ws) s = .next
        ((g.modMemu fun m => { m with late := m.late ++ [(h.addr, ofWords kept)] }).says 0x05 a ws.length [])) ∧
      (h.code = 0 → ¬ waits ws.length → exec (.blockWrite p u a ws) s = .next
        ((((g.store h.addr (ofWords kept)).instrWritten h.inst).unsign 0 h.inst).says 0x05 a ws.length [])) ∧
      (h.code = 5 → ¬ waits ws.length → (g.jug h.inst).st ≠ .fault → exec (.blockWrite p u a ws) s = .next
        (((g.store h.addr (ofWords kept)).unsign 5 h.inst).says 0x05 a ws.length [])) ∧
      (h.code = 9 → held {
        port := p, sess := u, write := true, addr := a, count := ws.length, words := ws, begun := true
        todo := (State.portBWords h ws.length).map fun w => (w, 0) })) ∧
    (∀ e, findBlock a.toNat (4 * ws.length) = .ok h → g.blockWriteCheck u h ws.length = e → e ≠ .ok →
      exec (.blockWrite p u a ws) s = .next (g.refuses 0x05 a ws.length e))) ∧
  (∀ (s g : State) (p : Port) (u : Sid) (n : RingId) (j : Fin 4) (i : Word) (ws : List Word), s.Inv → s.Hears p u g →
    let sel := BitVec.ofNat 32 (n.val + 256 * j.val)
    let lo := g.playPtr n j
    let hi := g.creditLimit n j
    (g.jumbo p = true → ws.length = 1024 → g.leaseOk (Reg.leaseRing n) u = true → g.memOn n = true → g.destructOn 1 n = false →
      g.strmEn n j = true →
      ((i = lo ∨ below lo i = true) → below i lo = false → below i hi = true → g.unitFilled n j i = false →
        exec (.streamData p u n j i ws) s = .next (((g.store (State.ringMem n + 0x2C0000 +
          (g.strmBase n j + i.toNat % g.strmUnits n j) * 0x1000) (ofWords ws)).modStrm n j fun t =>
            { t with filled := t.filled ++ [i] }).says 0x07 sel 1024 [])) ∧
      (below i lo = true → exec (.streamData p u n j i ws) s = .next
        ((g.raiseFlag (Reg.strmFlags n j) 1).says 0x07 sel 1024 [])) ∧
      (below i lo = false → below i hi = false → exec (.streamData p u n j i ws) s = .next
        ((g.raiseFlag (Reg.strmFlags n j) 2).refuses 0x07 sel 1024 .eCredit))) ∧
    exec (.credit p u n j) s = .next (g.says 0x08 sel 0 (leBytes 4 hi.toNat)) ∧
    (g.resqEn n = false → g.leaseOk (Reg.leaseRing n) u = true → (i = g.ackEnd n ∨ below i (g.ackEnd n) = true) →
      exec (.resultAck p u n i) s = .next ((g.modResq n fun q => { q with recs := q.recs.filter fun r => r.held || !below r.idx i }).says
        0x0D (BitVec.ofNat 32 n) 0 [])) ∧
    (g.resqEn n = true → g.resqSess n = u.val → (i = (g.resq n).pushed ∨ below i (g.resq n).pushed = true) →
      exec (.resultAck p u n i) s = .next ((g.modResq n fun q => { q with recs := q.recs.filter fun r => r.held || !below r.idx i }).says
        0x0D (BitVec.ofNat 32 n) 0 [])))

/-- SCHEDULE enters a write with a handle or cancels it and refuses one that comes too late; at its target beat a scheduled write is
checked again, and applied or dropped with its flag and event (R47, R69, R70). That a dropped entry still counts in the order of the writes
of its beat, and what a cancellation checks, are the model's choices (log entry 56). -/
def Obligations.ScheduledWrites : Prop :=
  ∀ (s g : State) (p : Port) (u : Sid) (a v m : Word) (t : BitVec 64) (hd : BitVec 16) (h : RegHit), s.Inv →
    (s.Hears p u g → State.findAt a.toNat = .ok h →
      (g.scheduleCheck u a.toNat t.toNat h (g.maskedWord h a.toNat v m) = .ok →
        let k := g.freshHandle
        exec (.schedule p u false a t v m) s = .next (({ g with
          nextHandle := if k = 0xFFFF then 1 else k + 1
          sched := g.sched ++ [{ handle := k, sess := u, addr := a.toNat, target := t.toNat, value := v, mask := m }] } :
          State).says 0x06 a k.toNat []) ∧
        ((∀ e ∈ g.sched, e.handle ≠ g.nextHandle) → k = g.nextHandle)) ∧
      (h.desc.writable = true → g.leaseCheck u h = .ok → t.toNat < g.beat + 1500 →
        exec (.schedule p u false a t v m) s = .next (g.refuses 0x06 a 0 .eLate)) ∧
      (g.sched.any (fun e => decide (e.sess = u.val ∧ e.addr = a.toNat ∧ e.target = t.toNat)) = true →
        exec (.schedule p u true a t v m) s = .next (({ g with
          sched := g.sched.filter fun e => !decide (e.sess = u.val ∧ e.addr = a.toNat ∧ e.target = t.toNat) } : State).says
            0x06 a 0 [])) ∧
      (g.sched.any (fun e => decide (e.sess = u.val ∧ e.addr = a.toNat ∧ e.target = t.toNat)) = false →
        exec (.schedule p u true a t v m) s = .next (g.refuses 0x06 a 0 .eState))) ∧
    (∀ e, s.sched.find? (fun e => decide (e.handle = hd ∧ e.target ≤ s.beat)) = some e →
      let f := ({ s with sched := s.sched.filter fun x => decide (x.handle ≠ hd) } : State).noteWrite 2 e.addr
      State.findAt e.addr = .ok h → h.desc.pair = 0 →
      let w := f.maskedWord h e.addr e.value e.mask
      let c := f.writeCheck e.sess h e.addr w none (decide (e.mask = 0xFFFFFFFF))
      (c = .ok → exec (.scheduleApply hd) s = .next (f.writeDo e.sess h e.addr w (pairWord 0 w))) ∧
      (c ≠ .ok → exec (.scheduleApply hd) s = .next ((f.raiseFlag Reg.schedFlags 0).raiseEvent 0x0106 0x05
        (BitVec.ofNat 32 (hd.toNat + 65536 * c.code.toNat))))) ∧
    ((∀ e ∈ s.sched, e.handle = hd → s.beat < e.target) → exec (.scheduleApply hd) s = .next s)

/-- Sessions: SESSION_OPEN opens the lowest free one with its timeout and CTRL and is answered with its number and tag, SESSION_CLOSE and a
timeout free it with its leases; DISCOVER is answered after its delay; leases are acquired, released and broken (R43, R53, R57, R65). That
the lowest free session is taken, and that the release of a lease that nobody holds is OK, are the model's choices (log entries 55 and 76).
-/
def Obligations.SessionsAndLeases : Prop :=
  ∀ (s g : State) (p : Port) (u : Sid) (l : Lease) (d : PushAddr) (q timeout ctrl : Word), s.Inv →
    let k := s.sess.findIdx fun x => !x.isOpen
    let frame : OutFrame := { cls := .response, sess := 0xFF, seq := q, dest := some d }
    let a := leaseAddr l
    let h := g.holder a
    (s.portAnswers p = true → k < 8 → (timeout = 0 ∨ (10 ≤ timeout.toNat ∧ timeout.toNat ≤ 60000)) → ctrl &&& 0xFFFFFF0E = 0 →
      ∃ t, exec (.sessionOpen p d q timeout ctrl) s = .next t ∧ (t.session k).isOpen = true ∧
        (t.session k).tag = Config.sessionTag s.freeCtr ∧ (t.session k).lastFrame = s.beat ∧ (t.session k).executed = [(q, p.val)] ∧
        t.getReg (Reg.sessCtrl k) = ctrl ∧ t.getReg (Reg.sessTimeout k) = (if timeout = 0 then 2000 else timeout) ∧
        t.getReg (Reg.sessLastSeq k) = q ∧ (∀ i, i ≠ k → t.session i = s.session i) ∧ s.Queued t p { frame with
          sess := BitVec.ofNat 8 k, tag := Config.sessionTag s.freeCtr, ops := [{ op := 0x10 }] }) ∧
    (s.portAnswers p = true → (∀ x ∈ s.sess, x.isOpen = true) → (timeout = 0 ∨ (10 ≤ timeout.toNat ∧ timeout.toNat ≤ 60000)) →
      ctrl &&& 0xFFFFFF0E = 0 → ∃ t, exec (.sessionOpen p d q timeout ctrl) s = .next t ∧ t.sess = s.sess ∧
        s.Queued t p { frame with ops := [{ op := 0x10, status := Err.eCapacity.code }] }) ∧
    (s.Hears p u g → ∃ t, exec (.sessionClose p u) s = .next t ∧ t.session u = {} ∧
      (∀ x ∈ leaseRegs, t.holder x = if g.holder x = u then 0xF else g.holder x) ∧ t.sched.length = g.sched.length ∧
      t.resp = [{ op := 0x11 }]) ∧
    (s.portAnswers p = true → ∃ t, exec (.discover p d q) s = .next t ∧ t.sess = s.sess ∧ s.Queued t p { frame with
      ops := [{ op := 0x12, body := s.discoverBody p }], notBefore := s.beat + s.sec.fuses.serial.toNat % 16 * 1500000 }) ∧
    (s.portAnswers p = false → exec (.sessionOpen p d q timeout ctrl) s = .next s ∧ exec (.discover p d q) s = .next s) ∧
    ((s.session u).isOpen = true → (s.session u).lastFrame + s.regFld (Reg.sessTimeout u) 15 0 * 1500000 ≤ s.beat →
      (s.regBit (Reg.sessCtrl u) 5 = false → exec (.sessionTimeout u) s = .next
        ((s.closeSession u).raiseEvent 0x0104 0x00 (BitVec.ofNat 32 u))) ∧
      (s.regBit (Reg.sessCtrl u) 5 = true → exec (.sessionTimeout u) s = .next
        ((((List.range 12).filter fun n => decide (s.holder (Reg.leaseRing n) = u) && s.ringRuns n).foldl
          (fun t n => t.requestHalt n) (s.closeSession u)).raiseEvent 0x0104 0x00 (BitVec.ofNat 32 u)))) ∧
    (s.beat < (s.session u).lastFrame + s.regFld (Reg.sessTimeout u) 15 0 * 1500000 → exec (.sessionTimeout u) s = .next s) ∧
    (s.Takes p u a g → (h = 0xF ∨ h = u) →
      exec (.leaseAcquire p u l) s = .next ((g.setFld a 3 0 u).wrote p a) ∧
      exec (.leaseRelease p u l) s = .next ((g.setFld a 3 0 0xF).wrote p a)) ∧
    (s.Takes p u a g → g.holder Reg.leaseChip = u → l ≠ .chip → h ≠ 0xF → h ≠ u → exec (.leaseBreak p u l) s = .next
      ((((g.setFld a 3 0 0xF).cancelUnder h a).raiseEvent 0x0105 0x00
        (BitVec.ofNat 32 ((if a = Reg.leaseTime then 0x10 else (a - Reg.leaseRing 0) / 4) + 256 * h))).wrote p a))

/-- NET values come into force and go to NVM, a change of MODE or JUMBO takes a port through alignment, RESQ CTRL starts pushes at the
oldest record, and enabling a stream resets its pointers (R71-R73, R79, R90, R91). That such a change empties the egress queue and goes to
ALIGNING in the beat of the write, with no LINK_LOST, is the model's choice (log entry 52). -/
def Obligations.NetworkAndQueueConfiguration : Prop :=
  ∀ (s g : State) (p q : Port) (u : Sid) (n : RingId) (j : Fin 4) (v : Word), s.Inv →
    let other := fun d x : Word => x &&& ~~~d = 0
    (s.Takes p u Reg.netCtrl g → bit (g.getReg Reg.netCtrl) 0 = false → exec (.netApply p u) s = .next
      (({ g with
        netNow := g.regs.filter fun e => decide (0x52000 ≤ e.1 ∧ e.1 < 0x52038)
        macOwn := g.macOwn || g.macWritten } : State).wrote p Reg.netCtrl)) ∧
    (s.Takes p u Reg.netCtrl g → g.shutting = false → g.nvmBusy = false → exec (.netSave p u) s = .next
      ((g.startStore .net).wrote p Reg.netCtrl)) ∧
    (s.Takes p u (Reg.ethCtrl q) g → other 0x330 v → fld v 5 4 ≠ 3 →
      let same := fld (g.getReg (Reg.ethCtrl q)) 5 4 = fld v 5 4 ∧ bit (g.getReg (Reg.ethCtrl q)) 9 = bit v 9
      (same → exec (.ethCtrlWrite p u q v) s = .next ((g.setReg (Reg.ethCtrl q) v).wrote p (Reg.ethCtrl q))) ∧
      (¬ same → ∃ t, exec (.ethCtrlWrite p u q v) s = .next t ∧ t.getReg (Reg.ethCtrl q) = v ∧ (t.port q).locked = false ∧
        (t.port q).egress = [] ∧ (t.port q).state = (if fld v 5 4 = 2 then .down else .aligning) ∧
        ((∀ f ∈ (g.port q).egress, f.cls ≠ .event ∧ f.cls ≠ .classC) → ∀ i, i ≠ q.val → t.port i = g.port i))) ∧
    (s.Takes p u (Reg.resqCtrl n) g → other 0xFF01FF73 v → fld v 31 24 ≠ 0 → 1 ≤ fld v 16 8 → fld v 16 8 ≤ 256 →
      (bit v 0 = true → (g.session (fld v 6 4)).isOpen = true) →
      (bit v 0 = true → g.resqEn n = false → exec (.resqCtrlWrite p u n v) s = .next
        (((g.modResq n fun x => { x with pushed := g.oldestUnfreed n }).setReg (Reg.resqCtrl n) v).wrote p (Reg.resqCtrl n))) ∧
      (bit v 0 = false ∨ g.resqEn n = true → exec (.resqCtrlWrite p u n v) s = .next
        ((g.setReg (Reg.resqCtrl n) v).wrote p (Reg.resqCtrl n)))) ∧
    (s.Takes p u (Reg.strmCfg n j) g → other 0x713F7F v → g.strmCfgCheck n j v = .ok →
      (if fld v 6 0 = 0 then bit v 16 = false else 2 ≤ fld v 6 0 ∧ fld v 6 0 ≤ 64 ∧ fld v 13 8 + fld v 6 0 ≤ 64) →
      ∃ t, exec (.strmCfgWrite p u n j v) s = .next t ∧ t.getReg (Reg.strmCfg n j) = v ∧
        (bit v 16 = true → g.strmEn n j = false → t.playPtr n j = 0 ∧ t.takePtr n j = 0 ∧ (t.strm n j).filled = [] ∧
          t.creditLimit n j = BitVec.ofNat 32 (fld v 6 0) ∧ (t.strm n j).creditDue = true) ∧
        (bit v 16 = false ∨ g.strmEn n j = true → t.playPtr n j = g.playPtr n j ∧ t.takePtr n j = g.takePtr n j ∧
          (t.strm n j).filled = (g.strm n j).filled ∧ t.creditLimit n j = g.playPtr n j + BitVec.ofNat 32 (fld v 6 0)))

/-- The states of a port: loss of lock and of codewords, the declared loss with its events, alignment and SHADOW, and the end of the shadow
period; and its optical module's presence, alarms and mirrored pages, a poll that MOD_INT_N asks for leaving the period as it is (R33, R40,
R61-R63, R550). A port that was UP goes to SHADOW when it regains alignment. How many beats apart codewords in a row may be, and which of
its pushes then move, are the model's choices (log entries 73 and 52). -/
def Obligations.PortsAndModules : Prop :=
  ∀ (s : State) (p : Port) (present : Bool) (alarms : Word) (page : List Byte), s.Inv →
    let e := s.port p
    let going := 0 < e.badRun ∧ s.beat ≤ e.badAt + (if s.ethMode p = 1 then 39 else 20)
    let loss := if e.locked = true ∧ ¬ going then none else e.lossFrom
    let lost := loss.any fun b => decide (b + 15000 ≤ s.beat)
    let run := if going then e.badRun + 1 else 1
    (s.portAnswers p = true → lost = true → exec (.portLost p) s = .next
      ((((((s.dropPort p .down).modPort p fun e => { e with locked := false }).raiseFlag (Reg.ethFlags p) 0).raiseEvent 0x0101 0x05
        (BitVec.ofNat 32 p)).raiseEventIf (!s.portUp (1 - p.val)) 0x0103 0x05 0))) ∧
    (s.portAnswers p = false ∨ lost = false → exec (.portLost p) s = .next s) ∧
    (e.locked = true → exec (.pcsLockLoss p) s = .next (s.modPort p fun e => { e with
      locked := false, shadowFrom := s.beat
      lossFrom := if e.state = .up ∨ e.state = .shadow then (if loss.isSome then e.lossFrom else some s.beat) else none })) ∧
    (e.locked = true → exec (.uncorrectableCodeword p) s = .next
      (((s.raiseFlag (Reg.ethFlags p) 1).addReg64 (Reg.ethFecUncorrLo p) 1).modPort p fun e => { e with
        shadowFrom := s.beat, badRun := run, badAt := s.beat
        lossFrom := if 8 ≤ run ∧ (e.state = .up ∨ e.state = .shadow) then (if loss.isSome then e.lossFrom else some s.beat)
          else none })) ∧
    (e.locked = false → exec (.pcsLockLoss p) s = .next s ∧ exec (.uncorrectableCodeword p) s = .next s) ∧
    (s.ethMode p ≠ 2 → s.portsRun = true → e.locked = false →
      let back := s.modPort p fun e => { e with locked := true, lossFrom := none, badRun := 0, shadowFrom := s.beat, aligned := true }
      (e.state = .shadow → e.aligned = true → exec (.portAligned p) s = .next (back.modPort p fun e => { e with state := .shadow })) ∧
      (e.state = .up → ∃ t, exec (.portAligned p) s = .next t ∧ (t.port p).state = .shadow ∧ (t.port p).shadowFrom = s.beat ∧
        (t.port p).locked = true ∧ (t.port p).egress = e.egress.filter (fun f => !State.isPush f) ∧
        ((∀ f ∈ e.egress, State.isPush f = false) → ∀ q, q ≠ p.val → t.port q = s.port q)) ∧
      (s.portAnswers p = false → e.aligned = true → exec (.portAligned p) s = .next
        (back.modPort p fun e => { e with state := .shadow })) ∧
      (s.portAnswers p = false → e.aligned = false → ∃ t, exec (.portAligned p) s = .next t ∧ (t.port p).state = .up ∧
        (t.port p).locked = true ∧ (s.rst.phase = .link → t.rst.phase = .ready))) ∧
    (s.ethMode p = 2 ∨ s.portsRun = false → exec (.portAligned p) s = .next s) ∧
    (e.state = .shadow → e.locked = true → loss = none → e.shadowFrom + s.regFld (Reg.ethShadow p) 15 0 * 1500000 ≤ s.beat →
      exec (.portUp p) s = .next ((s.bringUp p).raiseEvent 0x0102 0x05 (BitVec.ofNat 32 p))) ∧
    (e.state ≠ .shadow → exec (.portUp p) s = .next s) ∧
    (let due := s.portsRun = true ∧ e.modPollAt + 150000000 ≤ s.beat ∨ e.pollFrom.isSome = true
      let polled := s.modPort p fun e => { e with
        modPresent := present, modAlarm := alarms, pollFrom := none
        modPollAt := if e.modPollAt + 150000000 ≤ s.beat then s.beat else e.modPollAt }
      (due → present = true → exec (.modulePoll p present alarms) s = .next polled) ∧
      (due → present = false → ∃ t, exec (.modulePoll p present alarms) s = .next t ∧ t.ports = polled.ports ∧
        (∀ k, k < 64 → t.getReg (Reg.ethModule p k) = 0)) ∧
      (¬ due → exec (.modulePoll p present alarms) s = .next s)) ∧
    (e.modPresent = true → page.length = 256 → s.portsRun = true → e.mirrorAt + 1500000000 ≤ s.beat →
      ∃ t, exec (.moduleMirror p page) s = .next t ∧ t.ports = (s.modPort p fun e => { e with mirrorAt := s.beat }).ports ∧
      (∀ k, k < 64 → t.getReg (Reg.ethModule p k) = BitVec.ofNat 32 (leAt page (4 * k) 4)) ∧
      (∀ a, a ∉ (List.range 64).map (Reg.ethModule p) → t.getReg a = s.getReg a)) ∧
    exec (.moduleInterrupt p) s = .next (s.modPort p fun e => { e with pollFrom := some (e.pollFrom.getD s.beat) })

/-- Frames that are no requests: PFC frames hold a priority back and are repeated and ended; PAUSE frames, frames that are too long and
wrongly tagged ones only count; ARP, Neighbour Discovery and echo requests to the device are answered, those in a datagram only when it is
whole and without options (R34-R38, R85, R86). A first PFC frame goes out also when a write has set PFC_EN or lowered XOFF below what is
held. The layouts of ARP, Neighbour Discovery and echo messages are PRESUMED from their standards (log entry 69), and the lengths with
which frames count are the model's choice (log entry 53). -/
def Obligations.FramesOtherThanRequests : Prop :=
  ∀ (s f : State) (p : Port) (a : PushAddr) (h : RxHead) (c : Fin 8) (quanta : BitVec 16) (ip : Word) (ip6 : BitVec 128)
    (tag : Option (BitVec 12)) (len : Nat) (v6 : Bool) (data : List Byte), s.Inv →
    let d := (quanta.toNat * (if s.ethMode p = 1 then 96 else 48) + 24) / 25
    let v := s.netVal Reg.netVlan
    let fits := fun (t : Option Nat) => match t with | none => True | some x => if bit v 15 then x = fld v 11 0 else x = 0
    let mine := if v6 then f.ownV6 p ip6 else f.ownV4 (ip6.truncate 32)
    let whole := fun (six : Bool) => h.fragment = false ∧ if six then h.extension = false else h.ihl = 5
    let pfc := fun (q : Nat) => ({
      cls := .pfc, dest := some { mac := 0x0180C2000001, raw := true }
      carry := .ether 0x8808 (beBytes 2 0x0101 ++ beBytes 2 (2 ^ c.val) ++
        (List.range 8).flatMap fun k => beBytes 2 (if k = c.val then q else 0)) } : OutFrame)
    let limit := if s.jumbo p then 9216 else 1522
    let n := len + if h.tag.isSome then 4 else 0
    (s.xoffRepeatDue p c = true → exec (.pfcXoffRepeat p c) s = .next
      ((s.sendFrame p (pfc 0xFFFF)).modPort p fun e => { e with xoffAt := e.xoffAt.set c (some s.beat) })) ∧
    (s.portAnswers p = true → s.pfcEn p = true → s.regFld (Reg.ethPfcThr p) 25 16 * 1024 < (s.port p).ingress.getD c 0 →
      (s.port p).xoffAt.getD c none = none → s.xoffRepeatDue p c = true) ∧
    (s.xoffRepeatDue p c = false → exec (.pfcXoffRepeat p c) s = .next s) ∧
    (s.xonDue p c = true → exec (.pfcXon p c) s = .next
      ((s.sendFrame p (pfc 0)).modPort p fun e => { e with xoffAt := e.xoffAt.set c none })) ∧
    (s.xonDue p c = false → exec (.pfcXon p c) s = .next s) ∧
    (s.rxFrame p 0 0 = (f, true) →
      (f.pfcEn p = true → exec (.pfcFrameReceive p c quanta) s = .next
        (f.modPort p fun e => { e with pausedTo := e.pausedTo.set c (s.beat + d) })) ∧
      (f.pfcEn p = false → exec (.pfcFrameReceive p c quanta) s = .next f) ∧
      exec (.pauseFrameDiscard p) s = .next (f.raiseFlag (Reg.ethFlags p) 4) ∧
      (limit < len → exec (.oversizeDiscard p len) s = .next (f.raiseFlag (Reg.ethFlags p) 5)) ∧
      (¬ fits (tag.map (·.toNat)) → exec (.vlanDiscard p tag) s = .next (f.satReg (Reg.ethRxDrop p))) ∧
      (limit < n → s.macTakes p h len = (f.raiseFlag (Reg.ethFlags p) 5, false)) ∧
      (n ≤ limit → ¬ fits (h.tag.map fun t => fld t 11 0) → s.macTakes p h len = (f.satReg (Reg.ethRxDrop p), false))) ∧
    (s.macTakes p h 64 = (f, true) →
      (f.ipv4 ≠ 0 → ip = f.ipv4 → exec (.arpRequest p ⟨a, h⟩ ip) s = .next (f.sendFrame p {
        cls := .answer, dest := some a
        carry := .ether 0x0806 (beBytes 2 1 ++ beBytes 2 0x0800 ++ [6, 4] ++ beBytes 2 2 ++ beBytes 6 (f.portMac p).toNat ++
          beBytes 4 ip.toNat ++ beBytes 6 a.mac.toNat ++ beBytes 4 a.ip.toNat) })) ∧
      (f.ipv4 = 0 ∨ ip ≠ f.ipv4 → exec (.arpRequest p ⟨a, h⟩ ip) s = .next f)) ∧
    (s.macTakes p h 90 = (f, true) →
      (f.ownV6 p ip6 = true → whole true → exec (.neighborSolicitation p ⟨a, h⟩ ip6) s = .next (f.sendFrame p {
        cls := .answer, dest := some { a with own := ip6 }
        carry := .ip 58 (icmpBytes false ip6 a.ip 136 ([0x60, 0, 0, 0] ++ beBytes 16 ip6.toNat ++ [2, 1] ++
          beBytes 6 (f.portMac p).toNat)) })) ∧
      (f.ownV6 p ip6 = false ∨ ¬ whole true → exec (.neighborSolicitation p ⟨a, h⟩ ip6) s = .next f)) ∧
    (s.macTakes p h (data.length + if v6 then 62 else 42) = (f, true) →
      (mine = true → f.rst.phase ≠ .recovery → whole v6 → exec (.echoRequest p ⟨a, h⟩ v6 ip6 data) s = .next (f.sendFrame p {
        cls := .answer, dest := some { a with own := ip6 }
        carry := if v6 then .ip 58 (icmpBytes false ip6 a.ip 129 data) else .ip 1 (icmpBytes true ip6 a.ip 0 data) })) ∧
      (mine = false ∨ f.rst.phase = .recovery ∨ ¬ whole v6 → exec (.echoRequest p ⟨a, h⟩ v6 ip6 data) s = .next f)) ∧
    (fits (tag.map (·.toNat)) → exec (.vlanDiscard p tag) s = .next s) ∧
    (len ≤ limit → exec (.oversizeDiscard p len) s = .next s)

/-- A request is judged in the order format, length, authorisation, duplicate, window and length of its answer, and is answered or
executed; it waits behind a frame of its port in execution, and its bytes stay in the ingress buffer; a READ alone in its frame is answered
with its value (R36, R50, R52, R54-R56, R86). That a frame waits behind one whose execution is suspended, and the length with which it is
held, are the model's choices (log entries 27 and 53). -/
def Obligations.RequestsAreJudgedInOrder : Prop :=
  ∀ (s f : State) (p : Port) (a : PushAddr) (x : RxHead) (m : List Byte), s.Inv → s.macTakes p x (frameLen a m) = (f, true) →
    (a.raw = true ∨ (x.fragment = false ∧ (if isV4 a.ip then x.ihl = 5 else x.extension = false) ∧ udpOk a x.checksum m = true)) →
    leAt m 1 1 = 0 →
    let h := readHeader m
    let busy := f.inFrame p = true ∨ f.held.any (fun y => y.port == p.val) = true
    let does := fun t : State => exec (.rcpRequest p ⟨a, x⟩ m) s = .next t
    let g := if h.sess < 8 then f.noteFrame h.sess p (some a) else f
    let old := if h.sess < 8 then f.firstPort h.sess h.seq else none
    (busy → does { f with held := f.held ++ [{
      port := p, addr := a, prio := f.rxPrio x.tag, len := frameLen a m + (if x.tag.isSome then 4 else 0), msg := m }] }) ∧
    (¬ busy → readRequest m = none → does (f.reject p a h .eFormat false)) ∧
    (¬ busy → ∀ bs, readRequest m = some bs →
      (f.maxLen p < h.len → does (f.reject p a h .eCapacity false)) ∧
      (h.len ≤ f.maxLen p → f.authOk h bs = false → does (f.reject p a h .eAuth false)) ∧
      (h.len ≤ f.maxLen p → f.authOk h bs = true →
        (∀ y, old = some y → y ≠ p.val → does (g.satReg (Reg.ethDupDiscard p))) ∧
        (old = some p.val →
          let kept := ((g.session h.sess).cache.find? fun c => c.seq = h.seq).bind (·.frame)
          (∀ y, kept = some y → does (g.sendFrame p { y with flags := y.flags ||| 4, dest := some a })) ∧
          (kept = none → does (g.reject p a h .eSeq true))) ∧
        (old = none → h.sess < 8 → f.inWindow h.sess h.seq = false → does (g.reject p a h .eSeq false)) ∧
        (old = none → (h.sess < 8 → f.inWindow h.sess h.seq = true) → f.maxLen p < responseLen bs →
          does (g.reject p a h .eCapacity false)) ∧
        (old = none → (h.sess < 8 → f.inWindow h.sess h.seq = true) → responseLen bs ≤ f.maxLen p → does (g.runFrame p a m h)) ∧
        (∀ b hit, old = none → h.sess < 8 → f.inWindow h.sess h.seq = true → bs = [b] → b.op = 0x01 → b.count = 1 → b.body = [] →
          State.findAt b.addr.toNat = .ok hit → hit.desc.pair = 0 → h.flags.testBit 1 = false →
          ∃ t, does t ∧ g.Queued t p { cls := .response, sess := BitVec.ofNat 8 h.sess, seq := h.seq, tag := h.tag, dest := some a, ops := [{
            op := 0x01, addr := b.addr, count := 1
            body := leBytes 4 ((g.noteSeq h.sess p h.seq).readWord hit b.addr.toNat).toNat }] })))

/-- Pushes: the results of a queue, the credit limit of a stream and event records go to their sessions; the records of a frame are freed
under AUTO_ACK when the MAC has taken it; a suppressed event is recorded when its interval ends (R73, R77, R78, R82, R83, R107). -/
def Obligations.PushesAndEventRecords : Prop :=
  ∀ (s : State) (n : RingId) (j : Fin 4) (q : Nat) (code : BitVec 16) (src : BitVec 8) (subj : BitVec 16), s.Inv →
    let us := s.resqSess n
    let uc := s.regFld (Reg.strmCfg n j) 22 20
    let rs := (s.pushable n).take (min (s.regFld (Reg.resqCtrl n) 16 8) (s.resultCap n))
    (∀ r rest, s.resultPushDue n = true → s.pushPorts us = [q] → s.memu.damaged = [] → rs = r :: rest →
      let after := r.idx + BitVec.ofNat 32 rs.length
      ∃ t, exec (.resultPush n) s = .next t ∧ (t.resq n).pushed = after ∧
        (t.resq n).recs = (s.resq n).recs ∧
        s.Queued t q { cls := .result, sess := BitVec.ofNat 8 us, seq := (s.session us).pushSeq, tag := (s.session us).tag,
                       dest := s.pushAddr us q, ops := [{
          op := 0x09, addr := BitVec.ofNat 32 n, count := rs.length
          body := leBytes 4 r.idx.toNat ++ rs.flatMap fun x => s.bytes (State.recordAddr n x.idx) 32 }] } ∧
        (t.session us).pushSeq = (s.session us).pushSeq + 1 ∧ t.regs = s.regs ∧ t.mem = s.mem) ∧
    (s.resultPushDue n = false → exec (.resultPush n) s = .next s) ∧
    (∀ (f : OutFrame) o, f.cls = .result → f.ops = [o] → o.addr = BitVec.ofNat 32 n →
      let after := BitVec.ofNat 32 (leAt o.body 0 4 + o.count)
      s.handedOver f = if s.regBit (Reg.resqCtrl n) 1 then
          s.modResq n fun q => { q with recs := q.recs.filter fun x => x.held || !below x.idx after } else s) ∧
    (s.creditPushDue n j = true → s.pushPorts uc = [q] → ∃ t, exec (.creditPush n j) s = .next t ∧
      (t.strm n j).creditDue = false ∧ (t.strm n j).creditAt = some s.beat ∧ t.regs = s.regs ∧
      s.Queued t q { cls := .event, sess := BitVec.ofNat 8 uc, seq := (s.session uc).pushSeq, tag := (s.session uc).tag,
                     dest := s.pushAddr uc q, ops := [{
        op := 0x08, addr := BitVec.ofNat 32 (n.val + 256 * j.val), body := leBytes 4 (s.creditLimit n j).toNat }] }) ∧
    (s.creditPushDue n j = false → exec (.creditPush n j) s = .next s) ∧
    (∀ w rest (u : Sid), s.evToPush = w :: rest → (∀ i, i ≠ u.val → (s.session i).isOpen = false) → s.pushPorts u = [q] →
      s.regFld (Reg.sessCtrl u) 7 6 ≤ fld (s.getReg (Reg.evlog (w % 256) 1)) 23 16 → ∃ t, exec .eventPush s = .next t ∧
        t.evToPush = rest ∧ t.regs = s.regs ∧
        s.Queued t q { cls := .event, sess := BitVec.ofNat 8 u, seq := (s.session u).pushSeq, tag := (s.session u).tag,
                       dest := s.pushAddr u q, ops := [{
          op := 0x0A, count := 1, body := ofWords ((List.range 4).map fun k => s.getReg (Reg.evlog (w % 256) k)) }] }) ∧
    (s.evToPush = [] → exec .eventPush s = .next s) ∧
    (∀ (k : EvKey) b d, s.evKeys.find? (·.is code.toNat src.toNat subj) = some k → k.deferred = some (b, d) → k.lastAt + 15000 ≤ s.beat →
      exec (.eventDeferredRecord code src subj) s = .next
        ((s.startInterval code.toNat src.toNat subj).emitRecord (s.netTime b) code.toNat src.toNat (s.eventCount code.toNat src.toNat) d)) ∧
    (s.deferredDue code src subj = false → exec (.eventDeferredRecord code src subj) s = .next s)

/-! ### Ring commands -/

/-- SEQ_CMD: START and RESUME run the ring, HALT asks for a halt, ARM and DISARM wait for a barrier and end that, the host hold begins and
ends (R116, R183, R188, R194, R197). Aborts: accepted at once at a checkpoint, else waiting for one; the queue empties, ABORT_SRC and the
flag ABORTED are set, and the ring is ABORTED 25 beats later; a machine check aborts a ring that runs or is armed, and turns an abort under
way into one to MCK (R171, R176, R191, R195). That a machine check of another ring raises nothing, and that a ring which starts, resumes or
is armed takes back a borrowed window, are the model's choices (log entries 7 and 67). -/
def Obligations.RunsAndAbortsOfRings : Prop :=
  (∀ (s g : State) (p : Port) (u : Sid) (n : RingId), s.Inv → s.Takes p u (Reg.seqCmd n) g →
    let st := (g.seq n).st
    let done := fun t : State => t.wrote p (Reg.seqCmd n)
    (g.startCheck n = .ok → ∃ t, exec (.seqStart p u n) s = .next (done t) ∧ (t.seq n).st = .running ∧ (t.seq n).issueAt = g.beat ∧
      (t.seq n).taq = [] ∧ (t.seq n).shotAt = g.beat ∧ t.getReg (Reg.seqPc n) = g.getReg (Reg.seqPc n) ∧
      (∀ a ∈ [Reg.seqSt n, Reg.seqRsc n] ++ (List.range 16).map (Reg.seqStack n), t.getReg a = 0) ∧
      ((g.meetNow n).posts = [] → ∀ a ∈ [Reg.seqDr n, Reg.seqDrvf n, Reg.seqDrvc n], t.getReg a = 0) ∧
      t.getReg64 (Reg.seqStartBeatLo n) = g.beatCount ∧
      ((t.jug n).st = if g.withRing n && g.jugAllowed n then .running else (g.jug n).st) ∧
      (g.ownWindow n).OnlyRing t n ([Reg.seqDr n, Reg.seqDrvf n, Reg.seqDrvc n, Reg.seqSt n, Reg.seqRsc n, Reg.seqIllPc n, Reg.seqStartBeatLo n,
        Reg.seqStartBeatLo n + 4, Reg.jugReg n 35, Reg.jugImc n, Reg.jugImf n] ++ (List.range 16).map (Reg.seqStack n) ++
        (List.range 4).map (Reg.biasOut n))) ∧
    (g.startCheck n = .ok → exec (.seqArm p u n) s = .next
      (done ((g.ownWindow n).modSeq n fun q => { q with st := .armed, armedFrom := q.st, wait := .none }))) ∧
    (st = .armed → exec (.seqDisarm p u n) s = .next (done (g.modSeq n fun q => { q with st := q.armedFrom, haltPend := false }))) ∧
    ((st = .halted ∨ st = .aborted) → g.resumeCheck n = .ok → exec (.seqResume p u n) s = .next
      (done (((g.ownWindow n).setReg64 (Reg.seqStartBeatLo n) g.beatCount).modSeq n fun q => { q with
        st := .running, wait := .none, issueAt := g.beat, refAt := g.beat, haltFrom := none, haltPend := false, caseGot := none,
        caseUse := none }))) ∧
    ((st = .running ∨ st = .paused) → (g.seq n).haltPend = true → exec (.seqResume p u n) s = .next
      (done (g.modSeq n fun q => { q with haltPend := false }))) ∧
    ((st = .running ∨ st = .paused) → (g.seq n).wait ≠ .cp2 ∨ (g.seq n).haltPend = true → exec (.seqHalt p u n) s = .next
      (done (g.modSeq n fun q => { q with haltPend := true }))) ∧
    ((st = .running ∨ st = .paused) → (g.seq n).wait = .cp2 → (g.seq n).haltPend = false → exec (.seqHalt p u n) s = .next
      (done ((g.modSeq n fun q => { q with haltPend := true }).takeHalt n))) ∧
    exec (.seqHoldSet p u n) s = .next (done (g.modSeq n fun q => { q with hold := true })) ∧
    exec (.seqHoldClr p u n) s = .next (done (g.modSeq n fun q => { q with hold := false }))) ∧
  (∀ (s g : State) (p : Port) (u : Sid) (n : RingId) (upc : BitVec 12), s.Inv →
    let live := fun x : State => (x.seq n).st = .running ∨ (x.seq n).st = .paused
    let quiet := fun x : State => ∀ l, l < 32 → (x.lane n l).wins = []
    let taken := fun (x t : State) (src : Nat) => (t.seq n).st = .aborting ∧ (t.seq n).taq = [] ∧ (t.seq n).abortAt = some x.beat ∧
      (t.seq n).abortReq = none ∧ t.getReg (Reg.seqAbortSrc n) = BitVec.ofNat 32 src ∧ bit (t.getReg (Reg.seqFlags n)) 1 = true
    (s.Takes p u (Reg.seqCmd n) g → live g → g.atCheckpoint n = true → ∃ t, exec (.seqAbort p u n) s = .next t ∧
      t = (g.acceptAbort n 0).wrote p (Reg.seqCmd n) ∧ (quiet g → taken g t 0)) ∧
    (s.Takes p u (Reg.seqCmd n) g → live g → g.atCheckpoint n = false → (g.seq n).abortReq = none → exec (.seqAbort p u n) s = .next
      ((g.modSeq n fun q => { q with abortReq := some 0 }).wrote p (Reg.seqCmd n))) ∧
    (s.Takes p u (Reg.seqCmd n) g → (g.seq n).st = .armed → exec (.seqAbort p u n) s = .next
      ((g.modSeq n fun q => { q with st := q.armedFrom, haltPend := false }).wrote p (Reg.seqCmd n))) ∧
    (s.Takes p u (Reg.seqCmd n) g → (g.seq n).st = .aborting → exec (.seqAbort p u n) s = .next (g.wrote p (Reg.seqCmd n))) ∧
    (∀ src, (s.seq n).abortReq = some src → s.ringRuns n = true → s.atCheckpoint n = true → ∃ t, exec (.abortAccept n) s = .next t ∧
      t = s.acceptAbort n src ∧ (quiet s → taken s t src)) ∧
    (s.atCheckpoint n = false → exec (.abortAccept n) s = .next s) ∧
    (∀ b, (s.seq n).abortAt = some b → b + 25 ≤ s.beat → exec (.abortRampEnd n) s = .next
      (((s.stopVoices n).modSeq n fun q => { q with st := if q.mckAbort then .mck else .aborted, abortAt := none }).endShotRecords n)) ∧
    (∀ b, (s.seq n).abortAt = some b → s.beat < b + 25 → exec (.abortRampEnd n) s = .next s) ∧
    (s.ringRuns n = true → (s.seq n).st ≠ .aborting → exec (.machineCheck n upc) s = .next
      (((s.setReg (Reg.seqUpc n) (upc.zeroExtend 32)).acceptAbort n 3).raiseEvent 0x0702 (ringSource n 0) (upc.zeroExtend 32))) ∧
    ((s.seq n).st = .aborting → exec (.machineCheck n upc) s = .next
      ((((s.setReg (Reg.seqUpc n) (upc.zeroExtend 32)).setRsc n 0 0).modSeq n fun q => { q with mckAbort := true }).raiseEvent 0x0702
        (ringSource n 0) (upc.zeroExtend 32))) ∧
    (s.ringRuns n = false → exec (.machineCheck n upc) s = .next s))

/-! ### Trapeze -/

/-- A link's bring-up from START to UP state by state, its STOP, its failures with their cause, and its delay measured from TIME flits and
recorded in every state (R350, R352-R354). UP comes at a marker boundary after the beats in which DELAY was left and the partner's
TRAIN_DONE was decoded. That START begins again from any state, and the states that LINK_STATE_ADVANCE ends, are the model's choices (log
entry 23). -/
def Obligations.TrapezeLinkStates : Prop :=
  ∀ (s g : State) (p : Port) (u : Sid) (k : Fin 4) (c : LinkCause) (x : BitVec 64), s.Inv →
    let l := s.link k
    let st := Reg.linkStatus k
    let enters := fun (t : State) (i : LinkState) => t.modLink k fun l => { l with st := i, since := s.beat }
    (s.Takes p u (Reg.linkCmd k) g → (g.link k).freqOk = true → g.shutting = false → exec (.trapezeStart p u k) s = .next
      (((g.setFld st 11 8 0).modLink k fun l => {
        freqOk := l.freqOk, st := .clock, since := g.beat, txTrain := some (g.beat + 150000) }).wrote p (Reg.linkCmd k))) ∧
    (s.Takes p u (Reg.linkCmd k) g → (g.link k).st ≠ .off → ¬ ((g.link k).st = .up ∧ g.trapRuns = true) →
      exec (.trapezeStop p u k) s = .next (((g.setFld st 11 8 0).modLink k fun l => {
        freqOk := l.freqOk, st := .off, since := g.beat }).wrote p (Reg.linkCmd k))) ∧
    (∀ t, l.txTrain = some t → t ≤ s.beat →
      exec (.trainingPatternEnd k) s = .next (s.modLink k fun l => { l with txTrain := none, txOn := true })) ∧
    (l.st = .clock → l.freqOk = true → exec (.linkStateAdvance k) s = .next (enters s .bit)) ∧
    (l.st = .bit → exec (.linkStateAdvance k) s = .next (enters s .symbol)) ∧
    (l.st = .symbol → exec (.linkStateAdvance k) s = .next (enters s .deskew)) ∧
    (l.st = .deskew → exec (.linkStateAdvance k) s = .next (enters (s.modLink k fun l => { l with delays := [] }) .delay)) ∧
    (l.st = .delay → s.delayDone k = true → exec (.linkStateAdvance k) s = .next
      ((enters (s.modLink k fun l => { l with trainSent := true }) .waitPeer).sendLctl k 0 0 s.beat)) ∧
    (l.st = .waitPeer → l.peerDone = true → s.db % 256 = 0 → l.since < s.beat → l.doneAt < s.beat →
      exec (.linkUp k) s = .next (enters s .up)) ∧
    (s.db % 256 ≠ 0 ∨ l.since = s.beat ∨ l.doneAt = s.beat → exec (.linkUp k) s = .next s) ∧
    (s.failAllowed k c = true →
      let t := (enters (s.setFld st 11 8 (causeCode c)) .failed).modLink k fun x => { x with
        queue := x.queue.filter fun f => decide (3 < f.typ), down := x.down || decide (l.st = .up) }
      exec (.linkFail k c) s = .next (if l.st = .up then (t.raiseFlag (Reg.linkFlags k) 3).raiseEvent 0x0503 0x04
        (BitVec.ofNat 32 (k.val + 4 + 8 * 15)) else t)) ∧
    (s.failAllowed k c = false → exec (.linkFail k c) s = .next s) ∧
    (s.flitTaken k x 6 = true →
      let f := ((s.addReg64 (Reg.linkRxFlitsLo k) 1).setFld st 31 28 (flitSrc x))
      let d := (s.db % 2 ^ 48 + 2 ^ 48 - fld x 56 9) % 2 ^ 48
      (s.expectedPeer k = none ∨ s.expectedPeer k = some (flitSrc x) → s.trap.dbValid = true →
        (l.st = .delay → 17 ≤ d → d ≤ 32 → (∀ i ∈ l.delays, i = d) → exec (.timeFlitReceive k x) s = .next
          ((f.setReg (Reg.linkDelay k) (BitVec.ofNat 32 d)).modLink k fun l => { l with delays := (d :: l.delays).take 4 })) ∧
        (l.st = .up → d = s.regFld (Reg.linkDelay k) 5 0 → exec (.timeFlitReceive k x) s = .next f) ∧
        (l.st ≠ .delay → l.st ≠ .up → d ≠ s.regFld (Reg.linkDelay k) 5 0 → exec (.timeFlitReceive k x) s = .next
          ((f.raiseFlag (Reg.linkFlags k) 4).setReg (Reg.linkDelay k) (BitVec.ofNat 32 (min d 63)))) ∧
        (l.st = .up → d ≠ s.regFld (Reg.linkDelay k) 5 0 → exec (.timeFlitReceive k x) s = .next
          (((f.raiseFlag (Reg.linkFlags k) 4).setReg (Reg.linkDelay k) (BitVec.ofNat 32 (min d 63))).failLink k .align))) ∧
      (∀ i, s.expectedPeer k = some i → i ≠ flitSrc x → exec (.timeFlitReceive k x) s = .next (f.failLink k .peer))) ∧
    (s.flitTaken k x 6 = false → exec (.timeFlitReceive k x) s = .next s)

/-- The lanes of a link: a lane that does not train is replaced by the spare or fails the link, a failing lane of a running link is asked
for and swapped to the spare once its copy matches, a second one exhausts the spare, the spare may be bad, and a lane returns (R352,
R354-R358). The states in which a lane may fail to train, and the delay after which a copy is there, are the model's choices (log entry
80). -/
def Obligations.TrapezeLaneRepair : Prop :=
  ∀ (s : State) (k : Fin 4) (j : Fin 9), s.Inv →
    let l := s.link k
    let fl := Reg.linkFlags k
    let event := fun (t : State) (code lane : Nat) => t.raiseEvent code 0x04 (BitVec.ofNat 32 (k.val + 4 + 8 * lane))
    let errors := (l.errAt.filter fun e => decide (e.1 = j.val ∧ s.beat < e.2 + 2 ^ 20)).length
    let noMarker := ((l.missed.find? fun e => decide (e.1 = j.val ∧ s.beat < e.2.1 + 256)).map (·.2.2)).getD 0
    (l.st = .bit ∨ (l.st = .symbol ∧ l.since + 15000 ≤ s.beat) →
      (l.spareLane = some j.val ∨ (j = 8 ∧ l.spareBad = true) → exec (.laneFailing k j) s = .next s) ∧
      (l.spareLane ≠ some j.val → ¬ (j = 8 ∧ l.spareBad = true) → l.spareLane.isSome = true ∨ l.spareBad = true →
        exec (.laneFailing k j) s = .next (s.failLink k .lanes)) ∧
      (l.spareLane = none → l.spareBad = false → exec (.laneFailing k j) s = .next (
        if j = 8 then s.modLink k fun l => { l with spareBad := true }
        else event (s.modLink k fun l => { l with spareLane := some j.val, returnFrom := s.beat }) 0x0501 j))) ∧
    (s.linkRx k = true → j ≠ 8 → l.spareLane ≠ some j.val → l.failing ≠ some j.val → j.val ∉ l.uncovered →
      (errors < s.regFld (Reg.linkCtrl k) 15 8 → noMarker < 2 → exec (.laneFailing k j) s = .next s) ∧
      (s.regFld (Reg.linkCtrl k) 15 8 ≤ errors ∨ 2 ≤ noMarker → l.spareLane = none → l.spareBad = false → l.failing = none →
        exec (.laneFailing k j) s = .next
          (((s.raiseFlag fl 0).modLink k fun l => { l with failing := some j.val, copyFrom := none }).sendLctl k 1 j (s.beat + 1))) ∧
      (s.regFld (Reg.linkCtrl k) 15 8 ≤ errors ∨ 2 ≤ noMarker →
        l.spareLane.isSome = true ∨ l.spareBad = true ∨ l.failing.isSome = true → exec (.laneFailing k j) s = .next
          (event ((s.raiseFlag fl 0).modLink k fun l => { l with uncovered := l.uncovered ++ [j.val] }) 0x0503 j))) ∧
    (∀ i c, l.failing = some i → l.copyFrom = some c → l.goodFrom + 1280 ≤ s.beat → s.linkRx k = true → l.spareLane = none →
      l.spareBad = false → exec (.laneSwap k) s = .next ((event (s.modLink k fun l => { l with
        spareLane := some i, failing := none, copyFrom := none, returnFrom := s.beat }) 0x0501 i).sendLctl k 2 i s.beat)) ∧
    (s.beat < l.goodFrom + 1280 ∨ l.failing = none ∨ l.copyFrom = none → exec (.laneSwap k) s = .next s) ∧
    (s.linkRx k = true → l.spareBad = false → l.spareLane = none → l.failing = none →
      (4 ≤ (l.spareErrs.filter fun i => decide (l.spareErrs.headD 0 < i + 16)).length → exec (.spareBad k) s = .next
        ((s.modLink k fun l => { l with spareBad := true, copyFrom := none }).raiseFlag fl 5)) ∧
      ((l.spareErrs.filter fun i => decide (l.spareErrs.headD 0 < i + 16)).length < 4 → exec (.spareBad k) s = .next s)) ∧
    (∀ i c, s.linkRx k = true → l.spareBad = false → l.spareLane = none → l.failing = some i → l.copyFrom = some c →
      c + 16384 ≤ s.beat → c + 16384 < l.goodFrom + 1024 → exec (.spareBad k) s = .next
        (event ((s.modLink k fun l => { l with
          spareBad := true, failing := none, copyFrom := none, uncovered := l.uncovered ++ [i] }).raiseFlag fl 5) 0x0503 i)) ∧
    (∀ i, l.spareLane = some i → s.linkRx k = true → s.regBit (Reg.linkCtrl k) 16 = true → (s.db - s.linkD k) % 256 = 0 →
      l.returnFrom + 1500000 * s.regFld (Reg.linkReturnMs k) 15 0 ≤ s.beat → exec (.laneReturn k) s = .next
        ((event (s.modLink k fun l => { l with spareLane := none }) 0x0502 i).sendLctl k 3 i s.beat)) ∧
    (l.spareLane = none ∨ s.regBit (Reg.linkCtrl k) 16 = false → exec (.laneReturn k) s = .next s)

/-- The control flits of the partner, beats whose symbols are no valid flit with the lane errors they count, and the marker flit with what
it starts (R343, R345-R347, R352, R355-R357). -/
def Obligations.TrapezeControlFlitsAndMarkers : Prop :=
  ∀ (s : State) (k : Fin 4) (x : BitVec 64) (h : LaneSigns), s.Inv →
    let l := s.link k
    let fl := Reg.linkFlags k
    let event := fun (t : State) (code lane : Nat) => t.raiseEvent code 0x04 (BitVec.ofNat 32 (k.val + 8 * lane))
    let heard := fun code => s.flitTaken k x 5 = true ∧ fld x 56 53 = code
    let f := s.addReg64 (Reg.linkRxFlitsLo k) 1
    (heard 0 → exec (.trainDone k x) s = .next (f.modLink k fun l => { l with
      peerDone := true, doneAt := if l.peerDone then l.doneAt else s.beat })) ∧
    (heard 1 → exec (.mirrorReq k x) s = .next (f.modLink k fun l => { l with mirrorReq := some (fld x 52 49) })) ∧
    (heard 2 → exec (.swapped k x) s = .next (event f 0x0501 (fld x 52 49))) ∧
    (heard 3 → exec (.returned k x) s = .next (f.modLink k fun l => { l with returnDue := true })) ∧
    (s.linkRx k = false → l.st ≠ .deskew → exec (.flitDiscard k x h) s = .next s) ∧
    (l.st = .deskew → ∃ t, exec (.flitDiscard k x h) s = .next t ∧
      (∀ i, i < 9 → t.getReg (Reg.linkLaneErr k i) = if bit h.errors i = true ∧ s.getReg (Reg.linkLaneErr k i) ≠ 0xFFFFFFFF
        then s.getReg (Reg.linkLaneErr k i) + 1 else s.getReg (Reg.linkLaneErr k i)) ∧
      (∀ a, (∀ i, i < 9 → a ≠ Reg.linkLaneErr k i) → t.getReg a = s.getReg a) ∧ t.rings = s.rings ∧ t.mem = s.mem) ∧
    (s.linkRx k = true →
      let t := s.laneSigns k h
      let bad := fun i => bit h.errors i = true ∨ bit h.noMarker i = true
      let used := fun i => if l.spareLane = none then i < 8 else i < 9 ∧ l.spareLane ≠ some i
      (∀ i, i < 9 → t.getReg (Reg.linkLaneErr k i) = if bit h.errors i = true ∧ s.getReg (Reg.linkLaneErr k i) ≠ 0xFFFFFFFF
        then s.getReg (Reg.linkLaneErr k i) + 1 else s.getReg (Reg.linkLaneErr k i)) ∧
      (∀ a, (∀ i, i < 9 → a ≠ Reg.linkLaneErr k i) → t.getReg a = s.getReg a) ∧ t.rings = s.rings ∧ t.mem = s.mem ∧
      (h.codeErr = true → exec (.flitDiscard k x h) s = .next (t.raiseFlag fl 2)) ∧
      ((∃ i, used i ∧ bad i) → exec (.flitDiscard k x h) s = .next (t.raiseFlag fl 2)) ∧
      (h.codeErr = false → (∀ i, used i → ¬ bad i) → exec (.flitDiscard k x h) s = .next (if flitOk x then t else t.raiseFlag fl 1))) ∧
    (l.txOn = true → s.db % 256 = 255 → l.slotAt ≠ some s.beat →
      let t := s.modLink k fun l => { l with slotAt := some s.beat }
      (l.mirrorReq = none → l.returnDue = false → ¬ (l.trainSent = true ∧ l.st = .waitPeer) → exec (.markerFlit k) s = .next t) ∧
      (l.mirrorReq = none → l.returnDue = false → l.trainSent = true → l.st = .waitPeer →
        exec (.markerFlit k) s = .next (t.sendLctl k 0 0 s.beat)) ∧
      (∀ i, l.mirrorReq = some i → l.returnDue = false → ¬ (l.trainSent = true ∧ l.st = .waitPeer) → exec (.markerFlit k) s = .next
        (t.modLink k fun l => { l with mirror := some i, mirrorReq := none })) ∧
      (∀ i, l.mirrorReq = none → l.returnDue = true → l.mirror = some i → ¬ (l.trainSent = true ∧ l.st = .waitPeer) →
        exec (.markerFlit k) s = .next (event (t.modLink k fun l => { l with mirror := none, returnDue := false }) 0x0502 i))) ∧
    (s.db % 256 ≠ 255 → exec (.markerFlit k) s = .next s)

/-- Decisions, barriers, aborts and marker edges between chips: a DEC is held until its release beat and posted to the importing rings, a
barrier is released when every chip of its mask has arrived, and ABORT and TMARK flits reach rings and units (R348, R364, R365, R368-R372,
R394). -/
def Obligations.TrapezeMessages : Prop :=
  ∀ (s g : State) (p : Port) (u : Sid) (k : Fin 4) (b : Fin 16) (n : RingId) (x : BitVec 64) (v : Word), s.Inv →
    let f := (s.addReg64 (Reg.linkRxFlitsLo k) 1).forwardFlit x (s.beat + 2)
    let src := flitSrc x
    let y := s.bar b
    (s.Takes p u Reg.trpAbort g → v &&& ~~~0x8FFF0FFF = 0 →
      let t := g.setReg Reg.trpAbort ((g.getReg Reg.trpAbort &&& ~~~0xFFF0FFF) ||| (v &&& 0xFFF0FFF))
      exec (.trapezeAbortSend p u v) s = .next ((if bit v 31 then
        { t with trap := { t.trap with abortOut := t.trap.abortOut.or (some (15, 0)) } } else t).wrote p Reg.trpAbort)) ∧
    (∀ d, s.slotFree k = true → s.nextFlit k = some d → d.typ = 1 → exec (.decFlitTransmit k) s = .next
      ((s.modLink k fun l => { l with queue := l.queue.erase d, slotAt := some s.beat, sent := d.bits }).addReg64 (Reg.linkTxFlitsLo k) 1)) ∧
    (s.slotFree k = false → exec (.decFlitTransmit k) s = .next s) ∧
    (s.flitTaken k x 1 = true →
      let r := s.dbLatest 8 (fld x 53 46) + 56 + 40 * flitHops x
      let held := fun at_ => { f with trap := { f.trap with relBuf := f.trap.relBuf ++ [{
        release := at_, src := src, co := bit x 56, mask := BitVec.ofNat 16 (fld x 45 30), data := BitVec.ofNat 16 (fld x 29 14) }] } }
      (s.regFld (Reg.trpImport src) 27 16 = 0 → exec (.decFlitReceive k x) s = .next f) ∧
      (s.regFld (Reg.trpImport src) 27 16 ≠ 0 → 64 ≤ s.trap.relBuf.length →
        exec (.decFlitReceive k x) s = .next (f.raiseFlag Reg.trpFlags 7)) ∧
      (s.regFld (Reg.trpImport src) 27 16 ≠ 0 → s.trap.relBuf.length < 64 → s.db + 2 ≤ r →
        exec (.decFlitReceive k x) s = .next (held r)) ∧
      (s.regFld (Reg.trpImport src) 27 16 ≠ 0 → s.trap.relBuf.length < 64 → r < s.db + 2 →
        exec (.decFlitReceive k x) s = .next ((held (s.db + 2)).raiseFlag Reg.trpFlags 2))) ∧
    ((∀ e ∈ s.trap.relBuf, s.db < e.release) → exec .decRelease s = .next s) ∧
    (∀ e, s.trap.relBuf.filter (fun e => decide (e.release ≤ s.db)) = [e] →
      let w := s.getReg (Reg.trpImport e.src)
      exec .decRelease s = .next
        (({ s with trap := { s.trap with relBuf := s.trap.relBuf.filter fun e => !decide (e.release ≤ s.db) } } : State).forRings
          (BitVec.ofNat 12 (fld w 27 16)) fun n s => s.addPost n {
            due := s.beat, data := BitVec.ofNat 32 (e.data.toNat <<< fld w 4 0), mask := BitVec.ofNat 32 (e.mask.toNat <<< fld w 4 0)
            coarse := e.co, rank := e.src })) ∧
    (∀ m rest, s.barMasks b = some (m :: rest) → y.arrived = none →
      ((∀ i ∈ rest, i = m) → ∃ t, exec (.barrierArrive b) s = .next t ∧ (t.bar b).arrived = some s.db ∧ (t.bar b).mask = m ∧
        (t.bar b).got = y.got.filter (fun i => i.2.2 == m) ∧ t.rings = s.rings ∧ t.mem = s.mem) ∧
      ((∃ i ∈ rest, i ≠ m) → y.mismatch = false → exec (.barrierArrive b) s = .next
        ((s.modBar b fun x => { x with mismatch := true }).raiseFlag Reg.trpFlags 3))) ∧
    (s.barMasks b = none → exec (.barrierArrive b) s = .next s) ∧
    (s.flitTaken k x 2 = true → fld x 56 53 = b.val →
      let m := BitVec.ofNat 16 (fld x 34 19)
      (y.got.any (fun i => i.1 == src) = false → (y.arrived = none ∨ m = y.mask) → ∃ t, exec (.barFlitReceive k x) s = .next t ∧
        (t.bar b).got = y.got ++ [(src, s.dbLatest 16 (fld x 50 35), m)] ∧ t.rings = s.rings ∧ t.mem = s.mem) ∧
      (y.got.any (fun i => i.1 == src) = true ∨ (y.arrived.isSome = true ∧ m ≠ y.mask) → exec (.barFlitReceive k x) s = .next (f.raiseFlag Reg.trpFlags 3))) ∧
    (∀ r late, s.barRelease b = some (r, late) →
      let t := ((s.raiseIf late Reg.trpFlags 4).setReg (Reg.barRel b) (BitVec.ofNat 32 s.db)).modBar b fun _ => {}
      (s.db < r → exec (.barrierRelease b) s = .next s) ∧
      (r ≤ s.db → (∀ i, i < 12 → s.barWait i b = none) → exec (.barrierRelease b) s = .next t) ∧
      (r ≤ s.db → (∀ i, i < 12 → i ≠ n.val → s.barWait i b = none) → (s.barWait n b).isSome = true →
        ((s.seq n).st = .armed → bit (s.getReg (Reg.trpBar b)) n = true → exec (.barrierRelease b) s = .next (t.startRing n)) ∧
        ((s.seq n).st ≠ .armed → bit (s.getReg (Reg.trpBar b)) n = true →
          exec (.barrierRelease b) s = .next ((t.refNow n).goTo n (s.seqPc n + 1) 0)))) ∧
    (s.flitTaken k x 3 = true →
      (s.regBit Reg.trpAbortChips src = true → exec (.abortFlitReceive k x) s = .next
        (({ f with trap := { f.trap with abortIn := f.trap.abortIn ++ [s.beat + 2] } } : State).raiseFlag Reg.trpFlags 6)) ∧
      (s.regBit Reg.trpAbortChips src = false → exec (.abortFlitReceive k x) s = .next f)) ∧
    (s.flitTaken k x 4 = true →
      let c := s.addReg64 (Reg.linkRxFlitsLo k) 1
      let m := fld x 56 53
      let bin := 64 * (s.beat - (s.db - s.dbLatest 16 (fld x 52 37))) + fld x 36 31
      let took : State := { c with srcEdges := (24 + 16 * k.val + m, bin) :: s.srcEdges.filter fun e => e.1 != 24 + 16 * k.val + m }
      let wants := fun i : Nat => s.regFld (Reg.tiuCtrl i) 11 8 = m
      (s.trap.dbValid = false → exec (.tmarkFlitReceive k x) s = .next c) ∧
      ((∃ e ∈ s.srcEdges, e.1 = 24 + 16 * k.val + m ∧ bin < e.2 + 128) → exec (.tmarkFlitReceive k x) s = .next c) ∧
      (s.trap.dbValid = true → (∀ e ∈ s.srcEdges, e.1 = 24 + 16 * k.val + m → e.2 + 128 ≤ bin) →
        ((∀ i, i < 4 → ¬ wants i) → exec (.tmarkFlitReceive k x) s = .next took) ∧
        (∀ i, i < 4 → wants i → (∀ m, m < 4 → m ≠ i → ¬ wants m) → exec (.tmarkFlitReceive k x) s = .next
          (took.offerTiu i (24 + k) bin (bit x 30)))))

/-! ### Time, triggers and markers -/

/-- Network time: a snapshot holds one beat's counter and time, an adjustment is armed, cancelled and takes effect at its beat, absolute or
without a step from the change of rate (R376, R378, R380, R381). The PTP instance: messages that it does not take change nothing beyond
their frame; what it keeps of those it takes and what it answers, the messages it sends and when the next follows (by IEEE 1588, as log
entry 20 presumes), the transmit timestamps of those that leave, and its holdover (R384-R388). -/
def Obligations.NetworkTimeAdjustments : Prop :=
  (∀ (s g : State) (p : Port) (u : Sid) (mode : Bool), s.Inv →
    let B := s.adjBeat
    let inc := (s.getReg64 Reg.adjIncLo).toNat % 2 ^ 48
    let ns := s.getReg64 Reg.adjOffNsLo
    let sub : Int := (s.regFld Reg.adjOffSub 15 0 : Nat) * 2 ^ 24
    (s.Takes p u Reg.snapCmd g → ∃ t, exec (.snapCapture p u) s = .next (t.wrote p Reg.snapCmd) ∧
      t.getReg64 Reg.snapBeatLo = g.beatCount ∧ t.getReg64 Reg.snapNsLo = intNs (g.netTime g.beat) ∧
      t.getReg Reg.snapSub = (subNs (g.netTime g.beat)).zeroExtend 32 ∧
      (∀ a, a ∉ [Reg.snapBeatLo, Reg.snapBeatLo + 4, Reg.snapNsLo, Reg.snapNsLo + 4, Reg.snapSub] → t.getReg a = g.getReg a) ∧
      ∃ r, t = { g with regs := r }) ∧
    (s.Takes p u Reg.adjCtrl g → g.beat + 1500 ≤ g.adjBeat → g.adjBeat ≤ g.beat + 2 ^ 32 →
      ¬ (g.regBit Reg.ptpCtrl 0 = true ∧ g.regBit Reg.ptpCtrl 10 = false) → g.adjPending = false → exec (.adjArm p u mode) s = .next
        ((g.setReg Reg.adjCtrl (BitVec.ofNat 32 (1 + 256 * mode.toNat))).wrote p Reg.adjCtrl)) ∧
    (s.Takes p u Reg.adjCtrl g → g.adjPending = true → exec (.adjCancel p u) s = .next
      ((g.setReg Reg.adjCtrl 0).wrote p Reg.adjCtrl)) ∧
    (s.adjPending = true → B ≤ s.beat → ∃ t, exec .adjustmentApply s = .next t ∧
      t.getReg64 Reg.incrementLo = BitVec.ofNat 64 inc ∧ t.adjPending = false ∧ t.getReg64 Reg.adjLastLo = BitVec.ofNat 64 B ∧
      bit (t.getReg Reg.timeFlags) 0 = true ∧
      t.time.offset = (if s.regBit Reg.adjCtrl 8 then (ns.toNat : Int) * 2 ^ 40 + sub
        else s.time.offset + (B : Int) * ((s.increment : Int) - (inc : Int)) + (ns.toInt * 2 ^ 40 + sub)) ∧
      (s.regBit Reg.adjCtrl 8 = false → ns = 0 → sub = 0 → t.time.offset + (B : Int) * (t.increment : Int) =
        s.time.offset + (B : Int) * (s.increment : Int)) ∧ t.mem = s.mem ∧ t.rings = s.rings) ∧
    (s.adjPending = false ∨ s.beat < B → exec .adjustmentApply s = .next s)) ∧
  (∀ (s f : State) (p : Port) (m : PtpMsg) (typ : BitVec 4) (c : OutFrame), s.Inv →
    let ip := if m.layer2 then 0 else if m.v6 then 48 else 28
    let body := if m.typ = 11 then 64 else if m.typ = 9 ∨ m.typ = 2 ∨ m.typ = 3 ∨ m.typ = 10 then 54 else 44
    let does := fun t : State => exec (.ptpMessageReceive p m) s = .next t
    let ts := BitVec.ofInt 48 (Int.fdiv (f.netTimeBin (64 * f.beat - m.ago)) (2 ^ 24) -
      Int.fdiv ((f.getReg (Reg.ptpPortIngressPs p)).toInt * 65536) 1000)
    let t2 := f.extend ts
    let t1 := wireUnits m.origin + m.correction.toInt
    let half := fun x : Int => Int.fdiv x 2
    (s.macTakes p m.head (18 + ip + body) = (f, true) →
      let takes := f.ptpTakes p m = true ∧ (m.layer2 = true ∨
        (State.headOk (!m.v6) m.head = true ∧ (m.sumRight = true ∨ (m.v6 = false ∧ m.head.checksum = 0))))
      let follows := (f.time.portState = 8 ∨ f.time.portState = 9) ∧ m.src = f.time.parent
      (¬ takes → does f) ∧
      (takes → m.typ = 0 →
        (follows → m.twoStep = true → does (f.modTime fun t => { t with lastSync := f.beat, sync := some (m.seqId, ts, m.correction) })) ∧
        (follows → m.twoStep = false → f.regBit Reg.ptpCtrl 10 = true → ∃ t, does t ∧
          t.time = { f.time with lastSync := f.beat, portState := 9, sync := none, ms := t2 - t1 } ∧
          t.getReg64 Reg.ptpOffsetLo = BitVec.ofInt 64 (t2 - t1 - f.time.path) ∧
          t.getReg64 Reg.ptpPathLo = BitVec.ofInt 64 f.time.path ∧ t.getReg Reg.ptpMeas = f.getReg Reg.ptpMeas + 1) ∧
        (¬ follows → does f)) ∧
      (∀ id t3, takes → m.typ = 9 → f.time.reqT = some (id, t3) → id = m.seqId → follows → m.req = f.ptpIdentity →
        does (f.modTime fun t => { t with
          path := half (t.ms + (wireUnits m.origin - m.correction.toInt - f.extend t3)), reqT := none })) ∧
      (takes → m.typ = 1 →
        (f.time.portState = 6 → f.ptpP2p = false → does (f.ptpOut p 9 false m.seqId (m.correction - BitVec.ofInt 64 (t2 % 65536))
          (beBytes 10 (wireTime t2).toNat ++ beBytes 10 m.src.toNat))) ∧
        (f.time.portState ≠ 6 ∨ f.ptpP2p = true → does f)) ∧
      (takes → m.typ = 11 → f.ptpRole = 2 ∨ m.src.toNat / 65536 = f.ptpClock.toNat ∨ m.ann.steps = 255 → does f)) ∧
    (let next := fun (x : BitVec 8) (w at_ : Nat) => s.beat + logBeats x * (100 - w) / 100 ≤ at_ ∧
        at_ ≤ s.beat + logBeats x * (100 - w) / 100 + 2 * logBeats x * w / 100
      let sends := fun t : State => exec (.ptpMessageSend p typ) s = .next t
      let g : State := { s with freeCtr := s.freeCtr + 1 }
      (s.ptpSendDue p typ = false → sends s) ∧
      (s.ptpSendDue p typ = true →
        (typ = 0 → ∃ b, next (s.ptpLog 7 0) 30 b ∧ sends ((g.ptpOut p 0 s.ptpTwo s.time.syncId 0 (beBytes 10 0)).modTime fun t =>
          { t with syncId := t.syncId + 1, nextSync := b })) ∧
        (typ = 11 → ∃ b, next (s.ptpLog 15 8) 30 b ∧ sends ((g.ptpOut p 11 false s.time.announceId 0 g.announceBody).modTime fun t =>
          { t with announceId := t.announceId + 1, nextAnnounce := b })) ∧
        (typ = 1 → ∃ b, next (s.ptpLog 23 16) 100 b ∧ sends ((g.ptpOut p 1 false s.time.reqId 0 (beBytes 10 0)).modTime fun t =>
          { t with reqId := t.reqId + 1, nextReq := b })) ∧
        (typ = 2 → ∃ b, next (s.ptpLog 23 16) 30 b ∧ sends ((g.ptpOut p 2 false s.time.reqId 0 (beBytes 20 0)).modTime fun t =>
          { t with reqId := t.reqId + 1, nextReq := b })))) ∧
    (c.cls = .ptp → (fld c.flags 3 0 = 1 ∨ fld c.flags 3 0 = 2 ∨ (fld c.flags 3 0 < 4 ∧ bit c.flags 4 = true)) →
      ((s.tsq p).length < 16 → s.ptpLeaves p c = (s.setTsq p (s.tsq p ++ [{
        id := c.seq.truncate 16, typ := c.flags.truncate 4
        ts := BitVec.ofInt 48 (Int.fdiv (s.netTimeSub s.beat (Config.ptpEgress p s.beat)) (2 ^ 24) +
          Int.fdiv ((s.getReg (Reg.ptpPortEgressPs p)).toInt * 65536) 1000) }]), c)) ∧
      (16 ≤ (s.tsq p).length → s.ptpLeaves p c =
        (((s.satReg (Reg.ptpPortTsqDrop p)).raiseFlag (Reg.ptpPortTsqFlags p) 0).raiseEvent 0x0201 0x01 (BitVec.ofNat 32 p), c))) ∧
    (s.holdoverDue = true → exec .ptpHoldover s = .next
      ((s.modTime fun t => { t with servo := .holdover }).raiseFlag Reg.timeFlags 1)) ∧
    (s.regBit Reg.ptpCtrl 10 = true ∨ s.holdoverDue = false → exec .ptpHoldover s = .next s))

/-- Trigger edges are taken, lost in the dead time, or ignored, and act 8 beats later on the time stamp and the latches; latches are
cleared; a marker action places its edges and the edges of an instant reach the output (R390-R392, R398, R399, R401). That an edge which
leaves the level as it is, or comes with EN = 0, has no effect but on the level is the model's choice (log entry 21). -/
def Obligations.TriggersAndMarkers : Prop :=
  ∀ (s g : State) (p : Port) (u : Sid) (i : Fin 8) (bin : Nat) (rise : Bool) (n : RingId) (m : Fin 16) (v : Word), s.Inv →
    let q := s.trig i
    let on := s.regBit (Reg.trigCtrl i) 0
    let x := g.markOut m
    let at_ := 64 * (g.beat + 26) + g.regFld (Reg.tsetDelay (fld v 6 4)) 11 0
    (bin / 64 ≤ s.beat →
      (on = false → exec (.triggerEdge i bin rise) s = .next s) ∧
      (∀ b, on = true → q.last = some b → bin < b + 128 → exec (.triggerEdge i bin rise) s = .next (s.satReg (Reg.trigMissed i))) ∧
      (on = true → (∀ b, q.last = some b → b + 128 ≤ bin) → q.pend = [] → s.beat < bin / 64 + 8 →
        exec (.triggerEdge i bin rise) s = .next (s.modTrig i fun t => { t with last := some bin, pend := [(bin, rise)] })) ∧
      (on = true → (∀ b, q.last = some b → b + 128 ≤ bin) → q.pend = [] → bin / 64 + 8 ≤ s.beat → (∀ k, k < 4 → (s.tiu k).running = false) →
        ∃ t, exec (.triggerEdge i bin rise) s = .next t ∧ (t.trig i).last = some bin ∧ (t.trig i).pend = [] ∧
          t.getReg (Reg.trigLastTs i) = ts32 (s.netTimeBin bin) ∧
          t.getReg (Reg.trigLastSub i) = BitVec.ofNat 32 ((subNs (s.netTimeBin bin)).toNat + 2 ^ 16 * (!rise).toNat) ∧
          (s.regBit (Reg.trigCtrl i) (16 + n) = true → bit (t.getReg (Reg.trigLatch n)) (2 * i + (!rise).toNat) = true) ∧
          (s.regBit (Reg.trigCtrl i) (16 + n) = false → t.getReg (Reg.trigLatch n) = s.getReg (Reg.trigLatch n)))) ∧
    (s.Takes p u (Reg.trigLclr n) g → v.toNat < 2 ^ 16 → (∀ b, (Reg.trigLatch n, b) ∉ g.beatSets) → ∃ t,
      exec (.trigLatchClear p u n v) s = .next (t.wrote p (Reg.trigLclr n)) ∧
      t.getReg (Reg.trigLatch n) = g.getReg (Reg.trigLatch n) &&& ~~~v ∧
      (∀ a, a ≠ Reg.trigLatch n → t.getReg a = g.getReg a) ∧ ∃ r, t = { g with regs := r }) ∧
    (s.Takes p u (Reg.markHost m) g → v &&& ~~~0x73 = 0 → g.regFld (Reg.markCtrl m) 31 28 = 15 →
      g.regFld (Reg.tsetOwner (fld v 6 4)) 3 0 = 15 →
      let placed := fun es k => exec (.markHost p u m v) s = .next
        ((({ g with markNo := g.markNo + k } : State).modMark m fun y => { y with edges := x.edges ++ es }).wrote p (Reg.markHost m))
      (fld v 1 0 = 0 → placed [{ bin_ := at_, high := true, order := g.markNo, pulse := false }] 1) ∧
      (fld v 1 0 = 1 → placed [{ bin_ := at_, high := false, order := g.markNo, pulse := false }] 1) ∧
      (fld v 1 0 = 2 → placed [{ bin_ := at_, high := true, order := g.markNo, pulse := true },
        { bin_ := at_ + g.regFld (Reg.tsetWidth (fld v 6 4)) 15 0, high := false, order := g.markNo + 1, pulse := true }] 2)) ∧
    ((∀ e ∈ (s.markOut m).edges, s.beat < e.bin_ / 64) → exec (.markerEdge m) s = .next s) ∧
    (∀ e, (s.markOut m).edges = [e] → e.bin_ / 64 ≤ s.beat →
      (e.high = (s.markOut m).level ∨ s.regBit (Reg.markCtrl m) 0 = false → exec (.markerEdge m) s = .next
        (s.modMark m fun y => { y with level := e.high, edges := [] })) ∧
      (e.high ≠ (s.markOut m).level → s.regBit (Reg.markCtrl m) 0 = true → ∃ t, exec (.markerEdge m) s = .next t ∧
        (t.markOut m).level = e.high ∧ (t.markOut m).edges = [] ∧ t.rings = s.rings ∧ t.mem = s.mem))

/-- A time-interval unit: RUN starts it with its statistics cleared, ABORT ends it, its events make intervals, and the statistics of an
ended run (R395, R396). -/
def Obligations.TimeIntervalUnits : Prop :=
  ∀ (s g : State) (p : Port) (u : Sid) (k : Fin 4) (e : TiuEv), s.Inv →
    let q := s.tiu k
    let cmd := Reg.tiuCmd k
    let f := s.modTiu k fun t => { t with evs := t.evs.drop 1 }
    let stat := [Reg.tiuCount k, Reg.tiuMin k, Reg.tiuMax k, Reg.tiuStd k, Reg.tiuMeanLo k, Reg.tiuMeanHi k, Reg.tiuOrphans k]
    (s.Takes p u cmd g → g.shutting = false → (g.tiu k).running = false → (g.tiu k).endFrom = none → ∃ t : State, exec (.tiuRun p u k) s = .next (t.wrote p cmd) ∧
      t.tiu k = { running := true } ∧ (∀ a ∈ stat, t.getReg a = 0) ∧ (∀ a, a ∉ stat → t.getReg a = g.getReg a) ∧
      (∀ i, i ≠ k.val → t.tiu i = g.tiu i) ∧ t.mem = g.mem ∧ t.rings = g.rings) ∧
    (s.Takes p u cmd g → (g.tiu k).running = true → exec (.tiuAbort p u k) s = .next
      ((g.modTiu k fun t => { t with running := false, endFrom := some g.beat, evs := [], start := none }).wrote p cmd)) ∧
    (s.tiuDue k = none → exec (.tiuEvent k) s = .next s) ∧
    (s.tiuDue k = some e → e.isStart = true → q.start = none → exec (.tiuEvent k) s = .next
      (f.modTiu k fun t => { t with start := some e.bin_ })) ∧
    (∀ b, s.tiuDue k = some e → e.isStart = true → q.start = some b → s.regBit (Reg.tiuCtrl k) 31 = false → exec (.tiuEvent k) s = .next
      ((f.modTiu k fun t => { t with start := some e.bin_ }).raiseFlag (Reg.tiuFlags k) 2)) ∧
    (s.tiuDue k = some e → e.isStart = false → q.start = none → exec (.tiuEvent k) s = .next
      ((f.satReg (Reg.tiuOrphans k)).raiseFlag (Reg.tiuFlags k) 1)) ∧
    (∀ b, s.tiuDue k = some e → e.isStart = false → q.start = some b → 2 ^ 32 ≤ e.bin_ - b → exec (.tiuEvent k) s = .next
      ((f.modTiu k fun t => { t with start := none }).raiseFlag (Reg.tiuFlags k) 3)) ∧
    (∀ b, s.tiuDue k = some e → e.isStart = false → q.start = some b → 0 < e.bin_ - b → e.bin_ - b < 2 ^ 32 →
      let t := (f.modTiu k fun t => { t with start := none, xs := t.xs ++ [e.bin_ - b] }).addReg (Reg.tiuCount k) 1
      (q.xs.length + 1 < s.tiuN k → exec (.tiuEvent k) s = .next t) ∧
      (s.tiuN k ≤ q.xs.length + 1 → exec (.tiuEvent k) s = .next
        (t.modTiu k fun t => { t with running := false, endFrom := some s.beat, evs := [], start := none }))) ∧
    (q.endFrom = none → exec (.tiuDone k) s = .next s) ∧
    (q.endFrom.isSome = true → ∃ t, exec (.tiuDone k) s = .next t ∧ t.getReg (Reg.tiuMin k) = BitVec.ofNat 32 ((q.xs.min?).getD 0) ∧
      t.getReg (Reg.tiuMax k) = BitVec.ofNat 32 ((q.xs.max?).getD 0) ∧ t.getReg (Reg.tiuStd k) = BitVec.ofNat 32 (tiuStd q.xs) ∧
      t.getReg64 (Reg.tiuMeanLo k) = BitVec.ofNat 64 (tiuMean q.xs) ∧ t.tiu k = { q with endFrom := none, done := true } ∧
      (∀ a, a ∉ stat → t.getReg a = s.getReg a))

/-! ### Calibration and NVM -/

/-- Background calibration: a block and a monitor visit are evaluated in their beat, an injection starts at the next block boundary, an
APPLY is requested and brings the shadow trims of its die into force, and a rotation step begins and ends with the swap (R408, R411-R413,
R418, R420, R422, R425). Stores into NVM: SAVE, CLR_SAVE, the repair map's SAVE and the periodic store begin when nothing else writes NVM,
and the read-back completes them (R429, R430, R453). -/
def Obligations.CalibrationAndStores : Prop :=
  (∀ (s g : State) (p : Port) (u : Sid) (r : Fin 24) (d : Fin 4) (b : BlockStats) (m : MonVisit) (v : Word), s.Inv →
    let x := s.rxCal r
    let plain := s.regFld Reg.calCtrl 4 0 = 0 ∧ s.regBit Reg.calCtrl 16 = false
    let c := rxConf x.seenPows b
    (x.evalAt = some s.beat → exec (.calBlockEvaluation r b) s = .next ((s.modRxCal r fun y => { y with evalAt := none }).evalBlock r b) ∧
      (plain → x.inj = none → (∀ k, (s.judgeSlices r b k).1 = none) → x.rot ≠ .shadow → ∃ t, exec (.calBlockEvaluation r b) s = .next t ∧
        t.getReg (Reg.rxcalBlocks r) = s.getReg (Reg.rxcalBlocks r) + 1 ∧
        t.getReg (Reg.rxcalConfA r) = BitVec.ofNat 32 (65536 * c.2.1 + c.1) ∧ t.getReg (Reg.rxcalConfB r) = BitVec.ofNat 32 c.2.2 ∧
        (∀ a, a ∉ [Reg.rxcalBlocks r, Reg.rxcalConfA r, Reg.rxcalConfB r] → t.getReg a = s.getReg a) ∧ t.rings = s.rings)) ∧
    (x.evalAt ≠ some s.beat → exec (.calBlockEvaluation r b) s = .next s) ∧
    (∀ t, (s.dieCal d).seen = some (t, s.beat) →
      let f := s.modDie d fun y => { y with seen := none }
      exec (.monitorVisit d m) s = .next (f.evalVisit t (s.dieCal d).seenActive m) ∧
      (plain → t < 48 → (s.tx (t / 4) (t % 4)).subst = none → m.cells = [] → m.dead = [] →
        exec (.monitorVisit d m) s = .next (f.setFld (Reg.txcal t) 15 0
          (min 65535 (1310700 * (s.dieCal d).seenActive / 786432))))) ∧
    (∀ t e, (s.dieCal d).seen = some (t, e) → e ≠ s.beat → exec (.monitorVisit d m) s = .next s) ∧
    (s.Takes p u (Reg.rxcalInj r) g → v &&& ~~~3 = 0 → g.rxLive (r.val / 2) (r.val % 2) = true → g.ringRuns (r.val / 2) = false →
      g.carObserves r = false → g.inputLoud r = false → (g.rxCal r).inj = none → exec (.injectionStart p u r v) s = .next
        (((g.setBit (Reg.rxcalInj r) 1 (bit v 1)).modRxCal r fun y => { y with
          inj := some { from_ := (g.beat / 786432 + 1) * 786432 } }).wrote p (Reg.rxcalInj r))) ∧
    (s.Takes p u Reg.calApply g → v.toNat < 16 → (∀ i, i < 4 → bit v i = true → (g.dieCal i).req = none) →
      ∃ t : State, exec (.calApplyWrite p u v) s = .next (t.wrote p Reg.calApply) ∧
        (∀ i, i < 4 → (t.dieCal i).req = if bit v i then some g.beat else (g.dieCal i).req) ∧
        ∃ ds, t = { g with cal := { g.cal with die := ds } }) ∧
    (s.applyDue d = none → exec (.applyDie d) s = .next s) ∧
    (∀ forced, s.applyDue d = some forced → ∃ t, exec (.applyDie d) s = .next t ∧ (t.dieCal d).req = none ∧
      (∀ i k, i < 6 → k < 49 → t.getReg (Reg.rxtrimAct (6 * d + i) k) = s.getReg (Reg.rxtrim (6 * d + i) k)) ∧
      (∀ i w, i < 12 → w < 21 → t.getReg (Reg.txtrimAct (12 * d + i) w) = s.getReg (Reg.txtrim (12 * d + i) w)) ∧
      (∀ i, i < 12 → t.getReg (Reg.biastrimAct (12 * d + i)) = s.getReg (Reg.biastrim (12 * d + i))) ∧
      t.getReg64 (Reg.lastApplyLo d) = s.beatCount ∧ t.mem = s.mem) ∧
    (s.rotateDue r = none → exec (.sliceRotate r) s = .next s) ∧
    (∀ forced sp, s.rotateDue r = some forced → s.spareSlice r = some sp → x.failing = none →
      exec (.sliceRotate r) s = .next (((((s.modRxCal r fun y => { y with
        slots := y.slots.map (fun k => if k = s.incumbent r then sp else k), failRun := y.failRun.set (s.incumbent r) 0, rot := .gap
        gapTo := s.beat + s.regFld Reg.calRot 15 0 * 1500000 }).markRxCal r).raiseFlag (Reg.rxcalFlags r) 0).raiseEvent 0x0405 0x03
          (BitVec.ofNat 32 (r.val + 256 * sp))).raiseIf forced Reg.calFlags 2)) ∧
    (x.rot = .gap → x.gapTo ≤ s.beat → exec (.rotationStepStart r) s = .next ((s.setFld (Reg.rxcalStatus r) 17 11 0).modRxCal r fun y =>
      { y with rot := .shadow, matchRun := 0, matched := false, stepFrom := s.beat })) ∧
    (x.rot ≠ .gap ∨ s.beat < x.gapTo → exec (.rotationStepStart r) s = .next s)) ∧
  (∀ (s g : State) (p : Port) (u : Sid) (ok : Bool) (t : Store), s.Inv →
    let period := g.regFld Reg.calStore 31 16
    let saves := fun k => ((g.setFld Reg.calStore 31 16 period).startStore k).wrote p Reg.calStore
    let ended := ((s.writeStore t ok).modCal fun c => { c with store := none }).showNvm
    let bad := fun x : State => (x.raiseFlag Reg.calFlags 1).raiseEvent 0x0401 0x03 (BitVec.ofNat 32 (1 + 256 * t.toB.toNat))
    (s.Takes p u Reg.calStore g → g.shutting = false → g.nvmBusy = false → (period = 0 ∨ 10 ≤ period) →
      exec (.calSave p u) s = .next (saves .cal) ∧ exec (.clrSave p u) s = .next (saves .clr)) ∧
    (s.Takes p u Reg.repmapCtrl g → g.shutting = false → g.nvmBusy = false →
      exec (.repmapSave p u) s = .next ((g.startStore .rep).wrote p Reg.repmapCtrl)) ∧
    (s.regFld Reg.calStore 31 16 ≠ 0 → s.cal.lastStore + s.regFld Reg.calStore 31 16 * 90000000000 ≤ s.beat → s.shutting = false →
      s.nvmBusy = false → s.rst.phase = .ready → exec .calStorePeriodic s = .next (s.startStore .cal)) ∧
    (s.regFld Reg.calStore 31 16 = 0 → exec .calStorePeriodic s = .next s) ∧
    (s.cal.store = none → exec (.storeComplete ok) s = .next s) ∧
    (s.cal.store = some t → s.beat ≤ t.start → exec (.storeComplete ok) s = .next s) ∧
    (s.cal.store = some t → t.start < s.beat →
      (t.kind = .rep ∨ (t.kind = .net ∧ (ok = false ∨ s.macOwn = true)) → exec (.storeComplete ok) s = .next ended) ∧
      (t.kind = .net → ok = true → s.macOwn = false → exec (.storeComplete ok) s = .next ended.ownMac) ∧
      (t.kind = .clr → ok = true → exec (.storeComplete ok) s = .next (ended.satReg Reg.calStores)) ∧
      (t.kind = .clr → ok = false → exec (.storeComplete ok) s = .next (bad (ended.satReg Reg.calStores))) ∧
      (t.kind = .cal → ok = true → exec (.storeComplete ok) s = .next
        { (ended.satReg Reg.calStores).modCal (fun c => { c with lastStore := s.beat }) with calBad := false }) ∧
      (t.kind = .cal → ok = false → exec (.storeComplete ok) s = .next
        (bad ((ended.satReg Reg.calStores).modCal fun c => { c with lastStore := s.beat })))))

/-! ### Memories -/

/-- Error correction in the background, the march test with its borrowed windows, and a destructive run, which leaves its rows 0 and every
other byte as it was (R440, R441, R448-R451, R456, R457). A ring's memories leave the on state, keep or lose their contents, and wake: what
RET[n] shows, and when the contents are 0 (R454, R455). Contents are 0 at once on entering off, and the rows that an aborted destructive
run has tested are left 0 (log entry 39); a scrub read acts at the command's beat (log entry 31); all three are the model's choice. -/
def Obligations.MemoryTestAndRetention : Prop :=
  (∀ (s g : State) (p : Port) (u : Sid) (a : Word) (m : March) (w : Borrow) (faulty : Bool) (faults : List Nat) (rows : Nat), s.Inv →
    let code := g.regFld Reg.mtestCfg 15 12
    let inst := g.regFld Reg.mtestCfg 11 8
    let keep := g.regBit Reg.mtestCfg 0
    let base := arrayBase a.toNat
    let r := s.nextRow m
    let at_ := rowAddr r.1 r.2.1 r.2.2
    let first := memBase m.code m.inst
    (a.toNat ∈ s.memu.writeback →
      let found := s.memu.damaged.find? fun d => d.1 == a.toNat
      let kept := s.modMemu fun x => { x with writeback := x.writeback.filter (· != a.toNat) }
      (found = none → exec (.eccWriteback a) s = .next kept) ∧
      (∀ d, found = some d → Damage.bad d = true → exec (.eccWriteback a) s = .next kept) ∧
      (∀ d, found = some d → d.2.length ≤ 2 → exec (.eccWriteback a) s = .next (s.modMemu fun x => { x with
        writeback := x.writeback.filter (· != d.1), damaged := x.damaged.filter fun e => e.1 != d.1 })) ∧
      (∀ d, found = some d → Damage.bad d = false → ∃ t, exec (.eccWriteback a) s = .next t ∧
        (∀ i, i < wordBytes d.1 → t.byte (d.1 + i) = s.byte (d.1 + i) ^^^ Damage.wrong d i) ∧
        (∀ x, x < d.1 ∨ d.1 + wordBytes d.1 ≤ x → t.byte x = s.byte x))) ∧
    (a.toNat ∉ s.memu.writeback → exec (.eccWriteback a) s = .next s) ∧
    (s.scrubbable a.toNat = false ∨ (∀ d ∈ s.memu.damaged, d.1 ≠ base) → exec (.scrubRead a) s = .next s) ∧
    (∀ d, s.scrubbable a.toNat = true → s.memu.damaged.find? (fun d => decide (d.1 = base)) = some d →
      (Damage.bad d = true → exec (.scrubRead a) s = .next ((s.eccWord d).modMemu fun x => { x with scrubbed := x.scrubbed ++ [base] })) ∧
      (Damage.bad d = false → base ∉ s.memu.passFix → exec (.scrubRead a) s = .next ((s.eccWord d).modMemu fun x => { x with
        scrubbed := x.scrubbed ++ [base], curFix := x.curFix ++ [base] })) ∧
      (Damage.bad d = false → base ∈ s.memu.passFix → base ∉ s.memu.suspects → exec (.scrubRead a) s = .next
        ((s.eccWord d).modMemu fun x => { x with
          scrubbed := x.scrubbed ++ [base], curFix := x.curFix ++ [base], suspects := x.suspects ++ [base] }))) ∧
    (s.Takes p u Reg.mtestCmd g → g.mtestAuto = false → inst < memInstances code → g.memu.march = none →
      g.marchState code inst keep = true → (keep = true ∨ g.checkReads code inst = false) → exec (.mtestStart p u) s = .next
        ((((g.setReg Reg.mtestStatus 1).setReg Reg.mtestFaults 0).modMemu fun x => { x with march := some {
          code := code, inst := inst, preserving := keep, row := 0, nextAt := g.beat + 1 } }).wrote p Reg.mtestCmd)) ∧
    (s.Takes p u Reg.mtestCmd g → g.memu.march = some m → g.memu.borrow = none → m.preserving = true → exec (.mtestAbort p u) s = .next
      (let ended := (g.setFld Reg.mtestStatus 1 0 3).modMemu fun x => { x with march := none }
       (if g.regFld Reg.mtestFaults 31 16 = 0 then ended else ended.modCal fun c => { c with repDue := true }).wrote p Reg.mtestCmd)) ∧
    (s.Takes p u Reg.mtestCmd g → g.memu.march = some m → g.memu.borrow ≠ none ∨ m.preserving = false → exec (.mtestAbort p u) s = .next
      ((g.modMemu fun x => { x with march := some { m with stopping := true } }).wrote p Reg.mtestCmd)) ∧
    (s.memu.march = some m → s.borrowDue = true → exec .windowBorrow s = .next
      (((s.eccRead at_ 256).setFld Reg.mtestStatus 31 16 r.2.2).modMemu fun x => { x with
        borrow := some { code := r.1, inst := r.2.1, row := r.2.2, at_ := s.beat }
        suspects := x.suspects.filter fun y => !decide (at_ ≤ y ∧ y < at_ + 256) })) ∧
    (s.borrowDue = false → exec .windowBorrow s = .next s) ∧
    (s.memu.march = some m → s.memu.borrow = some w → (∀ d ∈ s.memu.damaged, d.2.length ≤ 2) →
      (s.releaseWinDue = true → ∃ t, exec (.windowRelease faulty) s = .next t ∧ t.memu.borrow = none ∧ t.mem = s.mem) ∧
      (s.abandonDue = true → ∃ t, exec (.windowAbandon faulty) s = .next t ∧ t.memu.borrow = none ∧ t.mem = s.mem)) ∧
    (s.releaseWinDue = false → exec (.windowRelease faulty) s = .next s) ∧
    (s.abandonDue = false → exec (.windowAbandon faulty) s = .next s) ∧
    (s.memu.march = some m → s.destructEnds = some rows → ∃ t, exec (.mtestDone faults) s = .next t ∧ t.memu.march = none ∧
      (∀ x, first ≤ x → x < first + 256 * rows → t.byte x = 0) ∧ (∀ x, x < first ∨ first + 256 * rows ≤ x → t.byte x = s.byte x) ∧
      fld (t.getReg Reg.mtestStatus) 1 0 = (if rows < memRows m.code ∨ m.stopping then 3 else 2)) ∧
    (s.destructEnds = none → exec (.mtestDone faults) s = .next s)) ∧
  (∀ (s g : State) (p : Port) (u : Sid) (n : RingId) (v : Word), s.Inv →
    let ret := Reg.ret n
    let st := g.regFld ret 17 16
    let mode := fld v 1 0
    (s.Takes p u ret g → v.toNat < 4 → g.retCheck n v = .ok →
      (mode = st → exec (.retModeWrite p u n v) s = .next ((g.setFld ret 1 0 mode).wrote p ret)) ∧
      (mode ≠ st → mode = 1 → exec (.retModeWrite p u n v) s = .next (((g.setFld ret 1 0 1).setFld ret 17 16 1).wrote p ret)) ∧
      (mode ≠ st → mode = 0 → exec (.retModeWrite p u n v) s = .next
        ((((g.setFld ret 1 0 0).setFld ret 17 16 3).modMemu fun m => { m with
          wake := m.wake.set n (some (g.beat + (if st = 2 then 35768 else 3000), decide (st = 2))) }).wrote p ret)) ∧
      (mode ≠ st → mode = 2 → ∃ t : State, exec (.retModeWrite p u n v) s = .next (t.wrote p ret) ∧ t.regFld ret 17 16 = 2 ∧
        t.regFld ret 1 0 = 2 ∧ (∀ c x, c < 9 → memBase c n ≤ x → x < memBase c n + memSize c → t.byte x = 0) ∧
        (∀ x, (∀ c, c < 9 → x < memBase c n ∨ memBase c n + memSize c ≤ x) → t.byte x = g.byte x))) ∧
    (s.wakeDue n = none → exec (.retWakeDone n) s = .next s) ∧
    (s.wakeDue n = some false → exec (.retWakeDone n) s = .next
      ((s.setFld ret 17 16 0).modMemu fun m => { m with wake := m.wake.set n none })) ∧
    (s.wakeDue n = some true → ∃ t, exec (.retWakeDone n) s = .next t ∧ t.regFld ret 17 16 = 0 ∧
      (∀ c x, c < 9 → memBase c n ≤ x → x < memBase c n + memSize c → t.byte x = 0)))

/-! ### Carousel and housekeeping -/

/-- Carousel: a slot starts and stops, its frames enter the accumulator, a finished spectrum stands in its buffer and is counted, and a
pushed one leaves the queue (R459-R461, R464, R465, R469). -/
def Obligations.CarouselSpectra : Prop :=
  ∀ (s g : State) (p : Port) (u : Sid) (i : Fin 8) (num ready : Nat) (fl : BitVec 16) (bins : List BinAcc), s.Inv →
    let c := s.carSlot i
    let N := c.p0 + 1024 * c.frame + 1023
    let old := if c.bins.isEmpty then List.replicate 4096 {} else c.bins
    let xs := s.frameSamples (s.carRx i) N
    let zone := s.regFld (Reg.rxCtrl (s.carRx i / 2) (s.carRx i % 2)) 5 4
    let added := List.zipWith (fun (a : BinAcc) k => binAdd a (binPower zone xs k) (s.carThr i k)) old (List.range 4096)
    let sound := s.memu.damaged = [] ∧ s.memu.borrow = none
    (s.Takes p u (Reg.carCmd i) g → g.carCmdCheck i 1 = .ok → exec (.carouselStart p u i) s = .next
      ((((g.setReg64 (Reg.carStartBeatLo i) (BitVec.ofNat 64 (g.beat + 6))).setReg (Reg.carSpecNum i) 0).modCar i fun _ =>
        { running := true, p0 := g.beat + 6, k := g.carK i }).wrote p (Reg.carCmd i))) ∧
    (s.Takes p u (Reg.carCmd i) g → g.carBusy i = true → exec (.carouselStop p u i) s = .next
      ((g.modCar i fun c => { c with stopping := some (c.stopping.getD ((g.beat + 6 - c.p0) / (1024 * c.k))) }).wrote p (Reg.carCmd i))) ∧
    (s.frameDue i = false → exec (.carouselFrame i) s = .next s) ∧
    (s.frameDue i = true → sound → (c.frame + 1) % c.k ≠ 0 →
      exec (.carouselFrame i) s = .next (s.modCar i fun c => { c with frame := c.frame + 1, bins := added })) ∧
    (s.frameDue i = true → sound → (c.frame + 1) % c.k = 0 → ∃ t, exec (.carouselFrame i) s = .next t ∧
      (t.carSlot i).frame = c.frame + 1 ∧ (t.carSlot i).bins = [] ∧
      (∃ f, (t.carSlot i).ready = c.ready ++ [(c.frame / c.k, N + 7232, f, added)]) ∧ t.regs = s.regs ∧ t.mem = s.mem ∧
      (∀ k, k ≠ i.val → t.carSlot k = s.carSlot k)) ∧
    (∀ rest, c.ready = (num, ready, fl, bins) :: rest → s.beat < ready → exec (.spectrumReady i) s = .next s) ∧
    (∀ rest, c.ready = (num, ready, fl, bins) :: rest → ready ≤ s.beat → sound → s.carPush i = false →
      ∃ t, exec (.spectrumReady i) s = .next t ∧ (t.carSlot i).ready = rest ∧
        t.mem = (s.setBytes (0x30000000 + 0x80000 * (i.val / 2) + 0xC000 * (2 * (i.val % 2) + num % 2))
          (s.specHeader i num 0 4096 (putBit (putBit fl 4 c.thinned) 0 true) ++ bins.flatMap (binBytes c.k))).mem ∧
        t.getReg (Reg.carSpecNum i) = s.getReg (Reg.carSpecNum i) + 1 ∧
        bit (t.getReg (Reg.carStatus i)) 8 = decide (num % 2 = 1) ∧ ((t.carSlot i).running = (c.running && c.stopping != some num))) ∧
    (∀ rest, c.toPush = num :: rest → ∃ t, exec (.spectrumPush i) s = .next t ∧ (t.carSlot i).toPush = rest ∧ t.mem = s.mem ∧
      (∀ k, k ≠ i.val → t.carSlot k = s.carSlot k)) ∧
    (c.toPush = [] → exec (.spectrumPush i) s = .next s)

/-- Housekeeping: a round starts, its conversions set the values and what they watch, the readings of a discarded round are only shown, a
round ends, fans and telemetry follow (R265, R473, R475-R478, R488, R489). That a round's reference checks are drawn as it begins is the
model's choice (log entry 10), and so is the saturation of a fan's speed (log entry 82). -/
def Obligations.HousekeepingRounds : Prop :=
  ∀ (s : State) (edge : Bool) (code : BitVec 12) (val : Int) (f : Fin 2) (pulses : BitVec 16), s.Inv →
    let k := s.hk.slot
    let round := BitVec.ofNat 16 (s.getReg Reg.hkStatus).toNat
    let next := s.beat + (if s.regBit Reg.hkCtrl 0 then 6000 else 1500)
    let read := fun x : Int => (s.setReg (Reg.hkVal k) (round ++ BitVec.ofInt 16 x)).modHk fun h => { h with slot := k + 1, convAt := next }
    let win := s.getReg (Reg.supWin (k - 20))
    let out := decide (val < sfld win 15 0 ∨ sfld win 31 16 < val)
    let x := s.sens (k - 4)
    let n := (k - 44) / 4
    let b := (k - 44) % 4
    let o := s.biasOut n b
    let off := (val * 33554432 - o.y * (5000 * 2 ^ o.spanNow.toNat)).natAbs
    let mismatch := !s.slewing n b && o.span.isNone && o.driven && decide (s.regFld (Reg.biasMismatchThr n b) 15 0 * 33554432 < off)
    let rpm := BitVec.ofNat 16 (min 65535 (30 * pulses.toNat))
    let fan := s.hk.fans.getD f {}
    let low := s.regBit (Reg.fanCtrl f) 0 && decide (rpm.toNat < s.regFld (Reg.fanMinRpm f) 15 0)
    (s.roundDue edge = true → exec (.hkRoundStart edge) s = .next
      (let g := if edge = false ∧ s.regBit Reg.hkCtrl 8 = true then s.raiseFlag Reg.thermFlags 5 else s
       ({ g with freeCtr := s.freeCtr + 1 } : State).modHk fun h => { h with
          roundAt := s.beat, slot := 0, convAt := next, waitEdge := none, edgeAt := none, refBad := Config.refFails s.freeCtr })) ∧
    (s.roundDue edge = false → exec (.hkRoundStart edge) s = .next s) ∧
    (s.conversionDue = false → exec (.hkConversion code val) s = .next s) ∧
    (s.conversionDue = true →
      (k < 4 → exec (.hkConversion code val) s = .next (read code.toNat)) ∧
      (20 ≤ k → k < 44 → exec (.hkConversion code val) s = .next
        (((read val).setBit Reg.supOor (k - 20) out).raiseIf out Reg.thermFlags 3)) ∧
      (92 ≤ k → k < 95 → exec (.hkConversion code val) s = .next
        (read code.toNat)) ∧
      (4 ≤ k → k < 20 → s.hk.refBad = true → exec (.hkConversion code val) s = .next (read val)) ∧
      (44 ≤ k → k < 92 → exec (.hkConversion code val) s = .next
        (((read val).setReg (Reg.biasReadback n b) (round ++ BitVec.ofInt 16 val)).raiseIf mismatch (Reg.biasFlags n b) 0)) ∧
      (k = 95 → ∃ t, exec (.hkConversion code val) s = .next t ∧ t.getReg (Reg.hkVal 95) = round ++ BitVec.ofNat 16 code.toNat ∧
        t.getReg Reg.hkStatus = s.getReg Reg.hkStatus + 1 ∧ t.hk.waitEdge = some s.beat ∧
        (s.hk.refBad = true → bit (t.getReg Reg.thermFlags) 6 = true) ∧
        (s.hk.refBad = false → t.getReg Reg.thermFlags = s.getReg Reg.thermFlags) ∧
        (s.regBit Reg.telemCtrl 0 = true → s.regFld Reg.telemCtrl 23 8 ≤ s.hk.telemN + 1 →
          t.hk.telemDue = some ((s.getReg Reg.hkStatus).toNat, s.hk.roundAt)) ∧ t.rings = s.rings ∧ t.mem = s.mem) ∧
      (4 ≤ k → k < 20 → s.hk.refBad = false → x.broken = false →
        (read val).brokenCause (k - 4) code.toNat val (if x.lastCode = some code.toNat then x.sameRun + 1 else 1) = none →
        val < 1792 → x.level ≠ .shutdown → ∃ t, exec (.hkConversion code val) s = .next t ∧
          t.getReg (Reg.hkVal k) = round ++ BitVec.ofInt 16 val ∧ (t.sens (k - 4)).temp = val ∧
          (t.sens (k - 4)).lastCode = some code.toNat ∧ fld (t.getReg (Reg.thermSens (k - 4))) 15 0 = (BitVec.ofInt 16 val).toNat ∧
          (∀ i, i ≠ k - 4 → t.sens i = s.sens i) ∧ t.rings = s.rings ∧ t.mem = s.mem)) ∧
    (fan.nextAt ≤ s.beat → exec (.fanTachUpdate f pulses) s = .next
      (((s.setReg (Reg.fanTach f) (rpm.zeroExtend 32)).modHk fun h => { h with fans := h.fans.modify f fun y => {
        lowFor := if low then fan.lowFor + 1 else 0, nextAt := y.nextAt + 1500000000 } }).raiseIf
          (low && decide (fan.lowFor = 2)) Reg.thermFlags 4)) ∧
    (s.beat < fan.nextAt → exec (.fanTachUpdate f pulses) s = .next s) ∧
    (s.hk.telemDue = none → exec .telemetryPush s = .next s) ∧
    (∀ num start q seq, s.hk.telemDue = some (num, start) → s.pushPorts (s.regFld Reg.telemCtrl 6 4) = [q] → (s.port q).classCHeld ≤ 262144 →
      (s.thin s.hk.telemSum).1 = true → seq = (s.nextSeqNo 3 0).1 → ∃ t, exec .telemetryPush s = .next t ∧ t.hk.telemDue = none ∧
        s.Queued t q { cls := .classC, sess := BitVec.ofNat 8 (s.regFld Reg.telemCtrl 6 4),
                       seq := (s.session (s.regFld Reg.telemCtrl 6 4)).pushSeq, tag := (s.session (s.regFld Reg.telemCtrl 6 4)).tag,
                       dest := s.pushAddr (s.regFld Reg.telemCtrl 6 4) q, ops := [{
          op := 0x0B, addr := 3, count := 52
          body := leBytes 4 seq.toNat ++ (leBytes 4 num ++ leBytes 4 (ts32 (s.netTime start)).toNat ++
            leBytes 2 (subNs (s.netTime start)).toNat ++ List.replicate 6 0 ++
            (List.range 96).flatMap fun j => leBytes 2 (s.regFld (Reg.hkVal j) 15 0)) }] })

/-- Graceful shutdown and hard trip: converters and links power down in beat W, every TX output is off 150,000 beats later, and a trip is
latched and clears the outputs (R486, R487). Reset: an assertion takes every register to its reset value and keeps NVM and memory contents,
its end, 10 us after the last condition at the earliest, sets RST_CAUSE and starts the boot ROM, and RST_CMD resets 15,000 beats later
(R512-R515, R522, R535). That links go to OFF at the power-down and that W comes 28 beats after beat 0 at the earliest (log entry 34), and
that memory contents stay over a reset (log entry 49), are the model's choice. -/
def Obligations.ShutdownTripAndReset : Prop :=
  (∀ (s : State) (i : Fin 16), s.Inv →
    (∀ b, s.hk.shutAt = some b → s.hk.shutW = none → b + 28 ≤ s.beat →
      (s.cal.store = none ∧ s.secWrites = false) ∨ b + 4500000 ≤ s.beat → ∃ t, exec .shutdownPowerDown s = .next t ∧
      t.hk.shutW = some s.beat ∧ t.hk.powered = false ∧ (∀ k, k < 4 → (t.link k).st = .off) ∧ t.cal.store = none ∧ t.mem = s.mem ∧
      (∀ n c, n < 12 → c < 4 → (t.tx n c).out = if (s.tx n c).out = .off then .off else .rampDown (s.beat + 150000))) ∧
    (∀ b, s.hk.shutAt = some b → s.beat < b + 28 ∨ ((s.cal.store.isSome = true ∨ s.secWrites = true) ∧ s.beat < b + 4500000) →
      exec .shutdownPowerDown s = .next s) ∧
    (s.hk.shutAt = none ∨ s.hk.shutW.isSome = true → exec .shutdownPowerDown s = .next s) ∧
    (∀ w, s.hk.shutW = some w → w + 150000 ≤ s.beat → s.regBit Reg.thermStatus 6 = false → ∃ t, exec .shutdownDone s = .next t ∧
      t.regBit Reg.thermStatus 6 = true ∧ (∀ n c, n < 12 → c < 4 → (t.tx n c).out = .off) ∧ t.mem = s.mem) ∧
    (∀ w, s.hk.shutW = some w → s.beat < w + 150000 → exec .shutdownDone s = .next s) ∧
    (s.hk.shutW = none → exec .shutdownDone s = .next s) ∧
    ((s.sens i).broken = true ∨ s.hk.tripped = true → exec (.hardTrip i) s = .next s) ∧
    ((s.sens i).broken = false → s.hk.tripped = false → exec (.hardTrip i) s = .next s.trip ∧
      ((∀ n, n < 12 → (s.seq n).st ∈ [RingState.idle, .halted, .aborted, .mck]) → s.sec.op = none →
        ∃ t, exec (.hardTrip i) s = .next t ∧ t.hk.tripped = true ∧ t.hk.tripOff = some (s.beat + 30) ∧
          t.regBit Reg.thermStatus 7 = true ∧ t.rst.clrShut = true ∧ (∀ k, k < 8 → (t.carSlot k).running = false) ∧
          t.cal.store = none ∧ t.mem = s.mem))) ∧
  (∀ (s g : State) (p : Port) (u : Sid) (c : ResetCause), s.Inv →
    let cause := s.getReg Reg.rstCause
    (s.rst.inReset = false → ∃ t, exec (.resetAssert c) s = .next t ∧ t.rst.inReset = true ∧ t.mem = s.mem ∧ t.nvm = s.nvm ∧
      (∀ a, a ≠ Reg.rstCause → t.getReg a = resetWord a) ∧ bit (t.getReg Reg.rstCause) (causeBit c) = true ∧
      (∀ n, n < 12 → (t.seq n).st = .idle ∧ (t.jug n).st = .idle) ∧ t.sess = State.reset.sess ∧ t.sched = [] ∧ t.pending = s.pending) ∧
    (s.rst.inReset = true → exec (.resetAssert c) s = .next
      ((if c = .por then s.setReg Reg.rstCause 0 else s).modRst fun r => { r with
        clearAt := none, assertAt := r.ticks
        vddio := r.vddio && c != .por, resetN := r.resetN && c != .pin, pwrOk := r.pwrOk && c != .pwrOk })) ∧
    (s.rst.inReset = true → s.rst.assertAt + 15000 ≤ s.rst.ticks → ∃ t, exec .resetEnd s = .next t ∧ t.rst.inReset = false ∧
      t.rst.phase = .bootRom ∧ t.rst.ticks = 0 ∧ t.rst.phaseAt = 0 ∧ t.rst.strap = s.rst.strapPin ∧ t.rst.bootMode = s.rst.bootPin ∧
      t.getReg Reg.rstCause = BitVec.ofNat 32 (65536 * fld cause 31 16 + 16 * (bit cause 4).toNat +
        8 * (bit cause 3 && decide (s.rst.ticks ≤ 15000)).toNat + 4 * (!s.rst.pwrOk).toNat + 2 * (!s.rst.resetN).toNat +
        (!s.rst.vddio).toNat) ∧
      (∀ a, a ≠ Reg.rstCause → t.getReg a = s.getReg a) ∧ t.sec.nonceNo = some s.freeCtr ∧ t.mem = s.mem ∧ t.nvm = s.nvm) ∧
    (s.rst.inReset = true → s.rst.ticks < s.rst.assertAt + 15000 → exec .resetEnd s = .next s) ∧
    (s.rst.inReset = false → exec .resetEnd s = .next s) ∧
    (s.Takes p u Reg.rstCmd g → (∀ n, n < 12 → g.ringRuns n = false) → g.cal.store = none → g.sec.op = none →
      exec (.rstCmdReset p u 0xF05E) s = .next ((g.modRst fun r => { r with swAt := some (r.swAt.getD (g.beat + 15000)) }).wrote p Reg.rstCmd)) ∧
    (s.rst.swAt = none → exec .softwareResetExpiry s = .next s) ∧
    (∀ t, s.rst.swAt = some t → s.beat < t → exec .softwareResetExpiry s = .next s) ∧
    (∀ b, s.rst.swAt = some b → b ≤ s.beat → ∃ t, exec .softwareResetExpiry s = .next t ∧ t.rst.inReset = true ∧
      t.rst.clearAt = some 0 ∧ (∀ a, a ≠ Reg.rstCause → t.getReg a = resetWord a) ∧ bit (t.getReg Reg.rstCause) 3 = true ∧
      t.mem = s.mem ∧ t.nvm = s.nvm))

/-! ### Security -/

/-- Firmware and fuses: an update copies its image, is verified, erases its target and ends with the read-back, and a fuse write sets
MIN_SVN or REVOKED (R494, R496, R497, R502). That the image is copied whole in the start beat (log entry 35) and the functions that verify
it (log entry 14) are the model's choice. -/
def Obligations.FirmwareAndFuses : Prop :=
  ∀ (s g : State) (p : Port) (u : Sid) (o : SecOp) (ok : Bool), s.Inv →
    let src := (g.getReg Reg.fwUpdSrc).toNat
    let len := (g.getReg Reg.fwUpdLen).toNat
    let sv := g.sec.fuses.minSvn
    let starts := fun (t : State) (a cmd : Nat) (o : SecOp) =>
      ((t.setFld a 1 0 1).modSec fun x => { x with op := some { o with start := g.beat } }).wrote p cmd
    let ends := fun (t : State) (a : Nat) (e : Err) =>
      (t.setReg a (e.code.zeroExtend 32 <<< 16 ||| 2)).modSec fun x => { x with op := none }
    (s.Takes p u Reg.fwUpdCmd g → src % 32 = 0 → 0x10000000 ≤ src → src + len ≤ 0x10400000 → 8048 ≤ len → len ≤ 175024 →
      (len - 7984) % 64 = 0 → g.shutting = false → g.sec.op = none → g.nvmBusy = false → exec (.fwUpdateStart p u) s = .next
        (starts (g.eccRead src len) Reg.fwUpdStatus Reg.fwUpdCmd { kind := .update, block := g.load src len })) ∧
    (s.secReady = none → exec (.fwUpdateComplete ok) s = .next s ∧ exec .fuseWriteComplete s = .next s) ∧
    (s.secReady = some o → o.kind = .update →
      (o.writing = false → s.updError o.block = .ok → exec (.fwUpdateComplete ok) s = .next
        ((s.modNvm fun v => if s.updTarget then { v with fwB := {} } else { v with fwA := {} }).modSec fun x =>
          { x with op := some { o with writing := true } })) ∧
      (o.writing = false → s.updError o.block ≠ .ok → exec (.fwUpdateComplete ok) s = .next
        (ends s Reg.fwUpdStatus (s.updError o.block))) ∧
      (o.writing = true → ∃ t, exec (.fwUpdateComplete ok) s = .next t ∧ t.sec.op = none ∧
        (let x := if s.updTarget then t.nvm.fwB else t.nvm.fwA
         x.img = readImg s.sec.fuses o.block ∧ x.hdr.magic = fwMagic ∧ x.hdr.unit = s.serial32 ∧ x.hdr.checkOk = ok) ∧
        (ok = true → t.getReg Reg.fwUpdStatus = 2 ∧ t.fwBad = false) ∧ t.mem = s.mem ∧ t.rings = s.rings)) ∧
    (s.Takes p u Reg.fuseCmd g → g.shutting = false → g.sec.op = none →
      (sv < g.sec.img.svn → g.slotGood (!g.sec.slotB) = false → exec (.fuseMinSvn p u 0xF05E) s = .next
        (starts g Reg.fuseStatus Reg.fuseCmd { kind := .fuse 1, writing := true })) ∧
      (g.sec.img.key = 1 → exec (.fuseRevoke p u 0xF05E) s = .next
        (starts g Reg.fuseStatus Reg.fuseCmd { kind := .fuse 2, writing := true }))) ∧
    (s.secReady = some o → o.kind = .fuse 1 → exec .fuseWriteComplete s = .next
      (ends (s.modSec fun x => { x with fuses := { x.fuses with minSvn := x.img.svn } }) Reg.fuseStatus .ok)) ∧
    (s.secReady = some o → o.kind = .fuse 2 → exec .fuseWriteComplete s = .next
      (ends (s.modSec fun x => { x with fuses := { x.fuses with revoked := x.fuses.revoked ||| 1 } }) Reg.fuseStatus .ok))

/-- Attestation and the owner lock: a report says what holds at its start and replaces the old one when it is done; an owner operation
copies its block, is checked, and authorises a ring, locks or unlocks, by way of two records that are written in turn (R429, R500,
R502-R504). That the block is copied whole in the start beat, that a record's copy counts as erased from the start of its write, and what a
failed read-back leaves (log entry 35), and SHA-256 and SLH-DSA as the model has them (log entry 14), are the model's choice. -/
def Obligations.AttestationAndOwner : Prop :=
  ∀ (s g : State) (p : Port) (u : Sid) (n : RingId) (o : SecOp), s.Inv →
    let src := (g.getReg Reg.ownSrc).toNat
    let block := g.load src 7920
    let e := s.ownError o
    let starts := fun (t : State) (a cmd : Nat) (o : SecOp) =>
      ((t.setFld a 1 0 1).modSec fun x => { x with op := some { o with start := g.beat } }).wrote p cmd
    let ends := fun (t : State) (e : Err) =>
      (t.setReg Reg.ownStatus (e.code.zeroExtend 32 <<< 16 ||| 2)).modSec fun x => { x with op := none }
    let own := fun k => starts (g.eccRead src 7920) Reg.ownStatus Reg.ownCmd { kind := k, block := block }
    let still := ∀ i, i < 12 → g.ringRuns i = false
    (s.Takes p u Reg.attCmd g → g.shutting = false → g.sec.op = none → exec (.attestationStart p u) s = .next
      (starts g Reg.attStatus Reg.attCmd { kind := .attest, nonce := g.reportBytes })) ∧
    (s.secReady = none → exec .attestationComplete s = .next s ∧ exec .ownerOpComplete s = .next s) ∧
    (s.secReady = some o → o.kind = .attest → ∃ t, exec .attestationComplete s = .next t ∧ t.sec = { s.sec with op := none } ∧
      (∀ i, i < 2012 → t.getReg (Reg.attReport i) = wordAt (o.nonce ++ slhSign s.sec.fuses.privKey o.nonce) (4 * i)) ∧
      t.getReg Reg.attCount = s.getReg Reg.attCount + 1 ∧ t.getReg Reg.attStatus = 2 ∧ t.mem = s.mem ∧ t.rings = s.rings) ∧
    (s.Takes p u Reg.ownCmd g → g.shutting = false → g.sec.op = none →
      (g.ringRuns n = false → (g.jug n).st ≠ .running → g.destructOn (State.kindCode (blkKind block)) n = false →
        exec (.ownerCheck p u n) s = .next (own (.check n))) ∧
      (still → g.sec.locked = false → exec (.ownerLock p u 0xF05E) s = .next (own .lock)) ∧
      (still → g.sec.locked = true → exec (.ownerUnlock p u 0xF05E) s = .next (own .unlock))) ∧
    (s.secReady = some o →
      (o.kind = .check n → o.writing = false → e = .ok → exec .ownerOpComplete s = .next
        (ends (s.setBit Reg.ownAuth (n + if blkKind o.block = 0 then 0 else 16) true) .ok)) ∧
      (o.kind = .check n → o.writing = false → e ≠ .ok → exec .ownerOpComplete s = .next (ends s e)) ∧
      ((o.kind = .lock ∨ o.kind = .unlock) → o.writing = false → e = .ok → exec .ownerOpComplete s = .next
        ((s.modNvm fun v => if s.newerOf ownMagic v.ownA.hdr v.ownB.hdr = some false then { v with ownB := {} } else { v with ownA := {} }).modSec
          fun x => { x with op := some { o with writing := true } })) ∧
      (o.kind = .lock → o.writing = false → e ≠ .ok → exec .ownerOpComplete s = .next (ends s e)) ∧
      (o.kind = .unlock → o.writing = false → e ≠ .ok → exec .ownerOpComplete s = .next (ends s.newNonce e)) ∧
      ((o.kind = .lock ∨ o.kind = .unlock) → o.writing = true →
        let lock := decide (o.kind = .lock)
        let hash := if lock then sha256 (blkKey o.block) else List.replicate 32 0
        let toB := decide (s.newerOf ownMagic s.nvm.ownA.hdr s.nvm.ownB.hdr = some false)
        let target := fun t : State => if toB then t.nvm.ownB else t.nvm.ownA
        let other := fun t : State => if toB then t.nvm.ownA else t.nvm.ownB
        ∃ t, exec .ownerOpComplete s = .next t ∧
          (o.second = false → Config.readBack s.freeCtr = true → (target t).locked = lock ∧ (target t).hash = hash ∧ other t = {} ∧
            t.sec = { s.sec with op := some { o with second := true } } ∧ t.regs = s.regs) ∧
          (o.second = false → Config.readBack s.freeCtr = false → other t = other s ∧ t.sec.op = none ∧ t.sec.locked = s.sec.locked ∧
            t.sec.ownHash = s.sec.ownHash ∧ t.getReg Reg.ownAuth = s.getReg Reg.ownAuth ∧
            t.getReg Reg.ownStatus = (Err.eInternal.code.zeroExtend 32 <<< 16 ||| 2)) ∧
          (o.second = true → (target t).locked = lock ∧ (target t).hash = hash ∧ other t = other s ∧ t.sec.op = none ∧
            t.sec.locked = lock ∧ t.sec.ownHash = hash ∧ t.getReg Reg.ownAuth = (if lock then 0 else s.getReg Reg.ownAuth) ∧
            t.getReg Reg.ownStatus = 2 ∧ (lock = false → t.sec.nonceNo = some (s.freeCtr + 1)))))

/-! ### Reset, clocks and SYNC -/

/-- Start-up runs through its phases: boot ROM, firmware check, memory clear, PLL lock and link, or into test and recovery modes, and the
link phase ends after 2,000 ms without a port (R495, R498, R522, R523, R526). Clocks and SYNC: loss, return and relock of REF_CLK and
ETHREF, the capture edge with the alignment of the domain beat, and the pulses on SYNC_OUT (R519-R521, R530-R533). The beat that follows a
relock, the length of the start-up march test and what SYNC_IN has been at a capture are readings of the model's (log entry 82), and so are
the values of start-up that the spec does not give (log entry 19). -/
def Obligations.StartupClocksAndSync : Prop :=
  (∀ (s : State) (faults : List (Nat × Nat × Nat)), s.Inv →
    let ph := s.rst.phase
    let work := if ph = .memClear then (if s.nvmMtest then 117227520 + 65536 else 65536) else 0
    let reaches := fun q => ∃ t, exec (.startupPhaseComplete faults) s = .next t ∧ t.rst.phase = q
    (s.rst.ticks < s.rst.phaseAt + work → exec (.startupPhaseComplete faults) s = .next s) ∧
    (s.rst.inReset = false → s.rst.phaseAt + work ≤ s.rst.ticks →
      (ph = .bootRom → s.rst.bootMode = 0 → reaches .fwCheck) ∧ (ph = .bootRom → s.rst.bootMode = 1 → reaches .recovery) ∧
      (ph = .bootRom → s.rst.bootMode = 2 → reaches .test) ∧
      (ph = .bootRom → s.rst.bootMode = 3 → exec (.startupPhaseComplete faults) s = .next s) ∧
      (ph = .fwCheck → s.slotGood false = true ∨ s.slotGood true = true → reaches .memClear) ∧
      (ph = .fwCheck → s.slotGood false = false → s.slotGood true = false → reaches .recovery) ∧
      (ph = .memClear → ∃ t, exec (.startupPhaseComplete faults) s = .next t ∧ t.rst.phase = .pllLock ∧ t.mem = [] ∧
        t.memu.damaged = []) ∧
      (ph = .pllLock → reaches .link) ∧
      (ph = .ready → exec (.startupPhaseComplete faults) s = .next s)) ∧
    (s.rst.inReset = true → exec (.startupPhaseComplete faults) s = .next s) ∧
    (ph = .link → s.rst.linkAt + 3000000000 ≤ s.beat → exec .linkPhaseTimeout s = .next
      ((s.modRst fun r => { r with phase := .ready, phaseAt := r.ticks }).setReg Reg.startupTime (BitVec.ofNat 32 (s.rst.ticks / 1500)))) ∧
    (ph ≠ .link → exec .linkPhaseTimeout s = .next s)) ∧
  (∀ (s g : State) (p : Port) (u : Sid), s.Inv →
    let db := s.getReg64 Reg.syncDbLo
    let period := 6 * s.regFld Reg.syncCtrl 31 8
    let done := fun t : State => t.wrote p Reg.syncCmd
    (∃ t, exec .refClkLost s = .next t ∧ t.rst.refHold = true ∧ t.rst.refOk = false ∧ t.trap.dbValid = false ∧
      (∀ k, k < 4 → (s.link k).st = .up → (t.link k).st = .failed) ∧ t.rings = s.rings ∧ t.mem = s.mem) ∧
    exec .refClkReturn s = .next (s.modRst fun r => { r with refOk := true }) ∧
    (s.Takes p u Reg.clkCmd g → g.rst.refOk = true → (∀ n, n < 12 → g.ringRuns n = false) → (∀ i, i < 8 → g.carBusy i = false) →
      g.linkActive = false → g.rst.relockTo = none → ∃ t : State, exec (.relock p u) s = .next (t.wrote p Reg.clkCmd) ∧
        t.rst.relockTo = some g.beat ∧ (∀ n c, n < 12 → c < 2 → (t.rx n c).ready = false) ∧ t.regs = g.regs ∧ t.mem = g.mem) ∧
    (∀ t, s.rst.relockTo = some t → t < s.beat → exec .relockDone s = .next
      ((s.modRst fun r => { r with relockTo := none, refHold := false, realign := true }).raiseFlag Reg.clkFlags 2)) ∧
    (s.rst.realign = true → s.followingBeat = (s.beat / 6 + 1) * 6) ∧
    (s.rst.relockTo = none → exec .relockDone s = .next s) ∧
    (∃ t, exec .ethrefLost s = .next t ∧ t.rst.mgmtHold = true ∧ (t.port 0).locked = false ∧ (t.port 1).locked = false ∧
      bit (t.getReg Reg.clkFlags) 1 = true ∧ t.rings = s.rings) ∧
    exec .ethrefRelock s = .next (s.modRst fun r => { r with mgmtHold := false }) ∧
    (s.beat % 6 ≠ 0 ∨ s.rst.inReset = true ∨ s.rst.coreLock = false → exec .syncCapture s = .next s) ∧
    (∀ b, s.rst.syncAt = some b → s.beat < b + 18 → exec .syncCapture s = .next s) ∧
    (s.beat % 6 = 0 → s.rst.inReset = false → s.rst.coreLock = true → (∀ b, s.rst.syncAt = some b → b + 18 ≤ s.beat) →
      ∃ t, exec .syncCapture s = .next t ∧ t.getReg64 Reg.syncLastLo = s.beatCount ∧ t.rst.syncAt = some s.beat ∧
      bit (t.getReg Reg.syncFlags) 0 = true ∧ t.rst.armed = false ∧
      (s.rst.armed = true → t.getReg64 Reg.dbOffsetLo = db - s.beatCount ∧ t.trap.dbValid = true) ∧
      (s.rst.armed = false → t.getReg64 Reg.dbOffsetLo = s.getReg64 Reg.dbOffsetLo ∧ t.trap = s.trap) ∧ t.rings = s.rings ∧
      t.mem = s.mem) ∧
    (s.Takes p u Reg.syncCmd g →
      (g.linkActive = false → g.rst.armed = false → exec (.syncArm p u) s = .next (done (g.modRst fun r => { r with armed := true }))) ∧
      (g.rst.armed = true → exec (.syncCancel p u) s = .next (done (g.modRst fun r => { r with armed := false }))) ∧
      (g.regFld Reg.syncCtrl 1 0 = 1 → g.pulseBusy = false → exec (.syncPulse p u) s = .next
        (done (g.modRst fun r => { r with pulseAt := some ((g.beat + 11) / 6 * 6) })))) ∧
    (s.regFld Reg.syncCtrl 1 0 = 2 → s.beat % period = 0 → s.rst.pulseAt ≠ some s.beat → exec .syncPulsePeriodic s = .next
      (s.modRst fun r => { r with pulseAt := some s.beat })) ∧
    (s.regFld Reg.syncCtrl 1 0 ≠ 2 ∨ s.beat % period ≠ 0 → exec .syncPulsePeriodic s = .next s))

/-! ### The block as a whole -/

/-- A step with a command in front of the queue is that command's meaning on the state with the rest of the queue. -/
def Obligations.StepTakesFront : Prop :=
  ∀ (s : State) (c : Instr) (t : List Instr), step { s with pending := c :: t } = exec c { s with pending := t }

/-- Every command completes in every state, with no fault and no refusal. -/
def Obligations.EveryCommandCompletes : Prop := ∀ (s : State) (c : Instr), ∃ t, exec c s = .next t

/-- The state after reset is sound. -/
def Obligations.ResetIsSound : Prop := State.reset.Inv

/-- What reset leaves, by the values the spec gives: BEATCOUNT 0, no session, both coefficient banks at the identity with bank A in force,
every ring IDLE, and registers of every kind at their reset values (R88, R104, R228, R303, R376, R513). -/
def Obligations.ResetLeavesTheGivenValues : Prop :=
  let r : State := State.reset
  r.beat = 0 ∧ r.pending = [] ∧ r.trap.dbValid = false ∧ (∀ u, (r.session u).isOpen = false) ∧ r.rst.phase = .bootRom ∧
    r.getReg Reg.ident = 0xED504824 ∧ r.getReg64 Reg.incrementLo = 0xAAAAAAAAAB ∧
    (∀ n < 12, (r.seq n).st = .idle ∧ (r.jug n).st = .idle ∧ r.getReg (Reg.seqPc n) = 0 ∧ r.getReg (Reg.resqHwm n) = 24576 ∧
      (∀ c < 4, (r.tx n c).act = false ∧ (r.tx n c).out = .off ∧
        ∀ j < 32, r.getReg (Reg.txCoefA n c j) = (if j = 8 then 0x10000 else 0) ∧
          r.getReg (Reg.txCoefB n c j) = if j = 8 then 0x10000 else 0) ∧
      (∀ v < 32, r.getReg (Reg.voiceAmp n v) = 0x7FFF) ∧ ∀ c < 2, (r.rx n c).ready = false ∧ r.regFld (Reg.rxRawCtrl n c) 15 0 = 43690)

/-- Every step keeps the state sound: the register file and the memories stay in canonical form, and every unit stays there as often as the
spec counts it. -/
def Obligations.StepKeepsSoundness : Prop := ∀ s t : State, s.Inv → step s = .next t → t.Inv
end

