-- ==== Sys2Proof/Laws/Bits.lean ====
section
/-! SUPPORT. What setting a field or a bit of a word does to its bits and fields. -/

namespace Sys2Proof.Machine

/-- The bits of a field's mask. -/
theorem fieldMask_testBit (hi lo i : Nat) : (fieldMask hi lo).testBit i = decide (lo ≤ i ∧ i < hi + 1) := by
  unfold fieldMask
  rw [Nat.testBit_shiftLeft, Nat.testBit_two_pow_sub_one]
  by_cases h : lo ≤ i
  · simp only [h, decide_true, Bool.true_and, true_and]
    congr 1
    exact propext ⟨fun e => by omega, fun e => by omega⟩
  · simp [h]

/-- Bit `i` of a word after a field of it is set. -/
theorem bit_putFld {w : Nat} (x : BitVec w) {hi lo : Nat} (v i : Nat) (hhi : hi < w) :
    bit (putFld x hi lo v) i = if lo ≤ i ∧ i ≤ hi then v.testBit (i - lo) else bit x i := by
  unfold bit putFld
  simp only [BitVec.toNat_or, BitVec.toNat_and, BitVec.toNat_not, BitVec.toNat_ofNat, Nat.testBit_or, Nat.testBit_and]
  have hm : (fieldMask hi lo) % 2 ^ w = fieldMask hi lo := by
    refine Nat.mod_eq_of_lt (Nat.lt_pow_two_of_testBit _ fun j hj => ?_)
    rw [fieldMask_testBit]
    simp only [decide_eq_false_iff_not]
    omega
  have hv : (v <<< lo &&& fieldMask hi lo) % 2 ^ w = v <<< lo &&& fieldMask hi lo := by
    refine Nat.mod_eq_of_lt (Nat.lt_pow_two_of_testBit _ fun j hj => ?_)
    rw [Nat.testBit_and, fieldMask_testBit]
    simp only [Bool.and_eq_false_imp, decide_eq_false_iff_not]
    omega
  rw [hm, hv, Nat.testBit_and, fieldMask_testBit, Nat.testBit_shiftLeft]
  have hc : (2 ^ w - 1 - fieldMask hi lo).testBit i = (decide (i < w) && !decide (lo ≤ i ∧ i < hi + 1)) := by
    have e : 2 ^ w - 1 - fieldMask hi lo = 2 ^ w - (fieldMask hi lo + 1) := by omega
    rw [e, Nat.testBit_two_pow_sub_succ (Nat.lt_pow_two_of_testBit _ fun j hj => by
      rw [fieldMask_testBit]
      simp only [decide_eq_false_iff_not]
      omega), fieldMask_testBit]
  rw [hc]
  by_cases h : lo ≤ i ∧ i ≤ hi
  · have h' : lo ≤ i ∧ i < hi + 1 := ⟨h.1, by omega⟩
    simp [h', h]
  · have h' : ¬ (lo ≤ i ∧ i < hi + 1) := fun e => h ⟨e.1, by omega⟩
    rw [if_neg h]
    simp only [h', decide_false, Bool.not_false, Bool.and_true, Bool.and_false, Bool.or_false]
    by_cases hi' : i < w
    · simp [hi']
    · simp [hi', BitVec.testBit_toNat, BitVec.getLsbD_of_ge _ _ (Nat.le_of_not_lt hi')]

/-- The bits of a field. -/
theorem fld_testBit {w : Nat} (x : BitVec w) (hi lo i : Nat) :
    (fld x hi lo).testBit i = (decide (i < hi + 1 - lo) && bit x (lo + i)) := by
  unfold fld bit
  rw [Nat.testBit_mod_two_pow, Nat.testBit_shiftRight]

/-- A field reads as it was set. -/
theorem fld_putFld_self {w : Nat} (x : BitVec w) {hi lo : Nat} (v : Nat) (hhi : hi < w) :
    fld (putFld x hi lo v) hi lo = v % 2 ^ (hi + 1 - lo) := by
  refine Nat.eq_of_testBit_eq fun i => ?_
  rw [fld_testBit, bit_putFld _ _ _ hhi, Nat.testBit_mod_two_pow]
  by_cases h : i < hi + 1 - lo
  · rw [if_pos ⟨by omega, by omega⟩]
    simp [h]
  · simp [h]

/-- Setting a field leaves the fields beside it. -/
theorem fld_putFld_ne {w : Nat} (x : BitVec w) {hi lo hi' lo' : Nat} (v : Nat) (hhi : hi < w) (h : hi < lo' ∨ hi' < lo) :
    fld (putFld x hi lo v) hi' lo' = fld x hi' lo' := by
  refine Nat.eq_of_testBit_eq fun i => ?_
  rw [fld_testBit, fld_testBit, bit_putFld _ _ _ hhi]
  by_cases hi2 : i < hi' + 1 - lo'
  · rw [if_neg (by omega)]
  · simp [hi2]

/-- The bits of a word after one of them is set. -/
theorem bit_putBit {w : Nat} (x : BitVec w) {i j : Nat} (b : Bool) (hi : i < w) :
    bit (putBit x i b) j = if j = i then b else bit x j := by
  unfold putBit
  rw [bit_putFld _ _ _ hi]
  by_cases h : j = i
  · subst h
    simp only [Nat.le_refl, and_self, if_true, Nat.sub_self]
    cases b <;> rfl
  · rw [if_neg (by omega), if_neg h]

/-- Setting a bit leaves the fields beside it. -/
theorem fld_putBit_ne {w : Nat} (x : BitVec w) {i hi lo : Nat} (b : Bool) (hw : i < w) (h : i < lo ∨ hi < i) :
    fld (putBit x i b) hi lo = fld x hi lo := fld_putFld_ne x _ hw h

/-- A field is below its size. -/
theorem fld_lt {w : Nat} (x : BitVec w) (hi lo : Nat) : fld x hi lo < 2 ^ (hi + 1 - lo) := Nat.mod_lt _ (Nat.two_pow_pos _)

end Sys2Proof.Machine
end

