-- ==== Sys2Proof/Laws/Cells.lean ====
section
/-! SUPPORT. Laws of the sparse stores: a write keeps the canonical form, a read after a write gives the value written at its
address and what stood there at every other. -/

namespace Sys2Proof.Machine

variable {w : Nat} {d : Nat → BitVec w}

/-- A larger lower bound is a stronger form. -/
theorem Cells.wfFrom_mono {l : List (Nat × BitVec w)} {b c : Nat} (hbc : b ≤ c) (h : Cells.wfFrom d (some c) l = true) :
    Cells.wfFrom d (some b) l = true := by
  cases l with
  | nil => rfl
  | cons x t =>
    simp only [Cells.wfFrom, Bool.and_eq_true, decide_eq_true_eq] at h ⊢
    exact ⟨⟨by omega, h.1.2⟩, h.2⟩

/-- A write keeps the canonical form above any bound that its address exceeds. -/
theorem Cells.put_wfFrom {l : List (Nat × BitVec w)} {a : Nat} {v : BitVec w} :
    ∀ {lo : Option Nat}, (∀ b, lo = some b → b < a) → Cells.wfFrom d lo l = true →
      Cells.wfFrom d lo (Cells.put (d a) l a v) = true := by
  induction l with
  | nil =>
    intro lo hlo _
    unfold Cells.put
    split
    · rfl
    · rename_i hv
      cases lo <;> simp_all [Cells.wfFrom]
  | cons x t ih =>
    intro lo hlo h
    simp only [Cells.wfFrom, Bool.and_eq_true, decide_eq_true_eq] at h
    obtain ⟨⟨h1, h2⟩, h3⟩ := h
    unfold Cells.put
    split
    · rename_i hax
      split
      · simp only [Cells.wfFrom, Bool.and_eq_true, decide_eq_true_eq]
        exact ⟨⟨h1, h2⟩, h3⟩
      · rename_i hv
        simp only [Cells.wfFrom, Bool.and_eq_true, decide_eq_true_eq]
        refine ⟨⟨?_, hv⟩, ⟨hax, h2⟩, h3⟩
        cases lo <;> simp_all
    · split
      · rename_i hax
        subst hax
        split
        · cases lo with
          | none => exact match t, h3 with
            | [], _ => rfl
            | y :: u, h3 => by simp_all [Cells.wfFrom]
          | some b => exact Cells.wfFrom_mono (Nat.le_of_lt (hlo b rfl)) h3
        · rename_i hv
          simp only [Cells.wfFrom, Bool.and_eq_true, decide_eq_true_eq]
          exact ⟨⟨h1, hv⟩, h3⟩
      · simp only [Cells.wfFrom, Bool.and_eq_true, decide_eq_true_eq]
        refine ⟨⟨h1, h2⟩, ih ?_ h3⟩
        intro b hb
        cases hb
        omega

/-- A write keeps the canonical form. -/
theorem Cells.put_wf {l : List (Nat × BitVec w)} (a : Nat) (v : BitVec w) (h : Cells.wf d l = true) :
    Cells.wf d (Cells.put (d a) l a v) = true :=
  Cells.put_wfFrom (fun _ hb => nomatch hb) h

/-- Taking entries away keeps the canonical form above a bound. -/
theorem Cells.filter_wfFrom {l : List (Nat × BitVec w)} (p : Nat × BitVec w → Bool) :
    ∀ {lo : Option Nat}, Cells.wfFrom d lo l = true → Cells.wfFrom d lo (l.filter p) = true := by
  induction l with
  | nil => intro lo h; exact h
  | cons x t ih =>
    intro lo h
    simp only [Cells.wfFrom, Bool.and_eq_true, decide_eq_true_eq] at h
    obtain ⟨⟨h1, h2⟩, h3⟩ := h
    rw [List.filter_cons]
    split
    · simp only [Cells.wfFrom, Bool.and_eq_true, decide_eq_true_eq]
      exact ⟨⟨h1, h2⟩, ih h3⟩
    · cases lo with
      | none =>
        have := ih h3
        revert this
        cases t.filter p with
        | nil => intro _; rfl
        | cons y u => intro hy; simp_all [Cells.wfFrom]
      | some b => exact Cells.wfFrom_mono (by simp_all; omega) (ih h3)

/-- Taking entries away keeps the canonical form. -/
theorem Cells.filter_wf {l : List (Nat × BitVec w)} (p : Nat × BitVec w → Bool) (h : Cells.wf d l = true) :
    Cells.wf d (l.filter p) = true := Cells.filter_wfFrom p h

/-- Below the first address of a canonical list nothing is listed. -/
theorem Cells.get_below {l : List (Nat × BitVec w)} {a b : Nat} (hab : a ≤ b) (h : Cells.wfFrom d (some b) l = true) :
    Cells.get d l a = d a := by
  induction l generalizing b with
  | nil => rfl
  | cons x t ih =>
    simp only [Cells.wfFrom, Bool.and_eq_true, decide_eq_true_eq] at h
    rw [Cells.get, if_neg (by omega), ih (b := x.1) (by omega) h.2]

/-- A read after a write gives the value written at its address, and what stood there at every other address. -/
theorem Cells.get_put {l : List (Nat × BitVec w)} {a : Nat} {v : BitVec w} (b : Nat) :
    ∀ {lo : Option Nat}, Cells.wfFrom d lo l = true →
      Cells.get d (Cells.put (d a) l a v) b = if b = a then v else Cells.get d l b := by
  induction l with
  | nil =>
    intro lo _
    unfold Cells.put
    by_cases hb : b = a
    · subst hb
      split <;> simp_all [Cells.get]
    · split <;> simp_all [Cells.get, Ne.symm hb]
  | cons x t ih =>
    intro lo h
    simp only [Cells.wfFrom, Bool.and_eq_true, decide_eq_true_eq] at h
    obtain ⟨⟨h1, h2⟩, h3⟩ := h
    unfold Cells.put
    split
    · rename_i hax
      split
      · rename_i hv
        split
        · rename_i hb
          subst hb hv
          rw [Cells.get, if_neg (by omega), Cells.get_below (Nat.le_of_lt hax) h3]
        · rfl
      · simp only [Cells.get]
        by_cases hb : b = a
        · simp [hb]
        · simp [hb, Ne.symm hb]
    · split
      · rename_i hax
        subst hax
        split
        · rename_i hv
          by_cases hb : b = x.1
          · subst hb hv
            simp [Cells.get_below (Nat.le_refl _) h3]
          · simp [Cells.get, hb, Ne.symm hb]
        · by_cases hb : b = x.1
          · simp [Cells.get, hb]
          · simp [Cells.get, hb, Ne.symm hb]
      · rename_i h4 h5
        simp only [Cells.get]
        rw [ih h3]
        by_cases hx : x.1 = b
        · subst hx
          have : x.1 ≠ a := fun h => h5 h.symm
          simp [this]
        · simp [hx]

end Sys2Proof.Machine
end

