-- ==== Sys2Proof/Laws/Inv.lean ====
section
/-! SUPPORT. The invariant of the block through the named operations: what each update of the state needs in order to keep it. -/

namespace Sys2Proof.Machine

/-- A state that differs only in what the invariant does not speak of. -/
theorem State.Inv.of {s t : State} (h : s.Inv) (regs : t.regs = s.regs) (mem : t.mem = s.mem) (rings : t.rings = s.rings)
    (sess : t.sess.length = s.sess.length) (ports : t.ports = s.ports) (links : t.links.length = s.links.length)
    (bars : t.trap.bars.length = s.trap.bars.length) (trigs : t.trigs.length = s.trigs.length)
    (tius : t.tius.length = s.tius.length) (marks : t.marks.length = s.marks.length) (car : t.car.length = s.car.length)
    (wake : t.memu.wake.length = s.memu.wake.length) (cal : s.cal.Sized → t.cal.Sized) (hk : s.hk.Sized → t.hk.Sized) : t.Inv := by
  obtain ⟨⟨h1, h2⟩, h3, h4, h5, h6, h7, h8, h9, h10, h11, h12, h13, h14, h15, h16⟩ := h
  exact ⟨⟨regs ▸ h1, mem ▸ h2⟩, rings ▸ h3, rings ▸ h4, sess.trans h5, ports ▸ h6, ports ▸ h7, links.trans h8, bars.trans h9,
    trigs.trans h10, tius.trans h11, marks.trans h12, car.trans h13, wake.trans h14, cal h15, hk h16⟩

/-- An update of the fields that the invariant does not speak of, and of the Trapeze domain when its barriers stay. -/
theorem State.Inv.upd {s : State} {trap : Trap} {beat : Nat} {resp : List OpResp} {resume : List FrameRun}
    {held : List HeldReq} {curPort : Nat} {beatWrites : List (Nat × Nat)}
    {beatSets : List (Nat × Nat)} {sched : List Sched} {nextHandle : BitVec 16} {evKeys : List EvKey}
    {evCounts : List EvCount} {evToPush : List Nat} {alertLow : Bool} {carmineNow : Option (BitVec 16 × BitVec 8)}
    {time : Timing} {srcEdges : List (Nat × Nat)} {markNo : Nat} {sec : SecUnit} {nvm : Nvm} {rst : Rst} {seqNo : List (Nat × BitVec 32)}
    {fwBad : Bool} {netNow : List (Nat × BitVec 32)} {macOwn macWritten : Bool} {calBad : Bool} {freeCtr : Nat}
    {pending : List Instr}
    (h : s.Inv) (hb : trap.bars.length = s.trap.bars.length) :
    State.Inv { s with
      trap := trap, beat := beat, resp := resp, resume := resume, held := held, curPort := curPort, beatWrites := beatWrites,
      beatSets := beatSets, sched := sched, nextHandle := nextHandle, evKeys := evKeys, evCounts := evCounts,
      evToPush := evToPush, alertLow := alertLow, carmineNow := carmineNow, time := time, srcEdges := srcEdges, markNo := markNo, sec := sec,
      nvm := nvm, rst := rst, seqNo := seqNo, fwBad := fwBad, netNow := netNow, macOwn := macOwn, macWritten := macWritten, calBad := calBad,
      freeCtr := freeCtr, pending := pending } :=
  h.of rfl rfl rfl rfl rfl rfl hb rfl rfl rfl rfl rfl id id

/-- The second component of a pair that is known. -/
theorem State.Inv.ofPair {α : Type} {p : α × State} {a : α} {t : State} (e : p = (a, t)) (h : p.2.Inv) : t.Inv := by
  rw [e] at h; exact h

/-- The last component of a triple that is known. -/
theorem State.Inv.ofTriple {α β : Type} {p : α × β × State} {a : α} {b : β} {t : State} (e : p = (a, b, t)) (h : p.2.2.Inv) :
    t.Inv := by
  rw [e] at h; exact h

/-- An answer in a next state, as the meanings give it. -/
theorem State.Inv.ofNext {a t : State} (h : a.Inv) (e : (Host.Outcome.next a : Res) = .next t) : t.Inv := by
  cases e; exact h

/-- A fold of operations that keep the invariant. -/
theorem State.Inv.foldl {α : Type} {f : State → α → State} {l : List α} {s : State} (hf : ∀ t x, t.Inv → (f t x).Inv)
    (h : s.Inv) : (l.foldl f s).Inv := by
  induction l generalizing s with
  | nil => exact h
  | cons x t ih => exact ih (hf s x h)

/-- A fold that carries the state in the second component of a pair. -/
theorem State.Inv.foldlSnd {α β : Type} {f : β × State → α → β × State} {l : List α} {p : β × State}
    (hf : ∀ p x, p.2.Inv → (f p x).2.Inv) (h : p.2.Inv) : (l.foldl f p).2.Inv := by
  induction l generalizing p with
  | nil => exact h
  | cons x t ih => exact ih (hf p x h)

/-- A fold that carries the state in the first component of a pair. -/
theorem State.Inv.foldlFst {α β : Type} {f : State × β → α → State × β} {l : List α} {p : State × β}
    (hf : ∀ p x, p.1.Inv → (f p x).1.Inv) (h : p.1.Inv) : (l.foldl f p).1.Inv := by
  induction l generalizing p with
  | nil => exact h
  | cons x t ih => exact ih (hf p x h)

/-- The value of an optional state, or another. -/
theorem State.Inv.getD {o : Option State} {t : State} (ho : ∀ u, o = some u → u.Inv) (h : t.Inv) : (o.getD t).Inv := by
  cases o with
  | none => exact h
  | some u => exact ho u rfl

/-- A conditional state. -/
theorem State.Inv.ite {c : Prop} [Decidable c] {a b : State} (ha : a.Inv) (hb : b.Inv) : (if c then a else b).Inv := by
  split
  · exact ha
  · exact hb

/-- A conditional pair whose first component is a state. -/
theorem State.Inv.iteFst {α : Type} {c : Prop} [Decidable c] {a b : State × α} (ha : a.1.Inv) (hb : b.1.Inv) :
    (if c then a else b).1.Inv := by
  split
  · exact ha
  · exact hb

/-- Members of a modified list. -/
theorem mem_modify {α : Type} {l : List α} {i : Nat} {f : α → α} {x : α} (h : x ∈ l.modify i f) : x ∈ l ∨ ∃ y ∈ l, x = f y := by
  induction l generalizing i with
  | nil => simp at h
  | cons y t ih =>
    cases i with
    | zero =>
      simp only [List.modify_zero_cons, List.mem_cons] at h
      rcases h with h | h
      · exact .inr ⟨y, by simp, h⟩
      · exact .inl (by simp [h])
    | succ i =>
      simp only [List.modify_succ_cons, List.mem_cons] at h
      rcases h with h | h
      · exact .inl (by simp [h])
      · rcases ih h with h | ⟨z, hz, h⟩
        · exact .inl (by simp [h])
        · exact .inr ⟨z, by simp [hz], h⟩

namespace State

theorem setReg_inv {s : State} (a : Nat) (v : BitVec 32) (h : s.Inv) : (s.setReg a v).Inv :=
  ⟨⟨Cells.put_wf (d := resetWord) a v h.1.1, h.1.2⟩, h.2⟩

theorem setByte_inv {s : State} (a : Nat) (v : BitVec 8) (h : s.Inv) : (s.setByte a v).Inv :=
  ⟨⟨h.1.1, Cells.put_wf (d := Memory.unlisted) a v h.1.2⟩, h.2⟩

theorem setBytes_inv {s : State} (a : Nat) (bs : List Byte) (h : s.Inv) : (s.setBytes a bs).Inv := by
  induction bs generalizing s a with
  | nil => exact h
  | cons b t ih => exact ih (a + 1) (setByte_inv a b h)

/-- A ring's update keeps the invariant when it keeps the ring's sizes. -/
theorem modRing_inv {s : State} (n : Nat) (f : Ring → Ring) (hf : ∀ r, r.Sized → (f r).Sized) (h : s.Inv) :
    (s.modRing n f).Inv := by
  obtain ⟨h1, h3, h4, h5⟩ := h
  refine ⟨h1, (List.length_modify ..).trans h3, ?_, h5⟩
  intro r hr
  rcases mem_modify hr with hr | ⟨y, hy, rfl⟩
  · exact h4 r hr
  · exact hf y (h4 y hy)

theorem modSeq_inv {s : State} (n : Nat) (f : Seq → Seq) (h : s.Inv) : (s.modSeq n f).Inv := modRing_inv n _ (fun _ h => h) h
theorem modResq_inv {s : State} (n : Nat) (f : ResQ → ResQ) (h : s.Inv) : (s.modResq n f).Inv := modRing_inv n _ (fun _ h => h) h
theorem modVoice_inv {s : State} (n v : Nat) (f : Voice → Voice) (h : s.Inv) : (s.modVoice n v f).Inv :=
  modRing_inv n _ (fun _ h => ⟨(List.length_modify ..).trans h.1, h.2⟩) h
theorem modTx_inv {s : State} (n c : Nat) (f : TxCh → TxCh) (h : s.Inv) : (s.modTx n c f).Inv :=
  modRing_inv n _ (fun _ h => ⟨h.1, (List.length_modify ..).trans h.2.1, h.2.2⟩) h
theorem modBias_inv {s : State} (n b : Nat) (f : BiasOut → BiasOut) (h : s.Inv) : (s.modBias n b f).Inv :=
  modRing_inv n _ (fun _ h => ⟨h.1, h.2.1, (List.length_modify ..).trans h.2.2.1, h.2.2.2⟩) h
theorem modRx_inv {s : State} (n c : Nat) (f : RxCh → RxCh) (h : s.Inv) : (s.modRx n c f).Inv :=
  modRing_inv n _ (fun _ h => ⟨h.1, h.2.1, h.2.2.1, (List.length_modify ..).trans h.2.2.2.1, h.2.2.2.2⟩) h
theorem modLane_inv {s : State} (n l : Nat) (f : Lane → Lane) (h : s.Inv) : (s.modLane n l f).Inv :=
  modRing_inv n _ (fun _ h => ⟨h.1, h.2.1, h.2.2.1, h.2.2.2.1, (List.length_modify ..).trans h.2.2.2.2.1, h.2.2.2.2.2⟩) h
theorem modStrm_inv {s : State} (n j : Nat) (f : Strm → Strm) (h : s.Inv) : (s.modStrm n j f).Inv :=
  modRing_inv n _ (fun _ h => ⟨h.1, h.2.1, h.2.2.1, h.2.2.2.1, h.2.2.2.2.1, (List.length_modify ..).trans h.2.2.2.2.2.1,
    h.2.2.2.2.2.2⟩) h

/-- A Juggler's update keeps the invariant when it keeps the Juggler's sizes. -/
theorem modJug_inv {s : State} (n : Nat) (f : Jug → Jug) (hf : ∀ j, j.Sized → (f j).Sized) (h : s.Inv) : (s.modJug n f).Inv :=
  modRing_inv n _ (fun r h => ⟨h.1, h.2.1, h.2.2.1, h.2.2.2.1, h.2.2.2.2.1, h.2.2.2.2.2.1, hf r.jug h.2.2.2.2.2.2⟩) h

/-- A port's update keeps the invariant when it keeps the port's sizes. -/
theorem modPort_inv {s : State} (p : Nat) (f : EthPort → EthPort) (hf : ∀ e, e.Sized → (f e).Sized) (h : s.Inv) :
    (s.modPort p f).Inv := by
  obtain ⟨h1, h3, h4, h5, h6, h7, h8⟩ := h
  refine ⟨h1, h3, h4, h5, (List.length_modify ..).trans h6, ?_, h8⟩
  intro e he
  rcases mem_modify he with he | ⟨y, hy, rfl⟩
  · exact h7 e he
  · exact hf y (h7 y hy)

theorem modSess_inv {s : State} (u : Nat) (f : Sess → Sess) (h : s.Inv) : (s.modSess u f).Inv :=
  h.of rfl rfl rfl (List.length_modify ..) rfl rfl rfl rfl rfl rfl rfl rfl id id
theorem modLink_inv {s : State} (k : Nat) (f : Link → Link) (h : s.Inv) : (s.modLink k f).Inv :=
  h.of rfl rfl rfl rfl rfl (List.length_modify ..) rfl rfl rfl rfl rfl rfl id id
theorem modTrig_inv {s : State} (i : Nat) (f : Trig → Trig) (h : s.Inv) : (s.modTrig i f).Inv :=
  h.of rfl rfl rfl rfl rfl rfl rfl (List.length_modify ..) rfl rfl rfl rfl id id
theorem modTiu_inv {s : State} (u : Nat) (f : Tiu → Tiu) (h : s.Inv) : (s.modTiu u f).Inv :=
  h.of rfl rfl rfl rfl rfl rfl rfl rfl (List.length_modify ..) rfl rfl rfl id id
theorem modMark_inv {s : State} (m : Nat) (f : Mark → Mark) (h : s.Inv) : (s.modMark m f).Inv :=
  h.of rfl rfl rfl rfl rfl rfl rfl rfl rfl (List.length_modify ..) rfl rfl id id
theorem modCar_inv {s : State} (i : Nat) (f : CarSlot → CarSlot) (h : s.Inv) : (s.modCar i f).Inv :=
  h.of rfl rfl rfl rfl rfl rfl rfl rfl rfl rfl (List.length_modify ..) rfl id id
theorem modBar_inv {s : State} (b : Nat) (f : Barrier → Barrier) (h : s.Inv) : (s.modBar b f).Inv :=
  h.of rfl rfl rfl rfl rfl rfl (List.length_modify ..) rfl rfl rfl rfl rfl id id
theorem modNvm_inv {s : State} (f : Nvm → Nvm) (h : s.Inv) : (s.modNvm f).Inv :=
  h.of rfl rfl rfl rfl rfl rfl rfl rfl rfl rfl rfl rfl id id
theorem modRst_inv {s : State} (f : Rst → Rst) (h : s.Inv) : (s.modRst f).Inv :=
  h.of rfl rfl rfl rfl rfl rfl rfl rfl rfl rfl rfl rfl id id
theorem modSec_inv {s : State} (f : SecUnit → SecUnit) (h : s.Inv) : (s.modSec f).Inv :=
  h.of rfl rfl rfl rfl rfl rfl rfl rfl rfl rfl rfl rfl id id
theorem modTime_inv {s : State} (f : Timing → Timing) (h : s.Inv) : (s.modTime f).Inv :=
  h.of rfl rfl rfl rfl rfl rfl rfl rfl rfl rfl rfl rfl id id

/-- An update of the memory unit keeps the invariant when it keeps the number of wakes. -/
theorem modMemu_inv {s : State} (f : MemUnit → MemUnit) (hf : (f s.memu).wake.length = s.memu.wake.length) (h : s.Inv) :
    (s.modMemu f).Inv := h.of rfl rfl rfl rfl rfl rfl rfl rfl rfl rfl rfl hf id id

/-- An update of the calibration unit keeps the invariant when it keeps its sizes. -/
theorem modCal_inv {s : State} (f : CalUnit → CalUnit) (hf : ∀ c, c.Sized → (f c).Sized) (h : s.Inv) : (s.modCal f).Inv :=
  h.of rfl rfl rfl rfl rfl rfl rfl rfl rfl rfl rfl rfl (hf s.cal) id

theorem modRxCal_inv {s : State} (r : Nat) (f : RxCal → RxCal) (h : s.Inv) : (s.modRxCal r f).Inv :=
  modCal_inv _ (fun _ h => ⟨(List.length_modify ..).trans h.1, h.2⟩) h
theorem modTxCal_inv {s : State} (t : Nat) (f : TxCal → TxCal) (h : s.Inv) : (s.modTxCal t f).Inv :=
  modCal_inv _ (fun _ h => ⟨h.1, (List.length_modify ..).trans h.2.1, h.2.2⟩) h
theorem modDie_inv {s : State} (d : Nat) (f : DieCal → DieCal) (h : s.Inv) : (s.modDie d f).Inv :=
  modCal_inv _ (fun _ h => ⟨h.1, h.2.1, (List.length_modify ..).trans h.2.2⟩) h

/-- An update of the housekeeping unit keeps the invariant when it keeps its sizes. -/
theorem modHk_inv {s : State} (f : HkUnit → HkUnit) (hf : ∀ c, c.Sized → (f c).Sized) (h : s.Inv) : (s.modHk f).Inv :=
  h.of rfl rfl rfl rfl rfl rfl rfl rfl rfl rfl rfl rfl id (hf s.hk)

theorem modSens_inv {s : State} (i : Nat) (f : Sensor → Sensor) (h : s.Inv) : (s.modSens i f).Inv :=
  modHk_inv _ (fun _ h => ⟨(List.length_modify ..).trans h.1, h.2⟩) h

theorem forBelow_inv {s : State} (k : Nat) (f : Nat → State → State) (hf : ∀ i t, t.Inv → (f i t).Inv) (h : s.Inv) :
    (s.forBelow k f).Inv := Inv.foldl (fun t i h => hf i t h) h

theorem forRings_inv {s : State} (m : BitVec 12) (f : Nat → State → State) (hf : ∀ i t, t.Inv → (f i t).Inv) (h : s.Inv) :
    (s.forRings m f).Inv := Inv.foldl (fun t i h => hf i t h) h

end State

end Sys2Proof.Machine
end

