-- ==== Sys2Proof/Laws/InvEvents.lean ====
section
/-! SUPPORT. The invariant of the block through registers, flags, events, frames that leave, memory reads, streams and results. -/

namespace Sys2Proof.Machine

theorem State.setFld_inv {s : State} (a : Nat) (hi : Nat) (lo : Nat) (v : Nat) (h : s.Inv) :
    (State.setFld s a hi lo v).Inv := by
  unfold State.setFld
  with_reducible repeat' first | assumption | apply State.setReg_inv

theorem State.setBit_inv {s : State} (a : Nat) (i : Nat) (b : Bool) (h : s.Inv) : (State.setBit s a i b).Inv := by
  unfold State.setBit
  with_reducible repeat' first | assumption | apply State.setReg_inv

theorem State.setReg64_inv {s : State} (lo : Nat) (v : BitVec 64) (h : s.Inv) : (State.setReg64 s lo v).Inv := by
  unfold State.setReg64
  with_reducible repeat' first | assumption | apply State.setReg_inv

theorem State.addReg_inv {s : State} (a : Nat) (k : Nat) (h : s.Inv) : (State.addReg s a k).Inv := by
  unfold State.addReg
  with_reducible repeat' first | assumption | apply State.setReg_inv

theorem State.satReg_inv {s : State} (a : Nat) (h : s.Inv) : (State.satReg s a).Inv := by
  unfold State.satReg
  with_reducible repeat' first | assumption | apply State.addReg_inv | apply State.Inv.ite

theorem State.addReg64_inv {s : State} (lo : Nat) (k : Nat) (h : s.Inv) : (State.addReg64 s lo k).Inv := by
  unfold State.addReg64
  with_reducible repeat' first | assumption | apply State.setReg64_inv

theorem State.setWord_inv {s : State} (a : Nat) (v : BitVec 32) (h : s.Inv) : (State.setWord s a v).Inv := by
  unfold State.setWord
  with_reducible repeat' first | assumption | apply State.setBytes_inv

theorem State.draw_inv {s : State} (h : s.Inv) : (State.draw s).2.Inv := by
  unfold State.draw
  with_reducible repeat' first | assumption | fail_if_no_progress (refine State.Inv.upd ?_ rfl)

theorem State.setFlagCount_inv {s : State} (a : Nat) (b : Nat) (k : Nat) (h : s.Inv) : (State.setFlagCount s a b k).Inv := by
  unfold State.setFlagCount
  with_reducible repeat' first | assumption | apply State.setFld_inv

theorem State.raiseFlag_inv {s : State} (a : Nat) (b : Nat) (h : s.Inv) : (State.raiseFlag s a b).Inv := by
  unfold State.raiseFlag
  with_reducible repeat' first
    | assumption | apply State.setFlagCount_inv | apply State.setBit_inv | fail_if_no_progress (refine State.Inv.upd ?_ rfl)

theorem State.raiseIf_inv {s : State} (c : Bool) (a : Nat) (b : Nat) (h : s.Inv) : (State.raiseIf s c a b).Inv := by
  unfold State.raiseIf
  with_reducible repeat' first | assumption | apply State.raiseFlag_inv | apply State.Inv.ite

theorem State.clearFlag_inv {s : State} (a : Nat) (b : Nat) (h : s.Inv) : (State.clearFlag s a b).Inv := by
  unfold State.clearFlag
  with_reducible repeat' first | assumption | apply State.setFlagCount_inv | apply State.setBit_inv | apply State.Inv.ite

theorem State.clearFlags_inv {s : State} (a : Nat) (m : BitVec 32) (h : s.Inv) : (State.clearFlags s a m).Inv := by
  unfold State.clearFlags
  with_reducible repeat' first | assumption | intro _ | apply State.clearFlag_inv | apply State.Inv.foldl

theorem State.logRecord_inv {s : State} (ws : List Word) (h : s.Inv) : (State.logRecord s ws).Inv := by
  unfold State.logRecord
  with_reducible repeat' first
    | assumption | intro _ | apply State.forBelow_inv | apply State.setReg_inv | apply State.addReg_inv
    | fail_if_no_progress (refine State.Inv.upd ?_ rfl)

theorem State.emitRecord_inv {s : State} (stamp : Int) (code : Nat) (src : Nat) (count : BitVec 16) (data : BitVec 32) (h : s.Inv) :
    (State.emitRecord s stamp code src count data).Inv := by
  unfold State.emitRecord
  with_reducible repeat' first
    | assumption | apply State.logRecord_inv | apply State.setReg_inv | apply State.raiseFlag_inv | apply State.Inv.ite | split
    | fail_if_no_progress (refine State.Inv.upd ?_ rfl)

theorem State.countEvent_inv {s : State} (code : Nat) (src : Nat) (h : s.Inv) : (State.countEvent s code src).Inv := by
  unfold State.countEvent
  with_reducible repeat' first | assumption | apply State.Inv.ite | split | fail_if_no_progress (refine State.Inv.upd ?_ rfl)

theorem State.startInterval_inv {s : State} (code : Nat) (src : Nat) (subj : BitVec 16) (h : s.Inv) :
    (State.startInterval s code src subj).Inv := by
  unfold State.startInterval
  with_reducible repeat' first | assumption | fail_if_no_progress (refine State.Inv.upd ?_ rfl)

theorem State.raiseEvent_inv {s : State} (code : Nat) (src : Nat) (data : BitVec 32) (h : s.Inv) :
    (State.raiseEvent s code src data).Inv := by
  unfold State.raiseEvent
  dsimp only
  with_reducible repeat' first
    | assumption | apply State.countEvent_inv | apply State.emitRecord_inv | apply State.startInterval_inv | apply State.Inv.ite
    | split | fail_if_no_progress (refine State.Inv.upd ?_ rfl)

theorem State.raiseEventIf_inv {s : State} (c : Bool) (code : Nat) (src : Nat) (data : BitVec 32) (h : s.Inv) :
    (State.raiseEventIf s c code src data).Inv := by
  unfold State.raiseEventIf
  with_reducible repeat' first | assumption | apply State.raiseEvent_inv | apply State.Inv.ite

theorem execEventDeferredRecord_inv (code : BitVec 16) (src : BitVec 8) (subj : BitVec 16) {s : State} (h : s.Inv) :
    ∀ t, execEventDeferredRecord code src subj s = .next t → t.Inv := by
  unfold execEventDeferredRecord
  intro t e
  refine State.Inv.ofNext ?_ e
  with_reducible repeat' first
    | assumption | apply State.emitRecord_inv | apply State.startInterval_inv | apply State.Inv.ite | split

theorem State.sendFrame_inv {s : State} (p : Nat) (f : OutFrame) (h : s.Inv) : (State.sendFrame s p f).Inv := by
  unfold State.sendFrame
  with_reducible repeat' first
    | assumption | intro _ | apply State.raiseFlag_inv | apply State.satReg_inv | apply State.modPort_inv
    | with_unfolding_all (show EthPort.Sized _; exact ‹EthPort.Sized _›)
    | apply State.Inv.ite

theorem State.sendPush_inv {s : State} (u : Nat) (c : TxClass) (ops : List OpResp) (h : s.Inv) :
    (State.sendPush s u c ops).Inv := by
  unfold State.sendPush
  with_reducible repeat' first
    | assumption | intro _ | apply State.sendFrame_inv | apply State.modSess_inv | apply State.Inv.foldl | apply State.Inv.ite

theorem State.pushClassC_inv {s : State} (u : Nat) (ops : List OpResp) (h : s.Inv) : (State.pushClassC s u ops).Inv := by
  unfold State.pushClassC
  with_reducible repeat' first
    | assumption | apply State.raiseFlag_inv | apply State.satReg_inv | apply State.sendPush_inv | apply State.Inv.ite

theorem State.nextSeqNo_inv {s : State} (src : Nat) (inst : Nat) (h : s.Inv) : (State.nextSeqNo s src inst).2.Inv := by
  unfold State.nextSeqNo
  with_reducible repeat' first | assumption | split | fail_if_no_progress (refine State.Inv.upd ?_ rfl)

theorem State.pushRecord_inv {s : State} (w : Nat) (h : s.Inv) : (State.pushRecord s w).Inv := by
  unfold State.pushRecord
  with_reducible repeat' first
    | assumption | intro _ | apply State.forBelow_inv | apply State.sendPush_inv | apply State.Inv.ite

theorem execEventPush_inv {s : State} (h : s.Inv) : ∀ t, execEventPush s = .next t → t.Inv := by
  unfold execEventPush
  intro t e
  refine State.Inv.ofNext ?_ e
  with_reducible repeat' first
    | assumption | apply State.pushRecord_inv | split | fail_if_no_progress (refine State.Inv.upd ?_ rfl)

theorem State.eccWord_inv {s : State} (d : Damage) (h : s.Inv) : (State.eccWord s d).Inv := by
  unfold State.eccWord
  with_reducible repeat' first
    | assumption | apply State.raiseEvent_inv | apply State.raiseFlag_inv | apply State.setReg_inv | apply State.satReg_inv
    | apply State.modMemu_inv | apply State.addReg64_inv | apply State.Inv.ite | rfl

theorem State.eccRead_inv {s : State} (a : Nat) (k : Nat) (h : s.Inv) : (State.eccRead s a k).Inv := by
  unfold State.eccRead
  with_reducible repeat' first | assumption | intro _ | apply State.eccWord_inv | apply State.Inv.foldl

theorem State.upset_inv {s : State} (e : Prod Nat (Prod Nat Byte)) (h : s.Inv) : (State.upset s e).Inv := by
  unfold State.upset
  with_reducible repeat' first | assumption | apply State.modMemu_inv | apply State.Inv.ite | rfl

theorem State.settleWord_inv {s : State} (d : Damage) (h : s.Inv) : (State.settleWord s d).Inv := by
  unfold State.settleWord
  with_reducible repeat' first
    | assumption | apply State.setBytes_inv | apply State.modMemu_inv | apply State.Inv.ite | rfl

theorem State.store_inv {s : State} (a : Nat) (bs : List Byte) (h : s.Inv) : (State.store s a bs).Inv := by
  unfold State.store
  with_reducible repeat' first
    | assumption | intro _ | apply State.settleWord_inv | apply State.eccWord_inv | apply State.setBytes_inv
    | apply State.Inv.foldl | apply State.Inv.ite

theorem State.storeRead_inv {s : State} (a : Nat) (bs : List Byte) (h : s.Inv) : (State.storeRead s a bs).Inv := by
  unfold State.storeRead
  with_reducible repeat' first
    | assumption | intro _ | apply State.settleWord_inv | apply State.eccWord_inv | apply State.setBytes_inv | apply State.Inv.foldl

theorem State.touch_inv {s : State} (a : Nat) (h : s.Inv) : (State.touch s a).2.Inv := by
  unfold State.touch
  dsimp only
  with_reducible repeat' first | assumption | apply State.modMemu_inv | rfl | split

theorem State.rtRead_inv {s : State} (a : Nat) (k : Nat) (h : s.Inv) : (State.rtRead s a k).Inv := by
  unfold State.rtRead
  with_reducible repeat' first | assumption | apply State.eccRead_inv | apply State.touch_inv

theorem State.rtStore_inv {s : State} (a : Nat) (bs : List Byte) (h : s.Inv) : (State.rtStore s a bs).Inv := by
  unfold State.rtStore
  with_reducible repeat' first | assumption | apply State.store_inv | apply State.touch_inv

theorem State.setPlayPtr_inv {s : State} (n : Nat) (j : Nat) (i : BitVec 32) (h : s.Inv) : (State.setPlayPtr s n j i).Inv := by
  unfold State.setPlayPtr
  with_reducible repeat' first | assumption | apply State.modStrm_inv | apply State.setReg_inv

theorem State.enableStream_inv {s : State} (n : Nat) (j : Nat) (h : s.Inv) : (State.enableStream s n j).Inv := by
  unfold State.enableStream
  with_reducible repeat' first | assumption | apply State.setPlayPtr_inv | apply State.modStrm_inv | apply State.setReg_inv

theorem State.advancePlay_inv {s : State} (n : Nat) (j : Nat) (x3 : Nat) (h : s.Inv) : (State.advancePlay s n j x3).Inv := by
  induction x3 generalizing s with
  | zero => exact h
  | succ k ih =>
    unfold State.advancePlay
    dsimp only
    split
    · exact ih (setPlayPtr_inv _ _ _ (modStrm_inv _ _ _ h))
    · exact h

theorem State.releaseUnit_inv {s : State} (n : Nat) (j : Nat) (i : BitVec 32) (h : s.Inv) :
    (State.releaseUnit s n j i).Inv := by
  unfold State.releaseUnit
  with_reducible repeat' first | assumption | apply State.modStrm_inv | apply State.advancePlay_inv

theorem State.releaseUnits_inv {s : State} (n : Nat) (j : Nat) (i : BitVec 32) (k : Nat) (h : s.Inv) :
    (State.releaseUnits s n j i k).Inv := by
  unfold State.releaseUnits
  with_reducible repeat' first | assumption | intro _ | apply State.forBelow_inv | apply State.releaseUnit_inv

theorem State.takeUnits_inv {s : State} (n : Nat) (j : Nat) (k : Nat) (h : s.Inv) : (State.takeUnits s n j k).2.Inv := by
  unfold State.takeUnits
  with_reducible repeat' first | assumption | apply State.addReg_inv

theorem State.streamUnit_inv {s : State} (n : Nat) (j : Nat) (i : BitVec 32) (ws : List Word) (h : s.Inv) :
    (State.streamUnit s n j i ws).2.Inv := by
  unfold State.streamUnit
  dsimp only
  with_reducible repeat' first | assumption | apply State.raiseFlag_inv | apply State.modStrm_inv | apply State.store_inv | split

theorem execCreditPush_inv (n : RingId) (j : Fin 4) {s : State} (h : s.Inv) : ∀ t, execCreditPush n j s = .next t → t.Inv := by
  unfold execCreditPush
  intro t e
  refine State.Inv.ofNext ?_ e
  with_reducible repeat' first | assumption | apply State.modStrm_inv | apply State.sendPush_inv | apply State.Inv.ite

theorem State.freeBelow_inv {s : State} (n : Nat) (i : BitVec 32) (h : s.Inv) : (State.freeBelow s n i).Inv := by
  unfold State.freeBelow
  with_reducible repeat' first | assumption | apply State.modResq_inv

theorem State.pushResults_inv {s : State} (n : Nat) (h : s.Inv) : (State.pushResults s n).Inv := by
  unfold State.pushResults
  dsimp only
  with_reducible repeat' first
    | assumption | intro _ | apply State.eccRead_inv | apply State.sendPush_inv | apply State.modResq_inv | apply State.Inv.foldl
    | split

theorem State.resultAck_inv {s : State} (n : Nat) (u : Nat) (i : BitVec 32) (h : s.Inv) : (State.resultAck s n u i).2.Inv := by
  unfold State.resultAck
  with_reducible repeat' first | assumption | apply State.freeBelow_inv | split

theorem State.restartPush_inv {s : State} (n : Nat) (h : s.Inv) : (State.restartPush s n).Inv := by
  unfold State.restartPush
  with_reducible repeat' first | assumption | apply State.modResq_inv

theorem State.releaseHeld_inv {s : State} (n : Nat) (flags : BitVec 16) (h : s.Inv) : (State.releaseHeld s n flags).Inv := by
  unfold State.releaseHeld
  with_reducible repeat' first
    | assumption | intro _ | apply State.rtStore_inv | apply State.modResq_inv | apply State.Inv.foldl

theorem execResultPush_inv (n : RingId) {s : State} (h : s.Inv) : ∀ t, execResultPush n s = .next t → t.Inv := by
  unfold execResultPush
  intro t e
  refine State.Inv.ofNext ?_ e
  with_reducible repeat' first | assumption | apply State.pushResults_inv | apply State.Inv.ite

end Sys2Proof.Machine
end

