-- ==== Sys2Proof/Laws/InvVoices.lean ====
section
/-! SUPPORT. The invariant of the block through voices, decisions, transmission and bias outputs. -/

namespace Sys2Proof.Machine

theorem State.descTouch_inv {s : State} (n : Nat) (d : Nat) (h : s.Inv) : (State.descTouch s n d).Inv := by
  unfold State.descTouch
  with_reducible repeat' first | assumption | apply State.rtRead_inv

theorem State.fetchDesc_inv {s : State} (n : Nat) (d : Nat) (h : s.Inv) : (State.fetchDesc s n d).2.Inv := by
  unfold State.fetchDesc
  dsimp only
  with_reducible repeat' first
    | assumption | intro _ | apply State.descTouch_inv | apply State.rtRead_inv | apply State.Inv.foldl | split

theorem State.descErr_inv {s : State} (n : Nat) (v : Nat) (d : Nat) (cause : Nat) (h : s.Inv) :
    (State.descErr s n v d cause).Inv := by
  unfold State.descErr
  with_reducible repeat' first | assumption | apply State.setReg_inv | apply State.raiseFlag_inv

theorem State.markLate_inv {s : State} (n : Nat) (h : s.Inv) : (State.markLate s n).Inv := by
  unfold State.markLate
  with_reducible repeat' first | assumption | apply State.raiseFlag_inv | apply State.setBit_inv

theorem State.dropReq_inv {s : State} (n : Nat) (r : VReq) (h : s.Inv) : (State.dropReq s n r).Inv := by
  unfold State.dropReq
  with_reducible repeat' first | assumption | apply State.releaseUnits_inv | split

theorem State.takeBack_inv {s : State} (n : Nat) (v : Nat) (P : Nat) (h : s.Inv) : (State.takeBack s n v P).Inv := by
  unfold State.takeBack
  with_reducible repeat' first | assumption | apply State.modVoice_inv

theorem State.voidJump_inv {s : State} (n : Nat) (v : Nat) (h : s.Inv) : (State.voidJump s n v).Inv := by
  unfold State.voidJump
  with_reducible repeat' first
    | assumption | apply State.takeBack_inv | apply State.modVoice_inv | apply State.dropReq_inv | split

theorem State.addSeg_inv {s : State} (n : Nat) (v : Nat) (g : Seg) (h : s.Inv) : (State.addSeg s n v g).Inv := by
  unfold State.addSeg
  with_reducible repeat' first | assumption | apply State.modVoice_inv

theorem State.startReq_inv {s : State} (n : Nat) (v : Nat) (r : VReq) (P : Nat) (off : Option Nat) (waits : Bool) (h : s.Inv) :
    (State.startReq s n v r P off waits).Inv := by
  unfold State.startReq
  dsimp only
  with_reducible repeat' first
    | assumption | apply State.modVoice_inv | apply State.descTouch_inv | apply State.descErr_inv | apply State.addSeg_inv | split

theorem State.lateJump_inv {s : State} (n : Nat) (v : Nat) (r : VReq) (h : s.Inv) : (State.lateJump s n v r).Inv := by
  unfold State.lateJump
  with_reducible repeat' first
    | assumption | apply State.modVoice_inv | apply State.raiseFlag_inv | apply State.markLate_inv | apply State.Inv.ite

theorem State.settleJump_inv {s : State} (n : Nat) (v : Nat) (h : s.Inv) : (State.settleJump s n v).Inv := by
  unfold State.settleJump
  with_reducible repeat' first | assumption | apply State.startReq_inv | apply State.lateJump_inv | apply State.Inv.ite | split

theorem State.markChosen_inv {s : State} (n : Nat) (v : Nat) (h : s.Inv) : (State.markChosen s n v).Inv := by
  unfold State.markChosen
  with_reducible repeat' first | assumption | apply State.modVoice_inv

theorem State.continueSeg_inv {s : State} (n : Nat) (v : Nat) (g : Seg) (h : s.Inv) : (State.continueSeg s n v g).2.Inv := by
  unfold State.continueSeg
  dsimp only
  with_reducible repeat' first | assumption | apply State.descTouch_inv | apply State.descErr_inv | split

theorem State.chooseBoundary_inv {s : State} (n : Nat) (v : Nat) (h : s.Inv) : (State.chooseBoundary s n v).Inv := by
  unfold State.chooseBoundary
  dsimp only
  with_reducible repeat' first
    | assumption | apply State.markChosen_inv | apply State.startReq_inv | apply State.continueSeg_inv | apply State.addSeg_inv
    | apply State.lateJump_inv | apply State.settleJump_inv | apply State.Inv.ite | split

theorem State.endFollowers_inv {s : State} (n : Nat) (v : Nat) (h : s.Inv) : (State.endFollowers s n v).Inv := by
  unfold State.endFollowers
  with_reducible repeat' first | assumption | apply State.settleJump_inv | apply State.modVoice_inv | split

theorem State.rampStop_inv {s : State} (n : Nat) (v : Nat) (P : Nat) (h : s.Inv) : (State.rampStop s n v P).Inv := by
  unfold State.rampStop
  dsimp only
  with_reducible repeat' first
    | assumption | apply State.endFollowers_inv | apply State.voidJump_inv | apply State.modVoice_inv | apply State.markChosen_inv
    | apply State.Inv.ite | split

theorem State.fetchEnv_inv {s : State} (n : Nat) (v : Nat) (w : Desc) (off : Nat) (k : Nat) (h : s.Inv) :
    (State.fetchEnv s n v w off k).Inv := by
  unfold State.fetchEnv
  with_reducible repeat' first | assumption | apply State.modVoice_inv

theorem State.offerReq_inv {s : State} (n : Nat) (v : Nat) (r : VReq) (h : s.Inv) : (State.offerReq s n v r).Inv := by
  unfold State.offerReq
  with_reducible repeat' first
    | assumption | apply State.dropReq_inv | apply State.modVoice_inv | apply State.voidJump_inv | apply State.settleJump_inv
    | apply State.Inv.ite

theorem State.reachVoice_inv {s : State} (n : Nat) (v : Nat) (r : VReq) (h : s.Inv) : (State.reachVoice s n v r).Inv := by
  unfold State.reachVoice
  dsimp only
  with_reducible repeat' first
    | assumption | apply State.descTouch_inv | apply State.descErr_inv | apply State.fetchEnv_inv | apply State.offerReq_inv
    | apply State.rampStop_inv | apply State.Inv.ite | split

theorem State.modSeg_inv {s : State} (n : Nat) (v : Nat) (i : Nat) (f : Seg → Seg) (h : s.Inv) :
    (State.modSeg s n v i f).Inv := by
  unfold State.modSeg
  with_reducible repeat' first | assumption | apply State.modVoice_inv

theorem State.underrun_inv {s : State} (n : Nat) (st : Nat) (h : s.Inv) : (State.underrun s n st).Inv := by
  unfold State.underrun
  with_reducible repeat' first | assumption | apply State.raiseEvent_inv | apply State.raiseFlag_inv | apply State.setBit_inv

theorem State.claimUnit_inv {s : State} (n : Nat) (v : Nat) (i : Nat) (g : Seg) (h : s.Inv) :
    (State.claimUnit s n v i g).Inv := by
  unfold State.claimUnit
  with_reducible repeat' first | assumption | apply State.modSeg_inv | apply State.underrun_inv | apply State.Inv.ite

theorem State.haltVoices_inv {s : State} (n : Nat) (host : Bool) (h : s.Inv) : (State.haltVoices s n host).Inv := by
  unfold State.haltVoices
  dsimp only
  with_reducible repeat' first
    | assumption | intro _ | apply State.modSeq_inv | apply State.forBelow_inv | apply State.endFollowers_inv | apply State.voidJump_inv
    | apply State.settleJump_inv | apply State.modVoice_inv | apply State.Inv.ite

theorem State.stopVoices_inv {s : State} (n : Nat) (h : s.Inv) : (State.stopVoices s n).Inv := by
  unfold State.stopVoices
  with_reducible repeat' first | assumption | intro _ | apply State.forBelow_inv | apply State.modVoice_inv

theorem execRequestReachesVoice_inv (n : RingId) (v : Fin 32) {s : State} (h : s.Inv) :
    ∀ t, execRequestReachesVoice n v s = .next t → t.Inv := by
  unfold execRequestReachesVoice
  intro t e
  refine State.Inv.ofNext ?_ e
  with_reducible repeat' first
    | assumption | intro _ | apply State.modVoice_inv | apply State.dropReq_inv | apply State.reachVoice_inv
    | apply State.Inv.foldl

theorem execSegmentBoundary_inv (n : RingId) (v : Fin 32) {s : State} (h : s.Inv) :
    ∀ t, execSegmentBoundary n v s = .next t → t.Inv := by
  unfold execSegmentBoundary
  intro t e
  refine State.Inv.ofNext ?_ e
  with_reducible repeat' first | assumption | apply State.chooseBoundary_inv | apply State.Inv.ite

theorem execUnitClaim_inv (n : RingId) (v : Fin 32) {s : State} (h : s.Inv) : ∀ t, execUnitClaim n v s = .next t → t.Inv := by
  unfold execUnitClaim
  intro t e
  refine State.Inv.ofNext ?_ e
  with_reducible repeat' first | assumption | apply State.claimUnit_inv | split

theorem execUnitRelease_inv (n : RingId) (v : Fin 32) {s : State} (h : s.Inv) :
    ∀ t, execUnitRelease n v s = .next t → t.Inv := by
  unfold execUnitRelease
  intro t e
  refine State.Inv.ofNext ?_ e
  with_reducible repeat' first | assumption | apply State.modSeg_inv | apply State.releaseUnit_inv | split

theorem execStopRampEnd_inv (n : RingId) (v : Fin 32) {s : State} (h : s.Inv) :
    ∀ t, execStopRampEnd n v s = .next t → t.Inv := by
  unfold execStopRampEnd
  intro t e
  refine State.Inv.ofNext ?_ e
  with_reducible repeat' first | assumption | apply State.modVoice_inv | apply State.Inv.ite

theorem State.addPost_inv {s : State} (n : Nat) (p : Post) (h : s.Inv) : (State.addPost s n p).Inv := by
  unfold State.addPost
  with_reducible repeat' first | assumption | apply State.modSeq_inv

theorem State.postDecision_inv {s : State} (n : Nat) (data : Word) (mask : Word) (rings : BitVec 12) (x : Bool) (coarse : Bool) (jug : Bool) (h : s.Inv) :
    (State.postDecision s n data mask rings x coarse jug).Inv := by
  unfold State.postDecision
  with_reducible repeat' first
    | assumption | intro _ | apply State.forRings_inv | apply State.addPost_inv | apply State.Inv.ite | split
    | fail_if_no_progress (refine State.Inv.upd ?_ rfl)

theorem State.applyPost_inv {s : State} (n : Nat) (p : Post) (h : s.Inv) : (State.applyPost s n p).Inv := by
  unfold State.applyPost
  with_reducible repeat' first | assumption | apply State.setReg_inv | apply State.Inv.ite

theorem State.endValid_inv {s : State} (n : Nat) (keep : Word) (old : Bool) (h : s.Inv) :
    (State.endValid s n keep old).Inv := by
  unfold State.endValid
  with_reducible repeat' first | assumption | apply State.setReg_inv | apply State.modSeq_inv

theorem State.consume_inv {s : State} (n : Nat) (b : Nat) (w : Nat) (old : Bool) (h : s.Inv) :
    (State.consume s n b w old).Inv := by
  unfold State.consume
  with_reducible repeat' first | assumption | apply State.endValid_inv

theorem State.clearValid_inv {s : State} (n : Nat) (h : s.Inv) : (State.clearValid s n).Inv := by
  unfold State.clearValid
  with_reducible repeat' first | assumption | apply State.endValid_inv

theorem State.clearDr_inv {s : State} (n : Nat) (h : s.Inv) : (State.clearDr s n).Inv := by
  unfold State.clearDr
  with_reducible repeat' first
    | assumption | intro _ | apply State.clearValid_inv | apply State.setReg_inv | apply State.applyPost_inv
    | apply State.Inv.foldl

theorem State.judgePosts_inv {s : State} (n : Nat) (h : s.Inv) : (State.judgePosts s n).Inv := by
  unfold State.judgePosts
  with_reducible repeat' first | assumption | apply State.modSeq_inv | apply State.raiseIf_inv

theorem State.startFade_inv {s : State} (n : Nat) (c : Nat) (P : Nat) (b : Bool) (h : s.Inv) :
    (State.startFade s n c P b).Inv := by
  unfold State.startFade
  with_reducible repeat' first | assumption | apply State.modTx_inv

theorem State.endFade_inv {s : State} (n : Nat) (c : Nat) (h : s.Inv) : (State.endFade s n c).Inv := by
  unfold State.endFade
  dsimp only
  with_reducible repeat' first | assumption | apply State.modTx_inv | apply State.startFade_inv | apply State.Inv.ite | split

theorem State.reachFade_inv {s : State} (n : Nat) (c : Nat) (b : Bool) (host : Bool) (h : s.Inv) :
    (State.reachFade s n c b host).Inv := by
  unfold State.reachFade
  with_reducible repeat' first
    | assumption | apply State.modTx_inv | apply State.startFade_inv | apply State.raiseFlag_inv | apply State.setBit_inv
    | apply State.Inv.ite

theorem State.offerFades_inv {s : State} (n : Nat) (h : s.Inv) : (State.offerFades s n).Inv := by
  unfold State.offerFades
  with_reducible repeat' first | assumption | intro _ | apply State.forBelow_inv | apply State.modTx_inv

theorem State.voidHostFades_inv {s : State} (n : Nat) (h : s.Inv) : (State.voidHostFades s n).Inv := by
  unfold State.voidHostFades
  with_reducible repeat' first | assumption | intro _ | apply State.forBelow_inv | apply State.modTx_inv

theorem State.stirFades_inv {s : State} (n : Nat) (c : Nat) (h : s.Inv) : (State.stirFades s n c).Inv := by
  unfold State.stirFades
  with_reducible repeat' first | assumption | apply State.modTx_inv

theorem State.fadeReqDo_inv {s : State} (n : Nat) (c : Nat) (b : Bool) (h : s.Inv) : (State.fadeReqDo s n c b).Inv := by
  unfold State.fadeReqDo
  with_reducible repeat' first | assumption | apply State.modTx_inv

theorem State.txCtrlDo_inv {s : State} (n : Nat) (c : Nat) (v : Word) (h : s.Inv) : (State.txCtrlDo s n c v).Inv := by
  unfold State.txCtrlDo
  with_reducible repeat' first | assumption | apply State.setReg_inv | apply State.modTx_inv | apply State.Inv.ite

theorem State.txFsDo_inv {s : State} (n : Nat) (c : Nat) (v : Word) (h : s.Inv) : (State.txFsDo s n c v).Inv := by
  unfold State.txFsDo
  with_reducible repeat' first | assumption | apply State.setReg_inv | apply State.modTx_inv | apply State.Inv.ite

theorem State.sendReq_inv {s : State} (n : Nat) (v : Nat) (k : VKind) (h : s.Inv) : (State.sendReq s n v k).Inv := by
  unfold State.sendReq
  with_reducible repeat' first | assumption | apply State.modVoice_inv

theorem State.sendPin_inv {s : State} (n : Nat) (v : Nat) (k : PinKind) (h : s.Inv) : (State.sendPin s n v k).Inv := by
  unfold State.sendPin
  with_reducible repeat' first | assumption | apply State.modVoice_inv

theorem State.sendLanePin_inv {s : State} (n : Nat) (l : Nat) (k : PinKind) (h : s.Inv) : (State.sendLanePin s n l k).Inv := by
  unfold State.sendLanePin
  with_reducible repeat' first | assumption | apply State.modLane_inv

theorem State.setGot_inv {s : State} (n : Nat) (g : Option Desc) (h : s.Inv) : (State.setGot s n g).Inv := by
  unfold State.setGot
  with_reducible repeat' first | assumption | apply State.modSeq_inv | split

theorem State.actPlay_inv {s : State} (n : Nat) (w : BitVec 64) (h : s.Inv) : (State.actPlay s n w).Inv := by
  unfold State.actPlay
  dsimp only
  with_reducible repeat' first | assumption | apply State.sendReq_inv | apply State.modVoice_inv | apply State.modSeq_inv | split

theorem State.actPlays_inv {s : State} (n : Nat) (w : BitVec 64) (h : s.Inv) : (State.actPlays s n w).Inv := by
  unfold State.actPlays
  with_reducible repeat' first | assumption | apply State.takeUnits_inv | apply State.sendReq_inv | split

theorem State.actStop_inv {s : State} (n : Nat) (w : BitVec 64) (h : s.Inv) : (State.actStop s n w).Inv := by
  unfold State.actStop
  with_reducible repeat' first
    | assumption | intro _ | apply State.forBelow_inv | apply State.sendReq_inv | apply State.Inv.ite

theorem State.actFrq_inv {s : State} (n : Nat) (w : BitVec 64) (v1 : Word) (v2 : Word) (h : s.Inv) :
    (State.actFrq s n w v1 v2).Inv := by
  unfold State.actFrq
  with_reducible repeat' first | assumption | apply State.sendLanePin_inv | apply State.sendPin_inv | apply State.Inv.ite

theorem State.actPhs_inv {s : State} (n : Nat) (w : BitVec 64) (v1 : Word) (h : s.Inv) : (State.actPhs s n w v1).Inv := by
  unfold State.actPhs
  with_reducible repeat' first | assumption | apply State.sendLanePin_inv | apply State.sendPin_inv | apply State.Inv.ite

theorem State.actPhset_inv {s : State} (n : Nat) (w : BitVec 64) (v1 : Word) (h : s.Inv) : (State.actPhset s n w v1).Inv := by
  unfold State.actPhset
  with_reducible repeat' first | assumption | apply State.sendLanePin_inv | apply State.sendPin_inv | apply State.Inv.ite

theorem State.actAmp_inv {s : State} (n : Nat) (w : BitVec 64) (v1 : Word) (h : s.Inv) : (State.actAmp s n w v1).Inv := by
  unfold State.actAmp
  with_reducible repeat' first | assumption | apply State.sendPin_inv

theorem State.actFade_inv {s : State} (n : Nat) (w : BitVec 64) (h : s.Inv) : (State.actFade s n w).Inv := by
  unfold State.actFade
  with_reducible repeat' first | assumption | apply State.modTx_inv

theorem State.actSend_inv {s : State} (n : Nat) (w : BitVec 64) (v1 : Word) (v2 : Word) (h : s.Inv) :
    (State.actSend s n w v1 v2).Inv := by
  unfold State.actSend
  with_reducible repeat' first | assumption | apply State.postDecision_inv

theorem execFadeReach_inv (n : RingId) (c : Fin 4) {s : State} (h : s.Inv) : ∀ t, execFadeReach n c s = .next t → t.Inv := by
  unfold execFadeReach
  intro t e
  refine State.Inv.ofNext ?_ e
  dsimp only
  with_reducible repeat' first
    | assumption | intro _ | apply State.endFade_inv | apply State.modTx_inv | apply State.reachFade_inv | apply State.Inv.foldl
    | apply State.Inv.ite | split

theorem execFadeEnd_inv (n : RingId) (c : Fin 4) {s : State} (h : s.Inv) : ∀ t, execFadeEnd n c s = .next t → t.Inv := by
  unfold execFadeEnd
  intro t e
  refine State.Inv.ofNext ?_ e
  with_reducible repeat' first | assumption | apply State.endFade_inv

theorem execTxSettleEnd_inv (n : RingId) (c : Fin 4) {s : State} (h : s.Inv) :
    ∀ t, execTxSettleEnd n c s = .next t → t.Inv := by
  unfold execTxSettleEnd
  intro t e
  refine State.Inv.ofNext ?_ e
  with_reducible repeat' first | assumption | apply State.modTx_inv | apply State.Inv.ite | split

theorem State.takeTarget_inv {s : State} (n : Nat) (b : Nat) (t0 : Int) (force : Bool) (h : s.Inv) :
    (State.takeTarget s n b t0 force).Inv := by
  unfold State.takeTarget
  with_reducible repeat' first | assumption | apply State.modBias_inv

theorem State.biasEntry_inv {s : State} (n : Nat) (b : Nat) (code : Int) (h : s.Inv) : (State.biasEntry s n b code).Inv := by
  unfold State.biasEntry
  with_reducible repeat' first
    | assumption | apply State.raiseFlag_inv | apply State.raiseIf_inv | apply State.modBias_inv | apply State.Inv.ite

theorem State.clearTake_inv {s : State} (n : Nat) (b : Nat) (force : Bool) (h : s.Inv) :
    (State.clearTake s n b force).Inv := by
  unfold State.clearTake
  with_reducible repeat' first | assumption | apply State.takeTarget_inv

theorem State.clearAssert_inv {s : State} (n : Nat) (b : Nat) (force : Bool) (h : s.Inv) :
    (State.clearAssert s n b force).Inv := by
  unfold State.clearAssert
  with_reducible repeat' first | assumption | apply State.modBias_inv | apply State.clearTake_inv | apply State.Inv.ite

theorem State.forBias_inv {s : State} (f : Nat → Nat → State → State) (h : s.Inv) (hf : ∀ y0 y1 y2, y2.Inv → (f y0 y1 y2).Inv) :
    (State.forBias s f).Inv := by
  unfold State.forBias
  with_reducible repeat' first | assumption | intro _ | apply hf | apply State.forBelow_inv

theorem State.spanHold_inv {s : State} (n : Nat) (b : Nat) (h : s.Inv) : (State.spanHold s n b).Inv := by
  unfold State.spanHold
  with_reducible repeat' first | assumption | apply State.modBias_inv | apply State.Inv.ite

theorem State.spanDo_inv {s : State} (n : Nat) (b : Nat) (v : Word) (h : s.Inv) : (State.spanDo s n b v).Inv := by
  unfold State.spanDo
  with_reducible repeat' first
    | assumption | apply State.setReg_inv | apply State.biasEntry_inv | apply State.spanHold_inv | apply State.takeTarget_inv
    | apply State.modBias_inv | apply State.Inv.ite

theorem State.biasStop_inv {s : State} (n : Nat) (b : Nat) (h : s.Inv) : (State.biasStop s n b).Inv := by
  unfold State.biasStop
  with_reducible repeat' first | assumption | apply State.modBias_inv

theorem State.clearDo_inv {s : State} (n : Nat) (b : Nat) (v : Word) (h : s.Inv) : (State.clearDo s n b v).Inv := by
  unfold State.clearDo
  with_reducible repeat' first | assumption | apply State.setReg_inv | apply State.clearTake_inv | apply State.Inv.ite

theorem State.biasSample_inv {s : State} (n : Nat) (b : Nat) (h : s.Inv) : (State.biasSample s n b).Inv := by
  unfold State.biasSample
  with_reducible repeat' first | assumption | apply State.setReg_inv

theorem State.dropBias_inv {s : State} (n : Nat) (b : Nat) (h : s.Inv) : (State.dropBias s n b).Inv := by
  unfold State.dropBias
  with_reducible repeat' first | assumption | apply State.modBias_inv | apply State.Inv.ite | split

theorem State.actBias_inv {s : State} (n : Nat) (w : BitVec 64) (v1 : Word) (h : s.Inv) : (State.actBias s n w v1).Inv := by
  unfold State.actBias
  with_reducible repeat' first | assumption | apply State.biasEntry_inv | apply State.dropBias_inv | apply State.modBias_inv

theorem State.biasReadback_inv {s : State} (n : Nat) (b : Nat) (round : Nat) (v : Int) (h : s.Inv) :
    (State.biasReadback s n b round v).Inv := by
  unfold State.biasReadback
  with_reducible repeat' first | assumption | apply State.setReg_inv | apply State.raiseIf_inv

theorem execBiasTake_inv (n : RingId) (b : Fin 4) {s : State} (h : s.Inv) : ∀ t, execBiasTake n b s = .next t → t.Inv := by
  unfold execBiasTake
  intro t e
  refine State.Inv.ofNext ?_ e
  with_reducible repeat' first | assumption | apply State.takeTarget_inv | apply State.modBias_inv | split

theorem execBiasSlewEnd_inv (n : RingId) (b : Fin 4) {s : State} (h : s.Inv) :
    ∀ t, execBiasSlewEnd n b s = .next t → t.Inv := by
  unfold execBiasSlewEnd
  intro t e
  refine State.Inv.ofNext ?_ e
  with_reducible repeat' first | assumption | apply State.spanHold_inv | apply State.modBias_inv | apply State.Inv.ite

theorem execSpanSettleEnd_inv (n : RingId) (b : Fin 4) {s : State} (h : s.Inv) :
    ∀ t, execSpanSettleEnd n b s = .next t → t.Inv := by
  unfold execSpanSettleEnd
  intro t e
  refine State.Inv.ofNext ?_ e
  dsimp only
  with_reducible repeat' first
    | assumption | apply State.modBias_inv | apply State.clearTake_inv | apply State.biasEntry_inv | apply State.Inv.ite | split

theorem execClrNAssert_inv {s : State} (h : s.Inv) : ∀ t, execClrNAssert s = .next t → t.Inv := by
  unfold execClrNAssert
  intro t e
  refine State.Inv.ofNext ?_ e
  with_reducible repeat' first
    | assumption | intro _ | apply State.forBias_inv | apply State.clearAssert_inv | apply State.Inv.ite | split
    | fail_if_no_progress (refine State.Inv.upd ?_ rfl)

theorem execClrNRelease_inv {s : State} (h : s.Inv) : ∀ t, execClrNRelease s = .next t → t.Inv := by
  unfold execClrNRelease
  intro t e
  refine State.Inv.ofNext ?_ e
  with_reducible repeat' first | assumption | fail_if_no_progress (refine State.Inv.upd ?_ rfl)

theorem execVbiasLoss_inv {s : State} (h : s.Inv) : ∀ t, execVbiasLoss s = .next t → t.Inv := by
  intro t e
  refine State.Inv.ofNext (State.forBias_inv _ (h.upd rfl) ?_) e
  intro n b t h
  exact State.raiseFlag_inv _ _ (State.modBias_inv _ _ _ h)

theorem execVbiasValid_inv {s : State} (h : s.Inv) : ∀ t, execVbiasValid s = .next t → t.Inv := by
  unfold execVbiasValid
  intro t e
  refine State.Inv.ofNext ?_ e
  with_reducible repeat' first
    | assumption | intro _ | apply State.forBias_inv | apply State.clearTake_inv | apply State.modBias_inv
    | fail_if_no_progress (refine State.Inv.upd ?_ rfl)

theorem execBiasSampleTick_inv (n : RingId) (b : Fin 4) {s : State} (h : s.Inv) :
    ∀ t, execBiasSampleTick n b s = .next t → t.Inv := by
  unfold execBiasSampleTick
  intro t e
  refine State.Inv.ofNext ?_ e
  with_reducible repeat' first | assumption | apply State.biasSample_inv | apply State.Inv.ite

theorem execBiasCurrentLimitOrSenseOpen_inv (n : RingId) (b : Fin 4) (ilim : Bool) (senseOpen : Bool) {s : State} (h : s.Inv) :
    ∀ t, execBiasCurrentLimitOrSenseOpen n b ilim senseOpen s = .next t → t.Inv := by
  unfold execBiasCurrentLimitOrSenseOpen
  intro t e
  refine State.Inv.ofNext ?_ e
  with_reducible repeat' first | assumption | apply State.raiseIf_inv

end Sys2Proof.Machine
end

