-- ==== Sys2Proof/Laws/InvReceive.lean ====
section
/-! SUPPORT. The invariant of the block through the Jugglers' inputs, reception and flits that leave. -/

namespace Sys2Proof.Machine

theorem State.jugPend_inv {s : State} (n : Nat) (i : Nat) (h : s.Inv) : (State.jugPend s n i).Inv := by
  unfold State.jugPend
  with_reducible repeat' first
    | assumption | intro _ | apply State.modJug_inv | with_unfolding_all (show Jug.Sized _; exact ‹Jug.Sized _›)

theorem State.jugCoarse_inv {s : State} (n : Nat) (l : Nat) (res : Word) (info : Word) (h : s.Inv) :
    (State.jugCoarse s n l res info).Inv := by
  unfold State.jugCoarse
  with_reducible repeat' first
    | assumption | intro _ | apply State.modJug_inv | apply State.jugPend_inv
    | with_unfolding_all (show Jug.Sized _; simp_all [Jug.Sized])
    | apply State.Inv.ite

theorem State.jugFine_inv {s : State} (n : Nat) (l : Nat) (fi : Word) (fq : Word) (h : s.Inv) :
    (State.jugFine s n l fi fq).Inv := by
  unfold State.jugFine
  with_reducible repeat' first
    | assumption | intro _ | apply State.modJug_inv | apply State.jugPend_inv
    | with_unfolding_all (show Jug.Sized _; simp_all [Jug.Sized])
    | apply State.Inv.ite

theorem State.jugOverruns_inv {s : State} (n : Nat) (h : s.Inv) : (State.jugOverruns s n).Inv := by
  unfold State.jugOverruns
  with_reducible repeat' first
    | assumption | intro _ | apply State.modJug_inv | apply State.raiseFlag_inv | apply State.Inv.foldl
    | with_unfolding_all (show Jug.Sized _; exact ‹Jug.Sized _›)

theorem State.rxCtrlDo_inv {s : State} (n : Nat) (r : Nat) (v : Word) (h : s.Inv) : (State.rxCtrlDo s n r v).Inv := by
  unfold State.rxCtrlDo
  with_reducible repeat' first | assumption | apply State.setReg_inv | apply State.modRx_inv | apply State.Inv.ite

theorem State.startCapture_inv {s : State} (n : Nat) (r : Nat) (P : Nat) (h : s.Inv) : (State.startCapture s n r P).Inv := by
  unfold State.startCapture
  with_reducible repeat' first
    | assumption | apply State.modRx_inv | apply State.setReg_inv | apply State.setReg64_inv | apply State.addReg_inv

theorem State.rawAcq_inv {s : State} (n : Nat) (r : Nat) (h : s.Inv) : (State.rawAcq s n r).Inv := by
  unfold State.rawAcq
  with_reducible repeat' first
    | assumption | intro _ | apply State.startCapture_inv | apply State.raiseFlag_inv | apply State.Inv.foldl
    | apply State.Inv.ite

theorem State.captureBeat_inv {s : State} (n : Nat) (r : Nat) (P : Nat) (cs : List Int) (h : s.Inv) :
    (State.captureBeat s n r P cs).Inv := by
  unfold State.captureBeat
  with_reducible repeat' first
    | assumption | apply State.rtStore_inv | apply State.setFld_inv | apply State.setBit_inv | apply State.Inv.ite | split

theorem State.rawCmdDo_inv {s : State} (n : Nat) (r : Nat) (v : Word) (h : s.Inv) : (State.rawCmdDo s n r v).Inv := by
  unfold State.rawCmdDo
  with_reducible repeat' first | assumption | apply State.modRx_inv | apply State.startCapture_inv | apply State.Inv.ite

theorem State.pushRaw_inv {s : State} (n : Nat) (r : Nat) (h : s.Inv) : (State.pushRaw s n r).Inv := by
  unfold State.pushRaw
  with_reducible repeat' first
    | assumption | apply State.eccRead_inv | apply State.nextSeqNo_inv | apply State.pushClassC_inv | apply State.modRx_inv
    | apply State.Inv.ite

theorem State.rawHandOver_inv {s : State} (n : Nat) (r : Nat) (h : s.Inv) : (State.rawHandOver s n r).Inv := by
  unfold State.rawHandOver
  with_reducible repeat' first | assumption | apply State.modRx_inv | apply State.Inv.ite

theorem State.lanePin_inv {s : State} (n : Nat) (l : Nat) (o : PinOp) (h : s.Inv) : (State.lanePin s n l o).Inv := by
  unfold State.lanePin
  with_reducible repeat' first | assumption | apply State.setReg64_inv | apply State.modLane_inv | apply State.setReg_inv | split

theorem State.lanePins_inv {s : State} (n : Nat) (l : Nat) (P : Nat) (h : s.Inv) : (State.lanePins s n l P).Inv := by
  unfold State.lanePins
  dsimp only
  with_reducible repeat' first
    | assumption | intro _ | apply State.lanePin_inv | apply State.modLane_inv | apply State.Inv.foldl

theorem State.laneOutput_inv {s : State} (n : Nat) (l : Nat) (P : Nat) (w : Win) (h : s.Inv) :
    (State.laneOutput s n l P w).1.Inv := by
  unfold State.laneOutput
  dsimp only
  with_reducible repeat' first | assumption | apply State.rtRead_inv | apply State.raiseFlag_inv | apply State.Inv.ite | split

theorem State.laneBeat_inv {s : State} (n : Nat) (l : Nat) (P : Nat) (cs : List Int) (h : s.Inv) :
    (State.laneBeat s n l P cs).Inv := by
  unfold State.laneBeat
  with_reducible repeat' first
    | assumption | intro _ | apply State.lanePins_inv | apply State.modLane_inv | apply State.laneOutput_inv
    | apply State.raiseFlag_inv | apply State.Inv.foldl | apply State.Inv.foldlFst

theorem State.lanePinBeat_inv {s : State} (h : s.Inv) : (State.lanePinBeat s).Inv := by
  unfold State.lanePinBeat
  with_reducible repeat' first
    | assumption | intro _ | apply State.forBelow_inv | apply State.lanePins_inv | apply State.Inv.ite

theorem State.rxBeat_inv {s : State} (P : Nat) (h : s.Inv) : (State.rxBeat s P).Inv := by
  unfold State.rxBeat
  with_reducible repeat' first
    | assumption | intro _ | apply State.forBelow_inv | apply State.rawAcq_inv | apply State.modRx_inv
    | apply State.captureBeat_inv | apply State.laneBeat_inv

theorem State.actAcq_inv {s : State} (n : Nat) (w : BitVec 64) (h : s.Inv) : (State.actAcq s n w).Inv := by
  unfold State.actAcq
  with_reducible repeat' first | assumption | apply State.raiseIf_inv | apply State.modLane_inv

theorem State.actKer_inv {s : State} (n : Nat) (w : BitVec 64) (h : s.Inv) : (State.actKer s n w).Inv := by
  unfold State.actKer
  with_reducible repeat' first | assumption | apply State.setReg_inv

theorem State.modWins_inv {s : State} (n : Nat) (l : Nat) (p : Win → Bool) (f : Win → Win) (h : s.Inv) :
    (State.modWins s n l p f).Inv := by
  unfold State.modWins
  with_reducible repeat' first | assumption | apply State.modLane_inv

theorem State.closeWin_inv {s : State} (n : Nat) (l : Nat) (w : Win) (h : s.Inv) : (State.closeWin s n l w).Inv := by
  unfold State.closeWin
  with_reducible repeat' first | assumption | apply State.modLane_inv | apply State.modWins_inv

theorem State.raiseTimes_inv {s : State} (k : Nat) (a : Nat) (b : Nat) (h : s.Inv) : (State.raiseTimes s k a b).Inv := by
  unfold State.raiseTimes
  with_reducible repeat' first | assumption | intro _ | apply State.raiseFlag_inv | apply State.Inv.foldl

theorem State.deliverCoarse_inv {s : State} (n : Nat) (l : Nat) (w : Win) (h : s.Inv) : (State.deliverCoarse s n l w).Inv := by
  unfold State.deliverCoarse
  repeat' first
    | with_reducible assumption | with_reducible intro _ | with_reducible apply State.raiseTimes_inv
    | with_reducible apply State.jugCoarse_inv | with_reducible apply State.setReg_inv | with_reducible apply State.modWins_inv

theorem State.writeRecord_inv {s : State} (n : Nat) (l : Nat) (w : Win) (fi : Int) (fq : Int) (h : s.Inv) :
    (State.writeRecord s n l w fi fq).2.Inv := by
  unfold State.writeRecord
  dsimp only
  with_reducible repeat' first
    | assumption | apply State.raiseEvent_inv | apply State.raiseFlag_inv | apply State.rtStore_inv | apply State.modResq_inv
    | split

theorem State.deliverFine_inv {s : State} (n : Nat) (l : Nat) (w : Win) (h : s.Inv) : (State.deliverFine s n l w).Inv := by
  unfold State.deliverFine
  with_reducible repeat' first
    | assumption | apply State.raiseTimes_inv | apply State.setReg_inv | apply State.jugFine_inv | apply State.writeRecord_inv
    | apply State.modLane_inv | split

theorem State.annotate_inv {s : State} (n : Nat) (l : Nat) (v : Word) (h : s.Inv) : (State.annotate s n l v).Inv := by
  unfold State.annotate
  with_reducible repeat' first
    | assumption | apply State.modWins_inv | apply State.rtStore_inv | apply State.raiseFlag_inv | apply State.Inv.ite | split

theorem State.flagWins_inv {s : State} (n : Nat) (shot : Nat) (fl : BitVec 16) (h : s.Inv) :
    (State.flagWins s n shot fl).Inv := by
  unfold State.flagWins
  with_reducible repeat' first | assumption | intro _ | apply State.forBelow_inv | apply State.modWins_inv

theorem State.abortWins_inv {s : State} (n : Nat) (mck : Bool) (h : s.Inv) : (State.abortWins s n mck).Inv := by
  unfold State.abortWins
  with_reducible repeat' first
    | assumption | intro _ | apply State.forBelow_inv | apply State.raiseIf_inv | apply State.modLane_inv

theorem execRxReady_inv (n : RingId) (r : Fin 2) {s : State} (h : s.Inv) : ∀ t, execRxReady n r s = .next t → t.Inv := by
  unfold execRxReady
  intro t e
  refine State.Inv.ofNext ?_ e
  with_reducible repeat' first | assumption | apply State.modRx_inv | apply State.Inv.ite | split

theorem execRxClip_inv (n : RingId) (r : Fin 2) {s : State} (h : s.Inv) : ∀ t, execRxClip n r s = .next t → t.Inv := by
  unfold execRxClip
  intro t e
  refine State.Inv.ofNext ?_ e
  with_reducible repeat' first
    | assumption | intro _ | apply State.modRx_inv | apply State.addReg64_inv | apply State.raiseFlag_inv | apply State.Inv.foldl
    | apply State.Inv.ite

theorem execOverloadRemoved_inv (n : RingId) (r : Fin 2) {s : State} (h : s.Inv) :
    ∀ t, execOverloadRemoved n r s = .next t → t.Inv := by
  unfold execOverloadRemoved
  intro t e
  refine State.Inv.ofNext ?_ e
  with_reducible repeat' first | assumption | apply State.modRx_inv | apply State.Inv.ite

theorem execWindowClose_inv (n : RingId) (l : Fin 32) {s : State} (h : s.Inv) :
    ∀ t, execWindowClose n l s = .next t → t.Inv := by
  unfold execWindowClose
  intro t e
  refine State.Inv.ofNext ?_ e
  with_reducible repeat' first | assumption | apply State.closeWin_inv | split

theorem execCoarseResult_inv (n : RingId) (l : Fin 32) {s : State} (h : s.Inv) :
    ∀ t, execCoarseResult n l s = .next t → t.Inv := by
  unfold execCoarseResult
  intro t e
  refine State.Inv.ofNext ?_ e
  with_reducible repeat' first | assumption | apply State.deliverCoarse_inv | split

theorem execFineResult_inv (n : RingId) (l : Fin 32) {s : State} (h : s.Inv) :
    ∀ t, execFineResult n l s = .next t → t.Inv := by
  unfold execFineResult
  intro t e
  refine State.Inv.ofNext ?_ e
  with_reducible repeat' first | assumption | apply State.deliverFine_inv | split

theorem execRawCaptureEnd_inv (n : RingId) (r : Fin 2) {s : State} (h : s.Inv) :
    ∀ t, execRawCaptureEnd n r s = .next t → t.Inv := by
  unfold execRawCaptureEnd
  intro t e
  refine State.Inv.ofNext ?_ e
  with_reducible repeat' first | assumption | apply State.modRx_inv | apply State.Inv.ite | split

theorem execRawPush_inv (n : RingId) (r : Fin 2) {s : State} (h : s.Inv) : ∀ t, execRawPush n r s = .next t → t.Inv := by
  unfold execRawPush
  intro t e
  refine State.Inv.ofNext ?_ e
  with_reducible repeat' first | assumption | apply State.pushRaw_inv | apply State.Inv.ite

theorem State.queueFlit_inv {s : State} (k : Nat) (x : BitVec 64) (ready : Nat) (h : s.Inv) :
    (State.queueFlit s k x ready).Inv := by
  unfold State.queueFlit
  with_reducible repeat' first | assumption | apply State.modLink_inv

theorem State.spreadFlit_inv {s : State} (m : BitVec 4) (x : BitVec 64) (ready : Nat) (h : s.Inv) :
    (State.spreadFlit s m x ready).Inv := by
  unfold State.spreadFlit
  with_reducible repeat' first
    | assumption | intro _ | apply State.queueFlit_inv | apply State.Inv.foldl | apply State.Inv.ite

theorem State.forwardFlit_inv {s : State} (x : BitVec 64) (ready : Nat) (h : s.Inv) : (State.forwardFlit s x ready).Inv := by
  unfold State.forwardFlit
  with_reducible repeat' first | assumption | apply State.raiseFlag_inv | apply State.spreadFlit_inv | apply State.Inv.ite

theorem State.sendLctl_inv {s : State} (k : Nat) (code : Nat) (lane : Nat) (ready : Nat) (h : s.Inv) :
    (State.sendLctl s k code lane ready).Inv := by
  unfold State.sendLctl
  with_reducible repeat' first | assumption | apply State.queueFlit_inv

theorem State.sendTmark_inv {s : State} (k : Nat) (m : Nat) (bin : Nat) (falling : Bool) (h : s.Inv) :
    (State.sendTmark s k m bin falling).Inv := by
  unfold State.sendTmark
  with_reducible repeat' first | assumption | apply State.raiseFlag_inv | apply State.queueFlit_inv | apply State.Inv.ite

theorem State.takeSlot_inv {s : State} (k : Nat) (f : Flit) (h : s.Inv) : (State.takeSlot s k f).Inv := by
  unfold State.takeSlot
  with_reducible repeat' first | assumption | apply State.modLink_inv | apply State.addReg64_inv | apply State.Inv.ite

theorem State.linkSlot_inv {s : State} (k : Nat) (h : s.Inv) : (State.linkSlot s k).Inv := by
  unfold State.linkSlot
  with_reducible repeat' first
    | assumption | apply State.takeSlot_inv | apply State.addReg64_inv | apply State.modLink_inv | apply State.Inv.ite | split

end Sys2Proof.Machine
end

