-- ==== Sys2Proof/Laws/InvTime.lean ====
section
/-! SUPPORT. The invariant of the block through time, triggers and markers. -/

namespace Sys2Proof.Machine

theorem State.snapDo_inv {s : State} (h : s.Inv) : (State.snapDo s).Inv := by
  unfold State.snapDo
  with_reducible repeat' first | assumption | apply State.setReg_inv | apply State.setReg64_inv

theorem State.adjCtrlDo_inv {s : State} (v : Word) (h : s.Inv) : (State.adjCtrlDo s v).Inv := by
  unfold State.adjCtrlDo
  with_reducible repeat' first | assumption | apply State.setBit_inv | apply State.setReg_inv

theorem State.applyAdj_inv {s : State} (B : Nat) (h : s.Inv) : (State.applyAdj s B).Inv := by
  unfold State.applyAdj
  with_reducible repeat' first
    | assumption | apply State.raiseFlag_inv | apply State.setReg64_inv | apply State.setBit_inv | split
    | fail_if_no_progress (refine State.Inv.upd ?_ rfl)

theorem execAdjustmentApply_inv {s : State} (h : s.Inv) : ∀ t, execAdjustmentApply s = .next t → t.Inv := by
  unfold execAdjustmentApply
  intro t e
  refine State.Inv.ofNext ?_ e
  with_reducible repeat' first | assumption | apply State.applyAdj_inv | apply State.Inv.ite

theorem State.offerRole_inv {s : State} (u : Nat) (bin : Nat) (isStart : Bool) (h : s.Inv) :
    (State.offerRole s u bin isStart).Inv := by
  unfold State.offerRole
  with_reducible repeat' first | assumption | apply State.raiseFlag_inv | apply State.modTiu_inv | apply State.Inv.ite

theorem State.srcTakes_inv {s : State} (src : Nat) (bin : Nat) (h : s.Inv) : (State.srcTakes s src bin).1.Inv := by
  unfold State.srcTakes
  with_reducible repeat' first | assumption | split | fail_if_no_progress (refine State.Inv.upd ?_ rfl)

theorem State.offerTiu_inv {s : State} (u : Nat) (src : Nat) (bin : Nat) (falling : Bool) (h : s.Inv) :
    (State.offerTiu s u src bin falling).Inv := by
  unfold State.offerTiu
  with_reducible repeat' first | assumption | apply State.offerRole_inv | apply State.Inv.ite

theorem State.tiuEnd_inv {s : State} (u : Nat) (h : s.Inv) : (State.tiuEnd s u).Inv := by
  unfold State.tiuEnd
  with_reducible repeat' first | assumption | apply State.modTiu_inv

theorem State.tiuTake_inv {s : State} (u : Nat) (x : Nat) (h : s.Inv) : (State.tiuTake s u x).Inv := by
  unfold State.tiuTake
  with_reducible repeat' first
    | assumption | apply State.raiseFlag_inv | apply State.raiseIf_inv | apply State.addReg_inv | apply State.modTiu_inv
    | apply State.tiuEnd_inv | apply State.Inv.ite

theorem State.tiuHandle_inv {s : State} (u : Nat) (e : TiuEv) (h : s.Inv) : (State.tiuHandle s u e).Inv := by
  unfold State.tiuHandle
  with_reducible repeat' first
    | assumption | apply State.modTiu_inv | apply State.tiuTake_inv | apply State.raiseFlag_inv | apply State.satReg_inv
    | apply State.Inv.ite | split

theorem State.tiuCmdDo_inv {s : State} (u : Nat) (v : Word) (h : s.Inv) : (State.tiuCmdDo s u v).Inv := by
  unfold State.tiuCmdDo
  with_reducible repeat' first
    | assumption | intro _ | apply State.tiuEnd_inv | apply State.modTiu_inv | apply State.setReg_inv | apply State.Inv.foldl
    | apply State.Inv.ite

theorem State.setLatch_inv {s : State} (n : Nat) (i : Nat) (rise : Bool) (h : s.Inv) : (State.setLatch s n i rise).Inv := by
  unfold State.setLatch
  with_reducible repeat' first | assumption | apply State.setBit_inv | fail_if_no_progress (refine State.Inv.upd ?_ rfl)

theorem State.trigAct_inv {s : State} (i : Nat) (bin : Nat) (rise : Bool) (h : s.Inv) : (State.trigAct s i bin rise).Inv := by
  unfold State.trigAct
  with_reducible repeat' first
    | assumption | intro _ | apply State.setReg_inv | apply State.forBelow_inv | apply State.offerTiu_inv
    | apply State.forRings_inv | apply State.setLatch_inv

theorem State.trigDeliver_inv {s : State} (i : Nat) (h : s.Inv) : (State.trigDeliver s i).Inv := by
  unfold State.trigDeliver
  with_reducible repeat' first | assumption | intro _ | apply State.trigAct_inv | apply State.modTrig_inv | apply State.Inv.foldl

theorem State.trigEdge_inv {s : State} (i : Nat) (bin : Nat) (rise : Bool) (h : s.Inv) :
    (State.trigEdge s i bin rise).Inv := by
  unfold State.trigEdge
  with_reducible repeat' first
    | assumption | apply State.satReg_inv | apply State.trigDeliver_inv | apply State.modTrig_inv | apply State.Inv.ite

theorem State.clearLatch_inv {s : State} (n : Nat) (m : Word) (h : s.Inv) : (State.clearLatch s n m).Inv := by
  unfold State.clearLatch
  with_reducible repeat' first
    | assumption | intro _ | apply State.setBit_inv | apply State.Inv.foldl | apply State.Inv.ite

theorem State.placeEdge_inv {s : State} (m : Nat) (bin : Nat) (high : Bool) (pulse : Bool) (h : s.Inv) :
    (State.placeEdge s m bin high pulse).Inv := by
  unfold State.placeEdge
  with_reducible repeat' first | assumption | apply State.modMark_inv | fail_if_no_progress (refine State.Inv.upd ?_ rfl)

theorem State.markAt_inv {s : State} (m : Nat) (ts : Nat) (action : Nat) (A : Nat) (h : s.Inv) :
    (State.markAt s m ts action A).Inv := by
  unfold State.markAt
  with_reducible repeat' first | assumption | apply State.placeEdge_inv | apply State.Inv.ite

theorem State.actMark_inv {s : State} (w : BitVec 64) (h : s.Inv) : (State.actMark s w).Inv := by
  unfold State.actMark
  with_reducible repeat' first | assumption | apply State.markAt_inv

theorem State.actTset_inv {s : State} (w : BitVec 64) (v1 : Word) (h : s.Inv) : (State.actTset s w v1).Inv := by
  unfold State.actTset
  with_reducible repeat' first | assumption | apply State.setReg_inv | apply State.Inv.ite

theorem State.reachEdge_inv {s : State} (m : Nat) (bin : Nat) (h : s.Inv) : (State.reachEdge s m bin).Inv := by
  unfold State.reachEdge
  with_reducible repeat' first
    | assumption | intro _ | apply State.modMark_inv | apply State.srcTakes_inv | apply State.forBelow_inv
    | apply State.offerTiu_inv | apply State.sendTmark_inv | apply State.Inv.foldl | apply State.Inv.ite

theorem execTriggerEdge_inv (i : Fin 8) (bin : Nat) (rise : Bool) {s : State} (h : s.Inv) :
    ∀ t, execTriggerEdge i bin rise s = .next t → t.Inv := by
  unfold execTriggerEdge
  intro t e
  refine State.Inv.ofNext ?_ e
  with_reducible repeat' first | assumption | apply State.trigEdge_inv | apply State.Inv.ite

theorem execTiuEvent_inv (k : Fin 4) {s : State} (h : s.Inv) : ∀ t, execTiuEvent k s = .next t → t.Inv := by
  unfold execTiuEvent
  intro t e
  refine State.Inv.ofNext ?_ e
  with_reducible repeat' first | assumption | apply State.tiuHandle_inv | apply State.modTiu_inv | split

theorem execTiuDone_inv (k : Fin 4) {s : State} (h : s.Inv) : ∀ t, execTiuDone k s = .next t → t.Inv := by
  unfold execTiuDone
  intro t e
  refine State.Inv.ofNext ?_ e
  with_reducible repeat' first
    | assumption | apply State.setReg_inv | apply State.modTiu_inv | apply State.setReg64_inv | apply State.Inv.ite

theorem execMarkerEdge_inv (m : Fin 16) {s : State} (h : s.Inv) : ∀ t, execMarkerEdge m s = .next t → t.Inv := by
  unfold execMarkerEdge
  intro t e
  refine State.Inv.ofNext ?_ e
  with_reducible repeat' first | assumption | apply State.reachEdge_inv | split

end Sys2Proof.Machine
end

