-- ==== Sys2Proof/Laws/InvZwiec.lean ====
section
/-! SUPPORT. The invariant of the block through the sequencers and their instructions. -/

namespace Sys2Proof.Machine

theorem State.unsign_inv {s : State} (code : Nat) (n : Nat) (h : s.Inv) : (State.unsign s code n).Inv := by
  unfold State.unsign
  with_reducible repeat' first | assumption | apply State.setBit_inv | apply State.Inv.ite

theorem State.decArrive_inv {s : State} (n : Nat) (h : s.Inv) : (State.decArrive s n).Inv := by
  unfold State.decArrive
  with_reducible repeat' first
    | assumption | intro _ | apply State.modSeq_inv | apply State.applyPost_inv | apply State.jugPend_inv | apply State.Inv.foldl
    | apply State.Inv.ite

theorem State.jugStart_inv {s : State} (n : Nat) (h : s.Inv) : (State.jugStart s n).Inv := by
  unfold State.jugStart
  with_reducible repeat' first
    | assumption | intro _ | apply State.modJug_inv | apply State.setReg_inv | apply State.Inv.foldl
    | with_unfolding_all (show Jug.Sized _; exact ‹Jug.Sized _›)

theorem State.ownWindow_inv {s : State} (n : Nat) (h : s.Inv) : (State.ownWindow s n).Inv := by
  unfold State.ownWindow
  split
  · refine modMemu_inv (fun m => { m with borrow := m.borrow.map fun w =>
      if w.code ≤ 8 ∧ w.inst = n then { w with hit := some (s.beat - 2) } else w }) rfl h
  · exact h

theorem State.zeroLane_inv {s : State} (n : Nat) (l : Nat) (S : Nat) (h : s.Inv) : (State.zeroLane s n l S).Inv := by
  unfold State.zeroLane
  with_reducible repeat' first | assumption | apply State.modLane_inv

theorem State.startRing_inv {s : State} (n : Nat) (h : s.Inv) : (State.startRing s n).Inv := by
  unfold State.startRing
  with_reducible repeat' first
    | assumption | intro _ | apply State.ownWindow_inv | apply State.clearDr_inv | apply State.setReg_inv
    | apply State.forBelow_inv | apply State.setReg64_inv | apply State.modSeq_inv | apply State.modVoice_inv
    | apply State.zeroLane_inv | apply State.biasSample_inv | apply State.jugStart_inv | apply State.Inv.foldl
    | apply State.Inv.ite

theorem State.armRing_inv {s : State} (n : Nat) (h : s.Inv) : (State.armRing s n).Inv := by
  unfold State.armRing
  with_reducible repeat' first | assumption | apply State.modSeq_inv | apply State.ownWindow_inv

theorem State.disarmRing_inv {s : State} (n : Nat) (h : s.Inv) : (State.disarmRing s n).Inv := by
  unfold State.disarmRing
  with_reducible repeat' first | assumption | apply State.modSeq_inv

theorem State.resumeRing_inv {s : State} (n : Nat) (h : s.Inv) : (State.resumeRing s n).Inv := by
  unfold State.resumeRing
  with_reducible repeat' first
    | assumption | apply State.modSeq_inv | apply State.setReg64_inv | apply State.ownWindow_inv | split

theorem State.endShotRecords_inv {s : State} (n : Nat) (h : s.Inv) : (State.endShotRecords s n).Inv := by
  unfold State.endShotRecords
  with_reducible repeat' first | assumption | apply State.flagWins_inv | apply State.releaseHeld_inv

theorem State.setRsc_inv {s : State} (n : Nat) (cp : Nat) (arg : Nat) (h : s.Inv) : (State.setRsc s n cp arg).Inv := by
  unfold State.setRsc
  with_reducible repeat' first | assumption | apply State.setReg_inv

theorem State.enterHalted_inv {s : State} (n : Nat) (h : s.Inv) : (State.enterHalted s n).Inv := by
  unfold State.enterHalted
  with_reducible repeat' first | assumption | apply State.jugPend_inv | apply State.endShotRecords_inv | apply State.modSeq_inv

theorem State.takeHalt_inv {s : State} (n : Nat) (h : s.Inv) : (State.takeHalt s n).Inv := by
  unfold State.takeHalt
  with_reducible repeat' first
    | assumption | apply State.haltVoices_inv | apply State.setRsc_inv | apply State.enterHalted_inv | apply State.modSeq_inv

theorem State.requestHalt_inv {s : State} (n : Nat) (h : s.Inv) : (State.requestHalt s n).Inv := by
  unfold State.requestHalt
  with_reducible repeat' first | assumption | apply State.modSeq_inv | apply State.takeHalt_inv | apply State.Inv.ite

theorem State.abortRsc_inv {s : State} (n : Nat) (h : s.Inv) : (State.abortRsc s n).Inv := by
  unfold State.abortRsc
  with_reducible repeat' first | assumption | apply State.setRsc_inv

theorem State.offerAbort_inv {s : State} (n : Nat) (cause : Nat) (h : s.Inv) : (State.offerAbort s n cause).Inv := by
  unfold State.offerAbort
  with_reducible repeat' first | assumption | apply State.Inv.ite | split | fail_if_no_progress (refine State.Inv.upd ?_ rfl)

theorem State.acceptAbort_inv {s : State} (n : Nat) (src : Nat) (h : s.Inv) : (State.acceptAbort s n src).Inv := by
  unfold State.acceptAbort
  with_reducible repeat' first
    | assumption | intro _ | apply State.setRsc_inv | apply State.abortRsc_inv | apply State.setReg_inv
    | apply State.raiseFlag_inv | apply State.modSeq_inv | apply State.abortWins_inv | apply State.voidHostFades_inv
    | apply State.forBelow_inv | apply State.closeWin_inv | apply State.biasStop_inv | apply State.jugPend_inv
    | apply State.offerAbort_inv | apply State.Inv.ite | split

theorem State.requestAbort_inv {s : State} (n : Nat) (src : Nat) (h : s.Inv) : (State.requestAbort s n src).Inv := by
  unfold State.requestAbort
  with_reducible repeat' first
    | assumption | apply State.acceptAbort_inv | apply State.modSeq_inv | apply State.disarmRing_inv | apply State.Inv.ite | split

theorem State.seqCmdDo_inv {s : State} (n : Nat) (v : Word) (h : s.Inv) : (State.seqCmdDo s n v).Inv := by
  unfold State.seqCmdDo
  with_reducible repeat' first
    | assumption | apply State.startRing_inv | apply State.resumeRing_inv | apply State.requestHalt_inv
    | apply State.requestAbort_inv | apply State.modSeq_inv | apply State.armRing_inv | apply State.disarmRing_inv
    | apply State.Inv.ite

theorem State.boundary_inv {s : State} (n : Nat) (h : s.Inv) : (State.boundary s n).Inv := by
  unfold State.boundary
  with_reducible repeat' first
    | assumption | intro _ | apply State.modSeq_inv | apply State.takeHalt_inv | apply State.offerFades_inv
    | apply State.endShotRecords_inv | apply State.raiseIf_inv | apply State.forBelow_inv | apply State.Inv.ite

theorem State.evalPauses_inv {s : State} (n : Nat) (h : s.Inv) : (State.evalPauses s n).2.Inv := by
  unfold State.evalPauses
  with_reducible repeat' first
    | assumption | intro _ | apply State.raiseIf_inv | apply State.forBelow_inv | apply State.modSeq_inv

theorem State.pauseBeat_inv {s : State} (n : Nat) (h : s.Inv) : (State.pauseBeat s n).Inv := by
  unfold State.pauseBeat
  with_reducible repeat' first | assumption | apply State.raiseIf_inv | apply State.modSeq_inv

theorem State.goTo_inv {s : State} (n : Nat) (pc : Nat) (k : Nat) (h : s.Inv) : (State.goTo s n pc k).Inv := by
  unfold State.goTo
  with_reducible repeat' first | assumption | apply State.modSeq_inv | apply State.setReg_inv

theorem State.goNext_inv {s : State} (n : Nat) (h : s.Inv) : (State.goNext s n).Inv := by
  unfold State.goNext
  with_reducible repeat' first | assumption | apply State.goTo_inv

theorem State.pushCall_inv {s : State} (n : Nat) (a : Nat) (h : s.Inv) : (State.pushCall s n a).Inv := by
  unfold State.pushCall
  with_reducible repeat' first | assumption | apply State.setFld_inv | apply State.setReg_inv

theorem State.shotStart_inv {s : State} (n : Nat) (h : s.Inv) : (State.shotStart s n).Inv := by
  unfold State.shotStart
  with_reducible repeat' first
    | assumption | intro _ | apply State.clearValid_inv | apply State.addReg_inv | apply State.setReg_inv | apply State.modSeq_inv
    | apply State.jugPend_inv | apply State.forBelow_inv | apply State.biasSample_inv | apply State.goTo_inv
    | apply State.raiseFlag_inv | apply State.pushCall_inv | apply State.Inv.ite

theorem State.machineCheck_inv {s : State} (n : Nat) (upc : BitVec 12) (h : s.Inv) : (State.machineCheck s n upc).Inv := by
  unfold State.machineCheck
  with_reducible repeat' first
    | assumption | apply State.setReg_inv | apply State.modSeq_inv | apply State.setRsc_inv | apply State.acceptAbort_inv
    | apply State.raiseEvent_inv | apply State.Inv.ite

theorem State.microBeat_inv {s : State} (n : Nat) (h : s.Inv) : (State.microBeat s n).Inv := by
  unfold State.microBeat
  with_reducible repeat' first
    | assumption | apply State.raiseEvent_inv | apply State.raiseFlag_inv | apply State.machineCheck_inv | apply State.Inv.ite

theorem State.microLate_inv {s : State} (n : Nat) (h : s.Inv) : (State.microLate s n).Inv := by
  unfold State.microLate
  with_reducible repeat' first | assumption | apply State.machineCheck_inv | apply State.Inv.ite

theorem State.microStep_inv {s : State} (n : Nat) (h : s.Inv) : (State.microStep s n).Inv := by
  unfold State.microStep
  with_reducible repeat' first | assumption | apply State.setReg_inv | apply State.Inv.ite

theorem execAbortAccept_inv (n : RingId) {s : State} (h : s.Inv) : ∀ t, execAbortAccept n s = .next t → t.Inv := by
  unfold execAbortAccept
  intro t e
  refine State.Inv.ofNext ?_ e
  with_reducible repeat' first | assumption | apply State.acceptAbort_inv | apply State.Inv.ite | split

theorem execAbortRampEnd_inv (n : RingId) {s : State} (h : s.Inv) : ∀ t, execAbortRampEnd n s = .next t → t.Inv := by
  unfold execAbortRampEnd
  intro t e
  refine State.Inv.ofNext ?_ e
  with_reducible repeat' first
    | assumption | apply State.endShotRecords_inv | apply State.modSeq_inv | apply State.stopVoices_inv | apply State.Inv.ite
    | split

theorem execMachineCheck_inv (n : RingId) (upc : BitVec 12) {s : State} (h : s.Inv) :
    ∀ t, execMachineCheck n upc s = .next t → t.Inv := by
  unfold execMachineCheck
  intro t e
  refine State.Inv.ofNext ?_ e
  with_reducible repeat' first | assumption | apply State.machineCheck_inv

theorem execHaltComplete_inv (n : RingId) {s : State} (h : s.Inv) : ∀ t, execHaltComplete n s = .next t → t.Inv := by
  unfold execHaltComplete
  intro t e
  refine State.Inv.ofNext ?_ e
  with_reducible repeat' first
    | assumption | apply State.haltVoices_inv | apply State.enterHalted_inv | apply State.goNext_inv | apply State.Inv.ite

theorem execShotBoundary_inv (n : RingId) {s : State} (h : s.Inv) : ∀ t, execShotBoundary n s = .next t → t.Inv := by
  unfold execShotBoundary
  intro t e
  refine State.Inv.ofNext ?_ e
  with_reducible repeat' first | assumption | apply State.modSeq_inv | apply State.boundary_inv | apply State.Inv.ite | split

theorem execShotStart_inv (n : RingId) {s : State} (h : s.Inv) : ∀ t, execShotStart n s = .next t → t.Inv := by
  unfold execShotStart
  intro t e
  refine State.Inv.ofNext ?_ e
  with_reducible repeat' first
    | assumption | apply State.takeHalt_inv | apply State.evalPauses_inv | apply State.pauseBeat_inv | apply State.shotStart_inv
    | apply State.Inv.ite

theorem State.setZReg_inv {s : State} (n : Nat) (i : Nat) (v : Word) (h : s.Inv) : (State.setZReg s n i v).Inv := by
  unfold State.setZReg
  with_reducible repeat' first | assumption | apply State.setReg_inv | apply State.Inv.ite

theorem State.setCond_inv {s : State} (n : Nat) (c : Cond) (h : s.Inv) : (State.setCond s n c).Inv := by
  unfold State.setCond
  with_reducible repeat' first | assumption | apply State.setFld_inv

theorem State.condGo_inv {s : State} (n : Nat) (c : BitVec 16) (h : s.Inv) : (State.condGo s n c).Inv := by
  unfold State.condGo
  with_reducible repeat' first | assumption | apply State.clearLatch_inv | apply State.Inv.ite

theorem State.hold_inv {s : State} (n : Nat) (h0 : Wait) (h : s.Inv) : (State.hold s n h0).Inv := by
  unfold State.hold
  with_reducible repeat' first | assumption | apply State.modSeq_inv

theorem State.refNow_inv {s : State} (n : Nat) (h : s.Inv) : (State.refNow s n).Inv := by
  unfold State.refNow
  with_reducible repeat' first | assumption | apply State.modSeq_inv

theorem State.zGate_inv {s : State} (n : Nat) (w : BitVec 64) (h : s.Inv) : (State.zGate s n w).2.Inv := by
  unfold State.zGate
  dsimp only
  with_reducible repeat' first
    | assumption | apply State.refNow_inv | apply State.condGo_inv | apply State.hold_inv | apply State.markLate_inv
    | apply State.Inv.ite | split

theorem State.zIll_inv {s : State} (n : Nat) (h : s.Inv) : (State.zIll s n).Inv := by
  unfold State.zIll
  with_reducible repeat' first
    | assumption | apply State.goNext_inv | apply State.setReg_inv | apply State.raiseFlag_inv | apply State.setBit_inv

theorem State.actEvt_inv {s : State} (n : Nat) (w : BitVec 64) (h : s.Inv) : (State.actEvt s n w).Inv := by
  unfold State.actEvt
  with_reducible repeat' first
    | assumption | apply State.raiseFlag_inv | apply State.setReg_inv | apply State.jugPend_inv | apply State.Inv.ite

theorem State.actOne_inv {s : State} (n : Nat) (w : BitVec 64) (v1 : Word) (v2 : Word) (h : s.Inv) :
    (State.actOne s n w v1 v2).Inv := by
  unfold State.actOne
  with_reducible repeat' first
    | assumption | apply State.actPlay_inv | apply State.actPlays_inv | apply State.actStop_inv | apply State.actFrq_inv
    | apply State.actPhs_inv | apply State.actPhset_inv | apply State.actAmp_inv | apply State.actAcq_inv | apply State.actKer_inv
    | apply State.actBias_inv | apply State.actMark_inv | apply State.actTset_inv | apply State.actFade_inv
    | apply State.actSend_inv | apply State.actEvt_inv | split

theorem State.releaseTaq_inv {s : State} (n : Nat) (h : s.Inv) : (State.releaseTaq s n).Inv := by
  unfold State.releaseTaq
  with_reducible repeat' first
    | assumption | intro _ | apply State.modSeq_inv | apply State.actOne_inv | apply State.setGot_inv | apply State.markLate_inv
    | apply State.Inv.foldl | apply State.Inv.ite

theorem State.zEnqueue_inv {s : State} (n : Nat) (w : BitVec 64) (h : s.Inv) : (State.zEnqueue s n w).Inv := by
  unfold State.zEnqueue
  with_reducible repeat' first
    | assumption | apply State.markLate_inv | apply State.modSeq_inv | apply State.releaseTaq_inv | apply State.goNext_inv
    | apply State.zIll_inv | apply State.Inv.ite

theorem State.clearTo_inv {s : State} (n : Nat) (w : BitVec 64) (h : s.Inv) : (State.clearTo s n w).Inv := by
  unfold State.clearTo
  with_reducible repeat' first | assumption | apply State.setBit_inv | apply State.Inv.ite

theorem State.caseFetch_inv {s : State} (n : Nat) (w : BitVec 64) (h : s.Inv) : (State.caseFetch s n w).Inv := by
  unfold State.caseFetch
  dsimp only
  with_reducible repeat' first
    | assumption | apply State.fetchDesc_inv | apply State.rtRead_inv | apply State.modSeq_inv | apply State.Inv.ite

theorem State.caseCommit_inv {s : State} (n v : Nat) (got : Option CaseGot) (h : s.Inv) : (State.caseCommit s n v got).Inv :=
  State.modSeq_inv _ _ h

theorem State.decTry_inv {s : State} (n : Nat) (w : BitVec 64) (h : s.Inv) : ∀ t, State.decTry s n w = some t → t.Inv := by
  intro t e
  unfold State.decTry at e
  split at e
  · obtain ⟨r, _, rfl⟩ := Option.map_eq_some_iff.1 e
    exact goNext_inv _ (clearTo_inv _ _ (Inv.ite (setReg_inv _ _ h) (consume_inv _ _ _ _ (setReg_inv _ _ h))))
  · obtain ⟨r, _, rfl⟩ := Option.map_eq_some_iff.1 e
    exact caseCommit_inv _ _ _ (goTo_inv _ _ _ (clearTo_inv _ _ (consume_inv _ _ _ _ h)))

theorem State.decGo_inv {s : State} (n : Nat) (h : s.Inv) : (State.decGo s n).Inv := by
  unfold State.decGo
  with_reducible repeat' first
    | assumption | intro _ | refine State.decTry_inv _ _ ?_ _ (by assumption) | apply State.caseFetch_inv | apply State.Inv.getD
    | apply State.Inv.ite | split

theorem State.waitcTry_inv {s : State} (n : Nat) (w : BitVec 64) (h : s.Inv) : ∀ t, State.waitcTry s n w = some t → t.Inv := by
  unfold State.waitcTry
  intro t e
  try dsimp only at e
  repeat' split at e
  all_goals cases e
  with_reducible repeat' first | assumption | apply State.goNext_inv | apply State.clearTo_inv | apply State.condGo_inv

theorem State.branch_inv {s : State} (n : Nat) (target : Nat) (h : s.Inv) : (State.branch s n target).Inv := by
  unfold State.branch
  with_reducible repeat' first | assumption | apply State.goTo_inv

theorem State.zArith_inv {s : State} (n : Nat) (w : BitVec 64) (h : s.Inv) : (State.zArith s n w).Inv := by
  unfold State.zArith
  with_reducible repeat' first
    | assumption | apply State.setZReg_inv | apply State.goNext_inv | apply State.setCond_inv | apply State.Inv.ite

theorem State.serveLd_inv {s : State} (n : Nat) (h : s.Inv) : (State.serveLd s n).Inv := by
  unfold State.serveLd
  with_reducible repeat' first
    | assumption | apply State.touch_inv | apply State.modMemu_inv | apply State.modSeq_inv | apply State.store_inv
    | apply State.eccRead_inv | apply State.Inv.ite | rfl | split

theorem State.zMem_inv {s : State} (n : Nat) (w : BitVec 64) (h : s.Inv) : (State.zMem s n w).Inv := by
  unfold State.zMem
  with_reducible repeat' first | assumption | apply State.serveLd_inv | apply State.goNext_inv | apply State.modSeq_inv

theorem State.zWait_inv {s : State} (n : Nat) (w : BitVec 64) (h : s.Inv) : (State.zWait s n w).Inv := by
  unfold State.zWait
  with_reducible repeat' first | assumption | apply State.hold_inv

theorem State.zShot_inv {s : State} (n : Nat) (h : s.Inv) : (State.zShot s n).Inv := by
  unfold State.zShot
  with_reducible repeat' first | assumption | apply State.hold_inv

theorem State.zSync_inv {s : State} (n : Nat) (w : BitVec 64) (h : s.Inv) : (State.zSync s n w).Inv := by
  unfold State.zSync
  with_reducible repeat' first
    | assumption | intro _ | apply State.hold_inv | apply State.forRings_inv | apply State.modSeq_inv | apply State.Inv.ite

theorem State.zXsync_inv {s : State} (n : Nat) (w : BitVec 64) (h : s.Inv) : (State.zXsync s n w).Inv := by
  unfold State.zXsync
  with_reducible repeat' first | assumption | apply State.hold_inv

theorem State.popCall_inv {s : State} (n : Nat) (h : s.Inv) : (State.popCall s n).2.Inv := by
  unfold State.popCall
  with_reducible repeat' first | assumption | apply State.setFld_inv | apply State.setReg_inv

theorem State.zLoop_inv {s : State} (n : Nat) (w : BitVec 64) (h : s.Inv) : (State.zLoop s n w).Inv := by
  unfold State.zLoop
  with_reducible repeat' first
    | assumption | apply State.setReg_inv | apply State.branch_inv | apply State.goNext_inv | apply State.Inv.ite

theorem State.zEndl_inv {s : State} (n : Nat) (w : BitVec 64) (h : s.Inv) : (State.zEndl s n w).Inv := by
  unfold State.zEndl
  with_reducible repeat' first
    | assumption | apply State.branch_inv | apply State.setReg_inv | apply State.goNext_inv | apply State.Inv.ite

theorem State.zControl_inv {s : State} (n : Nat) (w : BitVec 64) (h : s.Inv) : (State.zControl s n w).Inv := by
  unfold State.zControl
  with_reducible repeat' first
    | assumption | intro _ | apply State.hold_inv | apply State.zShot_inv | apply State.zWait_inv
    | refine State.waitcTry_inv _ _ ?_ _ (by assumption) | apply State.zSync_inv | apply State.zXsync_inv | apply State.branch_inv
    | apply State.goNext_inv | apply State.pushCall_inv | apply State.popCall_inv | apply State.zLoop_inv | apply State.zEndl_inv
    | refine State.decTry_inv _ _ ?_ _ (by assumption) | apply State.caseFetch_inv | apply State.modSeq_inv
    | apply State.setZReg_inv | apply State.zMem_inv | apply State.zArith_inv | apply State.Inv.getD | apply State.Inv.ite | split

theorem State.zBody_inv {s : State} (n : Nat) (w : BitVec 64) (h : s.Inv) : (State.zBody s n w).Inv := by
  unfold State.zBody
  with_reducible repeat' first
    | assumption | apply State.zIll_inv | apply State.actOne_inv | apply State.setGot_inv | apply State.goNext_inv
    | apply State.zControl_inv
    | apply State.Inv.ite

theorem State.zGoOn_inv {s : State} (n : Nat) (h : s.Inv) : (State.zGoOn s n).Inv := by
  unfold State.zGoOn
  with_reducible repeat' first | assumption | apply State.zBody_inv

theorem State.zReenter_inv {s : State} (n : Nat) (h : s.Inv) : (State.zReenter s n).Inv := by
  unfold State.zReenter
  with_reducible repeat' first | assumption | apply State.modSeq_inv | apply State.hold_inv | apply State.Inv.ite

theorem State.zIssue_inv {s : State} (n : Nat) (h : s.Inv) : (State.zIssue s n).Inv := by
  have hd : (if (s.seq n).caseUse.isSome then (0, s) else s.touch (s.zAddr n)).2.Inv := by
    split
    · exact h
    · exact State.touch_inv _ h
  unfold State.zIssue
  with_reducible repeat' first
    | assumption | apply State.modSeq_inv | apply State.eccRead_inv | apply State.zIll_inv
    | apply State.zReenter_inv | apply State.hold_inv | apply State.zEnqueue_inv | apply State.zGate_inv | apply State.zBody_inv
    | apply State.Inv.ite

theorem State.zRow_inv {s : State} (n : Nat) (op : Nat) (h : s.Inv) : (State.zRow s n op).Inv := by
  unfold State.zRow
  with_reducible repeat' first | assumption | apply State.zIssue_inv | apply State.Inv.ite

theorem State.condMet_inv {s : State} (n : Nat) (h : s.Inv) : (State.condMet s n).Inv := by
  unfold State.condMet
  with_reducible repeat' first
    | assumption | intro _ | apply State.zGoOn_inv | apply State.hold_inv | apply State.refNow_inv | apply State.condGo_inv
    | refine State.waitcTry_inv _ _ ?_ _ (by assumption) | apply State.Inv.getD | split

theorem execIllegalInstruction_inv (n : RingId) {s : State} (h : s.Inv) :
    ∀ t, execIllegalInstruction n s = .next t → t.Inv := by
  unfold execIllegalInstruction
  intro t e
  refine State.Inv.ofNext ?_ e
  with_reducible repeat' first | assumption | apply State.zIssue_inv | apply State.Inv.ite

theorem execNop_inv (n : RingId) {s : State} (h : s.Inv) : ∀ t, execNop n s = .next t → t.Inv := by
  unfold execNop
  intro t e
  refine State.Inv.ofNext ?_ e
  with_reducible repeat' first | assumption | apply State.zRow_inv

theorem execHalt_inv (n : RingId) {s : State} (h : s.Inv) : ∀ t, execHalt n s = .next t → t.Inv := by
  unfold execHalt
  intro t e
  refine State.Inv.ofNext ?_ e
  with_reducible repeat' first | assumption | apply State.zRow_inv

theorem execShot_inv (n : RingId) {s : State} (h : s.Inv) : ∀ t, execShot n s = .next t → t.Inv := by
  unfold execShot
  intro t e
  refine State.Inv.ofNext ?_ e
  with_reducible repeat' first | assumption | apply State.zRow_inv

theorem execWait_inv (n : RingId) {s : State} (h : s.Inv) : ∀ t, execWait n s = .next t → t.Inv := by
  unfold execWait
  intro t e
  refine State.Inv.ofNext ?_ e
  with_reducible repeat' first | assumption | apply State.zRow_inv

theorem execWaitc_inv (n : RingId) {s : State} (h : s.Inv) : ∀ t, execWaitc n s = .next t → t.Inv := by
  unfold execWaitc
  intro t e
  refine State.Inv.ofNext ?_ e
  with_reducible repeat' first | assumption | apply State.zRow_inv

theorem execSync_inv (n : RingId) {s : State} (h : s.Inv) : ∀ t, execSync n s = .next t → t.Inv := by
  unfold execSync
  intro t e
  refine State.Inv.ofNext ?_ e
  with_reducible repeat' first | assumption | apply State.zRow_inv

theorem execXsync_inv (n : RingId) {s : State} (h : s.Inv) : ∀ t, execXsync n s = .next t → t.Inv := by
  unfold execXsync
  intro t e
  refine State.Inv.ofNext ?_ e
  with_reducible repeat' first | assumption | apply State.zRow_inv

theorem execBr_inv (n : RingId) {s : State} (h : s.Inv) : ∀ t, execBr n s = .next t → t.Inv := by
  unfold execBr
  intro t e
  refine State.Inv.ofNext ?_ e
  with_reducible repeat' first | assumption | apply State.zRow_inv

theorem execCall_inv (n : RingId) {s : State} (h : s.Inv) : ∀ t, execCall n s = .next t → t.Inv := by
  unfold execCall
  intro t e
  refine State.Inv.ofNext ?_ e
  with_reducible repeat' first | assumption | apply State.zRow_inv

theorem execRet_inv (n : RingId) {s : State} (h : s.Inv) : ∀ t, execRet n s = .next t → t.Inv := by
  unfold execRet
  intro t e
  refine State.Inv.ofNext ?_ e
  with_reducible repeat' first | assumption | apply State.zRow_inv

theorem execLoop_inv (n : RingId) {s : State} (h : s.Inv) : ∀ t, execLoop n s = .next t → t.Inv := by
  unfold execLoop
  intro t e
  refine State.Inv.ofNext ?_ e
  with_reducible repeat' first | assumption | apply State.zRow_inv

theorem execEndl_inv (n : RingId) {s : State} (h : s.Inv) : ∀ t, execEndl n s = .next t → t.Inv := by
  unfold execEndl
  intro t e
  refine State.Inv.ofNext ?_ e
  with_reducible repeat' first | assumption | apply State.zRow_inv

theorem execCaseOp_inv (n : RingId) {s : State} (h : s.Inv) : ∀ t, execCaseOp n s = .next t → t.Inv := by
  unfold execCaseOp
  intro t e
  refine State.Inv.ofNext ?_ e
  with_reducible repeat' first | assumption | apply State.zRow_inv

theorem execDec_inv (n : RingId) {s : State} (h : s.Inv) : ∀ t, execDec n s = .next t → t.Inv := by
  unfold execDec
  intro t e
  refine State.Inv.ofNext ?_ e
  with_reducible repeat' first | assumption | apply State.zRow_inv

theorem execLdi_inv (n : RingId) {s : State} (h : s.Inv) : ∀ t, execLdi n s = .next t → t.Inv := by
  unfold execLdi
  intro t e
  refine State.Inv.ofNext ?_ e
  with_reducible repeat' first | assumption | apply State.zRow_inv

theorem execLd_inv (n : RingId) {s : State} (h : s.Inv) : ∀ t, execLd n s = .next t → t.Inv := by
  unfold execLd
  intro t e
  refine State.Inv.ofNext ?_ e
  with_reducible repeat' first | assumption | apply State.zRow_inv

theorem execSt_inv (n : RingId) {s : State} (h : s.Inv) : ∀ t, execSt n s = .next t → t.Inv := by
  unfold execSt
  intro t e
  refine State.Inv.ofNext ?_ e
  with_reducible repeat' first | assumption | apply State.zRow_inv

theorem execAdd_inv (n : RingId) {s : State} (h : s.Inv) : ∀ t, execAdd n s = .next t → t.Inv := by
  unfold execAdd
  intro t e
  refine State.Inv.ofNext ?_ e
  with_reducible repeat' first | assumption | apply State.zRow_inv

theorem execSub_inv (n : RingId) {s : State} (h : s.Inv) : ∀ t, execSub n s = .next t → t.Inv := by
  unfold execSub
  intro t e
  refine State.Inv.ofNext ?_ e
  with_reducible repeat' first | assumption | apply State.zRow_inv

theorem execAnd_inv (n : RingId) {s : State} (h : s.Inv) : ∀ t, execAnd n s = .next t → t.Inv := by
  unfold execAnd
  intro t e
  refine State.Inv.ofNext ?_ e
  with_reducible repeat' first | assumption | apply State.zRow_inv

theorem execOr_inv (n : RingId) {s : State} (h : s.Inv) : ∀ t, execOr n s = .next t → t.Inv := by
  unfold execOr
  intro t e
  refine State.Inv.ofNext ?_ e
  with_reducible repeat' first | assumption | apply State.zRow_inv

theorem execXor_inv (n : RingId) {s : State} (h : s.Inv) : ∀ t, execXor n s = .next t → t.Inv := by
  unfold execXor
  intro t e
  refine State.Inv.ofNext ?_ e
  with_reducible repeat' first | assumption | apply State.zRow_inv

theorem execShl_inv (n : RingId) {s : State} (h : s.Inv) : ∀ t, execShl n s = .next t → t.Inv := by
  unfold execShl
  intro t e
  refine State.Inv.ofNext ?_ e
  with_reducible repeat' first | assumption | apply State.zRow_inv

theorem execShr_inv (n : RingId) {s : State} (h : s.Inv) : ∀ t, execShr n s = .next t → t.Inv := by
  unfold execShr
  intro t e
  refine State.Inv.ofNext ?_ e
  with_reducible repeat' first | assumption | apply State.zRow_inv

theorem execCmp_inv (n : RingId) {s : State} (h : s.Inv) : ∀ t, execCmp n s = .next t → t.Inv := by
  unfold execCmp
  intro t e
  refine State.Inv.ofNext ?_ e
  with_reducible repeat' first | assumption | apply State.zRow_inv

theorem execPlay_inv (n : RingId) {s : State} (h : s.Inv) : ∀ t, execPlay n s = .next t → t.Inv := by
  unfold execPlay
  intro t e
  refine State.Inv.ofNext ?_ e
  with_reducible repeat' first | assumption | apply State.zRow_inv

theorem execPlays_inv (n : RingId) {s : State} (h : s.Inv) : ∀ t, execPlays n s = .next t → t.Inv := by
  unfold execPlays
  intro t e
  refine State.Inv.ofNext ?_ e
  with_reducible repeat' first | assumption | apply State.zRow_inv

theorem execStop_inv (n : RingId) {s : State} (h : s.Inv) : ∀ t, execStop n s = .next t → t.Inv := by
  unfold execStop
  intro t e
  refine State.Inv.ofNext ?_ e
  with_reducible repeat' first | assumption | apply State.zRow_inv

theorem execFrq_inv (n : RingId) {s : State} (h : s.Inv) : ∀ t, execFrq n s = .next t → t.Inv := by
  unfold execFrq
  intro t e
  refine State.Inv.ofNext ?_ e
  with_reducible repeat' first | assumption | apply State.zRow_inv

theorem execPhs_inv (n : RingId) {s : State} (h : s.Inv) : ∀ t, execPhs n s = .next t → t.Inv := by
  unfold execPhs
  intro t e
  refine State.Inv.ofNext ?_ e
  with_reducible repeat' first | assumption | apply State.zRow_inv

theorem execPhset_inv (n : RingId) {s : State} (h : s.Inv) : ∀ t, execPhset n s = .next t → t.Inv := by
  unfold execPhset
  intro t e
  refine State.Inv.ofNext ?_ e
  with_reducible repeat' first | assumption | apply State.zRow_inv

theorem execAmp_inv (n : RingId) {s : State} (h : s.Inv) : ∀ t, execAmp n s = .next t → t.Inv := by
  unfold execAmp
  intro t e
  refine State.Inv.ofNext ?_ e
  with_reducible repeat' first | assumption | apply State.zRow_inv

theorem execAcq_inv (n : RingId) {s : State} (h : s.Inv) : ∀ t, execAcq n s = .next t → t.Inv := by
  unfold execAcq
  intro t e
  refine State.Inv.ofNext ?_ e
  with_reducible repeat' first | assumption | apply State.zRow_inv

theorem execKer_inv (n : RingId) {s : State} (h : s.Inv) : ∀ t, execKer n s = .next t → t.Inv := by
  unfold execKer
  intro t e
  refine State.Inv.ofNext ?_ e
  with_reducible repeat' first | assumption | apply State.zRow_inv

theorem execBias_inv (n : RingId) {s : State} (h : s.Inv) : ∀ t, execBias n s = .next t → t.Inv := by
  unfold execBias
  intro t e
  refine State.Inv.ofNext ?_ e
  with_reducible repeat' first | assumption | apply State.zRow_inv

theorem execMark_inv (n : RingId) {s : State} (h : s.Inv) : ∀ t, execMark n s = .next t → t.Inv := by
  unfold execMark
  intro t e
  refine State.Inv.ofNext ?_ e
  with_reducible repeat' first | assumption | apply State.zRow_inv

theorem execTset_inv (n : RingId) {s : State} (h : s.Inv) : ∀ t, execTset n s = .next t → t.Inv := by
  unfold execTset
  intro t e
  refine State.Inv.ofNext ?_ e
  with_reducible repeat' first | assumption | apply State.zRow_inv

theorem execFade_inv (n : RingId) {s : State} (h : s.Inv) : ∀ t, execFade n s = .next t → t.Inv := by
  unfold execFade
  intro t e
  refine State.Inv.ofNext ?_ e
  with_reducible repeat' first | assumption | apply State.zRow_inv

theorem execSend_inv (n : RingId) {s : State} (h : s.Inv) : ∀ t, execSend n s = .next t → t.Inv := by
  unfold execSend
  intro t e
  refine State.Inv.ofNext ?_ e
  with_reducible repeat' first | assumption | apply State.zRow_inv

theorem execEvt_inv (n : RingId) {s : State} (h : s.Inv) : ∀ t, execEvt n s = .next t → t.Inv := by
  unfold execEvt
  intro t e
  refine State.Inv.ofNext ?_ e
  with_reducible repeat' first | assumption | apply State.zRow_inv

theorem execActionRelease_inv (n : RingId) {s : State} (h : s.Inv) : ∀ t, execActionRelease n s = .next t → t.Inv := by
  unfold execActionRelease
  intro t e
  refine State.Inv.ofNext ?_ e
  with_reducible repeat' first | assumption | apply State.releaseTaq_inv | apply State.Inv.ite

theorem execTimingHoldEnd_inv (n : RingId) {s : State} (h : s.Inv) : ∀ t, execTimingHoldEnd n s = .next t → t.Inv := by
  unfold execTimingHoldEnd
  intro t e
  refine State.Inv.ofNext ?_ e
  with_reducible repeat' first
    | assumption | apply State.zGoOn_inv | apply State.hold_inv | apply State.refNow_inv | apply State.Inv.ite | split

theorem execWaitEnd_inv (n : RingId) {s : State} (h : s.Inv) : ∀ t, execWaitEnd n s = .next t → t.Inv := by
  unfold execWaitEnd
  intro t e
  refine State.Inv.ofNext ?_ e
  with_reducible repeat' first | assumption | apply State.goTo_inv | apply State.Inv.ite | split

theorem execWaitConditionMet_inv (n : RingId) {s : State} (h : s.Inv) : ∀ t, execWaitConditionMet n s = .next t → t.Inv := by
  unfold execWaitConditionMet
  intro t e
  refine State.Inv.ofNext ?_ e
  with_reducible repeat' first | assumption | apply State.condMet_inv | apply State.Inv.ite | split

theorem execDecisionTimeout_inv (n : RingId) {s : State} (h : s.Inv) : ∀ t, execDecisionTimeout n s = .next t → t.Inv := by
  unfold execDecisionTimeout
  intro t e
  refine State.Inv.ofNext ?_ e
  with_reducible repeat' first | assumption | apply State.branch_inv | apply State.setBit_inv | apply State.Inv.ite

theorem execSyncRelease_inv (m : BitVec 12) {s : State} (h : s.Inv) : ∀ t, execSyncRelease m s = .next t → t.Inv := by
  unfold execSyncRelease
  intro t e
  refine State.Inv.ofNext ?_ e
  with_reducible repeat' first
    | assumption | intro _ | apply State.modSeq_inv | apply State.goTo_inv | apply State.refNow_inv | apply State.Inv.foldl

theorem execLdComplete_inv (n : RingId) {s : State} (h : s.Inv) : ∀ t, execLdComplete n s = .next t → t.Inv := by
  unfold execLdComplete
  intro t e
  refine State.Inv.ofNext ?_ e
  with_reducible repeat' first | assumption | apply State.modSeq_inv | apply State.setZReg_inv | apply State.serveLd_inv | split

theorem execDecisionArrive_inv (n : RingId) {s : State} (h : s.Inv) : ∀ t, execDecisionArrive n s = .next t → t.Inv := by
  unfold execDecisionArrive
  intro t e
  refine State.Inv.ofNext ?_ e
  with_reducible repeat' first | assumption | apply State.decGo_inv | apply State.decArrive_inv

end Sys2Proof.Machine
end

