-- ==== Sys2Proof/Laws/InvJuggler.lean ====
section
/-! SUPPORT. The invariant of the block through the Jugglers and their packets. -/

namespace Sys2Proof.Machine

theorem State.setJReg_inv {s : State} (n : Nat) (r : Nat) (v : Word) (h : s.Inv) : (State.setJReg s n r v).Inv := by
  unfold State.setJReg
  with_reducible repeat' first | assumption | apply State.setReg_inv

theorem State.setJAcc_inv {s : State} (n : Nat) (a : Nat) (x : BitVec 72) (h : s.Inv) : (State.setJAcc s n a x).Inv := by
  unfold State.setJAcc
  with_reducible repeat' first | assumption | apply State.setJReg_inv

theorem State.keepLoop_inv {s : State} (n : Nat) (i : Nat) (b : Nat) (h : s.Inv) : (State.keepLoop s n i b).Inv := by
  unfold State.keepLoop
  with_reducible repeat' first
    | assumption | intro _ | apply State.modJug_inv | with_unfolding_all (show Jug.Sized _; exact ‹Jug.Sized _›)

theorem State.jSend_inv {s : State} (n : Nat) (k : Nat) (dst : Nat) (val : BitVec 72) (prog : Bool) (h : s.Inv) :
    (State.jSend s n k dst val prog).Inv := by
  unfold State.jSend
  with_reducible repeat' first
    | assumption | intro _ | apply State.modJug_inv | with_unfolding_all (show Jug.Sized _; exact ‹Jug.Sized _›)

theorem State.jLand_inv {s : State} (n : Nat) (w : JWr) (h : s.Inv) : (State.jLand s n w).Inv := by
  unfold State.jLand
  with_reducible repeat' first
    | assumption | apply State.keepLoop_inv | apply State.setJReg_inv | apply State.setJAcc_inv | apply State.Inv.ite | split

theorem State.jSettle_inv {s : State} (n : Nat) (h : s.Inv) : (State.jSettle s n).Inv := by
  unfold State.jSettle
  with_reducible repeat' first
    | assumption | intro _ | apply State.jLand_inv | apply State.modJug_inv | apply State.Inv.foldl
    | with_unfolding_all (show Jug.Sized _; exact ‹Jug.Sized _›)
    | apply State.Inv.ite

theorem State.inRes_inv {s : State} (n : Nat) (p : Nat) (fine : Bool) (l : Nat) (clr : Bool) (h : s.Inv) :
    (State.inRes s n p fine l clr).2.Inv := by
  unfold State.inRes
  dsimp only
  split
  · exact h
  · split
    · exact modJug_inv _ _ (fun _ h => h) h
    · refine modJug_inv _ _ (fun j h => ?_) h
      split <;> exact h

theorem State.jIn_inv {s : State} (n : Nat) (p : Nat) (clr : Bool) (h : s.Inv) : (State.jIn s n p clr).2.Inv := by
  unfold State.jIn
  split
  · exact inRes_inv _ _ _ _ _ h
  · dsimp only
    split
    · exact h
    · split <;> first | exact h | exact raiseFlag_inv _ _ h

theorem State.jOut_inv {s : State} (n : Nat) (p : Nat) (v : Word) (h : s.Inv) : (State.jOut s n p v).Inv := by
  unfold State.jOut
  with_reducible repeat' first
    | assumption | intro _ | apply State.modJug_inv | apply State.raiseFlag_inv
    | with_unfolding_all (show Jug.Sized _; exact ‹Jug.Sized _›)
    | apply State.Inv.ite

theorem State.outAct_inv {s : State} (n : Nat) (p : Nat) (v : Word) (h : s.Inv) : (State.outAct s n p v).Inv := by
  unfold State.outAct
  with_reducible repeat' first
    | assumption | intro _ | apply State.annotate_inv | apply State.modJug_inv | apply State.setReg_inv
    | with_unfolding_all (show Jug.Sized _; exact ‹Jug.Sized _›)
    | apply State.Inv.ite | split

theorem State.jugOuts_inv {s : State} (n : Nat) (ann : Bool) (h : s.Inv) : (State.jugOuts s n ann).Inv := by
  unfold State.jugOuts
  with_reducible repeat' first
    | assumption | intro _ | apply State.outAct_inv | apply State.modJug_inv | apply State.Inv.foldl
    | with_unfolding_all (show Jug.Sized _; exact ‹Jug.Sized _›)
    | apply State.Inv.ite

theorem State.jEnter_inv {s : State} (n : Nat) (src : Nat) (h : s.Inv) : (State.jEnter s n src).Inv := by
  unfold State.jEnter
  with_reducible repeat' first
    | assumption | intro _ | apply State.modJug_inv | apply State.setJReg_inv
    | with_unfolding_all (show Jug.Sized _; exact ‹Jug.Sized _›)

theorem State.jRestore_inv {s : State} (n : Nat) (h : s.Inv) : (State.jRestore s n).Inv := by
  unfold State.jRestore
  with_reducible repeat' first
    | assumption | intro _ | apply State.setJReg_inv | apply State.modJug_inv
    | with_unfolding_all (show Jug.Sized _; exact ‹Jug.Sized _›)
    | split

theorem State.jStop_inv {s : State} (n : Nat) (k : Nat) (h : s.Inv) : (State.jStop s n k).Inv := by
  unfold State.jStop
  with_reducible repeat' first
    | assumption | intro _ | apply State.modJug_inv | with_unfolding_all (show Jug.Sized _; exact ‹Jug.Sized _›)

theorem State.jFault_inv {s : State} (n : Nat) (cause : Nat) (h : s.Inv) : (State.jFault s n cause).Inv := by
  unfold State.jFault
  with_reducible repeat' first
    | assumption | intro _ | apply State.modJug_inv | apply State.setReg_inv | apply State.raiseFlag_inv
    | with_unfolding_all (show Jug.Sized _; exact ‹Jug.Sized _›)

theorem State.jugBeat_inv {s : State} (n : Nat) (h : s.Inv) : (State.jugBeat s n).Inv := by
  unfold State.jugBeat
  with_reducible repeat' first
    | assumption | intro _ | apply State.jugOuts_inv | apply State.jSettle_inv | apply State.jRestore_inv | apply State.modJug_inv
    | apply State.jStop_inv | with_unfolding_all (show Jug.Sized _; exact ‹Jug.Sized _›)
    | apply State.Inv.ite

theorem State.jugBeatEnd_inv {s : State} (n : Nat) (h : s.Inv) : (State.jugBeatEnd s n).Inv := by
  unfold State.jugBeatEnd
  with_reducible repeat' first
    | assumption | intro _ | apply State.jugOuts_inv | apply State.modJug_inv
    | with_unfolding_all (show Jug.Sized _; exact ‹Jug.Sized _›)
    | apply State.Inv.ite

theorem State.jugCmdDo_inv {s : State} (n : Nat) (v : Word) (h : s.Inv) : (State.jugCmdDo s n v).Inv := by
  unfold State.jugCmdDo
  with_reducible repeat' first
    | assumption | intro _ | apply State.jugStart_inv | apply State.modJug_inv | apply State.jugPend_inv
    | with_unfolding_all (show Jug.Sized _; exact ‹Jug.Sized _›)
    | apply State.Inv.ite

theorem execInterruptEntry_inv (n : RingId) {s : State} (h : s.Inv) : ∀ t, execInterruptEntry n s = .next t → t.Inv := by
  unfold execInterruptEntry
  intro t e
  refine State.Inv.ofNext ?_ e
  with_reducible repeat' first | assumption | apply State.jEnter_inv | split

theorem execJugTimerExpiry_inv (n : RingId) {s : State} (h : s.Inv) : ∀ t, execJugTimerExpiry n s = .next t → t.Inv := by
  unfold execJugTimerExpiry
  intro t e
  refine State.Inv.ofNext ?_ e
  with_reducible repeat' first
    | assumption | intro _ | apply State.jugPend_inv | apply State.modJug_inv
    | with_unfolding_all (show Jug.Sized _; exact ‹Jug.Sized _›)
    | apply State.Inv.ite | split

theorem execJugWaitRelease_inv (n : RingId) {s : State} (h : s.Inv) : ∀ t, execJugWaitRelease n s = .next t → t.Inv := by
  unfold execJugWaitRelease
  intro t e
  refine State.Inv.ofNext ?_ e
  repeat' first
    | with_reducible assumption | with_reducible intro _ | with_reducible apply State.modJug_inv
    | (show Jug.Sized _; exact ‹Jug.Sized _›) | with_reducible apply State.Inv.ite

theorem State.jMove_inv {s : State} (n : Nat) (xy : Nat) (f : Nat) (h : s.Inv) : (State.jMove s n xy f).Inv := by
  unfold State.jMove
  with_reducible repeat' first
    | assumption | apply State.rtStore_inv | apply State.jSend_inv | apply State.rtRead_inv | apply State.Inv.ite

theorem State.jPointers_inv {s : State} (n : Nat) (w : Word) (h : s.Inv) : (State.jPointers s n w).Inv := by
  unfold State.jPointers
  with_reducible repeat' first | assumption | apply State.jSend_inv | apply State.Inv.ite

theorem State.jMoves_inv {s : State} (n : Nat) (w : Word) (h : s.Inv) : (State.jMoves s n w).Inv := by
  unfold State.jMoves
  with_reducible repeat' first | assumption | apply State.jPointers_inv | apply State.jMove_inv

theorem State.jSat_inv {s : State} (n : Nat) (h : s.Inv) : (State.jSat s n).Inv := by
  unfold State.jSat
  with_reducible repeat' first | assumption | apply State.raiseFlag_inv | apply State.jSend_inv

theorem State.jAccs_inv {s : State} (n : Nat) (rs : List (Prod Nat Int)) (h : s.Inv) : (State.jAccs s n rs).Inv := by
  unfold State.jAccs
  with_reducible repeat' first
    | assumption | intro _ | apply State.jSend_inv | apply State.raiseIf_inv | apply State.Inv.foldl

theorem State.jMac_inv {s : State} (n : Nat) (w : Word) (h : s.Inv) : (State.jMac s n w).Inv := by
  unfold State.jMac
  with_reducible repeat' first | assumption | apply State.jAccs_inv | split

theorem State.jAccOp_inv {s : State} (n : Nat) (w : Word) (h : s.Inv) : (State.jAccOp s n w).Inv := by
  unfold State.jAccOp
  with_reducible repeat' first | assumption | apply State.jAccs_inv

theorem State.jAluOp_inv {s : State} (n : Nat) (w : Word) (h : s.Inv) : (State.jAluOp s n w).Inv := by
  unfold State.jAluOp
  with_reducible repeat' first
    | assumption | apply State.jAccOp_inv | apply State.jSend_inv | apply State.jSat_inv | apply State.Inv.ite

theorem State.jRnd_inv {s : State} (n : Nat) (w : Word) (h : s.Inv) : (State.jRnd s n w).Inv := by
  unfold State.jRnd
  with_reducible repeat' first | assumption | apply State.jSend_inv | apply State.jSat_inv | apply State.Inv.ite

theorem State.jAbsolute_inv {s : State} (n : Nat) (w : Word) (h : s.Inv) : (State.jAbsolute s n w).Inv := by
  unfold State.jAbsolute
  with_reducible repeat' first
    | assumption | apply State.rtStore_inv | apply State.jSend_inv | apply State.rtRead_inv | apply State.Inv.ite

theorem State.jDo_inv {s : State} (n : Nat) (w : Word) (h : s.Inv) : (State.jDo s n w).2.Inv := by
  unfold State.jDo
  dsimp only
  with_reducible repeat' first
    | assumption | intro _ | apply State.modJug_inv | apply State.setJReg_inv
    | with_unfolding_all (show Jug.Sized _; exact ‹Jug.Sized _›)
    | split

theorem State.jCop__inv {s : State} (n : Nat) (w : Word) (h : s.Inv) : (State.jCop_ s n w).2.Inv := by
  unfold State.jCop_
  with_reducible repeat' first
    | assumption | intro _ | apply State.modJug_inv | apply State.jDo_inv | apply State.jSend_inv | apply State.jIn_inv
    | apply State.jOut_inv | apply State.postDecision_inv | apply State.jRnd_inv
    | with_unfolding_all (show Jug.Sized _; exact ‹Jug.Sized _›)
    | split

theorem State.jExec_inv {s : State} (n : Nat) (w : Word) (h : s.Inv) : (State.jExec s n w).2.Inv := by
  unfold State.jExec
  with_reducible repeat' first
    | assumption | apply State.jMac_inv | apply State.jMoves_inv | apply State.jAluOp_inv | apply State.jCop__inv
    | apply State.jAbsolute_inv | split

theorem State.jLoop_inv {s : State} (n : Nat) (pc : BitVec 12) (h : s.Inv) : (State.jLoop s n pc).2.Inv := by
  unfold State.jLoop
  dsimp only
  with_reducible repeat' first
    | assumption | intro _ | apply State.modJug_inv | apply State.setJReg_inv
    | with_unfolding_all (show Jug.Sized _; exact ‹Jug.Sized _›)
    | apply State.Inv.ite | split

theorem State.jAdvance_inv {s : State} (n : Nat) (f : State.JFlow) (h : s.Inv) : (State.jAdvance s n f).Inv := by
  unfold State.jAdvance
  dsimp only
  with_reducible repeat' first
    | assumption | intro _ | apply State.modJug_inv | apply State.jFault_inv | apply State.jLoop_inv
    | with_unfolding_all (show Jug.Sized _; exact ‹Jug.Sized _›)
    | apply State.Inv.ite | split

theorem State.jIssue_inv {s : State} (n : Nat) (h : s.Inv) : (State.jIssue s n).Inv := by
  unfold State.jIssue
  repeat' first
    | with_reducible assumption | with_reducible intro _ | with_reducible apply State.jSettle_inv
    | with_reducible apply State.touch_inv | with_reducible apply State.modJug_inv | with_reducible apply State.jRestore_inv
    | with_reducible apply State.eccRead_inv | with_reducible apply State.jFault_inv | with_reducible apply State.jAdvance_inv
    | with_reducible apply State.setReg_inv | with_reducible apply State.raiseFlag_inv | with_reducible apply State.jExec_inv
    | with_reducible apply State.Inv.foldl | with_reducible apply State.Inv.foldlSnd | with_reducible apply State.Inv.foldlFst
    | (show Jug.Sized _; exact ‹Jug.Sized _›) | with_reducible apply State.Inv.ite

theorem State.jRow_inv {s : State} (n : Nat) (row : Nat) (h : s.Inv) : (State.jRow s n row).Inv := by
  unfold State.jRow
  with_reducible repeat' first | assumption | apply State.jIssue_inv | apply State.Inv.ite

theorem execIllegalPacket_inv (n : RingId) {s : State} (h : s.Inv) : ∀ t, execIllegalPacket n s = .next t → t.Inv := by
  unfold execIllegalPacket
  intro t e
  refine State.Inv.ofNext ?_ e
  with_reducible repeat' first | assumption | apply State.jIssue_inv | apply State.Inv.ite

theorem execMove_inv (n : RingId) {s : State} (h : s.Inv) : ∀ t, execMove n s = .next t → t.Inv := by
  unfold execMove
  intro t e
  refine State.Inv.ofNext ?_ e
  with_reducible repeat' first | assumption | apply State.jRow_inv

theorem execMac_inv (n : RingId) {s : State} (h : s.Inv) : ∀ t, execMac n s = .next t → t.Inv := by
  unfold execMac
  intro t e
  refine State.Inv.ofNext ?_ e
  with_reducible repeat' first | assumption | apply State.jRow_inv

theorem execMac2_inv (n : RingId) {s : State} (h : s.Inv) : ∀ t, execMac2 n s = .next t → t.Inv := by
  unfold execMac2
  intro t e
  refine State.Inv.ofNext ?_ e
  with_reducible repeat' first | assumption | apply State.jRow_inv

theorem execMov_inv (n : RingId) {s : State} (h : s.Inv) : ∀ t, execMov n s = .next t → t.Inv := by
  unfold execMov
  intro t e
  refine State.Inv.ofNext ?_ e
  with_reducible repeat' first | assumption | apply State.jRow_inv

theorem execJugAdd_inv (n : RingId) {s : State} (h : s.Inv) : ∀ t, execJugAdd n s = .next t → t.Inv := by
  unfold execJugAdd
  intro t e
  refine State.Inv.ofNext ?_ e
  with_reducible repeat' first | assumption | apply State.jRow_inv

theorem execJugSub_inv (n : RingId) {s : State} (h : s.Inv) : ∀ t, execJugSub n s = .next t → t.Inv := by
  unfold execJugSub
  intro t e
  refine State.Inv.ofNext ?_ e
  with_reducible repeat' first | assumption | apply State.jRow_inv

theorem execJugCmp_inv (n : RingId) {s : State} (h : s.Inv) : ∀ t, execJugCmp n s = .next t → t.Inv := by
  unfold execJugCmp
  intro t e
  refine State.Inv.ofNext ?_ e
  with_reducible repeat' first | assumption | apply State.jRow_inv

theorem execJugAnd_inv (n : RingId) {s : State} (h : s.Inv) : ∀ t, execJugAnd n s = .next t → t.Inv := by
  unfold execJugAnd
  intro t e
  refine State.Inv.ofNext ?_ e
  with_reducible repeat' first | assumption | apply State.jRow_inv

theorem execJugOr_inv (n : RingId) {s : State} (h : s.Inv) : ∀ t, execJugOr n s = .next t → t.Inv := by
  unfold execJugOr
  intro t e
  refine State.Inv.ofNext ?_ e
  with_reducible repeat' first | assumption | apply State.jRow_inv

theorem execJugXor_inv (n : RingId) {s : State} (h : s.Inv) : ∀ t, execJugXor n s = .next t → t.Inv := by
  unfold execJugXor
  intro t e
  refine State.Inv.ofNext ?_ e
  with_reducible repeat' first | assumption | apply State.jRow_inv

theorem execJugShl_inv (n : RingId) {s : State} (h : s.Inv) : ∀ t, execJugShl n s = .next t → t.Inv := by
  unfold execJugShl
  intro t e
  refine State.Inv.ofNext ?_ e
  with_reducible repeat' first | assumption | apply State.jRow_inv

theorem execJugShr_inv (n : RingId) {s : State} (h : s.Inv) : ∀ t, execJugShr n s = .next t → t.Inv := by
  unfold execJugShr
  intro t e
  refine State.Inv.ofNext ?_ e
  with_reducible repeat' first | assumption | apply State.jRow_inv

theorem execAsr_inv (n : RingId) {s : State} (h : s.Inv) : ∀ t, execAsr n s = .next t → t.Inv := by
  unfold execAsr
  intro t e
  refine State.Inv.ofNext ?_ e
  with_reducible repeat' first | assumption | apply State.jRow_inv

theorem execNeg_inv (n : RingId) {s : State} (h : s.Inv) : ∀ t, execNeg n s = .next t → t.Inv := by
  unfold execNeg
  intro t e
  refine State.Inv.ofNext ?_ e
  with_reducible repeat' first | assumption | apply State.jRow_inv

theorem execAbs_inv (n : RingId) {s : State} (h : s.Inv) : ∀ t, execAbs n s = .next t → t.Inv := by
  unfold execAbs
  intro t e
  refine State.Inv.ofNext ?_ e
  with_reducible repeat' first | assumption | apply State.jRow_inv

theorem execMin_inv (n : RingId) {s : State} (h : s.Inv) : ∀ t, execMin n s = .next t → t.Inv := by
  unfold execMin
  intro t e
  refine State.Inv.ofNext ?_ e
  with_reducible repeat' first | assumption | apply State.jRow_inv

theorem execMax_inv (n : RingId) {s : State} (h : s.Inv) : ∀ t, execMax n s = .next t → t.Inv := by
  unfold execMax
  intro t e
  refine State.Inv.ofNext ?_ e
  with_reducible repeat' first | assumption | apply State.jRow_inv

theorem execAdds_inv (n : RingId) {s : State} (h : s.Inv) : ∀ t, execAdds n s = .next t → t.Inv := by
  unfold execAdds
  intro t e
  refine State.Inv.ofNext ?_ e
  with_reducible repeat' first | assumption | apply State.jRow_inv

theorem execSubs_inv (n : RingId) {s : State} (h : s.Inv) : ∀ t, execSubs n s = .next t → t.Inv := by
  unfold execSubs
  intro t e
  refine State.Inv.ofNext ?_ e
  with_reducible repeat' first | assumption | apply State.jRow_inv

theorem execAclr_inv (n : RingId) {s : State} (h : s.Inv) : ∀ t, execAclr n s = .next t → t.Inv := by
  unfold execAclr
  intro t e
  refine State.Inv.ofNext ?_ e
  with_reducible repeat' first | assumption | apply State.jRow_inv

theorem execAmov_inv (n : RingId) {s : State} (h : s.Inv) : ∀ t, execAmov n s = .next t → t.Inv := by
  unfold execAmov
  intro t e
  refine State.Inv.ofNext ?_ e
  with_reducible repeat' first | assumption | apply State.jRow_inv

theorem execAadd_inv (n : RingId) {s : State} (h : s.Inv) : ∀ t, execAadd n s = .next t → t.Inv := by
  unfold execAadd
  intro t e
  refine State.Inv.ofNext ?_ e
  with_reducible repeat' first | assumption | apply State.jRow_inv

theorem execAsub_inv (n : RingId) {s : State} (h : s.Inv) : ∀ t, execAsub n s = .next t → t.Inv := by
  unfold execAsub
  intro t e
  refine State.Inv.ofNext ?_ e
  with_reducible repeat' first | assumption | apply State.jRow_inv

theorem execAshl_inv (n : RingId) {s : State} (h : s.Inv) : ∀ t, execAshl n s = .next t → t.Inv := by
  unfold execAshl
  intro t e
  refine State.Inv.ofNext ?_ e
  with_reducible repeat' first | assumption | apply State.jRow_inv

theorem execAshr_inv (n : RingId) {s : State} (h : s.Inv) : ∀ t, execAshr n s = .next t → t.Inv := by
  unfold execAshr
  intro t e
  refine State.Inv.ofNext ?_ e
  with_reducible repeat' first | assumption | apply State.jRow_inv

theorem execAneg_inv (n : RingId) {s : State} (h : s.Inv) : ∀ t, execAneg n s = .next t → t.Inv := by
  unfold execAneg
  intro t e
  refine State.Inv.ofNext ?_ e
  with_reducible repeat' first | assumption | apply State.jRow_inv

theorem execAabs_inv (n : RingId) {s : State} (h : s.Inv) : ∀ t, execAabs n s = .next t → t.Inv := by
  unfold execAabs
  intro t e
  refine State.Inv.ofNext ?_ e
  with_reducible repeat' first | assumption | apply State.jRow_inv

theorem execSgnb_inv (n : RingId) {s : State} (h : s.Inv) : ∀ t, execSgnb n s = .next t → t.Inv := by
  unfold execSgnb
  intro t e
  refine State.Inv.ofNext ?_ e
  with_reducible repeat' first | assumption | apply State.jRow_inv

theorem execAbsoluteMove_inv (n : RingId) {s : State} (h : s.Inv) : ∀ t, execAbsoluteMove n s = .next t → t.Inv := by
  unfold execAbsoluteMove
  intro t e
  refine State.Inv.ofNext ?_ e
  with_reducible repeat' first | assumption | apply State.jRow_inv

theorem execJugNop_inv (n : RingId) {s : State} (h : s.Inv) : ∀ t, execJugNop n s = .next t → t.Inv := by
  unfold execJugNop
  intro t e
  refine State.Inv.ofNext ?_ e
  with_reducible repeat' first | assumption | apply State.jRow_inv

theorem execJugHalt_inv (n : RingId) {s : State} (h : s.Inv) : ∀ t, execJugHalt n s = .next t → t.Inv := by
  unfold execJugHalt
  intro t e
  refine State.Inv.ofNext ?_ e
  with_reducible repeat' first | assumption | apply State.jRow_inv

theorem execJugBr_inv (n : RingId) {s : State} (h : s.Inv) : ∀ t, execJugBr n s = .next t → t.Inv := by
  unfold execJugBr
  intro t e
  refine State.Inv.ofNext ?_ e
  with_reducible repeat' first | assumption | apply State.jRow_inv

theorem execBrr_inv (n : RingId) {s : State} (h : s.Inv) : ∀ t, execBrr n s = .next t → t.Inv := by
  unfold execBrr
  intro t e
  refine State.Inv.ofNext ?_ e
  with_reducible repeat' first | assumption | apply State.jRow_inv

theorem execJugCall_inv (n : RingId) {s : State} (h : s.Inv) : ∀ t, execJugCall n s = .next t → t.Inv := by
  unfold execJugCall
  intro t e
  refine State.Inv.ofNext ?_ e
  with_reducible repeat' first | assumption | apply State.jRow_inv

theorem execJugRet_inv (n : RingId) {s : State} (h : s.Inv) : ∀ t, execJugRet n s = .next t → t.Inv := by
  unfold execJugRet
  intro t e
  refine State.Inv.ofNext ?_ e
  with_reducible repeat' first | assumption | apply State.jRow_inv

theorem execRti_inv (n : RingId) {s : State} (h : s.Inv) : ∀ t, execRti n s = .next t → t.Inv := by
  unfold execRti
  intro t e
  refine State.Inv.ofNext ?_ e
  with_reducible repeat' first | assumption | apply State.jRow_inv

theorem execDoLoop_inv (n : RingId) {s : State} (h : s.Inv) : ∀ t, execDoLoop n s = .next t → t.Inv := by
  unfold execDoLoop
  intro t e
  refine State.Inv.ofNext ?_ e
  with_reducible repeat' first | assumption | apply State.jRow_inv

theorem execJugWait_inv (n : RingId) {s : State} (h : s.Inv) : ∀ t, execJugWait n s = .next t → t.Inv := by
  unfold execJugWait
  intro t e
  refine State.Inv.ofNext ?_ e
  with_reducible repeat' first | assumption | apply State.jRow_inv

theorem execJugLdi_inv (n : RingId) {s : State} (h : s.Inv) : ∀ t, execJugLdi n s = .next t → t.Inv := by
  unfold execJugLdi
  intro t e
  refine State.Inv.ofNext ?_ e
  with_reducible repeat' first | assumption | apply State.jRow_inv

theorem execLdr_inv (n : RingId) {s : State} (h : s.Inv) : ∀ t, execLdr n s = .next t → t.Inv := by
  unfold execLdr
  intro t e
  refine State.Inv.ofNext ?_ e
  with_reducible repeat' first | assumption | apply State.jRow_inv

theorem execMovr_inv (n : RingId) {s : State} (h : s.Inv) : ∀ t, execMovr n s = .next t → t.Inv := by
  unfold execMovr
  intro t e
  refine State.Inv.ofNext ?_ e
  with_reducible repeat' first | assumption | apply State.jRow_inv

theorem execInPort_inv (n : RingId) {s : State} (h : s.Inv) : ∀ t, execInPort n s = .next t → t.Inv := by
  unfold execInPort
  intro t e
  refine State.Inv.ofNext ?_ e
  repeat' first
    | with_reducible assumption | with_reducible intro _ | with_reducible apply State.jRow_inv

theorem execOutPort_inv (n : RingId) {s : State} (h : s.Inv) : ∀ t, execOutPort n s = .next t → t.Inv := by
  unfold execOutPort
  intro t e
  refine State.Inv.ofNext ?_ e
  repeat' first
    | with_reducible assumption | with_reducible intro _ | with_reducible apply State.jRow_inv

theorem execPost_inv (n : RingId) {s : State} (h : s.Inv) : ∀ t, execPost n s = .next t → t.Inv := by
  unfold execPost
  intro t e
  refine State.Inv.ofNext ?_ e
  with_reducible repeat' first | assumption | apply State.jRow_inv

theorem execRnd_inv (n : RingId) {s : State} (h : s.Inv) : ∀ t, execRnd n s = .next t → t.Inv := by
  unfold execRnd
  intro t e
  refine State.Inv.ofNext ?_ e
  with_reducible repeat' first | assumption | apply State.jRow_inv

end Sys2Proof.Machine
end

