-- ==== Sys2Proof/Laws/InvTrapeze.lean ====
section
/-! SUPPORT. The invariant of the block through the Trapeze domain. -/

namespace Sys2Proof.Machine

theorem State.enterLink_inv {s : State} (k : Nat) (st : LinkState) (h : s.Inv) : (State.enterLink s k st).Inv := by
  unfold State.enterLink
  with_reducible repeat' first | assumption | apply State.modLink_inv

theorem State.laneEvent_inv {s : State} (code : Nat) (k : Nat) (rx : Bool) (lane : Nat) (h : s.Inv) :
    (State.laneEvent s code k rx lane).Inv := by
  unfold State.laneEvent
  with_reducible repeat' first | assumption | apply State.raiseEvent_inv

theorem State.failLink_inv {s : State} (k : Nat) (c : LinkCause) (h : s.Inv) : (State.failLink s k c).Inv := by
  unfold State.failLink
  with_reducible repeat' first
    | assumption | apply State.enterLink_inv | apply State.setFld_inv | apply State.modLink_inv | apply State.laneEvent_inv
    | apply State.raiseFlag_inv | apply State.Inv.ite

theorem State.linkCmdDo_inv {s : State} (k : Nat) (v : Word) (h : s.Inv) : (State.linkCmdDo s k v).Inv := by
  unfold State.linkCmdDo
  with_reducible repeat' first | assumption | apply State.modLink_inv | apply State.setFld_inv | apply State.Inv.ite

theorem State.countRx_inv {s : State} (k : Nat) (h : s.Inv) : (State.countRx s k).Inv := by
  unfold State.countRx
  with_reducible repeat' first | assumption | apply State.addReg64_inv

theorem State.timeFlit_inv {s : State} (k : Nat) (x : BitVec 64) (h : s.Inv) : (State.timeFlit s k x).Inv := by
  unfold State.timeFlit
  with_reducible repeat' first
    | assumption | apply State.setFld_inv | apply State.countRx_inv | apply State.failLink_inv | apply State.modLink_inv
    | apply State.setReg_inv | apply State.raiseFlag_inv | apply State.Inv.ite

theorem State.laneUntrained_inv {s : State} (k : Nat) (j : Nat) (h : s.Inv) : (State.laneUntrained s k j).Inv := by
  unfold State.laneUntrained
  with_reducible repeat' first
    | assumption | apply State.failLink_inv | apply State.modLink_inv | apply State.laneEvent_inv | apply State.Inv.ite

theorem State.laneFails_inv {s : State} (k : Nat) (j : Nat) (h : s.Inv) : (State.laneFails s k j).Inv := by
  unfold State.laneFails
  with_reducible repeat' first
    | assumption | apply State.laneUntrained_inv | apply State.raiseFlag_inv | apply State.laneEvent_inv | apply State.modLink_inv
    | apply State.sendLctl_inv | apply State.Inv.ite

theorem State.laneSign_inv {s : State} (k : Nat) (j : Nat) (err : Bool) (noMarker : Bool) (h : s.Inv) :
    (State.laneSign s k j err noMarker).Inv := by
  unfold State.laneSign
  with_reducible repeat' first | assumption | apply State.satReg_inv | apply State.modLink_inv | apply State.Inv.ite

theorem State.spareSign_inv {s : State} (k : Nat) (h : s.Inv) : (State.spareSign s k).Inv := by
  unfold State.spareSign
  with_reducible repeat' first | assumption | apply State.modLink_inv

theorem State.laneSigns_inv {s : State} (k : Nat) (f : LaneSigns) (h : s.Inv) : (State.laneSigns s k f).Inv := by
  unfold State.laneSigns
  with_reducible repeat' first
    | assumption | intro _ | apply State.forBelow_inv | apply State.laneSign_inv | apply State.spareSign_inv | apply State.Inv.ite

theorem State.exportBeat_inv {s : State} (h : s.Inv) : (State.exportBeat s).Inv := by
  unfold State.exportBeat
  with_reducible repeat' first
    | assumption | apply State.raiseIf_inv | apply State.raiseFlag_inv | apply State.spreadFlit_inv | apply State.Inv.ite | split
    | fail_if_no_progress (refine State.Inv.upd ?_ rfl)

theorem State.decFlit_inv {s : State} (k : Nat) (x : BitVec 64) (h : s.Inv) : (State.decFlit s k x).Inv := by
  unfold State.decFlit
  with_reducible repeat' first
    | assumption | apply State.forwardFlit_inv | apply State.countRx_inv | apply State.raiseFlag_inv | apply State.raiseIf_inv
    | apply State.Inv.ite | split | fail_if_no_progress (refine State.Inv.upd ?_ rfl)

theorem State.releaseDec_inv {s : State} (e : RelDec) (h : s.Inv) : (State.releaseDec s e).Inv := by
  unfold State.releaseDec
  with_reducible repeat' first | assumption | intro _ | apply State.forRings_inv | apply State.addPost_inv

theorem State.barCheck_inv {s : State} (b : Nat) (h : s.Inv) : (State.barCheck s b).Inv := by
  unfold State.barCheck
  with_reducible repeat' first | assumption | apply State.modBar_inv | apply State.Inv.ite

theorem State.arrive_inv {s : State} (b : Nat) (h : s.Inv) : (State.arrive s b).Inv := by
  unfold State.arrive
  with_reducible repeat' first
    | assumption | intro _ | apply State.raiseFlag_inv | apply State.modBar_inv | apply State.spreadFlit_inv
    | apply State.barCheck_inv | apply State.Inv.foldl | apply State.Inv.ite | split

theorem State.barMeet_inv {s : State} (h : s.Inv) : (State.barMeet s).Inv := by
  unfold State.barMeet
  with_reducible repeat' first
    | assumption | intro _ | apply State.forBelow_inv | apply State.modBar_inv | apply State.Inv.ite

theorem State.barFlit_inv {s : State} (k : Nat) (x : BitVec 64) (h : s.Inv) : (State.barFlit s k x).Inv := by
  unfold State.barFlit
  with_reducible repeat' first
    | assumption | apply State.forwardFlit_inv | apply State.countRx_inv | apply State.raiseFlag_inv | apply State.barCheck_inv
    | apply State.modBar_inv | apply State.Inv.ite

theorem State.releaseBar_inv {s : State} (b : Nat) (late : Bool) (h : s.Inv) : (State.releaseBar s b late).Inv := by
  unfold State.releaseBar
  with_reducible repeat' first
    | assumption | intro _ | apply State.setReg_inv | apply State.raiseIf_inv | apply State.modBar_inv | apply State.forBelow_inv
    | apply State.startRing_inv | apply State.goTo_inv | apply State.refNow_inv | apply State.Inv.ite

theorem State.sendAbort_inv {s : State} (h : s.Inv) : (State.sendAbort s).Inv := by
  unfold State.sendAbort
  with_reducible repeat' first | assumption | fail_if_no_progress (refine State.Inv.upd ?_ rfl)

theorem State.abortBeat_inv {s : State} (h : s.Inv) : (State.abortBeat s).Inv := by
  unfold State.abortBeat
  with_reducible repeat' first
    | assumption | apply State.spreadFlit_inv | split | fail_if_no_progress (refine State.Inv.upd ?_ rfl)

theorem State.abortFlit_inv {s : State} (k : Nat) (x : BitVec 64) (h : s.Inv) : (State.abortFlit s k x).Inv := by
  unfold State.abortFlit
  with_reducible repeat' first
    | assumption | apply State.forwardFlit_inv | apply State.countRx_inv | apply State.raiseFlag_inv | apply State.Inv.ite | split
    | fail_if_no_progress (refine State.Inv.upd ?_ rfl)

theorem State.deliverAborts_inv {s : State} (h : s.Inv) : (State.deliverAborts s).Inv := by
  unfold State.deliverAborts
  with_reducible repeat' first
    | assumption | intro _ | apply State.forRings_inv | apply State.requestAbort_inv | apply State.Inv.ite | split
    | fail_if_no_progress (refine State.Inv.upd ?_ rfl)

theorem State.tmarkFlit_inv {s : State} (k : Nat) (x : BitVec 64) (h : s.Inv) : (State.tmarkFlit s k x).Inv := by
  unfold State.tmarkFlit
  with_reducible repeat' first
    | assumption | intro _ | apply State.countRx_inv | apply State.srcTakes_inv | apply State.forBelow_inv
    | apply State.offerTiu_inv | apply State.Inv.ite

theorem State.trapWrite_inv {s : State} (a : Nat) (v : Word) (h : s.Inv) : (State.trapWrite s a v).Inv := by
  unfold State.trapWrite
  with_reducible repeat' first
    | assumption | intro _ | apply State.forBelow_inv | apply State.setReg_inv | apply State.ownWindow_inv | apply State.Inv.ite

theorem State.markerActs_inv {s : State} (k : Nat) (h : s.Inv) : (State.markerActs s k).Inv := by
  unfold State.markerActs
  with_reducible repeat' first
    | assumption | apply State.modLink_inv | apply State.laneEvent_inv | apply State.sendLctl_inv | apply State.Inv.ite | split

theorem execTrainingPatternEnd_inv (k : Fin 4) {s : State} (h : s.Inv) :
    ∀ t, execTrainingPatternEnd k s = .next t → t.Inv := by
  unfold execTrainingPatternEnd
  intro t e
  refine State.Inv.ofNext ?_ e
  with_reducible repeat' first | assumption | apply State.modLink_inv | apply State.Inv.ite | split

theorem execLinkStateAdvance_inv (k : Fin 4) {s : State} (h : s.Inv) : ∀ t, execLinkStateAdvance k s = .next t → t.Inv := by
  unfold execLinkStateAdvance
  intro t e
  refine State.Inv.ofNext ?_ e
  with_reducible repeat' first
    | assumption | apply State.enterLink_inv | apply State.modLink_inv | apply State.sendLctl_inv | apply State.Inv.ite | split

theorem execLinkUp_inv (k : Fin 4) {s : State} (h : s.Inv) : ∀ t, execLinkUp k s = .next t → t.Inv := by
  unfold execLinkUp
  intro t e
  refine State.Inv.ofNext ?_ e
  with_reducible repeat' first | assumption | apply State.enterLink_inv | apply State.Inv.ite

theorem execLinkFail_inv (k : Fin 4) (c : LinkCause) {s : State} (h : s.Inv) : ∀ t, execLinkFail k c s = .next t → t.Inv := by
  unfold execLinkFail
  intro t e
  refine State.Inv.ofNext ?_ e
  with_reducible repeat' first | assumption | apply State.failLink_inv | apply State.Inv.ite

theorem execTimeFlitReceive_inv (k : Fin 4) (x : BitVec 64) {s : State} (h : s.Inv) :
    ∀ t, execTimeFlitReceive k x s = .next t → t.Inv := by
  unfold execTimeFlitReceive
  intro t e
  refine State.Inv.ofNext ?_ e
  with_reducible repeat' first | assumption | apply State.timeFlit_inv | apply State.Inv.ite

theorem execFlitDiscard_inv (k : Fin 4) (x : BitVec 64) (f : LaneSigns) {s : State} (h : s.Inv) :
    ∀ t, execFlitDiscard k x f s = .next t → t.Inv := by
  unfold execFlitDiscard
  intro t e
  refine State.Inv.ofNext ?_ e
  with_reducible repeat' first
    | assumption | intro _ | apply State.laneSigns_inv | apply State.forBelow_inv | apply State.laneSign_inv | apply State.raiseFlag_inv
    | apply State.raiseIf_inv | apply State.Inv.ite

theorem execDecFlitTransmit_inv (k : Fin 4) {s : State} (h : s.Inv) : ∀ t, execDecFlitTransmit k s = .next t → t.Inv := by
  unfold execDecFlitTransmit
  intro t e
  refine State.Inv.ofNext ?_ e
  with_reducible repeat' first | assumption | apply State.takeSlot_inv | apply State.Inv.ite | split

theorem execDecFlitReceive_inv (k : Fin 4) (x : BitVec 64) {s : State} (h : s.Inv) :
    ∀ t, execDecFlitReceive k x s = .next t → t.Inv := by
  unfold execDecFlitReceive
  intro t e
  refine State.Inv.ofNext ?_ e
  with_reducible repeat' first | assumption | apply State.decFlit_inv | apply State.Inv.ite

theorem execDecRelease_inv {s : State} (h : s.Inv) : ∀ t, execDecRelease s = .next t → t.Inv := by
  unfold execDecRelease
  intro t e
  refine State.Inv.ofNext ?_ e
  with_reducible repeat' first
    | assumption | intro _ | apply State.releaseDec_inv | apply State.Inv.foldl
    | fail_if_no_progress (refine State.Inv.upd ?_ rfl)

theorem execBarrierArrive_inv (b : Fin 16) {s : State} (h : s.Inv) : ∀ t, execBarrierArrive b s = .next t → t.Inv := by
  unfold execBarrierArrive
  intro t e
  refine State.Inv.ofNext ?_ e
  with_reducible repeat' first | assumption | apply State.arrive_inv | apply State.Inv.ite

theorem execBarFlitReceive_inv (k : Fin 4) (x : BitVec 64) {s : State} (h : s.Inv) :
    ∀ t, execBarFlitReceive k x s = .next t → t.Inv := by
  unfold execBarFlitReceive
  intro t e
  refine State.Inv.ofNext ?_ e
  with_reducible repeat' first | assumption | apply State.barFlit_inv | apply State.Inv.ite

theorem execBarrierRelease_inv (b : Fin 16) {s : State} (h : s.Inv) : ∀ t, execBarrierRelease b s = .next t → t.Inv := by
  unfold execBarrierRelease
  intro t e
  refine State.Inv.ofNext ?_ e
  with_reducible repeat' first | assumption | apply State.releaseBar_inv | apply State.Inv.ite | split

theorem execAbortFlitReceive_inv (k : Fin 4) (x : BitVec 64) {s : State} (h : s.Inv) :
    ∀ t, execAbortFlitReceive k x s = .next t → t.Inv := by
  unfold execAbortFlitReceive
  intro t e
  refine State.Inv.ofNext ?_ e
  with_reducible repeat' first | assumption | apply State.abortFlit_inv | apply State.Inv.ite

theorem execTmarkFlitReceive_inv (k : Fin 4) (x : BitVec 64) {s : State} (h : s.Inv) :
    ∀ t, execTmarkFlitReceive k x s = .next t → t.Inv := by
  unfold execTmarkFlitReceive
  intro t e
  refine State.Inv.ofNext ?_ e
  with_reducible repeat' first | assumption | apply State.tmarkFlit_inv | apply State.Inv.ite

theorem execTrainDone_inv (k : Fin 4) (x : BitVec 64) {s : State} (h : s.Inv) :
    ∀ t, execTrainDone k x s = .next t → t.Inv := by
  unfold execTrainDone
  intro t e
  refine State.Inv.ofNext ?_ e
  with_reducible repeat' first | assumption | apply State.modLink_inv | apply State.countRx_inv | apply State.Inv.ite

theorem execMirrorReq_inv (k : Fin 4) (x : BitVec 64) {s : State} (h : s.Inv) :
    ∀ t, execMirrorReq k x s = .next t → t.Inv := by
  unfold execMirrorReq
  intro t e
  refine State.Inv.ofNext ?_ e
  with_reducible repeat' first | assumption | apply State.modLink_inv | apply State.countRx_inv | apply State.Inv.ite

theorem execSwapped_inv (k : Fin 4) (x : BitVec 64) {s : State} (h : s.Inv) : ∀ t, execSwapped k x s = .next t → t.Inv := by
  unfold execSwapped
  intro t e
  refine State.Inv.ofNext ?_ e
  with_reducible repeat' first | assumption | apply State.laneEvent_inv | apply State.countRx_inv | apply State.Inv.ite

theorem execReturned_inv (k : Fin 4) (x : BitVec 64) {s : State} (h : s.Inv) : ∀ t, execReturned k x s = .next t → t.Inv := by
  unfold execReturned
  intro t e
  refine State.Inv.ofNext ?_ e
  with_reducible repeat' first | assumption | apply State.modLink_inv | apply State.countRx_inv | apply State.Inv.ite

theorem execLaneFailing_inv (k : Fin 4) (j : Fin 9) {s : State} (h : s.Inv) :
    ∀ t, execLaneFailing k j s = .next t → t.Inv := by
  unfold execLaneFailing
  intro t e
  refine State.Inv.ofNext ?_ e
  with_reducible repeat' first | assumption | apply State.laneFails_inv

theorem execLaneSwap_inv (k : Fin 4) {s : State} (h : s.Inv) : ∀ t, execLaneSwap k s = .next t → t.Inv := by
  unfold execLaneSwap
  intro t e
  refine State.Inv.ofNext ?_ e
  with_reducible repeat' first
    | assumption | apply State.sendLctl_inv | apply State.laneEvent_inv | apply State.modLink_inv | apply State.Inv.ite | split

theorem execSpareBad_inv (k : Fin 4) {s : State} (h : s.Inv) : ∀ t, execSpareBad k s = .next t → t.Inv := by
  unfold execSpareBad
  intro t e
  refine State.Inv.ofNext ?_ e
  dsimp only
  with_reducible repeat' first
    | assumption | apply State.raiseFlag_inv | apply State.modLink_inv | apply State.laneEvent_inv | apply State.Inv.ite | split

theorem execLaneReturn_inv (k : Fin 4) {s : State} (h : s.Inv) : ∀ t, execLaneReturn k s = .next t → t.Inv := by
  unfold execLaneReturn
  intro t e
  refine State.Inv.ofNext ?_ e
  with_reducible repeat' first
    | assumption | apply State.sendLctl_inv | apply State.laneEvent_inv | apply State.modLink_inv | apply State.Inv.ite | split

theorem execMarkerFlit_inv (k : Fin 4) {s : State} (h : s.Inv) : ∀ t, execMarkerFlit k s = .next t → t.Inv := by
  unfold execMarkerFlit
  intro t e
  refine State.Inv.ofNext ?_ e
  with_reducible repeat' first | assumption | apply State.markerActs_inv | apply State.modLink_inv | apply State.Inv.ite

end Sys2Proof.Machine
end

