-- ==== Sys2Proof/Laws/InvCal.lean ====
section
/-! SUPPORT. The invariant of the block through NVM and calibration. -/

namespace Sys2Proof.Machine

theorem State.setHdr_inv {s : State} (k : StoreKind) (toB : Bool) (h0 : NvmHdr) (h : s.Inv) :
    (State.setHdr s k toB h0).Inv := by
  unfold State.setHdr
  with_reducible repeat' first | assumption | apply State.modNvm_inv

theorem State.startStore_inv {s : State} (k : StoreKind) (h : s.Inv) : (State.startStore s k).Inv := by
  unfold State.startStore
  with_reducible repeat' first
    | assumption | intro _ | apply State.setHdr_inv | apply State.modCal_inv
    | with_unfolding_all (show CalUnit.Sized _; exact ‹CalUnit.Sized _›)

theorem State.showNvm_inv {s : State} (h : s.Inv) : (State.showNvm s).Inv := by
  unfold State.showNvm
  with_reducible repeat' first | assumption | apply State.setReg_inv | apply State.setBit_inv

theorem State.slotInvalid_inv {s : State} (area : Nat) (b : Bool) (h : s.Inv) : (State.slotInvalid s area b).Inv := by
  unfold State.slotInvalid
  with_reducible repeat' first | assumption | apply State.raiseEvent_inv

theorem State.writeStore_inv {s : State} (t0 : Store) (ok : Bool) (h : s.Inv) : (State.writeStore s t0 ok).Inv := by
  unfold State.writeStore
  with_reducible repeat' first | assumption | apply State.modNvm_inv

theorem State.ownMac_inv {s : State} (h : s.Inv) : (State.ownMac s).Inv := by
  unfold State.ownMac
  with_reducible repeat' first
    | assumption | apply State.setReg64_inv | apply State.Inv.ite | split | fail_if_no_progress (refine State.Inv.upd ?_ rfl)

theorem State.finishStore_inv {s : State} (t0 : Store) (ok : Bool) (h : s.Inv) : (State.finishStore s t0 ok).Inv := by
  unfold State.finishStore
  with_reducible repeat' first
    | assumption | intro _ | apply State.showNvm_inv | apply State.modCal_inv | apply State.writeStore_inv
    | apply State.satReg_inv | apply State.slotInvalid_inv | apply State.raiseFlag_inv | apply State.ownMac_inv
    | with_unfolding_all (show CalUnit.Sized _; exact ‹CalUnit.Sized _›)
    | apply State.Inv.ite | split
    | fail_if_no_progress (refine State.Inv.upd ?_ rfl)

theorem State.cutStore_inv {s : State} (h : s.Inv) : (State.cutStore s).Inv := by
  unfold State.cutStore
  with_reducible repeat' first
    | assumption | intro _ | apply State.modCal_inv | with_unfolding_all (show CalUnit.Sized _; exact ‹CalUnit.Sized _›)

theorem execCalStorePeriodic_inv {s : State} (h : s.Inv) : ∀ t, execCalStorePeriodic s = .next t → t.Inv := by
  unfold execCalStorePeriodic
  intro t e
  refine State.Inv.ofNext ?_ e
  with_reducible repeat' first | assumption | apply State.startStore_inv | apply State.Inv.ite

theorem execStoreComplete_inv (ok : Bool) {s : State} (h : s.Inv) : ∀ t, execStoreComplete ok s = .next t → t.Inv := by
  unfold execStoreComplete
  intro t e
  refine State.Inv.ofNext ?_ e
  with_reducible repeat' first | assumption | apply State.finishStore_inv | apply State.Inv.ite | split

theorem State.setRxTrim_inv {s : State} (r : Nat) (x : Nat) (v : Word) (h : s.Inv) : (State.setRxTrim s r x v).Inv := by
  unfold State.setRxTrim
  with_reducible repeat' first
    | assumption | intro _ | apply State.setReg_inv | apply State.modCal_inv
    | with_unfolding_all (show CalUnit.Sized _; exact ‹CalUnit.Sized _›)
    | apply State.Inv.ite

theorem State.mapOut_inv {s : State} (r : Nat) (x : Nat) (h : s.Inv) : (State.mapOut s r x).Inv := by
  unfold State.mapOut
  with_reducible repeat' first
    | assumption | apply State.raiseFlag_inv | apply State.setFld_inv | apply State.modRxCal_inv | apply State.raiseEvent_inv

theorem State.rotStep_inv {s : State} (r : Nat) (h : s.Inv) : (State.rotStep s r).Inv := by
  unfold State.rotStep
  with_reducible repeat' first | assumption | apply State.modRxCal_inv | apply State.setFld_inv

theorem State.requestApply_inv {s : State} (d : Nat) (h : s.Inv) : (State.requestApply s d).Inv := by
  unfold State.requestApply
  with_reducible repeat' first | assumption | apply State.modDie_inv

theorem State.markRingCal_inv {s : State} (n : Nat) (h : s.Inv) : (State.markRingCal s n).Inv := by
  exact modRing_inv _ _ (fun _ h => h) h

theorem State.markRxCal_inv {s : State} (r : Nat) (h : s.Inv) : (State.markRxCal s r).Inv := by
  unfold State.markRxCal
  with_reducible repeat' first | assumption | apply State.modRx_inv

theorem State.applyWord_inv (p : Prod State Bool) (act : Nat) (shadow : Nat) (h : p.1.Inv) :
    (State.applyWord p act shadow).1.Inv := by
  unfold State.applyWord
  dsimp only
  split
  · exact h
  · exact setReg_inv _ _ h

theorem State.applyRx_inv {s : State} (r : Nat) (h : s.Inv) : (State.applyRx s r).Inv := by
  unfold State.applyRx
  with_reducible repeat' first
    | assumption | intro _ | apply State.applyWord_inv | apply State.markRxCal_inv | apply State.Inv.foldlFst
    | apply State.Inv.ite

theorem State.applyTx_inv {s : State} (t0 : Nat) (h : s.Inv) : (State.applyTx s t0).Inv := by
  unfold State.applyTx
  with_reducible repeat' first
    | assumption | intro _ | apply State.applyWord_inv | apply State.markRingCal_inv | apply State.Inv.foldlFst
    | apply State.Inv.ite

theorem State.applyBias_inv {s : State} (k : Nat) (h : s.Inv) : (State.applyBias s k).Inv := by
  unfold State.applyBias
  with_reducible repeat' first
    | assumption | apply State.applyWord_inv | apply State.markRingCal_inv | apply State.Inv.ite

theorem State.swapCell_inv {s : State} (t0 : Nat) (h : s.Inv) : (State.swapCell s t0).Inv := by
  unfold State.swapCell
  dsimp only
  with_reducible repeat' first
    | assumption | intro _ | apply State.setFld_inv | apply State.raiseFlag_inv | apply State.raiseEvent_inv
    | apply State.markRingCal_inv | apply State.modTx_inv | apply State.Inv.foldl | apply State.Inv.ite | split

theorem State.applyDie_inv {s : State} (d : Nat) (forced : Bool) (h : s.Inv) : (State.applyDie s d forced).Inv := by
  unfold State.applyDie
  with_reducible repeat' first
    | assumption | intro _ | apply State.forBelow_inv | apply State.applyRx_inv | apply State.applyBias_inv
    | apply State.applyTx_inv | apply State.swapCell_inv | apply State.setReg64_inv | apply State.modDie_inv
    | apply State.raiseIf_inv

theorem State.calApplyDo_inv {s : State} (v : Word) (h : s.Inv) : (State.calApplyDo s v).Inv := by
  unfold State.calApplyDo
  with_reducible repeat' first | assumption | intro _ | apply State.requestApply_inv | apply State.Inv.foldl

theorem State.resumeRx_inv {s : State} (r : Nat) (q : Nat) (h : s.Inv) : (State.resumeRx s r q).Inv := by
  unfold State.resumeRx
  with_reducible repeat' first | assumption | apply State.raiseEvent_inv | apply State.setBit_inv | apply State.Inv.ite

theorem State.freezeRx_inv {s : State} (r : Nat) (q : Nat) (c : Nat) (h : s.Inv) : (State.freezeRx s r q c).Inv := by
  unfold State.freezeRx
  with_reducible repeat' first
    | assumption | apply State.modRxCal_inv | apply State.resumeRx_inv | apply State.raiseEvent_inv | apply State.raiseFlag_inv
    | apply State.setBit_inv | apply State.Inv.ite

theorem State.moveRx_inv {s : State} (r : Nat) (q : Nat) (lim : Nat) (st : BlockStats) (h : s.Inv) :
    (State.moveRx s r q lim st).Inv := by
  unfold State.moveRx
  with_reducible repeat' first | assumption | intro _ | apply State.setRxTrim_inv | apply State.Inv.foldl

theorem State.failSlices_inv {s : State} (r : Nat) (st : BlockStats) (confident : Bool) (h : s.Inv) :
    (State.failSlices s r st confident).Inv := by
  unfold State.failSlices
  with_reducible repeat' first
    | assumption | apply State.modRxCal_inv | apply State.raiseEvent_inv | apply State.rotStep_inv | apply State.Inv.ite | split

theorem State.shadowBlock_inv {s : State} (r : Nat) (st : BlockStats) (h : s.Inv) : (State.shadowBlock s r st).Inv := by
  unfold State.shadowBlock
  with_reducible repeat' first
    | assumption | apply State.modRxCal_inv | apply State.setFld_inv | apply State.mapOut_inv | apply State.Inv.ite | split

theorem State.abortInj_inv {s : State} (r : Nat) (h : s.Inv) : (State.abortInj s r).Inv := by
  unfold State.abortInj
  with_reducible repeat' first
    | assumption | intro _ | apply State.setRxTrim_inv | apply State.raiseFlag_inv | apply State.modRxCal_inv
    | apply State.Inv.foldl | split

theorem State.finishInj_inv {s : State} (r : Nat) (h : s.Inv) : (State.finishInj s r).Inv := by
  unfold State.finishInj
  with_reducible repeat' first
    | assumption | intro _ | apply State.modRxCal_inv | apply State.forBelow_inv | apply State.resumeRx_inv
    | apply State.requestApply_inv | apply State.Inv.ite | split

theorem State.evalBlock_inv {s : State} (r : Nat) (st : BlockStats) (h : s.Inv) : (State.evalBlock s r st).Inv := by
  unfold State.evalBlock
  with_reducible repeat' first
    | assumption | intro _ | apply State.setReg_inv | apply State.addReg_inv | apply State.abortInj_inv | apply State.forBelow_inv
    | apply State.freezeRx_inv | apply State.moveRx_inv | apply State.failSlices_inv | apply State.shadowBlock_inv
    | apply State.finishInj_inv | apply State.requestApply_inv | apply State.Inv.ite

theorem State.injDo_inv {s : State} (r : Nat) (v : Word) (h : s.Inv) : (State.injDo s r v).Inv := by
  unfold State.injDo
  with_reducible repeat' first | assumption | apply State.setBit_inv | apply State.modRxCal_inv | apply State.Inv.ite

theorem State.setTxTrim_inv {s : State} (t0 : Nat) (c : Nat) (x : Int) (h : s.Inv) : (State.setTxTrim s t0 c x).Inv := by
  unfold State.setTxTrim
  with_reducible repeat' first
    | assumption | intro _ | apply State.setFld_inv | apply State.modCal_inv
    | with_unfolding_all (show CalUnit.Sized _; exact ‹CalUnit.Sized _›)
    | apply State.Inv.ite

theorem State.startSubst_inv {s : State} (t0 : Nat) (cell : Nat) (h : s.Inv) : (State.startSubst s t0 cell).Inv := by
  unfold State.startSubst
  with_reducible repeat' first
    | assumption | apply State.modDie_inv | apply State.modTx_inv | apply State.raiseEvent_inv | apply State.Inv.ite | split

theorem State.substVisit_inv {s : State} (t0 : Nat) (err : Int) (h : s.Inv) : (State.substVisit s t0 err).Inv := by
  unfold State.substVisit
  dsimp only
  with_reducible repeat' first
    | assumption | apply State.modTx_inv | apply State.requestApply_inv | apply State.modDie_inv | apply State.startSubst_inv
    | apply State.Inv.ite | split

theorem State.freezeTx_inv {s : State} (t0 : Nat) (q : Nat) (c : Nat) (h : s.Inv) : (State.freezeTx s t0 q c).Inv := by
  unfold State.freezeTx
  with_reducible repeat' first
    | assumption | apply State.modTxCal_inv | apply State.setBit_inv | apply State.raiseEvent_inv | apply State.Inv.ite

theorem State.putDelay_inv {s : State} (t0 : Nat) (x : Int) (h : s.Inv) : (State.putDelay s t0 x).Inv := by
  unfold State.putDelay
  with_reducible repeat' first | assumption | apply State.modTxCal_inv | apply State.setReg_inv

theorem State.evalVisit_inv {s : State} (t0 : Nat) (active : Nat) (m : MonVisit) (h : s.Inv) :
    (State.evalVisit s t0 active m).Inv := by
  unfold State.evalVisit
  with_reducible repeat' first
    | assumption | intro _ | apply State.setFld_inv | apply State.forBelow_inv | apply State.freezeTx_inv
    | apply State.setTxTrim_inv | apply State.putDelay_inv | apply State.substVisit_inv | apply State.startSubst_inv
    | apply State.requestApply_inv | apply State.Inv.foldl | apply State.Inv.ite | split

theorem State.sliceBeat_inv {s : State} (r : Nat) (h : s.Inv) : (State.sliceBeat s r).Inv := by
  unfold State.sliceBeat
  with_reducible repeat' first | assumption | apply State.modRxCal_inv | apply State.Inv.ite | split

theorem State.testBeat_inv {s : State} (h : s.Inv) : (State.testBeat s).Inv := by
  unfold State.testBeat
  with_reducible repeat' first
    | assumption | intro _ | apply State.forBelow_inv | apply State.sliceBeat_inv | apply State.modRxCal_inv | apply State.modDie_inv
    | apply State.Inv.ite

theorem State.calBeat_inv {s : State} (h : s.Inv) : (State.calBeat s).Inv := by
  unfold State.calBeat
  with_reducible repeat' first
    | assumption | intro _ | apply State.testBeat_inv | apply State.setReg_inv | apply State.modCal_inv | apply State.forBelow_inv
    | apply State.finishInj_inv | apply State.modRxCal_inv | apply State.modDie_inv | apply State.Inv.foldl
    | with_unfolding_all (show CalUnit.Sized _; exact ‹CalUnit.Sized _›)
    | apply State.Inv.ite

theorem State.rotate_inv {s : State} (r : Nat) (forced : Bool) (h : s.Inv) : (State.rotate s r forced).Inv := by
  unfold State.rotate
  with_reducible repeat' first
    | assumption | apply State.markRxCal_inv | apply State.modRxCal_inv | apply State.raiseEvent_inv | apply State.raiseFlag_inv
    | apply State.raiseIf_inv | apply State.mapOut_inv | apply State.Inv.ite | split

theorem State.calCtrlDo_inv {s : State} (v : Word) (h : s.Inv) : (State.calCtrlDo s v).Inv := by
  unfold State.calCtrlDo
  with_reducible repeat' first
    | assumption | intro _ | apply State.setReg_inv | apply State.forBelow_inv | apply State.modRxCal_inv | apply State.setBit_inv
    | apply State.modTxCal_inv | apply State.Inv.ite

theorem State.txtrimDo_inv {s : State} (t0 : Nat) (w : Nat) (v : Word) (h : s.Inv) : (State.txtrimDo s t0 w v).Inv := by
  unfold State.txtrimDo
  with_reducible repeat' first | assumption | intro _ | apply State.forBelow_inv | apply State.setTxTrim_inv

theorem State.calStoreDo_inv {s : State} (v : Word) (h : s.Inv) : (State.calStoreDo s v).Inv := by
  unfold State.calStoreDo
  with_reducible repeat' first | assumption | apply State.setFld_inv | apply State.startStore_inv | apply State.Inv.ite

theorem State.loadSlot_inv {s : State} (x : NvmRegs) (map : List (List Nat)) (h : s.Inv) : (State.loadSlot s x map).Inv := by
  unfold State.loadSlot
  with_reducible repeat' first
    | assumption | intro _ | apply State.setReg_inv | apply State.forBelow_inv | apply State.modRxCal_inv | apply State.setFld_inv
    | apply State.Inv.foldl | apply State.Inv.ite

theorem State.pairEvents_inv {s : State} (magic : Word) (a : NvmHdr) (b : NvmHdr) (h : s.Inv) :
    (State.pairEvents s magic a b).Inv := by
  unfold State.pairEvents
  with_reducible repeat' first | assumption | apply State.slotInvalid_inv | split

theorem State.loadCal_inv {s : State} (h : s.Inv) : (State.loadCal s).Inv := by
  unfold State.loadCal
  with_reducible repeat' first
    | assumption | intro _ | apply State.pairEvents_inv | apply State.loadSlot_inv | apply State.raiseEvent_inv
    | apply State.forBias_inv | apply State.setReg_inv | apply State.modBias_inv | apply State.showNvm_inv | apply State.Inv.foldl
    | split | fail_if_no_progress (refine State.Inv.upd ?_ rfl)

theorem execCalBlockEvaluation_inv (r : Fin 24) (b : BlockStats) {s : State} (h : s.Inv) :
    ∀ t, execCalBlockEvaluation r b s = .next t → t.Inv := by
  unfold execCalBlockEvaluation
  intro t e
  refine State.Inv.ofNext ?_ e
  with_reducible repeat' first | assumption | apply State.evalBlock_inv | apply State.modRxCal_inv | split

theorem execApplyDie_inv (d : Fin 4) {s : State} (h : s.Inv) : ∀ t, execApplyDie d s = .next t → t.Inv := by
  unfold execApplyDie
  intro t e
  refine State.Inv.ofNext ?_ e
  with_reducible repeat' first | assumption | apply State.applyDie_inv | split

theorem execSliceRotate_inv (r : Fin 24) {s : State} (h : s.Inv) : ∀ t, execSliceRotate r s = .next t → t.Inv := by
  unfold execSliceRotate
  intro t e
  refine State.Inv.ofNext ?_ e
  with_reducible repeat' first | assumption | apply State.rotate_inv | split

theorem execRotationStepStart_inv (r : Fin 24) {s : State} (h : s.Inv) : ∀ t, execRotationStepStart r s = .next t → t.Inv := by
  unfold execRotationStepStart
  intro t e
  refine State.Inv.ofNext ?_ e
  with_reducible repeat' first | assumption | apply State.rotStep_inv | apply State.Inv.ite

theorem execMonitorVisit_inv (d : Fin 4) (m : MonVisit) {s : State} (h : s.Inv) :
    ∀ t, execMonitorVisit d m s = .next t → t.Inv := by
  unfold execMonitorVisit
  intro t e
  refine State.Inv.ofNext ?_ e
  with_reducible repeat' first | assumption | apply State.evalVisit_inv | apply State.modDie_inv | apply State.Inv.ite | split

end Sys2Proof.Machine
end

