-- ==== Sys2Proof/Laws/InvMem.lean ====
section
/-! SUPPORT. The invariant of the block through memories, Carousel, housekeeping and security. -/

namespace Sys2Proof.Machine

theorem State.clearBytes_inv {s : State} (a : Nat) (k : Nat) (h : s.Inv) : (State.clearBytes s a k).Inv := by
  unfold State.clearBytes
  refine modMemu_inv _ rfl ⟨⟨h.1.1, Cells.filter_wf _ h.1.2⟩, h.2⟩

theorem State.clearMem_inv {s : State} (code : Nat) (inst : Nat) (h : s.Inv) : (State.clearMem s code inst).Inv := by
  unfold State.clearMem
  with_reducible repeat' first | assumption | apply State.clearBytes_inv

theorem State.instrWritten_inv {s : State} (n : Nat) (h : s.Inv) : (State.instrWritten s n).Inv := by
  unfold State.instrWritten
  with_reducible repeat' first | assumption | apply State.modSeq_inv | split

theorem State.clearRing_inv {s : State} (n : Nat) (h : s.Inv) : (State.clearRing s n).Inv := by
  unfold State.clearRing
  with_reducible repeat' first
    | assumption | intro _ | apply State.forBelow_inv | apply State.unsign_inv | apply State.clearMem_inv

theorem State.clearAll_inv {s : State} (h : s.Inv) : (State.clearAll s).Inv := by
  unfold State.clearAll
  exact modMemu_inv _ rfl ⟨⟨h.1.1, rfl⟩, h.2⟩

theorem State.writeBack_inv {s : State} (a : Nat) (h : s.Inv) : (State.writeBack s a).Inv := by
  unfold State.writeBack
  with_reducible repeat' first
    | assumption | apply State.modMemu_inv | apply State.settleWord_inv | apply State.Inv.ite | rfl | split

theorem State.scrub_inv {s : State} (a : Nat) (h : s.Inv) : (State.scrub s a).Inv := by
  unfold State.scrub
  with_reducible repeat' first | assumption | apply State.eccWord_inv | apply State.modMemu_inv | rfl | split

theorem State.scrubBeat_inv {s : State} (h : s.Inv) : (State.scrubBeat s).Inv := by
  unfold State.scrubBeat
  with_reducible repeat' first | assumption | apply State.modMemu_inv | apply State.satReg_inv | apply State.Inv.ite | rfl

theorem State.showRepair_inv {s : State} (code : Nat) (inst : Nat) (h : s.Inv) : (State.showRepair s code inst).Inv := by
  unfold State.showRepair
  with_reducible repeat' first | assumption | apply State.setReg_inv | apply State.setFld_inv

theorem State.repairRow_inv {s : State} (code : Nat) (inst : Nat) (row : Nat) (x4 : Nat) (h : s.Inv) :
    (State.repairRow s code inst row x4).Inv := by
  induction x4 generalizing s with
  | zero => exact h
  | succ k ih =>
    unfold State.repairRow
    split
    · exact raiseEvent_inv _ _ _ (raiseFlag_inv _ _ (modMemu_inv _ rfl h))
    · dsimp only
      split
      · exact ih (showRepair_inv _ _ (modMemu_inv _ rfl h))
      · exact setFld_inv _ _ _ _ (raiseEvent_inv _ _ _ (raiseFlag_inv _ _ (showRepair_inv _ _ (modMemu_inv _ rfl h))))

theorem State.faultyRow_inv {s : State} (code : Nat) (inst : Nat) (row : Nat) (repair : Bool) (h : s.Inv) :
    (State.faultyRow s code inst row repair).Inv := by
  unfold State.faultyRow
  with_reducible repeat' first
    | assumption | apply State.setReg_inv | apply State.setFld_inv | apply State.repairRow_inv | apply State.Inv.ite

theorem State.startMarch_inv {s : State} (code : Nat) (inst : Nat) (preserving : Bool) (h : s.Inv) :
    (State.startMarch s code inst preserving).Inv := by
  unfold State.startMarch
  with_reducible repeat' first | assumption | apply State.modMemu_inv | apply State.setReg_inv | rfl

theorem State.mtestCfgDo_inv {s : State} (v : Word) (h : s.Inv) : (State.mtestCfgDo s v).Inv := by
  unfold State.mtestCfgDo
  with_reducible repeat' first | assumption | apply State.setReg_inv | apply State.startMarch_inv | apply State.Inv.ite

theorem State.passInst_inv {s : State} (h : s.Inv) : (State.passInst s).Inv := by
  unfold State.passInst
  with_reducible repeat' first | assumption | apply State.modMemu_inv | apply State.Inv.ite | rfl | split

theorem State.borrowWin_inv {s : State} (m : March) (h : s.Inv) : (State.borrowWin s m).Inv := by
  unfold State.borrowWin
  with_reducible repeat' first
    | assumption | apply State.setFld_inv | apply State.eccRead_inv | apply State.modMemu_inv | rfl

theorem State.restoreWin_inv {s : State} (w : Borrow) (h : s.Inv) : (State.restoreWin s w).Inv := by
  unfold State.restoreWin
  with_reducible repeat' first | assumption | intro _ | apply State.settleWord_inv | apply State.Inv.foldl

theorem State.endMarch_inv {s : State} (st : Nat) (h : s.Inv) : (State.endMarch s st).Inv := by
  unfold State.endMarch
  with_reducible repeat' first
    | assumption | intro _ | apply State.modMemu_inv | apply State.setFld_inv | apply State.modCal_inv
    | with_unfolding_all (show CalUnit.Sized _; exact ‹CalUnit.Sized _›)
    | apply State.Inv.ite | rfl

theorem State.mtestCmdDo_inv {s : State} (v : Word) (h : s.Inv) : (State.mtestCmdDo s v).Inv := by
  unfold State.mtestCmdDo
  with_reducible repeat' first
    | assumption | apply State.modMemu_inv | apply State.startMarch_inv | apply State.endMarch_inv | apply State.Inv.ite | rfl

theorem State.afterWin_inv {s : State} (m : March) (w : Borrow) (advance : Bool) (h : s.Inv) :
    (State.afterWin s m w advance).Inv := by
  unfold State.afterWin
  with_reducible repeat' first
    | assumption | apply State.modMemu_inv | apply State.endMarch_inv | apply State.Inv.ite | rfl

theorem State.releaseWin_inv {s : State} (m : March) (w : Borrow) (faulty : Bool) (abandoned : Bool) (h : s.Inv) :
    (State.releaseWin s m w faulty abandoned).Inv := by
  unfold State.releaseWin
  with_reducible repeat' first
    | assumption | apply State.restoreWin_inv | apply State.faultyRow_inv | apply State.afterWin_inv | apply State.satReg_inv
    | apply State.setFld_inv | apply State.Inv.ite

theorem State.endDestruct_inv {s : State} (m : March) (rows : Nat) (faults : List Nat) (h : s.Inv) :
    (State.endDestruct s m rows faults).Inv := by
  unfold State.endDestruct
  with_reducible repeat' first
    | assumption | intro _ | apply State.faultyRow_inv | apply State.setFld_inv | apply State.clearBytes_inv
    | apply State.instrWritten_inv | apply State.unsign_inv | apply State.endMarch_inv | apply State.Inv.foldl
    | apply State.Inv.ite

theorem State.repBeat_inv {s : State} (h : s.Inv) : (State.repBeat s).Inv := by
  unfold State.repBeat
  with_reducible repeat' first
    | assumption | intro _ | apply State.startStore_inv | apply State.modCal_inv
    | with_unfolding_all (show CalUnit.Sized _; exact ‹CalUnit.Sized _›)
    | apply State.Inv.ite

theorem State.showSpares_inv {s : State} (h : s.Inv) : (State.showSpares s).Inv := by
  unfold State.showSpares
  with_reducible repeat' first | assumption | intro _ | apply State.forBelow_inv | apply State.showRepair_inv

theorem State.loadRepair_inv {s : State} (h : s.Inv) : (State.loadRepair s).Inv := by
  unfold State.loadRepair
  dsimp only
  with_reducible repeat' first | assumption | apply State.showSpares_inv | apply State.modMemu_inv | rfl | split

theorem State.retDo_inv {s : State} (n : Nat) (v : Word) (h : s.Inv) : (State.retDo s n v).Inv := by
  unfold State.retDo
  dsimp only
  split
  · exact setFld_inv _ _ _ _ h
  · split
    · exact modMemu_inv _ (List.length_set ..) (setFld_inv _ _ _ _ (setFld_inv _ _ _ _ h))
    · split
      · exact forBelow_inv _ _ (fun _ _ h => clearMem_inv _ _ h) (setFld_inv _ _ _ _ (setFld_inv _ _ _ _ h))
      · exact setFld_inv _ _ _ _ (setFld_inv _ _ _ _ h)

theorem State.wakeEnd_inv {s : State} (n : Nat) (cleared : Bool) (h : s.Inv) : (State.wakeEnd s n cleared).Inv := by
  unfold State.wakeEnd
  have h' := modMemu_inv (s := s.setFld (Reg.ret n) 17 16 0) (fun m => { m with wake := m.wake.set n none }) (List.length_set ..)
    (setFld_inv _ _ _ _ h)
  dsimp only
  split
  · exact instrWritten_inv _ (clearRing_inv _ h')
  · exact h'

theorem execEccWriteback_inv (a : Word) {s : State} (h : s.Inv) : ∀ t, execEccWriteback a s = .next t → t.Inv := by
  unfold execEccWriteback
  intro t e
  refine State.Inv.ofNext ?_ e
  with_reducible repeat' first | assumption | apply State.writeBack_inv

theorem execScrubRead_inv (a : Word) {s : State} (h : s.Inv) : ∀ t, execScrubRead a s = .next t → t.Inv := by
  unfold execScrubRead
  intro t e
  refine State.Inv.ofNext ?_ e
  with_reducible repeat' first | assumption | apply State.scrub_inv | apply State.Inv.ite

theorem execWindowBorrow_inv {s : State} (h : s.Inv) : ∀ t, execWindowBorrow s = .next t → t.Inv := by
  unfold execWindowBorrow
  intro t e
  refine State.Inv.ofNext ?_ e
  with_reducible repeat' first | assumption | apply State.borrowWin_inv | apply State.Inv.ite | split

theorem execWindowRelease_inv (faulty : Bool) {s : State} (h : s.Inv) : ∀ t, execWindowRelease faulty s = .next t → t.Inv := by
  unfold execWindowRelease
  intro t e
  refine State.Inv.ofNext ?_ e
  with_reducible repeat' first | assumption | apply State.releaseWin_inv | apply State.Inv.ite | split

theorem execWindowAbandon_inv (faulty : Bool) {s : State} (h : s.Inv) : ∀ t, execWindowAbandon faulty s = .next t → t.Inv := by
  unfold execWindowAbandon
  intro t e
  refine State.Inv.ofNext ?_ e
  with_reducible repeat' first | assumption | apply State.releaseWin_inv | apply State.Inv.ite | split

theorem execMtestDone_inv (faults : List Nat) {s : State} (h : s.Inv) : ∀ t, execMtestDone faults s = .next t → t.Inv := by
  unfold execMtestDone
  intro t e
  refine State.Inv.ofNext ?_ e
  with_reducible repeat' first | assumption | apply State.endDestruct_inv | split

theorem execRetWakeDone_inv (n : RingId) {s : State} (h : s.Inv) : ∀ t, execRetWakeDone n s = .next t → t.Inv := by
  unfold execRetWakeDone
  intro t e
  refine State.Inv.ofNext ?_ e
  with_reducible repeat' first | assumption | apply State.wakeEnd_inv | split

theorem State.carStart_inv {s : State} (i : Nat) (h : s.Inv) : (State.carStart s i).Inv := by
  unfold State.carStart
  with_reducible repeat' first | assumption | apply State.modCar_inv | apply State.setReg_inv | apply State.setReg64_inv

theorem State.carStop_inv {s : State} (i : Nat) (h : s.Inv) : (State.carStop s i).Inv := by
  unfold State.carStop
  with_reducible repeat' first | assumption | apply State.modCar_inv

theorem State.carCmdDo_inv {s : State} (i : Nat) (v : Word) (h : s.Inv) : (State.carCmdDo s i v).Inv := by
  unfold State.carCmdDo
  with_reducible repeat' first | assumption | apply State.carStart_inv | apply State.carStop_inv | apply State.Inv.ite

theorem State.carHalt_inv {s : State} (h : s.Inv) : (State.carHalt s).Inv := by
  unfold State.carHalt
  with_reducible repeat' first | assumption | intro _ | apply State.forBelow_inv | apply State.modCar_inv

theorem State.carFrame_inv {s : State} (i : Nat) (h : s.Inv) : (State.carFrame s i).Inv := by
  unfold State.carFrame
  with_reducible repeat' first | assumption | apply State.rtRead_inv | apply State.modCar_inv | apply State.Inv.ite

theorem State.specReady_inv {s : State} (i : Nat) (num : Nat) (fl : BitVec 16) (bins : List BinAcc) (h : s.Inv) :
    (State.specReady s i num fl bins).Inv := by
  unfold State.specReady
  with_reducible repeat' first
    | assumption | apply State.rtStore_inv | apply State.setBit_inv | apply State.addReg_inv | apply State.raiseIf_inv
    | apply State.modCar_inv | apply State.raiseFlag_inv | apply State.satReg_inv | apply State.Inv.ite

theorem State.specPush_inv {s : State} (i : Nat) (num : Nat) (h : s.Inv) : (State.specPush s i num).Inv := by
  unfold State.specPush
  with_reducible repeat' first
    | assumption | intro _ | apply State.eccRead_inv | apply State.nextSeqNo_inv | apply State.pushClassC_inv
    | apply State.modCar_inv | apply State.Inv.foldl

theorem State.specFlag_inv {s : State} (i : Nat) (P : Nat) (b : Nat) (h : s.Inv) : (State.specFlag s i P b).Inv := by
  unfold State.specFlag
  with_reducible repeat' first | assumption | apply State.modCar_inv | apply State.Inv.ite

theorem State.carBeat_inv {s : State} (h : s.Inv) : (State.carBeat s).Inv := by
  unfold State.carBeat
  with_reducible repeat' first
    | assumption | intro _ | apply State.forBelow_inv | apply State.specFlag_inv | apply State.Inv.ite

theorem State.carSessGone_inv {s : State} (u : Nat) (h : s.Inv) : (State.carSessGone s u).Inv := by
  unfold State.carSessGone
  with_reducible repeat' first
    | assumption | intro _ | apply State.forBelow_inv | apply State.raiseFlag_inv | apply State.modCar_inv | apply State.Inv.ite

theorem execCarouselFrame_inv (i : Fin 8) {s : State} (h : s.Inv) : ∀ t, execCarouselFrame i s = .next t → t.Inv := by
  unfold execCarouselFrame
  intro t e
  refine State.Inv.ofNext ?_ e
  with_reducible repeat' first | assumption | apply State.carFrame_inv | apply State.Inv.ite

theorem execSpectrumReady_inv (i : Fin 8) {s : State} (h : s.Inv) : ∀ t, execSpectrumReady i s = .next t → t.Inv := by
  unfold execSpectrumReady
  intro t e
  refine State.Inv.ofNext ?_ e
  with_reducible repeat' first | assumption | apply State.specReady_inv | apply State.Inv.ite | split

theorem execSpectrumPush_inv (i : Fin 8) {s : State} (h : s.Inv) : ∀ t, execSpectrumPush i s = .next t → t.Inv := by
  unfold execSpectrumPush
  intro t e
  refine State.Inv.ofNext ?_ e
  with_reducible repeat' first | assumption | apply State.specPush_inv | split

theorem State.showThermal_inv {s : State} (h : s.Inv) : (State.showThermal s).Inv := by
  unfold State.showThermal
  with_reducible repeat' first | assumption | apply State.setFld_inv

theorem State.showSens_inv {s : State} (i : Nat) (h : s.Inv) : (State.showSens s i).Inv := by
  unfold State.showSens
  with_reducible repeat' first | assumption | apply State.setFld_inv

theorem State.clearShut_inv {s : State} (force : Bool) (h : s.Inv) : (State.clearShut s force).Inv := by
  unfold State.clearShut
  with_reducible repeat' first
    | assumption | intro _ | apply State.forBias_inv | apply State.clearAssert_inv | apply State.Inv.ite | split
    | fail_if_no_progress (refine State.Inv.upd ?_ rfl)

theorem State.newNonce_inv {s : State} (h : s.Inv) : (State.newNonce s).Inv := by
  unfold State.newNonce
  dsimp only
  with_reducible repeat' first | assumption | apply State.draw_inv | apply State.modSec_inv

theorem State.endSecOp_inv {s : State} (o : SecOp) (e : Err) (h : s.Inv) : (State.endSecOp s o e).Inv := by
  unfold State.endSecOp
  with_reducible repeat' first
    | assumption | apply State.newNonce_inv | apply State.modSec_inv | apply State.setReg_inv | apply State.Inv.ite

theorem State.shutSec_inv {s : State} (h : s.Inv) : (State.shutSec s).Inv := by
  unfold State.shutSec
  with_reducible repeat' first | assumption | apply State.endSecOp_inv | apply State.Inv.ite | split

theorem State.startShutdown_inv {s : State} (i : Nat) (second : Bool) (h : s.Inv) : (State.startShutdown s i second).Inv := by
  unfold State.startShutdown
  with_reducible repeat' first
    | assumption | intro _ | apply State.raiseEvent_inv | apply State.modHk_inv | apply State.setFld_inv
    | apply State.forBelow_inv | apply State.requestAbort_inv | apply State.shutSec_inv | apply State.carHalt_inv
    | apply State.clearShut_inv | with_unfolding_all (show HkUnit.Sized _; exact ‹HkUnit.Sized _›)
    | apply State.Inv.ite

theorem State.cutNvm_inv {s : State} (h : s.Inv) : (State.cutNvm s).Inv := by
  unfold State.cutNvm
  dsimp only
  with_reducible repeat' first | assumption | apply State.cutStore_inv | apply State.endSecOp_inv | apply State.Inv.ite | split

theorem State.powerDown_inv {s : State} (h : s.Inv) : (State.powerDown s).Inv := by
  unfold State.powerDown
  with_reducible repeat' first
    | assumption | intro _ | apply State.modHk_inv | apply State.forBelow_inv | apply State.modLink_inv | apply State.modCal_inv
    | with_unfolding_all (show HkUnit.Sized _; exact ‹HkUnit.Sized _›)
    | with_unfolding_all (show CalUnit.Sized _; simp_all [CalUnit.Sized])
    | apply State.Inv.ite

theorem State.allTx_inv {s : State} (o : TxOut) (h : s.Inv) : (State.allTx s o).Inv := by
  unfold State.allTx
  with_reducible repeat' first | assumption | intro _ | apply State.forBelow_inv | apply State.modTx_inv

theorem State.rampDownTx_inv {s : State} (t0 : Nat) (h : s.Inv) : (State.rampDownTx s t0).Inv := by
  unfold State.rampDownTx
  with_reducible repeat' first | assumption | intro _ | apply State.forBelow_inv | apply State.modTx_inv

theorem State.shutPower_inv {s : State} (h : s.Inv) : (State.shutPower s).Inv := by
  unfold State.shutPower
  with_reducible repeat' first
    | assumption | intro _ | apply State.rampDownTx_inv | apply State.powerDown_inv | apply State.modHk_inv | apply State.cutNvm_inv
    | with_unfolding_all (show HkUnit.Sized _; exact ‹HkUnit.Sized _›)

theorem State.trip_inv {s : State} (h : s.Inv) : (State.trip s).Inv := by
  unfold State.trip
  dsimp only
  with_reducible repeat' first
    | assumption | intro _ | apply State.setBit_inv | apply State.modHk_inv | apply State.forBelow_inv
    | apply State.requestAbort_inv | apply State.cutNvm_inv | apply State.carHalt_inv | apply State.clearShut_inv
    | apply State.draw_inv | apply State.modSec_inv | with_unfolding_all (show HkUnit.Sized _; exact ‹HkUnit.Sized _›)
    | apply State.Inv.ite | split

theorem State.tripBeat_inv {s : State} (h : s.Inv) : (State.tripBeat s).Inv := by
  unfold State.tripBeat
  with_reducible repeat' first
    | assumption | intro _ | apply State.allTx_inv | apply State.modHk_inv
    | with_unfolding_all (show HkUnit.Sized _; exact ‹HkUnit.Sized _›)
    | apply State.Inv.ite | split

theorem State.breakSens_inv {s : State} (i : Nat) (cause : Nat) (h : s.Inv) : (State.breakSens s i cause).Inv := by
  unfold State.breakSens
  with_reducible repeat' first
    | assumption | apply State.raiseFlag_inv | apply State.modSens_inv | apply State.setBit_inv | apply State.setFld_inv
    | apply State.raiseEvent_inv | apply State.startShutdown_inv | apply State.Inv.ite

theorem State.countTemp_inv {s : State} (i : Nat) (t0 : Int) (h : s.Inv) : (State.countTemp s i t0).Inv := by
  unfold State.countTemp
  with_reducible repeat' first
    | assumption | apply State.modSens_inv | apply State.raiseEvent_inv | apply State.raiseFlag_inv
    | apply State.startShutdown_inv | apply State.showThermal_inv | apply State.showSens_inv | apply State.Inv.ite | split

theorem State.tempReading_inv {s : State} (i : Nat) (code : Nat) (t0 : Int) (h : s.Inv) :
    (State.tempReading s i code t0).Inv := by
  unfold State.tempReading
  dsimp only
  with_reducible repeat' first
    | assumption | apply State.countTemp_inv | apply State.modSens_inv | apply State.breakSens_inv | apply State.Inv.ite | split

theorem State.supplyReading_inv {s : State} (m : Nat) (v : Int) (h : s.Inv) : (State.supplyReading s m v).Inv := by
  unfold State.supplyReading
  with_reducible repeat' first | assumption | apply State.raiseIf_inv | apply State.setBit_inv

theorem State.drawRefs_inv {s : State} (h : s.Inv) : (State.drawRefs s).Inv := by
  unfold State.drawRefs
  dsimp only
  with_reducible repeat' first
    | assumption | intro _ | apply State.draw_inv | apply State.modHk_inv | with_unfolding_all (show HkUnit.Sized _; exact ‹HkUnit.Sized _›)

theorem State.edgeBeat_inv {s : State} (h : s.Inv) : (State.edgeBeat s).Inv := by
  unfold State.edgeBeat
  with_reducible repeat' first
    | assumption | intro _ | apply State.modHk_inv | with_unfolding_all (show HkUnit.Sized _; exact ‹HkUnit.Sized _›)
    | apply State.Inv.ite

theorem State.startRound_inv {s : State} (h : s.Inv) : (State.startRound s).Inv := by
  unfold State.startRound
  with_reducible repeat' first
    | assumption | intro _ | apply State.drawRefs_inv | apply State.modHk_inv
    | with_unfolding_all (show HkUnit.Sized _; exact ‹HkUnit.Sized _›)

theorem State.endRound_inv {s : State} (h : s.Inv) : (State.endRound s).Inv := by
  unfold State.endRound
  with_reducible repeat' first
    | assumption | intro _ | apply State.addReg_inv | apply State.modHk_inv | apply State.raiseIf_inv | apply State.edgeBeat_inv
    | with_unfolding_all (show HkUnit.Sized _; exact ‹HkUnit.Sized _›)
    | apply State.Inv.ite

theorem State.conversion_inv {s : State} (code : BitVec 12) (val : Int) (h : s.Inv) : (State.conversion s code val).Inv := by
  unfold State.conversion
  with_reducible repeat' first
    | assumption | intro _ | apply State.setReg_inv | apply State.modHk_inv | apply State.tempReading_inv
    | apply State.supplyReading_inv | apply State.biasReadback_inv | apply State.endRound_inv
    | with_unfolding_all (show HkUnit.Sized _; exact ‹HkUnit.Sized _›)
    | apply State.Inv.ite

theorem State.fanUpdate_inv {s : State} (f : Nat) (rpm : BitVec 16) (h : s.Inv) : (State.fanUpdate s f rpm).Inv := by
  unfold State.fanUpdate
  with_reducible repeat' first
    | assumption | intro _ | apply State.modHk_inv | apply State.setReg_inv | apply State.raiseIf_inv
    | with_unfolding_all (show HkUnit.Sized _; simp_all [HkUnit.Sized])

theorem State.telemetry_inv {s : State} (num : Nat) (b : Nat) (h : s.Inv) : (State.telemetry s num b).Inv := by
  unfold State.telemetry
  dsimp only
  with_reducible repeat' first
    | assumption | intro _ | apply State.nextSeqNo_inv | apply State.modHk_inv | apply State.pushClassC_inv
    | with_unfolding_all (show HkUnit.Sized _; exact ‹HkUnit.Sized _›)
    | apply State.Inv.ite

theorem execHkRoundStart_inv (edge : Bool) {s : State} (h : s.Inv) : ∀ t, execHkRoundStart edge s = .next t → t.Inv := by
  unfold execHkRoundStart
  intro t e
  refine State.Inv.ofNext ?_ e
  with_reducible repeat' first | assumption | apply State.startRound_inv | apply State.raiseFlag_inv | apply State.Inv.ite

theorem execHkConversion_inv (code : BitVec 12) (val : Int) {s : State} (h : s.Inv) :
    ∀ t, execHkConversion code val s = .next t → t.Inv := by
  unfold execHkConversion
  intro t e
  refine State.Inv.ofNext ?_ e
  with_reducible repeat' first | assumption | apply State.conversion_inv | apply State.Inv.ite

theorem execShutdownPowerDown_inv {s : State} (h : s.Inv) : ∀ t, execShutdownPowerDown s = .next t → t.Inv := by
  unfold execShutdownPowerDown
  intro t e
  refine State.Inv.ofNext ?_ e
  with_reducible repeat' first | assumption | apply State.shutPower_inv | apply State.Inv.ite

theorem execShutdownDone_inv {s : State} (h : s.Inv) : ∀ t, execShutdownDone s = .next t → t.Inv := by
  unfold execShutdownDone
  intro t e
  refine State.Inv.ofNext ?_ e
  with_reducible repeat' first | assumption | apply State.allTx_inv | apply State.setBit_inv | apply State.Inv.ite | split

theorem execHardTrip_inv (i : Fin 16) {s : State} (h : s.Inv) : ∀ t, execHardTrip i s = .next t → t.Inv := by
  unfold execHardTrip
  intro t e
  refine State.Inv.ofNext ?_ e
  with_reducible repeat' first | assumption | apply State.trip_inv | apply State.Inv.ite

theorem execFanTachUpdate_inv (f : Fin 2) (rpm : BitVec 16) {s : State} (h : s.Inv) :
    ∀ t, execFanTachUpdate f rpm s = .next t → t.Inv := by
  unfold execFanTachUpdate
  intro t e
  refine State.Inv.ofNext ?_ e
  with_reducible repeat' first | assumption | apply State.fanUpdate_inv | apply State.Inv.ite

theorem execTelemetryPush_inv {s : State} (h : s.Inv) : ∀ t, execTelemetryPush s = .next t → t.Inv := by
  unfold execTelemetryPush
  intro t e
  refine State.Inv.ofNext ?_ e
  with_reducible repeat' first | assumption | apply State.telemetry_inv | split

theorem State.startSecOp_inv {s : State} (o : SecOp) (h : s.Inv) : (State.startSecOp s o).Inv := by
  unfold State.startSecOp
  with_reducible repeat' first | assumption | apply State.modSec_inv | apply State.setFld_inv

theorem State.fwUpdDo_inv {s : State} (v : Word) (h : s.Inv) : (State.fwUpdDo s v).Inv := by
  unfold State.fwUpdDo
  with_reducible repeat' first | assumption | apply State.startSecOp_inv | apply State.eccRead_inv | apply State.Inv.ite

theorem State.beginUpdate_inv {s : State} (o : SecOp) (h : s.Inv) : (State.beginUpdate s o).Inv := by
  unfold State.beginUpdate
  with_reducible repeat' first | assumption | apply State.modSec_inv | apply State.modNvm_inv

theorem State.finishUpdate_inv {s : State} (o : SecOp) (ok : Bool) (h : s.Inv) : (State.finishUpdate s o ok).Inv := by
  unfold State.finishUpdate
  with_reducible repeat' first
    | assumption | apply State.modNvm_inv | apply State.endSecOp_inv | apply State.slotInvalid_inv | apply State.Inv.ite | split
    | fail_if_no_progress (refine State.Inv.upd ?_ rfl)

theorem State.stepUpdate_inv {s : State} (o : SecOp) (ok : Bool) (h : s.Inv) : (State.stepUpdate s o ok).Inv := by
  unfold State.stepUpdate
  with_reducible repeat' first
    | assumption | apply State.finishUpdate_inv | apply State.beginUpdate_inv | apply State.endSecOp_inv | apply State.Inv.ite

theorem State.fuseDo_inv {s : State} (v : Word) (h : s.Inv) : (State.fuseDo s v).Inv := by
  unfold State.fuseDo
  with_reducible repeat' first | assumption | apply State.startSecOp_inv

theorem State.finishFuse_inv {s : State} (o : SecOp) (op : Nat) (h : s.Inv) : (State.finishFuse s o op).Inv := by
  unfold State.finishFuse
  with_reducible repeat' first | assumption | apply State.endSecOp_inv | apply State.modSec_inv

theorem State.attDo_inv {s : State} (v : Word) (h : s.Inv) : (State.attDo s v).Inv := by
  unfold State.attDo
  with_reducible repeat' first | assumption | apply State.startSecOp_inv | apply State.Inv.ite

theorem State.finishAtt_inv {s : State} (o : SecOp) (h : s.Inv) : (State.finishAtt s o).Inv := by
  unfold State.finishAtt
  with_reducible repeat' first
    | assumption | intro _ | apply State.setReg_inv | apply State.endSecOp_inv | apply State.addReg_inv | apply State.Inv.foldl

theorem State.ownDo_inv {s : State} (v : Word) (h : s.Inv) : (State.ownDo s v).Inv := by
  unfold State.ownDo
  with_reducible repeat' first | assumption | apply State.startSecOp_inv | apply State.eccRead_inv | apply State.Inv.ite

theorem State.beginOwner_inv {s : State} (o : SecOp) (h : s.Inv) : (State.beginOwner s o).Inv := by
  unfold State.beginOwner
  with_reducible repeat' first | assumption | apply State.modSec_inv | apply State.modNvm_inv

theorem State.writeOwner_inv {s : State} (locked : Bool) (hash : List Byte) (ok : Bool) (h : s.Inv) :
    (State.writeOwner s locked hash ok).Inv := by
  unfold State.writeOwner
  with_reducible repeat' first | assumption | apply State.modNvm_inv

theorem State.finishOwner_inv {s : State} (o : SecOp) (h : s.Inv) : (State.finishOwner s o).Inv := by
  unfold State.finishOwner
  dsimp only
  with_reducible repeat' first
    | assumption | apply State.endSecOp_inv | apply State.modSec_inv | apply State.setReg_inv | apply State.beginOwner_inv
    | apply State.writeOwner_inv | apply State.draw_inv | apply State.Inv.ite

theorem State.stepOwner_inv {s : State} (o : SecOp) (h : s.Inv) : (State.stepOwner s o).Inv := by
  unfold State.stepOwner
  with_reducible repeat' first
    | assumption | apply State.finishOwner_inv | apply State.endSecOp_inv | apply State.setBit_inv | apply State.beginOwner_inv
    | apply State.Inv.ite | split

theorem State.bootFw_inv {s : State} (h : s.Inv) : (State.bootFw s).Inv := by
  unfold State.bootFw
  dsimp only
  with_reducible repeat' first
    | assumption | apply State.slotInvalid_inv | apply State.modSec_inv | apply State.raiseEvent_inv | split
    | fail_if_no_progress (refine State.Inv.upd ?_ rfl)

theorem State.loadOwner_inv {s : State} (h : s.Inv) : (State.loadOwner s).Inv := by
  unfold State.loadOwner
  dsimp only
  with_reducible repeat' first | assumption | apply State.modSec_inv | split

theorem execFwUpdateComplete_inv (readBack : Bool) {s : State} (h : s.Inv) :
    ∀ t, execFwUpdateComplete readBack s = .next t → t.Inv := by
  unfold execFwUpdateComplete
  intro t e
  refine State.Inv.ofNext ?_ e
  with_reducible repeat' first | assumption | apply State.stepUpdate_inv | apply State.Inv.ite | split

theorem execFuseWriteComplete_inv {s : State} (h : s.Inv) : ∀ t, execFuseWriteComplete s = .next t → t.Inv := by
  unfold execFuseWriteComplete
  intro t e
  refine State.Inv.ofNext ?_ e
  with_reducible repeat' first | assumption | apply State.finishFuse_inv | split

theorem execAttestationComplete_inv {s : State} (h : s.Inv) : ∀ t, execAttestationComplete s = .next t → t.Inv := by
  unfold execAttestationComplete
  intro t e
  refine State.Inv.ofNext ?_ e
  with_reducible repeat' first | assumption | apply State.finishAtt_inv | apply State.Inv.ite | split

theorem execOwnerOpComplete_inv {s : State} (h : s.Inv) : ∀ t, execOwnerOpComplete s = .next t → t.Inv := by
  unfold execOwnerOpComplete
  intro t e
  refine State.Inv.ofNext ?_ e
  with_reducible repeat' first | assumption | apply State.stepOwner_inv | split

end Sys2Proof.Machine
end

