-- ==== Sys2Proof/Laws/InvPower.lean ====
section
/-! SUPPORT. The invariant of the block through reset, power and the pin data path. -/

namespace Sys2Proof.Machine

theorem State.wiped_inv {s : State} (h : s.Inv) : (State.wiped s).Inv := by
  obtain ⟨⟨_, hm⟩, _⟩ := h
  refine ⟨⟨rfl, hm⟩, ?_, ?_, rfl, rfl, ?_, rfl, rfl, rfl, rfl, rfl, rfl, rfl, ?_, ?_⟩
  · exact (List.length_mapIdx ..).trans List.length_replicate
  · intro r hx
    obtain ⟨i, hi, rfl⟩ := List.mem_mapIdx.1 hx
    have h1 : ∀ a ∈ List.replicate 12 ({} : Ring), a.Sized := by
      intro a ha
      rw [List.eq_of_mem_replicate ha]
      exact ⟨rfl, rfl, rfl, rfl, rfl, rfl, rfl, rfl, rfl, rfl⟩
    have h2 := h1 _ (List.getElem_mem hi)
    exact ⟨h2.1, h2.2.1, (List.length_map ..).trans List.length_range, h2.2.2.2⟩
  · intro e he
    rw [List.eq_of_mem_replicate he]
    exact ⟨rfl, rfl, rfl⟩
  · exact ⟨rfl, rfl, rfl⟩
  · exact ⟨rfl, rfl⟩

theorem State.enterReset_inv {s : State} (cause : Nat) (h : s.Inv) : (State.enterReset s cause).Inv := by
  unfold State.enterReset
  with_reducible repeat' first | assumption | apply State.modRst_inv | apply State.wiped_inv | apply State.setReg_inv

theorem State.assertReset_inv {s : State} (c : ResetCause) (h : s.Inv) : (State.assertReset s c).Inv := by
  unfold State.assertReset
  with_reducible repeat' first
    | assumption | apply State.setReg_inv | apply State.setBit_inv | apply State.enterReset_inv | apply State.modRst_inv
    | apply State.Inv.ite

theorem State.endReset_inv {s : State} (h : s.Inv) : (State.endReset s).Inv := by
  unfold State.endReset
  with_reducible repeat' first
    | assumption | intro _ | apply State.modRst_inv | apply State.forBias_inv | apply State.modBias_inv | apply State.newNonce_inv
    | apply State.setReg_inv

theorem State.rstDo_inv {s : State} (v : Word) (h : s.Inv) : (State.rstDo s v).Inv := by
  unfold State.rstDo
  with_reducible repeat' first | assumption | apply State.modRst_inv | apply State.Inv.ite

theorem State.toPhase_inv {s : State} (p : Phase) (h : s.Inv) : (State.toPhase s p).Inv := by
  unfold State.toPhase
  with_reducible repeat' first | assumption | apply State.modRst_inv

theorem State.lastPhase_inv {s : State} (p : Phase) (h : s.Inv) : (State.lastPhase s p).Inv := by
  unfold State.lastPhase
  with_reducible repeat' first | assumption | apply State.setReg_inv | apply State.toPhase_inv

theorem State.loadNet_inv {s : State} (h : s.Inv) : (State.loadNet s).Inv := by
  unfold State.loadNet
  dsimp only
  with_reducible repeat' first
    | assumption | intro _ | apply State.setReg_inv | apply State.Inv.foldl | split
    | fail_if_no_progress (refine State.Inv.upd ?_ rfl)

theorem State.bootTake_inv {s : State} (n : Nat) (b : Nat) (h : s.Inv) : (State.bootTake s n b).Inv := by
  unfold State.bootTake
  with_reducible repeat' first | assumption | apply State.modBias_inv | apply State.clearTake_inv | apply State.Inv.ite

theorem State.biasBoot_inv {s : State} (h : s.Inv) : (State.biasBoot s).Inv := by
  unfold State.biasBoot
  with_reducible repeat' first
    | assumption | intro _ | apply State.forBias_inv | apply State.bootTake_inv | apply State.modBias_inv

theorem State.startPorts_inv {s : State} (h : s.Inv) : (State.startPorts s).Inv := by
  unfold State.startPorts
  with_reducible repeat' first
    | assumption | intro _ | apply State.forBelow_inv | apply State.modPort_inv
    | with_unfolding_all (show EthPort.Sized _; exact ‹EthPort.Sized _›)

theorem State.enterRecovery_inv {s : State} (h : s.Inv) : (State.enterRecovery s).Inv := by
  unfold State.enterRecovery
  with_reducible repeat' first
    | assumption | intro _ | apply State.biasBoot_inv | apply State.loadNet_inv | apply State.loadOwner_inv
    | apply State.loadCal_inv | apply State.showSpares_inv | apply State.clearAll_inv | apply State.forBelow_inv | apply State.setFld_inv
    | apply State.setBit_inv | apply State.lastPhase_inv | apply State.modHk_inv | apply State.startPorts_inv
    | apply State.modRst_inv | with_unfolding_all (show HkUnit.Sized _; exact ‹HkUnit.Sized _›)

theorem State.endBoot_inv {s : State} (h : s.Inv) : (State.endBoot s).Inv := by
  unfold State.endBoot
  with_reducible repeat' first
    | assumption | apply State.drawRefs_inv | apply State.modRst_inv | apply State.lastPhase_inv | apply State.enterRecovery_inv | apply State.toPhase_inv
    | apply State.Inv.ite

theorem State.endFw_inv {s : State} (h : s.Inv) : (State.endFw s).Inv := by
  unfold State.endFw
  with_reducible repeat' first
    | assumption | apply State.bootFw_inv | apply State.enterRecovery_inv | apply State.toPhase_inv | apply State.Inv.ite

theorem State.storeRepairs_inv {s : State} (h : s.Inv) : (State.storeRepairs s).Inv := by
  unfold State.storeRepairs
  dsimp only
  with_reducible repeat' first
    | assumption | apply State.finishStore_inv | apply State.draw_inv | apply State.startStore_inv | split

theorem State.startupTest_inv {s : State} (faults : List (Prod Nat (Prod Nat Nat))) (h : s.Inv) :
    (State.startupTest s faults).Inv := by
  unfold State.startupTest
  with_reducible repeat' first
    | assumption | intro _ | apply State.storeRepairs_inv | apply State.faultyRow_inv | apply State.Inv.foldl | apply State.Inv.ite

theorem State.endClear_inv {s : State} (faults : List (Prod Nat (Prod Nat Nat))) (h : s.Inv) :
    (State.endClear s faults).Inv := by
  unfold State.endClear
  with_reducible repeat' first
    | assumption | apply State.toPhase_inv | apply State.clearAll_inv | apply State.startupTest_inv | apply State.setBit_inv
    | apply State.loadRepair_inv | apply State.Inv.ite

theorem State.endPll_inv {s : State} (h : s.Inv) : (State.endPll s).Inv := by
  unfold State.endPll
  with_reducible repeat' first
    | assumption | apply State.loadOwner_inv | apply State.loadCal_inv | apply State.allTx_inv | apply State.modRst_inv
    | apply State.toPhase_inv | apply State.startPorts_inv | apply State.biasBoot_inv | apply State.loadNet_inv | apply State.Inv.ite

theorem State.endPhase_inv {s : State} (faults : List (Prod Nat (Prod Nat Nat))) (h : s.Inv) :
    (State.endPhase s faults).Inv := by
  unfold State.endPhase
  with_reducible repeat' first
    | assumption | apply State.endBoot_inv | apply State.endFw_inv | apply State.endClear_inv | apply State.endPll_inv | split

theorem State.rampBeat_inv {s : State} (h : s.Inv) : (State.rampBeat s).Inv := by
  unfold State.rampBeat
  with_reducible repeat' first
    | assumption | intro _ | apply State.forBelow_inv | apply State.modTx_inv | apply State.Inv.ite

theorem State.loseRef_inv {s : State} (h : s.Inv) : (State.loseRef s).Inv := by
  unfold State.loseRef
  with_reducible repeat' first
    | assumption | intro _ | apply State.raiseFlag_inv | apply State.modRst_inv | apply State.forBelow_inv
    | apply State.failLink_inv | apply State.Inv.ite | split | fail_if_no_progress (refine State.Inv.upd ?_ rfl)

theorem State.relockDo_inv {s : State} (v : Word) (h : s.Inv) : (State.relockDo s v).Inv := by
  unfold State.relockDo
  with_reducible repeat' first
    | assumption | intro _ | apply State.forBelow_inv | apply State.modRst_inv | apply State.modRx_inv | apply State.Inv.ite

theorem State.endRelock_inv {s : State} (h : s.Inv) : (State.endRelock s).Inv := by
  unfold State.endRelock
  with_reducible repeat' first | assumption | apply State.raiseFlag_inv | apply State.modRst_inv

theorem State.capture_inv {s : State} (h : s.Inv) : (State.capture s).Inv := by
  unfold State.capture
  with_reducible repeat' first
    | assumption | apply State.raiseFlag_inv | apply State.setReg64_inv | apply State.modRst_inv | apply State.raiseIf_inv
    | apply State.Inv.ite | split | fail_if_no_progress (refine State.Inv.upd ?_ rfl)

theorem State.syncCmdDo_inv {s : State} (v : Word) (h : s.Inv) : (State.syncCmdDo s v).Inv := by
  unfold State.syncCmdDo
  with_reducible repeat' first | assumption | apply State.modRst_inv | apply State.Inv.ite

theorem execResetAssert_inv (c : ResetCause) {s : State} (h : s.Inv) : ∀ t, execResetAssert c s = .next t → t.Inv := by
  unfold execResetAssert
  intro t e
  refine State.Inv.ofNext ?_ e
  with_reducible repeat' first | assumption | apply State.assertReset_inv

theorem execResetEnd_inv {s : State} (h : s.Inv) : ∀ t, execResetEnd s = .next t → t.Inv := by
  unfold execResetEnd
  intro t e
  refine State.Inv.ofNext ?_ e
  with_reducible repeat' first | assumption | apply State.endReset_inv | apply State.Inv.ite

theorem execSoftwareResetExpiry_inv {s : State} (h : s.Inv) : ∀ t, execSoftwareResetExpiry s = .next t → t.Inv := by
  unfold execSoftwareResetExpiry
  intro t e
  refine State.Inv.ofNext ?_ e
  with_reducible repeat' first | assumption | apply State.modRst_inv | apply State.enterReset_inv | apply State.Inv.ite | split

theorem execStartupPhaseComplete_inv (faults : List (Prod Nat (Prod Nat Nat))) {s : State} (h : s.Inv) :
    ∀ t, execStartupPhaseComplete faults s = .next t → t.Inv := by
  unfold execStartupPhaseComplete
  intro t e
  refine State.Inv.ofNext ?_ e
  with_reducible repeat' first | assumption | apply State.endPhase_inv | apply State.Inv.ite

theorem execLinkPhaseTimeout_inv {s : State} (h : s.Inv) : ∀ t, execLinkPhaseTimeout s = .next t → t.Inv := by
  unfold execLinkPhaseTimeout
  intro t e
  refine State.Inv.ofNext ?_ e
  with_reducible repeat' first | assumption | apply State.lastPhase_inv | apply State.Inv.ite

theorem execRefClkLost_inv {s : State} (h : s.Inv) : ∀ t, execRefClkLost s = .next t → t.Inv := by
  unfold execRefClkLost
  intro t e
  refine State.Inv.ofNext ?_ e
  with_reducible repeat' first | assumption | apply State.loseRef_inv

theorem execRefClkReturn_inv {s : State} (h : s.Inv) : ∀ t, execRefClkReturn s = .next t → t.Inv := by
  unfold execRefClkReturn
  intro t e
  refine State.Inv.ofNext ?_ e
  with_reducible repeat' first | assumption | apply State.modRst_inv

theorem execRelockDone_inv {s : State} (h : s.Inv) : ∀ t, execRelockDone s = .next t → t.Inv := by
  unfold execRelockDone
  intro t e
  refine State.Inv.ofNext ?_ e
  with_reducible repeat' first | assumption | apply State.endRelock_inv | apply State.Inv.ite | split

theorem execSyncCapture_inv {s : State} (h : s.Inv) : ∀ t, execSyncCapture s = .next t → t.Inv := by
  unfold execSyncCapture
  intro t e
  refine State.Inv.ofNext ?_ e
  with_reducible repeat' first | assumption | apply State.capture_inv | apply State.Inv.ite

theorem execSyncPulsePeriodic_inv {s : State} (h : s.Inv) : ∀ t, execSyncPulsePeriodic s = .next t → t.Inv := by
  unfold execSyncPulsePeriodic
  intro t e
  refine State.Inv.ofNext ?_ e
  with_reducible repeat' first | assumption | apply State.modRst_inv | apply State.Inv.ite

theorem State.setNco_inv {s : State} (n : Nat) (v : Nat) (x : State.Nco) (h : s.Inv) : (State.setNco s n v x).Inv := by
  unfold State.setNco
  with_reducible repeat' first | assumption | apply State.modVoice_inv | apply State.setReg_inv | apply State.setReg64_inv

theorem State.voicePins_inv {s : State} (n : Nat) (v : Nat) (h : s.Inv) : (State.voicePins s n v).Inv := by
  unfold State.voicePins
  with_reducible repeat' first | assumption | apply State.modVoice_inv | apply State.setNco_inv | apply State.Inv.ite

theorem State.hostFreq_inv {s : State} (n : Nat) (v : Nat) (f : BitVec 64) (h : s.Inv) : (State.hostFreq s n v f).Inv := by
  unfold State.hostFreq
  with_reducible repeat' first | assumption | apply State.setNco_inv

theorem State.hostLaneFreq_inv {s : State} (n : Nat) (l : Nat) (f : BitVec 64) (h : s.Inv) :
    (State.hostLaneFreq s n l f).Inv := by
  unfold State.hostLaneFreq
  with_reducible repeat' first | assumption | apply State.lanePin_inv | apply State.lanePins_inv

theorem State.readPair_inv {s : State} (n : Nat) (v : Nat) (g : Seg) (m : Nat) (h : s.Inv) : (State.readPair s n v g m).2.Inv := by
  unfold State.readPair
  dsimp only
  with_reducible repeat' first | assumption | apply State.touch_inv | apply State.modVoice_inv | apply State.eccRead_inv | split

theorem State.envSample_inv {s : State} (n : Nat) (v : Nat) (k : Nat) (h : s.Inv) : (State.envSample s n v k).2.Inv := by
  unfold State.envSample
  dsimp only
  with_reducible repeat' first | assumption | apply State.readPair_inv | split

theorem State.envBeat_inv {s : State} (n : Nat) (v : Nat) (P : Nat) (h : s.Inv) : (State.envBeat s n v P).Inv := by
  unfold State.envBeat
  with_reducible repeat' first
    | assumption | intro _ | apply State.envSample_inv | apply State.modVoice_inv | apply State.Inv.foldlSnd | apply State.Inv.ite

theorem State.fetchBeat_inv {s : State} (n : Nat) (v : Nat) (h : s.Inv) : (State.fetchBeat s n v).Inv := by
  unfold State.fetchBeat
  with_reducible repeat' first
    | assumption | intro _ | apply State.rtRead_inv | apply State.modVoice_inv | apply State.Inv.foldl | apply State.Inv.ite

theorem State.sumBeat_inv {s : State} (n : Nat) (c : Nat) (P : Nat) (h : s.Inv) : (State.sumBeat s n c P).Inv := by
  unfold State.sumBeat
  with_reducible repeat' first | assumption | apply State.modTx_inv

theorem State.putSums_inv {s : State} (n : Nat) (c : Nat) (P : Nat) (h : s.Inv) : (State.putSums s n c P).Inv := by
  unfold State.putSums
  with_reducible repeat' first | assumption | apply State.modTx_inv

theorem State.shiftBeat_inv {s : State} (n : Nat) (c : Nat) (P : Nat) (h : s.Inv) : (State.shiftBeat s n c P).Inv := by
  unfold State.shiftBeat
  with_reducible repeat' first | assumption | apply State.raiseIf_inv | apply State.putSums_inv

theorem State.putCodes_inv {s : State} (n : Nat) (c : Nat) (P : Nat) (zs : List Int) (h : s.Inv) :
    (State.putCodes s n c P zs).Inv := by
  unfold State.putCodes
  with_reducible repeat' first | assumption | apply State.modTx_inv

theorem State.codeBeat_inv {s : State} (n : Nat) (c : Nat) (P : Nat) (h : s.Inv) : (State.codeBeat s n c P).Inv := by
  unfold State.codeBeat
  with_reducible repeat' first | assumption | apply State.raiseIf_inv | apply State.putCodes_inv

theorem State.codePin_inv {s : State} (h : s.Inv) : (State.codePin s).Inv := by
  unfold State.codePin
  with_reducible repeat' first
    | assumption | intro _ | apply State.forBelow_inv | apply State.putCodes_inv | apply State.Inv.ite

theorem State.redoVoice_inv {s : State} (n : Nat) (v : Nat) (P : Nat) (h : s.Inv) : (State.redoVoice s n v P).Inv := by
  unfold State.redoVoice
  with_reducible repeat' first | assumption | intro _ | apply State.modVoice_inv | apply State.envBeat_inv | apply State.Inv.foldl

theorem State.redoTx_inv {s : State} (n : Nat) (c : Nat) (P : Nat) (h : s.Inv) : (State.redoTx s n c P).Inv := by
  unfold State.redoTx
  with_reducible repeat' first
    | assumption | intro _ | apply State.forBelow_inv | apply State.putSums_inv | apply State.sumBeat_inv
    | apply State.putCodes_inv | apply State.Inv.ite

theorem State.redoRing_inv {s : State} (n : Nat) (h : s.Inv) : (State.redoRing s n).Inv := by
  unfold State.redoRing
  with_reducible repeat' first
    | assumption | intro _ | apply State.forBelow_inv | apply State.redoVoice_inv | apply State.redoTx_inv | split

theorem State.txBeat_inv {s : State} (h : s.Inv) : (State.txBeat s).Inv := by
  unfold State.txBeat
  with_reducible repeat' first
    | assumption | intro _ | apply State.forBelow_inv | apply State.redoRing_inv | apply State.envBeat_inv
    | apply State.fetchBeat_inv | apply State.codeBeat_inv | apply State.shiftBeat_inv | apply State.sumBeat_inv

theorem State.jumpTaken_inv {s : State} (n : Nat) (v : Nat) (h : s.Inv) : (State.jumpTaken s n v).Inv := by
  unfold State.jumpTaken
  with_reducible repeat' first | assumption | apply State.modVoice_inv | apply State.Inv.ite

theorem State.pinBeat_inv {s : State} (h : s.Inv) : (State.pinBeat s).Inv := by
  unfold State.pinBeat
  with_reducible repeat' first
    | assumption | intro _ | apply State.forBelow_inv | apply State.jumpTaken_inv | apply State.voicePins_inv

end Sys2Proof.Machine
end

