-- ==== Sys2Proof/Laws/InvEth.lean ====
section
/-! SUPPORT. The invariant of the block through PTP, the ports, sessions and the effect of register writes. -/

namespace Sys2Proof.Machine

theorem State.ptpOut_inv {s : State} (p : Nat) (typ : BitVec 4) (two : Bool) (id : BitVec 16) (corr : BitVec 64) (body : List Byte) (h : s.Inv) :
    (State.ptpOut s p typ two id corr body).Inv := by
  unfold State.ptpOut
  with_reducible repeat' first | assumption | apply State.sendFrame_inv

theorem State.setTsq_inv {s : State} (p : Nat) (q : List Tsq) (h : s.Inv) : (State.setTsq s p q).Inv := by
  unfold State.setTsq
  with_reducible repeat' first | assumption | apply State.modTime_inv

theorem State.pdelayDone_inv {s : State} (id : BitVec 16) (h : s.Inv) : (State.pdelayDone s id).Inv := by
  unfold State.pdelayDone
  with_reducible repeat' first | assumption | apply State.modTime_inv

theorem State.ptpLeaves_inv {s : State} (p : Nat) (f : OutFrame) (h : s.Inv) : (State.ptpLeaves s p f).1.Inv := by
  unfold State.ptpLeaves
  dsimp only
  with_reducible repeat' first
    | assumption | apply State.raiseEvent_inv | apply State.raiseFlag_inv | apply State.satReg_inv | apply State.setTsq_inv
    | apply State.pdelayDone_inv | apply State.Inv.ite | split

theorem State.tsqTake_inv {s : State} (p : Nat) (h : s.Inv) : (State.tsqTake s p).Inv := by
  unfold State.tsqTake
  with_reducible repeat' first
    | assumption | apply State.setTsq_inv | apply State.ptpOut_inv | apply State.pdelayDone_inv | apply State.modTime_inv
    | apply State.Inv.ite | split

theorem State.ptpSend_inv {s : State} (p : Nat) (typ : BitVec 4) (h : s.Inv) : (State.ptpSend s p typ).Inv := by
  unfold State.ptpSend
  dsimp only
  with_reducible repeat' first | assumption | apply State.draw_inv | apply State.modTime_inv | apply State.ptpOut_inv | split

theorem State.servoAdjust_inv {s : State} (inc : Nat) (step : Int) (B : Nat) (h : s.Inv) :
    (State.servoAdjust s inc step B).Inv := by
  unfold State.servoAdjust
  with_reducible repeat' first | assumption | apply State.setReg64_inv | apply State.setReg_inv | apply State.Inv.ite

theorem State.ptpMeasure_inv {s : State} (off : Int) (h : s.Inv) : (State.ptpMeasure s off).Inv := by
  unfold State.ptpMeasure
  with_reducible repeat' first
    | assumption | apply State.addReg_inv | apply State.setReg64_inv | apply State.modTime_inv | apply State.raiseFlag_inv
    | apply State.servoAdjust_inv | apply State.draw_inv | apply State.Inv.ite

theorem State.ptpSync_inv {s : State} (t1 : Int) (t2 : Int) (h : s.Inv) : (State.ptpSync s t1 t2).Inv := by
  unfold State.ptpSync
  with_reducible repeat' first | assumption | apply State.modTime_inv | apply State.ptpMeasure_inv

theorem State.ptpMaster_inv {s : State} (h : s.Inv) : (State.ptpMaster s).Inv := by
  unfold State.ptpMaster
  with_reducible repeat' first | assumption | apply State.modTime_inv | apply State.Inv.ite

theorem State.ptpFollow_inv {s : State} (f : Foreign) (h : s.Inv) : (State.ptpFollow s f).Inv := by
  unfold State.ptpFollow
  with_reducible repeat' first | assumption | apply State.modTime_inv | apply State.Inv.ite

theorem State.ptpPassive_inv {s : State} (f : Foreign) (h : s.Inv) : (State.ptpPassive s f).Inv := by
  unfold State.ptpPassive
  with_reducible repeat' first | assumption | apply State.modTime_inv | apply State.Inv.ite

theorem State.ptpDecide_inv {s : State} (h : s.Inv) : (State.ptpDecide s).Inv := by
  unfold State.ptpDecide
  with_reducible repeat' first
    | assumption | apply State.ptpFollow_inv | apply State.ptpMaster_inv | apply State.ptpPassive_inv | apply State.Inv.ite | split

theorem State.ptpAnnounced_inv {s : State} (m : PtpMsg) (h : s.Inv) : (State.ptpAnnounced s m).Inv := by
  unfold State.ptpAnnounced
  with_reducible repeat' first | assumption | apply State.modTime_inv | apply State.ptpDecide_inv | apply State.Inv.ite

theorem State.announceLost_inv {s : State} (h : s.Inv) : (State.announceLost s).Inv := by
  unfold State.announceLost
  with_reducible repeat' first | assumption | apply State.modTime_inv | apply State.ptpMaster_inv | apply State.Inv.ite

theorem State.delayResp_inv {s : State} (p : Nat) (m : PtpMsg) (t4 : Int) (h : s.Inv) : (State.delayResp s p m t4).Inv := by
  unfold State.delayResp
  with_reducible repeat' first | assumption | apply State.ptpOut_inv

theorem State.pdelayResp_inv {s : State} (p : Nat) (m : PtpMsg) (ts : BitVec 48) (h : s.Inv) :
    (State.pdelayResp s p m ts).Inv := by
  unfold State.pdelayResp
  with_reducible repeat' first | assumption | apply State.modTime_inv | apply State.ptpOut_inv

theorem State.ptpReceive_inv {s : State} (p : Nat) (m : PtpMsg) (h : s.Inv) : (State.ptpReceive s p m).Inv := by
  unfold State.ptpReceive
  with_reducible repeat' first
    | assumption | apply State.modTime_inv | apply State.ptpSync_inv | apply State.delayResp_inv | apply State.pdelayResp_inv
    | apply State.ptpAnnounced_inv | apply State.Inv.ite | split

theorem State.ptpBeat_inv {s : State} (h : s.Inv) : (State.ptpBeat s).Inv := by
  unfold State.ptpBeat
  with_reducible repeat' first
    | assumption | intro _ | apply State.announceLost_inv | apply State.modTime_inv | apply State.forBelow_inv
    | apply State.tsqTake_inv | apply State.Inv.ite

theorem State.ptpStart_inv {s : State} (h : s.Inv) : (State.ptpStart s).Inv := by
  unfold State.ptpStart
  with_reducible repeat' first | assumption | apply State.modTime_inv

theorem State.ptpCtrlDo_inv {s : State} (v : Word) (h : s.Inv) : (State.ptpCtrlDo s v).Inv := by
  unfold State.ptpCtrlDo
  with_reducible repeat' first
    | assumption | apply State.setReg_inv | apply State.ptpStart_inv | apply State.modTime_inv | apply State.Inv.ite

theorem execPtpMessageSend_inv (p : Port) (typ : BitVec 4) {s : State} (h : s.Inv) :
    ∀ t, execPtpMessageSend p typ s = .next t → t.Inv := by
  unfold execPtpMessageSend
  intro t e
  refine State.Inv.ofNext ?_ e
  with_reducible repeat' first | assumption | apply State.ptpSend_inv | apply State.Inv.ite

theorem execPtpHoldover_inv {s : State} (h : s.Inv) : ∀ t, execPtpHoldover s = .next t → t.Inv := by
  unfold execPtpHoldover
  intro t e
  refine State.Inv.ofNext ?_ e
  with_reducible repeat' first | assumption | apply State.raiseFlag_inv | apply State.modTime_inv | apply State.Inv.ite

theorem State.rxFrame_inv {s : State} (p : Nat) (len : Nat) (q : Nat) (h : s.Inv) : (State.rxFrame s p len q).1.Inv := by
  unfold State.rxFrame
  dsimp only
  split
  · exact h
  · have h1 : ((s.addReg64 (Reg.ethRxFramesLo p) 1).modPort p fun e =>
        if e.badRun = 0 then e else { e with badRun := 0, lossFrom := if e.locked then none else e.lossFrom }).Inv :=
      modPort_inv _ _ (fun e h => by split <;> exact h) (addReg64_inv _ _ h)
    split
    · exact raiseFlag_inv _ _ (satReg_inv _ h1)
    · have h2 := modPort_inv p (fun e => { e with ingress := e.ingress.modify q (· + len) })
        (fun e h => ⟨(List.length_modify ..).trans h.1, h.2⟩) h1
      split
      · exact modPort_inv _ _ (fun e h => ⟨h.1, (List.length_set ..).trans h.2.1, h.2.2⟩) (sendFrame_inv _ _ h2)
      · exact h2

theorem State.macTakes_inv {s : State} (p : Nat) (h0 : RxHead) (len : Nat) (h : s.Inv) :
    (State.macTakes s p h0 len).1.Inv := by
  have h1 := State.rxFrame_inv p 0 0 h
  unfold State.macTakes
  exact Inv.iteFst (Inv.ite (raiseFlag_inv _ _ h1) h1) (Inv.iteFst (rxFrame_inv _ _ _ h) (Inv.ite (satReg_inv _ h1) h1))

theorem State.ingressBeat_inv {s : State} (h : s.Inv) : (State.ingressBeat s).Inv := by
  unfold State.ingressBeat
  with_reducible repeat' first
    | assumption | intro _ | apply State.forBelow_inv | apply State.modPort_inv
    | with_unfolding_all (show EthPort.Sized _; simp_all [EthPort.Sized]) | apply State.Inv.ite

theorem State.handedOver_inv {s : State} (f : OutFrame) (h : s.Inv) : (State.handedOver s f).Inv := by
  unfold State.handedOver
  with_reducible repeat' first
    | assumption | intro _ | apply State.freeBelow_inv | apply State.Inv.foldl | apply State.Inv.ite

theorem State.egressBeat_inv {s : State} (p : Nat) (h : s.Inv) : (State.egressBeat s p).Inv := by
  unfold State.egressBeat
  dsimp only
  split
  · exact h
  · by_cases hp : p < s.ports.length
    · have hz : (s.port p).Sized := by
        rw [State.port, List.getD_eq_getElem?_getD, List.getElem?_eq_getElem hp]
        exact h.2.2.2.2.2.1 _ (List.getElem_mem hp)
      split
      · split
        · exact h
        · exact modPort_inv _ _ (fun _ _ => hz) h
      · exact addReg64_inv _ _ (handedOver_inv _ (modPort_inv _ _ (fun _ _ => hz) (ptpLeaves_inv _ _ h)))
    · have hz : ∀ f (t : State), t.Inv → (t.modPort p f).Inv := by
        intro f t ht
        have : t.ports.modify p f = t.ports := by
          rw [List.modify_eq_self]
          have h1 := h.2.2.2.2.1
          have h2 := ht.2.2.2.2.1
          omega
        unfold State.modPort
        rw [this]
        exact ht
      split
      · split
        · exact h
        · exact hz _ _ h
      · exact addReg64_inv _ _ (handedOver_inv _ (hz _ _ (ptpLeaves_inv _ _ h)))

theorem State.fecBeat_inv {s : State} (p : Nat) (h : s.Inv) : (State.fecBeat s p).Inv := by
  unfold State.fecBeat
  with_reducible repeat' first
    | assumption | intro _ | apply State.modPort_inv | with_unfolding_all (show EthPort.Sized _; exact ‹EthPort.Sized _›)
    | apply State.Inv.ite

theorem State.regainPushes_inv {old : State} {s : State} (hold : old.Inv) (h : s.Inv) : (State.regainPushes old s).Inv := by
  unfold State.regainPushes
  with_reducible repeat' first
    | assumption | intro _ | apply State.forBelow_inv | apply State.restartPush_inv | apply State.Inv.ite

theorem State.restartPort_inv {s : State} (p : Nat) (h : s.Inv) : (State.restartPort s p).Inv := by
  unfold State.restartPort
  with_reducible repeat' first
    | assumption | intro _ | apply State.forBelow_inv | apply State.restartPush_inv | apply State.modStrm_inv
    | apply State.Inv.ite

theorem State.sendPart_inv {s : State} (p : Nat) (f : OutFrame) (o : OpResp) (h : s.Inv) : (State.sendPart s p f o).Inv := by
  unfold State.sendPart
  with_reducible repeat' first
    | assumption | apply State.nextSeqNo_inv | apply State.modSess_inv | apply State.sendFrame_inv | split

theorem State.movePush_inv {s : State} (p : Nat) (f : OutFrame) (h : s.Inv) : (State.movePush s p f).Inv := by
  unfold State.movePush
  with_reducible repeat' first
    | assumption | intro _ | apply State.sendFrame_inv | apply State.sendPart_inv | apply State.Inv.foldl | split

theorem State.movePushFrom_inv {old : State} (p : Nat) {s : State} (f : OutFrame) (hold : old.Inv) (h : s.Inv) :
    (State.movePushFrom old p s f).Inv := by
  unfold State.movePushFrom
  with_reducible repeat' first
    | assumption | intro _ | apply State.raiseFlag_inv | apply State.satReg_inv | apply State.movePush_inv | apply State.Inv.foldl
    | apply State.Inv.ite | split

theorem State.dropPort_inv {s : State} (p : Nat) (st : PortState) (h : s.Inv) : (State.dropPort s p st).Inv := by
  unfold State.dropPort
  with_reducible repeat' first
    | assumption | intro _ | apply State.modPort_inv | apply State.restartPort_inv | apply State.movePushFrom_inv
    | apply State.Inv.foldl
    | with_unfolding_all (show EthPort.Sized _; simp_all [EthPort.Sized])

theorem State.movePushesHome_inv {s : State} (p : Nat) (h : s.Inv) : (State.movePushesHome s p).Inv := by
  unfold State.movePushesHome
  with_reducible repeat' first
    | assumption | intro _ | apply State.movePush_inv | apply State.modPort_inv | apply State.Inv.foldl
    | with_unfolding_all (show EthPort.Sized _; exact ‹EthPort.Sized _›)
    | apply State.Inv.ite

theorem State.loseLock_inv {s : State} (p : Nat) (h : s.Inv) : (State.loseLock s p).Inv := by
  unfold State.loseLock
  with_reducible repeat' first
    | assumption | intro _ | apply State.modPort_inv | with_unfolding_all (show EthPort.Sized _; exact ‹EthPort.Sized _›)
    | apply State.Inv.ite

theorem State.losePort_inv {s : State} (p : Nat) (h : s.Inv) : (State.losePort s p).Inv := by
  unfold State.losePort
  with_reducible repeat' first
    | assumption | intro _ | apply State.modPort_inv | apply State.dropPort_inv | apply State.raiseEvent_inv
    | apply State.raiseFlag_inv | apply State.raiseEventIf_inv
    | with_unfolding_all (show EthPort.Sized _; exact ‹EthPort.Sized _›)

theorem State.bringUp_inv {s : State} (p : Nat) (h : s.Inv) : (State.bringUp s p).Inv := by
  unfold State.bringUp
  with_reducible repeat' first
    | assumption | intro _ | apply State.movePushesHome_inv | apply State.modPort_inv | apply State.regainPushes_inv
    | apply State.lastPhase_inv | with_unfolding_all (show EthPort.Sized _; exact ‹EthPort.Sized _›)
    | apply State.Inv.ite

theorem State.shadePort_inv {s : State} (p : Nat) (h : s.Inv) : (State.shadePort s p).Inv := by
  unfold State.shadePort
  with_reducible repeat' first
    | assumption | intro _ | apply State.modPort_inv | apply State.restartPort_inv | apply State.movePushFrom_inv
    | with_unfolding_all (show EthPort.Sized _; exact ‹EthPort.Sized _›)
    | apply State.Inv.foldl

theorem State.alignPort_inv {s : State} (p : Nat) (h : s.Inv) : (State.alignPort s p).Inv := by
  unfold State.alignPort
  with_reducible repeat' first
    | assumption | intro _ | apply State.modPort_inv | apply State.shadePort_inv | apply State.bringUp_inv
    | with_unfolding_all (show EthPort.Sized _; exact ‹EthPort.Sized _›)
    | apply State.Inv.ite

theorem State.badCodeword_inv {s : State} (p : Nat) (h : s.Inv) : (State.badCodeword s p).Inv := by
  unfold State.badCodeword
  with_reducible repeat' first
    | assumption | intro _ | apply State.modPort_inv | apply State.addReg64_inv | apply State.raiseFlag_inv
    | with_unfolding_all (show EthPort.Sized _; exact ‹EthPort.Sized _›)
    | apply State.Inv.ite

theorem State.ethCtrlDo_inv {s : State} (p : Nat) (v : Word) (h : s.Inv) : (State.ethCtrlDo s p v).Inv := by
  unfold State.ethCtrlDo
  with_reducible repeat' first
    | assumption | intro _ | apply State.dropPort_inv | apply State.setReg_inv | apply State.modPort_inv
    | with_unfolding_all (show EthPort.Sized _; exact ‹EthPort.Sized _›)
    | apply State.Inv.ite

theorem State.answer_inv {s : State} (p : Nat) (a : PushAddr) (c : Carried) (h : s.Inv) : (State.answer s p a c).Inv := by
  unfold State.answer
  with_reducible repeat' first | assumption | apply State.sendFrame_inv

theorem State.mirror_inv {s : State} (p : Nat) (page : List Byte) (h : s.Inv) : (State.mirror s p page).Inv := by
  unfold State.mirror
  with_reducible repeat' first | assumption | intro _ | apply State.forBelow_inv | apply State.setReg_inv

theorem execPfcXoffRepeat_inv (p : Port) (q : Fin 8) {s : State} (h : s.Inv) :
    ∀ t, execPfcXoffRepeat p q s = .next t → t.Inv := by
  unfold execPfcXoffRepeat
  intro t e
  refine State.Inv.ofNext ?_ e
  with_reducible repeat' first
    | assumption | intro _ | apply State.modPort_inv | apply State.sendFrame_inv
    | with_unfolding_all (show EthPort.Sized _; simp_all [EthPort.Sized]) | apply State.Inv.ite

theorem execPfcXon_inv (p : Port) (q : Fin 8) {s : State} (h : s.Inv) : ∀ t, execPfcXon p q s = .next t → t.Inv := by
  unfold execPfcXon
  intro t e
  refine State.Inv.ofNext ?_ e
  with_reducible repeat' first
    | assumption | intro _ | apply State.modPort_inv | apply State.sendFrame_inv
    | with_unfolding_all (show EthPort.Sized _; simp_all [EthPort.Sized]) | apply State.Inv.ite

theorem execPfcFrameReceive_inv (p : Port) (q : Fin 8) (quanta : BitVec 16) {s : State} (h : s.Inv) :
    ∀ t, execPfcFrameReceive p q quanta s = .next t → t.Inv := by
  have h1 := State.rxFrame_inv p 0 0 h
  unfold execPfcFrameReceive
  intro t e
  refine State.Inv.ofNext ?_ e
  split
  · exact State.modPort_inv _ _ (fun e h => ⟨h.1, h.2.1, (List.length_set ..).trans h.2.2⟩) h1
  · exact h1

theorem execPauseFrameDiscard_inv (p : Port) {s : State} (h : s.Inv) : ∀ t, execPauseFrameDiscard p s = .next t → t.Inv := by
  have h1 := State.rxFrame_inv p 0 0 h
  unfold execPauseFrameDiscard
  intro t e
  refine State.Inv.ofNext ?_ e
  split
  · exact State.raiseFlag_inv _ _ h1
  · exact h1

theorem execOversizeDiscard_inv (p : Port) (len : Nat) {s : State} (h : s.Inv) :
    ∀ t, execOversizeDiscard p len s = .next t → t.Inv := by
  have h1 := State.rxFrame_inv p 0 0 h
  unfold execOversizeDiscard
  intro t e
  refine State.Inv.ofNext ?_ e
  refine State.Inv.ite (State.Inv.ite (State.raiseFlag_inv _ _ h1) h1) h

theorem execVlanDiscard_inv (p : Port) (tag : Option (BitVec 12)) {s : State} (h : s.Inv) :
    ∀ t, execVlanDiscard p tag s = .next t → t.Inv := by
  have h1 := State.rxFrame_inv p 0 0 h
  unfold execVlanDiscard
  intro t e
  refine State.Inv.ofNext ?_ e
  refine State.Inv.ite h (State.Inv.ite (State.satReg_inv _ h1) h1)

theorem execArpRequest_inv (p : Port) (a : RxFrom) (target : BitVec 32) {s : State} (h : s.Inv) :
    ∀ t, execArpRequest p a target s = .next t → t.Inv := by
  have h1 := State.macTakes_inv p a.head 64 h
  unfold execArpRequest
  intro t e
  exact State.Inv.ofNext (State.Inv.ite (State.answer_inv _ _ _ h1) h1) e

theorem execNeighborSolicitation_inv (p : Port) (a : RxFrom) (target : BitVec 128) {s : State} (h : s.Inv) :
    ∀ t, execNeighborSolicitation p a target s = .next t → t.Inv := by
  have h1 := State.macTakes_inv p a.head 90 h
  unfold execNeighborSolicitation
  intro t e
  exact State.Inv.ofNext (State.Inv.ite (State.answer_inv _ _ _ h1) h1) e

theorem execEchoRequest_inv (p : Port) (a : RxFrom) (v6 : Bool) (target : BitVec 128) (data : List Byte) {s : State} (h : s.Inv) :
    ∀ t, execEchoRequest p a v6 target data s = .next t → t.Inv := by
  have h1 := State.macTakes_inv p a.head (data.length + (if v6 then 62 else 42)) h
  unfold execEchoRequest
  intro t e
  exact State.Inv.ofNext (State.Inv.ite (State.answer_inv _ _ _ h1) h1) e

theorem execPcsLockLoss_inv (p : Port) {s : State} (h : s.Inv) : ∀ t, execPcsLockLoss p s = .next t → t.Inv := by
  unfold execPcsLockLoss
  intro t e
  refine State.Inv.ofNext ?_ e
  with_reducible repeat' first | assumption | apply State.loseLock_inv

theorem execUncorrectableCodeword_inv (p : Port) {s : State} (h : s.Inv) :
    ∀ t, execUncorrectableCodeword p s = .next t → t.Inv := by
  unfold execUncorrectableCodeword
  intro t e
  refine State.Inv.ofNext ?_ e
  with_reducible repeat' first | assumption | apply State.badCodeword_inv

theorem execPortLost_inv (p : Port) {s : State} (h : s.Inv) : ∀ t, execPortLost p s = .next t → t.Inv := by
  unfold execPortLost
  intro t e
  refine State.Inv.ofNext ?_ e
  with_reducible repeat' first | assumption | apply State.losePort_inv | apply State.Inv.ite

theorem execPortAligned_inv (p : Port) {s : State} (h : s.Inv) : ∀ t, execPortAligned p s = .next t → t.Inv := by
  unfold execPortAligned
  intro t e
  refine State.Inv.ofNext ?_ e
  with_reducible repeat' first | assumption | apply State.alignPort_inv

theorem execPortUp_inv (p : Port) {s : State} (h : s.Inv) : ∀ t, execPortUp p s = .next t → t.Inv := by
  unfold execPortUp
  intro t e
  refine State.Inv.ofNext ?_ e
  with_reducible repeat' first | assumption | apply State.raiseEvent_inv | apply State.bringUp_inv | apply State.Inv.ite

theorem execModulePoll_inv (p : Port) (present : Bool) (alarms : Word) {s : State} (h : s.Inv) :
    ∀ t, execModulePoll p present alarms s = .next t → t.Inv := by
  unfold execModulePoll
  intro t e
  refine State.Inv.ofNext ?_ e
  with_reducible repeat' first
    | assumption | intro _ | apply State.modPort_inv | apply State.mirror_inv
    | with_unfolding_all (show EthPort.Sized _; exact ‹EthPort.Sized _›)
    | apply State.Inv.ite

theorem execModuleMirror_inv (p : Port) (page : List Byte) {s : State} (h : s.Inv) :
    ∀ t, execModuleMirror p page s = .next t → t.Inv := by
  unfold execModuleMirror
  intro t e
  refine State.Inv.ofNext ?_ e
  with_reducible repeat' first
    | assumption | intro _ | apply State.modPort_inv | apply State.mirror_inv
    | with_unfolding_all (show EthPort.Sized _; exact ‹EthPort.Sized _›)
    | apply State.Inv.ite

theorem execModuleInterrupt_inv (p : Port) {s : State} (h : s.Inv) : ∀ t, execModuleInterrupt p s = .next t → t.Inv := by
  unfold execModuleInterrupt
  intro t e
  refine State.Inv.ofNext ?_ e
  with_reducible repeat' first
    | assumption | intro _ | apply State.modPort_inv | with_unfolding_all (show EthPort.Sized _; exact ‹EthPort.Sized _›)

theorem execPtpMessageReceive_inv (p : Port) (m : PtpMsg) {s : State} (h : s.Inv) :
    ∀ t, execPtpMessageReceive p m s = .next t → t.Inv := by
  intro t e
  unfold execPtpMessageReceive at e
  have h1 := State.macTakes_inv p m.head (18 + (if m.layer2 then 0 else if m.v6 then 48 else 28) + State.ptpLen m.typ) h
  exact State.Inv.ofNext (State.Inv.ite (State.ptpReceive_inv _ _ h1) h1) e

theorem execEthrefLost_inv {s : State} (h : s.Inv) : ∀ t, execEthrefLost s = .next t → t.Inv := by
  unfold execEthrefLost
  intro t e
  refine State.Inv.ofNext ?_ e
  with_reducible repeat' first | assumption | apply State.loseLock_inv | apply State.raiseFlag_inv | apply State.modRst_inv

theorem execEthrefRelock_inv {s : State} (h : s.Inv) : ∀ t, execEthrefRelock s = .next t → t.Inv := by
  unfold execEthrefRelock
  intro t e
  refine State.Inv.ofNext ?_ e
  with_reducible repeat' first | assumption | apply State.modRst_inv

theorem State.readReg_inv {s : State} (u : Nat) (a : Nat) (h : s.Inv) : (State.readReg s u a).2.2.Inv := by
  unfold State.readReg
  dsimp only
  with_reducible repeat' first | assumption | apply State.modSess_inv | split

theorem State.cancelUnder_inv {s : State} (u : Nat) (a : Nat) (h : s.Inv) : (State.cancelUnder s u a).Inv := by
  unfold State.cancelUnder
  with_reducible repeat' first | assumption | split | fail_if_no_progress (refine State.Inv.upd ?_ rfl)

theorem State.leaseRegDo_inv {s : State} (u : Nat) (a : Nat) (v : Word) (h : s.Inv) : (State.leaseRegDo s u a v).Inv := by
  unfold State.leaseRegDo
  with_reducible repeat' first
    | assumption | apply State.setFld_inv | apply State.raiseEvent_inv | apply State.cancelUnder_inv | apply State.Inv.ite

theorem State.noteFrame_inv {s : State} (u : Nat) (p : Nat) (a : Option PushAddr) (h : s.Inv) :
    (State.noteFrame s u p a).Inv := by
  unfold State.noteFrame
  with_reducible repeat' first | assumption | apply State.modSess_inv | apply State.regainPushes_inv

theorem State.openSession_inv {s : State} (p : Nat) (a : PushAddr) (seq : Word) (timeout : Word) (ctrl : Word) (h : s.Inv) :
    (State.openSession s p a seq timeout ctrl).2.Inv := by
  unfold State.openSession
  with_reducible repeat' first
    | assumption | apply State.draw_inv | apply State.modSess_inv | apply State.setReg_inv | apply State.noteFrame_inv

theorem State.closeSession_inv {s : State} (u : Nat) (h : s.Inv) : (State.closeSession s u).Inv := by
  unfold State.closeSession
  with_reducible repeat' first
    | assumption | intro _ | apply State.setFld_inv | apply State.setReg_inv | apply State.modSess_inv
    | apply State.carSessGone_inv | apply State.Inv.foldl | apply State.Inv.ite | split
    | fail_if_no_progress (refine State.Inv.upd ?_ rfl)

theorem State.expireSession_inv {s : State} (u : Nat) (h : s.Inv) : (State.expireSession s u).Inv := by
  unfold State.expireSession
  with_reducible repeat' first
    | assumption | intro _ | apply State.closeSession_inv | apply State.requestHalt_inv | apply State.raiseEvent_inv
    | apply State.Inv.foldl | apply State.Inv.ite

theorem execSessionTimeout_inv (u : Sid) {s : State} (h : s.Inv) : ∀ t, execSessionTimeout u s = .next t → t.Inv := by
  unfold execSessionTimeout
  intro t e
  refine State.Inv.ofNext ?_ e
  with_reducible repeat' first | assumption | apply State.expireSession_inv | apply State.Inv.ite

theorem State.plainWrite_inv {s : State} (d : RegDesc) (a : Nat) (v : Word) (h : s.Inv) : (State.plainWrite s d a v).Inv := by
  unfold State.plainWrite
  with_reducible repeat' first | assumption | apply State.setReg_inv | apply State.clearFlags_inv | apply State.Inv.ite

theorem State.sevFlagsDo_inv {s : State} (v : Word) (h : s.Inv) : (State.sevFlagsDo s v).Inv := by
  unfold State.sevFlagsDo
  with_reducible repeat' first | assumption | apply State.clearFlags_inv | apply State.setReg_inv | apply State.Inv.ite

theorem State.netCtrlDo_inv {s : State} (v : Word) (h : s.Inv) : (State.netCtrlDo s v).Inv := by
  unfold State.netCtrlDo
  with_reducible repeat' first
    | assumption | apply State.startStore_inv | apply State.Inv.ite | split | fail_if_no_progress (refine State.Inv.upd ?_ rfl)

theorem State.resqCtrlDo_inv {s : State} (n : Nat) (v : Word) (h : s.Inv) : (State.resqCtrlDo s n v).Inv := by
  unfold State.resqCtrlDo
  with_reducible repeat' first | assumption | apply State.restartPush_inv | apply State.setReg_inv | apply State.Inv.ite

theorem State.strmCfgDo_inv {s : State} (n : Nat) (j : Nat) (v : Word) (h : s.Inv) : (State.strmCfgDo s n j v).Inv := by
  unfold State.strmCfgDo
  with_reducible repeat' first
    | assumption | apply State.setReg_inv | apply State.enableStream_inv | apply State.modStrm_inv | apply State.Inv.ite

theorem State.telemDo_inv {s : State} (v : Word) (h : s.Inv) : (State.telemDo s v).Inv := by
  unfold State.telemDo
  with_reducible repeat' first
    | assumption | intro _ | apply State.modHk_inv | apply State.setReg_inv
    | with_unfolding_all (show HkUnit.Sized _; exact ‹HkUnit.Sized _›)
    | apply State.Inv.ite

theorem State.writeDo_inv {s : State} (u : Nat) (h0 : RegHit) (a : Nat) (v : Word) (x : BitVec 64) (h : s.Inv) :
    (State.writeDo s u h0 a v x).Inv := by
  unfold State.writeDo
  with_reducible repeat' first
    | assumption | apply State.leaseRegDo_inv | apply State.ethCtrlDo_inv | apply State.netCtrlDo_inv | apply State.setReg64_inv
    | apply State.resqCtrlDo_inv | apply State.strmCfgDo_inv | apply State.sevFlagsDo_inv | apply State.setReg_inv
    | apply State.plainWrite_inv | apply State.seqCmdDo_inv | apply State.txCtrlDo_inv | apply State.txFsDo_inv
    | apply State.stirFades_inv | apply State.fadeReqDo_inv | apply State.hostFreq_inv | apply State.spanDo_inv
    | apply State.biasEntry_inv | apply State.clearDo_inv | apply State.biasStop_inv | apply State.rxCtrlDo_inv
    | apply State.rawCmdDo_inv | apply State.hostLaneFreq_inv | apply State.jugCmdDo_inv | apply State.setJReg_inv
    | apply State.sendAbort_inv | apply State.trapWrite_inv | apply State.linkCmdDo_inv | apply State.snapDo_inv
    | apply State.adjCtrlDo_inv | apply State.ptpCtrlDo_inv | apply State.clearLatch_inv | apply State.markAt_inv
    | apply State.tiuCmdDo_inv | apply State.calCtrlDo_inv | apply State.calApplyDo_inv | apply State.calStoreDo_inv
    | apply State.injDo_inv | apply State.setRxTrim_inv | apply State.txtrimDo_inv | apply State.mtestCmdDo_inv
    | apply State.mtestCfgDo_inv | apply State.startStore_inv | apply State.retDo_inv | apply State.carCmdDo_inv
    | apply State.telemDo_inv | apply State.fwUpdDo_inv | apply State.fuseDo_inv | apply State.attDo_inv | apply State.ownDo_inv
    | apply State.rstDo_inv | apply State.relockDo_inv | apply State.syncCmdDo_inv | apply State.Inv.ite | split
    | fail_if_no_progress (refine State.Inv.upd ?_ rfl)

theorem State.noteWrite_inv {s : State} (p : Nat) (a : Nat) (h : s.Inv) : (State.noteWrite s p a).Inv := by
  unfold State.noteWrite
  with_reducible repeat' first | assumption | apply State.Inv.ite | split | fail_if_no_progress (refine State.Inv.upd ?_ rfl)

theorem State.hostWriteReg_inv {s : State} (p : Nat) (u : Nat) (a : Nat) (v : Word) (m : Word) (plain : Bool) (h : s.Inv) :
    (State.hostWriteReg s p u a v m plain).2.Inv := by
  unfold State.hostWriteReg
  dsimp only
  with_reducible repeat' first
    | assumption | apply State.modSess_inv | apply State.noteWrite_inv | apply State.writeDo_inv | apply State.Inv.ite | split

end Sys2Proof.Machine
end

