-- ==== Sys2Proof/Laws/InvHost.lean ====
section
/-! SUPPORT. The invariant of the block through the host's operations and requests. -/

namespace Sys2Proof.Machine

theorem State.addRetry_inv {s : State} (h : s.Inv) : (State.addRetry s).Inv := by
  unfold State.addRetry
  with_reducible repeat' first | assumption | apply State.setReg_inv

theorem State.applyLate_inv {s : State} (h : s.Inv) : (State.applyLate s).Inv := by
  unfold State.applyLate
  with_reducible repeat' first
    | assumption | intro _ | apply State.modMemu_inv | apply State.store_inv | apply State.Inv.foldl | rfl

theorem State.hostStore_inv {s : State} (code : Nat) (a : Nat) (bs : List Byte) (h : s.Inv) :
    (State.hostStore s code a bs).Inv := by
  unfold State.hostStore
  with_reducible repeat' first | assumption | apply State.modMemu_inv | apply State.store_inv | apply State.Inv.ite | rfl

theorem State.blockRead_inv {s : State} (h0 : BlockHit) (k : Nat) (h : s.Inv) : (State.blockRead s h0 k).2.Inv := by
  unfold State.blockRead
  with_reducible repeat' first | assumption | apply State.eccRead_inv

theorem State.programWritten_inv {s : State} (h0 : BlockHit) (h : s.Inv) : (State.programWritten s h0).Inv := by
  unfold State.programWritten
  with_reducible repeat' first
    | assumption | intro _ | apply State.unsign_inv | apply State.instrWritten_inv | apply State.modJug_inv
    | with_unfolding_all (show Jug.Sized _; exact ‹Jug.Sized _›)
    | apply State.Inv.ite

theorem State.blockWrite_inv {s : State} (h0 : BlockHit) (ws : List Word) (h : s.Inv) : (State.blockWrite s h0 ws).Inv := by
  unfold State.blockWrite
  with_reducible repeat' first | assumption | apply State.programWritten_inv | apply State.hostStore_inv

theorem State.serveWord_inv {s : State} (d : Dma) (h0 : BlockHit) (w : Nat) (h : s.Inv) :
    (State.serveWord s d h0 w).2.Inv := by
  unfold State.serveWord
  dsimp only
  with_reducible repeat' first | assumption | apply State.storeRead_inv | apply State.eccRead_inv | split

theorem State.dmaRestore_inv {s : State} (d : Dma) (h0 : BlockHit) (h : s.Inv) : (State.dmaRestore s d h0).Inv := by
  unfold State.dmaRestore
  with_reducible repeat' first
    | assumption | intro _ | apply State.store_inv | apply State.Inv.foldl | apply State.Inv.ite

theorem State.dmaWord_inv (h0 : BlockHit) (x : State.DmaBeat) (q : Nat × Nat) (h : x.st.Inv) :
    (State.dmaWord h0 x q).st.Inv := by
  have h1 : ((if 0 < q.2 then x.st.addRetry else x.st).modMemu fun m => { m with portB := (q.1 % 16) :: m.portB }).Inv :=
    modMemu_inv _ rfl (State.Inv.ite (State.addRetry_inv h) h)
  unfold State.dmaWord
  extract_lets t
  split
  · exact h
  · split
    · exact h1
    · exact State.serveWord_inv _ _ _ h1

theorem State.dmaWords_inv (h0 : BlockHit) (l : List (Nat × Nat)) (x : State.DmaBeat) (h : x.st.Inv) :
    (l.foldl (State.dmaWord h0) x).st.Inv := by
  induction l generalizing x with
  | nil => exact h
  | cons q t ih => exact ih _ (State.dmaWord_inv _ _ _ h)

theorem State.schedule_inv {s : State} (u : Nat) (cancel : Bool) (a : Nat) (t0 : Nat) (v : Word) (m : Word) (h : s.Inv) :
    (State.schedule s u cancel a t0 v m).2.2.Inv := by
  unfold State.schedule
  dsimp only
  with_reducible repeat' first | assumption | split | fail_if_no_progress (refine State.Inv.upd ?_ rfl)

theorem State.schedDrop_inv {s : State} (e : Sched) (c : Err) (h : s.Inv) : (State.schedDrop s e c).Inv := by
  unfold State.schedDrop
  with_reducible repeat' first | assumption | apply State.raiseEvent_inv | apply State.raiseFlag_inv

theorem State.schedWrite_inv {s : State} (e : Sched) (lo : Option Sched) (h : s.Inv) : (State.schedWrite s e lo).Inv := by
  unfold State.schedWrite
  with_reducible repeat' first | assumption | apply State.schedDrop_inv | apply State.writeDo_inv | apply State.Inv.ite | split

theorem State.schedTurn_inv {s : State} (e : Sched) (h : s.Inv) : (State.schedTurn s e).Inv := by
  unfold State.schedTurn
  with_reducible repeat' first
    | assumption | apply State.noteWrite_inv | apply State.schedWrite_inv | apply State.schedDrop_inv | apply State.Inv.ite
    | split | fail_if_no_progress (refine State.Inv.upd ?_ rfl)

theorem execScheduleApply_inv (h0 : BitVec 16) {s : State} (h : s.Inv) : ∀ t, execScheduleApply h0 s = .next t → t.Inv := by
  unfold execScheduleApply
  intro t e
  refine State.Inv.ofNext ?_ e
  with_reducible repeat' first | assumption | apply State.schedTurn_inv | split

theorem State.opRead_inv {s : State} (u : Nat) (a : Word) (h : s.Inv) : (State.opRead s u a).2.Inv := by
  unfold State.opRead
  with_reducible repeat' first | assumption | apply State.readReg_inv

theorem State.opWrite_inv {s : State} (p : Nat) (u : Nat) (a : Word) (v : Word) (h : s.Inv) :
    (State.opWrite s p u a v).2.Inv := by
  unfold State.opWrite
  with_reducible repeat' first | assumption | apply State.hostWriteReg_inv

theorem State.opWriteMask_inv {s : State} (p : Nat) (u : Nat) (a : Word) (v : Word) (m : Word) (h : s.Inv) :
    (State.opWriteMask s p u a v m).2.Inv := by
  unfold State.opWriteMask
  with_reducible repeat' first | assumption | apply State.hostWriteReg_inv

theorem State.blockServe_inv {s : State} (h0 : BlockHit) (d : Dma) (h : s.Inv) : (State.blockServe s h0 d).2.Inv := by
  unfold State.blockServe
  dsimp only
  with_reducible repeat' first
    | assumption | apply State.modMemu_inv | apply State.blockWrite_inv | apply State.blockRead_inv | rfl | split

theorem State.blockStart_inv {s : State} (d : Dma) (h : s.Inv) : (State.blockStart s d).2.Inv := by
  unfold State.blockStart
  dsimp only
  with_reducible repeat' first | assumption | apply State.blockServe_inv | apply State.modMemu_inv | rfl | split

theorem State.blockOp_inv {s : State} (d : Dma) (h : s.Inv) : (State.blockOp s d).2.Inv := by
  unfold State.blockOp
  with_reducible repeat' first | assumption | apply State.blockStart_inv | apply State.modMemu_inv | rfl | split

theorem State.blockDone_inv {s : State} (d : Dma) (r : OpResp) (h : s.Inv) : (State.blockDone s d r).Inv := by
  unfold State.blockDone
  with_reducible repeat' first | assumption | split | fail_if_no_progress (refine State.Inv.upd ?_ rfl)

theorem State.dmaServe_inv {s : State} (h0 : BlockHit) (d : Dma) (h : s.Inv) : (State.dmaServe s h0 d).1.Inv := by
  have h3 := State.dmaWords_inv h0 d.todo { op := { d with todo := [] }, st := s } h
  unfold State.dmaServe
  dsimp only
  split
  · exact blockDone_inv _ _ (raiseFlag_inv _ _ (dmaRestore_inv _ _ h3))
  · split
    · exact blockDone_inv _ _ h3
    · exact modMemu_inv _ rfl h3

theorem State.dmaOne_inv {s : State} (d : Dma) (h : s.Inv) : (State.dmaOne s d).1.Inv := by
  have h2 := blockStart_inv d h
  unfold State.dmaOne
  split
  · split <;> rename_i e <;> rw [e] at h2
    · exact blockDone_inv _ _ h2
    · exact h2
  · split
    · exact h
    · rename_i b _
      have h4 := blockServe_inv b d h
      split
      · exact dmaServe_inv _ _ h
      · split <;> rename_i e <;> rw [e] at h4
        · exact blockDone_inv _ _ h4
        · exact h4

theorem State.dmaRun_inv (x0 : Nat) {s : State} (h : s.Inv) : (State.dmaRun x0 s).Inv := by
  induction x0 generalizing s with
  | zero => exact h
  | succ k ih =>
    unfold State.dmaRun
    split
    · exact h
    · rename_i d t _
      have h1 := dmaOne_inv d (modMemu_inv (s := s) (fun m => { m with dma := t }) rfl h)
      split <;> rename_i e <;> rw [e] at h1
      · exact ih h1
      · exact h1

theorem State.dmaBeat_inv {s : State} (h : s.Inv) : (State.dmaBeat s).Inv := by
  unfold State.dmaBeat
  with_reducible repeat' first | assumption | apply State.dmaRun_inv

theorem State.opSchedule_inv {s : State} (u : Nat) (cancel : Bool) (a : Word) (t0 : BitVec 64) (v : Word) (m : Word) (h : s.Inv) :
    (State.opSchedule s u cancel a t0 v m).2.Inv := by
  unfold State.opSchedule
  with_reducible repeat' first | assumption | apply State.schedule_inv

theorem State.opStreamData_inv {s : State} (p : Nat) (u : Nat) (n : Nat) (j : Nat) (i : Word) (ws : List Word) (h : s.Inv) :
    (State.opStreamData s p u n j i ws).2.Inv := by
  unfold State.opStreamData
  dsimp only
  with_reducible repeat' first | assumption | apply State.streamUnit_inv | split

theorem State.opCredit_inv {s : State} (n : Nat) (j : Nat) (h : s.Inv) : (State.opCredit s n j).2.Inv := by
  unfold State.opCredit
  assumption

theorem State.opResultAck_inv {s : State} (u : Nat) (n : Nat) (i : Word) (h : s.Inv) : (State.opResultAck s u n i).2.Inv := by
  unfold State.opResultAck
  with_reducible repeat' first | assumption | apply State.resultAck_inv | split

theorem State.opOpen_inv {s : State} (p : Nat) (a : PushAddr) (seq : Word) (timeout : Word) (ctrl : Word) (h : s.Inv) :
    (State.opOpen s p a seq timeout ctrl).2.Inv := by
  unfold State.opOpen
  with_reducible repeat' first | assumption | apply State.openSession_inv | apply State.Inv.ite

theorem State.opClose_inv {s : State} (u : Nat) (h : s.Inv) : (State.opClose s u).2.Inv := by
  unfold State.opClose
  with_reducible repeat' first | assumption | apply State.closeSession_inv

theorem State.opDiscover_inv {s : State} (p : Nat) (h : s.Inv) : (State.opDiscover s p).2.Inv := by
  unfold State.opDiscover
  assumption

theorem State.hostOp_inv {s : State} (p : Nat) (u : Nat) (f : State → Prod OpResp State) (h : s.Inv) (hf : ∀ y0, y0.Inv → (f y0).2.Inv) :
    (State.hostOp s p u f).Inv := by
  unfold State.hostOp
  with_reducible repeat' first
    | assumption | apply hf | apply State.noteFrame_inv | apply State.Inv.ite | split
    | fail_if_no_progress (refine State.Inv.upd ?_ rfl)

theorem State.hostBlock_inv {s : State} (p : Nat) (u : Nat) (d : Dma) (h : s.Inv) : (State.hostBlock s p u d).Inv := by
  unfold State.hostBlock
  with_reducible repeat' first
    | assumption | apply State.blockOp_inv | apply State.noteFrame_inv | apply State.Inv.ite | split
    | fail_if_no_progress (refine State.Inv.upd ?_ rfl)

theorem State.hostWrite_inv {s : State} (p : Nat) (u : Nat) (a : Nat) (v : Word) (h : s.Inv) :
    (State.hostWrite s p u a v).Inv := by
  unfold State.hostWrite
  with_reducible repeat' first | assumption | intro _ | apply State.hostOp_inv | apply State.opWrite_inv

theorem execRead_inv (p : Port) (u : Sid) (a : Word) {s : State} (h : s.Inv) : ∀ t, execRead p u a s = .next t → t.Inv := by
  unfold execRead
  intro t e
  refine State.Inv.ofNext ?_ e
  with_reducible repeat' first | assumption | intro _ | apply State.hostOp_inv | apply State.opRead_inv

theorem execWrite_inv (p : Port) (u : Sid) (a : Word) (v : Word) {s : State} (h : s.Inv) :
    ∀ t, execWrite p u a v s = .next t → t.Inv := by
  unfold execWrite
  intro t e
  refine State.Inv.ofNext ?_ e
  with_reducible repeat' first | assumption | intro _ | apply State.hostOp_inv | apply State.opWrite_inv

theorem execWriteMask_inv (p : Port) (u : Sid) (a : Word) (v : Word) (m : Word) {s : State} (h : s.Inv) :
    ∀ t, execWriteMask p u a v m s = .next t → t.Inv := by
  unfold execWriteMask
  intro t e
  refine State.Inv.ofNext ?_ e
  with_reducible repeat' first | assumption | intro _ | apply State.hostOp_inv | apply State.opWriteMask_inv

theorem execBlockRead_inv (p : Port) (u : Sid) (a : Word) (k : Nat) {s : State} (h : s.Inv) :
    ∀ t, execBlockRead p u a k s = .next t → t.Inv := by
  unfold execBlockRead
  intro t e
  refine State.Inv.ofNext ?_ e
  with_reducible repeat' first | assumption | apply State.hostBlock_inv

theorem execBlockWrite_inv (p : Port) (u : Sid) (a : Word) (ws : List Word) {s : State} (h : s.Inv) :
    ∀ t, execBlockWrite p u a ws s = .next t → t.Inv := by
  unfold execBlockWrite
  intro t e
  refine State.Inv.ofNext ?_ e
  with_reducible repeat' first | assumption | apply State.hostBlock_inv

theorem execSchedule_inv (p : Port) (u : Sid) (cancel : Bool) (a : Word) (t0 : BitVec 64) (v : Word) (m : Word) {s : State} (h : s.Inv) :
    ∀ t, execSchedule p u cancel a t0 v m s = .next t → t.Inv := by
  unfold execSchedule
  intro t e
  refine State.Inv.ofNext ?_ e
  with_reducible repeat' first | assumption | intro _ | apply State.hostOp_inv | apply State.opSchedule_inv

theorem execStreamData_inv (p : Port) (u : Sid) (n : Nat) (j : Nat) (i : Word) (ws : List Word) {s : State} (h : s.Inv) :
    ∀ t, execStreamData p u n j i ws s = .next t → t.Inv := by
  unfold execStreamData
  intro t e
  refine State.Inv.ofNext ?_ e
  with_reducible repeat' first | assumption | intro _ | apply State.hostOp_inv | apply State.opStreamData_inv

theorem execCredit_inv (p : Port) (u : Sid) (n : Nat) (j : Nat) {s : State} (h : s.Inv) :
    ∀ t, execCredit p u n j s = .next t → t.Inv := by
  unfold execCredit
  intro t e
  refine State.Inv.ofNext ?_ e
  with_reducible repeat' first | assumption | intro _ | apply State.hostOp_inv | apply State.opCredit_inv

theorem execResultAck_inv (p : Port) (u : Sid) (n : Nat) (i : Word) {s : State} (h : s.Inv) :
    ∀ t, execResultAck p u n i s = .next t → t.Inv := by
  unfold execResultAck
  intro t e
  refine State.Inv.ofNext ?_ e
  with_reducible repeat' first | assumption | intro _ | apply State.hostOp_inv | apply State.opResultAck_inv

theorem execSessionOpen_inv (p : Port) (a : PushAddr) (seq : Word) (timeout : Word) (ctrl : Word) {s : State} (h : s.Inv) :
    ∀ t, execSessionOpen p a seq timeout ctrl s = .next t → t.Inv := by
  unfold execSessionOpen
  intro t e
  refine State.Inv.ofNext ?_ e
  with_reducible repeat' first
    | assumption | apply State.opOpen_inv | apply State.sendFrame_inv | apply State.Inv.ite | split
    | fail_if_no_progress (refine State.Inv.upd ?_ rfl)

theorem execSessionClose_inv (p : Port) (u : Sid) {s : State} (h : s.Inv) : ∀ t, execSessionClose p u s = .next t → t.Inv := by
  unfold execSessionClose
  intro t e
  refine State.Inv.ofNext ?_ e
  with_reducible repeat' first | assumption | intro _ | apply State.hostOp_inv | apply State.opClose_inv

theorem execDiscover_inv (p : Port) (a : PushAddr) (seq : Word) {s : State} (h : s.Inv) :
    ∀ t, execDiscover p a seq s = .next t → t.Inv := by
  unfold execDiscover
  intro t e
  refine State.Inv.ofNext ?_ e
  with_reducible repeat' first
    | assumption | apply State.opDiscover_inv | apply State.sendFrame_inv | apply State.Inv.ite | split
    | fail_if_no_progress (refine State.Inv.upd ?_ rfl)

theorem execLeaseAcquire_inv (p : Port) (u : Sid) (l : Lease) {s : State} (h : s.Inv) :
    ∀ t, execLeaseAcquire p u l s = .next t → t.Inv := by
  unfold execLeaseAcquire
  intro t e
  refine State.Inv.ofNext ?_ e
  with_reducible repeat' first | assumption | apply State.hostWrite_inv

theorem execLeaseRelease_inv (p : Port) (u : Sid) (l : Lease) {s : State} (h : s.Inv) :
    ∀ t, execLeaseRelease p u l s = .next t → t.Inv := by
  unfold execLeaseRelease
  intro t e
  refine State.Inv.ofNext ?_ e
  with_reducible repeat' first | assumption | apply State.hostWrite_inv

theorem execLeaseBreak_inv (p : Port) (u : Sid) (l : Lease) {s : State} (h : s.Inv) :
    ∀ t, execLeaseBreak p u l s = .next t → t.Inv := by
  unfold execLeaseBreak
  intro t e
  refine State.Inv.ofNext ?_ e
  with_reducible repeat' first | assumption | apply State.hostWrite_inv

theorem execNetApply_inv (p : Port) (u : Sid) {s : State} (h : s.Inv) : ∀ t, execNetApply p u s = .next t → t.Inv := by
  unfold execNetApply
  intro t e
  refine State.Inv.ofNext ?_ e
  with_reducible repeat' first | assumption | apply State.hostWrite_inv

theorem execNetSave_inv (p : Port) (u : Sid) {s : State} (h : s.Inv) : ∀ t, execNetSave p u s = .next t → t.Inv := by
  unfold execNetSave
  intro t e
  refine State.Inv.ofNext ?_ e
  with_reducible repeat' first | assumption | apply State.hostWrite_inv

theorem execEthCtrlWrite_inv (p : Port) (u : Sid) (q : Port) (v : Word) {s : State} (h : s.Inv) :
    ∀ t, execEthCtrlWrite p u q v s = .next t → t.Inv := by
  unfold execEthCtrlWrite
  intro t e
  refine State.Inv.ofNext ?_ e
  with_reducible repeat' first | assumption | apply State.hostWrite_inv

theorem execResqCtrlWrite_inv (p : Port) (u : Sid) (n : RingId) (v : Word) {s : State} (h : s.Inv) :
    ∀ t, execResqCtrlWrite p u n v s = .next t → t.Inv := by
  unfold execResqCtrlWrite
  intro t e
  refine State.Inv.ofNext ?_ e
  with_reducible repeat' first | assumption | apply State.hostWrite_inv

theorem execStrmCfgWrite_inv (p : Port) (u : Sid) (n : RingId) (j : Fin 4) (v : Word) {s : State} (h : s.Inv) :
    ∀ t, execStrmCfgWrite p u n j v s = .next t → t.Inv := by
  unfold execStrmCfgWrite
  intro t e
  refine State.Inv.ofNext ?_ e
  with_reducible repeat' first | assumption | apply State.hostWrite_inv

theorem execSeqStart_inv (p : Port) (u : Sid) (n : RingId) {s : State} (h : s.Inv) :
    ∀ t, execSeqStart p u n s = .next t → t.Inv := by
  unfold execSeqStart
  intro t e
  refine State.Inv.ofNext ?_ e
  with_reducible repeat' first | assumption | apply State.hostWrite_inv

theorem execSeqResume_inv (p : Port) (u : Sid) (n : RingId) {s : State} (h : s.Inv) :
    ∀ t, execSeqResume p u n s = .next t → t.Inv := by
  unfold execSeqResume
  intro t e
  refine State.Inv.ofNext ?_ e
  with_reducible repeat' first | assumption | apply State.hostWrite_inv

theorem execSeqHalt_inv (p : Port) (u : Sid) (n : RingId) {s : State} (h : s.Inv) :
    ∀ t, execSeqHalt p u n s = .next t → t.Inv := by
  unfold execSeqHalt
  intro t e
  refine State.Inv.ofNext ?_ e
  with_reducible repeat' first | assumption | apply State.hostWrite_inv

theorem execSeqAbort_inv (p : Port) (u : Sid) (n : RingId) {s : State} (h : s.Inv) :
    ∀ t, execSeqAbort p u n s = .next t → t.Inv := by
  unfold execSeqAbort
  intro t e
  refine State.Inv.ofNext ?_ e
  with_reducible repeat' first | assumption | apply State.hostWrite_inv

theorem execSeqHoldSet_inv (p : Port) (u : Sid) (n : RingId) {s : State} (h : s.Inv) :
    ∀ t, execSeqHoldSet p u n s = .next t → t.Inv := by
  unfold execSeqHoldSet
  intro t e
  refine State.Inv.ofNext ?_ e
  with_reducible repeat' first | assumption | apply State.hostWrite_inv

theorem execSeqHoldClr_inv (p : Port) (u : Sid) (n : RingId) {s : State} (h : s.Inv) :
    ∀ t, execSeqHoldClr p u n s = .next t → t.Inv := by
  unfold execSeqHoldClr
  intro t e
  refine State.Inv.ofNext ?_ e
  with_reducible repeat' first | assumption | apply State.hostWrite_inv

theorem execSeqArm_inv (p : Port) (u : Sid) (n : RingId) {s : State} (h : s.Inv) :
    ∀ t, execSeqArm p u n s = .next t → t.Inv := by
  unfold execSeqArm
  intro t e
  refine State.Inv.ofNext ?_ e
  with_reducible repeat' first | assumption | apply State.hostWrite_inv

theorem execSeqDisarm_inv (p : Port) (u : Sid) (n : RingId) {s : State} (h : s.Inv) :
    ∀ t, execSeqDisarm p u n s = .next t → t.Inv := by
  unfold execSeqDisarm
  intro t e
  refine State.Inv.ofNext ?_ e
  with_reducible repeat' first | assumption | apply State.hostWrite_inv

theorem execFadeReq_inv (p : Port) (u : Sid) (n : RingId) (c : Fin 4) (b : Bool) {s : State} (h : s.Inv) :
    ∀ t, execFadeReq p u n c b s = .next t → t.Inv := by
  unfold execFadeReq
  intro t e
  refine State.Inv.ofNext ?_ e
  with_reducible repeat' first | assumption | apply State.hostWrite_inv

theorem execCoefWrite_inv (p : Port) (u : Sid) (n : RingId) (c : Fin 4) (b : Bool) (t0 : Fin 32) (v : Word) {s : State} (h : s.Inv) :
    ∀ t, execCoefWrite p u n c b t0 v s = .next t → t.Inv := by
  unfold execCoefWrite
  intro t e
  refine State.Inv.ofNext ?_ e
  with_reducible repeat' first | assumption | apply State.hostWrite_inv

theorem execTxCtrlWrite_inv (p : Port) (u : Sid) (n : RingId) (c : Fin 4) (v : Word) {s : State} (h : s.Inv) :
    ∀ t, execTxCtrlWrite p u n c v s = .next t → t.Inv := by
  unfold execTxCtrlWrite
  intro t e
  refine State.Inv.ofNext ?_ e
  with_reducible repeat' first | assumption | apply State.hostWrite_inv

theorem execTxFsWrite_inv (p : Port) (u : Sid) (n : RingId) (c : Fin 4) (v : Word) {s : State} (h : s.Inv) :
    ∀ t, execTxFsWrite p u n c v s = .next t → t.Inv := by
  unfold execTxFsWrite
  intro t e
  refine State.Inv.ofNext ?_ e
  with_reducible repeat' first | assumption | apply State.hostWrite_inv

theorem execBiasTargetWrite_inv (p : Port) (u : Sid) (n : RingId) (b : Fin 4) (v : Word) {s : State} (h : s.Inv) :
    ∀ t, execBiasTargetWrite p u n b v s = .next t → t.Inv := by
  unfold execBiasTargetWrite
  intro t e
  refine State.Inv.ofNext ?_ e
  with_reducible repeat' first | assumption | apply State.hostWrite_inv

theorem execSpanWrite_inv (p : Port) (u : Sid) (n : RingId) (b : Fin 4) (v : Word) {s : State} (h : s.Inv) :
    ∀ t, execSpanWrite p u n b v s = .next t → t.Inv := by
  unfold execSpanWrite
  intro t e
  refine State.Inv.ofNext ?_ e
  with_reducible repeat' first | assumption | apply State.hostWrite_inv

theorem execQclr_inv (p : Port) (u : Sid) (n : RingId) (b : Fin 4) {s : State} (h : s.Inv) :
    ∀ t, execQclr p u n b s = .next t → t.Inv := by
  unfold execQclr
  intro t e
  refine State.Inv.ofNext ?_ e
  with_reducible repeat' first | assumption | apply State.hostWrite_inv

theorem execClearWrite_inv (p : Port) (u : Sid) (n : RingId) (b : Fin 4) (v : Word) {s : State} (h : s.Inv) :
    ∀ t, execClearWrite p u n b v s = .next t → t.Inv := by
  unfold execClearWrite
  intro t e
  refine State.Inv.ofNext ?_ e
  with_reducible repeat' first | assumption | apply State.hostWrite_inv

theorem execRxCtrlWrite_inv (p : Port) (u : Sid) (n : RingId) (r : Fin 2) (v : Word) {s : State} (h : s.Inv) :
    ∀ t, execRxCtrlWrite p u n r v s = .next t → t.Inv := by
  unfold execRxCtrlWrite
  intro t e
  refine State.Inv.ofNext ?_ e
  with_reducible repeat' first | assumption | apply State.hostWrite_inv

theorem execRawArm_inv (p : Port) (u : Sid) (n : RingId) (r : Fin 2) {s : State} (h : s.Inv) :
    ∀ t, execRawArm p u n r s = .next t → t.Inv := by
  unfold execRawArm
  intro t e
  refine State.Inv.ofNext ?_ e
  with_reducible repeat' first | assumption | apply State.hostWrite_inv

theorem execRawStart_inv (p : Port) (u : Sid) (n : RingId) (r : Fin 2) {s : State} (h : s.Inv) :
    ∀ t, execRawStart p u n r s = .next t → t.Inv := by
  unfold execRawStart
  intro t e
  refine State.Inv.ofNext ?_ e
  with_reducible repeat' first | assumption | apply State.hostWrite_inv

theorem execRawDisarm_inv (p : Port) (u : Sid) (n : RingId) (r : Fin 2) {s : State} (h : s.Inv) :
    ∀ t, execRawDisarm p u n r s = .next t → t.Inv := by
  unfold execRawDisarm
  intro t e
  refine State.Inv.ofNext ?_ e
  with_reducible repeat' first | assumption | apply State.hostWrite_inv

theorem execJugCmdStart_inv (p : Port) (u : Sid) (n : RingId) {s : State} (h : s.Inv) :
    ∀ t, execJugCmdStart p u n s = .next t → t.Inv := by
  unfold execJugCmdStart
  intro t e
  refine State.Inv.ofNext ?_ e
  with_reducible repeat' first | assumption | apply State.hostWrite_inv

theorem execJugCmdStop_inv (p : Port) (u : Sid) (n : RingId) {s : State} (h : s.Inv) :
    ∀ t, execJugCmdStop p u n s = .next t → t.Inv := by
  unfold execJugCmdStop
  intro t e
  refine State.Inv.ofNext ?_ e
  with_reducible repeat' first | assumption | apply State.hostWrite_inv

theorem execDoorbell_inv (p : Port) (u : Sid) (n : RingId) {s : State} (h : s.Inv) :
    ∀ t, execDoorbell p u n s = .next t → t.Inv := by
  unfold execDoorbell
  intro t e
  refine State.Inv.ofNext ?_ e
  with_reducible repeat' first | assumption | apply State.hostWrite_inv

theorem execTrapezeStart_inv (p : Port) (u : Sid) (k : Fin 4) {s : State} (h : s.Inv) :
    ∀ t, execTrapezeStart p u k s = .next t → t.Inv := by
  unfold execTrapezeStart
  intro t e
  refine State.Inv.ofNext ?_ e
  with_reducible repeat' first | assumption | apply State.hostWrite_inv

theorem execTrapezeStop_inv (p : Port) (u : Sid) (k : Fin 4) {s : State} (h : s.Inv) :
    ∀ t, execTrapezeStop p u k s = .next t → t.Inv := by
  unfold execTrapezeStop
  intro t e
  refine State.Inv.ofNext ?_ e
  with_reducible repeat' first | assumption | apply State.hostWrite_inv

theorem execTrapezeAbortSend_inv (p : Port) (u : Sid) (v : Word) {s : State} (h : s.Inv) :
    ∀ t, execTrapezeAbortSend p u v s = .next t → t.Inv := by
  unfold execTrapezeAbortSend
  intro t e
  refine State.Inv.ofNext ?_ e
  with_reducible repeat' first | assumption | apply State.hostWrite_inv

theorem execSnapCapture_inv (p : Port) (u : Sid) {s : State} (h : s.Inv) : ∀ t, execSnapCapture p u s = .next t → t.Inv := by
  unfold execSnapCapture
  intro t e
  refine State.Inv.ofNext ?_ e
  with_reducible repeat' first | assumption | apply State.hostWrite_inv

theorem execAdjArm_inv (p : Port) (u : Sid) (mode : Bool) {s : State} (h : s.Inv) :
    ∀ t, execAdjArm p u mode s = .next t → t.Inv := by
  unfold execAdjArm
  intro t e
  refine State.Inv.ofNext ?_ e
  with_reducible repeat' first | assumption | apply State.hostWrite_inv

theorem execAdjCancel_inv (p : Port) (u : Sid) {s : State} (h : s.Inv) : ∀ t, execAdjCancel p u s = .next t → t.Inv := by
  unfold execAdjCancel
  intro t e
  refine State.Inv.ofNext ?_ e
  with_reducible repeat' first | assumption | apply State.hostWrite_inv

theorem execTrigLatchClear_inv (p : Port) (u : Sid) (n : RingId) (v : Word) {s : State} (h : s.Inv) :
    ∀ t, execTrigLatchClear p u n v s = .next t → t.Inv := by
  unfold execTrigLatchClear
  intro t e
  refine State.Inv.ofNext ?_ e
  with_reducible repeat' first | assumption | apply State.hostWrite_inv

theorem execTiuRun_inv (p : Port) (u : Sid) (k : Fin 4) {s : State} (h : s.Inv) :
    ∀ t, execTiuRun p u k s = .next t → t.Inv := by
  unfold execTiuRun
  intro t e
  refine State.Inv.ofNext ?_ e
  with_reducible repeat' first | assumption | apply State.hostWrite_inv

theorem execTiuAbort_inv (p : Port) (u : Sid) (k : Fin 4) {s : State} (h : s.Inv) :
    ∀ t, execTiuAbort p u k s = .next t → t.Inv := by
  unfold execTiuAbort
  intro t e
  refine State.Inv.ofNext ?_ e
  with_reducible repeat' first | assumption | apply State.hostWrite_inv

theorem execMarkHost_inv (p : Port) (u : Sid) (m : Fin 16) (v : Word) {s : State} (h : s.Inv) :
    ∀ t, execMarkHost p u m v s = .next t → t.Inv := by
  unfold execMarkHost
  intro t e
  refine State.Inv.ofNext ?_ e
  with_reducible repeat' first | assumption | apply State.hostWrite_inv

theorem execInjectionStart_inv (p : Port) (u : Sid) (r : Fin 24) (v : Word) {s : State} (h : s.Inv) :
    ∀ t, execInjectionStart p u r v s = .next t → t.Inv := by
  unfold execInjectionStart
  intro t e
  refine State.Inv.ofNext ?_ e
  with_reducible repeat' first | assumption | apply State.hostWrite_inv

theorem execCalApplyWrite_inv (p : Port) (u : Sid) (v : Word) {s : State} (h : s.Inv) :
    ∀ t, execCalApplyWrite p u v s = .next t → t.Inv := by
  unfold execCalApplyWrite
  intro t e
  refine State.Inv.ofNext ?_ e
  with_reducible repeat' first | assumption | apply State.hostWrite_inv

theorem execCalSave_inv (p : Port) (u : Sid) {s : State} (h : s.Inv) : ∀ t, execCalSave p u s = .next t → t.Inv := by
  unfold execCalSave
  intro t e
  refine State.Inv.ofNext ?_ e
  with_reducible repeat' first | assumption | apply State.hostWrite_inv

theorem execClrSave_inv (p : Port) (u : Sid) {s : State} (h : s.Inv) : ∀ t, execClrSave p u s = .next t → t.Inv := by
  unfold execClrSave
  intro t e
  refine State.Inv.ofNext ?_ e
  with_reducible repeat' first | assumption | apply State.hostWrite_inv

theorem execMtestStart_inv (p : Port) (u : Sid) {s : State} (h : s.Inv) : ∀ t, execMtestStart p u s = .next t → t.Inv := by
  unfold execMtestStart
  intro t e
  refine State.Inv.ofNext ?_ e
  with_reducible repeat' first | assumption | apply State.hostWrite_inv

theorem execMtestAbort_inv (p : Port) (u : Sid) {s : State} (h : s.Inv) : ∀ t, execMtestAbort p u s = .next t → t.Inv := by
  unfold execMtestAbort
  intro t e
  refine State.Inv.ofNext ?_ e
  with_reducible repeat' first | assumption | apply State.hostWrite_inv

theorem execRepmapSave_inv (p : Port) (u : Sid) {s : State} (h : s.Inv) : ∀ t, execRepmapSave p u s = .next t → t.Inv := by
  unfold execRepmapSave
  intro t e
  refine State.Inv.ofNext ?_ e
  with_reducible repeat' first | assumption | apply State.hostWrite_inv

theorem execRetModeWrite_inv (p : Port) (u : Sid) (n : RingId) (v : Word) {s : State} (h : s.Inv) :
    ∀ t, execRetModeWrite p u n v s = .next t → t.Inv := by
  unfold execRetModeWrite
  intro t e
  refine State.Inv.ofNext ?_ e
  with_reducible repeat' first | assumption | apply State.hostWrite_inv

theorem execCarouselStart_inv (p : Port) (u : Sid) (i : Fin 8) {s : State} (h : s.Inv) :
    ∀ t, execCarouselStart p u i s = .next t → t.Inv := by
  unfold execCarouselStart
  intro t e
  refine State.Inv.ofNext ?_ e
  with_reducible repeat' first | assumption | apply State.hostWrite_inv

theorem execCarouselStop_inv (p : Port) (u : Sid) (i : Fin 8) {s : State} (h : s.Inv) :
    ∀ t, execCarouselStop p u i s = .next t → t.Inv := by
  unfold execCarouselStop
  intro t e
  refine State.Inv.ofNext ?_ e
  with_reducible repeat' first | assumption | apply State.hostWrite_inv

theorem execFwUpdateStart_inv (p : Port) (u : Sid) {s : State} (h : s.Inv) :
    ∀ t, execFwUpdateStart p u s = .next t → t.Inv := by
  unfold execFwUpdateStart
  intro t e
  refine State.Inv.ofNext ?_ e
  with_reducible repeat' first | assumption | apply State.hostWrite_inv

theorem execFuseMinSvn_inv (p : Port) (u : Sid) (confirm : BitVec 16) {s : State} (h : s.Inv) :
    ∀ t, execFuseMinSvn p u confirm s = .next t → t.Inv := by
  unfold execFuseMinSvn
  intro t e
  refine State.Inv.ofNext ?_ e
  with_reducible repeat' first | assumption | apply State.hostWrite_inv

theorem execFuseRevoke_inv (p : Port) (u : Sid) (confirm : BitVec 16) {s : State} (h : s.Inv) :
    ∀ t, execFuseRevoke p u confirm s = .next t → t.Inv := by
  unfold execFuseRevoke
  intro t e
  refine State.Inv.ofNext ?_ e
  with_reducible repeat' first | assumption | apply State.hostWrite_inv

theorem execAttestationStart_inv (p : Port) (u : Sid) {s : State} (h : s.Inv) :
    ∀ t, execAttestationStart p u s = .next t → t.Inv := by
  unfold execAttestationStart
  intro t e
  refine State.Inv.ofNext ?_ e
  with_reducible repeat' first | assumption | apply State.hostWrite_inv

theorem execOwnerCheck_inv (p : Port) (u : Sid) (n : RingId) {s : State} (h : s.Inv) :
    ∀ t, execOwnerCheck p u n s = .next t → t.Inv := by
  unfold execOwnerCheck
  intro t e
  refine State.Inv.ofNext ?_ e
  with_reducible repeat' first | assumption | apply State.hostWrite_inv

theorem execOwnerLock_inv (p : Port) (u : Sid) (confirm : BitVec 16) {s : State} (h : s.Inv) :
    ∀ t, execOwnerLock p u confirm s = .next t → t.Inv := by
  unfold execOwnerLock
  intro t e
  refine State.Inv.ofNext ?_ e
  with_reducible repeat' first | assumption | apply State.hostWrite_inv

theorem execOwnerUnlock_inv (p : Port) (u : Sid) (confirm : BitVec 16) {s : State} (h : s.Inv) :
    ∀ t, execOwnerUnlock p u confirm s = .next t → t.Inv := by
  unfold execOwnerUnlock
  intro t e
  refine State.Inv.ofNext ?_ e
  with_reducible repeat' first | assumption | apply State.hostWrite_inv

theorem execRstCmdReset_inv (p : Port) (u : Sid) (confirm : BitVec 16) {s : State} (h : s.Inv) :
    ∀ t, execRstCmdReset p u confirm s = .next t → t.Inv := by
  unfold execRstCmdReset
  intro t e
  refine State.Inv.ofNext ?_ e
  with_reducible repeat' first | assumption | apply State.hostWrite_inv

theorem execRelock_inv (p : Port) (u : Sid) {s : State} (h : s.Inv) : ∀ t, execRelock p u s = .next t → t.Inv := by
  unfold execRelock
  intro t e
  refine State.Inv.ofNext ?_ e
  with_reducible repeat' first | assumption | apply State.hostWrite_inv

theorem execSyncArm_inv (p : Port) (u : Sid) {s : State} (h : s.Inv) : ∀ t, execSyncArm p u s = .next t → t.Inv := by
  unfold execSyncArm
  intro t e
  refine State.Inv.ofNext ?_ e
  with_reducible repeat' first | assumption | apply State.hostWrite_inv

theorem execSyncPulse_inv (p : Port) (u : Sid) {s : State} (h : s.Inv) : ∀ t, execSyncPulse p u s = .next t → t.Inv := by
  unfold execSyncPulse
  intro t e
  refine State.Inv.ofNext ?_ e
  with_reducible repeat' first | assumption | apply State.hostWrite_inv

theorem execSyncCancel_inv (p : Port) (u : Sid) {s : State} (h : s.Inv) : ∀ t, execSyncCancel p u s = .next t → t.Inv := by
  unfold execSyncCancel
  intro t e
  refine State.Inv.ofNext ?_ e
  with_reducible repeat' first | assumption | apply State.hostWrite_inv

theorem State.reject_inv {s : State} (p : Nat) (a : PushAddr) (h0 : Header) (e : Err) (cached : Bool) (h : s.Inv) :
    (State.reject s p a h0 e cached).Inv := by
  unfold State.reject
  with_reducible repeat' first | assumption | apply State.sendFrame_inv

theorem State.duplicate_inv {s : State} (p : Nat) (first : Nat) (a : PushAddr) (h0 : Header) (h : s.Inv) :
    (State.duplicate s p first a h0).Inv := by
  unfold State.duplicate
  with_reducible repeat' first
    | assumption | apply State.satReg_inv | apply State.sendFrame_inv | apply State.reject_inv | apply State.Inv.ite | split

theorem State.noteSeq_inv {s : State} (u : Nat) (p : Nat) (q : Word) (h : s.Inv) : (State.noteSeq s u p q).Inv := by
  unfold State.noteSeq
  with_reducible repeat' first | assumption | apply State.modSess_inv | apply State.setReg_inv

theorem State.sessionBlock_inv {s : State} (p : Nat) (u : Nat) (b : Block) (h : s.Inv) :
    (State.sessionBlock s p u b).2.Inv := by
  unfold State.sessionBlock
  dsimp only
  with_reducible repeat' first
    | assumption | apply State.opRead_inv | apply State.opWrite_inv | apply State.opWriteMask_inv | apply State.opSchedule_inv
    | apply State.opStreamData_inv | apply State.opCredit_inv | apply State.opResultAck_inv | apply State.opClose_inv
    | apply State.opDiscover_inv | split

theorem State.openBlock_inv {s : State} (p : Nat) (a : PushAddr) (q : Word) (b : Block) (h : s.Inv) :
    (State.openBlock s p a q b).2.Inv := by
  unfold State.openBlock
  dsimp only
  with_reducible repeat' first | assumption | apply State.opOpen_inv | apply State.opDiscover_inv | split

theorem State.keepResponse_inv {s : State} (u : Nat) (p : Nat) (q : Word) (f : OutFrame) (h : s.Inv) :
    (State.keepResponse s u p q f).Inv := by
  unfold State.keepResponse
  with_reducible repeat' first | assumption | apply State.modSess_inv

theorem State.respond_inv {s : State} (p : Nat) (a : PushAddr) (h0 : Header) (u : Nat) (h : s.Inv) :
    (State.respond s p a h0 u).Inv := by
  unfold State.respond
  with_reducible repeat' first
    | assumption | apply State.sendFrame_inv | apply State.keepResponse_inv | apply State.Inv.ite

theorem State.runBlocks_inv {s : State} (c : FrameRun) (h0 : Header) (x3 : List Block) (h : s.Inv) :
    (State.runBlocks s c h0 x3).Inv := by
  induction x3 generalizing s c with
  | nil => exact respond_inv _ _ _ _ h
  | cons b t ih =>
    unfold State.runBlocks
    dsimp only
    split
    · rename_i d _
      have h1 := blockOp_inv { d with port := c.port, frame := some { c with done := c.done + 1, resp := s.resp } } h
      split
      · rename_i e
        rw [e] at h1
        exact ih _ (h1.upd rfl)
      · rename_i e
        rw [e] at h1
        exact h1
    · refine ih _ (State.Inv.upd ?_ rfl)
      split
      · exact openBlock_inv _ _ _ _ h
      · split
        · exact sessionBlock_inv _ _ _ h
        · exact h

theorem State.goOn_inv {s : State} (c : FrameRun) (h : s.Inv) : (State.goOn s c).Inv := by
  unfold State.goOn
  with_reducible repeat' first
    | assumption | apply State.runBlocks_inv | split | fail_if_no_progress (refine State.Inv.upd ?_ rfl)

theorem State.runFrame_inv {s : State} (p : Nat) (a : PushAddr) (m : List Byte) (h0 : Header) (h : s.Inv) :
    (State.runFrame s p a m h0).Inv := by
  unfold State.runFrame
  with_reducible repeat' first | assumption | apply State.noteSeq_inv | apply State.goOn_inv | apply State.Inv.ite

theorem State.request_inv {s : State} (p : Nat) (a : PushAddr) (m : List Byte) (h0 : Header) (bs : List Block) (h : s.Inv) :
    (State.request s p a m h0 bs).Inv := by
  unfold State.request
  dsimp only
  with_reducible repeat' first
    | assumption | apply State.reject_inv | apply State.noteFrame_inv | apply State.duplicate_inv | apply State.runFrame_inv
    | apply State.Inv.ite | split

theorem State.ordered_inv {s : State} (p : Nat) (a : PushAddr) (q : Nat) (len : Nat) (m : List Byte) (h : s.Inv) :
    (State.ordered s p a q len m).Inv := by
  unfold State.ordered
  with_reducible repeat' first
    | assumption | apply State.reject_inv | apply State.request_inv | apply State.Inv.ite | split
    | fail_if_no_progress (refine State.Inv.upd ?_ rfl)

theorem State.answerFrames_inv {s : State} (h : s.Inv) : (State.answerFrames s).Inv := by
  unfold State.answerFrames
  with_reducible repeat' first
    | assumption | intro _ | apply State.goOn_inv | apply State.Inv.foldl | split
    | fail_if_no_progress (refine State.Inv.upd ?_ rfl)

theorem State.goOnFrames_inv {s : State} (h : s.Inv) : (State.goOnFrames s).Inv := by
  unfold State.goOnFrames
  with_reducible repeat' first
    | assumption | intro _ | apply State.goOn_inv | apply State.ordered_inv | apply State.Inv.foldl
    | fail_if_no_progress (refine State.Inv.upd ?_ rfl)

theorem State.receive_inv {s : State} (p : Nat) (a : PushAddr) (h0 : RxHead) (m : List Byte) (h : s.Inv) :
    (State.receive s p a h0 m).Inv := by
  unfold State.receive
  with_reducible repeat' first
    | assumption | apply State.macTakes_inv | apply State.satReg_inv | apply State.ordered_inv | apply State.Inv.ite

theorem execRcpRequest_inv (p : Port) (a : RxFrom) (m : List Byte) {s : State} (h : s.Inv) :
    ∀ t, execRcpRequest p a m s = .next t → t.Inv := by
  unfold execRcpRequest
  intro t e
  refine State.Inv.ofNext ?_ e
  with_reducible repeat' first | assumption | apply State.receive_inv

end Sys2Proof.Machine
end

