-- ==== Sys2Proof/Laws/InvBeat.lean ====
section
/-! SUPPORT. The invariant of the block through the passing of a beat. -/

namespace Sys2Proof.Machine

/-- A meaning whose next state keeps the invariant. -/
def Keeps (f : Act) : Prop := ∀ s t, s.Inv → f s = .next t → t.Inv

/-- Every meaning of a list keeps the invariant. -/
def ActsKeep (l : List Act) : Prop := ∀ f ∈ l, Keeps f

/-- Every meaning of a list keeps the invariant, whichever free value it takes. -/
def DrawsKeep (l : List (Nat → Act)) : Prop := ∀ f ∈ l, ∀ k, Keeps (f k)

theorem Keeps.next {f : State → State} (h : ∀ s, s.Inv → (f s).Inv) : Keeps fun s => .next (f s) := by
  intro s t hs e
  cases e
  exact h s hs

theorem ActsKeep.nil : ActsKeep [] := by simp [ActsKeep]
theorem ActsKeep.append {l m : List Act} (h : ActsKeep l) (h' : ActsKeep m) : ActsKeep (l ++ m) := by
  intro f hf
  rcases List.mem_append.1 hf with hf | hf
  · exact h f hf
  · exact h' f hf
theorem ActsKeep.map {α : Type} {l : List α} {g : α → Act} (h : ∀ x, Keeps (g x)) : ActsKeep (l.map g) := by
  intro f hf
  obtain ⟨x, _, rfl⟩ := List.mem_map.1 hf
  exact h x
theorem ActsKeep.flatMap {α : Type} {l : List α} {g : α → List Act} (h : ∀ x, ActsKeep (g x)) : ActsKeep (l.flatMap g) := by
  intro f hf
  obtain ⟨x, _, hx⟩ := List.mem_flatMap.1 hf
  exact h x f hx
theorem ActsKeep.ite {c : Prop} [Decidable c] {l m : List Act} (h : ActsKeep l) (h' : ActsKeep m) : ActsKeep (if c then l else m) := by
  split
  · exact h
  · exact h'
theorem ActsKeep.one {c : Bool} {i : Act} (h : Keeps i) : ActsKeep (one c i) := by
  unfold Machine.one
  split
  · simpa [ActsKeep] using h
  · exact nil
theorem ActsKeep.each {k : Nat} {c : Fin k → Bool} {i : Fin k → Act} (h : ∀ x, Keeps (i x)) : ActsKeep (each k c i) := map h
theorem ActsKeep.eachOf {k : Nat} {c : RingId → Fin k → Bool} {i : RingId → Fin k → Act} (h : ∀ n x, Keeps (i n x)) :
    ActsKeep (eachOf k c i) := flatMap fun n => each (h n)
theorem ActsKeep.single {i : Act} (h : Keeps i) : ActsKeep [i] := by
  simpa [ActsKeep] using h
theorem DrawsKeep.nil : DrawsKeep [] := by simp [DrawsKeep]
theorem DrawsKeep.append {l m : List (Nat → Act)} (h : DrawsKeep l) (h' : DrawsKeep m) : DrawsKeep (l ++ m) := by
  intro f hf
  rcases List.mem_append.1 hf with hf | hf
  · exact h f hf
  · exact h' f hf
theorem DrawsKeep.map {α : Type} {l : List α} {g : α → Nat → Act} (h : ∀ x k, Keeps (g x k)) : DrawsKeep (l.map g) := by
  intro f hf
  obtain ⟨x, _, rfl⟩ := List.mem_map.1 hf
  exact h x
theorem DrawsKeep.single {g : Nat → Act} (h : ∀ k, Keeps (g k)) : DrawsKeep [g] := by
  simpa [DrawsKeep] using h
theorem DrawsKeep.ite {c : Prop} [Decidable c] {l m : List (Nat → Act)} (h : DrawsKeep l) (h' : DrawsKeep m) :
    DrawsKeep (if c then l else m) := by
  split
  · exact h
  · exact h'

namespace State

theorem run_inv {s : State} {f : Act} (hf : Keeps f) (h : s.Inv) : (s.run f).Inv := by
  unfold run
  split
  · exact hf _ _ h ‹_›
  · exact h

theorem zRowAct_keeps (n : RingId) (k : Nat) : Keeps (zRowAct n k) := by
  unfold zRowAct
  split
  · exact fun s t h e => execNop_inv _ h t e
  · exact fun s t h e => execHalt_inv _ h t e
  · exact fun s t h e => execShot_inv _ h t e
  · exact fun s t h e => execWait_inv _ h t e
  · exact fun s t h e => execWaitc_inv _ h t e
  · exact fun s t h e => execSync_inv _ h t e
  · exact fun s t h e => execXsync_inv _ h t e
  · exact fun s t h e => execBr_inv _ h t e
  · exact fun s t h e => execCall_inv _ h t e
  · exact fun s t h e => execRet_inv _ h t e
  · exact fun s t h e => execLoop_inv _ h t e
  · exact fun s t h e => execEndl_inv _ h t e
  · exact fun s t h e => execCaseOp_inv _ h t e
  · exact fun s t h e => execDec_inv _ h t e
  · exact fun s t h e => execLdi_inv _ h t e
  · exact fun s t h e => execLd_inv _ h t e
  · exact fun s t h e => execSt_inv _ h t e
  · exact fun s t h e => execAdd_inv _ h t e
  · exact fun s t h e => execSub_inv _ h t e
  · exact fun s t h e => execAnd_inv _ h t e
  · exact fun s t h e => execOr_inv _ h t e
  · exact fun s t h e => execXor_inv _ h t e
  · exact fun s t h e => execShl_inv _ h t e
  · exact fun s t h e => execShr_inv _ h t e
  · exact fun s t h e => execCmp_inv _ h t e
  · exact fun s t h e => execPlay_inv _ h t e
  · exact fun s t h e => execPlays_inv _ h t e
  · exact fun s t h e => execStop_inv _ h t e
  · exact fun s t h e => execFrq_inv _ h t e
  · exact fun s t h e => execPhs_inv _ h t e
  · exact fun s t h e => execPhset_inv _ h t e
  · exact fun s t h e => execAmp_inv _ h t e
  · exact fun s t h e => execAcq_inv _ h t e
  · exact fun s t h e => execKer_inv _ h t e
  · exact fun s t h e => execBias_inv _ h t e
  · exact fun s t h e => execMark_inv _ h t e
  · exact fun s t h e => execTset_inv _ h t e
  · exact fun s t h e => execFade_inv _ h t e
  · exact fun s t h e => execSend_inv _ h t e
  · exact fun s t h e => execEvt_inv _ h t e
  · exact fun s t h e => execIllegalInstruction_inv _ h t e

theorem jRowAct_keeps (n : RingId) (k : Nat) : Keeps (jRowAct n k) := by
  unfold jRowAct
  split
  · exact fun s t h e => execJugNop_inv _ h t e
  · exact fun s t h e => execJugHalt_inv _ h t e
  · exact fun s t h e => execJugBr_inv _ h t e
  · exact fun s t h e => execBrr_inv _ h t e
  · exact fun s t h e => execJugCall_inv _ h t e
  · exact fun s t h e => execJugRet_inv _ h t e
  · exact fun s t h e => execRti_inv _ h t e
  · exact fun s t h e => execDoLoop_inv _ h t e
  · exact fun s t h e => execJugWait_inv _ h t e
  · exact fun s t h e => execJugLdi_inv _ h t e
  · exact fun s t h e => execLdr_inv _ h t e
  · exact fun s t h e => execMovr_inv _ h t e
  · exact fun s t h e => execInPort_inv _ h t e
  · exact fun s t h e => execOutPort_inv _ h t e
  · exact fun s t h e => execPost_inv _ h t e
  · exact fun s t h e => execRnd_inv _ h t e
  · exact fun s t h e => execMove_inv _ h t e
  · exact fun s t h e => execMov_inv _ h t e
  · exact fun s t h e => execJugAdd_inv _ h t e
  · exact fun s t h e => execJugSub_inv _ h t e
  · exact fun s t h e => execJugCmp_inv _ h t e
  · exact fun s t h e => execJugAnd_inv _ h t e
  · exact fun s t h e => execJugOr_inv _ h t e
  · exact fun s t h e => execJugXor_inv _ h t e
  · exact fun s t h e => execJugShl_inv _ h t e
  · exact fun s t h e => execJugShr_inv _ h t e
  · exact fun s t h e => execAsr_inv _ h t e
  · exact fun s t h e => execNeg_inv _ h t e
  · exact fun s t h e => execAbs_inv _ h t e
  · exact fun s t h e => execMin_inv _ h t e
  · exact fun s t h e => execMax_inv _ h t e
  · exact fun s t h e => execAdds_inv _ h t e
  · exact fun s t h e => execSubs_inv _ h t e
  · exact fun s t h e => execAclr_inv _ h t e
  · exact fun s t h e => execAmov_inv _ h t e
  · exact fun s t h e => execAadd_inv _ h t e
  · exact fun s t h e => execAsub_inv _ h t e
  · exact fun s t h e => execAshl_inv _ h t e
  · exact fun s t h e => execAshr_inv _ h t e
  · exact fun s t h e => execAneg_inv _ h t e
  · exact fun s t h e => execAabs_inv _ h t e
  · exact fun s t h e => execSgnb_inv _ h t e
  · exact fun s t h e => execMac_inv _ h t e
  · exact fun s t h e => execMac2_inv _ h t e
  · exact fun s t h e => execAbsoluteMove_inv _ h t e
  · exact fun s t h e => execIllegalPacket_inv _ h t e

theorem issueAct_keeps (s : State) (n : RingId) : Keeps (s.issueAct n) := by
  unfold issueAct
  split
  · exact fun s t h e => execIllegalInstruction_inv _ h t e
  · exact zRowAct_keeps _ _

theorem endHold_inv {s : State} (n : RingId) (h : s.Inv) : (s.endHold n).Inv := by
  unfold endHold
  refine run_inv (fun s t h e => execWaitConditionMet_inv n h t e) ?_
  split
  · exact run_inv (fun s t h e => execTimingHoldEnd_inv n h t e) h
  · exact run_inv (fun s t h e => execWaitEnd_inv n h t e) h
  · exact run_inv (fun s t h e => execDecisionArrive_inv n h t e) h
  · exact run_inv (fun s t h e => execDecisionArrive_inv n h t e) h
  · exact h

theorem frontEnd_inv {s : State} (n : RingId) (h : s.Inv) : (s.frontEnd n).Inv := by
  unfold frontEnd
  have h1 := endHold_inv n (State.Inv.ite (c := s.serveDue n = true) (run_inv (fun s t h e => execLdComplete_inv n h t e) h) h)
  exact State.Inv.ite (run_inv (issueAct_keeps _ n) h1) h1

theorem packetAct_keeps (s : State) (n : RingId) : Keeps (s.packetAct n) := by
  unfold packetAct
  split
  · exact fun s t h e => execIllegalPacket_inv _ h t e
  · exact jRowAct_keeps _ _

theorem stageDecisions_keep (s : State) : ActsKeep s.stageDecisions := by
  unfold stageDecisions
  repeat' first
    | (with_reducible apply ActsKeep.append) | (with_reducible apply ActsKeep.each; intro _)
    | (with_reducible apply ActsKeep.one)
    | (with_reducible exact ActsKeep.nil) | (with_reducible apply ActsKeep.single) | (with_reducible apply ActsKeep.ite)
    | exact fun s t h e => execDecRelease_inv h t e | exact Keeps.next fun _ h => decArrive_inv _ h

theorem stageClock_keep (s : State) : ActsKeep s.stageClock := by
  unfold stageClock
  repeat' first
    | (with_reducible apply ActsKeep.append) | (with_reducible apply ActsKeep.each; intro _)
    | (with_reducible apply ActsKeep.eachOf; intro _ _) | (with_reducible apply ActsKeep.one)
    | (with_reducible exact ActsKeep.nil) | (with_reducible apply ActsKeep.single) | (with_reducible apply ActsKeep.ite)
    | exact fun s t h e => execFadeReach_inv _ _ h t e | exact fun s t h e => execFadeEnd_inv _ _ h t e
    | exact fun s t h e => execBiasSlewEnd_inv _ _ h t e | exact fun s t h e => execBiasTake_inv _ _ h t e
    | exact fun s t h e => execAbortRampEnd_inv _ h t e | exact fun s t h e => execTxSettleEnd_inv _ _ h t e
    | exact fun s t h e => execSpanSettleEnd_inv _ _ h t e | exact fun s t h e => execRxReady_inv _ _ h t e
    | exact fun s t h e => execRxClip_inv _ _ h t e | exact fun s t h e => execOverloadRemoved_inv _ _ h t e
    | exact fun s t h e => execRetWakeDone_inv _ h t e | exact fun s t h e => execPortLost_inv _ h t e
    | exact fun s t h e => execPortUp_inv _ h t e | exact Keeps.next fun _ h => bootTake_inv _ _ h

theorem stageTime_keep (s : State) : ActsKeep s.stageTime := by
  unfold stageTime
  repeat' first
    | (with_reducible apply ActsKeep.append) | (with_reducible apply ActsKeep.each; intro _)
    | (with_reducible apply ActsKeep.one)
    | (with_reducible apply ActsKeep.map; intro _)
    | (with_reducible exact ActsKeep.nil) | (with_reducible apply ActsKeep.single) | (with_reducible apply ActsKeep.ite)
    | exact fun s t h e => execScheduleApply_inv _ h t e | exact fun s t h e => execSoftwareResetExpiry_inv h t e
    | exact fun s t h e => execLinkPhaseTimeout_inv h t e | exact fun s t h e => execSyncPulsePeriodic_inv h t e
    | exact fun s t h e => execSessionTimeout_inv _ h t e

theorem stageRings_keep (s : State) : ActsKeep s.stageRings := by
  unfold stageRings
  repeat' first
    | (with_reducible apply ActsKeep.append) | (with_reducible apply ActsKeep.each; intro _)
    | (with_reducible apply ActsKeep.one)
    | (with_reducible exact ActsKeep.nil) | (with_reducible apply ActsKeep.single) | (with_reducible apply ActsKeep.ite)
    | exact fun s t h e => execLdComplete_inv _ h t e | exact fun s t h e => execAbortAccept_inv _ h t e
    | exact fun s t h e => execActionRelease_inv _ h t e

theorem stageShots_keep (s : State) : ActsKeep s.stageShots := by
  unfold stageShots
  repeat' first
    | (with_reducible apply ActsKeep.append) | (with_reducible apply ActsKeep.each; intro _)
    | (with_reducible apply ActsKeep.one)
    | (with_reducible apply ActsKeep.flatMap; intro _)
    | (with_reducible exact ActsKeep.nil) | (with_reducible apply ActsKeep.single) | (with_reducible apply ActsKeep.ite)
    | exact fun s t h e => execShotBoundary_inv _ h t e | exact fun s t h e => execShotStart_inv _ h t e
    | exact fun s t h e => execHaltComplete_inv _ h t e | exact fun s t h e => execBarrierRelease_inv _ h t e
    | exact fun s t h e => execSyncRelease_inv _ h t e | exact fun s t h e => execRotationStepStart_inv _ h t e | split

theorem stageOutputs_keep (s : State) : ActsKeep s.stageOutputs := by
  unfold stageOutputs
  repeat' first
    | (with_reducible apply ActsKeep.append)
    | (with_reducible apply ActsKeep.eachOf; intro _ _) | (with_reducible apply ActsKeep.one)
    | (with_reducible exact ActsKeep.nil) | (with_reducible apply ActsKeep.single) | (with_reducible apply ActsKeep.ite)
    | exact fun s t h e => execWindowClose_inv _ _ h t e | exact fun s t h e => execCoarseResult_inv _ _ h t e
    | exact fun s t h e => execFineResult_inv _ _ h t e

theorem stageVoices_keep (s : State) : ActsKeep s.stageVoices := by
  unfold stageVoices
  repeat' first
    | (with_reducible apply ActsKeep.append)
    | (with_reducible apply ActsKeep.eachOf; intro _ _) | (with_reducible apply ActsKeep.one)
    | (with_reducible exact ActsKeep.nil) | (with_reducible apply ActsKeep.single) | (with_reducible apply ActsKeep.ite)
    | exact fun s t h e => execRequestReachesVoice_inv _ _ h t e | exact fun s t h e => execSegmentBoundary_inv _ _ h t e
    | exact fun s t h e => execUnitClaim_inv _ _ h t e | exact fun s t h e => execUnitRelease_inv _ _ h t e
    | exact fun s t h e => execStopRampEnd_inv _ _ h t e

theorem stageReceive_keep (s : State) : ActsKeep s.stageReceive := by
  unfold stageReceive
  repeat' first
    | (with_reducible apply ActsKeep.append)
    | (with_reducible apply ActsKeep.eachOf; intro _ _) | (with_reducible apply ActsKeep.one)
    | (with_reducible exact ActsKeep.nil) | (with_reducible apply ActsKeep.single) | (with_reducible apply ActsKeep.ite)
    | exact fun s t h e => execRawCaptureEnd_inv _ _ h t e

theorem stageIssue_keep (s : State) : ActsKeep s.stageIssue := by
  unfold stageIssue
  repeat' first
    | (with_reducible apply ActsKeep.append) | (with_reducible apply ActsKeep.each; intro _)
    | (with_reducible apply ActsKeep.one)
    | (with_reducible exact ActsKeep.nil) | (with_reducible apply ActsKeep.single) | (with_reducible apply ActsKeep.ite)
    | (with_reducible exact issueAct_keeps _ _) | exact Keeps.next fun _ h => frontEnd_inv _ (frontEnd_inv _ h)

theorem stageJugglers_keep (s : State) : ActsKeep s.stageJugglers := by
  unfold stageJugglers
  repeat' first
    | (with_reducible apply ActsKeep.append)
    | (with_reducible apply ActsKeep.one)
    | (with_reducible apply ActsKeep.flatMap; intro _)
    | (with_reducible exact ActsKeep.nil) | (with_reducible apply ActsKeep.single) | (with_reducible apply ActsKeep.ite)
    | (with_reducible exact packetAct_keeps _ _) | exact fun s t h e => execJugTimerExpiry_inv _ h t e
    | exact fun s t h e => execInterruptEntry_inv _ h t e | exact fun s t h e => execJugWaitRelease_inv _ h t e

theorem stageUnits_keep (s : State) : ActsKeep s.stageUnits := by
  unfold stageUnits
  repeat' first
    | (with_reducible apply ActsKeep.append) | (with_reducible apply ActsKeep.each; intro _)
    | (with_reducible apply ActsKeep.one)
    | (with_reducible exact ActsKeep.nil) | (with_reducible apply ActsKeep.single) | (with_reducible apply ActsKeep.ite)
    | exact fun s t h e => execTiuEvent_inv _ h t e | exact fun s t h e => execTiuDone_inv _ h t e
    | exact fun s t h e => execMarkerEdge_inv _ h t e | exact fun s t h e => execWindowBorrow_inv h t e
    | exact fun s t h e => execCarouselFrame_inv _ h t e | exact fun s t h e => execSpectrumReady_inv _ h t e
    | exact fun s t h e => execSpectrumPush_inv _ h t e | exact fun s t h e => execHkRoundStart_inv _ h t e
    | exact fun s t h e => execShutdownPowerDown_inv h t e | exact fun s t h e => execShutdownDone_inv h t e
    | exact fun s t h e => execTelemetryPush_inv h t e

theorem stageSecurity_keep (s : State) : ActsKeep s.stageSecurity := by
  unfold stageSecurity
  repeat' first
    | (with_reducible apply ActsKeep.append)
    | (with_reducible apply ActsKeep.one)
    | (with_reducible exact ActsKeep.nil) | (with_reducible apply ActsKeep.single) | (with_reducible apply ActsKeep.ite)
    | exact fun s t h e => execFuseWriteComplete_inv h t e | exact fun s t h e => execAttestationComplete_inv h t e
    | exact fun s t h e => execOwnerOpComplete_inv h t e | split

theorem stageLinks_keep (s : State) : ActsKeep s.stageLinks := by
  unfold stageLinks
  repeat' first
    | (with_reducible apply ActsKeep.append) | (with_reducible apply ActsKeep.each; intro _)
    | (with_reducible apply ActsKeep.one)
    | (with_reducible apply ActsKeep.map; intro _) | (with_reducible apply ActsKeep.flatMap; intro _)
    | (with_reducible exact ActsKeep.nil) | (with_reducible apply ActsKeep.single) | (with_reducible apply ActsKeep.ite)
    | exact fun s t h e => execTrainingPatternEnd_inv _ h t e | exact fun s t h e => execLinkStateAdvance_inv _ h t e
    | exact fun s t h e => execLinkUp_inv _ h t e | exact fun s t h e => execLinkFail_inv _ _ h t e
    | exact fun s t h e => execLaneFailing_inv _ _ h t e | exact fun s t h e => execSpareBad_inv _ h t e
    | exact fun s t h e => execLaneSwap_inv _ h t e | exact fun s t h e => execLaneReturn_inv _ h t e
    | exact fun s t h e => execMarkerFlit_inv _ h t e | exact fun s t h e => execPtpMessageSend_inv _ _ h t e
    | exact fun s t h e => execPtpHoldover_inv h t e

theorem stagePorts_keep (s : State) : ActsKeep s.stagePorts := by
  unfold stagePorts
  repeat' first
    | (with_reducible apply ActsKeep.append) | (with_reducible apply ActsKeep.each; intro _)
    | (with_reducible apply ActsKeep.eachOf; intro _ _) | (with_reducible apply ActsKeep.one)
    | (with_reducible apply ActsKeep.map; intro _) | (with_reducible apply ActsKeep.flatMap; intro _)
    | (with_reducible exact ActsKeep.nil) | (with_reducible apply ActsKeep.single) | (with_reducible apply ActsKeep.ite)
    | exact fun s t h e => execCalStorePeriodic_inv h t e | exact fun s t h e => execPfcXoffRepeat_inv _ _ h t e
    | exact fun s t h e => execPfcXon_inv _ _ h t e | exact fun s t h e => execEventDeferredRecord_inv _ _ _ h t e
    | exact fun s t h e => execResultPush_inv _ h t e | exact fun s t h e => execCreditPush_inv _ _ h t e
    | exact fun s t h e => execEventPush_inv h t e

theorem stageLast_keep (s : State) : ActsKeep s.stageLast := by
  unfold stageLast
  repeat' first
    | (with_reducible apply ActsKeep.append) | (with_reducible apply ActsKeep.each; intro _)
    | (with_reducible apply ActsKeep.one)
    | (with_reducible exact ActsKeep.nil) | (with_reducible apply ActsKeep.single) | (with_reducible apply ActsKeep.ite)
    | exact fun s t h e => execDecisionTimeout_inv _ h t e | exact Keeps.next fun _ h => judgePosts_inv _ h

theorem stageClosing_keep (s : State) : ActsKeep s.stageClosing := by
  unfold stageClosing
  repeat' first
    | (with_reducible apply ActsKeep.append) | (with_reducible apply ActsKeep.each; intro _)
    | (with_reducible apply ActsKeep.one)
    | (with_reducible apply ActsKeep.map; intro _)
    | (with_reducible exact ActsKeep.nil) | (with_reducible apply ActsKeep.single) | (with_reducible apply ActsKeep.ite)
    | exact fun s t h e => execBarrierArrive_inv _ h t e | exact fun s t h e => execDecFlitTransmit_inv _ h t e
    | exact fun s t h e => execScrubRead_inv _ h t e

theorem drawTest_keep (s : State) : DrawsKeep s.drawTest := by
  unfold drawTest
  repeat' first
    | (with_reducible apply DrawsKeep.append)
    | (with_reducible apply DrawsKeep.ite) | (with_reducible exact DrawsKeep.nil)
    | (with_reducible apply DrawsKeep.single; intro _) | exact fun s t h e => execWindowRelease_inv _ h t e
    | exact fun s t h e => execWindowAbandon_inv _ h t e | exact fun s t h e => execMtestDone_inv _ h t e

theorem drawStore_keep (s : State) : DrawsKeep s.drawStore := by
  unfold drawStore
  repeat' first
    | (with_reducible apply DrawsKeep.append)
    | (with_reducible apply DrawsKeep.ite) | (with_reducible exact DrawsKeep.nil)
    | (with_reducible apply DrawsKeep.single; intro _) | exact fun s t h e => execStoreComplete_inv _ h t e
    | exact fun s t h e => execFwUpdateComplete_inv _ h t e | split

theorem drawCal_keep (s : State) : DrawsKeep s.drawCal := by
  unfold drawCal
  repeat' first
    | (with_reducible apply DrawsKeep.append) | (with_reducible apply DrawsKeep.map; intro _ _)
    | (with_reducible apply DrawsKeep.ite) | (with_reducible exact DrawsKeep.nil)
    | exact fun s t h e => execCalBlockEvaluation_inv _ _ h t e
    | exact fun s t h e => execMonitorVisit_inv _ _ h t e

theorem drawHk_keep (s : State) : DrawsKeep s.drawHk := by
  unfold drawHk
  repeat' first
    | (with_reducible apply DrawsKeep.append) | (with_reducible apply DrawsKeep.map; intro _ _)
    | (with_reducible apply DrawsKeep.ite) | (with_reducible exact DrawsKeep.nil)
    | (with_reducible apply DrawsKeep.single; intro _) | exact fun s t h e => execHkConversion_inv _ _ h t e
    | exact fun s t h e => execFanTachUpdate_inv _ _ h t e

theorem drawPower_keep (s : State) : DrawsKeep s.drawPower := by
  unfold drawPower
  repeat' first
    | (with_reducible apply DrawsKeep.append)
    | (with_reducible apply DrawsKeep.ite) | (with_reducible exact DrawsKeep.nil)
    | (with_reducible apply DrawsKeep.single; intro _) | exact fun s t h e => execStartupPhaseComplete_inv _ h t e
    | exact fun s t h e => execRelockDone_inv h t e

theorem drawModules_keep (s : State) : DrawsKeep s.drawModules := by
  unfold drawModules
  repeat' first
    | (with_reducible apply DrawsKeep.append) | (with_reducible apply DrawsKeep.map; intro _ _)
    | (with_reducible apply DrawsKeep.ite) | (with_reducible exact DrawsKeep.nil)
    | exact fun s t h e => execModulePoll_inv _ _ _ h t e
    | exact fun s t h e => execModuleMirror_inv _ _ h t e

theorem stages_keep (s : State) : ∀ f ∈ stages, ActsKeep (f s) := by
  intro f hf
  simp only [stages, List.mem_cons, List.not_mem_nil, or_false] at hf
  rcases hf with rfl | rfl | rfl | rfl | rfl | rfl | rfl | rfl | rfl | rfl | rfl | rfl | rfl | rfl | rfl
  · exact stageDecisions_keep s
  · exact stageClock_keep s
  · exact stageTime_keep s
  · exact stageRings_keep s
  · exact stageShots_keep s
  · exact stageOutputs_keep s
  · exact stageVoices_keep s
  · exact stageIssue_keep s
  · exact stageReceive_keep s
  · exact stageJugglers_keep s
  · exact stageUnits_keep s
  · exact stageSecurity_keep s
  · exact stageLinks_keep s
  · exact stagePorts_keep s
  · exact stageClosing_keep s

theorem draws_keep (s : State) : ∀ f ∈ draws, DrawsKeep (f s) := by
  intro f hf
  simp only [draws, List.mem_cons, List.not_mem_nil, or_false] at hf
  rcases hf with rfl | rfl | rfl | rfl | rfl | rfl
  · exact drawTest_keep s
  · exact drawStore_keep s
  · exact drawCal_keep s
  · exact drawHk_keep s
  · exact drawPower_keep s
  · exact drawModules_keep s

end State

namespace State

theorem runStage_inv {p : Bool × State} {f : State → List Act} (hf : ∀ s, ActsKeep (f s)) (h : p.2.Inv) :
    (runStage p f).2.Inv := by
  have key : ∀ (l : List Act) (s : State), ActsKeep l → s.Inv → (l.foldl run s).Inv := by
    intro l
    induction l with
    | nil => intro s _ h; exact h
    | cons a t ih =>
      intro s hl h
      exact ih _ (fun f hf => hl f (List.mem_cons_of_mem _ hf)) (run_inv (hl a List.mem_cons_self) h)
  exact key _ _ (hf _) h

theorem pass_inv {fs : List (State → List Act)} {s : State} (hf : ∀ f ∈ fs, ∀ s, ActsKeep (f s)) (h : s.Inv) :
    (pass fs s).2.Inv := by
  have key : ∀ (l : List (State → List Act)) (p : Bool × State), (∀ f ∈ l, ∀ s, ActsKeep (f s)) → p.2.Inv →
      (l.foldl runStage p).2.Inv := by
    intro l
    induction l with
    | nil => intro p _ h; exact h
    | cons a t ih =>
      intro p hl h
      exact ih _ (fun f hf => hl f (List.mem_cons_of_mem _ hf)) (runStage_inv (hl a List.mem_cons_self) h)
  exact key _ _ hf h

theorem settle_inv {fs : List (State → List Act)} (k : Nat) {s : State} (hf : ∀ f ∈ fs, ∀ s, ActsKeep (f s)) (h : s.Inv) :
    (settle fs k s).Inv := by
  induction k generalizing s with
  | zero => exact h
  | succ k ih =>
    have h1 := pass_inv hf h
    unfold settle
    split
    · rename_i e
      rw [e] at h1
      exact ih h1
    · rename_i e
      rw [e] at h1
      exact h1

theorem runDraw_inv {s : State} {f : Nat → Act} (hf : ∀ k, Keeps (f k)) (h : s.Inv) : (s.runDraw f).Inv :=
  run_inv (hf _) (h.upd rfl)

theorem drawAll_inv {s : State} (h : s.Inv) : s.drawAll.Inv := by
  have key : ∀ (l : List (Nat → Act)) (s : State), DrawsKeep l → s.Inv → (l.foldl runDraw s).Inv := by
    intro l
    induction l with
    | nil => intro s _ h; exact h
    | cons a t ih =>
      intro s hl h
      exact ih _ (fun f hf => hl f (List.mem_cons_of_mem _ hf)) (runDraw_inv (hl a List.mem_cons_self) h)
  have key2 : ∀ (l : List (State → List (Nat → Act))) (s : State), (∀ f ∈ l, ∀ s, DrawsKeep (f s)) → s.Inv →
      (l.foldl (fun s f => (f s).foldl runDraw s) s).Inv := by
    intro l
    induction l with
    | nil => intro s _ h; exact h
    | cons a t ih =>
      intro s hl h
      exact ih _ (fun f hf => hl f (List.mem_cons_of_mem _ hf)) (key _ _ (hl a List.mem_cons_self s) h)
  exact key2 _ _ (fun f hf s => draws_keep s f hf) h

theorem settleBeat_inv {s : State} (h : s.Inv) : s.settleBeat.Inv := by
  have hs : ∀ f ∈ stages, ∀ s, ActsKeep (f s) := fun f hf s => stages_keep s f hf
  unfold settleBeat
  have h0 := State.forBelow_inv 12 (fun n s => s.microLate n) (fun n t ht => microLate_inv n ht) h
  refine settle_inv _ ?_ (settle_inv _ hs (drawAll_inv (settle_inv _ hs (drawAll_inv h0))))
  intro f hf s
  rcases List.mem_append.1 hf with hf | hf
  · exact stages_keep s f hf
  · rw [List.mem_singleton.1 hf]
    exact stageLast_keep s

theorem clockStages_inv (k : Nat) {s : State} (h : s.Inv) : (settle [stageDecisions, stageClock] k s).Inv := by
  refine settle_inv _ (fun f hf s => ?_) h
  simp only [List.mem_cons, List.not_mem_nil, or_false] at hf
  rcases hf with rfl | rfl
  · exact stageDecisions_keep s
  · exact stageClock_keep s

theorem startStages_inv (k : Nat) {s : State} (h : s.Inv) : (settle [stageDecisions, stageClock, stageTime] k s).Inv := by
  refine settle_inv _ (fun f hf s => ?_) h
  simp only [List.mem_cons, List.not_mem_nil, or_false] at hf
  rcases hf with rfl | rfl | rfl
  · exact stageDecisions_keep s
  · exact stageClock_keep s
  · exact stageTime_keep s

end State


theorem State.memBeat_inv {s : State} (h : s.Inv) : (State.memBeat s).Inv := by
  unfold State.memBeat
  refine scrubBeat_inv (State.Inv.foldl (fun t a ht => run_inv (fun s u hs e => execScrubRead_inv _ hs u e) ht) ?_)
  exact State.Inv.foldl (fun t a ht => writeBack_inv a ht) (dmaBeat_inv h)

theorem State.endUnits_inv {s : State} (h : s.Inv) : (State.endUnits s).Inv := by
  unfold State.endUnits
  with_reducible repeat' first
    | assumption | intro _ | apply State.txBeat_inv | apply State.rxBeat_inv | apply State.forBelow_inv
    | apply State.jugBeatEnd_inv | apply State.jugOverruns_inv | apply State.calBeat_inv | apply State.barMeet_inv
    | apply State.abortBeat_inv | apply State.exportBeat_inv | apply State.linkSlot_inv | apply State.rampBeat_inv
    | apply State.microStep_inv | apply State.tripBeat_inv | apply State.carBeat_inv | apply State.passInst_inv
    | apply State.repBeat_inv | apply State.memBeat_inv | apply State.applyLate_inv | apply State.answerFrames_inv

theorem State.endPorts_inv {s : State} (h : s.Inv) : (State.endPorts s).Inv := by
  unfold State.endPorts
  with_reducible repeat' first
    | assumption | intro _ | apply State.ingressBeat_inv | apply State.forBelow_inv | apply State.egressBeat_inv
    | apply State.fecBeat_inv | apply State.rawHandOver_inv | apply State.modMemu_inv | refine State.Inv.ofPair (by assumption) ?_
    | refine State.Inv.ofTriple (by assumption) ?_ | rfl | split | fail_if_no_progress (refine State.Inv.upd ?_ rfl)

theorem State.endBeat_inv {s : State} (h : s.Inv) : (State.endBeat s).Inv := by
  unfold State.endBeat
  with_reducible repeat' first
    | assumption | intro _ | apply State.endPorts_inv | apply State.endUnits_inv

theorem State.freqBeat_inv {s : State} (k : Nat) (h : s.Inv) : (State.freqBeat s k).Inv := by
  unfold State.freqBeat
  with_reducible repeat' first
    | assumption | intro _ | apply State.modLink_inv | apply State.failLink_inv | apply State.Inv.ite

theorem State.biasBeat_inv {s : State} (h : s.Inv) : (State.biasBeat s).Inv := by
  unfold State.biasBeat
  with_reducible repeat' first
    | assumption | intro _ | apply State.forBelow_inv | apply State.modBias_inv | apply State.biasSample_inv | apply State.Inv.ite

theorem State.rawBeat_inv {s : State} (h : s.Inv) : (State.rawBeat s).Inv := by
  unfold State.rawBeat
  with_reducible repeat' first | assumption | intro _ | apply State.forBelow_inv | apply State.pushRaw_inv | apply State.Inv.ite

theorem State.startBeat_inv {s : State} (h : s.Inv) : (State.startBeat s).Inv := by
  unfold State.startBeat
  with_reducible repeat' first
    | assumption | intro _ | apply State.biasBeat_inv | apply State.lanePinBeat_inv | apply State.pinBeat_inv
    | apply State.forBelow_inv | apply State.jugBeat_inv | apply State.upset_inv | apply State.microBeat_inv
    | apply State.deliverAborts_inv | apply State.trigDeliver_inv | apply State.freqBeat_inv | apply State.rawBeat_inv
    | apply State.edgeBeat_inv | apply State.ptpBeat_inv | apply State.Inv.foldl | apply State.Inv.foldlSnd
    | apply State.Inv.foldlFst | refine State.Inv.ofPair (by assumption) ?_ | refine State.Inv.ofTriple (by assumption) ?_ | rfl
    | split | fail_if_no_progress (refine State.Inv.upd ?_ rfl)

theorem State.earlyBeat_inv {s : State} (h : s.Inv) : (State.earlyBeat s).Inv := by
  unfold State.earlyBeat
  have h1 := State.modRst_inv (fun r => { r with ticks := r.ticks + 1 }) h
  refine State.Inv.ite (State.Inv.ite (run_inv ?_ h1) h1) (State.Inv.ite (runDraw_inv (fun k => ?_) h1) h1)
  · exact fun s t h e => execResetEnd_inv h t e
  · exact fun s t h e => execStartupPhaseComplete_inv _ h t e

theorem State.nextBeat_inv {s : State} (h : s.Inv) : (State.nextBeat s).Inv := by
  unfold State.nextBeat
  have h0 : State.Inv { s with beat := s.followingBeat, rst := { s.rst with ticks := s.rst.ticks + 1, realign := false } } := h.upd rfl
  have h1 := run_inv (fun s t h e => execAdjustmentApply_inv h t e) h0
  have h2 := State.Inv.foldl (l := List.finRange 4) (fun t d h => run_inv (fun s t h e => execApplyDie_inv d h t e) h) h1
  have h3 := State.Inv.foldl (l := List.finRange 24) (fun t r h => run_inv (fun s t h e => execSliceRotate_inv r h t e) h) h2
  exact goOnFrames_inv (State.startStages_inv _ (codePin_inv (State.clockStages_inv _ (State.startBeat_inv h3))))

theorem State.tick_inv {s : State} (h : s.Inv) : (State.tick s).Inv := by
  unfold State.tick
  with_reducible repeat' first
    | assumption | intro _ | apply State.settleBeat_inv | apply State.nextBeat_inv | apply State.endBeat_inv
    | apply State.earlyBeat_inv | apply State.Inv.ite

end Sys2Proof.Machine
end

