-- ==== Sys2Proof/Laws/Parts.lean ====
section
/-! SUPPORT. Reading a part of the state after an update of the same part or of another. -/

namespace Sys2Proof.Machine

theorem getD_modify_self {α : Type} {l : List α} {i : Nat} {f : α → α} {d : α} (h : i < l.length) :
    (l.modify i f).getD i d = f (l.getD i d) := by simp [List.getD_eq_getElem?_getD, h]

theorem getD_modify_ne {α : Type} {l : List α} {i j : Nat} {f : α → α} {d : α} (h : j ≠ i) :
    (l.modify i f).getD j d = l.getD j d := by simp [List.getD_eq_getElem?_getD, h.symm]

namespace State

/-! ### Sizes -/

theorem Inv.rings_length {s : State} (h : s.Inv) : s.rings.length = 12 := h.2.1
theorem Inv.regs_wf {s : State} (h : s.Inv) : Regs.wf s.regs = true := h.1.1
theorem Inv.mem_wf {s : State} (h : s.Inv) : Memory.wf s.mem = true := h.1.2
theorem Inv.ring_sized {s : State} (h : s.Inv) {n : Nat} (hn : n < 12) : (s.ring n).Sized := by
  have hn : n < s.rings.length := h.rings_length ▸ hn
  rw [ring, List.getD_eq_getElem?_getD, List.getElem?_eq_getElem hn]
  exact h.2.2.1 _ (List.getElem_mem hn)

/-! ### Registers and memories -/

theorem getReg_setReg {s : State} (h : Regs.wf s.regs = true) (a : Nat) (v : Word) (b : Nat) :
    (s.setReg a v).getReg b = if b = a then v else s.getReg b := Cells.get_put (d := resetWord) b h

theorem getReg_setReg_self {s : State} (h : Regs.wf s.regs = true) (a : Nat) (v : Word) : (s.setReg a v).getReg a = v := by
  rw [getReg_setReg h, if_pos rfl]

theorem getReg_setReg_ne {s : State} (h : Regs.wf s.regs = true) {a b : Nat} (v : Word) (hb : b ≠ a) :
    (s.setReg a v).getReg b = s.getReg b := by rw [getReg_setReg h, if_neg hb]

theorem byte_setByte {s : State} (h : Memory.wf s.mem = true) (a : Nat) (v : Byte) (b : Nat) :
    (s.setByte a v).byte b = if b = a then v else s.byte b := Cells.get_put (d := Memory.unlisted) b h

theorem setReg_wf {s : State} (h : Regs.wf s.regs = true) (a : Nat) (v : Word) : Regs.wf (s.setReg a v).regs = true :=
  Cells.put_wf a v h

/-! ### Rings -/

theorem ring_modRing (s : State) (n m : Nat) (f : Ring → Ring) :
    (s.modRing n f).ring m = if m = n ∧ n < s.rings.length then f (s.ring m) else s.ring m := by
  by_cases h : m = n
  · subst h
    by_cases hl : m < s.rings.length
    · rw [if_pos ⟨rfl, hl⟩]
      exact getD_modify_self hl
    · rw [if_neg fun e => hl e.2]
      exact congrArg (fun l => List.getD l m {}) (List.modify_eq_self (Nat.le_of_not_lt hl))
  · rw [if_neg fun e => h e.1]
    exact getD_modify_ne h

theorem ring_modRing_self {s : State} (h : s.rings.length = 12) {n : Nat} (hn : n < 12) (f : Ring → Ring) :
    (s.modRing n f).ring n = f (s.ring n) := by rw [ring_modRing, if_pos ⟨rfl, h ▸ hn⟩]

theorem ring_modRing_ne {s : State} {n m : Nat} (f : Ring → Ring) (h : m ≠ n) : (s.modRing n f).ring m = s.ring m := by
  rw [ring_modRing, if_neg fun e => h e.1]

section
variable (s : State) (a n m k i : Nat) (v : Word) (b : Byte)

@[simp] theorem byte_setReg : (s.setReg a v).byte i = s.byte i := rfl
@[simp] theorem getReg_setByte : (s.setByte a b).getReg i = s.getReg i := rfl
@[simp] theorem getReg_modSeq (f : Seq → Seq) : (s.modSeq n f).getReg i = s.getReg i := rfl
@[simp] theorem byte_modSeq (f : Seq → Seq) : (s.modSeq n f).byte i = s.byte i := rfl
@[simp] theorem getReg_modJug (f : Jug → Jug) : (s.modJug n f).getReg i = s.getReg i := rfl
@[simp] theorem byte_modJug (f : Jug → Jug) : (s.modJug n f).byte i = s.byte i := rfl
@[simp] theorem getReg_modResq (f : ResQ → ResQ) : (s.modResq n f).getReg i = s.getReg i := rfl
@[simp] theorem byte_modResq (f : ResQ → ResQ) : (s.modResq n f).byte i = s.byte i := rfl
@[simp] theorem getReg_modVoice (f : Voice → Voice) : (s.modVoice n k f).getReg i = s.getReg i := rfl
@[simp] theorem byte_modVoice (f : Voice → Voice) : (s.modVoice n k f).byte i = s.byte i := rfl
@[simp] theorem getReg_modTx (f : TxCh → TxCh) : (s.modTx n k f).getReg i = s.getReg i := rfl
@[simp] theorem byte_modTx (f : TxCh → TxCh) : (s.modTx n k f).byte i = s.byte i := rfl
@[simp] theorem getReg_modBias (f : BiasOut → BiasOut) : (s.modBias n k f).getReg i = s.getReg i := rfl
@[simp] theorem byte_modBias (f : BiasOut → BiasOut) : (s.modBias n k f).byte i = s.byte i := rfl
@[simp] theorem getReg_modRx (f : RxCh → RxCh) : (s.modRx n k f).getReg i = s.getReg i := rfl
@[simp] theorem byte_modRx (f : RxCh → RxCh) : (s.modRx n k f).byte i = s.byte i := rfl
@[simp] theorem getReg_modLane (f : Lane → Lane) : (s.modLane n k f).getReg i = s.getReg i := rfl
@[simp] theorem byte_modLane (f : Lane → Lane) : (s.modLane n k f).byte i = s.byte i := rfl
@[simp] theorem getReg_modStrm (f : Strm → Strm) : (s.modStrm n k f).getReg i = s.getReg i := rfl
@[simp] theorem byte_modStrm (f : Strm → Strm) : (s.modStrm n k f).byte i = s.byte i := rfl
@[simp] theorem getReg_modSess (f : Sess → Sess) : (s.modSess n f).getReg i = s.getReg i := rfl
@[simp] theorem byte_modSess (f : Sess → Sess) : (s.modSess n f).byte i = s.byte i := rfl
@[simp] theorem getReg_modPort (f : EthPort → EthPort) : (s.modPort n f).getReg i = s.getReg i := rfl
@[simp] theorem byte_modPort (f : EthPort → EthPort) : (s.modPort n f).byte i = s.byte i := rfl
@[simp] theorem getReg_modLink (f : Link → Link) : (s.modLink n f).getReg i = s.getReg i := rfl
@[simp] theorem byte_modLink (f : Link → Link) : (s.modLink n f).byte i = s.byte i := rfl
@[simp] theorem getReg_modTrig (f : Trig → Trig) : (s.modTrig n f).getReg i = s.getReg i := rfl
@[simp] theorem byte_modTrig (f : Trig → Trig) : (s.modTrig n f).byte i = s.byte i := rfl
@[simp] theorem getReg_modTiu (f : Tiu → Tiu) : (s.modTiu n f).getReg i = s.getReg i := rfl
@[simp] theorem byte_modTiu (f : Tiu → Tiu) : (s.modTiu n f).byte i = s.byte i := rfl
@[simp] theorem getReg_modMark (f : Mark → Mark) : (s.modMark n f).getReg i = s.getReg i := rfl
@[simp] theorem byte_modMark (f : Mark → Mark) : (s.modMark n f).byte i = s.byte i := rfl
@[simp] theorem getReg_modCar (f : CarSlot → CarSlot) : (s.modCar n f).getReg i = s.getReg i := rfl
@[simp] theorem byte_modCar (f : CarSlot → CarSlot) : (s.modCar n f).byte i = s.byte i := rfl
@[simp] theorem getReg_modNvm (f : Nvm → Nvm) : (s.modNvm f).getReg i = s.getReg i := rfl
@[simp] theorem byte_modNvm (f : Nvm → Nvm) : (s.modNvm f).byte i = s.byte i := rfl
@[simp] theorem getReg_modRst (f : Rst → Rst) : (s.modRst f).getReg i = s.getReg i := rfl
@[simp] theorem byte_modRst (f : Rst → Rst) : (s.modRst f).byte i = s.byte i := rfl
@[simp] theorem getReg_modSec (f : SecUnit → SecUnit) : (s.modSec f).getReg i = s.getReg i := rfl
@[simp] theorem byte_modSec (f : SecUnit → SecUnit) : (s.modSec f).byte i = s.byte i := rfl
@[simp] theorem getReg_modTime (f : Timing → Timing) : (s.modTime f).getReg i = s.getReg i := rfl
@[simp] theorem byte_modTime (f : Timing → Timing) : (s.modTime f).byte i = s.byte i := rfl
@[simp] theorem getReg_modMemu (f : MemUnit → MemUnit) : (s.modMemu f).getReg i = s.getReg i := rfl
@[simp] theorem byte_modMemu (f : MemUnit → MemUnit) : (s.modMemu f).byte i = s.byte i := rfl
@[simp] theorem getReg_modCal (f : CalUnit → CalUnit) : (s.modCal f).getReg i = s.getReg i := rfl
@[simp] theorem byte_modCal (f : CalUnit → CalUnit) : (s.modCal f).byte i = s.byte i := rfl
@[simp] theorem getReg_modHk (f : HkUnit → HkUnit) : (s.modHk f).getReg i = s.getReg i := rfl
@[simp] theorem byte_modHk (f : HkUnit → HkUnit) : (s.modHk f).byte i = s.byte i := rfl
@[simp] theorem getReg_modBar (f : Barrier → Barrier) : (s.modBar n f).getReg i = s.getReg i := rfl
@[simp] theorem byte_modBar (f : Barrier → Barrier) : (s.modBar n f).byte i = s.byte i := rfl

@[simp] theorem ring_setReg : (s.setReg a v).ring m = s.ring m := rfl
@[simp] theorem seq_setReg : (s.setReg a v).seq m = s.seq m := rfl
@[simp] theorem jug_setReg : (s.setReg a v).jug m = s.jug m := rfl
@[simp] theorem resq_setReg : (s.setReg a v).resq m = s.resq m := rfl
@[simp] theorem voice_setReg : (s.setReg a v).voice m i = s.voice m i := rfl
@[simp] theorem tx_setReg : (s.setReg a v).tx m i = s.tx m i := rfl
@[simp] theorem biasOut_setReg : (s.setReg a v).biasOut m i = s.biasOut m i := rfl
@[simp] theorem rx_setReg : (s.setReg a v).rx m i = s.rx m i := rfl
@[simp] theorem lane_setReg : (s.setReg a v).lane m i = s.lane m i := rfl
@[simp] theorem strm_setReg : (s.setReg a v).strm m i = s.strm m i := rfl
@[simp] theorem session_setReg : (s.setReg a v).session i = s.session i := rfl
@[simp] theorem port_setReg : (s.setReg a v).port i = s.port i := rfl
@[simp] theorem link_setReg : (s.setReg a v).link i = s.link i := rfl
@[simp] theorem trig_setReg : (s.setReg a v).trig i = s.trig i := rfl
@[simp] theorem tiu_setReg : (s.setReg a v).tiu i = s.tiu i := rfl
@[simp] theorem markOut_setReg : (s.setReg a v).markOut i = s.markOut i := rfl
@[simp] theorem carSlot_setReg : (s.setReg a v).carSlot i = s.carSlot i := rfl
@[simp] theorem ring_setByte : (s.setByte a b).ring m = s.ring m := rfl
@[simp] theorem seq_setByte : (s.setByte a b).seq m = s.seq m := rfl
@[simp] theorem jug_setByte : (s.setByte a b).jug m = s.jug m := rfl
@[simp] theorem resq_setByte : (s.setByte a b).resq m = s.resq m := rfl
@[simp] theorem voice_setByte : (s.setByte a b).voice m i = s.voice m i := rfl
@[simp] theorem tx_setByte : (s.setByte a b).tx m i = s.tx m i := rfl
@[simp] theorem biasOut_setByte : (s.setByte a b).biasOut m i = s.biasOut m i := rfl
@[simp] theorem rx_setByte : (s.setByte a b).rx m i = s.rx m i := rfl
@[simp] theorem lane_setByte : (s.setByte a b).lane m i = s.lane m i := rfl
@[simp] theorem strm_setByte : (s.setByte a b).strm m i = s.strm m i := rfl
@[simp] theorem session_setByte : (s.setByte a b).session i = s.session i := rfl
@[simp] theorem port_setByte : (s.setByte a b).port i = s.port i := rfl
@[simp] theorem link_setByte : (s.setByte a b).link i = s.link i := rfl
@[simp] theorem trig_setByte : (s.setByte a b).trig i = s.trig i := rfl
@[simp] theorem tiu_setByte : (s.setByte a b).tiu i = s.tiu i := rfl
@[simp] theorem markOut_setByte : (s.setByte a b).markOut i = s.markOut i := rfl
@[simp] theorem carSlot_setByte : (s.setByte a b).carSlot i = s.carSlot i := rfl
@[simp] theorem ring_modSess (f : Sess → Sess) : (s.modSess n f).ring m = s.ring m := rfl
@[simp] theorem seq_modSess (f : Sess → Sess) : (s.modSess n f).seq m = s.seq m := rfl
@[simp] theorem jug_modSess (f : Sess → Sess) : (s.modSess n f).jug m = s.jug m := rfl
@[simp] theorem resq_modSess (f : Sess → Sess) : (s.modSess n f).resq m = s.resq m := rfl
@[simp] theorem voice_modSess (f : Sess → Sess) : (s.modSess n f).voice m i = s.voice m i := rfl
@[simp] theorem tx_modSess (f : Sess → Sess) : (s.modSess n f).tx m i = s.tx m i := rfl
@[simp] theorem biasOut_modSess (f : Sess → Sess) : (s.modSess n f).biasOut m i = s.biasOut m i := rfl
@[simp] theorem rx_modSess (f : Sess → Sess) : (s.modSess n f).rx m i = s.rx m i := rfl
@[simp] theorem lane_modSess (f : Sess → Sess) : (s.modSess n f).lane m i = s.lane m i := rfl
@[simp] theorem strm_modSess (f : Sess → Sess) : (s.modSess n f).strm m i = s.strm m i := rfl
@[simp] theorem port_modSess (f : Sess → Sess) : (s.modSess n f).port i = s.port i := rfl
@[simp] theorem link_modSess (f : Sess → Sess) : (s.modSess n f).link i = s.link i := rfl
@[simp] theorem trig_modSess (f : Sess → Sess) : (s.modSess n f).trig i = s.trig i := rfl
@[simp] theorem tiu_modSess (f : Sess → Sess) : (s.modSess n f).tiu i = s.tiu i := rfl
@[simp] theorem markOut_modSess (f : Sess → Sess) : (s.modSess n f).markOut i = s.markOut i := rfl
@[simp] theorem carSlot_modSess (f : Sess → Sess) : (s.modSess n f).carSlot i = s.carSlot i := rfl
@[simp] theorem ring_modPort (f : EthPort → EthPort) : (s.modPort n f).ring m = s.ring m := rfl
@[simp] theorem seq_modPort (f : EthPort → EthPort) : (s.modPort n f).seq m = s.seq m := rfl
@[simp] theorem jug_modPort (f : EthPort → EthPort) : (s.modPort n f).jug m = s.jug m := rfl
@[simp] theorem resq_modPort (f : EthPort → EthPort) : (s.modPort n f).resq m = s.resq m := rfl
@[simp] theorem voice_modPort (f : EthPort → EthPort) : (s.modPort n f).voice m i = s.voice m i := rfl
@[simp] theorem tx_modPort (f : EthPort → EthPort) : (s.modPort n f).tx m i = s.tx m i := rfl
@[simp] theorem biasOut_modPort (f : EthPort → EthPort) : (s.modPort n f).biasOut m i = s.biasOut m i := rfl
@[simp] theorem rx_modPort (f : EthPort → EthPort) : (s.modPort n f).rx m i = s.rx m i := rfl
@[simp] theorem lane_modPort (f : EthPort → EthPort) : (s.modPort n f).lane m i = s.lane m i := rfl
@[simp] theorem strm_modPort (f : EthPort → EthPort) : (s.modPort n f).strm m i = s.strm m i := rfl
@[simp] theorem session_modPort (f : EthPort → EthPort) : (s.modPort n f).session i = s.session i := rfl
@[simp] theorem link_modPort (f : EthPort → EthPort) : (s.modPort n f).link i = s.link i := rfl
@[simp] theorem trig_modPort (f : EthPort → EthPort) : (s.modPort n f).trig i = s.trig i := rfl
@[simp] theorem tiu_modPort (f : EthPort → EthPort) : (s.modPort n f).tiu i = s.tiu i := rfl
@[simp] theorem markOut_modPort (f : EthPort → EthPort) : (s.modPort n f).markOut i = s.markOut i := rfl
@[simp] theorem carSlot_modPort (f : EthPort → EthPort) : (s.modPort n f).carSlot i = s.carSlot i := rfl
@[simp] theorem ring_modLink (f : Link → Link) : (s.modLink n f).ring m = s.ring m := rfl
@[simp] theorem seq_modLink (f : Link → Link) : (s.modLink n f).seq m = s.seq m := rfl
@[simp] theorem jug_modLink (f : Link → Link) : (s.modLink n f).jug m = s.jug m := rfl
@[simp] theorem resq_modLink (f : Link → Link) : (s.modLink n f).resq m = s.resq m := rfl
@[simp] theorem voice_modLink (f : Link → Link) : (s.modLink n f).voice m i = s.voice m i := rfl
@[simp] theorem tx_modLink (f : Link → Link) : (s.modLink n f).tx m i = s.tx m i := rfl
@[simp] theorem biasOut_modLink (f : Link → Link) : (s.modLink n f).biasOut m i = s.biasOut m i := rfl
@[simp] theorem rx_modLink (f : Link → Link) : (s.modLink n f).rx m i = s.rx m i := rfl
@[simp] theorem lane_modLink (f : Link → Link) : (s.modLink n f).lane m i = s.lane m i := rfl
@[simp] theorem strm_modLink (f : Link → Link) : (s.modLink n f).strm m i = s.strm m i := rfl
@[simp] theorem session_modLink (f : Link → Link) : (s.modLink n f).session i = s.session i := rfl
@[simp] theorem port_modLink (f : Link → Link) : (s.modLink n f).port i = s.port i := rfl
@[simp] theorem trig_modLink (f : Link → Link) : (s.modLink n f).trig i = s.trig i := rfl
@[simp] theorem tiu_modLink (f : Link → Link) : (s.modLink n f).tiu i = s.tiu i := rfl
@[simp] theorem markOut_modLink (f : Link → Link) : (s.modLink n f).markOut i = s.markOut i := rfl
@[simp] theorem carSlot_modLink (f : Link → Link) : (s.modLink n f).carSlot i = s.carSlot i := rfl
@[simp] theorem ring_modTrig (f : Trig → Trig) : (s.modTrig n f).ring m = s.ring m := rfl
@[simp] theorem seq_modTrig (f : Trig → Trig) : (s.modTrig n f).seq m = s.seq m := rfl
@[simp] theorem jug_modTrig (f : Trig → Trig) : (s.modTrig n f).jug m = s.jug m := rfl
@[simp] theorem resq_modTrig (f : Trig → Trig) : (s.modTrig n f).resq m = s.resq m := rfl
@[simp] theorem voice_modTrig (f : Trig → Trig) : (s.modTrig n f).voice m i = s.voice m i := rfl
@[simp] theorem tx_modTrig (f : Trig → Trig) : (s.modTrig n f).tx m i = s.tx m i := rfl
@[simp] theorem biasOut_modTrig (f : Trig → Trig) : (s.modTrig n f).biasOut m i = s.biasOut m i := rfl
@[simp] theorem rx_modTrig (f : Trig → Trig) : (s.modTrig n f).rx m i = s.rx m i := rfl
@[simp] theorem lane_modTrig (f : Trig → Trig) : (s.modTrig n f).lane m i = s.lane m i := rfl
@[simp] theorem strm_modTrig (f : Trig → Trig) : (s.modTrig n f).strm m i = s.strm m i := rfl
@[simp] theorem session_modTrig (f : Trig → Trig) : (s.modTrig n f).session i = s.session i := rfl
@[simp] theorem port_modTrig (f : Trig → Trig) : (s.modTrig n f).port i = s.port i := rfl
@[simp] theorem link_modTrig (f : Trig → Trig) : (s.modTrig n f).link i = s.link i := rfl
@[simp] theorem tiu_modTrig (f : Trig → Trig) : (s.modTrig n f).tiu i = s.tiu i := rfl
@[simp] theorem markOut_modTrig (f : Trig → Trig) : (s.modTrig n f).markOut i = s.markOut i := rfl
@[simp] theorem carSlot_modTrig (f : Trig → Trig) : (s.modTrig n f).carSlot i = s.carSlot i := rfl
@[simp] theorem ring_modTiu (f : Tiu → Tiu) : (s.modTiu n f).ring m = s.ring m := rfl
@[simp] theorem seq_modTiu (f : Tiu → Tiu) : (s.modTiu n f).seq m = s.seq m := rfl
@[simp] theorem jug_modTiu (f : Tiu → Tiu) : (s.modTiu n f).jug m = s.jug m := rfl
@[simp] theorem resq_modTiu (f : Tiu → Tiu) : (s.modTiu n f).resq m = s.resq m := rfl
@[simp] theorem voice_modTiu (f : Tiu → Tiu) : (s.modTiu n f).voice m i = s.voice m i := rfl
@[simp] theorem tx_modTiu (f : Tiu → Tiu) : (s.modTiu n f).tx m i = s.tx m i := rfl
@[simp] theorem biasOut_modTiu (f : Tiu → Tiu) : (s.modTiu n f).biasOut m i = s.biasOut m i := rfl
@[simp] theorem rx_modTiu (f : Tiu → Tiu) : (s.modTiu n f).rx m i = s.rx m i := rfl
@[simp] theorem lane_modTiu (f : Tiu → Tiu) : (s.modTiu n f).lane m i = s.lane m i := rfl
@[simp] theorem strm_modTiu (f : Tiu → Tiu) : (s.modTiu n f).strm m i = s.strm m i := rfl
@[simp] theorem session_modTiu (f : Tiu → Tiu) : (s.modTiu n f).session i = s.session i := rfl
@[simp] theorem port_modTiu (f : Tiu → Tiu) : (s.modTiu n f).port i = s.port i := rfl
@[simp] theorem link_modTiu (f : Tiu → Tiu) : (s.modTiu n f).link i = s.link i := rfl
@[simp] theorem trig_modTiu (f : Tiu → Tiu) : (s.modTiu n f).trig i = s.trig i := rfl
@[simp] theorem markOut_modTiu (f : Tiu → Tiu) : (s.modTiu n f).markOut i = s.markOut i := rfl
@[simp] theorem carSlot_modTiu (f : Tiu → Tiu) : (s.modTiu n f).carSlot i = s.carSlot i := rfl
@[simp] theorem ring_modMark (f : Mark → Mark) : (s.modMark n f).ring m = s.ring m := rfl
@[simp] theorem seq_modMark (f : Mark → Mark) : (s.modMark n f).seq m = s.seq m := rfl
@[simp] theorem jug_modMark (f : Mark → Mark) : (s.modMark n f).jug m = s.jug m := rfl
@[simp] theorem resq_modMark (f : Mark → Mark) : (s.modMark n f).resq m = s.resq m := rfl
@[simp] theorem voice_modMark (f : Mark → Mark) : (s.modMark n f).voice m i = s.voice m i := rfl
@[simp] theorem tx_modMark (f : Mark → Mark) : (s.modMark n f).tx m i = s.tx m i := rfl
@[simp] theorem biasOut_modMark (f : Mark → Mark) : (s.modMark n f).biasOut m i = s.biasOut m i := rfl
@[simp] theorem rx_modMark (f : Mark → Mark) : (s.modMark n f).rx m i = s.rx m i := rfl
@[simp] theorem lane_modMark (f : Mark → Mark) : (s.modMark n f).lane m i = s.lane m i := rfl
@[simp] theorem strm_modMark (f : Mark → Mark) : (s.modMark n f).strm m i = s.strm m i := rfl
@[simp] theorem session_modMark (f : Mark → Mark) : (s.modMark n f).session i = s.session i := rfl
@[simp] theorem port_modMark (f : Mark → Mark) : (s.modMark n f).port i = s.port i := rfl
@[simp] theorem link_modMark (f : Mark → Mark) : (s.modMark n f).link i = s.link i := rfl
@[simp] theorem trig_modMark (f : Mark → Mark) : (s.modMark n f).trig i = s.trig i := rfl
@[simp] theorem tiu_modMark (f : Mark → Mark) : (s.modMark n f).tiu i = s.tiu i := rfl
@[simp] theorem carSlot_modMark (f : Mark → Mark) : (s.modMark n f).carSlot i = s.carSlot i := rfl
@[simp] theorem ring_modCar (f : CarSlot → CarSlot) : (s.modCar n f).ring m = s.ring m := rfl
@[simp] theorem seq_modCar (f : CarSlot → CarSlot) : (s.modCar n f).seq m = s.seq m := rfl
@[simp] theorem jug_modCar (f : CarSlot → CarSlot) : (s.modCar n f).jug m = s.jug m := rfl
@[simp] theorem resq_modCar (f : CarSlot → CarSlot) : (s.modCar n f).resq m = s.resq m := rfl
@[simp] theorem voice_modCar (f : CarSlot → CarSlot) : (s.modCar n f).voice m i = s.voice m i := rfl
@[simp] theorem tx_modCar (f : CarSlot → CarSlot) : (s.modCar n f).tx m i = s.tx m i := rfl
@[simp] theorem biasOut_modCar (f : CarSlot → CarSlot) : (s.modCar n f).biasOut m i = s.biasOut m i := rfl
@[simp] theorem rx_modCar (f : CarSlot → CarSlot) : (s.modCar n f).rx m i = s.rx m i := rfl
@[simp] theorem lane_modCar (f : CarSlot → CarSlot) : (s.modCar n f).lane m i = s.lane m i := rfl
@[simp] theorem strm_modCar (f : CarSlot → CarSlot) : (s.modCar n f).strm m i = s.strm m i := rfl
@[simp] theorem session_modCar (f : CarSlot → CarSlot) : (s.modCar n f).session i = s.session i := rfl
@[simp] theorem port_modCar (f : CarSlot → CarSlot) : (s.modCar n f).port i = s.port i := rfl
@[simp] theorem link_modCar (f : CarSlot → CarSlot) : (s.modCar n f).link i = s.link i := rfl
@[simp] theorem trig_modCar (f : CarSlot → CarSlot) : (s.modCar n f).trig i = s.trig i := rfl
@[simp] theorem tiu_modCar (f : CarSlot → CarSlot) : (s.modCar n f).tiu i = s.tiu i := rfl
@[simp] theorem markOut_modCar (f : CarSlot → CarSlot) : (s.modCar n f).markOut i = s.markOut i := rfl
@[simp] theorem ring_modNvm (f : Nvm → Nvm) : (s.modNvm f).ring m = s.ring m := rfl
@[simp] theorem seq_modNvm (f : Nvm → Nvm) : (s.modNvm f).seq m = s.seq m := rfl
@[simp] theorem jug_modNvm (f : Nvm → Nvm) : (s.modNvm f).jug m = s.jug m := rfl
@[simp] theorem resq_modNvm (f : Nvm → Nvm) : (s.modNvm f).resq m = s.resq m := rfl
@[simp] theorem voice_modNvm (f : Nvm → Nvm) : (s.modNvm f).voice m i = s.voice m i := rfl
@[simp] theorem tx_modNvm (f : Nvm → Nvm) : (s.modNvm f).tx m i = s.tx m i := rfl
@[simp] theorem biasOut_modNvm (f : Nvm → Nvm) : (s.modNvm f).biasOut m i = s.biasOut m i := rfl
@[simp] theorem rx_modNvm (f : Nvm → Nvm) : (s.modNvm f).rx m i = s.rx m i := rfl
@[simp] theorem lane_modNvm (f : Nvm → Nvm) : (s.modNvm f).lane m i = s.lane m i := rfl
@[simp] theorem strm_modNvm (f : Nvm → Nvm) : (s.modNvm f).strm m i = s.strm m i := rfl
@[simp] theorem session_modNvm (f : Nvm → Nvm) : (s.modNvm f).session i = s.session i := rfl
@[simp] theorem port_modNvm (f : Nvm → Nvm) : (s.modNvm f).port i = s.port i := rfl
@[simp] theorem link_modNvm (f : Nvm → Nvm) : (s.modNvm f).link i = s.link i := rfl
@[simp] theorem trig_modNvm (f : Nvm → Nvm) : (s.modNvm f).trig i = s.trig i := rfl
@[simp] theorem tiu_modNvm (f : Nvm → Nvm) : (s.modNvm f).tiu i = s.tiu i := rfl
@[simp] theorem markOut_modNvm (f : Nvm → Nvm) : (s.modNvm f).markOut i = s.markOut i := rfl
@[simp] theorem carSlot_modNvm (f : Nvm → Nvm) : (s.modNvm f).carSlot i = s.carSlot i := rfl
@[simp] theorem ring_modRst (f : Rst → Rst) : (s.modRst f).ring m = s.ring m := rfl
@[simp] theorem seq_modRst (f : Rst → Rst) : (s.modRst f).seq m = s.seq m := rfl
@[simp] theorem jug_modRst (f : Rst → Rst) : (s.modRst f).jug m = s.jug m := rfl
@[simp] theorem resq_modRst (f : Rst → Rst) : (s.modRst f).resq m = s.resq m := rfl
@[simp] theorem voice_modRst (f : Rst → Rst) : (s.modRst f).voice m i = s.voice m i := rfl
@[simp] theorem tx_modRst (f : Rst → Rst) : (s.modRst f).tx m i = s.tx m i := rfl
@[simp] theorem biasOut_modRst (f : Rst → Rst) : (s.modRst f).biasOut m i = s.biasOut m i := rfl
@[simp] theorem rx_modRst (f : Rst → Rst) : (s.modRst f).rx m i = s.rx m i := rfl
@[simp] theorem lane_modRst (f : Rst → Rst) : (s.modRst f).lane m i = s.lane m i := rfl
@[simp] theorem strm_modRst (f : Rst → Rst) : (s.modRst f).strm m i = s.strm m i := rfl
@[simp] theorem session_modRst (f : Rst → Rst) : (s.modRst f).session i = s.session i := rfl
@[simp] theorem port_modRst (f : Rst → Rst) : (s.modRst f).port i = s.port i := rfl
@[simp] theorem link_modRst (f : Rst → Rst) : (s.modRst f).link i = s.link i := rfl
@[simp] theorem trig_modRst (f : Rst → Rst) : (s.modRst f).trig i = s.trig i := rfl
@[simp] theorem tiu_modRst (f : Rst → Rst) : (s.modRst f).tiu i = s.tiu i := rfl
@[simp] theorem markOut_modRst (f : Rst → Rst) : (s.modRst f).markOut i = s.markOut i := rfl
@[simp] theorem carSlot_modRst (f : Rst → Rst) : (s.modRst f).carSlot i = s.carSlot i := rfl
@[simp] theorem ring_modSec (f : SecUnit → SecUnit) : (s.modSec f).ring m = s.ring m := rfl
@[simp] theorem seq_modSec (f : SecUnit → SecUnit) : (s.modSec f).seq m = s.seq m := rfl
@[simp] theorem jug_modSec (f : SecUnit → SecUnit) : (s.modSec f).jug m = s.jug m := rfl
@[simp] theorem resq_modSec (f : SecUnit → SecUnit) : (s.modSec f).resq m = s.resq m := rfl
@[simp] theorem voice_modSec (f : SecUnit → SecUnit) : (s.modSec f).voice m i = s.voice m i := rfl
@[simp] theorem tx_modSec (f : SecUnit → SecUnit) : (s.modSec f).tx m i = s.tx m i := rfl
@[simp] theorem biasOut_modSec (f : SecUnit → SecUnit) : (s.modSec f).biasOut m i = s.biasOut m i := rfl
@[simp] theorem rx_modSec (f : SecUnit → SecUnit) : (s.modSec f).rx m i = s.rx m i := rfl
@[simp] theorem lane_modSec (f : SecUnit → SecUnit) : (s.modSec f).lane m i = s.lane m i := rfl
@[simp] theorem strm_modSec (f : SecUnit → SecUnit) : (s.modSec f).strm m i = s.strm m i := rfl
@[simp] theorem session_modSec (f : SecUnit → SecUnit) : (s.modSec f).session i = s.session i := rfl
@[simp] theorem port_modSec (f : SecUnit → SecUnit) : (s.modSec f).port i = s.port i := rfl
@[simp] theorem link_modSec (f : SecUnit → SecUnit) : (s.modSec f).link i = s.link i := rfl
@[simp] theorem trig_modSec (f : SecUnit → SecUnit) : (s.modSec f).trig i = s.trig i := rfl
@[simp] theorem tiu_modSec (f : SecUnit → SecUnit) : (s.modSec f).tiu i = s.tiu i := rfl
@[simp] theorem markOut_modSec (f : SecUnit → SecUnit) : (s.modSec f).markOut i = s.markOut i := rfl
@[simp] theorem carSlot_modSec (f : SecUnit → SecUnit) : (s.modSec f).carSlot i = s.carSlot i := rfl
@[simp] theorem ring_modTime (f : Timing → Timing) : (s.modTime f).ring m = s.ring m := rfl
@[simp] theorem seq_modTime (f : Timing → Timing) : (s.modTime f).seq m = s.seq m := rfl
@[simp] theorem jug_modTime (f : Timing → Timing) : (s.modTime f).jug m = s.jug m := rfl
@[simp] theorem resq_modTime (f : Timing → Timing) : (s.modTime f).resq m = s.resq m := rfl
@[simp] theorem voice_modTime (f : Timing → Timing) : (s.modTime f).voice m i = s.voice m i := rfl
@[simp] theorem tx_modTime (f : Timing → Timing) : (s.modTime f).tx m i = s.tx m i := rfl
@[simp] theorem biasOut_modTime (f : Timing → Timing) : (s.modTime f).biasOut m i = s.biasOut m i := rfl
@[simp] theorem rx_modTime (f : Timing → Timing) : (s.modTime f).rx m i = s.rx m i := rfl
@[simp] theorem lane_modTime (f : Timing → Timing) : (s.modTime f).lane m i = s.lane m i := rfl
@[simp] theorem strm_modTime (f : Timing → Timing) : (s.modTime f).strm m i = s.strm m i := rfl
@[simp] theorem session_modTime (f : Timing → Timing) : (s.modTime f).session i = s.session i := rfl
@[simp] theorem port_modTime (f : Timing → Timing) : (s.modTime f).port i = s.port i := rfl
@[simp] theorem link_modTime (f : Timing → Timing) : (s.modTime f).link i = s.link i := rfl
@[simp] theorem trig_modTime (f : Timing → Timing) : (s.modTime f).trig i = s.trig i := rfl
@[simp] theorem tiu_modTime (f : Timing → Timing) : (s.modTime f).tiu i = s.tiu i := rfl
@[simp] theorem markOut_modTime (f : Timing → Timing) : (s.modTime f).markOut i = s.markOut i := rfl
@[simp] theorem carSlot_modTime (f : Timing → Timing) : (s.modTime f).carSlot i = s.carSlot i := rfl
@[simp] theorem ring_modMemu (f : MemUnit → MemUnit) : (s.modMemu f).ring m = s.ring m := rfl
@[simp] theorem seq_modMemu (f : MemUnit → MemUnit) : (s.modMemu f).seq m = s.seq m := rfl
@[simp] theorem jug_modMemu (f : MemUnit → MemUnit) : (s.modMemu f).jug m = s.jug m := rfl
@[simp] theorem resq_modMemu (f : MemUnit → MemUnit) : (s.modMemu f).resq m = s.resq m := rfl
@[simp] theorem voice_modMemu (f : MemUnit → MemUnit) : (s.modMemu f).voice m i = s.voice m i := rfl
@[simp] theorem tx_modMemu (f : MemUnit → MemUnit) : (s.modMemu f).tx m i = s.tx m i := rfl
@[simp] theorem biasOut_modMemu (f : MemUnit → MemUnit) : (s.modMemu f).biasOut m i = s.biasOut m i := rfl
@[simp] theorem rx_modMemu (f : MemUnit → MemUnit) : (s.modMemu f).rx m i = s.rx m i := rfl
@[simp] theorem lane_modMemu (f : MemUnit → MemUnit) : (s.modMemu f).lane m i = s.lane m i := rfl
@[simp] theorem strm_modMemu (f : MemUnit → MemUnit) : (s.modMemu f).strm m i = s.strm m i := rfl
@[simp] theorem session_modMemu (f : MemUnit → MemUnit) : (s.modMemu f).session i = s.session i := rfl
@[simp] theorem port_modMemu (f : MemUnit → MemUnit) : (s.modMemu f).port i = s.port i := rfl
@[simp] theorem link_modMemu (f : MemUnit → MemUnit) : (s.modMemu f).link i = s.link i := rfl
@[simp] theorem trig_modMemu (f : MemUnit → MemUnit) : (s.modMemu f).trig i = s.trig i := rfl
@[simp] theorem tiu_modMemu (f : MemUnit → MemUnit) : (s.modMemu f).tiu i = s.tiu i := rfl
@[simp] theorem markOut_modMemu (f : MemUnit → MemUnit) : (s.modMemu f).markOut i = s.markOut i := rfl
@[simp] theorem carSlot_modMemu (f : MemUnit → MemUnit) : (s.modMemu f).carSlot i = s.carSlot i := rfl
@[simp] theorem ring_modCal (f : CalUnit → CalUnit) : (s.modCal f).ring m = s.ring m := rfl
@[simp] theorem seq_modCal (f : CalUnit → CalUnit) : (s.modCal f).seq m = s.seq m := rfl
@[simp] theorem jug_modCal (f : CalUnit → CalUnit) : (s.modCal f).jug m = s.jug m := rfl
@[simp] theorem resq_modCal (f : CalUnit → CalUnit) : (s.modCal f).resq m = s.resq m := rfl
@[simp] theorem voice_modCal (f : CalUnit → CalUnit) : (s.modCal f).voice m i = s.voice m i := rfl
@[simp] theorem tx_modCal (f : CalUnit → CalUnit) : (s.modCal f).tx m i = s.tx m i := rfl
@[simp] theorem biasOut_modCal (f : CalUnit → CalUnit) : (s.modCal f).biasOut m i = s.biasOut m i := rfl
@[simp] theorem rx_modCal (f : CalUnit → CalUnit) : (s.modCal f).rx m i = s.rx m i := rfl
@[simp] theorem lane_modCal (f : CalUnit → CalUnit) : (s.modCal f).lane m i = s.lane m i := rfl
@[simp] theorem strm_modCal (f : CalUnit → CalUnit) : (s.modCal f).strm m i = s.strm m i := rfl
@[simp] theorem session_modCal (f : CalUnit → CalUnit) : (s.modCal f).session i = s.session i := rfl
@[simp] theorem port_modCal (f : CalUnit → CalUnit) : (s.modCal f).port i = s.port i := rfl
@[simp] theorem link_modCal (f : CalUnit → CalUnit) : (s.modCal f).link i = s.link i := rfl
@[simp] theorem trig_modCal (f : CalUnit → CalUnit) : (s.modCal f).trig i = s.trig i := rfl
@[simp] theorem tiu_modCal (f : CalUnit → CalUnit) : (s.modCal f).tiu i = s.tiu i := rfl
@[simp] theorem markOut_modCal (f : CalUnit → CalUnit) : (s.modCal f).markOut i = s.markOut i := rfl
@[simp] theorem carSlot_modCal (f : CalUnit → CalUnit) : (s.modCal f).carSlot i = s.carSlot i := rfl
@[simp] theorem ring_modHk (f : HkUnit → HkUnit) : (s.modHk f).ring m = s.ring m := rfl
@[simp] theorem seq_modHk (f : HkUnit → HkUnit) : (s.modHk f).seq m = s.seq m := rfl
@[simp] theorem jug_modHk (f : HkUnit → HkUnit) : (s.modHk f).jug m = s.jug m := rfl
@[simp] theorem resq_modHk (f : HkUnit → HkUnit) : (s.modHk f).resq m = s.resq m := rfl
@[simp] theorem voice_modHk (f : HkUnit → HkUnit) : (s.modHk f).voice m i = s.voice m i := rfl
@[simp] theorem tx_modHk (f : HkUnit → HkUnit) : (s.modHk f).tx m i = s.tx m i := rfl
@[simp] theorem biasOut_modHk (f : HkUnit → HkUnit) : (s.modHk f).biasOut m i = s.biasOut m i := rfl
@[simp] theorem rx_modHk (f : HkUnit → HkUnit) : (s.modHk f).rx m i = s.rx m i := rfl
@[simp] theorem lane_modHk (f : HkUnit → HkUnit) : (s.modHk f).lane m i = s.lane m i := rfl
@[simp] theorem strm_modHk (f : HkUnit → HkUnit) : (s.modHk f).strm m i = s.strm m i := rfl
@[simp] theorem session_modHk (f : HkUnit → HkUnit) : (s.modHk f).session i = s.session i := rfl
@[simp] theorem port_modHk (f : HkUnit → HkUnit) : (s.modHk f).port i = s.port i := rfl
@[simp] theorem link_modHk (f : HkUnit → HkUnit) : (s.modHk f).link i = s.link i := rfl
@[simp] theorem trig_modHk (f : HkUnit → HkUnit) : (s.modHk f).trig i = s.trig i := rfl
@[simp] theorem tiu_modHk (f : HkUnit → HkUnit) : (s.modHk f).tiu i = s.tiu i := rfl
@[simp] theorem markOut_modHk (f : HkUnit → HkUnit) : (s.modHk f).markOut i = s.markOut i := rfl
@[simp] theorem carSlot_modHk (f : HkUnit → HkUnit) : (s.modHk f).carSlot i = s.carSlot i := rfl
@[simp] theorem ring_modBar (f : Barrier → Barrier) : (s.modBar n f).ring m = s.ring m := rfl
@[simp] theorem seq_modBar (f : Barrier → Barrier) : (s.modBar n f).seq m = s.seq m := rfl
@[simp] theorem jug_modBar (f : Barrier → Barrier) : (s.modBar n f).jug m = s.jug m := rfl
@[simp] theorem resq_modBar (f : Barrier → Barrier) : (s.modBar n f).resq m = s.resq m := rfl
@[simp] theorem voice_modBar (f : Barrier → Barrier) : (s.modBar n f).voice m i = s.voice m i := rfl
@[simp] theorem tx_modBar (f : Barrier → Barrier) : (s.modBar n f).tx m i = s.tx m i := rfl
@[simp] theorem biasOut_modBar (f : Barrier → Barrier) : (s.modBar n f).biasOut m i = s.biasOut m i := rfl
@[simp] theorem rx_modBar (f : Barrier → Barrier) : (s.modBar n f).rx m i = s.rx m i := rfl
@[simp] theorem lane_modBar (f : Barrier → Barrier) : (s.modBar n f).lane m i = s.lane m i := rfl
@[simp] theorem strm_modBar (f : Barrier → Barrier) : (s.modBar n f).strm m i = s.strm m i := rfl
@[simp] theorem session_modBar (f : Barrier → Barrier) : (s.modBar n f).session i = s.session i := rfl
@[simp] theorem port_modBar (f : Barrier → Barrier) : (s.modBar n f).port i = s.port i := rfl
@[simp] theorem link_modBar (f : Barrier → Barrier) : (s.modBar n f).link i = s.link i := rfl
@[simp] theorem trig_modBar (f : Barrier → Barrier) : (s.modBar n f).trig i = s.trig i := rfl
@[simp] theorem tiu_modBar (f : Barrier → Barrier) : (s.modBar n f).tiu i = s.tiu i := rfl
@[simp] theorem markOut_modBar (f : Barrier → Barrier) : (s.modBar n f).markOut i = s.markOut i := rfl
@[simp] theorem carSlot_modBar (f : Barrier → Barrier) : (s.modBar n f).carSlot i = s.carSlot i := rfl
@[simp] theorem session_modSeq (f : Seq → Seq) : (s.modSeq n f).session i = s.session i := rfl
@[simp] theorem port_modSeq (f : Seq → Seq) : (s.modSeq n f).port i = s.port i := rfl
@[simp] theorem link_modSeq (f : Seq → Seq) : (s.modSeq n f).link i = s.link i := rfl
@[simp] theorem trig_modSeq (f : Seq → Seq) : (s.modSeq n f).trig i = s.trig i := rfl
@[simp] theorem tiu_modSeq (f : Seq → Seq) : (s.modSeq n f).tiu i = s.tiu i := rfl
@[simp] theorem markOut_modSeq (f : Seq → Seq) : (s.modSeq n f).markOut i = s.markOut i := rfl
@[simp] theorem carSlot_modSeq (f : Seq → Seq) : (s.modSeq n f).carSlot i = s.carSlot i := rfl
@[simp] theorem rings_length_modSeq (f : Seq → Seq) : (s.modSeq n f).rings.length = s.rings.length := List.length_modify ..
@[simp] theorem jug_modSeq (f : Seq → Seq) : (s.modSeq n f).jug m = s.jug m := by
  unfold jug modSeq
  rw [ring_modRing]
  split <;> rfl
@[simp] theorem resq_modSeq (f : Seq → Seq) : (s.modSeq n f).resq m = s.resq m := by
  unfold resq modSeq
  rw [ring_modRing]
  split <;> rfl
@[simp] theorem voice_modSeq (f : Seq → Seq) : (s.modSeq n f).voice m i = s.voice m i := by
  unfold voice modSeq
  rw [ring_modRing]
  split <;> rfl
@[simp] theorem tx_modSeq (f : Seq → Seq) : (s.modSeq n f).tx m i = s.tx m i := by
  unfold tx modSeq
  rw [ring_modRing]
  split <;> rfl
@[simp] theorem biasOut_modSeq (f : Seq → Seq) : (s.modSeq n f).biasOut m i = s.biasOut m i := by
  unfold biasOut modSeq
  rw [ring_modRing]
  split <;> rfl
@[simp] theorem rx_modSeq (f : Seq → Seq) : (s.modSeq n f).rx m i = s.rx m i := by
  unfold rx modSeq
  rw [ring_modRing]
  split <;> rfl
@[simp] theorem lane_modSeq (f : Seq → Seq) : (s.modSeq n f).lane m i = s.lane m i := by
  unfold lane modSeq
  rw [ring_modRing]
  split <;> rfl
@[simp] theorem strm_modSeq (f : Seq → Seq) : (s.modSeq n f).strm m i = s.strm m i := by
  unfold strm modSeq
  rw [ring_modRing]
  split <;> rfl
@[simp] theorem session_modJug (f : Jug → Jug) : (s.modJug n f).session i = s.session i := rfl
@[simp] theorem port_modJug (f : Jug → Jug) : (s.modJug n f).port i = s.port i := rfl
@[simp] theorem link_modJug (f : Jug → Jug) : (s.modJug n f).link i = s.link i := rfl
@[simp] theorem trig_modJug (f : Jug → Jug) : (s.modJug n f).trig i = s.trig i := rfl
@[simp] theorem tiu_modJug (f : Jug → Jug) : (s.modJug n f).tiu i = s.tiu i := rfl
@[simp] theorem markOut_modJug (f : Jug → Jug) : (s.modJug n f).markOut i = s.markOut i := rfl
@[simp] theorem carSlot_modJug (f : Jug → Jug) : (s.modJug n f).carSlot i = s.carSlot i := rfl
@[simp] theorem rings_length_modJug (f : Jug → Jug) : (s.modJug n f).rings.length = s.rings.length := List.length_modify ..
@[simp] theorem seq_modJug (f : Jug → Jug) : (s.modJug n f).seq m = s.seq m := by
  unfold seq modJug
  rw [ring_modRing]
  split <;> rfl
@[simp] theorem resq_modJug (f : Jug → Jug) : (s.modJug n f).resq m = s.resq m := by
  unfold resq modJug
  rw [ring_modRing]
  split <;> rfl
@[simp] theorem voice_modJug (f : Jug → Jug) : (s.modJug n f).voice m i = s.voice m i := by
  unfold voice modJug
  rw [ring_modRing]
  split <;> rfl
@[simp] theorem tx_modJug (f : Jug → Jug) : (s.modJug n f).tx m i = s.tx m i := by
  unfold tx modJug
  rw [ring_modRing]
  split <;> rfl
@[simp] theorem biasOut_modJug (f : Jug → Jug) : (s.modJug n f).biasOut m i = s.biasOut m i := by
  unfold biasOut modJug
  rw [ring_modRing]
  split <;> rfl
@[simp] theorem rx_modJug (f : Jug → Jug) : (s.modJug n f).rx m i = s.rx m i := by
  unfold rx modJug
  rw [ring_modRing]
  split <;> rfl
@[simp] theorem lane_modJug (f : Jug → Jug) : (s.modJug n f).lane m i = s.lane m i := by
  unfold lane modJug
  rw [ring_modRing]
  split <;> rfl
@[simp] theorem strm_modJug (f : Jug → Jug) : (s.modJug n f).strm m i = s.strm m i := by
  unfold strm modJug
  rw [ring_modRing]
  split <;> rfl
@[simp] theorem session_modResq (f : ResQ → ResQ) : (s.modResq n f).session i = s.session i := rfl
@[simp] theorem port_modResq (f : ResQ → ResQ) : (s.modResq n f).port i = s.port i := rfl
@[simp] theorem link_modResq (f : ResQ → ResQ) : (s.modResq n f).link i = s.link i := rfl
@[simp] theorem trig_modResq (f : ResQ → ResQ) : (s.modResq n f).trig i = s.trig i := rfl
@[simp] theorem tiu_modResq (f : ResQ → ResQ) : (s.modResq n f).tiu i = s.tiu i := rfl
@[simp] theorem markOut_modResq (f : ResQ → ResQ) : (s.modResq n f).markOut i = s.markOut i := rfl
@[simp] theorem carSlot_modResq (f : ResQ → ResQ) : (s.modResq n f).carSlot i = s.carSlot i := rfl
@[simp] theorem rings_length_modResq (f : ResQ → ResQ) : (s.modResq n f).rings.length = s.rings.length := List.length_modify ..
@[simp] theorem seq_modResq (f : ResQ → ResQ) : (s.modResq n f).seq m = s.seq m := by
  unfold seq modResq
  rw [ring_modRing]
  split <;> rfl
@[simp] theorem jug_modResq (f : ResQ → ResQ) : (s.modResq n f).jug m = s.jug m := by
  unfold jug modResq
  rw [ring_modRing]
  split <;> rfl
@[simp] theorem voice_modResq (f : ResQ → ResQ) : (s.modResq n f).voice m i = s.voice m i := by
  unfold voice modResq
  rw [ring_modRing]
  split <;> rfl
@[simp] theorem tx_modResq (f : ResQ → ResQ) : (s.modResq n f).tx m i = s.tx m i := by
  unfold tx modResq
  rw [ring_modRing]
  split <;> rfl
@[simp] theorem biasOut_modResq (f : ResQ → ResQ) : (s.modResq n f).biasOut m i = s.biasOut m i := by
  unfold biasOut modResq
  rw [ring_modRing]
  split <;> rfl
@[simp] theorem rx_modResq (f : ResQ → ResQ) : (s.modResq n f).rx m i = s.rx m i := by
  unfold rx modResq
  rw [ring_modRing]
  split <;> rfl
@[simp] theorem lane_modResq (f : ResQ → ResQ) : (s.modResq n f).lane m i = s.lane m i := by
  unfold lane modResq
  rw [ring_modRing]
  split <;> rfl
@[simp] theorem strm_modResq (f : ResQ → ResQ) : (s.modResq n f).strm m i = s.strm m i := by
  unfold strm modResq
  rw [ring_modRing]
  split <;> rfl
@[simp] theorem session_modVoice (f : Voice → Voice) : (s.modVoice n k f).session i = s.session i := rfl
@[simp] theorem port_modVoice (f : Voice → Voice) : (s.modVoice n k f).port i = s.port i := rfl
@[simp] theorem link_modVoice (f : Voice → Voice) : (s.modVoice n k f).link i = s.link i := rfl
@[simp] theorem trig_modVoice (f : Voice → Voice) : (s.modVoice n k f).trig i = s.trig i := rfl
@[simp] theorem tiu_modVoice (f : Voice → Voice) : (s.modVoice n k f).tiu i = s.tiu i := rfl
@[simp] theorem markOut_modVoice (f : Voice → Voice) : (s.modVoice n k f).markOut i = s.markOut i := rfl
@[simp] theorem carSlot_modVoice (f : Voice → Voice) : (s.modVoice n k f).carSlot i = s.carSlot i := rfl
@[simp] theorem rings_length_modVoice (f : Voice → Voice) : (s.modVoice n k f).rings.length = s.rings.length := List.length_modify ..
@[simp] theorem seq_modVoice (f : Voice → Voice) : (s.modVoice n k f).seq m = s.seq m := by
  unfold seq modVoice
  rw [ring_modRing]
  split <;> rfl
@[simp] theorem jug_modVoice (f : Voice → Voice) : (s.modVoice n k f).jug m = s.jug m := by
  unfold jug modVoice
  rw [ring_modRing]
  split <;> rfl
@[simp] theorem resq_modVoice (f : Voice → Voice) : (s.modVoice n k f).resq m = s.resq m := by
  unfold resq modVoice
  rw [ring_modRing]
  split <;> rfl
@[simp] theorem tx_modVoice (f : Voice → Voice) : (s.modVoice n k f).tx m i = s.tx m i := by
  unfold tx modVoice
  rw [ring_modRing]
  split <;> rfl
@[simp] theorem biasOut_modVoice (f : Voice → Voice) : (s.modVoice n k f).biasOut m i = s.biasOut m i := by
  unfold biasOut modVoice
  rw [ring_modRing]
  split <;> rfl
@[simp] theorem rx_modVoice (f : Voice → Voice) : (s.modVoice n k f).rx m i = s.rx m i := by
  unfold rx modVoice
  rw [ring_modRing]
  split <;> rfl
@[simp] theorem lane_modVoice (f : Voice → Voice) : (s.modVoice n k f).lane m i = s.lane m i := by
  unfold lane modVoice
  rw [ring_modRing]
  split <;> rfl
@[simp] theorem strm_modVoice (f : Voice → Voice) : (s.modVoice n k f).strm m i = s.strm m i := by
  unfold strm modVoice
  rw [ring_modRing]
  split <;> rfl
@[simp] theorem session_modTx (f : TxCh → TxCh) : (s.modTx n k f).session i = s.session i := rfl
@[simp] theorem port_modTx (f : TxCh → TxCh) : (s.modTx n k f).port i = s.port i := rfl
@[simp] theorem link_modTx (f : TxCh → TxCh) : (s.modTx n k f).link i = s.link i := rfl
@[simp] theorem trig_modTx (f : TxCh → TxCh) : (s.modTx n k f).trig i = s.trig i := rfl
@[simp] theorem tiu_modTx (f : TxCh → TxCh) : (s.modTx n k f).tiu i = s.tiu i := rfl
@[simp] theorem markOut_modTx (f : TxCh → TxCh) : (s.modTx n k f).markOut i = s.markOut i := rfl
@[simp] theorem carSlot_modTx (f : TxCh → TxCh) : (s.modTx n k f).carSlot i = s.carSlot i := rfl
@[simp] theorem rings_length_modTx (f : TxCh → TxCh) : (s.modTx n k f).rings.length = s.rings.length := List.length_modify ..
@[simp] theorem seq_modTx (f : TxCh → TxCh) : (s.modTx n k f).seq m = s.seq m := by
  unfold seq modTx
  rw [ring_modRing]
  split <;> rfl
@[simp] theorem jug_modTx (f : TxCh → TxCh) : (s.modTx n k f).jug m = s.jug m := by
  unfold jug modTx
  rw [ring_modRing]
  split <;> rfl
@[simp] theorem resq_modTx (f : TxCh → TxCh) : (s.modTx n k f).resq m = s.resq m := by
  unfold resq modTx
  rw [ring_modRing]
  split <;> rfl
@[simp] theorem voice_modTx (f : TxCh → TxCh) : (s.modTx n k f).voice m i = s.voice m i := by
  unfold voice modTx
  rw [ring_modRing]
  split <;> rfl
@[simp] theorem biasOut_modTx (f : TxCh → TxCh) : (s.modTx n k f).biasOut m i = s.biasOut m i := by
  unfold biasOut modTx
  rw [ring_modRing]
  split <;> rfl
@[simp] theorem rx_modTx (f : TxCh → TxCh) : (s.modTx n k f).rx m i = s.rx m i := by
  unfold rx modTx
  rw [ring_modRing]
  split <;> rfl
@[simp] theorem lane_modTx (f : TxCh → TxCh) : (s.modTx n k f).lane m i = s.lane m i := by
  unfold lane modTx
  rw [ring_modRing]
  split <;> rfl
@[simp] theorem strm_modTx (f : TxCh → TxCh) : (s.modTx n k f).strm m i = s.strm m i := by
  unfold strm modTx
  rw [ring_modRing]
  split <;> rfl
@[simp] theorem session_modBias (f : BiasOut → BiasOut) : (s.modBias n k f).session i = s.session i := rfl
@[simp] theorem port_modBias (f : BiasOut → BiasOut) : (s.modBias n k f).port i = s.port i := rfl
@[simp] theorem link_modBias (f : BiasOut → BiasOut) : (s.modBias n k f).link i = s.link i := rfl
@[simp] theorem trig_modBias (f : BiasOut → BiasOut) : (s.modBias n k f).trig i = s.trig i := rfl
@[simp] theorem tiu_modBias (f : BiasOut → BiasOut) : (s.modBias n k f).tiu i = s.tiu i := rfl
@[simp] theorem markOut_modBias (f : BiasOut → BiasOut) : (s.modBias n k f).markOut i = s.markOut i := rfl
@[simp] theorem carSlot_modBias (f : BiasOut → BiasOut) : (s.modBias n k f).carSlot i = s.carSlot i := rfl
@[simp] theorem rings_length_modBias (f : BiasOut → BiasOut) : (s.modBias n k f).rings.length = s.rings.length := List.length_modify ..
@[simp] theorem seq_modBias (f : BiasOut → BiasOut) : (s.modBias n k f).seq m = s.seq m := by
  unfold seq modBias
  rw [ring_modRing]
  split <;> rfl
@[simp] theorem jug_modBias (f : BiasOut → BiasOut) : (s.modBias n k f).jug m = s.jug m := by
  unfold jug modBias
  rw [ring_modRing]
  split <;> rfl
@[simp] theorem resq_modBias (f : BiasOut → BiasOut) : (s.modBias n k f).resq m = s.resq m := by
  unfold resq modBias
  rw [ring_modRing]
  split <;> rfl
@[simp] theorem voice_modBias (f : BiasOut → BiasOut) : (s.modBias n k f).voice m i = s.voice m i := by
  unfold voice modBias
  rw [ring_modRing]
  split <;> rfl
@[simp] theorem tx_modBias (f : BiasOut → BiasOut) : (s.modBias n k f).tx m i = s.tx m i := by
  unfold tx modBias
  rw [ring_modRing]
  split <;> rfl
@[simp] theorem rx_modBias (f : BiasOut → BiasOut) : (s.modBias n k f).rx m i = s.rx m i := by
  unfold rx modBias
  rw [ring_modRing]
  split <;> rfl
@[simp] theorem lane_modBias (f : BiasOut → BiasOut) : (s.modBias n k f).lane m i = s.lane m i := by
  unfold lane modBias
  rw [ring_modRing]
  split <;> rfl
@[simp] theorem strm_modBias (f : BiasOut → BiasOut) : (s.modBias n k f).strm m i = s.strm m i := by
  unfold strm modBias
  rw [ring_modRing]
  split <;> rfl
@[simp] theorem session_modRx (f : RxCh → RxCh) : (s.modRx n k f).session i = s.session i := rfl
@[simp] theorem port_modRx (f : RxCh → RxCh) : (s.modRx n k f).port i = s.port i := rfl
@[simp] theorem link_modRx (f : RxCh → RxCh) : (s.modRx n k f).link i = s.link i := rfl
@[simp] theorem trig_modRx (f : RxCh → RxCh) : (s.modRx n k f).trig i = s.trig i := rfl
@[simp] theorem tiu_modRx (f : RxCh → RxCh) : (s.modRx n k f).tiu i = s.tiu i := rfl
@[simp] theorem markOut_modRx (f : RxCh → RxCh) : (s.modRx n k f).markOut i = s.markOut i := rfl
@[simp] theorem carSlot_modRx (f : RxCh → RxCh) : (s.modRx n k f).carSlot i = s.carSlot i := rfl
@[simp] theorem rings_length_modRx (f : RxCh → RxCh) : (s.modRx n k f).rings.length = s.rings.length := List.length_modify ..
@[simp] theorem seq_modRx (f : RxCh → RxCh) : (s.modRx n k f).seq m = s.seq m := by
  unfold seq modRx
  rw [ring_modRing]
  split <;> rfl
@[simp] theorem jug_modRx (f : RxCh → RxCh) : (s.modRx n k f).jug m = s.jug m := by
  unfold jug modRx
  rw [ring_modRing]
  split <;> rfl
@[simp] theorem resq_modRx (f : RxCh → RxCh) : (s.modRx n k f).resq m = s.resq m := by
  unfold resq modRx
  rw [ring_modRing]
  split <;> rfl
@[simp] theorem voice_modRx (f : RxCh → RxCh) : (s.modRx n k f).voice m i = s.voice m i := by
  unfold voice modRx
  rw [ring_modRing]
  split <;> rfl
@[simp] theorem tx_modRx (f : RxCh → RxCh) : (s.modRx n k f).tx m i = s.tx m i := by
  unfold tx modRx
  rw [ring_modRing]
  split <;> rfl
@[simp] theorem biasOut_modRx (f : RxCh → RxCh) : (s.modRx n k f).biasOut m i = s.biasOut m i := by
  unfold biasOut modRx
  rw [ring_modRing]
  split <;> rfl
@[simp] theorem lane_modRx (f : RxCh → RxCh) : (s.modRx n k f).lane m i = s.lane m i := by
  unfold lane modRx
  rw [ring_modRing]
  split <;> rfl
@[simp] theorem strm_modRx (f : RxCh → RxCh) : (s.modRx n k f).strm m i = s.strm m i := by
  unfold strm modRx
  rw [ring_modRing]
  split <;> rfl
@[simp] theorem session_modLane (f : Lane → Lane) : (s.modLane n k f).session i = s.session i := rfl
@[simp] theorem port_modLane (f : Lane → Lane) : (s.modLane n k f).port i = s.port i := rfl
@[simp] theorem link_modLane (f : Lane → Lane) : (s.modLane n k f).link i = s.link i := rfl
@[simp] theorem trig_modLane (f : Lane → Lane) : (s.modLane n k f).trig i = s.trig i := rfl
@[simp] theorem tiu_modLane (f : Lane → Lane) : (s.modLane n k f).tiu i = s.tiu i := rfl
@[simp] theorem markOut_modLane (f : Lane → Lane) : (s.modLane n k f).markOut i = s.markOut i := rfl
@[simp] theorem carSlot_modLane (f : Lane → Lane) : (s.modLane n k f).carSlot i = s.carSlot i := rfl
@[simp] theorem rings_length_modLane (f : Lane → Lane) : (s.modLane n k f).rings.length = s.rings.length := List.length_modify ..
@[simp] theorem seq_modLane (f : Lane → Lane) : (s.modLane n k f).seq m = s.seq m := by
  unfold seq modLane
  rw [ring_modRing]
  split <;> rfl
@[simp] theorem jug_modLane (f : Lane → Lane) : (s.modLane n k f).jug m = s.jug m := by
  unfold jug modLane
  rw [ring_modRing]
  split <;> rfl
@[simp] theorem resq_modLane (f : Lane → Lane) : (s.modLane n k f).resq m = s.resq m := by
  unfold resq modLane
  rw [ring_modRing]
  split <;> rfl
@[simp] theorem voice_modLane (f : Lane → Lane) : (s.modLane n k f).voice m i = s.voice m i := by
  unfold voice modLane
  rw [ring_modRing]
  split <;> rfl
@[simp] theorem tx_modLane (f : Lane → Lane) : (s.modLane n k f).tx m i = s.tx m i := by
  unfold tx modLane
  rw [ring_modRing]
  split <;> rfl
@[simp] theorem biasOut_modLane (f : Lane → Lane) : (s.modLane n k f).biasOut m i = s.biasOut m i := by
  unfold biasOut modLane
  rw [ring_modRing]
  split <;> rfl
@[simp] theorem rx_modLane (f : Lane → Lane) : (s.modLane n k f).rx m i = s.rx m i := by
  unfold rx modLane
  rw [ring_modRing]
  split <;> rfl
@[simp] theorem strm_modLane (f : Lane → Lane) : (s.modLane n k f).strm m i = s.strm m i := by
  unfold strm modLane
  rw [ring_modRing]
  split <;> rfl
@[simp] theorem session_modStrm (f : Strm → Strm) : (s.modStrm n k f).session i = s.session i := rfl
@[simp] theorem port_modStrm (f : Strm → Strm) : (s.modStrm n k f).port i = s.port i := rfl
@[simp] theorem link_modStrm (f : Strm → Strm) : (s.modStrm n k f).link i = s.link i := rfl
@[simp] theorem trig_modStrm (f : Strm → Strm) : (s.modStrm n k f).trig i = s.trig i := rfl
@[simp] theorem tiu_modStrm (f : Strm → Strm) : (s.modStrm n k f).tiu i = s.tiu i := rfl
@[simp] theorem markOut_modStrm (f : Strm → Strm) : (s.modStrm n k f).markOut i = s.markOut i := rfl
@[simp] theorem carSlot_modStrm (f : Strm → Strm) : (s.modStrm n k f).carSlot i = s.carSlot i := rfl
@[simp] theorem rings_length_modStrm (f : Strm → Strm) : (s.modStrm n k f).rings.length = s.rings.length := List.length_modify ..
@[simp] theorem seq_modStrm (f : Strm → Strm) : (s.modStrm n k f).seq m = s.seq m := by
  unfold seq modStrm
  rw [ring_modRing]
  split <;> rfl
@[simp] theorem jug_modStrm (f : Strm → Strm) : (s.modStrm n k f).jug m = s.jug m := by
  unfold jug modStrm
  rw [ring_modRing]
  split <;> rfl
@[simp] theorem resq_modStrm (f : Strm → Strm) : (s.modStrm n k f).resq m = s.resq m := by
  unfold resq modStrm
  rw [ring_modRing]
  split <;> rfl
@[simp] theorem voice_modStrm (f : Strm → Strm) : (s.modStrm n k f).voice m i = s.voice m i := by
  unfold voice modStrm
  rw [ring_modRing]
  split <;> rfl
@[simp] theorem tx_modStrm (f : Strm → Strm) : (s.modStrm n k f).tx m i = s.tx m i := by
  unfold tx modStrm
  rw [ring_modRing]
  split <;> rfl
@[simp] theorem biasOut_modStrm (f : Strm → Strm) : (s.modStrm n k f).biasOut m i = s.biasOut m i := by
  unfold biasOut modStrm
  rw [ring_modRing]
  split <;> rfl
@[simp] theorem rx_modStrm (f : Strm → Strm) : (s.modStrm n k f).rx m i = s.rx m i := by
  unfold rx modStrm
  rw [ring_modRing]
  split <;> rfl
@[simp] theorem lane_modStrm (f : Strm → Strm) : (s.modStrm n k f).lane m i = s.lane m i := by
  unfold lane modStrm
  rw [ring_modRing]
  split <;> rfl
end

theorem seq_modSeq_self {s : State} (h : s.rings.length = 12) {n : Nat} (hn : n < 12) (f : Seq → Seq) :
    (s.modSeq n f).seq n = f (s.seq n) := by
  unfold seq modSeq
  rw [ring_modRing_self h hn]

theorem seq_modSeq_ne {s : State} {n m : Nat} (f : Seq → Seq) (h : m ≠ n) : (s.modSeq n f).seq m = s.seq m := by
  unfold seq modSeq
  rw [ring_modRing_ne _ h]

theorem jug_modJug_self {s : State} (h : s.rings.length = 12) {n : Nat} (hn : n < 12) (f : Jug → Jug) :
    (s.modJug n f).jug n = f (s.jug n) := by
  unfold jug modJug
  rw [ring_modRing_self h hn]

theorem jug_modJug_ne {s : State} {n m : Nat} (f : Jug → Jug) (h : m ≠ n) : (s.modJug n f).jug m = s.jug m := by
  unfold jug modJug
  rw [ring_modRing_ne _ h]

theorem resq_modResq_self {s : State} (h : s.rings.length = 12) {n : Nat} (hn : n < 12) (f : ResQ → ResQ) :
    (s.modResq n f).resq n = f (s.resq n) := by
  unfold resq modResq
  rw [ring_modRing_self h hn]

theorem resq_modResq_ne {s : State} {n m : Nat} (f : ResQ → ResQ) (h : m ≠ n) : (s.modResq n f).resq m = s.resq m := by
  unfold resq modResq
  rw [ring_modRing_ne _ h]

theorem voice_modVoice_self {s : State} (h : s.rings.length = 12) {n k : Nat} (hn : n < 12) (hk : k < (s.ring n).voices.length)
    (f : Voice → Voice) : (s.modVoice n k f).voice n k = f (s.voice n k) := by
  unfold voice modVoice
  rw [ring_modRing_self h hn]
  exact getD_modify_self hk

theorem voice_modVoice_ne {s : State} {n m k i : Nat} (f : Voice → Voice) (h : m ≠ n ∨ i ≠ k) :
    (s.modVoice n k f).voice m i = s.voice m i := by
  unfold voice modVoice
  rw [ring_modRing]
  split
  · rename_i e
    exact getD_modify_ne (h.resolve_left fun x => x e.1)
  · rfl

theorem tx_modTx_self {s : State} (h : s.rings.length = 12) {n k : Nat} (hn : n < 12) (hk : k < (s.ring n).tx.length)
    (f : TxCh → TxCh) : (s.modTx n k f).tx n k = f (s.tx n k) := by
  unfold tx modTx
  rw [ring_modRing_self h hn]
  exact getD_modify_self hk

theorem tx_modTx_ne {s : State} {n m k i : Nat} (f : TxCh → TxCh) (h : m ≠ n ∨ i ≠ k) :
    (s.modTx n k f).tx m i = s.tx m i := by
  unfold tx modTx
  rw [ring_modRing]
  split
  · rename_i e
    exact getD_modify_ne (h.resolve_left fun x => x e.1)
  · rfl

theorem biasOut_modBias_self {s : State} (h : s.rings.length = 12) {n k : Nat} (hn : n < 12) (hk : k < (s.ring n).bias.length)
    (f : BiasOut → BiasOut) : (s.modBias n k f).biasOut n k = f (s.biasOut n k) := by
  unfold biasOut modBias
  rw [ring_modRing_self h hn]
  exact getD_modify_self hk

theorem biasOut_modBias_ne {s : State} {n m k i : Nat} (f : BiasOut → BiasOut) (h : m ≠ n ∨ i ≠ k) :
    (s.modBias n k f).biasOut m i = s.biasOut m i := by
  unfold biasOut modBias
  rw [ring_modRing]
  split
  · rename_i e
    exact getD_modify_ne (h.resolve_left fun x => x e.1)
  · rfl

theorem rx_modRx_self {s : State} (h : s.rings.length = 12) {n k : Nat} (hn : n < 12) (hk : k < (s.ring n).rx.length)
    (f : RxCh → RxCh) : (s.modRx n k f).rx n k = f (s.rx n k) := by
  unfold rx modRx
  rw [ring_modRing_self h hn]
  exact getD_modify_self hk

theorem rx_modRx_ne {s : State} {n m k i : Nat} (f : RxCh → RxCh) (h : m ≠ n ∨ i ≠ k) :
    (s.modRx n k f).rx m i = s.rx m i := by
  unfold rx modRx
  rw [ring_modRing]
  split
  · rename_i e
    exact getD_modify_ne (h.resolve_left fun x => x e.1)
  · rfl

theorem lane_modLane_self {s : State} (h : s.rings.length = 12) {n k : Nat} (hn : n < 12) (hk : k < (s.ring n).lanes.length)
    (f : Lane → Lane) : (s.modLane n k f).lane n k = f (s.lane n k) := by
  unfold lane modLane
  rw [ring_modRing_self h hn]
  exact getD_modify_self hk

theorem lane_modLane_ne {s : State} {n m k i : Nat} (f : Lane → Lane) (h : m ≠ n ∨ i ≠ k) :
    (s.modLane n k f).lane m i = s.lane m i := by
  unfold lane modLane
  rw [ring_modRing]
  split
  · rename_i e
    exact getD_modify_ne (h.resolve_left fun x => x e.1)
  · rfl

theorem strm_modStrm_self {s : State} (h : s.rings.length = 12) {n k : Nat} (hn : n < 12) (hk : k < (s.ring n).strm.length)
    (f : Strm → Strm) : (s.modStrm n k f).strm n k = f (s.strm n k) := by
  unfold strm modStrm
  rw [ring_modRing_self h hn]
  exact getD_modify_self hk

theorem strm_modStrm_ne {s : State} {n m k i : Nat} (f : Strm → Strm) (h : m ≠ n ∨ i ≠ k) :
    (s.modStrm n k f).strm m i = s.strm m i := by
  unfold strm modStrm
  rw [ring_modRing]
  split
  · rename_i e
    exact getD_modify_ne (h.resolve_left fun x => x e.1)
  · rfl

theorem session_modSess_self {s : State} {n : Nat} (h : n < s.sess.length) (f : Sess → Sess) : (s.modSess n f).session n = f (s.session n) :=
  getD_modify_self h

theorem session_modSess_ne {s : State} {n m : Nat} (f : Sess → Sess) (h : m ≠ n) : (s.modSess n f).session m = s.session m := getD_modify_ne h

theorem port_modPort_self {s : State} {n : Nat} (h : n < s.ports.length) (f : EthPort → EthPort) : (s.modPort n f).port n = f (s.port n) :=
  getD_modify_self h

theorem port_modPort_ne {s : State} {n m : Nat} (f : EthPort → EthPort) (h : m ≠ n) : (s.modPort n f).port m = s.port m := getD_modify_ne h

theorem link_modLink_self {s : State} {n : Nat} (h : n < s.links.length) (f : Link → Link) : (s.modLink n f).link n = f (s.link n) :=
  getD_modify_self h

theorem link_modLink_ne {s : State} {n m : Nat} (f : Link → Link) (h : m ≠ n) : (s.modLink n f).link m = s.link m := getD_modify_ne h

theorem trig_modTrig_self {s : State} {n : Nat} (h : n < s.trigs.length) (f : Trig → Trig) : (s.modTrig n f).trig n = f (s.trig n) :=
  getD_modify_self h

theorem trig_modTrig_ne {s : State} {n m : Nat} (f : Trig → Trig) (h : m ≠ n) : (s.modTrig n f).trig m = s.trig m := getD_modify_ne h

theorem tiu_modTiu_self {s : State} {n : Nat} (h : n < s.tius.length) (f : Tiu → Tiu) : (s.modTiu n f).tiu n = f (s.tiu n) :=
  getD_modify_self h

theorem tiu_modTiu_ne {s : State} {n m : Nat} (f : Tiu → Tiu) (h : m ≠ n) : (s.modTiu n f).tiu m = s.tiu m := getD_modify_ne h

theorem markOut_modMark_self {s : State} {n : Nat} (h : n < s.marks.length) (f : Mark → Mark) : (s.modMark n f).markOut n = f (s.markOut n) :=
  getD_modify_self h

theorem markOut_modMark_ne {s : State} {n m : Nat} (f : Mark → Mark) (h : m ≠ n) : (s.modMark n f).markOut m = s.markOut m := getD_modify_ne h

theorem carSlot_modCar_self {s : State} {n : Nat} (h : n < s.car.length) (f : CarSlot → CarSlot) : (s.modCar n f).carSlot n = f (s.carSlot n) :=
  getD_modify_self h

theorem carSlot_modCar_ne {s : State} {n m : Nat} (f : CarSlot → CarSlot) (h : m ≠ n) : (s.modCar n f).carSlot m = s.carSlot m := getD_modify_ne h

end State

end Sys2Proof.Machine
end

