-- ==== Sys2Proof/Laws/State.lean ====
section
/-! SUPPORT. What each basic update of the state does to each field of it: nothing, but to the one it is for. -/

namespace Sys2Proof.Machine.State

/-! ### setReg -/

section
variable (s : State) (a : Nat) (v : Word)
@[simp] theorem setReg_beat : (s.setReg a v).beat = s.beat := rfl
@[simp] theorem setReg_regs : (s.setReg a v).regs = Cells.put (resetWord a) s.regs a v := rfl
@[simp] theorem setReg_mem : (s.setReg a v).mem = s.mem := rfl
@[simp] theorem setReg_sess : (s.setReg a v).sess = s.sess := rfl
@[simp] theorem setReg_ports : (s.setReg a v).ports = s.ports := rfl
@[simp] theorem setReg_resp : (s.setReg a v).resp = s.resp := rfl
@[simp] theorem setReg_resume : (s.setReg a v).resume = s.resume := rfl
@[simp] theorem setReg_held : (s.setReg a v).held = s.held := rfl
@[simp] theorem setReg_curPort : (s.setReg a v).curPort = s.curPort := rfl
@[simp] theorem setReg_beatWrites : (s.setReg a v).beatWrites = s.beatWrites := rfl
@[simp] theorem setReg_beatSets : (s.setReg a v).beatSets = s.beatSets := rfl
@[simp] theorem setReg_sched : (s.setReg a v).sched = s.sched := rfl
@[simp] theorem setReg_nextHandle : (s.setReg a v).nextHandle = s.nextHandle := rfl
@[simp] theorem setReg_evKeys : (s.setReg a v).evKeys = s.evKeys := rfl
@[simp] theorem setReg_evCounts : (s.setReg a v).evCounts = s.evCounts := rfl
@[simp] theorem setReg_evToPush : (s.setReg a v).evToPush = s.evToPush := rfl
@[simp] theorem setReg_alertLow : (s.setReg a v).alertLow = s.alertLow := rfl
@[simp] theorem setReg_carmineNow : (s.setReg a v).carmineNow = s.carmineNow := rfl
@[simp] theorem setReg_rings : (s.setReg a v).rings = s.rings := rfl
@[simp] theorem setReg_trap : (s.setReg a v).trap = s.trap := rfl
@[simp] theorem setReg_links : (s.setReg a v).links = s.links := rfl
@[simp] theorem setReg_time : (s.setReg a v).time = s.time := rfl
@[simp] theorem setReg_trigs : (s.setReg a v).trigs = s.trigs := rfl
@[simp] theorem setReg_srcEdges : (s.setReg a v).srcEdges = s.srcEdges := rfl
@[simp] theorem setReg_tius : (s.setReg a v).tius = s.tius := rfl
@[simp] theorem setReg_marks : (s.setReg a v).marks = s.marks := rfl
@[simp] theorem setReg_markNo : (s.setReg a v).markNo = s.markNo := rfl
@[simp] theorem setReg_cal : (s.setReg a v).cal = s.cal := rfl
@[simp] theorem setReg_memu : (s.setReg a v).memu = s.memu := rfl
@[simp] theorem setReg_car : (s.setReg a v).car = s.car := rfl
@[simp] theorem setReg_hk : (s.setReg a v).hk = s.hk := rfl
@[simp] theorem setReg_sec : (s.setReg a v).sec = s.sec := rfl
@[simp] theorem setReg_nvm : (s.setReg a v).nvm = s.nvm := rfl
@[simp] theorem setReg_rst : (s.setReg a v).rst = s.rst := rfl
@[simp] theorem setReg_seqNo : (s.setReg a v).seqNo = s.seqNo := rfl
@[simp] theorem setReg_fwBad : (s.setReg a v).fwBad = s.fwBad := rfl
@[simp] theorem setReg_netNow : (s.setReg a v).netNow = s.netNow := rfl
@[simp] theorem setReg_macOwn : (s.setReg a v).macOwn = s.macOwn := rfl
@[simp] theorem setReg_macWritten : (s.setReg a v).macWritten = s.macWritten := rfl
@[simp] theorem setReg_calBad : (s.setReg a v).calBad = s.calBad := rfl
@[simp] theorem setReg_freeCtr : (s.setReg a v).freeCtr = s.freeCtr := rfl
@[simp] theorem setReg_pending : (s.setReg a v).pending = s.pending := rfl
end

/-! ### setByte -/

section
variable (s : State) (a : Nat) (b : Byte)
@[simp] theorem setByte_beat : (s.setByte a b).beat = s.beat := rfl
@[simp] theorem setByte_regs : (s.setByte a b).regs = s.regs := rfl
@[simp] theorem setByte_mem : (s.setByte a b).mem = Cells.put 0 s.mem a b := rfl
@[simp] theorem setByte_sess : (s.setByte a b).sess = s.sess := rfl
@[simp] theorem setByte_ports : (s.setByte a b).ports = s.ports := rfl
@[simp] theorem setByte_resp : (s.setByte a b).resp = s.resp := rfl
@[simp] theorem setByte_resume : (s.setByte a b).resume = s.resume := rfl
@[simp] theorem setByte_held : (s.setByte a b).held = s.held := rfl
@[simp] theorem setByte_curPort : (s.setByte a b).curPort = s.curPort := rfl
@[simp] theorem setByte_beatWrites : (s.setByte a b).beatWrites = s.beatWrites := rfl
@[simp] theorem setByte_beatSets : (s.setByte a b).beatSets = s.beatSets := rfl
@[simp] theorem setByte_sched : (s.setByte a b).sched = s.sched := rfl
@[simp] theorem setByte_nextHandle : (s.setByte a b).nextHandle = s.nextHandle := rfl
@[simp] theorem setByte_evKeys : (s.setByte a b).evKeys = s.evKeys := rfl
@[simp] theorem setByte_evCounts : (s.setByte a b).evCounts = s.evCounts := rfl
@[simp] theorem setByte_evToPush : (s.setByte a b).evToPush = s.evToPush := rfl
@[simp] theorem setByte_alertLow : (s.setByte a b).alertLow = s.alertLow := rfl
@[simp] theorem setByte_carmineNow : (s.setByte a b).carmineNow = s.carmineNow := rfl
@[simp] theorem setByte_rings : (s.setByte a b).rings = s.rings := rfl
@[simp] theorem setByte_trap : (s.setByte a b).trap = s.trap := rfl
@[simp] theorem setByte_links : (s.setByte a b).links = s.links := rfl
@[simp] theorem setByte_time : (s.setByte a b).time = s.time := rfl
@[simp] theorem setByte_trigs : (s.setByte a b).trigs = s.trigs := rfl
@[simp] theorem setByte_srcEdges : (s.setByte a b).srcEdges = s.srcEdges := rfl
@[simp] theorem setByte_tius : (s.setByte a b).tius = s.tius := rfl
@[simp] theorem setByte_marks : (s.setByte a b).marks = s.marks := rfl
@[simp] theorem setByte_markNo : (s.setByte a b).markNo = s.markNo := rfl
@[simp] theorem setByte_cal : (s.setByte a b).cal = s.cal := rfl
@[simp] theorem setByte_memu : (s.setByte a b).memu = s.memu := rfl
@[simp] theorem setByte_car : (s.setByte a b).car = s.car := rfl
@[simp] theorem setByte_hk : (s.setByte a b).hk = s.hk := rfl
@[simp] theorem setByte_sec : (s.setByte a b).sec = s.sec := rfl
@[simp] theorem setByte_nvm : (s.setByte a b).nvm = s.nvm := rfl
@[simp] theorem setByte_rst : (s.setByte a b).rst = s.rst := rfl
@[simp] theorem setByte_seqNo : (s.setByte a b).seqNo = s.seqNo := rfl
@[simp] theorem setByte_fwBad : (s.setByte a b).fwBad = s.fwBad := rfl
@[simp] theorem setByte_netNow : (s.setByte a b).netNow = s.netNow := rfl
@[simp] theorem setByte_macOwn : (s.setByte a b).macOwn = s.macOwn := rfl
@[simp] theorem setByte_macWritten : (s.setByte a b).macWritten = s.macWritten := rfl
@[simp] theorem setByte_calBad : (s.setByte a b).calBad = s.calBad := rfl
@[simp] theorem setByte_freeCtr : (s.setByte a b).freeCtr = s.freeCtr := rfl
@[simp] theorem setByte_pending : (s.setByte a b).pending = s.pending := rfl
end

/-! ### modRing -/

section
variable (s : State) (n : Nat) (f : Ring → Ring)
@[simp] theorem modRing_beat : (s.modRing n f).beat = s.beat := rfl
@[simp] theorem modRing_regs : (s.modRing n f).regs = s.regs := rfl
@[simp] theorem modRing_mem : (s.modRing n f).mem = s.mem := rfl
@[simp] theorem modRing_sess : (s.modRing n f).sess = s.sess := rfl
@[simp] theorem modRing_ports : (s.modRing n f).ports = s.ports := rfl
@[simp] theorem modRing_resp : (s.modRing n f).resp = s.resp := rfl
@[simp] theorem modRing_resume : (s.modRing n f).resume = s.resume := rfl
@[simp] theorem modRing_held : (s.modRing n f).held = s.held := rfl
@[simp] theorem modRing_curPort : (s.modRing n f).curPort = s.curPort := rfl
@[simp] theorem modRing_beatWrites : (s.modRing n f).beatWrites = s.beatWrites := rfl
@[simp] theorem modRing_beatSets : (s.modRing n f).beatSets = s.beatSets := rfl
@[simp] theorem modRing_sched : (s.modRing n f).sched = s.sched := rfl
@[simp] theorem modRing_nextHandle : (s.modRing n f).nextHandle = s.nextHandle := rfl
@[simp] theorem modRing_evKeys : (s.modRing n f).evKeys = s.evKeys := rfl
@[simp] theorem modRing_evCounts : (s.modRing n f).evCounts = s.evCounts := rfl
@[simp] theorem modRing_evToPush : (s.modRing n f).evToPush = s.evToPush := rfl
@[simp] theorem modRing_alertLow : (s.modRing n f).alertLow = s.alertLow := rfl
@[simp] theorem modRing_carmineNow : (s.modRing n f).carmineNow = s.carmineNow := rfl
@[simp] theorem modRing_rings : (s.modRing n f).rings = s.rings.modify n f := rfl
@[simp] theorem modRing_trap : (s.modRing n f).trap = s.trap := rfl
@[simp] theorem modRing_links : (s.modRing n f).links = s.links := rfl
@[simp] theorem modRing_time : (s.modRing n f).time = s.time := rfl
@[simp] theorem modRing_trigs : (s.modRing n f).trigs = s.trigs := rfl
@[simp] theorem modRing_srcEdges : (s.modRing n f).srcEdges = s.srcEdges := rfl
@[simp] theorem modRing_tius : (s.modRing n f).tius = s.tius := rfl
@[simp] theorem modRing_marks : (s.modRing n f).marks = s.marks := rfl
@[simp] theorem modRing_markNo : (s.modRing n f).markNo = s.markNo := rfl
@[simp] theorem modRing_cal : (s.modRing n f).cal = s.cal := rfl
@[simp] theorem modRing_memu : (s.modRing n f).memu = s.memu := rfl
@[simp] theorem modRing_car : (s.modRing n f).car = s.car := rfl
@[simp] theorem modRing_hk : (s.modRing n f).hk = s.hk := rfl
@[simp] theorem modRing_sec : (s.modRing n f).sec = s.sec := rfl
@[simp] theorem modRing_nvm : (s.modRing n f).nvm = s.nvm := rfl
@[simp] theorem modRing_rst : (s.modRing n f).rst = s.rst := rfl
@[simp] theorem modRing_seqNo : (s.modRing n f).seqNo = s.seqNo := rfl
@[simp] theorem modRing_fwBad : (s.modRing n f).fwBad = s.fwBad := rfl
@[simp] theorem modRing_netNow : (s.modRing n f).netNow = s.netNow := rfl
@[simp] theorem modRing_macOwn : (s.modRing n f).macOwn = s.macOwn := rfl
@[simp] theorem modRing_macWritten : (s.modRing n f).macWritten = s.macWritten := rfl
@[simp] theorem modRing_calBad : (s.modRing n f).calBad = s.calBad := rfl
@[simp] theorem modRing_freeCtr : (s.modRing n f).freeCtr = s.freeCtr := rfl
@[simp] theorem modRing_pending : (s.modRing n f).pending = s.pending := rfl
end

/-! ### modSess -/

section
variable (s : State) (n : Nat) (f : Sess → Sess)
@[simp] theorem modSess_beat : (s.modSess n f).beat = s.beat := rfl
@[simp] theorem modSess_regs : (s.modSess n f).regs = s.regs := rfl
@[simp] theorem modSess_mem : (s.modSess n f).mem = s.mem := rfl
@[simp] theorem modSess_sess : (s.modSess n f).sess = s.sess.modify n f := rfl
@[simp] theorem modSess_ports : (s.modSess n f).ports = s.ports := rfl
@[simp] theorem modSess_resp : (s.modSess n f).resp = s.resp := rfl
@[simp] theorem modSess_resume : (s.modSess n f).resume = s.resume := rfl
@[simp] theorem modSess_held : (s.modSess n f).held = s.held := rfl
@[simp] theorem modSess_curPort : (s.modSess n f).curPort = s.curPort := rfl
@[simp] theorem modSess_beatWrites : (s.modSess n f).beatWrites = s.beatWrites := rfl
@[simp] theorem modSess_beatSets : (s.modSess n f).beatSets = s.beatSets := rfl
@[simp] theorem modSess_sched : (s.modSess n f).sched = s.sched := rfl
@[simp] theorem modSess_nextHandle : (s.modSess n f).nextHandle = s.nextHandle := rfl
@[simp] theorem modSess_evKeys : (s.modSess n f).evKeys = s.evKeys := rfl
@[simp] theorem modSess_evCounts : (s.modSess n f).evCounts = s.evCounts := rfl
@[simp] theorem modSess_evToPush : (s.modSess n f).evToPush = s.evToPush := rfl
@[simp] theorem modSess_alertLow : (s.modSess n f).alertLow = s.alertLow := rfl
@[simp] theorem modSess_carmineNow : (s.modSess n f).carmineNow = s.carmineNow := rfl
@[simp] theorem modSess_rings : (s.modSess n f).rings = s.rings := rfl
@[simp] theorem modSess_trap : (s.modSess n f).trap = s.trap := rfl
@[simp] theorem modSess_links : (s.modSess n f).links = s.links := rfl
@[simp] theorem modSess_time : (s.modSess n f).time = s.time := rfl
@[simp] theorem modSess_trigs : (s.modSess n f).trigs = s.trigs := rfl
@[simp] theorem modSess_srcEdges : (s.modSess n f).srcEdges = s.srcEdges := rfl
@[simp] theorem modSess_tius : (s.modSess n f).tius = s.tius := rfl
@[simp] theorem modSess_marks : (s.modSess n f).marks = s.marks := rfl
@[simp] theorem modSess_markNo : (s.modSess n f).markNo = s.markNo := rfl
@[simp] theorem modSess_cal : (s.modSess n f).cal = s.cal := rfl
@[simp] theorem modSess_memu : (s.modSess n f).memu = s.memu := rfl
@[simp] theorem modSess_car : (s.modSess n f).car = s.car := rfl
@[simp] theorem modSess_hk : (s.modSess n f).hk = s.hk := rfl
@[simp] theorem modSess_sec : (s.modSess n f).sec = s.sec := rfl
@[simp] theorem modSess_nvm : (s.modSess n f).nvm = s.nvm := rfl
@[simp] theorem modSess_rst : (s.modSess n f).rst = s.rst := rfl
@[simp] theorem modSess_seqNo : (s.modSess n f).seqNo = s.seqNo := rfl
@[simp] theorem modSess_fwBad : (s.modSess n f).fwBad = s.fwBad := rfl
@[simp] theorem modSess_netNow : (s.modSess n f).netNow = s.netNow := rfl
@[simp] theorem modSess_macOwn : (s.modSess n f).macOwn = s.macOwn := rfl
@[simp] theorem modSess_macWritten : (s.modSess n f).macWritten = s.macWritten := rfl
@[simp] theorem modSess_calBad : (s.modSess n f).calBad = s.calBad := rfl
@[simp] theorem modSess_freeCtr : (s.modSess n f).freeCtr = s.freeCtr := rfl
@[simp] theorem modSess_pending : (s.modSess n f).pending = s.pending := rfl
end

/-! ### modPort -/

section
variable (s : State) (n : Nat) (f : EthPort → EthPort)
@[simp] theorem modPort_beat : (s.modPort n f).beat = s.beat := rfl
@[simp] theorem modPort_regs : (s.modPort n f).regs = s.regs := rfl
@[simp] theorem modPort_mem : (s.modPort n f).mem = s.mem := rfl
@[simp] theorem modPort_sess : (s.modPort n f).sess = s.sess := rfl
@[simp] theorem modPort_ports : (s.modPort n f).ports = s.ports.modify n f := rfl
@[simp] theorem modPort_resp : (s.modPort n f).resp = s.resp := rfl
@[simp] theorem modPort_resume : (s.modPort n f).resume = s.resume := rfl
@[simp] theorem modPort_held : (s.modPort n f).held = s.held := rfl
@[simp] theorem modPort_curPort : (s.modPort n f).curPort = s.curPort := rfl
@[simp] theorem modPort_beatWrites : (s.modPort n f).beatWrites = s.beatWrites := rfl
@[simp] theorem modPort_beatSets : (s.modPort n f).beatSets = s.beatSets := rfl
@[simp] theorem modPort_sched : (s.modPort n f).sched = s.sched := rfl
@[simp] theorem modPort_nextHandle : (s.modPort n f).nextHandle = s.nextHandle := rfl
@[simp] theorem modPort_evKeys : (s.modPort n f).evKeys = s.evKeys := rfl
@[simp] theorem modPort_evCounts : (s.modPort n f).evCounts = s.evCounts := rfl
@[simp] theorem modPort_evToPush : (s.modPort n f).evToPush = s.evToPush := rfl
@[simp] theorem modPort_alertLow : (s.modPort n f).alertLow = s.alertLow := rfl
@[simp] theorem modPort_carmineNow : (s.modPort n f).carmineNow = s.carmineNow := rfl
@[simp] theorem modPort_rings : (s.modPort n f).rings = s.rings := rfl
@[simp] theorem modPort_trap : (s.modPort n f).trap = s.trap := rfl
@[simp] theorem modPort_links : (s.modPort n f).links = s.links := rfl
@[simp] theorem modPort_time : (s.modPort n f).time = s.time := rfl
@[simp] theorem modPort_trigs : (s.modPort n f).trigs = s.trigs := rfl
@[simp] theorem modPort_srcEdges : (s.modPort n f).srcEdges = s.srcEdges := rfl
@[simp] theorem modPort_tius : (s.modPort n f).tius = s.tius := rfl
@[simp] theorem modPort_marks : (s.modPort n f).marks = s.marks := rfl
@[simp] theorem modPort_markNo : (s.modPort n f).markNo = s.markNo := rfl
@[simp] theorem modPort_cal : (s.modPort n f).cal = s.cal := rfl
@[simp] theorem modPort_memu : (s.modPort n f).memu = s.memu := rfl
@[simp] theorem modPort_car : (s.modPort n f).car = s.car := rfl
@[simp] theorem modPort_hk : (s.modPort n f).hk = s.hk := rfl
@[simp] theorem modPort_sec : (s.modPort n f).sec = s.sec := rfl
@[simp] theorem modPort_nvm : (s.modPort n f).nvm = s.nvm := rfl
@[simp] theorem modPort_rst : (s.modPort n f).rst = s.rst := rfl
@[simp] theorem modPort_seqNo : (s.modPort n f).seqNo = s.seqNo := rfl
@[simp] theorem modPort_fwBad : (s.modPort n f).fwBad = s.fwBad := rfl
@[simp] theorem modPort_netNow : (s.modPort n f).netNow = s.netNow := rfl
@[simp] theorem modPort_macOwn : (s.modPort n f).macOwn = s.macOwn := rfl
@[simp] theorem modPort_macWritten : (s.modPort n f).macWritten = s.macWritten := rfl
@[simp] theorem modPort_calBad : (s.modPort n f).calBad = s.calBad := rfl
@[simp] theorem modPort_freeCtr : (s.modPort n f).freeCtr = s.freeCtr := rfl
@[simp] theorem modPort_pending : (s.modPort n f).pending = s.pending := rfl
end

/-! ### modLink -/

section
variable (s : State) (n : Nat) (f : Link → Link)
@[simp] theorem modLink_beat : (s.modLink n f).beat = s.beat := rfl
@[simp] theorem modLink_regs : (s.modLink n f).regs = s.regs := rfl
@[simp] theorem modLink_mem : (s.modLink n f).mem = s.mem := rfl
@[simp] theorem modLink_sess : (s.modLink n f).sess = s.sess := rfl
@[simp] theorem modLink_ports : (s.modLink n f).ports = s.ports := rfl
@[simp] theorem modLink_resp : (s.modLink n f).resp = s.resp := rfl
@[simp] theorem modLink_resume : (s.modLink n f).resume = s.resume := rfl
@[simp] theorem modLink_held : (s.modLink n f).held = s.held := rfl
@[simp] theorem modLink_curPort : (s.modLink n f).curPort = s.curPort := rfl
@[simp] theorem modLink_beatWrites : (s.modLink n f).beatWrites = s.beatWrites := rfl
@[simp] theorem modLink_beatSets : (s.modLink n f).beatSets = s.beatSets := rfl
@[simp] theorem modLink_sched : (s.modLink n f).sched = s.sched := rfl
@[simp] theorem modLink_nextHandle : (s.modLink n f).nextHandle = s.nextHandle := rfl
@[simp] theorem modLink_evKeys : (s.modLink n f).evKeys = s.evKeys := rfl
@[simp] theorem modLink_evCounts : (s.modLink n f).evCounts = s.evCounts := rfl
@[simp] theorem modLink_evToPush : (s.modLink n f).evToPush = s.evToPush := rfl
@[simp] theorem modLink_alertLow : (s.modLink n f).alertLow = s.alertLow := rfl
@[simp] theorem modLink_carmineNow : (s.modLink n f).carmineNow = s.carmineNow := rfl
@[simp] theorem modLink_rings : (s.modLink n f).rings = s.rings := rfl
@[simp] theorem modLink_trap : (s.modLink n f).trap = s.trap := rfl
@[simp] theorem modLink_links : (s.modLink n f).links = s.links.modify n f := rfl
@[simp] theorem modLink_time : (s.modLink n f).time = s.time := rfl
@[simp] theorem modLink_trigs : (s.modLink n f).trigs = s.trigs := rfl
@[simp] theorem modLink_srcEdges : (s.modLink n f).srcEdges = s.srcEdges := rfl
@[simp] theorem modLink_tius : (s.modLink n f).tius = s.tius := rfl
@[simp] theorem modLink_marks : (s.modLink n f).marks = s.marks := rfl
@[simp] theorem modLink_markNo : (s.modLink n f).markNo = s.markNo := rfl
@[simp] theorem modLink_cal : (s.modLink n f).cal = s.cal := rfl
@[simp] theorem modLink_memu : (s.modLink n f).memu = s.memu := rfl
@[simp] theorem modLink_car : (s.modLink n f).car = s.car := rfl
@[simp] theorem modLink_hk : (s.modLink n f).hk = s.hk := rfl
@[simp] theorem modLink_sec : (s.modLink n f).sec = s.sec := rfl
@[simp] theorem modLink_nvm : (s.modLink n f).nvm = s.nvm := rfl
@[simp] theorem modLink_rst : (s.modLink n f).rst = s.rst := rfl
@[simp] theorem modLink_seqNo : (s.modLink n f).seqNo = s.seqNo := rfl
@[simp] theorem modLink_fwBad : (s.modLink n f).fwBad = s.fwBad := rfl
@[simp] theorem modLink_netNow : (s.modLink n f).netNow = s.netNow := rfl
@[simp] theorem modLink_macOwn : (s.modLink n f).macOwn = s.macOwn := rfl
@[simp] theorem modLink_macWritten : (s.modLink n f).macWritten = s.macWritten := rfl
@[simp] theorem modLink_calBad : (s.modLink n f).calBad = s.calBad := rfl
@[simp] theorem modLink_freeCtr : (s.modLink n f).freeCtr = s.freeCtr := rfl
@[simp] theorem modLink_pending : (s.modLink n f).pending = s.pending := rfl
end

/-! ### modTrig -/

section
variable (s : State) (n : Nat) (f : Trig → Trig)
@[simp] theorem modTrig_beat : (s.modTrig n f).beat = s.beat := rfl
@[simp] theorem modTrig_regs : (s.modTrig n f).regs = s.regs := rfl
@[simp] theorem modTrig_mem : (s.modTrig n f).mem = s.mem := rfl
@[simp] theorem modTrig_sess : (s.modTrig n f).sess = s.sess := rfl
@[simp] theorem modTrig_ports : (s.modTrig n f).ports = s.ports := rfl
@[simp] theorem modTrig_resp : (s.modTrig n f).resp = s.resp := rfl
@[simp] theorem modTrig_resume : (s.modTrig n f).resume = s.resume := rfl
@[simp] theorem modTrig_held : (s.modTrig n f).held = s.held := rfl
@[simp] theorem modTrig_curPort : (s.modTrig n f).curPort = s.curPort := rfl
@[simp] theorem modTrig_beatWrites : (s.modTrig n f).beatWrites = s.beatWrites := rfl
@[simp] theorem modTrig_beatSets : (s.modTrig n f).beatSets = s.beatSets := rfl
@[simp] theorem modTrig_sched : (s.modTrig n f).sched = s.sched := rfl
@[simp] theorem modTrig_nextHandle : (s.modTrig n f).nextHandle = s.nextHandle := rfl
@[simp] theorem modTrig_evKeys : (s.modTrig n f).evKeys = s.evKeys := rfl
@[simp] theorem modTrig_evCounts : (s.modTrig n f).evCounts = s.evCounts := rfl
@[simp] theorem modTrig_evToPush : (s.modTrig n f).evToPush = s.evToPush := rfl
@[simp] theorem modTrig_alertLow : (s.modTrig n f).alertLow = s.alertLow := rfl
@[simp] theorem modTrig_carmineNow : (s.modTrig n f).carmineNow = s.carmineNow := rfl
@[simp] theorem modTrig_rings : (s.modTrig n f).rings = s.rings := rfl
@[simp] theorem modTrig_trap : (s.modTrig n f).trap = s.trap := rfl
@[simp] theorem modTrig_links : (s.modTrig n f).links = s.links := rfl
@[simp] theorem modTrig_time : (s.modTrig n f).time = s.time := rfl
@[simp] theorem modTrig_trigs : (s.modTrig n f).trigs = s.trigs.modify n f := rfl
@[simp] theorem modTrig_srcEdges : (s.modTrig n f).srcEdges = s.srcEdges := rfl
@[simp] theorem modTrig_tius : (s.modTrig n f).tius = s.tius := rfl
@[simp] theorem modTrig_marks : (s.modTrig n f).marks = s.marks := rfl
@[simp] theorem modTrig_markNo : (s.modTrig n f).markNo = s.markNo := rfl
@[simp] theorem modTrig_cal : (s.modTrig n f).cal = s.cal := rfl
@[simp] theorem modTrig_memu : (s.modTrig n f).memu = s.memu := rfl
@[simp] theorem modTrig_car : (s.modTrig n f).car = s.car := rfl
@[simp] theorem modTrig_hk : (s.modTrig n f).hk = s.hk := rfl
@[simp] theorem modTrig_sec : (s.modTrig n f).sec = s.sec := rfl
@[simp] theorem modTrig_nvm : (s.modTrig n f).nvm = s.nvm := rfl
@[simp] theorem modTrig_rst : (s.modTrig n f).rst = s.rst := rfl
@[simp] theorem modTrig_seqNo : (s.modTrig n f).seqNo = s.seqNo := rfl
@[simp] theorem modTrig_fwBad : (s.modTrig n f).fwBad = s.fwBad := rfl
@[simp] theorem modTrig_netNow : (s.modTrig n f).netNow = s.netNow := rfl
@[simp] theorem modTrig_macOwn : (s.modTrig n f).macOwn = s.macOwn := rfl
@[simp] theorem modTrig_macWritten : (s.modTrig n f).macWritten = s.macWritten := rfl
@[simp] theorem modTrig_calBad : (s.modTrig n f).calBad = s.calBad := rfl
@[simp] theorem modTrig_freeCtr : (s.modTrig n f).freeCtr = s.freeCtr := rfl
@[simp] theorem modTrig_pending : (s.modTrig n f).pending = s.pending := rfl
end

/-! ### modTiu -/

section
variable (s : State) (n : Nat) (f : Tiu → Tiu)
@[simp] theorem modTiu_beat : (s.modTiu n f).beat = s.beat := rfl
@[simp] theorem modTiu_regs : (s.modTiu n f).regs = s.regs := rfl
@[simp] theorem modTiu_mem : (s.modTiu n f).mem = s.mem := rfl
@[simp] theorem modTiu_sess : (s.modTiu n f).sess = s.sess := rfl
@[simp] theorem modTiu_ports : (s.modTiu n f).ports = s.ports := rfl
@[simp] theorem modTiu_resp : (s.modTiu n f).resp = s.resp := rfl
@[simp] theorem modTiu_resume : (s.modTiu n f).resume = s.resume := rfl
@[simp] theorem modTiu_held : (s.modTiu n f).held = s.held := rfl
@[simp] theorem modTiu_curPort : (s.modTiu n f).curPort = s.curPort := rfl
@[simp] theorem modTiu_beatWrites : (s.modTiu n f).beatWrites = s.beatWrites := rfl
@[simp] theorem modTiu_beatSets : (s.modTiu n f).beatSets = s.beatSets := rfl
@[simp] theorem modTiu_sched : (s.modTiu n f).sched = s.sched := rfl
@[simp] theorem modTiu_nextHandle : (s.modTiu n f).nextHandle = s.nextHandle := rfl
@[simp] theorem modTiu_evKeys : (s.modTiu n f).evKeys = s.evKeys := rfl
@[simp] theorem modTiu_evCounts : (s.modTiu n f).evCounts = s.evCounts := rfl
@[simp] theorem modTiu_evToPush : (s.modTiu n f).evToPush = s.evToPush := rfl
@[simp] theorem modTiu_alertLow : (s.modTiu n f).alertLow = s.alertLow := rfl
@[simp] theorem modTiu_carmineNow : (s.modTiu n f).carmineNow = s.carmineNow := rfl
@[simp] theorem modTiu_rings : (s.modTiu n f).rings = s.rings := rfl
@[simp] theorem modTiu_trap : (s.modTiu n f).trap = s.trap := rfl
@[simp] theorem modTiu_links : (s.modTiu n f).links = s.links := rfl
@[simp] theorem modTiu_time : (s.modTiu n f).time = s.time := rfl
@[simp] theorem modTiu_trigs : (s.modTiu n f).trigs = s.trigs := rfl
@[simp] theorem modTiu_srcEdges : (s.modTiu n f).srcEdges = s.srcEdges := rfl
@[simp] theorem modTiu_tius : (s.modTiu n f).tius = s.tius.modify n f := rfl
@[simp] theorem modTiu_marks : (s.modTiu n f).marks = s.marks := rfl
@[simp] theorem modTiu_markNo : (s.modTiu n f).markNo = s.markNo := rfl
@[simp] theorem modTiu_cal : (s.modTiu n f).cal = s.cal := rfl
@[simp] theorem modTiu_memu : (s.modTiu n f).memu = s.memu := rfl
@[simp] theorem modTiu_car : (s.modTiu n f).car = s.car := rfl
@[simp] theorem modTiu_hk : (s.modTiu n f).hk = s.hk := rfl
@[simp] theorem modTiu_sec : (s.modTiu n f).sec = s.sec := rfl
@[simp] theorem modTiu_nvm : (s.modTiu n f).nvm = s.nvm := rfl
@[simp] theorem modTiu_rst : (s.modTiu n f).rst = s.rst := rfl
@[simp] theorem modTiu_seqNo : (s.modTiu n f).seqNo = s.seqNo := rfl
@[simp] theorem modTiu_fwBad : (s.modTiu n f).fwBad = s.fwBad := rfl
@[simp] theorem modTiu_netNow : (s.modTiu n f).netNow = s.netNow := rfl
@[simp] theorem modTiu_macOwn : (s.modTiu n f).macOwn = s.macOwn := rfl
@[simp] theorem modTiu_macWritten : (s.modTiu n f).macWritten = s.macWritten := rfl
@[simp] theorem modTiu_calBad : (s.modTiu n f).calBad = s.calBad := rfl
@[simp] theorem modTiu_freeCtr : (s.modTiu n f).freeCtr = s.freeCtr := rfl
@[simp] theorem modTiu_pending : (s.modTiu n f).pending = s.pending := rfl
end

/-! ### modMark -/

section
variable (s : State) (n : Nat) (f : Mark → Mark)
@[simp] theorem modMark_beat : (s.modMark n f).beat = s.beat := rfl
@[simp] theorem modMark_regs : (s.modMark n f).regs = s.regs := rfl
@[simp] theorem modMark_mem : (s.modMark n f).mem = s.mem := rfl
@[simp] theorem modMark_sess : (s.modMark n f).sess = s.sess := rfl
@[simp] theorem modMark_ports : (s.modMark n f).ports = s.ports := rfl
@[simp] theorem modMark_resp : (s.modMark n f).resp = s.resp := rfl
@[simp] theorem modMark_resume : (s.modMark n f).resume = s.resume := rfl
@[simp] theorem modMark_held : (s.modMark n f).held = s.held := rfl
@[simp] theorem modMark_curPort : (s.modMark n f).curPort = s.curPort := rfl
@[simp] theorem modMark_beatWrites : (s.modMark n f).beatWrites = s.beatWrites := rfl
@[simp] theorem modMark_beatSets : (s.modMark n f).beatSets = s.beatSets := rfl
@[simp] theorem modMark_sched : (s.modMark n f).sched = s.sched := rfl
@[simp] theorem modMark_nextHandle : (s.modMark n f).nextHandle = s.nextHandle := rfl
@[simp] theorem modMark_evKeys : (s.modMark n f).evKeys = s.evKeys := rfl
@[simp] theorem modMark_evCounts : (s.modMark n f).evCounts = s.evCounts := rfl
@[simp] theorem modMark_evToPush : (s.modMark n f).evToPush = s.evToPush := rfl
@[simp] theorem modMark_alertLow : (s.modMark n f).alertLow = s.alertLow := rfl
@[simp] theorem modMark_carmineNow : (s.modMark n f).carmineNow = s.carmineNow := rfl
@[simp] theorem modMark_rings : (s.modMark n f).rings = s.rings := rfl
@[simp] theorem modMark_trap : (s.modMark n f).trap = s.trap := rfl
@[simp] theorem modMark_links : (s.modMark n f).links = s.links := rfl
@[simp] theorem modMark_time : (s.modMark n f).time = s.time := rfl
@[simp] theorem modMark_trigs : (s.modMark n f).trigs = s.trigs := rfl
@[simp] theorem modMark_srcEdges : (s.modMark n f).srcEdges = s.srcEdges := rfl
@[simp] theorem modMark_tius : (s.modMark n f).tius = s.tius := rfl
@[simp] theorem modMark_marks : (s.modMark n f).marks = s.marks.modify n f := rfl
@[simp] theorem modMark_markNo : (s.modMark n f).markNo = s.markNo := rfl
@[simp] theorem modMark_cal : (s.modMark n f).cal = s.cal := rfl
@[simp] theorem modMark_memu : (s.modMark n f).memu = s.memu := rfl
@[simp] theorem modMark_car : (s.modMark n f).car = s.car := rfl
@[simp] theorem modMark_hk : (s.modMark n f).hk = s.hk := rfl
@[simp] theorem modMark_sec : (s.modMark n f).sec = s.sec := rfl
@[simp] theorem modMark_nvm : (s.modMark n f).nvm = s.nvm := rfl
@[simp] theorem modMark_rst : (s.modMark n f).rst = s.rst := rfl
@[simp] theorem modMark_seqNo : (s.modMark n f).seqNo = s.seqNo := rfl
@[simp] theorem modMark_fwBad : (s.modMark n f).fwBad = s.fwBad := rfl
@[simp] theorem modMark_netNow : (s.modMark n f).netNow = s.netNow := rfl
@[simp] theorem modMark_macOwn : (s.modMark n f).macOwn = s.macOwn := rfl
@[simp] theorem modMark_macWritten : (s.modMark n f).macWritten = s.macWritten := rfl
@[simp] theorem modMark_calBad : (s.modMark n f).calBad = s.calBad := rfl
@[simp] theorem modMark_freeCtr : (s.modMark n f).freeCtr = s.freeCtr := rfl
@[simp] theorem modMark_pending : (s.modMark n f).pending = s.pending := rfl
end

/-! ### modCar -/

section
variable (s : State) (n : Nat) (f : CarSlot → CarSlot)
@[simp] theorem modCar_beat : (s.modCar n f).beat = s.beat := rfl
@[simp] theorem modCar_regs : (s.modCar n f).regs = s.regs := rfl
@[simp] theorem modCar_mem : (s.modCar n f).mem = s.mem := rfl
@[simp] theorem modCar_sess : (s.modCar n f).sess = s.sess := rfl
@[simp] theorem modCar_ports : (s.modCar n f).ports = s.ports := rfl
@[simp] theorem modCar_resp : (s.modCar n f).resp = s.resp := rfl
@[simp] theorem modCar_resume : (s.modCar n f).resume = s.resume := rfl
@[simp] theorem modCar_held : (s.modCar n f).held = s.held := rfl
@[simp] theorem modCar_curPort : (s.modCar n f).curPort = s.curPort := rfl
@[simp] theorem modCar_beatWrites : (s.modCar n f).beatWrites = s.beatWrites := rfl
@[simp] theorem modCar_beatSets : (s.modCar n f).beatSets = s.beatSets := rfl
@[simp] theorem modCar_sched : (s.modCar n f).sched = s.sched := rfl
@[simp] theorem modCar_nextHandle : (s.modCar n f).nextHandle = s.nextHandle := rfl
@[simp] theorem modCar_evKeys : (s.modCar n f).evKeys = s.evKeys := rfl
@[simp] theorem modCar_evCounts : (s.modCar n f).evCounts = s.evCounts := rfl
@[simp] theorem modCar_evToPush : (s.modCar n f).evToPush = s.evToPush := rfl
@[simp] theorem modCar_alertLow : (s.modCar n f).alertLow = s.alertLow := rfl
@[simp] theorem modCar_carmineNow : (s.modCar n f).carmineNow = s.carmineNow := rfl
@[simp] theorem modCar_rings : (s.modCar n f).rings = s.rings := rfl
@[simp] theorem modCar_trap : (s.modCar n f).trap = s.trap := rfl
@[simp] theorem modCar_links : (s.modCar n f).links = s.links := rfl
@[simp] theorem modCar_time : (s.modCar n f).time = s.time := rfl
@[simp] theorem modCar_trigs : (s.modCar n f).trigs = s.trigs := rfl
@[simp] theorem modCar_srcEdges : (s.modCar n f).srcEdges = s.srcEdges := rfl
@[simp] theorem modCar_tius : (s.modCar n f).tius = s.tius := rfl
@[simp] theorem modCar_marks : (s.modCar n f).marks = s.marks := rfl
@[simp] theorem modCar_markNo : (s.modCar n f).markNo = s.markNo := rfl
@[simp] theorem modCar_cal : (s.modCar n f).cal = s.cal := rfl
@[simp] theorem modCar_memu : (s.modCar n f).memu = s.memu := rfl
@[simp] theorem modCar_car : (s.modCar n f).car = s.car.modify n f := rfl
@[simp] theorem modCar_hk : (s.modCar n f).hk = s.hk := rfl
@[simp] theorem modCar_sec : (s.modCar n f).sec = s.sec := rfl
@[simp] theorem modCar_nvm : (s.modCar n f).nvm = s.nvm := rfl
@[simp] theorem modCar_rst : (s.modCar n f).rst = s.rst := rfl
@[simp] theorem modCar_seqNo : (s.modCar n f).seqNo = s.seqNo := rfl
@[simp] theorem modCar_fwBad : (s.modCar n f).fwBad = s.fwBad := rfl
@[simp] theorem modCar_netNow : (s.modCar n f).netNow = s.netNow := rfl
@[simp] theorem modCar_macOwn : (s.modCar n f).macOwn = s.macOwn := rfl
@[simp] theorem modCar_macWritten : (s.modCar n f).macWritten = s.macWritten := rfl
@[simp] theorem modCar_calBad : (s.modCar n f).calBad = s.calBad := rfl
@[simp] theorem modCar_freeCtr : (s.modCar n f).freeCtr = s.freeCtr := rfl
@[simp] theorem modCar_pending : (s.modCar n f).pending = s.pending := rfl
end

/-! ### modBar -/

section
variable (s : State) (n : Nat) (f : Barrier → Barrier)
@[simp] theorem modBar_beat : (s.modBar n f).beat = s.beat := rfl
@[simp] theorem modBar_regs : (s.modBar n f).regs = s.regs := rfl
@[simp] theorem modBar_mem : (s.modBar n f).mem = s.mem := rfl
@[simp] theorem modBar_sess : (s.modBar n f).sess = s.sess := rfl
@[simp] theorem modBar_ports : (s.modBar n f).ports = s.ports := rfl
@[simp] theorem modBar_resp : (s.modBar n f).resp = s.resp := rfl
@[simp] theorem modBar_resume : (s.modBar n f).resume = s.resume := rfl
@[simp] theorem modBar_held : (s.modBar n f).held = s.held := rfl
@[simp] theorem modBar_curPort : (s.modBar n f).curPort = s.curPort := rfl
@[simp] theorem modBar_beatWrites : (s.modBar n f).beatWrites = s.beatWrites := rfl
@[simp] theorem modBar_beatSets : (s.modBar n f).beatSets = s.beatSets := rfl
@[simp] theorem modBar_sched : (s.modBar n f).sched = s.sched := rfl
@[simp] theorem modBar_nextHandle : (s.modBar n f).nextHandle = s.nextHandle := rfl
@[simp] theorem modBar_evKeys : (s.modBar n f).evKeys = s.evKeys := rfl
@[simp] theorem modBar_evCounts : (s.modBar n f).evCounts = s.evCounts := rfl
@[simp] theorem modBar_evToPush : (s.modBar n f).evToPush = s.evToPush := rfl
@[simp] theorem modBar_alertLow : (s.modBar n f).alertLow = s.alertLow := rfl
@[simp] theorem modBar_carmineNow : (s.modBar n f).carmineNow = s.carmineNow := rfl
@[simp] theorem modBar_rings : (s.modBar n f).rings = s.rings := rfl
@[simp] theorem modBar_trap : (s.modBar n f).trap = { s.trap with bars := s.trap.bars.modify n f } := rfl
@[simp] theorem modBar_links : (s.modBar n f).links = s.links := rfl
@[simp] theorem modBar_time : (s.modBar n f).time = s.time := rfl
@[simp] theorem modBar_trigs : (s.modBar n f).trigs = s.trigs := rfl
@[simp] theorem modBar_srcEdges : (s.modBar n f).srcEdges = s.srcEdges := rfl
@[simp] theorem modBar_tius : (s.modBar n f).tius = s.tius := rfl
@[simp] theorem modBar_marks : (s.modBar n f).marks = s.marks := rfl
@[simp] theorem modBar_markNo : (s.modBar n f).markNo = s.markNo := rfl
@[simp] theorem modBar_cal : (s.modBar n f).cal = s.cal := rfl
@[simp] theorem modBar_memu : (s.modBar n f).memu = s.memu := rfl
@[simp] theorem modBar_car : (s.modBar n f).car = s.car := rfl
@[simp] theorem modBar_hk : (s.modBar n f).hk = s.hk := rfl
@[simp] theorem modBar_sec : (s.modBar n f).sec = s.sec := rfl
@[simp] theorem modBar_nvm : (s.modBar n f).nvm = s.nvm := rfl
@[simp] theorem modBar_rst : (s.modBar n f).rst = s.rst := rfl
@[simp] theorem modBar_seqNo : (s.modBar n f).seqNo = s.seqNo := rfl
@[simp] theorem modBar_fwBad : (s.modBar n f).fwBad = s.fwBad := rfl
@[simp] theorem modBar_netNow : (s.modBar n f).netNow = s.netNow := rfl
@[simp] theorem modBar_macOwn : (s.modBar n f).macOwn = s.macOwn := rfl
@[simp] theorem modBar_macWritten : (s.modBar n f).macWritten = s.macWritten := rfl
@[simp] theorem modBar_calBad : (s.modBar n f).calBad = s.calBad := rfl
@[simp] theorem modBar_freeCtr : (s.modBar n f).freeCtr = s.freeCtr := rfl
@[simp] theorem modBar_pending : (s.modBar n f).pending = s.pending := rfl
end

/-! ### modNvm -/

section
variable (s : State) (f : Nvm → Nvm)
@[simp] theorem modNvm_beat : (s.modNvm f).beat = s.beat := rfl
@[simp] theorem modNvm_regs : (s.modNvm f).regs = s.regs := rfl
@[simp] theorem modNvm_mem : (s.modNvm f).mem = s.mem := rfl
@[simp] theorem modNvm_sess : (s.modNvm f).sess = s.sess := rfl
@[simp] theorem modNvm_ports : (s.modNvm f).ports = s.ports := rfl
@[simp] theorem modNvm_resp : (s.modNvm f).resp = s.resp := rfl
@[simp] theorem modNvm_resume : (s.modNvm f).resume = s.resume := rfl
@[simp] theorem modNvm_held : (s.modNvm f).held = s.held := rfl
@[simp] theorem modNvm_curPort : (s.modNvm f).curPort = s.curPort := rfl
@[simp] theorem modNvm_beatWrites : (s.modNvm f).beatWrites = s.beatWrites := rfl
@[simp] theorem modNvm_beatSets : (s.modNvm f).beatSets = s.beatSets := rfl
@[simp] theorem modNvm_sched : (s.modNvm f).sched = s.sched := rfl
@[simp] theorem modNvm_nextHandle : (s.modNvm f).nextHandle = s.nextHandle := rfl
@[simp] theorem modNvm_evKeys : (s.modNvm f).evKeys = s.evKeys := rfl
@[simp] theorem modNvm_evCounts : (s.modNvm f).evCounts = s.evCounts := rfl
@[simp] theorem modNvm_evToPush : (s.modNvm f).evToPush = s.evToPush := rfl
@[simp] theorem modNvm_alertLow : (s.modNvm f).alertLow = s.alertLow := rfl
@[simp] theorem modNvm_carmineNow : (s.modNvm f).carmineNow = s.carmineNow := rfl
@[simp] theorem modNvm_rings : (s.modNvm f).rings = s.rings := rfl
@[simp] theorem modNvm_trap : (s.modNvm f).trap = s.trap := rfl
@[simp] theorem modNvm_links : (s.modNvm f).links = s.links := rfl
@[simp] theorem modNvm_time : (s.modNvm f).time = s.time := rfl
@[simp] theorem modNvm_trigs : (s.modNvm f).trigs = s.trigs := rfl
@[simp] theorem modNvm_srcEdges : (s.modNvm f).srcEdges = s.srcEdges := rfl
@[simp] theorem modNvm_tius : (s.modNvm f).tius = s.tius := rfl
@[simp] theorem modNvm_marks : (s.modNvm f).marks = s.marks := rfl
@[simp] theorem modNvm_markNo : (s.modNvm f).markNo = s.markNo := rfl
@[simp] theorem modNvm_cal : (s.modNvm f).cal = s.cal := rfl
@[simp] theorem modNvm_memu : (s.modNvm f).memu = s.memu := rfl
@[simp] theorem modNvm_car : (s.modNvm f).car = s.car := rfl
@[simp] theorem modNvm_hk : (s.modNvm f).hk = s.hk := rfl
@[simp] theorem modNvm_sec : (s.modNvm f).sec = s.sec := rfl
@[simp] theorem modNvm_nvm : (s.modNvm f).nvm = f s.nvm := rfl
@[simp] theorem modNvm_rst : (s.modNvm f).rst = s.rst := rfl
@[simp] theorem modNvm_seqNo : (s.modNvm f).seqNo = s.seqNo := rfl
@[simp] theorem modNvm_fwBad : (s.modNvm f).fwBad = s.fwBad := rfl
@[simp] theorem modNvm_netNow : (s.modNvm f).netNow = s.netNow := rfl
@[simp] theorem modNvm_macOwn : (s.modNvm f).macOwn = s.macOwn := rfl
@[simp] theorem modNvm_macWritten : (s.modNvm f).macWritten = s.macWritten := rfl
@[simp] theorem modNvm_calBad : (s.modNvm f).calBad = s.calBad := rfl
@[simp] theorem modNvm_freeCtr : (s.modNvm f).freeCtr = s.freeCtr := rfl
@[simp] theorem modNvm_pending : (s.modNvm f).pending = s.pending := rfl
end

/-! ### modRst -/

section
variable (s : State) (f : Rst → Rst)
@[simp] theorem modRst_beat : (s.modRst f).beat = s.beat := rfl
@[simp] theorem modRst_regs : (s.modRst f).regs = s.regs := rfl
@[simp] theorem modRst_mem : (s.modRst f).mem = s.mem := rfl
@[simp] theorem modRst_sess : (s.modRst f).sess = s.sess := rfl
@[simp] theorem modRst_ports : (s.modRst f).ports = s.ports := rfl
@[simp] theorem modRst_resp : (s.modRst f).resp = s.resp := rfl
@[simp] theorem modRst_resume : (s.modRst f).resume = s.resume := rfl
@[simp] theorem modRst_held : (s.modRst f).held = s.held := rfl
@[simp] theorem modRst_curPort : (s.modRst f).curPort = s.curPort := rfl
@[simp] theorem modRst_beatWrites : (s.modRst f).beatWrites = s.beatWrites := rfl
@[simp] theorem modRst_beatSets : (s.modRst f).beatSets = s.beatSets := rfl
@[simp] theorem modRst_sched : (s.modRst f).sched = s.sched := rfl
@[simp] theorem modRst_nextHandle : (s.modRst f).nextHandle = s.nextHandle := rfl
@[simp] theorem modRst_evKeys : (s.modRst f).evKeys = s.evKeys := rfl
@[simp] theorem modRst_evCounts : (s.modRst f).evCounts = s.evCounts := rfl
@[simp] theorem modRst_evToPush : (s.modRst f).evToPush = s.evToPush := rfl
@[simp] theorem modRst_alertLow : (s.modRst f).alertLow = s.alertLow := rfl
@[simp] theorem modRst_carmineNow : (s.modRst f).carmineNow = s.carmineNow := rfl
@[simp] theorem modRst_rings : (s.modRst f).rings = s.rings := rfl
@[simp] theorem modRst_trap : (s.modRst f).trap = s.trap := rfl
@[simp] theorem modRst_links : (s.modRst f).links = s.links := rfl
@[simp] theorem modRst_time : (s.modRst f).time = s.time := rfl
@[simp] theorem modRst_trigs : (s.modRst f).trigs = s.trigs := rfl
@[simp] theorem modRst_srcEdges : (s.modRst f).srcEdges = s.srcEdges := rfl
@[simp] theorem modRst_tius : (s.modRst f).tius = s.tius := rfl
@[simp] theorem modRst_marks : (s.modRst f).marks = s.marks := rfl
@[simp] theorem modRst_markNo : (s.modRst f).markNo = s.markNo := rfl
@[simp] theorem modRst_cal : (s.modRst f).cal = s.cal := rfl
@[simp] theorem modRst_memu : (s.modRst f).memu = s.memu := rfl
@[simp] theorem modRst_car : (s.modRst f).car = s.car := rfl
@[simp] theorem modRst_hk : (s.modRst f).hk = s.hk := rfl
@[simp] theorem modRst_sec : (s.modRst f).sec = s.sec := rfl
@[simp] theorem modRst_nvm : (s.modRst f).nvm = s.nvm := rfl
@[simp] theorem modRst_rst : (s.modRst f).rst = f s.rst := rfl
@[simp] theorem modRst_seqNo : (s.modRst f).seqNo = s.seqNo := rfl
@[simp] theorem modRst_fwBad : (s.modRst f).fwBad = s.fwBad := rfl
@[simp] theorem modRst_netNow : (s.modRst f).netNow = s.netNow := rfl
@[simp] theorem modRst_macOwn : (s.modRst f).macOwn = s.macOwn := rfl
@[simp] theorem modRst_macWritten : (s.modRst f).macWritten = s.macWritten := rfl
@[simp] theorem modRst_calBad : (s.modRst f).calBad = s.calBad := rfl
@[simp] theorem modRst_freeCtr : (s.modRst f).freeCtr = s.freeCtr := rfl
@[simp] theorem modRst_pending : (s.modRst f).pending = s.pending := rfl
end

/-! ### modSec -/

section
variable (s : State) (f : SecUnit → SecUnit)
@[simp] theorem modSec_beat : (s.modSec f).beat = s.beat := rfl
@[simp] theorem modSec_regs : (s.modSec f).regs = s.regs := rfl
@[simp] theorem modSec_mem : (s.modSec f).mem = s.mem := rfl
@[simp] theorem modSec_sess : (s.modSec f).sess = s.sess := rfl
@[simp] theorem modSec_ports : (s.modSec f).ports = s.ports := rfl
@[simp] theorem modSec_resp : (s.modSec f).resp = s.resp := rfl
@[simp] theorem modSec_resume : (s.modSec f).resume = s.resume := rfl
@[simp] theorem modSec_held : (s.modSec f).held = s.held := rfl
@[simp] theorem modSec_curPort : (s.modSec f).curPort = s.curPort := rfl
@[simp] theorem modSec_beatWrites : (s.modSec f).beatWrites = s.beatWrites := rfl
@[simp] theorem modSec_beatSets : (s.modSec f).beatSets = s.beatSets := rfl
@[simp] theorem modSec_sched : (s.modSec f).sched = s.sched := rfl
@[simp] theorem modSec_nextHandle : (s.modSec f).nextHandle = s.nextHandle := rfl
@[simp] theorem modSec_evKeys : (s.modSec f).evKeys = s.evKeys := rfl
@[simp] theorem modSec_evCounts : (s.modSec f).evCounts = s.evCounts := rfl
@[simp] theorem modSec_evToPush : (s.modSec f).evToPush = s.evToPush := rfl
@[simp] theorem modSec_alertLow : (s.modSec f).alertLow = s.alertLow := rfl
@[simp] theorem modSec_carmineNow : (s.modSec f).carmineNow = s.carmineNow := rfl
@[simp] theorem modSec_rings : (s.modSec f).rings = s.rings := rfl
@[simp] theorem modSec_trap : (s.modSec f).trap = s.trap := rfl
@[simp] theorem modSec_links : (s.modSec f).links = s.links := rfl
@[simp] theorem modSec_time : (s.modSec f).time = s.time := rfl
@[simp] theorem modSec_trigs : (s.modSec f).trigs = s.trigs := rfl
@[simp] theorem modSec_srcEdges : (s.modSec f).srcEdges = s.srcEdges := rfl
@[simp] theorem modSec_tius : (s.modSec f).tius = s.tius := rfl
@[simp] theorem modSec_marks : (s.modSec f).marks = s.marks := rfl
@[simp] theorem modSec_markNo : (s.modSec f).markNo = s.markNo := rfl
@[simp] theorem modSec_cal : (s.modSec f).cal = s.cal := rfl
@[simp] theorem modSec_memu : (s.modSec f).memu = s.memu := rfl
@[simp] theorem modSec_car : (s.modSec f).car = s.car := rfl
@[simp] theorem modSec_hk : (s.modSec f).hk = s.hk := rfl
@[simp] theorem modSec_sec : (s.modSec f).sec = f s.sec := rfl
@[simp] theorem modSec_nvm : (s.modSec f).nvm = s.nvm := rfl
@[simp] theorem modSec_rst : (s.modSec f).rst = s.rst := rfl
@[simp] theorem modSec_seqNo : (s.modSec f).seqNo = s.seqNo := rfl
@[simp] theorem modSec_fwBad : (s.modSec f).fwBad = s.fwBad := rfl
@[simp] theorem modSec_netNow : (s.modSec f).netNow = s.netNow := rfl
@[simp] theorem modSec_macOwn : (s.modSec f).macOwn = s.macOwn := rfl
@[simp] theorem modSec_macWritten : (s.modSec f).macWritten = s.macWritten := rfl
@[simp] theorem modSec_calBad : (s.modSec f).calBad = s.calBad := rfl
@[simp] theorem modSec_freeCtr : (s.modSec f).freeCtr = s.freeCtr := rfl
@[simp] theorem modSec_pending : (s.modSec f).pending = s.pending := rfl
end

/-! ### modTime -/

section
variable (s : State) (f : Timing → Timing)
@[simp] theorem modTime_beat : (s.modTime f).beat = s.beat := rfl
@[simp] theorem modTime_regs : (s.modTime f).regs = s.regs := rfl
@[simp] theorem modTime_mem : (s.modTime f).mem = s.mem := rfl
@[simp] theorem modTime_sess : (s.modTime f).sess = s.sess := rfl
@[simp] theorem modTime_ports : (s.modTime f).ports = s.ports := rfl
@[simp] theorem modTime_resp : (s.modTime f).resp = s.resp := rfl
@[simp] theorem modTime_resume : (s.modTime f).resume = s.resume := rfl
@[simp] theorem modTime_held : (s.modTime f).held = s.held := rfl
@[simp] theorem modTime_curPort : (s.modTime f).curPort = s.curPort := rfl
@[simp] theorem modTime_beatWrites : (s.modTime f).beatWrites = s.beatWrites := rfl
@[simp] theorem modTime_beatSets : (s.modTime f).beatSets = s.beatSets := rfl
@[simp] theorem modTime_sched : (s.modTime f).sched = s.sched := rfl
@[simp] theorem modTime_nextHandle : (s.modTime f).nextHandle = s.nextHandle := rfl
@[simp] theorem modTime_evKeys : (s.modTime f).evKeys = s.evKeys := rfl
@[simp] theorem modTime_evCounts : (s.modTime f).evCounts = s.evCounts := rfl
@[simp] theorem modTime_evToPush : (s.modTime f).evToPush = s.evToPush := rfl
@[simp] theorem modTime_alertLow : (s.modTime f).alertLow = s.alertLow := rfl
@[simp] theorem modTime_carmineNow : (s.modTime f).carmineNow = s.carmineNow := rfl
@[simp] theorem modTime_rings : (s.modTime f).rings = s.rings := rfl
@[simp] theorem modTime_trap : (s.modTime f).trap = s.trap := rfl
@[simp] theorem modTime_links : (s.modTime f).links = s.links := rfl
@[simp] theorem modTime_time : (s.modTime f).time = f s.time := rfl
@[simp] theorem modTime_trigs : (s.modTime f).trigs = s.trigs := rfl
@[simp] theorem modTime_srcEdges : (s.modTime f).srcEdges = s.srcEdges := rfl
@[simp] theorem modTime_tius : (s.modTime f).tius = s.tius := rfl
@[simp] theorem modTime_marks : (s.modTime f).marks = s.marks := rfl
@[simp] theorem modTime_markNo : (s.modTime f).markNo = s.markNo := rfl
@[simp] theorem modTime_cal : (s.modTime f).cal = s.cal := rfl
@[simp] theorem modTime_memu : (s.modTime f).memu = s.memu := rfl
@[simp] theorem modTime_car : (s.modTime f).car = s.car := rfl
@[simp] theorem modTime_hk : (s.modTime f).hk = s.hk := rfl
@[simp] theorem modTime_sec : (s.modTime f).sec = s.sec := rfl
@[simp] theorem modTime_nvm : (s.modTime f).nvm = s.nvm := rfl
@[simp] theorem modTime_rst : (s.modTime f).rst = s.rst := rfl
@[simp] theorem modTime_seqNo : (s.modTime f).seqNo = s.seqNo := rfl
@[simp] theorem modTime_fwBad : (s.modTime f).fwBad = s.fwBad := rfl
@[simp] theorem modTime_netNow : (s.modTime f).netNow = s.netNow := rfl
@[simp] theorem modTime_macOwn : (s.modTime f).macOwn = s.macOwn := rfl
@[simp] theorem modTime_macWritten : (s.modTime f).macWritten = s.macWritten := rfl
@[simp] theorem modTime_calBad : (s.modTime f).calBad = s.calBad := rfl
@[simp] theorem modTime_freeCtr : (s.modTime f).freeCtr = s.freeCtr := rfl
@[simp] theorem modTime_pending : (s.modTime f).pending = s.pending := rfl
end

/-! ### modMemu -/

section
variable (s : State) (f : MemUnit → MemUnit)
@[simp] theorem modMemu_beat : (s.modMemu f).beat = s.beat := rfl
@[simp] theorem modMemu_regs : (s.modMemu f).regs = s.regs := rfl
@[simp] theorem modMemu_mem : (s.modMemu f).mem = s.mem := rfl
@[simp] theorem modMemu_sess : (s.modMemu f).sess = s.sess := rfl
@[simp] theorem modMemu_ports : (s.modMemu f).ports = s.ports := rfl
@[simp] theorem modMemu_resp : (s.modMemu f).resp = s.resp := rfl
@[simp] theorem modMemu_resume : (s.modMemu f).resume = s.resume := rfl
@[simp] theorem modMemu_held : (s.modMemu f).held = s.held := rfl
@[simp] theorem modMemu_curPort : (s.modMemu f).curPort = s.curPort := rfl
@[simp] theorem modMemu_beatWrites : (s.modMemu f).beatWrites = s.beatWrites := rfl
@[simp] theorem modMemu_beatSets : (s.modMemu f).beatSets = s.beatSets := rfl
@[simp] theorem modMemu_sched : (s.modMemu f).sched = s.sched := rfl
@[simp] theorem modMemu_nextHandle : (s.modMemu f).nextHandle = s.nextHandle := rfl
@[simp] theorem modMemu_evKeys : (s.modMemu f).evKeys = s.evKeys := rfl
@[simp] theorem modMemu_evCounts : (s.modMemu f).evCounts = s.evCounts := rfl
@[simp] theorem modMemu_evToPush : (s.modMemu f).evToPush = s.evToPush := rfl
@[simp] theorem modMemu_alertLow : (s.modMemu f).alertLow = s.alertLow := rfl
@[simp] theorem modMemu_carmineNow : (s.modMemu f).carmineNow = s.carmineNow := rfl
@[simp] theorem modMemu_rings : (s.modMemu f).rings = s.rings := rfl
@[simp] theorem modMemu_trap : (s.modMemu f).trap = s.trap := rfl
@[simp] theorem modMemu_links : (s.modMemu f).links = s.links := rfl
@[simp] theorem modMemu_time : (s.modMemu f).time = s.time := rfl
@[simp] theorem modMemu_trigs : (s.modMemu f).trigs = s.trigs := rfl
@[simp] theorem modMemu_srcEdges : (s.modMemu f).srcEdges = s.srcEdges := rfl
@[simp] theorem modMemu_tius : (s.modMemu f).tius = s.tius := rfl
@[simp] theorem modMemu_marks : (s.modMemu f).marks = s.marks := rfl
@[simp] theorem modMemu_markNo : (s.modMemu f).markNo = s.markNo := rfl
@[simp] theorem modMemu_cal : (s.modMemu f).cal = s.cal := rfl
@[simp] theorem modMemu_memu : (s.modMemu f).memu = f s.memu := rfl
@[simp] theorem modMemu_car : (s.modMemu f).car = s.car := rfl
@[simp] theorem modMemu_hk : (s.modMemu f).hk = s.hk := rfl
@[simp] theorem modMemu_sec : (s.modMemu f).sec = s.sec := rfl
@[simp] theorem modMemu_nvm : (s.modMemu f).nvm = s.nvm := rfl
@[simp] theorem modMemu_rst : (s.modMemu f).rst = s.rst := rfl
@[simp] theorem modMemu_seqNo : (s.modMemu f).seqNo = s.seqNo := rfl
@[simp] theorem modMemu_fwBad : (s.modMemu f).fwBad = s.fwBad := rfl
@[simp] theorem modMemu_netNow : (s.modMemu f).netNow = s.netNow := rfl
@[simp] theorem modMemu_macOwn : (s.modMemu f).macOwn = s.macOwn := rfl
@[simp] theorem modMemu_macWritten : (s.modMemu f).macWritten = s.macWritten := rfl
@[simp] theorem modMemu_calBad : (s.modMemu f).calBad = s.calBad := rfl
@[simp] theorem modMemu_freeCtr : (s.modMemu f).freeCtr = s.freeCtr := rfl
@[simp] theorem modMemu_pending : (s.modMemu f).pending = s.pending := rfl
end

/-! ### modCal -/

section
variable (s : State) (f : CalUnit → CalUnit)
@[simp] theorem modCal_beat : (s.modCal f).beat = s.beat := rfl
@[simp] theorem modCal_regs : (s.modCal f).regs = s.regs := rfl
@[simp] theorem modCal_mem : (s.modCal f).mem = s.mem := rfl
@[simp] theorem modCal_sess : (s.modCal f).sess = s.sess := rfl
@[simp] theorem modCal_ports : (s.modCal f).ports = s.ports := rfl
@[simp] theorem modCal_resp : (s.modCal f).resp = s.resp := rfl
@[simp] theorem modCal_resume : (s.modCal f).resume = s.resume := rfl
@[simp] theorem modCal_held : (s.modCal f).held = s.held := rfl
@[simp] theorem modCal_curPort : (s.modCal f).curPort = s.curPort := rfl
@[simp] theorem modCal_beatWrites : (s.modCal f).beatWrites = s.beatWrites := rfl
@[simp] theorem modCal_beatSets : (s.modCal f).beatSets = s.beatSets := rfl
@[simp] theorem modCal_sched : (s.modCal f).sched = s.sched := rfl
@[simp] theorem modCal_nextHandle : (s.modCal f).nextHandle = s.nextHandle := rfl
@[simp] theorem modCal_evKeys : (s.modCal f).evKeys = s.evKeys := rfl
@[simp] theorem modCal_evCounts : (s.modCal f).evCounts = s.evCounts := rfl
@[simp] theorem modCal_evToPush : (s.modCal f).evToPush = s.evToPush := rfl
@[simp] theorem modCal_alertLow : (s.modCal f).alertLow = s.alertLow := rfl
@[simp] theorem modCal_carmineNow : (s.modCal f).carmineNow = s.carmineNow := rfl
@[simp] theorem modCal_rings : (s.modCal f).rings = s.rings := rfl
@[simp] theorem modCal_trap : (s.modCal f).trap = s.trap := rfl
@[simp] theorem modCal_links : (s.modCal f).links = s.links := rfl
@[simp] theorem modCal_time : (s.modCal f).time = s.time := rfl
@[simp] theorem modCal_trigs : (s.modCal f).trigs = s.trigs := rfl
@[simp] theorem modCal_srcEdges : (s.modCal f).srcEdges = s.srcEdges := rfl
@[simp] theorem modCal_tius : (s.modCal f).tius = s.tius := rfl
@[simp] theorem modCal_marks : (s.modCal f).marks = s.marks := rfl
@[simp] theorem modCal_markNo : (s.modCal f).markNo = s.markNo := rfl
@[simp] theorem modCal_cal : (s.modCal f).cal = f s.cal := rfl
@[simp] theorem modCal_memu : (s.modCal f).memu = s.memu := rfl
@[simp] theorem modCal_car : (s.modCal f).car = s.car := rfl
@[simp] theorem modCal_hk : (s.modCal f).hk = s.hk := rfl
@[simp] theorem modCal_sec : (s.modCal f).sec = s.sec := rfl
@[simp] theorem modCal_nvm : (s.modCal f).nvm = s.nvm := rfl
@[simp] theorem modCal_rst : (s.modCal f).rst = s.rst := rfl
@[simp] theorem modCal_seqNo : (s.modCal f).seqNo = s.seqNo := rfl
@[simp] theorem modCal_fwBad : (s.modCal f).fwBad = s.fwBad := rfl
@[simp] theorem modCal_netNow : (s.modCal f).netNow = s.netNow := rfl
@[simp] theorem modCal_macOwn : (s.modCal f).macOwn = s.macOwn := rfl
@[simp] theorem modCal_macWritten : (s.modCal f).macWritten = s.macWritten := rfl
@[simp] theorem modCal_calBad : (s.modCal f).calBad = s.calBad := rfl
@[simp] theorem modCal_freeCtr : (s.modCal f).freeCtr = s.freeCtr := rfl
@[simp] theorem modCal_pending : (s.modCal f).pending = s.pending := rfl
end

/-! ### modHk -/

section
variable (s : State) (f : HkUnit → HkUnit)
@[simp] theorem modHk_beat : (s.modHk f).beat = s.beat := rfl
@[simp] theorem modHk_regs : (s.modHk f).regs = s.regs := rfl
@[simp] theorem modHk_mem : (s.modHk f).mem = s.mem := rfl
@[simp] theorem modHk_sess : (s.modHk f).sess = s.sess := rfl
@[simp] theorem modHk_ports : (s.modHk f).ports = s.ports := rfl
@[simp] theorem modHk_resp : (s.modHk f).resp = s.resp := rfl
@[simp] theorem modHk_resume : (s.modHk f).resume = s.resume := rfl
@[simp] theorem modHk_held : (s.modHk f).held = s.held := rfl
@[simp] theorem modHk_curPort : (s.modHk f).curPort = s.curPort := rfl
@[simp] theorem modHk_beatWrites : (s.modHk f).beatWrites = s.beatWrites := rfl
@[simp] theorem modHk_beatSets : (s.modHk f).beatSets = s.beatSets := rfl
@[simp] theorem modHk_sched : (s.modHk f).sched = s.sched := rfl
@[simp] theorem modHk_nextHandle : (s.modHk f).nextHandle = s.nextHandle := rfl
@[simp] theorem modHk_evKeys : (s.modHk f).evKeys = s.evKeys := rfl
@[simp] theorem modHk_evCounts : (s.modHk f).evCounts = s.evCounts := rfl
@[simp] theorem modHk_evToPush : (s.modHk f).evToPush = s.evToPush := rfl
@[simp] theorem modHk_alertLow : (s.modHk f).alertLow = s.alertLow := rfl
@[simp] theorem modHk_carmineNow : (s.modHk f).carmineNow = s.carmineNow := rfl
@[simp] theorem modHk_rings : (s.modHk f).rings = s.rings := rfl
@[simp] theorem modHk_trap : (s.modHk f).trap = s.trap := rfl
@[simp] theorem modHk_links : (s.modHk f).links = s.links := rfl
@[simp] theorem modHk_time : (s.modHk f).time = s.time := rfl
@[simp] theorem modHk_trigs : (s.modHk f).trigs = s.trigs := rfl
@[simp] theorem modHk_srcEdges : (s.modHk f).srcEdges = s.srcEdges := rfl
@[simp] theorem modHk_tius : (s.modHk f).tius = s.tius := rfl
@[simp] theorem modHk_marks : (s.modHk f).marks = s.marks := rfl
@[simp] theorem modHk_markNo : (s.modHk f).markNo = s.markNo := rfl
@[simp] theorem modHk_cal : (s.modHk f).cal = s.cal := rfl
@[simp] theorem modHk_memu : (s.modHk f).memu = s.memu := rfl
@[simp] theorem modHk_car : (s.modHk f).car = s.car := rfl
@[simp] theorem modHk_hk : (s.modHk f).hk = f s.hk := rfl
@[simp] theorem modHk_sec : (s.modHk f).sec = s.sec := rfl
@[simp] theorem modHk_nvm : (s.modHk f).nvm = s.nvm := rfl
@[simp] theorem modHk_rst : (s.modHk f).rst = s.rst := rfl
@[simp] theorem modHk_seqNo : (s.modHk f).seqNo = s.seqNo := rfl
@[simp] theorem modHk_fwBad : (s.modHk f).fwBad = s.fwBad := rfl
@[simp] theorem modHk_netNow : (s.modHk f).netNow = s.netNow := rfl
@[simp] theorem modHk_macOwn : (s.modHk f).macOwn = s.macOwn := rfl
@[simp] theorem modHk_macWritten : (s.modHk f).macWritten = s.macWritten := rfl
@[simp] theorem modHk_calBad : (s.modHk f).calBad = s.calBad := rfl
@[simp] theorem modHk_freeCtr : (s.modHk f).freeCtr = s.freeCtr := rfl
@[simp] theorem modHk_pending : (s.modHk f).pending = s.pending := rfl
end

end Sys2Proof.Machine.State
end

