-- ==== Sys2Proof/Laws/Issue.lean ====
section
/-! SUPPORT. How a Zwiec instruction issues, and what its timing field may change (R122-R125, R134). -/

namespace Sys2Proof.Machine

theorem State.uncorr_of_sound {s : State} {a k : Nat} (hk : 0 < k) (h : s.damageIn a k = []) : s.uncorr a = false := by
  unfold uncorr
  have : s.damageIn a 1 = [] := by
    unfold damageIn at h ⊢
    rw [List.filter_eq_nil_iff] at h ⊢
    intro d hd e
    refine h d hd ?_
    simp only [decide_eq_true_eq] at e ⊢
    exact ⟨by omega, e.2⟩
  rw [this]
  rfl

theorem State.touch_whole {s : State} (a : Nat) (h : s.memu.borrow = none) : s.touch a = (0, s) := by
  unfold touch
  rw [h]

theorem State.eccRead_sound {s : State} {a k : Nat} (h : s.damageIn a k = []) : s.eccRead a k = s := by
  unfold eccRead
  rw [h]
  rfl

/-- A word that no CASE has fetched is fetched from memory, sound when its array word is (R120, R440). -/
theorem State.Issues.good {s : State} {n : Nat} {w : BitVec 64} (h : s.Issues n w) : s.zBad n = false := by
  unfold zBad
  rw [h.own]
  exact uncorr_of_sound (by decide) h.sound

/-- An instruction that issues with nothing in the way acts in the state that its timing field leaves (R122, R123, R128). -/
theorem State.zIssue_goes {s g : State} {n : Nat} {w : BitVec 64} (h : s.Goes n w g) : s.zIssue n = g.zBody n w := by
  obtain ⟨h, hl, ha, hg⟩ := h
  have hg : (s.hold n .none).zGate n w = (true, g) := hg
  have hb : s.ldBlocks n w = false := by
    unfold ldBlocks
    rw [h.free]
    rfl
  have ht : zTimingLegal w = true := by
    have := hl
    simp only [zLegal, Bool.and_eq_true] at this
    exact this.1.1
  unfold zIssue
  simp only [h.fetched, h.good, h.own, Option.isSome_none, Bool.false_eq_true, if_false, touch_whole _ h.whole, eccRead_sound h.sound,
    h.fresh, hb, ht, hg]
  simp only [Nat.lt_irrefl, if_false, ne_eq, not_true_eq_false, Bool.false_eq_true]
  rw [if_neg (fun e => e.2 (ha e.1))]
  simp only [if_true]

theorem State.zRow_goes {s g : State} {n : Nat} {w : BitVec 64} (h : s.Goes n w g) : s.zRow n (zOp w) = g.zBody n w := by
  unfold zRow
  simp only [h.1.fetched]
  rw [if_pos ⟨h.1.ready, by simp [h.1.good], trivial, h.2.1⟩]
  exact zIssue_goes h
/-! ### Registers through the shared operations -/

theorem State.getReg_setFld_ne {s : State} (h : s.Inv) {a b : Nat} (hi lo v : Nat) (hb : b ≠ a) :
    (s.setFld a hi lo v).getReg b = s.getReg b := getReg_setReg_ne h.regs_wf _ hb

theorem State.getReg_setFld_self {s : State} (h : s.Inv) (a hi lo v : Nat) :
    (s.setFld a hi lo v).getReg a = putFld (s.getReg a) hi lo v := getReg_setReg_self h.regs_wf ..

theorem State.getReg_setBit_ne {s : State} (h : s.Inv) {a b : Nat} (i : Nat) (v : Bool) (hb : b ≠ a) :
    (s.setBit a i v).getReg b = s.getReg b := getReg_setReg_ne h.regs_wf _ hb

theorem State.getReg_setBit_self {s : State} (h : s.Inv) (a i : Nat) (v : Bool) :
    (s.setBit a i v).getReg a = putBit (s.getReg a) i v := getReg_setReg_self h.regs_wf ..

/-- A flag that is raised changes its register and the register of its counter. -/
theorem State.getReg_raiseFlag_ne {s : State} (h : s.Inv) {a b x : Nat} (hx : x ≠ a) (hc : x ≠ flagCntAddr a b) :
    (s.raiseFlag a b).getReg x = s.getReg x := by
  show ((s.setBit a b true).setFlagCount a b _).getReg x = s.getReg x
  unfold setFlagCount
  rw [getReg_setFld_ne (setBit_inv _ _ _ h) _ _ _ hc, getReg_setBit_ne h _ _ hx]

theorem State.getReg_clearLatch_ne {s : State} (h : s.Inv) (n : Nat) (m : Word) {x : Nat} (hx : x ≠ Reg.trigLatch n) :
    (s.clearLatch n m).getReg x = s.getReg x := by
  unfold clearLatch
  have key : ∀ (l : List Nat) (s : State), s.Inv → (l.foldl (fun s b =>
      if (Reg.trigLatch n, b) ∈ s.beatSets then s else s.setBit (Reg.trigLatch n) b false) s).getReg x = s.getReg x := by
    intro l
    induction l with
    | nil => intro s _; rfl
    | cons b t ih =>
      intro s h
      rw [List.foldl_cons, ih _ (by split; exact h; exact setBit_inv _ _ _ h)]
      split
      · rfl
      · exact getReg_setBit_ne h _ _ hx
  exact key _ _ h

theorem State.clearLatch_fields (s : State) (n : Nat) (m : Word) : ∃ r, s.clearLatch n m = { s with regs := r } := by
  unfold clearLatch
  have key : ∀ (l : List Nat) (s : State), ∃ r, l.foldl (fun s b =>
      if (Reg.trigLatch n, b) ∈ s.beatSets then s else s.setBit (Reg.trigLatch n) b false) s = { s with regs := r } := by
    intro l
    induction l with
    | nil => intro s; exact ⟨s.regs, rfl⟩
    | cons b t ih =>
      intro s
      rw [List.foldl_cons]
      obtain ⟨r, e⟩ := ih (if (Reg.trigLatch n, b) ∈ s.beatSets then s else s.setBit (Reg.trigLatch n) b false)
      rw [e]
      split
      · exact ⟨r, rfl⟩
      · exact ⟨r, rfl⟩
  exact key _ _

theorem State.markLate_getReg {s : State} (h : s.Inv) (n : Nat) {x : Nat} (h1 : x ≠ Reg.seqSt n) (h2 : x ≠ Reg.seqPflags n)
    (h3 : x ≠ Reg.seqPflags n + 4) : (s.markLate n).getReg x = s.getReg x := by
  unfold markLate
  rw [getReg_raiseFlag_ne (setBit_inv _ _ _ h) h2 (by simpa [flagCntAddr] using h3), getReg_setBit_ne h _ _ h1]

theorem State.markLate_st {s : State} (h : s.Inv) (n : Nat) :
    (s.markLate n).getReg (Reg.seqSt n) = putBit (s.getReg (Reg.seqSt n)) 5 true := by
  unfold markLate
  rw [getReg_raiseFlag_ne (setBit_inv _ _ _ h) (by simp only [Reg.seqSt, Reg.seqPflags]; omega)
    (by simp only [Reg.seqSt, Reg.seqPflags, flagCntAddr]; simp; omega), getReg_setBit_self h]

/-- What a function of a ring's timing may leave changed: the latch of a trigger condition, the mark of a late shot, and the
sequencer's own fields (R123-R125, R134). -/
def State.TimingOnly (s t : State) (n : Nat) : Prop :=
  (∀ x, x ≠ Reg.trigLatch n → x ≠ Reg.seqSt n → x ≠ Reg.seqPflags n → x ≠ Reg.seqPflags n + 4 → t.getReg x = s.getReg x) ∧
    (∀ hi lo, 5 < lo → hi < 32 → fld (t.getReg (Reg.seqSt n)) hi lo = fld (s.getReg (Reg.seqSt n)) hi lo) ∧
    ∃ q r b, t = { s.modSeq n (fun _ => q) with regs := r, beatSets := b }

theorem State.modSeq_const {s : State} (n : Nat) (f : Seq → Seq) : s.modSeq n f = s.modSeq n fun _ => f (s.seq n) := by
  unfold modSeq modRing seq ring
  congr 1
  refine List.ext_getElem? fun i => ?_
  rw [List.getElem?_modify, List.getElem?_modify]
  by_cases h : n = i
  · subst h
    cases e : s.rings[n]? <;> simp [List.getD_eq_getElem?_getD, e]
  · simp [h]

theorem State.modSeq_modSeq (s : State) (n : Nat) (f g : Seq → Seq) : (s.modSeq n f).modSeq n g = s.modSeq n fun q => g (f q) := by
  unfold modSeq modRing
  congr 1
  exact List.modify_modify_eq ..

theorem State.modSeq_same (s : State) (n : Nat) : (s.modSeq n fun _ => s.seq n) = s := by
  have e : s.modSeq n id = s := by
    unfold State.modSeq State.modRing
    have : (fun r : Ring => { r with seq := id r.seq }) = id := rfl
    rw [this, List.modify_id]
  exact (modSeq_const n id).symm.trans e

theorem State.TimingOnly.refl (s : State) (n : Nat) : s.TimingOnly s n :=
  ⟨fun _ _ _ _ _ => rfl, fun _ _ _ _ => rfl, s.seq n, s.regs, s.beatSets, by rw [modSeq_same]⟩

theorem State.TimingOnly.modSeq (s : State) (n : Nat) (f : Seq → Seq) : s.TimingOnly (s.modSeq n f) n :=
  ⟨fun _ _ _ _ _ => rfl, fun _ _ _ _ => rfl, _, _, _, modSeq_const n f⟩

theorem State.TimingOnly.trans {s t u : State} {n : Nat} (h : s.TimingOnly t n) (h' : t.TimingOnly u n) : s.TimingOnly u n := by
  obtain ⟨a, b, q, r, c, rfl⟩ := h
  obtain ⟨a', b', q', r', c', rfl⟩ := h'
  refine ⟨fun x h1 h2 h3 h4 => (a' x h1 h2 h3 h4).trans (a x h1 h2 h3 h4), fun i j h1 h2 => (b' i j h1 h2).trans (b i j h1 h2),
    q', r', c', ?_⟩
  show State.mk .. = _
  have e := modSeq_modSeq s n (fun _ => q) (fun _ => q')
  unfold State.modSeq State.modRing at e ⊢
  simp only [State.mk.injEq] at e ⊢
  simp [e]

theorem State.TimingOnly.markLate {s : State} (h : s.Inv) (n : Nat) : s.TimingOnly (s.markLate n) n := by
  refine ⟨fun x _ h2 h3 h4 => markLate_getReg h n h2 h3 h4, fun hi lo h1 h2 => ?_, s.seq n, (s.markLate n).regs, (s.markLate n).beatSets, ?_⟩
  · rw [markLate_st h, fld_putBit_ne _ _ (by decide) (.inl h1)]
  · rw [modSeq_same]
    rfl

theorem State.TimingOnly.condGo {s : State} (h : s.Inv) (n : Nat) (c : BitVec 16) : s.TimingOnly (s.condGo n c) n := by
  unfold State.condGo
  split
  · obtain ⟨r, e⟩ := clearLatch_fields s n (BitVec.ofNat 32 (2 ^ (2 * fld c 2 0 + fld c 3 3)))
    refine ⟨fun x h1 _ _ _ => getReg_clearLatch_ne h _ _ h1, fun hi lo _ _ => ?_, s.seq n, r, s.beatSets, ?_⟩
    · rw [getReg_clearLatch_ne h _ _ (by simp only [Reg.seqSt, Reg.trigLatch]; omega)]
    · rw [e]
      rw [modSeq_same]
  · exact .refl s n

/-- The timing field of an instruction (R123-R125). -/
theorem State.zGate_timing {s : State} (h : s.Inv) (n : Nat) (w : BitVec 64) : s.TimingOnly (s.zGate n w).2 n := by
  unfold zGate
  split
  · exact .refl s n
  · split
    · dsimp only
      split
      · exact .trans (.condGo h n _) (.modSeq _ n _)
      · exact .modSeq s n _
    · dsimp only
      split
      · exact .modSeq s n _
      · refine .trans ?_ (.modSeq _ n _)
        split
        · exact .markLate h n
        · exact .refl s n

/-- A word that is legal before its timing is legal after it (R135). -/
theorem State.TimingOnly.legal {s t : State} {n : Nat} (h : s.TimingOnly t n) (hn : n < 12) (w : BitVec 64) : t.zLegal n w = s.zLegal n w := by
  obtain ⟨h1, h2, q, r, b, e⟩ := h
  have hd : t.depth n = s.depth n := h2 20 16 (by decide) (by decide)
  have hs : t.chipNum = s.chipNum := by rw [e]; rfl
  have hm : ∀ m, m < 16 → t.getReg (Reg.markCtrl m) = s.getReg (Reg.markCtrl m) := by
    intro m hm
    refine h1 _ ?_ ?_ ?_ ?_ <;> simp only [Reg.markCtrl, Reg.trigLatch, Reg.seqSt, Reg.seqPflags] <;> omega
  have ho : ∀ m, m < 8 → t.getReg (Reg.tsetOwner m) = s.getReg (Reg.tsetOwner m) := by
    intro m hm
    refine h1 _ ?_ ?_ ?_ ?_ <;> simp only [Reg.tsetOwner, Reg.trigLatch, Reg.seqSt, Reg.seqPflags] <;> omega
  unfold zLegal zStateLegal
  rw [hd, hs]
  have f1 : fld w 39 36 < 16 := fld_lt w 39 36
  have f2 : fld w 35 33 < 8 := fld_lt w 35 33
  have f3 : fld w 39 37 < 8 := fld_lt w 39 37
  unfold markOwned regFld
  rw [hm _ f1, ho _ f2, ho _ f3]

theorem zAction_eq (w : BitVec 64) : zAction w = (zOp w).testBit 5 := by
  unfold zAction zOp
  rw [fld_testBit]
  simp

theorem State.Goes.inv {s g : State} {n : Nat} {w : BitVec 64} (h : s.Goes n w g) (hi : s.Inv) : g.Inv := by
  have := zGate_inv n w (hold_inv n .none hi)
  rw [show (s.hold n .none).zGate n w = (true, g) from h.2.2.2] at this
  exact this

theorem State.Goes.legal {s g : State} {n : Nat} {w : BitVec 64} (h : s.Goes n w g) (hi : s.Inv) (hn : n < 12) :
    g.zLegal n w = true := by
  have := zGate_timing (hold_inv n .none hi) n w
  rw [show (s.hold n .none).zGate n w = (true, g) from h.2.2.2] at this
  rw [this.legal hn, show (s.hold n .none).zLegal n w = s.zLegal n w from (TimingOnly.modSeq s n _).legal hn w]
  exact h.2.1

/-- A control instruction acts in the state that its timing leaves. -/
theorem State.zRow_control {s g : State} {n : Nat} {w : BitVec 64} (h : s.Goes n w g) (hi : s.Inv) (hn : n < 12)
    (ha : (zOp w).testBit 5 = false) : s.zRow n (zOp w) = g.zControl n w := by
  rw [zRow_goes h]
  unfold zBody
  rw [if_neg (by simp [h.legal hi hn]), if_neg (by simp [zAction_eq, ha])]

theorem State.goTo_frame {s : State} (h : s.Inv) {n : Nat} (hn : n < 12) (pc k : Nat) :
    s.Onward (s.goTo n pc k) n pc k ∧ s.OnlySeq (s.goTo n pc k) n [Reg.seqPc n, Reg.seqRsc n] := by
  unfold goTo
  refine ⟨⟨?_, ?_, ?_⟩, ?_, ?_⟩
  · rw [getReg_modSeq, getReg_setReg_ne (setReg_inv _ _ h).regs_wf _ (by simp [Reg.seqPc, Reg.seqRsc]), getReg_setReg_self h.regs_wf]
  · rw [getReg_modSeq, getReg_setReg_self (setReg_inv _ _ h).regs_wf]
  · rw [seq_modSeq_self (by simpa using h.rings_length) hn]
    rfl
  · intro a ha
    simp only [List.mem_cons, List.not_mem_nil, or_false, not_or] at ha
    rw [getReg_modSeq, getReg_setReg_ne (setReg_inv _ _ h).regs_wf _ ha.2, getReg_setReg_ne h.regs_wf _ ha.1]
  · rw [modSeq_const]
    exact ⟨_, _, _, rfl⟩

end Sys2Proof.Machine
end

