-- ==== Sys2Proof/Laws/Frames.lean ====
section
/-! SUPPORT. Frames of a sequencer: how they compose, and what the shared operations of Zwiec instructions leave (R115, R133, R137). -/

namespace Sys2Proof.Machine

/-- Two frames of one sequencer in a row. -/
theorem State.OnlySeq.trans {s t u : State} {n : Nat} {as bs : List Nat} (h : s.OnlySeq t n as) (h' : t.OnlySeq u n bs) :
    s.OnlySeq u n (as ++ bs) := by
  obtain ⟨a, q, r, c, rfl⟩ := h
  obtain ⟨a', q', r', c', rfl⟩ := h'
  refine ⟨fun x hx => ?_, q', r', c', ?_⟩
  · rw [List.mem_append, not_or] at hx
    exact (a' x hx.2).trans (a x hx.1)
  · have e := modSeq_modSeq s n (fun _ => q) (fun _ => q')
    unfold State.modSeq State.modRing at e ⊢
    simp only [State.mk.injEq] at e ⊢
    simp [e]

/-- A frame with more registers listed. -/
theorem State.OnlySeq.mono {s t : State} {n : Nat} {as bs : List Nat} (h : s.OnlySeq t n as) (hs : ∀ a ∈ as, a ∈ bs) :
    s.OnlySeq t n bs := ⟨fun a ha => h.1 a fun e => ha (hs a e), h.2⟩

/-- A register write, as a frame. -/
theorem State.OnlySeq.setReg {s : State} (h : s.Inv) (n a : Nat) (v : Word) : s.OnlySeq (s.setReg a v) n [a] :=
  ⟨fun _ hx => getReg_setReg_ne h.regs_wf _ (by simpa using hx), s.seq n, _, s.beatSets, by rw [modSeq_same]; rfl⟩

/-- A frame of one sequencer keeps the invariant where the register file stays in form. -/
theorem State.OnlySeq.inv {s t : State} {n : Nat} {as : List Nat} (h : s.OnlySeq t n as) (hi : s.Inv) (hr : Regs.wf t.regs = true) : t.Inv := by
  obtain ⟨_, q, r, c, rfl⟩ := h
  exact ⟨⟨hr, hi.1.2⟩, (show (s.modSeq n fun _ => q).Inv from modSeq_inv (s := s) n (fun _ => q) hi).2⟩

/-- No destination register is one that the sequencer goes on with. -/
theorem dest_ne {n i : Nat} (hi : i ≤ 19) : destReg n i ≠ Reg.seqSt n ∧ destReg n i ≠ Reg.seqPc n ∧ destReg n i ≠ Reg.seqRsc n := by
  unfold destReg
  split <;> simp only [Reg.seqG, Reg.seqLc, Reg.seqSt, Reg.seqPc, Reg.seqRsc] <;> omega

/-- The write of a destination register. -/
theorem setZReg_eq {g : State} {n i : Nat} (hi : i ≤ 19) (v : Word) : g.setZReg n i v = g.setReg (destReg n i) v := by
  unfold State.setZReg destReg
  split
  · rfl
  · rw [if_pos (by omega)]

/-- What setting the four condition flags leaves in st. -/
theorem condIs {g t : State} (n : Nat) (r : Word) (c v : Bool) (h : g.Inv)
    (e : t.getReg (Reg.seqSt n) = (g.setCond n (Cond.ofRes r c v)).getReg (Reg.seqSt n)) : g.CondIs t n r c v := by
  unfold State.CondIs
  rw [e]
  unfold State.setCond
  rw [State.getReg_setFld_self h]
  dsimp only
  simp only [bit_putFld _ _ _ (show 3 < 32 by decide)]
  refine ⟨?_, ?_, ?_, ?_, fld_putFld_ne _ _ (by decide) (.inl (by decide))⟩ <;>
  · clear e
    simp only [Cond.ofRes]
    generalize decide (r = 0) = z
    generalize bit r 31 = nn
    rw [if_pos (by decide)]
    revert z nn c v
    decide

end Sys2Proof.Machine
end

