-- ==== Sys2Proof/Laws/Host.lean ====
section
/-! SUPPORT. A host write that every check lets pass (R46, R64, R66, R96, R113). -/

namespace Sys2Proof.Machine

open State

/-- Ending a stage that does not stand changes nothing. -/
theorem State.modSess_same (s : State) (u : Nat) (f : Sess → Sess) (h : f (s.session u) = s.session u) : s.modSess u f = s := by
  unfold State.modSess
  have : s.sess.modify u f = s.sess := by
    refine List.ext_getElem? fun i => ?_
    rw [List.getElem?_modify]
    by_cases e : u = i
    · subst e
      unfold State.session at h
      rw [List.getD_eq_getElem?_getD] at h
      cases hs : s.sess[u]? with
      | none => simp
      | some x =>
        rw [hs] at h
        simpa using h
    · simp [e]
  rw [this]

/-- Every check passes: no code is reported (R113). -/
theorem Err.first_ok {l : List Err} (h : ∀ e ∈ l, e = .ok) : Err.first l = .ok := by
  unfold Err.first
  induction l with
  | nil => rfl
  | cons e t ih =>
    rw [List.foldl_cons, h e (by simp), show (if Err.ok.rank < Err.ok.rank then Err.ok else Err.ok) = Err.ok from rfl]
    exact ih fun x hx => h x (by simp [hx])

/-- The register that an address finds. -/
theorem State.findAt_ok {a : Nat} {h : RegHit} (hf : findAt a = .ok h) : findReg a = some h := by
  unfold findAt at hf
  split at hf
  · cases hf
  · split at hf
    · cases hf
    · rename_i h' hh
      split at hf
      · rename_i h4
        cases hf
        rwa [h4, Nat.sub_zero] at hh
      · cases hf

/-- The lease check of a register that is under a lease, or under none (R64). -/
theorem State.leaseCheck_ok {g : State} {u : Nat} {h : RegHit} (hs : h.desc.lease ≠ .session)
    (hl : ∀ x, h.lease = some x → g.leaseOk x u = true) : g.leaseCheck u h = .ok := by
  unfold leaseCheck
  split
  · exact absurd ‹_› hs
  · split
    · rw [hl _ ‹_›]; rfl
    · rfl

/-- An immediate write that every check lets pass (R113). -/
theorem State.hostWriteReg_ok {s g : State} {p u a : Nat} {v : Word} {h : RegHit}
    (hg : g = s.modSess u fun x => { x with stage := none }) (hf : findAt a = .ok h) (hp : h.desc.pair = 0)
    (hc : g.writeCheck u h a v none true = .ok) (hw : g.lostWrite p a = false) :
    s.hostWriteReg p u a v 0xFFFFFFFF true = (.ok, (g.writeDo u h a v (pairWord 0 v)).noteWrite p a) := by
  have e : (if ((s.session u).stage).isSome = true then s.modSess u fun x => { x with stage := none } else s) = g := by
    rw [hg]
    split
    · rfl
    · rename_i hn
      rw [modSess_same]
      rw [Bool.not_eq_true, Option.isSome_eq_false_iff, Option.isNone_iff_eq_none] at hn
      rw [← hn]
  unfold hostWriteReg
  dsimp only
  rw [e, hf]
  dsimp only
  have hm : g.maskedWord h a v 0xFFFFFFFF = v := by unfold maskedWord; rw [if_pos rfl]
  have h2 : ¬ h.desc.pair = 2 := by rw [hp]; decide
  have h1 : ¬ h.desc.pair = 1 := by rw [hp]; decide
  rw [hm, if_neg h2, Err.first_ok (by simp [hc, hw, Err.need]), if_neg (by simp), if_neg h1]
  rfl

/-- A register write of the host that every check lets pass (R46, R64, R66, R96, R113, R498): its effect on the state that has heard the
frame, and the answer OK. -/
theorem State.hostWrite_takes {s g : State} {p u a : Nat} {v : Word} {h : RegHit} (ht : s.Takes p u a g) (ha : a < 2 ^ 32)
    (hf : findAt a = .ok h) (hp : h.desc.pair = 0) (hs : h.desc.lease ≠ .session) (hw : h.desc.writable = true)
    (hr : v &&& h.desc.reserved = 0) (hl : fieldLegal h v = true) (hb : g.blockCheck u h a v (pairWord 0 v) = .ok)
    (h1 : v &&& h.desc.w1s &&& g.readWord h a = 0) : s.hostWrite p u a v = (g.writeDo u h a v (pairWord 0 v)).wrote p a := by
  have e : leaseOf a = h.lease := by
    unfold leaseOf
    rw [findAt_ok hf]
    rfl
  have hc : g.writeCheck u h a v none true = .ok := by
    refine Err.first_ok ?_
    simp only [List.mem_cons, List.not_mem_nil, or_false, forall_eq_or_imp, forall_eq]
    refine ⟨by rw [hw]; rfl, leaseCheck_ok hs fun x hx => ht.lease x (e.trans hx), by rw [hr]; rfl, by rw [hl]; rfl, ?_, ?_, ?_, ?_⟩
    · simp [recoveryCheck, ht.served, Err.need]
    · simp [hp, Err.need]
    · rw [hp]; exact hb
    · rw [h1]; rfl
  have h32 : (BitVec.ofNat 32 a).toNat = a := by simp; omega
  have ho : (s.heard p u).opWrite p u (BitVec.ofNat 32 a) v =
      (opResp 0x02 (BitVec.ofNat 32 a) .ok 1 [], (g.writeDo u h a v (pairWord 0 v)).noteWrite p a) := by
    unfold opWrite
    rw [h32, hostWriteReg_ok ht.state hf hp hc ht.won]
  unfold hostWrite hostOp
  rw [if_neg (by simp [ht.answers]), if_neg (by simp [ht.isOpen])]
  show (let r := (s.heard p u).opWrite p u (BitVec.ofNat 32 a) v; ({ r.2 with resp := [r.1] } : State)) = _
  rw [ho]
  rfl

end Sys2Proof.Machine
end

