-- ==== Sys2Proof/Laws/Regs.lean ====
section
/-! SUPPORT. The register that the address of each command register finds (R31, R32). -/

namespace Sys2Proof.Machine.State

set_option Elab.async false

/-- `adjCtrl`. -/
theorem findAt_adjCtrl :
    findAt (Reg.adjCtrl) = .ok ⟨{ name := .adjCtrl, off := 0x60, lease := .time, rw := 0x100, wo := 0x2, w1s := 0x1 }, []⟩ := by
  decide +kernel

/-- `attCmd`. -/
theorem findAt_attCmd :
    findAt (Reg.attCmd) = .ok ⟨{ name := .attCmd, off := 0x100, lease := .chip, w1s := 0x1 }, []⟩ := by
  decide +kernel

/-- `biasClear`. -/
theorem findAt_biasClear :
    ∀ (n : RingId) (i : Fin 4), findAt (Reg.biasClear n i) = .ok ⟨{ name := .biasClear, off := 0x30014, dims := [(0x100, 4)], lease := .ring, rw := 0xFFFFF }, [n.val, i.val]⟩ := by
  decide +kernel

/-- `biasQclr`. -/
theorem findAt_biasQclr :
    ∀ (n : RingId) (i : Fin 4), findAt (Reg.biasQclr n i) = .ok ⟨{ name := .biasQclr, off := 0x30034, dims := [(0x100, 4)], lease := .ring, wo := 0x1 }, [n.val, i.val]⟩ := by
  decide +kernel

/-- `biasSpan`. -/
theorem findAt_biasSpan :
    ∀ (n : RingId) (i : Fin 4), findAt (Reg.biasSpan n i) = .ok ⟨{ name := .biasSpan, off := 0x30004, dims := [(0x100, 4)], lease := .ring, rw := 0x3FFFFF }, [n.val, i.val]⟩ := by
  decide +kernel

/-- `biasTarget`. -/
theorem findAt_biasTarget :
    ∀ (n : RingId) (i : Fin 4), findAt (Reg.biasTarget n i) = .ok ⟨{ name := .biasTarget, off := 0x30008, dims := [(0x100, 4)], lease := .ring, rw := 0xFFFFF }, [n.val, i.val]⟩ := by
  decide +kernel

/-- `calApply`. -/
theorem findAt_calApply :
    findAt (Reg.calApply) = .ok ⟨{ name := .calApply, off := 0x10, lease := .chip, w1s := 0xF }, []⟩ := by
  decide +kernel

/-- `calStore`. -/
theorem findAt_calStore :
    findAt (Reg.calStore) = .ok ⟨{ name := .calStore, off := 0x80, lease := .chip, rw := 0xFFFF0000, w1s := 0x3 }, []⟩ := by
  decide +kernel

/-- `carCmd`. -/
theorem findAt_carCmd :
    ∀ (i : Fin 8), findAt (Reg.carCmd i) = .ok ⟨{ name := .carCmd, off := 0x0, dims := [(0x40, 8)], lease := .chip, wo := 0x3 }, [i.val]⟩ := by
  decide +kernel

/-- `clkCmd`. -/
theorem findAt_clkCmd :
    findAt (Reg.clkCmd) = .ok ⟨{ name := .clkCmd, off := 0x414, lease := .chip, w1s := 0x1 }, []⟩ := by
  decide +kernel

/-- `ethCtrl`. -/
theorem findAt_ethCtrl :
    ∀ (i : Fin 2), findAt (Reg.ethCtrl i) = .ok ⟨{ name := .ethCtrl, off := 0x0, dims := [(0x1000, 2)], lease := .chip, reset := 0x300, rw := 0x330 }, [i.val]⟩ := by
  decide +kernel

/-- `fuseCmd`. -/
theorem findAt_fuseCmd :
    findAt (Reg.fuseCmd) = .ok ⟨{ name := .fuseCmd, off := 0x14, lease := .chip, wo := 0xFFFF0003 }, []⟩ := by
  decide +kernel

/-- `fwUpdCmd`. -/
theorem findAt_fwUpdCmd :
    findAt (Reg.fwUpdCmd) = .ok ⟨{ name := .fwUpdCmd, off := 0xC, lease := .chip, w1s := 0x1 }, []⟩ := by
  decide +kernel

/-- `jugCmd`. -/
theorem findAt_jugCmd :
    ∀ (n : RingId), findAt (Reg.jugCmd n) = .ok ⟨{ name := .jugCmd, off := 0x40000, lease := .ring, wo := 0x7 }, [n.val]⟩ := by
  decide +kernel

/-- `linkCmd`. -/
theorem findAt_linkCmd :
    ∀ (i : Fin 4), findAt (Reg.linkCmd i) = .ok ⟨{ name := .linkCmd, off := 0x1000, dims := [(0x100, 4)], lease := .chip, wo := 0x3 }, [i.val]⟩ := by
  decide +kernel

/-- `markHost`. -/
theorem findAt_markHost :
    ∀ (i : Fin 16), findAt (Reg.markHost i) = .ok ⟨{ name := .markHost, off := 0x204, dims := [(0x10, 16)], lease := .chip, wo := 0x73 }, [i.val]⟩ := by
  decide +kernel

/-- `mtestCmd`. -/
theorem findAt_mtestCmd :
    findAt (Reg.mtestCmd) = .ok ⟨{ name := .mtestCmd, off := 0x0, lease := .chip, wo := 0x2, w1s := 0x1 }, []⟩ := by
  decide +kernel

/-- `netCtrl`. -/
theorem findAt_netCtrl :
    findAt (Reg.netCtrl) = .ok ⟨{ name := .netCtrl, off := 0x2038, lease := .chip, w1s := 0x3 }, []⟩ := by
  decide +kernel

/-- `ownCmd`. -/
theorem findAt_ownCmd :
    findAt (Reg.ownCmd) = .ok ⟨{ name := .ownCmd, off := 0x84, lease := .chip, wo := 0xFFFF0F07 }, []⟩ := by
  decide +kernel

/-- `repmapCtrl`. -/
theorem findAt_repmapCtrl :
    findAt (Reg.repmapCtrl) = .ok ⟨{ name := .repmapCtrl, off := 0x54, lease := .chip, w1s := 0x1 }, []⟩ := by
  decide +kernel

/-- `resqCtrl`. -/
theorem findAt_resqCtrl :
    ∀ (i : Fin 12), findAt (Reg.resqCtrl i) = .ok ⟨{ name := .resqCtrl, off := 0x3000, dims := [(0x20, 12)], lease := .ring, reset := 0xF010000, rw := 0xFF01FF73 }, [i.val]⟩ := by
  decide +kernel

/-- `ret`. -/
theorem findAt_ret :
    ∀ (i : Fin 12), findAt (Reg.ret i) = .ok ⟨{ name := .ret, off := 0x100, dims := [(0x4, 12)], lease := .ring, rw := 0x3, ro := 0x30000 }, [i.val]⟩ := by
  decide +kernel

/-- `rstCmd`. -/
theorem findAt_rstCmd :
    findAt (Reg.rstCmd) = .ok ⟨{ name := .rstCmd, off := 0x404, lease := .chip, wo := 0xFFFF0001 }, []⟩ := by
  decide +kernel

/-- `rxCtrl`. -/
theorem findAt_rxCtrl :
    ∀ (n : RingId) (i : Fin 2), findAt (Reg.rxCtrl n i) = .ok ⟨{ name := .rxCtrl, off := 0x20000, dims := [(0x1000, 2)], lease := .ring, reset := 0x20, rw := 0x731 }, [n.val, i.val]⟩ := by
  decide +kernel

/-- `rxRawCmd`. -/
theorem findAt_rxRawCmd :
    ∀ (n : RingId) (i : Fin 2), findAt (Reg.rxRawCmd n i) = .ok ⟨{ name := .rxRawCmd, off := 0x20044, dims := [(0x1000, 2)], lease := .ring, wo := 0x7 }, [n.val, i.val]⟩ := by
  decide +kernel

/-- `rxcalInj`. -/
theorem findAt_rxcalInj :
    ∀ (i : Fin 24), findAt (Reg.rxcalInj i) = .ok ⟨{ name := .rxcalInj, off := 0x10C, dims := [(0x20, 24)], lease := .chip, reset := 0x2, rw := 0x2, w1s := 0x1 }, [i.val]⟩ := by
  decide +kernel

/-- `seqCmd`. -/
theorem findAt_seqCmd :
    ∀ (n : RingId), findAt (Reg.seqCmd n) = .ok ⟨{ name := .seqCmd, off := 0x0, lease := .ring, wo := 0xFF }, [n.val]⟩ := by
  decide +kernel

/-- `snapCmd`. -/
theorem findAt_snapCmd :
    findAt (Reg.snapCmd) = .ok ⟨{ name := .snapCmd, off := 0x20, lease := .time, wo := 0x1 }, []⟩ := by
  decide +kernel

/-- `strmCfg`. -/
theorem findAt_strmCfg :
    ∀ (i : Fin 12) (j : Fin 4), findAt (Reg.strmCfg i j) = .ok ⟨{ name := .strmCfg, off := 0x4000, dims := [(0x80, 12), (0x20, 4)], lease := .ring, rw := 0x713F7F }, [i.val, j.val]⟩ := by
  decide +kernel

/-- `syncCmd`. -/
theorem findAt_syncCmd :
    findAt (Reg.syncCmd) = .ok ⟨{ name := .syncCmd, off := 0x424, lease := .chip, wo := 0x6, w1s := 0x1 }, []⟩ := by
  decide +kernel

/-- `tiuCmd`. -/
theorem findAt_tiuCmd :
    ∀ (i : Fin 4), findAt (Reg.tiuCmd i) = .ok ⟨{ name := .tiuCmd, off := 0x408, dims := [(0x40, 4)], lease := .chip, wo := 0x2, w1s := 0x1 }, [i.val]⟩ := by
  decide +kernel

/-- `trigLclr`. -/
theorem findAt_trigLclr :
    ∀ (i : Fin 12), findAt (Reg.trigLclr i) = .ok ⟨{ name := .trigLclr, off := 0x140, dims := [(0x4, 12)], lease := .chip, wo := 0xFFFF }, [i.val]⟩ := by
  decide +kernel

/-- `trpAbort`. -/
theorem findAt_trpAbort :
    findAt (Reg.trpAbort) = .ok ⟨{ name := .trpAbort, off := 0xC, lease := .chip, rw := 0xFFF0FFF, wo := 0x80000000 }, []⟩ := by
  decide +kernel

/-- `txCoefA`. -/
theorem findAt_txCoefA :
    ∀ (n : RingId) (i : Fin 4) (j : Fin 32), findAt (Reg.txCoefA n i j) = .ok ⟨{ name := .txCoefA, off := 0x10100, dims := [(0x1000, 4), (0x4, 32)], lease := .ring, reset := 0x10000, rw := 0x3FFFF }, [n.val, i.val, j.val]⟩ := by
  decide +kernel

/-- `txCoefB`. -/
theorem findAt_txCoefB :
    ∀ (n : RingId) (i : Fin 4) (j : Fin 32), findAt (Reg.txCoefB n i j) = .ok ⟨{ name := .txCoefB, off := 0x10180, dims := [(0x1000, 4), (0x4, 32)], lease := .ring, reset := 0x10000, rw := 0x3FFFF }, [n.val, i.val, j.val]⟩ := by
  decide +kernel

/-- `txCtrl`. -/
theorem findAt_txCtrl :
    ∀ (n : RingId) (i : Fin 4), findAt (Reg.txCtrl n i) = .ok ⟨{ name := .txCtrl, off := 0x10000, dims := [(0x1000, 4)], lease := .ring, rw := 0x331 }, [n.val, i.val]⟩ := by
  decide +kernel

/-- `txFadeReq`. -/
theorem findAt_txFadeReq :
    ∀ (n : RingId) (i : Fin 4), findAt (Reg.txFadeReq n i) = .ok ⟨{ name := .txFadeReq, off := 0x10010, dims := [(0x1000, 4)], lease := .ring, wo := 0x1 }, [n.val, i.val]⟩ := by
  decide +kernel

/-- `txFs`. -/
theorem findAt_txFs :
    ∀ (n : RingId) (i : Fin 4), findAt (Reg.txFs n i) = .ok ⟨{ name := .txFs, off := 0x10004, dims := [(0x1000, 4)], lease := .ring, reset := 0x60, rw := 0xFF }, [n.val, i.val]⟩ := by
  decide +kernel

end Sys2Proof.Machine.State
end

