-- ==== Sys2Proof/Machine/Analog.lean ====
section
/-! DEFINITION. What the TX pins carry (R238, R239, R244-R246, R486): the currents of both legs, and the cells of the DAC that are on. -/

namespace Sys2Proof.Machine

/-- Full scale in milliamperes for an FS.CODE (R238). -/
def fsAmps (code : Nat) : Rat := 8 + code / 8

/-- The cells of a DAC that a code turns on (R238): unary cells of 1,024 LSB, unary cells of 64 LSB, and the binary cells. -/
def dacCells (code : Int) : Nat × Nat × Nat :=
  let u := (code + 32768).toNat
  (u / 1024, u / 64 % 16, u % 64)

/-- The currents of both legs, in milliamperes, for a code at full scale `fs` (R238). -/
def legPair (fs : Rat) (code : Int) : Rat × Rat :=
  let p := fs * (code + 32768) / 65536
  (p, fs - p)

namespace State

/-- The code that drives half-sample `h` (0 or 1) of sample `i` of pin beat `P` (R239): in mix-mode the second half is inverted. -/
def heldCode (s : State) (n c P i h : Nat) : Int :=
  let x := s.txCode n c P i
  if s.regFld (Reg.txCtrl n c) 5 4 = 1 ∧ h = 1 then -x else x

/-- The common current of both legs of a balanced output (R244, R246): FS / 2, or on its way to it from the FS before an FS change. -/
def halfScale (s : State) (n c : Nat) : Rat :=
  let fs := fsAmps (s.regFld (Reg.txFs n c) 7 0)
  match (s.tx n c).settleTo with
  | some t =>
    let old := fsAmps (s.tx n c).fsOld.toNat
    (fs + (old - fs) * (min 3000 (t - s.beat) : Nat) / 3000) / 2
  | none => fs / 2

/-- The currents of both legs of a TX output, in milliamperes, in half-sample `h` of sample `i` of the present beat (R238, R239, R244,
R246, R486): 0 mA before the DAC clock is locked, linear ramps over 150,000 beats, balanced without EN and while it settles. -/
def legCurrents (s : State) (n c i h : Nat) : Rat × Rat :=
  let ramp := fun k : Nat => s.halfScale n c * (min 150000 k : Nat) / 150000
  match (s.tx n c).out with
  | .off => (0, 0)
  | .rampUp t => (ramp (150000 - (t - s.beat)), ramp (150000 - (t - s.beat)))
  | .rampDown t => (ramp (t - s.beat), ramp (t - s.beat))
  | .live =>
    if s.txBalanced n c then (s.halfScale n c, s.halfScale n c)
    else legPair (fsAmps (s.regFld (Reg.txFs n c) 7 0)) (s.heldCode n c s.beat i h)

end State

end Sys2Proof.Machine
end

