-- ==== Sys2Proof/Machine/Package.lean ====
section
/-! DEFINITION. The balls of the package (R9, R537, R541-R548): which net lies at row r and column c, each from 1 to 68. -/

namespace Sys2Proof.Machine

/-- A supply rail or ground (R508, R548). -/
inductive Rail where
  | core | sram | daca | dach | adca | adch | eth | ethh | trp | pll | io | nvm | biasP | biasN | vss
  deriving DecidableEq, Repr

/-- A net of the package (R539): `n` tells the N leg of a pair from its P leg. -/
inductive Net where
  | supply (r : Rail)
  | tx (i : Nat) (n : Bool) | rx (i : Nat) (n : Bool)
  | biasF (k : Nat) | biasS (k : Nat) | biasRs (k : Nat)
  | trpTx (k lane : Nat) (n : Bool) | trpTxCk (k : Nat) (n : Bool) | trpRx (k lane : Nat) (n : Bool) | trpRxCk (k : Nat) (n : Bool)
  | ethTx (p lane : Nat) (n : Bool) | ethRx (p lane : Nat) (n : Bool) | ethRefClk (n : Bool)
  | refClk (n : Bool) | syncIn (n : Bool) | syncOut (n : Bool)
  | mark (m : Nat) (n : Bool) | trig (i : Nat) (n : Bool) | hkAin (j : Nat)
  | i2cScl (p : Nat) | i2cSda (p : Nat) | modPrsN (p : Nat) | modIntN (p : Nat) | modRstN (p : Nat)
  | resetN | pwrOk | clrN | alertN | thermTripN | fanPwm (f : Nat) | fanTach (f : Nat)
  | tck | tms | tdi | tdo | trstN | strap (i : Nat) | bootMode (i : Nat)
  deriving DecidableEq, Repr

/-- Ground. -/
def vssNet : Net := .supply .vss

/-- The sector of a ball and its sector coordinates (R541); none in the centre. -/
def sectorAt (r c : Nat) : Option (Nat × Nat × Nat) :=
  if r ≤ 17 ∧ c ≤ 51 then some (0, r, c)
  else if r ≤ 51 ∧ 52 ≤ c then some (1, 69 - c, r)
  else if 52 ≤ r ∧ 18 ≤ c then some (2, 69 - r, 69 - c)
  else if 18 ≤ r ∧ c ≤ 17 then some (3, c, 69 - r)
  else none

/-- The pair position of a column and whether it holds the N leg (R543); columns 1, 4, 7, 10 and 13 are VSS. -/
def pairAt (c : Nat) : Option (Nat × Bool) := if c % 3 = 1 then none else some ((c - 2) / 3, c % 3 == 0)

/-- The pair at a column of a row of pair positions, or VSS. -/
def pairNet (c : Nat) (f : Nat → Bool → Net) : Net :=
  match pairAt c with
  | some (q, n) => f q n
  | none => vssNet

/-- Rows 1 to 11, columns 1 to 13 of sector `k` (R543): Trapeze link k. -/
def linkNet (k r c : Nat) : Net :=
  match r with
  | 2 => pairNet c (.trpTx k)
  | 4 => pairNet c fun q => .trpTx k (4 + q)
  | 6 => pairNet c fun q n => if q = 0 then .trpTx k 8 n else if q = 1 then .trpTxCk k n else if q = 2 then .trpRxCk k n else .trpRx k 8 n
  | 8 => pairNet c (.trpRx k)
  | 10 => pairNet c fun q => .trpRx k (4 + q)
  | _ => vssNet

/-- The S block of sector 1 + p (R545): Ethernet port p. -/
def portNet (p r c : Nat) : Net :=
  match r, c with
  | 12, c => pairNet c (.ethTx p)
  | 13, c => pairNet c fun q => .ethTx p (4 + q)
  | 15, c => pairNet c (.ethRx p)
  | 16, c => pairNet c fun q => .ethRx p (4 + q)
  | 17, 2 => .i2cScl p
  | 17, 3 => .i2cSda p
  | 17, 5 => .modPrsN p
  | 17, 6 => .modIntN p
  | 17, 7 => .modRstN p
  | 17, 11 => if p = 0 then .ethRefClk false else vssNet
  | 17, 12 => if p = 0 then .ethRefClk true else vssNet
  | _, _ => vssNet

/-- The S blocks of sectors 0 and 3 (R546). -/
def systemNet (k r c : Nat) : Net :=
  match k, r, c with
  | 0, 12, 2 => .refClk false
  | 0, 12, 3 => .refClk true
  | 0, 12, 5 => .syncIn false
  | 0, 12, 6 => .syncIn true
  | 0, 12, 8 => .syncOut false
  | 0, 12, 9 => .syncOut true
  | 0, 14, 2 => .resetN
  | 0, 14, 3 => .pwrOk
  | 0, 14, 4 => .clrN
  | 0, 14, c => if 6 ≤ c ∧ c ≤ 9 then .strap (c - 6) else if c = 10 ∨ c = 11 then .bootMode (c - 10) else vssNet
  | 3, 12, 2 => .tck
  | 3, 12, 3 => .tms
  | 3, 12, 4 => .tdi
  | 3, 12, 5 => .tdo
  | 3, 12, 6 => .trstN
  | 3, 12, 8 => .alertN
  | 3, 12, 9 => .thermTripN
  | 3, 13, 2 => .fanPwm 0
  | 3, 13, 3 => .fanTach 0
  | 3, 13, 5 => .fanPwm 1
  | 3, 13, 6 => .fanTach 1
  | _, _, _ => vssNet

/-- A run of `count` groups of `step` balls from column `first` (R544): the group of column `c` and its place in the group. -/
def groupAt (first step count c : Nat) : Option (Nat × Nat) :=
  if first ≤ c ∧ (c - first) / step < count then some ((c - first) / step, (c - first) % step) else none

/-- A rail on odd columns (R544). -/
def oddRail (c : Nat) (x : Rail) : Net := if c % 2 = 1 then .supply x else vssNet

/-- Columns 14 to 51 of sector `k` (R542, R544): the converter die. -/
def dieNet (k r c : Nat) : Net :=
  match r with
  | 2 => match groupAt 15 3 12 c with
    | some (j, 0) => .tx (12 * k + j) false
    | some (j, 1) => .tx (12 * k + j) true
    | _ => vssNet
  | 5 => match groupAt 16 6 6 c with
    | some (j, 0) => .rx (6 * k + j) false
    | some (j, 1) => .rx (6 * k + j) true
    | _ => vssNet
  | 7 => match groupAt 14 3 12 c with
    | some (j, 0) => .biasF (12 * k + j)
    | some (j, 1) => .biasS (12 * k + j)
    | some (j, _) => .biasRs (12 * k + j)
    | none => vssNet
  | 8 => if c ≤ 26 then .supply .biasP else if c ≤ 39 then .supply .biasN else vssNet
  | 9 => match groupAt 15 3 4 c, groupAt 27 3 2 c with
    | some (q, 0), _ => .mark (4 * k + q) false
    | some (q, 1), _ => .mark (4 * k + q) true
    | _, some (q, 0) => .trig (2 * k + q) false
    | _, some (q, 1) => .trig (2 * k + q) true
    | _, _ => if c = 33 then .hkAin k else vssNet
  | 10 => oddRail c .dach
  | 11 => oddRail c .adch
  | 12 => oddRail c .daca
  | 13 => oddRail c .daca
  | 14 => oddRail c .adca
  | 15 => oddRail c .adca
  | 16 => oddRail c .pll
  | 17 => oddRail c .core
  | _ => vssNet

/-- The net of a ball of sector `k` (R543-R546). -/
def sectorNet (k r c : Nat) : Net :=
  if 14 ≤ c then dieNet k r c
  else if r ≤ 11 then linkNet k r c
  else if k = 1 ∨ k = 2 then portNet (k - 1) r c
  else systemNet k r c

/-- The net of a ball of the centre (R547). -/
def centreNet (r c : Nat) : Net :=
  if (r + c) % 2 = 0 then vssNet
  else if r ≤ 23 then .supply .sram
  else if 46 ≤ r then .supply .eth
  else if c ≤ 23 then .supply .trp
  else if c ≤ 45 then .supply .core
  else if r ≤ 31 then .supply .pll
  else if r ≤ 37 then .supply .ethh
  else if r ≤ 43 then .supply .io
  else .supply .nvm

/-- The net of ball r/c (R541, R547). -/
def ballNet (r c : Nat) : Net :=
  match sectorAt r c with
  | some (k, x, y) => sectorNet k x y
  | none => centreNet r c

end Sys2Proof.Machine
end

