-- ==== Sys2Proof/Machine/Pins.lean ====
section
/-! DEFINITION. What the device drives on its pins from power-up on (R528): MARK, SYNC_OUT, ALERT_N, THERM_TRIP_N, FAN_PWM and the lanes. The
currents of the TX outputs are in Machine/Analog.lean. -/

namespace Sys2Proof.Machine.State

/-- The level of MARK[m], none while it has high impedance in reset (R402, R528). -/
def markPin (s : State) (m : Nat) : Option Bool := if s.rst.inReset then none else some (s.markBall m)

/-- The level of SYNC_OUT, none while it has high impedance in reset (R528, R533). -/
def syncPin (s : State) : Option Bool := if s.rst.inReset then none else some s.syncOut

/-- ALERT_N is released, not driven low (R110, R528). -/
def alertReleased (s : State) : Bool := s.rst.inReset || s.alertN

/-- THERM_TRIP_N is released, not driven low (R487, R513, R528). -/
def tripReleased (s : State) : Bool := s.rst.inReset || !s.hk.tripped

/-- The lanes of Ethernet port `p` are in electrical idle (R528): in reset, until phase 0x4, and while MODE is off. -/
def ethIdle (s : State) (p : Nat) : Bool :=
  s.rst.inReset || decide (phaseCode s.rst.phase < 4 ∨ s.rst.phase = .test) || decide (s.regFld (Reg.ethCtrl p) 5 4 = 2)

/-- The data lanes of Trapeze link `k` are in electrical idle (R352, R528): until CMD.START. -/
def trpIdle (s : State) (k : Nat) : Bool := s.rst.inReset || decide ((s.link k).st = .off) || !s.hk.powered

/-- The forwarded clocks of the Trapeze links run (R344, R528): from the moment the core PLL locks. -/
def trpClock (s : State) : Bool := !s.rst.inReset && s.rst.coreLock

/-- The I2C buses are released (R40, R528): until phase 0x4. -/
def i2cReleased (s : State) : Bool := s.rst.inReset || decide (phaseCode s.rst.phase < 4 ∨ s.rst.phase = .test)

/-- MOD_RST_N[p] is driven low (R550): in reset, until phase 0x4, and while MODE is off. -/
def modRstLow (s : State) (p : Nat) : Bool := s.rst.inReset || s.rst.modRst || decide (s.regFld (Reg.ethCtrl p) 5 4 = 2)

end Sys2Proof.Machine.State
end

