-- ==== Sys2Proof/WellFormed.lean ====
section
/-! DEFINITION. Well-formed commands: operands that an occurrence of the command can have. -/

namespace Sys2Proof

/-- Whether the operands of a command can occur: a message and the data of an echo request fit an IP datagram, the IHL of an IPv4 header
fits its 4 bits (R36), counts fit their 16-bit field (R45), the ring and the stream of an operation fit their 8-bit fields (R46), and an
oversize frame is longer than the shorter limit (R35). -/
def Instr.wf : Instr → Bool
  | .rcpRequest _ a m => decide (m.length ≤ 65535 ∧ a.head.ihl < 16)
  | .echoRequest _ a _ _ data => decide (data.length ≤ 65535 ∧ a.head.ihl < 16)
  | .arpRequest _ a _ => decide (a.head.ihl < 16)
  | .neighborSolicitation _ a _ => decide (a.head.ihl < 16)
  | .ptpMessageReceive _ m => decide (m.head.ihl < 16)
  | .oversizeDiscard _ len => decide (1522 < len)
  | .blockRead _ _ _ k => decide (k < 65536)
  | .blockWrite _ _ _ ws => decide (ws.length < 65536)
  | .streamData _ _ n j _ ws => decide (n < 256 ∧ j < 256 ∧ ws.length < 65536)
  | .credit _ _ n j => decide (n < 256 ∧ j < 256)
  | .resultAck _ _ n _ => decide (n < 256)
  | _ => true

end Sys2Proof
end

