-- ==== Sys2Proof/Tests/Slice0.lean ====
section
/-! SUPPORT. The model's own tests: ill-formed commands, states that meet the hypotheses of each statement, and worked examples of the spec. -/

namespace Sys2Proof.Tests

set_option Elab.async false

open Sys2Proof.Machine

/-! ### Ill-formed commands -/

/-- A message longer than any frame is refused (R51). -/
theorem test_wf_rcpRequest : Instr.wf (.rcpRequest 0 {} (List.replicate 65536 0)) = false := by decide +kernel
/-- A frame of ordinary length is no oversize frame (R51). -/
theorem test_wf_oversizeDiscard : Instr.wf (.oversizeDiscard 0 1452) = false := by decide
/-- A BLOCK_READ count outside its 16-bit field is refused (R45). -/
theorem test_wf_blockRead : Instr.wf (.blockRead 0 0 0 65536) = false := by decide
/-- A BLOCK_WRITE of more words than its COUNT can name is refused (R45). -/
theorem test_wf_blockWrite : Instr.wf (.blockWrite 0 0 0 (List.replicate 65536 0)) = false := by decide +kernel
/-- Ring 256 fits no stream operand (R46). -/
theorem test_wf_streamData : Instr.wf (.streamData 0 0 256 0 0 []) = false := by decide
/-- Stream 256 fits no stream operand (R46). -/
theorem test_wf_credit : Instr.wf (.credit 0 0 0 256) = false := by decide
/-- Ring 256 fits no ring operand (R46). -/
theorem test_wf_resultAck : Instr.wf (.resultAck 0 0 256 0) = false := by decide

/-! ### Deciding the hypotheses -/

/-- Whether a Juggler is of its size. -/
def jugSized (j : Jug) : Bool :=
  decide (j.cres.length = 32 ∧ j.fresI.length = 32 ∧ j.fresQ.length = 32 ∧ j.rinfo.length = 32)

/-- Whether a ring is of its size. -/
def ringSized (r : Ring) : Bool :=
  decide (r.voices.length = 32 ∧ r.tx.length = 4 ∧ r.bias.length = 4 ∧ r.rx.length = 2 ∧ r.lanes.length = 32 ∧ r.strm.length = 4) &&
    jugSized r.jug

/-- Whether a state is sound. -/
def sound (s : State) : Bool :=
  Regs.wf s.regs && Memory.wf s.mem && s.rings.all ringSized &&
    (s.ports.all fun e => decide (e.ingress.length = 8 ∧ e.xoffAt.length = 8 ∧ e.pausedTo.length = 8)) &&
    decide (s.rings.length = 12 ∧ s.sess.length = 8 ∧ s.ports.length = 2 ∧ s.links.length = 4 ∧ s.trap.bars.length = 16 ∧
      s.trigs.length = 8 ∧ s.tius.length = 4 ∧ s.marks.length = 16 ∧ s.car.length = 8 ∧ s.memu.wake.length = 12) &&
    decide (s.cal.rx.length = 24 ∧ s.cal.tx.length = 48 ∧ s.cal.die.length = 4 ∧ s.hk.sens.length = 16 ∧ s.hk.fans.length = 2)

/-- What `sound` decides. -/
theorem inv (s : State) (h : sound s = true := by decide +kernel) : s.Inv := by
  simp only [sound, ringSized, jugSized, Bool.and_eq_true, List.all_eq_true, decide_eq_true_eq] at h
  obtain ⟨⟨⟨⟨⟨h1, h2⟩, h3⟩, h4⟩, h5⟩, h6⟩ := h
  refine ⟨⟨h1, h2⟩, h5.1, fun r hr => ?_, h5.2.1, h5.2.2.1, h4, h5.2.2.2.1, h5.2.2.2.2.1, h5.2.2.2.2.2.1, h5.2.2.2.2.2.2.1,
    h5.2.2.2.2.2.2.2.1, h5.2.2.2.2.2.2.2.2.1, h5.2.2.2.2.2.2.2.2.2, ⟨h6.1, h6.2.1, h6.2.2.1⟩, h6.2.2.2⟩
  obtain ⟨⟨a, b, c, d, e, f⟩, j⟩ := h3 r hr
  exact ⟨a, b, c, d, e, f, j⟩

/-- What stands for every state of a list, each checked. -/
theorem all_inv (l : List State) (h : l.all sound = true := by decide +kernel) : ∀ s ∈ l, s.Inv :=
  fun _ hs => inv _ (List.all_eq_true.mp h _ hs)

/-- The front end of ring `n` without its hold. -/
def freed (s : State) (n : Nat) : State := s.modSeq n fun q => { q with wait := .none }

/-- The state in which a Zwiec instruction acts. -/
def actsIn (s : State) (n : Nat) (w : BitVec 64) : State := ((freed s n).zGate n w).2

/-- Whether nothing stands in the way of an instruction. -/
def issuesB (s : State) (n : Nat) (w : BitVec 64) : Bool :=
  s.zReady n && decide (s.zFetch n = w ∧ (s.seq n).caseUse = none ∧ s.damageIn (s.zAddr n) 8 = [] ∧ s.memu.borrow = none ∧
    s.regFld (Reg.seqRsc n) 3 0 = 0 ∧ (s.seq n).ldq = [])

/-- What `issuesB` decides. -/
theorem issues (s : State) (n : Nat) (w : BitVec 64) (h : issuesB s n w = true := by decide +kernel) : s.Issues n w := by
  simp only [issuesB, Bool.and_eq_true, decide_eq_true_eq] at h
  exact ⟨h.1, h.2.1, h.2.2.1, h.2.2.2.1, h.2.2.2.2.1, h.2.2.2.2.2.1, h.2.2.2.2.2.2⟩

/-- What stands for every state of a list, each checked. -/
theorem all_issues (n : Nat) (l : List (State × BitVec 64)) (h : (l.all fun x => sound x.1 && issuesB x.1 n x.2) = true := by decide +kernel) :
    ∀ x ∈ l, x.1.Inv ∧ x.1.Issues n x.2 := by
  intro x hx
  have := List.all_eq_true.mp h x hx
  rw [Bool.and_eq_true] at this
  exact ⟨inv _ this.1, issues _ _ _ this.2⟩

/-- Whether an instruction issues and goes on at once. -/
def goesB (s : State) (n : Nat) (w : BitVec 64) : Bool :=
  issuesB s n w && s.zLegal n w && decide (zAction w = true → zMode w = 3) && ((freed s n).zGate n w).1

/-- What `goesB` decides. -/
theorem goes (s : State) (n : Nat) (w : BitVec 64) (h : goesB s n w = true := by decide +kernel) : s.Goes n w (actsIn s n w) := by
  simp only [goesB, Bool.and_eq_true, decide_eq_true_eq] at h
  exact ⟨issues s n w h.1.1.1, h.1.1.2, h.1.2, Prod.ext h.2 rfl⟩

/-- What stands for every state of a list, each checked. -/
theorem all_goes (n : Nat) (l : List (State × BitVec 64)) (h : (l.all fun x => sound x.1 && goesB x.1 n x.2) = true := by decide +kernel) :
    ∀ x ∈ l, x.1.Inv ∧ x.1.Goes n x.2 (actsIn x.1 n x.2) := by
  intro x hx
  have := List.all_eq_true.mp h x hx
  rw [Bool.and_eq_true] at this
  exact ⟨inv _ this.1, goes _ _ _ this.2⟩

/-- The state in which an action of MODE 0 acts at once. -/
def actsAt (s : State) (n : Nat) : State :=
  ((freed s n).goNext n).modSeq n fun q => { q with relBeat := s.beat, relCount := s.releasedNow n + 1 }

/-- Whether an action of MODE 0 acts at once. -/
def actsB (s : State) (n : Nat) (w : BitVec 64) : Bool :=
  issuesB s n w && s.zLegal n w && zAction w &&
    decide (zMode w = 0 ∧ (s.seq n).taq.length < 64 ∧ (∀ e ∈ (s.seq n).taq, s.beat < e.at_) ∧ s.releasedNow n < 8)

/-- What `actsB` decides. -/
theorem acts (s : State) (n : Nat) (w : BitVec 64) (h : actsB s n w = true := by decide +kernel) : s.ActsNow n w (actsAt s n) := by
  simp only [actsB, Bool.and_eq_true, decide_eq_true_eq] at h
  exact ⟨h.1.2, .inr ⟨h.2.1, issues s n w h.1.1.1, h.1.1.2, h.2.2.1, h.2.2.2.1, h.2.2.2.2, rfl⟩⟩

/-- What stands for every action of a list, each checked. -/
theorem all_acts (n : Nat) (l : List (State × BitVec 64)) (h : (l.all fun x => sound x.1 && actsB x.1 n x.2) = true := by decide +kernel) :
    ∀ x ∈ l, x.1.Inv ∧ x.1.ActsNow n x.2 (actsAt x.1 n) := by
  intro x hx
  have := List.all_eq_true.mp h x hx
  rw [Bool.and_eq_true] at this
  exact ⟨inv _ this.1, acts _ _ _ this.2⟩

/-- The state in which a register write of session `u` from port `p` acts. -/
def takenIn (s : State) (p u : Nat) : State := (s.heard p u).modSess u fun x => { x with stage := none }

/-- Whether a session may write a register now. -/
def takesB (s : State) (p u a : Nat) : Bool :=
  s.portAnswers p && (s.session u).isOpen && (match leaseOf a with | some x => (takenIn s p u).leaseOk x u | none => true) &&
    decide ((takenIn s p u).rst.phase ≠ .recovery) && !(takenIn s p u).lostWrite p a

/-- What `takesB` decides. -/
theorem takes (s : State) (p u a : Nat) (h : takesB s p u a = true := by decide +kernel) : s.Takes p u a (takenIn s p u) := by
  simp only [takesB, Bool.and_eq_true, decide_eq_true_eq, Bool.not_eq_true'] at h
  refine ⟨h.1.1.1.1, h.1.1.1.2, rfl, fun x hx => ?_, h.1.2, h.2⟩
  have := h.1.1.2
  rw [hx] at this
  exact this

/-- Whether an operation of a session is executed now. -/
def hearsB (s : State) (p u : Nat) : Bool := s.portAnswers p && (s.session u).isOpen && decide ((s.heard p u).rst.phase ≠ .recovery)

/-- What `hearsB` decides. -/
theorem hears (s : State) (p u : Nat) (h : hearsB s p u = true := by decide +kernel) : s.Hears p u (s.heard p u) := by
  simp only [hearsB, Bool.and_eq_true, decide_eq_true_eq] at h
  exact ⟨h.1.1, h.1.2, rfl, h.2⟩

/-- The state in which a Juggler packet acts. -/
def packetIn (s : State) (n : Nat) : State :=
  ((s.jSettle n).jRestore n).modJug n fun j => { j with issuedAt := some s.beat, rtiHold := j.rtiHold && j.slots.isSome }

/-- Whether nothing stands in the way of a packet. -/
def jissuesB (s : State) (n : Nat) (w : Word) : Bool :=
  s.jReady n && s.jLegalHere n w && decide (s.jFetch n = w ∧ s.memu.borrow = none ∧ s.memu.damaged = [] ∧ (packetIn s n).memu.damaged = [])

/-- What `jissuesB` decides. -/
theorem jissues (s : State) (n : Nat) (w : Word) (h : jissuesB s n w = true := by decide +kernel) : s.JIssues n w (packetIn s n) := by
  simp only [jissuesB, Bool.and_eq_true, decide_eq_true_eq] at h
  obtain ⟨⟨h1, h2⟩, h3, h4, h5, h6⟩ := h
  exact ⟨h1, h3, h4, by rw [State.damageIn, h5]; rfl, fun a _ => by rw [State.damageIn, h6]; rfl, h2, rfl⟩

/-- A result queue that holds no record. -/
theorem noneHeld (s : State) (n : Nat) (h : (s.resq n).recs = [] := by decide +kernel) : s.NoneHeld n := by
  intro r hr
  rw [h] at hr
  cases hr

/-! ### Small states -/

/-- A Zwiec word. -/
def zw (op mode t rest : Nat) : BitVec 64 := BitVec.ofNat 64 (2 ^ 58 * op + 2 ^ 56 * mode + 2 ^ 40 * t + rest)

/-- A quiet device in beat 100. -/
def quiet : State := ({ State.reset with beat := 100 }).modRst fun r => { r with coreLock := true, phase := .ready }

/-- Ring 11 runs in beat 100 with the word at PC 0. -/
def zs (w : BitVec 64) : State :=
  ((quiet.setBytes (State.ringMem 11) (leBytes 8 w.toNat))).modSeq 11 fun q => { q with st := .running }

/-- Both ports are UP and session 7 is open with a push address on port 1. -/
def hosted : State :=
  let s := (quiet.modPort 0 fun e => { e with state := .up }).modPort 1 fun e => { e with state := .up }
  s.modSess 7 fun x => { x with isOpen := true, addr1 := some {} }

/-- The Juggler of ring 11 runs in beat 100 with the packet at PC 0. -/
def js (w : Word) : State :=
  (quiet.setWord (State.ringMem 11 + 0x700000) w).modJug 11 fun j => { j with st := .running }

/-- A Juggler packet. -/
def jp (cls op rest : Nat) : Word := BitVec.ofNat 32 (2 ^ 30 * cls + op + rest)


/-- What stands for every register write of a list, each checked. -/
theorem all_takes (l : List (State × Nat)) (h : (l.all fun x => sound x.1 && takesB x.1 1 7 x.2) = true := by decide +kernel) :
    ∀ x ∈ l, x.1.Inv ∧ x.1.Takes 1 7 x.2 (takenIn x.1 1 7) := by
  intro x hx
  have := List.all_eq_true.mp h x hx
  rw [Bool.and_eq_true] at this
  exact ⟨inv _ this.1, takes _ _ _ _ this.2⟩

/-- What stands for every operation of a list, each checked. -/
theorem all_hears (l : List State) (h : (l.all fun x => sound x && hearsB x 1 7) = true := by decide +kernel) :
    ∀ s ∈ l, s.Inv ∧ s.Hears 1 7 (s.heard 1 7) := by
  intro x hx
  have := List.all_eq_true.mp h x hx
  rw [Bool.and_eq_true] at this
  exact ⟨inv _ this.1, hears _ _ _ this.2⟩

/-- What stands for every packet of a list, each checked. -/
theorem all_jissues (n : Nat) (l : List (State × Word)) (h : (l.all fun x => sound x.1 && jissuesB x.1 n x.2) = true := by decide +kernel) :
    ∀ x ∈ l, x.1.Inv ∧ x.1.JIssues n x.2 (packetIn x.1 n) := by
  intro x hx
  have := List.all_eq_true.mp h x hx
  rw [Bool.and_eq_true] at this
  exact ⟨inv _ this.1, jissues _ _ _ this.2⟩
/-! ### Zwiec -/

/-- ADD to SHR and CMP issue and go on. -/
theorem wit_ZwiecArithmetic : ∀ x ∈ [0x13, 0x14, 0x15, 0x16, 0x17, 0x18, 0x19, 0x1A].map (fun op => (zs (zw op 0 0 0), zw op 0 0 0)),
    x.1.Inv ∧ x.1.Goes 11 x.2 (actsIn x.1 11 x.2) := all_goes 11 _

/-- LDI of register 19 and NOP, a branch taken and one not, CALL at depth 15, RET at depth 1, LOOP with count 1 and with 0, and ENDL
with the counter at 2 and at 1. -/
theorem wit_LoadNopAndControlFlow :
    let d := fun k w => (zs w).setReg (Reg.seqSt 11) (BitVec.ofNat 32 (2 ^ 16 * k))
    let lc := fun k w => (zs w).setReg (Reg.seqLc 11 0) k
    (∀ x ∈ [(zs (zw 0x10 0 0 (2 ^ 35 * 19)), zw 0x10 0 0 (2 ^ 35 * 19)), (zs (zw 0 0 0 0), zw 0 0 0 0),
        (zs (zw 8 0 0 0), zw 8 0 0 0), (zs (zw 8 0 0 (2 ^ 36)), zw 8 0 0 (2 ^ 36)),
        (d 15 (zw 9 0 0 5), zw 9 0 0 5), (d 1 (zw 0xA 0 0 0), zw 0xA 0 0 0),
        (zs (zw 0xB 0 0 (2 ^ 17)), zw 0xB 0 0 (2 ^ 17)), (zs (zw 0xB 0 0 0), zw 0xB 0 0 0),
        (lc 2 (zw 0xC 0 0 0), zw 0xC 0 0 0), (lc 1 (zw 0xC 0 0 0), zw 0xC 0 0 0)],
      x.1.Inv ∧ x.1.Goes 11 x.2 (actsIn x.1 11 x.2)) ∧
    brTaken ((zs 0).getReg (Reg.seqSt 11)) 0 = true ∧ brTaken ((zs 0).getReg (Reg.seqSt 11)) 1 = false :=
  ⟨all_goes 11 _, by decide +kernel, by decide +kernel⟩

/-- DEC of bits 31 to 31, CASE of bits 31 to 28 and WAITC, with their bits or condition there and not there. -/
theorem wit_Decisions :
    let dec := zw 0xE 0 0 (2 ^ 31 * 31)
    let cas := zw 0xD 0 0 (2 ^ 35 * 28)
    let wc := zw 4 0 0 (2 ^ 24 * 31)
    let full := fun w => (zs w).setReg (Reg.seqDrvf 11) 0xF0000000
    (∀ x ∈ [(full dec, dec), (zs dec, dec), (full cas, cas), (zs cas, cas), (full wc, wc), (zs wc, wc)],
      x.1.Inv ∧ x.1.Goes 11 x.2 (actsIn x.1 11 x.2)) ∧
    (∀ i < 4, bit ((actsIn (full cas) 11 cas).getReg (Reg.seqDrvf 11)) (28 + i) = true) ∧
    bit ((actsIn (zs cas) 11 cas).getReg (Reg.seqDrvf 11)) 31 = false ∧
    (actsIn (full wc) 11 wc).condHolds 11 31 = true ∧ (actsIn (zs wc) 11 wc).condHolds 11 31 = false :=
  ⟨all_goes 11 _, by decide +kernel, by decide +kernel, by decide +kernel, by decide +kernel⟩

/-- One decision arrives in its beat, over a valid bit and not. -/
theorem wit_DecisionArrives :
    let p : Post := { due := 100, data := 1, mask := 1 }
    let s := quiet.modSeq 11 fun q => { q with posts := [p] }
    s.Inv ∧ (s.seq 11).posts = [p] ∧ p.due ≤ s.beat ∧ (s.seq 11).wait = .none ∧
      p.mask &&& (s.setReg (Reg.seqDrvf 11) 1).getReg (Reg.seqDrvf 11) ≠ 0 := by
  refine ⟨inv _, ?_⟩
  decide +kernel

/-- NOP in MODE 1 for beat 101, for beat 100, in MODE 2 for beat 99, in MODE 3 with a condition that does not hold, and in MODE 0. -/
theorem wit_TimingField :
    (∀ x ∈ [(1, 101), (1, 100), (2, 99), (3, 0), ((0, 0) : Nat × Nat)], let w := zw 0 x.1 x.2 0
      (zs w).Issues 11 w ∧ (zs w).zLegal 11 w = true ∧ zOp w = 0) ∧
    zwiecRow 0 11 = some (.nop 11) ∧ (zs (zw 0 3 0 0)).condHolds 11 0 = false := by
  refine ⟨fun x hx => ⟨issues _ _ _ ?_, ?_⟩, rfl, by decide +kernel⟩ <;>
  · revert x
    decide +kernel

/-- The last operands of the six wait conditions. -/
theorem wit_WaitConditions : ∀ a ∈ [(255 : Nat), 15, 511, 127], a < 4096 := by decide

/-- HALT, SHOT with an empty queue and with one that is not, WAIT, a SYNC of one ring and one of two, and XSYNC. -/
theorem wit_ZwiecHolds :
    let syn := fun m => zw 5 0 0 m
    (∀ x ∈ [(zs (zw 1 0 0 0), zw 1 0 0 0), (zs (zw 2 0 0 0), zw 2 0 0 0),
        ((zs (zw 2 0 0 0)).modSeq 11 fun q => { q with taq := [{ at_ := 101 }] }, zw 2 0 0 0), (zs (zw 3 0 0 7), zw 3 0 0 7),
        (zs (syn 0x800), syn 0x800), (zs (syn 0x801), syn 0x801), (zs (zw 6 0 0 1), zw 6 0 0 1)],
      x.1.Inv ∧ x.1.Goes 11 x.2 (actsIn x.1 11 x.2)) ∧
    (let h := (actsIn (zs (syn 0x800)) 11 (syn 0x800)).modSeq 11 fun q => { q with wait := .sync 0x800 }
     ∀ k < 12, bit (0x800 : BitVec 12) k = true → (h.seq k).st = .running ∧ (h.seq k).wait = .sync 0x800) ∧
    ((zs (syn 0x801)).seq 0).st ≠ .running :=
  ⟨all_goes 11 _, by decide +kernel, by decide +kernel⟩

/-- The holds that end: a timed NOP, one with a condition, WAIT, WAITC, a DEC timeout, and a completed SYNC. -/
theorem wit_HoldsEnd :
    let held := fun w x => (zs w).modSeq 11 fun q => { q with wait := x }
    let t := zw 0 1 100 0
    let c := zw 0 3 0x3000 0
    let wc := zw 4 0 0 (2 ^ 24 * 0x3000)
    ((held t (.timing 100)).Inv ∧ (freed (held t (.timing 100)) 11).Issues 11 t ∧ (held t (.timing 100)).zLegal 11 t = true ∧
      (held t (.timing 100)).timedBeat 11 t = 100) ∧
    ((held c (.cond 0x3000)).Inv ∧ (freed (held c (.cond 0x3000)) 11).Issues 11 c ∧ (held c (.cond 0x3000)).zLegal 11 c = true ∧
      (held c (.cond 0x3000)).condHolds 11 0x3000 = true) ∧
    ((held (zw 3 0 0 7) (.waitN 100)).Inv ∧ (held (zw 3 0 0 7) (.waitN 100)).zFetch 11 = zw 3 0 0 7) ∧
    ((held wc (.waitc none)).Inv ∧ (held wc (.waitc none)).zFetch 11 = wc ∧ (held wc (.waitc none)).condHolds 11 0x3000 = true) ∧
    (held (zw 0xE 0 0 0) (.dec (some 100))).Inv ∧
    ((held (zw 5 0 0 0x800) (.sync 0x800)).modSeq 11 fun q => { q with syncAt := some 100 }).Inv := by
  refine ⟨⟨inv _, issues _ _ _, ?_⟩, ⟨inv _, issues _ _ _, ?_⟩, ⟨inv _, ?_⟩, ⟨inv _, ?_⟩, inv _, inv _⟩ <;> decide +kernel

/-- SHOT at CP0 with an empty queue and with one that is not, at CP1 with and without a pending halt, and a drained HALT. -/
theorem wit_ShotBoundary :
    let at_ := fun (f : Seq → Seq) => (zs (zw 2 0 0 0)).modSeq 11 f
    let cp1 := fun b => at_ fun q => { q with wait := .cp1 100, haltPend := b }
    let drain := at_ fun q => { q with wait := .haltDrain, haltFrom := some 90 }
    ((at_ fun q => { q with wait := .cp0 }).Inv ∧ (at_ fun q => { q with wait := .cp0, taq := [{ at_ := 101 }] }).Inv) ∧
    ((cp1 true).Inv ∧ (cp1 true).NoneHeld 11 ∧ ((cp1 true).seq 11).haltPend = true) ∧
    ((cp1 false).Inv ∧ (cp1 false).NoneHeld 11 ∧ ((cp1 false).seq 11).st = .running) ∧
    (drain.Inv ∧ drain.NoneHeld 11 ∧ (drain.seq 11).taq = [] ∧ (drain.seq 11).haltFrom.isSome = true ∧ drain.haltReady 11 = true) := by
  refine ⟨⟨inv _, inv _⟩, ⟨inv _, noneHeld _ _, ?_⟩, ⟨inv _, noneHeld _ _, ?_⟩, inv _, noneHeld _ _, ?_⟩ <;> decide +kernel


/-- The holds that time out, due and not due, and a SYNC with two rings due and one that is not. -/
theorem wit_Timeouts :
    let held := fun w x => (zs w).modSeq 11 fun q => { q with wait := x }
    let sync := fun (k : Nat) (s : State) => s.modSeq k fun q => { q with wait := .sync 0x801, syncAt := some 100 }
    (∀ s ∈ [held (zw 0xE 0 0 0x77) (.dec (some 100)), held (zw 0xD 0 0 0x77) (.caseW (some 99)), held (zw 4 0 0 5) (.waitc (some 100)),
        held (zw 4 0 0 5) (.waitc (some 101)), sync 0 (sync 11 quiet)], s.Inv) ∧
    ((held (zw 0xE 0 0 0x77) (.dec (some 100))).seq 11).st = .running ∧ ((sync 0 (sync 11 quiet)).seq 5).wait ≠ .sync 0x801 :=
  ⟨all_inv _, by decide +kernel, by decide +kernel⟩

/-- CP2 with nothing that pauses, under each of the four pause conditions, and with a vector at depth 15 and at depth 16. -/
theorem wit_ShotStartOrPause :
    let cp2 := fun (f : Seq → Seq) => (zs 0).modSeq 11 fun q => f { q with wait := .cp2, boundaryAt := 99 }
    let deep := fun (d : Nat) => (cp2 fun q => { q with udrCp1 := true }).setReg (Reg.seqSt 11) (BitVec.ofNat 32 (2 ^ 16 * d))
    let full := ((cp2 id).setReg (Reg.resqHwm 11) 0).modResq 11 fun q => { q with recs := [{}] }
    let dry := ((cp2 id).setReg (Reg.strmCfg 11 3) 0x10000).setReg (Reg.strmLow 11 3) 1
    (∀ s ∈ [cp2 id, cp2 fun q => { q with st := .paused }, deep 15, deep 16, full, dry, cp2 fun q => { q with thermEnd := some 101 },
        cp2 fun q => { q with hold := true }], s.Inv ∧ (s.seq 11).wait = .cp2 ∧ (s.seq 11).boundaryAt < s.beat ∧
          (s.seq 11).evalAt ≠ some s.beat ∧ (s.seq 11).haltPend = false) ∧
    (cp2 id).creditPause 11 = false ∧ (cp2 id).resqFill 11 + (cp2 id).pendingWins 11 ≤ (cp2 id).regFld (Reg.resqHwm 11) 15 0 ∧
    (deep 15).depth 11 = 15 ∧ (deep 16).depth 11 = 16 ∧ full.regFld (Reg.resqHwm 11) 15 0 < full.resqFill 11 + full.pendingWins 11 ∧ dry.creditPause 11 = true := by
  refine ⟨fun s hs => ⟨all_inv _ (by decide +kernel) s hs, ?_⟩, ?_⟩
  · revert s
    decide +kernel
  · decide +kernel

/-- LD and ST at the last word offset with their bank free and taken; a served LD, and an LD and an ST that wait. -/
theorem wit_LoadAndStore :
    let ld := zw 0x11 0 0 (2 ^ 35 * 19 + 2 ^ 31 * 15 + 0xFFFFF)
    let st := zw 0x12 0 0 (2 ^ 36 * 15 + 2 ^ 32 * 15 + 0xFFFFF)
    let busy := fun (s : State) (b : Nat) => s.modMemu fun m => { m with portA := [(b, 0, false)] }
    let late := fun (s : State) (r : LdReq) => s.modSeq 11 fun q => { q with ldq := [r] }
    (∀ x ∈ [(zs ld, ld), (zs st, st), (busy (zs ld) 15, ld), (busy (zs st) 15, st)],
      x.1.Inv ∧ x.1.Goes 11 x.2 (actsIn x.1 11 x.2)) ∧
    (∀ x ∈ [(zs ld, ld), (zs st, st)], (actsIn x.1 11 x.2).memu.portA = [] ∧ (actsIn x.1 11 x.2).memu.damaged = []) ∧
    (∀ s ∈ [late quiet { rd := some 19, served := some 96 }, late quiet {}, late (busy quiet 0) {}, late quiet { isStore := true }], s.Inv) ∧
    quiet.memu.portA = [] ∧ quiet.memu.borrow = none ∧ quiet.damageIn 0x10000000 4 = [] :=
  ⟨all_goes 11 _, by decide +kernel, all_inv _, by decide +kernel, by decide +kernel, by decide +kernel⟩

/-- An illegal NOP with an undefined timing field, one in MODE 0, an illegal FADE that is in time and one that is late, and illegal words
whose timing is honoured and is not yet. -/
theorem wit_IllegalInstruction :
    let il := fun (op mode t : Nat) => zw op mode t 1
    let ws := [il 0 0 1, il 0 0 0, il 0x2C 1 100, il 0x2C 2 99, il 0 1 100, il 0 1 101, il 0x2C 3 0x3000, il 0x2C 3 0]
    (∀ x ∈ ws.map fun w => (zs w, w), x.1.Inv ∧ x.1.Issues 11 x.2) ∧ (ws.all fun w => !(zs w).zLegal 11 w) = true ∧
    zTimingLegal (il 0 0 1) = false ∧ (zs (il 0x2C 1 100)).timedBeat 11 (il 0x2C 1 100) = 100 ∧
    (zs (il 0x2C 2 99)).timedBeat 11 (il 0x2C 2 99) = 99 ∧
    ([il 0 1 100, il 0x2C 3 0x3000].all fun w => ((freed (zs w) 11).zGate 11 w).1) = true ∧
    ([il 0 1 101, il 0x2C 3 0].all fun w => !((freed (zs w) 11).zGate 11 w).1) = true :=
  ⟨all_issues 11 _, by decide +kernel⟩

/-- A PHSET for beat 101 into a queue of none and of 63, and at a full one; due entries on time and late, and nine of them. -/
theorem wit_ActionQueue :
    let w := fun (m t : Nat) => zw 0x25 m t (2 ^ 34 * 31)
    let q := fun (m t : Nat) (l : List Entry) => (zs (w m t)).modSeq 11 fun q => { q with taq := l }
    let due := fun (a : Nat) => (quiet.modSeq 11 fun q => { q with taq := [{ at_ := a, word := w 1 5 }, { at_ := 101 }] })
    (∀ x ∈ [((1, 101, 0) : Nat × Nat × Nat), (2, 101, 63), (0, 0, 64)],
      (q x.1 x.2.1 (List.replicate x.2.2 { at_ := 102 })).Issues 11 (w x.1 x.2.1) ∧
        (q x.1 x.2.1 (List.replicate x.2.2 { at_ := 102 })).zLegal 11 (w x.1 x.2.1) = true) ∧
    zAction (w 1 101) = true ∧ zwiecRow 0x25 11 = some (.phset 11) ∧
    (∀ s ∈ [due 100, due 99, quiet.modSeq 11 fun q => { q with taq := List.replicate 9 { at_ := 100 } }], s.Inv ∧ s.releasedNow 11 < 8) ∧
    zOp (w 1 5) = 0x25 ∧ bit (w 1 5) 39 = false := by
  refine ⟨fun x hx => ⟨issues _ _ _ ?_, ?_⟩, by decide +kernel, rfl, fun s hs => ⟨all_inv _ (by decide +kernel) s hs, ?_⟩, by decide +kernel,
    by decide +kernel⟩
  · revert x
    decide +kernel
  · revert x
    decide +kernel
  · revert s
    decide +kernel

/-- PLAY, PLAYS with its stream disabled and enabled, STOP of voice 31, of all, and as a ramp; FRQ, PHS, PHSET and AMP of a voice and a
lane; FADE, SEND with and without the export of its ring, EVT, KER and TSET. -/
theorem wit_ActionsAtOnce :
    let sole := fun (op rest : Nat) => (zs (zw op 0 0 rest), zw op 0 0 rest)
    let pls := zw 0x21 0 0 (2 ^ 35 * 31 + 2 ^ 33 * 3 + 2 ^ 17 * 300)
    let snd := zw 0x2D 0 0 (2 ^ 20 * 0x800 + 2 ^ 19)
    let own := fun (w : BitVec 64) => (zs w).setReg (Reg.tsetOwner 7) 11
    let tse := fun (k : Nat) => zw 0x2B 0 0 (2 ^ 37 * 7 + k)
    (∀ x ∈ [sole 0x20 (2 ^ 35 * 31 + 2 ^ 23 * 4095), (zs pls, pls), ((zs pls).setReg (Reg.strmCfg 11 3) 0x10000, pls),
        sole 0x22 (2 ^ 35 * 31), sole 0x22 (2 ^ 35 * 31 + 2 ^ 33), sole 0x22 (2 ^ 34),
        sole 0x23 (2 ^ 39 + 2 ^ 34 * 31 + 2 ^ 33 + 2 ^ 32 + 4), sole 0x23 (2 ^ 34 * 31 + 7), sole 0x24 (2 ^ 34 * 31),
        sole 0x25 (2 ^ 39 + 2 ^ 34 * 31 + 2 ^ 33 + 15), sole 0x26 (2 ^ 35 * 31 + 2 ^ 34), sole 0x2C (2 ^ 38 * 3 + 2 ^ 37),
        (zs snd, snd), ((zs snd).setReg Reg.trpXport 0x08000000, snd), sole 0x2E 0x1FFFF, sole 0x2E 0xFFFF, sole 0x28 (2 ^ 35 * 31 + 2 ^ 23 * 4095),
        (own (tse 4095), tse 4095), (own (tse (2 ^ 35 + 1)), tse (2 ^ 35 + 1))],
      x.1.Inv ∧ x.1.ActsNow 11 x.2 (actsAt x.1 11)) ∧
    ((zs pls).setReg (Reg.strmCfg 11 3) 0x10000).regBit (Reg.strmCfg 11 3) 16 = true ∧ (zs pls).regBit (Reg.strmCfg 11 3) 16 = false :=
  ⟨all_acts 11 _, by decide +kernel, by decide +kernel⟩

/-- ACQ on a lane with no window, with one that closes now, with one of this beat, and with one that it cuts. -/
theorem wit_Windows :
    let acq := zw 0x27 0 0 (2 ^ 35 * 31 + 2 ^ 19 * 4)
    let win := fun (l : List Win) => ((zs acq).modLane 11 31 fun x => { x with wins := l })
    (∀ x ∈ [(win [], acq), (win [{ act := 90, closeAt := 126 }], acq), (win [{ act := 100, closeAt := 900 }], acq),
        (win [{ act := 90, closeAt := 127 }], acq)],
      x.1.Inv ∧ x.1.ActsNow 11 x.2 (actsAt x.1 11)) ∧
    ((actsAt (win [{ act := 90, closeAt := 127 }]) 11).lane 11 31).wins = [{ act := 90, closeAt := 127 }] :=
  ⟨all_acts 11 _, by decide +kernel⟩

/-- BIAS with 7 and with 8 codes waiting and with CLR_N in force, and MARK with each of its actions. -/
theorem wit_BiasAndMarkers :
    let bia := zw 0x29 0 0 (2 ^ 38 * 3 + 0xFFFFF)
    let bq := fun (k : Nat) => (zs bia).modBias 11 3 fun o => { o with queue := List.replicate k (99, 4) }
    let mar := fun (k : Nat) => zw 0x2A 0 0 (2 ^ 36 * 15 + 2 ^ 33 * 7 + 2 ^ 31 * k)
    let own := fun (k : Nat) => ((zs (mar k)).setReg (Reg.markCtrl 15) 0xB0000000).setReg (Reg.tsetOwner 7) 0xB
    (∀ x ∈ [(bq 7, bia), (bq 8, bia), ((bq 0).modRst fun r => { r with clrN := true }, bia), (own 0, mar 0), (own 1, mar 1), (own 2, mar 2)],
      x.1.Inv ∧ x.1.ActsNow 11 x.2 (actsAt x.1 11)) ∧
    ((actsAt (bq 8) 11).biasOut 11 3).queue.length = 8 ∧ (actsAt (bq 7) 11).rst.clrShut = false :=
  ⟨all_acts 11 _, by decide +kernel, by decide +kernel⟩

/-! ### Voices, outputs and the receive path -/

/-- A PLAY and a PRELOAD of a good and of a bad descriptor, PLAYS, STOP, and a ramp with and without one that still runs, on an idle voice
and on one that plays. -/
theorem wit_RequestsReachVoices :
    let A := State.ringMem 11 + 0x400000 + 16 * 4095
    let good := (quiet.setWord (A + 4) 0x00040000).setWord A 0x10
    let bad := quiet.setWord (A + 4) 0x00030000
    let at_ := fun (s : State) (k : VKind) (l : List Seg) (q : List Nat) =>
      s.modVoice 11 31 fun x => { x with reqs := [{ act := 96, kind := k }], segs := l, stops := q }
    (∀ s ∈ [at_ good (.play 4095 5 false) [] [], at_ good (.play 4095 5 false) [{ bnd := 130 }] [], at_ bad (.play 4095 5 false) [] [],
        at_ good (.play 4095 5 true) [] [], at_ quiet (.plays 3 40 7 4 9 2 false) [] [], at_ quiet .stop [] [],
        at_ quiet .ramp [{ bnd := 123 }] [], at_ quiet .ramp [{ bnd := 123 }] [99]],
      s.Inv ∧ (s.voice 11 31).jump = none ∧ (s.voice 11 31).jumpAt = none ∧ s.memu.borrow = none) ∧
    (good.readDesc 11 4095).cause = none ∧ (bad.readDesc 11 4095).cause = some 0 ∧ good.damageIn A 16 = [] := by
  refine ⟨fun s hs => ⟨all_inv _ (by decide +kernel) s hs, ?_⟩, by decide +kernel⟩
  revert s
  decide +kernel

/-- A segment 22 and 23 beats before its boundary, with a repetition, a chain, a halt, a STOP and a PLAYS that are in time; a unit that is
filled and one that is not, a unit to release, and a ramp that has ended. -/
theorem wit_SegmentsAndStreams :
    let A := State.ringMem 11 + 0x400000 + 16 * 4095
    let good := quiet.setWord (A + 4) 0x00040000
    let at_ := fun (g : Seg) (j : Option VReq) => good.modVoice 11 31 fun x => { x with segs := [g], jump := j }
    let chain : Seg := { bnd := 122, w2 := 0x8FFF }
    let unit : Seg := { start := 118, bnd := 500, stream := some 3, units := 1, first := 9, w1 := 0x10000 }
    (∀ s ∈ [at_ { bnd := 123 } none, at_ { bnd := 122, repLeft := 1 } none, at_ chain none, at_ { bnd := 122 } none,
        (at_ { bnd := 122, repLeft := 1 } none).modSeq 11 fun q => { q with haltFrom := some 122 },
        at_ { bnd := 122 } (some { act := 94, kind := .stop }), at_ { bnd := 122 } (some { act := 94, kind := .plays 3 40 7 4 9 2 false }),
        at_ unit none, (at_ unit none).modStrm 11 3 fun q => { q with filled := [9] },
        (at_ { unit with bnd := 100 } none).setReg (Reg.strmPlayptr 11 3) 9, quiet.modVoice 11 31 fun x => { x with stops := [76] }],
      s.Inv ∧ (s.voice 11 31).jumpAt = none ∧ s.memu.borrow = none) ∧
    bit chain.w2 15 = true ∧ fld chain.w2 11 0 = 4095 ∧ (good.readDesc 11 4095).cause = none ∧ good.damageIn A 16 = [] ∧
    unit.beatOf (0 * unit.unitOuts) = 118 ∧ ((at_ unit none).strm 11 3).released = [] := by
  refine ⟨fun s hs => ⟨all_inv _ (by decide +kernel) s hs, ?_⟩, by decide +kernel⟩
  revert s
  decide +kernel

/-- Fade requests for the bank in force, for the other with a length and without, during a fade and behind a pending one; fades that end;
and the host's writes to a running ring and to one that stands. -/
theorem wit_TransmitChannels :
    let tx := fun (f : TxCh → TxCh) (b : Bool) => quiet.modTx 11 3 fun y => { f y with reqs := [(100, b)] }
    let run : FadeRun := { start := 96, len := 5, to_ := true }
    let ended : FadeRun := { start := 96, len := 4, to_ := true }
    let runs := hosted.modSeq 11 fun q => { q with st := .running }
    let swapped := runs.modTx 11 3 fun y => { y with act := true }
    (∀ s ∈ [tx id false, tx id true, (tx id true).setReg (Reg.txFadeLen 11 3) 5, tx (fun y => { y with run := some run }) false,
        tx (fun y => { y with run := some run, pend := some false }) true, tx (fun y => { y with run := some ended }) false,
        (tx (fun y => { y with run := some ended, pend := some false }) true).setReg (Reg.txFadeLen 11 3) 1,
        tx (fun y => { y with settleTo := some 100 }) false], s.Inv ∧ (s.tx 11 3).host = none) ∧
    (∀ x ∈ [(hosted, Reg.txFadeReq 11 3), (runs, Reg.txFadeReq 11 3), (hosted, Reg.txCoefA 11 3 31), (swapped, Reg.txCoefA 11 3 31),
        (runs, Reg.txCoefB 11 3 31), (hosted, Reg.txCtrl 11 3), (hosted, Reg.txFs 11 3)], x.1.Inv ∧ x.1.Takes 1 7 x.2 (takenIn x.1 1 7)) ∧
    (takenIn runs 1 7).ringRuns 11 = true ∧ (takenIn hosted 1 7).ringRuns 11 = false ∧ ((takenIn swapped 1 7).tx 11 3).act = true ∧
    ((takenIn runs 1 7).tx 11 3).run = none ∧ (0x221 : Word) &&& ~~~0x331 = 0 := by
  refine ⟨fun s hs => ⟨all_inv _ (by decide +kernel) s hs, ?_⟩, all_takes _, by decide +kernel⟩
  revert s
  decide +kernel

/-- The host's bias writes to an output at rest, at 0 V and elsewhere, and to one that slews; the limiter with a code that is new and one
that is its value, one that may not be taken yet, a move that has ended, the stages of a span change, and both kinds of sample beats. -/
theorem wit_BiasWritesAndMoves :
    let bo := fun (s : State) (f : BiasOut → BiasOut) => s.modBias 11 3 f
    let code : Nat × Int := (99, 3)
    (∀ x ∈ [(bo hosted fun o => { o with queue := List.replicate 7 code }, Reg.biasTarget 11 3),
        (bo hosted fun o => { o with y := 70, t := 99, mode := .slew }, Reg.biasQclr 11 3), (hosted, Reg.biasClear 11 3),
        (hosted, Reg.biasSpan 11 3), (bo hosted fun o => { o with y := 70 }, Reg.biasSpan 11 3)],
      x.1.Inv ∧ x.1.Takes 1 7 x.2 (takenIn x.1 1 7)) ∧
    (∀ s ∈ [bo quiet fun o => { o with queue := [code], y := 70 }, bo quiet fun o => { o with queue := [code], y := 192 },
        bo quiet fun o => { o with queue := [code], reachedAt := 100 }, bo quiet fun o => { o with y := 192, t := 192, mode := .slew },
        bo quiet fun o => { o with mode := .step, span := some .toZero }, bo quiet fun o => { o with y := 5, mode := .slew },
        bo quiet fun o => { o with span := some (.holdZero 100) }, quiet.modSeq 11 fun q => { q with gridAt := 40 },
        quiet.modSeq 11 fun q => { q with gridAt := 41 }], s.Inv) ∧
    (let g := takenIn hosted 1 7
     g.rst.clrN = false ∧ g.rst.clrShut = false ∧ g.ringRuns 11 = false ∧ (g.biasOut 11 3).span = none ∧ (g.biasOut 11 3).mode = .rest ∧
       (g.biasOut 11 3).queue = [] ∧ (g.biasOut 11 3).spanNow = 0) ∧
    (quiet.biasOut 11 3).reachedAt < quiet.beat ∧ quiet.rst.clrN = false ∧ quiet.rst.clrShut = false :=
  ⟨all_takes _, all_inv _, by decide +kernel, by decide +kernel⟩

/-- A bias output at rest off its clear code and one in a span change, with CLR_N not in force. -/
theorem wit_BiasSafety :
    let s := (quiet.modBias 11 3 fun o => { o with y := 70 }).modBias 0 0 fun o => { o with span := some .toZero }
    s.Inv ∧ s.rst.clrN = false ∧ s.rst.clrShut = false ∧ (s.biasOut 11 3).span = none ∧ (s.biasOut 0 0).span.isSome = true ∧
      64 * sfld (s.getReg (Reg.biasClear 11 3)) 19 0 ≠ (s.biasOut 11 3).y := ⟨inv _, by decide +kernel⟩

/-- The RX CTRL writes that disable, enable, change the zone and change neither, a channel whose settling ends, and pin beats 12 beats ago
that were clipped, the first and a later one, and that were not. -/
theorem wit_ReceiveReadyAndOverload :
    let on := hosted.setReg (Reg.rxCtrl 11 1) 0x211
    let hist := fun (c : Int) (clip : Bool) (ovl : List (Nat × Option Nat)) =>
      quiet.modRx 11 1 fun x => { x with hist := [(88, [0, c])], clip := clip, ovl := ovl }
    (∀ x ∈ [(on, Reg.rxCtrl 11 1), (hosted, Reg.rxCtrl 11 1)], x.1.Inv ∧ x.1.Takes 1 7 x.2 (takenIn x.1 1 7)) ∧
    (takenIn on 1 7).ringRuns 11 = false ∧ fld ((takenIn on 1 7).getReg (Reg.rxCtrl 11 1)) 5 4 = 1 ∧
    bit ((takenIn hosted 1 7).getReg (Reg.rxCtrl 11 1)) 0 = false ∧ (([0, 1, 0x11, 0x731] : List Word).all fun v => v &&& ~~~0x731 == 0) = true ∧
    (quiet.modRx 11 1 fun x => { x with readyAt := some 100 }).rst.relockTo = none ∧
    (∀ s ∈ [hist 2047 false [], hist (-2048) true [(80, none)], hist 2046 true [(80, none)]], s.Inv ∧ (s.rx 11 1).detAt ≠ s.beat) := by
  refine ⟨all_takes _, by decide +kernel, by decide +kernel, by decide +kernel, by decide +kernel, by decide +kernel,
    fun s hs => ⟨all_inv _ (by decide +kernel) s hs, ?_⟩⟩
  revert s
  decide +kernel

/-- A window in its close beat and before, one whose coarse and one whose fine result is due, with NR and with a record, with room and
without. -/
theorem wit_WindowResults :
    let at_ := fun (w : Win) => quiet.modLane 11 31 fun x => { x with wins := [w] }
    let fine : Win := { closeAt := 82, closed := true, coarseDone := true }
    (∀ s ∈ [at_ { closeAt := 100 }, at_ { closeAt := 101 }, at_ { closeAt := 96, closed := true }, at_ { fine with nr := true },
        (at_ fine).setReg (Reg.resqShotMax 11) 1, (at_ fine).setReg (Reg.resqShotMax 11) 0],
      s.Inv ∧ s.memu.borrow = none ∧ s.memu.damaged = [] ∧ s.shotCount 11 fine.shotNo = 0) := by
  refine fun s hs => ⟨all_inv _ (by decide +kernel) s hs, ?_⟩
  revert s
  decide +kernel

/-- A raw buffer that is idle and one that is armed, with and without an ACQ of this beat, a capture that has ended and one that has not,
and a push with words left and with none. -/
theorem wit_RawCapture :
    let raw := fun (s : State) (f : RxCh → RxCh) => s.modRx 11 1 f
    let acq := fun (b : Bool) (r : CapState) => (raw quiet fun x => { x with raw := r }).modLane 11 21 fun x => {
      x with wins := [{ act := 100, raw := b }] }
    let push := fun (k : Nat) => (raw quiet fun x => { x with raw := .pushing, pushPos := 10 }).setReg (Reg.rxRawStatus 11 1)
      (BitVec.ofNat 32 (2 ^ 16 * k))
    (∀ x ∈ [(hosted, Reg.rxRawCmd 11 1), (raw hosted fun x => { x with raw := .armed }, Reg.rxRawCmd 11 1)],
      x.1.Inv ∧ x.1.Takes 1 7 x.2 (takenIn x.1 1 7)) ∧
    ((takenIn hosted 1 7).rx 11 1).raw = .idle ∧
    (∀ s ∈ [acq true .armed, acq true .full, acq false .armed, push 11, push 10], s.Inv ∧ s.memu.damaged = []) ∧
    ((raw quiet fun x => { x with cap := some { start := 90, len := 10 } }).rx 11 1).cap = some { start := 90, len := 10 } ∧
    (push 11).ports.all (·.egress.isEmpty) = true := by
  refine ⟨all_takes _, by decide +kernel, fun s hs => ⟨all_inv _ (by decide +kernel) s hs, ?_⟩, by decide +kernel, by decide +kernel⟩
  revert s
  decide +kernel

/-- START of a halted Juggler, STOP of a running one, DOORBELL; a timer that is due; an interrupt entry with two events up, and one with
interrupts off; a WAIT that ends and one that holds; an illegal packet in a slot, and one that is uncorrectable. -/
theorem wit_JugglerHostAndEvents :
    let jh := fun (s : State) (f : Jug → Jug) => s.modJug 11 f
    let old := (jh hosted fun j => { j with st := .halted, stack := [(1, none, 0)], ipend := 0xFF }).setReg (Reg.jugCtrl 11) 0x7FF
    let run := jh hosted fun j => { j with st := .running }
    let ent := (jh quiet fun j => { j with st := .running, issuedAt := some 99, pc := 77, issueAt := 100, ipend := 0x88, ipendB := 0x88 }).setReg
      (Reg.jugReg 11 35) 0xFF0180
    let waits := fun (k : Nat) => jh quiet fun j => { j with st := .running, wait := some (k, 5, 76), pc := 77, issueAt := 100, crdy := 4 }
    let bad := js (jp 2 (2 ^ 24 * 15) 63)
    let slot := jh (js (jp 2 (2 ^ 24 * 2) 0)) fun j => { j with inSlots := 1 }
    let unc := bad.modMemu fun m => { m with damaged := [(State.ringMem 11 + 0x700000, [(0, 1), (1, 1), (2, 1)])] }
    (∀ x ∈ [(old, Reg.jugCmd 11), (run, Reg.jugCmd 11)], x.1.Inv ∧ x.1.Takes 1 7 x.2 (takenIn x.1 1 7)) ∧
    ((takenIn old 1 7).jug 11).st = .halted ∧ (takenIn old 1 7).sec.locked = false ∧ ((takenIn run 1 7).jug 11).st = .running ∧
    (∀ s ∈ [jh quiet fun j => { j with timerAt := some 100 }, ent, ent.setReg (Reg.jugReg 11 35) 0xFF0100, waits 2, waits 0, bad, slot, unc],
      s.Inv) ∧
    ent.jBoundary 11 = true ∧ bit (ent.jSr 11) 7 = true ∧ bit (ent.jug 11).ipendB 3 = true ∧ bit (ent.jSr 11) 19 = true ∧
    ((List.range 3).all fun k => !bit (ent.jug 11).ipendB k) = true ∧ bit ((ent.setReg (Reg.jugReg 11 35) 0xFF0100).jSr 11) 7 = false ∧
    (waits 2).jEntry 11 = none ∧ (waits 2).jWaitHolds 11 2 5 ≠ (waits 0).jWaitHolds 11 0 5 ∧
    bad.jReady 11 = true ∧ bad.memu.borrow = none ∧ bad.damageIn (State.ringMem 11 + 0x700000) 4 = [] ∧ bad.jLegalHere 11 (bad.jFetch 11) = false ∧
    slot.jReady 11 = true ∧ slot.jLegalHere 11 (slot.jFetch 11) = false ∧
    unc.jReady 11 = true ∧ unc.memu.borrow = none ∧
    (Config.miscorrected [(0, 1), (1, 1), (2, 1)] = none → unc.uncorr (State.ringMem 11 + 0x700000) = true) := by
  refine ⟨all_takes _, by decide +kernel, by decide +kernel, by decide +kernel, all_inv _, ?_⟩
  iterate 16 refine ⟨by decide +kernel, ?_⟩
  intro h
  rw [State.uncorr, List.any_eq_true]
  exact ⟨(State.ringMem 11 + 0x700000, [(0, 1), (1, 1), (2, 1)]), by decide +kernel, by rw [Damage.bad, h]; rfl⟩

/-- Every data operation of class A over a register at the most negative number and over all ones. -/
theorem wit_JugglerArithmetic :
    let w := fun (op d x : Nat) => jp 1 (2 ^ 25 * op) (2 ^ 22 * d + 2 ^ 19 * x)
    let at_ := fun (v : Word) => ((js v).setReg (Reg.jugReg 11 1) 0x80000000).setReg (Reg.jugReg 11 7) 0xFFFFFFFF
    let ws := (([0x01, 0x02, 0x03, 0x04, 0x05, 0x06, 0x07, 0x08, 0x09, 0x0A, 0x0B, 0x0C, 0x0D, 0x0E, 0x0F, 0x10, 0x19] : List Nat).map
      fun op => w op 7 1) ++ [w 0x0C 0 1, w 0x0C 0 7, w 0x0F 1 1, w 0x10 1 7, w 0x0A 1 7]
    (∀ x ∈ ws.map fun v => (at_ v, v), x.1.Inv ∧ x.1.JIssues 11 x.2 (packetIn x.1 11)) ∧ (ws.all fun v => jClass v == 1) = true :=
  ⟨all_jissues 11 _, by decide +kernel⟩

/-- MAC and MAC2 that add, subtract and start at 0, each accumulator operation of either accumulator, and RND with a shift of 0 and of 40. -/
theorem wit_JugglerAccumulators :
    let at_ := fun (v : Word) => ((js v).setReg (Reg.jugReg 11 1) 0x80000000).setReg (Reg.jugReg 11 7) 0xFFFFFFFF
    let mac := fun (op x : Nat) => jp 0 (2 ^ 28 * op) (2 ^ 25 * x + 2 ^ 22 + 2 ^ 19 * 7)
    let acc := fun (op a : Nat) => jp 1 (2 ^ 25 * op) (2 ^ 18 * a + 2 ^ 19 * (if op = 0x12 ∨ op = 0x15 ∨ op = 0x16 then 7 else 0))
    let rnd := fun (a q : Nat) => jp 2 (2 ^ 24 * 15) (2 ^ 20 * a + q)
    let ms := [mac 1 0, mac 1 7, mac 2 0, mac 2 3, mac 2 7]
    let as_ := ([0x11, 0x12, 0x13, 0x14, 0x15, 0x16, 0x17, 0x18] : List Nat).flatMap fun op => [acc op 0, acc op 1]
    let rs := [rnd 0 0, rnd 1 40]
    (∀ x ∈ (ms ++ as_ ++ rs).map fun v => (at_ v, v), x.1.Inv ∧ x.1.JIssues 11 x.2 (packetIn x.1 11)) ∧
    (ms.all fun v => jClass v == 0) = true ∧ (as_.all fun v => jClass v == 1) = true ∧ (rs.all fun v => jClass v == 2 && jCop v == 0x0F) = true :=
  ⟨all_jissues 11 _, by decide +kernel⟩

/-- A packet of moves that stores, that loads and that loads and moves its pointer, absolute moves both ways, each register load, IN, OUT
of a port that is one and of one that is none, and POST. -/
theorem wit_JugglerMovesAndPorts :
    let mv := fun (k : Nat) => jp 0 0 (2 ^ 9 * k)
    let ab := fun (k : Nat) => jp 3 0 (2 ^ 28 * k + 2 ^ 22 * 5 + 0x1FF8 / 8)
    let ct := fun (op rest : Nat) => jp 2 (2 ^ 24 * op) rest
    let good := ct 0x0D (2 ^ 21 * 3 + 0x200)
    let none_ := ct 0x0D (2 ^ 21 * 3 + 0x3FF)
    let ws := [ct 0x09 (2 ^ 21 * 3 + 0xFFFF), ct 0x09 (2 ^ 21 * 3 + 2 ^ 20 + 0xFFFF), ct 0x0A (2 ^ 18 * 35 + 9), ct 0x0B (2 ^ 18 * 35 + 2 ^ 12),
      ct 0x0C (2 ^ 21 * 3), good, none_, ct 0x0E (2 ^ 21 * 7 + 1)]
    let ms := [mv (2 ^ 8 + 2 ^ 3 + 2), mv (2 ^ 8 + 2), mv (2 ^ 8 + 2 ^ 4 + 2)]
    (∀ x ∈ (ms ++ [ab 0, ab 1] ++ ws).map fun v => (js v, v), x.1.Inv ∧ x.1.JIssues 11 x.2 (packetIn x.1 11)) ∧
    (ms.all fun v => jRowOf v == 0x20) = true ∧ ([ab 0, ab 1].all fun v => jClass v == 3) = true ∧ (ws.all fun v => jClass v == 2) = true ∧
    State.outPort (fld good 9 0) = true ∧ State.outPort (fld none_ 9 0) = false :=
  ⟨all_jissues 11 _, by decide +kernel⟩

/-- Branches taken and not, CALL over seven and over eight entries, RET and RTI with an entry and with none, DO of a count and of 0, WAIT,
HALT, and a NOP at the end of a loop with 0, 1 and 2 to go. -/
theorem wit_JugglerControlFlow :
    let ct := fun (op rest : Nat) => jp 2 (2 ^ 24 * op) rest
    let st := fun (k : Nat) (w : Word) => (((js w).modJug 11 fun j => { j with stack := List.replicate k (77, some 0x80, 1) }), w)
    let lp := fun (k : BitVec 32) => (((js (ct 0 0)).setReg (Reg.jugReg 11 35) 0x100).setReg (Reg.jugReg 11 34) k, ct 0 0)
    let l := [st 0 (ct 0x02 0xFFF), st 0 (ct 0x02 (2 ^ 20 + 0xFFF)), st 0 (ct 0x03 0), st 0 (ct 0x03 (2 ^ 20)), st 7 (ct 0x04 0xFFF),
      st 8 (ct 0x04 0xFFF), st 1 (ct 0x05 0), st 0 (ct 0x05 0), st 1 (ct 0x06 0), st 0 (ct 0x06 0), st 0 (ct 0x07 (2 ^ 12 * 2047 + 5)),
      st 0 (ct 0x07 5), st 0 (ct 0x07 (2 ^ 23 + 5)), st 0 (ct 0x08 (2 ^ 20 * 4 + 255)), st 0 (ct 0x01 0), st 0 (ct 0 0), lp 0, lp 1, lp 2]
    (∀ x ∈ l, x.1.Inv ∧ x.1.JIssues 11 x.2 (packetIn x.1 11)) ∧
    (l.all fun x => jClass x.2 == 2 && ((packetIn x.1 11).jug 11).slots.isNone && ((packetIn x.1 11).jug 11).loopW.isEmpty) = true ∧
    (packetIn (st 0 (ct 0x02 0xFFF)).1 11).jCond 11 0 = true ∧ (packetIn (st 0 (ct 0x02 (2 ^ 20 + 0xFFF))).1 11).jCond 11 1 = false ∧
    ([0, 1, 2].all fun k => bit ((packetIn (lp k).1 11).jSr 11) 8 && decide ((packetIn (lp k).1 11).jReg 11 33 = 0 ∧
      (packetIn (lp k).1 11).jReg 11 34 = k)) = true :=
  ⟨all_jissues 11 _, by decide +kernel⟩

/-- The register at an address; the flag register of the time unit where there is none. -/
def reg? (a : Nat) : RegHit := match State.findAt a with | .ok h => h | _ => ⟨{ name := .adjCtrl, off := 0, lease := .chip }, []⟩

/-- Whether an address is that of a register. -/
def isReg (a : Nat) : Bool := match State.findAt a with | .ok _ => true | _ => false

/-- What a write of a register answers in a host operation of session 7. -/
def answers (s : State) (a : Nat) (v : Word) (lo : Option Word) (whole : Bool) : Err :=
  ((s.heard 1 7).modSess 7 fun x => { x with stage := none }).writeCheck 7 (reg? a) a v lo whole

/-- READ of a plain register and of both words of a pair, with a snapshot of it and with another; WRITE of a plain register and of both
words of a pair; WRITE_MASK. -/
theorem wit_HostReadsAndWrites :
    let old := hosted.modSess 7 fun x => { x with stage := some (Reg.voiceFreqLo 11 31, 5), snapOf := some 0x10000 }
    (∀ s ∈ [hosted, old], s.Inv ∧ s.Hears 1 7 (s.heard 1 7)) ∧
    ([0x1B0, 0x10000, 0x10004, Reg.jugCtrl 11, Reg.voiceFreqLo 11 31, Reg.voiceFreqHi 11 31].map fun a => (isReg a, (reg? a).desc.pair)) =
      [(true, 0), (true, 1), (true, 2), (true, 0), (true, 1), (true, 2)] ∧
    findReg 0x10004 = some (reg? 0x10004) ∧ ((old.heard 1 7).session 7).snapOf = some 0x10000 ∧ ((hosted.heard 1 7).session 7).snapOf = none ∧
    ((old.heard 1 7).session 7).stage = some (Reg.voiceFreqLo 11 31, 5) ∧
    answers hosted (Reg.jugCtrl 11) 5 none true = .ok ∧ answers hosted (Reg.voiceFreqLo 11 31) 5 none true = .ok ∧
    answers old (Reg.voiceFreqHi 11 31) 5 (some 5) true = .ok ∧ answers hosted (Reg.jugCtrl 11) 5 none false = .ok ∧
    ([Reg.jugCtrl 11, Reg.voiceFreqLo 11 31, Reg.voiceFreqHi 11 31].all fun a => !(hosted.heard 1 7).lostWrite 1 a) = true :=
  ⟨all_hears _, by decide +kernel⟩

/-- An address of no register, a write out of range, of a read-only register, and of a register whose lease another session holds. -/
theorem wit_RejectedWriteChangesNothing :
    let held := hosted.setReg (Reg.leaseRing 11) 3
    let lane := Reg.laneShift 11 31
    (∀ s ∈ [hosted, held], s.Inv ∧ s.Hears 1 7 (s.heard 1 7)) ∧ isReg 0x10000000 = false ∧ isReg 0x1B1 = false ∧
    (isReg lane && isReg Reg.beatcountLo) = true ∧ (reg? lane).desc.pair ≠ 2 ∧ (hosted.heard 1 7).lostWrite 1 lane = false ∧
    answers hosted lane 0x1FF04 none true = .eRange ∧ answers hosted lane 0x1FF04 none false = .eRange ∧
    (reg? Reg.beatcountLo).desc.writable = false ∧ (reg? lane).desc.writable = true ∧ leaseOf lane = some (Reg.leaseRing 11) ∧
    (held.heard 1 7).leaseOk (Reg.leaseRing 11) 7 = false ∧ answers held lane 0x104 none false = .eLease :=
  ⟨all_hears _, by decide +kernel⟩

/-- Two words of each memory, readable and writable; a program memory whose ring runs, and none at all; a unit at both ends of its window,
one before and one beyond it; an acknowledgement with the queue's pushes off and on. -/
theorem wit_BlocksStreamsAndAcknowledgements :
    let chip := hosted.setReg Reg.leaseChip 7
    let runs := hosted.modSeq 11 fun q => { q with st := .running }
    let base := fun (c : Nat) => memBase c (if c < 9 then 11 else 0)
    let st := (((hosted.setReg (Reg.ethCtrl 1) 0x310).setReg (Reg.strmCfg 11 3) 0x10102).setReg (Reg.strmLimit 11 3) 1).setReg
      (Reg.strmPlayptr 11 3) 0xFFFFFFFF
    let rq := hosted.modResq 11 fun q => { q with
      recs := [{ idx := 5, held := false }, { idx := 6, held := false }, { idx := 7, held := true }], pushed := 7 }
    let on := rq.setReg (Reg.resqCtrl 11) 0x71
    let hit := fun (a l : Nat) => match findBlock a l with | .ok h => some h | .error _ => none
    let g := st.heard 1 7
    (∀ s ∈ [chip, runs, st, rq, on], s.Inv ∧ s.Hears 1 7 (s.heard 1 7)) ∧
    ((List.range 11).all fun c => match hit (base c) 8 with
      | some h => h.code == c && decide ((chip.heard 1 7).blockReadCheck h 2 = .ok) && (c == 8 || decide ((chip.heard 1 7).blockWriteCheck 7 h 2 = .ok))
      | none => false) = true ∧
    (chip.heard 1 7).memu.dma = [] ∧ ((chip.heard 1 7).jug 11).st ≠ .fault ∧
    (match hit (base 0) 8 with | some h => decide ((runs.heard 1 7).blockWriteCheck 7 h 2 = .eState) | none => false) = true ∧
    (match hit (base 0) 0 with | some h => decide ((chip.heard 1 7).blockReadCheck h 0 ≠ .ok) | none => false) = true ∧
    g.jumbo 1 = true ∧ g.leaseOk (Reg.leaseRing 11) 7 = true ∧ g.memOn 11 = true ∧ g.destructOn 1 11 = false ∧ g.strmEn 11 3 = true ∧
    g.playPtr 11 3 = 0xFFFFFFFF ∧ g.creditLimit 11 3 = 1 ∧
    below 0xFFFFFFFF 0 = true ∧ below 0 1 = true ∧ below 1 1 = false ∧ below 0xFFFFFFFE 0xFFFFFFFF = true ∧ g.unitFilled 11 3 0 = false ∧
    (rq.heard 1 7).resqEn 11 = false ∧ (rq.heard 1 7).ackEnd 11 = 7 ∧ (rq.heard 1 7).leaseOk (Reg.leaseRing 11) 7 = true ∧
    (on.heard 1 7).resqEn 11 = true ∧ (on.heard 1 7).resqSess 11 = 7 ∧ below 6 7 = true :=
  ⟨all_hears _, by decide +kernel⟩

/-- A SCHEDULE at the earliest beat and one that is late, a cancellation of an entry that is there and of one that is not; due entries that
a check lets pass, and one that it drops, and an entry whose beat has not come. -/
theorem wit_ScheduledWrites :
    let lane := Reg.laneShift 11 31
    let e := fun (m : Word) => ({ handle := 3, sess := 7, addr := lane, target := 100, value := 0x100, mask := m } : Sched)
    let at_ := fun (m v : Word) => ({ hosted with sched := [e m, { e m with handle := 4, target := 101 }] } : State).setReg lane v
    let after := fun (m v : Word) => (({ at_ m v with sched := [{ e m with handle := 4, target := 101 }] } : State).noteWrite 2 lane)
    let code := fun (m v : Word) => (after m v).writeCheck 7 (reg? lane) lane ((after m v).maskedWord (reg? lane) lane 0x100 m) none
      (decide (m = 0xFFFFFFFF))
    (∀ s ∈ [hosted, at_ 0xFFFFFFFF 0, at_ 0x100 0x1FFFFF], s.Inv ∧ s.Hears 1 7 (s.heard 1 7)) ∧ isReg lane = true ∧
    (hosted.heard 1 7).scheduleCheck 7 lane 1600 (reg? lane) 0x104 = .ok ∧ (reg? lane).desc.writable = true ∧ (reg? lane).desc.pair = 0 ∧
    (hosted.heard 1 7).leaseCheck 7 (reg? lane) = .ok ∧ 1599 < (hosted.heard 1 7).beat + 1500 ∧
    ((at_ 0xFFFFFFFF 0).heard 1 7).sched.any (fun x => decide (x.sess = 7 ∧ x.addr = lane ∧ x.target = 101)) = true ∧
    ((at_ 0xFFFFFFFF 0).heard 1 7).sched.any (fun x => decide (x.sess = 7 ∧ x.addr = lane ∧ x.target = 102)) = false ∧
    (at_ 0xFFFFFFFF 0).sched.find? (fun x => decide (x.handle = 3 ∧ x.target ≤ 100)) = some (e 0xFFFFFFFF) ∧
    code 0xFFFFFFFF 0 = .ok ∧ code 0x100 0x1FFFFF ≠ .ok :=
  ⟨all_hears _, by decide +kernel⟩

/-- SESSION_OPEN with a session free and with none; SESSION_CLOSE and DISCOVER; a session that has timed out with and without the halt of its
rings, and one that has not; leases that are free, one's own, and another's. -/
theorem wit_SessionsAndLeases :
    let full : State := { hosted with sess := hosted.sess.map fun x => { x with isOpen := true } }
    let ls := (hosted.setReg Reg.leaseChip 7).setReg (Reg.leaseRing 3) 3
    let late := (ls.setReg (Reg.sessTimeout 7) 0).setReg (Reg.leaseRing 2) 7
    let halts := (late.setReg (Reg.sessCtrl 7) 0x20).modSeq 2 fun q => { q with st := .running }
    (∀ s ∈ [hosted, full, ls], s.Inv ∧ s.Hears 1 7 (s.heard 1 7)) ∧ (∀ s ∈ [quiet, late, halts], s.Inv) ∧
    (∀ x ∈ [(hosted, leaseAddr (.ring 11)), (hosted, leaseAddr .time), (ls, leaseAddr .chip), (ls, leaseAddr (.ring 3))],
      x.1.Inv ∧ x.1.Takes 1 7 x.2 (takenIn x.1 1 7)) ∧
    (hosted.sess.findIdx fun x => !x.isOpen) = 0 ∧ (full.sess.all fun x => x.isOpen) = true ∧ (0x71 : Word) &&& 0xFFFFFF0E = 0 ∧
    hosted.portAnswers 1 = true ∧ quiet.portAnswers 1 = false ∧
    (late.session 7).isOpen = true ∧ (late.session 7).lastFrame + late.regFld (Reg.sessTimeout 7) 15 0 * 1500000 ≤ late.beat ∧
    late.regBit (Reg.sessCtrl 7) 5 = false ∧ (halts.session 7).isOpen = true ∧ halts.regBit (Reg.sessCtrl 7) 5 = true ∧
    hosted.beat < (hosted.session 7).lastFrame + hosted.regFld (Reg.sessTimeout 7) 15 0 * 1500000 ∧
    (takenIn hosted 1 7).holder (leaseAddr (.ring 11)) = 0xF ∧ (takenIn ls 1 7).holder (leaseAddr .chip) = 7 ∧
    (takenIn ls 1 7).holder (leaseAddr (.ring 3)) = 3 := by
  refine ⟨all_hears _, all_inv _, all_takes _, by decide +kernel⟩

/-- APPLY and SAVE; ETH CTRL writes of the same mode, of another and of OFF; RESQ CTRL writes that turn pushes on, leave them off and keep
them on; STRM CFG writes that enable, that leave disabled and that keep enabled. -/
theorem wit_NetworkAndQueueConfiguration :
    let net := ({ hosted with macWritten := true } : State).setReg (Reg.netVlan) 0x8005
    let rq := hosted.modResq 11 fun q => { q with recs := [{ idx := 5, held := false }], pushed := 7 }
    let on := rq.setReg (Reg.resqCtrl 11) 0x71
    let st := (hosted.setReg (Reg.strmPlayptr 11 3) 9).modStrm 11 3 fun t => { t with filled := [9, 10] }
    let en := st.setReg (Reg.strmCfg 11 3) 0x710805
    (∀ x ∈ [(net, Reg.netCtrl), (hosted, Reg.ethCtrl 0), (rq, Reg.resqCtrl 11), (on, Reg.resqCtrl 11), (st, Reg.strmCfg 11 3),
        (en, Reg.strmCfg 11 3)], x.1.Inv ∧ x.1.Takes 1 7 x.2 (takenIn x.1 1 7)) ∧
    bit ((takenIn net 1 7).getReg Reg.netCtrl) 0 = false ∧ (takenIn net 1 7).shutting = false ∧ (takenIn net 1 7).nvmBusy = false ∧
    fld ((takenIn hosted 1 7).getReg (Reg.ethCtrl 0)) 5 4 = 0 ∧ bit ((takenIn hosted 1 7).getReg (Reg.ethCtrl 0)) 9 = true ∧
    ([0x300, 0x110, 0x20].all fun v => (v : Nat) &&& 0xFFFFFCCF == 0) = true ∧
    ([0x05002C71, 0x05002C70, 0x05010070].all fun v => (v : Nat) &&& 0x00FE008C == 0) = true ∧
    ((takenIn rq 1 7).session 7).isOpen = true ∧ (takenIn rq 1 7).resqEn 11 = false ∧ (takenIn on 1 7).resqEn 11 = true ∧
    (takenIn st 1 7).strmEn 11 3 = false ∧ (takenIn en 1 7).strmEn 11 3 = true ∧
    (takenIn st 1 7).strmCfgCheck 11 3 0x710805 = .ok ∧ (takenIn st 1 7).strmCfgCheck 11 3 0x700805 = .ok ∧
    (takenIn en 1 7).strmCfgCheck 11 3 0x710805 = .ok ∧ (takenIn en 1 7).strmCfgCheck 11 3 0x700805 = .ok :=
  ⟨all_takes _, by decide +kernel⟩

/-- A port lost for 15,000 beats and one that is not; lock loss and codewords in a run, after a gap and at the eighth; alignment of a port
that answers, that comes back and that is new, from the link phase too, and of one that is OFF; a shadow period that ends; a module poll
that is due and one that is not; a mirror that is due. -/
theorem wit_PortsAndModules :
    let on := fun (s : State) (f : EthPort → EthPort) => s.modPort 1 f
    let lost := ({ on hosted fun e => { e with lossFrom := some 5 } with beat := 15005 } : State).modPort 0 fun e => { e with state := .down }
    let bad := fun (k b : Nat) (x : Option Nat) => on hosted fun e => { e with locked := true, badRun := k, badAt := b, lossFrom := x }
    let back := on quiet fun e => { e with aligned := true }
    let sh : State := { (on hosted fun e => { e with state := .shadow, locked := true, shadowFrom := 3 }).setReg (Reg.ethShadow 1) 1 with
      beat := 1500003 }
    let pol : State := { on hosted fun e => { e with modPollAt := 5 } with beat := 150000005 }
    let mir : State := { on hosted fun e => { e with modPresent := true } with beat := 1500000000 }
    (∀ s ∈ [lost, hosted, bad 0 0 none, bad 3 90 (some 50), bad 3 70 (some 50), bad 7 90 none, bad 7 70 none, back, quiet,
        quiet.modRst fun r => { r with phase := .link }, hosted.setReg (Reg.ethCtrl 1) 0x20, sh, pol, mir], s.Inv) ∧
    lost.portAnswers 1 = true ∧ (lost.port 1).lossFrom = some 5 ∧ (lost.port 1).badRun = 0 ∧ (lost.port 1).locked = false ∧
    (hosted.port 1).lossFrom = none ∧ ([hosted, back, quiet].all fun s => decide (s.ethMode 1 ≠ 2) && s.portsRun && !(s.port 1).locked) = true ∧
    hosted.portAnswers 1 = true ∧ back.portAnswers 1 = false ∧ quiet.portAnswers 1 = false ∧ (quiet.port 1).aligned = false ∧
    (hosted.setReg (Reg.ethCtrl 1) 0x20).ethMode 1 = 2 ∧ (sh.port 1).state = .shadow ∧ (sh.port 1).badRun = 0 ∧
    (sh.port 1).lossFrom = none ∧ (sh.port 1).shadowFrom + sh.regFld (Reg.ethShadow 1) 15 0 * 1500000 ≤ sh.beat ∧ (hosted.port 1).state ≠ .shadow ∧
    pol.portsRun = true ∧ (pol.port 1).modPollAt + 150000000 ≤ pol.beat ∧ (hosted.port 1).pollFrom.isSome = false ∧
    ¬ (hosted.port 1).modPollAt + 150000000 ≤ hosted.beat ∧
    (mir.port 1).modPresent = true ∧ mir.portsRun = true ∧ (mir.port 1).mirrorAt + 1500000000 ≤ mir.beat :=
  ⟨all_inv _, by decide +kernel⟩

/-- An XOFF to repeat and an XON to send, and neither; frames of each kind taken by the port; frames of one byte too many and with a wrong
tag; requests to an address that is the device's and to one that is not, in a whole datagram and in a fragment, and in recovery. -/
theorem wit_FramesOtherThanRequests :
    let full := (hosted.setReg (Reg.ethCtrl 1) 0x300).modPort 1 fun e => { e with ingress := e.ingress.set 3 300000, xoffAt := e.xoffAt.set 3 (some 5) }
    let rep : State := { full with beat := 30005 }
    let xon := full.modPort 1 fun e => { e with ingress := List.replicate 8 0 }
    let none_ := hosted.setReg (Reg.ethCtrl 1) 0
    let vlan : State := { hosted with netNow := [(Reg.netVlan, 0x8005)] }
    let v4 : State := { hosted with netNow := [(Reg.netIpv4Addr, 0x0A000001)] }
    let dark := v4.modRst fun r => { r with phase := .recovery }
    let of_ := fun (s : State) (k : Nat) => (s.macTakes 1 {} k).1
    (∀ s ∈ [hosted, full, rep, xon, none_, vlan, v4, dark], s.Inv) ∧
    rep.xoffRepeatDue 1 3 = true ∧ full.xoffRepeatDue 1 3 = false ∧ xon.xonDue 1 3 = true ∧ hosted.xonDue 1 3 = false ∧
    ([hosted, full, none_, vlan].all fun s => (s.rxFrame 1 0 0).2) = true ∧ (full.rxFrame 1 0 0).1.pfcEn 1 = true ∧
    (none_.rxFrame 1 0 0).1.pfcEn 1 = false ∧ hosted.jumbo 1 = true ∧ none_.jumbo 1 = false ∧
    bit (vlan.netVal Reg.netVlan) 15 = true ∧ fld (vlan.netVal Reg.netVlan) 11 0 = 5 ∧ bit (hosted.netVal Reg.netVlan) 15 = false ∧
    ([(v4, 64), (hosted, 64), (hosted, 90), (v4, 50), (dark, 50), (hosted, 70)].all fun x => (x.1.macTakes 1 {} x.2).2) = true ∧
    (of_ v4 64).ipv4 = 0x0A000001 ∧ (of_ hosted 64).ipv4 = 0 ∧ (of_ v4 50).ownV4 0x0A000001 = true ∧ (of_ v4 50).ownV4 5 = false ∧
    (hosted.macTakes 1 { fragment := true } 90).2 = true ∧ (hosted.macTakes 1 { fragment := true } 90).1.ownV6 1 5 = false ∧
    (of_ dark 50).rst.phase = .recovery ∧ (of_ v4 50).rst.phase ≠ .recovery :=
  ⟨all_inv _, by decide +kernel⟩

/-- Whether the link-local address of port 1 is the device's, whatever its address is. -/
theorem wit_OwnAddress : ((hosted.macTakes 1 {} 90).1).ownV6 1 ((hosted.macTakes 1 {} 90).1.linkLocal 1) = true := by
  simp [State.ownV6]

/-- A request of one block over session 7. -/
def message (nops seq tag : Nat) (op addr count : Nat) (body : List Byte) : List Byte :=
  leBytes 1 1 ++ leBytes 1 0 ++ leBytes 2 (32 + body.length) ++ leBytes 1 7 ++ leBytes 1 0 ++ leBytes 2 nops ++ leBytes 4 seq ++
    leBytes 4 tag ++ leBytes 4 0 ++ leBytes 1 op ++ leBytes 1 0 ++ leBytes 2 (12 + body.length) ++ leBytes 4 addr ++ leBytes 2 0 ++
    leBytes 2 count ++ body

/-- A request that waits behind another; one of a wrong form, one too long, with a wrong tag, known on the other port, known with and without
its answer, outside the window, with an answer too long, and one that runs: a READ alone. -/
theorem wit_RequestsAreJudgedInOrder :
    let base := hosted.modSess 7 fun x => { x with tag := 0x55, executed := [(9, 1)] }
    let small := base.setReg (Reg.ethCtrl 1) 0
    let busy : State := { base with held := [{ port := 1 }] }
    let other := base.modSess 7 fun x => { x with executed := [(9, 0)] }
    let kept := base.modSess 7 fun x => { x with cache := [{ seq := 9, port := 1, frame := some {} }] }
    let read := fun (seq : Nat) => message 1 seq 0x55 1 0x1B0 1 []
    let long := message 1 10 0x55 5 0x20000000 360 (List.replicate 1440 1)
    let block := message 1 10 0x55 4 0x20000000 400 []
    let l := [(busy, read 10), (base, message 2 10 0x55 1 0x1B0 1 []), (small, long), (base, message 1 10 0x56 1 0x1B0 1 []), (other, read 9),
      (base, read 9), (kept, read 9), (base, read 0xFFFFF000), (small, block), (base, read 10)]
    let after := fun (x : State × List Byte) => (x.1.macTakes 1 {} (frameLen { mac := 7, ip := 9, raw := true } x.2)).1
    let judged := fun (x : State × List Byte) => (readRequest x.2).map fun bs => ((after x).authOk (readHeader x.2) bs,
      (after x).firstPort 7 (readHeader x.2).seq, (after x).inWindow 7 (readHeader x.2).seq,
      decide ((after x).maxLen 1 < (readHeader x.2).len), decide ((after x).maxLen 1 < responseLen bs))
    (∀ x ∈ l, x.1.Inv ∧ (x.1.macTakes 1 {} (frameLen { mac := 7, ip := 9, raw := true } x.2)).2 = true ∧ leAt x.2 1 1 = 0) ∧
    (after (busy, read 10)).held.any (fun y => y.port == 1) = true ∧ (after (base, read 10)).inFrame 1 = false ∧
    l.tail.map judged = [none, some (true, none, true, true, false), some (false, none, true, false, false),
      some (true, some 0, true, false, false), some (true, some 1, true, false, false), some (true, some 1, true, false, false),
      some (true, none, false, false, false), some (true, none, true, false, true), some (true, none, true, false, false)] ∧
    ((((after (kept, read 9)).session 7).cache.find? fun c => c.seq = 9).bind (·.frame)) = some {} ∧
    (((after (base, read 9)).session 7).cache.find? fun c => c.seq = 9) = none ∧ isReg 0x1B0 = true ∧ (reg? 0x1B0).desc.pair = 0 := by
  refine ⟨fun x hx => ⟨?_, ?_⟩, by decide +kernel⟩
  · apply inv
    revert x
    decide +kernel
  · revert x
    decide +kernel

/-- Results of which one is due, credit and an event record that are due, a deferred record whose interval ends, and none of them. -/
theorem wit_PushesAndEventRecords :
    let sub := (hosted.modPort 0 fun e => { e with state := .down }).modSess 7 fun x => { x with pushSeq := 4, tag := 9 }
    let rq := (sub.modResq 11 fun q => { q with
      recs := [{ idx := 5, held := false }, { idx := 6, held := false }, { idx := 7, held := false, since := 99 }], pushed := 6 }).setReg
        (Reg.resqCtrl 11) 0x05000271
    let cr := (sub.setReg (Reg.strmCfg 11 3) 0x710805).modStrm 11 3 fun t => { t with creditDue := true }
    let ev := ({ sub with evToPush := [3, 4] } : State).setReg (Reg.evlog 3 1) 0x00030106
    let key : EvKey := { code := 0x106, source := 5, subject := 0x33, lastAt := 50, deferred := some (70, 9) }
    let dv : State := { sub with evKeys := [key], beat := 15050 }
    (∀ s ∈ [sub, rq, cr, ev, dv], s.Inv) ∧ rq.resultPushDue 11 = true ∧ sub.resultPushDue 11 = false ∧ rq.memu.damaged = [] ∧
    (rq.pushable 11).map (·.idx) = [6, 7] ∧ rq.resqSess 11 = 7 ∧ rq.pushPorts 7 = [1] ∧
    cr.creditPushDue 11 3 = true ∧ sub.creditPushDue 11 3 = false ∧ cr.regFld (Reg.strmCfg 11 3) 22 20 = 7 ∧ cr.pushPorts 7 = [1] ∧
    ev.evToPush = [3, 4] ∧ ((List.range 7).all fun i => !(ev.session i).isOpen) = true ∧ ev.pushPorts 7 = [1] ∧
    ev.regFld (Reg.sessCtrl 7) 7 6 ≤ fld (ev.getReg (Reg.evlog 3 1)) 23 16 ∧ sub.evToPush = [] ∧
    dv.evKeys.find? (·.is 0x106 5 0x33) = some key ∧ key.lastAt + 15000 ≤ dv.beat ∧ sub.deferredDue 0x106 5 0x33 = false :=
  ⟨all_inv _, by decide +kernel⟩

/-- Each SEQ_CMD in a state in which it acts: START and ARM of a ring that may start, DISARM, RESUME of a halted, an aborted and a ring with
a halt pending, HALT of a ring that runs and of one in CP2; ABORT at a checkpoint, before one, of an armed and of an aborting ring; requests
at a checkpoint; a ramp that ends and one that goes on. -/
theorem wit_RunsAndAbortsOfRings :
    let st := fun (x : RingState) => hosted.modSeq 11 fun q => { q with st := x, armedFrom := .halted, haltPend := true, wait := .waitN 300 }
    let cp := hosted.modSeq 11 fun q => { q with st := .paused, wait := .cp2 }
    let run := fun (k : Nat) (r : Option Nat) => hosted.modSeq 11 fun q => { q with st := .running, issueAt := k, abortReq := r }
    let ends := fun (b : Nat) => quiet.modSeq 11 fun q => { q with st := .aborting, abortAt := some b }
    let seq := fun (s : State) => (takenIn s 1 7).seq 11
    let at_ := fun (s : State) => (takenIn s 1 7).atCheckpoint 11
    (∀ x ∈ [hosted, st .armed, st .halted, st .aborted, st .running, st .paused, st .aborting, cp, run 100 none, run 101 none].map
        fun s => (s, Reg.seqCmd 11), x.1.Inv ∧ x.1.Takes 1 7 x.2 (takenIn x.1 1 7)) ∧
    (∀ s ∈ [run 100 (some 2), run 101 none, ends 75, ends 76, st .armed, quiet], s.Inv) ∧
    (takenIn hosted 1 7).startCheck 11 = .ok ∧ (takenIn (st .halted) 1 7).resumeCheck 11 = .ok ∧ (takenIn (st .aborted) 1 7).resumeCheck 11 = .ok ∧
    ([st .halted, st .aborted, st .armed, st .running, st .paused, st .aborting, cp].map fun s => ((seq s).st, (seq s).haltPend)) =
      [(.halted, true), (.aborted, true), (.armed, true), (.running, true), (.paused, true), (.aborting, true), (.paused, false)] ∧
    (seq cp).wait = .cp2 ∧ (seq (st .running)).wait ≠ .cp2 ∧ at_ (run 100 none) = true ∧ at_ cp = true ∧ at_ (run 101 none) = false ∧
    (seq (run 101 none)).abortReq = none ∧ ((List.range 32).all fun l => ((takenIn (run 100 none) 1 7).lane 11 l).wins.isEmpty) = true ∧
    ((run 100 (some 2)).seq 11).abortReq = some 2 ∧ (run 100 (some 2)).ringRuns 11 = true ∧ (run 100 (some 2)).atCheckpoint 11 = true ∧
    ((List.range 32).all fun l => ((run 100 (some 2)).lane 11 l).wins.isEmpty) = true ∧ (run 101 none).atCheckpoint 11 = false ∧
    ((ends 75).seq 11).abortAt = some 75 ∧ ((ends 76).seq 11).abortAt = some 76 ∧ (ends 75).beat = 100 ∧
    (st .armed).ringRuns 11 = true ∧ quiet.ringRuns 11 = false :=
  ⟨all_takes _, all_inv _, by decide +kernel⟩

/-- A TIME flit of chip 3 sent 18 beats ago, and another of chip 5. -/
def timeFlit (src b : Nat) : BitVec 64 := mkFlit [(63, 61, 6), (60, 57, src), (56, 9, b)]

/-- A link that a command starts or stops; one in each state that goes on; failures that are allowed and not; TIME flits while the delay is
measured, that agree and do not, and of the wrong partner. -/
theorem wit_TrapezeLinkStates :
    let lk := fun (x : LinkState) => hosted.modLink 2 fun l => { l with st := x, freqOk := true, txOn := true, since := 5 }
    let dv := fun (x : LinkState) => let t := lk x; ({ t with trap := { t.trap with dbValid := true } } : State)
    let meas := (dv .delay).modLink 2 fun l => { l with delays := [18, 18, 18, 18] }
    let up := (dv .up).setReg (Reg.linkDelay 2) 18
    let pat := hosted.modLink 2 fun l => { l with st := .bit, txTrain := some 90 }
    let wait : State := { (lk .waitPeer).modLink 2 fun l => { l with peerDone := true } with beat := 256 }
    (∀ x ∈ [lk .off, lk .failed, lk .up].map fun s => (s, Reg.linkCmd 2), x.1.Inv ∧ x.1.Takes 1 7 x.2 (takenIn x.1 1 7)) ∧
    (∀ s ∈ [pat, lk .clock, lk .bit, lk .symbol, lk .deskew, meas, wait, up, lk .waitPeer, hosted], s.Inv) ∧
    ((takenIn (lk .off) 1 7).link 2).freqOk = true ∧ (takenIn (lk .off) 1 7).shutting = false ∧ ((takenIn (lk .up) 1 7).link 2).st = .up ∧
    (takenIn (lk .up) 1 7).trapRuns = false ∧ (pat.link 2).txTrain = some 90 ∧ meas.delayDone 2 = true ∧ (wait.link 2).peerDone = true ∧
    wait.db % 256 = 0 ∧ (lk .waitPeer).db % 256 ≠ 0 ∧ up.failAllowed 2 .align = true ∧ hosted.failAllowed 2 .noclk = false ∧
    meas.flitTaken 2 (timeFlit 3 82) 6 = true ∧ up.flitTaken 2 (timeFlit 3 82) 6 = true ∧ up.flitTaken 2 (timeFlit 5 82) 6 = true ∧
    (meas.expectedPeer 2 = none ∨ meas.expectedPeer 2 = some 3) ∧ up.expectedPeer 2 = some 3 ∧ up.trap.dbValid = true ∧
    (up.db + 2 ^ 48 - fld (timeFlit 3 82) 56 9) % 2 ^ 48 = 18 ∧ up.regFld (Reg.linkDelay 2) 5 0 = 18 ∧
    (lk .bit).flitTaken 2 (timeFlit 3 82) 6 = false :=
  ⟨all_takes _, all_inv _, by decide +kernel⟩

/-- Lanes in training and in service, with the spare free, used and bad; a copy that matches; intervals of the spare that fail; a lane that
may return. -/
theorem wit_TrapezeLaneRepair :
    let lk := fun (b : Nat) (f : Link → Link) => ({ hosted.modLink 2 f with beat := b } : State)
    let bt := fun (x : LinkState) (b : Nat) (sp : Option Nat) (bad : Bool) => lk b fun l => { l with st := x, since := 5, spareLane := sp, spareBad := bad }
    let up := fun (k m : Nat) (sp fl : Option Nat) => lk 1100100 fun l => { l with
      st := .up, spareLane := sp, failing := fl, errAt := List.replicate k (3, 1000000), missed := [(3, 1100000, m)] }
    let sw := lk 1300 fun l => { l with st := .up, failing := some 3, copyFrom := some 15, goodFrom := 20 }
    let sp := fun (k : Nat) => lk 100 fun l => { l with st := .up, spareErrs := List.replicate k 20 }
    let lt := lk 16394 fun l => { l with st := .up, failing := some 3, copyFrom := some 10, goodFrom := 16000 }
    let rt := ((lk 256000000 fun l => { l with st := .up, spareLane := some 3 }).setBit (Reg.linkCtrl 2) 16 true).setReg (Reg.linkReturnMs 2) 10
    (∀ s ∈ [bt .bit 10 (some 3) false, bt .bit 10 (some 4) false, bt .bit 10 none true, bt .bit 10 none false, bt .symbol 15005 none false,
        up 0 0 none none, up 300 1 none none, up 5 2 none none, up 300 1 (some 4) none, up 300 1 none (some 4), sw, sp 4, sp 3, lt, rt], s.Inv) ∧
    ((bt .bit 10 none false).link 2).st = .bit ∧ ((bt .symbol 15005 none false).link 2).st = .symbol ∧ (up 0 0 none none).linkRx 2 = true ∧
    ([up 0 0 none none, up 300 1 none none, up 5 2 none none].map fun s => (decide (((s.link 2).errAt.filter fun e =>
        decide (e.1 = 3 ∧ s.beat < e.2 + 2 ^ 20)).length < s.regFld (Reg.linkCtrl 2) 15 8),
      (((s.link 2).missed.find? fun e => decide (e.1 = 3 ∧ s.beat < e.2.1 + 256)).map (·.2.2)).getD 0)) = [(true, 0), (false, 1), (true, 2)] ∧
    sw.linkRx 2 = true ∧ (sw.link 2).goodFrom + 1280 ≤ sw.beat ∧ (sp 4).linkRx 2 = true ∧ (lt.link 2).goodFrom + 1280 > lt.beat ∧
    10 + 16384 ≤ lt.beat ∧ 10 + 16384 < (lt.link 2).goodFrom + 1024 ∧
    rt.linkRx 2 = true ∧ rt.regBit (Reg.linkCtrl 2) 16 = true ∧ (rt.db - rt.linkD 2) % 256 = 0 ∧ rt.regFld (Reg.linkReturnMs 2) 15 0 = 10 ∧
    (hosted.link 2).spareLane = none :=
  ⟨all_inv _, by decide +kernel⟩

/-- A control flit of code `c` for lane 4. -/
def ctlFlit (c : Nat) : BitVec 64 := mkFlit [(63, 61, 5), (60, 57, 3), (56, 53, c), (52, 49, 4)]

/-- The four control flits, a link that takes flits and one that does not, signs of errors on used lanes and on a spared one, and the slot
of a marker with each thing it may start. -/
theorem wit_TrapezeControlFlitsAndMarkers :
    let lk := fun (x : LinkState) (f : Link → Link) => hosted.modLink 2 fun l => f { l with st := x, freqOk := true, txOn := true }
    let mk := fun (x : LinkState) (f : Link → Link) => ({ lk x f with beat := 255 } : State)
    let spared := lk .up fun l => { l with spareLane := some 3 }
    let signs := fun (e m : BitVec 9) (c : Bool) => ({ errors := e, noMarker := m, codeErr := c } : LaneSigns)
    let l := [mk .up id, mk .waitPeer fun l => { l with trainSent := true }, mk .up fun l => { l with mirrorReq := some 4 },
      mk .up fun l => { l with returnDue := true, mirror := some 4 }]
    (∀ s ∈ [lk .up id, spared, lk .bit id, hosted] ++ l, s.Inv) ∧
    ((List.range 4).all fun c => (lk .up id).flitTaken 2 (ctlFlit c) 5 && fld (ctlFlit c) 56 53 == c) = true ∧
    (lk .up id).linkRx 2 = true ∧ hosted.linkRx 2 = false ∧ spared.linkRx 2 = true ∧
    (signs 0 0 true).codeErr = true ∧ bit (signs 0x10 0 false).errors 4 = true ∧ bit (signs 0 0x10 false).noMarker 4 = true ∧
    bit (signs 8 0 false).errors 3 = true ∧ flitOk (ctlFlit 3) = true ∧ flitOk 0 = false ∧
    (l.all fun s => (s.link 2).txOn && decide (s.db % 256 = 255 ∧ (s.link 2).slotAt ≠ some s.beat)) = true ∧ hosted.db % 256 ≠ 255 :=
  ⟨all_inv _, by decide +kernel⟩

/-- A DEC flit of chip 3 with release beat `r`. -/
def decFlit (r : Nat) : BitVec 64 := mkFlit [(63, 61, 1), (60, 57, 3), (56, 56, 1), (55, 54, 1), (53, 46, r), (45, 30, 5), (29, 14, 3)]

/-- A BAR flit of chip `c` for barrier 6 with mask `m`. -/
def barFlit (c m : Nat) : BitVec 64 := mkFlit [(63, 61, 2), (60, 57, c), (56, 53, 6), (50, 35, 990), (34, 19, m)]

/-- A TMARK flit of marker 5. -/
def markFlit : BitVec 64 := mkFlit [(63, 61, 4), (60, 57, 3), (56, 53, 5), (52, 37, 990), (36, 31, 7), (30, 30, 1)]

/-- Each flit of another chip with each thing that it may meet, a decision to send and to release, and barriers that are met, mismatched and
released, with rings that wait for them. -/
theorem wit_TrapezeMessages :
    let up := hosted.modLink 2 fun l => { l with st := .up, freqOk := true, txOn := true, queue := [{ typ := 1 }] }
    let imp : State := { up.setReg (Reg.trpImport 3) 0x00030002 with beat := 1000 }
    let buf := fun (l : List RelDec) => ({ imp with trap := { imp.trap with relBuf := l } } : State)
    let waits := fun (n m : Nat) (s : State) => s.modSeq n fun q => { q with st := .running, wait := .xsync 6 (BitVec.ofNat 16 m) }
    let meet := fun (m : Nat) => waits 4 7 (waits 5 m (imp.setReg (Reg.trpBar 6) 0x30))
    let got := fun (s : State) => s.modBar 6 fun y => { y with got := [(3, 500, 7)] }
    let arr := fun (f : Nat) (s : State) => s.modBar 6 fun y => { y with arrived := some 700, mask := 7, got := [(3, 600, 7)], full := some f }
    let armed := (imp.modSeq 4 fun q => { q with st := .armed }).setReg (Reg.seqStartCfg 4) 0x00070006 |>.setReg (Reg.trpBar 6) 0x10
    let sync := waits 4 7 (imp.setReg (Reg.trpBar 6) 0x10)
    let abort := up.setReg Reg.trpAbortChips 8
    let dv := fun (l : List (Nat × Nat)) => ({ imp with trap := { imp.trap with dbValid := true }, srcEdges := l } : State)
    let wants := fun (s : State) => [0, 1, 2, 3].foldl (fun s k => s.setFld (Reg.tiuCtrl k) 11 8 (if k = 2 then 5 else 3)) s
    let noBar := fun (s : State) (n : Nat) => (List.range 12).all fun i => i == n || (s.barWait i 6).isNone
    (∀ x ∈ [(up, Reg.trpAbort)], x.1.Inv ∧ x.1.Takes 1 7 x.2 (takenIn x.1 1 7)) ∧
    (∀ s ∈ [up, { up with beat := 255 }, imp, buf (List.replicate 64 {}), buf [{ release := 1001 }, { release := 1000, src := 3 }],
        got (meet 7), got (meet 9), got imp, arr 2 imp, arr 900 imp, arr 2 armed, arr 2 sync, abort, dv [], dv [(61, 63300)], wants (dv [])], s.Inv) ∧
    up.slotFree 2 = true ∧ up.nextFlit 2 = some { typ := 1 } ∧ ({ up with beat := 255 } : State).slotFree 2 = false ∧
    imp.flitTaken 2 (decFlit (950 % 256)) 1 = true ∧ up.regFld (Reg.trpImport 3) 27 16 = 0 ∧ imp.regFld (Reg.trpImport 3) 27 16 ≠ 0 ∧
    imp.db + 2 ≤ imp.dbLatest 8 (fld (decFlit (950 % 256)) 53 46) + 56 + 40 * flitHops (decFlit (950 % 256)) ∧
    imp.dbLatest 8 (fld (decFlit (850 % 256)) 53 46) + 56 + 40 * flitHops (decFlit (850 % 256)) < imp.db + 2 ∧
    (got (meet 7)).barMasks 6 = some [7, 7] ∧ (got (meet 9)).barMasks 6 = some [7, 9] ∧ imp.barMasks 6 = none ∧
    imp.flitTaken 2 (barFlit 5 7) 2 = true ∧ fld (barFlit 5 7) 56 53 = 6 ∧ BitVec.ofNat 16 (fld (barFlit 5 6) 34 19) ≠ ((arr 2 imp).bar 6).mask ∧
    ((got imp).bar 6).got.any (fun i => i.1 == flitSrc (barFlit 3 7)) = true ∧ ((got imp).bar 6).got.any (fun i => i.1 == flitSrc (barFlit 5 7)) = false ∧
    (arr 2 imp).barRelease 6 = some (860, false) ∧ (arr 900 imp).barRelease 6 = some (901, true) ∧ noBar (arr 2 imp) 12 = true ∧
    (arr 2 armed).barRelease 6 = some (860, false) ∧ noBar (arr 2 armed) 4 = true ∧ ((arr 2 armed).barWait 4 6).isSome = true ∧
    bit ((arr 2 armed).getReg (Reg.trpBar 6)) 4 = true ∧
    (arr 2 sync).barRelease 6 = some (860, false) ∧ noBar (arr 2 sync) 4 = true ∧ ((arr 2 sync).barWait 4 6).isSome = true ∧
    abort.flitTaken 2 (mkFlit [(63, 61, 3), (60, 57, 3), (56, 55, 1), (50, 49, 0)]) 3 = true ∧ abort.regBit Reg.trpAbortChips 3 = true ∧
    up.regBit Reg.trpAbortChips 3 = false ∧ imp.flitTaken 2 markFlit 4 = true ∧ imp.trap.dbValid = false ∧ (dv []).trap.dbValid = true ∧
    64 * ((dv []).beat - ((dv []).db - (dv []).dbLatest 16 (fld markFlit 52 37))) + fld markFlit 36 31 = 63367 ∧
    ([0, 1, 2, 3].map fun k => (wants (dv [])).regFld (Reg.tiuCtrl k) 11 8) = [3, 3, 5, 3] ∧ fld markFlit 56 53 = 5 :=
  ⟨all_takes _, all_inv _, by decide +kernel⟩

/-- Adjustments that are armed, cancelled, due and not; PTP messages taken and not, in each state, with and without a step; messages that are
due to be sent; a timestamp queue with room and full; holdover that is due, and a servo that is the host's. -/
theorem wit_NetworkTimeAdjustments :
    let arm := ({ hosted with beat := 5000 } : State).setReg64 Reg.adjBeatLo 100000
    let pend := arm.setReg Reg.adjCtrl 0x101
    let due : State := { pend with beat := 100000 }
    let ptp := fun (st : BitVec 4) (c : Word) => ({ hosted.setReg Reg.ptpCtrl c with
      beat := 5000, netNow := [(Reg.netIpv4Addr, 0x0A000001)]
      time := { hosted.time with actPort := 1, portState := st, parent := 0x55, reqT := some (9, 77) } } : State)
    let slave := ptp 9 0x423
    let master := ptp 6 0x423
    let msg := fun (t : BitVec 4) (two : Bool) => ({ typ := t, twoStep := two, src := 0x55, seqId := 9 } : PtpMsg)
    let len := fun (t : BitVec 4) => if t = 11 then 110 else if t = 9 then 100 else 90
    let l := [(slave, msg 0 true), (slave, msg 0 false), (slave, { msg 0 false with src := 5 }), (slave, msg 9 false), (slave, msg 1 false),
      (master, msg 1 false), (master, { msg 11 false with ann := { steps := 255 } }), (slave, { msg 0 false with domain := 5 })]
    let full := slave.setTsq 1 (List.replicate 16 {})
    (∀ x ∈ [(arm, Reg.snapCmd), (arm, Reg.adjCtrl), (pend, Reg.adjCtrl)], x.1.Inv ∧ x.1.Takes 1 7 x.2 (takenIn x.1 1 7)) ∧
    (∀ s ∈ [arm, pend, due, slave, master, ptp 9 0x2B, full, { slave with beat := 10 ^ 12 }, { ptp 9 0x023 with beat := 10 ^ 12 }], s.Inv) ∧
    (takenIn arm 1 7).adjBeat = 100000 ∧ (takenIn arm 1 7).beat + 1500 ≤ 100000 ∧ (takenIn arm 1 7).adjPending = false ∧
    (takenIn arm 1 7).regBit Reg.ptpCtrl 0 = false ∧ (takenIn pend 1 7).adjPending = true ∧ due.adjPending = true ∧ due.adjBeat = 100000 ∧
    (l.map fun x => let r := x.1.macTakes 1 x.2.head (len x.2.typ); (r.2, r.1.ptpTakes 1 x.2)) =
      [(true, true), (true, true), (true, true), (true, true), (true, true), (true, true), (true, true), (true, false)] ∧
    State.headOk true (msg 0 false).head = true ∧ (msg 0 false).sumRight = true ∧ slave.regBit Reg.ptpCtrl 10 = true ∧ slave.ptpP2p = false ∧
    ([0, 11].all fun t => master.ptpSendDue 1 t) = true ∧ slave.ptpSendDue 1 1 = true ∧ (ptp 9 0x2B).ptpSendDue 1 2 = true ∧
    slave.ptpSendDue 1 0 = false ∧ (slave.tsq 1).length < 16 ∧ 16 ≤ (full.tsq 1).length ∧
    ({ ptp 9 0x023 with beat := 10 ^ 12 } : State).holdoverDue = true ∧ (ptp 9 0x023).holdoverDue = false :=
  ⟨all_takes _, all_inv _, by decide +kernel⟩

/-- A trigger that is off; edges in the dead time and just past it, in time and late; latches that are set; a marker of each action with
an edge, and edges that come, that repeat the level and that reach the output. -/
theorem wit_TriggersAndMarkers :
    let b : State := { hosted with beat := 5000 }
    let on := fun (x : Option Nat) => (b.setReg (Reg.trigCtrl 3) 0x100001).modTrig 3 fun t => { t with last := x }
    let lat := b.setReg (Reg.trigLatch 4) 0xFFFF
    let mk := (b.setFld (Reg.markCtrl 6) 31 28 15).setFld (Reg.tsetOwner 3) 3 0 15
    let e : MEdge := { bin_ := 320003, high := true, order := 3, pulse := false }
    let ed := fun (l en : Bool) => (mk.setBit (Reg.markCtrl 6) 0 en).modMark 6 fun y => { y with level := l, edges := [e] }
    (∀ s ∈ [b.setReg (Reg.trigCtrl 3) 0, on none, on (some 319553), on (some 319552), mk, ed true true, ed false true, ed false false], s.Inv) ∧
    (∀ x ∈ [(lat, Reg.trigLclr 4), (mk, Reg.markHost 6)], x.1.Inv ∧ x.1.Takes 1 7 x.2 (takenIn x.1 1 7)) ∧
    (b.setReg (Reg.trigCtrl 3) 0).regBit (Reg.trigCtrl 3) 0 = false ∧ (on none).regBit (Reg.trigCtrl 3) 0 = true ∧
    (on none).regBit (Reg.trigCtrl 3) 20 = true ∧ ((on (some 319553)).trig 3).last = some 319553 ∧ ((on none).trig 3).pend = [] ∧
    319680 < 319553 + 128 ∧ 319552 + 128 ≤ 319680 ∧ (on none).beat < 319680 / 64 + 8 ∧ 319488 / 64 + 8 ≤ (on none).beat ∧
    ([0, 1, 2, 3].all fun k => !((on none).tiu k).running) = true ∧ ((takenIn lat 1 7).beatSets.all fun x => x.1 != Reg.trigLatch 4) = true ∧
    (takenIn mk 1 7).regFld (Reg.markCtrl 6) 31 28 = 15 ∧ (takenIn mk 1 7).regFld (Reg.tsetOwner 3) 3 0 = 15 ∧
    (mk.markOut 6).edges = [] ∧ ((ed true true).markOut 6).edges = [e] ∧ e.bin_ / 64 ≤ (ed true true).beat ∧
    ((ed true true).markOut 6).level = true ∧ ((ed false true).markOut 6).level = false ∧
    (ed false true).regBit (Reg.markCtrl 6) 0 = true ∧ (ed false false).regBit (Reg.markCtrl 6) 0 = false :=
  ⟨all_inv _, all_takes _, by decide +kernel⟩

/-- A unit that RUN and one that ABORT finds running; no event due; a start with and without a start before it, an orphan, an interval that
is too long, one that goes on and one that is the last; a run that has ended. -/
theorem wit_TimeIntervalUnits :
    let b : State := { hosted with beat := 5000 }
    let old := b.modTiu 2 fun t => { t with xs := [3, 4], done := true }
    let ru := fun (f : Tiu → Tiu) => (b.setReg (Reg.tiuCtrl 2) 0).modTiu 2 fun t => f { t with running := true }
    let ev := fun (x : Nat) (st : Bool) => ({ bin_ := x, isStart := st } : TiuEv)
    let st := fun (q : Option Nat) (xs : List Nat) (e : TiuEv) =>
      (ru fun t => { t with xs := xs, start := q, evs := [e, ev (e.bin_ + 5000) true] }).setReg (Reg.tiuN 2) 3
    let long : State := { st (some 33) [1] (ev (2 ^ 32 + 33) false) with beat := 2 ^ 30 }
    let done := b.modTiu 2 fun t => { t with xs := [3, 4, 9], endFrom := some 4000 }
    (∀ x ∈ [(old, Reg.tiuCmd 2), (ru id, Reg.tiuCmd 2)], x.1.Inv ∧ x.1.Takes 1 7 x.2 (takenIn x.1 1 7)) ∧
    (∀ s ∈ [ru id, st none [1] (ev 64 true), st (some 33) [1] (ev 64 true), st none [1] (ev 64 false), long, st (some 33) [1] (ev 64 false),
        st (some 33) [1, 2] (ev 64 false), b, done], s.Inv) ∧
    (takenIn old 1 7).shutting = false ∧ ((takenIn old 1 7).tiu 2).running = false ∧ ((takenIn old 1 7).tiu 2).endFrom = none ∧
    ((takenIn (ru id) 1 7).tiu 2).running = true ∧ (ru id).tiuDue 2 = none ∧
    ([st none [1] (ev 64 true), st (some 33) [1] (ev 64 true), st none [1] (ev 64 false), st (some 33) [1] (ev 64 false),
      st (some 33) [1, 2] (ev 64 false), long].map fun s => s.tiuDue 2) =
        [some (ev 64 true), some (ev 64 true), some (ev 64 false), some (ev 64 false), some (ev 64 false), some (ev (2 ^ 32 + 33) false)] ∧
    (ru id).regBit (Reg.tiuCtrl 2) 31 = false ∧ (st (some 33) [1] (ev 64 false)).tiuN 2 = 3 ∧ (b.tiu 2).endFrom = none ∧
    (done.tiu 2).endFrom.isSome = true :=
  ⟨all_takes _, all_inv _, by decide +kernel⟩

/-- A block and a monitor visit to evaluate in this beat, and not; an injection that may start; APPLY requests and one that is due; rotation
steps that end and begin, and not; each SAVE, the periodic store, and stores of each kind that end. -/
theorem wit_CalibrationAndStores :
    let b : State := { hosted.setReg Reg.calCtrl 0 with beat := 2359296 }
    let blk := b.modRxCal 13 fun x => { x with evalAt := some 2359296, seenPows := List.replicate 64 1000 }
    let die := fun (e : Nat) => b.modDie 2 fun y => { y with seen := some (31, e), seenActive := 70000 }
    let live := { (b.setBit (Reg.rxCtrl 6 1) 0 true).modRx 6 1 fun x => { x with ready := true } with hk := { b.hk with powered := true } }
    let rq := b.modDie 2 fun y => { y with req := some 5 }
    let rot := (b.setReg Reg.calCtrl 0x20).modRxCal 13 fun x => { x with rot := .swapWait, swapFrom := 5 }
    let gap := fun (t : Nat) => b.modRxCal 13 fun x => { x with rot := .gap, gapTo := t }
    let period := b.setFld Reg.calStore 31 16 10
    let sto := fun (k : StoreKind) (t : Nat) (m : Bool) => ({ b with macOwn := m } : State).modCal fun c => { c with
      store := some { kind := k, start := t, toB := true, words := [(Reg.calCtrl, 5)] } }
    (∀ x ∈ [(live, Reg.rxcalInj 13), (b, Reg.calApply), (b, Reg.calStore), (period, Reg.calStore), (b, Reg.repmapCtrl)],
      x.1.Inv ∧ x.1.Takes 1 7 x.2 (takenIn x.1 1 7)) ∧
    (∀ s ∈ [blk, b, die 2359296, die 7, rq, rot, gap 7, gap 700000000, { period with beat := 2000000000000 }, sto .cal 2359296 true] ++
      [StoreKind.rep, .net, .clr, .cal].flatMap (fun k => [sto k 5 true, sto k 5 false]), s.Inv) ∧
    (blk.rxCal 13).evalAt = some blk.beat ∧ blk.regFld Reg.calCtrl 4 0 = 0 ∧ blk.regBit Reg.calCtrl 16 = false ∧ (blk.rxCal 13).inj = none ∧
    (blk.rxCal 13).rot ≠ .shadow ∧ (∀ k, (blk.judgeSlices 13 {} k).1 = none) ∧ (b.rxCal 13).evalAt ≠ some b.beat ∧ ((die 2359296).dieCal 2).seen = some (31, 2359296) ∧
    ((die 7).dieCal 2).seen = some (31, 7) ∧ ((die 7).tx 7 3).subst = none ∧
    (takenIn live 1 7).rxLive 6 1 = true ∧ (takenIn live 1 7).ringRuns 6 = false ∧ (takenIn live 1 7).carObserves 13 = false ∧
    (takenIn live 1 7).inputLoud 13 = false ∧ ((takenIn live 1 7).rxCal 13).inj = none ∧
    ([0, 1, 2, 3].all fun i => ((takenIn b 1 7).dieCal i).req.isNone) = true ∧ b.applyDue 2 = none ∧ (rq.applyDue 2).isSome = true ∧
    b.rotateDue 13 = none ∧ rot.rotateDue 13 = some false ∧ rot.spareSlice 13 = some 48 ∧ (rot.rxCal 13).failing = none ∧
    ((gap 7).rxCal 13).rot = .gap ∧ ((gap 7).rxCal 13).gapTo ≤ b.beat ∧ (rot.rxCal 13).rot ≠ .gap ∧ b.beat < ((gap 700000000).rxCal 13).gapTo ∧
    (takenIn period 1 7).shutting = false ∧ (takenIn period 1 7).nvmBusy = false ∧ (takenIn period 1 7).regFld Reg.calStore 31 16 = 10 ∧
    (takenIn b 1 7).regFld Reg.calStore 31 16 = 0 ∧ period.cal.lastStore + 10 * 90000000000 ≤ 2000000000000 ∧ period.nvmBusy = false ∧
    period.shutting = false ∧ period.rst.phase = .ready ∧ b.cal.store = none ∧ (sto .cal 2359296 true).cal.store.isSome = true :=
  ⟨all_takes _, all_inv _, by decide +kernel⟩

/-- A damaged word that waits for its write-back, with one, two and (where these are not corrected to another word) three damaged bytes;
scrub reads in each pass; a march test that may start, that runs, that borrows, that releases and abandons a window, and a destructive one
that ends; retention writes of each mode, and wakes of each kind. -/
theorem wit_MemoryTestAndRetention :
    let b : State := { hosted with beat := 5000 }
    let a := State.ringMem 4 + 0x40
    let bytes := fun (k : Nat) => (List.range k).map fun i => (i, (0x80 : Byte))
    let dm := fun (k : Nat) (pf : List Nat) => (b.setBit Reg.scrubCtrl 16 true).modMemu fun x => { x with
      damaged := [(a, bytes k), (7, [(1, 1)])], writeback := [a], passFix := pf }
    let cfg := fun (v : Word) => b.setReg Reg.mtestCfg v
    let m : March := { code := 0, inst := 4, preserving := true, nextAt := 4000 }
    let run := b.modMemu fun x => { x with march := some m }
    let win := fun (h : Option Nat) (t : Nat) => run.modMemu fun x => { x with borrow := some { code := 0, inst := 4, row := 0, at_ := t, hit := h } }
    let ends := fun (t : Nat) (st : Bool) => ({ b.modMemu (fun x => { x with march := some { m with preserving := false, stopping := st } }) with
      beat := t } : State)
    let ret := fun (k : Nat) => b.setReg (Reg.ret 4) (BitVec.ofNat 32 (65537 * k))
    let wake := fun (c : Bool) => b.modMemu fun x => { x with wake := x.wake.set 4 (some (70, c)) }
    (∀ x ∈ [(cfg 0x3401, Reg.mtestCmd), (run, Reg.mtestCmd), (run.setReg Reg.mtestFaults 0x10000, Reg.mtestCmd), (win none 4990, Reg.mtestCmd),
        (ends 5000 false, Reg.mtestCmd), (ret 0, Reg.ret 4), (ret 1, Reg.ret 4), (ret 2, Reg.ret 4)],
      x.1.Inv ∧ x.1.Takes 1 7 x.2 (takenIn x.1 1 7)) ∧
    (∀ s ∈ [b, dm 1 [], dm 2 [], dm 2 [a], dm 3 [], run, win none 4000, win (some 4998) 4990, win none 4990, ends 400000000 false,
        ends 400000000 true, wake false, wake true], s.Inv) ∧
    (dm 2 []).memu.damaged.find? (fun d => d.1 == a) = some (a, bytes 2) ∧ a ∈ (dm 2 []).memu.writeback ∧ Damage.bad (a, bytes 2) = false ∧
    (Config.miscorrected (bytes 3) = none → Damage.bad (a, bytes 3) = true) ∧ a ∉ b.memu.writeback ∧ arrayBase a = a ∧ arrayBase (a + 4) = a ∧
    b.memu.damaged = [] ∧ (dm 2 []).scrubbable (a + 4) = true ∧ a ∉ (dm 2 []).memu.passFix ∧ a ∈ (dm 2 [a]).memu.passFix ∧
    a ∉ (dm 2 [a]).memu.suspects ∧
    (takenIn (cfg 0x3401) 1 7).mtestAuto = false ∧ (takenIn (cfg 0x3401) 1 7).regFld Reg.mtestCfg 15 12 = 3 ∧
    4 < memInstances 3 ∧ (takenIn (cfg 0x3401) 1 7).memu.march = none ∧ (takenIn (cfg 0x3401) 1 7).marchState 3 4 true = true ∧
    (takenIn run 1 7).memu.march = some m ∧ (takenIn run 1 7).memu.borrow = none ∧ (takenIn (win none 4990) 1 7).memu.borrow ≠ none ∧ run.borrowDue = true ∧ b.borrowDue = false ∧
    (win none 4000).releaseWinDue = true ∧ (win (some 4998) 4990).abandonDue = true ∧ (win none 4990).releaseWinDue = false ∧
    (win none 4990).abandonDue = false ∧ (ends 400000000 false).destructEnds = some (memRows 0) ∧ (ends 400000000 true).destructEnds.isSome = true ∧
    b.destructEnds = none ∧
    ([(0, 0), (0, 1), (0, 2), (1, 0), (2, 0), (2, 1)].all fun x => decide ((takenIn (ret x.1) 1 7).retCheck 4 (BitVec.ofNat 32 x.2) = .ok ∧
      (takenIn (ret x.1) 1 7).regFld (Reg.ret 4) 17 16 = x.1)) = true ∧
    b.wakeDue 4 = none ∧ (wake false).wakeDue 4 = some false ∧ (wake true).wakeDue 4 = some true := by
  refine ⟨all_takes _, all_inv _, by decide +kernel, by decide +kernel, by decide +kernel, fun h => ?_, by decide +kernel⟩
  rw [Damage.bad, h]
  rfl

/-- A slot that may start and one that runs, with no frame due, with one that goes on and with the last of a spectrum; a spectrum that is
ready and one that is not; one to push. -/
theorem wit_CarouselSpectra :
    let cfg := ((hosted.setReg (Reg.carCfg 5) 0x000D0070).setReg (Reg.carInteg 5) 32).setBit (Reg.rxCtrl 6 1) 0 true
    let b : State := { cfg.modRx 6 1 fun x => { x with ready := true } with beat := 5000, hk := { hosted.hk with powered := true } }
    let ru := fun (t f : Nat) (rd : List (Nat × Nat × BitVec 16 × List BinAcc)) => ({ b.modCar 5 fun c => { c with
      running := true, p0 := 100, k := 4, frame := f, ready := rd } with beat := t } : State)
    let push := (ru 9000 8 []).modCar 5 fun c => { c with toPush := [1, 2] }
    (∀ x ∈ [(b, Reg.carCmd 5), (ru 5000 0 [], Reg.carCmd 5)], x.1.Inv ∧ x.1.Takes 1 7 x.2 (takenIn x.1 1 7)) ∧
    (∀ s ∈ [ru 5000 3 [], ru 9000 3 [], ru 9000 4 [], ru 9000 8 [(1, 9001, 0, [])], ru 9000 8 [(1, 8000, 0, [])], push, b], s.Inv) ∧
    (takenIn b 1 7).carCmdCheck 5 1 = .ok ∧ (takenIn (ru 5000 0 []) 1 7).carBusy 5 = true ∧ (ru 1000 3 []).frameDue 5 = false ∧
    (ru 9000 3 []).frameDue 5 = true ∧ (ru 9000 4 []).frameDue 5 = true ∧ (ru 9000 4 []).memu.damaged = [] ∧ (ru 9000 4 []).memu.borrow = none ∧
    ((ru 9000 8 []).carSlot 5).k = 4 ∧ (ru 9000 8 []).carPush 5 = false ∧ (push.carSlot 5).toPush = [1, 2] ∧ (b.carSlot 5).toPush = [] :=
  ⟨all_takes _, all_inv _, by decide +kernel⟩

/-- A round that is due at its edge, at once and by time, and one that is not; conversions of each kind; fans that are due, slow and fast;
telemetry that is due. -/
theorem wit_HousekeepingRounds :
    let b : State := { hosted with beat := 5000, hk := { hosted.hk with powered := true } }
    let wt := fun (t : Nat) (ed : Option Nat) (c : Word) => ({ (b.setReg Reg.hkCtrl c).modHk fun h => { h with
      waitEdge := some 4000, edgeAt := ed, slot := 96 } with beat := t } : State)
    let cv := fun (k : Nat) => b.modHk fun h => { h with slot := k, convAt := 5000, waitEdge := none }
    let bad := fun (k : Nat) => ((cv k).setReg Reg.telemCtrl 0x171).modHk fun h => { h with refBad := true }
    let fan := fun (c m : Word) => ((b.setReg (Reg.fanCtrl 1) c).setReg (Reg.fanMinRpm 1) m).modHk fun h => { h with
      fans := h.fans.modify 1 fun _ => { lowFor := 2, nextAt := 4000 } }
    let te := (((hosted.modPort 0 fun e => { e with state := .down }).setReg Reg.telemCtrl 0x70).setReg Reg.throttleR 20).modHk fun h => { h with
      telemDue := some (6, 90), telemSum := 19 }
    (∀ s ∈ [wt 5000 (some 4000) 0x100, wt 5000 none 1, wt 2000000 none 0x100, b, fan 1 200, fan 0 200, te] ++
      [3, 4, 19, 20, 43, 44, 91, 92, 94, 95].map cv ++ [4, 95].map bad ++
      [(cv 44).modBias 0 0 fun o => { o with driven := true }], s.Inv) ∧
    (wt 5000 (some 4000) 0x100).roundDue true = true ∧ (wt 5000 none 1).roundDue false = true ∧ (wt 2000000 none 0x100).roundDue false = true ∧
    b.roundDue false = false ∧ ([3, 4, 19, 20, 43, 44, 91, 92, 94, 95].all fun k => (cv k).conversionDue && (cv k).hk.slot == k) = true ∧
    ([4, 95].all fun k => (bad k).conversionDue && (bad k).hk.refBad && !(cv k).hk.refBad) = true ∧ (bad 95).regBit Reg.telemCtrl 0 = true ∧
    (bad 95).regFld Reg.telemCtrl 23 8 ≤ (bad 95).hk.telemN + 1 ∧
    (wt 5000 none 1).conversionDue = false ∧
    ([4, 19].all fun k => !((cv k).sens (k - 4)).broken && decide (((cv k).sens (k - 4)).level ≠ .shutdown)) = true ∧
    ((fan 1 200).hk.fans.getD 1 {}).nextAt ≤ (fan 1 200).beat ∧ b.beat < (b.hk.fans.getD 1 {}).nextAt ∧ b.hk.telemDue = none ∧
    te.hk.telemDue = some (6, 90) ∧ te.regFld Reg.telemCtrl 6 4 = 7 ∧ te.pushPorts 7 = [1] ∧ (te.port 1).classCHeld ≤ 262144 ∧ (te.thin 19).1 = true :=
  ⟨all_inv _, by decide +kernel⟩

/-- A shutdown that powers down, that is done and is not; a trip of a sound sensor, of a broken one and after a trip; resets asserted in and
out of reset, their end, RST_CMD, and a software reset that comes and is not due yet. -/
theorem wit_ShutdownTripAndReset :
    let b : State := { hosted with beat := 5000, hk := { hosted.hk with powered := true } }
    let sh := b.modHk fun h => { h with shutAt := some 5 }
    let sto := sh.modCal fun c => { c with store := some { kind := .clr, start := 4999 } }
    let w := fun (t : Nat) => ({ b.modHk fun h => { h with shutAt := some 5, shutW := some 4990 } with beat := t } : State)
    let ir := b.modRst fun r => { r with inReset := true, bootPin := 2, ticks := 77 }
    let sw := b.modRst fun r => { r with swAt := some 5000 }
    (∀ s ∈ [sh, sto, ({ sto with beat := 4500005 } : State), ir.modRst fun r => { r with ticks := 15000 }, w 154990, w 154989, b, b.modHk fun h => { h with tripped := true },
        b.modHk (fun h => { h with sens := h.sens.modify 3 fun x => { x with broken := true } }), ir, sw, { sw with beat := 4999 }], s.Inv) ∧
    (∀ x ∈ [(b, Reg.rstCmd)], x.1.Inv ∧ x.1.Takes 1 7 x.2 (takenIn x.1 1 7)) ∧
    sh.hk.shutAt = some 5 ∧ sh.hk.shutW = none ∧ sh.cal.store = none ∧ sh.secWrites = false ∧ sto.cal.store.isSome = true ∧ (w 154990).regBit Reg.thermStatus 6 = false ∧ b.hk.shutW = none ∧
    (b.sens 3).broken = false ∧ b.hk.tripped = false ∧ b.sec.op = none ∧
    ((List.range 12).all fun n => decide ((b.seq n).st = .idle) && !(takenIn b 1 7).ringRuns n) = true ∧
    b.rst.inReset = false ∧ ir.rst.inReset = true ∧ ir.rst.assertAt = 0 ∧ ir.rst.ticks < 15000 ∧ (takenIn b 1 7).cal.store = none ∧ (takenIn b 1 7).sec.op = none ∧ b.rst.swAt = none ∧
    sw.rst.swAt = some 5000 :=
  ⟨all_inv _, all_takes _, by decide +kernel⟩

/-- An update at its shortest image that may start; one that is refused, and one that ends; fuse writes that may start and that end. No state
here shows an update that is verified, which takes a real signature. -/
theorem wit_FirmwareAndFuses :
    let b : State := { hosted with beat := 500000000000 }
    let up := (b.setReg Reg.fwUpdSrc 0x10000040).setReg Reg.fwUpdLen 8048
    let fz := fun (svn : Nat) => b.modSec fun x => { x with img := { svn := svn, key := 1 }, fuses := { minSvn := 3, revoked := 2 } }
    let op := fun (k : SecKind) (wr : Bool) => ({ kind := k, start := 5, block := [1, 2, 3], writing := wr } : SecOp)
    let so := fun (k : SecKind) (wr : Bool) => (fz 5).modSec fun x => { x with op := some (op k wr) }
    (∀ x ∈ [(up, Reg.fwUpdCmd), (fz 5, Reg.fuseCmd)], x.1.Inv ∧ x.1.Takes 1 7 x.2 (takenIn x.1 1 7)) ∧
    (∀ s ∈ [b, so .update false, so .update true, so (.fuse 1) true, so (.fuse 2) true], s.Inv) ∧
    (takenIn up 1 7).getReg Reg.fwUpdSrc = 0x10000040 ∧ (takenIn up 1 7).getReg Reg.fwUpdLen = 8048 ∧ (takenIn up 1 7).shutting = false ∧
    (takenIn up 1 7).sec.op = none ∧ (takenIn up 1 7).nvmBusy = false ∧ b.secReady = none ∧
    ([(SecKind.update, false), (.update, true), (.fuse 1, true), (.fuse 2, true)].all fun x => (so x.1 x.2).secReady == some (op x.1 x.2)) = true ∧
    (so .update false).updError [1, 2, 3] ≠ .ok ∧ (takenIn (fz 5) 1 7).sec.fuses.minSvn < (takenIn (fz 5) 1 7).sec.img.svn ∧
    (takenIn (fz 5) 1 7).slotGood (!(takenIn (fz 5) 1 7).sec.slotB) = false ∧ (takenIn (fz 5) 1 7).sec.img.key = 1 :=
  ⟨all_takes _, all_inv _, by decide +kernel⟩

/-- A report that may start and one that ends; owner operations that may start, that are refused, and that end. No state here shows an owner
block that is verified, which takes a real signature. -/
theorem wit_AttestationAndOwner :
    let b : State := { hosted with beat := 500000000000 }
    let own := fun (l : Bool) => (b.setReg Reg.ownSrc 0x10000040).modSec fun x => { x with locked := l }
    let op := fun (k : SecKind) (wr : Bool) => ({ kind := k, start := 5, block := [1, 2, 3], writing := wr } : SecOp)
    let so := fun (k : SecKind) (wr : Bool) => (own true).modSec fun x => { x with op := some (op k wr) }
    let last := fun (k : SecKind) => (own true).modSec fun x => { x with op := some { op k true with second := true } }
    let l := [(SecKind.attest, false), (.check 4, false), (.lock, false), (.unlock, false), (.lock, true), (.unlock, true)]
    (∀ x ∈ [(b, Reg.attCmd), (own false, Reg.ownCmd), (own true, Reg.ownCmd)], x.1.Inv ∧ x.1.Takes 1 7 x.2 (takenIn x.1 1 7)) ∧
    (∀ s ∈ b :: last .lock :: last .unlock :: l.map fun x => so x.1 x.2, s.Inv) ∧
    ([SecKind.lock, .unlock].all fun k => (last k).secReady == some { op k true with second := true }) = true ∧ (takenIn b 1 7).shutting = false ∧ (takenIn b 1 7).sec.op = none ∧ b.secReady = none ∧
    (l.all fun x => (so x.1 x.2).secReady == some (op x.1 x.2)) = true ∧
    ((List.range 12).all fun n => !(takenIn (own false) 1 7).ringRuns n && decide (((takenIn (own false) 1 7).jug n).st ≠ .running)) = true ∧
    (takenIn (own false) 1 7).destructOn 0 4 = false ∧ (takenIn (own false) 1 7).destructOn 5 4 = false ∧
    (takenIn (own false) 1 7).sec.locked = false ∧ (takenIn (own true) 1 7).sec.locked = true ∧
    ([SecKind.check 4, .lock, .unlock].all fun k => decide ((so k false).ownError (op k false) ≠ .ok)) = true :=
  ⟨all_takes _, all_inv _, by decide +kernel⟩

/-- Each phase, with each boot mode, with a good slot and with none; a link phase that times out; clocks that return and relock; a SYNC
capture in and out of phase, armed and not; ARM, CANCEL and PULSE; a period that ends and one that does not. -/
theorem wit_StartupClocksAndSync :
    let ph := fun (p : Phase) (m : BitVec 2) => hosted.modRst fun r => { r with phase := p, bootMode := m, ticks := 10 ^ 11 }
    let good : State := { ph .fwCheck 0 with nvm := { hosted.nvm with fwB := {
      hdr := { magic := fwMagic, seq := 1, length := 8048, format := 2, unit := hosted.serial32, checkOk := true }, img := { good := true } } } }
    let none_ : State := { ph .fwCheck 0 with nvm := { hosted.nvm with fwA := {} } }
    let late : State := { (ph .link 0).modRst fun r => { r with linkAt := 10 } with beat := 4000000000 }
    let cl := fun (t : Nat) => ({ hosted with beat := t } : State).modRst fun r => { r with refOk := true, refHold := true }
    let re := (cl 5000).modRst fun r => { r with relockTo := some 4999 }
    let arm := (cl 6000).modRst fun r => { r with armed := true }
    let seen := (cl 6000).modRst fun r => { r with syncAt := some 5988 }
    let pulse := fun (t : Nat) (v : Word) => (cl t).setReg Reg.syncCtrl v
    let g := takenIn (cl 6000) 1 7
    (∀ s ∈ [ph .bootRom 0, ph .bootRom 1, ph .bootRom 2, ph .bootRom 3, good, none_, ph .memClear 0, ph .pllLock 0, ph .ready 0, late, re, seen,
        (ph .memClear 0).modRst fun r => { r with ticks := 65535 },
        re.modRst fun r => { r with realign := true }, arm, cl 6000, cl 6001, pulse 6000 0x0A02, pulse 6001 0x0A02], s.Inv) ∧
    (∀ x ∈ [(cl 6000, Reg.clkCmd), (cl 6000, Reg.syncCmd), (arm, Reg.syncCmd), (pulse 6001 1, Reg.syncCmd)],
      x.1.Inv ∧ x.1.Takes 1 7 x.2 (takenIn x.1 1 7)) ∧
    (([ph .bootRom 0, good, none_, ph .memClear 0, ph .pllLock 0] : List State).all fun s => decide (s.rst.phaseAt + (117227520 + 65536) ≤ s.rst.ticks)) = true ∧
    hosted.rst.inReset = false ∧ hosted.rst.coreLock = true ∧ good.slotGood true = true ∧ none_.slotGood false = false ∧ none_.slotGood true = false ∧
    late.rst.linkAt + 3000000000 ≤ late.beat ∧ g.rst.refOk = true ∧ ((List.range 12).all fun n => !g.ringRuns n) = true ∧
    ((List.range 8).all fun i => !g.carBusy i) = true ∧ g.linkActive = false ∧ g.rst.relockTo = none ∧ re.rst.relockTo = some 4999 ∧
    (cl 6000).rst.relockTo = none ∧ (cl 6001).beat % 6 ≠ 0 ∧ (cl 6000).beat % 6 = 0 ∧ (cl 6000).rst.armed = false ∧ arm.rst.armed = true ∧
    (cl 6000).rst.syncAt = none ∧ seen.rst.syncAt = some 5988 ∧ seen.beat < 5988 + 18 ∧
    g.rst.armed = false ∧ (takenIn (pulse 6001 1) 1 7).regFld Reg.syncCtrl 1 0 = 1 ∧ (takenIn (pulse 6001 1) 1 7).pulseBusy = false ∧
    (pulse 6000 0x0A02).regFld Reg.syncCtrl 1 0 = 2 ∧ 6000 % (6 * (pulse 6000 0x0A02).regFld Reg.syncCtrl 31 8) = 0 ∧
    (pulse 6000 0x0A02).rst.pulseAt ≠ some 6000 ∧ 6001 % (6 * (pulse 6000 0x0A02).regFld Reg.syncCtrl 31 8) ≠ 0 :=
  ⟨all_inv _, all_takes _, by decide +kernel⟩

/-- A step that answers a next state, from a sound state with a command in front. -/
theorem wit_StepKeepsSoundness : ({ quiet with pending := [.refClkReturn] } : State).Inv ∧
    step { quiet with pending := [.refClkReturn] } = .next (quiet.modRst fun r => { r with refOk := true }) := ⟨inv _, rfl⟩

/-! ### The spec's worked examples -/

/-- The instructions that 04_zwiec_isa.md encodes after R162, field by field. -/
theorem test_encodedExamples :
    ([0x8100081814000000, 0x9D00082812C00000, 0x3400000200080000, 0x9000002840000000, 0x8C0000286CCCCCCD].map fun w : Nat =>
      (zOp (BitVec.ofNat 64 w), zMode (BitVec.ofNat 64 w), zT (BitVec.ofNat 64 w))) =
      [(0x20, 1, 8), (0x27, 1, 8), (0x0D, 0, 0), (0x24, 0, 0), (0x23, 0, 0)] ∧
    ([0x20, 0x27, 0x0D, 0x24, 0x23].map fun op => zwiecRow op 4) =
      [some (.play 4), some (.acq 4), some (.caseOp 4), some (.phs 4), some (.frq 4)] := by decide +kernel

/-- The addresses of a blank device with SERIAL[23:0] = 0x012345 (02_host_link.md, after R42). -/
theorem test_blankAddresses :
    let s := quiet.modSec fun x => { x with fuses := { x.fuses with serial := 0x012345 } }
    s.portMac 0 = 0x02ED50012345 ∧ s.linkLocal 0 = 0xFE8000000000000000ED50FFFE012345 ∧ s.portMac 1 = 0x06ED50012345 ∧
      s.linkLocal 1 = 0xFE8000000000000004ED50FFFE012345 := by decide +kernel

/-- The statistics of the intervals 0, 672 and 64 (11_time.md, after R396). -/
theorem test_intervalStatistics : tiuMean [0, 672, 64] = 0x00F55555 ∧ tiuStd [0, 672, 64] = 0x00012ED4 := by decide +kernel

/-- Network time around an adjustment of +100 ppb and −250 ns at beat 3,000,000,000 (11_time.md, after R381). -/
theorem test_adjustment :
    let s := ((({ quiet with beat := 3000000000 } : State).setReg64 Reg.adjBeatLo 3000000000).setReg64 Reg.adjIncLo 733007825152).setReg64
      Reg.adjOffNsLo (-250) |>.setReg Reg.adjCtrl 1
    let t := match exec .adjustmentApply s with | .next t => t | _ => s
    intNs (s.netTime 3000000000) = 2000000000 ∧ intNs (t.netTime 3000000000) = 1999999750 ∧
      intNs (t.netTime 4500000000 - t.netTime 3000000000) = 1000000100 := by decide +kernel

/-- Descriptors 40 and 41 of ring 1 (06_transmit.md, after R225): where descriptor 40 lies, and its fields. -/
theorem test_descriptors :
    let s := (quiet.setBytes 0x21400280 (ofWords [0x1000, 0x00184000, 0x00028029, 0, 0, 0x012C1000, 0, 0x2000]))
    s.readDesc 1 40 = ⟨0x1000, 0x00184000, 0x00028029, 0, false, []⟩ ∧ descLen (s.readDesc 1 40).w1 = 24 ∧
      descFactor (s.readDesc 1 40).w1 = 4 ∧ descLen (s.readDesc 1 41).w1 = 300 := by decide +kernel

/-- Window 3 of the Juggler X memory of ring 5 (13_memories.md, after R451). -/
theorem test_windowAddress : rowAddr 6 5 3 = 0x25710300 := by decide +kernel

/-! ### Further cases of the statements -/

/-- A CASE with P = 1 that holds for its fine bits while the coarse ones are valid, with an entry that is no PLAY, a PLAY of an illegal
descriptor and one of a legal descriptor. -/
theorem wit_CaseFetch :
    let w := zw 0xD 0 0 (2 ^ 35 * 28 + 2 ^ 33)
    let da := State.ringMem 11 + 0x400000 + 16 * 4095
    let play := zw 0x20 0 0 (2 ^ 23 * 4095)
    let st := fun (e : BitVec 64) (l : Word) => ((((zs w).setBytes (State.ringMem 11 + 40) (leBytes 8 e.toNat)).setWord (da + 4) l).setReg
      (Reg.seqDrvc 11) 0xF0000000).setReg (Reg.seqDr 11) 0x50000000
    let l := [(st 0 0, w), (st play 0x30000, w), (st play 0x40000, w)]
    (∀ x ∈ l, x.1.Inv ∧ x.1.Goes 11 x.2 (actsIn x.1 11 x.2)) ∧
    (l.all fun x => let g := actsIn x.1 11 w
      !bit (g.meetNow 11).drvf 28 && !bit (g.getReg (Reg.seqDrvf 11)) 28 && (List.range 4).all fun i => bit (g.getReg (Reg.seqDrvc 11)) (28 + i)) = true ∧
    (l.map fun x => zOp ((actsIn x.1 11 w).word64 (State.ringMem 11 + 40))) = [0, 0x20, 0x20] ∧
    (l.map fun x => ((actsIn x.1 11 w).readDesc 11 4095).cause) = [some 0, some 0, none] ∧
    (l.all fun x => (actsIn x.1 11 w).memu.damaged == []) = true ∧
    bit w 33 = true ∧ bit w 34 = false :=
  ⟨all_goes 11 _, by decide +kernel, by decide +kernel, by decide +kernel, by decide +kernel⟩

/-- A CASE that waits with what it has fetched for the value that arrives, for another, and with nothing, its bits valid before the posts
of the beat. -/
theorem wit_CaseCommit :
    let w := zw 0xD 0 0 (2 ^ 35 * 28 + 2 ^ 33)
    let st := fun (got : Option CaseGot) => (((zs w).setReg (Reg.seqDrvf 11) 0xF0000000).setReg (Reg.seqDr 11) 0x50000000).modSeq 11 fun q =>
      { q with wait := .caseW none, caseGot := got }
    (∀ s ∈ [st none, st (some { val := 5 }), st (some { val := 6 })], s.Inv ∧ s.Sees 11 28 4 false 0x50000000 true ∧ (s.seq 11).posts = [] ∧
      (s.seq 11).st = .running ∧ (s.seq 11).caseUse = none ∧ s.zFetch 11 = w) ∧ zOp w = 0x0D ∧ fld (0x50000000 : Word) 31 28 = 5 := by
  refine ⟨fun s hs => ⟨all_inv _ (by decide +kernel) s hs, ?_⟩, by decide, by decide⟩
  have h : (∀ i < 4, bit (s.meetNow 11).drvf (28 + i) = true) ∧ (s.meetNow 11).dr = 0x50000000 ∧ (s.seq 11).posts = [] ∧
      (s.seq 11).st = .running ∧ (s.seq 11).caseUse = none ∧ s.zFetch 11 = zw 0xD 0 0 (2 ^ 35 * 28 + 2 ^ 33) := by
    revert s
    decide +kernel
  exact ⟨⟨h.1, h.2.1.symm⟩, h.2.2⟩

/-- A NOP in MODE 3 and a WAITC whose TRIG condition holds as they issue, and both held until it does. -/
theorem wit_TrigCondition :
    let nop := zw 0 3 0x200A 0
    let wc := zw 4 0 0 (2 ^ 24 * 0x200A)
    let on := fun (w : BitVec 64) => (zs w).setReg (Reg.trigLatch 11) 0x20
    let held := fun (w : BitVec 64) (x : Wait) => (on w).modSeq 11 fun q => { q with wait := x }
    (∀ x ∈ [(on nop, nop), (on wc, wc), (zs (zw 0 3 0x3000 0), zw 0 3 0x3000 0)], x.1.Inv ∧ x.1.Goes 11 x.2 (actsIn x.1 11 x.2)) ∧
    (on nop).condHolds 11 0x200A = true ∧ (actsIn (on wc) 11 wc).condHolds 11 0x200A = true ∧ (on nop).beatSets = [] ∧
    ((held nop (.cond 0x200A)).Inv ∧ (freed (held nop (.cond 0x200A)) 11).Issues 11 nop ∧ (held nop (.cond 0x200A)).condHolds 11 0x200A = true) ∧
    ((held wc (.waitc none)).Inv ∧ (held wc (.waitc none)).zFetch 11 = wc ∧ (held wc (.waitc none)).condHolds 11 0x200A = true) :=
  ⟨all_goes 11 _, by decide +kernel, by decide +kernel, by decide +kernel, ⟨inv _, issues _ _ _, by decide +kernel⟩, inv _, by decide +kernel,
    by decide +kernel⟩

/-- Actions in MODE 0 that meet a queue of 63 entries to come, one whose ring has released 8 in this beat, and a FRQ of a voice with a change
on its way; a PLAY. -/
theorem wit_ActionsThroughTheQueue :
    let w := zw 0x25 0 0 (2 ^ 34 * 31)
    let frq := zw 0x23 0 0 (2 ^ 34 * 31 + 7)
    let q := fun (w : BitVec 64) (k : Nat) => (zs w).modSeq 11 fun q => { q with taq := List.replicate k { at_ := 102 } }
    let full := (q w 63).modSeq 11 fun q => { q with relBeat := 100, relCount := 8 }
    (∀ x ∈ [(q w 63, w), (q w 0, w),
        ((q frq 1).modVoice 11 31 fun x => { x with pins := [{ at_ := 110, kind := .phs 3 }, { at_ := 126, kind := .frq 5 }] }, frq)],
      x.1.Inv ∧ x.1.ActsNow 11 x.2 (actsAt x.1 11)) ∧
    full.Issues 11 w ∧ full.zLegal 11 w = true ∧ (full.seq 11).taq.length < 64 ∧ 8 ≤ full.releasedNow 11 ∧ (q w 63).releasedNow 11 = 0 ∧
    bit frq 39 = false :=
  ⟨all_acts 11 _, issues _ _ _, by decide +kernel, by decide +kernel, by decide +kernel, by decide +kernel, by decide +kernel⟩

/-- A BIAS after another of its beat, alone and with a host's entry between them, and one after another with CLR_N in force. -/
theorem wit_BiasTwice :
    let bia := zw 0x29 0 0 (2 ^ 38 * 3 + 0xFFFFF)
    let bq := fun (r : List (Nat × Int)) => (zs bia).modBias 11 3 fun o => { o with queue := (99, 4) :: (100, 7) :: r, acted := some (100, 7) }
    (∀ x ∈ [(bq [], bia), (bq [(100, 9)], bia), (bq (List.replicate 6 (100, 9)), bia)], x.1.Inv ∧ x.1.ActsNow 11 x.2 (actsAt x.1 11)) ∧
    ([bq [], bq [(100, 9)]].all fun s => decide (((actsAt s 11).biasOut 11 3).acted = some (100, 7)) && !(actsAt s 11).rst.clrN) = true :=
  ⟨all_acts 11 _, by decide +kernel⟩

/-- A PLAY whose descriptor a CASE has fetched, on an idle voice and on one that plays; a ramp that meets a chosen follower, one that meets a
follower which has started, and a jump to a descriptor that is in time. -/
theorem wit_FollowersAndFetchedDescriptors :
    let d : Desc := { w1 := 0x00040000, pairs := [(0, 5)] }
    let at_ := fun (k : VKind) (got : Option Desc) (l : List Seg) => quiet.modVoice 11 31 fun x => { x with
      reqs := [{ act := 96, kind := k, got := got }], segs := l }
    let rep : Seg := { start := 130, bnd := 160, origin := .rep }
    let jump := quiet.modVoice 11 31 fun x => { x with
      segs := [{ bnd := 122 }], jump := some { act := 94, kind := .play 4095 0 false, got := some d } }
    (∀ s ∈ [at_ (.play 4095 5 false) (some d) [], at_ (.play 4095 5 true) (some d) [], at_ (.play 4095 5 false) (some d) [{ bnd := 130 }],
        at_ .ramp none [{ bnd := 130 }, rep], at_ .ramp none [{ rep with start := 90 }], jump], s.Inv ∧ s.memu.borrow = none ∧
        (s.voice 11 31).jumpAt = none ∧ (s.voice 11 31).redo = none) ∧ d.cause = none := by
  refine ⟨fun s hs => ⟨all_inv _ (by decide +kernel) s hs, ?_⟩, by decide +kernel⟩
  revert s
  decide +kernel

/-- A raw push that the thermal reduction lets pass, on both ports, and one that it drops. -/
theorem wit_RawPushFrame :
    let push := fun (r : Word) => (((hosted.modRx 11 1 fun x => { x with raw := .pushing, pushPos := 10 }).setReg (Reg.rxRawStatus 11 1)
      0xB0000).setReg Reg.throttleR r).setReg (Reg.rxRawCtrl 11 1) 0x700000
    (∀ s ∈ [push 20, push 3], s.Inv ∧ s.memu.damaged = []) ∧ (push 20).pushPorts 7 ≠ [] ∧
    ((push 20).pushPorts 7).all (fun q => decide (((push 20).port q).classCHeld ≤ 262144)) = true ∧
    (push 20).regFld (Reg.rxRawCtrl 11 1) 22 20 = 7 ∧ ((push 20).rx 11 1).rawSum + (push 20).regFld Reg.throttleR 4 0 ≥ 20 ∧
    ((push 3).rx 11 1).rawSum + (push 3).regFld Reg.throttleR 4 0 < 20 := by
  refine ⟨fun s hs => ⟨all_inv _ (by decide +kernel) s hs, ?_⟩, by decide +kernel⟩
  revert s
  decide +kernel

/-- Block operations that meet a borrowed window, a write of the beat that has not landed, and neither. -/
theorem wit_BlocksThatWait :
    let a := memBase 1 11
    let chip := hosted.setReg Reg.leaseChip 7
    let win := chip.modMemu fun m => { m with borrow := some { code := 1, inst := 11, row := 0, at_ := 90 } }
    let late := chip.modMemu fun m => { m with late := [(a + 4, [1, 2, 3, 4])] }
    (∀ s ∈ [chip, win, late], s.Inv ∧ s.Hears 1 7 (s.heard 1 7)) ∧ (win.heard 1 7).meetsWindow a 8 = true ∧
    (chip.heard 1 7).meetsWindow a 8 = false ∧ meets (a + 4) 4 a 8 = true ∧ (chip.heard 1 7).memu.late = [] :=
  ⟨all_hears _, by decide +kernel⟩

/-- A port that regains alignment while it is UP, in SHADOW, and with frames but no alignment of its own yet; a module poll that MOD_INT_N
asks for; a held queue above XOFF with no PFC frame sent. -/
theorem wit_PortsRealign :
    let on := fun (f : EthPort → EthPort) => hosted.modPort 1 f
    let sh := on fun e => { e with state := .shadow, aligned := true }
    let pol := on fun e => { e with pollFrom := some 90, modPollAt := 5 }
    let full := (hosted.setReg (Reg.ethCtrl 1) 0x300).modPort 1 fun e => { e with ingress := e.ingress.set 3 300000 }
    (∀ s ∈ [hosted, sh, pol, full], s.Inv) ∧ ([hosted, sh].all fun s => decide (s.ethMode 1 ≠ 2) && s.portsRun && !(s.port 1).locked) = true ∧
    (hosted.port 1).state = .up ∧ (hosted.port 1).egress = [] ∧ (sh.port 1).state = .shadow ∧ (pol.port 1).pollFrom.isSome = true ∧
    full.portAnswers 1 = true ∧ full.pfcEn 1 = true ∧ full.regFld (Reg.ethPfcThr 1) 25 16 * 1024 < (full.port 1).ingress.getD 3 0 ∧
    (full.port 1).xoffAt.getD 3 none = none :=
  ⟨all_inv _, by decide +kernel⟩

/-- Links whose DELAY ended or whose TRAIN_DONE came in the marker beat itself and before; a TIME flit that differs while the link waits for
its partner; flits in DESKEW. -/
theorem wit_LinkBeats :
    let lk := fun (since done : Nat) => ({ hosted.modLink 2 fun l => { l with
      st := .waitPeer, freqOk := true, peerDone := true, since := since, doneAt := done } with beat := 256 } : State)
    let wp := let t := (hosted.modLink 2 fun l => { l with st := .waitPeer, freqOk := true, txOn := true }).setReg (Reg.linkDelay 2) 20
      ({ t with trap := { t.trap with dbValid := true } } : State)
    let dk := hosted.modLink 2 fun l => { l with st := .deskew, freqOk := true }
    (∀ s ∈ [lk 255 255, lk 256 3, lk 3 256, wp, dk], s.Inv) ∧ (lk 255 255).db % 256 = 0 ∧ wp.flitTaken 2 (timeFlit 3 82) 6 = true ∧
    (wp.expectedPeer 2 = none ∨ wp.expectedPeer 2 = some 3) ∧ (wp.db + 2 ^ 48 - fld (timeFlit 3 82) 56 9) % 2 ^ 48 ≠ wp.regFld (Reg.linkDelay 2) 5 0 ∧
    (dk.link 2).st = .deskew ∧ (dk.linkRx 2) = false :=
  ⟨all_inv _, by decide +kernel⟩
end Sys2Proof.Tests
end

section
/-! PROOF. LDI, NOP and the control flow of a Zwiec ring: what each control instruction does to the state in which it acts, and where the
ring goes on (R132, R136, R140-R143). -/

namespace Sys2Proof.Machine

/-! ### Going on after register writes -/

/-- A register beside the program counter and the resume point keeps its word when the ring goes on. -/
theorem State.getReg_goTo_ne {u : State} (h : u.Inv) {n a : Nat} (hn : n < 12) (pc k : Nat) (hp : a ≠ Reg.seqPc n)
    (hr : a ≠ Reg.seqRsc n) : (u.goTo n pc k).getReg a = u.getReg a := by
  obtain ⟨-, keep, -⟩ := goTo_frame h hn pc k
  exact keep a (by simp [hp, hr])

/-- The ring goes on after writes of the registers `as` that left its sequencer alone: seen from before the writes, it goes on from there. -/
theorem State.OnlySeq.goTo {g u : State} {n : Nat} {as : List Nat} (h : g.OnlySeq u n as) (hq : u.seq n = g.seq n) (hu : u.Inv)
    (hn : n < 12) (pc k : Nat) :
    g.Onward (u.goTo n pc k) n pc k ∧ g.OnlySeq (u.goTo n pc k) n (as ++ [Reg.seqPc n, Reg.seqRsc n]) := by
  obtain ⟨⟨hpc, hrsc, hseq⟩, hf⟩ := goTo_frame hu hn pc k
  have hb : u.beat = g.beat := by
    obtain ⟨_, _, _, _, rfl⟩ := h
    rfl
  refine ⟨⟨hpc, hrsc, ?_⟩, h.trans hf⟩
  rw [hseq, hq, hb]

/-- One register is written and the ring goes on. -/
theorem State.setReg_goTo {g : State} (h : g.Inv) {n a : Nat} (hn : n < 12) (v : Word) (pc k : Nat) (hp : a ≠ Reg.seqPc n)
    (hr : a ≠ Reg.seqRsc n) :
    ((g.setReg a v).goTo n pc k).getReg a = v ∧ g.Onward ((g.setReg a v).goTo n pc k) n pc k ∧
      g.OnlySeq ((g.setReg a v).goTo n pc k) n [a, Reg.seqPc n, Reg.seqRsc n] := by
  refine ⟨?_, OnlySeq.goTo (.setReg h n a v) rfl (setReg_inv a v h) hn pc k⟩
  rw [getReg_goTo_ne (setReg_inv a v h) hn pc k hp hr, getReg_setReg_self h.regs_wf]

/-- A write of another register leaves the program counter. -/
theorem State.seqPc_setReg {g : State} (h : g.Inv) {n a : Nat} (v : Word) (hp : a ≠ Reg.seqPc n) :
    (g.setReg a v).seqPc n = g.seqPc n :=
  congrArg (fun x => fld x 14 0) (getReg_setReg_ne h.regs_wf v hp.symm)

/-- One register is written and the next instruction issues in the following beat. -/
theorem State.setReg_goNext {g : State} (h : g.Inv) {n a : Nat} (hn : n < 12) (v : Word) (hp : a ≠ Reg.seqPc n)
    (hr : a ≠ Reg.seqRsc n) :
    ((g.setReg a v).goNext n).getReg a = v ∧ g.Onward ((g.setReg a v).goNext n) n (g.seqPc n + 1) 1 ∧
      g.OnlySeq ((g.setReg a v).goNext n) n [a, Reg.seqPc n, Reg.seqRsc n] := by
  unfold goNext
  rw [seqPc_setReg h v hp]
  exact setReg_goTo h hn v _ _ hp hr

/-! ### The return stack -/

/-- No entry of the return stack is a register that the sequencer goes on with. -/
theorem seqStack_ne (n d : Nat) : Reg.seqStack n d ≠ Reg.seqSt n ∧ Reg.seqStack n d ≠ Reg.seqPc n ∧ Reg.seqStack n d ≠ Reg.seqRsc n := by
  simp only [Reg.seqStack, Reg.seqSt, Reg.seqPc, Reg.seqRsc]
  omega

/-- st is no register that the sequencer goes on with. -/
theorem seqSt_ne (n : Nat) : Reg.seqSt n ≠ Reg.seqPc n ∧ Reg.seqSt n ≠ Reg.seqRsc n := by
  simp only [Reg.seqSt, Reg.seqPc, Reg.seqRsc]
  omega

/-- An entry of the return stack is written, st.DEPTH is set, and the ring goes on (R142): what CALL and RET share. -/
theorem State.stack_goTo {g : State} (h : g.Inv) {n : Nat} (hn : n < 12) (d depth : Nat) (hd : depth < 32) (v : Word) (pc k : Nat) :
    let t := ((g.setReg (Reg.seqStack n d) v).setFld (Reg.seqSt n) 20 16 depth).goTo n pc k
    g.Onward t n pc k ∧ t.getReg (Reg.seqStack n d) = v ∧ fld (t.getReg (Reg.seqSt n)) 20 16 = depth ∧
      g.OnlySeq t n [Reg.seqStack n d, Reg.seqSt n, Reg.seqPc n, Reg.seqRsc n] := by
  obtain ⟨hst, hsp, hsr⟩ := seqStack_ne n d
  obtain ⟨htp, htr⟩ := seqSt_ne n
  have h1 := setReg_inv (Reg.seqStack n d) v h
  have h2 := setFld_inv (Reg.seqSt n) 20 16 depth h1
  have frame : g.OnlySeq ((g.setReg (Reg.seqStack n d) v).setFld (Reg.seqSt n) 20 16 depth) n [Reg.seqStack n d, Reg.seqSt n] :=
    (OnlySeq.setReg h n _ v).trans (OnlySeq.setReg h1 n _ _)
  obtain ⟨on, only⟩ := frame.goTo rfl h2 hn pc k
  refine ⟨on, ?_, ?_, only⟩
  · rw [getReg_goTo_ne h2 hn pc k hsp hsr, getReg_setFld_ne h1 _ _ _ hst, getReg_setReg_self h.regs_wf]
  · rw [getReg_goTo_ne h2 hn pc k htp htr, getReg_setFld_self h1, fld_putFld_self _ _ (by decide)]
    exact Nat.mod_eq_of_lt hd

/-- No loop counter is a register that the sequencer goes on with. -/
theorem seqLc_ne {i : Nat} (n : Nat) (hi : i < 4) : Reg.seqLc n i ≠ Reg.seqPc n ∧ Reg.seqLc n i ≠ Reg.seqRsc n := by
  simp only [Reg.seqLc, Reg.seqPc, Reg.seqRsc]
  omega

/-! ### The instructions -/

/-- A control instruction with opcode `op` answers with the state that its meaning gives. -/
theorem State.Goes.answers {s g t : State} {n : RingId} {w : BitVec 64} (h : s.Goes n w g) (hi : s.Inv) {op : Nat} (ho : zOp w = op)
    (hc : op.testBit 5 = false) (e : g.zControl n w = t) : (Host.Outcome.next (s.zRow n op) : Res) = .next t :=
  congrArg Host.Outcome.next ((ho ▸ zRow_control h hi n.isLt (ho ▸ hc) : s.zRow n op = g.zControl n w).trans e)

theorem State.zLegal_iff {s : State} {n : Nat} {w : BitVec 64} :
    s.zLegal n w = true ↔ zTimingLegal w = true ∧ zOperandsLegal w = true ∧ s.zStateLegal n w = true := by
  simp [zLegal, and_assoc]

section
variable {s g : State} {n : RingId} {w : BitVec 64}

theorem exec_ldi (hi : s.Inv) (h : s.Goes n w g) (ho : zOp w = 0x10) :
    ∃ t, exec (.ldi n) s = .next t ∧ t.getReg (destReg n (fld w 39 35)) = BitVec.ofNat 32 (fld w 31 0) ∧
      g.Onward t n (g.seqPc n + 1) 1 ∧ g.OnlySeq t n [destReg n (fld w 39 35), Reg.seqPc n, Reg.seqRsc n] := by
  have hd : fld w 39 35 ≤ 19 := by
    obtain ⟨-, hl, -⟩ := State.zLegal_iff.mp (h.legal hi n.isLt)
    simp only [zOperandsLegal, ho, Bool.and_eq_true, decide_eq_true_eq] at hl
    exact hl.1
  have e : g.zControl n w = (g.setReg (destReg n (fld w 39 35)) (BitVec.ofNat 32 (fld w 31 0))).goNext n := by
    simp only [State.zControl, ho, setZReg_eq hd]
  obtain ⟨-, hp, hr⟩ := dest_ne (n := n) hd
  exact ⟨_, h.answers hi ho (by decide) e, State.setReg_goNext (h.inv hi) n.isLt _ hp hr⟩

theorem exec_nop (hi : s.Inv) (h : s.Goes n w g) (ho : zOp w = 0x00) :
    ∃ t, exec (.nop n) s = .next t ∧ g.Onward t n (g.seqPc n + 1) 1 ∧ g.OnlySeq t n [Reg.seqPc n, Reg.seqRsc n] := by
  have e : g.zControl n w = g.goNext n := by simp only [State.zControl, ho]
  exact ⟨_, h.answers hi ho (by decide) e, State.goTo_frame (h.inv hi) n.isLt _ _⟩

theorem exec_br (hi : s.Inv) (h : s.Goes n w g) (ho : zOp w = 0x08) :
    ∃ t, exec (.br n) s = .next t ∧ g.OnlySeq t n [Reg.seqPc n, Reg.seqRsc n] ∧
      (brTaken (g.getReg (Reg.seqSt n)) (fld w 39 36) = true → g.Onward t n (fld w 14 0) 2) ∧
      (brTaken (g.getReg (Reg.seqSt n)) (fld w 39 36) = false → g.Onward t n (g.seqPc n + 1) 1) := by
  have e : g.zControl n w = if brTaken (g.getReg (Reg.seqSt n)) (fld w 39 36) then g.goTo n (fld w 14 0) 2
      else g.goTo n (g.seqPc n + 1) 1 := by
    simp only [State.zControl, ho, State.branch, State.goNext]
  have frame := State.goTo_frame (h.inv hi) n.isLt
  refine ⟨_, h.answers hi ho (by decide) e, ?_⟩
  cases brTaken (g.getReg (Reg.seqSt n)) (fld w 39 36) with
  | true => exact ⟨(frame _ _).2, fun _ => (frame _ _).1, nofun⟩
  | false => exact ⟨(frame _ _).2, nofun, fun _ => (frame _ _).1⟩

theorem exec_call (hi : s.Inv) (h : s.Goes n w g) (ho : zOp w = 0x09) :
    let d := fld (g.getReg (Reg.seqSt n)) 20 16
    ∃ t, exec (.call n) s = .next t ∧ g.Onward t n (fld w 14 0) 2 ∧
      t.getReg (Reg.seqStack n d) = BitVec.ofNat 32 ((g.seqPc n + 1) % 32768) ∧ fld (t.getReg (Reg.seqSt n)) 20 16 = d + 1 ∧
      g.OnlySeq t n [Reg.seqStack n d, Reg.seqSt n, Reg.seqPc n, Reg.seqRsc n] := by
  have e : g.zControl n w = (g.pushCall n (g.seqPc n + 1)).goTo n (fld w 14 0) 2 := by
    simp only [State.zControl, ho, State.branch]
  have hd : g.depth n < 16 := by
    obtain ⟨-, -, hl⟩ := State.zLegal_iff.mp (h.legal hi n.isLt)
    simpa only [State.zStateLegal, ho, decide_eq_true_eq] using hl
  exact ⟨_, h.answers hi ho (by decide) e,
    State.stack_goTo (h.inv hi) n.isLt (g.depth n) (g.depth n + 1) (by omega) _ _ _⟩

theorem exec_ret (hi : s.Inv) (h : s.Goes n w g) (ho : zOp w = 0x0A) :
    let d := fld (g.getReg (Reg.seqSt n)) 20 16
    ∃ t, exec (.ret n) s = .next t ∧ g.Onward t n (g.getReg (Reg.seqStack n (d - 1))).toNat 2 ∧
      fld (t.getReg (Reg.seqSt n)) 20 16 = d - 1 ∧
      g.OnlySeq t n [Reg.seqStack n (d - 1), Reg.seqSt n, Reg.seqPc n, Reg.seqRsc n] := by
  have e : g.zControl n w = (g.popCall n).2.goTo n (g.popCall n).1 2 := by
    simp only [State.zControl, ho, State.branch]
  have hd : g.depth n < 32 := fld_lt _ 20 16
  obtain ⟨on, -, depth, only⟩ := State.stack_goTo (h.inv hi) n.isLt (g.depth n - 1) (g.depth n - 1) (by omega) 0
    (g.getReg (Reg.seqStack n (g.depth n - 1))).toNat 2
  exact ⟨_, h.answers hi ho (by decide) e, on, depth, only⟩

theorem exec_loop (hi : s.Inv) (h : s.Goes n w g) (ho : zOp w = 0x0B) :
    let lc := Reg.seqLc n (fld w 39 38)
    let c : Word := if bit w 37 then g.getReg (Reg.seqG n (fld w 36 33)) else BitVec.ofNat 32 (fld w 32 17)
    ∃ t, exec (.loop n) s = .next t ∧ t.getReg lc = c ∧ g.OnlySeq t n [lc, Reg.seqPc n, Reg.seqRsc n] ∧
      (c ≠ 0 → g.Onward t n (g.seqPc n + 1) 1) ∧ (c = 0 → g.Onward t n (fld w 14 0 + 1) 2) := by
  intro lc c
  have e : g.zControl n w = if c = 0 then (g.setReg lc c).goTo n (fld w 14 0 + 1) 2 else (g.setReg lc c).goNext n := by
    simp only [State.zControl, ho]
    rfl
  obtain ⟨hp, hr⟩ := seqLc_ne n (fld_lt w 39 38)
  refine ⟨_, h.answers hi ho (by decide) e, ?_⟩
  by_cases hc : c = 0
  · rw [if_pos hc]
    obtain ⟨hv, on, only⟩ := State.setReg_goTo (h.inv hi) n.isLt c (fld w 14 0 + 1) 2 hp hr
    exact ⟨hv, only, fun x => absurd hc x, fun _ => on⟩
  · rw [if_neg hc]
    obtain ⟨hv, on, only⟩ := State.setReg_goNext (h.inv hi) n.isLt c hp hr
    exact ⟨hv, only, fun _ => on, fun x => absurd x hc⟩

theorem exec_endl (hi : s.Inv) (h : s.Goes n w g) (ho : zOp w = 0x0C) :
    let lc := Reg.seqLc n (fld w 39 38)
    ∃ t, exec (.endl n) s = .next t ∧ g.OnlySeq t n [lc, Reg.seqPc n, Reg.seqRsc n] ∧
      (1 < (g.getReg lc).toNat → t.getReg lc = g.getReg lc - 1 ∧ g.Onward t n (fld w 14 0) 2) ∧
      ((g.getReg lc).toNat ≤ 1 → t.getReg lc = 0 ∧ g.Onward t n (g.seqPc n + 1) 1) := by
  intro lc
  have e : g.zControl n w = if 1 < (g.getReg lc).toNat then (g.setReg lc (g.getReg lc - 1)).goTo n (fld w 14 0) 2
      else (g.setReg lc 0).goNext n := by
    simp only [State.zControl, ho]
    rfl
  obtain ⟨hp, hr⟩ := seqLc_ne n (fld_lt w 39 38)
  refine ⟨_, h.answers hi ho (by decide) e, ?_⟩
  by_cases hc : 1 < (g.getReg lc).toNat
  · rw [if_pos hc]
    obtain ⟨hv, on, only⟩ := State.setReg_goTo (h.inv hi) n.isLt (g.getReg lc - 1) (fld w 14 0) 2 hp hr
    exact ⟨only, fun _ => ⟨hv, on⟩, fun x => absurd hc (Nat.not_lt.mpr x)⟩
  · rw [if_neg hc]
    obtain ⟨hv, on, only⟩ := State.setReg_goNext (h.inv hi) n.isLt 0 hp hr
    exact ⟨only, fun x => absurd x hc, fun _ => ⟨hv, on⟩⟩

end

/-- Settles O2: each instruction acts as its own lemma says. -/
theorem zwiecLoadNopAndControlFlow : Obligations.ZwiecLoadNopAndControlFlow := by
  unfold Obligations.ZwiecLoadNopAndControlFlow
  exact ⟨fun _ _ _ _ hi h => ⟨exec_ldi hi h, exec_nop hi h⟩,
    fun _ _ _ _ hi h => ⟨exec_br hi h, exec_call hi h, exec_ret hi h, exec_loop hi h, exec_endl hi h⟩⟩

end Sys2Proof.Machine
end

section
/-! PROOF. Action instructions that act at once, and what a frame of one ring allows (R122-R130). -/

namespace Sys2Proof.Machine

/-! ### Updates that agree where they act -/

/-- Updates of a list's entry agree when they agree on what stands there. -/
theorem modify_congr {α : Type} {l : List α} {i : Nat} {d : α} {f f' : α → α} (h : f (l.getD i d) = f' (l.getD i d)) :
    l.modify i f = l.modify i f' := by
  refine List.ext_getElem? fun j => ?_
  rw [List.getElem?_modify, List.getElem?_modify]
  by_cases hj : i = j
  · subst hj
    cases e : l[i]? with
    | none => rfl
    | some x =>
      have hx : l.getD i d = x := by simp [List.getD_eq_getElem?_getD, e]
      rw [hx] at h
      simp [h]
  · simp [hj]

theorem State.modRing_congr {s : State} {n : Nat} {f f' : Ring → Ring} (h : f (s.ring n) = f' (s.ring n)) :
    s.modRing n f = s.modRing n f' := congrArg (fun l => { s with rings := l }) (modify_congr h)

theorem State.modSeq_congr {s : State} {n : Nat} {f f' : Seq → Seq} (h : f (s.seq n) = f' (s.seq n)) :
    s.modSeq n f = s.modSeq n f' := modRing_congr (congrArg (fun q => { s.ring n with seq := q }) h)

theorem State.modLane_congr {s : State} {n l : Nat} {f f' : Lane → Lane} (h : f (s.lane n l) = f' (s.lane n l)) :
    s.modLane n l f = s.modLane n l f' := modRing_congr (congrArg (fun x => { s.ring n with lanes := x }) (modify_congr h))

/-! ### Frames of one ring -/

theorem State.OnlyRing.refl (s : State) (n : Nat) : s.OnlyRing s n [] :=
  ⟨fun _ _ => rfl, fun _ _ => rfl, s.rings, s.regs, s.beatSets, rfl⟩

/-- A frame of a ring stays one when the ring is updated. -/
theorem State.OnlyRing.modRing {s t : State} {n : Nat} {as : List Nat} (h : s.OnlyRing t n as) (f : Ring → Ring) :
    s.OnlyRing (t.modRing n f) n as := by
  obtain ⟨hr, hk, l, r, b, rfl⟩ := h
  exact ⟨hr, fun k e => (ring_modRing_ne f e).trans (hk k e), l.modify n f, r, b, rfl⟩

/-- A frame of a ring with a register written. -/
theorem State.OnlyRing.setReg {s t : State} {n : Nat} {as : List Nat} (h : s.OnlyRing t n as) (ht : t.Inv) (a : Nat) (v : Word) :
    s.OnlyRing (t.setReg a v) n (as ++ [a]) := by
  obtain ⟨hr, hk, l, r, b, rfl⟩ := h
  refine ⟨fun x hx => ?_, hk, l, _, b, rfl⟩
  simp only [List.mem_append, List.mem_singleton, not_or] at hx
  exact (getReg_setReg_ne ht.regs_wf v hx.2).trans (hr x hx.1)

/-- A frame of a ring with a flag raised. -/
theorem State.OnlyRing.raiseFlag {s t : State} {n : Nat} {as : List Nat} (h : s.OnlyRing t n as) (ht : t.Inv) (a b : Nat) :
    s.OnlyRing (t.raiseFlag a b) n (as ++ [a, flagCntAddr a b]) := by
  obtain ⟨hr, hk, l, r, c, rfl⟩ := h
  refine ⟨fun x hx => ?_, hk, l, _, _, rfl⟩
  simp only [List.mem_append, List.mem_cons, List.not_mem_nil, or_false, not_or] at hx
  exact (getReg_raiseFlag_ne ht hx.2.1 hx.2.2).trans (hr x hx.1)

/-- No flag register holds its own counters (R99). -/
theorem flagCntAddr_ne (a b : Nat) : a ≠ flagCntAddr a b := by
  unfold flagCntAddr
  split
  · omega
  · split <;> omega

/-- A flag that is raised is set (R99). -/
theorem State.bit_raiseFlag {s : State} (h : s.Inv) (a : Nat) {b : Nat} (hb : b < 32) :
    bit ((s.raiseFlag a b).getReg a) b = true := by
  show bit (((s.setBit a b true).setFlagCount a b _).getReg a) b = true
  unfold setFlagCount
  rw [getReg_setFld_ne (setBit_inv _ _ _ h) _ _ _ (flagCntAddr_ne a b), getReg_setBit_self h, bit_putBit _ _ hb, if_pos rfl]

/-! ### The state in which an action acts -/

/-- In MODE 3 the timing field spends its condition and sets the reference beat (R124, R134). -/
theorem State.zGate_condition {s g : State} {n : Nat} {w : BitVec 64} (hm : zMode w = 3) (h : s.zGate n w = (true, g)) :
    g = (s.condGo n (BitVec.ofNat 16 (zT w))).refNow n := by
  unfold zGate at h
  rw [if_neg (by omega), if_pos hm] at h
  dsimp only at h
  split at h
  · exact (congrArg Prod.snd h).symm
  · cases h

theorem State.seq_condGo (s : State) (n m : Nat) (c : BitVec 16) : (s.condGo n c).seq m = s.seq m := by
  unfold condGo
  split
  · obtain ⟨r, e⟩ := clearLatch_fields s n (BitVec.ofNat 32 (2 ^ (2 * fld c 2 0 + fld c 3 3)))
    rw [e]
    rfl
  · rfl

/-- An action in MODE 3 that no CASE has fetched acts with no fetched descriptor (R148). -/
theorem State.Goes.zGot_none {s g : State} {n : Nat} {w : BitVec 64} (h : s.Goes n w g) (hi : s.Inv) (hn : n < 12) (hm : zMode w = 3) :
    g.zGot n = none := by
  obtain ⟨hs, -, -, hg⟩ := h
  have hi' : (s.hold n .none).Inv := hold_inv n .none hi
  have hg : (s.hold n .none).zGate n w = (true, g) := hg
  have hq : (g.seq n).caseUse = (s.seq n).caseUse := by
    rw [zGate_condition hm hg, refNow, seq_modSeq_self (condGo_inv n _ hi').rings_length hn, seq_condGo, hold,
      seq_modSeq_self hi.rings_length hn]
  unfold zGot
  rw [hq, hs.own]
  rfl

/-- The timing field passes in the present beat. -/
theorem State.Goes.beat {s g : State} {n : Nat} {w : BitVec 64} (h : s.Goes n w g) (hi : s.Inv) : g.beat = s.beat := by
  obtain ⟨-, -, -, hg⟩ := h
  obtain ⟨-, -, q, r, b, e⟩ := zGate_timing (hold_inv n .none hi) n w
  rw [show (s.hold n .none).zGate n w = (true, g) from hg] at e
  have hb := congrArg State.beat e
  exact hb

/-- The operands of an action are g registers. -/
theorem State.zVals_congr {s t : State} {n : Nat} (h : ∀ i < 16, t.gReg n i = s.gReg n i) (w : BitVec 64) :
    t.zVals n w = s.zVals n w := by
  unfold zVals
  rw [h _ (fld_lt w 39 36), h _ (fld_lt w 35 32), h _ (fld_lt w 3 0), h _ (Nat.mod_lt _ (by decide))]

/-- The operands of an action stand when the ring has gone on. -/
theorem State.zVals_goNext {s : State} (h : s.Inv) {n : Nat} (hn : n < 12) (w : BitVec 64) :
    (s.goNext n).zVals n w = s.zVals n w := by
  refine zVals_congr (fun i hi => getReg_goTo_ne h hn _ _ ?_ ?_) w <;> simp only [Reg.seqG, Reg.seqPc, Reg.seqRsc] <;> omega

/-! ### Actions in MODE 0 -/

/-- Of entries that are all to come but the last, a beat with room releases the last (R129). -/
theorem State.pickDue_last {b k : Nat} {l : List Entry} {e : Entry} (hl : ∀ x ∈ l, b < x.at_) (he : e.at_ ≤ b) (hk : 0 < k) :
    pickDue b k (l ++ [e]) = ([e], l) := by
  induction l with
  | nil => simp [pickDue, he, hk]
  | cons x t ih =>
    have hx : ¬ (x.at_ ≤ b ∧ 0 < k) := fun c => Nat.not_lt.mpr c.1 (hl x (by simp))
    rw [List.cons_append, pickDue, if_neg hx, ih fun y hy => hl y (by simp [hy])]

/-- An action in MODE 0 that issues with nothing in the way enters the queue (R128). -/
theorem State.Issues.zIssue_action {s : State} {n : Nat} {w : BitVec 64} (h : s.Issues n w) (hl : s.zLegal n w = true)
    (ha : zAction w = true) (hm : zMode w = 0) (hq : (s.seq n).taq.length < 64) :
    s.zIssue n = (s.hold n .none).zEnqueue n w := by
  have hb : s.ldBlocks n w = false := by
    unfold ldBlocks
    rw [h.free]
    rfl
  obtain ⟨ht, -, -⟩ := zLegal_iff.mp hl
  unfold zIssue
  simp only [h.fetched, h.good, h.own, Option.isSome_none, Bool.false_eq_true, if_false, touch_whole _ h.whole, eccRead_sound h.sound,
    h.fresh, hb, ht, Nat.lt_irrefl, ne_eq, not_true_eq_false]
  rw [if_pos ⟨ha, by omega⟩, if_neg fun e => Nat.not_lt.mpr e.2 hq]

/-- A change of the sequencer before the ring goes on, as one change after it. -/
theorem State.goNext_modSeq (s : State) (n : Nat) (f : Seq → Seq) :
    (s.modSeq n f).goNext n = ((s.setReg (Reg.seqPc n) (BitVec.ofNat 32 ((s.seqPc n + 1) % 32768))).setReg (Reg.seqRsc n) 0).modSeq n
      fun q => { f q with wait := .none, issueAt := s.beat + 1, caseGot := none, caseUse := none } :=
  modSeq_modSeq ((s.setReg (Reg.seqPc n) (BitVec.ofNat 32 ((s.seqPc n + 1) % 32768))).setReg (Reg.seqRsc n) 0) n f
    fun q => { q with wait := .none, issueAt := s.beat + 1, caseGot := none, caseUse := none }

/-- An action in MODE 0 acts at once through a queue that has nothing due and may release (R125, R128, R129). -/
theorem State.zEnqueue_acts {s : State} (hi : s.Inv) {n : Nat} (hn : n < 12) {w : BitVec 64} (hs : s.Issues n w)
    (hl : s.zLegal n w = true) (hm : zMode w = 0) (ht : ∀ e ∈ (s.seq n).taq, s.beat < e.at_) (hr : s.releasedNow n < 8) :
    let g := ((s.modSeq n fun q => { q with wait := .none }).goNext n).modSeq n fun q =>
      { q with relBeat := s.beat, relCount := s.releasedNow n + 1 }
    (s.hold n .none).zEnqueue n w = g.actOne n w (s.zVals n w).1 (s.zVals n w).2 := by
  intro g
  have hl' : (s.hold n .none).zLegal n w = true := ((TimingOnly.modSeq s n _).legal hn w).trans hl
  have hg : (s.hold n .none).zGot n = none := by
    unfold zGot hold
    rw [seq_modSeq_self hi.rings_length hn]
    simp [hs.own]
  let e : Entry := { at_ := s.beat, word := w, v1 := (s.zVals n w).1, v2 := (s.zVals n w).2 }
  let x := ((s.hold n .none).modSeq n fun q => { q with taq := q.taq ++ [e] }).goNext n
  have enqueued : (s.hold n .none).zEnqueue n w = x.releaseTaq n := by
    unfold zEnqueue
    simp only [hm, if_true, show (s.hold n .none).beat = s.beat from rfl, Nat.lt_irrefl, if_false, Nat.max_self, hl', hg]
    rfl
  have hx : x.seq n = { s.seq n with
      wait := .none, issueAt := s.beat + 1, caseGot := none, caseUse := none, taq := (s.seq n).taq ++ [e] } := by
    show (((s.hold n .none).modSeq n _).goNext n).seq n = _
    rw [hold, modSeq_modSeq, goNext_modSeq, seq_modSeq_self (by simpa using hi.rings_length) hn]
    rfl
  have hd : x.releasedNow n = s.releasedNow n := by
    unfold releasedNow
    rw [hx]
    rfl
  have released : x.modSeq n (fun q => { q with taq := (s.seq n).taq, relBeat := s.beat, relCount := s.releasedNow n + 1 }) = g := by
    show (((s.hold n .none).modSeq n _).goNext n).modSeq n _ = ((s.modSeq n _).goNext n).modSeq n _
    rw [hold, modSeq_modSeq, goNext_modSeq, goNext_modSeq, modSeq_modSeq, modSeq_modSeq]
    exact modSeq_congr rfl
  rw [enqueued]
  unfold releaseTaq
  simp only [hx, hd, show x.beat = s.beat from rfl]
  rw [pickDue_last ht (Nat.le_refl s.beat) (by omega)]
  simp only [List.length_singleton, released, List.foldl_cons, List.foldl_nil, show g.beat = s.beat from rfl, e, Nat.lt_irrefl, if_false,
    setGot]

/-! ### Actions in either mode -/

section
variable {s g : State} {n : RingId} {w : BitVec 64}

theorem State.ActsNow.inv (h : s.ActsNow n w g) (hi : s.Inv) : g.Inv := by
  obtain ⟨-, ⟨-, u, hu, rfl⟩ | ⟨-, -, -, -, -, -, rfl⟩⟩ := h
  · exact goNext_inv n (hu.inv hi)
  · exact modSeq_inv n _ (goNext_inv n (modSeq_inv n _ hi))

theorem State.ActsNow.beat (h : s.ActsNow n w g) (hi : s.Inv) : g.beat = s.beat := by
  obtain ⟨-, ⟨-, u, hu, rfl⟩ | ⟨-, -, -, -, -, -, rfl⟩⟩ := h
  · exact hu.beat hi
  · rfl

/-- An action that acts at once does so in the state `g`, with the operands that stand there (R126-R128). -/
theorem State.ActsNow.zRow (h : s.ActsNow n w g) (hi : s.Inv) :
    s.zRow n (zOp w) = g.actOne n w (g.zVals n w).1 (g.zVals n w).2 := by
  obtain ⟨ha, ⟨hm, u, hu, rfl⟩ | ⟨hm, hs, hl, hq, ht, hr, rfl⟩⟩ := h
  · rw [zRow_goes hu, zVals_goNext (hu.inv hi) n.isLt]
    unfold zBody
    rw [if_neg (by simp [hu.legal hi n.isLt]), if_pos ha, hu.zGot_none hi n.isLt hm]
    rfl
  · have hv : ((s.modSeq n fun q => { q with wait := .none }).goNext n).zVals n w = s.zVals n w :=
      zVals_goNext (modSeq_inv n _ hi) n.isLt w
    unfold State.zRow
    simp only [hs.fetched]
    rw [if_pos ⟨hs.ready, by simp [hs.good], trivial, hl⟩, hs.zIssue_action hl ha hm hq,
      zEnqueue_acts hi n.isLt hs hl hm ht hr]
    exact congrArg (fun v : Word × Word => actOne _ n w v.1 v.2) hv.symm

/-- An action with opcode `op` answers with the state that its meaning gives. -/
theorem State.ActsNow.answers {t : State} (h : s.ActsNow n w g) (hi : s.Inv) {op : Nat} (ho : zOp w = op)
    (e : g.actOne n w (g.zVals n w).1 (g.zVals n w).2 = t) : (Host.Outcome.next (s.zRow n op) : Res) = .next t :=
  congrArg Host.Outcome.next ((ho ▸ h.zRow hi : s.zRow n op = _).trans e)

end

end Sys2Proof.Machine
end

section
/-! PROOF. ACQ, KER, FADE, SEND and EVT: what each leaves of the state in which it acts (R149, R157, R158, R161, R162, R285-R287, R292). -/

namespace Sys2Proof.Machine

/-! ### Windows -/

/-- The window that ACQ opens (R157, R285, R286). -/
def State.acqWin (s : State) (n : Nat) (w : BitVec 64) : Win :=
  let ks := s.getReg (Reg.laneKsel n (fld w 39 35))
  { act := s.beat, len := fld w 34 19, closeAt := s.beat + 26 + fld w 34 19, nr := bit w 18, raw := bit w 17, base := fld ks 11 0
    num := BitVec.ofNat 16 (fld ks 31 16), shot := BitVec.ofNat 16 (s.getReg (Reg.seqSc n)).toNat, shotNo := (s.seq n).shotNo }

/-- An ACQ of beat `b` cuts the window: it is open, of an earlier ACQ, and would close later (R292). -/
def Win.cutAt (b : Nat) (x : Win) : Bool := !x.closed && decide (x.act ≠ b) && decide (b + 26 < x.closeAt)

/-- The windows of a lane after an ACQ of beat `b` that opens `new` (R130, R292). -/
def acqWins (b : Nat) (new : Win) (l : List Win) : List Win :=
  ((l.filter fun y => decide (y.act ≠ b)).map fun y => if y.cutAt b then { y with closeAt := b + 26, trunc := true } else y) ++ [new]

theorem State.raiseIf_beat (s : State) (c : Bool) (a b : Nat) : (s.raiseIf c a b).beat = s.beat := by
  cases c <;> rfl

/-- ACQ in the terms of its cut and its new window (R157, R292). -/
theorem State.actAcq_eq (s : State) (n : Nat) (w : BitVec 64) :
    let u := s.raiseIf ((s.lane n (fld w 39 35)).wins.any (·.cutAt s.beat)) (Reg.laneFlags n (fld w 39 35)) 3
    s.actAcq n w = u.modLane n (fld w 39 35) fun x => { x with wins := acqWins s.beat (u.acqWin n w) x.wins } := by
  intro u
  have hb : u.beat = s.beat := raiseIf_beat ..
  unfold acqWin
  rw [hb]
  rfl

/-- The counters of the low four flags follow the flags (R99). -/
theorem flagCntAddr_low {a b : Nat} (hb : b < 4) : flagCntAddr a b = a + 4 := if_pos hb

/-- The window that ACQ opens is the same where the flag of a cut window is raised. -/
theorem State.acqWin_raiseFlag {s : State} (h : s.Inv) (n : Nat) (w : BitVec 64) :
    (s.raiseFlag (Reg.laneFlags n (fld w 39 35)) 3).acqWin n w = s.acqWin n w := by
  have hl : fld w 39 35 < 32 := fld_lt w 39 35
  have keep : ∀ x, x ≠ Reg.laneFlags n (fld w 39 35) → x ≠ Reg.laneFlags n (fld w 39 35) + 4 →
      (s.raiseFlag (Reg.laneFlags n (fld w 39 35)) 3).getReg x = s.getReg x :=
    fun x h1 h2 => getReg_raiseFlag_ne h h1 (flagCntAddr_low (b := 3) (by decide) ▸ h2)
  have hk := keep (Reg.laneKsel n (fld w 39 35)) (by simp only [Reg.laneKsel, Reg.laneFlags]; omega)
    (by simp only [Reg.laneKsel, Reg.laneFlags]; omega)
  have hs := keep (Reg.seqSc n) (by simp only [Reg.seqSc, Reg.laneFlags]; omega) (by simp only [Reg.seqSc, Reg.laneFlags]; omega)
  unfold acqWin
  rw [hk, hs]
  rfl

/-- Where an ACQ cuts none of the lane's windows, the new one joins those of other beats. -/
theorem State.actAcq_uncut {s : State} {n : Nat} {w : BitVec 64}
    (h : ∀ x ∈ (s.lane n (fld w 39 35)).wins, x.closed = true ∨ x.act = s.beat ∨ x.closeAt ≤ s.beat + 26) :
    s.actAcq n w = s.modLane n (fld w 39 35) fun x =>
      { x with wins := (x.wins.filter fun y => decide (y.act ≠ s.beat)) ++ [s.acqWin n w] } := by
  have uncut : ∀ x ∈ (s.lane n (fld w 39 35)).wins, x.cutAt s.beat = false := by
    intro x hx
    rcases h x hx with c | c | c <;> simp [Win.cutAt, c]
  have noneCut : (s.lane n (fld w 39 35)).wins.any (·.cutAt s.beat) = false :=
    List.any_eq_false.mpr fun x hx => by simp [uncut x hx]
  rw [actAcq_eq, noneCut]
  refine modLane_congr (congrArg (fun l => { s.lane n (fld w 39 35) with wins := l ++ [s.acqWin n w] }) ?_)
  exact (List.map_congr_left fun y hy => if_neg (by simp [uncut y (List.mem_of_mem_filter hy)])).trans (List.map_id _)

/-- Where an ACQ cuts the lane's one window, that window closes at the pin beat of the new one (R292). -/
theorem State.actAcq_cut {s : State} (h : s.Inv) {n : Nat} (hn : n < 12) {w : BitVec 64} {x : Win}
    (hx : (s.lane n (fld w 39 35)).wins = [x]) (hc : x.closed = false) (ha : x.act ≠ s.beat) (hb : s.beat + 26 < x.closeAt) :
    let l := fld w 39 35
    ((s.actAcq n w).lane n l).wins = [{ x with closeAt := s.beat + 26, trunc := true }, s.acqWin n w] ∧
      bit ((s.actAcq n w).getReg (Reg.laneFlags n l)) 3 = true ∧
      s.OnlyRing (s.actAcq n w) n [Reg.laneFlags n l, Reg.laneFlags n l + 4] := by
  intro l
  have cut : x.cutAt s.beat = true := by simp [Win.cutAt, hc, ha, hb]
  have someCut : (s.lane n l).wins.any (·.cutAt s.beat) = true := by rw [hx]; simp [cut]
  have e : s.actAcq n w = (s.raiseFlag (Reg.laneFlags n l) 3).modLane n l fun x =>
      { x with wins := acqWins s.beat (s.acqWin n w) x.wins } := by
    rw [actAcq_eq, someCut, raiseIf, if_pos rfl, acqWin_raiseFlag h]
  have hl : l < ((s.raiseFlag (Reg.laneFlags n l) 3).ring n).lanes.length := by
    obtain ⟨-, -, -, -, hlanes, -⟩ := h.ring_sized hn
    exact hlanes ▸ fld_lt w 39 35
  rw [e]
  refine ⟨?_, bit_raiseFlag h _ (by decide), (OnlyRing.raiseFlag (.refl s n) h _ 3).modRing _⟩
  rw [lane_modLane_self (raiseFlag_inv _ _ h).rings_length hn hl, show ((s.raiseFlag (Reg.laneFlags n l) 3).lane n l).wins = [x] from hx]
  simp [acqWins, ha, cut]

/-! ### Posts -/

theorem mem_onesOf {w : Nat} {m : BitVec w} {k i : Nat} : i ∈ onesOf m k ↔ i < k ∧ bit m i = true := by
  simp [onesOf]

/-- A post joins those on their way to its ring, and those of no other. -/
theorem State.seq_addPost {s : State} {m : Nat} (hm : m < s.rings.length) (p : Post) (k : Nat) :
    (s.addPost m p).seq k = { s.seq k with posts := (s.seq k).posts ++ if k = m then [p] else [] } := by
  unfold addPost modSeq seq
  rw [ring_modRing]
  by_cases hk : k = m
  · rw [if_pos ⟨hk, hm⟩, if_pos hk]
  · rw [if_neg fun e => hk e.1, if_neg hk, List.append_nil]

/-- A post changes nothing of a ring beside its sequencer. -/
theorem State.ring_addPost (s : State) (m : Nat) (p : Post) (k : Nat) : { (s.addPost m p).ring k with seq := s.seq k } = s.ring k := by
  unfold addPost modSeq
  rw [ring_modRing]
  split <;> rfl

/-- Posts to the rings of a list without repetition: each of those rings has its post behind those on their way, and nothing else
changes. -/
theorem State.foldl_addPost (p : Nat → Nat → Post) (l : List Nat) (s : State) (hd : l.Nodup) (hl : ∀ m ∈ l, m < s.rings.length) :
    let t := l.foldl (fun s m => s.addPost m (p s.beat m)) s
    (∀ k, t.seq k = { s.seq k with posts := (s.seq k).posts ++ if k ∈ l then [p s.beat k] else [] }) ∧
      (∀ k, { t.ring k with seq := s.seq k } = s.ring k) ∧ ∃ r, t = { s with rings := r } := by
  induction l generalizing s with
  | nil => exact ⟨fun k => by simp, fun k => rfl, s.rings, rfl⟩
  | cons m l ih =>
    obtain ⟨hm, hd⟩ := List.nodup_cons.mp hd
    have hu : (s.addPost m (p s.beat m)).rings.length = s.rings.length := List.length_modify ..
    obtain ⟨hseq, hring, hframe⟩ := ih (s.addPost m (p s.beat m)) hd fun k hk => hu ▸ hl k (by simp [hk])
    refine ⟨fun k => ?_, fun k => ?_, hframe⟩
    · refine (hseq k).trans ?_
      rw [seq_addPost (hl m (by simp)), List.append_assoc]
      by_cases hk : k = m
      · subst hk
        simp [hm]
      · simp only [hk, if_false, List.nil_append, List.mem_cons, false_or]
        rfl
    · exact (congrArg (fun r : Ring => { r with seq := s.seq k }) (hring k)).trans (ring_addPost s m _ k)

theorem onesOf_nodup {w : Nat} (m : BitVec w) (k : Nat) : (onesOf m k).Nodup := List.nodup_range.filter _

/-- The mask of SEND names ring `k` by bit `20 + k` of the word (R149). -/
theorem bit_sendMask (w : BitVec 64) {k : Nat} (hk : k < 12) : bit (BitVec.ofNat 12 (fld w 31 20)) k = bit w (20 + k) := by
  have hf : (BitVec.ofNat 12 (fld w 31 20)).toNat = fld w 31 20 := Nat.mod_eq_of_lt (fld_lt w 31 20)
  show (BitVec.ofNat 12 (fld w 31 20)).toNat.testBit k = _
  rw [hf, fld_testBit, decide_eq_true (by omega), Bool.true_and]

/-- The post of a SEND of ring `n` in beat `b` to ring `k` (R149, R324). -/
def sendPost (n : Nat) (data mask : Word) (coarse : Bool) (b k : Nat) : Post :=
  { due := b + (if k = n then 2 else 6), data := data, mask := mask, coarse := coarse, rank := if k = n then 32 else 16 + n }

/-- The posts of a SEND go to the rings of its mask, whether it exports or not (R149). -/
theorem State.forRings_sendPost {g : State} (h : g.Inv) (n : Nat) (w : BitVec 64) (data mask : Word) :
    let u := g.forRings (BitVec.ofNat 12 (fld w 31 20)) fun m s => s.addPost m (sendPost n data mask (bit w 18) s.beat m)
    (∀ k < 12, u.seq k = { g.seq k with
      posts := (g.seq k).posts ++ if bit w (20 + k) then [sendPost n data mask (bit w 18) g.beat k] else [] }) ∧
      (∀ k, { u.ring k with seq := g.seq k } = g.ring k) ∧ ∃ r, u = { g with rings := r } := by
  obtain ⟨hseq, hframe⟩ := foldl_addPost (sendPost n data mask (bit w 18)) _ g (onesOf_nodup (BitVec.ofNat 12 (fld w 31 20)) 12)
    fun m hm => h.rings_length ▸ (mem_onesOf.mp hm).1
  refine ⟨fun k hk => (hseq k).trans ?_, hframe⟩
  simp only [mem_onesOf, hk, true_and, bit_sendMask w hk]

/-- The Trapeze domain when a SEND of ring `n` takes part in what the chip exports (R361). -/
def State.trapSent (g : State) (n : Nat) (w : BitVec 64) (data mask : Word) : Trap :=
  { g.trap with exports := g.trap.exports ++ [(2 * n, n, bit w 18, BitVec.ofNat 16 (mask.toNat >>> g.regFld Reg.trpXport 4 0),
    BitVec.ofNat 16 (data.toNat >>> g.regFld Reg.trpXport 4 0))] }

/-- SEND posts to the rings of its mask; with X = 1 from a ring that exports, its post joins what the chip exports (R149, R361). -/
theorem State.actSend_posts {g : State} (h : g.Inv) (n : Nat) (w : BitVec 64) (data mask : Word) :
    let t := g.actSend n w data mask
    (∀ k < 12, t.seq k = { g.seq k with
      posts := (g.seq k).posts ++ if bit w (20 + k) then [sendPost n data mask (bit w 18) g.beat k] else [] }) ∧
      (∀ k, { t.ring k with seq := g.seq k } = g.ring k) ∧ { t with rings := g.rings, trap := g.trap } = g ∧
      t.trap = if bit w 19 && g.regBit Reg.trpXport (16 + n) then g.trapSent n w data mask else g.trap := by
  obtain ⟨sent, hring, r, hu⟩ := forRings_sendPost h n w data mask
  have posts : (g.forRings (BitVec.ofNat 12 (fld w 31 20)) fun m s =>
      s.addPost m { due := s.beat + (if m = n then 2 else 6), data := data, mask := mask, coarse := bit w 18,
                    rank := (if m ≠ n then 16 + n else if false then 33 else 32), ownJug := false && decide (m = n) }) =
      { g with rings := r } := by
    rw [← hu]
    refine congrArg (g.forRings _) (funext fun m => funext fun s => ?_)
    by_cases hm : m = n <;> simp [sendPost, hm]
  rw [hu] at sent hring
  have e : g.actSend n w data mask = if bit w 19 ∧ g.regBit Reg.trpXport (16 + n) then
      { g with rings := r, trap := g.trapSent n w data mask } else { g with rings := r } := by
    unfold actSend postDecision
    rw [posts]
    rfl
  rw [e]
  by_cases hx : bit w 19 ∧ g.regBit Reg.trpXport (16 + n)
  · rw [if_pos hx, if_pos (by simpa using hx)]
    exact ⟨sent, hring, rfl, rfl⟩
  · rw [if_neg hx, if_neg (by simpa using hx)]
    exact ⟨sent, hring, rfl, rfl⟩

/-! ### Events -/

/-- EVT writes its value, sets its flag, and with J = 1 interrupts the Juggler (R162, R330). -/
theorem State.actEvt_effect {g : State} (h : g.Inv) {n : Nat} (hn : n < 12) (w : BitVec 64) :
    let t := g.actEvt n w
    t.getReg (Reg.seqUser n) = BitVec.ofNat 32 (fld w 15 0) ∧ bit (t.getReg (Reg.seqPflags n)) 2 = true ∧
      t.jug n = (if bit w 16 then { g.jug n with ipend := putBit (g.jug n).ipend 2 true } else g.jug n) ∧ t.seq n = g.seq n ∧
      g.OnlyRing t n [Reg.seqUser n, Reg.seqPflags n, Reg.seqPflags n + 4] := by
  intro t
  let u := (g.setReg (Reg.seqUser n) (BitVec.ofNat 32 (fld w 15 0))).raiseFlag (Reg.seqPflags n) 2
  have h1 : (g.setReg (Reg.seqUser n) (BitVec.ofNat 32 (fld w 15 0))).Inv := setReg_inv _ _ h
  have hu : u.Inv := raiseFlag_inv _ _ h1
  have user : u.getReg (Reg.seqUser n) = BitVec.ofNat 32 (fld w 15 0) := by
    rw [getReg_raiseFlag_ne h1 (by simp only [Reg.seqUser, Reg.seqPflags]; omega)
      (by rw [flagCntAddr_low (by decide)]; simp only [Reg.seqUser, Reg.seqPflags]; omega), getReg_setReg_self h.regs_wf]
  have flag : bit (u.getReg (Reg.seqPflags n)) 2 = true := bit_raiseFlag h1 _ (by decide)
  have only : g.OnlyRing u n [Reg.seqUser n, Reg.seqPflags n, Reg.seqPflags n + 4] :=
    ((OnlyRing.refl g n).setReg h (Reg.seqUser n) _).raiseFlag h1 (Reg.seqPflags n) 2
  have e : t = if bit w 16 then u.jugPend n 2 else u := rfl
  rw [e]
  cases bit w 16 with
  | true =>
    rw [if_pos rfl, if_pos rfl]
    exact ⟨user, flag, jug_modJug_self hu.rings_length hn _, seq_modJug .., only.modRing _⟩
  | false => exact ⟨user, flag, rfl, rfl, only⟩

/-! ### The instructions -/

section
variable {s g : State} {n : RingId} {w : BitVec 64}

theorem exec_acq (hi : s.Inv) (h : s.ActsNow n w g) (ho : zOp w = 0x27) : exec (.acq n) s = .next (g.actAcq n w) :=
  h.answers hi ho (by simp only [State.actOne, ho])

theorem exec_ker (hi : s.Inv) (h : s.ActsNow n w g) (ho : zOp w = 0x28) : exec (.ker n) s = .next (g.actKer n w) :=
  h.answers hi ho (by simp only [State.actOne, ho])

theorem exec_fade (hi : s.Inv) (h : s.ActsNow n w g) (ho : zOp w = 0x2C) : exec (.fade n) s = .next (g.actFade n w) :=
  h.answers hi ho (by simp only [State.actOne, ho])

theorem exec_send (hi : s.Inv) (h : s.ActsNow n w g) (ho : zOp w = 0x2D) :
    exec (.send n) s = .next (g.actSend n w (g.getReg (Reg.seqG n (fld w 39 36))) (g.getReg (Reg.seqG n (fld w 35 32)))) :=
  h.answers hi ho (by simp only [State.actOne, State.zVals, ho, if_true, State.gReg])

theorem exec_evt (hi : s.Inv) (h : s.ActsNow n w g) (ho : zOp w = 0x2E) : exec (.evt n) s = .next (g.actEvt n w) :=
  h.answers hi ho (by simp only [State.actOne, ho])

end

/-- Settles O14: each action leaves what its own lemma says, and acts in the present beat. -/
theorem windowFadeSendAndEventActions : Obligations.WindowFadeSendAndEventActions := by
  unfold Obligations.WindowFadeSendAndEventActions
  refine ⟨fun s g n w hi h => ?_, fun s g n w hi h => ?_⟩ <;> rw [← h.beat hi]
  · refine ⟨fun ho => ⟨fun hw => ?_, fun x hx hc ha hb => ?_⟩, exec_ker hi h⟩
    · rw [exec_acq hi h ho, State.actAcq_uncut hw]
      rfl
    · exact ⟨_, exec_acq hi h ho, State.actAcq_cut (h.inv hi) n.isLt hx hc ha hb⟩
  · exact ⟨exec_fade hi h, fun ho => ⟨_, exec_send hi h ho, State.actSend_posts (h.inv hi) n w _ _⟩,
      fun ho => ⟨_, exec_evt hi h ho, State.actEvt_effect (h.inv hi) n.isLt w⟩⟩

end Sys2Proof.Machine
end

section
/-! PROOF. The block as a whole: every command completes, the state after reset, and the invariant that every step keeps. -/

namespace Sys2Proof.Machine

/-! ### Every command -/

/-- Every command keeps the invariant, each by the lemma on its meaning. -/
theorem exec_inv {s t : State} (c : Instr) (h : s.Inv) (e : exec c s = .next t) : t.Inv :=
  match c with
  | .rcpRequest _ _ _ => execRcpRequest_inv _ _ _ h t e
  | .pfcXoffRepeat _ _ => execPfcXoffRepeat_inv _ _ h t e
  | .pfcXon _ _ => execPfcXon_inv _ _ h t e
  | .pfcFrameReceive _ _ _ => execPfcFrameReceive_inv _ _ _ h t e
  | .pauseFrameDiscard _ => execPauseFrameDiscard_inv _ h t e
  | .oversizeDiscard _ _ => execOversizeDiscard_inv _ _ h t e
  | .vlanDiscard _ _ => execVlanDiscard_inv _ _ h t e
  | .arpRequest _ _ _ => execArpRequest_inv _ _ _ h t e
  | .neighborSolicitation _ _ _ => execNeighborSolicitation_inv _ _ _ h t e
  | .echoRequest _ _ _ _ _ => execEchoRequest_inv _ _ _ _ _ h t e
  | .read _ _ _ => execRead_inv _ _ _ h t e
  | .write _ _ _ _ => execWrite_inv _ _ _ _ h t e
  | .writeMask _ _ _ _ _ => execWriteMask_inv _ _ _ _ _ h t e
  | .blockRead _ _ _ _ => execBlockRead_inv _ _ _ _ h t e
  | .blockWrite _ _ _ _ => execBlockWrite_inv _ _ _ _ h t e
  | .schedule _ _ _ _ _ _ _ => execSchedule_inv _ _ _ _ _ _ _ h t e
  | .scheduleApply _ => execScheduleApply_inv _ h t e
  | .streamData _ _ _ _ _ _ => execStreamData_inv _ _ _ _ _ _ h t e
  | .credit _ _ _ _ => execCredit_inv _ _ _ _ h t e
  | .resultAck _ _ _ _ => execResultAck_inv _ _ _ _ h t e
  | .sessionOpen _ _ _ _ _ => execSessionOpen_inv _ _ _ _ _ h t e
  | .sessionClose _ _ => execSessionClose_inv _ _ h t e
  | .discover _ _ _ => execDiscover_inv _ _ _ h t e
  | .sessionTimeout _ => execSessionTimeout_inv _ h t e
  | .leaseAcquire _ _ _ => execLeaseAcquire_inv _ _ _ h t e
  | .leaseRelease _ _ _ => execLeaseRelease_inv _ _ _ h t e
  | .leaseBreak _ _ _ => execLeaseBreak_inv _ _ _ h t e
  | .netApply _ _ => execNetApply_inv _ _ h t e
  | .netSave _ _ => execNetSave_inv _ _ h t e
  | .ethCtrlWrite _ _ _ _ => execEthCtrlWrite_inv _ _ _ _ h t e
  | .resqCtrlWrite _ _ _ _ => execResqCtrlWrite_inv _ _ _ _ h t e
  | .strmCfgWrite _ _ _ _ _ => execStrmCfgWrite_inv _ _ _ _ _ h t e
  | .portLost _ => execPortLost_inv _ h t e
  | .portAligned _ => execPortAligned_inv _ h t e
  | .portUp _ => execPortUp_inv _ h t e
  | .resultPush _ => execResultPush_inv _ h t e
  | .creditPush _ _ => execCreditPush_inv _ _ h t e
  | .eventPush => execEventPush_inv h t e
  | .eventDeferredRecord _ _ _ => execEventDeferredRecord_inv _ _ _ h t e
  | .modulePoll _ _ _ => execModulePoll_inv _ _ _ h t e
  | .moduleMirror _ _ => execModuleMirror_inv _ _ h t e
  | .moduleInterrupt _ => execModuleInterrupt_inv _ h t e
  | .seqStart _ _ _ => execSeqStart_inv _ _ _ h t e
  | .seqArm _ _ _ => execSeqArm_inv _ _ _ h t e
  | .seqDisarm _ _ _ => execSeqDisarm_inv _ _ _ h t e
  | .seqResume _ _ _ => execSeqResume_inv _ _ _ h t e
  | .seqHalt _ _ _ => execSeqHalt_inv _ _ _ h t e
  | .seqAbort _ _ _ => execSeqAbort_inv _ _ _ h t e
  | .seqHoldSet _ _ _ => execSeqHoldSet_inv _ _ _ h t e
  | .seqHoldClr _ _ _ => execSeqHoldClr_inv _ _ _ h t e
  | .abortAccept _ => execAbortAccept_inv _ h t e
  | .abortRampEnd _ => execAbortRampEnd_inv _ h t e
  | .machineCheck _ _ => execMachineCheck_inv _ _ h t e
  | .illegalInstruction _ => execIllegalInstruction_inv _ h t e
  | .nop _ => execNop_inv _ h t e
  | .halt _ => execHalt_inv _ h t e
  | .haltComplete _ => execHaltComplete_inv _ h t e
  | .shot _ => execShot_inv _ h t e
  | .shotBoundary _ => execShotBoundary_inv _ h t e
  | .shotStart _ => execShotStart_inv _ h t e
  | .wait _ => execWait_inv _ h t e
  | .waitEnd _ => execWaitEnd_inv _ h t e
  | .timingHoldEnd _ => execTimingHoldEnd_inv _ h t e
  | .waitc _ => execWaitc_inv _ h t e
  | .waitConditionMet _ => execWaitConditionMet_inv _ h t e
  | .decisionTimeout _ => execDecisionTimeout_inv _ h t e
  | .sync _ => execSync_inv _ h t e
  | .syncRelease _ => execSyncRelease_inv _ h t e
  | .xsync _ => execXsync_inv _ h t e
  | .br _ => execBr_inv _ h t e
  | .call _ => execCall_inv _ h t e
  | .ret _ => execRet_inv _ h t e
  | .loop _ => execLoop_inv _ h t e
  | .endl _ => execEndl_inv _ h t e
  | .caseOp _ => execCaseOp_inv _ h t e
  | .dec _ => execDec_inv _ h t e
  | .ldi _ => execLdi_inv _ h t e
  | .ld _ => execLd_inv _ h t e
  | .ldComplete _ => execLdComplete_inv _ h t e
  | .st _ => execSt_inv _ h t e
  | .add _ => execAdd_inv _ h t e
  | .sub _ => execSub_inv _ h t e
  | .and _ => execAnd_inv _ h t e
  | .or _ => execOr_inv _ h t e
  | .xor _ => execXor_inv _ h t e
  | .shl _ => execShl_inv _ h t e
  | .shr _ => execShr_inv _ h t e
  | .cmp _ => execCmp_inv _ h t e
  | .actionRelease _ => execActionRelease_inv _ h t e
  | .play _ => execPlay_inv _ h t e
  | .plays _ => execPlays_inv _ h t e
  | .stop _ => execStop_inv _ h t e
  | .frq _ => execFrq_inv _ h t e
  | .phs _ => execPhs_inv _ h t e
  | .phset _ => execPhset_inv _ h t e
  | .amp _ => execAmp_inv _ h t e
  | .acq _ => execAcq_inv _ h t e
  | .ker _ => execKer_inv _ h t e
  | .bias _ => execBias_inv _ h t e
  | .mark _ => execMark_inv _ h t e
  | .tset _ => execTset_inv _ h t e
  | .fade _ => execFade_inv _ h t e
  | .send _ => execSend_inv _ h t e
  | .evt _ => execEvt_inv _ h t e
  | .decisionArrive _ => execDecisionArrive_inv _ h t e
  | .requestReachesVoice _ _ => execRequestReachesVoice_inv _ _ h t e
  | .segmentBoundary _ _ => execSegmentBoundary_inv _ _ h t e
  | .unitClaim _ _ => execUnitClaim_inv _ _ h t e
  | .stopRampEnd _ _ => execStopRampEnd_inv _ _ h t e
  | .fadeReach _ _ => execFadeReach_inv _ _ h t e
  | .fadeEnd _ _ => execFadeEnd_inv _ _ h t e
  | .fadeReq _ _ _ _ _ => execFadeReq_inv _ _ _ _ _ h t e
  | .coefWrite _ _ _ _ _ _ _ => execCoefWrite_inv _ _ _ _ _ _ _ h t e
  | .txCtrlWrite _ _ _ _ _ => execTxCtrlWrite_inv _ _ _ _ _ h t e
  | .txFsWrite _ _ _ _ _ => execTxFsWrite_inv _ _ _ _ _ h t e
  | .txSettleEnd _ _ => execTxSettleEnd_inv _ _ h t e
  | .biasTargetWrite _ _ _ _ _ => execBiasTargetWrite_inv _ _ _ _ _ h t e
  | .biasTake _ _ => execBiasTake_inv _ _ h t e
  | .biasSlewEnd _ _ => execBiasSlewEnd_inv _ _ h t e
  | .spanWrite _ _ _ _ _ => execSpanWrite_inv _ _ _ _ _ h t e
  | .spanSettleEnd _ _ => execSpanSettleEnd_inv _ _ h t e
  | .qclr _ _ _ _ => execQclr_inv _ _ _ _ h t e
  | .clearWrite _ _ _ _ _ => execClearWrite_inv _ _ _ _ _ h t e
  | .clrNAssert => execClrNAssert_inv h t e
  | .clrNRelease => execClrNRelease_inv h t e
  | .vbiasLoss => execVbiasLoss_inv h t e
  | .vbiasValid => execVbiasValid_inv h t e
  | .rxCtrlWrite _ _ _ _ _ => execRxCtrlWrite_inv _ _ _ _ _ h t e
  | .rxReady _ _ => execRxReady_inv _ _ h t e
  | .rxClip _ _ => execRxClip_inv _ _ h t e
  | .overloadRemoved _ _ => execOverloadRemoved_inv _ _ h t e
  | .windowClose _ _ => execWindowClose_inv _ _ h t e
  | .coarseResult _ _ => execCoarseResult_inv _ _ h t e
  | .fineResult _ _ => execFineResult_inv _ _ h t e
  | .rawArm _ _ _ _ => execRawArm_inv _ _ _ _ h t e
  | .rawStart _ _ _ _ => execRawStart_inv _ _ _ _ h t e
  | .rawDisarm _ _ _ _ => execRawDisarm_inv _ _ _ _ h t e
  | .rawCaptureEnd _ _ => execRawCaptureEnd_inv _ _ h t e
  | .rawPush _ _ => execRawPush_inv _ _ h t e
  | .jugCmdStart _ _ _ => execJugCmdStart_inv _ _ _ h t e
  | .jugCmdStop _ _ _ => execJugCmdStop_inv _ _ _ h t e
  | .doorbell _ _ _ => execDoorbell_inv _ _ _ h t e
  | .interruptEntry _ => execInterruptEntry_inv _ h t e
  | .jugTimerExpiry _ => execJugTimerExpiry_inv _ h t e
  | .illegalPacket _ => execIllegalPacket_inv _ h t e
  | .move _ => execMove_inv _ h t e
  | .mac _ => execMac_inv _ h t e
  | .mac2 _ => execMac2_inv _ h t e
  | .mov _ => execMov_inv _ h t e
  | .jugAdd _ => execJugAdd_inv _ h t e
  | .jugSub _ => execJugSub_inv _ h t e
  | .jugCmp _ => execJugCmp_inv _ h t e
  | .jugAnd _ => execJugAnd_inv _ h t e
  | .jugOr _ => execJugOr_inv _ h t e
  | .jugXor _ => execJugXor_inv _ h t e
  | .jugShl _ => execJugShl_inv _ h t e
  | .jugShr _ => execJugShr_inv _ h t e
  | .asr _ => execAsr_inv _ h t e
  | .neg _ => execNeg_inv _ h t e
  | .abs _ => execAbs_inv _ h t e
  | .min _ => execMin_inv _ h t e
  | .max _ => execMax_inv _ h t e
  | .adds _ => execAdds_inv _ h t e
  | .subs _ => execSubs_inv _ h t e
  | .aclr _ => execAclr_inv _ h t e
  | .amov _ => execAmov_inv _ h t e
  | .aadd _ => execAadd_inv _ h t e
  | .asub _ => execAsub_inv _ h t e
  | .ashl _ => execAshl_inv _ h t e
  | .ashr _ => execAshr_inv _ h t e
  | .aneg _ => execAneg_inv _ h t e
  | .aabs _ => execAabs_inv _ h t e
  | .sgnb _ => execSgnb_inv _ h t e
  | .absoluteMove _ => execAbsoluteMove_inv _ h t e
  | .jugNop _ => execJugNop_inv _ h t e
  | .jugHalt _ => execJugHalt_inv _ h t e
  | .jugBr _ => execJugBr_inv _ h t e
  | .brr _ => execBrr_inv _ h t e
  | .jugCall _ => execJugCall_inv _ h t e
  | .jugRet _ => execJugRet_inv _ h t e
  | .rti _ => execRti_inv _ h t e
  | .doLoop _ => execDoLoop_inv _ h t e
  | .jugWait _ => execJugWait_inv _ h t e
  | .jugWaitRelease _ => execJugWaitRelease_inv _ h t e
  | .jugLdi _ => execJugLdi_inv _ h t e
  | .ldr _ => execLdr_inv _ h t e
  | .movr _ => execMovr_inv _ h t e
  | .inPort _ => execInPort_inv _ h t e
  | .outPort _ => execOutPort_inv _ h t e
  | .post _ => execPost_inv _ h t e
  | .rnd _ => execRnd_inv _ h t e
  | .trapezeStart _ _ _ => execTrapezeStart_inv _ _ _ h t e
  | .trapezeStop _ _ _ => execTrapezeStop_inv _ _ _ h t e
  | .trainingPatternEnd _ => execTrainingPatternEnd_inv _ h t e
  | .linkStateAdvance _ => execLinkStateAdvance_inv _ h t e
  | .linkUp _ => execLinkUp_inv _ h t e
  | .linkFail _ _ => execLinkFail_inv _ _ h t e
  | .timeFlitReceive _ _ => execTimeFlitReceive_inv _ _ h t e
  | .flitDiscard _ _ _ => execFlitDiscard_inv _ _ _ h t e
  | .decFlitTransmit _ => execDecFlitTransmit_inv _ h t e
  | .decFlitReceive _ _ => execDecFlitReceive_inv _ _ h t e
  | .decRelease => execDecRelease_inv h t e
  | .barrierArrive _ => execBarrierArrive_inv _ h t e
  | .barFlitReceive _ _ => execBarFlitReceive_inv _ _ h t e
  | .barrierRelease _ => execBarrierRelease_inv _ h t e
  | .trapezeAbortSend _ _ _ => execTrapezeAbortSend_inv _ _ _ h t e
  | .abortFlitReceive _ _ => execAbortFlitReceive_inv _ _ h t e
  | .tmarkFlitReceive _ _ => execTmarkFlitReceive_inv _ _ h t e
  | .trainDone _ _ => execTrainDone_inv _ _ h t e
  | .mirrorReq _ _ => execMirrorReq_inv _ _ h t e
  | .swapped _ _ => execSwapped_inv _ _ h t e
  | .returned _ _ => execReturned_inv _ _ h t e
  | .laneFailing _ _ => execLaneFailing_inv _ _ h t e
  | .laneSwap _ => execLaneSwap_inv _ h t e
  | .spareBad _ => execSpareBad_inv _ h t e
  | .laneReturn _ => execLaneReturn_inv _ h t e
  | .snapCapture _ _ => execSnapCapture_inv _ _ h t e
  | .adjArm _ _ _ => execAdjArm_inv _ _ _ h t e
  | .adjCancel _ _ => execAdjCancel_inv _ _ h t e
  | .adjustmentApply => execAdjustmentApply_inv h t e
  | .ptpMessageReceive _ _ => execPtpMessageReceive_inv _ _ h t e
  | .ptpMessageSend _ _ => execPtpMessageSend_inv _ _ h t e
  | .ptpHoldover => execPtpHoldover_inv h t e
  | .triggerEdge _ _ _ => execTriggerEdge_inv _ _ _ h t e
  | .trigLatchClear _ _ _ _ => execTrigLatchClear_inv _ _ _ _ h t e
  | .tiuRun _ _ _ => execTiuRun_inv _ _ _ h t e
  | .tiuAbort _ _ _ => execTiuAbort_inv _ _ _ h t e
  | .tiuEvent _ => execTiuEvent_inv _ h t e
  | .tiuDone _ => execTiuDone_inv _ h t e
  | .markHost _ _ _ _ => execMarkHost_inv _ _ _ _ h t e
  | .calBlockEvaluation _ _ => execCalBlockEvaluation_inv _ _ h t e
  | .injectionStart _ _ _ _ => execInjectionStart_inv _ _ _ _ h t e
  | .calApplyWrite _ _ _ => execCalApplyWrite_inv _ _ _ h t e
  | .applyDie _ => execApplyDie_inv _ h t e
  | .sliceRotate _ => execSliceRotate_inv _ h t e
  | .rotationStepStart _ => execRotationStepStart_inv _ h t e
  | .monitorVisit _ _ => execMonitorVisit_inv _ _ h t e
  | .calSave _ _ => execCalSave_inv _ _ h t e
  | .clrSave _ _ => execClrSave_inv _ _ h t e
  | .calStorePeriodic => execCalStorePeriodic_inv h t e
  | .storeComplete _ => execStoreComplete_inv _ h t e
  | .eccWriteback _ => execEccWriteback_inv _ h t e
  | .scrubRead _ => execScrubRead_inv _ h t e
  | .mtestStart _ _ => execMtestStart_inv _ _ h t e
  | .mtestAbort _ _ => execMtestAbort_inv _ _ h t e
  | .windowBorrow => execWindowBorrow_inv h t e
  | .windowRelease _ => execWindowRelease_inv _ h t e
  | .windowAbandon _ => execWindowAbandon_inv _ h t e
  | .mtestDone _ => execMtestDone_inv _ h t e
  | .repmapSave _ _ => execRepmapSave_inv _ _ h t e
  | .retModeWrite _ _ _ _ => execRetModeWrite_inv _ _ _ _ h t e
  | .retWakeDone _ => execRetWakeDone_inv _ h t e
  | .carouselStart _ _ _ => execCarouselStart_inv _ _ _ h t e
  | .carouselStop _ _ _ => execCarouselStop_inv _ _ _ h t e
  | .carouselFrame _ => execCarouselFrame_inv _ h t e
  | .spectrumReady _ => execSpectrumReady_inv _ h t e
  | .spectrumPush _ => execSpectrumPush_inv _ h t e
  | .hkRoundStart _ => execHkRoundStart_inv _ h t e
  | .hkConversion _ _ => execHkConversion_inv _ _ h t e
  | .shutdownPowerDown => execShutdownPowerDown_inv h t e
  | .shutdownDone => execShutdownDone_inv h t e
  | .hardTrip _ => execHardTrip_inv _ h t e
  | .fanTachUpdate _ _ => execFanTachUpdate_inv _ _ h t e
  | .telemetryPush => execTelemetryPush_inv h t e
  | .fwUpdateStart _ _ => execFwUpdateStart_inv _ _ h t e
  | .fwUpdateComplete _ => execFwUpdateComplete_inv _ h t e
  | .fuseMinSvn _ _ _ => execFuseMinSvn_inv _ _ _ h t e
  | .fuseRevoke _ _ _ => execFuseRevoke_inv _ _ _ h t e
  | .fuseWriteComplete => execFuseWriteComplete_inv h t e
  | .attestationStart _ _ => execAttestationStart_inv _ _ h t e
  | .attestationComplete => execAttestationComplete_inv h t e
  | .ownerCheck _ _ _ => execOwnerCheck_inv _ _ _ h t e
  | .ownerLock _ _ _ => execOwnerLock_inv _ _ _ h t e
  | .ownerUnlock _ _ _ => execOwnerUnlock_inv _ _ _ h t e
  | .ownerOpComplete => execOwnerOpComplete_inv h t e
  | .resetAssert _ => execResetAssert_inv _ h t e
  | .resetEnd => execResetEnd_inv h t e
  | .rstCmdReset _ _ _ => execRstCmdReset_inv _ _ _ h t e
  | .softwareResetExpiry => execSoftwareResetExpiry_inv h t e
  | .startupPhaseComplete _ => execStartupPhaseComplete_inv _ h t e
  | .linkPhaseTimeout => execLinkPhaseTimeout_inv h t e
  | .refClkLost => execRefClkLost_inv h t e
  | .relock _ _ => execRelock_inv _ _ h t e
  | .relockDone => execRelockDone_inv h t e
  | .ethrefLost => execEthrefLost_inv h t e
  | .ethrefRelock => execEthrefRelock_inv h t e
  | .syncCapture => execSyncCapture_inv h t e
  | .syncArm _ _ => execSyncArm_inv _ _ h t e
  | .syncCancel _ _ => execSyncCancel_inv _ _ h t e
  | .syncPulse _ _ => execSyncPulse_inv _ _ h t e
  | .syncPulsePeriodic => execSyncPulsePeriodic_inv h t e
  | .biasSampleTick _ _ => execBiasSampleTick_inv _ _ h t e
  | .unitRelease _ _ => execUnitRelease_inv _ _ h t e
  | .pcsLockLoss _ => execPcsLockLoss_inv _ h t e
  | .uncorrectableCodeword _ => execUncorrectableCodeword_inv _ h t e
  | .markerFlit _ => execMarkerFlit_inv _ h t e
  | .markerEdge _ => execMarkerEdge_inv _ h t e
  | .refClkReturn => execRefClkReturn_inv h t e
  | .biasCurrentLimitOrSenseOpen _ _ _ _ => execBiasCurrentLimitOrSenseOpen_inv _ _ _ _ h t e

/-- A step keeps the invariant: a command in front of the queue does, and so does the passing of a beat. -/
theorem step_inv {s t : State} (h : s.Inv) (e : step s = .next t) : t.Inv := by
  unfold step at e
  cases hp : s.pending with
  | nil =>
    rw [hp] at e
    exact State.Inv.ofNext (State.tick_inv h) e
  | cons c l =>
    rw [hp] at e
    exact exec_inv c (h.upd rfl) e

/-- Settles O59: the step lemma of the invariant. -/
theorem stepKeepsSoundness : Obligations.StepKeepsSoundness := fun _ _ h e => step_inv h e

/-- Settles O55, by the definition of a step. -/
theorem stepTakesFront : Obligations.StepTakesFront := fun _ _ _ => rfl

/-- Settles O56: the meaning of each command answers with a next state, whatever it does. -/
theorem everyCommandCompletes : Obligations.EveryCommandCompletes := by
  intro s c
  cases c <;> exact ⟨_, rfl⟩

/-! ### Reset -/

/-- Settles O57: the stores list nothing, and every unit is there as often as the default of its list says. -/
theorem resetIsSound : Obligations.ResetIsSound := by
  refine ⟨⟨rfl, rfl⟩, rfl, ?rings, rfl, rfl, ?ports, rfl, rfl, rfl, rfl, rfl, rfl, rfl, ⟨rfl, rfl, rfl⟩, rfl, rfl⟩
  case rings => exact List.forall_mem_replicate.mpr (.inr ⟨rfl, rfl, rfl, rfl, rfl, rfl, rfl, rfl, rfl, rfl⟩)
  case ports => exact List.forall_mem_replicate.mpr (.inr ⟨rfl, rfl, rfl⟩)

/-- No session is open after reset (R88). -/
theorem session_reset_closed (u : Nat) : (State.reset.session u).isOpen = false := by
  show ((List.replicate 8 ({} : Sess)).getD u {}).isOpen = false
  rw [List.getD_eq_getElem?_getD, List.getElem?_replicate]
  split <;> rfl

/-- Settles O58: the sessions one by one, and the rest by evaluating the one state after reset. -/
theorem resetLeavesTheGivenValues : Obligations.ResetLeavesTheGivenValues := by
  refine ⟨rfl, rfl, rfl, session_reset_closed, rfl, by decide, by decide, ?rings⟩
  case rings => decide +kernel

end Sys2Proof.Machine
end

section
/-! PROOF. Arithmetic of a Zwiec ring: the result, the condition flags, and where the ring goes on (R136, R137). -/

namespace Sys2Proof.Machine

/-- The condition flags are set and the ring goes on: what every arithmetic instruction ends with. -/
theorem State.setCond_goNext {u : State} (h : u.Inv) {n : Nat} (hn : n < 12) (r : Word) (c v : Bool) :
    let t := (u.setCond n (.ofRes r c v)).goNext n
    u.CondIs t n r c v ∧ u.Onward t n (u.seqPc n + 1) 1 ∧ u.OnlySeq t n [Reg.seqSt n, Reg.seqPc n, Reg.seqRsc n] := by
  obtain ⟨hp, hr⟩ := seqSt_ne n
  have hu : (u.setCond n (.ofRes r c v)).Inv := setFld_inv _ _ _ _ h
  obtain ⟨on, only⟩ := OnlySeq.goTo (g := u) (OnlySeq.setReg h n _ _) rfl hu hn ((u.setCond n (.ofRes r c v)).seqPc n + 1) 1
  have hpc : (u.setCond n (.ofRes r c v)).seqPc n = u.seqPc n := seqPc_setReg h _ hp
  exact ⟨condIs n r c v h (getReg_goTo_ne hu hn _ _ hp hr), hpc ▸ on, only⟩

/-- A destination register is written, the flags are set for it, and the ring goes on. -/
theorem State.result_goNext {g : State} (h : g.Inv) {n : Nat} (hn : n < 12) {w : BitVec 64} (hd : fld w 39 35 ≤ 19) (r : Word) (c v : Bool) :
    g.Result (((g.setZReg n (fld w 39 35) r).setCond n (.ofRes r c v)).goNext n) n w r c v := by
  obtain ⟨hs, hp, hr⟩ := dest_ne (n := n) hd
  rw [setZReg_eq hd]
  have hu := setReg_inv (destReg n (fld w 39 35)) r h
  have st : (g.setReg (destReg n (fld w 39 35)) r).getReg (Reg.seqSt n) = g.getReg (Reg.seqSt n) := getReg_setReg_ne h.regs_wf r hs.symm
  obtain ⟨flags, on, only⟩ := setCond_goNext hu hn r c v
  refine ⟨?_, ?_, ?_, (OnlySeq.setReg h n _ r).trans only⟩
  · rw [only.1 _ (by simp [hs, hp, hr]), getReg_setReg_self h.regs_wf]
  · unfold CondIs at flags ⊢
    rwa [st] at flags
  · rw [seqPc_setReg h r hp] at on
    exact on

section
variable {s g : State} {n : RingId} {w : BitVec 64}

/-- The destination of a legal arithmetic instruction is a g register or a loop counter (R136). -/
theorem State.Goes.dest_le (h : s.Goes n w g) (hi : s.Inv) {op : Nat} (ho : zOp w = op) (hop : 0x13 ≤ op ∧ op ≤ 0x19) : fld w 39 35 ≤ 19 := by
  obtain ⟨-, hl, -⟩ := zLegal_iff.mp (h.legal hi n.isLt)
  have : op = 0x13 ∨ op = 0x14 ∨ op = 0x15 ∨ op = 0x16 ∨ op = 0x17 ∨ op = 0x18 ∨ op = 0x19 := by omega
  rcases this with rfl | rfl | rfl | rfl | rfl | rfl | rfl <;>
  · simp only [zOperandsLegal, ho, Bool.and_eq_true, decide_eq_true_eq] at hl
    exact hl.1.1

/-- An arithmetic instruction with a destination ends with what `zAlu` computes (R137). -/
theorem State.Goes.arith (h : s.Goes n w g) (hi : s.Inv) {op : Nat} (ho : zOp w = op) (hop : 0x13 ≤ op ∧ op ≤ 0x19) {r : Word} {c v : Bool}
    (e : zAlu op (g.zReg n (fld w 34 30)) (g.zB n w) = (r, .ofRes r c v)) :
    ∃ t, (Host.Outcome.next (s.zRow n op) : Res) = .next t ∧ g.Result t n w r c v := by
  have hc : op.testBit 5 = false := Nat.testBit_lt_two_pow (by omega)
  have ez : g.zControl n w = g.zArith n w := by
    have : op = 0x13 ∨ op = 0x14 ∨ op = 0x15 ∨ op = 0x16 ∨ op = 0x17 ∨ op = 0x18 ∨ op = 0x19 := by omega
    rcases this with rfl | rfl | rfl | rfl | rfl | rfl | rfl <;> simp only [zControl, ho]
  have ea : g.zArith n w = ((g.setZReg n (fld w 39 35) r).setCond n (.ofRes r c v)).goNext n := by
    have hn : ¬ op = 0x1A := by omega
    unfold zArith
    simp only [ho, e, hn, if_false]
  exact ⟨_, h.answers hi ho hc (ez.trans ea), result_goNext (h.inv hi) n.isLt (h.dest_le hi ho hop) r c v⟩

/-- CMP sets the flags as SUB does, and writes nothing (R137). -/
theorem exec_cmp (hi : s.Inv) (h : s.Goes n w g) (ho : zOp w = 0x1A) :
    let a := g.zReg n (fld w 34 30)
    let b := g.zB n w
    ∃ t, exec (.cmp n) s = .next t ∧
      g.CondIs t n (a - b) (decide (b.toNat ≤ a.toNat)) (decide ((a - b).toInt ≠ a.toInt - b.toInt)) ∧
      g.Onward t n (g.seqPc n + 1) 1 ∧ g.OnlySeq t n [Reg.seqSt n, Reg.seqPc n, Reg.seqRsc n] := by
  intro a b
  have e : g.zControl n w = (g.setCond n (subCond a b).2).goNext n := by
    simp only [State.zControl, ho, State.zArith, if_true]
    rfl
  exact ⟨_, h.answers hi ho (by decide) e, State.setCond_goNext (h.inv hi) n.isLt _ _ _⟩

end

/-- Settles O1: the seven instructions with a destination by one lemma over what they compute, and CMP. -/
theorem zwiecArithmeticWritesResultAndFlags : Obligations.ZwiecArithmeticWritesResultAndFlags := by
  intro s g n w hi h a b k noBorrow subV
  exact ⟨fun ho => h.arith hi ho (by decide) rfl, fun ho => h.arith hi ho (by decide) rfl, fun ho => h.arith hi ho (by decide) rfl,
    fun ho => h.arith hi ho (by decide) rfl, fun ho => h.arith hi ho (by decide) rfl, fun ho => h.arith hi ho (by decide) rfl,
    fun ho => h.arith hi ho (by decide) rfl, exec_cmp hi h⟩

end Sys2Proof.Machine
end

section
/-! PROOF. The wait conditions, the timing field, and the holds of a ring's front end (R123-R125, R134, R164-R169). -/

namespace Sys2Proof.Machine

/-! ### Wait conditions -/

/-- The fields of a wait condition of kind `k` and argument `a` (R134). -/
theorem fld_cond {k a hi lo : Nat} (hk : k < 6) (ha : a < 4096) (hh : hi < 12) (hl : lo ≤ hi) :
    fld (BitVec.ofNat 16 (4096 * k + a)) 15 12 = k ∧ fld (BitVec.ofNat 16 (4096 * k + a)) hi lo = a / 2 ^ lo % 2 ^ (hi + 1 - lo) := by
  have hx : (BitVec.ofNat 16 (4096 * k + a)).toNat = 4096 * k + a := by
    rw [BitVec.toNat_ofNat, Nat.mod_eq_of_lt (by omega)]
  unfold fld
  rw [hx, Nat.shiftRight_eq_div_pow, Nat.shiftRight_eq_div_pow]
  refine ⟨by omega, ?_⟩
  have e : 4096 = 2 ^ lo * (2 ^ (hi + 1 - lo) * 2 ^ (11 - hi)) := by
    rw [← Nat.pow_add, ← Nat.pow_add, show lo + (hi + 1 - lo + (11 - hi)) = 12 by omega]
  rw [e, Nat.mul_assoc, Nat.add_comm, Nat.add_mul_div_left _ _ (Nat.two_pow_pos _), Nat.mul_assoc, Nat.add_mul_mod_self_left]

/-- The bits that a DR condition names are all valid (R134). -/
theorem State.bitsValid_eq (m : Word) (b k : Nat) : bitsValid m b k = decide (∀ i < k, bit m (b + i) = true) := by
  unfold bitsValid
  rw [Bool.eq_iff_iff]
  simp

/-- The six wait conditions, by their kind (R134). -/
theorem condHolds_kinds (s : State) (n a : Nat) (ha : a < 4096) :
    let holds := fun (k : Nat) => s.condHolds n (BitVec.ofNat 16 (4096 * k + a))
    (a < 256 → holds 0 = decide (∀ i < a / 32 + 1, bit (s.getReg (Reg.seqDrvf n)) (a % 32 + i) = true)) ∧
    (a < 256 → holds 1 = decide (∀ i < a / 32 + 1, bit (s.getReg (Reg.seqDrvc n)) (a % 32 + i) = true)) ∧
    (a < 16 → holds 2 = bit (s.getReg (Reg.trigLatch n)) (2 * (a % 8) + a / 8)) ∧
    (a < 16 → holds 3 = decide ((s.getReg (Reg.seqG n a)).toNat ≤ (s.seqTb n).toNat)) ∧
    (a < 512 → holds 4 = decide (a / 4 ≤ s.readyRun n (a % 4))) ∧
    (a < 128 → holds 5 = decide ((s.seq n).taq.length ≤ a)) := by
  have kind := fun k hk => (fld_cond (k := k) (hi := 0) (lo := 0) hk ha (by decide) (by decide)).1
  have field := fun k hk hi lo hh hl => (fld_cond (k := k) (hi := hi) (lo := lo) hk ha hh hl).2
  dsimp only
  unfold State.condHolds
  refine ⟨fun h => ?dr, fun h => ?drc, fun h => ?trig, fun h => ?tb, fun h => ?run, fun h => ?taq⟩
  case dr =>
    simp only [kind 0 (by decide), field 0 (by decide) 4 0 (by decide) (by decide), field 0 (by decide) 7 5 (by decide) (by decide), State.bitsValid_eq]
    rw [show a / 2 ^ 5 % 2 ^ (7 + 1 - 5) = a / 32 by omega, show a / 2 ^ 0 % 2 ^ (4 + 1 - 0) = a % 32 by omega]
  case drc =>
    simp only [kind 1 (by decide), field 1 (by decide) 4 0 (by decide) (by decide), field 1 (by decide) 7 5 (by decide) (by decide), State.bitsValid_eq]
    rw [show a / 2 ^ 5 % 2 ^ (7 + 1 - 5) = a / 32 by omega, show a / 2 ^ 0 % 2 ^ (4 + 1 - 0) = a % 32 by omega]
  case trig =>
    simp only [kind 2 (by decide), field 2 (by decide) 2 0 (by decide) (by decide), field 2 (by decide) 3 3 (by decide) (by decide)]
    rw [show a / 2 ^ 0 % 2 ^ (2 + 1 - 0) = a % 8 by omega, show a / 2 ^ 3 % 2 ^ (3 + 1 - 3) = a / 8 by omega]
  case tb =>
    simp only [kind 3 (by decide), field 3 (by decide) 3 0 (by decide) (by decide)]
    rw [show a / 2 ^ 0 % 2 ^ (3 + 1 - 0) = a by omega]
    rfl
  case run =>
    simp only [kind 4 (by decide), field 4 (by decide) 8 2 (by decide) (by decide), field 4 (by decide) 1 0 (by decide) (by decide)]
    rw [show a / 2 ^ 2 % 2 ^ (8 + 1 - 2) = a / 4 by omega, show a / 2 ^ 0 % 2 ^ (1 + 1 - 0) = a % 4 by omega]
  case taq =>
    simp only [kind 5 (by decide), field 5 (by decide) 6 0 (by decide) (by decide)]
    rw [show a / 2 ^ 0 % 2 ^ (6 + 1 - 0) = a by omega]

/-- The latch bit of a TRIG condition (R134). -/
def trigBit (c : BitVec 16) : Nat := 2 * fld c 2 0 + fld c 3 3

theorem trigBit_lt (c : BitVec 16) : trigBit c < 16 := by
  have h1 := fld_lt c 2 0
  have h2 := fld_lt c 3 3
  unfold trigBit
  omega

/-- The one bit of a mask of one bit. -/
theorem onesOf_pow {b : Nat} (hb : b < 16) : onesOf (BitVec.ofNat 32 (2 ^ b)) 16 = [b] := by
  revert b
  decide

/-- What a condition spends when an instruction goes on: the latch of a TRIG condition, unless the beat has set it (R134, R392). -/
theorem State.condGo_eq (s : State) (n : Nat) (c : BitVec 16) :
    s.condGo n c = if fld c 15 12 = 2 ∧ (Reg.trigLatch n, trigBit c) ∉ s.beatSets then s.setBit (Reg.trigLatch n) (trigBit c) false else s := by
  unfold condGo clearLatch
  rw [show 2 * fld c 2 0 + fld c 3 3 = trigBit c from rfl, onesOf_pow (trigBit_lt c)]
  by_cases h2 : fld c 15 12 = 2
  · rw [if_pos h2, List.foldl_cons, List.foldl_nil]
    by_cases hm : (Reg.trigLatch n, trigBit c) ∈ s.beatSets
    · rw [if_pos hm, if_neg fun e => e.2 hm]
    · rw [if_neg hm, if_pos ⟨h2, hm⟩]
  · rw [if_neg h2, if_neg fun e => h2 e.1]

/-- What a condition spends does not depend on the sequencer. -/
theorem State.condGo_modSeq (s : State) (n : Nat) (c : BitVec 16) (f : Seq → Seq) : (s.modSeq n f).condGo n c = (s.condGo n c).modSeq n f := by
  rw [condGo_eq, condGo_eq]
  show (if fld c 15 12 = 2 ∧ (Reg.trigLatch n, trigBit c) ∉ s.beatSets then _ else _) = _
  split <;> rfl

/-- A condition spends the latch of a TRIG condition and nothing else. -/
theorem State.condGo_frame {s : State} (h : s.Inv) (n : Nat) (c : BitVec 16) :
    s.LatchSpent (s.condGo n c) n c ∧ s.OnlySeq (s.condGo n c) n (if fld c 15 12 = 2 then [Reg.trigLatch n] else []) := by
  rw [condGo_eq]
  have same : s.OnlySeq s n [] := ⟨fun _ _ => rfl, s.seq n, s.regs, s.beatSets, by rw [modSeq_same]⟩
  by_cases h2 : fld c 15 12 = 2
  · rw [if_pos h2]
    by_cases hm : (Reg.trigLatch n, trigBit c) ∈ s.beatSets
    · rw [if_neg fun e => e.2 hm]
      exact ⟨fun _ => (if_pos hm).symm, same.mono (by simp)⟩
    · rw [if_pos ⟨h2, hm⟩]
      exact ⟨fun _ => (getReg_setBit_self h _ _ _).trans (if_neg hm).symm, OnlySeq.setReg h n _ _⟩
  · rw [if_neg h2, if_neg fun e => h2 e.1]
    exact ⟨fun e => absurd e h2, same⟩

/-- The spent latch reads the same after changes elsewhere. -/
theorem State.LatchSpent.congr {g t u : State} {n : Nat} {c : BitVec 16} (h : g.LatchSpent t n c)
    (e : u.getReg (Reg.trigLatch n) = t.getReg (Reg.trigLatch n)) : g.LatchSpent u n c :=
  fun h2 => e.trans (h h2)

/-- A condition reads nothing of the sequencer but its queue and its shot. -/
theorem State.condHolds_modSeq {s : State} (h : s.Inv) {n : Nat} (hn : n < 12) (f : Seq → Seq) (c : BitVec 16)
    (hq : (f (s.seq n)).taq = (s.seq n).taq) (hs : (f (s.seq n)).started = (s.seq n).started)
    (ha : (f (s.seq n)).shotAt = (s.seq n).shotAt) : (s.modSeq n f).condHolds n c = s.condHolds n c := by
  have tb : (s.modSeq n f).seqTb n = s.seqTb n := by
    unfold seqTb
    rw [seq_modSeq_self h.rings_length hn, hs, ha]
    rfl
  have taq : ((s.modSeq n f).seq n).taq = (s.seq n).taq := by rw [seq_modSeq_self h.rings_length hn, hq]
  have run : ∀ j, (s.modSeq n f).readyRun n j = s.readyRun n j := by
    intro j
    have hf : (s.modSeq n f).unitFilled n j = s.unitFilled n j := by
      funext i
      simp only [unitFilled, strm_modSeq]
    unfold readyRun
    rw [hf]
    rfl
  unfold condHolds
  rw [tb, taq, run]
  rfl

/-! ### Issue -/

/-- The command of an opcode is its row (R132). -/
theorem exec_zwiecRow {op : Nat} {n : RingId} {c : Instr} (h : zwiecRow op n = some c) (s : State) : exec c s = .next (s.zRow n op) := by
  unfold zwiecRow at h
  split at h <;> cases h <;> rfl

/-- How an instruction issues with nothing in the way (R122, R126, R128, R135). -/
theorem State.Issues.zIssue_eq {s : State} {n : Nat} {w : BitVec 64} (h : s.Issues n w) :
    s.zIssue n =
      if ¬ zTimingLegal w then (s.hold n .none).zIll n
      else if zAction w ∧ zMode w ≠ 3 then
        if s.zLegal n w ∧ 64 ≤ (s.seq n).taq.length then s.hold n .queueFull else (s.hold n .none).zEnqueue n w
      else if ((s.hold n .none).zGate n w).1 then ((s.hold n .none).zGate n w).2.zBody n w else ((s.hold n .none).zGate n w).2 := by
  have hb : s.ldBlocks n w = false := by
    unfold ldBlocks
    rw [h.free]
    rfl
  unfold zIssue
  simp only [h.fetched, h.good, h.own, Option.isSome_none, Bool.false_eq_true, if_false, touch_whole _ h.whole, eccRead_sound h.sound,
    h.fresh, hb, Nat.lt_irrefl, ne_eq, not_true_eq_false]

/-- A legal instruction that its timing field may hold issues with nothing in the way: it goes on or holds (R122-R125). -/
theorem State.Issues.zRow_gate {s : State} {n : Nat} {w : BitVec 64} (h : s.Issues n w) (hl : s.zLegal n w = true)
    (ha : zAction w = true → zMode w = 3) {go : Bool} {g : State} (hg : (s.hold n .none).zGate n w = (go, g)) :
    s.zRow n (zOp w) = if go then g.zBody n w else g := by
  obtain ⟨ht, -, -⟩ := zLegal_iff.mp hl
  unfold State.zRow
  simp only [h.fetched]
  rw [if_pos ⟨h.ready, by simp [h.good], trivial, hl⟩, h.zIssue_eq, if_neg (by simp [ht]), if_neg fun e => e.2 (ha e.1), hg]

/-- The sequencer of a state that holds is the same, but for its hold. -/
theorem State.hold_hold (s : State) (n : Nat) (a b : Wait) : (s.hold n a).hold n b = s.hold n b := modSeq_modSeq ..

/-- A condition holds or not whatever the front end holds on. -/
theorem State.condHolds_hold {s : State} (h : s.Inv) {n : Nat} (hn : n < 12) (x : Wait) (c : BitVec 16) :
    (s.hold n x).condHolds n c = s.condHolds n c := condHolds_modSeq h hn _ c rfl rfl rfl

/-- The beat that a timing field names does not depend on what the front end holds on. -/
theorem State.timedBeat_hold {s : State} (h : s.Inv) {n : Nat} (hn : n < 12) (x : Wait) (w : BitVec 64) :
    (s.hold n x).timedBeat n w = s.timedBeat n w := by
  unfold timedBeat hold
  rw [seq_modSeq_self h.rings_length hn]

/-! ### The timing field -/

/-- MODE 0 waits for nothing (R123). -/
theorem State.zGate_zero (s : State) (n : Nat) {w : BitVec 64} (hm : zMode w = 0) : s.zGate n w = (true, s) := if_pos hm

/-- MODE 1 and 2 hold until a beat to come (R123). -/
theorem State.zGate_later {s : State} {n : Nat} {w : BitVec 64} (hm : zMode w = 1 ∨ zMode w = 2) (h : s.beat < s.timedBeat n w) :
    s.zGate n w = (false, s.hold n (.timing (s.timedBeat n w))) := by
  unfold zGate
  simp only [show ¬ zMode w = 0 by omega, show ¬ zMode w = 3 by omega, if_false, if_pos h]

/-- MODE 1 and 2 go on in the beat that they name (R123, R124). -/
theorem State.zGate_now {s : State} {n : Nat} {w : BitVec 64} (hm : zMode w = 1 ∨ zMode w = 2) (h : s.timedBeat n w = s.beat) :
    s.zGate n w = (true, s.refNow n) := by
  unfold zGate
  simp only [show ¬ zMode w = 0 by omega, show ¬ zMode w = 3 by omega, if_false, h, Nat.lt_irrefl]

/-- MODE 1 and 2 go on at once after the beat that they name, and mark the shot late (R125). -/
theorem State.zGate_late {s : State} {n : Nat} {w : BitVec 64} (hm : zMode w = 1 ∨ zMode w = 2) (h : s.timedBeat n w < s.beat) :
    s.zGate n w = (true, (s.markLate n).refNow n) := by
  unfold zGate
  simp only [show ¬ zMode w = 0 by omega, show ¬ zMode w = 3 by omega, if_false, Nat.not_lt.mpr (Nat.le_of_lt h), if_pos h]

/-- MODE 3 waits for its condition (R123, R134). -/
theorem State.zGate_waits {s : State} {n : Nat} {w : BitVec 64} (hm : zMode w = 3) (h : s.condHolds n (BitVec.ofNat 16 (zT w)) = false) :
    s.zGate n w = (false, s.hold n (.cond (BitVec.ofNat 16 (zT w)))) := by
  unfold zGate
  simp only [hm, h, if_true, Bool.false_eq_true, if_false, show ¬ (3 = 0) by decide]

/-- MODE 3 goes on when its condition holds (R124, R134). -/
theorem State.zGate_goes {s : State} {n : Nat} {w : BitVec 64} (hm : zMode w = 3) (h : s.condHolds n (BitVec.ofNat 16 (zT w)) = true) :
    s.zGate n w = (true, (s.condGo n (BitVec.ofNat 16 (zT w))).refNow n) := by
  unfold zGate
  simp only [hm, h, if_true, if_false, show ¬ (3 = 0) by decide]

/-- A change of the sequencer, as a frame. -/
theorem State.OnlySeq.modSeq (s : State) (n : Nat) (f : Seq → Seq) : s.OnlySeq (s.modSeq n f) n [] :=
  ⟨fun _ _ => rfl, _, s.regs, s.beatSets, modSeq_const n f⟩

/-- Settles O4: the conditions by kind, and the timing field by mode. -/
theorem zwiecTimingFieldsAndConditions : Obligations.ZwiecTimingFieldsAndConditions := by
  refine ⟨condHolds_kinds, fun s n w c hi hs hl hc => ?_⟩
  intro h t k
  have row := exec_zwiecRow hc s
  have hh : h.Inv := State.modSeq_inv n _ hi
  have held : h.condHolds n k = s.condHolds n k := State.condHolds_hold hi n.isLt .none k
  have named : h.timedBeat n w = t := State.timedBeat_hold hi n.isLt .none w
  refine ⟨fun ha hm ht => ?later, fun hm hf => ?waits, fun hm hf => ?goes, fun hm => h.zGate_zero n hm, fun hm ht => ?now, fun hm ht => ?late⟩
  case later =>
    have gate : h.zGate n w = (false, s.hold n (.timing t)) := by
      rw [State.zGate_later hm (named ▸ ht), named]
      exact congrArg _ (State.hold_hold s n _ _)
    rw [row, hs.zRow_gate hl (by simp [ha]) gate]
    rfl
  case waits =>
    have gate : h.zGate n w = (false, s.hold n (.cond k)) := by
      rw [State.zGate_waits hm (held.trans hf)]
      exact congrArg _ (State.hold_hold s n _ _)
    rw [row, hs.zRow_gate hl (fun _ => hm) gate]
    rfl
  case goes =>
    obtain ⟨spent, only⟩ := State.condGo_frame hh n k
    refine ⟨(h.condGo n k).refNow n, State.zGate_goes hm (held.trans hf), ?_, spent.congr rfl, ?_⟩
    · rw [State.refNow, State.seq_modSeq_self (State.condGo_inv n k hh).rings_length n.isLt, State.seq_condGo,
        show (h.condGo n k).beat = s.beat by rw [State.condGo_eq]; split <;> rfl]
    · exact (only.trans (State.OnlySeq.modSeq _ n _)).mono (by simp)
  case now => exact State.zGate_now hm (named.trans ht)
  case late => exact State.zGate_late hm (named.trans_lt ht)

end Sys2Proof.Machine
end

section
/-! PROOF. What holds the front end of a ring, and what ends a hold (R123, R124, R134, R164-R169). -/

namespace Sys2Proof.Machine

/-- A state differs in nothing from itself. -/
theorem State.OnlySeq.refl (s : State) (n : Nat) : s.OnlySeq s n [] :=
  ⟨fun _ _ => rfl, s.seq n, s.regs, s.beatSets, by rw [modSeq_same]⟩

/-! ### SYNC -/

/-- A change of the sequencers of a list of rings without repetition: each of them changes once, and nothing else does. -/
theorem State.foldl_modSeq (f : Nat → Seq → Seq) (l : List Nat) (s : State) (hd : l.Nodup) (hl : ∀ m ∈ l, m < s.rings.length) :
    let t := l.foldl (fun s m => s.modSeq m (f s.beat)) s
    (∀ k, t.seq k = if k ∈ l then f s.beat (s.seq k) else s.seq k) ∧
      (∀ k, { t.ring k with seq := s.seq k } = s.ring k) ∧ ∃ r, t = { s with rings := r } := by
  induction l generalizing s with
  | nil => exact ⟨fun k => by simp, fun k => rfl, s.rings, rfl⟩
  | cons m l ih =>
    obtain ⟨hm, hd⟩ := List.nodup_cons.mp hd
    have hu : (s.modSeq m (f s.beat)).rings.length = s.rings.length := List.length_modify ..
    have ringOf : ∀ k, (s.modSeq m (f s.beat)).ring k = if k = m then { s.ring k with seq := f s.beat (s.seq k) } else s.ring k := by
      intro k
      unfold modSeq
      rw [ring_modRing]
      by_cases hk : k = m
      · subst hk
        rw [if_pos ⟨rfl, hl k (by simp)⟩, if_pos rfl]
        rfl
      · rw [if_neg fun e => hk e.1, if_neg hk]
    obtain ⟨hseq, hring, hframe⟩ := ih (s.modSeq m (f s.beat)) hd fun k hk => hu ▸ hl k (by simp [hk])
    refine ⟨fun k => (hseq k).trans ?_, fun k => ?_, hframe⟩
    · show (if k ∈ l then f s.beat (((s.modSeq m (f s.beat)).ring k).seq) else ((s.modSeq m (f s.beat)).ring k).seq) = _
      rw [ringOf]
      by_cases hk : k = m
      · subst hk
        simp [hm]
      · simp only [hk, if_false, List.mem_cons, false_or]
        rfl
    · refine (congrArg (fun r : Ring => { r with seq := s.seq k }) (hring k)).trans ?_
      rw [ringOf]
      split <;> rfl

/-- Whether every ring of a mask waits in SYNC with it (R166). -/
theorem State.syncAll_iff {s : State} {m : BitVec 12} :
    s.syncAll m = true ↔ ∀ k < 12, bit m k = true → (s.seq k).st = .running ∧ (s.seq k).wait = .sync m := by
  simp only [syncAll, List.all_eq_true, mem_onesOf, and_imp, decide_eq_true_eq]

section
variable {s g : State} {n : RingId} {w : BitVec 64}

/-- SYNC holds; the last ring to arrive fixes the release beat of all (R166). -/
theorem exec_sync (hi : s.Inv) (h : s.Goes n w g) (ho : zOp w = 0x05) :
    let m := BitVec.ofNat 12 (fld w 11 0)
    let here := g.modSeq n fun q => { q with wait := .sync m }
    ((∃ k < 12, bit m k = true ∧ ¬ ((here.seq k).st = .running ∧ (here.seq k).wait = .sync m)) → exec (.sync n) s = .next here) ∧
    ((∀ k < 12, bit m k = true → (here.seq k).st = .running ∧ (here.seq k).wait = .sync m) → ∃ t, exec (.sync n) s = .next t ∧
      (∀ k < 12, t.seq k = if bit m k then { here.seq k with syncAt := some (s.beat + 8) } else here.seq k) ∧
      { t with rings := here.rings } = here ∧ ∀ k, { t.ring k with seq := here.seq k } = here.ring k) := by
  intro m here
  have e : g.zControl n w = if here.syncAll m then here.forRings m fun k s => s.modSeq k fun q => { q with syncAt := some (s.beat + 8) }
      else here := by
    simp only [State.zControl, ho]
    rfl
  have hh : here.Inv := State.modSeq_inv n _ (h.inv hi)
  constructor
  · rintro ⟨k, hk, hb, hn⟩
    refine h.answers hi ho (by decide) (e.trans (if_neg fun x => hn ?_))
    exact State.syncAll_iff.mp x k hk hb
  · intro hall
    obtain ⟨hseq, hring, r, hr⟩ := State.foldl_modSeq (fun b q => { q with syncAt := some (b + 8) }) (onesOf m 12) here (onesOf_nodup m 12)
      fun k hk => hh.rings_length ▸ (mem_onesOf.mp hk).1
    refine ⟨_, h.answers hi ho (by decide) (e.trans (if_pos (State.syncAll_iff.mpr hall))), fun k hk => (hseq k).trans ?_, ?_, hring⟩
    · have hb : here.beat = s.beat := h.beat hi
      simp only [mem_onesOf, hk, true_and, hb]
    · unfold State.forRings
      rw [hr]

end

/-- Settles O5: each instruction puts the front end into its hold. -/
theorem zwiecHolds : Obligations.ZwiecHolds := by
  intro s g n w hi h
  refine ⟨fun ho => h.answers hi ho (by decide) ?halt, fun ho => h.answers hi ho (by decide) ?shot, fun ho => h.answers hi ho (by decide) ?wait,
    exec_sync hi h, fun ho => h.answers hi ho (by decide) ?xsync⟩
  case halt =>
    simp only [State.zControl, ho]
    rfl
  case shot =>
    simp only [State.zControl, ho, State.zShot, h.beat hi, List.isEmpty_iff]
    rfl
  case wait =>
    simp only [State.zControl, ho, State.zWait, h.beat hi]
    rfl
  case xsync =>
    simp only [State.zControl, ho]
    rfl

/-! ### What ends a hold -/

/-- The reference beat does not depend on what the front end holds on. -/
theorem State.refNow_hold (s : State) (n : Nat) (x : Wait) : (s.hold n x).refNow n = (s.refNow n).hold n x := by
  unfold refNow hold
  rw [modSeq_modSeq, modSeq_modSeq]
  rfl

/-- What a CASE has fetched stands when the present beat becomes the reference beat. -/
theorem State.caseUse_refNow_hold {s : State} (h : s.Inv) {n : Nat} (hn : n < 12) (x : Wait) :
    (((s.refNow n).hold n x).seq n).caseUse = (s.seq n).caseUse := by
  unfold hold refNow
  rw [modSeq_modSeq, seq_modSeq_self h.rings_length hn]

theorem State.OnlySeq.refNow_hold (s : State) (n : Nat) (x : Wait) : s.OnlySeq ((s.refNow n).hold n x) n [] :=
  (OnlySeq.modSeq s n _).trans (OnlySeq.modSeq _ n _)

/-- The instruction at the program counter is the same after changes that keep the program counter and what a CASE has fetched. -/
theorem State.OnlySeq.zFetch {s t : State} {n : Nat} {as : List Nat} (h : s.OnlySeq t n as) (hp : Reg.seqPc n ∉ as)
    (hc : (t.seq n).caseUse = (s.seq n).caseUse) : t.zFetch n = s.zFetch n := by
  have pc : t.zAddr n = s.zAddr n := by
    unfold zAddr seqPc regFld
    rw [h.1 _ hp]
  have mem : ∀ a, t.load a 8 = s.load a 8 := by
    obtain ⟨-, q, r, b, rfl⟩ := h
    exact fun a => rfl
  unfold State.zFetch
  rw [pc, mem, hc]

/-- A wait with TOE that completes clears TO, and changes nothing else (R147). -/
theorem State.clearTo_frame {s : State} (h : s.Inv) (n : Nat) (w : BitVec 64) :
    (s.clearTo n w).Inv ∧ s.OnlySeq (s.clearTo n w) n [Reg.seqSt n] ∧ (s.clearTo n w).seq n = s.seq n ∧
      (s.clearTo n w).getReg (Reg.seqSt n) = if zToe w then putBit (s.getReg (Reg.seqSt n)) 4 false else s.getReg (Reg.seqSt n) := by
  unfold clearTo
  cases zToe w with
  | true => exact ⟨setBit_inv _ _ _ h, OnlySeq.setReg h n _ _, rfl, getReg_setBit_self h _ _ _⟩
  | false => exact ⟨h, (OnlySeq.refl _ n).mono (by simp), rfl, rfl⟩

/-- WAITC completes (R165): TO clears under TOE, a TRIG latch clears, and the ring goes on. -/
theorem State.waitc_goes {s : State} (h : s.Inv) {n : Nat} (hn : n < 12) {w : BitVec 64} (ho : zOp w = 0x04) (c : BitVec 16) :
    let t := ((s.condGo n c).clearTo n w).goNext n
    t.getReg (Reg.seqSt n) = (if bit w 20 then putBit (s.getReg (Reg.seqSt n)) 4 false else s.getReg (Reg.seqSt n)) ∧
      s.Onward t n (s.seqPc n + 1) 1 ∧ s.LatchSpent t n c ∧
      s.OnlySeq t n ([Reg.seqSt n, Reg.seqPc n, Reg.seqRsc n] ++ if fld c 15 12 = 2 then [Reg.trigLatch n] else []) := by
  obtain ⟨hp, hr⟩ := seqSt_ne n
  have latch : Reg.trigLatch n ≠ Reg.seqSt n ∧ Reg.trigLatch n ≠ Reg.seqPc n ∧ Reg.trigLatch n ≠ Reg.seqRsc n := by
    simp only [Reg.trigLatch, Reg.seqSt, Reg.seqPc, Reg.seqRsc]
    omega
  obtain ⟨l1, l2, l3⟩ := latch
  obtain ⟨spent, only⟩ := condGo_frame h n c
  obtain ⟨hu, frame, hq, hst⟩ := clearTo_frame (condGo_inv n c h) n w
  have st : (s.condGo n c).getReg (Reg.seqSt n) = s.getReg (Reg.seqSt n) := only.1 _ (by split <;> simp [l1.symm])
  have pc : ((s.condGo n c).clearTo n w).seqPc n = s.seqPc n :=
    congrArg (fun x => fld x 14 0) ((frame.1 _ (by simp [hp.symm])).trans (only.1 _ (by split <;> simp [l2.symm])))
  have toe : zToe w = bit w 20 := by simp only [zToe, ho]
  obtain ⟨on, all⟩ := (only.trans frame).goTo (hq.trans (seq_condGo s n n c)) hu hn (((s.condGo n c).clearTo n w).seqPc n + 1) 1
  refine ⟨(getReg_goTo_ne hu hn _ _ hp hr).trans ?_, pc ▸ on, spent.congr ?_, all.mono ?_⟩
  · rw [hst, st, toe]
  · exact (getReg_goTo_ne hu hn _ _ l2 l3).trans (frame.1 _ (by simp [l1]))
  · intro a ha
    simp only [List.mem_append, List.mem_cons, List.not_mem_nil, or_false] at ha ⊢
    tauto

/-- Settles O6: each hold by what ends it. -/
theorem zwiecHoldsEnd : Obligations.ZwiecHoldsEnd := by
  intro s n hi hrun w free
  have hf : free.Inv := State.modSeq_inv n _ hi
  refine ⟨fun c hs hl hc => ⟨fun ha hm ht hw => ?timing, fun hm hw hh => ?cond⟩, fun b hw hb => ?wait, fun b => ?waitc⟩
  case timing =>
    have legal : free.zLegal n w = true := ((State.TimingOnly.modSeq s n _).legal n.isLt w).trans hl
    have named : (free.hold n .none).timedBeat n w = s.beat :=
      (State.timedBeat_hold hf n.isLt .none w).trans ((State.timedBeat_hold hi n.isLt .none w).trans ht)
    have gate : (free.hold n .none).zGate n w = (true, (s.refNow n).hold n .none) := by
      rw [State.zGate_now hm named, show free.hold n .none = s.hold n .none from State.hold_hold s n _ _, State.refNow_hold]
    have fetched : ((s.refNow n).hold n .none).zFetch n = w :=
      (State.OnlySeq.refNow_hold s n .none).zFetch (by simp) (State.caseUse_refNow_hold hi n.isLt .none)
    refine ⟨((s.refNow n).hold n .none).zBody n w, ?_, ?_⟩
    · show execTimingHoldEnd n s = _
      unfold execTimingHoldEnd
      simp only [hw, hrun, Nat.le_refl, and_self, if_true, State.zGoOn, fetched]
    · rw [exec_zwiecRow hc, hs.zRow_gate legal (by simp [ha]) gate]
      rfl
  case cond =>
    have legal : free.zLegal n w = true := ((State.TimingOnly.modSeq s n _).legal n.isLt w).trans hl
    let k := BitVec.ofNat 16 (zT w)
    let t := ((s.condGo n k).refNow n).hold n .none
    have freeHolds : free.condHolds n k = true := (State.condHolds_hold (s := s) hi n.isLt .none k).trans hh
    have gate : (free.hold n .none).zGate n w = (true, t) := by
      rw [State.zGate_goes hm ((State.condHolds_hold hf n.isLt .none k).trans freeHolds),
        show free.hold n .none = s.hold n .none from State.hold_hold s n _ _, State.hold, State.condGo_modSeq]
      exact congrArg _ (State.refNow_hold (s.condGo n k) n .none)
    obtain ⟨spent, only⟩ := State.condGo_frame hi n k
    have fetched : t.zFetch n = w := by
      refine (only.trans (State.OnlySeq.refNow_hold _ n .none)).zFetch ?_ ?_
      · split <;> simp only [List.append_nil, List.mem_singleton, List.not_mem_nil, not_false_eq_true, Reg.seqPc, Reg.trigLatch]
        omega
      · exact (State.caseUse_refNow_hold (State.condGo_inv n k hi) n.isLt .none).trans (congrArg Seq.caseUse (State.seq_condGo ..))
    refine ⟨(free.condGo n k).refNow n, t.zBody n w, State.zGate_goes hm freeHolds, ?_, ?_, ?_⟩
    · refine spent.congr ?_
      rw [show free.condGo n k = (s.condGo n k).modSeq n _ from State.condGo_modSeq s n k _]
      rfl
    · show execWaitConditionMet n s = _
      unfold execWaitConditionMet
      rw [show s.heldCond n = some k by simp [State.heldCond, hrun, hw, k]]
      simp only [hh, if_true, State.condMet, hw, State.zGoOn, k, t] at fetched ⊢
      rw [fetched]
    · rw [exec_zwiecRow hc, hs.zRow_gate legal (fun _ => hm) gate]
      rfl
  case wait =>
    refine ⟨_, ?_, State.goTo_frame hi n.isLt (s.seqPc n + 1) 0⟩
    show execWaitEnd n s = _
    unfold execWaitEnd
    simp only [hw, hrun, hb, and_self, if_true]
  case waitc =>
    intro c hw ho hh
    obtain ⟨st, on, spent, only⟩ := State.waitc_goes hi n.isLt ho c
    refine ⟨_, ?_, on, spent, st, only⟩
    show execWaitConditionMet n s = _
    unfold execWaitConditionMet
    rw [show s.heldCond n = some c by simp [State.heldCond, hrun, hw, c, w]]
    simp only [hh, if_true, State.condMet, hw]
    show Host.Outcome.next ((s.waitcTry n w).getD s) = _
    unfold State.waitcTry
    rw [if_pos hh]
    rfl

end Sys2Proof.Machine
end

section
/-! PROOF. Illegal instructions of a ring (R135). -/

namespace Sys2Proof.Machine

/-- The state `t` after an illegal instruction that acts in `g` (R135). -/
def State.IllLeft (g t : State) (n : Nat) : Prop :=
  t.getReg (Reg.seqSt n) = putBit (g.getReg (Reg.seqSt n)) 7 true ∧ bit (t.getReg (Reg.seqPflags n)) 0 = true ∧
    t.getReg (Reg.seqIllPc n) = BitVec.ofNat 32 (2 ^ 31 + g.seqPc n) ∧ g.Onward t n (g.seqPc n + 1) 1 ∧
    g.OnlySeq t n [Reg.seqSt n, Reg.seqPflags n, Reg.seqPflags n + 4, Reg.seqIllPc n, Reg.seqPc n, Reg.seqRsc n]

/-- A flag that is raised, as a frame of a sequencer. -/
theorem State.OnlySeq.raiseFlag {s : State} (h : s.Inv) (n a : Nat) {b : Nat} (hb : b < 4) : s.OnlySeq (s.raiseFlag a b) n [a, a + 4] := by
  refine ⟨fun x hx => ?_, s.seq n, (s.raiseFlag a b).regs, (a, b) :: s.beatSets, by rw [modSeq_same]; rfl⟩
  simp only [List.mem_cons, List.not_mem_nil, or_false, not_or] at hx
  exact getReg_raiseFlag_ne h hx.1 (flagCntAddr_low hb ▸ hx.2)

/-- What an illegal instruction does once its timing is honoured. -/
theorem State.zIll_left {g : State} (h : g.Inv) {n : Nat} (hn : n < 12) : g.IllLeft (g.zIll n) n := by
  have addr : Reg.seqSt n ≠ Reg.seqPflags n ∧ Reg.seqSt n ≠ Reg.seqPflags n + 4 ∧ Reg.seqSt n ≠ Reg.seqIllPc n ∧
      Reg.seqPflags n ≠ Reg.seqIllPc n ∧ Reg.seqPflags n ≠ Reg.seqPc n ∧ Reg.seqPflags n ≠ Reg.seqRsc n ∧
      Reg.seqIllPc n ≠ Reg.seqPc n ∧ Reg.seqIllPc n ≠ Reg.seqRsc n ∧ Reg.seqPc n ≠ Reg.seqPflags n + 4 := by
    simp only [Reg.seqSt, Reg.seqPflags, Reg.seqIllPc, Reg.seqPc, Reg.seqRsc]
    omega
  obtain ⟨sf, sc, si, fi, fp, fr, ip, ir, pc⟩ := addr
  obtain ⟨sp, sr⟩ := seqSt_ne n
  let a := g.setBit (Reg.seqSt n) 7 true
  let b := a.raiseFlag (Reg.seqPflags n) 0
  let c := b.setReg (Reg.seqIllPc n) (BitVec.ofNat 32 (2 ^ 31 + g.seqPc n))
  have ha : a.Inv := setBit_inv _ _ _ h
  have hb : b.Inv := raiseFlag_inv _ _ ha
  have hc : c.Inv := setReg_inv _ _ hb
  have frame : g.OnlySeq c n ([Reg.seqSt n] ++ [Reg.seqPflags n, Reg.seqPflags n + 4] ++ [Reg.seqIllPc n]) :=
    ((OnlySeq.setReg h n _ _).trans (OnlySeq.raiseFlag ha n _ (by decide))).trans (OnlySeq.setReg hb n _ _)
  have pcs : c.seqPc n = g.seqPc n := congrArg (fun x => fld x 14 0) (frame.1 _ (by simp [sp.symm, fp.symm, pc, ip.symm]))
  have flagsKept : ∀ {x}, x ≠ Reg.seqIllPc n → c.getReg x = b.getReg x := fun hx => getReg_setReg_ne hb.regs_wf _ hx
  obtain ⟨on, only⟩ := frame.goTo rfl hc hn (g.seqPc n + 1) 1
  have e : g.zIll n = c.goTo n (g.seqPc n + 1) 1 := congrArg (fun k => c.goTo n (k + 1) 1) pcs
  rw [e]
  refine ⟨?_, ?_, ?_, on, only.mono fun x hx => by simpa using hx⟩
  · rw [getReg_goTo_ne hc hn _ _ sp sr, flagsKept si]
    exact (getReg_raiseFlag_ne ha sf (flagCntAddr_low (b := 0) (by decide) ▸ sc)).trans (getReg_setBit_self h _ _ _)
  · rw [getReg_goTo_ne hc hn _ _ fp fr, flagsKept fi]
    exact bit_raiseFlag ha _ (by decide)
  · rw [getReg_goTo_ne hc hn _ _ ip ir]
    exact getReg_setReg_self hb.regs_wf _ _

/-- A timed action that is illegal is flagged in its issue beat, once its timing field has moved the reference beat (R123-R125, R135). -/
theorem State.zEnqueue_illegal {u : State} {n : Nat} {w : BitVec 64} (hi : u.Inv) (hn : n < 12) (hl : u.zLegal n w = false) :
    (zMode w = 0 → u.zEnqueue n w = u.zIll n) ∧
    (zMode w = 1 ∨ zMode w = 2 → u.beat ≤ u.timedBeat n w →
      u.zEnqueue n w = (u.modSeq n fun q => { q with refAt := u.timedBeat n w }).zIll n) ∧
    (zMode w = 1 ∨ zMode w = 2 → u.timedBeat n w < u.beat →
      u.zEnqueue n w = ((u.markLate n).modSeq n fun q => { q with refAt := u.beat }).zIll n) := by
  have legal : ∀ {t : State}, u.TimingOnly t n → t.zLegal n w = false := fun h => (h.legal hn w).trans hl
  refine ⟨fun hm => ?_, fun hm ht => ?_, fun hm ht => ?_⟩ <;> unfold zEnqueue
  · simp only [hm, if_true, Nat.lt_irrefl, if_false, hl, Bool.false_eq_true]
  · have hm' : ¬ zMode w = 0 := by omega
    simp only [hm', if_false, Nat.not_lt.mpr ht, Nat.max_eq_left ht]
    rw [if_neg (by simp [legal (.modSeq u n _)])]
  · have hm' : ¬ zMode w = 0 := by omega
    simp only [hm', if_false, if_pos ht, show (u.markLate n).beat = u.beat from rfl, Nat.max_eq_right (Nat.le_of_lt ht)]
    rw [if_neg (by simp [legal ((TimingOnly.markLate hi n).trans (.modSeq _ n _))])]

/-- Settles O11: whatever the timing field says, the instruction ends in what `zIll` leaves, or holds. -/
theorem illegalInstruction : Obligations.IllegalInstruction := by
  intro s n w hi hs hl free ill
  have hf : free.Inv := State.modSeq_inv n _ hi
  have exec_eq : exec (.illegalInstruction n) s = .next (s.zIssue n) := by
    show Host.Outcome.next _ = _
    rw [if_pos ⟨hs.ready, .inr (by simp [hs.fetched, hl])⟩]
  have legal : free.zLegal n w = false := ((State.TimingOnly.modSeq s n _).legal n.isLt w).trans hl
  have named : free.timedBeat n w = s.timedBeat n w := State.timedBeat_hold hi n.isLt .none w
  have left : ∀ {g : State}, g.Inv → g.seqPc n = s.seqPc n → ill g (g.zIll n) := by
    intro g hg e
    have l := State.zIll_left hg n.isLt
    unfold State.IllLeft at l
    rwa [e] at l
  have enqueues : zTimingLegal w = true → zAction w = true → zMode w ≠ 3 → s.zIssue n = free.zEnqueue n w := by
    intro ht ha hm
    rw [hs.zIssue_eq, if_neg (by simp [ht]), if_pos ⟨ha, hm⟩, if_neg (by simp [hl])]
    rfl
  have gates : zTimingLegal w = true → zAction w = false ∨ zMode w = 3 →
      s.zIssue n = if (free.zGate n w).1 then (free.zGate n w).2.zBody n w else (free.zGate n w).2 := by
    intro ht ha
    rw [hs.zIssue_eq, if_neg (by simp [ht]), if_neg (by rintro ⟨a, m⟩; rcases ha with h | h <;> simp_all)]
    rfl
  have body : ∀ {g : State}, free.zGate n w = (true, g) → g.Inv ∧ g.zBody n w = g.zIll n ∧ g.seqPc n = s.seqPc n := by
    intro g hg
    have timing := State.zGate_timing hf n w
    have inv := State.zGate_inv n w hf
    rw [hg] at timing inv
    refine ⟨inv, if_pos (by simp [(timing.legal n.isLt w).trans legal]), congrArg (fun x => fld x 14 0) (timing.1 _ ?_ ?_ ?_ ?_)⟩ <;>
      simp only [Reg.seqPc, Reg.trigLatch, Reg.seqSt, Reg.seqPflags] <;> omega
  obtain ⟨enq0, enq1, enq2⟩ := State.zEnqueue_illegal hf n.isLt legal
  have timed : zMode w = 1 ∨ zMode w = 2 → zTimingLegal w = true := by
    rintro (hm | hm) <;> simp [zTimingLegal, hm]
  rw [exec_eq]
  refine ⟨fun ht => ⟨free.zIll n, ?_, left hf rfl⟩, fun ht hm => ?zero, fun ha hm hb => ⟨_, ?onTime, left (State.modSeq_inv n _ hf) rfl⟩,
    fun ha hm hb => ⟨_, ?late, left (State.modSeq_inv n _ (State.markLate_inv n hf)) ?latePc⟩, fun g ht ha hg => ?goes,
    fun g ht ha hg => by rw [gates ht ha, hg]; rfl⟩
  · rw [hs.zIssue_eq, if_pos (by simp [ht])]
    rfl
  case zero =>
    refine ⟨free.zIll n, ?_, left hf rfl⟩
    cases ha : zAction w with
    | true => rw [enqueues ht ha (by omega), enq0 hm]
    | false => rw [gates ht (.inl ha), State.zGate_zero _ _ hm, if_pos rfl, (body (State.zGate_zero free n hm)).2.1]
  case onTime => rw [enqueues (timed hm) ha (by omega), enq1 hm (by rw [named]; exact hb), named]
  case late =>
    rw [enqueues (timed hm) ha (by omega), enq2 hm (by rw [named]; exact hb)]
    rfl
  case latePc =>
    refine congrArg (fun x => fld x 14 0) (State.markLate_getReg hf n ?_ ?_ ?_) <;>
      simp only [Reg.seqPc, Reg.seqSt, Reg.seqPflags] <;> omega
  case goes =>
    obtain ⟨inv, ez, pc⟩ := body hg
    refine ⟨g.zIll n, ?_, left inv pc⟩
    rw [gates ht ha, hg, if_pos rfl, ez]

end Sys2Proof.Machine
end

section
/-! PROOF. The timed-action queue: an entry that carries a fetched descriptor (R129, R148). -/

namespace Sys2Proof.Machine

/-- A PHSET of voice 0 in MODE 0, due in beat 0, that carries the descriptor of a PLAY. -/
def phsetWithDescriptor : Entry := { at_ := 0, word := BitVec.ofNat 64 (0x25 * 2 ^ 58), got := some {} }

/-- The state after reset with that entry in the queue of ring 0. -/
def releaseWithDescriptor : State := State.reset.modSeq 0 fun q => { q with taq := [phsetWithDescriptor] }

/-- Whether ring 0 keeps a fetched descriptor for the action that follows, after an answer. -/
def keepsDescriptor : Res → Bool
  | .next t => (t.seq 0).got.isSome
  | _ => false

/-- Refutes O12: the release of an entry hands its fetched descriptor to the action that follows, and a PHSET leaves it there, where the
statement's state after the release has none. -/
theorem not_actionQueue : ¬ Obligations.ActionQueue := by
  intro h
  obtain ⟨-, released, -⟩ := h
  have inv : releaseWithDescriptor.Inv := State.modSeq_inv 0 _ resetIsSound
  have onTime := (released releaseWithDescriptor 0 phsetWithDescriptor [] inv rfl (by decide) (by simp) (by decide) (by decide) (by decide)).1 rfl
  have differs := congrArg keepsDescriptor onTime
  revert differs
  decide

end Sys2Proof.Machine
end

section
/-! PROOF. Decisions: what DEC, CASE and WAITC read and consume, what a CASE fetches early, and how posts arrive (R117, R145-R148, R165). -/

namespace Sys2Proof.Machine

/-! ### What a decision sees and consumes -/

/-- A DEC or CASE sees what its bits say, before the posts of the beat or through them (R117). -/
theorem State.sees_iff {g : State} {n b k : Nat} {coarse : Bool} {v : Word} {old : Bool} :
    g.Sees n b k coarse v old ↔ g.decSees n b k coarse = some (v, old) := by
  unfold Sees decSees validMask
  simp only [bitsValid_eq, decide_eq_true_eq]
  generalize (if coarse = true then (g.meetNow n).drvc else (g.meetNow n).drvf) = before
  generalize g.getReg (if coarse = true then Reg.seqDrvc n else Reg.seqDrvf n) = now
  by_cases hb : ∀ i < k, bit before (b + i) = true
  · rw [if_pos hb]
    cases old with
    | true => exact ⟨fun e => e.2 ▸ rfl, fun e => by cases e; exact ⟨hb, rfl⟩⟩
    | false => exact ⟨fun e => absurd hb e.1, nofun⟩
  · rw [if_neg hb]
    by_cases hn : ∀ i < k, bit now (b + i) = true
    · rw [if_pos hn]
      cases old with
      | true => exact ⟨fun e => absurd e.1 hb, nofun⟩
      | false => exact ⟨fun e => e.2.2 ▸ rfl, fun e => by cases e; exact ⟨hb, hn, rfl⟩⟩
    · rw [if_neg hn]
      cases old with
      | true => exact ⟨fun e => absurd e.1 hb, nofun⟩
      | false => exact ⟨fun e => absurd e.2.1 hn, nofun⟩

/-- What a decision sees depends on the sequencer only through the meeting of the beat. -/
theorem State.decSees_modSeq {g : State} (h : g.Inv) {n : Nat} (hn : n < 12) (f : Seq → Seq) (hf : (f (g.seq n)).meet = (g.seq n).meet)
    (b k : Nat) (coarse : Bool) : (g.modSeq n f).decSees n b k coarse = g.decSees n b k coarse := by
  unfold decSees meetNow
  rw [seq_modSeq_self h.rings_length hn, hf]
  rfl

/-- The posts of the beat do not depend on registers. -/
theorem State.meetNow_posts {s t : State} {n : Nat} (hm : (t.seq n).meet = (s.seq n).meet) (hb : t.beat = s.beat) :
    (t.meetNow n).posts = (s.meetNow n).posts := by
  unfold meetNow
  rw [hm, hb]
  split <;> rfl

/-- What a consumption leaves, seen from a state with the same valid masks and posts. -/
theorem State.Spent.of {g u t : State} {n b k : Nat} {old : Bool} (h : u.Spent t n b k old)
    (hf : u.getReg (Reg.seqDrvf n) = g.getReg (Reg.seqDrvf n)) (hc : u.getReg (Reg.seqDrvc n) = g.getReg (Reg.seqDrvc n))
    (hm : (u.meetNow n).posts = (g.meetNow n).posts) : g.Spent t n b k old := by
  unfold Spent at h ⊢
  rwa [hf, hc, hm] at h

theorem State.Spent.congr {g t u : State} {n b k : Nat} {old : Bool} (h : g.Spent t n b k old)
    (hf : u.getReg (Reg.seqDrvf n) = t.getReg (Reg.seqDrvf n)) (hc : u.getReg (Reg.seqDrvc n) = t.getReg (Reg.seqDrvc n)) :
    g.Spent u n b k old := by
  unfold Spent at h ⊢
  rwa [hf, hc]

/-- The registers of decisions are not those that the sequencer goes on with. -/
theorem seqDr_ne (n : Nat) : (Reg.seqDrvf n ≠ Reg.seqDrvc n ∧ Reg.seqDrvf n ≠ Reg.seqSt n ∧ Reg.seqDrvf n ≠ Reg.seqPc n ∧
    Reg.seqDrvf n ≠ Reg.seqRsc n) ∧ Reg.seqDrvc n ≠ Reg.seqSt n ∧ Reg.seqDrvc n ≠ Reg.seqPc n ∧ Reg.seqDrvc n ≠ Reg.seqRsc n := by
  simp only [Reg.seqDrvf, Reg.seqDrvc, Reg.seqSt, Reg.seqPc, Reg.seqRsc]
  omega

/-- Valid bits outside `keep` end, but for those that posts of the beat set (R117, R118). -/
theorem State.endValid_frame {s : State} (h : s.Inv) {n : Nat} (hn : n < 12) (keep : Word) (old : Bool) :
    let t := s.endValid n keep old
    let still := fun fine : Bool => if old then State.postMask fine (s.meetNow n).posts else 0
    t.getReg (Reg.seqDrvf n) = (s.getReg (Reg.seqDrvf n) &&& keep) ||| still true ∧
      t.getReg (Reg.seqDrvc n) = (s.getReg (Reg.seqDrvc n) &&& keep) ||| still false ∧
      s.OnlySeq t n [Reg.seqDrvf n, Reg.seqDrvc n] ∧ t.seq n = { s.seq n with meet := (t.seq n).meet } := by
  intro t still
  obtain ⟨⟨fc, -⟩, -⟩ := seqDr_ne n
  let a := s.setReg (Reg.seqDrvf n) ((s.getReg (Reg.seqDrvf n) &&& keep) ||| still true)
  have ha : a.Inv := setReg_inv _ _ h
  let b := a.setReg (Reg.seqDrvc n) ((a.getReg (Reg.seqDrvc n) &&& keep) ||| still false)
  have drvc : a.getReg (Reg.seqDrvc n) = s.getReg (Reg.seqDrvc n) := getReg_setReg_ne h.regs_wf _ fc.symm
  refine ⟨?_, ?_, ((OnlySeq.setReg h n _ _).trans (OnlySeq.setReg ha n _ _)).trans (OnlySeq.modSeq b n _), ?_⟩
  · exact (getReg_setReg_ne ha.regs_wf _ fc).trans (getReg_setReg_self h.regs_wf _ _)
  · exact (getReg_setReg_self ha.regs_wf _ _).trans (by rw [drvc])
  · have e : t.seq n = _ := seq_modSeq_self (setReg_inv _ _ ha).rings_length hn _
    rw [e]
    rfl

/-- The ring goes on after changes that left its sequencer alone but for the meeting of the beat. -/
theorem State.OnlySeq.goTo_meet {g u : State} {n : Nat} {as : List Nat} (h : g.OnlySeq u n as) (hi : g.Inv)
    (hq : u.seq n = { g.seq n with meet := (u.seq n).meet }) (hu : u.Inv) (hn : n < 12) (pc k : Nat) :
    (g.modSeq n fun q => { q with meet := ((u.goTo n pc k).seq n).meet }).Onward (u.goTo n pc k) n pc k ∧
      g.OnlySeq (u.goTo n pc k) n (as ++ [Reg.seqPc n, Reg.seqRsc n]) := by
  obtain ⟨⟨hpc, hrsc, hseq⟩, hf⟩ := goTo_frame hu hn pc k
  have hb : u.beat = g.beat := by
    obtain ⟨_, _, _, _, rfl⟩ := h
    rfl
  refine ⟨⟨hpc, hrsc, ?_⟩, h.trans hf⟩
  rw [seq_modSeq_self hi.rings_length hn, hseq, hb, hq]
  rfl

/-- A decision is consumed, TO clears under TOE, and the ring goes on (R117, R145-R147). -/
theorem State.consume_goTo {g : State} (hi : g.Inv) {n : Nat} (hn : n < 12) (w : BitVec 64) (b k : Nat) (old : Bool) (pc d : Nat) :
    let t := ((g.consume n b k old).clearTo n w).goTo n pc d
    g.Spent t n b k old ∧ t.getReg (Reg.seqSt n) = (if zToe w then putBit (g.getReg (Reg.seqSt n)) 4 false else g.getReg (Reg.seqSt n)) ∧
      (g.modSeq n fun q => { q with meet := (t.seq n).meet }).Onward t n pc d ∧
      g.OnlySeq t n [Reg.seqDrvf n, Reg.seqDrvc n, Reg.seqSt n, Reg.seqPc n, Reg.seqRsc n] := by
  obtain ⟨⟨-, fs, fp, fr⟩, cs, cp, cr⟩ := seqDr_ne n
  obtain ⟨sp, sr⟩ := seqSt_ne n
  obtain ⟨drvf, drvc, only, hq⟩ := endValid_frame hi hn (~~~ BitVec.ofNat 32 (fieldMask (b + k - 1) b)) old
  have hc : (g.consume n b k old).Inv := consume_inv n b k old hi
  obtain ⟨hu, frame, hq', st⟩ := clearTo_frame hc n w
  have seqs : ((g.consume n b k old).clearTo n w).seq n = { g.seq n with meet := (((g.consume n b k old).clearTo n w).seq n).meet } := by
    rw [hq']
    exact hq
  obtain ⟨on, all⟩ := (only.trans frame).goTo_meet hi seqs hu hn pc d
  have spent : g.Spent (g.consume n b k old) n b k old := ⟨drvf, drvc⟩
  refine ⟨spent.congr ?_ ?_, ?_, on, all⟩
  · exact (getReg_goTo_ne hu hn _ _ fp fr).trans (frame.1 _ (by simp [fs]))
  · exact (getReg_goTo_ne hu hn _ _ cp cr).trans (frame.1 _ (by simp [cs]))
  · rw [getReg_goTo_ne hu hn _ _ sp sr, st, show (g.consume n b k old).getReg _ = _ from only.1 _ (by simp [fs.symm, cs.symm])]

end Sys2Proof.Machine
end

section
/-! PROOF. DEC, CASE and WAITC at issue, the early fetch of a CASE, and the arrival of posts (R117, R145-R148, R165, R199). -/

namespace Sys2Proof.Machine

/-! ### DEC -/

theorem State.decTry_dec (g : State) (n : Nat) {w : BitVec 64} (ho : zOp w = 0x0E) :
    g.decTry n w = (g.decSees n (fld w 35 31) (fld w 30 28 + 1) (bit w 27)).map fun r =>
      let v := fld (if bit w 26 then g.getReg (Reg.seqDr n) else r.1) (fld w 35 31 + (fld w 30 28 + 1) - 1) (fld w 35 31)
      let s := g.setReg (Reg.seqG n (fld w 39 36)) (BitVec.ofNat 32 v)
      let s := if bit w 26 then s else s.consume n (fld w 35 31) (fld w 30 28 + 1) r.2
      (s.clearTo n w).goNext n := if_pos ho

theorem State.decTry_case (g : State) (n : Nat) {w : BitVec 64} (ho : zOp w = 0x0D) :
    g.decTry n w = (g.decSees n (fld w 39 35) 4 (bit w 34)).map fun r =>
      let v := fld r.1 (fld w 39 35 + 3) (fld w 39 35)
      (((g.consume n (fld w 39 35) 4 r.2).clearTo n w).goTo n (16 * fld w 25 15 + v) 2).caseCommit n v (g.seq n).caseGot :=
  if_neg (by omega)

/-- A decision that sees nothing does not complete. -/
theorem State.decSees_none {g : State} {n b k : Nat} {coarse : Bool} (h : ∀ v old, ¬ g.Sees n b k coarse v old) :
    g.decSees n b k coarse = none :=
  Option.eq_none_iff_forall_ne_some.mpr fun r e => h r.1 r.2 (sees_iff.mpr e)

/-- No g register is one that decisions change. -/
theorem seqG_ne {i : Nat} (n : Nat) (hi : i < 16) : Reg.seqG n i ≠ Reg.seqDrvf n ∧ Reg.seqG n i ≠ Reg.seqDrvc n ∧
    Reg.seqG n i ≠ Reg.seqSt n ∧ Reg.seqG n i ≠ Reg.seqPc n ∧ Reg.seqG n i ≠ Reg.seqRsc n := by
  simp only [Reg.seqG, Reg.seqDrvf, Reg.seqDrvc, Reg.seqSt, Reg.seqPc, Reg.seqRsc]
  omega

/-- A value enters a g register and TO clears under TOE: a DEC that keeps its bits (R145). -/
theorem State.write_goNext {g : State} (hi : g.Inv) {n : Nat} (hn : n < 12) (w : BitVec 64) {i : Nat} (hg : i < 16) (x : Word) :
    let t := ((g.setReg (Reg.seqG n i) x).clearTo n w).goNext n
    t.getReg (Reg.seqG n i) = x ∧
      t.getReg (Reg.seqSt n) = (if zToe w then putBit (g.getReg (Reg.seqSt n)) 4 false else g.getReg (Reg.seqSt n)) ∧
      (g.modSeq n fun q => { q with meet := (t.seq n).meet }).Onward t n (g.seqPc n + 1) 1 ∧
      g.OnlySeq t n [Reg.seqG n i, Reg.seqSt n, Reg.seqPc n, Reg.seqRsc n] := by
  obtain ⟨-, -, gs, gp, gr⟩ := seqG_ne n hg
  obtain ⟨sp, sr⟩ := seqSt_ne n
  let u := g.setReg (Reg.seqG n i) x
  have hu : u.Inv := setReg_inv _ _ hi
  have wrote : g.OnlySeq u n [Reg.seqG n i] := OnlySeq.setReg hi n _ _
  have kept : ∀ {a}, a ≠ Reg.seqG n i → u.getReg a = g.getReg a := fun h => getReg_setReg_ne hi.regs_wf _ h
  obtain ⟨hc, frame, hq, hst⟩ := clearTo_frame hu n w
  have pc : (u.clearTo n w).seqPc n = g.seqPc n :=
    congrArg (fun x => fld x 14 0) ((frame.1 _ (by simp [sp.symm])).trans (kept gp.symm))
  obtain ⟨on, all⟩ := (wrote.trans frame).goTo_meet hi (by rw [hq]; rfl) hc hn ((u.clearTo n w).seqPc n + 1) 1
  refine ⟨?_, ?_, pc ▸ on, all⟩
  · exact (getReg_goTo_ne hc hn _ _ gp gr).trans ((frame.1 _ (by simp [gs])).trans (getReg_setReg_self hi.regs_wf _ _))
  · exact (getReg_goTo_ne hc hn _ _ sp sr).trans (by rw [hst, kept gs.symm])

/-- A value enters a g register, bits are consumed and TO clears under TOE: a DEC (R117, R145). -/
theorem State.write_consume_goNext {g : State} (hi : g.Inv) {n : Nat} (hn : n < 12) (w : BitVec 64) {i : Nat} (hg : i < 16) (x : Word)
    (b k : Nat) (old : Bool) :
    let t := (((g.setReg (Reg.seqG n i) x).consume n b k old).clearTo n w).goNext n
    t.getReg (Reg.seqG n i) = x ∧ g.Spent t n b k old ∧
      t.getReg (Reg.seqSt n) = (if zToe w then putBit (g.getReg (Reg.seqSt n)) 4 false else g.getReg (Reg.seqSt n)) ∧
      (g.modSeq n fun q => { q with meet := (t.seq n).meet }).Onward t n (g.seqPc n + 1) 1 ∧
      g.OnlySeq t n [Reg.seqG n i, Reg.seqDrvf n, Reg.seqDrvc n, Reg.seqSt n, Reg.seqPc n, Reg.seqRsc n] := by
  obtain ⟨gf, gc, gs, gp, gr⟩ := seqG_ne n hg
  obtain ⟨⟨-, fs, fp, fr⟩, cs, cp, cr⟩ := seqDr_ne n
  obtain ⟨sp, sr⟩ := seqSt_ne n
  let u := g.setReg (Reg.seqG n i) x
  have hu : u.Inv := setReg_inv _ _ hi
  have kept : ∀ {a}, a ≠ Reg.seqG n i → u.getReg a = g.getReg a := fun h => getReg_setReg_ne hi.regs_wf _ h
  have pc : ((u.consume n b k old).clearTo n w).seqPc n = g.seqPc n := by
    obtain ⟨-, -, only, -⟩ := endValid_frame hu hn (~~~ BitVec.ofNat 32 (fieldMask (b + k - 1) b)) old
    obtain ⟨-, frame, -⟩ := clearTo_frame (consume_inv n b k old hu) n w
    exact congrArg (fun x => fld x 14 0) ((frame.1 _ (by simp [sp.symm])).trans
      ((only.1 _ (by simp [fp.symm, cp.symm])).trans (kept gp.symm)))
  obtain ⟨spent, hst, on, only⟩ := consume_goTo hu hn w b k old (((u.consume n b k old).clearTo n w).seqPc n + 1) 1
  refine ⟨?_, spent.of (kept gf.symm) (kept gc.symm) (meetNow_posts rfl rfl), ?_, pc ▸ on, (OnlySeq.setReg hi n _ x).trans only⟩
  · exact (only.1 _ (by simp [gf, gc, gs, gp, gr])).trans (getReg_setReg_self hi.regs_wf _ _)
  · exact hst.trans (by rw [kept gs.symm])

/-- DEC completes: its value enters a g register, its bits are consumed unless K says to keep them, TO clears under TOE, and the ring goes
on (R145). -/
theorem State.dec_completes {g : State} (hi : g.Inv) {n : Nat} (hn : n < 12) {w : BitVec 64} (ho : zOp w = 0x0E) {v : Word} {old : Bool}
    (hs : g.Sees n (fld w 35 31) (fld w 30 28 + 1) (bit w 27) v old) :
    let b := fld w 35 31
    let k := fld w 30 28 + 1
    let st := Reg.seqSt n
    ∃ t, g.decTry n w = some t ∧
      t.getReg (Reg.seqG n (fld w 39 36)) = BitVec.ofNat 32 (fld (if bit w 26 then g.getReg (Reg.seqDr n) else v) (b + k - 1) b) ∧
      (bit w 26 = false → g.Spent t n b k old) ∧
      t.getReg st = (if bit w 25 then putBit (g.getReg st) 4 false else g.getReg st) ∧
      (g.modSeq n fun q => { q with meet := (t.seq n).meet }).Onward t n (g.seqPc n + 1) 1 ∧
      g.OnlySeq t n ([Reg.seqG n (fld w 39 36), st, Reg.seqPc n, Reg.seqRsc n] ++
        if bit w 26 then [] else [Reg.seqDrvf n, Reg.seqDrvc n]) := by
  intro b k st
  have toe : zToe w = bit w 25 := by simp only [zToe, ho]
  rw [decTry_dec g n ho, sees_iff.mp hs]
  refine ⟨_, rfl, ?_⟩
  rw [← toe]
  cases bit w 26 with
  | true =>
    obtain ⟨read, hst, on, only⟩ := write_goNext hi hn w (fld_lt w 39 36) (BitVec.ofNat 32 (fld (g.getReg (Reg.seqDr n)) (b + k - 1) b))
    exact ⟨read, nofun, hst, on, only⟩
  | false =>
    obtain ⟨read, spent, hst, on, only⟩ := write_consume_goNext hi hn w (fld_lt w 39 36) (BitVec.ofNat 32 (fld v (b + k - 1) b)) b k old
    refine ⟨read, fun _ => spent, hst, on, only.mono fun a ha => ?_⟩
    simp only [List.mem_append, List.mem_cons, List.not_mem_nil, or_false, Bool.false_eq_true, if_false] at ha ⊢
    tauto

/-! ### CASE -/

/-- CASE completes: its bits are consumed, TO clears under TOE, the ring goes on at the table entry, and what was fetched for the value
stands for the next issue (R146, R148). -/
theorem State.case_completes {g : State} (hi : g.Inv) {n : Nat} (hn : n < 12) {w : BitVec 64} (ho : zOp w = 0x0D) {v : Word} {old : Bool}
    (hs : g.Sees n (fld w 39 35) 4 (bit w 34) v old) :
    let b := fld w 39 35
    let st := Reg.seqSt n
    let x := fld v (b + 3) b
    ∃ t, g.decTry n w = some t ∧ g.Spent t n b 4 old ∧
      t.getReg st = (if bit w 32 then putBit (g.getReg st) 4 false else g.getReg st) ∧
      t.getReg (Reg.seqPc n) = BitVec.ofNat 32 ((16 * fld w 25 15 + x) % 32768) ∧ t.getReg (Reg.seqRsc n) = 0 ∧
      t.seq n = { g.seq n with
        wait := .none, issueAt := g.beat + 2, meet := (t.seq n).meet, caseGot := none
        caseUse := (g.seq n).caseGot.filter fun y => decide (y.val = x) } ∧
      g.OnlySeq t n [Reg.seqDrvf n, Reg.seqDrvc n, st, Reg.seqPc n, Reg.seqRsc n] := by
  intro b st x
  have toe : zToe w = bit w 32 := by simp only [zToe, ho]
  obtain ⟨spent, hst, ⟨hpc, hrsc, hseq⟩, only⟩ := consume_goTo hi hn w b 4 old (16 * fld w 25 15 + x) 2
  rw [decTry_case g n ho, sees_iff.mp hs]
  refine ⟨_, rfl, spent, by rw [← toe]; exact hst, hpc, hrsc, ?_, (only.trans (OnlySeq.modSeq _ n _)).mono (by simp [st])⟩
  have inv : (((g.consume n b 4 old).clearTo n w).goTo n (16 * fld w 25 15 + x) 2).Inv :=
    goTo_inv n _ _ (clearTo_inv n w (consume_inv n b 4 old hi))
  unfold caseCommit
  rw [seq_modSeq_self inv.rings_length hn, hseq, seq_modSeq_self hi.rings_length hn]
  rfl

/-! ### The early fetch of a CASE -/

theorem State.rtRead_sound {s : State} {a k : Nat} (hb : s.memu.borrow = none) (h : s.damageIn a k = []) : s.rtRead a k = s := by
  unfold rtRead
  rw [touch_whole a hb, eccRead_sound h]

/-- Reads of sound words change nothing. -/
theorem State.foldl_rtRead_sound {α : Type} {s : State} (hb : s.memu.borrow = none) (f : α → Nat) (k : Nat) (l : List α)
    (h : ∀ x ∈ l, s.damageIn (f x) k = []) : l.foldl (fun s x => s.rtRead (f x) k) s = s := by
  induction l with
  | nil => rfl
  | cons x l ih =>
    rw [List.foldl_cons, rtRead_sound hb (h x (by simp))]
    exact ih fun y hy => h y (by simp [hy])

/-- A descriptor of sound words, read whole (R218, R440). -/
def State.soundDesc (s : State) (da : Nat) : Desc :=
  { w0 := s.loadWord da, w1 := s.loadWord (da + 4), w2 := s.loadWord (da + 8), w3 := s.loadWord (da + 12), bad := false }

/-- The early fetch of a descriptor whose words are sound: it comes with its first pairs when it is legal (R148, R218). -/
theorem State.fetchDesc_sound {s : State} (hb : s.memu.borrow = none) (n d : Nat)
    (h : s.damageIn (ringMem n + 0x400000 + 16 * d) 16 = []) :
    let w := s.soundDesc (ringMem n + 0x400000 + 16 * d)
    (w.cause.isSome = true → s.fetchDesc n d = (w, s)) ∧
    (w.cause = none → (∀ m ∈ List.range (firstPairs w.w1), s.damageIn (descPair n w.w0 m) 4 = []) →
      s.fetchDesc n d = ({ w with pairs := (List.range (firstPairs w.w1)).map fun m => (m, s.loadWord (descPair n w.w0 m)) }, s)) := by
  intro w
  have read : s.readDesc n d = w := by
    have good := uncorr_of_sound (by decide) h
    unfold readDesc
    simp only [good]
    rfl
  have touched : s.descTouch n d = s := rtRead_sound hb h
  unfold fetchDesc
  simp only [read, touched]
  refine ⟨fun hc => if_pos hc, fun hc hp => ?_⟩
  rw [if_neg (by simp [hc]), foldl_rtRead_sound hb (fun e : Nat × Nat => e.2) 4 _ (by simpa using hp), List.map_map]
  rfl

/-- A CASE fetches nothing without P, with coarse bits enough, or before the coarse bits are there (R148). -/
theorem State.caseFetch_none {s : State} {n : Nat} {w : BitVec 64}
    (h : bit w 33 = false ∨ bit w 34 = true ∨ ∃ i < 4, bit (s.getReg (Reg.seqDrvc n)) (fld w 39 35 + i) = false) :
    s.caseFetch n w = s := by
  unfold caseFetch
  rw [if_pos]
  rcases h with h | h | ⟨i, hi, h⟩
  · simp [h]
  · simp [h]
  · refine .inr (.inr (.inr ?_))
    rw [bitsValid_eq, decide_eq_true_eq]
    exact fun e => by simp [e i hi] at h

/-- A CASE that waits for its fine bits fetches its table entry, and with a PLAY entry the descriptor (R148). -/
theorem State.caseFetch_entry {s : State} {n : Nat} {w : BitVec 64} (hg : (s.seq n).caseGot = none) (hp : bit w 33 = true)
    (hc : bit w 34 = false) (hv : ∀ i < 4, bit (s.getReg (Reg.seqDrvc n)) (fld w 39 35 + i) = true) (hb : s.memu.borrow = none) :
    let v := fld (s.getReg (Reg.seqDr n)) (fld w 39 35 + 3) (fld w 39 35)
    let a := ringMem n + 8 * (16 * fld w 25 15 + v)
    let e := s.word64 a
    s.damageIn a 8 = [] → s.caseFetch n w =
      if zOp e = 0x20 then (s.fetchDesc n (fld e 34 23)).2.modSeq n fun q => { q with
        caseGot := some { val := v, word := e, bad := false, desc := some (s.fetchDesc n (fld e 34 23)).1 } }
      else s.modSeq n fun q => { q with caseGot := some { val := v, word := e, bad := false, desc := none } } := by
  intro v a e hs
  have valid : bitsValid (s.getReg (Reg.seqDrvc n)) (fld w 39 35) 4 = true := by
    rw [bitsValid_eq, decide_eq_true_eq]
    exact hv
  have read := rtRead_sound hb hs
  have good := uncorr_of_sound (by decide) hs
  simp only [a, v] at read good
  unfold caseFetch
  rw [if_neg (by simp [hg, hp, hc, valid])]
  simp only [read, good, Bool.false_eq_true, not_false_eq_true, and_true]
  rfl

/-! ### Posts -/

theorem State.OnlyRing.mono {s t : State} {n : Nat} {as bs : List Nat} (h : s.OnlyRing t n as) (hs : ∀ a ∈ as, a ∈ bs) :
    s.OnlyRing t n bs := ⟨fun a ha => h.1 a fun e => ha (hs a e), h.2⟩

/-- A post writes dr and makes its bits valid, in drvf unless it is coarse (R117). -/
theorem State.applyPost_frame {s : State} (h : s.Inv) (n : Nat) (p : Post) :
    let t := s.applyPost n p
    t.getReg (Reg.seqDr n) = (s.getReg (Reg.seqDr n) &&& ~~~p.mask) ||| (p.data &&& p.mask) ∧
      t.getReg (Reg.seqDrvc n) = s.getReg (Reg.seqDrvc n) ||| p.mask ∧
      t.getReg (Reg.seqDrvf n) = (if p.coarse then s.getReg (Reg.seqDrvf n) else s.getReg (Reg.seqDrvf n) ||| p.mask) ∧
      s.OnlyRing t n [Reg.seqDr n, Reg.seqDrvc n, Reg.seqDrvf n] ∧ ∃ r, t = { s with regs := r } := by
  have addr : Reg.seqDr n ≠ Reg.seqDrvc n ∧ Reg.seqDr n ≠ Reg.seqDrvf n ∧ Reg.seqDrvc n ≠ Reg.seqDrvf n := by
    simp only [Reg.seqDr, Reg.seqDrvc, Reg.seqDrvf]
    omega
  obtain ⟨dc, df, cf⟩ := addr
  let a := s.setReg (Reg.seqDr n) ((s.getReg (Reg.seqDr n) &&& ~~~p.mask) ||| (p.data &&& p.mask))
  have ha : a.Inv := setReg_inv _ _ h
  have wa := ha.regs_wf
  have kept : ∀ {x}, x ≠ Reg.seqDr n → a.getReg x = s.getReg x := fun hx => getReg_setReg_ne h.regs_wf _ hx
  let b := a.setReg (Reg.seqDrvc n) (a.getReg (Reg.seqDrvc n) ||| p.mask)
  have hb : b.Inv := setReg_inv _ _ ha
  have only : s.OnlyRing b n ([] ++ [Reg.seqDr n] ++ [Reg.seqDrvc n]) := ((OnlyRing.refl s n).setReg h _ _).setReg ha _ _
  have dr : b.getReg (Reg.seqDr n) = (s.getReg (Reg.seqDr n) &&& ~~~p.mask) ||| (p.data &&& p.mask) :=
    (getReg_setReg_ne wa _ dc).trans (getReg_setReg_self h.regs_wf _ _)
  have drvc : b.getReg (Reg.seqDrvc n) = s.getReg (Reg.seqDrvc n) ||| p.mask :=
    (getReg_setReg_self wa _ _).trans (by rw [kept dc.symm])
  have drvf : b.getReg (Reg.seqDrvf n) = s.getReg (Reg.seqDrvf n) := (getReg_setReg_ne wa _ cf.symm).trans (kept df.symm)
  intro t
  have e : t = if p.coarse then b else b.setReg (Reg.seqDrvf n) (b.getReg (Reg.seqDrvf n) ||| p.mask) := rfl
  rw [e]
  cases p.coarse with
  | true => exact ⟨dr, drvc, drvf, only.mono (by simp), _, rfl⟩
  | false =>
    refine ⟨(getReg_setReg_ne hb.regs_wf _ df).trans dr, (getReg_setReg_ne hb.regs_wf _ cf).trans drvc,
      (getReg_setReg_self hb.regs_wf _ _).trans (by rw [drvf]; rfl), (only.setReg hb _ _).mono (by simp), _, rfl⟩

/-- The meeting of the present beat is of the present beat. -/
theorem State.meetNow_at (s : State) (n : Nat) : (s.meetNow n).at_ = s.beat := by
  unfold meetNow
  split
  · rename_i m hm
    simpa using (Option.filter_eq_some_iff.mp hm).2
  · rfl

/-- A post that has come reaches dr in its beat, is judged against what was valid, and interrupts the Juggler that did not send it (R117,
R199, R330). -/
theorem State.post_arrives {s : State} (hi : s.Inv) {n : Nat} (hn : n < 12) {p : Post} (hq : (s.seq n).posts = [p]) (hd : p.due ≤ s.beat)
    (hw : (s.seq n).wait = .none) :
    let m := s.meetNow n
    ∃ t, (s.decArrive n).decGo n = t ∧
      t.seq n = { s.seq n with posts := [], meet := some { m with posts := m.posts ++ [p] } } ∧
      t.getReg (Reg.seqDr n) = (s.getReg (Reg.seqDr n) &&& ~~~p.mask) ||| (p.data &&& p.mask) ∧
      t.getReg (Reg.seqDrvc n) = s.getReg (Reg.seqDrvc n) ||| p.mask ∧
      t.getReg (Reg.seqDrvf n) = (if p.coarse then s.getReg (Reg.seqDrvf n) else s.getReg (Reg.seqDrvf n) ||| p.mask) ∧
      t.beat = s.beat ∧ t.Inv ∧
      t.jug n = (if p.ownJug then s.jug n else { s.jug n with ipend := putBit (s.jug n).ipend 7 true }) ∧
      s.OnlyRing t n [Reg.seqDr n, Reg.seqDrvc n, Reg.seqDrvf n] := by
  intro m
  let u := s.modSeq n fun q => { q with posts := q.posts.filter (fun p => !decide (p.due ≤ s.beat)), meet := some { m with posts := m.posts ++ [p] } }
  have hu : u.Inv := modSeq_inv n _ hi
  let x := if p.ownJug then u else u.jugPend n 7
  have hx : x.Inv ∧ x.seq n = u.seq n ∧ x.regs = s.regs ∧ x.beat = s.beat ∧ s.OnlyRing x n [] ∧
      x.jug n = if p.ownJug then s.jug n else { s.jug n with ipend := putBit (s.jug n).ipend 7 true } := by
    show State.Inv (if p.ownJug then u else u.jugPend n 7) ∧ (if p.ownJug then u else u.jugPend n 7).seq n = _ ∧
      (if p.ownJug then u else u.jugPend n 7).regs = _ ∧ (if p.ownJug then u else u.jugPend n 7).beat = _ ∧
      s.OnlyRing (if p.ownJug then u else u.jugPend n 7) n [] ∧ (if p.ownJug then u else u.jugPend n 7).jug n = _
    have same : u.jug n = s.jug n := jug_modSeq ..
    cases p.ownJug with
    | true => exact ⟨hu, rfl, rfl, rfl, (OnlyRing.refl s n).modRing _, same⟩
    | false =>
      simp only [Bool.false_eq_true, if_false]
      refine ⟨jugPend_inv n 7 hu, seq_modJug .., rfl, rfl, ((OnlyRing.refl s n).modRing _).modRing _, ?_⟩
      rw [← same]
      exact jug_modJug_self hu.rings_length hn _
  obtain ⟨ix, sx, rx, bx, ox, jx⟩ := hx
  have arrives : s.arriving n = [p] := by
    unfold arriving
    simp [hq, hd, insertPost]
  have seqs : u.seq n = { s.seq n with posts := [], meet := some { m with posts := m.posts ++ [p] } } := by
    rw [seq_modSeq_self hi.rings_length hn, hq]
    simp [hd]
  obtain ⟨dr, drvc, drvf, only, r, he⟩ := applyPost_frame ix n p
  have regs : ∀ a, x.getReg a = s.getReg a := fun a => congrArg (fun l => Cells.get resetWord l a) rx
  have arrived : s.decArrive n = x.applyPost n p := by
    unfold decArrive
    simp only [arrives, List.isEmpty_cons, Bool.false_eq_true, if_false, List.foldl_cons, List.foldl_nil, List.any_cons, List.any_nil,
      Bool.or_false]
    show (if (!p.ownJug) = true then u.jugPend n 7 else u).applyPost n p = (if p.ownJug = true then u else u.jugPend n 7).applyPost n p
    cases p.ownJug <;> rfl
  have went : (s.decArrive n).decGo n = x.applyPost n p := by
    have hw' : ((x.applyPost n p).seq n).wait = .none := by
      rw [he, show ({ x with regs := r } : State).seq n = x.seq n from rfl, sx, seqs, hw]
    rw [arrived]
    unfold decGo
    rw [hw']
  refine ⟨x.applyPost n p, went, ?_, ?_, ?_, ?_, ?_, applyPost_inv n p ix, ?_, ?_⟩
  · rw [he, show ({ x with regs := r } : State).seq n = x.seq n from rfl, sx, seqs]
  · rw [dr, regs]
  · rw [drvc, regs]
  · rw [drvf, regs]
  · rw [he]
    exact bx
  · rw [he]
    exact jx
  · obtain ⟨k1, o1, l1, r1, b1, e1⟩ := ox
    refine ⟨fun a ha => (only.1 a ha).trans (regs a), fun k hk => (only.2.1 k hk).trans (o1 k hk), ?_⟩
    rw [he, e1]
    exact ⟨l1, r, b1, rfl⟩

/-- A post that meets a valid bit, alone in its beat, is flagged when the beat is judged (R199). -/
theorem State.judgePosts_overwrite {t : State} (hi : t.Inv) {n : Nat} {m : Meet} {p : Post}
    (ht : (t.seq n).meet = some { m with posts := m.posts ++ [p] }) (hb : m.at_ = t.beat) (hj : m.judged = false) (hp : m.posts = [])
    (ho : p.mask &&& m.drvf ≠ 0) : bit ((t.judgePosts n).getReg (Reg.seqFlags n)) 3 = true := by
  have now : t.meetNow n = { m with posts := m.posts ++ [p] } := by
    unfold meetNow
    rw [ht, Option.filter_some, if_pos (by simpa using hb)]
  have due : t.overDue n = true := by
    unfold overDue
    rw [now]
    simpa [hj, hp, overwrites] using ho
  unfold judgePosts
  rw [due, getReg_modSeq]
  exact bit_raiseFlag hi _ (by decide)

/-! ### The obligation -/

section
variable {s g : State} {n : RingId} {w : BitVec 64}

/-- No window is borrowed where an instruction acts. -/
theorem State.Goes.whole (h : s.Goes n w g) (hi : s.Inv) : g.memu.borrow = none := by
  obtain ⟨hs, -, -, hg⟩ := h
  obtain ⟨-, -, q, r, b, e⟩ := zGate_timing (hold_inv n .none hi) n w
  rw [show (s.hold n .none).zGate n w = (true, g) from hg] at e
  exact (congrArg (fun u : State => u.memu.borrow) e).trans hs.whole

theorem exec_dec_none (hi : s.Inv) (h : s.Goes n w g) (ho : zOp w = 0x0E)
    (hs : ∀ v old, ¬ g.Sees n (fld w 35 31) (fld w 30 28 + 1) (bit w 27) v old) :
    exec (.dec n) s = .next (g.modSeq n fun q => { q with
      wait := .dec (if bit w 25 then some (g.beat + (g.getReg (Reg.seqG n (fld w 24 21))).toNat) else none) }) := by
  refine h.answers hi ho (by decide) ?_
  simp only [State.zControl, ho, State.decTry_dec g n ho, State.decSees_none hs]
  rfl

/-- The state in which a CASE holds (R146). -/
def State.caseHeld (g : State) (n : Nat) (w : BitVec 64) : State :=
  g.modSeq n fun q => { q with
    caseGot := none, wait := .caseW (if bit w 32 then some (g.beat + (g.getReg (Reg.seqG n (fld w 31 28))).toNat) else none) }

theorem exec_case_none (hi : s.Inv) (h : s.Goes n w g) (ho : zOp w = 0x0D) (hs : ∀ v old, ¬ g.Sees n (fld w 39 35) 4 (bit w 34) v old) :
    exec (.caseOp n) s = .next ((g.caseHeld n w).caseFetch n w) := by
  refine h.answers hi ho (by decide) ?_
  have sees : (g.modSeq n fun q => { q with caseGot := none }).decSees n (fld w 39 35) 4 (bit w 34) = none :=
    (State.decSees_modSeq (h.inv hi) n.isLt _ rfl _ _ _).trans (State.decSees_none hs)
  simp only [State.zControl, ho, State.decTry_case _ n ho, sees]
  exact congrArg (fun u : State => u.caseFetch n w) (State.modSeq_modSeq g n _ _)

/-- The parts of CASE that hold, by what it fetches. -/
theorem exec_case_holds (hi : s.Inv) (h : s.Goes n w g) (ho : zOp w = 0x0D) (hs : ∀ v old, ¬ g.Sees n (fld w 39 35) 4 (bit w 34) v old) :
    let b := fld w 39 35
    let h := g.caseHeld n w
    let v := fld (g.getReg (Reg.seqDr n)) (b + 3) b
    let a := State.ringMem n + 8 * (16 * fld w 25 15 + v)
    let e := g.word64 a
    let da := State.ringMem n + 0x400000 + 16 * fld e 34 23
    let d := g.soundDesc da
    let firsts := List.range (firstPairs d.w1)
    let pairAt := fun m => State.ringMem n + 0x100000 + 4 * (fld d.w0 18 0 + m)
    let fetched := fun got => exec (.caseOp n) s = .next (h.modSeq n fun q => { q with caseGot := some got })
    (bit w 33 = false ∨ bit w 34 = true ∨ (∃ i < 4, bit (g.getReg (Reg.seqDrvc n)) (b + i) = false) → exec (.caseOp n) s = .next h) ∧
    (bit w 33 = true → bit w 34 = false → (∀ i < 4, bit (g.getReg (Reg.seqDrvc n)) (b + i) = true) → g.damageIn a 8 = [] →
      (zOp e ≠ 0x20 → fetched { val := v, word := e, bad := false, desc := none }) ∧
      (zOp e = 0x20 → g.damageIn da 16 = [] → d.cause.isSome = true → fetched { val := v, word := e, bad := false, desc := some d }) ∧
      (zOp e = 0x20 → g.damageIn da 16 = [] → d.cause = none → (∀ m ∈ firsts, g.damageIn (pairAt m) 4 = []) →
        fetched { val := v, word := e, bad := false, desc := some { d with pairs := firsts.map fun m => (m, g.loadWord (pairAt m)) } })) := by
  intro b k v a e da d firsts pairAt fetched
  have held := exec_case_none hi h ho hs
  refine ⟨fun hn => held.trans (congrArg Host.Outcome.next (State.caseFetch_none hn)), fun hp hc hv hd => ?_⟩
  have whole : k.memu.borrow = none := h.whole hi
  have got : (k.seq n).caseGot = none := congrArg Seq.caseGot (State.seq_modSeq_self (h.inv hi).rings_length n.isLt _)
  have entry := State.caseFetch_entry (s := k) got hp hc hv whole hd
  refine ⟨fun hz => ?_, fun hz hda hcause => ?_, fun hz hda hcause hpairs => ?_⟩
  · exact held.trans (congrArg Host.Outcome.next (entry.trans (if_neg hz)))
  · have desc := (State.fetchDesc_sound (s := k) whole n (fld e 34 23) hda).1 hcause
    refine held.trans (congrArg Host.Outcome.next (entry.trans ((if_pos hz).trans ?_)))
    show ((k.fetchDesc n (fld e 34 23)).2.modSeq n fun q => { q with
      caseGot := some { val := v, word := e, bad := false, desc := some (k.fetchDesc n (fld e 34 23)).1 } }) = _
    rw [desc]
    rfl
  · have desc := (State.fetchDesc_sound (s := k) whole n (fld e 34 23) hda).2 hcause hpairs
    refine held.trans (congrArg Host.Outcome.next (entry.trans ((if_pos hz).trans ?_)))
    show ((k.fetchDesc n (fld e 34 23)).2.modSeq n fun q => { q with
      caseGot := some { val := v, word := e, bad := false, desc := some (k.fetchDesc n (fld e 34 23)).1 } }) = _
    rw [desc]
    rfl

/-- CASE that completes in its issue beat has fetched nothing early (R146). -/
theorem exec_case_some (hi : s.Inv) (h : s.Goes n w g) (ho : zOp w = 0x0D) {v : Word} {old : Bool}
    (hs : g.Sees n (fld w 39 35) 4 (bit w 34) v old) :
    let b := fld w 39 35
    let st := Reg.seqSt n
    ∃ t, exec (.caseOp n) s = .next t ∧ g.Spent t n b 4 old ∧
      t.getReg st = (if bit w 32 then putBit (g.getReg st) 4 false else g.getReg st) ∧
      (g.modSeq n fun q => { q with meet := (t.seq n).meet }).Onward t n (16 * fld w 25 15 + fld v (b + 3) b) 2 ∧
      g.OnlySeq t n [Reg.seqDrvf n, Reg.seqDrvc n, st, Reg.seqPc n, Reg.seqRsc n] := by
  intro b st
  have hg := h.inv hi
  let u := g.modSeq n fun q => { q with caseGot := none }
  have sees : u.Sees n b 4 (bit w 34) v old :=
    State.sees_iff.mpr ((State.decSees_modSeq hg n.isLt _ rfl _ _ _).trans (State.sees_iff.mp hs))
  obtain ⟨t, e, spent, hst, hpc, hrsc, hseq, only⟩ := State.case_completes (State.modSeq_inv n _ hg : u.Inv) n.isLt ho sees
  have seqs : u.seq n = { g.seq n with caseGot := none } := State.seq_modSeq_self hg.rings_length n.isLt _
  refine ⟨t, h.answers hi ho (by decide) ?_, spent.of rfl rfl (State.meetNow_posts (by rw [seqs]) rfl), hst, ⟨hpc, hrsc, ?_⟩,
    ((State.OnlySeq.modSeq g n _).trans only).mono (by simp [st])⟩
  · simp only [State.zControl, ho]
    show (u.decTry n w).getD _ = t
    rw [e]
    rfl
  · rw [State.seq_modSeq_self hg.rings_length n.isLt, hseq, seqs]
    rfl

theorem exec_waitc (hi : s.Inv) (h : s.Goes n w g) (ho : zOp w = 0x04) :
    let st := Reg.seqSt n
    let c := BitVec.ofNat 16 (fld w 39 24)
    (g.condHolds n c = true → ∃ t, exec (.waitc n) s = .next t ∧
      t.getReg st = (if bit w 20 then putBit (g.getReg st) 4 false else g.getReg st) ∧ g.Onward t n (g.seqPc n + 1) 1 ∧
      g.LatchSpent t n c ∧ g.OnlySeq t n ([st, Reg.seqPc n, Reg.seqRsc n] ++ if fld c 15 12 = 2 then [Reg.trigLatch n] else [])) ∧
    (g.condHolds n c = false → exec (.waitc n) s = .next (g.modSeq n fun q => { q with
      wait := .waitc (if bit w 20 then some (g.beat + (g.getReg (Reg.seqG n (fld w 19 16))).toNat) else none) })) := by
  intro st c
  have e : g.zControl n w = (g.waitcTry n w).getD (g.hold n (.waitc (g.timeoutAt n (bit w 20) (fld w 19 16)))) := by
    simp only [State.zControl, ho]
  constructor <;> intro hc
  · refine ⟨_, h.answers hi ho (by decide) ?_, State.waitc_goes (h.inv hi) n.isLt ho c⟩
    rw [e, State.waitcTry, if_pos hc]
    rfl
  · refine h.answers hi ho (by decide) ?_
    rw [e, State.waitcTry, if_neg (by simp [c, hc])]
    rfl

end

/-- Settles O3: the instructions at issue, a CASE that waits, and the arrival of a post. -/
theorem decisionsArriveAndAreRead : Obligations.DecisionsArriveAndAreRead := by
  refine ⟨fun s g n w hi h => ⟨fun ho => ⟨fun v old hs => ?dec, exec_dec_none hi h ho⟩,
    fun ho => ⟨fun v old hs => exec_case_some hi h ho hs, exec_case_holds hi h ho⟩, exec_waitc hi h⟩,
    fun s n v old got b hi hq hrun hw hu hg => ?arrive, fun s n p hi hq hd hw => ?post⟩
  case dec =>
    obtain ⟨t, e, facts⟩ := State.dec_completes (h.inv hi) n.isLt ho hs
    refine ⟨t, h.answers hi ho (by decide) ?_, facts⟩
    simp only [State.zControl, ho, e, Option.getD_some]
  case arrive =>
    intro w i ho hs
    obtain ⟨t, e, spent, -, hpc, hrsc, hseq, only⟩ := State.case_completes hi n.isLt ho hs
    have stays : s.decArrive n = s := by
      unfold State.decArrive State.arriving
      rw [hq]
      rfl
    refine ⟨t, ?_, spent, hpc, hrsc, by rw [hseq, hg], fun x hx => ?_, only⟩
    · show Host.Outcome.next ((s.decArrive n).decGo n) = _
      rw [stays]
      unfold State.decGo
      simp only [hw, hrun, if_true]
      rw [show s.decTry n (s.zFetch n) = some t from e]
      rfl
    · unfold State.zFetch State.zGot
      rw [hx]
      exact ⟨rfl, rfl⟩
  case post =>
    intro m
    obtain ⟨t, e, seqs, dr, drvc, drvf, hb, inv, jug, only⟩ := State.post_arrives hi n.isLt hq hd hw
    exact ⟨t, congrArg Host.Outcome.next e, seqs, dr, drvc, drvf, fun hj hp ho => State.judgePosts_overwrite inv (congrArg Seq.meet seqs)
      ((State.meetNow_at s n).trans hb.symm) hj hp ho, jug, only⟩

end Sys2Proof.Machine
end

section
/-! PROOF. Bytes of the addressed memories, and LD and ST through port A (R8, R138, R442). -/

namespace Sys2Proof.Machine

/-! ### Bytes -/

theorem length_leBytes (k x : Nat) : (leBytes k x).length = k := by
  induction k generalizing x with
  | zero => rfl
  | succ k ih => simp [leBytes, ih]

/-- A number is read as it was written, modulo its size (R8). -/
theorem ofLe_leBytes (k x : Nat) : ofLe (leBytes k x) = x % 256 ^ k := by
  induction k generalizing x with
  | zero => simp [leBytes, ofLe, Nat.mod_one]
  | succ k ih =>
    rw [leBytes, ofLe, ih, BitVec.toNat_ofNat, Nat.pow_succ' (n := k)]
    exact (Nat.mod_mul (x := x) (a := 256) (b := 256 ^ k)).symm

/-- Bytes change nothing but the memories, and those by what they held. -/
theorem State.setBytes_fields (s : State) (a : Nat) (bs : List Byte) : ∃ m, ∀ u : State, u.mem = s.mem → u.setBytes a bs = { u with mem := m } := by
  induction bs generalizing s a with
  | nil => exact ⟨s.mem, fun u e => by rw [← e]; rfl⟩
  | cons b t ih =>
    obtain ⟨m, e⟩ := ih (s.setByte a b) (a + 1)
    exact ⟨m, fun u hu => e (u.setByte a b) (by simp only [setByte, hu])⟩

theorem State.setBytes_wf {s : State} (h : Memory.wf s.mem = true) (a : Nat) (bs : List Byte) : Memory.wf (s.setBytes a bs).mem = true := by
  induction bs generalizing s a with
  | nil => exact h
  | cons b t ih =>
    have h' : Memory.wf (s.setByte a b).mem = true := Cells.put_wf (d := Memory.unlisted) a b h
    exact ih h' (a + 1)

/-- A byte after a write of bytes: the byte written there, or what stood there. -/
theorem State.byte_setBytes {s : State} (h : Memory.wf s.mem = true) (a : Nat) (bs : List Byte) (x : Nat) :
    (s.setBytes a bs).byte x = if a ≤ x ∧ x < a + bs.length then bs.getD (x - a) 0 else s.byte x := by
  induction bs generalizing s a with
  | nil => rw [if_neg (by simp)]; rfl
  | cons b t ih =>
    have h' : Memory.wf (s.setByte a b).mem = true := Cells.put_wf (d := Memory.unlisted) a b h
    rw [setBytes, ih h', byte_setByte h]
    by_cases hx : x = a
    · subst hx
      rw [if_neg (by omega), if_pos rfl, if_pos ⟨Nat.le_refl _, by simp⟩, Nat.sub_self]
      rfl
    · by_cases hr : a + 1 ≤ x ∧ x < a + 1 + t.length
      · rw [if_pos hr, if_pos ⟨by omega, by simp; omega⟩, show x - a = x - (a + 1) + 1 by omega]
        rfl
      · rw [if_neg hr, if_neg hx, if_neg (by simp; omega)]

/-- Bytes are read as they were written. -/
theorem State.bytes_setBytes {s : State} (h : Memory.wf s.mem = true) (a : Nat) (bs : List Byte) :
    (s.setBytes a bs).bytes a bs.length = bs := by
  unfold bytes
  refine List.ext_getElem (by simp) fun i h1 h2 => ?_
  rw [List.getElem_map, List.getElem_range, byte_setBytes h, if_pos ⟨by omega, by omega⟩, Nat.add_sub_cancel_left]
  exact List.getD_eq_getElem _ _ h2

/-- A word is read as it was written (R8). -/
theorem State.word_setWord {s : State} (h : Memory.wf s.mem = true) (a : Nat) (v : Word) : (s.setWord a v).word a = v := by
  have hb := bytes_setBytes h a (leBytes 4 v.toNat)
  rw [length_leBytes] at hb
  unfold setWord word
  rw [hb, ofLe_leBytes]
  exact BitVec.eq_of_toNat_eq (by rw [BitVec.toNat_ofNat]; omega)

/-- A word changes the four bytes from its address. -/
theorem State.byte_setWord_ne {s : State} (h : Memory.wf s.mem = true) (a : Nat) (v : Word) {x : Nat} (hx : x < a ∨ a + 4 ≤ x) :
    (s.setWord a v).byte x = s.byte x := by
  unfold setWord
  rw [byte_setBytes h, if_neg (by rw [length_leBytes]; omega)]

/-- A read of sound words delivers what stands there (R440). -/
theorem State.loadWord_sound {s : State} {a : Nat} (h : s.damageIn a 4 = []) : s.loadWord a = s.word a := by
  unfold loadWord load word
  rw [h]
  rfl

/-- A write into sound words (R439). -/
theorem State.store_sound {s : State} {a : Nat} {bs : List Byte} (h : s.damageIn a bs.length = []) : s.store a bs = s.setBytes a bs := by
  unfold store
  simp only [h, List.foldl_nil]

/-! ### Port A -/

/-- Port A has served no request of the bank in this beat (R442). -/
def State.portFree (s : State) (w : Nat) : Prop := ∀ p ∈ s.memu.portA, p.1 ≠ w / 8 % 16

/-- A request that finds its bank taken stays (R442). -/
theorem State.serveLd_taken {s : State} {n : Nat} {r : LdReq} (hq : (s.seq n).ldq = [r]) (hr : r.served = none) (hp : ¬ s.portFree r.word) :
    s.serveLd n = s := by
  have taken : (s.memu.portA.any fun p => p.1 == r.word / 8 % 16) = true := by
    obtain ⟨p, hm, e⟩ : ∃ p ∈ s.memu.portA, p.1 = r.word / 8 % 16 := by simpa only [portFree, not_forall, not_not, exists_prop] using hp
    exact List.any_eq_true.mpr ⟨p, hm, by simp [e]⟩
  unfold serveLd
  rw [hq]
  simp [hr, taken]

/-- The state in which port A has served a request of ring `n`, and the ring goes on in the beat after (R442). -/
def State.servedAt (s : State) (n : Nat) (r : LdReq) : State :=
  (s.modMemu fun m => { m with portA := (r.word / 8 % 16, r.word / 8, r.isStore) :: m.portA }).modSeq n
    fun q => { q with issueAt := max q.issueAt (s.beat + 1) }

/-- The one request of a ring is served (R442, R443). -/
theorem State.serveLd_free {s : State} (hi : s.Inv) {n : Nat} (hn : n < 12) {r : LdReq} (hq : (s.seq n).ldq = [r]) (hr : r.served = none)
    (hp : s.portFree r.word) (hb : s.memu.borrow = none) (hd : s.damageIn (0x10000000 + 4 * r.word) 4 = []) :
    (r.isStore = false → s.serveLd n = (s.servedAt n r).modSeq n fun q => { q with
      ldq := [{ r with served := some s.beat, value := s.word (0x10000000 + 4 * r.word) }] }) ∧
    (r.isStore = true → s.serveLd n = ((s.servedAt n r).setWord (0x10000000 + 4 * r.word) r.store).modSeq n fun q => { q with ldq := [] }) := by
  have free : (s.memu.portA.any fun p => p.1 == r.word / 8 % 16) = false := by
    rw [List.any_eq_false]
    exact fun p hm => by simpa using hp p hm
  have ldq : ((s.servedAt n r).seq n).ldq = [r] := by
    unfold servedAt
    rw [seq_modSeq_self (show (s.modMemu _).rings.length = 12 from hi.rings_length) hn]
    exact hq
  have step : s.serveLd n = if r.isStore then
      ((s.servedAt n r).store (0x10000000 + 4 * r.word) (leBytes 4 r.store.toNat)).modSeq n fun q => { q with
        ldq := q.ldq.filter fun x => x.served.isSome }
      else ((s.servedAt n r).eccRead (0x10000000 + 4 * r.word) 4).modSeq n fun q => { q with
        ldq := q.ldq.map fun x => if x.served.isNone then
          { x with served := some s.beat, value := (s.servedAt n r).loadWord (0x10000000 + 4 * r.word) } else x } := by
    unfold serveLd
    rw [hq]
    simp only [List.find?_cons, hr, Option.isNone_none, free, Bool.false_eq_true, if_false, touch_whole _ hb, Nat.lt_irrefl]
    rfl
  refine ⟨fun hs => ?_, fun hs => ?_⟩
  · rw [step, if_neg (by simp [hs]), eccRead_sound (show (s.servedAt n r).damageIn _ 4 = [] from hd)]
    refine modSeq_congr ?_
    simp only [ldq, List.map_cons, List.map_nil, hr, Option.isNone_none, if_true]
    rw [loadWord_sound (show (s.servedAt n r).damageIn _ 4 = [] from hd)]
    rfl
  · rw [step, if_pos hs, store_sound (by rw [length_leBytes]; exact hd)]
    obtain ⟨m, e⟩ := setBytes_fields (s.servedAt n r) (0x10000000 + 4 * r.word) (leBytes 4 r.store.toNat)
    have same : ((s.servedAt n r).setBytes (0x10000000 + 4 * r.word) (leBytes 4 r.store.toNat)).seq n = (s.servedAt n r).seq n := by
      rw [e _ rfl]
      rfl
    show ((s.servedAt n r).setBytes (0x10000000 + 4 * r.word) (leBytes 4 r.store.toNat)).modSeq n _ =
      ((s.servedAt n r).setBytes (0x10000000 + 4 * r.word) (leBytes 4 r.store.toNat)).modSeq n _
    refine modSeq_congr ?_
    simp only [same, ldq, List.filter_cons, hr, Option.isSome_none, Bool.false_eq_true, if_false, List.filter_nil]

/-! ### LD and ST -/

section
variable {s g : State} {n : RingId} {w : BitVec 64}

/-- No LD is on its way where an instruction acts. -/
theorem State.Goes.ldq_nil (h : s.Goes n w g) (hi : s.Inv) : (g.seq n).ldq = [] := by
  obtain ⟨hs, -, -, hg⟩ := h
  have held : ((s.hold n .none).seq n).ldq = [] := (congrArg Seq.ldq (seq_modSeq_self hi.rings_length n.isLt _)).trans hs.free
  have hg : (s.hold n .none).zGate n w = (true, g) := hg
  have refs : ∀ {u : State}, u.rings.length = 12 → ((u.refNow n).seq n).ldq = (u.seq n).ldq := fun hu => by
    rw [refNow, seq_modSeq_self hu n.isLt]
  have len : (s.hold n .none).rings.length = 12 := by simpa [hold] using hi.rings_length
  unfold zGate at hg
  dsimp only at hg
  split at hg
  · cases hg
    exact held
  · split at hg
    · split at hg
      · cases hg
        rw [refs (condGo_inv n _ (hold_inv n .none hi)).rings_length, seq_condGo]
        exact held
      · cases hg
    · split at hg
      · cases hg
      · cases hg
        split
        · exact (refs (markLate_inv n (hold_inv n .none hi)).rings_length).trans held
        · exact (refs len).trans held

/-- LD and ST present their request and the ring goes on, the request alone in its queue (R138). -/
theorem State.Goes.zMem (h : s.Goes n w g) (hi : s.Inv) :
    let r : LdReq := {
      rd := if zOp w = 0x11 then some (fld w 39 35) else none, word := g.zWordAddr n w
      store := g.gReg n (fld w 39 36), isStore := zOp w == 0x12, issued := s.beat }
    g.zMem n w = ((g.goNext n).modSeq n fun q => { q with ldq := [r] }).serveLd n ∧
      ((g.goNext n).modSeq n fun q => { q with ldq := [r] }).seq n = { g.seq n with
        wait := .none, issueAt := s.beat + 1, caseGot := none, caseUse := none, ldq := [r] } := by
  intro r
  have hg := h.inv hi
  have moved : (g.modSeq n fun q => { q with ldq := q.ldq ++ [r] }).goNext n = (g.goNext n).modSeq n fun q => { q with ldq := [r] } := by
    rw [goNext_modSeq]
    unfold goNext goTo
    rw [modSeq_modSeq]
    refine modSeq_congr ?_
    show ({ g.seq n with wait := .none, issueAt := g.beat + 1, caseGot := none, caseUse := none, ldq := (g.seq n).ldq ++ [r] } : Seq) = _
    rw [h.ldq_nil hi]
    rfl
  constructor
  · unfold State.zMem
    rw [h.beat hi]
    exact congrArg (fun u : State => u.serveLd n) moved
  · rw [seq_modSeq_self (goNext_inv n hg).rings_length n.isLt]
    obtain ⟨⟨-, -, hseq⟩, -⟩ := goTo_frame hg n.isLt (g.seqPc n + 1) 1
    rw [show (g.goNext n).seq n = _ from hseq, h.beat hi]

/-- The words and the memory of port A that a request finds after the front end has gone on. -/
theorem State.Goes.serveLd (h : s.Goes n w g) (hi : s.Inv) {r : LdReq} (hr : r.served = none) :
    let next := g.goNext n
    let v := (next.modSeq n fun q => { q with ldq := [r] }).serveLd n
    let taken := next.modMemu fun m => { m with portA := (r.word / 8 % 16, r.word / 8, r.isStore) :: m.portA }
    (¬ g.portFree r.word → v = next.modSeq n fun q => { q with ldq := [r] }) ∧
    (g.portFree r.word → g.damageIn (0x10000000 + 4 * r.word) 4 = [] →
      (r.isStore = false → v = taken.modSeq n fun q => { q with
        ldq := [{ r with served := some s.beat, value := g.word (0x10000000 + 4 * r.word) }] }) ∧
      (r.isStore = true → v = taken.setWord (0x10000000 + 4 * r.word) r.store)) := by
  intro next v taken
  have hg := h.inv hi
  have hnext : next.Inv := goNext_inv n hg
  have hv : (next.modSeq n fun q => { q with ldq := [r] }).Inv := modSeq_inv n _ hnext
  have hq : (next.seq n).ldq = [] := by
    obtain ⟨⟨-, -, hseq⟩, -⟩ := goTo_frame hg n.isLt (g.seqPc n + 1) 1
    rw [show next.seq n = _ from hseq]
    exact h.ldq_nil hi
  have ldq : ((next.modSeq n fun q => { q with ldq := [r] }).seq n).ldq = [r] := by
    rw [seq_modSeq_self hnext.rings_length n.isLt]
  have served : (next.modSeq n fun q => { q with ldq := [r] }).servedAt n r = taken.modSeq n fun q => { q with ldq := [r] } := by
    unfold servedAt
    show (taken.modSeq n fun q => { q with ldq := [r] }).modSeq n _ = _
    rw [modSeq_modSeq]
    refine modSeq_congr ?_
    obtain ⟨⟨-, -, hseq⟩, -⟩ := goTo_frame hg n.isLt (g.seqPc n + 1) 1
    rw [show taken.seq n = _ from hseq, show (next.modSeq n fun q => { q with ldq := [r] }).beat = g.beat from rfl]
    simp only [Nat.max_self]
  refine ⟨fun hp => serveLd_taken ldq hr hp, fun hp hd => ?_⟩
  obtain ⟨load, store⟩ := serveLd_free hv n.isLt ldq hr hp (h.whole hi) hd
  refine ⟨fun hs => ?_, fun hs => ?_⟩
  · rw [show v = _ from load hs, served, modSeq_modSeq, show (next.modSeq n fun q => { q with ldq := [r] }).beat = g.beat from rfl, h.beat hi]
    rfl
  · obtain ⟨m, e⟩ := setBytes_fields taken (0x10000000 + 4 * r.word) (leBytes 4 r.store.toNat)
    rw [show v = _ from store hs, served]
    unfold setWord
    rw [e taken rfl, e (taken.modSeq n _) rfl]
    show ({ taken with mem := m }.modSeq n fun q => { q with ldq := [r] }).modSeq n _ = { taken with mem := m }
    rw [modSeq_modSeq]
    refine .trans (modSeq_congr ?_) (modSeq_same { taken with mem := m } n)
    show ({ next.seq n with ldq := [] } : Seq) = next.seq n
    rw [← hq]

theorem exec_ld (hi : s.Inv) (h : s.Goes n w g) (ho : zOp w = 0x11) :
    exec (.ld n) s = .next (g.zMem n w) := h.answers hi ho (by decide) (by simp only [State.zControl, ho])

theorem exec_st (hi : s.Inv) (h : s.Goes n w g) (ho : zOp w = 0x12) :
    exec (.st n) s = .next (g.zMem n w) := h.answers hi ho (by decide) (by simp only [State.zControl, ho])

end

/-- An LD served 4 beats ago is due (R138). -/
theorem State.ldDue_served {s : State} {n : Nat} {r : LdReq} (hq : (s.seq n).ldq = [r]) {b : Nat} (hb : r.served = some b) (hd : b + 4 ≤ s.beat) :
    s.ldDue n = some r := by
  simp [ldDue, hq, hb, hd]

/-- A request that no one has served is not due. -/
theorem State.ldDue_waiting {s : State} {n : Nat} {r : LdReq} (hq : (s.seq n).ldq = [r]) (hr : r.served = none) : s.ldDue n = none := by
  simp [ldDue, hq, hr]

/-- Settles O10: the request of an LD or ST meets an empty queue and goes through port A. -/
theorem zwiecLoadAndStore : Obligations.ZwiecLoadAndStore := by
  unfold Obligations.ZwiecLoadAndStore
  refine ⟨?issue, ?complete⟩
  case issue =>
    intro s g n w hi h next word free sound
    obtain ⟨zmem, -⟩ := h.zMem hi
    refine ⟨?ld, ?st⟩
    case ld =>
      intro ho a r
      have hr : r = { rd := if zOp w = 0x11 then some (fld w 39 35) else none, word := g.zWordAddr n w
                      store := g.gReg n (fld w 39 36), isStore := zOp w == 0x12, issued := s.beat } := by
        simp [r, a, word, ho, State.zWordAddr, State.gReg]
      rw [← hr] at zmem
      rw [exec_ld hi h ho, zmem]
      obtain ⟨taken, served⟩ := h.serveLd hi (r := r) rfl
      exact ⟨fun hf hd => congrArg _ ((served hf hd).1 rfl), fun hf => congrArg _ (taken hf)⟩
    case st =>
      intro ho a v
      have hr : ({ word := a, store := v, isStore := true, issued := s.beat } : LdReq) =
          { rd := if zOp w = 0x11 then some (fld w 39 35) else none, word := g.zWordAddr n w
            store := g.gReg n (fld w 39 36), isStore := zOp w == 0x12, issued := s.beat } := by
        simp [a, v, word, ho, State.zWordAddr, State.gReg]
      rw [← hr] at zmem
      rw [exec_st hi h ho, zmem]
      obtain ⟨taken, served⟩ := h.serveLd hi (r := { word := a, store := v, isStore := true, issued := s.beat }) rfl
      refine ⟨fun hf hd => ⟨_, congrArg _ ((served hf hd).2 rfl), ?_⟩, fun hf => congrArg _ (taken hf)⟩
      have wf : Memory.wf (next.modMemu fun m => { m with portA := (a / 8 % 16, a / 8, true) :: m.portA }).mem = true := (h.inv hi).mem_wf
      refine ⟨State.word_setWord wf _ _, fun b hb => State.byte_setWord_ne wf _ _ hb, ?_⟩
      obtain ⟨m, e⟩ := State.setBytes_fields (next.modMemu fun m => { m with portA := (a / 8 % 16, a / 8, true) :: m.portA })
        (0x10000000 + 4 * a) (leBytes 4 v.toNat)
      unfold State.setWord
      rw [e _ rfl]
      rfl
  case complete =>
    intro s n r hi hq
    refine ⟨fun b d hb hd h19 hdue => ?due, fun hr ht => ?taken, fun hr hf hb hd => ?served⟩
    case due =>
      have due : exec (.ldComplete n) s = .next ((s.setZReg n (r.rd.getD 0) r.value).modSeq n fun q => { q with
          ldq := q.ldq.filter fun x => decide (x.issued ≠ r.issued) }) := by
        show execLdComplete n s = _
        unfold execLdComplete
        rw [State.ldDue_served hq hb hdue]
      rw [due, hd, Option.getD_some, setZReg_eq h19]
      refine congrArg _ (State.modSeq_congr ?_)
      show ({ s.seq n with ldq := (s.seq n).ldq.filter _ } : Seq) = { s.seq n with ldq := [] }
      rw [hq]
      simp
    case taken =>
      show execLdComplete n s = _
      unfold execLdComplete
      rw [State.ldDue_waiting hq hr]
      obtain ⟨p, hm, e⟩ := ht
      exact congrArg _ (State.serveLd_taken hq hr fun free => free p hm e)
    case served =>
      obtain ⟨load, store⟩ := State.serveLd_free hi n.isLt hq hr hf hb hd
      have waits : exec (.ldComplete n) s = .next (s.serveLd n) := by
        show execLdComplete n s = _
        unfold execLdComplete
        rw [State.ldDue_waiting hq hr]
      rw [waits]
      exact ⟨fun hs => congrArg _ (load hs), fun hs => congrArg _ (store hs)⟩

end Sys2Proof.Machine
end

section
/-! PROOF. The actions of any state, in canonical form or not: what acts and with which operands (R126-R128). -/

namespace Sys2Proof.Machine

/-! ### Registers of any state -/

/-- A write leaves every other address, in whatever form the store is. -/
theorem Cells.get_put_other {w : Nat} {d : Nat → BitVec w} {x : BitVec w} (l : List (Nat × BitVec w)) {a b : Nat} (v : BitVec w) (hb : b ≠ a) :
    Cells.get d (Cells.put x l a v) b = Cells.get d l b := by
  induction l with
  | nil =>
    unfold Cells.put
    split
    · rfl
    · simp [Cells.get, Ne.symm hb]
  | cons c t ih =>
    unfold Cells.put
    split
    · split
      · rfl
      · simp [Cells.get, Ne.symm hb]
    · split
      · rename_i hc
        split
        · simp [Cells.get, ← hc, Ne.symm hb]
        · simp [Cells.get, ← hc, Ne.symm hb]
      · simp only [Cells.get, ih]

theorem State.getReg_setReg_other (s : State) {a b : Nat} (v : Word) (hb : b ≠ a) : (s.setReg a v).getReg b = s.getReg b :=
  Cells.get_put_other _ v hb

theorem State.getReg_goNext_other (s : State) {n a : Nat} (hp : a ≠ Reg.seqPc n) (hr : a ≠ Reg.seqRsc n) : (s.goNext n).getReg a = s.getReg a := by
  unfold goNext goTo
  rw [getReg_modSeq, getReg_setReg_other _ _ hr, getReg_setReg_other _ _ hp]

theorem State.zVals_goNext_any (s : State) (n : Nat) (w : BitVec 64) : (s.goNext n).zVals n w = s.zVals n w := by
  refine zVals_congr (fun i hi => getReg_goNext_other s ?_ ?_) w <;> simp only [Reg.seqG, Reg.seqPc, Reg.seqRsc] <;> omega

theorem State.TimingOnly.condGo_any (s : State) (n : Nat) (c : BitVec 16) : s.TimingOnly (s.condGo n c) n := by
  have keep : ∀ (l : List Nat) (u : State) (x : Nat), x ≠ Reg.trigLatch n → (l.foldl (fun s b =>
      if (Reg.trigLatch n, b) ∈ s.beatSets then s else s.setBit (Reg.trigLatch n) b false) u).getReg x = u.getReg x := by
    intro l
    induction l with
    | nil => exact fun _ _ _ => rfl
    | cons b t ih =>
      intro u x hx
      rw [List.foldl_cons, ih _ _ hx]
      split
      · rfl
      · exact getReg_setReg_other _ _ hx
  unfold State.condGo
  split
  · obtain ⟨r, e⟩ := clearLatch_fields s n (BitVec.ofNat 32 (2 ^ (2 * fld c 2 0 + fld c 3 3)))
    refine ⟨fun x h1 _ _ _ => keep _ _ _ h1, fun hi lo _ _ => ?_, s.seq n, r, s.beatSets, ?_⟩
    · rw [clearLatch, keep _ _ _ (by simp only [Reg.seqSt, Reg.trigLatch]; omega)]
    · rw [e, modSeq_same]
  · exact .refl s n

/-! ### The ring -/

theorem State.seq_modSeq_lt {s : State} {n : Nat} (h : n < s.rings.length) (f : Seq → Seq) : (s.modSeq n f).seq n = f (s.seq n) := by
  unfold seq modSeq
  rw [ring_modRing, if_pos ⟨rfl, h⟩]

/-- A ring that issues is there. -/
theorem State.Issues.ring_lt {s : State} {n : Nat} {w : BitVec 64} (h : s.Issues n w) : n < s.rings.length := by
  by_contra hn
  have idle : s.seq n = {} := congrArg Ring.seq (List.getD_eq_default _ _ (by omega))
  have ready := h.ready
  simp [zReady, idle] at ready

section
variable {s g : State} {n : RingId} {w : BitVec 64}

/-- What the condition of a MODE 3 action leaves (R134). -/
theorem State.Goes.timing (h : s.Goes n w g) (hm : zMode w = 3) : (s.hold n .none).TimingOnly g n ∧ (g.seq n).caseUse = none := by
  obtain ⟨hs, -, -, hg⟩ := h
  rw [zGate_condition hm (show (s.hold n .none).zGate n w = (true, g) from hg)]
  refine ⟨.trans (.condGo_any _ n _) (.modSeq _ n _), ?_⟩
  have own : ((s.hold n .none).seq n).caseUse = none := by
    rw [hold, seq_modSeq_lt hs.ring_lt]
    exact hs.own
  have len : n < ((s.hold n .none).condGo n (BitVec.ofNat 16 (zT w))).rings.length := by
    rw [condGo_eq]
    split <;> exact (List.length_modify ..).symm ▸ hs.ring_lt
  rw [refNow, seq_modSeq_lt len, seq_condGo]
  exact own

theorem State.ActsNow.beat_any (h : s.ActsNow n w g) : g.beat = s.beat := by
  obtain ⟨-, ⟨hm, u, hu, rfl⟩ | ⟨-, -, -, -, -, -, rfl⟩⟩ := h
  · obtain ⟨⟨-, -, q, r, b, e⟩, -⟩ := hu.timing hm
    have hb := congrArg State.beat e
    exact hb
  · rfl

/-- An action in MODE 0 acts at once through a queue that has nothing due and may release (R125, R128, R129). -/
theorem State.Issues.zEnqueue_acts (hs : s.Issues n w) (hl : s.zLegal n w = true) (hm : zMode w = 0)
    (ht : ∀ e ∈ (s.seq n).taq, s.beat < e.at_) (hr : s.releasedNow n < 8) :
    let g := ((s.modSeq n fun q => { q with wait := .none }).goNext n).modSeq n fun q =>
      { q with relBeat := s.beat, relCount := s.releasedNow n + 1 }
    (s.hold n .none).zEnqueue n w = g.actOne n w (s.zVals n w).1 (s.zVals n w).2 := by
  intro g
  have hl' : (s.hold n .none).zLegal n w = true := ((TimingOnly.modSeq s n _).legal n.isLt w).trans hl
  have hg : (s.hold n .none).zGot n = none := by
    unfold zGot hold
    rw [seq_modSeq_lt hs.ring_lt]
    simp [hs.own]
  let e : Entry := { at_ := s.beat, word := w, v1 := (s.zVals n w).1, v2 := (s.zVals n w).2 }
  let x := ((s.hold n .none).modSeq n fun q => { q with taq := q.taq ++ [e] }).goNext n
  have enqueued : (s.hold n .none).zEnqueue n w = x.releaseTaq n := by
    unfold zEnqueue
    simp only [hm, if_true, show (s.hold n .none).beat = s.beat from rfl, Nat.lt_irrefl, if_false, Nat.max_self, hl', hg]
    rfl
  have hx : x.seq n = { s.seq n with
      wait := .none, issueAt := s.beat + 1, caseGot := none, caseUse := none, taq := (s.seq n).taq ++ [e] } := by
    show (((s.hold n .none).modSeq n _).goNext n).seq n = _
    rw [hold, modSeq_modSeq, goNext_modSeq, seq_modSeq_lt (s := (s.setReg _ _).setReg _ _) hs.ring_lt]
    rfl
  have hd : x.releasedNow n = s.releasedNow n := by
    unfold releasedNow
    rw [hx]
    rfl
  have released : x.modSeq n (fun q => { q with taq := (s.seq n).taq, relBeat := s.beat, relCount := s.releasedNow n + 1 }) = g := by
    show (((s.hold n .none).modSeq n _).goNext n).modSeq n _ = ((s.modSeq n _).goNext n).modSeq n _
    rw [hold, modSeq_modSeq, goNext_modSeq, goNext_modSeq, modSeq_modSeq, modSeq_modSeq]
    exact modSeq_congr rfl
  rw [enqueued]
  unfold releaseTaq
  simp only [hx, hd, show x.beat = s.beat from rfl]
  rw [pickDue_last ht (Nat.le_refl s.beat) (by omega)]
  simp only [List.length_singleton, released, List.foldl_cons, List.foldl_nil, show g.beat = s.beat from rfl, e, Nat.lt_irrefl, if_false,
    setGot]

/-- An action that acts at once does so in the state `g`, with the operands that stand there (R126-R128). -/
theorem State.ActsNow.zRow_any (h : s.ActsNow n w g) : s.zRow n (zOp w) = g.actOne n w (g.zVals n w).1 (g.zVals n w).2 := by
  obtain ⟨ha, ⟨hm, u, hu, rfl⟩ | ⟨hm, hs, hl, hq, ht, hr, rfl⟩⟩ := h
  · obtain ⟨timing, own⟩ := hu.timing hm
    have legal : u.zLegal n w = true := (timing.legal n.isLt w).trans (((TimingOnly.modSeq s n _).legal n.isLt w).trans hu.2.1)
    have got : u.zGot n = none := by
      unfold zGot
      rw [own]
      rfl
    rw [zRow_goes hu, zVals_goNext_any]
    unfold zBody
    rw [if_neg (by simp [legal]), if_pos ha, got]
    rfl
  · have hv : ((s.modSeq n fun q => { q with wait := .none }).goNext n).zVals n w = s.zVals n w := zVals_goNext_any ..
    unfold State.zRow
    simp only [hs.fetched]
    rw [if_pos ⟨hs.ready, by simp [hs.good], trivial, hl⟩, hs.zIssue_action hl ha hm hq, hs.zEnqueue_acts hl hm ht hr]
    exact congrArg (fun v : Word × Word => actOne _ n w v.1 v.2) hv.symm

/-- An action with opcode `op` answers with the state that its meaning gives, in any state. -/
theorem State.ActsNow.yields {t : State} (h : s.ActsNow n w g) {op : Nat} (ho : zOp w = op)
    (e : g.actOne n w (g.zVals n w).1 (g.zVals n w).2 = t) : (Host.Outcome.next (s.zRow n op) : Res) = .next t :=
  congrArg Host.Outcome.next ((ho ▸ h.zRow_any : s.zRow n op = _).trans e)

end

end Sys2Proof.Machine
end

section
/-! PROOF. PLAY, PLAYS, STOP, FRQ, PHS, PHSET and AMP: the requests they send and the parameters of a voice at the pins (R130, R151-R156,
R210-R217, R277). -/

namespace Sys2Proof.Machine

/-! ### The changes on their way to the pins -/

/-- Steps that keep a quantity, and depend on nothing but it for it, may be left out of a run (R130). -/
theorem foldl_filter_keeps {α : Type} {π : State.Nco → α} {p : PinOp → Bool}
    (own : ∀ x y o, π x = π y → π (State.ncoStep x o) = π (State.ncoStep y o))
    (drop : ∀ x o, p o = false → π (State.ncoStep x o) = π x) (l : List PinOp) {x y : State.Nco} (h : π x = π y) :
    π ((l.filter p).foldl State.ncoStep x) = π (l.foldl State.ncoStep y) := by
  induction l generalizing x y with
  | nil => exact h
  | cons o t ih =>
    cases ho : p o with
    | true =>
      rw [List.filter_cons_of_pos ho]
      exact ih (own _ _ o h)
    | false =>
      rw [List.filter_cons_of_neg (by simp [ho])]
      exact ih (h.trans ((drop y o ho).symm))

theorem ncoStep_frame_own (x y : State.Nco) (o : PinOp) (h : x.frame = y.frame) : (State.ncoStep x o).frame = (State.ncoStep y o).frame := by
  unfold State.ncoStep
  cases o.kind with
  | frq f => dsimp only; split <;> split <;> exact h
  | phs d => exact congrArg (· + d) h
  | phset p => rfl
  | amp a => exact h
  | zero => exact h

theorem ncoStep_f_own (x y : State.Nco) (o : PinOp) (h : x.f = y.f) : (State.ncoStep x o).f = (State.ncoStep y o).f := by
  unfold State.ncoStep
  cases o.kind with
  | frq f => dsimp only; split <;> split <;> rfl
  | phs d => exact h
  | phset p => exact h
  | amp a => exact h
  | zero => exact h

theorem ncoStep_amp_own (x y : State.Nco) (o : PinOp) (h : x.amp = y.amp) : (State.ncoStep x o).amp = (State.ncoStep y o).amp := by
  unfold State.ncoStep
  cases o.kind with
  | frq f => dsimp only; split <;> split <;> exact h
  | phs d => exact h
  | phset p => exact h
  | amp a => rfl
  | zero => exact h

/-- What a change leaves alone. -/
theorem ncoStep_keeps (x : State.Nco) (o : PinOp) :
    ((∀ f, o.kind ≠ .frq f) → (State.ncoStep x o).f = x.f) ∧
    ((∀ d, o.kind ≠ .phs d) → (∀ p, o.kind ≠ .phset p) → (State.ncoStep x o).frame = x.frame) ∧
    ((∀ a, o.kind ≠ .amp a) → (State.ncoStep x o).amp = x.amp) := by
  unfold State.ncoStep
  cases o.kind with
  | frq f => dsimp only; split <;> simp
  | phs d => simp
  | phset p => simp
  | amp a => simp
  | zero => simp

/-- What a change sets. -/
theorem ncoStep_sets (x : State.Nco) (b : Nat) :
    (∀ f, (State.ncoStep x { at_ := b, kind := .frq f }).f = f.toNat) ∧
    (∀ d, (State.ncoStep x { at_ := b, kind := .phs d }).frame = x.frame + d) ∧
    (∀ p, (State.ncoStep x { at_ := b, kind := .phset p }).frame = p) ∧
    ∀ a, (State.ncoStep x { at_ := b, kind := .amp a }).amp = a := by
  refine ⟨fun f => ?_, fun d => rfl, fun p => rfl, fun a => rfl⟩
  unfold State.ncoStep
  dsimp only
  split <;> rfl

/-! ### The registers at the pins -/

namespace State

variable {u : State} {n v : Nat}

theorem pairWord_lo_hi (x : BitVec 64) : pairWord (loWord x) (hiWord x) = x := by
  unfold pairWord loWord hiWord
  refine BitVec.eq_of_toNat_eq ?_
  simp only [BitVec.toNat_ofNat, BitVec.toNat_setWidth, Nat.shiftRight_eq_div_pow]
  have := x.isLt
  omega

theorem getReg64_setReg64 {s : State} (hr : Regs.wf s.regs = true) (lo : Nat) (x : BitVec 64) : (s.setReg64 lo x).getReg64 lo = x := by
  unfold getReg64 setReg64
  rw [getReg_setReg_other _ _ (by omega), getReg_setReg_self hr, getReg_setReg_self (setReg_wf hr _ _), pairWord_lo_hi]

theorem getReg_setReg64_other (s : State) {lo a : Nat} (x : BitVec 64) (h1 : a ≠ lo) (h2 : a ≠ lo + 4) : (s.setReg64 lo x).getReg a = s.getReg a := by
  unfold setReg64
  rw [getReg_setReg_other _ _ h2, getReg_setReg_other _ _ h1]

/-- What stands in the registers of a voice after its parameters are written (R249). -/
theorem setNco_regs (hr : Regs.wf u.regs = true) (n v : Nat) (x : Nco) :
    ((u.setNco n v x).getReg64 (Reg.voiceFreqLo n v)).truncate 48 = BitVec.ofNat 48 x.f ∧
      (u.setNco n v x).getReg (Reg.voicePhase n v) = x.frame ∧
      (u.setNco n v x).regFld (Reg.voiceAmp n v) 15 0 = x.amp.toNat := by
  unfold setNco
  generalize hm : u.modVoice n v _ = m
  have hr : Regs.wf m.regs = true := hm ▸ hr
  have hr' : Regs.wf (m.setReg64 (Reg.voiceFreqLo n v) (BitVec.ofNat 64 x.f)).regs = true := setReg_wf (setReg_wf hr _ _) _ _
  refine ⟨?_, ?_, ?_⟩
  · have far : ∀ a, a = Reg.voiceFreqLo n v ∨ a = Reg.voiceFreqLo n v + 4 → a ≠ Reg.voicePhase n v ∧ a ≠ Reg.voiceAmp n v := by
      simp only [Reg.voiceFreqLo, Reg.voicePhase, Reg.voiceAmp]
      omega
    have kept : (((m.setReg64 (Reg.voiceFreqLo n v) (BitVec.ofNat 64 x.f)).setReg (Reg.voicePhase n v) x.frame).setReg (Reg.voiceAmp n v)
        (x.amp.zeroExtend 32)).getReg64 (Reg.voiceFreqLo n v) = (m.setReg64 (Reg.voiceFreqLo n v) (BitVec.ofNat 64 x.f)).getReg64
          (Reg.voiceFreqLo n v) := by
      unfold getReg64
      rw [getReg_setReg_other _ _ (far _ (.inl rfl)).2, getReg_setReg_other _ _ (far _ (.inl rfl)).1,
        getReg_setReg_other _ _ (far _ (.inr rfl)).2, getReg_setReg_other _ _ (far _ (.inr rfl)).1]
    rw [kept, getReg64_setReg64 hr]
    exact BitVec.eq_of_toNat_eq (by simp only [BitVec.truncate_eq_setWidth, BitVec.toNat_setWidth, BitVec.toNat_ofNat]; omega)
  · rw [getReg_setReg_other _ _ (by simp only [Reg.voicePhase, Reg.voiceAmp]; omega), getReg_setReg_self hr']
  · unfold regFld
    rw [getReg_setReg_self (setReg_wf hr' _ _)]
    have := x.amp.isLt
    simp only [fld, BitVec.truncate_eq_setWidth, BitVec.toNat_setWidth, Nat.shiftRight_zero]
    omega

/-- The registers of a voice at the pins hold its parameters there, whether or not a change has come (R210, R249). -/
theorem voicePins_params (hr : Regs.wf u.regs = true) (n v : Nat) :
    ((u.voicePins n v).getReg64 (Reg.voiceFreqLo n v)).truncate 48 = BitVec.ofNat 48 (u.ncoAt n v u.beat).f ∧
      (u.voicePins n v).getReg (Reg.voicePhase n v) = (u.ncoAt n v u.beat).frame ∧
      (u.voicePins n v).regFld (Reg.voiceAmp n v) 15 0 = (u.ncoAt n v u.beat).amp.toNat := by
  unfold voicePins
  split
  · exact setNco_regs hr n v _
  · rename_i none_due
    have still : u.ncoAt n v u.beat = u.ncoReg n v := by
      unfold ncoAt
      rw [List.filter_eq_nil_iff.mpr (by simpa using none_due)]
      rfl
    rw [still]
    unfold ncoReg
    refine ⟨?_, rfl, ?_⟩
    · exact BitVec.eq_of_toNat_eq (by simp)
    · rw [BitVec.toNat_ofNat]
      exact (Nat.mod_eq_of_lt (fld_lt _ 15 0)).symm

/-- The changes for a pin beat that are left when `o` joins, without `o` (R130). -/
def ncoOther (u : State) (n v : Nat) (o : PinOp) : Nco :=
  (((u.voice n v).pins.filter fun e => decide (e.at_ ≤ o.at_)).filter fun e => !(e.at_ == o.at_ && sameSet e.kind o.kind)).foldl ncoStep
    (u.ncoReg n v)

theorem ncoAt_addPin {t : State} {o : PinOp} (hp : (t.voice n v).pins = addPin o (u.voice n v).pins) (hr : t.ncoReg n v = u.ncoReg n v) :
    t.ncoAt n v o.at_ = ncoStep (u.ncoOther n v o) o := by
  unfold ncoAt ncoOther
  rw [hp, hr, addPin, List.filter_append, List.filter_cons_of_pos (by simp), List.filter_nil, List.foldl_append, List.filter_filter,
    List.filter_filter]
  simp only [Bool.and_comm, List.foldl_cons, List.foldl_nil]

/-- What `o` replaces sets the quantity of `o` and nothing else (R130). -/
theorem ncoOther_keeps (u : State) (n v : Nat) (o : PinOp) :
    ((∀ f, o.kind ≠ .frq f) → (u.ncoOther n v o).f = (u.ncoAt n v o.at_).f) ∧
    ((∀ p, o.kind ≠ .phset p) → (u.ncoOther n v o).frame = (u.ncoAt n v o.at_).frame) ∧
    ((∀ a, o.kind ≠ .amp a) → (u.ncoOther n v o).amp = (u.ncoAt n v o.at_).amp) := by
  have replaced : ∀ e : PinOp, (!(e.at_ == o.at_ && sameSet e.kind o.kind)) = false → sameSet e.kind o.kind = true := by simp
  refine ⟨fun h => ?_, fun h => ?_, fun h => ?_⟩
  · refine foldl_filter_keeps (π := Nco.f) ncoStep_f_own (fun x e he => (ncoStep_keeps x e).1 fun f hf => ?_) _ rfl
    have same := replaced e he
    rw [hf] at same
    cases hk : o.kind <;> simp_all [sameSet]
  · refine foldl_filter_keeps (π := Nco.frame) ncoStep_frame_own (fun x e he => (ncoStep_keeps x e).2.1 (fun d hd => ?_) fun p hp => ?_) _ rfl
    · have same := replaced e he
      rw [hd] at same
      cases hk : o.kind <;> simp_all [sameSet]
    · have same := replaced e he
      rw [hp] at same
      cases hk : o.kind <;> simp_all [sameSet]
  · refine foldl_filter_keeps (π := Nco.amp) ncoStep_amp_own (fun x e he => (ncoStep_keeps x e).2.2 fun a ha => ?_) _ rfl
    have same := replaced e he
    rw [ha] at same
    cases hk : o.kind <;> simp_all [sameSet]

end State

/-! ### The parameters of a voice at pin beat A + 26 -/

section
variable {g : State} {n v : Nat}

/-- The state at a pin beat, the changes that have come in its registers. -/
def State.pinned (u : State) (P n v : Nat) : State := ({ u with beat := P } : State).voicePins n v

/-- The registers of a voice at pin beat A + 26 when a change for it is sent in beat A (R130, R210). -/
theorem State.sendPin_pinned (hg : g.Inv) (hn : n < 12) (hv : v < 32) (k : PinKind) :
    let t := (g.sendPin n v k).pinned (g.beat + 26) n v
    let o : PinOp := { at_ := g.beat + 26, kind := k }
    let x := ncoStep (g.ncoOther n v o) o
    (t.getReg64 (Reg.voiceFreqLo n v)).truncate 48 = BitVec.ofNat 48 x.f ∧ t.getReg (Reg.voicePhase n v) = x.frame ∧
      t.regFld (Reg.voiceAmp n v) 15 0 = x.amp.toNat := by
  intro t o x
  have sent : ((g.sendPin n v k).voice n v) = { g.voice n v with pins := addPin o (g.voice n v).pins } :=
    voice_modVoice_self hg.rings_length hn (by rw [(hg.ring_sized hn).1]; exact hv) _
  have at_ : ({ g.sendPin n v k with beat := g.beat + 26 } : State).ncoAt n v (g.beat + 26) = x := by
    refine ncoAt_addPin (o := o) (congrArg Voice.pins sent) ?_
    show (g.sendPin n v k).ncoReg n v = _
    unfold ncoReg
    rw [sent]
    rfl
  rw [← at_]
  exact voicePins_params (u := { g.sendPin n v k with beat := g.beat + 26 }) hg.regs_wf n v

theorem State.pinned_params (hg : g.Inv) (P : Nat) :
    ((g.pinned P n v).getReg64 (Reg.voiceFreqLo n v)).truncate 48 = BitVec.ofNat 48 (g.ncoAt n v P).f ∧
      (g.pinned P n v).getReg (Reg.voicePhase n v) = (g.ncoAt n v P).frame ∧
      (g.pinned P n v).regFld (Reg.voiceAmp n v) 15 0 = (g.ncoAt n v P).amp.toNat :=
  voicePins_params (u := { g with beat := P }) hg.regs_wf n v

/-- A change sent to a voice in beat A sets its quantity at pin beat A + 26, and leaves the others as they come (R130, R210). -/
theorem State.sendPin_params (hg : g.Inv) (hn : n < 12) (hv : v < 32) (k : PinKind) :
    let t := (g.sendPin n v k).pinned (g.beat + 26) n v
    let u := g.pinned (g.beat + 26) n v
    (t.getReg64 (Reg.voiceFreqLo n v)).truncate 48 =
      (match k with | .frq f => f | _ => (u.getReg64 (Reg.voiceFreqLo n v)).truncate 48) ∧
    t.getReg (Reg.voicePhase n v) =
      (match k with | .phs d => u.getReg (Reg.voicePhase n v) + d | .phset p => p | _ => u.getReg (Reg.voicePhase n v)) ∧
    t.regFld (Reg.voiceAmp n v) 15 0 = (match k with | .amp a => a.toNat | _ => u.regFld (Reg.voiceAmp n v) 15 0) := by
  intro t u
  obtain ⟨hf, hp, hs⟩ := sendPin_pinned hg hn hv k
  obtain ⟨gf, gp, gs⟩ := pinned_params (n := n) (v := v) hg (g.beat + 26)
  obtain ⟨kf, kp, ks⟩ := g.ncoOther_keeps n v { at_ := g.beat + 26, kind := k }
  obtain ⟨cf, cp, cs⟩ := ncoStep_keeps (g.ncoOther n v { at_ := g.beat + 26, kind := k }) { at_ := g.beat + 26, kind := k }
  obtain ⟨sf, sd, sp, sa⟩ := ncoStep_sets (g.ncoOther n v { at_ := g.beat + 26, kind := k }) (g.beat + 26)
  rw [hf, hp, hs, gf, gp, gs]
  cases k with
  | frq f =>
    rw [sf, cp (by simp) (by simp), cs (by simp), kp (by simp), ks (by simp)]
    exact ⟨by simp, rfl, rfl⟩
  | phs d => exact ⟨by rw [cf (by simp), kf (by simp)], by rw [sd, kp (by simp)], by rw [cs (by simp), ks (by simp)]⟩
  | phset p => exact ⟨by rw [cf (by simp), kf (by simp)], sp p, by rw [cs (by simp), ks (by simp)]⟩
  | amp a =>
    rw [cf (by simp), kf (by simp), cp (by simp) (by simp), kp (by simp), sa]
    exact ⟨rfl, rfl, rfl⟩
  | zero =>
    rw [cf (by simp), kf (by simp), cp (by simp) (by simp), kp (by simp), cs (by simp), ks (by simp)]
    exact ⟨rfl, rfl, rfl⟩

end

/-! ### The actions -/

section
variable {s g : State} {n : RingId} {w : BitVec 64}

theorem exec_play (h : s.ActsNow n w g) (ho : zOp w = 0x20) : exec (.play n) s = .next (g.actPlay n w) :=
  h.yields ho (by simp only [State.actOne, ho])

theorem exec_plays (h : s.ActsNow n w g) (ho : zOp w = 0x21) : exec (.plays n) s = .next (g.actPlays n w) :=
  h.yields ho (by simp only [State.actOne, ho])

theorem exec_stop (h : s.ActsNow n w g) (ho : zOp w = 0x22) : exec (.stop n) s = .next (g.actStop n w) :=
  h.yields ho (by simp only [State.actOne, ho])

/-- The operand of a parameter change in 32 bits (R154, R155). -/
def State.chgWord (g : State) (n : Nat) (w : BitVec 64) : Word :=
  if bit w 33 then g.getReg (Reg.seqG n (fld w 3 0)) else BitVec.ofNat 32 (fld w 31 0)

/-- The frequency word of FRQ (R154). -/
def State.chgFreq (g : State) (n : Nat) (w : BitVec 64) : BitVec 48 :=
  if bit w 32 then BitVec.ofNat 48 ((g.getReg (Reg.seqG n (fld w 3 0))).toNat +
    2 ^ 32 * ((g.getReg (Reg.seqG n ((fld w 3 0 + 1) % 16))).toNat % 2 ^ 16))
  else BitVec.ofNat 48 ((g.chgWord n w).toNat * 2 ^ 16)

/-- The amplitude of AMP (R156). -/
def State.chgAmp (g : State) (n : Nat) (w : BitVec 64) : BitVec 16 :=
  if bit w 34 then (g.getReg (Reg.seqG n (fld w 3 0))).truncate 16 else BitVec.ofNat 16 (fld w 15 0)

/-- The state in which a parameter change has been sent to its voice or lane (R210, R277). -/
def State.sendChange (g : State) (n : Nat) (w : BitVec 64) (k : PinKind) : State :=
  if bit w 39 then g.sendLanePin n (fld w 38 34) k else g.sendPin n (fld w 38 34) k

theorem exec_frq (h : s.ActsNow n w g) (ho : zOp w = 0x23) : exec (.frq n) s = .next (g.sendChange n w (.frq (g.chgFreq n w))) := by
  refine h.yields ho ?_
  simp only [State.actOne, ho]
  have imm : (BitVec.ofNat 32 (fld w 31 0)).toNat = fld w 31 0 := by
    rw [BitVec.toNat_ofNat, Nat.mod_eq_of_lt (fld_lt w 31 0)]
  have word : (g.chgWord n w).toNat = if bit w 33 then (g.gReg n (fld w 3 0)).toNat else fld w 31 0 := by
    unfold State.chgWord State.gReg
    split
    · rfl
    · exact imm
  have vals : g.zVals n w = (g.gReg n (fld w 3 0), g.gReg n ((fld w 3 0 + 1) % 16)) := by
    unfold State.zVals
    rw [if_neg (by rw [ho]; decide)]
  rw [vals]
  unfold State.actFrq State.sendChange State.chgFreq
  rw [word]
  rfl

theorem exec_phs (h : s.ActsNow n w g) (ho : zOp w = 0x24) : exec (.phs n) s = .next (g.sendChange n w (.phs (g.chgWord n w))) :=
  h.yields ho (by simp only [State.actOne, State.zVals, ho, State.gReg, show (0x24 : Nat) ≠ 0x2D by decide, if_false]; rfl)

theorem exec_phset (h : s.ActsNow n w g) (ho : zOp w = 0x25) : exec (.phset n) s = .next (g.sendChange n w (.phset (g.chgWord n w))) :=
  h.yields ho (by simp only [State.actOne, State.zVals, ho, State.gReg, show (0x25 : Nat) ≠ 0x2D by decide, if_false]; rfl)

theorem exec_amp (h : s.ActsNow n w g) (ho : zOp w = 0x26) : exec (.amp n) s = .next (g.sendPin n (fld w 39 35) (.amp (g.chgAmp n w))) :=
  h.yields ho (by simp only [State.actOne, State.zVals, ho, State.gReg, show (0x26 : Nat) ≠ 0x2D by decide, if_false]; rfl)

/-- PLAY takes the descriptor that a CASE has fetched, if any (R148, R151). -/
theorem State.actPlay_eq (g : State) (n : Nat) (w : BitVec 64) :
    g.actPlay n w = (g.modSeq n fun q => { q with got := none }).modVoice n (fld w 39 35) fun x => { x with
      reqs := x.reqs ++ [{ act := g.beat, kind := .play (fld w 34 23) (fld w 22 20) (bit w 19), got := (g.seq n).got }] } := by
  unfold actPlay
  cases hg : (g.seq n).got with
  | some d => rfl
  | none =>
    have same : (g.modSeq n fun q => { q with got := none }) = g := by
      refine .trans (modSeq_congr ?_) (modSeq_same g n)
      show ({ g.seq n with got := none } : Seq) = g.seq n
      rw [← hg]
    rw [same]
    rfl

/-- STOP reaches every voice in its beat (R153). -/
theorem State.stopAll_eq (k : VKind) (b : Nat) (l : List Nat) : ∀ g : State, g.beat = b →
    l.foldl (fun s v => s.sendReq n v k) g =
      l.foldl (fun u v => u.modVoice n v fun x => { x with reqs := x.reqs ++ [{ act := b, kind := k }] }) g := by
  induction l with
  | nil => exact fun _ _ => rfl
  | cons v t ih =>
    intro g hb
    subst hb
    exact ih _ rfl

/-! ### Settling O13 -/

/-- PLAY, PLAYS and STOP send their requests. -/
theorem requests_sent (h : s.ActsNow n w g) :
    let send := fun (u : State) (v : Nat) (k : VKind) =>
      u.modVoice n v fun x => { x with reqs := x.reqs ++ [{ act := s.beat, kind := k }] }
    let kind := if bit w 33 then VKind.ramp else .stop
    (zOp w = 0x20 → exec (.play n) s = .next ((g.modSeq n fun q => { q with got := none }).modVoice n (fld w 39 35) fun x => { x with
      reqs := x.reqs ++ [{ act := s.beat, kind := .play (fld w 34 23) (fld w 22 20) (bit w 19), got := (g.seq n).got }] })) ∧
    (zOp w = 0x21 →
      let j := fld w 34 33
      let len := fld w 32 17
      let code := fld w 13 11
      let units := (len * 8 + 2 ^ code * 1024 - 1) / (2 ^ code * 1024)
      let take := Reg.strmTakeptr n j
      (g.regBit (Reg.strmCfg n j) 16 = true → exec (.plays n) s = .next (send (g.setReg take (g.getReg take + BitVec.ofNat 32 units))
        (fld w 39 35) (.plays j len (fld w 16 14) code (g.getReg take) units false))) ∧
      (g.regBit (Reg.strmCfg n j) 16 = false → exec (.plays n) s = .next (send g (fld w 39 35) (.plays j len (fld w 16 14) code 0 0 true)))) ∧
    (zOp w = 0x22 →
      (bit w 34 = false → exec (.stop n) s = .next (send g (fld w 39 35) kind)) ∧
      (bit w 34 = true → exec (.stop n) s = .next ((List.range 32).foldl (fun u v => send u v kind) g))) := by
  rw [← h.beat_any]
  intro send kind
  refine ⟨fun ho => ?play, fun ho => ?plays, fun ho => ?stop⟩
  case play => rw [exec_play h ho, State.actPlay_eq]
  case plays =>
    refine ⟨fun on => ?_, fun off => ?_⟩
    · rw [exec_plays h ho]
      simp only [State.actPlays, State.strmEn, on]
      rfl
    · rw [exec_plays h ho]
      simp only [State.actPlays, State.strmEn, off]
      rfl
  case stop =>
    refine ⟨fun one => ?_, fun all => ?_⟩
    · rw [exec_stop h ho]
      unfold State.actStop
      rw [one]
      rfl
    · rw [exec_stop h ho]
      unfold State.actStop
      rw [all]
      exact congrArg _ (State.stopAll_eq kind g.beat _ g rfl)

/-- The parameter changes reach the pins of their voice or lane. -/
theorem changes_sent (h : s.ActsNow n w g) (k : PinKind) :
    g.sendChange n w k =
      if bit w 39 then g.modLane n (fld w 38 34) fun x => { x with pins := State.addPin { at_ := s.beat + 6, kind := k } x.pins }
      else g.modVoice n (fld w 38 34) fun x => { x with pins := State.addPin { at_ := s.beat + 26, kind := k } x.pins } := by
  rw [← h.beat_any]
  rfl

end

/-- Settles O13: each action sends what its lemma says, and at the pins a change meets those that set other quantities. -/
theorem voiceAndParameterActions : Obligations.VoiceAndParameterActions := by
  unfold Obligations.VoiceAndParameterActions
  refine ⟨fun s g n w h => requests_sent h, fun s g n w h => ?changes, fun s g n w hi h => ?pins⟩
  case changes =>
    intro reg chg v
    exact ⟨fun ho => (exec_frq h ho).trans (congrArg _ (changes_sent h _)), fun ho => (exec_phs h ho).trans (congrArg _ (changes_sent h _)),
      fun ho => (exec_phset h ho).trans (congrArg _ (changes_sent h _)),
      fun ho => (exec_amp h ho).trans (congrArg _ (by rw [State.sendPin, h.beat_any]; rfl))⟩
  case pins =>
    intro reg val word pinned freq frame amp v a
    have hg := h.inv hi
    have hb := h.beat hi
    have hv : v < 32 := fld_lt w 38 34
    have ha : a < 32 := fld_lt w 39 35
    have pin : bit w 39 = false → ∀ k, g.sendChange n w k = g.sendPin n v k := fun hz k => by
      rw [State.sendChange, hz]
      rfl
    have sent := fun (x : Nat) (hx : x < 32) (k : PinKind) => State.sendPin_params hg n.isLt hx k
    rw [hb] at sent
    refine ⟨fun hz => ⟨fun ho => ⟨_, exec_frq h ho, ?_⟩, fun ho => ⟨_, exec_phs h ho, ?_⟩, fun ho => ⟨_, exec_phset h ho, ?_⟩⟩,
      fun ho => ⟨_, exec_amp h ho, ?amp⟩⟩
    · exact pin hz _ ▸ sent v hv (.frq (g.chgFreq n w))
    · exact pin hz _ ▸ sent v hv (.phs (g.chgWord n w))
    · exact pin hz _ ▸ sent v hv (.phset (g.chgWord n w))
    case amp =>
      obtain ⟨hf, hp, hs⟩ := sent a ha (.amp (g.chgAmp n w))
      refine ⟨hf, hp, hs.trans ?_⟩
      show (g.chgAmp n w).toNat = _
      unfold State.chgAmp
      cases bit w 34 with
      | true => exact BitVec.toNat_setWidth ..
      | false => exact (BitVec.toNat_ofNat ..).trans (Nat.mod_eq_of_lt (fld_lt w 15 0))

end Sys2Proof.Machine
end

section
/-! PROOF. BIAS, MARK and TSET (R130, R159, R160, R252, R260, R398). -/

namespace Sys2Proof.Machine

section
variable {s g : State} {n : RingId} {w : BitVec 64}

theorem exec_mark (h : s.ActsNow n w g) (ho : zOp w = 0x2A) :
    exec (.mark n) s = .next (g.markAt (fld w 39 36) (fld w 35 33) (fld w 32 31) g.beat) :=
  h.yields ho (by simp only [State.actOne, ho]; rfl)

theorem exec_tset (h : s.ActsNow n w g) (ho : zOp w = 0x2B) :
    exec (.tset n) s = .next (g.actTset w (g.getReg (Reg.seqG n (fld w 3 0)))) :=
  h.yields ho (by simp only [State.actOne, State.zVals, ho, State.gReg, show (0x2B : Nat) ≠ 0x2D by decide, if_false])

/-- The code of a BIAS (R159). -/
def State.biasValue (g : State) (n : Nat) (w : BitVec 64) : Int :=
  biasCode (if bit w 37 then g.getReg (Reg.seqG n (fld w 3 0)) else BitVec.ofNat 32 (fld w 19 0))

theorem exec_bias (h : s.ActsNow n w g) (ho : zOp w = 0x29) :
    exec (.bias n) s = .next (((g.dropBias n (fld w 39 38)).biasEntry n (fld w 39 38) (g.biasValue n w)).modBias n (fld w 39 38)
      fun o => { o with acted := if g.clrForce then none else some (g.beat, g.biasValue n w) }) :=
  h.yields ho (by simp only [State.actOne, State.zVals, ho, State.gReg, show (0x29 : Nat) ≠ 0x2D by decide, if_false]; rfl)

end

namespace State

variable {g : State} {n b : Nat}

theorem clrForce_iff (g : State) : g.clrForce = true ↔ g.rst.clrN = true ∨ g.rst.clrShut = true := by
  simp [clrForce]

/-- No BIAS of the output has acted in this beat (R130). -/
theorem dropBias_none (h : ∀ e, (g.biasOut n b).acted = some e → e.1 ≠ g.beat) : g.dropBias n b = g := by
  unfold dropBias
  cases ha : (g.biasOut n b).acted with
  | none => rfl
  | some e => exact if_neg (h e ha)

/-- An output whose queue holds something is there, and an update reaches it. -/
theorem biasOut_modBias_queued (h : (g.biasOut n b).queue ≠ []) (f : BiasOut → BiasOut) : (g.modBias n b f).biasOut n b = f (g.biasOut n b) := by
  have hn : n < g.rings.length := by
    by_contra hn
    have none_ : g.ring n = {} := List.getD_eq_default _ _ (by omega)
    refine h ?_
    rw [biasOut, none_, show ({} : Ring).bias = List.replicate 4 {} from rfl, List.getD_eq_getElem?_getD, List.getElem?_replicate]
    split <;> rfl
  have hb : b < (g.ring n).bias.length := by
    by_contra hb
    exact h (congrArg BiasOut.queue (List.getD_eq_default _ _ (by omega)))
  unfold biasOut modBias
  rw [ring_modRing, if_pos ⟨rfl, hn⟩]
  exact getD_modify_self hb

theorem modBias_congr {f f' : BiasOut → BiasOut} (h : f (g.biasOut n b) = f' (g.biasOut n b)) : g.modBias n b f = g.modBias n b f' :=
  modRing_congr (congrArg (fun x => { g.ring n with bias := x }) (modify_congr h))

theorem modBias_modBias (g : State) (n b : Nat) (f f' : BiasOut → BiasOut) :
    (g.modBias n b f).modBias n b f' = g.modBias n b fun o => f' (f o) := by
  unfold modBias modRing
  congr 1
  rw [List.modify_modify_eq]
  congr 1
  funext r
  exact congrArg (fun x => { r with bias := x }) (List.modify_modify_eq ..)

theorem erase_newest {α : Type} [BEq α] [LawfulBEq α] {e : α} {q r : List α} (hr : e ∉ r) : ((q ++ e :: r).reverse.erase e).reverse = q ++ r := by
  rw [List.reverse_append, List.reverse_cons, List.append_assoc, List.erase_append_right _ (by simpa using hr)]
  simp

/-- The entry of an earlier BIAS of this beat leaves the queue, the entries before and after it stay (R130, R252). -/
theorem dropBias_some {e : Nat × Int} {q r : List (Nat × Int)} (ha : (g.biasOut n b).acted = some e) (hb : e.1 = g.beat)
    (hq : (g.biasOut n b).queue = q ++ e :: r) (hr : e ∉ r) : g.dropBias n b = g.modBias n b fun o => { o with queue := q ++ r } := by
  unfold dropBias
  simp only [ha, hb, if_true]
  refine modBias_congr ?_
  rw [hq, erase_newest hr]

/-- An entry that reaches a queue with CLR_N not in force (R252). -/
theorem biasEntry_room (hc : g.clrForce = false) (hq : (g.biasOut n b).queue.length < 8) (code : Int) :
    g.biasEntry n b code = g.modBias n b fun o => { o with queue := o.queue ++ [(g.beat, code)] } := by
  unfold biasEntry
  simp only [hc, Bool.false_eq_true, if_false, Nat.not_le.mpr hq]
  rfl

theorem biasEntry_full (hc : g.clrForce = false) (hq : 8 ≤ (g.biasOut n b).queue.length) (code : Int) :
    g.biasEntry n b code = (g.modBias n b fun o => { o with queue := o.queue.dropLast ++ [(g.beat, code)] }).raiseFlag
      (Reg.biasFlags n b) 1 := by
  unfold biasEntry
  simp only [hc, Bool.false_eq_true, if_false, hq, if_true]
  rfl

end State

/-- Settles O15: what BIAS does to the queue, by whether an earlier one of the beat stands in it, and the edges and settings of MARK and
TSET. -/
theorem biasAndMarkerActions : Obligations.BiasAndMarkerActions := by
  unfold Obligations.BiasAndMarkerActions
  intro s g n w h
  rw [← h.beat_any]
  intro reg
  refine ⟨?bias, ?mark, ?tset⟩
  case bias =>
    intro ho b code o clr put noted
    have acts := exec_bias h ho
    have free : ¬ clr → g.clrForce = false := fun hc => by
      cases hf : g.clrForce with
      | false => rfl
      | true => exact absurd (g.clrForce_iff.mp hf) hc
    refine ⟨fun none_ => ⟨fun hc hl => ?room, fun hc hl => ?full, fun hc => ?clear⟩, fun c q r hc ha hq hr hl => ?again⟩
    case room =>
      rw [acts, State.dropBias_none none_, State.biasEntry_room (free hc) hl, free hc]
      exact congrArg (fun u => Host.Outcome.next (noted u (some (g.beat, code)))) (State.modBias_congr rfl)
    case full =>
      rw [acts, State.dropBias_none none_, State.biasEntry_full (free hc) hl, free hc]
      exact congrArg (fun u : State => Host.Outcome.next (noted (u.raiseFlag (Reg.biasFlags n b) 1) (some (g.beat, code))))
        (State.modBias_congr rfl)
    case clear =>
      rw [acts, State.dropBias_none none_, State.biasEntry, g.clrForce_iff.mpr hc]
      rfl
    case again =>
      have dropped := State.dropBias_some ha rfl hq hr
      have left_ : (g.dropBias n b).biasOut n b = { g.biasOut n b with queue := q ++ r } := by
        rw [dropped]
        exact State.biasOut_modBias_queued (by rw [hq]; simp) _
      have entered := State.biasEntry_room (g := g.dropBias n b) (n := n) (b := b) (by rw [dropped]; exact free hc) (by rw [left_]; exact hl) code
      rw [acts, free hc]
      refine congrArg (fun u => Host.Outcome.next (noted u (some (g.beat, code)))) (entered.trans ?_)
      rw [dropped, State.modBias_modBias]
      rfl
  case mark =>
    intro ho m t edge
    rw [exec_mark h ho]
    unfold State.markAt
    refine ⟨fun h0 => ?_, fun h1 => ?_, fun h2 => ?_⟩
    · rw [if_pos h0]
      rfl
    · rw [if_neg (by omega), if_pos h1]
      rfl
    · rw [if_neg (by omega), if_neg (by omega)]
      rfl
  case tset =>
    intro ho v
    rw [exec_tset h ho]
    unfold State.actTset
    exact ⟨fun h0 => by rw [if_pos h0], fun h1 => by rw [if_neg (by omega)]⟩

end Sys2Proof.Machine
end

section
/-! PROOF. Requests that reach their voice, segment boundaries, stream units and STOP ramps (R72, R75, R148, R151-R153, R201-R205, R209,
R220-R223). -/

namespace Sys2Proof.Machine

namespace State

/-! ### Updates of one voice -/

theorem modVoice_congr {s : State} {n v : Nat} {f f' : Voice → Voice} (h : f (s.voice n v) = f' (s.voice n v)) :
    s.modVoice n v f = s.modVoice n v f' := modRing_congr (congrArg (fun x => { s.ring n with voices := x }) (modify_congr h))

theorem modVoice_modVoice (s : State) (n v : Nat) (f f' : Voice → Voice) :
    (s.modVoice n v f).modVoice n v f' = s.modVoice n v fun x => f' (f x) := by
  unfold modVoice modRing
  congr 1
  rw [List.modify_modify_eq]
  congr 1
  funext r
  exact congrArg (fun x => { r with voices := x }) (List.modify_modify_eq ..)

theorem Inv.voice_modVoice {s : State} (h : s.Inv) (n : RingId) (v : Fin 32) (f : Voice → Voice) :
    (s.modVoice n v f).voice n v = f (s.voice n v) :=
  voice_modVoice_self h.rings_length n.isLt (by rw [(h.ring_sized n.isLt).1]; exact v.isLt) f

section
variable {u : State} {n : RingId} {v : Fin 32} {r : VReq}

/-- The descriptor of sound words is read with no more effect (R440). -/
theorem descTouch_sound (hb : u.memu.borrow = none) {n d : Nat} (h : u.damageIn (ringMem n + 0x400000 + 16 * d) 16 = []) :
    u.descTouch n d = u := rtRead_sound hb h

/-! ### A request that reaches its voice -/

theorem toList_min? (o : Option Nat) : o.toList.min? = o := by
  cases o <;> rfl

theorem voidJump_none (hj : (u.voice n v).jump = none) : u.voidJump n v = u := by
  unfold voidJump
  rw [hj]

theorem settleJump_none (hj : (u.voice n v).jump = none) : u.settleJump n v = u := by
  unfold settleJump waitingJump
  rw [hj]
  simp

/-- Where nothing plays, the pending request starts at its pin beat (R201). -/
theorem settleJump_free (hj : (u.voice n v).jump = some r) (ha : (u.voice n v).jumpAt = none) (hs : (u.voice n v).segs = []) :
    u.settleJump n v = u.startReq n v r r.pin none false := by
  unfold settleJump waitingJump
  simp [hj, ha, hs]

/-- A pending request waits while the choice at the boundary is to be made (R201). -/
theorem settleJump_waits (ha : (u.voice n v).jumpAt = none) {g : Seg} (hs : (u.voice n v).segs = [g]) (hc : g.chosen = false) :
    u.settleJump n v = u := by
  unfold settleJump waitingJump
  cases hj : (u.voice n v).jump <;> simp [ha, hs, hc]

/-- A request that meets a segment whose boundary is open is pending at its voice (R201). -/
theorem offerReq_waits (h : u.Inv) (hj : (u.voice n v).jump = none) (ha : (u.voice n v).jumpAt = none) {g : Seg}
    (hs : (u.voice n v).segs = [g]) (hc : g.chosen = false) (hr : (u.seq n).st ≠ .halted) :
    u.offerReq n v r = u.modVoice n v fun x => { x with jump := some r } := by
  unfold offerReq
  rw [if_neg fun e => hr e.1, voidJump_none hj]
  exact settleJump_waits (by rw [h.voice_modVoice]; exact ha) (by rw [h.voice_modVoice]; exact hs) hc

/-- A request that finds its voice free starts at its pin beat (R201). -/
theorem offerReq_free (h : u.Inv) (hj : (u.voice n v).jump = none) (ha : (u.voice n v).jumpAt = none) (hs : (u.voice n v).segs = []) :
    u.offerReq n v r = (u.modVoice n v fun x => { x with jump := some r }).startReq n v r r.pin none false := by
  unfold offerReq
  rw [hs, if_neg (by simp), voidJump_none hj]
  exact settleJump_free (by rw [h.voice_modVoice]) (by rw [h.voice_modVoice]; exact ha) (by rw [h.voice_modVoice]; exact hs)

/-- Nothing was chosen ahead that a STOP or a halt takes back (R153). -/
theorem endFollowers_none (h : ∀ g ∈ (u.voice n v).segs, ¬ (u.beat ≤ g.start ∧ (g.origin = .rep ∨ g.origin = .chain))) :
    u.endFollowers n v = u := by
  have hf : ((u.voice n v).segs.find? fun g => decide (u.beat ≤ g.start) && (g.origin == .rep || g.origin == .chain)) = none := by
    rw [List.find?_eq_none]
    intro g hg
    simpa using h g hg
  unfold endFollowers
  rw [hf]

end

/-- The state in which the request has left the queue of its voice. -/
def taken (s : State) (n v : Nat) : State := s.modVoice n v fun x => { x with reqs := [] }

/-- The one request whose beat has come reaches its voice (R220). -/
theorem exec_reach_one {s : State} {n : RingId} {v : Fin 32} {r : VReq} (hr : (s.voice n v).reqs = [r]) (hd : r.act + 4 ≤ s.beat) :
    exec (.requestReachesVoice n v) s = .next ((s.taken n v).reachVoice n v r) := by
  have due : [r].filter (fun r => decide (r.act + 4 ≤ s.beat)) = [r] := by simp [hd]
  have one : s.reaching n v = [r] := by
    unfold reaching
    simp only [hr, due]
    simp
  have none_ : s.outdone n v = [] := by
    unfold outdone
    simp only [hr, due]
    simp
  show execRequestReachesVoice n v s = _
  unfold execRequestReachesVoice
  simp only [one, none_, List.foldl_nil, List.foldl_cons]
  refine congrArg (fun u : State => Host.Outcome.next (u.reachVoice n v r)) (modVoice_congr ?_)
  simp [hr, hd]

/-- The segment that a PLAY of descriptor `w` starts at pin beat `P` (R151, R218, R223). -/
def playSeg (d : Nat) (w : Desc) (P off : Nat) (o : Origin) : Seg := {
  desc := d, w0 := w.w0, w1 := w.w1, w2 := w.w2, w3 := w.w3, start := P, bnd := P + fld w.w1 31 16, off := off
  repLeft := fld w.w2 31 16, origin := o, got := w.pairs }

/-- The segment that a PLAYS starts at pin beat `P` (R152). -/
def playsSeg (j len code : Nat) (first : BitVec 32) (units P off : Nat) (o : Origin) : Seg := {
  w1 := BitVec.ofNat 32 (len * 2 ^ 16 + code * 2 ^ 13), start := P, bnd := P + len, off := off, origin := o
  stream := some j, first := first, units := units }

section
variable {u : State} {n v P : Nat} {r : VReq} {off : Option Nat} {waits : Bool}

/-- What a start notes of the request: pending until pin beat `P`, or no more (R201, R249). -/
def startNote (r : VReq) (P : Nat) (waits : Bool) (x : Voice) : Voice :=
  { x with jump := if waits then some r else none, jumpAt := if waits then some P else none }

theorem startReq_play {d own : Nat} {pf : Bool} {w : Desc} (hk : r.kind = .play d own pf) (hg : r.got = some w) :
    u.startReq n v r P off waits = u.modVoice n v fun x => { startNote r P waits x with
      segs := x.segs ++ [playSeg d w P (off.getD own) (if off.isSome then .jump else .request)] } := by
  unfold startReq
  simp only [hk, hg, Option.getD_some]
  exact modVoice_modVoice ..

theorem startReq_plays {j len own code units : Nat} {first : BitVec 32} (hk : r.kind = .plays j len own code first units false) :
    u.startReq n v r P off waits = u.modVoice n v fun x => { startNote r P waits x with
      segs := x.segs ++ [playsSeg j len code first units P (off.getD own) (if off.isSome then .jump else .request)] } := by
  unfold startReq
  simp only [hk]
  exact modVoice_modVoice ..

theorem startReq_stop (hk : r.kind = .stop) : u.startReq n v r P off waits = u.modVoice n v (startNote r P waits) := by
  unfold startReq
  simp only [hk]
  rfl

end

/-! ### Settling O16 -/

section
variable {s : State} {n : RingId} {v : Fin 32} {r : VReq}

theorem Inv.voice_taken (h : s.Inv) : (s.taken n v).voice n v = { s.voice n v with reqs := [] } := h.voice_modVoice n v _

theorem taken_inv (h : s.Inv) : (s.taken n v).Inv := modVoice_inv n v _ h

/-- A request that starts on a free voice, seen from before it left the queue. -/
theorem started_eq (hj : (s.voice n v).jump = none) (ha : (s.voice n v).jumpAt = none) (hs : (s.voice n v).segs = []) (l : List Seg) :
    ((s.taken n v).modVoice n v fun x => { x with jump := some r }).modVoice n v
      (fun x => { startNote r P false x with segs := x.segs ++ l }) = s.modVoice n v fun x => { x with reqs := [], segs := l } := by
  rw [taken, modVoice_modVoice, modVoice_modVoice]
  refine modVoice_congr ?_
  simp only [startNote, Bool.false_eq_true, if_false, hs, List.nil_append, ← hj, ← ha]

/-- A PLAY that reaches a voice, by its descriptor (R148, R151, R201, R220). -/
theorem reach_play (hi : s.Inv) (hj : (s.voice n v).jump = none) (ha : (s.voice n v).jumpAt = none) (hb : s.memu.borrow = none)
    {d own : Nat} {pf : Bool} (hk : r.kind = .play d own pf) (hd : r.got = none → s.damageIn (ringMem n + 0x400000 + 16 * d) 16 = []) :
    let w := r.got.getD (s.readDesc n d)
    (w.cause = none → pf = false → (s.voice n v).segs = [] →
      (s.taken n v).reachVoice n v r = s.modVoice n v fun x => { x with reqs := [], segs := [playSeg d w (r.act + 26) own .request] }) ∧
    (w.cause = none → pf = false → ∀ h, (s.voice n v).segs = [h] → h.chosen = false → (s.seq n).st ≠ .halted →
      (s.taken n v).reachVoice n v r = s.modVoice n v fun x => { x with reqs := [], jump := some { r with got := some w } }) ∧
    (w.cause = none → pf = true → (s.taken n v).reachVoice n v r = s.modVoice n v fun x => { x with
      reqs := [], pre := x.pre ++ [(s.beat + 4, { w0 := w.w0, w1 := w.w1, w2 := w.w2, w3 := w.w3, off := own })] }) ∧
    (∀ c, w.cause = some c → (s.taken n v).reachVoice n v r = ((s.taken n v).raiseFlag (Reg.txFlags n (v.val / 8)) 2).setReg
      (Reg.txDescInfo n (v.val / 8)) (BitVec.ofNat 32 (c * 2 ^ 22 + v.val * 2 ^ 16 + d))) := by
  intro w
  have hu : (s.taken n v).Inv := modVoice_inv n v _ hi
  have hv := hi.voice_taken (n := n) (v := v)
  have read : (if r.got.isSome then s.taken n v else (s.taken n v).descTouch n d) = s.taken n v := by
    cases hg : r.got with
    | some x => rfl
    | none => exact descTouch_sound (u := s.taken n v) hb (hd hg)
  have reach : (s.taken n v).reachVoice n v r = match w.cause with
      | some c => (s.taken n v).descErr n v d c
      | none => if pf then (s.taken n v).fetchEnv n v w own 4 else (s.taken n v).offerReq n v { r with got := some w } := by
    unfold reachVoice
    simp only [hk, read]
    rfl
  refine ⟨fun hc hp hs => ?_, fun hc hp h hs hh hst => ?_, fun hc hp => ?_, fun c hc => ?_⟩
  · rw [reach, hc]
    simp only [hp, Bool.false_eq_true, if_false]
    rw [offerReq_free hu (by rw [hv]; exact hj) (by rw [hv]; exact ha) (by rw [hv]; exact hs), startReq_play (r := { r with got := some w }) hk rfl]
    exact started_eq hj ha hs _
  · rw [reach, hc]
    simp only [hp, Bool.false_eq_true, if_false]
    rw [offerReq_waits hu (by rw [hv]; exact hj) (by rw [hv]; exact ha) (by rw [hv]; exact hs) hh (by simpa [taken] using hst)]
    exact modVoice_modVoice ..
  · rw [reach, hc]
    simp only [hp, if_true]
    exact modVoice_modVoice ..
  · rw [reach, hc]
    rfl

theorem reach_plays (hi : s.Inv) (hj : (s.voice n v).jump = none) (ha : (s.voice n v).jumpAt = none) (hs : (s.voice n v).segs = [])
    {j len own code units : Nat} {first : BitVec 32} (hk : r.kind = .plays j len own code first units false) :
    (s.taken n v).reachVoice n v r = s.modVoice n v fun x => { x with
      reqs := [], segs := [playsSeg j len code first units (r.act + 26) own .request] } := by
  have hv := hi.voice_taken (n := n) (v := v)
  unfold reachVoice
  simp only [hk]
  rw [offerReq_free (taken_inv hi) (by rw [hv]; exact hj) (by rw [hv]; exact ha) (by rw [hv]; exact hs), startReq_plays hk]
  exact started_eq hj ha hs _

theorem reach_stop (hi : s.Inv) (hj : (s.voice n v).jump = none) (ha : (s.voice n v).jumpAt = none) (hs : (s.voice n v).segs = [])
    (hk : r.kind = .stop) : (s.taken n v).reachVoice n v r = s.taken n v := by
  have hv := hi.voice_taken (n := n) (v := v)
  unfold reachVoice
  simp only [hk]
  rw [offerReq_free (taken_inv hi) (by rw [hv]; exact hj) (by rw [hv]; exact ha) (by rw [hv]; exact hs), startReq_stop hk,
    taken, modVoice_modVoice, modVoice_modVoice]
  refine modVoice_congr ?_
  simp only [startNote, Bool.false_eq_true, if_false, ← hj, ← ha]

/-- The segment that a ramped STOP with pin beat `P` ends (R153). -/
def cutSeg (P : Nat) (h : Seg) : Seg := { h with bnd := P + 24, repLeft := 0, w2 := 0, chosen := false, ramped := true }

/-- A ramped STOP on a voice whose last segment plays at its pin beat once what was chosen ahead is taken back (R153). -/
theorem rampStop_cut {u w : State} {P : Nat} {h : Seg} {l : List Seg} (hj : (u.voice n v).jump = none)
    (he : u.endFollowers n v = w) (hs : (w.voice n v).segs = l ++ [h]) (hP : P < h.bnd) :
    u.rampStop n v P = w.modVoice n v fun x => { x with
      segs := l ++ [{ cutSeg P h with
        silentAt := (((x.stops.filter fun q => decide (P < q + 24)).map (· + 24)) ++ h.silentAt.toList).min? }]
      stops := P :: x.stops } := by
  unfold rampStop
  rw [voidJump_none hj, he]
  simp only [hs, List.getLast?_append, List.getLast?_singleton, Option.some_or, hP, if_true]
  refine modVoice_congr ?_
  simp only [hs, List.dropLast_concat]
  rfl

/-- What was chosen ahead on a voice with no pending request is taken back (R153). -/
theorem endFollowers_last {u : State} {h k : Seg} (hi : u.Inv) (hj : (u.voice n v).jump = none) (ha : (u.voice n v).jumpAt = none)
    (hs : (u.voice n v).segs = [h, k]) (hh : ¬ (h.origin = .rep ∨ h.origin = .chain)) (hk : k.origin = .rep ∨ k.origin = .chain)
    (hlt : h.start < k.start) (hb : u.beat ≤ k.start) :
    u.endFollowers n v = u.modVoice n v fun x => { x with segs := [h], redo := earlier k.start x.redo } := by
  have found : ((u.voice n v).segs.find? fun g => decide (u.beat ≤ g.start) && (g.origin == .rep || g.origin == .chain)) = some k := by
    rw [hs, List.find?_cons_of_neg (by simpa using fun _ => not_or.mp hh), List.find?_cons_of_pos (by simp [hb, hk])]
  have follows : (k.origin == .request) = false := by
    rcases hk with e | e <;> rw [e] <;> rfl
  unfold endFollowers
  simp only [found]
  rw [settleJump_none (by rw [hi.voice_modVoice]; exact hj)]
  refine modVoice_congr ?_
  simp [hs, ha, hlt, follows]

end

end State

/-- Settles O16: each kind of request by the lemma about its voice. -/
theorem requestsReachVoices : Obligations.RequestsReachVoices := by
  unfold Obligations.RequestsReachVoices
  intro s n v r hi hr hd hj ha hb P chg follows cut
  have hv := hi.voice_taken (n := n) (v := v)
  have hu : (s.taken n v).Inv := State.modVoice_inv n v _ hi
  have reach : r.kind = .ramp → (s.taken n v).reachVoice n v r = (s.taken n v).rampStop n v P := fun hk => by
    unfold State.reachVoice
    simp only [hk]
    rfl
  rw [State.exec_reach_one hr hd]
  refine ⟨fun d own pf hk hs => ?play, fun j len own code first units hk hs => ?plays, fun hk hs => ?stop, fun h hk hs hf hP hst => ?ramp,
    fun h k hk hs hh hlt hf hbk hP hst hre => ?back, fun h q hk hs hf hP hst hq hsil => ?again⟩
  case play =>
    obtain ⟨free, waits, preload, illegal⟩ := State.reach_play hi hj ha hb hk hs
    exact ⟨fun hc hp h0 => congrArg _ (free hc hp h0), fun hc hp h h1 h2 h3 => congrArg _ (waits hc hp h h1 h2 h3),
      fun hc hp => congrArg _ (preload hc hp), fun c hc => congrArg _ (illegal c hc)⟩
  case plays => exact congrArg _ (State.reach_plays hi hj ha hs hk)
  case stop => exact congrArg _ (State.reach_stop hi hj ha hs hk)
  case ramp =>
    have open_ : (s.taken n v).endFollowers n v = s.taken n v := State.endFollowers_none fun g hg c => by
      rw [hv, hs, List.mem_singleton] at hg
      subst hg
      exact hf.elim (fun e => e c.2) (fun e => Nat.not_lt.mpr c.1 e)
    rw [reach hk, State.rampStop_cut (l := []) (h := h) (by rw [hv]; exact hj) open_ (by rw [hv]; exact hs) hP, State.taken,
      State.modVoice_modVoice]
    refine congrArg _ (State.modVoice_congr ?_)
    simp only [hst, List.filter_nil, List.map_nil, List.nil_append, State.toList_min?]
    rfl
  case back =>
    have back := State.endFollowers_last (h := h) (k := k) hu (by rw [hv]; exact hj) (by rw [hv]; exact ha) (by rw [hv]; exact hs) hh hf hlt hbk
    have left_ := hu.voice_modVoice n v fun x => { x with segs := [h], redo := State.earlier k.start x.redo }
    rw [reach hk, State.rampStop_cut (l := []) (h := h) (by rw [hv]; exact hj) back (by rw [left_]; rfl) hP, State.modVoice_modVoice, State.taken,
      State.modVoice_modVoice]
    refine congrArg _ (State.modVoice_congr ?_)
    simp only [hst, hre, State.earlier, Option.getD_none, Nat.min_self, List.filter_nil, List.map_nil, List.nil_append, State.toList_min?]
    rfl
  case again =>
    have open_ : (s.taken n v).endFollowers n v = s.taken n v := State.endFollowers_none fun g hg c => by
      rw [hv, hs, List.mem_singleton] at hg
      subst hg
      exact hf.elim (fun e => e c.2) (fun e => Nat.not_lt.mpr c.1 e)
    rw [reach hk, State.rampStop_cut (l := []) (h := h) (by rw [hv]; exact hj) open_ (by rw [hv]; exact hs) hP, State.taken,
      State.modVoice_modVoice]
    refine congrArg _ (State.modVoice_congr ?_)
    simp only [hst, hq, hsil, List.filter_cons, decide_true, if_true, List.filter_nil, List.map_cons, List.map_nil]
    rfl

end Sys2Proof.Machine
end

section
/-! PROOF. Segment boundaries, stream units and the end of a STOP ramp (R72, R75, R152, R153, R201, R204, R205, R209, R223). -/

namespace Sys2Proof.Machine

namespace State

section
variable {s : State} {n : RingId} {v : Fin 32} {g : Seg}

/-! ### The choice at a boundary -/

/-- The state in which the choice at the boundary of the voice's one segment is made. -/
def chosenAt (s : State) (n v : Nat) (g : Seg) : State := s.modVoice n v fun x => { x with segs := [{ g with chosen := true }] }

theorem markChosen_one (hs : (s.voice n v).segs = [g]) : s.markChosen n v = s.chosenAt n v g := by
  unfold markChosen chosenAt
  refine modVoice_congr ?_
  simp [hs]

theorem exec_boundary_early (hs : (s.voice n v).segs = [g]) (hb : s.beat + 22 < g.bnd) : exec (.segmentBoundary n v) s = .next s := by
  show execSegmentBoundary n v s = _
  unfold execSegmentBoundary boundaryDue
  simp [hs, Nat.not_le.mpr hb]

theorem exec_boundary_due (hs : (s.voice n v).segs = [g]) (hc : g.chosen = false) (hb : g.bnd ≤ s.beat + 22) :
    exec (.segmentBoundary n v) s = .next (s.chooseBoundary n v) := by
  show execSegmentBoundary n v s = _
  unfold execSegmentBoundary boundaryDue
  simp [hs, hc, hb]

/-- A jump request that came in time starts at the boundary with the running offset (R201, R223). -/
theorem chooseBoundary_jump (hi : s.Inv) (hs : (s.voice n v).segs = [g]) (ha : (s.voice n v).jumpAt = none) {r : VReq}
    (hj : (s.voice n v).jump = some r) (hr : r.act + 28 ≤ g.bnd) :
    s.chooseBoundary n v = (s.chosenAt n v g).startReq n v r g.bnd (some g.off) true := by
  have waits : (s.chosenAt n v g).waitingJump n v = some r := by
    unfold waitingJump chosenAt
    rw [hi.voice_modVoice]
    simp [ha, hj]
  have inTime : r.pin + 2 ≤ g.bnd := hr
  unfold chooseBoundary
  simp only [hs, List.getLast?_singleton, markChosen_one hs, waits, inTime, if_true]

section
variable (hi : s.Inv) (hs : (s.voice n v).segs = [g]) (hj : (s.voice n v).jump = none)

include hi hj in
theorem chosenAt_free : (s.chosenAt n v g).waitingJump n v = none ∧ (s.chosenAt n v g).haltedFrom n g.bnd = s.haltedFrom n g.bnd := by
  constructor
  · unfold waitingJump chosenAt
    rw [hi.voice_modVoice]
    simp [hj]
  · unfold haltedFrom chosenAt
    rw [seq_modVoice]

include hi hs hj

/-- With no request the segment is followed by what REPEAT and CHAIN say (R223). -/
theorem chooseBoundary_follows (hh : s.haltedFrom n g.bnd = false) {h : Seg}
    (e : (s.chosenAt n v g).continueSeg n v g = (some h, s.chosenAt n v g)) :
    s.chooseBoundary n v = s.modVoice n v fun x => { x with segs := [{ g with chosen := true }, h] } := by
  obtain ⟨waits, halted⟩ := chosenAt_free (g := g) hi hj
  unfold chooseBoundary
  simp only [hs, List.getLast?_singleton, markChosen_one hs, waits, halted, hh, Bool.false_eq_true, if_false, e]
  exact modVoice_modVoice ..

/-- The voice is idle after its segment when nothing follows it, or the ring has halted (R169, R223). -/
theorem chooseBoundary_ends (e : s.haltedFrom n g.bnd = true ∨ (s.chosenAt n v g).continueSeg n v g = (none, s.chosenAt n v g)) :
    s.chooseBoundary n v = s.chosenAt n v g := by
  obtain ⟨waits, halted⟩ := chosenAt_free (g := g) hi hj
  unfold chooseBoundary
  simp only [hs, List.getLast?_singleton, markChosen_one hs, waits, halted]
  cases hh : s.haltedFrom n g.bnd with
  | true => simp only [if_true]
  | false =>
    simp only [Bool.false_eq_true, if_false, e.resolve_left (by simp [hh])]

end

/-- The chained descriptor follows (R223). -/
theorem continueSeg_chain {u : State} {n v : Nat} (hr : g.repLeft = 0) (h15 : bit g.w2 15 = true) (hw : u.memu.borrow = none)
    (hd : u.damageIn (ringMem n + 0x400000 + 16 * fld g.w2 11 0) 16 = []) (hc : (u.readDesc n (fld g.w2 11 0)).cause = none) :
    let w := u.readDesc n (fld g.w2 11 0)
    u.continueSeg n v g = (some {
      desc := fld g.w2 11 0, w0 := w.w0, w1 := w.w1, w2 := w.w2, w3 := w.w3, start := g.bnd, bnd := g.bnd + fld w.w1 31 16
      off := g.off, repLeft := fld w.w2 31 16, origin := .chain }, u) := by
  intro w
  unfold continueSeg
  simp only [hr, Nat.lt_irrefl, if_false, h15, if_true, hc, descTouch_sound hw hd]
  rfl

/-- Nothing follows a segment without REPEAT and CHAIN (R223). -/
theorem continueSeg_none {u : State} {n v : Nat} (hr : g.repLeft = 0) (h15 : bit g.w2 15 = false) : u.continueSeg n v g = (none, u) := by
  unfold continueSeg
  simp [hr, h15]

theorem started_chosenAt (r : VReq) (P : Nat) (l : List Seg) (hj : (s.voice n v).jump = some r) :
    (s.chosenAt n v g).modVoice n v (fun x => { startNote r P true x with segs := x.segs ++ l }) =
      s.modVoice n v fun x => { x with jumpAt := some P, segs := { g with chosen := true } :: l } := by
  rw [chosenAt, modVoice_modVoice]
  refine modVoice_congr ?_
  simp only [startNote, if_true, ← hj, List.singleton_append]

/-! ### Stream units -/

theorem modStrm_congr {s : State} {n j : Nat} {f f' : Strm → Strm} (h : f (s.strm n j) = f' (s.strm n j)) :
    s.modStrm n j f = s.modStrm n j f' := modRing_congr (congrArg (fun x => { s.ring n with strm := x }) (modify_congr h))

theorem modStrm_modStrm (s : State) (n j : Nat) (f f' : Strm → Strm) :
    (s.modStrm n j f).modStrm n j f' = s.modStrm n j fun x => f' (f x) := by
  unfold modStrm modRing
  congr 1
  rw [List.modify_modify_eq]
  congr 1
  funext r
  exact congrArg (fun x => { r with strm := x }) (List.modify_modify_eq ..)

/-- The one segment of a voice claims its next unit (R204). -/
theorem exec_claim {j : Nat} (hs : (s.voice n v).segs = [g]) (hj : g.stream = some j) (hc : g.claimed < g.units)
    (hb : g.beatOf (g.claimed * g.unitOuts) ≤ s.beat + 18) (he : 8 * g.start + g.off + g.claimed * g.unitOuts < g.endAt) :
    exec (.unitClaim n v) s = .next (s.claimUnit n v 0 g) := by
  have due : s.claimDue n v = some (0, g) := by
    unfold claimDue
    simp [hs, hj, hc, hb, he]
  show execUnitClaim n v s = _
  unfold execUnitClaim
  rw [due]

theorem modSeg_one (hs : (s.voice n v).segs = [g]) (f : Seg → Seg) :
    s.modSeg n v 0 f = s.modVoice n v fun x => { x with segs := [f g] } := by
  refine modVoice_congr ?_
  simp [hs]

theorem exec_release {j : Nat} (hs : (s.voice n v).segs = [g]) (hj : g.stream = some j) (hr : g.released < g.units) (hb : g.bnd ≤ s.beat) :
    exec (.unitRelease n v) s = .next ((s.releaseUnit n j (g.first + BitVec.ofNat 32 g.released)).modSeg n v 0 fun g =>
      { g with released := g.released + 1 }) := by
  have due : s.unitDue n v = some (0, g) := by
    unfold unitDue
    simp [hs, hj, hr, hb]
  show execUnitRelease n v s = _
  unfold execUnitRelease
  simp only [due, hj, Option.getD_some]

/-- The release of the unit at the play pointer moves the pointer and the credit limit (R72, R75). -/
theorem releaseUnit_next {j : Nat} (hi : s.Inv) (hj : j < 4) (hq : (s.strm n j).released = []) :
    s.releaseUnit n j (s.playPtr n j) = ((s.setReg (Reg.strmPlayptr n j) (s.playPtr n j + 1)).setReg (Reg.strmLimit n j)
      (s.playPtr n j + 1 + BitVec.ofNat 32 (s.strmUnits n j))).modStrm n j fun q =>
        { q with filled := q.filled.filter (· ≠ s.playPtr n j), creditDue := true } := by
  have there : j < (s.ring n).strm.length := by
    obtain ⟨-, -, -, -, -, strm, -⟩ := hi.ring_sized n.isLt
    omega
  have held : ((s.modStrm n j fun t => { t with
      filled := t.filled.filter (· ≠ s.playPtr n j), released := t.released ++ [s.playPtr n j] }).strm n j).released = [s.playPtr n j] := by
    rw [strm_modStrm_self hi.rings_length n.isLt there, hq]
    rfl
  have ptr : (s.modStrm n j fun t => { t with
      filled := t.filled.filter (· ≠ s.playPtr n j), released := t.released ++ [s.playPtr n j] }).playPtr n j = s.playPtr n j := rfl
  unfold releaseUnit
  simp only [held, List.length_singleton, advancePlay, ptr, List.mem_singleton, if_true]
  show (((((s.setReg (Reg.strmPlayptr n j) (s.playPtr n j + 1)).setReg (Reg.strmLimit n j)
    (s.playPtr n j + 1 + BitVec.ofNat 32 (s.strmUnits n j))).modStrm n j _).modStrm n j _).modStrm n j _) = _
  rw [modStrm_modStrm, modStrm_modStrm]
  refine modStrm_congr ?_
  have kept : ((s.setReg (Reg.strmPlayptr n j) (s.playPtr n j + 1)).setReg (Reg.strmLimit n j)
    (s.playPtr n j + 1 + BitVec.ofNat 32 (s.strmUnits n j))).strm n j = s.strm n j := rfl
  rw [kept]
  simp [hq]

end

/-! ### What events leave alone -/

/-- The registers of the event log and of the severities (R106-R110). -/
def evReg (a : Nat) : Prop := (0x200 ≤ a ∧ a ≤ 0x210) ∨ (0x1000 ≤ a ∧ a < 0x2000)

/-- Nothing but the event log, the severities and the rate limits differs between the states (R106-R111). -/
def Noted (s t : State) : Prop :=
  (∀ a, ¬ evReg a → t.getReg a = s.getReg a) ∧ ∃ r b k c p m,
    t = { s with regs := r, beatSets := b, evKeys := k, evCounts := c, evToPush := p, carmineNow := m }

theorem Noted.refl (s : State) : s.Noted s := ⟨fun _ _ => rfl, _, _, _, _, _, _, rfl⟩

theorem Noted.trans {s t u : State} (h : s.Noted t) (h' : t.Noted u) : s.Noted u := by
  obtain ⟨hr, r, b, k, c, p, m, rfl⟩ := h
  obtain ⟨hr', r', b', k', c', p', m', rfl⟩ := h'
  exact ⟨fun a ha => (hr' a ha).trans (hr a ha), r', b', k', c', p', m', rfl⟩

theorem Noted.setReg (s : State) {a : Nat} (v : Word) (ha : evReg a) : s.Noted (s.setReg a v) :=
  ⟨fun _ hx => getReg_setReg_other s v fun e => hx (e ▸ ha), _, _, _, _, _, _, rfl⟩

theorem Noted.ite {c : Prop} [Decidable c] {s t u : State} (h : s.Noted t) (h' : s.Noted u) : s.Noted (if c then t else u) := by
  split
  · exact h
  · exact h'

theorem Noted.fields (s : State) (k : List EvKey) (c : List EvCount) (p : List Nat) (m : Option (BitVec 16 × BitVec 8)) :
    s.Noted { s with evKeys := k, evCounts := c, evToPush := p, carmineNow := m } := ⟨fun _ _ => rfl, _, _, _, _, _, _, rfl⟩

theorem Noted.entry (w : Nat) (ws : List Word) (l : List Nat) (hl : ∀ k ∈ l, k < 4) (u : State) :
    u.Noted (l.foldl (fun u k => u.setReg (Reg.evlog (w % 256) k) (ws.getD k 0)) u) := by
  induction l generalizing u with
  | nil => exact .refl u
  | cons k t ih =>
    have hk := hl k (by simp)
    have inLog : evReg (Reg.evlog (w % 256) k) := .inr ⟨by unfold Reg.evlog; omega, by unfold Reg.evlog; omega⟩
    exact .trans (.setReg u _ inLog) (ih (fun x hx => hl x (by simp [hx])) _)

theorem Noted.logRecord (s : State) (ws : List Word) : s.Noted (s.logRecord ws) := by
  have h := Noted.entry (s.getReg Reg.evlogWr).toNat ws (List.range 4) (by simp) s
  unfold State.logRecord forBelow
  dsimp only
  generalize List.foldl _ s (List.range 4) = u at h ⊢
  have named : u.Noted { u with evToPush := u.evToPush ++ [(s.getReg Reg.evlogWr).toNat] } :=
    .fields u u.evKeys u.evCounts (u.evToPush ++ [(s.getReg Reg.evlogWr).toNat]) u.carmineNow
  exact (h.trans named).trans (.setReg _ _ (.inl (by decide)))

/-- The flag of a severity (R109). -/
theorem Noted.severityFlag (s : State) (code : Nat) : s.Noted (s.raiseFlag Reg.sevFlags (severity code)) := by
  have low : severity code < 4 := by
    unfold severity
    split
    · decide
    · split <;> decide
  have raised : (s.setBit Reg.sevFlags (severity code) true).Noted (s.raiseFlag Reg.sevFlags (severity code)) := by
    obtain ⟨h, r, b, k, c, p, m, e⟩ := Noted.setReg (s.setBit Reg.sevFlags (severity code) true) (a := flagCntAddr Reg.sevFlags (severity code))
      (putFld ((s.setBit Reg.sevFlags (severity code) true).getReg (flagCntAddr Reg.sevFlags (severity code))) (8 * (severity code % 4) + 7)
        (8 * (severity code % 4)) (min 255 (s.flagCount Reg.sevFlags (severity code) + 1)))
      (.inl (by rw [flagCntAddr_low low]; decide))
    exact ⟨h, _, _, _, _, _, _, rfl⟩
  exact .trans (.setReg s _ (.inl (by decide))) raised

/-- A record enters the log (R106-R110). -/
theorem Noted.emitRecord (s : State) (stamp : Int) (code src : Nat) (count : BitVec 16) (data : Word) :
    s.Noted (s.emitRecord stamp code src count data) := by
  unfold State.emitRecord
  dsimp only
  refine .trans ?_ (.severityFlag _ code)
  have first := (Noted.logRecord s (recordWords stamp code src count data)).trans
    (.ite (c := severity code = 2 ∧ ¬ s.regBit Reg.sevFlags 2) (.setReg _ (a := Reg.carmineFirst) (BitVec.ofNat 32 (code * 2 ^ 16 + src * 2 ^ 8))
      (.inl (by decide))) (.refl _))
  generalize (if severity code = 2 ∧ ¬ s.regBit Reg.sevFlags 2 then _ else _ : State) = u at first ⊢
  exact first.trans (.ite (.fields u u.evKeys u.evCounts u.evToPush (some (BitVec.ofNat 16 code, BitVec.ofNat 8 src))) (.refl u))

theorem Noted.countEvent (s : State) (code src : Nat) : s.Noted (s.countEvent code src) := by
  unfold State.countEvent
  exact .ite (.fields s s.evKeys _ s.evToPush s.carmineNow) (.fields s s.evKeys _ s.evToPush s.carmineNow)

/-- An occurrence of an event (R106-R110). -/
theorem Noted.raiseEvent (s : State) (code src : Nat) (data : Word) : s.Noted (s.raiseEvent code src data) := by
  have counted := Noted.countEvent s code src
  unfold State.raiseEvent
  dsimp only
  generalize s.countEvent code src = u at counted ⊢
  have recorded : ∀ st subj c, u.Noted ((u.startInterval code src subj).emitRecord st code src c data) := fun st subj c =>
    .trans (.fields u _ u.evCounts u.evToPush u.carmineNow) (.emitRecord _ st code src c data)
  split
  · exact counted.trans (.ite (recorded _ _ _) (.fields u _ u.evCounts u.evToPush u.carmineNow))
  · exact counted.trans (recorded _ _ _)

/-! ### Claims -/

section
variable {s : State} {n : RingId} {v : Fin 32} {g : Seg} {j : Nat}

/-- The state in which the one segment of a voice has claimed a unit, and plays the fill from `f` on (R204). -/
def claimedAt (s : State) (n v : Nat) (g : Seg) (f : Option Nat) : State :=
  s.modVoice n v fun x => { x with segs := [{ g with claimed := g.claimed + 1, fillAt := f }] }

/-- A claim of the unit with index `first + claimed` (R204, R205). -/
theorem claimUnit_eq (hi : s.Inv) (hs : (s.voice n v).segs = [g]) (hj : g.stream = some j) (hc : g.claimed < g.units) (hf : g.fillAt = none) :
    s.claimUnit n v 0 g = if (g.first + BitVec.ofNat 32 g.claimed) ∈ (s.strm n j).filled then s.claimedAt n v g none
      else (s.claimedAt n v g (some (g.beatOf (g.claimed * g.unitOuts)))).underrun n j := by
  have first : s.modSeg n v 0 (fun g => { g with claimed := g.claimed + 1 }) = s.claimedAt n v g none :=
    (modSeg_one hs _).trans (by rw [← hf]; rfl)
  have second : (s.claimedAt n v g none).modSeg n v 0 (fun g => { g with fillAt := some (g.beatOf ((g.claimed - 1) * g.unitOuts)) }) =
      s.claimedAt n v g (some (g.beatOf (g.claimed * g.unitOuts))) := by
    rw [modSeg_one (g := { g with claimed := g.claimed + 1, fillAt := none }) (by rw [claimedAt, hi.voice_modVoice]), claimedAt,
      modVoice_modVoice]
    rfl
  have filled : (s.claimedAt n v g none).unitFilled n j (g.first + BitVec.ofNat 32 g.claimed) =
      decide ((g.first + BitVec.ofNat 32 g.claimed) ∈ (s.strm n j).filled) := by
    unfold unitFilled claimedAt
    rw [strm_modVoice]
  unfold claimUnit
  simp only [first, second, hj, Option.getD_some, hf, Option.isSome_none, Bool.false_eq_true, if_false, filled, decide_eq_true_eq]
  rw [if_neg (by omega)]

/-- An under-run marks the shot and the stream (R75, R205). -/
theorem underrun_marks (hi : s.Inv) (hj : j < 4) :
    bit ((s.underrun n j).getReg (Reg.seqSt n)) 6 = true ∧ bit ((s.underrun n j).getReg (Reg.strmFlags n j)) 0 = true ∧
      (s.underrun n j).mem = s.mem ∧ (s.underrun n j).rings = s.rings := by
  let u := (s.setBit (Reg.seqSt n) 6 true).raiseFlag (Reg.strmFlags n j) 0
  obtain ⟨regs, r, b, k, c, p, m, e⟩ : u.Noted (s.underrun n j) := .raiseEvent u ..
  have hb : (s.setBit (Reg.seqSt n) 6 true).Inv := setBit_inv _ _ _ hi
  refine ⟨?_, ?_, ?_, ?_⟩
  · rw [regs _ (by simp only [evReg, Reg.seqSt]; omega),
      getReg_raiseFlag_ne hb (by simp only [Reg.seqSt, Reg.strmFlags]; omega)
        (by rw [flagCntAddr_low (by decide)]; simp only [Reg.seqSt, Reg.strmFlags]; omega),
      getReg_setBit_self hi, bit_putBit _ _ (by decide), if_pos rfl]
  · rw [regs _ (by simp only [evReg, Reg.strmFlags]; omega)]
    exact bit_raiseFlag hb _ (by decide)
  · rw [e]
    rfl
  · rw [e]
    rfl

end

end State

/-- Settles O17: what follows at a boundary, and what becomes of stream units. -/
theorem segmentsAndStreams : Obligations.SegmentsAndStreams := by
  unfold Obligations.SegmentsAndStreams
  refine ⟨fun s n v g hi hs hc ha => ?boundary, fun s n v g j hi hs hj h4 => ?units⟩
  case boundary =>
    intro done
    have due := fun hb : g.bnd ≤ s.beat + 22 => State.exec_boundary_due hs hc hb
    have going : (s.seq n).haltFrom = none → s.haltedFrom n g.bnd = false := fun hf => by
      unfold State.haltedFrom
      rw [hf]
    refine ⟨State.exec_boundary_early hs, fun hb hj hf hr => ?rep, fun hb hj hf hr h15 hw hd hcause => ?chain, fun hb hj he => ?idle,
      fun r hb hj hr hk => ?stop, fun r k len own code first units hb hj hr hk => ?plays, fun r d own pf w hb hj hr hk hg => ?play⟩
    case rep =>
      rw [due hb, State.chooseBoundary_follows (h := { g with
        start := g.bnd, bnd := g.bnd + descLen g.w1, repLeft := g.repLeft - 1, origin := .rep, chosen := false, got := [] }) hi hs hj (going hf)]
      · rw [← hc]
        rfl
      · unfold State.continueSeg
        rw [if_pos hr]
    case chain =>
      intro w
      rw [due hb, State.chooseBoundary_follows hi hs hj (going hf) (State.continueSeg_chain hr h15 hw hd hcause)]
      rfl
    case idle =>
      rw [due hb]
      refine congrArg _ (State.chooseBoundary_ends hi hs hj ?_)
      rcases he with ⟨hr, h15⟩ | ⟨b, hf, hle⟩
      · exact .inr (State.continueSeg_none hr h15)
      · refine .inl ?_
        unfold State.haltedFrom
        rw [hf]
        exact decide_eq_true hle
    case stop =>
      rw [due hb, State.chooseBoundary_jump hi hs ha hj hr, State.startReq_stop hk]
      refine congrArg _ (.trans (State.modVoice_congr ?_) (State.started_chosenAt r g.bnd [] hj))
      exact congrArg (fun l => { State.startNote r g.bnd true ((s.chosenAt n v g).voice n v) with segs := l }) (List.append_nil _).symm
    case plays =>
      rw [due hb, State.chooseBoundary_jump hi hs ha hj hr, State.startReq_plays hk]
      exact congrArg _ (State.started_chosenAt r g.bnd _ hj)
    case play =>
      rw [due hb, State.chooseBoundary_jump hi hs ha hj hr, State.startReq_play hk hg]
      exact congrArg _ (State.started_chosenAt r g.bnd _ hj)
  case units =>
    intro claimed
    refine ⟨fun hc hb he hf => ⟨fun hm => ?filled, fun hm => ?empty⟩, fun hr hb hp hq => ?release, fun hst => ?ramp⟩
    case filled =>
      rw [State.exec_claim hs hj hc hb he, State.claimUnit_eq hi hs hj hc hf, if_pos hm]
      rfl
    case empty =>
      have hu : (s.claimedAt n v g (some (g.beatOf (g.claimed * g.unitOuts)))).Inv := State.modVoice_inv n v _ hi
      obtain ⟨udr, flag, mem, rings⟩ := State.underrun_marks (n := n) hu h4
      refine ⟨_, State.exec_claim hs hj hc hb he, ?_⟩
      rw [State.claimUnit_eq hi hs hj hc hf, if_neg hm]
      have same : ∀ k, ((s.claimedAt n v g (some (g.beatOf (g.claimed * g.unitOuts)))).underrun n j).ring k =
          (s.claimedAt n v g (some (g.beatOf (g.claimed * g.unitOuts)))).ring k := fun k => congrArg (fun l => l.getD k {}) rings
      refine ⟨congrArg (fun r : Ring => r.voices.getD v {}) (same n), udr, flag, mem, fun k hk => (same k).trans ?_⟩
      exact State.ring_modRing_ne _ hk
    case release =>
      rw [State.exec_release hs hj hr hb, ← hp, State.releaseUnit_next hi h4 hq]
      refine congrArg _ (State.modSeg_one ?_ _)
      rw [State.voice_modStrm]
      exact hs
    case ramp =>
      show execStopRampEnd n v s = _
      unfold execStopRampEnd
      rw [if_pos hst]

end Sys2Proof.Machine
end

section
/-! PROOF. Fades of a TX channel and the host's writes to it (R229-R232, R235, R236, R246). -/

namespace Sys2Proof.Machine

namespace State

/-! ### Updates of one channel -/

theorem modTx_congr {s : State} {n c : Nat} {f f' : TxCh → TxCh} (h : f (s.tx n c) = f' (s.tx n c)) :
    s.modTx n c f = s.modTx n c f' := modRing_congr (congrArg (fun x => { s.ring n with tx := x }) (modify_congr h))

theorem modTx_modTx (s : State) (n c : Nat) (f f' : TxCh → TxCh) : (s.modTx n c f).modTx n c f' = s.modTx n c fun x => f' (f x) := by
  unfold modTx modRing
  congr 1
  rw [List.modify_modify_eq]
  congr 1
  funext r
  exact congrArg (fun x => { r with tx := x }) (List.modify_modify_eq ..)

theorem modTx_same {s : State} {n c : Nat} {f : TxCh → TxCh} (h : f (s.tx n c) = s.tx n c) : s.modTx n c f = s := by
  refine (modTx_congr (f' := id) h).trans ?_
  unfold modTx modRing
  have fix : (fun r : Ring => { r with tx := r.tx.modify c id }) = id := by
    funext r
    rw [List.modify_id]
    rfl
  rw [fix, List.modify_id]

theorem Inv.tx_modTx {s : State} (h : s.Inv) (n : RingId) (c : Fin 4) (f : TxCh → TxCh) : (s.modTx n c f).tx n c = f (s.tx n c) :=
  tx_modTx_self h.rings_length n.isLt (by obtain ⟨-, tx, -⟩ := h.ring_sized n.isLt; rw [tx]; exact c.isLt) f

/-! ### Fades -/

section
variable {s : State} {n : RingId} {c : Fin 4}

theorem endFade_none (h : (s.tx n c).run = none) : s.endFade n c = s := by
  unfold endFade
  rw [h]

theorem endFade_runs {r : FadeRun} (h : (s.tx n c).run = some r) (hb : s.beat < r.start + r.len) : s.endFade n c = s := by
  unfold endFade
  simp only [h, Nat.not_le.mpr hb, if_false]

/-- What the end of a fade leaves of its channel (R229, R231). -/
def fadeEnded (s : State) (r : FadeRun) (x : TxCh) : TxCh :=
  { x with act := r.to_, run := none, past := some r, stir := s.beat + 3
           fadeLog := (r.start, r.start + r.len) :: x.fadeLog.filter (fun p => s.beat < p.2 + 131072) }

theorem endFade_due (hi : s.Inv) {r : FadeRun} (h : (s.tx n c).run = some r) (hb : r.start + r.len ≤ s.beat) :
    s.endFade n c = match (s.tx n c).pend with
      | some b => ((s.modTx n c (s.fadeEnded r)).modTx n c fun x => { x with pend := none }).startFade n c (r.start + r.len) b
      | none => s.modTx n c (s.fadeEnded r) := by
  have pend : ((s.modTx n c (s.fadeEnded r)).tx n c).pend = (s.tx n c).pend := by
    rw [hi.tx_modTx]
    rfl
  unfold endFade
  simp only [h, hb, if_true]
  rw [← pend]
  rfl

theorem endFade_ends (hi : s.Inv) {r : FadeRun} (h : (s.tx n c).run = some r) (hb : r.start + r.len ≤ s.beat) (hp : (s.tx n c).pend = none) :
    s.endFade n c = s.modTx n c (s.fadeEnded r) := by
  rw [endFade_due hi h hb, hp]

/-- The request that waits starts where the fade has ended (R229, R231). -/
theorem endFade_follows (hi : s.Inv) {r : FadeRun} (h : (s.tx n c).run = some r) (hb : r.start + r.len ≤ s.beat) {d : Bool}
    (hp : (s.tx n c).pend = some d) (hl : 0 < s.regFld (Reg.txFadeLen n c) 11 0) :
    s.endFade n c = s.modTx n c fun x => { s.fadeEnded r x with
      pend := none, run := some { start := r.start + r.len, len := s.regFld (Reg.txFadeLen n c) 11 0, to_ := d }, stir := s.beat + 3 } := by
  have len : ((s.modTx n c (s.fadeEnded r)).modTx n c fun x => { x with pend := none }).fadeLen n c = s.regFld (Reg.txFadeLen n c) 11 0 := rfl
  rw [endFade_due hi h hb, hp]
  simp only [startFade, len, Nat.ne_of_gt hl, if_false]
  rw [modTx_modTx, modTx_modTx]
  rfl

theorem startFade_host {u : State} (hu : u.Inv) (P : Nat) (b : Bool) : ((u.startFade n c P b).tx n c).host = (u.tx n c).host := by
  unfold startFade
  rw [hu.tx_modTx]
  split <;> rfl

/-- A request of FADE leaves the host's request to the channel (R230). -/
theorem reachFade_host {u : State} (hu : u.Inv) (b : Bool) : ((u.reachFade n c b false).tx n c).host = (u.tx n c).host := by
  unfold reachFade
  dsimp only
  simp only [Bool.false_eq_true, if_false]
  split
  · rfl
  · split
    · exact startFade_host hu _ _
    · split
      · rw [hu.tx_modTx]
      · rfl

/-- What a request of FADE does, by what runs and what waits (R230, R231). -/
theorem reachFade_eq {u : State} (b : Bool) :
    u.reachFade n c b false = if b = (u.tx n c).pend.getD (((u.tx n c).run.map (·.to_)).getD (u.tx n c).act) then u
      else if (u.tx n c).run.isNone then u.startFade n c u.beat b
      else if (u.tx n c).pend.isNone then u.modTx n c fun x => { x with pend := some b }
      else (u.setBit (Reg.seqSt n) 8 true).raiseFlag (Reg.seqPflags n) 3 := by
  unfold reachFade fadeTarget
  simp only [Bool.false_eq_true, if_false]

/-- The one request of a channel whose fade, if any, goes on (R230). -/
theorem exec_fade_reach {P : Nat} {b : Bool} (hr : (s.tx n c).reqs = [(P, b)]) (hP : P ≤ s.beat) (hi : s.Inv) (hh : (s.tx n c).host = none)
    (he : s.endFade n c = s) :
    exec (.fadeReach n c) s = .next ((s.modTx n c fun y => { y with reqs := [] }).reachFade n c b false) := by
  have left_ : (s.modTx n c fun y => { y with reqs := y.reqs.filter fun r => !decide (r.1 ≤ s.beat) }) = s.modTx n c fun y => { y with reqs := [] } := by
    refine modTx_congr ?_
    simp [hr, hP]
  have host : (((s.modTx n c fun y => { y with reqs := [] }).reachFade n c b false).tx n c).host = none := by
    rw [reachFade_host (modTx_inv n c _ hi), hi.tx_modTx]
    exact hh
  show execFadeReach n c s = _
  unfold execFadeReach
  simp only [he, left_, hr, List.filter_cons, hP, decide_true, if_true, List.filter_nil, List.foldl_cons, List.foldl_nil, host]

end

/-! ### The host's writes -/

/-- A register with no field coded W1S takes a write that every check lets pass (R46, R96). -/
theorem write_takes {s g : State} {p u a : Nat} {v : Word} {d : RegDesc} {ix : List Nat} (ht : s.Takes p u a g) (ha : a < 2 ^ 32)
    (hf : findAt a = .ok ⟨d, ix⟩) (hd : d.pair = 0 ∧ d.lease ≠ .session ∧ d.writable = true ∧ d.w1s = 0) (hr : v &&& d.reserved = 0)
    (hl : fieldLegal ⟨d, ix⟩ v = true) (hb : g.blockCheck u ⟨d, ix⟩ a v (pairWord 0 v) = .ok) :
    s.hostWrite p u a v = (g.writeDo u ⟨d, ix⟩ a v (pairWord 0 v)).wrote p a := by
  obtain ⟨hp, hs, hw, h1⟩ := hd
  exact hostWrite_takes ht ha hf hp hs hw hr hl hb (by rw [h1]; simp)

/-- A write of a register whose fields are coded RW (R96). -/
theorem plainWrite_rw {g : State} {d : RegDesc} (a : Nat) (v : Word) (hd : d.rw ≠ 0) (h1 : d.w1c = 0) :
    g.plainWrite d a v = g.setReg a ((g.getReg a &&& ~~~d.rw) ||| (v &&& d.rw)) := by
  unfold plainWrite
  rw [if_neg hd, h1]
  simp

section
variable {s g : State} {p : Port} {u : Sid} {n : RingId} {c : Fin 4} {v : Word}

theorem exec_fade_req (ht : s.Takes p u (Reg.txFadeReq n c) g) (b : Bool) (hc : g.fadeReqCheck n c = .ok) :
    exec (.fadeReq p u n c b) s = .next ((g.fadeReqDo n c b).wrote p (Reg.txFadeReq n c)) := by
  have set : bit (BitVec.ofNat 32 b.toNat) 0 = b := by cases b <;> rfl
  have wrote := write_takes (v := BitVec.ofNat 32 b.toNat) ht (by simp only [Reg.txFadeReq]; omega) (findAt_txFadeReq n c) (by decide)
    (by revert b; decide) rfl hc
  refine (congrArg Host.Outcome.next wrote).trans ?_
  show Host.Outcome.next ((g.fadeReqDo n c (bit (BitVec.ofNat 32 b.toNat) 0)).wrote p (Reg.txFadeReq n c)) = _
  rw [set]

/-- What a write leaves of a coefficient (R235, R248). -/
def coefWord (old v : Word) : Word := (old &&& ~~~(0x3FFFF : Word)) ||| v

theorem low18 (hv : v.toNat < 2 ^ 18) : v &&& 0x3FFFF = v := by
  refine BitVec.eq_of_toNat_eq ?_
  rw [BitVec.toNat_and]
  exact (Nat.and_two_pow_sub_one_eq_mod v.toNat 18).trans (Nat.mod_eq_of_lt hv)

/-- Bits outside a mask are 0 where the mask keeps the whole word. -/
theorem reserved_zero {m : Word} (hv : v &&& m = v) : v &&& ~~~m = 0 := by
  rw [← hv, BitVec.and_assoc]
  simp

theorem exec_coef_a (t : Fin 32) (ht : s.Takes p u (Reg.txCoefA n c t) g) (hc : g.coefCheck n c false = .ok) (hv : v.toNat < 2 ^ 18) :
    exec (.coefWrite p u n c false t v) s =
      .next ((g.setReg (Reg.txCoefA n c t) (coefWord (g.getReg (Reg.txCoefA n c t)) v)).wrote p (Reg.txCoefA n c t)) := by
  have wrote := write_takes ht (by simp only [Reg.txCoefA]; omega) (findAt_txCoefA n c t) (by decide) (reserved_zero (low18 hv)) rfl hc
  refine (congrArg Host.Outcome.next wrote).trans (congrArg (fun w : State => Host.Outcome.next (w.wrote p (Reg.txCoefA n c t))) ?_)
  refine (plainWrite_rw (Reg.txCoefA n c t) v (by dsimp only; decide) rfl).trans ?_
  exact congrArg (fun x => g.setReg (Reg.txCoefA n c t) ((g.getReg (Reg.txCoefA n c t) &&& ~~~(0x3FFFF : Word)) ||| x)) (low18 hv)

theorem exec_coef_b (t : Fin 32) (ht : s.Takes p u (Reg.txCoefB n c t) g) (hc : g.coefCheck n c true = .ok) (hv : v.toNat < 2 ^ 18) :
    exec (.coefWrite p u n c true t v) s =
      .next ((g.setReg (Reg.txCoefB n c t) (coefWord (g.getReg (Reg.txCoefB n c t)) v)).wrote p (Reg.txCoefB n c t)) := by
  have wrote := write_takes ht (by simp only [Reg.txCoefB]; omega) (findAt_txCoefB n c t) (by decide) (reserved_zero (low18 hv)) rfl hc
  refine (congrArg Host.Outcome.next wrote).trans (congrArg (fun w : State => Host.Outcome.next (w.wrote p (Reg.txCoefB n c t))) ?_)
  refine (plainWrite_rw (Reg.txCoefB n c t) v (by dsimp only; decide) rfl).trans ?_
  exact congrArg (fun x => g.setReg (Reg.txCoefB n c t) ((g.getReg (Reg.txCoefB n c t) &&& ~~~(0x3FFFF : Word)) ||| x)) (low18 hv)

theorem exec_tx_ctrl (ht : s.Takes p u (Reg.txCtrl n c) g) (hr : v &&& ~~~(0x331 : Word) = 0) (hl : fld v 5 4 ≠ 3)
    (hc : g.txCtrlCheck n c v = .ok) :
    exec (.txCtrlWrite p u n c v) s = .next ((g.txCtrlDo n c v).wrote p (Reg.txCtrl n c)) :=
  congrArg Host.Outcome.next
    (write_takes ht (by simp only [Reg.txCtrl]; omega) (findAt_txCtrl n c) (by decide) hr (by simp [fieldLegal, hl]) hc)

theorem exec_tx_fs (ht : s.Takes p u (Reg.txFs n c) g) (hr : v &&& ~~~(0xFF : Word) = 0) (hl : fld v 7 0 ≤ 192)
    (hc : g.txFsCheck n c v = .ok) :
    exec (.txFsWrite p u n c v) s = .next ((g.txFsDo n c v).wrote p (Reg.txFs n c)) :=
  congrArg Host.Outcome.next
    (write_takes ht (by simp only [Reg.txFs]; omega) (findAt_txFs n c) (by decide) hr (by simp [fieldLegal, hl]) hc)

/-- A settling channel takes only the value that stands (R247). -/
theorem settling_ok {a x : Nat} (hq : (g.tx n c).settleTo = none ∨ a = x) : Err.need (!g.settling n c || a == x) .eBusy = .ok := by
  unfold settling Err.need
  rcases hq with h | h
  · rw [h]
    rfl
  · simp [h]

/-- The effect of a TX CTRL write, whether or not the channel holds the balanced state after it (R246). -/
theorem txCtrlDo_eq (g : State) (n c : Nat) (v : Word) :
    let on := g.regBit (Reg.txCtrl n c) 0 ∧ bit v 0 ∧ g.regFld (Reg.txCtrl n c) 5 4 ≠ fld v 5 4
    g.txCtrlDo n c v = (g.setReg (Reg.txCtrl n c) v).modTx n c fun y => { y with
      settleTo := if on then some (g.beat + 1500) else y.settleTo
      fsOld := if on then BitVec.ofNat 8 (g.regFld (Reg.txFs n c) 7 0) else y.fsOld } := by
  intro on
  have fs : (g.setReg (Reg.txCtrl n c) v).regFld (Reg.txFs n c) 7 0 = g.regFld (Reg.txFs n c) 7 0 :=
    congrArg (fun x => fld x 7 0) (getReg_setReg_other g v (by simp only [Reg.txCtrl, Reg.txFs]; omega))
  have cond : (bit (g.getReg (Reg.txCtrl n c)) 0 ∧ bit v 0 ∧ fld (g.getReg (Reg.txCtrl n c)) 5 4 ≠ fld v 5 4) = on := rfl
  unfold txCtrlDo
  simp only [cond, fs]
  by_cases h : on
  · simp only [h, if_true]
    rfl
  · simp only [h, if_false]
    exact (modTx_same rfl).symm

/-- The effect of an FS write, whether or not the leg currents ramp after it (R246). -/
theorem txFsDo_eq (g : State) (n c : Nat) (v : Word) :
    let on := g.regBit (Reg.txCtrl n c) 0 ∧ g.getReg (Reg.txFs n c) ≠ v
    g.txFsDo n c v = (g.setReg (Reg.txFs n c) v).modTx n c fun y => { y with
      settleTo := if on then some (g.beat + 3000) else y.settleTo
      fsOld := if on then (g.getReg (Reg.txFs n c)).truncate 8 else y.fsOld } := by
  intro on
  have ctl : (g.setReg (Reg.txFs n c) v).regBit (Reg.txCtrl n c) 0 = g.regBit (Reg.txCtrl n c) 0 :=
    congrArg (fun x => bit x 0) (getReg_setReg_other g v (by simp only [Reg.txCtrl, Reg.txFs]; omega))
  unfold txFsDo
  simp only [ctl]
  by_cases h : on
  · rw [if_pos h]
    simp only [h, if_true]
    rfl
  · rw [if_neg h]
    simp only [h, if_false]
    exact (modTx_same rfl).symm

end

end State

/-- Settles O18: a request at its pin beat by what runs and pends, and each write by its check and its effect. -/
theorem transmitChannels : Obligations.TransmitChannels := by
  unfold Obligations.TransmitChannels
  refine ⟨fun s n c P b hi hr hP hh => ?fades, fun s g p u n c v hi => ?writes⟩
  case fades =>
    intro x len run
    have hu : (s.modTx n c fun y => { y with reqs := [] }).Inv := State.modTx_inv n c _ hi
    have left_ := hi.tx_modTx n c fun y => { y with reqs := [] }
    refine ⟨fun h1 h2 hb => ?same, fun h1 h2 hb => ?starts, fun r h1 hlt h2 hb => ?waits, fun r d h1 hlt h2 hb => ?rejected,
      fun r h1 hle h2 => ?ends, fun r d h1 hle h2 hlen => ?follows, fun b hs hb => ?settled⟩
    case same =>
      rw [State.exec_fade_reach hr hP hi hh (State.endFade_none h1), State.reachFade_eq, left_]
      simp [x, h1, h2, hb] at *
    case starts =>
      rw [State.exec_fade_reach hr hP hi hh (State.endFade_none h1), State.reachFade_eq, left_]
      simp only [show (s.tx n c).run = none from h1, show (s.tx n c).pend = none from h2, Option.map_none, Option.getD_none, Option.isNone_none,
        if_true, if_neg (show ¬ b = (s.tx n c).act from hb)]
      rw [State.startFade, State.modTx_modTx]
      refine congrArg _ (State.modTx_congr ?_)
      have fresh : ((s.tx n c).act == b) = false := beq_eq_false_iff_ne.mpr (Ne.symm hb)
      have same : (s.modTx n c fun y => { y with reqs := [] }).fadeLen n c = len := rfl
      rw [same]
      by_cases h0 : len = 0
      · simp only [h0, if_true, State.switchBank, fresh, Bool.false_or, ← show (s.tx n c).run = none from h1]
        rfl
      · simp only [h0, if_false]
        rfl
    case waits =>
      rw [State.exec_fade_reach hr hP hi hh (State.endFade_runs h1 hlt), State.reachFade_eq, left_]
      simp only [show (s.tx n c).run = some r from h1, show (s.tx n c).pend = none from h2, Option.map_some, Option.getD_none, Option.getD_some,
        Option.isNone_none, Option.isNone_some, if_true, if_neg hb, Bool.false_eq_true, if_false]
      rw [State.modTx_modTx]
    case rejected =>
      rw [State.exec_fade_reach hr hP hi hh (State.endFade_runs h1 hlt), State.reachFade_eq, left_]
      simp only [show (s.tx n c).run = some r from h1, show (s.tx n c).pend = some d from h2, Option.getD_some,
        Option.isNone_some, if_neg hb, Bool.false_eq_true, if_false]
      rfl
    case ends =>
      have ended := State.endFade_ends hi h1 hle h2
      refine ⟨_, rfl, ?_⟩
      rw [ended, hi.tx_modTx]
      exact ⟨rfl, rfl, rfl, (State.OnlyRing.refl s n).modRing _⟩
    case follows =>
      have ended := State.endFade_follows hi h1 hle h2 hlen
      refine ⟨_, rfl, ?_⟩
      rw [ended, hi.tx_modTx]
      exact ⟨rfl, rfl, rfl, (State.OnlyRing.refl s n).modRing _⟩
    case settled =>
      show execTxSettleEnd n c s = _
      unfold execTxSettleEnd
      simp only [show (s.tx n c).settleTo = some b from hs, hb, if_true]
  case writes =>
    intro x idle ctl kept
    refine ⟨fun ht b => ⟨fun hrun hfree => ?queued, fun hstop hidle => ?atOnce⟩, fun t ht hc hv => ?coefA, fun t ht hc hv => ?coefB,
      fun ht hr hl hstop hset => ?ctrl, fun ht hv hstop hset => ?fs⟩
    case queued =>
      have check : g.fadeReqCheck n c = .ok := by
        unfold State.fadeReqCheck
        rw [if_pos hrun]
        rcases hfree with h | h <;> simp [x] at h <;> simp [h, Err.need]
      rw [State.exec_fade_req ht b check, State.fadeReqDo]
      simp only [hrun, if_true]
    case atOnce =>
      obtain ⟨h1, h2, h3⟩ := hidle
      have check : g.fadeReqCheck n c = .ok := by
        unfold State.fadeReqCheck
        rw [if_neg (by simp [hstop])]
        simp only [show (g.tx n c).run = none from h1, show (g.tx n c).pend = none from h2, show (g.tx n c).host = none from h3]
        rfl
      rw [State.exec_fade_req ht b check, State.fadeReqDo]
      simp only [hstop, Bool.false_eq_true, if_false]
      refine congrArg (fun w : State => Host.Outcome.next (w.wrote p (Reg.txFadeReq n c))) (State.modTx_congr ?_)
      simp only [State.switchBank, ← show (g.tx n c).run = none from h1, Bool.or_eq_true, beq_iff_eq]
    case coefA =>
      refine State.exec_coef_a t ht ?_ hv
      unfold State.coefCheck
      rcases hc with h | ⟨h, h1, h2, h3⟩
      · simp [h, Err.need]
      · simp [x] at h h1 h2 h3
        simp [h, h1, h2, h3, Err.need]
    case coefB =>
      refine State.exec_coef_b t ht ?_ hv
      unfold State.coefCheck
      rcases hc with h | ⟨h, h1, h2, h3⟩
      · simp [h, Err.need]
      · simp [x] at h h1 h2 h3
        simp [h, h1, h2, h3, Err.need]
    case ctrl =>
      have check : g.txCtrlCheck n c v = .ok := by
        unfold State.txCtrlCheck
        rw [State.settling_ok hset]
        simp [hl, hstop, Err.need, Err.orElse]
      rw [State.exec_tx_ctrl ht hr hl check, State.txCtrlDo_eq]
    case fs =>
      have low : fld v 7 0 = v.toNat := by
        simp only [fld, Nat.shiftRight_zero]
        omega
      have check : g.txFsCheck n c v = .ok := by
        unfold State.txFsCheck
        rw [State.settling_ok hset, low]
        simp [hv, hstop, Err.need, Err.orElse]
      have inside : v &&& ~~~(0xFF : Word) = 0 := State.reserved_zero (BitVec.eq_of_toNat_eq (by
        rw [BitVec.toNat_and]
        exact (Nat.and_two_pow_sub_one_eq_mod v.toNat 8).trans (by omega)))
      rw [State.exec_tx_fs ht inside (low ▸ hv) check, State.txFsDo_eq]

end Sys2Proof.Machine
end

section
/-! PROOF. The host's writes to a bias output and the moves of its limiter (R252-R257, R260, R266). -/

namespace Sys2Proof.Machine

namespace State

theorem Inv.biasOut_modBias {s : State} (h : s.Inv) (n : RingId) (b : Fin 4) (f : BiasOut → BiasOut) :
    (s.modBias n b f).biasOut n b = f (s.biasOut n b) :=
  biasOut_modBias_self h.rings_length n.isLt (by obtain ⟨-, -, bias, -⟩ := h.ring_sized n.isLt; rw [bias]; exact b.isLt) f

/-- What the limiter makes of a new target in beat `b`, with STEP `step` (R253, R259). -/
def moveTo (b step : Nat) (t : Int) (force : Bool) (o : BiasOut) : BiasOut :=
  if (t - o.y).natAbs = 0 then { o with t := t, mode := .rest, reachedAt := b }
  else { o with t := t, mode := if force ∨ ((t - o.y).natAbs : Int) ≤ 64 * (step : Nat) then .step else .slew }

theorem takeTarget_eq (s : State) (n b : Nat) (t : Int) (force : Bool) :
    s.takeTarget n b t force = s.modBias n b (moveTo s.beat (s.regFld (Reg.biasStep n b) 19 0) t force) := rfl

theorem moveTo_at {b step : Nat} {t : Int} {force : Bool} {o : BiasOut} (h : t = o.y) :
    moveTo b step t force o = { o with t := t, mode := .rest, reachedAt := b } := by
  unfold moveTo
  rw [if_pos (by omega)]

theorem moveTo_away {b step : Nat} {t : Int} {force : Bool} {o : BiasOut} (h : t ≠ o.y) :
    moveTo b step t force o =
      { o with t := t, mode := if force ∨ ((t - o.y).natAbs : Int) ≤ 64 * (step : Nat) then .step else .slew } := by
  unfold moveTo
  rw [if_neg (by omega)]

section
variable {s g : State} {p : Port} {u : Sid} {n : RingId} {b : Fin 4} {v : Word}

/-- A register write of the host acts in a sound state. -/
theorem Takes.inv {a : Nat} (ht : s.Takes p u a g) (hi : s.Inv) : g.Inv := by
  rw [ht.state]
  exact modSess_inv u _ (.upd (noteFrame_inv u p none hi) rfl)

/-- A write that has been answered changes nothing but what the rest of the beat sees of it, and the answer (R46, R66). -/
theorem wrote_fields (t : State) (p a : Nat) : ∃ w r, t.wrote p a = { t with beatWrites := w, resp := r } := by
  unfold wrote noteWrite
  split
  · exact ⟨t.beatWrites, _, rfl⟩
  · exact ⟨_, _, rfl⟩

theorem clrForce_false (h : ¬ (g.rst.clrN = true ∨ g.rst.clrShut = true)) : g.clrForce = false := by
  simpa [clrForce] using h

/-! ### The host's writes -/

/-- Bits from `k` up are 0 in a number below 2^k. -/
theorem high_zero {k : Nat} {m : Word} (hm : m.toNat = 2 ^ k - 1) (hv : v.toNat < 2 ^ k) : v &&& ~~~m = 0 := by
  refine reserved_zero (BitVec.eq_of_toNat_eq ?_)
  rw [BitVec.toNat_and, hm, Nat.and_two_pow_sub_one_eq_mod, Nat.mod_eq_of_lt hv]

theorem exec_bias_target (ht : s.Takes p u (Reg.biasTarget n b) g) (hv : v.toNat < 2 ^ 20) (hc : g.biasTargetCheck n b = .ok) :
    exec (.biasTargetWrite p u n b v) s = .next ((g.biasEntry n b (biasCode v)).wrote p (Reg.biasTarget n b)) :=
  congrArg Host.Outcome.next
    (write_takes ht (by simp only [Reg.biasTarget]; omega) (findAt_biasTarget n b) (by decide) (high_zero (k := 20) (by decide) hv) rfl hc)

theorem exec_qclr (ht : s.Takes p u (Reg.biasQclr n b) g) (hc : g.biasIdle n = .ok) :
    exec (.qclr p u n b) s = .next ((g.biasStop n b).wrote p (Reg.biasQclr n b)) :=
  congrArg Host.Outcome.next
    (write_takes ht (by simp only [Reg.biasQclr]; omega) (findAt_biasQclr n b) (by decide) (by decide) rfl hc)

theorem exec_clear (ht : s.Takes p u (Reg.biasClear n b) g) (hv : v.toNat < 2 ^ 20) :
    exec (.clearWrite p u n b v) s = .next ((g.clearDo n b v).wrote p (Reg.biasClear n b)) :=
  congrArg Host.Outcome.next
    (write_takes ht (by simp only [Reg.biasClear]; omega) (findAt_biasClear n b) (by decide) (high_zero (k := 20) (by decide) hv) rfl rfl)

theorem exec_span (ht : s.Takes p u (Reg.biasSpan n b) g) (hv : v.toNat < 2 ^ 22) (hl : fld v 21 20 ≠ 3) (hc : g.spanCheck n b v = .ok) :
    exec (.spanWrite p u n b v) s = .next ((g.spanDo n b v).wrote p (Reg.biasSpan n b)) :=
  congrArg Host.Outcome.next
    (write_takes ht (by simp only [Reg.biasSpan]; omega) (findAt_biasSpan n b) (by decide) (high_zero (k := 22) (by decide) hv)
      (by simp [fieldLegal, hl]) hc)

/-- A SPAN write with the span in force enters its code (R257). -/
theorem spanDo_same (hc : g.clrForce = false) (hq : (g.biasOut n b).queue = [])
    (hs : BitVec.ofNat 2 (fld v 21 20) = (g.biasOut n b).spanNow) :
    g.spanDo n b v = (g.setReg (Reg.biasSpan n b) v).modBias n b fun o => { o with queue := [(g.beat, biasCode v)] } := by
  have room : ((g.setReg (Reg.biasSpan n b) v).biasOut n b).queue.length < 8 := by
    show (g.biasOut n b).queue.length < 8
    rw [hq]
    decide
  unfold spanDo
  rw [if_pos (show _ = ((g.setReg (Reg.biasSpan n b) v).biasOut n b).spanNow from hs), biasEntry_room (g := g.setReg (Reg.biasSpan n b) v) hc room]
  refine modBias_congr ?_
  show ({ g.biasOut n b with queue := (g.biasOut n b).queue ++ _ } : BiasOut) = _
  rw [hq]
  rfl

/-- The output of a span change that begins (R257). -/
def spanBegun (v : Word) (o : BiasOut) : BiasOut :=
  { o with span := some .toZero, newSpan := BitVec.ofNat 2 (fld v 21 20), newCode := biasCode v, clearEnd := false }

/-- A span change begins with the move to 0 V, and with the hold where the output is there (R257). -/
theorem spanDo_change (hs : BitVec.ofNat 2 (fld v 21 20) ≠ (g.biasOut n b).spanNow) :
    g.spanDo n b v = ((g.setReg (Reg.biasSpan n b) v).modBias n b fun o =>
      moveTo g.beat (g.regFld (Reg.biasStep n b) 19 0) 0 false (spanBegun v o)).spanHold n b := by
  have step : ((g.setReg (Reg.biasSpan n b) v).modBias n b (spanBegun v)).regFld (Reg.biasStep n b) 19 0 = g.regFld (Reg.biasStep n b) 19 0 :=
    congrArg (fun x => fld x 19 0) (getReg_setReg_other g v (by simp only [Reg.biasStep, Reg.biasSpan]; omega))
  unfold spanDo
  rw [if_neg (show ¬ _ = ((g.setReg (Reg.biasSpan n b) v).biasOut n b).spanNow from hs)]
  refine congrArg (fun w : State => w.spanHold n b) ?_
  show (((g.setReg (Reg.biasSpan n b) v).modBias n b (spanBegun v)).takeTarget n b 0 false) = _
  rw [takeTarget_eq, step, modBias_modBias]
  rfl

/-! ### Moves of the limiter -/

theorem takeDue_some {e : Nat × Int} {rest : List (Nat × Int)} (hq : (s.biasOut n b).queue = e :: rest) (hm : (s.biasOut n b).mode = .rest)
    (hs : (s.biasOut n b).span = none) (he : e.1 < s.beat) (hr : (s.biasOut n b).reachedAt < s.beat) :
    exec (.biasTake n b) s = .next (s.modBias n b fun x =>
      moveTo s.beat (s.regFld (Reg.biasStep n b) 19 0) (64 * e.2) false { x with queue := rest }) := by
  have due : s.takeDue n b = some (64 * e.2) := by
    unfold takeDue
    simp [hq, hm, hs, he, hr]
  show execBiasTake n b s = _
  unfold execBiasTake
  simp only [due]
  rw [takeTarget_eq, modBias_modBias]
  refine congrArg _ (modBias_congr ?_)
  simp only [hq, List.drop_one, List.tail_cons]
  rfl

theorem spanHold_not {w : State} (h : ¬ ((w.biasOut n b).span = some .toZero ∧ (w.biasOut n b).y = 0 ∧ (w.biasOut n b).mode = .rest)) :
    w.spanHold n b = w := by
  unfold spanHold
  rw [if_neg h]

theorem spanHold_there {w : State} (h : (w.biasOut n b).span = some .toZero ∧ (w.biasOut n b).y = 0 ∧ (w.biasOut n b).mode = .rest) :
    w.spanHold n b = w.modBias n b fun o => { o with span := some (.holdZero (w.beat + 1500)) } := by
  unfold spanHold
  rw [if_pos h]

theorem exec_slew_end (hm : (s.biasOut n b).mode ≠ .rest) (hy : (s.biasOut n b).y = (s.biasOut n b).t) :
    exec (.biasSlewEnd n b) s = .next ((s.modBias n b fun o => { o with mode := .rest, reachedAt := s.beat }).spanHold n b) := by
  show execBiasSlewEnd n b s = _
  unfold execBiasSlewEnd
  simp [hm, hy]

end

end State

/-- Settles O19: the checks and effects of the host's writes, and the moves of the limiter by what its queue and its span hold. -/
theorem biasWritesAndMoves : Obligations.BiasWritesAndMoves := by
  unfold Obligations.BiasWritesAndMoves
  refine ⟨fun s g p u n b v hi => ?writes, fun s n b hi => ?moves⟩
  case writes =>
    intro o clr
    have idle : g.ringRuns n = false → g.biasIdle n = .ok := fun h => by simp [State.biasIdle, h, Err.need]
    refine ⟨fun ht hv hr hc hs hq => ?target, fun ht hr => ?qclr, fun ht hv hc => ?clear, fun ht hv hl hr hc hs hm hq => ?span⟩
    case target =>
      have check : g.biasTargetCheck n b = .ok := by
        unfold State.biasTargetCheck
        rw [idle hr, State.clrForce_false hc, show (g.biasOut n b).span = none from hs]
        rfl
      rw [State.exec_bias_target ht hv check, State.biasEntry_room (State.clrForce_false hc) hq]
      rfl
    case qclr => rw [State.exec_qclr ht (idle hr), State.biasStop]
    case clear =>
      rw [State.exec_clear ht hv, State.clearDo]
      simp only [show (g.setReg (Reg.biasClear n b) v).clrForce = false from State.clrForce_false hc, Bool.false_eq_true, if_false]
    case span =>
      have hgi : g.Inv := ht.inv hi
      have hu : (g.setReg (Reg.biasSpan n b) v).Inv := State.setReg_inv _ _ hgi
      have check : g.spanCheck n b v = .ok := by
        unfold State.spanCheck State.slewing
        rw [idle hr, State.clrForce_false hc]
        simp [show (g.biasOut n b).span = none from hs, show (g.biasOut n b).mode = .rest from hm,
          show (g.biasOut n b).queue = [] from hq, hl, Err.need, Err.orElse]
      have acts := State.exec_span ht hv hl check
      refine ⟨fun same => ?_, fun other hy => ?_, fun other hy => ?_⟩
      · rw [acts, State.spanDo_same (State.clrForce_false hc) hq same]
        rfl
      · have moved := State.moveTo_away (b := g.beat) (step := g.regFld (Reg.biasStep n b) 19 0) (t := 0) (force := false)
          (o := State.spanBegun v o) (Ne.symm hy)
        refine ⟨_, acts, ?_⟩
        have out := hu.biasOut_modBias n b fun o => State.moveTo g.beat (g.regFld (Reg.biasStep n b) 19 0) 0 false (State.spanBegun v o)
        have out : _ = State.moveTo g.beat (g.regFld (Reg.biasStep n b) 19 0) 0 false (State.spanBegun v o) := out
        rw [State.spanDo_change other, State.spanHold_not]
        · obtain ⟨w, r, e⟩ := State.wrote_fields ((g.setReg (Reg.biasSpan n b) v).modBias n b fun o =>
            State.moveTo g.beat (g.regFld (Reg.biasStep n b) 19 0) 0 false (State.spanBegun v o)) p (Reg.biasSpan n b)
          rw [e]
          refine ⟨State.getReg_setReg_self hgi.regs_wf _ _, (out.trans moved).trans ?_,
            ((State.OnlyRing.refl g n).setReg hgi (Reg.biasSpan n b) v).modRing _⟩
          have dist : (0 - (State.spanBegun v o).y).natAbs = o.y.natAbs := by
            show (0 - o.y).natAbs = _
            omega
          simp only [dist, Bool.false_eq_true, false_or]
          rfl
        · rw [out, moved]
          rintro ⟨-, h, -⟩
          exact hy h
      · have moved := State.moveTo_at (b := g.beat) (step := g.regFld (Reg.biasStep n b) 19 0) (t := 0) (force := false)
          (o := State.spanBegun v o) hy.symm
        have out := hu.biasOut_modBias n b fun o => State.moveTo g.beat (g.regFld (Reg.biasStep n b) 19 0) 0 false (State.spanBegun v o)
        have out : _ = State.moveTo g.beat (g.regFld (Reg.biasStep n b) 19 0) 0 false (State.spanBegun v o) := out
        rw [acts, State.spanDo_change other, State.spanHold_there, State.modBias_modBias]
        · refine congrArg (fun w : State => Host.Outcome.next (w.wrote p (Reg.biasSpan n b))) (State.modBias_congr ?_)
          exact congrArg (fun x : BiasOut => { x with span := some (.holdZero (g.beat + 1500)) }) moved
        · rw [out, moved]
          exact ⟨rfl, hy, rfl⟩
  case moves =>
    intro o near
    refine ⟨fun e rest hq hm hs he hr hy => ?away, fun e rest hq hm hs he hr hy => ?there, fun e rest hq hn => ?stays, fun hm hy hs => ?ends,
      fun hm hy ht hs => ?holds, fun hm hy => ?goes, fun t hs ht hc h1 h2 hq => ?settles, fun h0 => ?tick, fun h0 => ?between⟩
    case away =>
      rw [State.takeDue_some hq hm hs he hr]
      refine congrArg _ (State.modBias_congr ((State.moveTo_away (o := { o with queue := rest }) hy).trans ?_))
      simp only [Bool.false_eq_true, false_or]
      rfl
    case there =>
      rw [State.takeDue_some hq hm hs he hr]
      refine congrArg _ (State.modBias_congr ((State.moveTo_at (o := { o with queue := rest }) hy).trans ?_))
      simp only [← hm]
      rfl
    case stays =>
      have none_ : s.takeDue n b = none := by
        unfold State.takeDue
        simp only [show (s.biasOut n b).queue = e :: rest from hq]
        refine if_neg fun ⟨hm, hs, he, hr⟩ => ?_
        rcases hn with h | h | h | h
        · exact h hm
        · rw [show o.span = none from hs] at h
          cases h
        · omega
        · exact Nat.ne_of_lt hr h
      show execBiasTake n b s = _
      unfold execBiasTake
      rw [none_]
    case ends =>
      rw [State.exec_slew_end hm hy, State.spanHold_not]
      rw [hi.biasOut_modBias]
      rintro ⟨h, -, -⟩
      exact absurd (hs.symm.trans h) (by simp)
    case holds =>
      rw [State.exec_slew_end hm (hy.trans ht.symm), State.spanHold_there, State.modBias_modBias]
      · rfl
      · rw [hi.biasOut_modBias]
        exact ⟨hs, hy, rfl⟩
    case goes =>
      show execBiasSlewEnd n b s = _
      unfold execBiasSlewEnd
      dsimp only
      rw [if_neg fun h => hy h.2]
    case settles =>
      have hu := State.modBias_inv n b (fun o => { o with span := none, spanNow := o.newSpan, clearEnd := false }) hi
      have out := hi.biasOut_modBias n b fun o => { o with span := none, spanNow := o.newSpan, clearEnd := false }
      have free : s.clrForce = false := by simp [State.clrForce, h1, h2]
      show execSpanSettleEnd n b s = _
      unfold execSpanSettleEnd
      simp only [show (s.biasOut n b).span = some (.holdZero t) from hs, ht, if_true, show (s.biasOut n b).clearEnd = false from hc,
        Bool.false_eq_true, if_false]
      rw [State.biasEntry_room (g := s.modBias n b _) free (by rw [out]; simp [show (s.biasOut n b).queue = [] from hq]), State.modBias_modBias]
      refine congrArg _ (State.modBias_congr ?_)
      simp only [show (s.biasOut n b).queue = [] from hq, ← show (s.biasOut n b).clearEnd = false from hc]
      rfl
    case tick =>
      show execBiasSampleTick n b s = _
      unfold execBiasSampleTick
      rw [if_pos h0]
      rfl
    case between =>
      show execBiasSampleTick n b s = _
      unfold execBiasSampleTick
      rw [if_neg h0]

end Sys2Proof.Machine
end

section
/-! PROOF. CLR_N, VBIAS and the fault flags of the bias outputs (R258-R264). -/

namespace Sys2Proof.Machine

namespace State

/-! ### Every output of the chip -/

/-- The 48 bias outputs, ring by ring (R11). -/
def biasPairs : List (Nat × Nat) := (List.range 12).flatMap fun n => (List.range 4).map fun b => (n, b)

theorem mem_biasPairs {n b : Nat} : (n, b) ∈ biasPairs ↔ n < 12 ∧ b < 4 := by
  simp [biasPairs]

theorem biasPairs_nodup : biasPairs.Nodup := by decide

theorem forBias_eq (s : State) (f : Nat → Nat → State → State) : s.forBias f = biasPairs.foldl (fun s p => f p.1 p.2 s) s := by
  unfold forBias forBelow biasPairs
  rw [List.foldl_flatMap]
  simp only [List.foldl_map]

/-- The outputs of a list are updated, each by itself. -/
def eachBias (F : Nat → Nat → BiasOut → BiasOut) (l : List (Nat × Nat)) (s : State) : State :=
  l.foldl (fun u p => u.modBias p.1 p.2 (F p.1 p.2)) s

/-- What an update of each output leaves. -/
theorem eachBias_spec (F : Nat → Nat → BiasOut → BiasOut) (l : List (Nat × Nat)) (hl : l.Nodup) (hr : ∀ p ∈ l, p.1 < 12 ∧ p.2 < 4)
    {s : State} (hi : s.Inv) :
    (∀ n b, ((n, b) ∈ l → (eachBias F l s).biasOut n b = F n b (s.biasOut n b)) ∧
      ((n, b) ∉ l → (eachBias F l s).biasOut n b = s.biasOut n b)) ∧
    (∀ n, { (eachBias F l s).ring n with bias := (s.ring n).bias } = s.ring n) ∧ ∃ r, eachBias F l s = { s with rings := r } := by
  induction l generalizing s with
  | nil => exact ⟨fun n b => ⟨fun h => absurd h (by simp), fun _ => rfl⟩, fun n => rfl, s.rings, rfl⟩
  | cons p t ih =>
    obtain ⟨n0, b0⟩ := p
    obtain ⟨hp, ht⟩ := List.nodup_cons.mp hl
    obtain ⟨hn, hb⟩ := hr (n0, b0) (by simp)
    have self := hi.biasOut_modBias ⟨n0, hn⟩ ⟨b0, hb⟩ (F n0 b0)
    have hu : (s.modBias n0 b0 (F n0 b0)).Inv := modBias_inv n0 b0 _ hi
    obtain ⟨outs, rings, r, e⟩ := ih ht (fun p hp => hr p (by simp [hp])) hu
    refine ⟨fun n b => ?_, fun n => ?_, r, e⟩
    · obtain ⟨inside, outside⟩ := outs n b
      by_cases h0 : (n, b) = (n0, b0)
      · obtain ⟨rfl, rfl⟩ := Prod.mk.inj h0
        refine ⟨fun _ => (outside hp).trans self, fun h => absurd (by simp) h⟩
      · have other : (s.modBias n0 b0 (F n0 b0)).biasOut n b = s.biasOut n b :=
          biasOut_modBias_ne _ (by
            rw [← not_and_or]
            rintro ⟨rfl, rfl⟩
            exact h0 rfl)
        refine ⟨fun h => ?_, fun h => (outside fun c => h (by simp [c])).trans other⟩
        rw [← other]
        exact inside ((List.mem_cons.mp h).resolve_left h0)
    · have step : { (s.modBias n0 b0 (F n0 b0)).ring n with bias := (s.ring n).bias } = s.ring n := by
        unfold modBias
        rw [ring_modRing]
        split <;> rfl
      have rest := congrArg (fun x : Ring => { x with bias := (s.ring n).bias }) (rings n)
      exact rest.trans step

/-- Operations on the outputs that read the registers and the beat alone are updates of each output. -/
theorem foldl_eachBias {s : State} {f : Nat → Nat → State → State} {F : Nat → Nat → BiasOut → BiasOut}
    (hf : ∀ (n : RingId) (b : Fin 4) (u : State), u.Inv → u.regs = s.regs → u.beat = s.beat → f n b u = u.modBias n b (F n b))
    (l : List (Nat × Nat)) (hr : ∀ p ∈ l, p.1 < 12 ∧ p.2 < 4) :
    ∀ u : State, u.Inv → u.regs = s.regs → u.beat = s.beat → l.foldl (fun u p => f p.1 p.2 u) u = eachBias F l u := by
  induction l with
  | nil => exact fun _ _ _ _ => rfl
  | cons p t ih =>
    intro u hi h1 h2
    obtain ⟨hn, hb⟩ := hr p (by simp)
    rw [List.foldl_cons, hf ⟨p.1, hn⟩ ⟨p.2, hb⟩ u hi h1 h2]
    exact ih (fun q hq => hr q (by simp [hq])) _ (modBias_inv _ _ _ hi) h1 h2

/-- An operation on every output, by what it makes of each (R259, R263). -/
theorem forBias_spec {s : State} (hi : s.Inv) {f : Nat → Nat → State → State} {F : Nat → Nat → BiasOut → BiasOut}
    (hf : ∀ (n : RingId) (b : Fin 4) (u : State), u.Inv → u.regs = s.regs → u.beat = s.beat → f n b u = u.modBias n b (F n b)) :
    ∃ t, s.forBias f = t ∧ (∀ n < 12, ∀ b < 4, t.biasOut n b = F n b (s.biasOut n b)) ∧
      (∀ n, { t.ring n with bias := (s.ring n).bias } = s.ring n) ∧ ∃ r, t = { s with rings := r } := by
  rw [forBias_eq, foldl_eachBias hf biasPairs (fun p hp => mem_biasPairs.mp hp) s hi rfl rfl]
  obtain ⟨outs, rest⟩ := eachBias_spec F biasPairs biasPairs_nodup (fun p hp => mem_biasPairs.mp hp) hi
  exact ⟨_, rfl, fun n hn b hb => (outs n b).1 (mem_biasPairs.mpr ⟨hn, hb⟩), rest⟩

/-! ### CLR_N and VBIAS -/

/-- The move of an output to its clear code (R259). -/
def clearMove (s : State) (n b : Nat) (force : Bool) : BiasOut → BiasOut :=
  moveTo s.beat (s.regFld (Reg.biasStep n b) 19 0) (64 * biasCode (s.getReg (Reg.biasClear n b))) (force || s.regBit (Reg.biasCtrl n b) 1)

theorem clearTake_eq {s u : State} (hr : u.regs = s.regs) (hb : u.beat = s.beat) (n b : Nat) (force : Bool) :
    u.clearTake n b force = u.modBias n b (s.clearMove n b force) := by
  unfold clearTake clearMove
  rw [takeTarget_eq, hb]
  unfold regFld regBit getReg
  rw [hr]

/-- What CLR_N makes of an output (R259). -/
def clearHeld (s : State) (n b : Nat) (o : BiasOut) : BiasOut :=
  if o.span.isSome then { o with queue := [], clearEnd := true } else s.clearMove n b false { o with queue := [] }

theorem clearAssert_eq {s u : State} (hu : u.Inv) (hr : u.regs = s.regs) (hb : u.beat = s.beat) (n : RingId) (b : Fin 4) :
    u.clearAssert n b false = u.modBias n b (s.clearHeld n b) := by
  have out := hu.biasOut_modBias n b fun o => { o with queue := [] }
  unfold clearAssert
  dsimp only
  rw [out, clearTake_eq (u := u.modBias n b _) hr hb, modBias_modBias, modBias_modBias]
  split
  · refine modBias_congr ?_
    rw [clearHeld, if_pos ‹_›]
  · refine modBias_congr ?_
    rw [clearHeld, if_neg ‹_›]

/-- The move to the clear code, by how far it is (R253, R259). -/
theorem clearMove_spec (s : State) (n b : Nat) (o : BiasOut) :
    let code := 64 * sfld (s.getReg (Reg.biasClear n b)) 19 0
    let x := s.clearMove n b false o
    x.queue = o.queue ∧ x.t = code ∧ x.y = o.y ∧ x.driven = o.driven ∧ (code ≠ o.y →
      (x.mode = .step ↔ ((code - o.y).natAbs : Int) ≤ 64 * (s.regFld (Reg.biasStep n b) 19 0 : Nat) ∨ s.regBit (Reg.biasCtrl n b) 1 = true) ∧
      x.mode ≠ .rest) := by
  intro code x
  by_cases h : code = o.y
  · have e : x = _ := moveTo_at h
    rw [e]
    exact ⟨rfl, rfl, rfl, rfl, fun c => absurd h c⟩
  · have e : x = _ := moveTo_away h
    rw [e]
    refine ⟨rfl, rfl, rfl, rfl, fun _ => ?_⟩
    simp only [Bool.false_or]
    split
    · exact ⟨⟨fun _ => Or.symm ‹_›, fun _ => rfl⟩, by simp⟩
    · exact ⟨⟨fun c => absurd c (by simp), fun c => absurd c.symm ‹_›⟩, by simp⟩

/-! ### Flags of the outputs -/

/-- The registers play no part in an update of each output, and the rings none in raising their flags. -/
theorem eachBias_regs (F : Nat → Nat → BiasOut → BiasOut) (r : List (Nat × Word)) (e : List (Nat × Nat)) (l : List (Nat × Nat)) :
    ∀ u : State, eachBias F l { u with regs := r, beatSets := e } = { eachBias F l u with regs := r, beatSets := e } := by
  induction l with
  | nil => exact fun _ => rfl
  | cons p t ih => exact fun u => ih (u.modBias p.1 p.2 (F p.1 p.2))

theorem foldl_raise_rings (k : Nat) (x : List Ring) (l : List (Nat × Nat)) :
    ∀ u : State, l.foldl (fun u p => u.raiseFlag (Reg.biasFlags p.1 p.2) k) { u with rings := x } =
      { l.foldl (fun u p => u.raiseFlag (Reg.biasFlags p.1 p.2) k) u with rings := x } := by
  induction l with
  | nil => exact fun _ => rfl
  | cons p t ih => exact fun u => ih (u.raiseFlag (Reg.biasFlags p.1 p.2) k)

/-- Flags of outputs that are raised while each output is updated. -/
theorem foldl_raise (F : Nat → Nat → BiasOut → BiasOut) (k : Nat) (l : List (Nat × Nat)) :
    ∀ u : State, l.foldl (fun u p => (u.modBias p.1 p.2 (F p.1 p.2)).raiseFlag (Reg.biasFlags p.1 p.2) k) u =
      let v := l.foldl (fun u p => u.raiseFlag (Reg.biasFlags p.1 p.2) k) u
      { eachBias F l u with regs := v.regs, beatSets := v.beatSets } := by
  induction l with
  | nil => exact fun _ => rfl
  | cons p t ih =>
    intro u
    have raised := foldl_raise_rings k (u.modBias p.1 p.2 (F p.1 p.2)).rings t (u.raiseFlag (Reg.biasFlags p.1 p.2) k)
    have moved := eachBias_regs F (u.raiseFlag (Reg.biasFlags p.1 p.2) k).regs (u.raiseFlag (Reg.biasFlags p.1 p.2) k).beatSets t
      (u.modBias p.1 p.2 (F p.1 p.2))
    refine (ih ((u.modBias p.1 p.2 (F p.1 p.2)).raiseFlag (Reg.biasFlags p.1 p.2) k)).trans ?_
    rw [show (u.modBias p.1 p.2 (F p.1 p.2)).raiseFlag (Reg.biasFlags p.1 p.2) k = { u.modBias p.1 p.2 (F p.1 p.2) with
      regs := (u.raiseFlag (Reg.biasFlags p.1 p.2) k).regs, beatSets := (u.raiseFlag (Reg.biasFlags p.1 p.2) k).beatSets } from rfl, moved]
    rw [show ({ u.modBias p.1 p.2 (F p.1 p.2) with regs := (u.raiseFlag (Reg.biasFlags p.1 p.2) k).regs, beatSets := (u.raiseFlag (Reg.biasFlags p.1 p.2) k).beatSets } : State) =
      { u.raiseFlag (Reg.biasFlags p.1 p.2) k with rings := (u.modBias p.1 p.2 (F p.1 p.2)).rings } from rfl, raised]
    rfl

/-- What raising flag 5 of each output leaves in the registers (R99). -/
theorem raised_flags (l : List (Nat × Nat)) (hr : ∀ p ∈ l, p.1 < 12 ∧ p.2 < 4) {s : State} (hi : s.Inv) :
    let t := l.foldl (fun u p => u.raiseFlag (Reg.biasFlags p.1 p.2) 5) s
    (∀ n < 12, ∀ b < 4, (n, b) ∈ l ∨ bit (s.getReg (Reg.biasFlags n b)) 5 = true → bit (t.getReg (Reg.biasFlags n b)) 5 = true) ∧
      ∀ a, (∀ p ∈ l, a ≠ Reg.biasFlags p.1 p.2 ∧ a ≠ Reg.biasFlags p.1 p.2 + 8) → t.getReg a = s.getReg a := by
  induction l generalizing s with
  | nil => exact ⟨fun n _ b _ h => h.resolve_left (by simp), fun _ _ => rfl⟩
  | cons p t ih =>
    obtain ⟨hn, hb⟩ := hr p (by simp)
    have cnt : flagCntAddr (Reg.biasFlags p.1 p.2) 5 = Reg.biasFlags p.1 p.2 + 8 := by
      unfold flagCntAddr Reg.biasFlags
      rw [if_neg (by decide), if_neg (by omega)]
    obtain ⟨set, kept⟩ := ih (fun q hq => hr q (by simp [hq])) (raiseFlag_inv (Reg.biasFlags p.1 p.2) 5 hi)
    refine ⟨fun n hn' b hb' h => set n hn' b hb' ?_, fun a ha => ?_⟩
    · by_cases h0 : (n, b) = p
      · subst h0
        exact .inr (bit_raiseFlag hi _ (by decide))
      · have far : n ≠ p.1 ∨ b ≠ p.2 := by
          rw [← not_and_or]
          exact fun c => h0 (Prod.ext c.1 c.2)
        rw [getReg_raiseFlag_ne hi (by simp only [Reg.biasFlags]; omega) (by rw [cnt]; simp only [Reg.biasFlags]; omega)]
        exact h.imp (fun c => (List.mem_cons.mp c).resolve_left h0) id
    · obtain ⟨h1, h2⟩ := ha p (by simp)
      exact (kept a fun q hq => ha q (by simp [hq])).trans (getReg_raiseFlag_ne hi h1 (by rw [cnt]; exact h2))

/-- What a loss of VBIAS makes of an output (R263). -/
def biasLost (o : BiasOut) : BiasOut := { o with driven := false, queue := [], span := none, mode := .rest }

/-- What a loss of VBIAS leaves (R263). -/
theorem vbiasLost_spec {s : State} (hi : s.Inv) :
    ∃ t, (s.forBias fun n b s => (s.modBias n b biasLost).raiseFlag (Reg.biasFlags n b) 5) = t ∧
      (∀ n < 12, ∀ b < 4, t.biasOut n b = biasLost (s.biasOut n b) ∧ bit (t.getReg (Reg.biasFlags n b)) 5 = true) ∧
      (∀ n, { t.ring n with bias := (s.ring n).bias } = s.ring n) ∧ (∃ r q w, t = { s with rings := r, regs := q, beatSets := w }) ∧
      ∀ a, (∀ n < 12, ∀ b < 4, a ≠ Reg.biasFlags n b ∧ a ≠ Reg.biasFlags n b + 8) → t.getReg a = s.getReg a := by
  rw [forBias_eq]
  have inRange : ∀ p ∈ biasPairs, p.1 < 12 ∧ p.2 < 4 := fun p hp => mem_biasPairs.mp hp
  have whole : ∀ n < 12, ∀ b < 4, (n, b) ∈ biasPairs := fun n hn b hb => mem_biasPairs.mpr ⟨hn, hb⟩
  have nodup := biasPairs_nodup
  generalize biasPairs = l at inRange whole nodup ⊢
  obtain ⟨outs, rings, r, e⟩ := eachBias_spec (fun _ _ => biasLost) l nodup inRange hi
  obtain ⟨set, kept⟩ := raised_flags l inRange hi
  refine ⟨_, foldl_raise (fun _ _ => biasLost) 5 l s, fun n hn b hb => ⟨(outs n b).1 (whole n hn b hb), set n hn b hb (.inl (whole n hn b hb))⟩,
    rings, ⟨r, _, _, by rw [e]⟩, fun a ha => kept a fun p hp => ha p.1 (inRange p hp).1 p.2 (inRange p hp).2⟩

/-- A flag that a beat may raise, and the other flags of the register (R99). -/
theorem bit_raiseIf {s : State} (hi : s.Inv) (c : Bool) (a : Nat) {k i : Nat} (hk : k < 32) :
    bit ((s.raiseIf c a k).getReg a) i = (s.regBit a i || (c && decide (i = k))) := by
  unfold raiseIf regBit
  cases c with
  | false => simp
  | true =>
    rw [if_pos rfl]
    show bit (((s.setBit a k true).setFlagCount a k _).getReg a) i = _
    unfold setFlagCount
    rw [getReg_setFld_ne (setBit_inv _ _ _ hi) _ _ _ (flagCntAddr_ne a k), getReg_setBit_self hi, bit_putBit _ _ hk]
    by_cases h : i = k <;> simp [h]

theorem OnlyRing.raiseIf {s t : State} {n : Nat} {as : List Nat} (h : s.OnlyRing t n as) (ht : t.Inv) (c : Bool) (a b : Nat) :
    s.OnlyRing (t.raiseIf c a b) n (as ++ [a, flagCntAddr a b]) := by
  unfold State.raiseIf
  split
  · exact h.raiseFlag ht a b
  · obtain ⟨hr, rest⟩ := h
    exact ⟨fun x hx => hr x fun c => hx (by simp [c]), rest⟩

/-- Flags that a beat may raise, by which it does (R264). -/
theorem limitFlags_spec {s : State} (hi : s.Inv) (n : RingId) (b : Fin 4) (ilim sense : Bool) :
    let t := (s.raiseIf ilim (Reg.biasFlags n b) 4).raiseIf sense (Reg.biasFlags n b) 3
    bit (t.getReg (Reg.biasFlags n b)) 4 = (s.regBit (Reg.biasFlags n b) 4 || ilim) ∧
      bit (t.getReg (Reg.biasFlags n b)) 3 = (s.regBit (Reg.biasFlags n b) 3 || sense) ∧
      s.OnlyRing t n [Reg.biasFlags n b, Reg.biasFlags n b + 4, Reg.biasFlags n b + 8] := by
  intro t
  have hu := raiseIf_inv ilim (Reg.biasFlags n b) 4 hi
  have low : flagCntAddr (Reg.biasFlags n b) 3 = Reg.biasFlags n b + 4 := flagCntAddr_low (by decide)
  have high : flagCntAddr (Reg.biasFlags n b) 4 = Reg.biasFlags n b + 8 := by
    unfold flagCntAddr Reg.biasFlags
    rw [if_neg (by decide), if_neg (by omega)]
  refine ⟨?_, ?_, ?_⟩
  · rw [bit_raiseIf hu _ _ (by decide), regBit, bit_raiseIf hi _ _ (by decide)]
    simp
  · rw [bit_raiseIf hu _ _ (by decide), regBit, bit_raiseIf hi _ _ (by decide)]
    simp
  · obtain ⟨hr, rest⟩ := ((OnlyRing.refl s n).raiseIf hi ilim (Reg.biasFlags n b) 4).raiseIf hu sense (Reg.biasFlags n b) 3
    rw [low, high] at hr
    refine ⟨fun a ha => hr a fun c => ha ?_, rest⟩
    simp only [List.nil_append, List.cons_append, List.mem_cons, List.not_mem_nil, or_false] at c ⊢
    tauto

end State

/-- Settles O20: each command is an update of every output by itself. -/
theorem biasSafety : Obligations.BiasSafety := by
  unfold Obligations.BiasSafety
  intro s hi code moved
  refine ⟨fun h1 h2 => ?assert, rfl, ?loss, ?valid, fun n b ilim sense => ⟨_, rfl, State.limitFlags_spec hi n b ilim sense⟩⟩
  case assert =>
    have hu : ({ s with rst := { s.rst with clrN := true } } : State).Inv := .upd hi rfl
    have run : exec .clrNAssert s = .next (({ s with rst := { s.rst with clrN := true } } : State).forBias fun n b s => s.clearAssert n b false) := by
      show execClrNAssert s = _
      unfold execClrNAssert
      simp only [State.clrForce, h1, h2, Bool.or_self, Bool.false_eq_true, if_false]
    obtain ⟨t, ht, outs, rings, r, e⟩ := State.forBias_spec (f := fun n b s => s.clearAssert n b false) (F := s.clearHeld) hu
      fun n b u iu hr hb => State.clearAssert_eq (s := s) iu hr hb n b
    rw [ht] at run
    refine ⟨t, run, by rw [e], fun n hn b hb hs => ?_, fun n hn b hb hs => ?_, rings, by rw [e]⟩
    · have out : t.biasOut n b = s.clearMove n b false { s.biasOut n b with queue := [] } := (outs n hn b hb).trans (if_neg (by
        rw [show ({ s with rst := { s.rst with clrN := true } } : State).biasOut n b = s.biasOut n b from rfl, hs]
        simp))
      obtain ⟨hq, ht, hy, -, hm⟩ := s.clearMove_spec n b { s.biasOut n b with queue := [] }
      rw [out]
      exact ⟨hq, ht, hy, hm⟩
    · exact (outs n hn b hb).trans (if_pos hs)
  case loss =>
    have hu : ({ s with rst := { s.rst with vbiasOk := false } } : State).Inv := .upd hi rfl
    obtain ⟨t, ht, outs, rings, ⟨r, q, w, e⟩, kept⟩ := State.vbiasLost_spec hu
    have run : exec .vbiasLoss s = .next t := congrArg Host.Outcome.next ht
    exact ⟨t, run, by rw [e], outs, rings, by rw [e], kept⟩
  case valid =>
    have hu : ({ s with rst := { s.rst with vbiasOk := true } } : State).Inv := .upd hi rfl
    let began := fun o : BiasOut => { o with driven := true, y := 0, t := 0, mode := .rest, span := none }
    obtain ⟨t, ht, outs, rings, r, e⟩ := State.forBias_spec (F := fun n b o => s.clearMove n b false (began o))
      (f := fun n b s => (s.modBias n b began).clearTake n b false) hu fun n b u iu hr hb => by
        rw [State.clearTake_eq (s := s) (u := u.modBias n b began) hr hb, State.modBias_modBias]
    have run : exec .vbiasValid s = .next t := congrArg Host.Outcome.next ht
    refine ⟨t, run, by rw [e], fun n hn b hb => ?_, rings, by rw [e]⟩
    obtain ⟨-, ht, hy, hd, hm⟩ := s.clearMove_spec n b (began (s.biasOut n b))
    rw [outs n hn b hb]
    exact ⟨hd, hy, ht, hm⟩

end Sys2Proof.Machine
end

section
/-! PROOF. READY of an RX channel and its overload detector (R270, R272, R273). -/

namespace Sys2Proof.Machine

namespace State

/-! ### Updates of one channel -/

theorem modRx_congr {s : State} {n r : Nat} {f f' : RxCh → RxCh} (h : f (s.rx n r) = f' (s.rx n r)) :
    s.modRx n r f = s.modRx n r f' := modRing_congr (congrArg (fun x => { s.ring n with rx := x }) (modify_congr h))

theorem modRx_id (s : State) (n r : Nat) : s.modRx n r id = s := by
  unfold modRx modRing
  have fix : (fun x : Ring => { x with rx := x.rx.modify r id }) = id := by
    funext x
    rw [List.modify_id]
    rfl
  rw [fix, List.modify_id]

theorem Inv.rx_modRx {s : State} (h : s.Inv) (n : RingId) (r : Fin 2) (f : RxCh → RxCh) : (s.modRx n r f).rx n r = f (s.rx n r) :=
  rx_modRx_self h.rings_length n.isLt (by obtain ⟨-, -, -, rx, -⟩ := h.ring_sized n.isLt; rw [rx]; exact r.isLt) f

/-! ### Flags of several registers -/

/-- What raising one flag of each of several registers leaves, none of which holds a counter of another (R99). -/
theorem foldl_raiseFlag {k : Nat} (hk : k < 32) (l : List Nat) (hc : ∀ a ∈ l, ∀ c ∈ l, a ≠ flagCntAddr c k) {s : State} (hi : s.Inv) :
    ∃ t, l.foldl (fun u a => u.raiseFlag a k) s = t ∧ t.Inv ∧ (∀ a ∈ l, bit (t.getReg a) k = true) ∧
      (∀ x, (∀ a ∈ l, x ≠ a ∧ x ≠ flagCntAddr a k) → t.getReg x = s.getReg x) ∧ ∃ r b, t = { s with regs := r, beatSets := b } := by
  have monotone : ∀ (l : List Nat) (m : List Nat) (_ : ∀ a ∈ m, ∀ c ∈ l, a ≠ flagCntAddr c k) {s : State} (_ : s.Inv),
      (∀ a ∈ m, a ∈ l ∨ bit (s.getReg a) k = true) → ∀ a ∈ m, bit ((l.foldl (fun u a => u.raiseFlag a k) s).getReg a) k = true := by
    intro l m hm
    induction l with
    | nil => exact fun _ h a ha => (h a ha).resolve_left (by simp)
    | cons c t ih =>
      intro s hs h a ha
      refine ih (fun a ha d hd => hm a ha d (by simp [hd])) (raiseFlag_inv c k hs) (fun a ha => ?_) a ha
      by_cases e : a = c
      · subst e
        exact .inr (bit_raiseFlag hs a hk)
      · rw [getReg_raiseFlag_ne hs e (hm a ha c (by simp))]
        exact (h a ha).imp (fun x => (List.mem_cons.mp x).resolve_left e) id
  have frame : ∀ (l : List Nat) {s : State} (_ : s.Inv), (l.foldl (fun u a => u.raiseFlag a k) s).Inv ∧
      (∀ x, (∀ a ∈ l, x ≠ a ∧ x ≠ flagCntAddr a k) → (l.foldl (fun u a => u.raiseFlag a k) s).getReg x = s.getReg x) ∧
      ∃ r b, l.foldl (fun u a => u.raiseFlag a k) s = { s with regs := r, beatSets := b } := by
    intro l
    induction l with
    | nil => exact fun hs => ⟨hs, fun _ _ => rfl, _, _, rfl⟩
    | cons c t ih =>
      intro s hs
      obtain ⟨inv, kept, r, b, e⟩ := ih (raiseFlag_inv c k hs)
      refine ⟨inv, fun x hx => ?_, r, b, e⟩
      obtain ⟨h1, h2⟩ := hx c (by simp)
      exact (kept x fun a ha => hx a (by simp [ha])).trans (getReg_raiseFlag_ne hs h1 h2)
  obtain ⟨inv, kept, fields⟩ := frame l hi
  exact ⟨_, rfl, inv, monotone l l hc hi fun a ha => .inl ha, kept, fields⟩

/-! ### CTRL and READY -/

theorem exec_rx_ctrl {s g : State} {p : Port} {u : Sid} {n : RingId} {r : Fin 2} {v : Word} (ht : s.Takes p u (Reg.rxCtrl n r) g)
    (hr : v &&& ~~~(0x731 : Word) = 0) (hl : fld v 5 4 ≠ 3) (hs : g.ringRuns n = false) :
    exec (.rxCtrlWrite p u n r v) s = .next ((g.rxCtrlDo n r v).wrote p (Reg.rxCtrl n r)) :=
  congrArg Host.Outcome.next (write_takes ht (by simp only [Reg.rxCtrl]; omega) (findAt_rxCtrl n r) (by decide) hr
    (by simp [fieldLegal, hl])
    (show g.rxCtrlCheck n v = .ok by unfold rxCtrlCheck; simp [hl, hs, Err.need, Err.orElse]))

/-! ### The overload detector -/

theorem clippedAt_iff {s : State} {n r P : Nat} :
    s.clippedAt n r P = true ↔ ∃ e ∈ (s.rx n r).hist, e.1 = P ∧ ∃ c ∈ e.2, c = 2047 ∨ c = -2048 := by
  simp [clippedAt, clipped]

theorem mem_dieOthers {n r m q : Nat} : (m, q) ∈ dieOthers n r ↔ m / 3 = n / 3 ∧ (q = 0 ∨ q = 1) ∧ (m, q) ≠ (n, r) := by
  unfold dieOthers
  simp only [List.mem_filter, List.mem_flatMap, List.mem_map, List.mem_range, decide_eq_true_eq, List.mem_cons, Prod.mk.injEq,
    List.not_mem_nil, or_false]
  constructor
  · rintro ⟨⟨x, ⟨i, hi, rfl⟩, h⟩, hne⟩
    refine ⟨?_, ?_, hne⟩ <;> omega
  · rintro ⟨h, hq, hne⟩
    exact ⟨⟨m, ⟨m % 3, by omega, by omega⟩, by omega⟩, hne⟩

/-- A frame of a ring with a 64-bit register written. -/
theorem OnlyRing.setReg64 {s t : State} {n : Nat} {as : List Nat} (h : s.OnlyRing t n as) (ht : t.Inv) (a : Nat) (v : BitVec 64) :
    s.OnlyRing (t.setReg64 a v) n (as ++ [a, a + 4]) := by
  have := (h.setReg ht a (loWord v)).setReg (setReg_inv _ _ ht) (a + 4) (hiWord v)
  rwa [List.append_assoc] at this

/-- What a clipped pin beat leaves, before the other channels of the die are told (R272). -/
theorem clip_marks {s : State} (hi : s.Inv) (n : RingId) (r : Fin 2) (f : RxCh → RxCh) :
    ∃ t, (((s.modRx n r f).raiseFlag (Reg.rxFlags n r) 0).addReg64 (Reg.rxOvrBeatsLo n r) 1) = t ∧ t.Inv ∧ t.rx n r = f (s.rx n r) ∧
      bit (t.getReg (Reg.rxFlags n r)) 0 = true ∧ t.getReg64 (Reg.rxOvrBeatsLo n r) = s.getReg64 (Reg.rxOvrBeatsLo n r) + 1 ∧
      s.OnlyRing t n [Reg.rxOvrBeatsLo n r, Reg.rxOvrBeatsLo n r + 4, Reg.rxFlags n r, Reg.rxFlags n r + 4] := by
  have i1 : (s.modRx n r f).Inv := modRx_inv n r f hi
  have i2 := raiseFlag_inv (Reg.rxFlags n r) 0 i1
  have cnt : flagCntAddr (Reg.rxFlags n r) 0 = Reg.rxFlags n r + 4 := flagCntAddr_low (by decide)
  have kept : ∀ a, a ≠ Reg.rxFlags n r → a ≠ Reg.rxFlags n r + 4 →
      ((s.modRx n r f).raiseFlag (Reg.rxFlags n r) 0).getReg a = s.getReg a :=
    fun a h1 h2 => getReg_raiseFlag_ne i1 h1 (cnt ▸ h2)
  have sum : ((s.modRx n r f).raiseFlag (Reg.rxFlags n r) 0).getReg64 (Reg.rxOvrBeatsLo n r) = s.getReg64 (Reg.rxOvrBeatsLo n r) := by
    unfold getReg64
    rw [kept _ (by simp only [Reg.rxOvrBeatsLo, Reg.rxFlags]; omega) (by simp only [Reg.rxOvrBeatsLo, Reg.rxFlags]; omega),
      kept _ (by simp only [Reg.rxOvrBeatsLo, Reg.rxFlags]; omega) (by simp only [Reg.rxOvrBeatsLo, Reg.rxFlags]; omega)]
  refine ⟨_, rfl, addReg64_inv _ _ i2, hi.rx_modRx n r f, ?_, ?_, ?_⟩
  · unfold addReg64
    rw [getReg_setReg64_other _ _ (by simp only [Reg.rxOvrBeatsLo, Reg.rxFlags]; omega)
      (by simp only [Reg.rxOvrBeatsLo, Reg.rxFlags]; omega)]
    exact bit_raiseFlag i1 _ (by decide)
  · unfold addReg64
    rw [getReg64_setReg64 i2.regs_wf, sum]
    rfl
  · refine ((((OnlyRing.refl s n).modRing _).raiseFlag i1 (Reg.rxFlags n r) 0).setReg64 i2 (Reg.rxOvrBeatsLo n r) _).mono fun a ha => ?_
    rw [cnt] at ha
    simp only [List.mem_append, List.mem_cons, List.not_mem_nil, or_false] at ha ⊢
    tauto

/-- A frame of a ring with one flag raised in each of several registers. -/
theorem OnlyRing.foldl_raiseFlag {s t u : State} {n : Nat} {as l : List Nat} (h : s.OnlyRing t n as)
    (kept : ∀ x, (∀ a ∈ l, x ≠ a ∧ x ≠ a + 4) → u.getReg x = t.getReg x) (e : ∃ r b, u = { t with regs := r, beatSets := b }) :
    s.OnlyRing u n (as ++ l.flatMap fun a => [a, a + 4]) := by
  obtain ⟨hr, hk, rs, r, b, rfl⟩ := h
  obtain ⟨r', b', rfl⟩ := e
  refine ⟨fun x hx => ?_, hk, rs, r', b', rfl⟩
  simp only [List.mem_append, List.mem_flatMap, List.mem_cons, List.not_mem_nil, or_false, not_or, not_exists, not_and] at hx
  exact (kept x fun a ha => hx.2 a ha).trans (hr x hx.1)

end State

/-- Settles O21. -/
theorem receiveReadyAndOverload : Obligations.ReceiveReadyAndOverload := by
  refine ⟨⟨?ctrl, ?ready⟩, ?detector⟩
  case ctrl =>
    intro s g p u n r v _ ht hr hl hs old chg
    have h := State.exec_rx_ctrl ht hr hl hs
    refine ⟨fun off => h.trans ?_, fun on hc => h.trans ?_, fun on h1 h2 => h.trans ?_⟩
    · unfold State.rxCtrlDo
      simp [off, chg]
    · unfold State.rxCtrlDo
      rw [if_neg (by simp [on]), if_pos (by simpa using hc)]
      rfl
    · unfold State.rxCtrlDo
      rw [if_neg (by simp [on]), if_neg (by simp [old] at h1 h2; simp [h1, h2])]
      simp only [chg, State.modRx_id]
  case ready =>
    intro s n r t ha hb hlock
    show execRxReady n r s = _
    unfold execRxReady
    simp [ha, hb, hlock]
  case detector =>
    intro s n r hi h12 hd hit others
    have hiff : s.clippedAt n r (s.beat - 12) = true ↔ hit := State.clippedAt_iff
    refine ⟨fun hc => ?_, fun hc => ?_, fun f rest hc hclip hovl => ?_⟩
    · have run : exec (.rxClip n r) s = execRxClip n r s := rfl
      unfold execRxClip at run
      rw [if_pos ⟨h12, hd, hiff.mpr hc⟩] at run
      obtain ⟨t, et, it, rx, flag, cnt, only⟩ := State.clip_marks hi n r fun x => { x with
        detAt := s.beat, clip := true
        ovl := if !(s.rx n r).clip then
          (s.beat - 12, none) :: x.ovl.filter (fun o => (o.2.map fun e => decide (s.beat ≤ e + 131072)).getD true) else x.ovl }
      simp only [et] at run
      cases hclip : (s.rx n r).clip with
      | true =>
        rw [hclip] at run rx
        exact ⟨t, run, congrArg RxCh.clip rx, congrArg RxCh.detAt rx, flag, cnt, nofun,
          fun _ => by rw [rx]; rfl,
          only.mono fun a ha => List.mem_append_left _ ha⟩
      | false =>
        rw [hclip] at run rx
        have flags : ∀ a ∈ (State.dieOthers n r).map fun q => Reg.rxFlags q.1 q.2,
            ∀ c ∈ (State.dieOthers n r).map fun q => Reg.rxFlags q.1 q.2, a ≠ flagCntAddr c 1 := by
          simp only [List.mem_map, Prod.exists, State.mem_dieOthers]
          rintro _ ⟨m, q, -, rfl⟩ _ ⟨m', q', -, rfl⟩
          rw [flagCntAddr_low (by decide)]
          simp only [Reg.rxFlags]
          omega
        have same : ∀ q, q ∈ State.dieOthers n r ↔ q ∈ others := by
          rintro ⟨m, q⟩
          rw [State.mem_dieOthers]
          simp only [others, List.mem_flatMap, List.mem_range, List.mem_map, List.mem_filter, List.mem_cons, List.not_mem_nil, or_false,
            decide_eq_true_eq, Prod.mk.injEq, ne_eq]
          refine ⟨fun ⟨die, hq, hne⟩ => ⟨m, by omega, q, ⟨hq, die, hne⟩, rfl, rfl⟩, ?_⟩
          rintro ⟨_, -, _, ⟨hq, die, hne⟩, rfl, rfl⟩
          exact ⟨die, hq, hne⟩
        obtain ⟨v, ev, iv, all, kept, fields⟩ := State.foldl_raiseFlag (k := 1) (by decide)
          ((State.dieOthers n r).map fun q => Reg.rxFlags q.1 q.2) flags it
        rw [List.foldl_map] at ev
        have rxv : v.rx n r = t.rx n r := by
          obtain ⟨r', b', rfl⟩ := fields
          rfl
        have own : ∀ a ∈ (State.dieOthers n r).map fun q => Reg.rxFlags q.1 q.2, a ≠ Reg.rxFlags n r ∧ a + 4 ≠ Reg.rxFlags n r ∧
            a ≠ Reg.rxOvrBeatsLo n r ∧ a + 4 ≠ Reg.rxOvrBeatsLo n r ∧ a ≠ Reg.rxOvrBeatsLo n r + 4 := by
          simp only [List.mem_map, Prod.exists, State.mem_dieOthers]
          rintro _ ⟨m, q, ⟨-, hq, hne⟩, rfl⟩
          simp only [Reg.rxFlags, Reg.rxOvrBeatsLo, ne_eq, Prod.mk.injEq] at hne ⊢
          have := r.isLt
          omega
        refine ⟨v, run.trans (congrArg _ ev), ?_, ?_, ?_, ?_, fun _ => ⟨?_, ?_⟩, nofun, ?_⟩
        · rw [rxv, rx]
        · rw [rxv, rx]
        · rw [kept _ fun a ha => ?_]
          · exact flag
          · rw [flagCntAddr_low (by decide)]
            obtain ⟨h1, h2, -⟩ := own a ha
            exact ⟨h1.symm, h2.symm⟩
        · rw [← cnt]
          unfold State.getReg64
          rw [kept _ fun a ha => ?_, kept _ fun a ha => ?_]
          all_goals
            rw [flagCntAddr_low (by decide)]
            obtain ⟨-, -, h3, h4, h5⟩ := own a ha
            omega
        · rw [rxv, rx]
          rfl
        · exact fun q hq => all _ (List.mem_map.mpr ⟨q, (same q).mpr hq, rfl⟩)
        · refine (only.foldl_raiseFlag (l := (State.dieOthers n r).map fun q => Reg.rxFlags q.1 q.2)
            (fun x hx => kept x fun a ha => ?_) fields).mono fun a ha => ?_
          · rw [flagCntAddr_low (by decide)]
            exact hx a ha
          · simp only [List.mem_append, List.mem_flatMap, List.mem_map] at ha ⊢
            refine ha.imp id ?_
            rintro ⟨_, ⟨q, hq, rfl⟩, hx⟩
            exact ⟨q, (same q).mp hq, hx⟩
    · show execRxClip n r s = _
      unfold execRxClip
      rw [if_neg fun h => hc (hiff.mp h.2.2)]
    · show execOverloadRemoved n r s = _
      unfold execOverloadRemoved
      rw [if_pos ⟨hclip, hd, fun h => hc (hiff.mp h)⟩]
      exact congrArg Host.Outcome.next (State.modRx_congr (by simp only [hovl]))


end Sys2Proof.Machine
end

section
/-! PROOF. A window closes and delivers its coarse and fine results (R285, R288-R290, R293, R297, R320). -/

namespace Sys2Proof.Machine

namespace State

/-! ### Updates of a lane and of the Juggler -/

theorem modLane_modLane {s : State} {n l : Nat} (f g : Lane → Lane) : (s.modLane n l f).modLane n l g = s.modLane n l (g ∘ f) := by
  unfold modLane modRing
  dsimp only
  rw [List.modify_modify_eq]
  refine congrArg (fun x => { s with rings := x }) (congrArg (fun h => s.rings.modify n h) (funext fun r => ?_))
  simp only [Function.comp_apply, List.modify_modify_eq]

theorem modJug_modJug {s : State} {n : Nat} (f g : Jug → Jug) : (s.modJug n f).modJug n g = s.modJug n (g ∘ f) := by
  unfold modJug modRing
  dsimp only
  rw [List.modify_modify_eq]
  rfl

theorem Inv.lane_modLane {s : State} (h : s.Inv) (n : RingId) (l : Fin 32) (f : Lane → Lane) :
    (s.modLane n l f).lane n l = f (s.lane n l) :=
  lane_modLane_self h.rings_length n.isLt (by obtain ⟨-, -, -, -, lanes, -⟩ := h.ring_sized n.isLt; rw [lanes]; exact l.isLt) f

/-- A flag raised some number of times (R99). -/
theorem raiseTimes_marks {s : State} (hi : s.Inv) (k a : Nat) {b : Nat} (hb : b < 4) :
    ∃ t, s.raiseTimes k a b = t ∧ t.Inv ∧ (0 < k → bit (t.getReg a) b = true) ∧
      (∀ x, x ≠ a → x ≠ a + 4 → t.getReg x = s.getReg x) ∧ ∃ r c, t = { s with regs := r, beatSets := c } := by
  obtain ⟨t, e, it, set, kept, fields⟩ := foldl_raiseFlag (k := b) (by omega) ((List.range k).map fun _ => a)
    (by simp only [List.mem_map, List.mem_range]
        rintro _ ⟨_, -, rfl⟩ _ ⟨_, -, rfl⟩
        exact flagCntAddr_ne _ _) hi
  rw [List.foldl_map] at e
  refine ⟨t, e, it, fun h => set a (List.mem_map.mpr ⟨0, List.mem_range.mpr h, rfl⟩), fun x h1 h2 => kept x fun c hc => ?_, fields⟩
  obtain ⟨_, -, rfl⟩ := List.mem_map.mp hc
  exact ⟨h1, (flagCntAddr_low hb).symm ▸ h2⟩

/-- What a coarse result changes in the Juggler (R320, R321). -/
theorem jugCoarse_spec (s : State) (n l : Nat) (res info : Word) :
    ∃ f, s.jugCoarse n l res info = s.modJug n f ∧ ∀ j, (f j).cres = j.cres.set l res ∧ (f j).crdy = putBit j.crdy l true ∧
      (s.regBit (Reg.jugImc n) l = true → bit (f j).ipend 0 = true) := by
  unfold jugCoarse
  dsimp only
  split
  next hm =>
    refine ⟨_, modJug_modJug _ _, fun j => ⟨rfl, rfl, fun _ => ?_⟩⟩
    exact (bit_putBit _ _ (by decide)).trans (if_pos rfl)
  next hm => exact ⟨_, rfl, fun j => ⟨rfl, rfl, fun h => absurd h hm⟩⟩

/-- What a fine result changes in the Juggler (R320, R321). -/
theorem jugFine_spec (s : State) (n l : Nat) (fi fq : Word) :
    ∃ f, s.jugFine n l fi fq = s.modJug n f ∧
      ∀ j, (f j).fresI = j.fresI.set l fi ∧ (f j).fresQ = j.fresQ.set l fq ∧ (f j).frdy = putBit j.frdy l true := by
  unfold jugFine
  dsimp only
  split
  · exact ⟨_, modJug_modJug _ _, fun j => ⟨rfl, rfl, rfl⟩⟩
  · exact ⟨_, rfl, fun j => ⟨rfl, rfl, rfl⟩⟩

/-- Without a borrowed window and damage a write of the real-time parts is a write of bytes (R439, R451). -/
theorem rtStore_sound {s : State} {a : Nat} {bs : List Byte} (hb : s.memu.borrow = none) (hd : s.damageIn a bs.length = []) :
    s.rtStore a bs = s.setBytes a bs := by
  unfold rtStore touch
  rw [hb]
  exact store_sound hd

theorem length_recordBytes (s : State) (n l : Nat) (w : Win) (fi fq : Int) : (s.recordBytes n l w fi fq).length = 32 := by
  unfold recordBytes
  simp only [List.length_append, length_leBytes, List.length_cons, List.length_nil]

/-! ### A lane with one window -/

section
variable {s : State} {n l : Nat} {w : Win} (hw : (s.lane n l).wins = [w])
include hw

theorem closing_one : s.closing n l = if w.closed = false ∧ w.closeAt ≤ s.beat then some w else none := by
  unfold closing
  rw [hw]
  cases hc : w.closed <;> by_cases h : w.closeAt ≤ s.beat <;> simp [hc, h]

theorem coarseDue_one (h1 : w.closed = true) (h2 : w.coarseDone = false) (h3 : w.closeAt + 4 ≤ s.beat) : s.coarseDue n l = some w := by
  simp [coarseDue, hw, h1, h2, h3]

theorem fineDue_one (h1 : w.closed = true) (h2 : w.coarseDone = true) (h3 : w.closeAt + 18 ≤ s.beat) : s.fineDue n l = some w := by
  simp [fineDue, hw, h1, h2, h3]

theorem closeWin_one : s.closeWin n l w = s.modLane n l fun x => { x with
    wins := [{ w with closed := true, flags := s.closeFlags n l w, fifo := [] }], last := some { act := w.act } } := by
  unfold closeWin modWins
  dsimp only
  rw [modLane_modLane]
  refine modLane_congr ?_
  simp [hw]

end

/-! ### The coarse result -/

theorem deliverCoarse_marks {s : State} (hi : s.Inv) (n : RingId) (l : Fin 32) {w : Win} (hw : (s.lane n l).wins = [w]) :
    let sh := s.regFld (Reg.laneShift n l) 4 0
    let res := BitVec.ofInt 16 (sat 16 (roundShift w.cQ sh)) ++ BitVec.ofInt 16 (sat 16 (roundShift w.cI sh))
    ∃ t, s.deliverCoarse n l w = t ∧ (t.lane n l).wins = [{ w with coarseDone := true, cres := res }] ∧
      t.getReg (Reg.laneLastCoarse n l) = res ∧ (t.jug n).cres = (s.jug n).cres.set l res ∧
      (t.jug n).crdy = putBit (s.jug n).crdy l true ∧
      (s.regBit (Reg.jugImc n) l = true → bit (t.jug n).ipend 0 = true) ∧
      (fits 16 (roundShift w.cQ sh) = false → bit (t.getReg (Reg.laneFlags n l)) 1 = true) ∧
      s.OnlyRing t n [Reg.laneLastCoarse n l, Reg.laneFlags n l, Reg.laneFlags n l + 4] := by
  intro sh res
  have split : s.coarseOf n l w = (res, (satTell 16 (roundShift w.cI sh)).2 + (satTell 16 (roundShift w.cQ sh)).2) := rfl
  obtain ⟨t, et, it, flag, kept, r, b, fields⟩ := raiseTimes_marks hi
    ((satTell 16 (roundShift w.cI sh)).2 + (satTell 16 (roundShift w.cQ sh)).2) (Reg.laneFlags n l) (b := 1) (by decide)
  have i2 := setReg_inv (Reg.laneLastCoarse n l) res it
  unfold deliverCoarse
  rw [split]
  dsimp only
  rw [et]
  generalize BitVec.ofNat 32 (fld w.flags 0 0 + 2 * fld w.flags 7 7 + 4 * fld w.flags 6 6 + 2 ^ 16 * w.used) = info
  obtain ⟨f, ef, hf⟩ := jugCoarse_spec (t.setReg (Reg.laneLastCoarse n l) res) n l res info
  obtain ⟨cres, crdy, ipend⟩ := hf (s.jug n)
  have mask : (t.setReg (Reg.laneLastCoarse n l) res).getReg (Reg.jugImc n) = s.getReg (Reg.jugImc n) := by
    rw [getReg_setReg_other _ _ (by simp only [Reg.jugImc, Reg.laneLastCoarse]; have := n.isLt; have := l.isLt; omega)]
    exact kept _ (by simp only [Reg.jugImc, Reg.laneFlags]; have := n.isLt; have := l.isLt; omega)
      (by simp only [Reg.jugImc, Reg.laneFlags]; have := n.isLt; have := l.isLt; omega)
  have jug : t.jug n = s.jug n := by rw [fields]; rfl
  have lane : t.lane n l = s.lane n l := by rw [fields]; rfl
  have only : s.OnlyRing t n [Reg.laneFlags n l, Reg.laneFlags n l + 4] :=
    ⟨fun x hx => by simp only [List.mem_cons, List.not_mem_nil, or_false, not_or] at hx; exact kept x hx.1 hx.2,
      fun k _ => by rw [fields]; rfl, _, r, b, fields⟩
  have iu : ((t.setReg (Reg.laneLastCoarse n l) res).modJug n f).Inv := ef ▸ jugCoarse_inv _ _ _ _ i2
  have jugX : ((t.setReg (Reg.laneLastCoarse n l) res).modJug n f).jug n = f (s.jug n) := by
    rw [jug_modJug_self i2.rings_length n.isLt, jug_setReg, jug]
  rw [ef]
  unfold modWins
  refine ⟨_, rfl, ?_, ?_, ?_, ?_, fun h => ?_, fun h => ?_, ?_⟩
  · rw [iu.lane_modLane, lane_modJug, lane_setReg, lane, hw]
    simp
  · rw [getReg_modLane, getReg_modJug]
    exact getReg_setReg_self it.regs_wf _ _
  · rw [jug_modLane, jugX, cres]
  · rw [jug_modLane, jugX, crdy]
  · rw [jug_modLane, jugX]
    refine ipend ?_
    unfold regBit
    rw [mask]
    exact h
  · rw [getReg_modLane, getReg_modJug, getReg_setReg_other _ _ (by simp only [Reg.laneFlags, Reg.laneLastCoarse]; omega)]
    exact flag (by simp [satTell, h])
  · exact (((only.setReg it _ res).modRing _).modRing _).mono (by simp)

/-! ### The fine result -/

/-- The lane without the window whose fine result is delivered, and the record it went to (R288, R322). -/
def wroteWin (s : State) (n l : Nat) (w : Win) (i : Option (BitVec 32)) : State := s.modLane n l fun x => { x with
  wins := x.wins.filter fun y => decide (y.act ≠ w.act)
  last := x.last.map fun z => if z.act = w.act then { z with written := true, recIdx := i } else z }

/-- What a fine result leaves before its record: the flags, the two registers and the Juggler (R288, R304, R320). -/
theorem deliverFine_marks {s : State} (hi : s.Inv) (n : RingId) (l : Fin 32) (w : Win) :
    let sh := s.regFld (Reg.laneShift n l) 12 8
    let fi := sat 32 (roundShift w.accI sh)
    let fq := sat 32 (roundShift w.accQ sh)
    ∃ u, (s.deliverFine n l w = if w.nr then u.wroteWin n l w none else
        (u.writeRecord n l w fi fq).2.wroteWin n l w (u.writeRecord n l w fi fq).1) ∧ u.Inv ∧ u.lane n l = s.lane n l ∧
      u.resq n = s.resq n ∧ u.getReg (Reg.laneLastFineLo n l) = BitVec.ofInt 32 fi ∧
      u.getReg (Reg.laneLastFineHi n l) = BitVec.ofInt 32 fq ∧ (u.jug n).fresI = (s.jug n).fresI.set l (BitVec.ofInt 32 fi) ∧
      (u.jug n).fresQ = (s.jug n).fresQ.set l (BitVec.ofInt 32 fq) ∧ (u.jug n).frdy = putBit (s.jug n).frdy l true ∧
      (∀ k, k ≠ n.val → u.ring k = s.ring k) ∧
      (∀ a, a ≠ Reg.laneLastFineLo n l → a ≠ Reg.laneLastFineHi n l → a ≠ Reg.laneFlags n l → a ≠ Reg.laneFlags n l + 4 →
        u.getReg a = s.getReg a) ∧ ∃ g r b, u = { s with rings := g, regs := r, beatSets := b } := by
  intro sh fi fq
  have split : s.fineOf n l w = (fi, fq, (satTell 32 (roundShift w.accI sh)).2 + (satTell 32 (roundShift w.accQ sh)).2) := rfl
  obtain ⟨t, et, it, -, kept, r, b, fields⟩ := raiseTimes_marks hi
    ((satTell 32 (roundShift w.accI sh)).2 + (satTell 32 (roundShift w.accQ sh)).2) (Reg.laneFlags n l) (b := 2) (by decide)
  have i2 := setReg_inv (Reg.laneLastFineLo n l) (BitVec.ofInt 32 fi) it
  have i3 := setReg_inv (Reg.laneLastFineHi n l) (BitVec.ofInt 32 fq) i2
  unfold deliverFine
  rw [split]
  dsimp only
  rw [et]
  obtain ⟨f, ef, hf⟩ := jugFine_spec ((t.setReg (Reg.laneLastFineLo n l) (BitVec.ofInt 32 fi)).setReg (Reg.laneLastFineHi n l)
    (BitVec.ofInt 32 fq)) n l (BitVec.ofInt 32 fi) (BitVec.ofInt 32 fq)
  have iu := jugFine_inv n l (BitVec.ofInt 32 fi) (BitVec.ofInt 32 fq) i3
  rw [ef] at iu ⊢
  obtain ⟨fresI, fresQ, frdy⟩ := hf (s.jug n)
  have jug : t.jug n = s.jug n := by rw [fields]; rfl
  refine ⟨_, ?_, iu, ?_, ?_, ?_, ?_, ?_, ?_, ?_, fun k hk => ?_, fun a h1 h2 h3 h4 => ?_, ?_⟩
  · split <;> rfl
  · rw [lane_modJug, lane_setReg, lane_setReg, fields]
    rfl
  · rw [resq_modJug, resq_setReg, resq_setReg, fields]
    rfl
  · rw [getReg_modJug, getReg_setReg_other _ _ (by simp only [Reg.laneLastFineLo, Reg.laneLastFineHi]; omega)]
    exact getReg_setReg_self it.regs_wf _ _
  · rw [getReg_modJug]
    exact getReg_setReg_self i2.regs_wf _ _
  · rw [jug_modJug_self i3.rings_length n.isLt, jug_setReg, jug_setReg, jug, fresI]
  · rw [jug_modJug_self i3.rings_length n.isLt, jug_setReg, jug_setReg, jug, fresQ]
  · rw [jug_modJug_self i3.rings_length n.isLt, jug_setReg, jug_setReg, jug, frdy]
  · rw [modJug, ring_modRing_ne _ hk, ring_setReg, ring_setReg, fields]
    rfl
  · rw [getReg_modJug, getReg_setReg_other _ _ h2, getReg_setReg_other _ _ h1, kept a h3 h4]
  · rw [fields]
    exact ⟨_, _, _, rfl⟩

/-- A record with room: its bytes in memory and its place in the queue (R293, R297). -/
theorem writeRecord_room {s : State} (n l : Nat) (w : Win) (fi fq : Int) (hb : s.memu.borrow = none) (hd : s.memu.damaged = [])
    (hr : s.shotCount n w.shotNo < s.regFld (Reg.resqShotMax n) 15 0) :
    s.writeRecord n l w fi fq = (some (s.resq n).next,
      (s.setBytes (recordAddr n (s.resq n).next) (s.recordBytes n l w fi fq)).modResq n fun q => { q with
        next := (s.resq n).next + 1
        recs := q.recs ++ [{ idx := (s.resq n).next, lane := l, held := w.shotFlags.isNone, since := s.beat }]
        shotRecs := (w.shotNo, s.shotCount n w.shotNo + 1) :: q.shotRecs.filter fun p => decide (p.1 ≠ w.shotNo) }) := by
  have sound : s.damageIn (recordAddr n (s.resq n).next) (s.recordBytes n l w fi fq).length = [] := by
    unfold damageIn
    rw [hd]
    rfl
  unfold writeRecord
  dsimp only
  rw [if_neg (Nat.not_le.mpr hr), rtStore_sound hb sound]
  obtain ⟨m, em⟩ := setBytes_fields s (recordAddr n (s.resq n).next) (s.recordBytes n l w fi fq)
  rw [em s rfl]

/-- A record beyond the limit of its shot: a flag and an event, and nothing of the queue or of memory (R297). -/
theorem writeRecord_full {s : State} (hi : s.Inv) (n l : Nat) (w : Win) (fi fq : Int)
    (hr : ¬ s.shotCount n w.shotNo < s.regFld (Reg.resqShotMax n) 15 0) :
    ∃ t, s.writeRecord n l w fi fq = (none, t) ∧ bit (t.getReg (Reg.resqFlags n)) 1 = true ∧ t.rings = s.rings ∧ t.mem = s.mem := by
  unfold writeRecord
  dsimp only
  rw [if_pos (Nat.not_lt.mp hr)]
  obtain ⟨regs, r, b, k, c, p, m, e⟩ := Noted.raiseEvent (s.raiseFlag (Reg.resqFlags n) 1) 0x0107 0x05 (s.resq n).next
  refine ⟨_, rfl, ?_, ?_, ?_⟩
  · rw [regs _ (by unfold evReg; simp only [Reg.resqFlags]; omega)]
    exact bit_raiseFlag hi _ (by decide)
  · rw [e]
    rfl
  · rw [e]
    rfl

/-- Network time is that of the rate and of the settings before (R376). -/
theorem netTime_congr {s t : State} (hr : t.increment = s.increment) (ht : t.time = s.time) (x : Nat) : t.netTime x = s.netTime x := by
  unfold netTime settingAt
  rw [hr, ht]

theorem wroteWin_wins {s : State} (hi : s.Inv) (n : RingId) (l : Fin 32) {w : Win} (hw : (s.lane n l).wins = [w])
    (i : Option (BitVec 32)) : ((s.wroteWin n l w i).lane n l).wins = [] := by
  unfold wroteWin
  rw [hi.lane_modLane, hw]
  simp

theorem ring_wroteWin_ne {s : State} {n k : Nat} (hk : k ≠ n) (l : Nat) (w : Win) (i : Option (BitVec 32)) :
    (s.wroteWin n l w i).ring k = s.ring k := ring_modRing_ne _ hk

theorem deliverFine_kept {s : State} (hi : s.Inv) (n : RingId) (l : Fin 32) {w : Win} (hw : (s.lane n l).wins = [w])
    (hb : s.memu.borrow = none) (hd : s.memu.damaged = []) :
    let sh := s.regFld (Reg.laneShift n l) 12 8
    let fi := sat 32 (roundShift w.accI sh)
    let fq := sat 32 (roundShift w.accQ sh)
    let i := (s.resq n).next
    let room := s.shotCount n w.shotNo < s.regFld (Reg.resqShotMax n) 15 0
    (w.nr = true ∨ room → ∃ t, s.deliverFine n l w = t ∧ (t.lane n l).wins = [] ∧
      t.getReg (Reg.laneLastFineLo n l) = BitVec.ofInt 32 fi ∧ t.getReg (Reg.laneLastFineHi n l) = BitVec.ofInt 32 fq ∧
      (t.jug n).fresI = (s.jug n).fresI.set l (BitVec.ofInt 32 fi) ∧ (t.jug n).fresQ = (s.jug n).fresQ.set l (BitVec.ofInt 32 fq) ∧
      (t.jug n).frdy = putBit (s.jug n).frdy l true ∧
      (w.nr = true → t.resq n = s.resq n ∧ t.mem = s.mem) ∧
      (w.nr = false → (t.resq n).next = i + 1 ∧ (t.resq n).recs = (s.resq n).recs ++
          [{ idx := i, lane := l, held := w.shotFlags.isNone, since := s.beat }] ∧
        t.bytes (recordAddr n i) 32 = s.recordBytes n l w fi fq ∧
        ∀ a, a < recordAddr n i ∨ recordAddr n i + 32 ≤ a → t.byte a = s.byte a) ∧
      (∀ k, k ≠ n.val → t.ring k = s.ring k) ∧
      (∀ a, a ≠ Reg.laneLastFineLo n l → a ≠ Reg.laneLastFineHi n l → a ≠ Reg.laneFlags n l → a ≠ Reg.laneFlags n l + 4 →
        t.getReg a = s.getReg a)) ∧
    (w.nr = false → ¬ room → ∃ t, s.deliverFine n l w = t ∧ (t.lane n l).wins = [] ∧ t.resq n = s.resq n ∧
      bit (t.getReg (Reg.resqFlags n)) 1 = true ∧ t.mem = s.mem ∧ ∀ k, k ≠ n.val → t.ring k = s.ring k) := by
  intro sh fi fq i room
  obtain ⟨u, eu, iu, lane, resq, lo, hi', fresI, fresQ, frdy, rings, regs, g, r, b, fields⟩ := deliverFine_marks hi n l w
  have wins : (u.lane n l).wins = [w] := lane ▸ hw
  have mem : u.mem = s.mem := by rw [fields]
  have roomU : u.shotCount n w.shotNo < u.regFld (Reg.resqShotMax n) 15 0 ↔ room := by
    unfold shotCount regFld
    rw [resq, regs _ (by simp only [Reg.resqShotMax, Reg.laneLastFineLo]; omega)
      (by simp only [Reg.resqShotMax, Reg.laneLastFineHi]; omega) (by simp only [Reg.resqShotMax, Reg.laneFlags]; omega)
      (by simp only [Reg.resqShotMax, Reg.laneFlags]; omega)]
    exact Iff.rfl
  rw [eu]
  cases hn : w.nr with
  | true =>
    refine ⟨fun _ => ⟨_, rfl, wroteWin_wins iu n l wins _, lo, hi', ?_, ?_, ?_, fun _ => ⟨?_, mem⟩, nofun, fun k hk => ?_, regs⟩, nofun⟩
    · exact (congrArg Jug.fresI (jug_modLane ..)).trans fresI
    · exact (congrArg Jug.fresQ (jug_modLane ..)).trans fresQ
    · exact (congrArg Jug.frdy (jug_modLane ..)).trans frdy
    · exact (resq_modLane ..).trans resq
    · exact (ring_wroteWin_ne hk l w _).trans (rings k hk)
  | false =>
    refine ⟨fun h => ?_, fun _ h => ?_⟩
    · have hroom := h.resolve_left nofun
      rw [writeRecord_room n l w _ _ (by rw [fields]; exact hb) (by rw [fields]; exact hd) (roomU.mpr hroom)]
      have same : u.recordBytes n l w fi fq = s.recordBytes n l w fi fq := by
        have rate : u.increment = s.increment := by
          unfold increment getReg64
          have h := n.isLt
          rw [regs, regs] <;> simp only [Reg.incrementLo, Reg.laneLastFineLo, Reg.laneLastFineHi, Reg.laneFlags] <;> omega
        have time : ∀ x, u.netTime x = s.netTime x := netTime_congr rate (by rw [fields])
        have strap : u.rst = s.rst := by rw [fields]
        unfold recordBytes
        rw [time, strap]
      have written := bytes_setBytes iu.mem_wf (recordAddr n i) (s.recordBytes n l w fi fq)
      rw [length_recordBytes] at written
      have others := byte_setBytes iu.mem_wf (recordAddr n i) (s.recordBytes n l w fi fq)
      rw [length_recordBytes] at others
      have is : (u.setBytes (recordAddr n i) (s.recordBytes n l w fi fq)).Inv := setBytes_inv _ _ iu
      obtain ⟨m, em⟩ := setBytes_fields u (recordAddr n i) (s.recordBytes n l w fi fq)
      have em := em u rfl
      have beat : u.beat = s.beat := by rw [fields]
      change ∃ t, State.wroteWin (modResq (u.setBytes (recordAddr n (u.resq n).next) (u.recordBytes n l w fi fq)) n _) n l w _ = t ∧ _
      rw [same, resq, beat]
      rw [em] at written others is ⊢
      have iq := modResq_inv n (fun q : ResQ => { q with
        next := i + 1
        recs := q.recs ++ [{ idx := i, lane := l, held := w.shotFlags.isNone, since := s.beat }]
        shotRecs := (w.shotNo, u.shotCount n w.shotNo + 1) :: q.shotRecs.filter fun p => decide (p.1 ≠ w.shotNo) }) is
      refine ⟨_, rfl, wroteWin_wins iq n l ?_ _, lo, hi', ?_, ?_, ?_, nofun, fun _ => ⟨?_, ?_, written, fun a ha => ?_⟩,
        fun k hk => ?_, regs⟩
      · exact (congrArg Lane.wins (lane_modResq ..)).trans wins
      · exact (congrArg Jug.fresI ((jug_modLane ..).trans (jug_modResq ..))).trans fresI
      · exact (congrArg Jug.fresQ ((jug_modLane ..).trans (jug_modResq ..))).trans fresQ
      · exact (congrArg Jug.frdy ((jug_modLane ..).trans (jug_modResq ..))).trans frdy
      · exact congrArg ResQ.next ((resq_modLane ..).trans (resq_modResq_self is.rings_length n.isLt _))
      · refine (congrArg ResQ.recs ((resq_modLane ..).trans (resq_modResq_self is.rings_length n.isLt _))).trans ?_
        exact congrArg (fun q : ResQ => q.recs ++ _) resq
      · refine (others a).trans ((if_neg (by omega)).trans ?_)
        unfold byte
        rw [mem]
      · exact (ring_wroteWin_ne hk l w _).trans ((ring_modRing_ne _ hk).trans (rings k hk))
    · obtain ⟨t, et, flag, tr, tm⟩ := writeRecord_full iu n l w _ _ (fun h' => h (roomU.mp h'))
      have ring : ∀ k, t.ring k = u.ring k := fun k => congrArg (fun x : List Ring => x.getD k {}) tr
      have iw : t.Inv := by
        have := writeRecord_inv n l w (sat 32 (roundShift w.accI sh)) (sat 32 (roundShift w.accQ sh)) iu
        rw [et] at this
        exact this
      rw [et]
      refine ⟨_, rfl, wroteWin_wins iw n l ?_ _, ?_, flag, tm.trans mem, fun k hk => ?_⟩
      · exact (congrArg (fun x : Ring => (x.lanes.getD l {}).wins) (ring n)).trans wins
      · refine (resq_modLane ..).trans ((congrArg Ring.resq (ring n)).trans resq)
      · exact (ring_wroteWin_ne hk l w _).trans ((ring k).trans (rings k hk))

end State

/-- Settles O22. -/
theorem windowResults : Obligations.WindowResults := by
  intro s n l w hi hw
  refine ⟨fun h1 h2 => ?_, fun _ h2 => ?_, fun h1 h2 h3 => ?_, fun h1 h2 h3 hb hd => ?_⟩
  · show execWindowClose n l s = _
    unfold execWindowClose
    rw [State.closing_one hw, if_pos ⟨h1, h2⟩]
    exact congrArg Host.Outcome.next (State.closeWin_one hw)
  · show execWindowClose n l s = _
    unfold execWindowClose
    rw [State.closing_one hw, if_neg (by omega)]
  · obtain ⟨t, et, rest⟩ := State.deliverCoarse_marks hi n l hw
    refine ⟨t, ?_, rest⟩
    show execCoarseResult n l s = _
    unfold execCoarseResult
    rw [State.coarseDue_one hw h1 h2 h3]
    exact congrArg Host.Outcome.next et
  · have run : exec (.fineResult n l) s = .next (s.deliverFine n l w) := by
      show execFineResult n l s = _
      unfold execFineResult
      rw [State.fineDue_one hw h1 h2 h3]
    obtain ⟨kept, full⟩ := State.deliverFine_kept hi n l hw hb hd
    refine ⟨fun h => ?_, fun h h' => ?_⟩
    · obtain ⟨t, et, rest⟩ := kept h
      exact ⟨t, run.trans (congrArg _ et), rest⟩
    · obtain ⟨t, et, rest⟩ := full h h'
      exact ⟨t, run.trans (congrArg _ et), rest⟩

end Sys2Proof.Machine
end

section
/-! PROOF. Pushes: what a frame that goes to the host leaves behind (R59, R60, R84, R85). -/

namespace Sys2Proof.Machine

/-- The registers that count and flag a class C frame that a port drops (R60, R85). -/
def dropReg (a : Nat) : Prop := ∃ p < 2, a = Reg.ethClasscDrop p ∨ a = Reg.ethFlags p ∨ a = Reg.ethFlags p + 4

namespace State

theorem Inv.ports_length {s : State} (h : s.Inv) : s.ports.length = 2 := by
  obtain ⟨-, -, -, -, ports, -⟩ := h
  exact ports

theorem Inv.sess_length {s : State} (h : s.Inv) : s.sess.length = 8 := by
  obtain ⟨-, -, -, sess, -⟩ := h
  exact sess

/-- Nothing but the ports and the marks of dropped frames differs between the states. -/
def Sends (s t : State) : Prop :=
  (∀ a, ¬ dropReg a → t.getReg a = s.getReg a) ∧ ∃ e r b, t = { s with ports := e, regs := r, beatSets := b }

theorem Sends.refl (s : State) : s.Sends s := ⟨fun _ _ => rfl, _, _, _, rfl⟩

theorem Sends.trans {s t u : State} (h : s.Sends t) (h' : t.Sends u) : s.Sends u := by
  obtain ⟨hr, e, r, b, rfl⟩ := h
  obtain ⟨hr', e', r', b', rfl⟩ := h'
  exact ⟨fun a ha => (hr' a ha).trans (hr a ha), e', r', b', rfl⟩

/-- What a port adds to a frame stays the same while frames are sent (R38, R85). -/
theorem Sends.dressed {s t : State} (h : s.Sends t) (p : Nat) (f : OutFrame) : t.dressed p f = s.dressed p f := by
  obtain ⟨hr, e, r, b, fields⟩ := h
  have map : t.getReg (Reg.ethPfcMap p) = s.getReg (Reg.ethPfcMap p) := hr _ fun ⟨q, hq, h⟩ => by
    simp only [Reg.ethPfcMap, Reg.ethClasscDrop, Reg.ethFlags] at h
    omega
  have prio : ∀ c, t.framePrio p c = s.framePrio p c := fun c => by unfold framePrio; rw [map]
  have tag : ∀ c, t.frameTag p c = s.frameTag p c := fun c => by
    unfold frameTag netVal
    rw [prio, fields]
  unfold State.dressed
  rw [prio, tag]

/-- The marks of a class C frame that is dropped (R60, R85). -/
theorem dropMarks_sends {s : State} (hi : s.Inv) {p : Nat} (hp : p < 2) :
    s.Sends ((s.satReg (Reg.ethClasscDrop p)).raiseFlag (Reg.ethFlags p) 3) := by
  have counted : s.Sends (s.satReg (Reg.ethClasscDrop p)) := by
    unfold satReg
    split
    · exact .refl s
    · exact ⟨fun a ha => getReg_setReg_other _ _ fun e => ha ⟨p, hp, .inl e⟩, _, _, _, rfl⟩
  refine counted.trans ⟨fun a ha => ?_, _, _, _, rfl⟩
  refine getReg_raiseFlag_ne (satReg_inv _ hi) (fun e => ha ⟨p, hp, .inr (.inl e)⟩) fun e => ha ⟨p, hp, .inr (.inr ?_)⟩
  rw [e, flagCntAddr_low (by decide)]

/-- A frame handed to a port: it stands last in the port's queue when the port answers and a class C frame has room; the other port is as
it was (R63, R84, R85). -/
theorem sendFrame_marks {s : State} (hi : s.Inv) {p : Nat} (hp : p < 2) (f : OutFrame) :
    s.Sends (s.sendFrame p f) ∧ (∀ q, q ≠ p → (s.sendFrame p f).port q = s.port q) ∧
      (s.portAnswers p = true → (f.cls ≠ .classC ∨ (s.port p).classCHeld ≤ 262144) → s.Queued (s.sendFrame p f) p f) := by
  unfold sendFrame
  split
  next h => exact ⟨.refl s, fun _ _ => rfl, fun h' => absurd h' h⟩
  next h =>
    split
    next hc =>
      refine ⟨dropMarks_sends hi hp, fun q _ => ?_, fun _ h' => ?_⟩
      · obtain ⟨-, e⟩ := dropMarks_sends hi hp
        unfold satReg
        split <;> rfl
      · exact absurd hc.2 (Nat.not_lt.mpr (h'.resolve_left (not_not.mpr hc.1)))
    next hc =>
      refine ⟨⟨fun _ _ => rfl, _, _, _, rfl⟩, fun q hq => port_modPort_ne _ hq, fun _ _ => ?_⟩
      unfold Queued
      rw [port_modPort_self (hi.ports_length ▸ hp)]

/-- Frames handed to several ports, where sending does not change the frames to come (R59). -/
theorem sendFrames_marks {s : State} (hi : s.Inv) (f : State → Nat → OutFrame) (hf : ∀ t p, s.Sends t → f t p = f s p) (ps : List Nat)
    (hp : ∀ p ∈ ps, p < 2) (hn : ps.Nodup) :
    ∃ t, ps.foldl (fun u p => u.sendFrame p (f u p)) s = t ∧ t.Inv ∧ s.Sends t ∧ (∀ q, q ∉ ps → t.port q = s.port q) ∧
      ∀ q ∈ ps, s.portAnswers q = true → ((f s q).cls ≠ .classC ∨ (s.port q).classCHeld ≤ 262144) → s.Queued t q (f s q) := by
  induction ps generalizing s with
  | nil => exact ⟨s, rfl, hi, .refl s, fun _ _ => rfl, nofun⟩
  | cons p t ih =>
    obtain ⟨fresh, hn⟩ := List.nodup_cons.mp hn
    obtain ⟨sent, others, queued⟩ := sendFrame_marks hi (hp p (by simp)) (f s p)
    obtain ⟨u, eu, iu, sent', others', queued'⟩ := ih (sendFrame_inv p (f s p) hi)
      (fun v p h => (hf v p (sent.trans h)).trans (hf _ p sent).symm) (fun q hq => hp q (by simp [hq])) hn
    refine ⟨u, eu, iu, sent.trans sent', fun q hq => ?_, fun q hq ha hc => ?_⟩
    · obtain ⟨h1, h2⟩ := not_or.mp (mt List.mem_cons.mpr hq)
      exact (others' q h2).trans (others q h1)
    · by_cases e : q = p
      · subst e
        have := queued ha hc
        unfold Queued at this ⊢
        rw [others' q fresh, this]
      · have hq : q ∈ t := (List.mem_cons.mp hq).resolve_left e
        have same := others q e
        have := queued' q hq (by unfold portAnswers at ha ⊢; rw [same]; exact ha) (by rw [same, hf _ q sent]; exact hc)
        unfold Queued at this ⊢
        rw [this, same, sent.dressed, hf _ q sent]

/-! ### The ports of a session's pushes -/

theorem homePort_lt (s : State) (u : Nat) : s.homePort u < 2 := fld_lt ..

/-- The ports that carry a push are ports of the device, each once, and they answer (R59, R60, R63). -/
theorem pushPorts_sound (s : State) (u : Nat) :
    (∀ p ∈ s.pushPorts u, p < 2 ∧ s.portAnswers p = true) ∧ (s.pushPorts u).Nodup := by
  have up : ∀ p, s.pushOk u p = true → s.portAnswers p = true := fun p h => by
    unfold pushOk portUp at h
    unfold portAnswers
    simp only [Bool.and_eq_true, decide_eq_true_eq] at h ⊢
    exact .inr h.1
  have home := s.homePort_lt u
  have one : ∀ p, p < 2 → s.pushOk u p = true → (∀ q ∈ [p], q < 2 ∧ s.portAnswers q = true) ∧ [p].Nodup := fun p hp h =>
    ⟨fun q hq => by rw [List.mem_singleton.mp hq]; exact ⟨hp, up p h⟩, List.nodup_singleton p⟩
  have nothing : (∀ q ∈ ([] : List Nat), q < 2 ∧ s.portAnswers q = true) ∧ ([] : List Nat).Nodup := ⟨nofun, List.nodup_nil⟩
  unfold pushPorts
  dsimp only
  split
  · split
    · refine ⟨fun p hp => ?_, (by decide : [0, 1].Nodup).filter _⟩
      obtain ⟨hm, h⟩ := List.mem_filter.mp hp
      exact ⟨by simp at hm; omega, up p h⟩
    · split
      next h => exact one _ home h
      next =>
        split
        next h => exact one _ (by omega) h
        next => exact nothing
  · exact nothing

/-- The push frame of a session for a port (R58, R59, R83). -/
def pushFrame (s : State) (u : Nat) (c : TxClass) (ops : List OpResp) (p : Nat) : OutFrame :=
  { cls := c, sess := BitVec.ofNat 8 u, seq := (s.session u).pushSeq, tag := (s.session u).tag, ops := ops, dest := s.pushAddr u p }

theorem Sends.pushAddr {s t : State} (h : s.Sends t) (u p : Nat) : t.pushAddr u p = s.pushAddr u p := by
  obtain ⟨-, e, r, b, rfl⟩ := h
  rfl

/-- A push of a session: its frame waits on each port that carries it and takes it, and the next push has the next number (R59, R83). -/
theorem sendPush_marks {s : State} (hi : s.Inv) {u : Nat} (hu : u < 8) (c : TxClass) (ops : List OpResp) :
    ∃ t, s.sendPush u c ops = t ∧ t.Inv ∧ (∀ a, ¬ dropReg a → t.getReg a = s.getReg a) ∧
      (∀ q ∈ s.pushPorts u, (c ≠ .classC ∨ (s.port q).classCHeld ≤ 262144) → s.Queued t q (s.pushFrame u c ops q)) ∧
      (s.pushPorts u ≠ [] → t.session u = { s.session u with pushSeq := (s.session u).pushSeq + 1 }) ∧
      (s.pushPorts u = [] → t = s) ∧ ∃ e l r b, t = { s with ports := e, sess := l, regs := r, beatSets := b } := by
  obtain ⟨ok, hn⟩ := s.pushPorts_sound u
  obtain ⟨t, et, it, ⟨regs, e, r, b, fields⟩, -, queued⟩ := sendFrames_marks hi
    (fun v p => { s.pushFrame u c ops p with dest := v.pushAddr u p })
    (fun v p h => by rw [h.pushAddr]) (s.pushPorts u) (fun p hp => (ok p hp).1) hn
  have run : s.sendPush u c ops = if (s.pushPorts u).isEmpty then t else t.modSess u fun x => { x with pushSeq := x.pushSeq + 1 } := by
    rw [← et]
    rfl
  rw [run]
  cases hl : s.pushPorts u with
  | nil =>
    rw [hl] at et
    have same : t = s := et.symm
    subst same
    exact ⟨t, rfl, hi, fun _ _ => rfl, nofun, fun h => absurd rfl h, fun _ => rfl, _, _, _, _, rfl⟩
  | cons p ps =>
    refine ⟨_, rfl, modSess_inv u _ it, regs, fun q hq hc => ?_, fun _ => ?_, nofun, ?_⟩
    · exact queued q (hl ▸ hq) (ok q (hl ▸ hq)).2 hc
    · have sess : t.session u = s.session u := by rw [fields]; rfl
      exact (session_modSess_self (it.sess_length ▸ hu) _).trans (by rw [sess])
    · rw [fields]
      exact ⟨_, _, _, _, rfl⟩

/-- A class C operation of a session: its frame waits on each port that carries it and has room, or is counted as dropped (R60, R85). -/
theorem pushClassC_marks {s : State} (hi : s.Inv) {u : Nat} (hu : u < 8) (ops : List OpResp) :
    ∃ t, s.pushClassC u ops = t ∧ t.Inv ∧ (∀ a, ¬ dropReg a → t.getReg a = s.getReg a) ∧
      (∀ q ∈ s.pushPorts u, (s.port q).classCHeld ≤ 262144 → s.Queued t q (s.pushFrame u .classC ops q)) ∧
      ∃ e l r b, t = { s with ports := e, sess := l, regs := r, beatSets := b } := by
  cases hl : s.pushPorts u with
  | nil =>
    have run : s.pushClassC u ops = (s.satReg (Reg.ethClasscDrop (s.homePort u))).raiseFlag (Reg.ethFlags (s.homePort u)) 3 := by
      unfold pushClassC
      rw [hl]
      rfl
    obtain ⟨regs, e, r, b, fields⟩ := dropMarks_sends hi (s.homePort_lt u)
    exact ⟨_, run, raiseFlag_inv _ _ (satReg_inv _ hi), regs, nofun, e, s.sess, r, b, fields⟩
  | cons p ps =>
    have run : s.pushClassC u ops = s.sendPush u .classC ops := by
      unfold pushClassC
      rw [hl]
      rfl
    obtain ⟨t, et, it, regs, queued, -, -, fields⟩ := sendPush_marks hi hu .classC ops
    exact ⟨t, run.trans et, it, regs, fun q hq h => queued q (hl ▸ hq) (.inr h), fields⟩

end State

end Sys2Proof.Machine
end

section
/-! PROOF. Raw capture from ARM to its push (R83, R292, R299-R301, R470). -/

namespace Sys2Proof.Machine

namespace State

/-! ### Commands -/

/-- One command of RAW_CMD that the state of the buffer allows (R299, R303). -/
theorem write_rawCmd {s g : State} {p : Port} {u : Sid} {n : RingId} {r : Fin 2} (ht : s.Takes p u (Reg.rxRawCmd n r) g) (v : Word)
    (hv : v &&& ~~~(7 : Word) = 0 ∧ popCount v 3 ≤ 1) (hc : g.rawCmdCheck n r v = .ok) :
    s.hostWrite p u (Reg.rxRawCmd n r) v = (g.rawCmdDo n r v).wrote p (Reg.rxRawCmd n r) :=
  write_takes ht (by simp only [Reg.rxRawCmd]; omega) (findAt_rxRawCmd n r) (by decide) hv.1
    (by simp [fieldLegal, hv.2]) hc

/-! ### The start of a capture -/

/-- What the start of a capture leaves (R299, R300). -/
theorem startCapture_marks {s : State} (hi : s.Inv) (n : RingId) (r : Fin 2) (P : Nat) :
    ∃ t, s.startCapture n r P = t ∧ t.rx n r = { s.rx n r with
        raw := .capturing, cap := some { start := P, len := s.regFld (Reg.rxRawCtrl n r) 15 0 }, pushPos := 0 } ∧
      t.getReg (Reg.rxRawNum n r) = s.getReg (Reg.rxRawNum n r) + 1 ∧ t.getReg64 (Reg.rxRawBeatLo n r) = BitVec.ofNat 64 P ∧
      s.OnlyRing t n [Reg.rxRawNum n r, Reg.rxRawBeatLo n r, Reg.rxRawBeatLo n r + 4, Reg.rxRawStatus n r] := by
  have i1 := modRx_inv n r (fun x => { x with
    raw := .capturing, cap := some { start := P, len := s.regFld (Reg.rxRawCtrl n r) 15 0 }, pushPos := 0 }) hi
  have i2 := setReg_inv (Reg.rxRawNum n r) (s.getReg (Reg.rxRawNum n r) + 1) i1
  have i3 := setReg64_inv (Reg.rxRawBeatLo n r) (BitVec.ofNat 64 P) i2
  refine ⟨_, rfl, hi.rx_modRx n r _, ?_, ?_, ?_⟩
  · show (((_ : State).setReg64 _ _).setReg _ _).getReg _ = _
    rw [getReg_setReg_other _ _ (by simp only [Reg.rxRawNum, Reg.rxRawStatus]; omega),
      getReg_setReg64_other _ _ (by simp only [Reg.rxRawNum, Reg.rxRawBeatLo]; omega)
        (by simp only [Reg.rxRawNum, Reg.rxRawBeatLo]; omega)]
    exact getReg_setReg_self i1.regs_wf _ _
  · show (((_ : State).setReg64 _ _).setReg _ _).getReg64 _ = _
    unfold getReg64
    rw [getReg_setReg_other _ _ (by simp only [Reg.rxRawBeatLo, Reg.rxRawStatus]; omega),
      getReg_setReg_other _ _ (by simp only [Reg.rxRawBeatLo, Reg.rxRawStatus]; omega)]
    exact getReg64_setReg64 i2.regs_wf _ _
  · exact (((((OnlyRing.refl s n).modRing _).setReg i1 _ _).setReg64 i2 _ _).setReg i3 _ 0).mono fun a ha => by simpa using ha

/-! ### The ACQs with RAW of a beat -/

theorem rawWindows_ne_zero {s : State} {n r : Nat} :
    s.rawWindows n r ≠ 0 ↔ ∃ l < 16, ∃ w ∈ (s.lane n (16 * r + l)).wins, w.act = s.beat ∧ w.raw = true := by
  unfold rawWindows
  rw [ne_eq, List.sum_eq_zero_iff]
  simp only [List.mem_map, List.mem_range, forall_exists_index, and_imp, forall_apply_eq_imp_iff₂, List.length_eq_zero_iff,
    List.filter_eq_nil_iff, Bool.and_eq_true, decide_eq_true_eq, not_forall, not_not, exists_prop]

/-! ### A frame of the push -/

theorem pushRaw_marks {s : State} (hi : s.Inv) (n : RingId) (r : Fin 2) (hraw : (s.rx n r).raw = .pushing) (hd : s.memu.damaged = []) :
    let total := s.regFld (Reg.rxRawStatus n r) 31 16
    let per := if s.pushJumbo (s.pushPorts (s.regFld (Reg.rxRawCtrl n r) 22 20)) then 1360 else 232
    let x := s.rx n r
    let k := min per (total - x.pushPos)
    let u := s.regFld (Reg.rxRawCtrl n r) 22 20
    let num := 2 * n.val + r.val
    let last := decide (total ≤ x.pushPos + k)
    let sum := x.rawSum + s.regFld Reg.throttleR 4 0
    let samples := s.bytes (State.ringMem n + 0x800000 + 0x40000 * r.val + 6 * x.pushPos) (6 * k)
    let data := leBytes 4 (s.getReg (Reg.rxRawNum n r)).toNat ++ leBytes 4 x.pushPos ++ leBytes 2 k ++
      [BitVec.ofNat 8 (last.toNat + 2 * (s.regBit (Reg.rxRawStatus n r) 8).toNat), BitVec.ofNat 8 num] ++
      leBytes 4 (s.getReg (Reg.rxRawBeatLo n r)).toNat ++ samples ++ List.replicate ((4 - 6 * k % 4) % 4) 0
    let seqNo := ((s.seqNo.find? fun e => e.1 = 2 + 256 * num).map (·.2)).getD 0
    ∃ t, s.pushRaw n r = t ∧ (t.rx n r).pushPos = x.pushPos + k ∧ (t.rx n r).raw = .pushing ∧ t.mem = s.mem ∧
      (20 ≤ sum → ∀ q ∈ s.pushPorts u, (s.port q).classCHeld ≤ 262144 → s.Queued t q {
        cls := .classC, sess := BitVec.ofNat 8 u, seq := (s.session u).pushSeq, tag := (s.session u).tag, dest := s.pushAddr u q
        ops := [{
          op := 0x0B, addr := BitVec.ofNat 32 (2 + 256 * num), count := data.length / 4, body := leBytes 4 seqNo.toNat ++ data }] }) ∧
      (sum < 20 → t.ports = s.ports) ∧ ∀ m, m ≠ n.val → t.ring m = s.ring m := by
  intro total per x k u num last sum samples data seqNo
  have sound : ∀ a c, s.damageIn a c = [] := fun a c => by unfold damageIn; rw [hd]; rfl
  have body : ∀ a c, s.load a c = s.bytes a c := fun a c => by
    unfold load
    rw [sound]
    rfl
  have read : ∀ a c, s.eccRead a c = s := fun a c => by
    unfold eccRead
    rw [sound]
    rfl
  have length : ∀ a c, (s.bytes a c).length = c := fun a c => by simp [bytes]
  let s1 : State := (s.nextSeqNo 2 num).2
  have i1 : s1.Inv := nextSeqNo_inv 2 num hi
  have run : s.pushRaw n r = (if 20 ≤ sum then s1.pushClassC u [classData 2 num seqNo data] else s1).modRx n r fun y => { y with
      rawSum := if 20 ≤ sum then sum - 20 else sum, pushPos := y.pushPos + k } := by
    unfold pushRaw thin
    dsimp only
    rw [body, read, length]
    split <;> rfl
  rw [run]
  by_cases h : 20 ≤ sum
  · obtain ⟨t, et, it, -, queued, e, l, g, b, fields⟩ := pushClassC_marks i1 (u := u) (fld_lt ..) [classData 2 num seqNo data]
    have rx : t.rx n r = s.rx n r := by rw [fields]; rfl
    simp only [if_pos h, et]
    refine ⟨_, rfl, ?_, ?_, ?_, fun _ => queued, fun h' => absurd h (Nat.not_le.mpr h'), fun m hm => ?_⟩
    · rw [it.rx_modRx, rx]
    · rw [it.rx_modRx, rx]
      exact hraw
    · show t.mem = s.mem
      rw [fields]
      rfl
    · refine (ring_modRing_ne _ hm).trans ?_
      rw [fields]
      rfl
  · simp only [if_neg h]
    refine ⟨_, rfl, ?_, ?_, rfl, fun h' => absurd h' h, fun _ => rfl, fun m hm => ring_modRing_ne _ hm⟩
    · rw [i1.rx_modRx]
      rfl
    · rw [i1.rx_modRx]
      exact hraw

end State

/-- Settles O23. -/
theorem rawCapture : Obligations.RawCapture := by
  refine ⟨?commands, ?acqs, ?ends, ?push⟩
  case commands =>
    intro s g p u n r _ ht raw len
    refine ⟨fun h1 h2 => ?_, fun h1 => ?_, fun h1 => ?_⟩
    · exact congrArg Host.Outcome.next (State.write_rawCmd ht 1 (by decide)
        (by unfold State.rawCmdCheck
            simp [raw] at h1 h2
            simp [h1, h2, Err.need, Err.orElse, (by decide : popCount (1#32) 3 ≤ 1), (by decide : bit (1#32) 0 = true)]))
    · exact congrArg Host.Outcome.next (State.write_rawCmd ht 4 (by decide)
        (by unfold State.rawCmdCheck
            simp [raw] at h1
            simp [h1, Err.need, Err.orElse]
            decide))
    · exact congrArg Host.Outcome.next (State.write_rawCmd ht 2 (by decide)
        (by unfold State.rawCmdCheck
            simp [raw] at h1
            simp [h1, Err.need, Err.orElse]
            decide))
  case acqs =>
    intro s n r hi opened
    have hopen : s.rawWindows n r ≠ 0 ↔ opened := State.rawWindows_ne_zero
    refine ⟨fun h ha => ?_, fun h ha => ?_, fun h => ?_⟩
    · unfold State.rawAcq
      simp only [if_neg (hopen.mpr h), if_pos ha]
      exact State.startCapture_marks hi n r _
    · have miss : s.rawAcq n r = s.raiseTimes (s.rawWindows n r) (Reg.rxFlags n r) 2 := by
        unfold State.rawAcq
        simp only [if_neg (hopen.mpr h), if_neg ha]
        rfl
      obtain ⟨t, et, -, flag, kept, g, b, fields⟩ := State.raiseTimes_marks hi (s.rawWindows n r) (Reg.rxFlags n r) (b := 2) (by decide)
      rw [miss, et]
      refine ⟨by rw [fields]; rfl, flag (Nat.pos_of_ne_zero (hopen.mpr h)), fun a ha => ?_, fun k _ => by rw [fields]; rfl, _, g, b, fields⟩
      simp only [List.mem_cons, List.not_mem_nil, or_false, not_or] at ha
      exact kept a ha.1 ha.2
    · unfold State.rawAcq
      simp only [not_not.mp (mt hopen.mp h), if_true]
  case ends =>
    intro s n r c hc
    have run : exec (.rawCaptureEnd n r) s = execRawCaptureEnd n r s := rfl
    unfold execRawCaptureEnd at run
    rw [hc] at run
    exact ⟨fun h => run.trans (congrArg _ (if_pos h)), fun h => run.trans (congrArg _ (if_neg (Nat.not_le.mpr h)))⟩
  case push =>
    intro s n r hi hraw total per x k u num last sum samples data seqNo
    have made : s.rawMade n r = decide (total ≤ x.pushPos) := by
      unfold State.rawMade
      simp [hraw, total, x]
    have run : exec (.rawPush n r) s = execRawPush n r s := rfl
    unfold execRawPush at run
    refine ⟨fun h hd => ?_, fun h => ⟨?_, fun hq => ?_, fun e he f hf hc ho => ?_⟩⟩
    · rw [if_pos ⟨hraw, by rw [made]; simpa using h⟩] at run
      obtain ⟨t, et, rest⟩ := State.pushRaw_marks hi n r hraw hd
      exact ⟨t, run.trans (congrArg _ et), rest⟩
    · rw [if_neg (by rw [made]; simpa [hraw] using h)] at run
      exact run
    · unfold State.rawHandOver
      have none : s.rawQueued (2 * n + r) = false := by
        unfold State.rawQueued
        simpa using hq
      rw [if_pos ⟨by rw [made]; simpa using h, by rw [none]; simp⟩]
    · unfold State.rawHandOver
      have some : s.rawQueued (2 * n + r) = true := by
        unfold State.rawQueued
        simp only [List.any_eq_true, Bool.and_eq_true, decide_eq_true_eq, beq_iff_eq]
        exact ⟨e, he, f, hf, hc, ho⟩
      rw [if_neg (by rw [some]; simp)]


end Sys2Proof.Machine
end

section
/-! PROOF. The issue of a Juggler packet (R307, R309-R312, R325, R328, R335, R338). -/

namespace Sys2Proof.Machine

namespace State

/-! ### Results that land -/

/-- What the pipeline of the Juggler of ring `n` leaves alone: where the packet is, memory and the beat. -/
structure JKeeps (s t : State) (n : Nat) : Prop where
  pc : (t.jug n).pc = (s.jug n).pc
  inSlots : (t.jug n).inSlots = (s.jug n).inSlots
  mem : t.mem = s.mem
  memu : t.memu = s.memu
  beat : t.beat = s.beat

theorem JKeeps.refl (s : State) (n : Nat) : s.JKeeps s n := ⟨rfl, rfl, rfl, rfl, rfl⟩

theorem JKeeps.trans {s t u : State} {n : Nat} (h : s.JKeeps t n) (h' : t.JKeeps u n) : s.JKeeps u n :=
  ⟨h'.pc.trans h.pc, h'.inSlots.trans h.inSlots, h'.mem.trans h.mem, h'.memu.trans h.memu, h'.beat.trans h.beat⟩

/-- An update of a Juggler that leaves the program counter and the delay slots. -/
theorem JKeeps.modJug {s : State} (hi : s.Inv) {n : Nat} (hn : n < 12) {f : Jug → Jug}
    (hf : (f (s.jug n)).pc = (s.jug n).pc ∧ (f (s.jug n)).inSlots = (s.jug n).inSlots) : s.JKeeps (s.modJug n f) n := by
  have e := jug_modJug_self hi.rings_length hn f
  exact ⟨e ▸ hf.1, e ▸ hf.2, rfl, rfl, rfl⟩

theorem JKeeps.setJReg {s t : State} {n : Nat} (h : s.JKeeps t n) (r : Nat) (v : Word) : s.JKeeps (t.setJReg n r v) n :=
  h.trans ⟨rfl, rfl, rfl, rfl, rfl⟩

theorem jLand_keeps {s : State} (hi : s.Inv) {n : Nat} (hn : n < 12) (w : JWr) : s.JKeeps (s.jLand n w) n := by
  have loop : ∀ i b, s.JKeeps (s.keepLoop n i b) n := fun i b => by
    unfold keepLoop
    exact .modJug hi hn ⟨rfl, rfl⟩
  unfold jLand
  dsimp only
  have first : s.JKeeps (if w.prog = true ∧ 32 ≤ w.dst ∧ w.dst ≤ 35 then s.keepLoop n (w.dst - 32) w.due else s) n := by
    split
    · exact loop _ _
    · exact .refl s n
  generalize (if w.prog = true ∧ 32 ≤ w.dst ∧ w.dst ≤ 35 then s.keepLoop n (w.dst - 32) w.due else s) = u at first ⊢
  have acc : ∀ a x, s.JKeeps (u.setJAcc n a x) n := fun a x => ((first.setJReg _ _).setJReg _ _).setJReg _ _
  split
  · exact first.setJReg _ _
  · split
    · exact acc _ _
    · exact acc _ _
    · exact first.setJReg _ _
    · exact first.setJReg _ _
    · exact first.setJReg _ _

theorem foldl_jLand_keeps {n : Nat} (hn : n < 12) (ws : List JWr) {s : State} (hi : s.Inv) :
    s.JKeeps (ws.foldl (fun s w => s.jLand n w) s) n := by
  induction ws generalizing s with
  | nil => exact .refl s n
  | cons w t ih => exact (jLand_keeps hi hn w).trans (ih (jLand_inv n w hi))

theorem jSettle_keeps {s : State} (hi : s.Inv) {n : Nat} (hn : n < 12) : s.JKeeps (s.jSettle n) n := by
  unfold jSettle
  dsimp only
  split
  · exact .refl s n
  · exact .trans (.modJug hi hn ⟨rfl, rfl⟩) (foldl_jLand_keeps hn _ (modJug_inv n _ (fun _ h => h) hi))

theorem jRestore_keeps {s : State} (hi : s.Inv) {n : Nat} (hn : n < 12) : s.JKeeps (s.jRestore n) n := by
  unfold jRestore
  split
  · refine JKeeps.setJReg (.modJug hi hn ?_) _ _
    exact ⟨rfl, rfl⟩
  · exact .refl s n

/-! ### The issue -/

/-- The state in which the packet at the program counter acts (R307, R331, R332). -/
def jGate (s : State) (n : Nat) : State :=
  ((s.jSettle n).jRestore n).modJug n fun j => { j with issuedAt := some s.beat, rtiHold := j.rtiHold && j.slots.isSome }

theorem jGate_keeps {s : State} (hi : s.Inv) {n : Nat} (hn : n < 12) : s.JKeeps (s.jGate n) n := by
  have i1 := jSettle_inv n hi
  exact ((jSettle_keeps hi hn).trans (jRestore_keeps i1 hn)).trans (.modJug (jRestore_inv n i1) hn ⟨rfl, rfl⟩)

theorem jGate_inv {s : State} (hi : s.Inv) (n : Nat) : (s.jGate n).Inv :=
  modJug_inv n _ (fun _ h => h) (jRestore_inv n (jSettle_inv n hi))

theorem JKeeps.jFetch {s t : State} {n : Nat} (h : s.JKeeps t n) : t.jFetch n = s.jFetch n := by
  unfold State.jFetch loadWord load badByte damageIn bytes byte
  rw [h.pc, h.memu, h.mem]

theorem JKeeps.jLegalHere {s t : State} {n : Nat} (h : s.JKeeps t n) (w : Word) : t.jLegalHere n w = s.jLegalHere n w := by
  unfold State.jLegalHere
  rw [h.inSlots]

theorem JKeeps.damageIn {s t : State} {n : Nat} (h : s.JKeeps t n) (a k : Nat) : t.damageIn a k = s.damageIn a k := by
  unfold State.damageIn
  rw [h.memu]

/-- Without a borrowed window no access waits (R310, R451). -/
theorem foldl_touch_free {s : State} (hb : s.memu.borrow = none) (l : List Nat) :
    l.foldl (fun (p : Nat × State) x => (max p.1 (p.2.touch x).1, (p.2.touch x).2)) (0, s) = (0, s) := by
  induction l with
  | nil => rfl
  | cons a t ih =>
    rw [List.foldl_cons]
    simp only [touch_whole _ hb, Nat.max_self]
    exact ih

theorem uncorr_sound {s : State} {a : Nat} (h : s.damageIn a 4 = []) : s.uncorr a = false := by
  have none : s.damageIn a 1 = [] := by
    unfold damageIn at h ⊢
    rw [List.filter_eq_nil_iff] at h ⊢
    intro d hd
    have := h d hd
    simp only [decide_eq_true_eq] at this ⊢
    omega
  unfold uncorr
  rw [none]
  rfl

/-- What an issue does, without a borrowed window (R307, R310, R335, R338). -/
theorem jIssue_free {s : State} (hi : s.Inv) {n : Nat} (hn : n < 12) (hb : s.memu.borrow = none) :
    s.jIssue n = (
      let a := ringMem n + 0x700000 + 4 * (s.jug n).pc.toNat
      let w := s.jFetch n
      let g := (((s.jSettle n).eccRead a 4).jRestore n).modJug n fun j =>
        { j with issuedAt := some (((s.jSettle n).eccRead a 4).jRestore n).beat, rtiHold := j.rtiHold && j.slots.isSome }
      if s.uncorr a then g.jFault n 0
      else if s.jLegalHere n w then
        let t := (g.jExec n w).2.jAdvance n (g.jExec n w).1
        if jClass w = 2 ∧ jCop w = 1 then t.modJug n fun j => { j with stopAt := some (t.beat + 3) } else t
      else ((g.raiseFlag (Reg.jugFlags n) 0).setReg (Reg.jugIllPc n) (BitVec.ofNat 32 (2 ^ 31 + (g.jug n).pc.toNat))).jAdvance n .plain) := by
  have keeps := jSettle_keeps hi hn
  have free : (s.jSettle n).memu.borrow = none := keeps.memu ▸ hb
  have bad : ∀ a, (s.jSettle n).uncorr a = s.uncorr a := fun a => by
    unfold uncorr
    rw [keeps.damageIn]
  unfold jIssue
  dsimp only
  rw [keeps.jFetch, keeps.pc, keeps.jLegalHere, bad, foldl_touch_free free, if_neg (Nat.lt_irrefl 0)]
  cases s.uncorr (ringMem n + 0x700000 + 4 * (s.jug n).pc.toNat) <;> cases s.jLegalHere n (s.jFetch n) <;> rfl

section
variable {s g : State} {n : RingId} {w : Word} (hi : s.Inv) (h : s.JIssues n w g)
include hi h

theorem JIssues.keeps : s.JKeeps g n := h.state ▸ jGate_keeps hi n.isLt

theorem JIssues.inv : g.Inv := h.state ▸ jGate_inv hi n

theorem JIssues.issue {row : Nat} (hr : jRowOf w = row) :
    s.jRow n row = (
      let t := (g.jExec n w).2.jAdvance n (g.jExec n w).1
      if jClass w = 2 ∧ jCop w = 1 then t.modJug n fun j => { j with stopAt := some (t.beat + 3) } else t) := by
  have good := uncorr_sound h.sound
  have keeps := jSettle_keeps hi n.isLt
  have beat : ((s.jSettle n).jRestore n).beat = s.beat := (jRestore_keeps (jSettle_inv n hi) n.isLt).beat.trans keeps.beat
  unfold jRow
  simp only [h.fetched]
  rw [if_pos ⟨h.ready, by rw [good]; simp, h.legal, hr⟩, jIssue_free hi n.isLt h.whole]
  dsimp only
  rw [eccRead_sound ((keeps.damageIn _ _).trans h.sound), beat, h.fetched, good, h.legal, ← h.state]
  simp only [Bool.false_eq_true, if_false, if_true]

/-- A legal packet that issues acts, and the program counter goes on (R307, R325). -/
theorem JIssues.row {row : Nat} (hr : jRowOf w = row) (hh : ¬ (jClass w = 2 ∧ jCop w = 1)) :
    s.jRow n row = (g.jExec n w).2.jAdvance n (g.jExec n w).1 := (h.issue hi hr).trans (if_neg hh)

end

/-! ### The four classes of packets (R334) -/

section
variable {w : Word}

theorem jRowOf_M (h : jClass w = 0) : jRowOf w = if jMop w = 0 then 0x20 else 0x3F + jMop w := by unfold jRowOf; rw [h]; rfl
theorem jRowOf_A (h : jClass w = 1) : jRowOf w = 0x20 + jAop w := by unfold jRowOf; rw [h]; rfl
theorem jRowOf_C (h : jClass w = 2) : jRowOf w = jCop w := by unfold jRowOf; rw [h]; rfl
theorem jRowOf_absolute (h : jClass w = 3) : jRowOf w = 0x42 := by unfold jRowOf; rw [h]; rfl

theorem jExec_M (s : State) (n : Nat) (h : jClass w = 0) : s.jExec n w = (.plain, (s.jMoves n w).jMac n w) := by unfold jExec; rw [h]; rfl
theorem jExec_A (s : State) (n : Nat) (h : jClass w = 1) : s.jExec n w = (.plain, (s.jMoves n w).jAluOp n w) := by
  unfold jExec; rw [h]; rfl
theorem jExec_C (s : State) (n : Nat) (h : jClass w = 2) : s.jExec n w = s.jCop_ n w := by unfold jExec; rw [h]; rfl
theorem jExec_absolute (s : State) (n : Nat) (h : jClass w = 3) : s.jExec n w = (.plain, s.jAbsolute n w) := by unfold jExec; rw [h]; rfl

end

/-! ### Moves -/

/-- Nothing but the memory contents and the results in flight of the Juggler of ring `n` differs between the states (R311). -/
structure JMoved (g m : State) (n : Nat) : Prop where
  regs : m.regs = g.regs
  memu : m.memu = g.memu
  beat : m.beat = g.beat
  inv : m.Inv

theorem JMoved.trans {g m t : State} {n : Nat} (h : g.JMoved m n) (h' : m.JMoved t n) : g.JMoved t n :=
  ⟨h'.regs.trans h.regs, h'.memu.trans h.memu, h'.beat.trans h.beat, h'.inv⟩

theorem JMoved.refl {g : State} (hi : g.Inv) (n : Nat) : g.JMoved g n := ⟨rfl, rfl, rfl, hi⟩

theorem JMoved.jSend {g : State} (hi : g.Inv) (n k dst : Nat) (val : BitVec 72) (prog : Bool) :
    g.JMoved (g.jSend n k dst val prog) n :=
  ⟨rfl, rfl, rfl, jSend_inv n k dst val prog hi⟩

theorem JMoved.jReg {g m : State} {n : Nat} (h : g.JMoved m n) (k r : Nat) : m.jReg k r = g.jReg k r := by
  unfold State.jReg State.getReg
  rw [h.regs]

theorem JMoved.jAcc {g m : State} {n : Nat} (h : g.JMoved m n) (k a : Nat) : m.jAcc k a = g.jAcc k a := by
  unfold State.jAcc
  simp only [h.jReg]

theorem JMoved.setBytes {g : State} (hi : g.Inv) (n a : Nat) (bs : List Byte) : g.JMoved (g.setBytes a bs) n := by
  have inv := setBytes_inv a bs hi
  obtain ⟨m, e⟩ := setBytes_fields g a bs
  rw [e g rfl] at inv ⊢
  exact ⟨rfl, rfl, rfl, inv⟩

/-- The address of a move, when it has one (R311). -/
def moveAddr (g : State) (n xy f : Nat) : Nat := jData n xy (g.jReg n (8 + fld (BitVec.ofNat 9 f) 7 5)).toNat

/-- A move of sound memory: nothing, a store, or a load on its way (R311, R314). -/
theorem jMove_sound {g : State} {n xy f : Nat} (hb : g.memu.borrow = none)
    (hd : bit (BitVec.ofNat 9 f) 8 = true → g.damageIn (g.moveAddr n xy f) 4 = []) :
    g.jMove n xy f =
      if bit (BitVec.ofNat 9 f) 8 = false then g
      else if bit (BitVec.ofNat 9 f) 3 then g.setBytes (g.moveAddr n xy f) (leBytes 4 (g.jReg n (fld (BitVec.ofNat 9 f) 2 0)).toNat)
      else g.jSend n 2 (fld (BitVec.ofNat 9 f) 2 0) (BitVec.ofNat 72 (g.word (g.moveAddr n xy f)).toNat) false := by
  unfold jMove
  dsimp only
  cases hx : bit (BitVec.ofNat 9 f) 8 with
  | false => rfl
  | true =>
    have sound := hd hx
    unfold moveAddr at sound ⊢
    simp only [not_true_eq_false, if_false, Bool.true_eq_false]
    split
    · rw [rtStore_sound hb (by rw [length_leBytes]; exact sound)]
    · rw [loadWord_sound sound, rtRead_sound hb sound]

theorem jMove_moved {g : State} (hi : g.Inv) {n xy f : Nat} (hb : g.memu.borrow = none)
    (hd : bit (BitVec.ofNat 9 f) 8 = true → g.damageIn (g.moveAddr n xy f) 4 = []) : g.JMoved (g.jMove n xy f) n := by
  rw [jMove_sound hb hd]
  split
  · exact .refl hi n
  · split
    · exact .setBytes hi n _ _
    · exact .jSend hi n _ _ _ _

theorem jPointers_moved {g : State} (hi : g.Inv) (n : Nat) (w : Word) : g.JMoved (g.jPointers n w) n := by
  unfold jPointers
  dsimp only
  have one : ∀ (u : State), u.Inv → ∀ k d v, u.JMoved (u.jSend n k d v false) n := fun u hu k d v => .jSend hu n k d v false
  split
  · split
    · exact (one g hi _ _ _).trans (one _ (jSend_inv _ _ _ _ _ hi) _ _ _)
    · exact one g hi _ _ _
  · split
    · exact one g hi _ _ _
    · exact .refl hi n

/-- The data words that the moves of a packet access (R311). -/
theorem jTouched_moves (g : State) (n : Nat) {w : Word} (hc : jClass w = 0 ∨ jClass w = 1) :
    g.jTouched n w = (if bit (BitVec.ofNat 9 (fld w 17 9)) 8 then [g.moveAddr n 0 (fld w 17 9)] else []) ++
      (if bit (BitVec.ofNat 9 (fld w 8 0)) 8 then [g.moveAddr n 1 (fld w 8 0)] else []) := by
  unfold jTouched
  obtain h | h := hc <;> rw [h] <;> rfl

/-- The moves of a packet that issues leave registers, the beat and the damage of memory (R311). -/
theorem jMoves_moved {g : State} (hi : g.Inv) {n : Nat} {w : Word} (hc : jClass w = 0 ∨ jClass w = 1)
    (hb : g.memu.borrow = none) (hd : ∀ a ∈ g.jTouched n w, g.damageIn a 4 = []) : g.JMoved (g.jMoves n w) n := by
  rw [jTouched_moves g n hc] at hd
  have x := jMove_moved hi (n := n) (xy := 0) (f := fld w 17 9) hb fun e => hd _ (by simp [e])
  have same : (g.jMove n 0 (fld w 17 9)).moveAddr n 1 (fld w 8 0) = g.moveAddr n 1 (fld w 8 0) := by
    unfold moveAddr
    rw [x.jReg]
  have y := jMove_moved x.inv (n := n) (xy := 1) (f := fld w 8 0) (x.memu ▸ hb) fun e => by
    unfold damageIn
    rw [x.memu, same]
    exact hd _ (by simp [e])
  exact (x.trans y).trans (jPointers_moved y.inv n w)

end State

end Sys2Proof.Machine
end

section
/-! PROOF. Juggler data operations and accumulators (R137, R307, R308, R315-R318, R334). -/

namespace Sys2Proof.Machine

namespace State

section
variable {s g : State} {n : RingId} {w : Word} (hi : s.Inv) (h : s.JIssues n w g)
include hi h

theorem JIssues.borrow : g.memu.borrow = none := (h.keeps hi).memu ▸ h.whole

/-- The moves of the packet (R311). -/
theorem JIssues.moved (hc : jClass w = 0 ∨ jClass w = 1) : g.JMoved (g.jMoves n w) n :=
  jMoves_moved (h.inv hi) hc (h.borrow hi) h.data

/-- A class A packet: its moves and its operation (R311, R318). -/
theorem JIssues.classA (hc : jClass w = 1) {row : Nat} (hr : 0x20 + jAop w = row) :
    s.jRow n row = ((g.jMoves n w).jAluOp n w).jAdvance n .plain := by
  rw [h.row hi ((jRowOf_A hc).trans hr) (by omega), jExec_A g n hc]

/-- A data operation: its result, its flags, and SAT when it saturated (R318). -/
theorem JIssues.aluOp (hc : jClass w = 1) (h0 : jAop w ≠ 0) (ha : accOp (jAop w) = false) :
    (g.jMoves n w).jAluOp n w = (
      let r := jAlu (jAop w) (g.jReg n (fld w 24 22)) (g.jReg n (fld w 21 19))
      let m := g.jMoves n w
      let t := if jAop w = 0x04 then m else m.jSend n 1 (fld w 24 22) (BitVec.ofNat 72 r.1.toNat) false
      let t := t.jSend n 1 44 (BitVec.ofNat 72 (r.2.1.z.toNat + 2 * r.2.1.n.toNat + 4 * r.2.1.c.toNat + 8 * r.2.1.v.toNat)) false
      if r.2.2 then t.jSat n else t) := by
  have moved := h.moved hi (.inr hc)
  unfold jAluOp
  simp only [if_neg h0, ha, Bool.false_eq_true, if_false, moved.jReg]

/-- A data operation that does not saturate (R318). -/
theorem JIssues.result (hc : jClass w = 1) {op : Nat} (ho : jAop w = op) (hp : op ≠ 0 ∧ op ≠ 4 ∧ accOp op = false) {r : Word} {cy v : Bool}
    (e : jAlu op (g.jReg n (fld w 24 22)) (g.jReg n (fld w 21 19)) = (r, .ofRes r cy v, false)) :
    s.jRow n (0x20 + op) = ((g.jMoves n w).jResult n (fld w 24 22) r cy v).jAdvance n .plain := by
  subst ho
  obtain ⟨h0, h4, ha⟩ := hp
  rw [h.classA hi hc rfl, h.aluOp hi hc h0 ha, e]
  simp only [if_neg h4, Bool.false_eq_true, if_false]
  rfl

/-- A data operation that saturates (R318). -/
theorem JIssues.clipped (hc : jClass w = 1) {op : Nat} (ho : jAop w = op) (hp : op ≠ 0 ∧ op ≠ 4 ∧ accOp op = false) {i : Int} {r : Word}
    {cy v : Bool}
    (e : jAlu op (g.jReg n (fld w 24 22)) (g.jReg n (fld w 21 19)) = (BitVec.ofInt 32 (sat 32 i), .ofRes r cy v, !fits 32 i)) :
    s.jRow n (0x20 + op) = (
      let t := ((g.jMoves n w).jSend n 1 (fld w 24 22) (BitVec.ofNat 72 (BitVec.ofInt 32 (sat 32 i)).toNat) false).jFlagged n r cy v
      (if fits 32 i then t else (t.jSend n 1 46 1 false).raiseFlag (Reg.jugFlags n) 5).jAdvance n .plain) := by
  subst ho
  obtain ⟨h0, h4, ha⟩ := hp
  rw [h.classA hi hc rfl, h.aluOp hi hc h0 ha, e]
  simp only [if_neg h4]
  cases fits 32 i <;> rfl

/-- CMP: the flags of SUB and nothing written (R318). -/
theorem JIssues.compared (hc : jClass w = 1) (ho : jAop w = 4) :
    s.jRow n 0x24 = (
      let d := g.jReg n (fld w 24 22)
      let x := g.jReg n (fld w 21 19)
      ((g.jMoves n w).jFlagged n (d - x) (decide (x.toNat ≤ d.toNat)) (decide ((d - x).toInt ≠ d.toInt - x.toInt))).jAdvance n .plain) := by
  rw [h.classA hi hc (by rw [ho]), h.aluOp hi hc (by omega) (by rw [ho]; decide), ho]
  rfl

end

end State

/-- Settles O25. -/
theorem jugglerArithmetic : Obligations.JugglerArithmetic := by
  intro s g n w hi h hc dst d x k ends clips carry noBorrow subV low
  have plain : ∀ (c : RingId → Instr) (op : Nat) (r : Word) (cy v : Bool), jAop w = op → exec (c n) s = .next (s.jRow n (0x20 + op)) →
      (op ≠ 0 ∧ op ≠ 4 ∧ accOp op = false) → State.jAlu op d x = (r, .ofRes r cy v, false) → ends c r cy v :=
    fun c op r cy v ho run hp e => run.trans (congrArg _ (h.result hi hc ho hp e))
  have saturating : ∀ (c : RingId → Instr) (op : Nat) (i : Int) (r : Word) (cy v : Bool), jAop w = op →
      exec (c n) s = .next (s.jRow n (0x20 + op)) → (op ≠ 0 ∧ op ≠ 4 ∧ accOp op = false) →
      State.jAlu op d x = (BitVec.ofInt 32 (sat 32 i), .ofRes r cy v, !fits 32 i) → clips c i r cy v :=
    fun c op i r cy v ho run hp e => run.trans (congrArg _ (h.clipped hi hc ho hp e))
  exact ⟨fun ho => plain .mov 0x01 _ _ _ ho rfl (by decide) rfl,
    fun ho => plain .jugAdd 0x02 _ _ _ ho rfl (by decide) rfl,
    fun ho => plain .jugSub 0x03 _ _ _ ho rfl (by decide) rfl,
    fun ho => congrArg Host.Outcome.next (h.compared hi hc ho),
    fun ho => plain .jugAnd 0x05 _ _ _ ho rfl (by decide) rfl,
    fun ho => plain .jugOr 0x06 _ _ _ ho rfl (by decide) rfl,
    fun ho => plain .jugXor 0x07 _ _ _ ho rfl (by decide) rfl,
    fun ho => plain .jugShl 0x08 _ _ _ ho rfl (by decide) rfl,
    fun ho => plain .jugShr 0x09 _ _ _ ho rfl (by decide) rfl,
    fun ho => plain .asr 0x0A _ _ _ ho rfl (by decide) rfl,
    fun ho => plain .neg 0x0B _ _ _ ho rfl (by decide) rfl,
    fun ho => saturating .abs 0x0C _ _ _ _ ho rfl (by decide) rfl,
    fun ho => plain .min 0x0D _ _ _ ho rfl (by decide) rfl,
    fun ho => plain .max 0x0E _ _ _ ho rfl (by decide) rfl,
    fun ho => saturating .adds 0x0F _ _ _ _ ho rfl (by decide) rfl,
    fun ho => saturating .subs 0x10 _ _ _ _ ho rfl (by decide) rfl,
    fun ho => plain .sgnb 0x19 _ _ _ ho rfl (by decide) rfl⟩

end Sys2Proof.Machine
end

section
/-! PROOF. Juggler accumulators and RND (R308, R315-R317, R334). -/

namespace Sys2Proof.Machine

namespace State

/-- An accumulator's result on its way (R307, R315). -/
theorem jAccs_one (m : State) (n a : Nat) (r : Int) : m.jAccs n [(a, r)] = m.jAccResult n a r := by
  unfold jAccs jAccResult
  simp only [List.any_cons, List.any_nil, Bool.or_false, List.foldl_cons, List.foldl_nil]

/-- Two accumulators' results on their way (R307, R315). -/
theorem jAccs_two (m : State) (n a b : Nat) (r r' : Int) :
    m.jAccs n [(a, r), (b, r')] =
      (((m.jSend n 2 (42 + a) (BitVec.ofInt 72 r) false).jSend n 2 (42 + b) (BitVec.ofInt 72 r') false).jSend n 2 45
        (if !fits 72 r || !fits 72 r' then 1 else 0) false).raiseIf (!fits 72 r || !fits 72 r') (Reg.jugFlags n) 4 := by
  unfold jAccs
  simp only [List.any_cons, List.any_nil, Bool.or_false, List.foldl_cons, List.foldl_nil]

/-- The value of an accumulator operation on `x`, the other accumulator `y` and a register (R334). -/
def accValue (op : Nat) (x y : Int) (src : Word) : Int :=
  match op with
  | 0x11 => 0
  | 0x12 => src.toInt
  | 0x13 => x + y
  | 0x14 => x - y
  | 0x15 => x * 2 ^ (src.toNat % 64)
  | 0x16 => Int.fdiv x (2 ^ (src.toNat % 64))
  | 0x17 => -x
  | _ => x.natAbs

theorem jAccOp_eq (s : State) (n : Nat) (w : Word) : s.jAccOp n w = s.jAccResult n (fld w 18 18)
    (accValue (jAop w) (s.jAcc n (fld w 18 18)) (s.jAcc n (1 - fld w 18 18)) (s.jReg n (fld w 21 19))) :=
  jAccs_one s n _ _

/-- The other register of a pair (R316). -/
theorem xor_one : ∀ k < 8, Nat.xor k 1 = if k % 2 = 0 then k + 1 else k - 1 := by decide

section
variable {s g : State} {n : RingId} {w : Word} (hi : s.Inv) (h : s.JIssues n w g)
include hi h

/-- A class M packet with arithmetic: its moves and its products (R311, R316). -/
theorem JIssues.classM (hc : jClass w = 0) (hm : jMop w ≠ 0) :
    s.jRow n (0x3F + jMop w) = ((g.jMoves n w).jMac n w).jAdvance n .plain := by
  rw [h.row hi ((jRowOf_M hc).trans (if_neg hm)) (by omega), jExec_M g n hc]

/-- An operation on an accumulator (R315, R334). -/
theorem JIssues.accOp (hc : jClass w = 1) {op : Nat} (ho : jAop w = op) (ha : accOp op = true) :
    s.jRow n (0x20 + op) = ((g.jMoves n w).jAccResult n (fld w 18 18)
      (accValue op (g.jAcc n (fld w 18 18)) (g.jAcc n (1 - fld w 18 18)) (g.jReg n (fld w 21 19)))).jAdvance n .plain := by
  subst ho
  have moved := h.moved hi (.inr hc)
  rw [h.classA hi hc rfl, ← moved.jAcc, ← moved.jAcc, ← moved.jReg, ← jAccOp_eq]
  unfold jAluOp
  dsimp only
  rw [if_neg (by unfold Machine.accOp at ha; simp at ha; omega), if_pos ha]

/-- A class C packet (R334). -/
theorem JIssues.classC (hc : jClass w = 2) {op : Nat} (ho : jCop w = op) (h1 : op ≠ 1) :
    s.jRow n op = (g.jCop_ n w).2.jAdvance n (g.jCop_ n w).1 := by
  rw [h.row hi ((jRowOf_C hc).trans ho) (by omega), jExec_C g n hc]

end

end State

/-- Settles O26. -/
theorem jugglerAccumulators : Obligations.JugglerAccumulators := by
  intro s g n w hi h m d a x y k base prod ends
  refine ⟨fun hc hm => ?_, fun hc hm => ?_, fun hc => ?_, fun hc ho => ?_⟩
  · have moved := h.moved hi (.inl hc)
    have row := h.classM hi hc (by omega)
    rw [hm] at row
    refine congrArg Host.Outcome.next (row.trans ?_)
    unfold State.jMac
    rw [hm]
    dsimp only
    rw [State.jAccs_one]
    simp only [moved.jReg, prod, base, d, m]
  · intro rb rx r0 r1 out
    have moved := h.moved hi (.inl hc)
    have row := h.classM hi hc (by omega)
    rw [hm] at row
    refine congrArg Host.Outcome.next (row.trans (congrArg (fun t => State.jAdvance t n .plain) ?_))
    have other : Nat.xor rb 1 = rx := State.xor_one rb (fld_lt ..)
    unfold State.jMac
    rw [hm]
    dsimp only
    rw [other, State.jAccs_two]
    cases hx : bit w 18 <;> simp only [moved.jReg, r0, r1, rx, rb, out, prod, base, d, m, hx, if_true, if_false, Bool.false_eq_true]
  · have one : ∀ (c : RingId → Instr) (op : Nat), jAop w = op → exec (c n) s = .next (s.jRow n (0x20 + op)) → accOp op = true →
        ends c (State.accValue op x y (g.jReg n (fld w 21 19))) := fun c op ho run ha => run.trans (congrArg _ (h.accOp hi hc ho ha))
    exact ⟨fun ho => one .aclr 0x11 ho rfl rfl, fun ho => one .amov 0x12 ho rfl rfl, fun ho => one .aadd 0x13 ho rfl rfl,
      fun ho => one .asub 0x14 ho rfl rfl, fun ho => one .ashl 0x15 ho rfl rfl, fun ho => one .ashr 0x16 ho rfl rfl,
      fun ho => one .aneg 0x17 ho rfl rfl, fun ho => one .aabs 0x18 ho rfl rfl⟩
  · intro q v t
    have row := h.classC hi hc ho (by decide)
    refine congrArg Host.Outcome.next (row.trans ?_)
    unfold State.jCop_
    rw [ho]
    show (g.jRnd n w).jAdvance n .plain = _
    refine congrArg (fun t => State.jAdvance t n .plain) ?_
    unfold State.jRnd State.jSat
    have same : roundShift (g.jAcc n (fld w 20 20)) (fld w 5 0) = v := rfl
    rw [same]

end Sys2Proof.Machine
end

section
/-! PROOF. Juggler moves, register loads, ports and posts (R311-R313, R319-R323, R334). -/

namespace Sys2Proof.Machine

namespace State

/-- A packet of moves alone is of class M or A (R311, R334). -/
theorem class_of_moves {w : Word} (hl : jLegal w = true) (hr : jRowOf w = 0x20) :
    (jClass w = 0 ∧ jMop w = 0) ∨ (jClass w = 1 ∧ jAop w = 0) := by
  have lt : jClass w < 4 := fld_lt ..
  obtain h | h | h | h : jClass w = 0 ∨ jClass w = 1 ∨ jClass w = 2 ∨ jClass w = 3 := by omega
  · rw [jRowOf_M h] at hr
    split at hr
    next h0 => exact .inl ⟨h, h0⟩
    next => omega
  · rw [jRowOf_A h] at hr
    exact .inr ⟨h, by omega⟩
  · rw [jRowOf_C h] at hr
    have illegal : jLegal w = false := by
      unfold jLegal cLegal
      rw [h, hr]
      rfl
    rw [illegal] at hl
    contradiction
  · rw [jRowOf_absolute h] at hr
    contradiction

section
variable {s g : State} {n : RingId} {w : Word} (hi : s.Inv) (h : s.JIssues n w g)
include hi h

omit hi in
theorem JIssues.jLegal : jLegal w = true := by
  have legal := h.legal
  unfold jLegalHere at legal
  simp only [Bool.and_eq_true] at legal
  exact legal.1

/-- A packet of moves alone (R311). -/
theorem JIssues.moves (hr : jRowOf w = 0x20) : s.jRow n 0x20 = (g.jMoves n w).jAdvance n .plain := by
  obtain ⟨hc, hm⟩ | ⟨hc, ho⟩ := class_of_moves (h.jLegal) hr
  · rw [h.row hi hr (by omega), jExec_M g n hc]
    unfold jMac
    rw [hm]
    rfl
  · rw [h.row hi hr (by omega), jExec_A g n hc]
    unfold jAluOp
    rw [ho]
    rfl

/-- An absolute move (R313). -/
theorem JIssues.absolute (hc : jClass w = 3) :
    s.jRow n 0x42 = (
      let a := jData n (fld w 29 29) (fld w 12 0)
      if bit w 28 then g.setBytes a (leBytes 4 (g.jReg n (fld w 27 22)).toNat)
      else g.jSend n 2 (fld w 27 22) (BitVec.ofNat 72 (g.word a).toNat) true).jAdvance n .plain := by
  have sound : g.damageIn (jData n (fld w 29 29) (fld w 12 0)) 4 = [] := h.data _ (by unfold jTouched; rw [hc]; exact List.mem_cons_self ..)
  rw [h.row hi (jRowOf_absolute hc) (by omega), jExec_absolute g n hc]
  unfold jAbsolute
  dsimp only
  rw [loadWord_sound sound, rtRead_sound (h.borrow hi) sound,
    rtStore_sound (h.borrow hi) (by rw [length_leBytes]; exact sound)]

/-- A class C packet that goes on (R334). -/
theorem JIssues.onward (hc : jClass w = 2) {op : Nat} (ho : jCop w = op) (h1 : op ≠ 1) {t : State} (e : g.jCop_ n w = (.plain, t)) :
    s.jRow n op = t.jAdvance n .plain := by
  rw [h.classC hi hc ho h1, e]

/-- The X move of a packet without a Y move (R311, R312). -/
theorem JIssues.xMove (hr : jRowOf w = 0x20) (hx : bit (BitVec.ofNat 9 (fld w 17 9)) 8 = true) (hy : fld w 8 0 = 0) :
    let xw := BitVec.ofNat 9 (fld w 17 9)
    let at_ := jData n 0 (g.jReg n (8 + fld xw 7 5)).toNat
    let m := if bit xw 3 then g.setBytes at_ (leBytes 4 (g.jReg n (fld xw 2 0)).toNat)
      else g.jSend n 2 (fld xw 2 0) (BitVec.ofNat 72 (g.word at_).toNat) false
    g.jMoves n w = if bit xw 4 then m.jSend n 1 (8 + fld xw 7 5) (BitVec.ofNat 72
      (postMod (g.jReg n (8 + fld xw 7 5)).toNat (g.jReg n (16 + fld xw 7 5)).toInt (g.jReg n (24 + fld xw 7 5)).toNat)) false else m := by
  intro xw at_ m
  have hc : jClass w = 0 ∨ jClass w = 1 := (class_of_moves h.jLegal hr).imp And.left And.left
  have sound : g.damageIn (g.moveAddr n 0 (fld w 17 9)) 4 = [] := h.data _ (by rw [jTouched_moves g n hc]; simp [hx])
  have x : g.jMove n 0 (fld w 17 9) = m := by
    rw [jMove_sound (h.borrow hi) fun _ => sound, if_neg (by rw [hx]; decide)]
    rfl
  have moved : g.JMoved m n := x ▸ jMove_moved (h.inv hi) (h.borrow hi) fun _ => sound
  have y : m.jMove n 1 0 = m := rfl
  unfold jMoves
  rw [x, hy, y]
  have noY : bit (BitVec.ofNat 9 0) 8 = false := by decide
  unfold jPointers jPostMod
  rw [hy]
  cases h4 : bit xw 4 <;> simp only [hx, h4, noY, moved.jReg, xw] at h4 ⊢ <;>
    simp only [Bool.and_self, Bool.and_false, Bool.false_and, Bool.false_eq_true, false_and, if_false, if_true, not_false_eq_true, and_self]

end

end State

/-- Settles O27. -/
theorem jugglerMovesAndPorts : Obligations.JugglerMovesAndPorts := by
  intro s g n w hi h on d xw at_
  refine ⟨fun hr => ⟨congrArg Host.Outcome.next (h.moves hi hr), fun hx hy => ?_⟩, fun hc => ?_, fun hc => ?_⟩
  · have move := h.xMove hi hr hx hy
    refine ⟨fun h4 h3 => ?_, fun h4 h3 => ?_, fun h4 h3 => ?_⟩ <;>
      simp only [xw] at h3 h4 <;> simpa only [h3, h4, if_true, if_false, Bool.false_eq_true] using move
  · have row : exec (.absoluteMove n) s = .next (s.jRow n 0x42) := rfl
    rw [h.absolute hi hc] at row
    refine ⟨fun h28 => ?_, fun h28 => ?_⟩ <;> simpa only [h28, if_true, if_false, Bool.false_eq_true] using row
  · have cop : ∀ (c : RingId → Instr) (op : Nat) (t : State), jCop w = op → exec (c n) s = .next (s.jRow n op) → op ≠ 1 →
        g.jCop_ n w = (.plain, t) → exec (c n) s = .next (on t) :=
      fun c op t ho run h1 e => run.trans (congrArg _ (h.onward hi hc ho h1 e))
    refine ⟨fun ho => ?_, fun ho => ?_, fun ho => ?_, fun ho => ?_, fun ho hp => ?_, fun ho hp => ?_, fun ho => ?_⟩
    · exact cop .jugLdi 0x09 _ ho rfl (by decide) (by unfold State.jCop_; rw [ho]; rfl)
    · exact cop .ldr 0x0A _ ho rfl (by decide) (by unfold State.jCop_; rw [ho]; rfl)
    · exact cop .movr 0x0B _ ho rfl (by decide) (by unfold State.jCop_; rw [ho]; rfl)
    · exact cop .inPort 0x0C _ ho rfl (by decide) (by unfold State.jCop_; rw [ho]; rfl)
    · exact cop .outPort 0x0D _ ho rfl (by decide) (by unfold State.jCop_ State.jOut; rw [ho, hp]; rfl)
    · exact cop .outPort 0x0D _ ho rfl (by decide) (by unfold State.jCop_ State.jOut; rw [ho, hp]; rfl)
    · exact cop .post 0x0E _ ho rfl (by decide) (by unfold State.jCop_; rw [ho]; rfl)

end Sys2Proof.Machine
end

section
/-! PROOF. Juggler branches, calls, loops, WAIT and HALT (R325-R329, R332, R337, R338). -/

namespace Sys2Proof.Machine

namespace State

/-! ### The program counter after a packet outside delay slots -/

theorem modJug_congr {s : State} {n : Nat} {f f' : Jug → Jug} (h : f (s.jug n) = f' (s.jug n)) : s.modJug n f = s.modJug n f' :=
  modRing_congr (congrArg (fun x => { s.ring n with jug := x }) h)

theorem jAdvance_taken {s : State} {n : Nat} (hs : (s.jug n).slots = none) (t : BitVec 12) (sr : Option (BitVec 32)) (k : Nat) :
    s.jAdvance n (.taken t sr k) = s.modJug n fun j => { j with
      slots := some (2, t, sr, k), inSlots := 2, pc := j.pc + 1, issueAt := s.beat + 1 } := by
  unfold jAdvance
  simp only [hs]
  exact modJug_congr rfl

theorem jAdvance_fault {s : State} {n : Nat} (hs : (s.jug n).slots = none) (c : Nat) : s.jAdvance n (.fault c) = s.jFault n c := by
  unfold jAdvance
  simp only [hs]

theorem jAdvance_into {s : State} {n : Nat} (hs : (s.jug n).slots = none) :
    s.jAdvance n .into = s.modJug n fun j => { j with inSlots := 0, pc := (s.jug n).pc + 1, issueAt := s.beat + 1 } := by
  unfold jAdvance
  simp only [hs]

theorem jAdvance_skip {s : State} {n : Nat} (hs : (s.jug n).slots = none) (t : BitVec 12) :
    s.jAdvance n (.skip t) = s.modJug n fun j => { j with inSlots := 0, pc := t, issueAt := s.beat + 3 } := by
  unfold jAdvance
  simp only [hs]

theorem jAdvance_plain {s : State} {n : Nat} (hs : (s.jug n).slots = none) :
    s.jAdvance n .plain = (s.jLoop n (s.jug n).pc).2.modJug n fun j => { j with
      inSlots := j.inSlots - 1, pc := (s.jLoop n (s.jug n).pc).1, issueAt := s.beat + 1 } := by
  unfold jAdvance
  simp only [hs]
  rfl

theorem jAdvance_untaken {s : State} {n : Nat} (hs : (s.jug n).slots = none) :
    s.jAdvance n .untaken = (s.jLoop n (s.jug n).pc).2.modJug n fun j => { j with
      inSlots := 2, pc := (s.jLoop n (s.jug n).pc).1, issueAt := s.beat + 1 } := by
  unfold jAdvance
  simp only [hs]
  rfl

/-! ### The loop hardware, with no program write of its registers under way -/

theorem loopGov_settled {s : State} {n : Nat} (hl : (s.jug n).loopW = []) (i : Nat) : s.loopGov n i = s.loopSeen n i := by
  unfold loopGov
  rw [hl]
  rfl

/-- The packet at the program counter is the last of the loop (R328). -/
def AtEnd (s : State) (n : Nat) : Prop := bit (s.jSr n) 8 = true ∧ s.jReg n 33 = (s.jug n).pc.zeroExtend 32

theorem fld_one (x : Word) (i : Nat) : fld x i i = (bit x i).toNat := by
  unfold fld bit
  rw [Nat.add_sub_cancel_left, Nat.testBit_eq_decide_div_mod_eq, Nat.shiftRight_eq_div_pow, Nat.pow_one]
  have := Nat.mod_lt (x.toNat / 2 ^ i) (show 0 < 2 by decide)
  by_cases h : x.toNat / 2 ^ i % 2 = 1 <;> simp [h]
  omega

/-- The loop test of the hardware (R328). -/
theorem loopTest {s : State} {n : Nat} (hl : (s.jug n).loopW = []) :
    (s.loopGov n 3 = 0 ∨ s.loopGov n 1 ≠ (s.jug n).pc.zeroExtend 32) ↔ ¬ s.AtEnd n := by
  have len : s.loopGov n 3 = 0 ↔ ¬ bit (s.jSr n) 8 = true := by
    rw [loopGov_settled hl]
    unfold loopSeen
    rw [if_pos rfl, fld_one]
    cases bit (s.jSr n) 8 <;> decide
  have stop : s.loopGov n 1 = s.jReg n 33 := loopGov_settled hl 1
  unfold AtEnd
  rw [len, stop, not_and_or]

theorem jLoop_past {s : State} {n : Nat} (hl : (s.jug n).loopW = []) (h : ¬ s.AtEnd n) :
    s.jLoop n (s.jug n).pc = ((s.jug n).pc + 1, s) := by
  unfold jLoop
  rw [if_pos ((loopTest hl).mpr h)]

theorem jLoop_end {s : State} {n : Nat} (hl : (s.jug n).loopW = []) (h : s.AtEnd n) :
    s.jLoop n (s.jug n).pc =
      if 2 ≤ (s.jReg n 34).toNat then ((s.jReg n 32).truncate 12, s.setJReg n 34 (s.jReg n 34 - 1))
      else if s.jReg n 34 = 1 then ((s.jug n).pc + 1, s.setJReg n 34 0)
      else ((s.jug n).pc + 1, s) := by
  have first : s.loopGov n 0 = s.jReg n 32 := loopGov_settled hl 0
  have count : s.loopGov n 2 = s.jReg n 34 := loopGov_settled hl 2
  unfold jLoop
  rw [if_neg fun h' => (loopTest hl).mp h' h, hl, first, count]
  rfl

/-- A packet that goes on outside a loop's end (R328). -/
theorem jAdvance_past {s : State} {n : Nat} (hs : (s.jug n).slots = none) (hl : (s.jug n).loopW = []) (h : ¬ s.AtEnd n) :
    s.jAdvance n .plain = s.modJug n fun x => { x with
      inSlots := (s.jug n).inSlots - 1, pc := (s.jug n).pc + 1, issueAt := s.beat + 1 } := by
  rw [jAdvance_plain hs, jLoop_past hl h]
  exact modJug_congr rfl

/-! ### DO -/

/-- A register as it is read back (R305, R306). -/
theorem jReg_setJReg_self {s : State} (hi : s.Inv) (n r : Nat) (v : Word) : (s.setJReg n r v).jReg n r = jugNorm r v :=
  getReg_setReg_self hi.regs_wf _ _

theorem jReg_setJReg_ne (s : State) (n : Nat) {r k : Nat} (hk : k ≠ r) (v : Word) : (s.setJReg n r v).jReg n k = s.jReg n k :=
  getReg_setReg_other _ _ (by simp only [Reg.jugReg]; omega)

theorem jug_setJReg (s : State) (n r : Nat) (v : Word) (m : Nat) : (s.setJReg n r v).jug m = s.jug m := rfl

theorem OnlyRing.setJReg {s t : State} {n : Nat} {as : List Nat} (h : s.OnlyRing t n as) (ht : t.Inv) (r : Nat) (v : Word) :
    s.OnlyRing (t.setJReg n r v) n (as ++ [Reg.jugReg n r]) := h.setReg ht _ _

/-- A register as wide as the value it is written (R305). -/
theorem and_low {v : Word} {k : Nat} (hk : k ≤ 32) (h : v.toNat < 2 ^ k) : v &&& BitVec.ofNat 32 (2 ^ k - 1) = v := by
  refine BitVec.eq_of_toNat_eq ?_
  have mask : (2 ^ k - 1) % 2 ^ 32 = 2 ^ k - 1 := Nat.mod_eq_of_lt (by
    have := Nat.pow_le_pow_right (show 0 < 2 by decide) hk
    have := Nat.two_pow_pos k
    omega)
  rw [BitVec.toNat_and, BitVec.toNat_ofNat, mask, Nat.and_two_pow_sub_one_eq_mod, Nat.mod_eq_of_lt h]

theorem bit_and (x y : Word) (i : Nat) : bit (x &&& y) i = (bit x i && bit y i) := by
  unfold bit
  rw [BitVec.toNat_and, Nat.testBit_and]

/-- The bits that sr holds (R306). -/
theorem bit_norm_sr (v : Word) {i : Nat} (h : bit (0x00FF01FF : Word) i = true) : bit (jugNorm 35 v) i = bit v i := by
  have norm : jugNorm 35 v = v &&& 0x00FF01FF := rfl
  rw [norm, bit_and, h, Bool.and_true]

/-- What DO leaves (R327). -/
theorem jDo_marks {g : State} (hi : g.Inv) (n : RingId) (w : Word) :
    let c : Nat := if bit w 23 then (g.jReg n (fld w 22 20)).toNat % 65536 else fld w 22 12
    ∃ t, g.jDo n w = (if c = 0 then .skip (BitVec.ofNat 12 (fld w 11 0) + 1) else .into, t) ∧ t.Inv ∧
      t.jReg n 34 = BitVec.ofNat 32 c ∧ t.jReg n 33 = BitVec.ofNat 32 (fld w 11 0) ∧
      t.jReg n 32 = ((g.jug n).pc + 1).zeroExtend 32 ∧ bit (t.jSr n) 8 = decide (0 < c) ∧ t.beat = g.beat ∧
      t.jug n = { g.jug n with loopW := [] } ∧
      g.OnlyRing t n [Reg.jugReg n 32, Reg.jugReg n 33, Reg.jugReg n 34, Reg.jugReg n 35] := by
  intro c
  have hc : c < 65536 := by
    simp only [c]
    split
    · exact Nat.mod_lt _ (by decide)
    · have : fld w 22 12 < 2 ^ 11 := fld_lt ..
      omega
  have i0 : (g.modJug n fun j => { j with loopW := [] }).Inv := modJug_inv n _ (fun _ h => h) hi
  have i1 := setJReg_inv n 32 (((g.jug n).pc + 1).zeroExtend 32) i0
  have i2 := setJReg_inv n 33 ((BitVec.ofNat 12 (fld w 11 0)).zeroExtend 32) i1
  have i3 := setJReg_inv n 34 (BitVec.ofNat 32 c) i2
  generalize e3 : (((g.modJug n fun j => { j with loopW := [] }).setJReg n 32 (((g.jug n).pc + 1).zeroExtend 32)).setJReg n 33
    ((BitVec.ofNat 12 (fld w 11 0)).zeroExtend 32)).setJReg n 34 (BitVec.ofNat 32 c) = u at i3
  have run : g.jDo n w = (if c = 0 then JFlow.skip (BitVec.ofNat 12 (fld w 11 0) + 1) else .into,
      u.setJReg n 35 (putBit (u.jSr n) 8 (decide (0 < c)))) := by
    rw [← e3]
    unfold jDo
    show (if c = 0 then (JFlow.skip _, _) else (JFlow.into, _)) = _
    split <;> rfl
  refine ⟨_, run, setJReg_inv n 35 _ i3, ?_, ?_, ?_, ?_, ?_, ?_, ?_⟩
  · rw [jReg_setJReg_ne _ _ (by decide), ← e3, jReg_setJReg_self i2]
    exact and_low (k := 16) (by decide) (by rw [BitVec.toNat_ofNat]; omega)
  · rw [jReg_setJReg_ne _ _ (by decide), ← e3, jReg_setJReg_ne _ _ (by decide), jReg_setJReg_self i1]
    have he : fld w 11 0 < 2 ^ 12 := fld_lt ..
    have wide : (BitVec.ofNat 12 (fld w 11 0)).zeroExtend 32 = BitVec.ofNat 32 (fld w 11 0) :=
      BitVec.eq_of_toNat_eq (by simp only [BitVec.toNat_setWidth, BitVec.toNat_ofNat]; omega)
    rw [wide]
    exact and_low (k := 12) (by decide) (by rw [BitVec.toNat_ofNat]; omega)
  · rw [jReg_setJReg_ne _ _ (by decide), ← e3, jReg_setJReg_ne _ _ (by decide), jReg_setJReg_ne _ _ (by decide), jReg_setJReg_self i0]
    have hp := ((g.jug n).pc + 1).isLt
    exact and_low (k := 12) (by decide) (by rw [BitVec.toNat_setWidth]; omega)
  · unfold jSr
    rw [jReg_setJReg_self i3, bit_norm_sr _ (by decide), bit_putBit _ _ (by decide), if_pos rfl]
  · rw [← e3]
    rfl
  · rw [← e3, jug_setJReg, jug_setJReg, jug_setJReg, jug_setJReg]
    exact jug_modJug_self hi.rings_length n.isLt _
  · rw [← e3] at i3 ⊢
    exact (((((OnlyRing.refl g n).modRing _).setJReg i0 32 _).setJReg i1 33 _).setJReg i2 34 _).setJReg i3 35 _

end State

/-- Settles O28. -/
theorem jugglerControlFlow : Obligations.JugglerControlFlow := by
  intro s g n w hi h hc hs hl j goes atEnd onward
  have ig := h.inv hi
  have row : ∀ (c : RingId → Instr) (op : Nat) (f : State.JFlow) (t : State), jCop w = op → exec (c n) s = .next (s.jRow n op) → op ≠ 1 →
      g.jCop_ n w = (f, t) → exec (c n) s = .next (t.jAdvance n f) := fun c op f t ho run h1 e => by
    rw [run, h.classC hi hc ho h1, e]
  have branch : ∀ (c : RingId → Instr) (op : Nat) (t : BitVec 12), jCop w = op → exec (c n) s = .next (s.jRow n op) → op ≠ 1 →
      g.jCop_ n w = (if g.jCond n (fld w 23 20) then .taken t none 0 else .untaken, g) →
      (g.jCond n (fld w 23 20) = true → exec (c n) s = .next (goes g t none 0)) ∧
      (g.jCond n (fld w 23 20) = false → ¬ atEnd → exec (c n) s = .next (onward g (j.pc + 1) 2)) := fun c op t ho run h1 e => by
    refine ⟨fun hb => ?_, fun hb he => ?_⟩
    · rw [row c op _ _ ho run h1 e, if_pos hb, State.jAdvance_taken hs]
    · rw [row c op _ _ ho run h1 e, if_neg (by rw [hb]; decide), State.jAdvance_untaken hs, State.jLoop_past hl he]
  have nop : jCop w = 0 → exec (.jugNop n) s = .next (g.jAdvance n .plain) := fun ho =>
    row .jugNop 0 .plain g ho rfl (by decide) (by unfold State.jCop_; rw [ho]; rfl)
  have turn : ∀ (f : Jug → Jug), (f j).slots = none → ∀ tgt sr ins, (g.modJug n f).jAdvance n (.taken tgt sr ins) =
      goes (g.modJug n f) tgt sr ins := fun f hf tgt sr ins =>
    State.jAdvance_taken (by rw [State.jug_modJug_self ig.rings_length n.isLt]; exact hf) tgt sr ins
  refine ⟨fun ho => (branch .jugBr 2 _ ho rfl (by decide) (by unfold State.jCop_; rw [ho]; rfl)).1,
    fun ho => (branch .jugBr 2 _ ho rfl (by decide) (by unfold State.jCop_; rw [ho]; rfl)).2,
    fun ho => (branch .brr 3 _ ho rfl (by decide) (by unfold State.jCop_; rw [ho]; rfl)).1,
    fun ho => (branch .brr 3 _ ho rfl (by decide) (by unfold State.jCop_; rw [ho]; rfl)).2,
    fun ho hk => ?_, fun ho hk => ?_, fun a sr ins rest hst => ⟨fun ho => ?_, fun ho => ?_⟩, fun hst => ⟨fun ho => ?_, fun ho => ?_⟩,
    fun ho => ?_, fun ho he => ?_, fun ho he => ?_, fun ho he => ?_, fun ho he hk => ?_, fun ho he hk => ?_, fun ho he hk => ?_⟩
  · have call : g.jCop_ n w = (.taken (BitVec.ofNat 12 (fld w 11 0)) none 0,
        g.modJug n fun x => { x with stack := (j.pc + 3, none, 0) :: x.stack }) := by
      unfold State.jCop_
      rw [ho]
      exact if_neg (Nat.not_le.mpr hk)
    exact (row .jugCall 4 _ _ ho rfl (by decide) call).trans (congrArg Host.Outcome.next (turn _ hs _ _ _))
  · rw [row .jugCall 4 (.fault 1) g ho rfl (by decide) (by unfold State.jCop_; rw [ho]; exact if_pos hk), State.jAdvance_fault hs]
  · have ret : g.jCop_ n w = (.taken a none ins, g.modJug n fun x => { x with stack := rest }) := by
      have hst : (g.jug n).stack = (a, sr, ins) :: rest := hst
      unfold State.jCop_
      rw [ho, hst]
      rfl
    exact (row .jugRet 5 _ _ ho rfl (by decide) ret).trans (congrArg Host.Outcome.next (turn _ hs _ _ _))
  · have rti : g.jCop_ n w = (.taken a sr ins, g.modJug n fun x => { x with stack := rest, rtiHold := true }) := by
      have hst : (g.jug n).stack = (a, sr, ins) :: rest := hst
      unfold State.jCop_
      rw [ho, hst]
      rfl
    exact (row .rti 6 _ _ ho rfl (by decide) rti).trans (congrArg Host.Outcome.next (turn _ hs _ _ _))
  · have hst : (g.jug n).stack = [] := hst
    rw [row .jugRet 5 (.fault 2) g ho rfl (by decide) (by unfold State.jCop_; rw [ho, hst]; rfl), State.jAdvance_fault hs]
  · have hst : (g.jug n).stack = [] := hst
    rw [row .rti 6 (.fault 2) g ho rfl (by decide) (by unfold State.jCop_; rw [ho, hst]; rfl), State.jAdvance_fault hs]
  · intro c
    obtain ⟨t, et, it, lc, le, ls, len, beat, jug, only⟩ := State.jDo_marks ig n w
    have loop : g.jCop_ n w = g.jDo n w := by
      unfold State.jCop_
      rw [ho]
      rfl
    have run := row .doLoop 7 _ _ ho rfl (by decide) (loop.trans et)
    have hst : (t.jug n).slots = none := by rw [jug]; exact hs
    have pc : (t.jug n).pc = j.pc := by rw [jug]
    have self : ∀ f, (t.modJug n f).jug n = f (t.jug n) := State.jug_modJug_self it.rings_length n.isLt
    by_cases h0 : c = 0
    · rw [if_pos h0, State.jAdvance_skip hst] at run
      refine ⟨_, run, lc, le, ls, len, fun h => absurd h0 (by omega), fun _ => ?_, only.modRing _⟩
      rw [self, beat]
      exact ⟨rfl, rfl⟩
    · rw [if_neg h0, State.jAdvance_into hst] at run
      refine ⟨_, run, lc, le, ls, len, fun _ => ?_, fun h => absurd h h0, only.modRing _⟩
      rw [self, beat, pc]
      exact ⟨rfl, rfl⟩
  · intro m
    have wait : g.jCop_ n w = (.plain, g.modJug n fun x => { x with wait := some (fld w 23 20, m, j.pc) }) := by
      unfold State.jCop_
      rw [ho]
      rfl
    have self : ∀ f, (g.modJug n f).jug n = f (g.jug n) := State.jug_modJug_self ig.rings_length n.isLt
    rw [row .jugWait 8 _ _ ho rfl (by decide) wait, State.jAdvance_past (by rw [self]; exact hs) (by rw [self]; exact hl)
      (by unfold State.AtEnd; rw [self]; exact he)]
    rw [self]
    rfl
  · have halt : g.jCop_ n w = (.plain, g) := by
      unfold State.jCop_
      rw [ho]
      rfl
    have run : exec (.jugHalt n) s = .next (s.jRow n 1) := rfl
    rw [h.issue hi ((State.jRowOf_C hc).trans ho), State.jExec_C g n hc, halt] at run
    simp only [if_pos (And.intro hc ho), State.jAdvance_past hs hl he] at run
    exact run
  · rw [nop ho, State.jAdvance_past hs hl he]
  · rw [nop ho, State.jAdvance_plain hs, State.jLoop_end hl he, if_pos hk]
    exact congrArg Host.Outcome.next (State.modJug_congr rfl)
  · rw [nop ho, State.jAdvance_plain hs, State.jLoop_end hl he, if_neg (by rw [hk]; decide), if_pos hk]
    exact congrArg Host.Outcome.next (State.modJug_congr rfl)
  · rw [nop ho, State.jAdvance_plain hs, State.jLoop_end hl he, if_neg (by rw [hk]; decide), if_neg (by rw [hk]; decide)]
    exact congrArg Host.Outcome.next (State.modJug_congr rfl)

end Sys2Proof.Machine
end

section
/-! PROOF. The host's commands and the events of a Juggler (R329, R331, R335, R337, R338, R340). -/

namespace Sys2Proof.Machine

namespace State

/-! ### Commands -/

/-- One command of JUG_CMD that the state of the Juggler allows (R337). -/
theorem write_jugCmd {s g : State} {p : Port} {u : Sid} {n : RingId} (ht : s.Takes p u (Reg.jugCmd n) g) (v : Word)
    (hv : v &&& ~~~(7 : Word) = 0 ∧ popCount v 3 ≤ 1) (hc : g.jugCmdCheck n v = .ok) :
    s.hostWrite p u (Reg.jugCmd n) v = (g.jugCmdDo n v).wrote p (Reg.jugCmd n) :=
  write_takes ht (by simp only [Reg.jugCmd]; omega) (findAt_jugCmd n) (by decide) hv.1 (by simp [fieldLegal, hv.2]) hc

/-- What a start leaves (R337). -/
theorem jugStart_marks {g : State} (hi : g.Inv) (n : RingId) :
    ∃ t, g.jugStart n = t ∧ (t.jug n).st = .running ∧ (t.jug n).pc = BitVec.ofNat 12 (g.regFld (Reg.jugCtrl n) 11 0) ∧
      (t.jug n).stack = [] ∧ (t.jug n).issueAt = g.beat ∧ (t.jug n).ipend = 0 ∧ (t.jug n).crdy = 0 ∧ (t.jug n).frdy = 0 ∧
      (t.jug n).timerAt = none ∧ t.jSr n = 0 ∧ t.getReg (Reg.jugImc n) = 0 ∧ t.getReg (Reg.jugImf n) = 0 ∧
      (∀ r, r < 42 → r ≠ 35 → t.jReg n r = g.jReg n r) ∧ (t.jug n).cres = (g.jug n).cres ∧
      g.OnlyRing t n [Reg.jugReg n 35, Reg.jugImc n, Reg.jugImf n] := by
  have self : ∀ f, (g.modJug n f).jug n = f (g.jug n) := jug_modJug_self hi.rings_length n.isLt
  unfold jugStart
  dsimp only [List.foldl]
  have i0 := modJug_inv n (fun j => { j with
    st := .running, pc := BitVec.ofNat 12 (g.regFld (Reg.jugCtrl n) 11 0), stack := [], issueAt := g.beat, holdTo := 0, issuedAt := none
    pipe := [], slots := none, srBack := none, rtiHold := false, wait := none, inSlots := 0, stopReq := false, stopAt := none, ipend := 0
    ipendB := 0, entryAt := none, crdy := 0, frdy := 0, timerAt := none, outs := [], loopW := [] }) (fun _ h => h) hi
  have i1 := setReg_inv (Reg.jugReg n 35) 0 i0
  have i2 := setReg_inv (Reg.jugImc n) 0 i1
  have apart : Reg.jugReg n 35 ≠ Reg.jugImc n ∧ Reg.jugReg n 35 ≠ Reg.jugImf n ∧ Reg.jugImc n ≠ Reg.jugImf n := by
    simp only [Reg.jugReg, Reg.jugImc, Reg.jugImf]
    omega
  obtain ⟨h1, h2, h3⟩ := apart
  refine ⟨_, rfl, ?_⟩
  simp only [jug_setReg, self, true_and]
  refine ⟨?_, ?_, getReg_setReg_self i2.regs_wf _ _, fun r h42 h35 => ?_,
    (((((OnlyRing.refl g n).modRing _).setReg i0 _ _).setReg i1 _ _).setReg i2 _ _)⟩
  · unfold jSr jReg
    rw [getReg_setReg_other _ _ h2, getReg_setReg_other _ _ h1]
    exact getReg_setReg_self i0.regs_wf _ _
  · rw [getReg_setReg_other _ _ h3]
    exact getReg_setReg_self i1.regs_wf _ _
  · unfold jReg
    rw [getReg_setReg_other _ _ (by simp only [Reg.jugReg, Reg.jugImf]; omega),
      getReg_setReg_other _ _ (by simp only [Reg.jugReg, Reg.jugImc]; omega),
      getReg_setReg_other _ _ (by simp only [Reg.jugReg]; omega)]
    rfl

theorem putBit_five : ∀ x : BitVec 8, putBit x 5 true = x ||| 0x20 := by decide

theorem putBit_six : ∀ x : BitVec 8, putBit x 6 true = x ||| 0x40 := by decide

/-! ### Interrupt entry -/

theorem jEntry_eq_some {s : State} {n i : Nat} (hb : s.jBoundary n = true) (he : bit (s.jSr n) 7 = true) (h8 : i < 8)
    (h : bit (s.jug n).ipendB i = true ∧ bit (s.jSr n) (16 + i) = true)
    (hf : ∀ k, k < i → ¬ (bit (s.jug n).ipendB k = true ∧ bit (s.jSr n) (16 + k) = true)) : s.jEntry n = some i := by
  unfold jEntry
  dsimp only
  rw [if_pos ⟨hb, he⟩, List.find?_range_eq_some]
  refine ⟨by simp [h], by simpa using h8, fun k hk => ?_⟩
  rw [Bool.not_eq_true', Bool.and_eq_false_iff, ← Bool.not_eq_true, ← Bool.not_eq_true]
  exact not_and_or.mp (hf k hk)

theorem jEntry_none {s : State} {n : Nat} (he : bit (s.jSr n) 7 = false) : s.jEntry n = none := by
  unfold jEntry
  dsimp only
  rw [if_neg fun h => by rw [he] at h; exact absurd h.2 (by decide)]

/-- What an interrupt entry leaves (R331). -/
theorem jEnter_marks {s : State} (hi : s.Inv) (n : RingId) {i : Nat} (h8 : i < 8) :
    ∃ t, s.jEnter n i = t ∧
      (t.jug n).stack = (s.jNext n, some (s.jSr n), if (s.jug n).wait.isSome ∧ (s.jug n).inSlots = 1 then 2 else (s.jug n).inSlots)
        :: (s.jug n).stack ∧ bit (t.jug n).ipend i = false ∧
      (t.jug n).pc = BitVec.ofNat 12 ((s.getReg (Reg.jugVbase n)).toNat + 4 * i) ∧ (t.jug n).issueAt = s.beat + 2 ∧
      (t.jug n).wait = none ∧ bit (t.jSr n) 7 = false ∧ bit (t.jSr n) 8 = false ∧
      (∀ k, k ≠ i → k < 8 → bit (t.jug n).ipend k = bit (s.jug n).ipend k) ∧ s.OnlyRing t n [Reg.jugReg n 35] := by
  have self : ∀ f, (s.modJug n f).jug n = f (s.jug n) := jug_modJug_self hi.rings_length n.isLt
  unfold jEnter
  dsimp only
  refine ⟨_, rfl, ?_⟩
  simp only [jug_setJReg, self, true_and]
  have i0 := modJug_inv n (fun j => { j with
    stack := (s.jNext n, some (s.jSr n), slotsAt j) :: j.stack, ipend := putBit j.ipend i false, ipendB := putBit j.ipendB i false
    wait := none, inSlots := 0, pc := BitVec.ofNat 12 ((s.getReg (Reg.jugVbase n)).toNat + 4 * i), issueAt := s.beat + 2
    entryAt := some s.beat, loopW := j.loopW.filter fun e => e.2.1 != 3 }) (fun _ h => h) hi
  refine ⟨rfl, ?_, ?_, ?_, fun k hk _ => ?_, ((OnlyRing.refl s n).modRing _).setJReg i0 35 _⟩
  · rw [bit_putBit _ _ h8, if_pos rfl]
  · show bit ((State.setJReg _ n 35 _).jReg n 35) 7 = false
    rw [jReg_setJReg_self i0, bit_norm_sr _ (by decide), bit_putBit _ _ (by decide), if_neg (by decide), bit_putBit _ _ (by decide), if_pos rfl]
  · show bit ((State.setJReg _ n 35 _).jReg n 35) 8 = false
    rw [jReg_setJReg_self i0, bit_norm_sr _ (by decide), bit_putBit _ _ (by decide), if_pos rfl]
  · rw [bit_putBit _ _ h8, if_neg hk]

/-! ### An uncorrectable packet -/

/-- What a read of a damaged array word does leaves the rings as they are (R440, R457). -/
theorem eccWord_rings (s : State) (d : Damage) : (s.eccWord d).rings = s.rings := by
  unfold eccWord
  split
  · obtain ⟨-, r, b, k, c, p, m, e⟩ := Noted.raiseEvent (((s.satReg Reg.eccUncorr).setReg Reg.lastUncorr (BitVec.ofNat 32 d.1)).raiseFlag
      Reg.memFlags 1) 0x0602 0x07 (BitVec.ofNat 32 d.1)
    rw [e]
    unfold satReg
    split <;> rfl
  · obtain ⟨-, r, b, k, c, p, m, e⟩ := Noted.raiseEvent (((s.addReg64 Reg.eccCorrLo 1).setReg Reg.lastCorr (BitVec.ofNat 32 d.1)).raiseFlag
      Reg.memFlags 0) 0x0601 0x07 (BitVec.ofNat 32 d.1)
    rw [e]
    rfl

theorem eccRead_rings (s : State) (a k : Nat) : (s.eccRead a k).rings = s.rings := by
  unfold eccRead
  induction s.damageIn a k generalizing s with
  | nil => rfl
  | cons d t ih => exact (ih _).trans (eccWord_rings s d)

/-- FAULT (R338). -/
theorem jFault_marks {s : State} (hi : s.Inv) (n : RingId) (c : Nat) :
    ((s.jFault n c).jug n).st = .fault ∧
      (s.jFault n c).getReg (Reg.jugFault n) = BitVec.ofNat 32 (2 ^ 31 + c * 2 ^ 16 + (s.jug n).pc.toNat) ∧
      bit ((s.jFault n c).getReg (Reg.jugFlags n)) 3 = true := by
  have i1 := raiseFlag_inv (Reg.jugFlags n) 3 hi
  have i2 := setReg_inv (Reg.jugFault n) (BitVec.ofNat 32 (2 ^ 31 + c * 2 ^ 16 + (s.jug n).pc.toNat)) i1
  unfold jFault
  refine ⟨?_, ?_, ?_⟩
  · rw [jug_modJug_self i2.rings_length n.isLt]
  · rw [getReg_modJug]
    exact getReg_setReg_self i1.regs_wf _ _
  · rw [getReg_modJug, getReg_setReg_other _ _ (by simp only [Reg.jugFlags, Reg.jugFault]; omega)]
    exact bit_raiseFlag hi _ (by decide)

end State

/-- Settles O24. -/
theorem jugglerHostAndEvents : Obligations.JugglerHostAndEvents := by
  intro s g p u n hi j
  refine ⟨fun ht hst ha => ?_, fun ht hst => ?_, fun ht => ?_, fun t ht hb => ?_, fun i hb he h8 hp hen hf => ?_, fun he => ?_,
    fun k m a hw hst hs hb he => ?_, fun hr hb hd hl => ?_, fun hr hb hu => ?_⟩
  · obtain ⟨t, et, rest⟩ := State.jugStart_marks (ht.inv hi) n
    refine ⟨t, congrArg Host.Outcome.next ((State.write_jugCmd ht 1 (by decide) ?_).trans ?_), rest⟩
    · unfold State.jugCmdCheck State.jugAuth State.jugAllowed
      have start : bit (1#32) 0 = true ∧ popCount (1#32) 3 ≤ 1 := by decide
      cases hlock : g.sec.locked with
      | false => simp [hst, Err.need, Err.orElse, start]
      | true => simp [hst, ha hlock, Err.need, Err.orElse, start]
    · exact congrArg (fun t => State.wrote t p (Reg.jugCmd n)) et
  · refine congrArg Host.Outcome.next (State.write_jugCmd ht 2 (by decide) ?_)
    unfold State.jugCmdCheck
    simp [hst, Err.need, Err.orElse]
    decide
  · refine congrArg Host.Outcome.next ((State.write_jugCmd ht 4 (by decide) rfl).trans ?_)
    refine congrArg (fun t => State.wrote t p (Reg.jugCmd n)) ?_
    show g.jugPend n 5 = _
    unfold State.jugPend
    exact State.modJug_congr (by rw [State.putBit_five])
  · have run : exec (.jugTimerExpiry n) s = execJugTimerExpiry n s := rfl
    unfold execJugTimerExpiry at run
    have ht : (s.jug n).timerAt = some t := ht
    rw [ht] at run
    refine run.trans (congrArg Host.Outcome.next ((if_pos hb).trans ?_))
    unfold State.jugPend
    rw [State.modJug_modJug]
    exact State.modJug_congr (by rw [← State.putBit_six]; rfl)
  · obtain ⟨t, et, rest⟩ := State.jEnter_marks hi n h8
    refine ⟨t, ?_, rest⟩
    show execInterruptEntry n s = _
    unfold execInterruptEntry
    rw [State.jEntry_eq_some hb he h8 ⟨hp, hen⟩ hf]
    exact congrArg Host.Outcome.next et
  · show execInterruptEntry n s = _
    unfold execInterruptEntry
    rw [State.jEntry_none he]
  · have due : s.jWaitDue n = s.jWaitHolds n k m := by
      unfold State.jWaitDue
      simp only [j] at hw hst hs hb
      simp [hw, hst, hs, hb, he]
    have run : exec (.jugWaitRelease n) s = execJugWaitRelease n s := rfl
    unfold execJugWaitRelease at run
    rw [due] at run
    exact ⟨fun h => by rw [run, h]; rfl, fun h => by rw [run, h]; rfl⟩
  · have keeps := State.jSettle_keeps hi n.isLt
    have i1 := State.jSettle_inv n hi
    have after := State.jRestore_keeps i1 n.isLt
    have gate := State.jGate_keeps hi n.isLt
    have run : exec (.illegalPacket n) s = execIllegalPacket n s := rfl
    unfold execIllegalPacket at run
    rw [if_pos ⟨hr, .inr (by rw [hl]; decide)⟩, State.jIssue_free hi n.isLt hb] at run
    dsimp only at run
    rw [State.uncorr_sound hd, hl, State.eccRead_sound ((keeps.damageIn _ _).trans hd), after.beat, keeps.beat] at run
    simp only [Bool.false_eq_true, if_false] at run
    rw [run]
    have pc := gate.pc
    unfold State.jGate at pc
    rw [pc]
  · have i1 := State.jSettle_inv n hi
    have run : exec (.illegalPacket n) s = execIllegalPacket n s := rfl
    unfold execIllegalPacket at run
    rw [if_pos ⟨hr, .inl hu⟩, State.jIssue_free hi n.isLt hb] at run
    dsimp only at run
    rw [hu, if_pos rfl] at run
    have i2 := State.eccRead_inv (State.ringMem n + 0x700000 + 4 * (s.jug n).pc.toNat) 4 i1
    have i3 := State.jRestore_inv n i2
    have read : (((s.jSettle n).eccRead (State.ringMem n + 0x700000 + 4 * (s.jug n).pc.toNat) 4).jug n).pc = (s.jug n).pc :=
      (congrArg (fun x : List Ring => (x.getD n {}).jug.pc) (State.eccRead_rings _ _ _)).trans (State.jSettle_keeps hi n.isLt).pc
    have pc := ((State.jRestore_keeps i2 n.isLt).pc.trans read)
    obtain ⟨st, fault, flag⟩ := State.jFault_marks (State.modJug_inv n (fun j : Jug => { j with
      issuedAt := some (((s.jSettle n).eccRead (State.ringMem n + 0x700000 + 4 * (s.jug n).pc.toNat) 4).jRestore n).beat
      rtiHold := j.rtiHold && j.slots.isSome }) (fun _ h => h) i3) n 0
    refine ⟨_, run, st, fault.trans ?_, flag⟩
    rw [State.jug_modJug_self i3.rings_length n.isLt, pc]
    rfl

end Sys2Proof.Machine
end

section
/-! PROOF. READ, WRITE and WRITE_MASK (R46, R47, R95, R100, R101, R112, R113). -/

namespace Sys2Proof.Machine

/-! ### A refused write that answers with another code -/

/-- Port 0 is UP, session 7 is open, and session 3 holds the chip lease. -/
def chipLeased : State :=
  ((State.reset.modPort 0 fun e => { e with state := .up }).modSess 7 fun x => { x with isOpen := true }).setReg Reg.leaseChip 3

/-- The status of the first answer that stands after a command. -/
def firstStatus : Res → Option (BitVec 16)
  | .next t => t.resp.head?.map OpResp.status
  | _ => none

theorem chipLeased_inv : chipLeased.Inv :=
  State.setReg_inv _ _ (State.modSess_inv _ _ (State.modPort_inv _ _ (fun _ h => h) resetIsSound))

theorem findAt_ownSrc : State.findAt Reg.ownSrc =
    .ok ⟨{ name := .ownSrc, off := 0x88, lease := .chip, reset := 0x10000000, rw := 0xFFFFFFFF }, []⟩ := by decide +kernel

/-- Refutes O30: a WRITE of OWN_SRC by a session without the chip lease is answered with E_ADDR, not E_LEASE, when the value is no address
in exchange memory, since E_ADDR comes first in the order of R113. -/
theorem not_rejectedWriteChangesNothing : ¬ Obligations.RejectedWriteChangesNothing := by
  intro h
  have hears : chipLeased.Hears (0 : Port).val (7 : Sid).val (chipLeased.heard 0 7) :=
    ⟨by decide, by decide, rfl, by decide⟩
  obtain ⟨-, -, -, leased, -⟩ := h chipLeased _ 0 7 (BitVec.ofNat 32 Reg.ownSrc) 0 0 chipLeased_inv hears
  have answer := leased _ Reg.leaseChip findAt_ownSrc (by decide) (by decide) (by decide)
  have differs := congrArg firstStatus answer
  revert differs
  decide

end Sys2Proof.Machine
end

section
/-! PROOF. The values that READ, WRITE and WRITE_MASK return and leave (R46, R47, R95, R100, R101). -/

namespace Sys2Proof.Machine

namespace State

/-- An operation of a frame that is heard acts in the state that has noted the frame (R50, R57). -/
theorem Hears.hostOp {s g : State} {p u : Nat} (h : s.Hears p u g) (f : State → OpResp × State) :
    s.hostOp p u f = { (f g).2 with resp := [(f g).1] } := by
  rw [h.state]
  unfold State.hostOp
  rw [if_neg (by simp [h.answers]), if_neg (by simp [h.isOpen])]
  rfl

/-- A write ends a low word that the session had staged, if it had (R101). -/
theorem unstaged (g : State) (u : Nat) :
    (if ((g.session u).stage).isSome then g.modSess u fun x => { x with stage := none } else g) =
      g.modSess u fun x => { x with stage := none } := by
  split
  · rfl
  next h =>
    rw [modSess_same]
    rw [Bool.not_eq_true, Option.isSome_eq_false_iff, Option.isNone_iff_eq_none] at h
    rw [← h]

/-- The low word that a high word is written with: the session's staged one, when it belongs to it (R101). -/
def stagedLow (g : State) (u a : Nat) (h : RegHit) : Option Word :=
  if h.desc.pair = 2 then (g.session u).stage.bind fun x => if x.1 + 4 = a then some x.2 else none else none

section
variable {g : State} {u p a : Nat} {v m : Word} {plain : Bool} {h : RegHit} (hf : findAt a = .ok h)
include hf

/-- The code of an immediate write and the state it leaves (R112, R113). -/
theorem hostWriteReg_found :
    g.hostWriteReg p u a v m plain = (
      let c := g.modSess u fun x => { x with stage := none }
      let w := c.maskedWord h a v m
      let lo := g.stagedLow u a h
      let e := Err.first [c.writeCheck u h a w lo plain, Err.need (!c.lostWrite p a) .eConflict]
      if e ≠ .ok then (e, g)
      else if h.desc.pair = 1 then (.ok, (c.modSess u fun x => { x with stage := some (a, w) }).noteWrite p a)
      else (.ok, (c.writeDo u h a w (pairWord (lo.getD 0) w)).noteWrite p a)) := by
  unfold hostWriteReg
  dsimp only
  rw [unstaged, hf]
  rfl

/-- An immediate write that every check lets pass (R101, R113). -/
theorem hostWriteReg_passes {c : State} (hc : c = g.modSess u fun x => { x with stage := none })
    (ok : c.writeCheck u h a (c.maskedWord h a v m) (g.stagedLow u a h) plain = .ok) (won : c.lostWrite p a = false) :
    g.hostWriteReg p u a v m plain = (.ok,
      if h.desc.pair = 1 then (c.modSess u fun x => { x with stage := some (a, c.maskedWord h a v m) }).noteWrite p a
      else (c.writeDo u h a (c.maskedWord h a v m) (pairWord ((g.stagedLow u a h).getD 0) (c.maskedWord h a v m))).noteWrite p a) := by
  subst hc
  rw [hostWriteReg_found hf]
  dsimp only
  rw [ok, won, if_neg (by decide)]
  split <;> rfl

end

/-- No register below address 4 is the high word of another (R31). -/
theorem low_not_high : ∀ a < 4, ∀ h, findAt a = .ok h → h.desc.pair ≠ 2 := by
  have low : ∀ a < 4, (findAt a).toOption.all fun h => h.desc.pair ≠ 2 := by decide +kernel
  intro a ha h hf
  have at_a := low a ha
  rw [hf] at at_a
  exact of_decide_eq_true at_a

/-- A masked write whose mask is full writes the value (R47). -/
theorem maskedWord_full (s : State) (h : RegHit) (a : Nat) (v : Word) : s.maskedWord h a v 0xFFFFFFFF = v := if_pos rfl

end State

/-- Settles O29. -/
theorem hostReadsAndWrites : Obligations.HostReadsAndWrites := by
  intro s g p u a v m h hi hears hf r f w
  have read : exec (.read p u a) s = .next { (g.opRead u a).2 with resp := [(g.opRead u a).1] } := congrArg _ (hears.hostOp _)
  have reads : ∀ {x t}, g.readReg u a.toNat = (.ok, x, t) → exec (.read p u a) s = .next (t.says 0x01 a 1 (leBytes 4 x.toNat)) := by
    intro x t value
    rw [read]
    unfold State.opRead
    rw [value]
    rfl
  have write : ∀ {t}, g.hostWriteReg p u a.toNat v 0xFFFFFFFF true = (.ok, t) →
      exec (.write p u a v) s = .next (t.says 0x02 a 1 []) := by
    intro t done
    refine (congrArg Host.Outcome.next (hears.hostOp fun x => x.opWrite p u a v)).trans ?_
    unfold State.opWrite
    rw [done]
    rfl
  have mask : ∀ {t}, g.hostWriteReg p u a.toNat v m false = (.ok, t) →
      exec (.writeMask p u a v m) s = .next (t.says 0x03 a 1 []) := by
    intro t done
    refine (congrArg Host.Outcome.next (hears.hostOp fun x => x.opWriteMask p u a v m)).trans ?_
    unfold State.opWriteMask
    rw [done]
    rfl
  have passes : ∀ {lo}, g.stagedLow u a.toNat h = lo → f.writeCheck u h a.toNat v lo true = .ok → f.lostWrite p a.toNat = false →
      g.hostWriteReg p u a.toNat v 0xFFFFFFFF true = (.ok,
        if h.desc.pair = 1 then (f.modSess u fun x => { x with stage := some (a.toNat, v) }).noteWrite p a.toNat
        else (f.writeDo u h a.toNat v (pairWord (lo.getD 0) v)).noteWrite p a.toNat) := by
    intro lo staged ok won
    have full := State.maskedWord_full f h a.toNat v
    have done := State.hostWriteReg_passes (v := v) (m := 0xFFFFFFFF) (plain := true) hf (c := f) rfl (by rw [full, staged]; exact ok) won
    rw [full, staged] at done
    exact done
  have alone : h.desc.pair ≠ 2 → g.stagedLow u a.toNat h = none := fun hp => if_neg hp
  refine ⟨fun hp => reads ?_, fun k hp hk => reads ?_, fun hp hs => reads ?_, fun hp hs => reads ?_, fun hp ok won => write ?_,
    fun hp ok won => write ?_, fun lo hp hs ok won => write ?_, fun hp hm ok won => mask ?_⟩
  · unfold State.readReg
    rw [hf]
    dsimp only
    rw [if_neg (by omega), if_neg (by omega)]
  · unfold State.readReg
    rw [hf]
    dsimp only
    rw [if_pos hp, hk]
  · unfold State.readReg
    rw [hf]
    dsimp only
    rw [if_neg (by omega), if_pos ⟨hp, hs⟩]
  · unfold State.readReg
    rw [hf]
    dsimp only
    rw [if_neg (by omega), if_neg (fun c => hs c.2)]
  · rw [passes (alone (by omega)) ok won, if_neg (by omega)]
    rfl
  · rw [passes (alone (by omega)) ok won, if_pos hp]
  · have high : 4 ≤ a.toNat := by
      by_contra low
      exact State.low_not_high _ (by omega) h hf hp
    have staged : g.stagedLow u a.toNat h = some lo := by
      unfold State.stagedLow
      rw [if_pos hp, hs]
      exact if_pos (Nat.sub_add_cancel high)
    rw [passes staged ok won, if_neg (by omega)]
    rfl
  · have kept : f.maskedWord h a.toNat v m = w := if_neg hm
    have done := State.hostWriteReg_passes (v := v) (m := m) (plain := false) hf (c := f) rfl
      (by rw [kept, alone (by omega)]; exact ok) won
    rw [done, kept, alone (by omega), if_neg (by omega)]
    rfl

end Sys2Proof.Machine
end

section
/-! PROOF. A SCHEDULE that is refused with a code before E_LATE (R69, R113). -/

namespace Sys2Proof.Machine

/-- Port 0 is UP, session 7 is open, and it holds the chip lease. -/
def chipHeld : State :=
  ((State.reset.modPort 0 fun e => { e with state := .up }).modSess 7 fun x => { x with isOpen := true }).setReg Reg.leaseChip 7

theorem chipHeld_inv : chipHeld.Inv :=
  State.setReg_inv _ _ (State.modSess_inv _ _ (State.modPort_inv _ _ (fun _ h => h) resetIsSound))

/-- Refutes O32: a SCHEDULE of OWN_SRC that comes too late is answered with E_ADDR, not E_LATE, when the value is no address in exchange
memory, since receipt judges that value too and E_ADDR comes first in the order of R113. -/
theorem not_scheduledWrites : ¬ Obligations.ScheduledWrites := by
  intro h
  have hears : chipHeld.Hears (0 : Port).val (7 : Sid).val (chipHeld.heard 0 7) :=
    ⟨by decide, by decide, rfl, by decide⟩
  obtain ⟨received, -, -⟩ := h chipHeld _ 0 7 (BitVec.ofNat 32 Reg.ownSrc) 0 0xFFFFFFFF 0 0 _ chipHeld_inv
  obtain ⟨-, late, -, -⟩ := received hears findAt_ownSrc
  have answer := late (by decide) (by decide) (by decide)
  have differs := congrArg firstStatus answer
  revert differs
  decide

end Sys2Proof.Machine
end

section
/-! PROOF. Block operations, stream data, credits and acknowledgements (R46, R48, R67, R72, R73, R76, R78, R437, R451). -/

namespace Sys2Proof.Machine

namespace State

/-- A block operation of a frame that is heard starts in the state that has noted the frame, when the DMA engine is free (R50, R67). -/
theorem Hears.hostBlock {s g : State} {p u : Nat} (h : s.Hears p u g) (free : g.memu.dma = []) (d : Dma) :
    s.hostBlock p u d =
      { (g.blockStart { d with port := p, sess := u }).2 with resp := (g.blockStart { d with port := p, sess := u }).1.toList } := by
  have idle : g.memu.dma.isEmpty = true := by rw [free]; rfl
  rw [h.state] at idle ⊢
  unfold State.hostBlock blockOp
  rw [if_neg (by simp [h.answers]), if_neg (by simp [h.isOpen])]
  dsimp only
  rw [if_pos (by exact idle)]
  rfl

/-- A block operation on exchange memory that its check lets pass is held by the DMA engine (R67, R442). -/
theorem blockStart_port {g : State} {d : Dma} {h : BlockHit} (found : findBlock d.addr.toNat (4 * d.count) = .ok h)
    (ok : (if d.write then g.blockWriteCheck d.sess h d.count else g.blockReadCheck h d.count) = .ok) (port : h.code = 9) :
    g.blockStart d = (none, g.modMemu fun m =>
      { m with dma := { d with begun := true, todo := (portBWords h d.count).map fun w => (w, 0) } :: m.dma }) := by
  unfold blockStart
  rw [found]
  dsimp only
  rw [ok, if_neg (by decide), if_pos port]

/-- A block operation on another memory that its check lets pass begins (R48). -/
theorem blockStart_serve {g : State} {d : Dma} {h : BlockHit} (found : findBlock d.addr.toNat (4 * d.count) = .ok h)
    (ok : (if d.write then g.blockWriteCheck d.sess h d.count else g.blockReadCheck h d.count) = .ok) (port : h.code ≠ 9) :
    g.blockStart d = g.blockServe h { d with begun := true, since := g.beat } := by
  unfold blockStart
  rw [found]
  dsimp only
  rw [ok, if_neg (by decide), if_neg port]

/-- A block operation that its check refuses is answered with its code (R46, R112). -/
theorem blockStart_refused {g : State} {d : Dma} {h : BlockHit} {e : Err} (found : findBlock d.addr.toNat (4 * d.count) = .ok h)
    (refused : (if d.write then g.blockWriteCheck d.sess h d.count else g.blockReadCheck h d.count) = e) (bad : e ≠ .ok) :
    g.blockStart d = (some (dmaResp d e []), g) := by
  unfold blockStart
  rw [found]
  dsimp only
  rw [refused, if_pos bad]

/-- What a block operation that has just begun waits for (R437, R451, log entry 28). -/
theorem hostWaits_begun (g : State) (h : BlockHit) (d : Dma) (now : d.since = g.beat) :
    g.hostWaits h d = true ↔ (g.meetsWindow h.addr (4 * d.count) = true ∨ (h.code ≤ 8 ∧ g.bankFree h.addr = false)) ∨
      (d.write = false ∧ ∃ x ∈ g.memu.late, meets x.1 x.2.length h.addr (4 * d.count) = true) := by
  unfold hostWaits
  simp [now]

/-- A block operation that waits is held (R451). -/
theorem blockServe_held {g : State} {h : BlockHit} {d : Dma} (waits : g.hostWaits h d = true) :
    g.blockServe h d = (none, g.modMemu fun m => { m with dma := d :: m.dma }) := by
  unfold blockServe
  rw [if_pos waits]

/-- A block write that waits for nothing is done and answered OK (R48). -/
theorem blockServe_write {g : State} {h : BlockHit} {d : Dma} (waits : g.hostWaits h d ≠ true) (write : d.write = true) :
    g.blockServe h d = (some (dmaResp d .ok []), g.blockWrite h d.words) := by
  unfold blockServe
  rw [if_neg waits, if_pos write]

/-- A block read that waits for nothing is answered with what it reads (R48). -/
theorem blockServe_read {g : State} {h : BlockHit} {d : Dma} (waits : g.hostWaits h d ≠ true) (read : d.write = false) :
    g.blockServe h d = (some (dmaResp d .ok (g.load h.addr (4 * d.count))), g.eccRead h.addr (4 * d.count)) := by
  unfold blockServe
  rw [if_neg waits, if_neg (by simp [read])]
  rfl

theorem setBytes_rings (s : State) (a : Nat) (bs : List Byte) : (s.setBytes a bs).rings = s.rings := by
  obtain ⟨m, e⟩ := setBytes_fields s a bs
  rw [e s rfl]

theorem settleWord_rings (s : State) (d : Damage) : (s.settleWord d).rings = s.rings := by
  unfold settleWord
  dsimp only
  split
  · rfl
  · exact setBytes_rings _ _ _

/-- A write of memory leaves the rings as they are (R440). -/
theorem store_rings (s : State) (a : Nat) (bs : List Byte) : (s.store a bs).rings = s.rings := by
  unfold store
  dsimp only
  rw [setBytes_rings]
  induction s.damageIn a bs.length generalizing s with
  | nil => rfl
  | cons d t ih =>
    refine (ih _).trans ((settleWord_rings _ d).trans ?_)
    split
    · rfl
    · exact eccWord_rings s d

/-- A write of a memory leaves the words that read 0, and does what a program write does beside its bytes (R298, R467). -/
theorem blockWrite_eq (s : State) (h : BlockHit) (ws : List Word) : s.blockWrite h ws =
    (s.hostStore h.code h.addr (ofWords (ws.zipIdx.map fun x => if zeroTail (h.addr + 4 * x.2) then 0 else x.1))).programWritten h :=
  rfl

/-- A write of a memory that no ring meets shows at once (R437). -/
theorem hostStore_prompt (s : State) {code : Nat} (a : Nat) (bs : List Byte) (prompt : lateMem code = false) :
    s.hostStore code a bs = s.store a bs := if_neg (by simp [prompt])

/-- A write of a memory that holds no program does nothing beside its bytes (R187, R339, R504). -/
theorem programWritten_other (s : State) {h : BlockHit} (ring : h.code ≠ 0) (jug : h.code ≠ 5) : s.programWritten h = s := by
  unfold programWritten
  rw [if_neg ring, if_neg jug]

end State

/-- The BLOCK_READ of `k` words at `a` by session `u` on port `p`, as it arrives. -/
abbrev readDma (p u : Nat) (a : Word) (k : Nat) : Dma := { port := p, sess := u, addr := a, count := k }

/-- The BLOCK_WRITE of `ws` at `a` by session `u` on port `p`, as it arrives. -/
abbrev writeDma (p u : Nat) (a : Word) (ws : List Word) : Dma :=
  { port := p, sess := u, write := true, addr := a, count := ws.length, words := ws }

/-- Settles O31. -/
theorem blocksStreamsAndAcknowledgements : Obligations.BlocksStreamsAndAcknowledgements := by
  refine ⟨?_, ?_⟩
  · intro s g p u a k ws h hi hears free kept waits behind held
    have read : ∀ {r t}, g.blockStart (readDma p u a k) = (r, t) →
        exec (.blockRead p u a k) s = .next { t with resp := r.toList } := by
      intro r t start
      refine (congrArg Host.Outcome.next (hears.hostBlock free { addr := a, count := k })).trans ?_
      rw [start]
    have write : ∀ {r t}, g.blockStart (writeDma p u a ws) = (r, t) →
        exec (.blockWrite p u a ws) s = .next { t with resp := r.toList } := by
      intro r t start
      refine (congrArg Host.Outcome.next
        (hears.hostBlock free { write := true, addr := a, count := ws.length, words := ws })).trans ?_
      rw [start]
    have engine : ∀ d, (g.modMemu fun m => { m with dma := d :: m.dma }) = { g with memu := { g.memu with dma := [d] } } := by
      intro d
      have alone : ({ g.memu with dma := d :: g.memu.dma } : MemUnit) = { g.memu with dma := [d] } := by rw [free]
      exact congrArg (fun m => { g with memu := m }) alone
    have reads := State.hostWaits_begun g h { readDma p u a k with begun := true, since := g.beat } rfl
    have writes := State.hostWaits_begun g h
      { writeDma p u a ws with begun := true, since := g.beat } rfl
    have done : ∀ {t}, findBlock a.toNat (4 * ws.length) = .ok h → g.blockWriteCheck u h ws.length = .ok → h.code ≠ 9 →
        ¬ waits ws.length → g.blockWrite h ws = t → exec (.blockWrite p u a ws) s = .next (t.says 0x05 a ws.length []) := by
      intro t found ok port calm rfl
      refine (write ((State.blockStart_serve (d := writeDma p u a ws) found ok port).trans (State.blockServe_write ?_ rfl))).trans rfl
      exact fun w => calm (by simpa using writes.mp w)
    refine ⟨fun found ok port => ⟨fun calm clear => ?_, fun busy => ?_⟩, fun found ok port => ?_, fun e found refused bad => ?_,
      fun found ok => ⟨fun port busy => ?_, fun code calm => ?_, fun code calm => ?_, fun code calm => ?_, fun code calm alive => ?_,
        fun port => ?_⟩, fun e found refused bad => ?_⟩
    · refine (read ((State.blockStart_serve (d := readDma p u a k) found ok port).trans (State.blockServe_read ?_ rfl))).trans rfl
      exact fun w => (reads.mp w).elim calm fun c => clear c.2
    · refine (read ((State.blockStart_serve (d := readDma p u a k) found ok port).trans (State.blockServe_held ?_))).trans ?_
      · exact reads.mpr (busy.imp_right fun b => ⟨rfl, b⟩)
      · rw [engine]
        rfl
    · refine (read (State.blockStart_port (d := readDma p u a k) found ok port)).trans ?_
      rw [engine]
      rfl
    · exact (read (State.blockStart_refused (d := readDma p u a k) found refused bad)).trans (by unfold State.refuses; simp [State.dmaResp, opResp, bad])
    · refine (write ((State.blockStart_serve (d := writeDma p u a ws) found ok port).trans (State.blockServe_held ?_))).trans ?_
      · exact writes.mpr (.inl busy)
      · rw [engine]
        rfl
    · have other : h.code ≠ 9 ∧ h.code ≠ 0 ∧ h.code ≠ 5 ∧ State.lateMem h.code = false := by
        have kinds : ∀ c ∈ [4, 8, 10], c ≠ 9 ∧ c ≠ 0 ∧ c ≠ 5 ∧ State.lateMem c = false := by decide
        exact kinds _ code
      obtain ⟨port, ring, jug, prompt⟩ := other
      refine done found ok port calm ?_
      rw [State.blockWrite_eq, State.programWritten_other _ ring jug]
      exact State.hostStore_prompt g _ _ prompt
    · have other : h.code ≠ 9 ∧ h.code ≠ 0 ∧ h.code ≠ 5 ∧ State.lateMem h.code = true := by
        have kinds : ∀ c ∈ [1, 2, 3, 6, 7], c ≠ 9 ∧ c ≠ 0 ∧ c ≠ 5 ∧ State.lateMem c = true := by decide
        exact kinds _ code
      obtain ⟨port, ring, jug, late⟩ := other
      refine done found ok port calm ?_
      rw [State.blockWrite_eq, State.programWritten_other _ ring jug]
      exact if_pos late
    · refine done found ok (by omega) calm ?_
      rw [State.blockWrite_eq, State.hostStore_prompt g _ _ (by rw [code]; decide)]
      exact if_pos code
    · refine done found ok (by omega) calm ?_
      rw [State.blockWrite_eq, State.hostStore_prompt g _ _ (by rw [code]; decide)]
      unfold State.programWritten
      rw [if_neg (by omega), if_pos code, if_neg]
      exact fun fault => alive ((congrArg (fun x : List Ring => (x.getD h.inst {}).jug.st) (State.store_rings _ _ _)).symm.trans fault)
    · refine (write (State.blockStart_port (d := writeDma p u a ws) found ok port)).trans ?_
      rw [engine]
      rfl
    · exact (write (State.blockStart_refused (d := writeDma p u a ws) found refused bad)).trans (by unfold State.refuses; simp [State.dmaResp, opResp, bad])
  · intro s g p u n j i ws hi hears sel lo limit
    have served : g.notRecovery = .ok := if_pos (decide_eq_true hears.served)
    have place : n.val < 12 ∧ j.val < 4 := ⟨n.isLt, j.isLt⟩
    have acks : g.ackCheck n u i = .ok → exec (.resultAck p u n i) s = .next ((g.freeBelow n i).says 0x0D (BitVec.ofNat 32 n) 0 []) := by
      intro ok
      refine (congrArg Host.Outcome.next (hears.hostOp fun x => x.opResultAck u n i)).trans ?_
      unfold State.opResultAck State.resultAck
      dsimp only
      rw [if_pos (.inr served), if_neg (Nat.not_le.mpr n.isLt), if_pos ok]
      rfl
    refine ⟨fun jumbo full lease on whole enabled => ?_, ?_, fun closed lease inside => ?_, fun pushed owner inside => ?_⟩
    · have unit : ∀ {e t}, g.streamUnit n j i ws = (e, t) → exec (.streamData p u n j i ws) s =
          .next { t with resp := [opResp 0x07 sel e 1024 []] } := by
        intro e t arrives
        refine (congrArg Host.Outcome.next (hears.hostOp fun x => x.opStreamData p u n j i ws)).trans ?_
        unfold State.opStreamData
        rw [jumbo, lease, on, whole, served, full, decide_eq_true place, Bool.or_true, arrives]
        rfl
      refine ⟨fun reached fresh room unfilled => ?_, fun stale => ?_, fun fresh beyond => ?_⟩
      · refine (unit (e := .ok) ?_).trans rfl
        unfold State.streamUnit
        dsimp only
        rw [if_neg (by simp [enabled]), if_neg (by rw [fresh]; decide), if_pos ⟨reached, room⟩, if_neg (by simp [unfilled])]
        rfl
      · refine (unit (e := .ok) ?_).trans rfl
        unfold State.streamUnit
        dsimp only
        rw [if_neg (by simp [enabled]), if_pos stale]
      · refine (unit (e := .eCredit) ?_).trans rfl
        unfold State.streamUnit
        dsimp only
        rw [if_neg (by simp [enabled]), if_neg (by rw [fresh]; decide), if_neg (fun c => Bool.false_ne_true (beyond.symm.trans c.2))]
    · refine (congrArg Host.Outcome.next (hears.hostOp fun x => x.opCredit n j)).trans ?_
      unfold State.opCredit
      rw [served, decide_eq_true place]
      rfl
    · have ok : g.ackCheck n u i = .ok := by
        unfold State.ackCheck
        rw [if_neg (by simp [closed])]
        dsimp only
        rw [decide_eq_true (show g.regFld (Reg.leaseRing n) 3 0 = u ∨ g.regFld (Reg.leaseRing n) 3 0 = 0xF from (of_decide_eq_true lease).symm)]
        have inside : (decide (i = g.ackEnd n) || below i (g.ackEnd n)) = true := by simpa using inside
        rw [inside]
        rfl
      exact acks ok
    · have ok : g.ackCheck n u i = .ok := by
        unfold State.ackCheck State.nextIndex
        rw [if_pos pushed, if_pos pushed, decide_eq_true owner.symm]
        have inside : (decide (i = (g.resq n).pushed) || below i (g.resq n).pushed) = true := by simpa using inside
        rw [inside]
        rfl
      exact acks ok

end Sys2Proof.Machine
end

section
/-! PROOF. Sessions, DISCOVER and leases (R43, R53, R57, R65, R88). -/

namespace Sys2Proof.Machine

namespace State

/-- What every turn of a loop keeps, the loop keeps. -/
theorem forBelow_keeps {P : State → Prop} {s : State} (k : Nat) {f : Nat → State → State} (h : P s) (step : ∀ i t, P t → P (f i t)) :
    P (s.forBelow k f) := by
  unfold forBelow
  induction List.range k generalizing s with
  | nil => exact h
  | cons i l ih => exact ih (step i s h)

/-! ### What a frame that comes leaves -/

/-- Pushes that find a port again change the result queues alone (R60). -/
theorem regainPushes_rings (old s : State) : ∃ r, regainPushes old s = { s with rings := r } := by
  refine forBelow_keeps (P := fun t => ∃ r, t = { s with rings := r }) 8 ⟨_, rfl⟩ fun u t ht => ?_
  split
  · refine forBelow_keeps (P := fun t => ∃ r, t = { s with rings := r }) 12 ht fun n t ht => ?_
    split
    · obtain ⟨r, rfl⟩ := ht
      exact ⟨_, rfl⟩
    · exact ht
  · exact ht

/-- What a port adds to a frame is set by its priorities and the network's values alone (R38, R85). -/
theorem dressed_congr {s t : State} {p : Nat} (map : t.getReg (Reg.ethPfcMap p) = s.getReg (Reg.ethPfcMap p)) (net : t.netNow = s.netNow)
    (f : OutFrame) : t.dressed p f = s.dressed p f := by
  have prio : ∀ c, t.framePrio p c = s.framePrio p c := fun c => by unfold framePrio; rw [map]
  have tag : ∀ c, t.frameTag p c = s.frameTag p c := fun c => by
    unfold frameTag netVal
    rw [prio, net]
  unfold State.dressed
  rw [prio, tag]

/-! ### Leases -/

/-- The leases of session `u` among `l` are released (R57). -/
theorem holder_released {s : State} (hi : s.Inv) (u : Nat) (l : List Nat) (x : Nat) :
    let t := l.foldl (fun s a => if s.holder a = u then s.setFld a 3 0 0xF else s) s
    t.Inv ∧ t.sched = s.sched ∧ t.holder x = if x ∈ l ∧ s.holder x = u then 0xF else s.holder x := by
  induction l generalizing s with
  | nil => exact ⟨hi, rfl, by simp⟩
  | cons a l ih =>
    have next : (if s.holder a = u then s.setFld a 3 0 0xF else s).Inv := by
      split
      · exact setReg_inv _ _ hi
      · exact hi
    have head : (if s.holder a = u then s.setFld a 3 0 0xF else s).holder x =
        if x = a ∧ s.holder x = u then 0xF else s.holder x := by
      by_cases e : x = a
      · subst e
        by_cases m : s.holder x = u
        · rw [if_pos m, if_pos ⟨rfl, m⟩]
          unfold holder regFld
          rw [getReg_setFld_self hi, fld_putFld_self _ _ (by decide)]
          rfl
        · rw [if_neg m, if_neg (by simp [m])]
      · have skip : (if x = a ∧ s.holder x = u then 0xF else s.holder x) = s.holder x := if_neg fun c => e c.1
        rw [skip]
        split
        · unfold holder regFld
          rw [getReg_setFld_ne hi 3 0 _ e]
        · rfl
    have kept : (if s.holder a = u then s.setFld a 3 0 0xF else s).sched = s.sched := by
      split <;> rfl
    obtain ⟨done, sched, tail⟩ := ih next
    refine ⟨done, sched.trans kept, tail.trans ?_⟩
    rw [head]
    by_cases e : x = a
    · subst e
      by_cases m : s.holder x = u <;> simp [m]
    · simp [e]

/-- Pushing slots of Carousel that stop pushing leave the leases, the sessions and the scheduled writes as they are (R470). -/
theorem carSessGone_keeps {s : State} (hi : s.Inv) (u : Nat) :
    let t := s.carSessGone u
    t.Inv ∧ (∀ x ∈ leaseRegs, t.getReg x = s.getReg x) ∧ t.sess = s.sess ∧ t.sched = s.sched := by
  refine forBelow_keeps (P := fun t => t.Inv ∧ (∀ x ∈ leaseRegs, t.getReg x = s.getReg x) ∧ t.sess = s.sess ∧ t.sched = s.sched) 8
    ⟨hi, fun _ _ => rfl, rfl, rfl⟩ fun i t ht => ?_
  obtain ⟨inv, regs, sess, sched⟩ := ht
  split
  · refine ⟨raiseFlag_inv _ _ (modCar_inv _ _ inv), fun x hx => ?_, sess, sched⟩
    have away : x < 0x1000 := by
      have small : ∀ x ∈ leaseRegs, x < 0x1000 := by decide
      exact small x hx
    refine (getReg_raiseFlag_ne (modCar_inv _ _ inv) ?_ ?_).trans (regs x hx)
    · unfold Reg.carFlags
      omega
    · rw [flagCntAddr_low (by decide)]
      unfold Reg.carFlags
      omega
  · exact ⟨inv, regs, sess, sched⟩

/-- The leases of a session that closes are free (R57). -/
def leasesFreed (s : State) (u : Nat) : State := leaseRegs.foldl (fun s a => if s.holder a = u then s.setFld a 3 0 0xF else s) s

/-- The registers of a session that closes hold their reset values (R88). -/
def sessRegsReset (s : State) (u : Nat) : State :=
  [Reg.sessCtrl u, Reg.sessTimeout u, Reg.sessLastSeq u].foldl (fun s a => s.setReg a (resetWord a)) s

/-- The scheduled writes of a session that closes stay pending, with no session (R57). -/
def schedOrphaned (s : State) (u : Nat) : State :=
  { s with sched := s.sched.map fun (e : Sched) => if e.sess = u then { e with sess := 8 } else e }

theorem schedOrphaned_keeps {s : State} (hi : s.Inv) (u : Nat) :
    (s.schedOrphaned u).Inv ∧ (s.schedOrphaned u).sched.length = s.sched.length ∧ ∀ x, (s.schedOrphaned u).getReg x = s.getReg x := by
  refine ⟨?_, List.length_map _, fun _ => rfl⟩
  unfold schedOrphaned
  exact .upd hi rfl

theorem closeSession_eq (s : State) (u : Nat) :
    s.closeSession u = ((((s.leasesFreed u).sessRegsReset u).schedOrphaned u).carSessGone u).modSess u fun _ => {} := rfl

theorem sessRegsReset_keeps {s : State} (hi : s.Inv) (u : Nat) (small : u < 8) :
    (s.sessRegsReset u).Inv ∧ (s.sessRegsReset u).sched = s.sched ∧
      ∀ x ∈ leaseRegs, (s.sessRegsReset u).getReg x = s.getReg x := by
  refine ⟨setReg_inv _ _ (setReg_inv _ _ (setReg_inv _ _ hi)), rfl, fun x hx => ?_⟩
  have apart : ∀ x ∈ leaseRegs, 0x180 ≤ x := by decide
  have far := apart x hx
  refine (getReg_setReg_other _ _ ?_).trans ((getReg_setReg_other _ _ ?_).trans (getReg_setReg_other _ _ ?_)) <;>
    simp only [Reg.sessCtrl, Reg.sessTimeout, Reg.sessLastSeq] <;> omega

/-- A session closes (R57, R88). -/
theorem closeSession_marks {s : State} (hi : s.Inv) {u : Nat} (small : u < 8) :
    (s.closeSession u).session u = {} ∧ (s.closeSession u).sched.length = s.sched.length ∧
      ∀ x ∈ leaseRegs, (s.closeSession u).holder x = if s.holder x = u then 0xF else s.holder x := by
  have freed : ∀ x, (s.leasesFreed u).Inv ∧ (s.leasesFreed u).sched = s.sched ∧
      (s.leasesFreed u).holder x = if x ∈ leaseRegs ∧ s.holder x = u then 0xF else s.holder x := holder_released hi u leaseRegs
  obtain ⟨inv, sched, regs⟩ := sessRegsReset_keeps (freed 0).1 u small
  obtain ⟨inv', sched', regs'⟩ := schedOrphaned_keeps inv u
  obtain ⟨inv'', regs'', -, sched''⟩ := carSessGone_keeps inv' u
  rw [closeSession_eq]
  refine ⟨session_modSess_self (inv''.sess_length ▸ small) _, ?_, fun x hx => ?_⟩
  · obtain ⟨-, sched0, -⟩ := freed 0
    have same : ∀ t : State, (t.modSess u fun _ => {}).sched = t.sched := fun _ => rfl
    rw [same, sched'', sched', sched, sched0]
  · obtain ⟨-, -, lease⟩ := freed x
    have left : (s.leasesFreed u).holder x = if s.holder x = u then 0xF else s.holder x := lease.trans (by simp [hx])
    rw [← left]
    unfold holder regFld
    rw [getReg_modSess, regs'' x hx, regs', regs x hx]

theorem findAt_leaseRing : ∀ n : RingId, findAt (Reg.leaseRing n) =
    .ok ⟨{ name := .leaseRing, off := 0x180, dims := [(0x4, 12)], lease := .leaseReg, reset := 0xF, rw := 0xF, wo := 0x80000000 }, [n.val]⟩ := by
  decide +kernel

theorem findAt_leaseChip : findAt Reg.leaseChip =
    .ok ⟨{ name := .leaseChip, off := 0x1B0, lease := .leaseReg, reset := 0xF, rw := 0xF, wo := 0x80000000 }, []⟩ := by
  decide +kernel

theorem findAt_leaseTime : findAt Reg.leaseTime =
    .ok ⟨{ name := .leaseTime, off := 0x1B4, lease := .leaseReg, reset := 0xF, rw := 0xF, wo := 0x80000000 }, []⟩ := by
  decide +kernel

theorem leaseAddr_lt (l : Lease) : leaseAddr l < 2 ^ 32 := by
  cases l with
  | ring n => exact (by decide : ∀ n : RingId, Reg.leaseRing n < 2 ^ 32) n
  | chip => decide
  | time => decide

/-- A lease register is none of the registers with a rule of their own but that of R65. -/
theorem leaseReg_found (l : Lease) : ∃ h, findAt (leaseAddr l) = .ok h ∧ h.desc.pair = 0 ∧ h.desc.lease ≠ .session ∧
    h.desc.rw = 0xF ∧ h.desc.wo = 0x80000000 ∧ h.desc.ro = 0 ∧ h.desc.w1c = 0 ∧ h.desc.w1s = 0 ∧
    (h.desc.name = .leaseRing ∨ h.desc.name = .leaseChip ∨ h.desc.name = .leaseTime) := by
  cases l with
  | ring n => exact ⟨_, findAt_leaseRing n, rfl, nofun, rfl, rfl, rfl, rfl, rfl, .inl rfl⟩
  | chip => exact ⟨_, findAt_leaseChip, rfl, nofun, rfl, rfl, rfl, rfl, rfl, .inr (.inl rfl)⟩
  | time => exact ⟨_, findAt_leaseTime, rfl, nofun, rfl, rfl, rfl, rfl, rfl, .inr (.inr rfl)⟩

/-- A write of a lease register that is let pass (R65, R89). -/
theorem leaseWrite {s g : State} {p u : Nat} {l : Lease} {v : Word} (takes : s.Takes p u (leaseAddr l) g) (res : v &&& 0x7FFFFFF0 = 0)
    (legal : fld v 3 0 < 8 ∨ fld v 3 0 = 15) (ok : g.leaseRegCheck u (leaseAddr l) v = .ok) :
    s.hostWrite p u (leaseAddr l) v = (g.leaseRegDo u (leaseAddr l) v).wrote p (leaseAddr l) := by
  obtain ⟨h, found, alone, lease, rw', wo, ro, w1c, w1s, name⟩ := leaseReg_found l
  have reserved : v &&& h.desc.reserved = 0 := by
    unfold RegDesc.reserved
    rw [rw', wo, ro, w1c, w1s]
    exact res
  have writable : h.desc.writable = true := by
    unfold RegDesc.writable
    rw [rw', wo, w1c, w1s]
    decide
  have range : fieldLegal h v = true := by
    unfold fieldLegal
    rcases name with e | e | e <;> rw [e] <;> exact decide_eq_true legal
  have check : g.blockCheck u h (leaseAddr l) v (pairWord 0 v) = .ok := by
    unfold blockCheck
    rcases name with e | e | e <;> rw [e] <;> exact ok
  have effect : g.writeDo u h (leaseAddr l) v (pairWord 0 v) = g.leaseRegDo u (leaseAddr l) v := by
    unfold writeDo
    rcases name with e | e | e <;> rw [e]
  rw [hostWrite_takes takes (leaseAddr_lt l) found alone lease writable reserved range check (by rw [w1s]; simp), effect]

/-- An ordinary write of a lease register by a session that holds the lease, or of a free one (R65). -/
theorem leaseRegDo_plain (s : State) (u a : Nat) {v : Word} (plain : bit v 31 = false) :
    s.leaseRegDo u a v = s.setFld a 3 0 (fld v 3 0) := by
  unfold leaseRegDo
  dsimp only
  rw [if_neg (by simp [plain])]

/-! ### The answers outside a session -/

theorem Sends.sess {s t : State} (h : s.Sends t) : t.sess = s.sess := by
  obtain ⟨-, e, r, b, rfl⟩ := h
  rfl

/-- A frame handed to a port that answers, in a state that differs from `s` in nothing that dresses it (R38, R85). -/
theorem queued_after {s t : State} (hi : t.Inv) (p : Port) (f : OutFrame) (port : t.port p = s.port p) (answers : s.portAnswers p = true)
    (response : f.cls ≠ .classC) (map : t.getReg (Reg.ethPfcMap p) = s.getReg (Reg.ethPfcMap p)) (net : t.netNow = s.netNow) :
    t.Sends (t.sendFrame p f) ∧ s.Queued (t.sendFrame p f) p f := by
  have heard : t.portAnswers p = true := by
    unfold portAnswers at answers ⊢
    rwa [port]
  obtain ⟨sends, -, queued⟩ := sendFrame_marks hi p.isLt f
  refine ⟨sends, ?_⟩
  have last := queued heard (.inl response)
  unfold Queued at last ⊢
  rw [last, port, dressed_congr map net]

/-- SESSION_OPEN passes its checks when its values are legal and a session is free (R53). -/
theorem openCheck_ok {s : State} {timeout ctrl : Word} (limits : timeout = 0 ∨ (10 ≤ timeout.toNat ∧ timeout.toNat ≤ 60000))
    (flags : ctrl &&& 0xFFFFFF0E = 0) : s.openCheck timeout ctrl = Err.need (s.sess.any fun x => !x.isOpen) .eCapacity := by
  have first : (timeout = 0 || decide (10 ≤ timeout.toNat ∧ timeout.toNat ≤ 60000)) = true := by simpa using limits
  unfold openCheck
  rw [first, decide_eq_true flags]
  cases s.sess.any fun x => !x.isOpen <;> rfl

/-- The registers of a session that opens (R53). -/
def sessRegs (s : State) (k : Nat) (ctrl timeout q : Word) : State :=
  ((s.setReg (Reg.sessCtrl k) ctrl).setReg (Reg.sessTimeout k) (if timeout = 0 then 2000 else timeout)).setReg (Reg.sessLastSeq k) q

/-- A session opens (R53, R58). -/
theorem openSession_marks {s : State} (hi : s.Inv) (p : Nat) (d : PushAddr) (q timeout ctrl : Word) {k : Nat}
    (lowest : (s.sess.findIdx fun x => !x.isOpen) = k) (room : k < 8) :
    let t := (s.openSession p d q timeout ctrl).2
    (t.session k).isOpen = true ∧ (t.session k).tag = Config.sessionTag s.freeCtr ∧ (t.session k).lastFrame = s.beat ∧
      (t.session k).executed = [(q, p)] ∧ t.getReg (Reg.sessCtrl k) = ctrl ∧
      t.getReg (Reg.sessTimeout k) = (if timeout = 0 then 2000 else timeout) ∧ t.getReg (Reg.sessLastSeq k) = q ∧
      (∀ i, i ≠ k → t.session i = s.session i) ∧ t.ports = s.ports ∧ t.netNow = s.netNow ∧
      ∀ a, 0x200 ≤ a → t.getReg a = s.getReg a := by
  obtain ⟨opened, ho⟩ : ∃ t, ({ s with freeCtr := s.freeCtr + 1 } : State).modSess k (fun _ =>
    { isOpen := true, tag := Config.sessionTag s.freeCtr, executed := [(q, p)], lastFrame := s.beat }) = t := ⟨_, rfl⟩
  have openedInv : opened.Inv := ho ▸ modSess_inv _ _ (.upd hi rfl)
  have fits : k < ({ s with freeCtr := s.freeCtr + 1 } : State).sess.length := hi.sess_length.symm ▸ room
  have session : opened.session k = { isOpen := true, tag := Config.sessionTag s.freeCtr, executed := [(q, p)], lastFrame := s.beat } :=
    ho ▸ session_modSess_self fits _
  have others : ∀ i, i ≠ k → opened.session i = s.session i := fun i hne => ho ▸ session_modSess_ne _ hne
  have rest : opened.beat = s.beat ∧ opened.ports = s.ports ∧ opened.netNow = s.netNow ∧ ∀ a, opened.getReg a = s.getReg a := by
    subst ho
    exact ⟨rfl, rfl, rfl, fun _ => rfl⟩
  obtain ⟨beat, ports, net, regs⟩ := rest
  obtain ⟨r, noted⟩ := regainPushes_rings (opened.sessRegs k ctrl timeout q) ((opened.sessRegs k ctrl timeout q).modSess k fun x =>
    { x with lastFrame := opened.beat, addr0 := if p = 0 then (some d).or x.addr0 else x.addr0
             addr1 := if p = 0 then x.addr1 else (some d).or x.addr1 })
  have run : (s.openSession p d q timeout ctrl).2 = { (opened.sessRegs k ctrl timeout q).modSess k (fun x =>
    { x with lastFrame := opened.beat, addr0 := if p = 0 then (some d).or x.addr0 else x.addr0
             addr1 := if p = 0 then x.addr1 else (some d).or x.addr1 }) with rings := r } := by
    rw [← noted, ← ho]
    unfold openSession
    dsimp only
    rw [lowest]
    rfl
  have i1 := setReg_inv (Reg.sessCtrl k) ctrl openedInv
  have i2 := setReg_inv (Reg.sessTimeout k) (if timeout = 0 then 2000 else timeout) i1
  have held : (opened.sessRegs k ctrl timeout q).session k = opened.session k := rfl
  have mine : (s.openSession p d q timeout ctrl).2.session k = {
      isOpen := true, tag := Config.sessionTag s.freeCtr, executed := [(q, p)], lastFrame := s.beat
      addr0 := if p = 0 then (some d).or none else none, addr1 := if p = 0 then none else (some d).or none } := by
    rw [run]
    refine (session_modSess_self (openedInv.sess_length.symm ▸ room) _).trans ?_
    rw [held, session, beat]
  have lit : ∀ a, (s.openSession p d q timeout ctrl).2.getReg a = (opened.sessRegs k ctrl timeout q).getReg a := fun a => by
    rw [run]
    rfl
  dsimp only
  rw [mine]
  refine ⟨rfl, rfl, rfl, rfl, ?_, ?_, ?_, fun i hne => ?_, ?_, ?_, fun a ha => ?_⟩
  · rw [lit]
    unfold sessRegs
    rw [getReg_setReg_other _ _ (by simp only [Reg.sessCtrl, Reg.sessLastSeq]; omega),
      getReg_setReg_other _ _ (by simp only [Reg.sessCtrl, Reg.sessTimeout]; omega), getReg_setReg_self openedInv.regs_wf]
  · rw [lit]
    unfold sessRegs
    rw [getReg_setReg_other _ _ (by simp only [Reg.sessTimeout, Reg.sessLastSeq]; omega), getReg_setReg_self i1.regs_wf]
  · rw [lit]
    unfold sessRegs
    rw [getReg_setReg_self i2.regs_wf]
  · rw [run]
    exact (session_modSess_ne _ hne).trans (others i hne)
  · rw [run]
    exact ports
  · rw [run]
    exact net
  · rw [lit]
    unfold sessRegs
    rw [getReg_setReg_other _ _ (by simp only [Reg.sessLastSeq]; omega),
      getReg_setReg_other _ _ (by simp only [Reg.sessTimeout]; omega), getReg_setReg_other _ _ (by simp only [Reg.sessCtrl]; omega), regs]

end State

/-- Settles O33. -/
theorem sessionsAndLeases : Obligations.SessionsAndLeases := by
  intro s g p u l d q timeout ctrl hi k frame a h
  refine ⟨fun answers room limits flags => ?_, fun answers full limits flags => ?_, fun hears => ?_, fun answers => ?_, fun silent => ?_,
    fun isOpen late => ⟨fun keep => ?_, fun halt => ?_⟩, fun early => ?_,
    fun takes free => ⟨?_, ?_⟩, fun takes chip other held foreign => ?_⟩
  · have is : ({ s with curPort := p } : State).Inv := .upd hi rfl
    have some : s.sess.any (fun x => !x.isOpen) = true := by
      have shut := List.findIdx_lt_length.mp (show (s.sess.findIdx fun x => !x.isOpen) < s.sess.length from hi.sess_length ▸ room)
      exact List.any_eq_true.mpr shut
    have ok : State.openCheck { s with curPort := p } timeout ctrl = .ok := by
      rw [State.openCheck_ok limits flags]
      exact if_pos some
    obtain ⟨isOpen, tag, lastFrame, executed, sessCtrl, sessTimeout, lastSeq, others, ports, net, regs⟩ :=
      State.openSession_marks is p d q timeout ctrl (k := k) rfl room
    have inv := State.openSession_inv p d q timeout ctrl is
    have run : exec (.sessionOpen p d q timeout ctrl) s = .next (State.sendFrame
        { (State.openSession { s with curPort := p } p d q timeout ctrl).2 with resp := [{ op := 0x10 }] } p
        { frame with
          sess := BitVec.ofNat 8 k
          tag := ((State.openSession { s with curPort := p } p d q timeout ctrl).2.session k).tag, ops := [{ op := 0x10 }] }) := by
      refine (congrArg Host.Outcome.next (if_neg (not_not.mpr answers))).trans ?_
      unfold State.opOpen
      rw [ok]
      rfl
    rw [tag] at run
    generalize (State.openSession { s with curPort := p } p d q timeout ctrl).2 = o at *
    obtain ⟨sends, queued⟩ := State.queued_after (s := s) (t := { o with resp := [{ op := 0x10 }] }) (.upd inv rfl) p { frame with
      sess := BitVec.ofNat 8 k, tag := Config.sessionTag s.freeCtr, ops := [{ op := 0x10 }] }
      (congrArg (·.getD p {}) ports) answers nofun (regs _ (by unfold Reg.ethPfcMap; omega)) net
    have small : ∀ a < 0x200, ¬ dropReg a := fun a ha ⟨p, _, h⟩ => by
      simp only [Reg.ethClasscDrop, Reg.ethFlags] at h
      omega
    have kept : ∀ a < 0x200, _ := fun a ha => sends.1 a (small a ha)
    have same : ∀ i, State.session _ i = _ := fun i => congrArg (·.getD i {}) sends.sess
    refine ⟨_, run, ?_, ?_, ?_, ?_, ?_, ?_, ?_, fun i hne => ?_, queued⟩
    · rw [same]; exact isOpen
    · rw [same]; exact tag
    · rw [same]; exact lastFrame
    · rw [same]; exact executed
    · exact (kept _ (by unfold Reg.sessCtrl; omega)).trans sessCtrl
    · exact (kept _ (by unfold Reg.sessTimeout; omega)).trans sessTimeout
    · exact (kept _ (by unfold Reg.sessLastSeq; omega)).trans lastSeq
    · rw [same]; exact others i hne
  · have full : s.sess.any (fun x => !x.isOpen) = false := by
      refine List.any_eq_false.mpr fun x hx => ?_
      simp [full x hx]
    have refused : State.openCheck { s with curPort := p } timeout ctrl = .eCapacity := by
      rw [State.openCheck_ok limits flags]
      exact if_neg (by simp [full])
    obtain ⟨sends, queued⟩ := State.queued_after (s := s)
      (t := { s with curPort := p, resp := [{ op := 0x10, status := Err.eCapacity.code }] }) (.upd hi rfl) p
      { frame with ops := [{ op := 0x10, status := Err.eCapacity.code }] } rfl answers nofun rfl rfl
    refine ⟨_, (congrArg Host.Outcome.next (if_neg (not_not.mpr answers))).trans ?_, sends.sess, queued⟩
    unfold State.opOpen
    rw [refused]
    rfl
  · have gi : g.Inv := by
      rw [hears.state]
      exact .upd (State.noteFrame_inv _ _ _ hi) rfl
    obtain ⟨session, sched, lease⟩ := State.closeSession_marks gi u.isLt
    have run : exec (.sessionClose p u) s = .next { g.closeSession u with resp := [{ op := 0x11 }] } :=
      congrArg Host.Outcome.next (hears.hostOp fun x => x.opClose u)
    generalize g.closeSession u = c at session sched lease run
    exact ⟨_, run, session, lease, sched, rfl⟩
  · obtain ⟨sends, queued⟩ := State.queued_after (s := s) (t := { s with curPort := p, resp := [opResp 0x12 0 .ok 0 (s.discoverBody p)] })
      (.upd hi rfl) p { frame with
        ops := [{ op := 0x12, body := s.discoverBody p }], notBefore := s.beat + s.sec.fuses.serial.toNat % 16 * 1500000 }
      rfl answers nofun rfl rfl
    exact ⟨_, congrArg Host.Outcome.next (if_neg (not_not.mpr answers)), sends.sess, queued⟩
  · have mute : ¬ s.portAnswers p = true := by simp [silent]
    exact ⟨congrArg Host.Outcome.next (if_pos mute), congrArg Host.Outcome.next (if_pos mute)⟩
  · have due : s.sessionLate u = true := by
      unfold State.sessionLate
      rw [isOpen, decide_eq_true late]
      rfl
    refine (congrArg Host.Outcome.next (if_pos due)).trans ?_
    unfold State.expireSession
    rw [keep]
    rfl
  · have due : s.sessionLate u = true := by
      unfold State.sessionLate
      rw [isOpen, decide_eq_true late]
      rfl
    refine (congrArg Host.Outcome.next (if_pos due)).trans ?_
    unfold State.expireSession
    rw [halt]
    rfl
  · have notDue : ¬ s.sessionLate u = true := by
      unfold State.sessionLate
      simp [early]
    exact congrArg Host.Outcome.next (if_neg notDue)
  · have own : ∀ u : Sid, (BitVec.ofNat 32 u.val &&& 0x7FFFFFF0 = 0) ∧ fld (BitVec.ofNat 32 u.val) 3 0 = u.val ∧
        bit (BitVec.ofNat 32 u.val) 31 = false := by decide
    obtain ⟨res, value, plain⟩ := own u
    refine (congrArg Host.Outcome.next (State.leaseWrite takes res (.inl (by rw [value]; exact u.isLt)) ?_)).trans ?_
    · unfold State.leaseRegCheck State.leaseOk
      rw [plain, value, decide_eq_true free]
      simp [Err.first, Err.need]
    · rw [State.leaseRegDo_plain _ _ _ plain, value]
  · refine (congrArg Host.Outcome.next (State.leaseWrite takes (by decide) (by decide) ?_)).trans ?_
    · unfold State.leaseRegCheck State.leaseOk
      rw [decide_eq_true free, (by decide : bit (0xF : Word) 31 = false), (by decide : fld (0xF : Word) 3 0 = 15)]
      simp [Err.first, Err.need]
    · rw [State.leaseRegDo_plain _ _ _ (by decide)]
      rfl
  · refine (congrArg Host.Outcome.next (State.leaseWrite takes (by decide) (by decide) ?_)).trans ?_
    · have distinct : a ≠ Reg.leaseChip := by
        cases l with
        | ring n => exact (by decide : ∀ n : RingId, leaseAddr (.ring n) ≠ Reg.leaseChip) n
        | chip => exact absurd rfl other
        | time => decide
      unfold State.leaseRegCheck
      rw [if_pos (by decide), decide_eq_true ⟨chip, distinct⟩, decide_eq_true held]
      rfl
    · unfold State.leaseRegDo
      rw [if_pos ⟨by decide, foreign⟩]
      rfl

end Sys2Proof.Machine
end

section
/-! PROOF. What the loss of a port, and its return, leave of the ports (R59-R63). -/

namespace Sys2Proof.Machine

namespace State

/-- Pushes of a port that start again change the result queues and the streams alone (R62). -/
theorem restartPort_rings (s : State) (p : Nat) : ∃ r, s.restartPort p = { s with rings := r } := by
  refine forBelow_keeps (P := fun t => ∃ r, t = { s with rings := r }) 12 ⟨_, rfl⟩ fun n t ht => ?_
  refine forBelow_keeps (P := fun t => ∃ r, t = { s with rings := r }) 4 ?_ fun j t ht => ?_
  · split
    · obtain ⟨r, rfl⟩ := ht
      exact ⟨_, rfl⟩
    · exact ht
  · split
    · obtain ⟨r, rfl⟩ := ht
      exact ⟨_, rfl⟩
    · exact ht

/-- What every turn over a list keeps, the whole keeps. -/
theorem foldl_keeps {α : Type} {P : State → Prop} {l : List α} {f : State → α → State} {s : State} (h : P s)
    (step : ∀ x ∈ l, ∀ t, P t → P (f t x)) : P (l.foldl f s) := by
  induction l generalizing s with
  | nil => exact h
  | cons x l ih => exact ih (step x (by simp) s h) fun y hy => step y (by simp [hy])

/-- A state that keeps the shape of `s` and its port `p`. -/
def PortKept (s : State) (p : Nat) (t : State) : Prop := t.Inv ∧ t.port p = s.port p

theorem PortKept.sendFrame {s t : State} {p q : Nat} (h : s.PortKept p t) (hq : q < 2) (ne : p ≠ q) (f : OutFrame) :
    s.PortKept p (t.sendFrame q f) := by
  obtain ⟨inv, port⟩ := h
  obtain ⟨-, others, -⟩ := sendFrame_marks inv hq f
  exact ⟨sendFrame_inv q f inv, (others p ne).trans port⟩

/-- A push frame that moves to one port leaves the other as it is (R59). -/
theorem PortKept.movePush {s t : State} {p q : Nat} (h : s.PortKept p t) (hq : q < 2) (ne : p ≠ q) (f : OutFrame) :
    s.PortKept p (t.movePush q f) := by
  unfold State.movePush
  split
  · exact h
  · refine foldl_keeps (h.sendFrame hq ne _) fun o _ t ht => ?_
    have modSess : ∀ {t : State} (u : Nat) (g : Sess → Sess), s.PortKept p t → s.PortKept p (t.modSess u g) :=
      fun u g ⟨inv, port⟩ => ⟨modSess_inv u g inv, port⟩
    unfold sendPart
    dsimp only
    refine modSess _ _ (.sendFrame ?_ hq ne _)
    split
    · obtain ⟨inv, port⟩ := ht
      exact ⟨nextSeqNo_inv _ _ inv, port⟩
    · exact ht

/-- A push frame of a port that is lost leaves that port as it is (R59, R60). -/
theorem PortKept.movePushFrom {s t old : State} {p : Nat} (h : s.PortKept p t) (f : OutFrame) : s.PortKept p (movePushFrom old p t f) := by
  unfold State.movePushFrom
  dsimp only
  split
  · split
    · split
      · obtain ⟨inv, port⟩ := h
        refine ⟨raiseFlag_inv _ _ (satReg_inv _ inv), ?_⟩
        rw [← port]
        unfold satReg
        split <;> rfl
      · exact h
    next =>
      refine foldl_keeps h fun q hq t ht => ?_
      obtain ⟨hpush, away⟩ := List.mem_filter.mp hq
      split
      · exact ht
      · exact ht.movePush ((pushPorts_sound _ _).1 q hpush).1 (of_decide_eq_true away).symm f
  · exact h

/-- What moves no other port's frames leaves the other ports as they are (R62). -/
theorem movePushFrom_same (old : State) (p : Nat) {l : List OutFrame} (h : ∀ f ∈ l, f.cls ≠ .event ∧ f.cls ≠ .classC) (t : State) :
    l.foldl (movePushFrom old p) t = t := by
  induction l with
  | nil => rfl
  | cons f l ih =>
    obtain ⟨event, classC⟩ := h f (by simp)
    have skip : movePushFrom old p t f = t := by
      unfold State.movePushFrom
      dsimp only
      rw [if_neg (by simp [event, classC])]
    rw [List.foldl_cons, skip]
    exact ih fun x hx => h x (by simp [hx])

/-- A port that stops carrying frames: its queue is empty, and it is in the state given (R62). -/
theorem dropPort_port {s : State} (hi : s.Inv) (p : Port) (st : PortState) :
    (s.dropPort p st).port p = { s.port p with
      state := st, egress := [], classCHeld := 0, badRun := 0, lossFrom := none, xoffAt := List.replicate 8 none } := by
  obtain ⟨r, rings⟩ := s.restartPort_rings p
  have inv := restartPort_inv p.val hi
  let g : EthPort → EthPort := fun e => { e with
    state := st, egress := [], classCHeld := 0, badRun := 0, lossFrom := none, xoffAt := List.replicate 8 none }
  have kept : ((s.restartPort p).modPort p g).PortKept p (s.dropPort p st) :=
    foldl_keeps ⟨modPort_inv _ _ (fun _ ⟨ingress, _, paused⟩ => ⟨ingress, List.length_replicate, paused⟩) inv, rfl⟩ fun f _ t ht => ht.movePushFrom f
  refine kept.2.trans ((port_modPort_self (inv.ports_length.symm ▸ p.isLt) g).trans ?_)
  rw [rings]
  rfl

/-- A port that stops carrying frames leaves the other as it is when none of its frames moves (R62). -/
theorem dropPort_others {s : State} {p : Nat} (h : ∀ f ∈ (s.port p).egress, f.cls ≠ .event ∧ f.cls ≠ .classC) (st : PortState) {i : Nat}
    (ne : i ≠ p) : (s.dropPort p st).port i = s.port i := by
  obtain ⟨r, rings⟩ := s.restartPort_rings p
  unfold dropPort
  dsimp only
  rw [movePushFrom_same s p h, port_modPort_ne _ ne, rings]
  rfl

end State

end Sys2Proof.Machine
end

section
/-! PROOF. Network values, port modes, result queues and streams (R71-R73, R79, R90, R91). -/

namespace Sys2Proof.Machine

namespace State

/-- The bits of a register whose fields are coded RW alone (R95, R96). -/
theorem reserved_rw {d : RegDesc} {v : Word} (h : v &&& ~~~d.rw = 0) (alone : d.ro = 0 ∧ d.wo = 0 ∧ d.w1c = 0 ∧ d.w1s = 0) :
    v &&& d.reserved = 0 := by
  obtain ⟨ro, wo, w1c, w1s⟩ := alone
  unfold RegDesc.reserved
  rw [ro, wo, w1c, w1s]
  simpa using h

/-- A write of a bit that reads 0 (R97). -/
theorem one_and {x : Word} {i : Nat} (small : i < 32) (h : bit x i = false) : BitVec.ofNat 32 (2 ^ i) &&& x = 0 := by
  have power : 2 ^ i % 2 ^ 32 = 2 ^ i := Nat.mod_eq_of_lt (Nat.pow_lt_pow_right (by decide) small)
  refine BitVec.eq_of_toNat_eq ?_
  rw [BitVec.toNat_and, BitVec.toNat_ofNat, power, Nat.two_pow_and]
  have clear : x.toNat.testBit i = false := h
  rw [clear]
  rfl

/-- A write of ETH CTRL that changes MODE or JUMBO (R90). -/
theorem ethCtrlDo_changed {g : State} (hi : g.Inv) (q : Port) {v : Word}
    (changed : ¬ (fld (g.getReg (Reg.ethCtrl q)) 5 4 = fld v 5 4 ∧ bit (g.getReg (Reg.ethCtrl q)) 9 = bit v 9)) :
    let t := g.ethCtrlDo q v
    t.getReg (Reg.ethCtrl q) = v ∧ (t.port q).locked = false ∧ (t.port q).egress = [] ∧
      (t.port q).state = (if fld v 5 4 = 2 then .down else .aligning) ∧
      ((∀ f ∈ (g.port q).egress, f.cls ≠ .event ∧ f.cls ≠ .classC) → ∀ i, i ≠ q.val → t.port i = g.port i) := by
  have run : g.ethCtrlDo q v = ((g.dropPort q (if fld v 5 4 = 2 then .down else .aligning)).modPort q
      fun e => { e with locked := false }).setReg (Reg.ethCtrl q) v := by
    unfold ethCtrlDo
    dsimp only
    rw [if_pos (by tauto)]
  have port := dropPort_port hi q (if fld v 5 4 = 2 then .down else .aligning)
  have others := fun h {i} => dropPort_others (s := g) (p := q) h (if fld v 5 4 = 2 then .down else .aligning) (i := i)
  have inv := dropPort_inv q (if fld v 5 4 = 2 then .down else .aligning) hi
  generalize g.dropPort q _ = t at run port others inv
  have mine : (g.ethCtrlDo q v).port q = { t.port q with locked := false } := by
    rw [run]
    exact port_modPort_self (inv.ports_length.symm ▸ q.isLt) _
  dsimp only
  rw [mine, port]
  refine ⟨?_, rfl, rfl, rfl, fun h i ne => ?_⟩
  · rw [run, getReg_setReg_self (modPort_inv q (fun e => { e with locked := false }) (fun _ h => h) inv).regs_wf]
  · rw [run]
    exact (port_modPort_ne _ ne).trans (others h ne)

/-- A write of a stream's CFG (R71-R73). -/
theorem strmCfgDo_marks {g : State} (hi : g.Inv) (n : RingId) (j : Fin 4) (v : Word) :
    let t := g.strmCfgDo n j v
    t.getReg (Reg.strmCfg n j) = v ∧
      (bit v 16 = true → g.strmEn n j = false → t.playPtr n j = 0 ∧ t.takePtr n j = 0 ∧ (t.strm n j).filled = [] ∧
        t.creditLimit n j = BitVec.ofNat 32 (fld v 6 0) ∧ (t.strm n j).creditDue = true) ∧
      (bit v 16 = false ∨ g.strmEn n j = true → t.playPtr n j = g.playPtr n j ∧ t.takePtr n j = g.takePtr n j ∧
        (t.strm n j).filled = (g.strm n j).filled ∧ t.creditLimit n j = g.playPtr n j + BitVec.ofNat 32 (fld v 6 0)) := by
  have i1 := setReg_inv (Reg.strmCfg n j) v hi
  have addr : Reg.strmCfg n j ≠ Reg.strmLimit n j ∧ Reg.strmCfg n j ≠ Reg.strmPlayptr n j ∧ Reg.strmCfg n j ≠ Reg.strmTakeptr n j ∧
      Reg.strmLimit n j ≠ Reg.strmPlayptr n j ∧ Reg.strmLimit n j ≠ Reg.strmTakeptr n j ∧ Reg.strmPlayptr n j ≠ Reg.strmTakeptr n j := by
    simp only [Reg.strmCfg, Reg.strmLimit, Reg.strmPlayptr, Reg.strmTakeptr]
    omega
  obtain ⟨cl, cp, ct, lp, lt, pt⟩ := addr
  have cfg : (g.setReg (Reg.strmCfg n j) v).getReg (Reg.strmCfg n j) = v := getReg_setReg_self hi.regs_wf _ _
  have units : (g.setReg (Reg.strmCfg n j) v).strmUnits n j = fld v 6 0 := by
    unfold strmUnits regFld
    rw [cfg]
  have streams : ∀ {t : State} (f : Strm → Strm), t.Inv → (t.modStrm n j f).strm n j = f (t.strm n j) := fun f h => by
    obtain ⟨-, -, -, -, -, strm, -⟩ := h.ring_sized n.isLt
    exact strm_modStrm_self h.rings_length n.isLt (by rw [strm]; exact j.isLt) f
  by_cases start : bit v 16 = true ∧ ¬ g.strmEn n j = true
  · have run : g.strmCfgDo n j v = (g.setReg (Reg.strmCfg n j) v).enableStream n j := if_pos start
    have i2 := setReg_inv (Reg.strmTakeptr n j) 0 i1
    have i3 := modStrm_inv n j (fun t => { t with filled := [], released := [] }) i2
    have wide : (((g.setReg (Reg.strmCfg n j) v).setReg (Reg.strmTakeptr n j) 0).modStrm n j fun t =>
        { t with filled := [], released := [] }).strmUnits n j = fld v 6 0 := by
      rw [← units]
      unfold strmUnits regFld
      rw [getReg_modStrm, getReg_setReg_other _ _ ct]
    unfold enableStream setPlayPtr at run
    rw [wide] at run
    have i4 := setReg_inv (Reg.strmPlayptr n j) 0 i3
    have i5 := setReg_inv (Reg.strmLimit n j) ((0 : Word) + BitVec.ofNat 32 (fld v 6 0)) i4
    have stream := streams (fun t => { t with creditDue := true }) i5
    refine ⟨?_, fun _ _ => ⟨?_, ?_, ?_, ?_, ?_⟩, fun h => absurd start (by rcases h with h | h <;> simp [h])⟩
    · rw [run, getReg_modStrm, getReg_setReg_other _ _ cl, getReg_setReg_other _ _ cp, getReg_modStrm, getReg_setReg_other _ _ ct, cfg]
    · unfold playPtr
      rw [run, getReg_modStrm, getReg_setReg_other _ _ lp.symm, getReg_setReg_self i3.regs_wf]
    · unfold takePtr
      rw [run, getReg_modStrm, getReg_setReg_other _ _ lt.symm, getReg_setReg_other _ _ pt.symm, getReg_modStrm,
        getReg_setReg_self i1.regs_wf]
    · rw [run, stream]
      exact congrArg Strm.filled (streams (fun t => { t with filled := [], released := [] }) i2)
    · unfold creditLimit
      rw [run, getReg_modStrm, getReg_setReg_self i4.regs_wf]
      exact BitVec.zero_add _
    · rw [run, stream]
  · have play : (g.setReg (Reg.strmCfg n j) v).playPtr n j = g.playPtr n j := getReg_setReg_other _ _ cp.symm
    have i2 := setReg_inv (Reg.strmLimit n j) (g.playPtr n j + BitVec.ofNat 32 (fld v 6 0)) i1
    have run : ∃ c, g.strmCfgDo n j v = ((g.setReg (Reg.strmCfg n j) v).setReg (Reg.strmLimit n j)
        (g.playPtr n j + BitVec.ofNat 32 (fld v 6 0))).modStrm n j fun t => { t with creditDue := c || t.creditDue } := by
      unfold strmCfgDo
      dsimp only
      rw [if_neg start, play, units]
      split
      · exact ⟨true, rfl⟩
      · refine ⟨false, ?_⟩
        unfold modStrm modRing
        have fix : (fun r : Ring => { r with strm := r.strm.modify j fun t => { t with creditDue := false || t.creditDue } }) = id := by
          funext r
          have same : (fun t : Strm => { t with creditDue := false || t.creditDue }) = id := rfl
          rw [same, List.modify_id]
          rfl
        rw [fix, List.modify_id]
    obtain ⟨c, run⟩ := run
    refine ⟨?_, fun on off => absurd ⟨on, by simp [off]⟩ start, fun _ => ⟨?_, ?_, ?_, ?_⟩⟩
    · rw [run, getReg_modStrm, getReg_setReg_other _ _ cl, cfg]
    · unfold playPtr
      rw [run, getReg_modStrm, getReg_setReg_other _ _ lp.symm, getReg_setReg_other _ _ cp.symm]
    · unfold takePtr
      rw [run, getReg_modStrm, getReg_setReg_other _ _ lt.symm, getReg_setReg_other _ _ ct.symm]
    · rw [run, streams _ i2]
      rfl
    · unfold creditLimit
      rw [run, getReg_modStrm, getReg_setReg_self i1.regs_wf]

end State

/-- Settles O34. -/
theorem networkAndQueueConfiguration : Obligations.NetworkAndQueueConfiguration := by
  intro s g p q u n j v hi other
  have heard : ∀ {a}, s.Takes p u a g → g.Inv := fun takes => takes.inv hi
  refine ⟨fun takes idle => ?_, fun takes run free => ?_, fun takes res mode => ?_, fun takes res flush low high openSess => ?_,
    fun takes res check units => ?_⟩
  · have clear : bit (putBit (g.getReg Reg.netCtrl) 1 (g.storing .net)) 0 = false := by
      rw [bit_putBit _ _ (by decide), if_neg (by decide), idle]
    have bits : (1 : Word) &&& 3 &&& putBit (g.getReg Reg.netCtrl) 1 (g.storing .net) = 0 := State.one_and (by decide) clear
    exact congrArg Host.Outcome.next
      ((State.hostWrite_takes takes (by decide) State.findAt_netCtrl rfl nofun (by decide) (by decide) rfl rfl bits).trans rfl)
  · have store : g.storeCheck = .ok := by
      unfold State.storeCheck
      rw [run, free]
      rfl
    have none : g.cal.store = none := by
      unfold State.nvmBusy at free
      simp only [Bool.or_eq_false_iff] at free
      exact Option.isSome_eq_false_iff.mp free.1 |> Option.isNone_iff_eq_none.mp
    have clear : bit (putBit (g.getReg Reg.netCtrl) 1 (g.storing .net)) 1 = false := by
      rw [bit_putBit _ _ (by decide), if_pos rfl]
      unfold State.storing
      rw [none]
      rfl
    have bits : (2 : Word) &&& 3 &&& putBit (g.getReg Reg.netCtrl) 1 (g.storing .net) = 0 := State.one_and (i := 1) (by decide) clear
    exact congrArg Host.Outcome.next
      ((State.hostWrite_takes (v := 2) takes (by decide) State.findAt_netCtrl rfl nofun (by decide) (by decide) rfl store bits).trans rfl)
  · have written := State.write_takes takes (by unfold Reg.ethCtrl; omega) (State.findAt_ethCtrl q) ⟨rfl, nofun, rfl, rfl⟩
      (State.reserved_rw res ⟨rfl, rfl, rfl, rfl⟩) (decide_eq_true mode) rfl
    refine ⟨fun same => ?_, fun changed => ?_⟩
    · refine congrArg Host.Outcome.next (written.trans (congrArg (State.wrote · p _) ?_))
      exact if_neg (by tauto)
    · obtain ⟨ctrl, locked, egress, state, others⟩ := State.ethCtrlDo_changed (heard takes) q changed
      have run : exec (.ethCtrlWrite p u q v) s = .next ((g.ethCtrlDo q v).wrote p (Reg.ethCtrl q)) := congrArg Host.Outcome.next written
      generalize g.ethCtrlDo q v = t at run ctrl locked egress state others
      obtain ⟨w, r, fields⟩ := State.wrote_fields t p (Reg.ethCtrl q)
      rw [fields] at run
      exact ⟨_, run, ctrl, locked, egress, state, others⟩
  · have owned : Err.need (!bit v 0 || (g.session (fld v 6 4)).isOpen) .eState = .ok := by
      refine if_pos ?_
      cases e : bit v 0 with
      | false => rfl
      | true => exact openSess e
    have legal : (decide (fld v 31 24 ≠ 0) && within (fld v 16 8) 1 256) = true := by
      unfold within
      simp [flush, low, high]
    have written := State.write_takes takes (by unfold Reg.resqCtrl; omega) (State.findAt_resqCtrl n) ⟨rfl, nofun, rfl, rfl⟩
      (State.reserved_rw res ⟨rfl, rfl, rfl, rfl⟩) legal owned
    refine ⟨fun on off => ?_, fun still => ?_⟩
    · refine congrArg Host.Outcome.next (written.trans (congrArg (State.wrote · p _) ?_))
      have start : (bit v 0 && !g.resqEn n) = true := by rw [on, off]; rfl
      exact congrArg (State.setReg · (Reg.resqCtrl n) v) (if_pos start)
    · refine congrArg Host.Outcome.next (written.trans (congrArg (State.wrote · p _) ?_))
      have start : ¬ (bit v 0 && !g.resqEn n) = true := by rcases still with h | h <;> simp [h]
      exact congrArg (State.setReg · (Reg.resqCtrl n) v) (if_neg start)
  · have legal : (if fld v 6 0 = 0 then !bit v 16 else within (fld v 6 0) 2 64 && decide (fld v 13 8 + fld v 6 0 ≤ 64)) = true := by
      unfold within
      split at units <;> simp_all
    have written := State.write_takes takes (by unfold Reg.strmCfg; omega) (State.findAt_strmCfg n j) ⟨rfl, nofun, rfl, rfl⟩
      (State.reserved_rw res ⟨rfl, rfl, rfl, rfl⟩) legal check
    have marks := State.strmCfgDo_marks (heard takes) n j v
    have run : exec (.strmCfgWrite p u n j v) s = .next ((g.strmCfgDo n j v).wrote p (Reg.strmCfg n j)) :=
      congrArg Host.Outcome.next written
    generalize g.strmCfgDo n j v = t at run marks
    obtain ⟨w, r, fields⟩ := State.wrote_fields t p (Reg.strmCfg n j)
    rw [fields] at run
    exact ⟨_, run, marks⟩

end Sys2Proof.Machine
end

section
/-! PROOF. The states of a port and of its optical module (R33, R40, R61-R63, R550). -/

namespace Sys2Proof.Machine

namespace State

/-! ### Pushes that move from port to port -/

/-- Nothing of a port but its queue differs between the states, and the start-up phase does not (R59, R60). -/
def PushesMove (s t : State) : Prop :=
  t.Inv ∧ t.rst = s.rst ∧ ∀ i, ∃ g c, t.port i = { s.port i with egress := g, classCHeld := c }

theorem PushesMove.refl {s : State} (hi : s.Inv) : s.PushesMove s := ⟨hi, rfl, fun _ => ⟨_, _, rfl⟩⟩

theorem PushesMove.port {s t u : State} (h : s.PushesMove t) (inv : u.Inv) (rst : u.rst = t.rst) (ports : u.ports = t.ports) :
    s.PushesMove u := by
  obtain ⟨-, rst', port⟩ := h
  exact ⟨inv, rst.trans rst', fun i => (congrArg (·.getD i {}) ports : u.port i = t.port i) ▸ port i⟩

theorem PushesMove.queue {s t : State} (h : s.PushesMove t) (q : Port) (f : List OutFrame → List OutFrame) (c : EthPort → Nat) :
    s.PushesMove (t.modPort q fun e => { e with egress := f e.egress, classCHeld := c e }) := by
  obtain ⟨inv, rst, port⟩ := h
  refine ⟨modPort_inv _ _ (fun _ h => h) inv, rst, fun i => ?_⟩
  by_cases e : i = q
  · subst e
    obtain ⟨g, c', e⟩ := port q
    rw [port_modPort_self (inv.ports_length.symm ▸ q.isLt), e]
    exact ⟨_, _, rfl⟩
  · rw [port_modPort_ne _ e]
    exact port i

theorem PushesMove.sendFrame {s t : State} (h : s.PushesMove t) {q : Nat} (hq : q < 2) (f : OutFrame) :
    s.PushesMove (t.sendFrame q f) := by
  unfold State.sendFrame
  split
  · exact h
  · have inv := h.1
    split
    · refine h.port (raiseFlag_inv _ _ (satReg_inv _ inv)) ?_ ?_ <;> unfold satReg <;> split <;> rfl
    · exact h.queue ⟨q, hq⟩ (fun l => l ++ [t.dressed q f])
        (fun e => e.classCHeld + (if (t.dressed q f).cls = .classC then (t.dressed q f).ethLen else 0))

theorem PushesMove.movePush {s t : State} (h : s.PushesMove t) {q : Nat} (hq : q < 2) (f : OutFrame) :
    s.PushesMove (t.movePush q f) := by
  unfold State.movePush
  split
  · exact h
  · refine foldl_keeps (h.sendFrame hq _) fun o _ t ht => ?_
    have modSess : ∀ {t : State} (u : Nat) (g : Sess → Sess), s.PushesMove t → s.PushesMove (t.modSess u g) :=
      fun u g h => h.port (modSess_inv u g h.1) rfl rfl
    unfold sendPart
    dsimp only
    refine modSess _ _ (.sendFrame ?_ hq _)
    split
    · exact ht.port (nextSeqNo_inv _ _ ht.1) rfl rfl
    · exact ht

theorem PushesMove.movePushFrom {s t old : State} {p : Nat} (h : s.PushesMove t) (f : OutFrame) :
    s.PushesMove (movePushFrom old p t f) := by
  unfold State.movePushFrom
  dsimp only
  split
  · split
    · split
      · refine h.port (raiseFlag_inv _ _ (satReg_inv _ h.1)) ?_ ?_ <;> unfold satReg <;> split <;> rfl
      · exact h
    next =>
      refine foldl_keeps h fun q hq t ht => ?_
      obtain ⟨hpush, -⟩ := List.mem_filter.mp hq
      split
      · exact ht
      · exact ht.movePush ((pushPorts_sound _ _).1 q hpush).1 f
  · exact h

/-- A port that stops carrying frames leaves the state of the other (R62). -/
theorem dropPort_state {s : State} (hi : s.Inv) (p : Port) (st : PortState) {i : Nat} (ne : i ≠ p) :
    ((s.dropPort p st).port i).state = (s.port i).state := by
  obtain ⟨r, rings⟩ := s.restartPort_rings p
  have inv := restartPort_inv p.val hi
  let g : EthPort → EthPort := fun e => { e with
    state := st, egress := [], classCHeld := 0, badRun := 0, lossFrom := none, xoffAt := List.replicate 8 none }
  have start : ((s.restartPort p).modPort p g).Inv :=
    modPort_inv _ _ (fun _ ⟨ingress, _, paused⟩ => ⟨ingress, List.length_replicate, paused⟩) inv
  have moved : ((s.restartPort p).modPort p g).PushesMove (s.dropPort p st) :=
    foldl_keeps (.refl start) fun f _ t ht => ht.movePushFrom f
  obtain ⟨-, -, port⟩ := moved
  obtain ⟨l, c, e⟩ := port i
  rw [e, port_modPort_ne _ ne, rings]
  rfl

/-- A port that comes UP (R63, R523). -/
theorem bringUp_marks {s : State} (hi : s.Inv) (p : Port) :
    ((s.bringUp p).port p).state = .up ∧ ((s.bringUp p).port p).locked = (s.port p).locked ∧
      (s.rst.phase = .link → (s.bringUp p).rst.phase = .ready) := by
  have inv := modPort_inv p.val (fun e => { e with state := .up }) (fun _ h => h) hi
  have away : 1 - p.val < 2 := by omega
  have moved : (s.modPort p fun e => { e with state := .up }).PushesMove
      ((s.modPort p fun e => { e with state := .up }).movePushesHome p) := by
    unfold movePushesHome
    dsimp only
    split
    · exact foldl_keeps ((PushesMove.refl inv).queue ⟨1 - p.val, away⟩ (fun _ => _) (fun _ => _)) fun f _ t ht => ht.movePush p.isLt f
    · exact .refl inv
  obtain ⟨r, rings⟩ := regainPushes_rings s (if s.rst.phase = .link then
    ((s.modPort p fun e => { e with state := .up }).movePushesHome p).lastPhase .ready
    else (s.modPort p fun e => { e with state := .up }).movePushesHome p)
  have run : s.bringUp p = { (if s.rst.phase = .link then
    ((s.modPort p fun e => { e with state := .up }).movePushesHome p).lastPhase .ready
    else (s.modPort p fun e => { e with state := .up }).movePushesHome p) with rings := r } := rings
  generalize (s.modPort p fun e => { e with state := .up }).movePushesHome p = t at moved run
  obtain ⟨-, -, port⟩ := moved
  obtain ⟨g, c, mine⟩ := port p
  rw [port_modPort_self (hi.ports_length.symm ▸ p.isLt)] at mine
  have kept : (s.bringUp p).port p = t.port p := by
    rw [run]
    split <;> rfl
  rw [kept, mine]
  refine ⟨rfl, rfl, fun link => ?_⟩
  rw [run, if_pos link]
  rfl

/-- A port that was UP and goes to SHADOW (R60, R62, R63). -/
theorem shadePort_port {s : State} (hi : s.Inv) (p : Port) : (s.shadePort p).port p = { s.port p with
    state := .shadow, egress := (s.port p).egress.filter fun f => !isPush f, classCHeld := 0 } := by
  obtain ⟨r, rings⟩ := s.restartPort_rings p
  have inv := restartPort_inv p.val hi
  let g : EthPort → EthPort := fun e => { e with
    state := .shadow, egress := (s.port p).egress.filter fun f => !isPush f, classCHeld := 0 }
  have kept : ((s.restartPort p).modPort p g).PortKept p (s.shadePort p) :=
    foldl_keeps ⟨modPort_inv _ _ (fun _ h => h) inv, rfl⟩ fun f _ t ht => ht.movePushFrom f
  refine kept.2.trans ((port_modPort_self (inv.ports_length.symm ▸ p.isLt) g).trans ?_)
  rw [rings]
  rfl

/-- A port that goes to SHADOW with no push in its queue leaves the other as it is (R62). -/
theorem shadePort_others {s : State} {p : Nat} (h : ∀ f ∈ (s.port p).egress, isPush f = false) {i : Nat} (ne : i ≠ p) :
    (s.shadePort p).port i = s.port i := by
  obtain ⟨r, rings⟩ := s.restartPort_rings p
  have nothing : (s.port p).egress.filter isPush = [] := List.filter_eq_nil_iff.mpr fun f hf => by simp [h f hf]
  unfold shadePort
  dsimp only
  rw [nothing, List.foldl_nil, port_modPort_ne _ ne, rings]
  rfl

/-! ### The mirror of a module -/

/-- A loop that sets a register in each turn (R40). -/
theorem forBelow_setReg {s : State} (hi : s.Inv) (k : Nat) (a : Nat → Nat) (inj : ∀ i j, a i = a j → i = j) (v : Nat → Word) :
    let t := s.forBelow k fun i t => t.setReg (a i) (v i)
    t.Inv ∧ (∀ i < k, t.getReg (a i) = v i) ∧ (∀ b, (∀ i < k, b ≠ a i) → t.getReg b = s.getReg b) ∧ ∃ r, t = { s with regs := r } := by
  induction k with
  | zero => exact ⟨hi, nofun, fun _ _ => rfl, _, rfl⟩
  | succ k ih =>
    obtain ⟨inv, mine, others, r, fields⟩ := ih
    have run : (s.forBelow (k + 1) fun i t => t.setReg (a i) (v i)) = (s.forBelow k fun i t => t.setReg (a i) (v i)).setReg (a k) (v k) := by
      unfold forBelow
      rw [List.range_succ, List.foldl_append]
      rfl
    rw [run]
    refine ⟨setReg_inv _ _ inv, fun i hi => ?_, fun b hb => ?_, ?_⟩
    · by_cases e : i = k
      · subst e
        exact getReg_setReg_self inv.regs_wf _ _
      · exact (getReg_setReg_other _ _ fun h => e (inj _ _ h)).trans (mine i (by omega))
    · exact (getReg_setReg_other _ _ (hb k (by omega))).trans (others b fun i hi => hb i (by omega))
    · rw [fields]
      exact ⟨_, rfl⟩

/-- A word of a memory image (R40). -/
theorem toWords_getD (l : List Byte) : ∀ k, 4 * k + 4 ≤ l.length → (toWords l).getD k 0 = BitVec.ofNat 32 (leAt l (4 * k) 4) := by
  induction l using toWords.induct with
  | case1 a b c d t ih =>
    intro k hk
    cases k with
    | zero => rfl
    | succ k =>
      have next : leAt (a :: b :: c :: d :: t) (4 * (k + 1)) 4 = leAt t (4 * k) 4 := rfl
      rw [next]
      exact ih k (by simp only [List.length_cons] at hk; omega)
  | case2 l short =>
    intro k hk
    match l, short with
    | [], _ | [_], _ | [_, _], _ | [_, _, _], _ => simp at hk
    | a :: b :: c :: d :: t, short => exact absurd rfl (short a b c d t)


/-- The state of a port whose module has been polled (R40). -/
def polled (s : State) (p : Nat) (present : Bool) (alarms : Word) : State :=
  s.modPort p fun e => { e with
    modPresent := present, modAlarm := alarms, pollFrom := none
    modPollAt := if e.modPollAt + 150000000 ≤ s.beat then s.beat else e.modPollAt }

theorem exec_modulePoll (s : State) (p : Port) (present : Bool) (alarms : Word) : exec (.modulePoll p present alarms) s =
    .next (if s.pollDue p || (s.port p).pollFrom.isSome then
      if present then s.polled p present alarms else (s.polled p present alarms).mirror p [] else s) := rfl

/-- A poll of the module is made when its period has passed or MOD_INT_N asks for it (R40, R550). -/
theorem polls_iff (s : State) (p : Nat) : (s.pollDue p || (s.port p).pollFrom.isSome) = true ↔
    (s.portsRun = true ∧ (s.port p).modPollAt + 150000000 ≤ s.beat ∨ (s.port p).pollFrom.isSome = true) := by
  unfold State.pollDue
  generalize (s.port p).pollFrom = x
  cases x with
  | none => simp only [Option.any_none, Option.isSome_none, Bool.or_false, Bool.and_eq_true, decide_eq_true_eq, Bool.false_eq_true, or_false]
  | some b => simp only [Option.isSome_some, Bool.or_true, or_true]

/-- The mirror of a port without a module reads 0 (R40). -/
theorem mirror_dark {s : State} (hi : s.Inv) (p : Port) (out : (s.port p).modPresent = false) :
    ∃ r, s.mirror p [] = { s with regs := r } ∧ ∀ k < 64, (s.mirror p []).getReg (Reg.ethModule p k) = 0 := by
  obtain ⟨-, mine, -, r, fields⟩ := forBelow_setReg hi 64 (Reg.ethModule p) (fun i j h => by unfold Reg.ethModule at h; omega)
    fun k => ([] : List Word).getD k 0
  have run : s.mirror p [] = s.forBelow 64 fun k t => t.setReg (Reg.ethModule p k) (([] : List Word).getD k 0) := by
    unfold mirror
    dsimp only
    rw [if_neg (by simp [out])]
  rw [← run] at fields mine
  exact ⟨r, fields, mine⟩

/-- The mirror of a port with a module holds its pages (R40). -/
theorem mirror_lit {s : State} (hi : s.Inv) (p : Port) {page : List Byte} (there : (s.port p).modPresent = true)
    (size : page.length = 256) : ∃ r, s.mirror p page = { s with regs := r } ∧
      (∀ k < 64, (s.mirror p page).getReg (Reg.ethModule p k) = BitVec.ofNat 32 (leAt page (4 * k) 4)) ∧
      ∀ a, a ∉ (List.range 64).map (Reg.ethModule p) → (s.mirror p page).getReg a = s.getReg a := by
  obtain ⟨-, mine, others, r, fields⟩ := forBelow_setReg hi 64 (Reg.ethModule p) (fun i j h => by unfold Reg.ethModule at h; omega)
    fun k => (toWords page).getD k 0
  have run : s.mirror p page = s.forBelow 64 fun k t => t.setReg (Reg.ethModule p k) ((toWords page).getD k 0) := by
    unfold mirror
    dsimp only
    rw [if_pos there]
  rw [← run] at fields mine others
  refine ⟨r, fields, fun k hk => ?_, fun a ha => others a fun k hk h => ha (h ▸ List.mem_map_of_mem (List.mem_range.mpr hk))⟩
  rw [mine k hk, toWords_getD page k (by omega)]

end State

/-- Settles O35. -/
theorem portsAndModules : Obligations.PortsAndModules := by
  intro s p present alarms page hi e going loss lost run
  have since : s.lossSince p = loss := by
    unfold State.lossSince State.badGoesOn
    simp only [decide_eq_true_eq]
    rfl
  have runs : (if s.badGoesOn p then e.badRun + 1 else 1) = run := by
    unfold State.badGoesOn
    simp only [decide_eq_true_eq]
    rfl
  have due : s.portLostDue p = (s.portAnswers p && lost) := by
    unfold State.portLostDue
    rw [since]
  have good : ∀ {t u : State}, t = u → Host.Outcome.next t = (.next u : Res) := congrArg Host.Outcome.next
  refine ⟨fun answers gone => ?_, fun calm => ?_, fun locked => ?_, fun locked => ?_, fun unlocked => ⟨?_, ?_⟩, fun mode runs' unlocked => ?_,
    fun off => ?_, fun shadow locked clear passed => ?_, fun other => ?_, ?_, fun there size runs' due => ?_, rfl⟩
  · have lose : s.portLostDue p = true := by rw [due, answers, gone]; rfl
    have away : (1 - p.val) ≠ p.val := by omega
    have up : ((((s.dropPort p .down).modPort p fun e => { e with locked := false }).raiseFlag (Reg.ethFlags p) 0).raiseEvent 0x0101 0x05
        (BitVec.ofNat 32 p)).portUp (1 - p.val) = s.portUp (1 - p.val) := by
      obtain ⟨-, r, b, k, c, q, m, noted⟩ := State.Noted.raiseEvent (((s.dropPort p .down).modPort p fun e =>
        { e with locked := false }).raiseFlag (Reg.ethFlags p) 0) 0x0101 0x05 (BitVec.ofNat 32 p)
      have state := State.dropPort_state hi p .down away
      unfold State.portUp
      rw [← state, noted]
      exact congrArg (fun x : EthPort => decide (x.state = .up)) (State.port_modPort_ne _ away)
    refine (good (if_pos lose)).trans (good ?_)
    rw [← up]
    rfl
  · refine good (if_neg ?_)
    rw [due]
    rcases calm with h | h <;> simp [h]
  · rw [← since]
    exact good (if_pos locked)
  · rw [← since, ← runs]
    exact good (if_pos locked)
  · exact good (if_neg (by rw [unlocked]; decide))
  · exact good (if_neg (by rw [unlocked]; decide))
  · have seek : ¬ (s.ethMode p = 2 ∨ ¬ s.portsRun = true ∨ (s.port p).locked = true) := by
      have open' : (s.port p).locked = false := unlocked
      simp [mode, runs', open']
    obtain ⟨back, hb⟩ : ∃ t, (s.modPort p fun e =>
      { e with locked := true, lossFrom := none, badRun := 0, shadowFrom := s.beat, aligned := true }) = t := ⟨_, rfl⟩
    have inv : back.Inv := hb ▸ State.modPort_inv _ _ (fun _ h => h) hi
    have mine : back.port p = { e with locked := true, lossFrom := none, badRun := 0, shadowFrom := s.beat, aligned := true } :=
      hb ▸ State.port_modPort_self (hi.ports_length.symm ▸ p.isLt) _
    have align : s.alignPort p = if e.state = .up then back.shadePort p
        else if e.aligned then back.modPort p fun e => { e with state := .shadow } else back.bringUp p := by
      subst hb
      exact if_neg seek
    have quiet : s.portAnswers p = false → e.state ≠ .up := fun silent up => by
      unfold State.portAnswers at silent
      simp [show (s.port p).state = .up from up] at silent
    dsimp only
    rw [hb]
    refine ⟨fun shadow before => ?_, fun up => ?_, fun silent before => ?_, fun silent first => ?_⟩
    · exact good (align.trans ((if_neg (by simp [shadow])).trans (if_pos before)))
    · have shade := State.shadePort_port inv p
      have others := fun h {i} => State.shadePort_others (s := back) (p := p.val) h (i := i)
      refine ⟨_, good (align.trans (if_pos up)), ?_⟩
      rw [shade, mine]
      refine ⟨rfl, rfl, rfl, rfl, fun still q ne => ?_⟩
      rw [others (by rw [mine]; exact still) ne, ← hb, State.port_modPort_ne _ ne]
    · exact good (align.trans ((if_neg (quiet silent)).trans (if_pos before)))
    · obtain ⟨state, locked, phase⟩ := State.bringUp_marks inv p
      refine ⟨_, good (align.trans ((if_neg (quiet silent)).trans (if_neg (by simp [first])))), state, ?_, fun link => phase ?_⟩
      · rw [locked, mine]
      · rw [← hb]
        exact link
  · refine good (if_pos ?_)
    rcases off with h | h
    · exact .inl h
    · exact .inr (.inl (by simp [h]))
  · have ready : s.portUpDue p = true := decide_eq_true ⟨shadow, locked, since.trans clear, passed⟩
    exact good (if_pos ready)
  · have early : ¬ s.portUpDue p = true := by
      intro h
      obtain ⟨shadow, -⟩ := of_decide_eq_true h
      exact other shadow
    exact good (if_neg early)
  · have polls := State.polls_iff s p
    have poll := State.exec_modulePoll s p present alarms
    refine ⟨fun due there => ?_, fun due absent => ?_, fun early => poll.trans (good (if_neg fun h => early (polls.mp h)))⟩
    · exact poll.trans (good ((if_pos (polls.mpr due)).trans (if_pos there)))
    · have dark : (s.polled p present alarms).Inv := State.modPort_inv _ _ (fun _ h => h) hi
      have out : ((s.polled p present alarms).port p).modPresent = false := by
        unfold State.polled
        rw [State.port_modPort_self (hi.ports_length.symm ▸ p.isLt)]
        exact absent
      obtain ⟨r, fields, mine⟩ := State.mirror_dark dark p out
      refine ⟨_, poll.trans (good ((if_pos (polls.mpr due)).trans (if_neg (by simp [absent])))), ?_, mine⟩
      rw [fields]
      rfl
  · have mirrors : s.mirrorDue p = true := by
      unfold State.mirrorDue
      rw [runs', decide_eq_true due]
      rfl
    obtain ⟨r, fields, mine, others⟩ := State.mirror_lit hi p there size
    refine ⟨_, good (if_pos mirrors), ?_, fun k hk => ?_, fun a ha => ?_⟩
    · rw [fields]
      rfl
    · rw [State.getReg_modPort, mine k hk]
    · rw [State.getReg_modPort, others a ha]

end Sys2Proof.Machine
end

section
/-! PROOF. Frames that are no requests (R34-R38, R85, R86). -/

namespace Sys2Proof.Machine

namespace State

/-- A frame that arrives changes neither the beat nor the mode of its port (R86). -/
theorem rxFrame_keeps {s : State} (hi : s.Inv) (p : Port) (len q : Nat) :
    (s.rxFrame p len q).1.beat = s.beat ∧ (s.rxFrame p len q).1.ethMode p = s.ethMode p := by
  let Keeps (t : State) : Prop := t.Inv ∧ t.beat = s.beat ∧ t.getReg (Reg.ethCtrl p) = s.getReg (Reg.ethCtrl p)
  have enough : ∀ {t}, Keeps t → t.beat = s.beat ∧ t.ethMode p = s.ethMode p := fun ⟨_, beat, reg⟩ => ⟨beat, congrArg (fld · 5 4) reg⟩
  have modPort : ∀ {t} (g : EthPort → EthPort), (∀ e : EthPort, e.Sized → (g e).Sized) → Keeps t → Keeps (t.modPort p g) :=
    fun g hg ⟨inv, beat, reg⟩ => ⟨modPort_inv _ _ hg inv, beat, reg⟩
  have counted : Keeps (s.addReg64 (Reg.ethRxFramesLo p) 1) := by
    refine ⟨addReg64_inv _ _ hi, rfl, getReg_setReg64_other _ _ ?_ ?_⟩ <;> simp only [Reg.ethCtrl, Reg.ethRxFramesLo] <;> omega
  have dropped : ∀ {t}, Keeps t → Keeps ((t.satReg (Reg.ethRxDrop p)).raiseFlag (Reg.ethFlags p) 2) := by
    intro t ⟨inv, beat, reg⟩
    have sat : (t.satReg (Reg.ethRxDrop p)).getReg (Reg.ethCtrl p) = t.getReg (Reg.ethCtrl p) ∧ (t.satReg (Reg.ethRxDrop p)).beat = t.beat := by
      unfold satReg
      split
      · exact ⟨rfl, rfl⟩
      · exact ⟨getReg_setReg_other _ _ (by simp only [Reg.ethCtrl, Reg.ethRxDrop]; omega), rfl⟩
    obtain ⟨satReg, satBeat⟩ := sat
    refine ⟨raiseFlag_inv _ _ (satReg_inv _ inv), satBeat.trans beat, (getReg_raiseFlag_ne (satReg_inv _ inv) ?_ ?_).trans (satReg.trans reg)⟩
    · simp only [Reg.ethCtrl, Reg.ethFlags]
      omega
    · rw [flagCntAddr_low (by decide)]
      simp only [Reg.ethCtrl, Reg.ethFlags]
      omega
  have sent : ∀ {t} f, Keeps t → Keeps (t.sendFrame p f) := by
    intro t f ⟨inv, beat, reg⟩
    obtain ⟨⟨regs, e, r, b, fields⟩, -⟩ := sendFrame_marks inv p.isLt f
    refine ⟨sendFrame_inv _ _ inv, ?_, (regs _ ?_).trans reg⟩
    · rw [fields]
      exact beat
    · rintro ⟨i, hi, h⟩
      simp only [Reg.ethCtrl, Reg.ethClasscDrop, Reg.ethFlags] at h
      omega
  have heard := modPort (fun e => if e.badRun = 0 then e else { e with badRun := 0, lossFrom := if e.locked then none else e.lossFrom })
    (fun e h => by split <;> exact h) counted
  refine enough (show Keeps _ from ?_)
  unfold rxFrame
  split
  · exact ⟨hi, rfl, rfl⟩
  · dsimp only
    split
    · exact dropped heard
    · have held := modPort (fun e => { e with ingress := e.ingress.modify q (· + len) })
        (fun e ⟨ingress, rest⟩ => ⟨(List.length_modify ..).trans ingress, rest⟩) heard
      split
      · exact modPort _ (fun e ⟨ingress, xoff, rest⟩ => ⟨ingress, (List.length_set ..).trans xoff, rest⟩) (sent _ held)
      · exact held

/-- Whether a frame's tag is accepted (R38). -/
theorem vlanTakes_iff (s : State) (t : Option Nat) : s.vlanTakes t = true ↔
    match t with
    | none => True
    | some x => if bit (s.netVal Reg.netVlan) 15 then x = fld (s.netVal Reg.netVlan) 11 0 else x = 0 := by
  unfold vlanTakes
  cases t with
  | none => simp
  | some x =>
    dsimp only
    split <;> simp

/-- What the headers of a datagram must be (R36). -/
theorem headOk_iff (six : Bool) (h : RxHead) :
    headOk (!six) h = true ↔ h.fragment = false ∧ if six then h.extension = false else h.ihl = 5 := by
  unfold headOk
  cases six <;> simp

end State

/-- Settles O36. -/
theorem framesOtherThanRequests : Obligations.FramesOtherThanRequests := by
  intro s f p a h c quanta ip ip6 tag len v6 data hi d v fits mine whole pfc limit n
  have good : ∀ {t u : State}, t = u → Host.Outcome.next t = (.next u : Res) := congrArg Host.Outcome.next
  have takes : ∀ t, s.vlanTakes t = true ↔ fits t := s.vlanTakes_iff
  refine ⟨fun due => good (if_pos due), fun answers on above none => ?_, fun idle => good (if_neg (by simp [idle])),
    fun due => good (if_pos due), fun idle => good (if_neg (by simp [idle])),
    fun arrives => ⟨fun on => ?_, fun off => ?_, ?_, fun long => ?_, fun wrong => ?_, fun long => ?_, fun short wrong => ?_⟩,
    fun arrives => ⟨fun nonzero own => ?_, fun other => ?_⟩, fun arrives => ⟨fun own sound => ?_, fun other => ?_⟩,
    fun arrives => ⟨fun own up sound => ?_, fun other => ?_⟩, fun right => ?_, fun short => ?_⟩
  · unfold State.xoffRepeatDue
    dsimp only
    rw [answers, on, decide_eq_true above, none]
    rfl
  · have kept := State.rxFrame_keeps hi p 0 0
    rw [arrives] at kept
    obtain ⟨beat, mode⟩ := kept
    show execPfcFrameReceive p c quanta s = _
    unfold execPfcFrameReceive
    rw [arrives]
    dsimp only
    rw [on, if_pos (by rfl), beat, mode]
  · show execPfcFrameReceive p c quanta s = _
    unfold execPfcFrameReceive
    rw [arrives]
    dsimp only
    rw [off, if_neg (by decide)]
  · show execPauseFrameDiscard p s = _
    unfold execPauseFrameDiscard
    rw [arrives]
    rfl
  · show execOversizeDiscard p len s = _
    unfold execOversizeDiscard
    rw [if_pos long, arrives]
    rfl
  · show execVlanDiscard p tag s = _
    unfold execVlanDiscard
    rw [if_neg (fun h => wrong ((takes _).mp h)), arrives]
    rfl
  · unfold State.macTakes
    rw [arrives]
    exact if_pos long
  · unfold State.macTakes
    rw [arrives]
    exact (if_neg (Nat.not_lt.mpr short)).trans (if_neg (fun h => wrong ((takes _).mp h)))
  · have mine : f.ownV4 ip = true := by
      unfold State.ownV4
      rw [own, bne_iff_ne.mpr nonzero, beq_self_eq_true]
      rfl
    show execArpRequest p ⟨a, h⟩ ip s = _
    unfold execArpRequest
    rw [arrives]
    dsimp only
    rw [mine]
    rfl
  · have foreign : f.ownV4 ip = false := by
      unfold State.ownV4
      rcases other with h | h <;> simp [h]
    show execArpRequest p ⟨a, h⟩ ip s = _
    unfold execArpRequest
    rw [arrives]
    dsimp only
    rw [foreign, if_neg (by decide)]
  · have ok : State.headOk false h = true := (State.headOk_iff true h).mpr sound
    show execNeighborSolicitation p ⟨a, h⟩ ip6 s = _
    unfold execNeighborSolicitation
    rw [arrives]
    dsimp only
    rw [ok, own]
    rfl
  · have bad : (true && State.headOk false h && f.ownV6 p ip6) = false := by
      rcases other with h' | h'
      · rw [h', Bool.and_false]
      · have off : State.headOk false h = false := Bool.eq_false_iff.mpr fun c => h' ((State.headOk_iff true h).mp c)
        rw [off]
        rfl
    show execNeighborSolicitation p ⟨a, h⟩ ip6 s = _
    unfold execNeighborSolicitation
    rw [arrives]
    dsimp only
    rw [bad, if_neg (by decide)]
  · have ok : (true && State.headOk (!v6) h && mine && decide (f.rst.phase ≠ .recovery)) = true := by
      rw [(State.headOk_iff v6 h).mpr sound, own, decide_eq_true up]
      rfl
    show execEchoRequest p ⟨a, h⟩ v6 ip6 data s = _
    unfold execEchoRequest
    rw [arrives]
    exact good (if_pos ok)
  · have bad : ¬ (true && State.headOk (!v6) h && mine && decide (f.rst.phase ≠ .recovery)) = true := by
      rw [Bool.and_eq_true, Bool.and_eq_true, Bool.and_eq_true, State.headOk_iff, decide_eq_true_eq]
      rintro ⟨⟨⟨-, sound⟩, own⟩, up⟩
      rcases other with h' | h' | h'
      · exact Bool.false_ne_true (h'.symm.trans own)
      · exact up h'
      · exact h' sound
    show execEchoRequest p ⟨a, h⟩ v6 ip6 data s = _
    unfold execEchoRequest
    rw [arrives]
    exact good (if_neg bad)
  · exact good (if_pos ((takes _).mpr right))
  · exact good (if_neg (Nat.not_lt.mpr short))

end Sys2Proof.Machine
end

section
/-! PROOF. The order in which a request frame is judged (R36, R50, R52, R54-R56, R86). -/

namespace Sys2Proof.Machine

namespace State

/-- What a register reads as does not depend on the answers of the beat. -/
theorem readWord_answers (s : State) (c : Nat) (r : List OpResp) (h : RegHit) (a : Nat) :
    ({ s with curPort := c, resp := r } : State).readWord h a = s.readWord h a := by
  unfold readWord
  rfl

/-! ### The MAC -/

/-- A frame that arrives leaves its port's state (R63, R86). -/
theorem rxFrame_state {s : State} (hi : s.Inv) (p : Port) (len q : Nat) : ((s.rxFrame p len q).1.port p).state = (s.port p).state := by
  let Keeps (t : State) : Prop := t.Inv ∧ (t.port p).state = (s.port p).state
  have modPort : ∀ {t} (g : EthPort → EthPort), (∀ e : EthPort, e.Sized → (g e).Sized) → (∀ e, (g e).state = e.state) →
      Keeps t → Keeps (t.modPort p g) := by
    intro t g hg same ⟨inv, state⟩
    refine ⟨modPort_inv _ _ hg inv, ?_⟩
    rw [port_modPort_self (inv.ports_length.symm ▸ p.isLt), same]
    exact state
  have dropped : ∀ {t}, Keeps t → Keeps ((t.satReg (Reg.ethRxDrop p)).raiseFlag (Reg.ethFlags p) 2) := by
    intro t ⟨inv, state⟩
    refine ⟨raiseFlag_inv _ _ (satReg_inv _ inv), ?_⟩
    rw [← state]
    unfold satReg
    split <;> rfl
  have sent : ∀ {t} f, Keeps t → Keeps (t.sendFrame p f) := by
    intro t f ⟨inv, state⟩
    obtain ⟨inv', -, port⟩ := (PushesMove.refl inv).sendFrame p.isLt f
    obtain ⟨g, c, e⟩ := port p
    refine ⟨inv', ?_⟩
    rw [e]
    exact state
  have counted : Keeps (s.addReg64 (Reg.ethRxFramesLo p) 1) := ⟨addReg64_inv _ _ hi, rfl⟩
  have heard := modPort (fun e => if e.badRun = 0 then e else { e with badRun := 0, lossFrom := if e.locked then none else e.lossFrom })
    (fun e h => by split <;> exact h) (fun e => by split <;> rfl) counted
  have enough : Keeps (s.rxFrame p len q).1 := by
    unfold rxFrame
    split
    · exact ⟨hi, rfl⟩
    · dsimp only
      split
      · exact dropped heard
      · have held := modPort (fun e => { e with ingress := e.ingress.modify q (· + len) })
          (fun e ⟨ingress, rest⟩ => ⟨(List.length_modify ..).trans ingress, rest⟩) (fun _ => rfl) heard
        split
        · exact modPort _ (fun e ⟨ingress, xoff, rest⟩ => ⟨ingress, (List.length_set ..).trans xoff, rest⟩) (fun _ => rfl) (sent _ held)
        · exact held
  exact enough.2

/-- A frame that is taken comes on a port that answers (R63). -/
theorem rxFrame_answers {s f : State} {p : Port} {len q : Nat} (hi : s.Inv) (h : s.rxFrame p len q = (f, true)) :
    f.portAnswers p = true := by
  have state := rxFrame_state hi p len q
  have answers : s.portAnswers p = true := by
    by_contra silent
    unfold rxFrame at h
    rw [if_pos silent] at h
    exact Bool.false_ne_true (congrArg Prod.snd h)
  rw [h] at state
  unfold portAnswers at answers ⊢
  rw [state]
  exact answers

theorem macTakes_answers {s f : State} {p : Port} {x : RxHead} {len : Nat} (hi : s.Inv) (h : s.macTakes p x len = (f, true)) :
    f.portAnswers p = true := by
  by_cases long : (if s.jumbo p then 9216 else 1522) < len + (if x.tag.isSome then 4 else 0)
  · refine absurd (congrArg Prod.snd h) ?_
    unfold macTakes
    dsimp only
    rw [if_pos long]
    exact Bool.false_ne_true
  · by_cases right : s.vlanTakes (x.tag.map fun t => fld t 11 0) = true
    · unfold macTakes at h
      dsimp only at h
      rw [if_neg long, if_pos right] at h
      exact rxFrame_answers hi h
    · refine absurd (congrArg Prod.snd h) ?_
      unfold macTakes
      dsimp only
      rw [if_neg long, if_neg right]
      exact Bool.false_ne_true

/-- A request that the MAC takes is read in its order (R36, R50). -/
theorem receive_ordered {s f : State} {p : Port} {a : PushAddr} {x : RxHead} {m : List Byte} (takes : s.macTakes p x (frameLen a m) = (f, true))
    (head : a.raw = true ∨ (x.fragment = false ∧ (if isV4 a.ip then x.ihl = 5 else x.extension = false) ∧ udpOk a x.checksum m = true))
    (ver : leAt m 1 1 = 0) : exec (.rcpRequest p ⟨a, x⟩ m) s =
      .next (f.ordered p a (f.rxPrio x.tag) (frameLen a m + (if x.tag.isSome then 4 else 0)) m) := by
  have sound : (a.raw || (headOk (isV4 a.ip) x && udpOk a x.checksum m)) = true := by
    unfold headOk
    rcases head with h | ⟨whole, ip, udp⟩
    · rw [h]
      rfl
    · rw [whole, udp]
      revert ip
      cases isV4 a.ip <;> simp +contextual
  show Host.Outcome.next (s.receive p a x m) = _
  unfold receive
  rw [takes]
  dsimp only
  rw [if_neg (by simp [sound]), if_neg (by simp [ver])]

/-! ### The session of a frame -/

/-- A frame that is noted changes neither what its session has executed nor who it is (R57, R58). -/
theorem noteFrame_keeps {s : State} (hi : s.Inv) {u : Nat} (small : u < 8) (p : Nat) (a : Option PushAddr) (i : Nat) :
    ((s.noteFrame u p a).session i).executed = (s.session i).executed ∧ ((s.noteFrame u p a).session i).isOpen = (s.session i).isOpen ∧
      (s.noteFrame u p a).ports = s.ports ∧ (s.noteFrame u p a).regs = s.regs ∧ (s.noteFrame u p a).netNow = s.netNow := by
  obtain ⟨r, noted⟩ := regainPushes_rings s (s.modSess u fun x =>
    { x with lastFrame := s.beat, addr0 := if p = 0 then a.or x.addr0 else x.addr0, addr1 := if p = 0 then x.addr1 else a.or x.addr1 })
  have run : s.noteFrame u p a = { (s.modSess u fun x => { x with
    lastFrame := s.beat, addr0 := if p = 0 then a.or x.addr0 else x.addr0, addr1 := if p = 0 then x.addr1 else a.or x.addr1 }) with rings := r } :=
    noted
  have mine : ∃ l x y, (s.noteFrame u p a).session i = { s.session i with lastFrame := l, addr0 := x, addr1 := y } := by
    rw [run]
    by_cases e : i = u
    · subst e
      exact ⟨_, _, _, session_modSess_self (hi.sess_length.symm ▸ small) _⟩
    · exact ⟨_, _, _, session_modSess_ne _ e⟩
  obtain ⟨l, x, y, e⟩ := mine
  rw [e]
  refine ⟨rfl, rfl, ?_, ?_, ?_⟩ <;> rw [run] <;> rfl

/-- A frame that is noted is judged as it would have been before (R54, R55, R59). -/
theorem noted_judged {f g : State} (hi : f.Inv) {p : Nat} {a : PushAddr} {h : Header}
    (noted : g = if h.sess < 8 then f.noteFrame h.sess p (some a) else f) :
    g.Inv ∧ g.maxLen p = f.maxLen p ∧ g.inWindow h.sess h.seq = f.inWindow h.sess h.seq ∧
      (if h.sess < 8 then g.firstPort h.sess h.seq else none) = (if h.sess < 8 then f.firstPort h.sess h.seq else none) ∧
      g.ports = f.ports ∧ g.netNow = f.netNow ∧ g.regs = f.regs ∧ (h.sess < 8 → (g.session h.sess).isOpen = (f.session h.sess).isOpen) := by
  by_cases small : h.sess < 8
  · rw [if_pos small] at noted
    obtain ⟨executed, isOpen, ports, regs, net⟩ := noteFrame_keeps hi small p (some a) h.sess
    rw [← noted] at executed isOpen ports regs net
    have reg : ∀ a, g.getReg a = f.getReg a := fun a => congrArg (Cells.get resetWord · a) regs
    refine ⟨noted ▸ noteFrame_inv _ _ _ hi, ?_, ?_, ?_, ports, net, regs, fun _ => isOpen⟩
    · unfold maxLen jumbo regBit
      rw [reg]
    · unfold inWindow lastSeq
      rw [reg]
    · unfold firstPort
      rw [executed]
  · rw [if_neg small] at noted
    subst noted
    exact ⟨hi, rfl, rfl, rfl, rfl, rfl, rfl, fun _ => rfl⟩

/-- A request that waits for nothing and whose format is right is judged (R50, R56). -/
theorem ordered_read {f : State} {p : Nat} {a : PushAddr} {q l : Nat} {m : List Byte} {bs : List Block}
    (free : ¬ (f.inFrame p = true ∨ f.held.any (fun y => y.port == p) = true)) (read : readRequest m = some bs) :
    f.ordered p a q l m = f.request p a m (readHeader m) bs := by
  unfold ordered
  rw [if_neg free, read]

section
variable {f g : State} {p : Nat} {a : PushAddr} {m : List Byte} {h : Header} {bs : List Block} (hi : f.Inv)
  (noted : g = if h.sess < 8 then f.noteFrame h.sess p (some a) else f) (short : h.len ≤ f.maxLen p) (own : f.authOk h bs = true)
include hi noted short own

/-- A request whose SEQ its session has executed is a duplicate (R55). -/
theorem request_duplicate {q : Nat} (first : (if h.sess < 8 then f.firstPort h.sess h.seq else none) = some q) :
    f.request p a m h bs = g.duplicate p q a h := by
  obtain ⟨-, -, -, same, -⟩ := noted_judged hi noted
  unfold request
  rw [if_neg (Nat.not_lt.mpr short), if_neg (by simp [own]), ← noted]
  dsimp only
  rw [same, first]

/-- A request whose SEQ its session has not executed is judged by its window and the length of its answer (R50, R54). -/
theorem request_new (first : (if h.sess < 8 then f.firstPort h.sess h.seq else none) = none) :
    f.request p a m h bs = if h.sess < 8 ∧ ¬ f.inWindow h.sess h.seq = true then g.reject p a h .eSeq false
      else if f.maxLen p < responseLen bs then g.reject p a h .eCapacity false else g.runFrame p a m h := by
  obtain ⟨-, len, window, same, -⟩ := noted_judged hi noted
  unfold request
  rw [if_neg (Nat.not_lt.mpr short), if_neg (by simp [own]), ← noted]
  dsimp only
  rw [same, first]
  dsimp only
  rw [window, len]

end

/-! ### A READ alone in its frame -/

/-- What a READ of a register that is no part of a 64-bit one answers (R46). -/
theorem opRead_single {s : State} {u : Nat} {a : Word} {h : RegHit} (found : findAt a.toNat = .ok h) (alone : h.desc.pair = 0) :
    s.opRead u a = (opResp 0x01 a .ok 1 (leBytes 4 (s.readWord h a.toNat).toNat), s.modSess u fun x => { x with snapOf := none }) := by
  have value : s.readReg u a.toNat = (.ok, s.readWord h a.toNat, s.modSess u fun x => { x with snapOf := none }) := by
    unfold readReg
    rw [found]
    dsimp only
    rw [if_neg (by omega), if_neg (by omega)]
  unfold opRead
  rw [value]

/-- The one operation of a frame that holds a READ (R46, R52). -/
theorem runBlocks_read {g : State} {h : Header} {b : Block} {hit : RegHit} (small : h.sess < 8) (isOpen : (g.session h.sess).isOpen = true)
    (one : b.op = 0x01) (count : b.count = 1) (body : b.body = []) (found : findAt b.addr.toNat = .ok hit) (alone : hit.desc.pair = 0)
    (c : FrameRun) : runBlocks { g with curPort := c.port, resp := [] } c h [b] =
      respond { (g.modSess h.sess fun x => { x with snapOf := none }) with
        curPort := c.port
        resp := [{ op := 0x01, addr := b.addr, count := 1, body := leBytes 4 (g.readWord hit b.addr.toNat).toNat }] }
        c.port c.addr h c.free := by
  have named : h.sess ≠ 0xFF := by omega
  have other : blockJob h.sess b = none := by
    unfold blockJob
    rw [if_neg (by rw [one]; omega), if_neg (by rw [one]; omega)]
  have heard : (decide (h.sess = 0xFF) || (({ g with curPort := c.port, resp := [] } : State).session h.sess).isOpen) = true := by
    rw [show (({ g with curPort := c.port, resp := [] } : State).session h.sess).isOpen = true from isOpen, Bool.or_true]
  have done : ∀ n : State, n.sessionBlock c.port h.sess b =
      (opResp 0x01 b.addr .ok 1 (leBytes 4 (n.readWord hit b.addr.toNat).toNat), n.modSess h.sess fun x => { x with snapOf := none }) := by
    intro n
    unfold sessionBlock
    dsimp only
    rw [one, count, body]
    exact (if_pos (by decide)).trans (opRead_single found alone)
  unfold runBlocks
  dsimp only
  rw [heard, other, ite_self]
  dsimp only
  rw [if_neg named, if_pos rfl, done, readWord_answers]
  rfl

/-- The response to a frame whose one operation was a READ (R43, R44). -/
theorem respond_read {s : State} {h : Header} {addr : Word} {w : List Byte} (small : h.sess < 8) (speaks : h.flags.testBit 1 = false)
    (resp : s.resp = [{ op := 0x01, addr := addr, count := 1, body := w }]) (p : Nat) (a : PushAddr) (free : Nat) :
    ∃ t, t = s.keepResponse h.sess p h.seq {
        cls := .response, sess := BitVec.ofNat 8 h.sess, seq := h.seq, tag := h.tag, dest := some a
        ops := [{ op := 0x01, addr := addr, count := 1, body := w }] } ∧
      s.respond p a h free = t.sendFrame p {
        cls := .response, sess := BitVec.ofNat 8 h.sess, seq := h.seq, tag := h.tag, dest := some a
        ops := [{ op := 0x01, addr := addr, count := 1, body := w }] } := by
  refine ⟨_, rfl, ?_⟩
  unfold respond
  dsimp only
  rw [speaks, if_neg (fun c => Bool.false_ne_true c.1), resp]
  exact congrArg (fun x : State => x.sendFrame p _) (if_pos small)

end State

/-- Settles O37. -/
theorem requestsAreJudgedInOrder : Obligations.RequestsAreJudgedInOrder := by
  intro s f p a x m hi takes head ver h busy does g old
  have order := State.receive_ordered takes head ver
  have fi : f.Inv := by
    have inv := State.macTakes_inv p x (frameLen a m) hi
    rwa [takes] at inv
  have judged : ∀ {bs t}, ¬ busy → readRequest m = some bs → f.request p a m h bs = t → does t := fun free read ht =>
    order.trans (congrArg Host.Outcome.next ((State.ordered_read free read).trans ht))
  refine ⟨fun wait => ?_, fun free bad => ?_, fun free bs read => ⟨fun long => ?_, fun short foreign => ?_, fun short own =>
    ⟨fun y first other => ?_, fun first => ?_, fun new small beyond => ?_, fun new inside long => ?_, fun new inside fits => ?_,
      fun b hit new small inside one op count body found alone answer => ?_⟩⟩⟩
  · exact order.trans (congrArg Host.Outcome.next (if_pos wait))
  · refine order.trans (congrArg Host.Outcome.next ((if_neg free).trans ?_))
    rw [bad]
  · exact judged free read (if_pos long)
  · exact judged free read ((if_neg (Nat.not_lt.mpr short)).trans (if_pos (Bool.eq_false_iff.mp foreign)))
  · exact judged free read ((State.request_duplicate fi rfl short own first).trans (if_pos other))
  · refine ⟨fun y kept => judged free read ((State.request_duplicate fi rfl short own first).trans ?_), fun kept =>
      judged free read ((State.request_duplicate fi rfl short own first).trans ?_)⟩
    · unfold State.duplicate
      rw [if_neg (by simp), kept]
    · unfold State.duplicate
      rw [if_neg (by simp), kept]
  · refine judged free read ((State.request_new fi rfl short own new).trans (if_pos ⟨small, ?_⟩))
    exact Bool.eq_false_iff.mp beyond
  · refine judged free read ((State.request_new fi rfl short own new).trans ((if_neg ?_).trans (if_pos long)))
    exact fun c => c.2 (inside c.1)
  · refine judged free read ((State.request_new fi rfl short own new).trans ((if_neg ?_).trans (if_neg (Nat.not_lt.mpr fits))))
    exact fun c => c.2 (inside c.1)
  · obtain ⟨gi, -, -, -, ports, net, regs, same⟩ := State.noted_judged (g := g) (h := h) (p := p) (a := a) fi rfl
    have mine : (f.session h.sess).isOpen = true := by
      unfold State.authOk at own
      rw [if_neg (by omega)] at own
      simp only [Bool.and_eq_true] at own
      exact own.1.2
    have fits : responseLen bs ≤ f.maxLen p := by
      have short : responseLen bs = 36 := by
        rw [one]
        unfold responseLen
        simp [op]
      rw [short]
      unfold State.maxLen
      split <;> omega
    have ni : (g.noteSeq h.sess p h.seq).Inv := State.noteSeq_inv _ _ _ gi
    have open' : ((g.noteSeq h.sess p h.seq).session h.sess).isOpen = true := by
      refine (congrArg Sess.isOpen (State.session_modSess_self ?_ _)).trans ((same small).trans mine)
      exact gi.sess_length.symm ▸ small
    let c : FrameRun := { port := p, addr := a, msg := m, free := g.sess.findIdx fun x => !x.isOpen }
    have run : g.runFrame p a m h = State.runBlocks { g.noteSeq h.sess p h.seq with curPort := c.port, resp := [] } c h [b] := by
      unfold State.runFrame State.goOn
      rw [if_pos small]
      dsimp only
      rw [read, one]
      rfl
    obtain ⟨t, kept, sent⟩ := State.respond_read small answer
      (s := { ((g.noteSeq h.sess p h.seq).modSess h.sess fun x => { x with snapOf := none }) with
        curPort := c.port
        resp := [{ op := 0x01, addr := b.addr, count := 1
                   body := leBytes 4 ((g.noteSeq h.sess p h.seq).readWord hit b.addr.toNat).toNat }] }) rfl c.port c.addr c.free
    rw [State.runBlocks_read small open' op count body found alone c, sent] at run
    have ti : t.Inv := by
      rw [kept]
      exact State.keepResponse_inv _ _ _ _ (.upd (State.modSess_inv _ _ ni) rfl)
    have answers : g.portAnswers p = true := by
      have heard := State.macTakes_answers hi takes
      unfold State.portAnswers State.port at heard ⊢
      rwa [ports]
    obtain ⟨-, queued⟩ := State.queued_after (s := g) ti p {
      cls := .response, sess := BitVec.ofNat 8 h.sess, seq := h.seq, tag := h.tag, dest := some a
      ops := [{ op := 0x01, addr := b.addr, count := 1
                body := leBytes 4 ((g.noteSeq h.sess p h.seq).readWord hit b.addr.toNat).toNat }] }
      (by rw [kept]; rfl) answers nofun (by
        rw [kept]
        exact State.getReg_setReg_other _ _ (by simp only [Reg.ethPfcMap, Reg.sessLastSeq]; omega)) (by rw [kept]; rfl)
    refine ⟨_, judged free read ((State.request_new fi rfl short own new).trans ((if_neg ?_).trans
      ((if_neg (Nat.not_lt.mpr fits)).trans run))), queued⟩
    exact fun c => c.2 inside

end Sys2Proof.Machine
end

section
/-! PROOF. Pushes of results, credits and event records (R73, R77, R78, R82, R83, R107). -/

namespace Sys2Proof.Machine

namespace State

/-- A push of a session that one port carries, when it is not of class C (R59, R83). -/
theorem sendPush_one {s : State} (hi : s.Inv) {u : Nat} (hu : u < 8) {c : TxClass} (hc : c ≠ .classC) {q : Nat} (one : s.pushPorts u = [q])
    (ops : List OpResp) : ∃ t, s.sendPush u c ops = t ∧ t.Inv ∧ s.Queued t q (s.pushFrame u c ops q) ∧
      t.session u = { s.session u with pushSeq := (s.session u).pushSeq + 1 } ∧ (∀ i, i ≠ u → t.session i = s.session i) ∧
      ∃ e l, t = { s with ports := e, sess := l } := by
  obtain ⟨t, run, inv, -, queued, sess, -, -⟩ := sendPush_marks hi hu c ops
  refine ⟨t, run, inv, queued q (by rw [one]; simp) (.inl hc), sess (by rw [one]; simp), ?_⟩
  obtain ⟨sound, -⟩ := s.pushPorts_sound u
  obtain ⟨-, answers⟩ := sound q (by rw [one]; simp)
  have sent : ∀ f : OutFrame, f.cls = c → ∃ e, s.sendFrame q f = { s with ports := e } := by
    intro f hf
    unfold sendFrame
    rw [if_neg (by simp [answers]), if_neg (by simp [hf, hc])]
    exact ⟨_, rfl⟩
  rw [← run]
  unfold sendPush
  rw [one]
  obtain ⟨e, step⟩ := sent (s.pushFrame u c ops q) rfl
  have steps := congrArg (fun x : State => x.modSess u fun x => { x with pushSeq := x.pushSeq + 1 }) step
  exact ⟨fun i ne => (congrArg (·.session i) steps).trans (session_modSess_ne _ ne), e, _, steps.trans rfl⟩

theorem resqSess_lt (s : State) (n : Nat) : s.resqSess n < 8 := fld_lt ..

/-- Without errors in memory a read of records changes nothing and returns their bytes (R440). -/
theorem records_sound {s : State} (whole : s.memu.damaged = []) : (∀ (n : Nat) (rs : List Rec),
    rs.foldl (fun s x => s.eccRead (recordAddr n x.idx) 32) s = s) ∧ ∀ a k, s.load a k = s.bytes a k := by
  have clean : ∀ a k, s.damageIn a k = [] := fun a k => by
    unfold damageIn
    rw [whole]
    rfl
  refine ⟨fun n rs => ?_, fun a k => ?_⟩
  · induction rs with
    | nil => rfl
    | cons r rs ih => rw [List.foldl_cons, eccRead_sound (clean _ _), ih]
  · unfold load
    rw [clean]
    rfl

/-- A RESULT frame of records without errors (R77). -/
theorem pushResults_eq {s : State} {n : Nat} (whole : s.memu.damaged = []) {r : Rec} {rest : List Rec}
    (taken : (s.pushable n).take (min (s.regFld (Reg.resqCtrl n) 16 8) (s.resultCap n)) = r :: rest) :
    s.pushResults n = (s.sendPush (s.resqSess n) .result [{
      op := 0x09, addr := BitVec.ofNat 32 n, count := (r :: rest).length
      body := leBytes 4 r.idx.toNat ++ (r :: rest).flatMap fun x => s.bytes (recordAddr n x.idx) 32 }]).modResq n fun q =>
        { q with pushed := r.idx + BitVec.ofNat 32 (r :: rest).length } := by
  obtain ⟨noRead, bytes⟩ := records_sound whole
  have body : ((r :: rest).flatMap fun x => s.load (recordAddr n x.idx) 32) = (r :: rest).flatMap fun x => s.bytes (recordAddr n x.idx) 32 :=
    congrArg (fun f => (r :: rest).flatMap f) (funext fun x => bytes _ _)
  unfold pushResults
  rw [taken]
  dsimp only
  rw [noRead, body]

/-- What a RESULT frame leaves of its queue (R77). -/
theorem pushResults_marks {s : State} (hi : s.Inv) (n : RingId) {q : Nat} (one : s.pushPorts (s.resqSess n) = [q])
    (whole : s.memu.damaged = []) {r : Rec} {rest : List Rec}
    (taken : (s.pushable n).take (min (s.regFld (Reg.resqCtrl n) 16 8) (s.resultCap n)) = r :: rest) :
    let t := s.pushResults n
    (t.resq n).pushed = r.idx + BitVec.ofNat 32 (r :: rest).length ∧ (t.resq n).recs = (s.resq n).recs ∧
      s.Queued t q (s.pushFrame (s.resqSess n) .result [{
        op := 0x09, addr := BitVec.ofNat 32 n, count := (r :: rest).length
        body := leBytes 4 r.idx.toNat ++ (r :: rest).flatMap fun x => s.bytes (recordAddr n x.idx) 32 }] q) ∧
      (t.session (s.resqSess n)).pushSeq = (s.session (s.resqSess n)).pushSeq + 1 ∧ t.regs = s.regs ∧ t.mem = s.mem := by
  have run := pushResults_eq (n := n.val) whole taken
  obtain ⟨t, sent, inv, queued, sess, -, e, l, fields⟩ := sendPush_one hi (s.resqSess_lt n) (c := .result) nofun one [{
    op := 0x09, addr := BitVec.ofNat 32 n, count := (r :: rest).length
    body := leBytes 4 r.idx.toNat ++ (r :: rest).flatMap fun x => s.bytes (recordAddr n x.idx) 32 }]
  rw [sent] at run
  have mine : ((s.pushResults n).resq n) = { t.resq n with pushed := r.idx + BitVec.ofNat 32 (r :: rest).length } := by
    rw [run]
    exact congrArg Ring.resq (ring_modRing_self inv.rings_length n.isLt _)
  have same : t.resq n = s.resq n := by rw [fields]; rfl
  dsimp only
  rw [mine, same, run]
  refine ⟨rfl, rfl, queued, congrArg Sess.pushSeq sess, ?_, ?_⟩ <;> rw [fields] <;> rfl

/-- A loop of which one turn has an effect (R82). -/
theorem forBelow_single {s t : State} {u k : Nat} {f : Nat → State → State} (hu : u < k) (here : f u s = t)
    (before : ∀ i, i ≠ u → f i s = s) (after : ∀ i, i ≠ u → f i t = t) : s.forBelow k f = t := by
  have upTo : ∀ k, s.forBelow k f = if u < k then t else s := by
    intro k
    induction k with
    | zero => rfl
    | succ k ih =>
      have next : s.forBelow (k + 1) f = f k (s.forBelow k f) := by
        unfold forBelow
        rw [List.range_succ, List.foldl_append]
        rfl
      rw [next, ih]
      rcases Nat.lt_trichotomy u k with h | h | h
      · rw [if_pos h, if_pos (by omega), after k (by omega)]
      · subst h
        rw [if_neg (by omega), if_pos (by omega), here]
      · rw [if_neg (by omega), if_neg (by omega), before k (by omega)]
  rw [upTo, if_pos hu]

/-- An event record goes to the one open session that admits it (R82). -/
theorem pushRecord_one {s : State} (w : Nat) (u : Sid) (alone : ∀ i, i ≠ u.val → (s.session i).isOpen = false)
    (isOpen : (s.session u).isOpen = true) (sev : s.regFld (Reg.sessCtrl u) 7 6 ≤ fld (s.getReg (Reg.evlog (w % 256) 1)) 23 16)
    {t : State} (sent : s.sendPush u .event [{
      op := 0x0A, count := 1, body := ofWords ((List.range 4).map fun k => s.getReg (Reg.evlog (w % 256) k)) }] = t)
    (others : ∀ i, i ≠ u.val → t.session i = s.session i) : s.pushRecord w = t := by
  unfold pushRecord
  refine forBelow_single u.isLt ((if_pos ⟨isOpen, sev⟩).trans sent) (fun i ne => if_neg ?_) fun i ne => if_neg ?_
  · rw [alone i ne]
    exact fun c => Bool.false_ne_true c.1
  · rw [others i ne, alone i ne]
    exact fun c => Bool.false_ne_true c.1

/-- A session whose pushes a port carries is open (R59). -/
theorem pushPorts_open {s : State} {u q : Nat} (one : s.pushPorts u = [q]) : (s.session u).isOpen = true := by
  by_contra shut
  unfold pushPorts at one
  rw [if_neg shut] at one
  cases one

end State

theorem exec_eventPush {s : State} {w : Nat} {rest : List Nat} (todo : s.evToPush = w :: rest) :
    exec .eventPush s = .next (State.pushRecord { s with evToPush := rest } w) := by
  show execEventPush s = _
  unfold execEventPush
  rw [todo]

theorem exec_eventPush_nil {s : State} (none : s.evToPush = []) : exec .eventPush s = .next s := by
  show execEventPush s = _
  unfold execEventPush
  rw [none]

/-- Settles O38. -/
theorem pushesAndEventRecords : Obligations.PushesAndEventRecords := by
  intro s n j q code src subj hi us uc rs
  have good : ∀ {t u : State}, t = u → Host.Outcome.next t = (.next u : Res) := congrArg Host.Outcome.next
  refine ⟨fun r rest due one whole taken => ?_, fun idle => good (if_neg (by simp [idle])), fun f o cls ops addr => ?_,
    fun due one => ?_, fun idle => good (if_neg (by simp [idle])), fun w rest u todo alone one sev => ?_, fun none => ?_,
    fun k b d key waits ended => ?_, fun idle => good (if_neg (by simp [idle]))⟩
  · have marks := State.pushResults_marks hi n one whole taken
    rw [show rs = r :: rest from taken]
    exact ⟨_, good (if_pos due), marks⟩
  · have low : n.val < 2 ^ 32 := by omega
    have here : o.addr.toNat = n.val := by
      rw [addr, BitVec.toNat_ofNat, Nat.mod_eq_of_lt low]
    unfold State.handedOver
    rw [ops]
    simp only [List.foldl_cons, List.foldl_nil, here, cls, true_and]
    rfl
  · obtain ⟨t, sent, inv, queued, -, -, e, l, fields⟩ := State.sendPush_one hi (u := uc) (fld_lt ..) (c := .event) nofun one [{
      op := 0x08, addr := BitVec.ofNat 32 (n.val + 256 * j.val), body := leBytes 4 (s.creditLimit n j).toNat }]
    have run : exec (.creditPush n j) s = .next (t.modStrm n j fun t => { t with creditDue := false, creditAt := some s.beat }) := by
      rw [← sent]
      exact good (if_pos due)
    have stream : ((t.modStrm n j fun t => { t with creditDue := false, creditAt := some s.beat }).strm n j) =
        { t.strm n j with creditDue := false, creditAt := some s.beat } := by
      obtain ⟨-, -, -, -, -, strm, -⟩ := inv.ring_sized n.isLt
      exact State.strm_modStrm_self inv.rings_length n.isLt (by rw [strm]; exact j.isLt) _
    refine ⟨_, run, by rw [stream], by rw [stream], ?_, queued⟩
    rw [fields]
    rfl
  · have si : ({ s with evToPush := rest } : State).Inv := .upd hi rfl
    obtain ⟨t, sent, inv, queued, -, others, e, l, fields⟩ := State.sendPush_one si u.isLt (c := .event) nofun (q := q) one [{
      op := 0x0A, count := 1, body := ofWords ((List.range 4).map fun k => s.getReg (Reg.evlog (w % 256) k)) }]
    have one' := State.pushRecord_one (s := { s with evToPush := rest }) w u alone (State.pushPorts_open one) sev sent others
    have run : exec .eventPush s = .next t := (exec_eventPush todo).trans (good one')
    refine ⟨t, run, ?_, ?_, queued⟩ <;> rw [fields]
  · exact exec_eventPush_nil none
  · have due : s.deferredDue code src subj = true := by
      refine List.any_eq_true.mpr ⟨k, List.mem_of_find?_eq_some key, ?_⟩
      have named := List.find?_some key
      rw [named, waits, decide_eq_true ended]
      rfl
    refine good ((if_pos due).trans ?_)
    obtain ⟨code', source, subject, lastAt, deferred⟩ := k
    have waits' : deferred = some (b, d) := waits
    subst waits'
    rw [key]

end Sys2Proof.Machine
end

section
/-! PROOF. A RESUME that a shutdown refuses (R184, R486). -/

namespace Sys2Proof.Machine

/-- Ring 0 runs with a halt pending while the device shuts down; port 0 is UP and session 7 is open. -/
def shuttingDown : State :=
  (((State.reset.modPort 0 fun e => { e with state := .up }).modSess 7 fun x => { x with isOpen := true }).modSeq 0 fun q =>
    { q with st := .running, haltPend := true }).modHk fun h => { h with shutAt := some 0 }

theorem shuttingDown_inv : shuttingDown.Inv :=
  State.modHk_inv _ (fun _ h => h) (State.modSeq_inv _ _ (State.modSess_inv _ _ (State.modPort_inv _ _ (fun _ h => h) resetIsSound)))

theorem findAt_seqCmd_lease : leaseOf (Reg.seqCmd 0) = some (Reg.leaseRing 0) := by decide +kernel

/-- Refutes O39: a RESUME that would take back a pending halt is answered with E_STATE while the device shuts down, and the halt stays
pending. -/
theorem not_runsAndAbortsOfRings : ¬ Obligations.RunsAndAbortsOfRings := by
  intro h
  obtain ⟨commands, -⟩ := h
  have takes : shuttingDown.Takes (0 : Port).val (7 : Sid).val (Reg.seqCmd (0 : RingId).val)
      ((shuttingDown.heard 0 7).modSess 7 fun x => { x with stage := none }) := by
    refine ⟨by decide, by decide, rfl, fun x hx => ?_, by decide, by decide⟩
    rw [show leaseOf (Reg.seqCmd (0 : RingId).val) = _ from findAt_seqCmd_lease] at hx
    cases hx
    decide
  obtain ⟨-, -, -, -, resume, -⟩ := commands shuttingDown _ 0 7 0 shuttingDown_inv takes
  have answer := resume (by decide) (by decide)
  have differs := congrArg firstStatus answer
  revert differs
  decide

end Sys2Proof.Machine
end

section
/-! PROOF. Trapeze links: bring-up, stop, failures and the link delay (R350, R352-R354). -/

namespace Sys2Proof.Machine

namespace State

theorem modLink_modLink (s : State) (k : Nat) (f g : Link → Link) : (s.modLink k f).modLink k g = s.modLink k (g ∘ f) := by
  unfold modLink
  rw [List.modify_modify_eq]

theorem modLink_congr {s : State} {k : Nat} {f g : Link → Link} (h : f (s.link k) = g (s.link k)) : s.modLink k f = s.modLink k g := by
  unfold modLink
  rw [modify_congr (d := {}) h]

/-- The address of a register of a link lies in the block of its link (R374). -/
theorem link_addr_ne {k : Fin 4} : Reg.dbOffsetLo ≠ Reg.linkRxFlitsLo k ∧ Reg.dbOffsetLo ≠ Reg.linkRxFlitsLo k + 4 ∧
    Reg.dbOffsetLo + 4 ≠ Reg.linkRxFlitsLo k ∧ Reg.dbOffsetLo + 4 ≠ Reg.linkRxFlitsLo k + 4 := by
  simp only [Reg.dbOffsetLo, Reg.linkRxFlitsLo]
  omega

/-- The domain beat depends on the beat and on DB_OFFSET alone (R349). -/
theorem db_congr {s t : State} (beat : t.beat = s.beat) (lo : t.getReg Reg.dbOffsetLo = s.getReg Reg.dbOffsetLo)
    (hi : t.getReg (Reg.dbOffsetLo + 4) = s.getReg (Reg.dbOffsetLo + 4)) : t.db = s.db := by
  unfold db getReg64
  rw [beat, lo, hi]

theorem getReg_countRx {s : State} {k a : Nat} (lo : a ≠ Reg.linkRxFlitsLo k) (hi : a ≠ Reg.linkRxFlitsLo k + 4) :
    (s.countRx k).getReg a = s.getReg a := getReg_setReg64_other s _ lo hi

@[simp] theorem db_countRx (s : State) (k : Fin 4) : (s.countRx k).db = s.db :=
  have ⟨a, b, c, d⟩ := link_addr_ne (k := k)
  db_congr rfl (getReg_countRx a b) (getReg_countRx c d)

/-- A flit that is taken meets a receiver past DESKEW (R352). -/
theorem linkRx_of_flitTaken {s : State} {k : Nat} {x : BitVec 64} {t : Nat} (h : s.flitTaken k x t = true) : s.linkRx k = true := by
  unfold flitTaken at h
  simp only [Bool.and_eq_true] at h
  exact h.1.1

section
variable {s g : State} {p : Port} {u : Sid} {k : Fin 4} {x : BitVec 64}

/-- A write of a link's CMD whose check passes (R353, R354). -/
theorem hostWrite_linkCmd (takes : s.Takes p u (Reg.linkCmd k) g) {v : Word} (one : v = 1 ∨ v = 2) (check : g.linkCmdCheck k v = .ok) :
    s.hostWrite p u (Reg.linkCmd k) v = (g.linkCmdDo k v).wrote p (Reg.linkCmd k) := by
  refine write_takes takes (by simp only [Reg.linkCmd]; omega) (findAt_linkCmd k) (by decide) ?_ ?_ check
  · rcases one with rfl | rfl <;> decide
  · rcases one with rfl | rfl <;> rfl

/-- The state in which a TIME flit is judged: it is counted and its SRC recorded (R350). -/
def timeFlitSeen (s : State) (k : Fin 4) (x : BitVec 64) : State := (s.countRx k).setFld (Reg.linkStatus k) 31 28 (flitSrc x)

/-- The delay that a TIME flit shows (R350). -/
def flitDelay (s : State) (x : BitVec 64) : Nat := (s.db % 2 ^ 48 + 2 ^ 48 - fld x 56 9) % 2 ^ 48

theorem getReg_timeFlitSeen {a : Nat} (lo : a ≠ Reg.linkRxFlitsLo k) (hi : a ≠ Reg.linkRxFlitsLo k + 4) (st : a ≠ Reg.linkStatus k) :
    (s.timeFlitSeen k x).getReg a = s.getReg a :=
  (getReg_setReg_other _ _ st).trans (getReg_countRx lo hi)

theorem db_timeFlitSeen : (s.timeFlitSeen k x).db = s.db := by
  have ⟨a, b, c, d⟩ := link_addr_ne (k := k)
  refine db_congr rfl (getReg_timeFlitSeen a b ?_) (getReg_timeFlitSeen c d ?_) <;>
    simp only [Reg.dbOffsetLo, Reg.linkStatus] <;> omega

theorem delay_timeFlitSeen : (s.timeFlitSeen k x).regFld (Reg.linkDelay k) 5 0 = s.regFld (Reg.linkDelay k) 5 0 := by
  unfold regFld
  rw [getReg_timeFlitSeen] <;> simp only [Reg.linkDelay, Reg.linkStatus, Reg.linkRxFlitsLo] <;> omega

theorem peer_timeFlitSeen : (s.timeFlitSeen k x).expectedPeer k = s.expectedPeer k := by
  have domain : (s.timeFlitSeen k x).topo = s.topo := by
    unfold topo regFld
    rw [getReg_timeFlitSeen] <;> simp only [Reg.trpDomain, Reg.linkStatus, Reg.linkRxFlitsLo] <;> omega
  unfold expectedPeer
  rw [domain]
  rfl

/-- What a TIME flit does, by the case of R352, R350 and R359 that it meets. -/
theorem timeFlit_peer {i : Nat} (peer : s.expectedPeer k = some i) (ne : i ≠ flitSrc x) :
    s.timeFlit k x = (s.timeFlitSeen k x).failLink k .peer := by
  have other : ((s.timeFlitSeen k x).expectedPeer k).any (fun c => c != flitSrc x) = true := by
    rw [peer_timeFlitSeen, peer]
    simpa using ne
  exact if_pos other

/-- What a measured delay does (R350, R352). -/
def delayJudged (t : State) (k d : Nat) : State :=
  if (t.link k).st = .delay then
    let was := (t.link k).delays
    let t := (t.setReg (Reg.linkDelay k) (BitVec.ofNat 32 (min d 63))).modLink k fun l => { l with delays := (d :: l.delays).take 4 }
    if 32 < d then t.failLink k .long else if d < 17 ∨ was.any (· ≠ d) then t.failLink k .align else t
  else if d ≠ t.regFld (Reg.linkDelay k) 5 0 then
    let t := (t.raiseFlag (Reg.linkFlags k) 4).setReg (Reg.linkDelay k) (BitVec.ofNat 32 (min d 63))
    if (t.link k).st = .up then t.failLink k .align else t
  else t

theorem timeFlit_known (peer : s.expectedPeer k = none ∨ s.expectedPeer k = some (flitSrc x)) (valid : s.trap.dbValid = true) :
    s.timeFlit k x = (s.timeFlitSeen k x).delayJudged k (s.flitDelay x) := by
  have same : ¬ ((s.timeFlitSeen k x).expectedPeer k).any (fun c => c != flitSrc x) = true := by
    rw [peer_timeFlitSeen]
    rcases peer with h | h <;> simp [h]
  have delay : s.flitDelay x = ((s.timeFlitSeen k x).db % 2 ^ 48 + 2 ^ 48 - fld x 56 9) % 2 ^ 48 := by
    rw [db_timeFlitSeen, flitDelay]
  rw [delay]
  exact (if_neg same).trans (if_neg (not_not_intro valid))

/-- Four agreeing delays of 17 to 32 beats are wanted in DELAY (R352). -/
theorem delayJudged_good {d : Nat} (h : (s.link k).st = .delay) (low : 17 ≤ d) (high : d ≤ 32) (same : ∀ i ∈ (s.link k).delays, i = d) :
    s.delayJudged k d = (s.setReg (Reg.linkDelay k) (BitVec.ofNat 32 d)).modLink k fun l => { l with delays := (d :: l.delays).take 4 } := by
  have alike : ¬ (d < 17 ∨ (s.link k).delays.any (· ≠ d) = true) := by
    rintro (short | differs)
    · exact absurd low (Nat.not_le.mpr short)
    · obtain ⟨i, mem, ne⟩ := List.any_eq_true.mp differs
      exact of_decide_eq_true ne (same i mem)
  unfold delayJudged
  rw [if_pos h]
  simp only
  rw [if_neg (Nat.not_lt.mpr high), if_neg alike, Nat.min_eq_left (Nat.le_trans high (by decide))]

theorem delayJudged_same {d : Nat} (h : (s.link k).st ≠ .delay) (same : d = s.regFld (Reg.linkDelay k) 5 0) : s.delayJudged k d = s :=
  (if_neg h).trans (if_neg (not_not_intro same))

theorem delayJudged_other {d : Nat} (h : (s.link k).st ≠ .delay) (other : d ≠ s.regFld (Reg.linkDelay k) 5 0) :
    s.delayJudged k d =
      let t := (s.raiseFlag (Reg.linkFlags k) 4).setReg (Reg.linkDelay k) (BitVec.ofNat 32 (min d 63))
      if (s.link k).st = .up then t.failLink k .align else t :=
  (if_neg h).trans (if_pos other)

/-- A link that is not UP fails (R352, R353). -/
theorem failLink_eq (c : LinkCause) :
    s.failLink k c =
      let t := ((s.setFld (Reg.linkStatus k) 11 8 (causeCode c)).modLink k fun l => { l with st := .failed, since := s.beat }).modLink k
        fun x => { x with queue := x.queue.filter fun f => decide (3 < f.typ), down := x.down || decide ((s.link k).st = .up) }
      if (s.link k).st = .up then (t.raiseFlag (Reg.linkFlags k) 3).raiseEvent 0x0503 0x04 (BitVec.ofNat 32 (k.val + 4 + 8 * 15))
      else t := by
  unfold failLink
  simp only [decide_eq_true_eq]
  rfl

end

end State

/-- Settles O40. -/
theorem trapezeLinkStates : Obligations.TrapezeLinkStates := by
  intro s g p u k c x hi l st enters
  refine ⟨fun takes ok run => ?_, fun takes on idle => ?_, fun t pattern past => ?_, fun h ok => ?_, fun h => ?_, fun h => ?_, fun h => ?_,
    fun h done => ?_, fun h peer marker left heard => ?_, fun early => ?_, fun allowed => ?_, fun denied => ?_, fun taken => ?_,
    fun missed => ?_⟩
  · have check : g.linkCmdCheck k 1 = .ok := by
      have free : ((g.link k).freqOk && !g.shutting) = true := by rw [ok, run]; rfl
      show Err.need ((g.link k).freqOk && !g.shutting) .eState = .ok
      rw [free]
      rfl
    exact congrArg Host.Outcome.next (State.hostWrite_linkCmd takes (.inl rfl) check)
  · have check : g.linkCmdCheck k 2 = .ok := by
      have free : (!((g.link k).st == .up && g.trapRuns)) = true := by
        rw [Bool.not_eq_true', Bool.and_eq_false_iff, beq_eq_false_iff_ne, ← Bool.not_eq_true]
        exact not_and_or.mp idle
      show Err.need (!((g.link k).st == .up && g.trapRuns)) .eState = .ok
      rw [free]
      rfl
    have off : g.linkCmdDo k 2 = (g.setFld (Reg.linkStatus k) 11 8 0).modLink k fun l =>
        { freqOk := l.freqOk, st := .off, since := g.beat } := if_neg on
    rw [← off]
    exact congrArg Host.Outcome.next (State.hostWrite_linkCmd takes (.inr rfl) check)
  · show execTrainingPatternEnd k s = _
    unfold execTrainingPatternEnd
    rw [show (s.link k).txTrain = some t from pattern]
    exact congrArg Host.Outcome.next (if_pos past)
  · show execLinkStateAdvance k s = _
    unfold execLinkStateAdvance
    rw [show (s.link k).st = .clock from h]
    exact congrArg Host.Outcome.next (if_pos ok)
  · show execLinkStateAdvance k s = _
    unfold execLinkStateAdvance
    rw [show (s.link k).st = .bit from h]
    rfl
  · show execLinkStateAdvance k s = _
    unfold execLinkStateAdvance
    rw [show (s.link k).st = .symbol from h]
    rfl
  · show execLinkStateAdvance k s = _
    unfold execLinkStateAdvance
    rw [show (s.link k).st = .deskew from h]
    rfl
  · show execLinkStateAdvance k s = _
    unfold execLinkStateAdvance
    rw [show (s.link k).st = .delay from h]
    exact congrArg Host.Outcome.next (if_pos done)
  · exact congrArg Host.Outcome.next (if_pos ⟨h, peer, marker, left, heard⟩)
  · refine congrArg Host.Outcome.next (if_neg ?_)
    rintro ⟨-, -, marker, left, heard⟩
    rcases early with h | h | h
    · exact h marker
    · exact absurd h (Nat.ne_of_lt left)
    · exact absurd h (Nat.ne_of_lt heard)
  · exact congrArg Host.Outcome.next ((if_pos allowed).trans (State.failLink_eq c))
  · exact congrArg Host.Outcome.next (if_neg (by rw [denied]; exact Bool.false_ne_true))
  · have run : exec (.timeFlitReceive k x) s = .next (s.timeFlit k x) := congrArg Host.Outcome.next (if_pos taken)
    rw [run]
    refine ⟨fun peer valid => ?_, fun i peer ne => congrArg Host.Outcome.next (State.timeFlit_peer peer ne)⟩
    have delay : (s.timeFlitSeen k x).regFld (Reg.linkDelay k) 5 0 = s.regFld (Reg.linkDelay k) 5 0 := State.delay_timeFlitSeen
    rw [State.timeFlit_known peer valid]
    refine ⟨fun h low high same => ?_, fun h same => ?_, fun notDelay notUp other => ?_, fun h other => ?_⟩
    · exact congrArg Host.Outcome.next (State.delayJudged_good (s := s.timeFlitSeen k x) h low high same)
    · have notDelay : (s.link k).st ≠ .delay := by rw [show (s.link k).st = .up from h]; decide
      exact congrArg Host.Outcome.next (State.delayJudged_same (s := s.timeFlitSeen k x) notDelay (same.trans delay.symm))
    · exact congrArg Host.Outcome.next ((State.delayJudged_other (s := s.timeFlitSeen k x) notDelay (other.trans_eq delay.symm)).trans
        (if_neg notUp))
    · have notDelay : (s.link k).st ≠ .delay := by rw [show (s.link k).st = .up from h]; decide
      exact congrArg Host.Outcome.next ((State.delayJudged_other (s := s.timeFlitSeen k x) notDelay (other.trans_eq delay.symm)).trans
        (if_pos h))
  · exact congrArg Host.Outcome.next (if_neg (by rw [missed]; exact Bool.false_ne_true))

end Sys2Proof.Machine
end

section
/-! PROOF. The lanes of a Trapeze link and their repair (R352, R354-R358). -/

namespace Sys2Proof.Machine

namespace State

section
variable {s : State} {k : Nat} {j : Nat}

/-- The lanes whose markers are missing and whose symbol errors are counted (R356). -/
def laneErrors (s : State) (k j : Nat) : Nat := ((s.link k).errAt.filter fun e => decide (e.1 = j ∧ s.beat < e.2 + 2 ^ 20)).length

theorem laneUntrained_known (h : (s.link k).spareLane = some j ∨ (j = 8 ∧ (s.link k).spareBad = true)) : s.laneUntrained k j = s := if_pos h

theorem laneUntrained_second (new : ¬ ((s.link k).spareLane = some j ∨ (j = 8 ∧ (s.link k).spareBad = true)))
    (h : (s.link k).spareLane.isSome = true ∨ (s.link k).spareBad = true) : s.laneUntrained k j = s.failLink k .lanes :=
  (if_neg new).trans (if_pos h)

theorem laneUntrained_first (new : ¬ ((s.link k).spareLane = some j ∨ (j = 8 ∧ (s.link k).spareBad = true)))
    (h : ¬ ((s.link k).spareLane.isSome = true ∨ (s.link k).spareBad = true)) :
    s.laneUntrained k j = if j = 8 then s.modLink k fun l => { l with spareBad := true }
      else (s.modLink k fun l => { l with spareLane := some j, returnFrom := s.beat }).laneEvent 0x0501 k true j :=
  (if_neg new).trans (if_neg h)

/-- A lane of a running link is judged by R356. -/
theorem laneFails_running (run : s.linkRx k = true) :
    s.laneFails k j =
      if s.laneDue k j then
        if (s.link k).spareLane.isSome = true ∨ (s.link k).spareBad = true ∨ (s.link k).failing.isSome = true then
          ((s.raiseFlag (Reg.linkFlags k) 0).modLink k fun l => { l with uncovered := l.uncovered ++ [j] }).laneEvent 0x0503 k true j
        else ((s.raiseFlag (Reg.linkFlags k) 0).modLink k fun l => { l with failing := some j, copyFrom := none }).sendLctl k 1 j
          (s.beat + 1)
      else s := by
  have trained : ¬ ((s.link k).st = .bit ∨ ((s.link k).st = .symbol ∧ (s.link k).since + 15000 ≤ s.beat)) := by
    have states := of_decide_eq_true run
    rintro (h | ⟨h, -⟩) <;> rw [h] at states <;> revert states <;> decide
  exact if_neg trained

theorem laneDue_iff (run : s.linkRx k = true) (data : j < 8) (here : (s.link k).spareLane ≠ some j)
    (new : (s.link k).failing ≠ some j) (covered : j ∉ (s.link k).uncovered) :
    s.laneDue k j = true ↔ s.regFld (Reg.linkCtrl k) 15 8 ≤ s.laneErrors k j ∨ 2 ≤ missedRun (s.link k) j s.beat := by
  have free : decide (j < 8 ∧ (s.link k).spareLane ≠ some j ∧ (s.link k).failing ≠ some j ∧ j ∉ (s.link k).uncovered) = true :=
    decide_eq_true ⟨data, here, new, covered⟩
  unfold laneDue
  dsimp only
  rw [run, free, Bool.true_and, Bool.true_and, Bool.or_eq_true, decide_eq_true_eq, decide_eq_true_eq]
  rfl

theorem swapDue_iff (failing : (s.link k).failing.isSome = true) :
    s.swapDue k = true ↔ s.linkRx k = true ∧ (s.link k).spareLane = none ∧ (s.link k).spareBad = false ∧
      (s.link k).copyFrom.isSome = true ∧ (s.link k).goodFrom + 1280 ≤ s.beat := by
  unfold swapDue copyMatched
  dsimp only
  simp only [failing, Bool.and_eq_true, decide_eq_true_eq, Option.isNone_iff_eq_none, Bool.not_eq_true', and_assoc, true_and]
  exact ⟨fun ⟨run, free, sound, copy, _, past⟩ => ⟨run, free, sound, copy, past⟩,
    fun ⟨run, free, sound, copy, past⟩ => ⟨run, free, sound, copy, Nat.le_trans (Nat.add_le_add_left (by decide) _) past, past⟩⟩

theorem spareBadDue_free (run : s.linkRx k = true) (good : (s.link k).spareBad = false) (free : (s.link k).spareLane = none)
    (idle : (s.link k).failing = none) :
    s.spareBadDue k = decide (4 ≤ ((s.link k).spareErrs.filter fun i => decide ((s.link k).spareErrs.headD 0 < i + 16)).length) := by
  unfold spareBadDue
  dsimp only
  rw [run, good, free, idle]
  rfl

theorem spareBadDue_copying {i c : Nat} (run : s.linkRx k = true) (good : (s.link k).spareBad = false)
    (free : (s.link k).spareLane = none) (failing : (s.link k).failing = some i) (copy : (s.link k).copyFrom = some c) :
    s.spareBadDue k = decide (c + 16384 ≤ s.beat ∧ c + 16384 < (s.link k).goodFrom + 1024) := by
  unfold spareBadDue
  dsimp only
  rw [run, good, free, failing, copy]
  rfl

end

end State

/-- Settles O41. -/
theorem trapezeLaneRepair : Obligations.TrapezeLaneRepair := by
  intro s k j hi l fl event errors noMarker
  have good : ∀ {t u : State}, t = u → .next t = (.next u : Res) := congrArg Host.Outcome.next
  refine ⟨fun training => ?_, fun run data here new covered => ?_, fun i c failing copy matched run free usable => ?_, fun early => ?_,
    fun run usable free idle => ?_, fun i c run usable free failing copy long bad => ?_, fun i spare run auto marker clean => ?_,
    fun off => ?_⟩
  · have untrained : exec (.laneFailing k j) s = .next (s.laneUntrained k j) := good (if_pos training)
    have eight : (j.val = 8) ↔ j = 8 := ⟨fun h => Fin.ext h, fun h => congrArg Fin.val h⟩
    rw [untrained]
    refine ⟨fun known => good (State.laneUntrained_known (by rw [eight]; exact known)), fun here sound second => ?_,
      fun none sound => ?_⟩
    · exact good (State.laneUntrained_second (by rw [eight]; exact not_or.mpr ⟨here, sound⟩) second)
    · have spare : (s.link k).spareLane = Option.none ∧ (s.link k).spareBad = false := ⟨none, sound⟩
      rw [State.laneUntrained_first (by simp [spare]) (by simp [spare])]
      refine good ?_
      by_cases h : j = 8
      · rw [if_pos (eight.mpr h), if_pos h]
      · rw [if_neg (mt eight.mp h), if_neg h]
        rfl
  · have small : j.val < 8 := by
      have := j.isLt
      have : j.val ≠ 8 := fun h => data (Fin.ext h)
      omega
    have due := State.laneDue_iff run small here new covered
    have fails : exec (.laneFailing k j) s = .next (s.laneFails k j) := rfl
    rw [fails, State.laneFails_running run]
    refine ⟨fun few seen => good (if_neg fun h => ?_), fun many free sound idle => ?_, fun many busy => ?_⟩
    · exact (due.mp h).elim (Nat.not_le.mpr few) (Nat.not_le.mpr seen)
    · refine good ((if_pos (due.mpr many)).trans (if_neg ?_))
      rw [show (s.link k).spareLane = none from free, show (s.link k).spareBad = false from sound,
        show (s.link k).failing = none from idle]
      decide
    · exact good ((if_pos (due.mpr many)).trans (if_pos busy))
  · show execLaneSwap k s = _
    unfold execLaneSwap
    rw [show (s.link k).failing = some i from failing]
    exact good (if_pos ((State.swapDue_iff (congrArg Option.isSome failing)).mpr ⟨run, free, usable, congrArg Option.isSome copy, matched⟩))
  · show execLaneSwap k s = _
    unfold execLaneSwap
    cases failing : (s.link k).failing with
    | none => rfl
    | some i =>
      refine good (if_neg fun due => ?_)
      obtain ⟨-, -, -, copy, matched⟩ := (State.swapDue_iff (congrArg Option.isSome failing)).mp due
      rcases early with h | h | h
      · exact absurd h (Nat.not_lt.mpr matched)
      · exact nomatch failing.symm.trans h
      · exact nomatch copy.symm.trans (congrArg Option.isSome h)
  · have due := State.spareBadDue_free run usable free idle
    refine ⟨fun many => ?_, fun few => ?_⟩
    · show execSpareBad k s = _
      unfold execSpareBad
      rw [due, if_neg (not_not_intro (decide_eq_true many)), show (s.link k).failing = none from idle]
      refine good (congrArg (State.raiseFlag · fl 5) (State.modLink_congr ?_))
      rw [show (s.link k).failing = none from idle]
      exact congrArg (fun u => { s.link k with spareBad := true, failing := none, copyFrom := none, uncovered := u }) (List.append_nil _)
    · exact good (if_pos (by rw [due, decide_eq_true_eq]; exact Nat.not_le.mpr few))
  · have due := State.spareBadDue_copying run usable free failing copy
    show execSpareBad k s = _
    unfold execSpareBad
    rw [due, if_neg (not_not_intro (decide_eq_true ⟨long, bad⟩)), show (s.link k).failing = some i from failing]
    rfl
  · have due : s.returnDueNow k = true := by
      unfold State.returnDueNow State.rxDb
      rw [show (s.link k).spareLane = some i from spare, run, auto, decide_eq_true marker, decide_eq_true clean]
      rfl
    show execLaneReturn k s = _
    unfold execLaneReturn
    rw [show (s.link k).spareLane = some i from spare]
    exact good (if_pos due)
  · show execLaneReturn k s = _
    unfold execLaneReturn
    cases spare : (s.link k).spareLane with
    | none => rfl
    | some i =>
      have hold : s.regBit (Reg.linkCtrl k) 16 = false := off.resolve_left fun h => nomatch spare.symm.trans h
      refine good (if_neg ?_)
      unfold State.returnDueNow
      rw [hold, Bool.and_false, Bool.false_and, Bool.false_and]
      exact Bool.false_ne_true

end Sys2Proof.Machine
end

section
/-! PROOF. Control flits, discarded flits and the marker flit of a Trapeze link (R343-R347, R355-R357). -/

namespace Sys2Proof.Machine

namespace State

/-- A chip has four links (R342). -/
theorem Inv.links_length {s : State} (h : s.Inv) : s.links.length = 4 := by
  obtain ⟨-, -, -, -, -, -, links, -⟩ := h
  exact links

section
variable {s : State} {k : Fin 4}

/-- What the symbol errors of a beat add to a lane's counter (R374). -/
def laneErrAfter (s : State) (k i : Nat) (err : Bool) : Word :=
  if err = true ∧ s.getReg (Reg.linkLaneErr k i) ≠ 0xFFFFFFFF then s.getReg (Reg.linkLaneErr k i) + 1
  else s.getReg (Reg.linkLaneErr k i)

/-- The sign of a lane counts in the lane's register and is noted in its link (R343, R355-R357). -/
theorem laneSign_marks (hi : s.Inv) (j : Nat) (err noMarker : Bool) :
    let t := s.laneSign k j err noMarker
    t.getReg (Reg.linkLaneErr k j) = s.laneErrAfter k j err ∧ (∀ a, a ≠ Reg.linkLaneErr k j → t.getReg a = s.getReg a) ∧
      ∃ r l, t = { s with regs := r, links := l } := by
  unfold laneSign laneErrAfter
  simp only
  split
  · rename_i quiet
    refine ⟨(if_neg fun h => quiet.1 h.1).symm, fun a _ => rfl, _, _, rfl⟩
  · cases err with
    | false => exact ⟨rfl, fun a _ => rfl, _, _, rfl⟩
    | true =>
      simp only [getReg_modLink, if_true, true_and]
      unfold satReg
      split
      · rename_i full
        exact ⟨(if_neg (not_not_intro full)).symm, fun a _ => rfl, _, _, rfl⟩
      · rename_i room
        exact ⟨getReg_setReg_self hi.regs_wf _ _, fun a ne => getReg_setReg_other _ _ ne, _, _, rfl⟩

/-- The signs of the lanes below `n`, each counted on its own (R343). -/
theorem laneSign_below (hi : s.Inv) (err noMarker : Nat → Bool) (n : Nat) :
    let t := s.forBelow n fun j t => t.laneSign k j (err j) (noMarker j)
    (∀ i, i < n → t.getReg (Reg.linkLaneErr k i) = s.laneErrAfter k i (err i)) ∧
      (∀ a, (∀ i, i < n → a ≠ Reg.linkLaneErr k i) → t.getReg a = s.getReg a) ∧ ∃ r l, t = { s with regs := r, links := l } := by
  induction n with
  | zero => exact ⟨nofun, fun _ _ => rfl, _, _, rfl⟩
  | succ n ih =>
    obtain ⟨counts, others, r, l, fields⟩ := ih
    have inv : (s.forBelow n fun j t => t.laneSign k j (err j) (noMarker j)).Inv :=
      forBelow_keeps (P := State.Inv) n hi fun j t ht => laneSign_inv k j (err j) (noMarker j) ht
    have run : (s.forBelow (n + 1) fun j t => t.laneSign k j (err j) (noMarker j)) =
        (s.forBelow n fun j t => t.laneSign k j (err j) (noMarker j)).laneSign k n (err n) (noMarker n) := by
      unfold forBelow
      rw [List.range_succ, List.foldl_append]
      rfl
    rw [run]
    obtain ⟨count, rest, r', l', fields'⟩ := laneSign_marks (k := k) inv n (err n) (noMarker n)
    refine ⟨fun i hi => ?_, fun a ha => (rest a (ha n (by omega))).trans (others a fun i hi => ha i (by omega)), ?_⟩
    · by_cases e : i = n
      · subst e
        refine count.trans ?_
        unfold laneErrAfter
        rw [others _ fun j hj => by simp only [Reg.linkLaneErr]; omega]
      · exact (rest _ (by simp only [Reg.linkLaneErr]; omega)).trans (counts i (by omega))
    · rw [fields'] 
      rw [fields]
      exact ⟨_, _, rfl⟩

/-- What the lanes show in a beat counts in the lanes' registers and is noted in the link (R343, R355-R357). -/
theorem laneSigns_marks (hi : s.Inv) (h : LaneSigns) :
    let t := s.laneSigns k h
    (∀ i, i < 9 → t.getReg (Reg.linkLaneErr k i) = s.laneErrAfter k i (bit h.errors i)) ∧
      (∀ a, (∀ i, i < 9 → a ≠ Reg.linkLaneErr k i) → t.getReg a = s.getReg a) ∧ t.rings = s.rings ∧ t.mem = s.mem := by
  obtain ⟨counts, others, r, l, fields⟩ := laneSign_below (k := k) hi (fun j => bit h.errors j) (fun j => bit h.noMarker j) 9
  unfold laneSigns
  simp only
  generalize s.forBelow 9 _ = t at counts others fields
  have same : t.rings = s.rings ∧ t.mem = s.mem := by
    rw [fields]
    exact ⟨rfl, rfl⟩
  split
  · exact ⟨counts, others, same⟩
  · exact ⟨counts, others, same⟩

/-- A lane that is in use shows an error or no marker (R345). -/
theorem mixed_iff (h : LaneSigns) :
    s.mixed k h = true ↔ ∃ i, (if (s.link k).spareLane = none then i < 8 else i < 9 ∧ (s.link k).spareLane ≠ some i) ∧
      (bit h.errors i = true ∨ bit h.noMarker i = true) := by
  unfold mixed
  cases (s.link k).spareLane with
  | none => simp
  | some i =>
    simp only [List.any_eq_true, List.mem_range, Bool.and_eq_true, Bool.or_eq_true, decide_eq_true_eq, reduceCtorEq, if_false,
      ne_eq, Option.some.injEq]
    exact ⟨fun ⟨j, small, bad, other⟩ => ⟨j, ⟨small, fun e => other e.symm⟩, bad⟩,
      fun ⟨j, ⟨small, other⟩, bad⟩ => ⟨j, small, bad, fun e => other e.symm⟩⟩

/-- The discard of a beat in a running link (R345, R347). -/
theorem exec_flitDiscard (run : s.linkRx k = true) (x : BitVec 64) (h : LaneSigns) :
    exec (.flitDiscard k x h) s = .next (if h.codeErr = true ∨ s.mixed k h = true then
      (s.laneSigns k h).raiseFlag (Reg.linkFlags k) 2 else (s.laneSigns k h).raiseIf (!flitOk x) (Reg.linkFlags k) 1) :=
  congrArg Host.Outcome.next (if_neg (not_not_intro run))

/-- The marker flit takes the slot of its beat (R345). -/
theorem exec_markerFlit (on : (s.link k).txOn = true) (marker : s.db % 256 = 255) (free : (s.link k).slotAt ≠ some s.beat) :
    exec (.markerFlit k) s = .next ((s.modLink k fun l => { l with slotAt := some s.beat }).markerActs k) :=
  congrArg Host.Outcome.next (if_pos ⟨on, marker, free⟩)

/-- The parts of what a link does at a marker (R352, R355-R357). -/
theorem markerActs_idle (t : State) (k : Nat) (mirror : (t.link k).mirrorReq = none) (due : (t.link k).returnDue = false)
    (train : ¬ ((t.link k).trainSent = true ∧ (t.link k).st = .waitPeer)) : t.markerActs k = t := by
  unfold markerActs
  dsimp only
  rw [mirror, due]
  exact if_neg train

theorem markerActs_train (t : State) (k : Nat) (mirror : (t.link k).mirrorReq = none) (due : (t.link k).returnDue = false)
    (train : (t.link k).trainSent = true ∧ (t.link k).st = .waitPeer) : t.markerActs k = t.sendLctl k 0 0 t.beat := by
  unfold markerActs
  dsimp only
  rw [mirror, due]
  exact if_pos train

theorem markerActs_mirror {i : Nat} (t : State) (k : Nat) (mirror : (t.link k).mirrorReq = some i) (due : (t.link k).returnDue = false)
    (train : ¬ ((t.link k).trainSent = true ∧ (t.link k).st = .waitPeer)) :
    t.markerActs k = t.modLink k fun l => { l with mirror := some i, mirrorReq := none } := by
  unfold markerActs
  dsimp only
  rw [mirror, due]
  exact if_neg train

theorem markerActs_return {i : Nat} (t : State) (k : Nat) (mirror : (t.link k).mirrorReq = none) (due : (t.link k).returnDue = true)
    (copied : (t.link k).mirror = some i) (train : ¬ ((t.link k).trainSent = true ∧ (t.link k).st = .waitPeer)) :
    t.markerActs k = (t.modLink k fun l => { l with mirror := none, returnDue := false }).laneEvent 0x0502 k false i := by
  unfold markerActs
  dsimp only
  rw [mirror, due, copied]
  exact if_neg train

end

end State

/-- Settles O42. -/
theorem trapezeControlFlitsAndMarkers : Obligations.TrapezeControlFlitsAndMarkers := by
  intro s k x h hi l fl event heard f
  have good : ∀ {t u : State}, t = u → .next t = (.next u : Res) := congrArg Host.Outcome.next
  refine ⟨fun hears => good (if_pos hears), fun hears => good (if_pos hears), fun hears => good (if_pos hears),
    fun hears => good (if_pos hears), fun off training => ?_, fun desk => ?_, fun run => ?_, fun on marker free => ?_, fun marker => ?_⟩
  · have silent : ¬ s.linkRx k = true := by rw [off]; exact Bool.false_ne_true
    exact good ((if_pos silent).trans (if_neg training))
  · have silent : ¬ s.linkRx k = true := fun rx => by
      have states := of_decide_eq_true rx
      rw [show (s.link k).st = .deskew from desk] at states
      exact absurd states (by decide)
    obtain ⟨counts, others, r, links, fields⟩ := State.laneSign_below (k := k) hi (fun j => bit h.errors j) (fun _ => false) 9
    refine ⟨_, good ((if_pos silent).trans (if_pos desk)), counts, others, ?_, ?_⟩ <;> rw [fields]
  · have run' := State.exec_flitDiscard run x h
    have mixed := State.mixed_iff (s := s) (k := k) h
    obtain ⟨counts, others, rings, mem⟩ := State.laneSigns_marks (k := k) hi h
    refine ⟨counts, others, rings, mem, fun code => ?_, fun bad => ?_, fun code clean => ?_⟩
    · exact run'.trans (good (if_pos (.inl code)))
    · exact run'.trans (good (if_pos (.inr (mixed.mpr bad))))
    · have whole : ¬ (h.codeErr = true ∨ s.mixed k h = true) := by
        rintro (bad | bad)
        · exact Bool.false_ne_true (code.symm.trans bad)
        · obtain ⟨i, used, bad⟩ := mixed.mp bad
          exact clean i used bad
      rw [run', if_neg whole]
      cases flitOk x <;> rfl
  · have run := State.exec_markerFlit on marker free
    have same : ∀ {α : Type} (g : Link → α), g { s.link k with slotAt := some s.beat } = g (s.link k) →
        g ((s.modLink k fun l => { l with slotAt := some s.beat }).link k) = g (s.link k) := fun g e =>
      (congrArg g (State.link_modLink_self (hi.links_length.symm ▸ k.isLt) _)).trans e
    have mirrorReq := same Link.mirrorReq rfl
    have due := same Link.returnDue rfl
    have mirror := same Link.mirror rfl
    have sent := same Link.trainSent rfl
    have st := same Link.st rfl
    refine ⟨fun none idle train => ?_, fun none idle sentTrain wait => ?_, fun i asked idle train => ?_, fun i none back copied train => ?_⟩
    · exact run.trans (good (State.markerActs_idle _ _ (mirrorReq.trans none) (due.trans idle) (by rw [sent, st]; exact train)))
    · exact run.trans (good (State.markerActs_train _ _ (mirrorReq.trans none) (due.trans idle) ⟨sent.trans sentTrain, st.trans wait⟩))
    · exact run.trans (good (State.markerActs_mirror _ _ (mirrorReq.trans asked) (due.trans idle) (by rw [sent, st]; exact train)))
    · exact run.trans (good (State.markerActs_return _ _ (mirrorReq.trans none) (due.trans back) (mirror.trans copied)
        (by rw [sent, st]; exact train)))
  · exact good (if_neg fun all => marker all.2.1)

end Sys2Proof.Machine
end

section
/-! PROOF. What messages between chips leave: flits that are forwarded, barriers and the rings that wait in them (R360, R365-R370). -/

namespace Sys2Proof.Machine

namespace State

/-- A flag that is raised leaves the registers other than its own and its counter's (R99). -/
theorem getReg_raiseFlag_other (s : State) {a b x : Nat} (flag : x ≠ a) (count : x ≠ flagCntAddr a b) :
    (s.raiseFlag a b).getReg x = s.getReg x :=
  (getReg_setReg_other _ _ count).trans (getReg_setReg_other _ _ flag)

/-- Nothing but the links and the flags of Trapeze differs between the states. -/
def Linked (s t : State) : Prop :=
  (∀ a, a ≠ Reg.trpFlags → a ≠ Reg.trpFlags + 4 → a ≠ Reg.trpFlags + 8 → t.getReg a = s.getReg a) ∧
    ∃ l r b, t = { s with links := l, regs := r, beatSets := b }

theorem Linked.refl (s : State) : s.Linked s := ⟨fun _ _ _ _ => rfl, _, _, _, rfl⟩

theorem Linked.modLink {s t : State} (h : s.Linked t) (k : Nat) (f : Link → Link) : s.Linked (t.modLink k f) := by
  obtain ⟨regs, l, r, b, rfl⟩ := h
  exact ⟨regs, _, _, _, rfl⟩

theorem Linked.raiseFlag {s t : State} (h : s.Linked t) (i : Nat) : s.Linked (t.raiseFlag Reg.trpFlags i) := by
  obtain ⟨regs, l, r, b, rfl⟩ := h
  refine ⟨fun a flag low high => (getReg_raiseFlag_other _ flag ?_).trans (regs a flag low high), _, _, _, rfl⟩
  unfold flagCntAddr
  split
  · exact low
  · exact high

theorem Linked.spreadFlit {s t : State} (h : s.Linked t) (m : BitVec 4) (x : BitVec 64) (ready : Nat) :
    s.Linked (t.spreadFlit m x ready) :=
  foldl_keeps (P := s.Linked) h fun k _ u hu => by
    split
    · exact hu.modLink k _
    · exact hu

theorem Linked.forwardFlit {s t : State} (h : s.Linked t) (x : BitVec 64) (ready : Nat) : s.Linked (t.forwardFlit x ready) := by
  unfold State.forwardFlit
  dsimp only
  split
  · exact h
  · split
    · exact h.raiseFlag 1
    · exact h.spreadFlit _ _ _

theorem Linked.trap {s t : State} (h : s.Linked t) : t.trap = s.trap := by
  obtain ⟨-, l, r, b, rfl⟩ := h
  rfl

theorem Linked.bar {s t : State} (h : s.Linked t) (b : Nat) : t.bar b = s.bar b := congrArg (fun x => x.bars.getD b {}) h.trap

theorem Linked.beat {s t : State} (h : s.Linked t) : t.beat = s.beat := by
  obtain ⟨-, l, r, b, rfl⟩ := h
  rfl

theorem Linked.kept {s t : State} (h : s.Linked t) : t.rings = s.rings ∧ t.mem = s.mem := by
  obtain ⟨-, l, r, b, rfl⟩ := h
  exact ⟨rfl, rfl⟩

theorem Linked.db {s t : State} (h : s.Linked t) : t.db = s.db :=
  db_congr h.beat (h.1 _ (by decide) (by decide) (by decide)) (h.1 _ (by decide) (by decide) (by decide))

theorem Linked.dbLatest {s t : State} (h : s.Linked t) (i x : Nat) : t.dbLatest i x = s.dbLatest i x := by
  unfold State.dbLatest
  rw [h.db]

theorem dbLatest_countRx (s : State) (k : Fin 4) (i x : Nat) : (s.countRx k).dbLatest i x = s.dbLatest i x := by
  unfold dbLatest
  rw [db_countRx]

/-- What a received flit is judged by: the state after it was counted and forwarded (R360, R374). -/
def received (s : State) (k : Nat) (x : BitVec 64) : State := (s.countRx k).forwardFlit x (s.beat + 2)

theorem linked_received (s : State) (k : Nat) (x : BitVec 64) : (s.countRx k).Linked (s.received k x) :=
  (Linked.refl _).forwardFlit _ _

section
variable (s : State) (k : Fin 4) (x : BitVec 64)

theorem trap_received : (s.received k x).trap = s.trap := (linked_received s k x).trap

theorem bar_received (b : Nat) : (s.received k x).bar b = s.bar b := (linked_received s k x).bar b

theorem db_received : (s.received k x).db = s.db := (linked_received s k x).db.trans (db_countRx s k)

theorem dbLatest_received (i y : Nat) : (s.received k x).dbLatest i y = s.dbLatest i y :=
  ((linked_received s k x).dbLatest i y).trans (dbLatest_countRx s k i y)

theorem getReg_received {a : Nat} (lo : a ≠ Reg.linkRxFlitsLo k) (hi : a ≠ Reg.linkRxFlitsLo k + 4) (flags : a ≠ Reg.trpFlags)
    (low : a ≠ Reg.trpFlags + 4) (high : a ≠ Reg.trpFlags + 8) : (s.received k x).getReg a = s.getReg a :=
  ((linked_received s k x).1 a flags low high).trans (getReg_countRx lo hi)

end

/-! ### Barriers -/

theorem Inv.bars_length {s : State} (h : s.Inv) : s.trap.bars.length = 16 := by
  obtain ⟨-, -, -, -, -, -, -, bars, -⟩ := h
  exact bars

theorem bar_modBar_self {s : State} {b : Nat} (h : b < s.trap.bars.length) (f : Barrier → Barrier) : (s.modBar b f).bar b = f (s.bar b) :=
  getD_modify_self h

/-- The check for a complete set of arrivals leaves them as they are (R370). -/
theorem barCheck_marks {s : State} {b : Nat} (h : b < s.trap.bars.length) :
    ∃ o, (s.barCheck b).bar b = { s.bar b with full := o } ∧ (s.barCheck b).rings = s.rings ∧ (s.barCheck b).mem = s.mem := by
  unfold barCheck
  dsimp only
  split
  · exact ⟨_, bar_modBar_self h _, rfl, rfl⟩
  · exact ⟨_, rfl, rfl, rfl⟩

/-- What ring `i` waits in depends on its front end, its START_CFG and the chip's number alone (R368). -/
theorem barWait_congr {s t : State} {i : Nat} (ring : t.ring i = s.ring i) (rst : t.rst = s.rst)
    (cfg : t.getReg (Reg.seqStartCfg i) = s.getReg (Reg.seqStartCfg i)) (b : Nat) : t.barWait i b = s.barWait i b := by
  unfold barWait seq regFld chipNum
  rw [ring, rst, cfg]

/-- Nothing that the other rings wait in differs between the states (R368). -/
def WaitsKept (s : State) (n : Nat) (t : State) : Prop :=
  (∀ i, i ≠ n → t.ring i = s.ring i) ∧ t.rst = s.rst ∧ ∀ i, i < 12 → t.getReg (Reg.seqStartCfg i) = s.getReg (Reg.seqStartCfg i)

theorem WaitsKept.refl (s : State) (n : Nat) : s.WaitsKept n s := ⟨fun _ _ => rfl, rfl, fun _ _ => rfl⟩

theorem WaitsKept.setReg {s t : State} {n : Nat} (h : s.WaitsKept n t) (a : Nat) (v : Word) (other : a % 0x100000 ≠ 4) :
    s.WaitsKept n (t.setReg a v) := by
  obtain ⟨rings, rst, cfg⟩ := h
  refine ⟨rings, rst, fun i hi => (getReg_setReg_other _ _ ?_).trans (cfg i hi)⟩
  rintro rfl
  exact other (by simp only [Reg.seqStartCfg]; omega)

theorem WaitsKept.modRing {s t : State} {n : Nat} (h : s.WaitsKept n t) (f : Ring → Ring) : s.WaitsKept n (t.modRing n f) := by
  obtain ⟨rings, rst, cfg⟩ := h
  exact ⟨fun i ne => (ring_modRing_ne _ ne).trans (rings i ne), rst, cfg⟩

theorem WaitsKept.barWait {s t : State} {n i : Nat} (h : s.WaitsKept n t) (ne : i ≠ n) (small : i < 12) (b : Nat) :
    t.barWait i b = s.barWait i b := by
  obtain ⟨rings, rst, cfg⟩ := h
  exact barWait_congr (rings i ne) rst (cfg i small) b

theorem WaitsKept.ownWindow {s t : State} {n : Nat} (h : s.WaitsKept n t) : s.WaitsKept n (t.ownWindow n) := by
  unfold State.ownWindow
  split
  · exact h
  · exact h

theorem WaitsKept.applyPost {s t : State} {n : Nat} (h : s.WaitsKept n t) (p : Post) : s.WaitsKept n (t.applyPost n p) := by
  have both : ∀ v, s.WaitsKept n ((t.setReg (Reg.seqDr n) ((t.getReg (Reg.seqDr n) &&& ~~~p.mask) ||| (p.data &&& p.mask))).setReg
      (Reg.seqDrvc n) v) := fun v => (h.setReg _ _ (by simp only [Reg.seqDr]; omega)).setReg _ _ (by simp only [Reg.seqDrvc]; omega)
  unfold State.applyPost
  dsimp only
  split
  · exact both _
  · exact (both _).setReg _ _ (by simp only [Reg.seqDrvf]; omega)

theorem WaitsKept.clearDr {s t : State} {n : Nat} (h : s.WaitsKept n t) : s.WaitsKept n (t.clearDr n) := by
  unfold State.clearDr clearValid endValid
  refine foldl_keeps (P := s.WaitsKept n) ?_ fun p _ u hu => hu.applyPost p
  refine WaitsKept.modRing (WaitsKept.setReg (WaitsKept.setReg (h.setReg _ _ ?_) _ _ ?_) _ _ ?_) _
  · simp only [Reg.seqDr]; omega
  · simp only [Reg.seqDrvf]; omega
  · simp only [Reg.seqDrvc]; omega

/-- A loop over the parts of a ring keeps what each turn of it keeps. -/
theorem WaitsKept.forBelow {s t : State} {n : Nat} (h : s.WaitsKept n t) (k : Nat) {f : Nat → State → State}
    (turn : ∀ i, i < k → ∀ u, s.WaitsKept n u → s.WaitsKept n (f i u)) : s.WaitsKept n (t.forBelow k f) :=
  foldl_keeps (P := s.WaitsKept n) h fun i hi u hu => turn i (List.mem_range.mp hi) u hu

/-- A Juggler that starts touches its own ring alone (R336). -/
theorem WaitsKept.jugStart {s t : State} {n : Nat} (h : s.WaitsKept n t) : s.WaitsKept n (t.jugStart n) := by
  unfold State.jugStart
  refine WaitsKept.setReg (WaitsKept.setReg (WaitsKept.setReg (h.modRing _) _ _ ?_) _ _ ?_) _ _ ?_
  · simp only [Reg.jugReg]; omega
  · simp only [Reg.jugImc]; omega
  · simp only [Reg.jugImf]; omega

/-- A ring that starts leaves what the other rings wait in (R116, R188). -/
theorem WaitsKept.startRing {s t : State} {n : Nat} (h : s.WaitsKept n t) : s.WaitsKept n (t.startRing n) := by
  have regs : ∀ {u : State}, s.WaitsKept n u → s.WaitsKept n
      ([Reg.seqSt n, Reg.seqRsc n, Reg.seqIllPc n].foldl (fun s a => s.setReg a 0) u) := fun hu => by
    refine foldl_keeps (P := s.WaitsKept n) hu fun a ha v hv => hv.setReg _ _ ?_
    simp only [List.mem_cons, List.not_mem_nil, or_false] at ha
    rcases ha with rfl | rfl | rfl
    · simp only [Reg.seqSt]; omega
    · simp only [Reg.seqRsc]; omega
    · simp only [Reg.seqIllPc]; omega
  have stack : ∀ {u : State}, s.WaitsKept n u → s.WaitsKept n (u.forBelow 16 fun i s => s.setReg (Reg.seqStack n i) 0) := fun hu =>
    hu.forBelow 16 fun i hi v hv => hv.setReg _ _ (by simp only [Reg.seqStack]; omega)
  have beat : ∀ {u : State} (x : BitVec 64), s.WaitsKept n u → s.WaitsKept n (u.setReg64 (Reg.seqStartBeatLo n) x) := fun x hu =>
    (hu.setReg _ _ (by simp only [Reg.seqStartBeatLo]; omega)).setReg _ _ (by simp only [Reg.seqStartBeatLo]; omega)
  have sample : ∀ {u : State}, s.WaitsKept n u → s.WaitsKept n (u.forBelow 4 fun b s => s.biasSample n b) := fun hu =>
    hu.forBelow 4 fun b hb v hv => hv.setReg _ _ (by simp only [Reg.biasOut]; omega)
  have voices : ∀ {u : State} (f : Voice → Voice), s.WaitsKept n u → s.WaitsKept n (u.forBelow 32 fun v s => s.modVoice n v f) :=
    fun f hu => hu.forBelow 32 fun i _ v hv => hv.modRing _
  have lanes : ∀ {u : State} (S : Nat), s.WaitsKept n u → s.WaitsKept n (u.forBelow 32 fun l s => s.zeroLane n l S) :=
    fun S hu => hu.forBelow 32 fun i _ v hv => hv.modRing _
  unfold State.startRing
  dsimp only
  split
  · exact (sample (lanes _ (voices _ ((beat _ (stack (regs h.ownWindow).clearDr)).modRing _)))).jugStart
  · exact sample (lanes _ (voices _ ((beat _ (stack (regs h.ownWindow).clearDr)).modRing _)))

/-- A ring that goes on leaves what the other rings wait in. -/
theorem WaitsKept.goTo {s t : State} {n : Nat} (h : s.WaitsKept n t) (pc k : Nat) : s.WaitsKept n (t.goTo n pc k) :=
  ((h.setReg _ _ (by simp only [Reg.seqPc]; omega)).setReg _ _ (by simp only [Reg.seqRsc]; omega)).modRing _

end State

end Sys2Proof.Machine
end

section
/-! PROOF. DEC, BAR, ABORT and TMARK messages between chips (R348, R364-R372, R394). -/

namespace Sys2Proof.Machine

namespace State

/-- A loop in which one turn alone changes the state. -/
theorem forBelow_only {s t : State} {u k : Nat} {f : Nat → State → State} (hu : u < k) (here : f u s = t)
    (before : ∀ i, i < k → i ≠ u → f i s = s) (after : ∀ i, i < k → i ≠ u → f i t = t) : s.forBelow k f = t := by
  have bounded : s.forBelow k f = s.forBelow k fun i v => if i < k then f i v else v :=
    List.foldl_ext _ _ _ fun v i hi => (if_pos (List.mem_range.mp hi)).symm
  rw [bounded]
  refine forBelow_single hu ((if_pos hu).trans here) (fun i ne => ?_) (fun i ne => ?_)
  · split
    · rename_i small
      exact before i small ne
    · rfl
  · split
    · rename_i small
      exact after i small ne
    · rfl

/-- A loop in which no turn changes the state. -/
theorem forBelow_still {s : State} {k : Nat} {f : Nat → State → State} (still : ∀ i, i < k → f i s = s) : s.forBelow k f = s :=
  foldl_keeps (P := (· = s)) rfl fun i hi _ ht => ht ▸ still i (List.mem_range.mp hi)

section
variable {s g : State} {p : Port} {u : Sid} {k : Fin 4} {x : BitVec 64} {v : Word}

/-- A write of TRP_ABORT (R371). -/
theorem hostWrite_trpAbort (takes : s.Takes p u Reg.trpAbort g) (bits : v &&& ~~~(0x8FFF0FFF : Word) = 0) :
    let t := g.setReg Reg.trpAbort ((g.getReg Reg.trpAbort &&& ~~~0xFFF0FFF) ||| (v &&& 0xFFF0FFF))
    s.hostWrite p u Reg.trpAbort v = (if bit v 31 then t.sendAbort else t).wrote p Reg.trpAbort := by
  refine (write_takes takes (by decide) findAt_trpAbort (by decide) bits rfl rfl).trans ?_
  have plain := plainWrite_rw (g := g) (d := { name := .trpAbort, off := 0xC, lease := .chip, rw := 0xFFF0FFF, wo := 0x80000000 })
    Reg.trpAbort v (by decide) rfl
  rw [← plain]
  rfl

/-- A flit that is not a copy request takes the slot (R348). -/
theorem takeSlot_plain {d : Flit} (other : d.typ ≠ 5) :
    s.takeSlot k d = (s.modLink k fun l => { l with queue := l.queue.erase d, slotAt := some s.beat, sent := d.bits }).addReg64
      (Reg.linkTxFlitsLo k) 1 := by
  unfold takeSlot
  dsimp only
  rw [if_neg fun h => other h.1]

/-- An entry of the release buffer made from a DEC flit (R365). -/
def relDec (x : BitVec 64) (at_ : Nat) : RelDec :=
  { release := at_, src := flitSrc x, co := bit x 56, mask := BitVec.ofNat 16 (fld x 45 30), data := BitVec.ofNat 16 (fld x 29 14) }

/-- What a DEC flit does, by the case of R365-R367. -/
theorem decFlit_eq :
    s.decFlit k x =
      let f := s.received k x
      let r := s.dbLatest 8 (fld x 53 46) + 56 + 40 * flitHops x
      if s.regFld (Reg.trpImport (flitSrc x)) 27 16 = 0 then f
      else if 64 ≤ s.trap.relBuf.length then f.raiseFlag Reg.trpFlags 7
      else ({ f with trap := { f.trap with relBuf := f.trap.relBuf ++ [relDec x (if r < s.db + 2 then s.db + 2 else r)] } } : State).raiseIf
        (decide (r < s.db + 2)) Reg.trpFlags 2 := by
  have imports : (s.received k x).regFld (Reg.trpImport (flitSrc x)) 27 16 = s.regFld (Reg.trpImport (flitSrc x)) 27 16 := by
    have small : flitSrc x < 16 := fld_lt x 60 57
    unfold regFld
    rw [getReg_received] <;> simp only [Reg.trpImport, Reg.linkRxFlitsLo, Reg.trpFlags] <;> omega
  have same : s.decFlit k x =
      let f := s.received k x
      let r := f.dbLatest 8 (fld x 53 46) + 56 + 40 * flitHops x
      if f.regFld (Reg.trpImport (flitSrc x)) 27 16 = 0 then f
      else if 64 ≤ f.trap.relBuf.length then f.raiseFlag Reg.trpFlags 7
      else ({ f with trap := { f.trap with relBuf := f.trap.relBuf ++
          [relDec x (if decide (r < f.db + 2) = true then f.db + 2 else r)] } } : State).raiseIf (decide (r < f.db + 2)) Reg.trpFlags 2 := rfl
  rw [same]
  dsimp only
  rw [imports, dbLatest_received, db_received, show (s.received k x).trap.relBuf = s.trap.relBuf from congrArg _ (trap_received s k x)]
  simp only [decide_eq_true_eq]

/-- What a BAR flit does (R369). -/
theorem barFlit_eq {b : Nat} (named : fld x 56 53 = b) :
    s.barFlit k x =
      let f := s.received k x
      let m := BitVec.ofNat 16 (fld x 34 19)
      if (s.bar b).got.any (fun g => g.1 == flitSrc x) = true ∨ ((s.bar b).arrived.isSome = true ∧ m ≠ (s.bar b).mask) then
        f.raiseFlag Reg.trpFlags 3
      else (f.modBar b fun y => { y with got := y.got ++ [(flitSrc x, s.dbLatest 16 (fld x 50 35), m)] }).barCheck b := by
  subst named
  have same : s.barFlit k x =
      let f := s.received k x
      let b := fld x 56 53
      let m := BitVec.ofNat 16 (fld x 34 19)
      if (f.bar b).got.any (fun g => g.1 == flitSrc x) = true ∨ ((f.bar b).arrived.isSome = true ∧ m ≠ (f.bar b).mask) then
        f.raiseFlag Reg.trpFlags 3
      else (f.modBar b fun y => { y with got := y.got ++ [(flitSrc x, f.dbLatest 16 (fld x 50 35), m)] }).barCheck b := rfl
  rw [same]
  dsimp only
  rw [bar_received, dbLatest_received]

/-- What an ABORT flit does (R372). -/
theorem abortFlit_eq :
    s.abortFlit k x =
      let f := s.received k x
      if s.regBit Reg.trpAbortChips (flitSrc x) = true then
        ({ f with trap := { f.trap with abortIn := f.trap.abortIn ++ [s.beat + 2] } } : State).raiseFlag Reg.trpFlags 6
      else f := by
  have chips : (s.received k x).regBit Reg.trpAbortChips (flitSrc x) = s.regBit Reg.trpAbortChips (flitSrc x) := by
    unfold regBit
    rw [getReg_received] <;> simp only [Reg.trpAbortChips, Reg.linkRxFlitsLo, Reg.trpFlags] <;> omega
  have beat : (s.received k x).beat = s.beat := (linked_received s k x).beat
  have same : s.abortFlit k x =
      let f := s.received k x
      if f.regBit Reg.trpAbortChips (flitSrc x) = true then
        ({ f with trap := { f.trap with abortIn := f.trap.abortIn ++ [f.beat + 2] } } : State).raiseFlag Reg.trpFlags 6
      else f := rfl
  rw [same]
  dsimp only
  rw [chips, beat]

/-- A unit that is offered an edge keeps the CTRL words of all units (R393, R395). -/
theorem tiuCtrl_offerTiu {t : State} {i bin src : Nat} (fall : Bool) (m : Nat) :
    (t.offerTiu i src bin fall).getReg (Reg.tiuCtrl m) = t.getReg (Reg.tiuCtrl m) := by
  have role : ∀ (u : State) (b : Bool), (u.offerRole i bin b).getReg (Reg.tiuCtrl m) = u.getReg (Reg.tiuCtrl m) := fun u b => by
    unfold offerRole
    split
    · refine getReg_raiseFlag_other _ ?_ ?_
      · simp only [Reg.tiuCtrl, Reg.tiuFlags]; omega
      · rw [flagCntAddr, if_neg (by decide), if_neg (by simp only [Reg.tiuFlags]; omega)]
        simp only [Reg.tiuCtrl, Reg.tiuFlags]
        omega
    · rfl
  unfold offerTiu
  dsimp only
  split
  · rfl
  · split <;> split <;> simp only [role]

/-- A chip arrives in a barrier in which all its participants wait with one mask (R368, R369). -/
theorem arrive_marks (hi : s.Inv) (b : Fin 16) {m : BitVec 16} {rest : List (BitVec 16)} (masks : s.barMasks b = some (m :: rest))
    (alike : rest.all (· == m) = true) :
    let t := s.arrive b
    (t.bar b).arrived = some s.db ∧ (t.bar b).mask = m ∧ (t.bar b).got = (s.bar b).got.filter (fun i => i.2.2 == m) ∧
      t.rings = s.rings ∧ t.mem = s.mem := by
  have long : (b : Nat) < s.trap.bars.length := hi.bars_length.symm ▸ b.isLt
  obtain ⟨f, run, flags⟩ : ∃ f : State, s.arrive b = ((f.modBar b fun x =>
      { x with arrived := some f.db, mask := m, got := x.got.filter fun g => g.2.2 == m }).spreadFlit (f.fwd f.chipNum)
        (mkFlit [(63, 61, 2), (60, 57, f.chipNum), (56, 53, b.val), (50, 35, f.db % 2 ^ 16), (34, 19, m.toNat)]) (f.beat + 1)).barCheck b ∧
      s.Linked f := by
    refine ⟨((s.bar b).got.filter fun g => g.2.2 != m).foldl (fun s _ => s.raiseFlag Reg.trpFlags 3) s, ?_,
      foldl_keeps (P := s.Linked) (Linked.refl s) fun _ _ t ht => ht.raiseFlag 3⟩
    unfold arrive
    rw [masks]
    exact if_pos alike
  have here : (b : Nat) < f.trap.bars.length := by rw [flags.trap]; exact long
  have mine := bar_modBar_self here fun x => { x with arrived := some f.db, mask := m, got := x.got.filter fun g => g.2.2 == m }
  rw [flags.bar] at mine
  have spread := (Linked.refl (f.modBar b fun x => { x with arrived := some f.db, mask := m, got := x.got.filter fun g =>
    g.2.2 == m })).spreadFlit (f.fwd f.chipNum)
      (mkFlit [(63, 61, 2), (60, 57, f.chipNum), (56, 53, b.val), (50, 35, f.db % 2 ^ 16), (34, 19, m.toNat)]) (f.beat + 1)
  rw [run]
  generalize State.spreadFlit _ _ _ _ = w at spread
  have size : w.trap.bars.length = f.trap.bars.length := by
    rw [spread.trap]
    exact List.length_modify _ _ _
  obtain ⟨o, bar, rings, mem⟩ := barCheck_marks (s := w) (size.symm ▸ here)
  rw [spread.bar, mine] at bar
  obtain ⟨kr, km⟩ := spread.kept
  obtain ⟨fr, fm⟩ := flags.kept
  dsimp only
  rw [bar]
  exact ⟨congrArg some flags.db, rfl, rfl, (rings.trans kr).trans fr, (mem.trans km).trans fm⟩

/-- Barrier `b` as it is released, before the rings go on (R370). -/
def barOpened (s : State) (b : Nat) (late : Bool) : State :=
  ((s.raiseIf late Reg.trpFlags 4).setReg (Reg.barRel b) (BitVec.ofNat 32 s.db)).modBar b fun _ => {}

/-- A ring of the barrier goes on (R167, R368, R370). -/
def barTurn (set : Word) (b n : Nat) (s : State) : State :=
  if (s.barWait n b).isNone then s
  else if (s.seq n).st = .armed then if bit set n then s.startRing n else s
  else ((s.raiseIf (!bit set n) Reg.trpFlags 5).refNow n).goTo n (s.seqPc n + 1) 0

theorem releaseBar_eq (b : Nat) (late : Bool) :
    s.releaseBar b late = (s.barOpened b late).forBelow 12 (barTurn (s.getReg (Reg.trpBar b)) b) := rfl

/-- The release itself leaves what the rings wait in and where they are (R370). -/
theorem getReg_barOpened {b : Nat} {late : Bool} {a : Nat} (flag : a ≠ Reg.trpFlags) (count : a ≠ Reg.trpFlags + 8) (rel : a ≠ Reg.barRel b) :
    (s.barOpened b late).getReg a = s.getReg a := by
  refine (getReg_setReg_other _ _ rel).trans ?_
  cases late with
  | false => rfl
  | true => exact getReg_raiseFlag_other _ flag count

theorem barWait_barOpened {b : Fin 16} {late : Bool} {i : Nat} : (s.barOpened b late).barWait i b = s.barWait i b := by
  refine barWait_congr ?_ ?_ ?_ _
  · cases late <;> rfl
  · cases late <;> rfl
  · refine getReg_barOpened ?_ ?_ ?_ <;> simp only [Reg.seqStartCfg, Reg.trpFlags, Reg.barRel] <;> omega

theorem barTurn_none {t : State} {set : Word} {b n : Nat} (h : t.barWait n b = none) : barTurn set b n t = t := by
  unfold barTurn
  rw [h]
  rfl

/-- The release of a barrier in which one ring waits (R167, R370). -/
theorem releaseBar_one {b : Fin 16} {late : Bool} {n : RingId} {t : State} (alone : ∀ i, i < 12 → i ≠ n.val → s.barWait i b = none)
    (turn : barTurn (s.getReg (Reg.trpBar b)) b n (s.barOpened b late) = t) (kept : (s.barOpened b late).WaitsKept n t) :
    s.releaseBar b late = t := by
  rw [releaseBar_eq]
  refine forBelow_only n.isLt turn (fun i small ne => barTurn_none (barWait_barOpened.trans (alone i small ne))) fun i small ne => ?_
  exact barTurn_none ((kept.barWait ne small b).trans (barWait_barOpened.trans (alone i small ne)))

end

end State

end Sys2Proof.Machine
end

section
/-! PROOF. Messages between chips, settled (R348, R364-R372, R394). -/

namespace Sys2Proof.Machine

namespace State

section
variable {s : State} {k : Fin 4} {x : BitVec 64}

/-- A chip arrives when all its participants wait with one mask, or with masks that differ for the first time (R368). -/
theorem arriveDue_iff {b : Nat} {m : BitVec 16} {rest : List (BitVec 16)} (masks : s.barMasks b = some (m :: rest)) :
    s.arriveDue b = true ↔ (s.bar b).arrived = none ∧ (rest.all (· == m) = true ∨ (s.bar b).mismatch = false) := by
  unfold arriveDue
  rw [masks]
  simp [Option.isNone_iff_eq_none]

/-- The number of a marker as a source of the time-interval units (R393). -/
def tmarkSource (k : Fin 4) (x : BitVec 64) : Nat := 24 + 16 * k.val + fld x 56 53

/-- The bin of the edge that a TMARK flit names (R394). -/
def tmarkBin (s : State) (x : BitVec 64) : Nat := 64 * (s.beat - (s.db - s.dbLatest 16 (fld x 52 37))) + fld x 36 31

/-- A unit takes the edge of the marker that its CTRL names (R393, R394). -/
def tmarkTurn (k : Fin 4) (x : BitVec 64) (bin u : Nat) (s : State) : State :=
  if s.regFld (Reg.tiuCtrl u) 11 8 = fld x 56 53 then s.offerTiu u (24 + k) bin (bit x 30) else s

/-- What a TMARK flit does (R394). -/
theorem tmarkFlit_eq :
    s.tmarkFlit k x =
      if ¬ s.trap.dbValid = true then s.countRx k
      else if s.srcEdges.any (fun e => e.1 == tmarkSource k x && decide (s.tmarkBin x < e.2 + 128)) = true then s.countRx k
      else ({ s.countRx k with srcEdges := (tmarkSource k x, s.tmarkBin x) :: s.srcEdges.filter fun e => e.1 != tmarkSource k x } :
        State).forBelow 4 (tmarkTurn k x (s.tmarkBin x)) := by
  have bin : 64 * ((s.countRx k).beat - ((s.countRx k).db - (s.countRx k).dbLatest 16 (fld x 52 37))) + fld x 36 31 = s.tmarkBin x := by
    rw [db_countRx, dbLatest_countRx]
    rfl
  have same : s.tmarkFlit k x =
      if ¬ s.trap.dbValid = true then s.countRx k
      else
        let bin := 64 * ((s.countRx k).beat - ((s.countRx k).db - (s.countRx k).dbLatest 16 (fld x 52 37))) + fld x 36 31
        if ((s.countRx k).srcTakes (tmarkSource k x) bin).2 = true then
          ((s.countRx k).srcTakes (tmarkSource k x) bin).1.forBelow 4 (tmarkTurn k x bin)
        else ((s.countRx k).srcTakes (tmarkSource k x) bin).1 := rfl
  rw [same, bin]
  dsimp only
  unfold srcTakes
  have edges : (s.countRx k).srcEdges = s.srcEdges := rfl
  rw [edges]
  by_cases h : s.srcEdges.any (fun e => e.1 == tmarkSource k x && decide (s.tmarkBin x < e.2 + 128)) = true
  · rw [if_pos h, if_pos h]
    rfl
  · rw [if_neg h, if_neg h]
    rfl

theorem tmarkTurn_other {t : State} {bin i : Nat} (other : t.regFld (Reg.tiuCtrl i) 11 8 ≠ fld x 56 53) : tmarkTurn k x bin i t = t :=
  if_neg other

/-- An edge that no unit names is offered to none (R394). -/
theorem tmarkTurns_none {t : State} {bin : Nat} (none : ∀ i, i < 4 → t.regFld (Reg.tiuCtrl i) 11 8 ≠ fld x 56 53) :
    t.forBelow 4 (tmarkTurn k x bin) = t :=
  forBelow_still fun i small => tmarkTurn_other (none i small)

/-- An edge that one unit names is offered to it (R394). -/
theorem tmarkTurns_one {t : State} {bin i : Nat} (small : i < 4) (mine : t.regFld (Reg.tiuCtrl i) 11 8 = fld x 56 53)
    (others : ∀ m, m < 4 → m ≠ i → t.regFld (Reg.tiuCtrl m) 11 8 ≠ fld x 56 53) :
    t.forBelow 4 (tmarkTurn k x bin) = t.offerTiu i (24 + k) bin (bit x 30) := by
  refine forBelow_only small (if_pos mine) (fun m low ne => tmarkTurn_other (others m low ne)) fun m low ne => tmarkTurn_other ?_
  unfold regFld
  rw [tiuCtrl_offerTiu]
  exact others m low ne

/-- The state in which a TMARK flit was counted and its edge taken (R394). -/
theorem tiuCtrl_took (e : List (Nat × Nat)) (i : Nat) :
    ({ s.countRx k with srcEdges := e } : State).regFld (Reg.tiuCtrl i) 11 8 = s.regFld (Reg.tiuCtrl i) 11 8 := by
  have same : (s.countRx k).getReg (Reg.tiuCtrl i) = s.getReg (Reg.tiuCtrl i) := by
    refine getReg_countRx ?_ ?_ <;> simp only [Reg.tiuCtrl, Reg.linkRxFlitsLo] <;> omega
  unfold getReg at same
  unfold regFld getReg
  dsimp only
  rw [same]

theorem exec_barrierRelease {b : Fin 16} {r : Nat} {late : Bool} (due : s.barRelease b = some (r, late)) :
    exec (.barrierRelease b) s = .next (if r ≤ s.db then s.releaseBar b late else s) := by
  show execBarrierRelease b s = _
  unfold execBarrierRelease
  rw [due]

theorem exec_decFlitTransmit {d : Flit} (free : s.slotFree k = true) (next : s.nextFlit k = some d) (dec : d.typ = 1) :
    exec (.decFlitTransmit k) s = .next (s.takeSlot k d) := by
  show execDecFlitTransmit k s = _
  unfold execDecFlitTransmit
  rw [if_pos free, next]
  exact congrArg Host.Outcome.next (if_pos dec)

/-- A front end that goes on is as its own steps leave it, whatever flag stands aside (R370). -/
theorem barTurn_running {set : Word} {b n : Nat} (waits : (s.barWait n b).isSome = true) (run : (s.seq n).st ≠ .armed)
    (member : bit set n = true) : barTurn set b n s = (s.refNow n).goTo n (s.seqPc n + 1) 0 := by
  obtain ⟨m, some⟩ := Option.isSome_iff_exists.mp waits
  unfold barTurn
  rw [some, member]
  exact if_neg run

theorem barTurn_armed {set : Word} {b n : Nat} (waits : (s.barWait n b).isSome = true) (armed : (s.seq n).st = .armed)
    (member : bit set n = true) : barTurn set b n s = s.startRing n := by
  obtain ⟨m, some⟩ := Option.isSome_iff_exists.mp waits
  unfold barTurn
  rw [some, member]
  exact if_pos armed

end

end State

/-- Settles O43. -/
theorem trapezeMessages : Obligations.TrapezeMessages := by
  intro s g p u k b n x v hi f src y
  have good : ∀ {t u : State}, t = u → .next t = (.next u : Res) := congrArg Host.Outcome.next
  have off : ∀ {c : Bool}, c = false → ¬ c = true := fun h => by rw [h]; exact Bool.false_ne_true
  have long : (b : Nat) < s.trap.bars.length := hi.bars_length.symm ▸ b.isLt
  refine ⟨fun takes bits => ?_, fun d free next dec => ?_, fun busy => good (if_neg (off busy)), fun taken => ?_, fun early => ?_,
    fun e alone => ?_, fun m rest masks new => ⟨fun alike => ?_, fun differ unreported => ?_⟩, fun masks => ?_, fun taken named => ?_,
    fun r late due => ⟨fun early => ?_, fun past nobody => ?_, fun past alone waits => ⟨fun armed member => ?_, fun run member => ?_⟩⟩,
    fun taken => ?_, fun taken => ?_⟩
  · refine good ((State.hostWrite_trpAbort takes bits).trans ?_)
    cases bit v 31 <;> rfl
  · rw [State.exec_decFlitTransmit free next dec, State.takeSlot_plain (by rw [dec]; decide)]
  · have run : exec (.decFlitReceive k x) s = .next (s.decFlit k x) := good (if_pos taken)
    rw [run, State.decFlit_eq]
    refine ⟨fun none => good (if_pos none), fun some full => good ((if_neg some).trans (if_pos full)), fun some room inTime => ?_,
      fun some room tooLate => ?_⟩
    · refine good ((if_neg some).trans ((if_neg (Nat.not_le.mpr room)).trans ?_))
      rw [decide_eq_false (Nat.not_lt.mpr inTime), if_neg (Nat.not_lt.mpr inTime)]
      rfl
    · refine good ((if_neg some).trans ((if_neg (Nat.not_le.mpr room)).trans ?_))
      rw [decide_eq_true tooLate, if_pos tooLate]
      rfl
  · have none : s.trap.relBuf.filter (fun e => decide (e.release ≤ s.db)) = [] :=
      List.filter_eq_nil_iff.mpr fun e mem => by simpa using early e mem
    have all : s.trap.relBuf.filter (fun e => !decide (e.release ≤ s.db)) = s.trap.relBuf :=
      List.filter_eq_self.mpr fun e mem => by simpa using early e mem
    show execDecRelease s = _
    unfold execDecRelease
    dsimp only
    rw [none, all]
    rfl
  · show execDecRelease s = _
    unfold execDecRelease
    dsimp only
    rw [alone]
    rfl
  · have same : rest.all (· == m) = true := List.all_eq_true.mpr fun i mem => beq_iff_eq.mpr (alike i mem)
    have run : exec (.barrierArrive b) s = .next (s.arrive b) := good (if_pos ((State.arriveDue_iff masks).mpr ⟨new, .inl same⟩))
    obtain ⟨arrived, mask, got, rings, mem⟩ := State.arrive_marks hi b masks same
    exact ⟨_, run, arrived, mask, got, rings, mem⟩
  · obtain ⟨i, mem, ne⟩ := differ
    have other : ¬ rest.all (· == m) = true := fun all => ne (beq_iff_eq.mp (List.all_eq_true.mp all i mem))
    have run : exec (.barrierArrive b) s = .next (s.arrive b) :=
      good (if_pos ((State.arriveDue_iff masks).mpr ⟨new, .inr unreported⟩))
    rw [run]
    unfold State.arrive
    rw [masks]
    exact good (if_neg other)
  · have idle : s.arriveDue b = false := by
      unfold State.arriveDue
      rw [masks]
    exact good (if_neg (off idle))
  · have run : exec (.barFlitReceive k x) s = .next (s.barFlit k x) := good (if_pos taken)
    rw [run, State.barFlit_eq named]
    refine ⟨fun new agrees => ?_, fun again => good (if_pos ?_)⟩
    · have fresh : ¬ ((s.bar b).got.any (fun g => g.1 == flitSrc x) = true ∨
          ((s.bar b).arrived.isSome = true ∧ BitVec.ofNat 16 (fld x 34 19) ≠ (s.bar b).mask)) := by
        rintro (h | ⟨here, differs⟩)
        · exact off new h
        · rcases agrees with none | same
          · exact nomatch here.symm.trans (congrArg Option.isSome none)
          · exact differs same
      have size : (b : Nat) < (s.received k x).trap.bars.length := by rw [State.trap_received]; exact long
      have mine := State.bar_modBar_self size fun y =>
        { y with got := y.got ++ [(flitSrc x, s.dbLatest 16 (fld x 50 35), BitVec.ofNat 16 (fld x 34 19))] }
      obtain ⟨o, bar, rings, mem⟩ := State.barCheck_marks (b := b.val) (s := (s.received k x).modBar b fun y =>
        { y with got := y.got ++ [(flitSrc x, s.dbLatest 16 (fld x 50 35), BitVec.ofNat 16 (fld x 34 19))] })
        (by rw [show ∀ (u : State) f, (u.modBar b f).trap.bars.length = u.trap.bars.length from fun _ _ => List.length_modify _ _ _]
            exact size)
      obtain ⟨kr, km⟩ := (State.linked_received s k x).kept
      rw [mine, State.bar_received] at bar
      exact ⟨_, good (if_neg fresh), congrArg Barrier.got bar, rings.trans kr, mem.trans km⟩
    · exact again
  · rw [State.exec_barrierRelease due]
    exact good (if_neg (Nat.not_le.mpr early))
  · rw [State.exec_barrierRelease due, if_pos past, State.releaseBar_eq]
    exact good (State.forBelow_still fun i small => State.barTurn_none (State.barWait_barOpened.trans (nobody i small)))
  · rw [State.exec_barrierRelease due, if_pos past]
    have stands : ((s.barOpened b late).seq n).st = .armed := by
      rw [← armed]
      cases late <;> rfl
    refine good (State.releaseBar_one (n := n) alone ?_ ((State.WaitsKept.refl _ n).startRing))
    exact State.barTurn_armed (by rw [State.barWait_barOpened]; exact waits) stands member
  · rw [State.exec_barrierRelease due, if_pos past]
    have stands : ((s.barOpened b late).seq n).st ≠ .armed := by
      cases late <;> exact run
    have pc : (s.barOpened b late).seqPc n = s.seqPc n := by
      unfold State.seqPc State.regFld
      rw [State.getReg_barOpened] <;> simp only [Reg.seqPc, Reg.trpFlags, Reg.barRel] <;> omega
    refine good (State.releaseBar_one (n := n) alone ?_ (((State.WaitsKept.refl _ n).modRing _).goTo _ _))
    refine (State.barTurn_running (by rw [State.barWait_barOpened]; exact waits) stands member).trans ?_
    rw [pc]
    rfl
  · have run : exec (.abortFlitReceive k x) s = .next (s.abortFlit k x) := good (if_pos taken)
    rw [run, State.abortFlit_eq]
    exact ⟨fun named => good (if_pos named), fun other => good (if_neg (off other))⟩
  · have run : exec (.tmarkFlitReceive k x) s = .next (s.tmarkFlit k x) := good (if_pos taken)
    rw [run, State.tmarkFlit_eq]
    refine ⟨fun invalid => good (if_pos (off invalid)), fun ⟨e, mem, source, near⟩ => ?_, fun valid far => ?_⟩
    · have dead : s.srcEdges.any (fun e => e.1 == State.tmarkSource k x && decide (s.tmarkBin x < e.2 + 128)) = true :=
        List.any_eq_true.mpr ⟨e, mem, by rw [Bool.and_eq_true]; exact ⟨beq_iff_eq.mpr source, decide_eq_true near⟩⟩
      by_cases valid : s.trap.dbValid = true
      · exact good ((if_neg (not_not_intro valid)).trans (if_pos dead))
      · exact good (if_pos valid)
    · have alive : ¬ s.srcEdges.any (fun e => e.1 == State.tmarkSource k x && decide (s.tmarkBin x < e.2 + 128)) = true := fun h => by
        obtain ⟨e, mem, both⟩ := List.any_eq_true.mp h
        rw [Bool.and_eq_true] at both
        exact absurd (of_decide_eq_true both.2) (Nat.not_lt.mpr (far e mem (beq_iff_eq.mp both.1)))
      rw [if_neg (not_not_intro valid), if_neg alive]
      refine ⟨fun none => good (State.tmarkTurns_none fun i small => ?_), fun i small mine others =>
        good (State.tmarkTurns_one small ?_ fun m low ne => ?_)⟩
      · rw [State.tiuCtrl_took _ _]
        exact none i small
      · rw [State.tiuCtrl_took _ _]
        exact mine
      · rw [State.tiuCtrl_took _ _]
        exact others m low ne

end Sys2Proof.Machine
end

section
/-! PROOF. Network time: snapshots and adjustments (R376-R381). -/

namespace Sys2Proof.Machine

namespace State

theorem getReg64_setReg_other (s : State) {lo a : Nat} (v : Word) (low : lo ≠ a) (high : lo + 4 ≠ a) :
    (s.setReg a v).getReg64 lo = s.getReg64 lo := by
  unfold getReg64
  rw [getReg_setReg_other _ _ low, getReg_setReg_other _ _ high]

theorem getReg64_setReg64_other (s : State) {lo a : Nat} (x : BitVec 64) (apart : lo + 4 < a ∨ a + 4 < lo) :
    (s.setReg64 a x).getReg64 lo = s.getReg64 lo := by
  unfold getReg64
  rw [getReg_setReg64_other _ _ (by omega) (by omega), getReg_setReg64_other _ _ (by omega) (by omega)]

theorem getReg64_raiseFlag_other (s : State) {lo a b : Nat} (low : lo ≠ a ∧ lo + 4 ≠ a)
    (count : lo ≠ flagCntAddr a b ∧ lo + 4 ≠ flagCntAddr a b) : (s.raiseFlag a b).getReg64 lo = s.getReg64 lo := by
  unfold getReg64
  rw [getReg_raiseFlag_other _ low.1 count.1, getReg_raiseFlag_other _ low.2 count.2]

/-- A snapshot holds one beat's counter and time (R378). -/
theorem snapDo_marks {g : State} (hi : g.Inv) :
    let t := g.snapDo
    t.getReg64 Reg.snapBeatLo = g.beatCount ∧ t.getReg64 Reg.snapNsLo = intNs (g.netTime g.beat) ∧
      t.getReg Reg.snapSub = (subNs (g.netTime g.beat)).zeroExtend 32 ∧
      (∀ a, a ∉ [Reg.snapBeatLo, Reg.snapBeatLo + 4, Reg.snapNsLo, Reg.snapNsLo + 4, Reg.snapSub] → t.getReg a = g.getReg a) ∧
      ∃ r, t = { g with regs := r } := by
  have i1 := setReg64_inv Reg.snapBeatLo g.beatCount hi
  have i2 := setReg64_inv Reg.snapNsLo (intNs (g.netTime g.beat)) i1
  unfold snapDo
  refine ⟨?_, ?_, getReg_setReg_self i2.regs_wf _ _, fun a other => ?_, _, rfl⟩
  · rw [getReg64_setReg_other _ _ (by decide) (by decide), getReg64_setReg64_other _ _ (by decide), getReg64_setReg64 hi.regs_wf]
  · rw [getReg64_setReg_other _ _ (by decide) (by decide), getReg64_setReg64 i1.regs_wf]
  · simp only [List.mem_cons, List.not_mem_nil, or_false, not_or] at other
    obtain ⟨beatLo, beatHi, nsLo, nsHi, sub⟩ := other
    rw [getReg_setReg_other _ _ sub, getReg_setReg64_other _ _ nsLo nsHi, getReg_setReg64_other _ _ beatLo beatHi]

section
variable {s g : State} {p : Port} {u : Sid}

theorem exec_snapCapture (takes : s.Takes p u Reg.snapCmd g) : exec (.snapCapture p u) s = .next (g.snapDo.wrote p Reg.snapCmd) :=
  congrArg Host.Outcome.next (write_takes (v := 1) takes (by decide) findAt_snapCmd (by decide) (by decide) rfl rfl)

/-- A write of ADJ_CTRL whose check passes (R380). -/
theorem hostWrite_adjCtrl (takes : s.Takes p u Reg.adjCtrl g) {v : Word} (reserved : v &&& ~~~(0x103 : Word) = 0)
    (check : g.adjCtrlCheck v = .ok) (free : v &&& 1 &&& g.getReg Reg.adjCtrl = 0) :
    s.hostWrite p u Reg.adjCtrl v = (g.adjCtrlDo v).wrote p Reg.adjCtrl :=
  hostWrite_takes takes (by decide) findAt_adjCtrl rfl nofun (by decide) reserved rfl check free

theorem exec_adjArm (takes : s.Takes p u Reg.adjCtrl g) (early : g.beat + 1500 ≤ g.adjBeat) (near : g.adjBeat ≤ g.beat + 2 ^ 32)
    (own : ¬ (g.regBit Reg.ptpCtrl 0 = true ∧ g.regBit Reg.ptpCtrl 10 = false)) (free : g.adjPending = false) (mode : Bool) :
    exec (.adjArm p u mode) s = .next ((g.setReg Reg.adjCtrl (BitVec.ofNat 32 (1 + 256 * mode.toNat))).wrote p Reg.adjCtrl) := by
  have host : (!(true && g.regBit Reg.ptpCtrl 0 && !g.regBit Reg.ptpCtrl 10)) = true := by
    cases h0 : g.regBit Reg.ptpCtrl 0 with
    | false => rfl
    | true =>
      cases h10 : g.regBit Reg.ptpCtrl 10 with
      | false => exact absurd ⟨h0, h10⟩ own
      | true => rfl
  have arm : g.adjArmCheck true = .ok := by
    refine Err.first_ok ?_
    simp only [List.mem_cons, List.not_mem_nil, or_false, forall_eq_or_imp, forall_eq]
    refine ⟨?_, ?_, ?_, ?_⟩
    · rw [decide_eq_true early]; rfl
    · rw [decide_eq_true near]; rfl
    · rw [host]; rfl
    · rw [free]; rfl
  have armBit : ∀ m : Bool, bit (BitVec.ofNat 32 (1 + 256 * m.toNat)) 0 = true ∧ bit (BitVec.ofNat 32 (1 + 256 * m.toNat)) 1 = false ∧
      BitVec.ofNat 32 (1 + 256 * m.toNat) &&& ~~~(0x103 : Word) = 0 ∧
      BitVec.ofNat 32 (1 + 256 * m.toNat) &&& 0x101 = BitVec.ofNat 32 (1 + 256 * m.toNat) ∧
      BitVec.ofNat 32 (1 + 256 * m.toNat) &&& 1 = BitVec.ofNat 32 (2 ^ 0) := by decide
  obtain ⟨b0, b1, reserved, kept, one⟩ := armBit mode
  have check : g.adjCtrlCheck (BitVec.ofNat 32 (1 + 256 * mode.toNat)) = .ok := by
    unfold adjCtrlCheck
    rw [b0, b1, arm]
    rfl
  have effect : g.adjCtrlDo (BitVec.ofNat 32 (1 + 256 * mode.toNat)) =
      g.setReg Reg.adjCtrl (BitVec.ofNat 32 (1 + 256 * mode.toNat)) := by
    unfold adjCtrlDo
    rw [b1]
    exact congrArg (g.setReg _) kept
  rw [← effect]
  exact congrArg Host.Outcome.next (hostWrite_adjCtrl takes reserved check (by rw [one]; exact one_and (by decide) free))

theorem exec_adjCancel (takes : s.Takes p u Reg.adjCtrl g) (pending : g.adjPending = true) :
    exec (.adjCancel p u) s = .next ((g.setReg Reg.adjCtrl 0).wrote p Reg.adjCtrl) := by
  have check : g.adjCtrlCheck 2 = .ok := by
    show Err.first [Err.need g.adjPending .eState, .ok] = .ok
    rw [pending]
    rfl
  refine congrArg Host.Outcome.next (hostWrite_adjCtrl (v := 2) takes (by decide) check ?_)
  exact BitVec.zero_and

end

/-- The offset that an adjustment puts in force (R381). -/
def adjOffset (s : State) : Int :=
  let ns := s.getReg64 Reg.adjOffNsLo
  let sub : Int := (s.regFld Reg.adjOffSub 15 0 : Nat) * 2 ^ 24
  if s.regBit Reg.adjCtrl 8 then (ns.toNat : Int) * 2 ^ 40 + sub
  else s.time.offset + (s.adjBeat : Int) * ((s.increment : Int) - (((s.getReg64 Reg.adjIncLo).toNat % 2 ^ 48 : Nat) : Int)) +
    (ns.toInt * 2 ^ 40 + sub)

/-- An adjustment takes effect (R381). -/
theorem applyAdj_marks {s : State} (hi : s.Inv) :
    let t := s.applyAdj s.adjBeat
    t.getReg64 Reg.incrementLo = BitVec.ofNat 64 ((s.getReg64 Reg.adjIncLo).toNat % 2 ^ 48) ∧ t.adjPending = false ∧
      t.getReg64 Reg.adjLastLo = BitVec.ofNat 64 s.adjBeat ∧ bit (t.getReg Reg.timeFlags) 0 = true ∧ t.time.offset = s.adjOffset ∧
      t.mem = s.mem ∧ t.rings = s.rings := by
  obtain ⟨u, time, run, uInv, uReg, uTime, uMem, uRings⟩ : ∃ (u : State) (x : Timing),
      s.applyAdj s.adjBeat = (((u.setReg64 Reg.incrementLo (BitVec.ofNat 64 ((s.getReg64 Reg.adjIncLo).toNat % 2 ^ 48))).setBit
        Reg.adjCtrl 0 false).setReg64 Reg.adjLastLo (BitVec.ofNat 64 s.adjBeat)).raiseFlag Reg.timeFlags 0 ∧ u.Inv ∧
      (∀ a, u.getReg a = s.getReg a) ∧ u.time.offset = s.adjOffset ∧ u.mem = s.mem ∧ u.rings = s.rings := by
    refine ⟨_, s.time, rfl, ?_, fun _ => rfl, rfl, rfl, rfl⟩
    exact hi.upd rfl
  have i1 := setReg64_inv Reg.incrementLo (BitVec.ofNat 64 ((s.getReg64 Reg.adjIncLo).toNat % 2 ^ 48)) uInv
  have i2 := setBit_inv Reg.adjCtrl 0 false i1
  have i3 := setReg64_inv Reg.adjLastLo (BitVec.ofNat 64 s.adjBeat) i2
  rw [run]
  refine ⟨?_, ?_, ?_, bit_raiseFlag i3 _ (by decide), uTime, uMem, uRings⟩
  · rw [getReg64_raiseFlag_other _ (by decide) (by decide), getReg64_setReg64_other _ _ (by decide)]
    exact (getReg64_setReg_other _ _ (by decide) (by decide)).trans (getReg64_setReg64 uInv.regs_wf _ _)
  · unfold adjPending regBit
    rw [getReg_raiseFlag_other _ (by decide) (by decide), getReg_setReg64_other _ _ (by decide) (by decide)]
    unfold setBit
    rw [getReg_setReg_self i1.regs_wf, bit_putBit _ _ (by decide), if_pos rfl]
  · rw [getReg64_raiseFlag_other _ (by decide) (by decide), getReg64_setReg64 i2.regs_wf]

/-- A change of rate alone takes effect without a step (R381). -/
theorem applyAdj_steady {s t : State} (rate : t.getReg64 Reg.incrementLo = BitVec.ofNat 64 ((s.getReg64 Reg.adjIncLo).toNat % 2 ^ 48))
    (offset : t.time.offset = s.adjOffset) (mode : s.regBit Reg.adjCtrl 8 = false) (ns : s.getReg64 Reg.adjOffNsLo = 0)
    (sub : ((s.regFld Reg.adjOffSub 15 0 : Nat) * 2 ^ 24 : Int) = 0) :
    t.time.offset + (s.adjBeat : Int) * (t.increment : Int) = s.time.offset + (s.adjBeat : Int) * (s.increment : Int) := by
  have inc : t.increment = (s.getReg64 Reg.adjIncLo).toNat % 2 ^ 48 := by
    unfold increment
    rw [rate, BitVec.toNat_ofNat]
    omega
  rw [offset, inc]
  unfold adjOffset
  dsimp only
  rw [mode, ns, sub]
  generalize (s.getReg64 Reg.adjIncLo).toNat % 2 ^ 48 = i
  have zero : (0 : BitVec 64).toInt = 0 := rfl
  rw [zero]
  simp only [Bool.false_eq_true, if_false]
  ring

end State

end Sys2Proof.Machine
end

section
/-! PROOF. The PTP unit: its messages, their timestamps and its holdover (R384-R388). -/

namespace Sys2Proof.Machine

namespace State

section
variable {f : State} {p : Port} {m : PtpMsg}

/-- The length of a message by its kind (R384). -/
theorem ptpLen_eq (typ : BitVec 4) :
    ptpLen typ = if typ = 11 then 64 else if typ = 9 ∨ typ = 2 ∨ typ = 3 ∨ typ = 10 then 54 else 44 := by
  revert typ
  decide

/-- A message whose frame the MAC took is processed when the unit takes it (R384, R385). -/
theorem exec_ptpMessageReceive {s : State}
    (taken : s.macTakes p m.head (18 + (if m.layer2 then 0 else if m.v6 then 48 else 28) + ptpLen m.typ) = (f, true)) :
    exec (.ptpMessageReceive p m) s = .next (if (ptpHeadOk m && f.ptpTakes p m) = true then f.ptpReceive p m else f) := by
  show execPtpMessageReceive p m s = _
  unfold execPtpMessageReceive
  dsimp only
  rw [taken]
  rfl

theorem ptpHeadOk_iff : ptpHeadOk m = true ↔ m.layer2 = true ∨
    (headOk (!m.v6) m.head = true ∧ (m.sumRight = true ∨ (m.v6 = false ∧ m.head.checksum = 0))) := by
  unfold ptpHeadOk
  simp only [Bool.or_eq_true, Bool.and_eq_true, Bool.not_eq_true', decide_eq_true_eq]

/-- What a message of each kind does that the unit takes (R388). -/
theorem ptpReceive_sync (kind : m.typ = 0) :
    f.ptpReceive p m =
      if f.fromMaster m = true then
        if m.twoStep = true then (f.modTime fun t => { t with lastSync := f.beat }).modTime fun t =>
          { t with sync := some (m.seqId, f.ingressStamp p m.ago, m.correction) }
        else (f.modTime fun t => { t with lastSync := f.beat }).ptpSync (wireUnits m.origin + m.correction.toInt)
          (f.extend (f.ingressStamp p m.ago))
      else f := by
  unfold ptpReceive
  rw [kind]
  rfl

theorem ptpReceive_delayResp {id : BitVec 16} {t3 : BitVec 48} (kind : m.typ = 9) (asked : f.time.reqT = some (id, t3)) (same : id = m.seqId)
    (mine : m.req = f.ptpIdentity) (master : f.fromMaster m = true) :
    f.ptpReceive p m = f.modTime fun t => { t with
      path := Int.fdiv (t.ms + (wireUnits m.origin - m.correction.toInt - f.extend t3)) 2, reqT := none } := by
  unfold ptpReceive
  rw [kind]
  dsimp only
  rw [asked]
  exact if_pos ⟨same, decide_eq_true mine, master⟩

theorem ptpReceive_delayReq (kind : m.typ = 1) :
    f.ptpReceive p m =
      if f.time.portState = 6 ∧ ¬ f.ptpP2p = true then f.delayResp p m (f.extend (f.ingressStamp p m.ago)) else f := by
  unfold ptpReceive
  rw [kind]
  rfl

theorem ptpReceive_announce (kind : m.typ = 11) : f.ptpReceive p m = f.ptpAnnounced m := by
  unfold ptpReceive
  rw [kind]
  rfl

/-- A measurement that the host steers by itself is recorded, and the port follows (R388). -/
theorem ptpSync_recorded {s : State} (hi : s.Inv) (steered : s.regBit Reg.ptpCtrl 10 = true)
    (follows : s.time.portState = 8 ∨ s.time.portState = 9) (t1 t2 : Int) :
    let t := s.ptpSync t1 t2
    t.time = { s.time with portState := 9, sync := none, ms := t2 - t1 } ∧
      t.getReg64 Reg.ptpOffsetLo = BitVec.ofInt 64 (t2 - t1 - s.time.path) ∧ t.getReg64 Reg.ptpPathLo = BitVec.ofInt 64 s.time.path ∧
      t.getReg Reg.ptpMeas = s.getReg Reg.ptpMeas + 1 := by
  obtain ⟨u, uInv, uTime, uReg, run⟩ : ∃ u : State, u.Inv ∧ u.time = { s.time with ms := t2 - t1, sync := none } ∧
      (∀ a, u.getReg a = s.getReg a) ∧ s.ptpSync t1 t2 = u.ptpMeasure (t2 - t1 - s.time.path) :=
    ⟨s.modTime fun t => { t with ms := t2 - t1, sync := none }, hi.upd rfl, rfl, fun _ => rfl, rfl⟩
  have i1 := setReg64_inv Reg.ptpOffsetLo (BitVec.ofInt 64 (t2 - t1 - s.time.path)) uInv
  have i2 := setReg64_inv Reg.ptpPathLo (BitVec.ofInt 64 u.time.path) i1
  obtain ⟨w, wDef⟩ : ∃ w : State, w = ((u.setReg64 Reg.ptpOffsetLo (BitVec.ofInt 64 (t2 - t1 - s.time.path))).setReg64 Reg.ptpPathLo
    (BitVec.ofInt 64 u.time.path)).addReg Reg.ptpMeas 1 := ⟨_, rfl⟩
  have wTime : w.time = u.time := by rw [wDef]; rfl
  have wOffset : w.getReg64 Reg.ptpOffsetLo = BitVec.ofInt 64 (t2 - t1 - s.time.path) := by
    rw [wDef]
    unfold addReg
    rw [getReg64_setReg_other _ _ (by decide) (by decide), getReg64_setReg64_other _ _ (by decide), getReg64_setReg64 uInv.regs_wf]
  have wPath : w.getReg64 Reg.ptpPathLo = BitVec.ofInt 64 u.time.path := by
    rw [wDef]
    unfold addReg
    rw [getReg64_setReg_other _ _ (by decide) (by decide), getReg64_setReg64 i1.regs_wf]
  have wMeas : w.getReg Reg.ptpMeas = s.getReg Reg.ptpMeas + 1 := by
    rw [wDef]
    unfold addReg
    rw [getReg_setReg_self i2.regs_wf, getReg_setReg64_other _ _ (by decide) (by decide), getReg_setReg64_other _ _ (by decide) (by decide),
      uReg]
    rfl
  have wCtrl : w.regBit Reg.ptpCtrl 10 = true := by
    rw [wDef]
    unfold addReg regBit
    rw [getReg_setReg_other _ _ (by decide), getReg_setReg64_other _ _ (by decide) (by decide),
      getReg_setReg64_other _ _ (by decide) (by decide), uReg]
    exact steered
  have measured : u.ptpMeasure (t2 - t1 - s.time.path) = w.modTime fun t => if t.portState = 8 then { t with portState := 9 } else t := by
    unfold ptpMeasure
    dsimp only
    rw [← wDef]
    exact if_pos wCtrl
  rw [run, measured]
  refine ⟨?_, wOffset, ?_, wMeas⟩
  · show (if w.time.portState = 8 then { w.time with portState := 9 } else w.time) = _
    rw [wTime, uTime]
    rcases follows with h | h
    · rw [if_pos h]
    · rw [if_neg (by rw [h]; decide), ← h]
  · rw [show (u.time.path) = s.time.path by rw [uTime]] at wPath
    exact wPath

theorem fromMaster_iff : f.fromMaster m = true ↔ (f.time.portState = 8 ∨ f.time.portState = 9) ∧ m.src = f.time.parent := by
  unfold fromMaster
  rw [decide_eq_true_eq]

end

section
variable {s : State} {p : Port}

/-- The gap before the next message of a kind lies within its bounds (R404; IEEE 1588). -/
theorem ptpGapBeats_bounds (b k d w : Nat) :
    b + d * (100 - w) / 100 ≤ b + ptpGapBeats k d w ∧ b + ptpGapBeats k d w ≤ b + d * (100 - w) / 100 + 2 * d * w / 100 :=
  ⟨Nat.add_le_add_left (Nat.le_add_right _ _) _, by
    rw [Nat.add_assoc]
    exact Nat.add_le_add_left (Nat.add_le_add_left (Nat.lt_succ_iff.mp (Nat.mod_lt _ (Nat.succ_pos _))) _) _⟩

/-- What leaves a timestamp: a request, or a message sent in two steps (R386). -/
theorem ptpLeaves_stamped {c : OutFrame} (ptp : c.cls = .ptp)
    (kind : fld c.flags 3 0 = 1 ∨ fld c.flags 3 0 = 2 ∨ (fld c.flags 3 0 < 4 ∧ bit c.flags 4 = true)) :
    s.ptpLeaves p c = (if 16 ≤ (s.tsq p).length then
        ((s.satReg (Reg.ptpPortTsqDrop p)).raiseFlag (Reg.ptpPortTsqFlags p) 0).raiseEvent 0x0201 0x01 (BitVec.ofNat 32 p)
      else s.setTsq p (s.tsq p ++ [{ id := c.seq.truncate 16, typ := c.flags.truncate 4, ts := s.egressStamp p }]), c) := by
  have low : ∀ x : BitVec 8, ((x.truncate 4 : BitVec 4).toNat = fld x 3 0) ∧
      (fld x 3 0 = 1 → (x.truncate 4 : BitVec 4) = 1) ∧ (fld x 3 0 = 2 → (x.truncate 4 : BitVec 4) = 2) := by decide
  obtain ⟨value, one, two⟩ := low c.flags
  have sent : ¬ (c.cls ≠ .ptp ∨ 4 ≤ (c.flags.truncate 4 : BitVec 4).toNat) := by
    rw [value]
    rintro (h | h)
    · exact h ptp
    · omega
  have stamped : (c.flags.truncate 4 : BitVec 4) = 1 ∨ (c.flags.truncate 4 : BitVec 4) = 2 ∨ bit c.flags 4 = true := by
    rcases kind with h | h | h
    · exact .inl (one h)
    · exact .inr (.inl (two h))
    · exact .inr (.inr h.2)
  unfold ptpLeaves
  dsimp only
  rw [if_neg sent, if_pos stamped]

end

end State

end Sys2Proof.Machine
end

section
/-! PROOF. Network time and the PTP unit, settled (R376-R388). -/

namespace Sys2Proof.Machine

namespace State

section
variable {s f : State} {p : Port} {m : PtpMsg}

/-- The messages of the PTP unit that it takes, clause by clause (R384, R385, R388). -/
theorem exec_ptp_taken (taken : s.macTakes p m.head (18 + (if m.layer2 then 0 else if m.v6 then 48 else 28) + ptpLen m.typ) = (f, true))
    (takes : f.ptpTakes p m = true ∧ (m.layer2 = true ∨
      (headOk (!m.v6) m.head = true ∧ (m.sumRight = true ∨ (m.v6 = false ∧ m.head.checksum = 0))))) :
    exec (.ptpMessageReceive p m) s = .next (f.ptpReceive p m) := by
  have head : ptpHeadOk m = true := ptpHeadOk_iff.mpr takes.2
  rw [exec_ptpMessageReceive taken, head, takes.1]
  rfl

theorem exec_ptp_discarded
    (taken : s.macTakes p m.head (18 + (if m.layer2 then 0 else if m.v6 then 48 else 28) + ptpLen m.typ) = (f, true))
    (other : ¬ (f.ptpTakes p m = true ∧ (m.layer2 = true ∨
      (headOk (!m.v6) m.head = true ∧ (m.sumRight = true ∨ (m.v6 = false ∧ m.head.checksum = 0)))))) :
    exec (.ptpMessageReceive p m) s = .next f := by
  rw [exec_ptpMessageReceive taken]
  refine congrArg Host.Outcome.next (if_neg fun both => other ?_)
  rw [Bool.and_eq_true] at both
  exact ⟨both.2, ptpHeadOk_iff.mp both.1⟩

theorem exec_ptpMessageSend {typ : BitVec 4} (due : s.ptpSendDue p typ = true) :
    exec (.ptpMessageSend p typ) s = .next (s.ptpSend p typ) := congrArg Host.Outcome.next (if_pos due)

end

end State

/-- Settles O44. -/
theorem networkTimeAdjustments : Obligations.NetworkTimeAdjustments := by
  have good : ∀ {t u : State}, t = u → .next t = (.next u : Res) := congrArg Host.Outcome.next
  have off : ∀ {c : Bool}, c = false → ¬ c = true := fun h => by rw [h]; exact Bool.false_ne_true
  refine ⟨fun s g p u mode hi => ?_, fun s f p m typ c hi => ?_⟩
  · refine ⟨fun takes => ?_, fun takes early near own free => State.exec_adjArm takes early near own free mode,
      fun takes pending => State.exec_adjCancel takes pending, fun pending past => ?_, fun idle => ?_⟩
    · obtain ⟨beat, ns, sub, others, regs⟩ := State.snapDo_marks (takes.inv hi)
      exact ⟨_, State.exec_snapCapture takes, beat, ns, sub, others, regs⟩
    · obtain ⟨rate, done, last, flag, offset, mem, rings⟩ := State.applyAdj_marks hi
      exact ⟨_, good (if_pos ⟨pending, past⟩), rate, done, last, flag, offset,
        fun mode ns sub => State.applyAdj_steady rate offset mode ns sub, mem, rings⟩
    · refine good (if_neg fun ⟨pending, past⟩ => ?_)
      rcases idle with h | h
      · exact off h pending
      · exact absurd past (Nat.not_le.mpr h)
  · intro ip body does ts t2 t1 half
    refine ⟨fun taken => ?_, ?_, fun ptp kind => ?_, fun due => good (if_pos due), fun idle => good (if_neg fun due => ?_)⟩
    · intro takes follows
      have frame : s.macTakes p m.head (18 + (if m.layer2 then 0 else if m.v6 then 48 else 28) + State.ptpLen m.typ) = (f, true) := by
        rw [State.ptpLen_eq]
        exact taken
      have inv : f.Inv := by
        have kept := State.macTakes_inv p m.head (18 + (if m.layer2 then 0 else if m.v6 then 48 else 28) + State.ptpLen m.typ) hi
        rw [frame] at kept
        exact kept
      have run : takes → exec (.ptpMessageReceive p m) s = .next (f.ptpReceive p m) := State.exec_ptp_taken frame
      refine ⟨State.exec_ptp_discarded frame, fun h kind => ⟨fun master two => ?_, fun master one steered => ?_, fun other => ?_⟩,
        fun id t3 h kind asked same master mine => ?_, fun h kind => ⟨fun port e2e => ?_, fun other => ?_⟩, fun h kind foreign => ?_⟩
      · refine (run h).trans (good ((State.ptpReceive_sync kind).trans ?_))
        rw [if_pos (State.fromMaster_iff.mpr master), if_pos two]
        rfl
      · obtain ⟨time, offset, path, meas⟩ := State.ptpSync_recorded (s := f.modTime fun t => { t with lastSync := f.beat }) (inv.upd rfl)
          steered master.1 t1 t2
        refine ⟨_, (run h).trans (good ((State.ptpReceive_sync kind).trans ?_)), time, offset, path, meas⟩
        rw [if_pos (State.fromMaster_iff.mpr master), if_neg (off one)]
        rfl
      · exact (run h).trans (good ((State.ptpReceive_sync kind).trans (if_neg fun master => other (State.fromMaster_iff.mp master))))
      · exact (run h).trans (good (State.ptpReceive_delayResp kind asked same mine (State.fromMaster_iff.mpr master)))
      · exact (run h).trans (good ((State.ptpReceive_delayReq kind).trans (if_pos ⟨port, off e2e⟩)))
      · refine (run h).trans (good ((State.ptpReceive_delayReq kind).trans (if_neg ?_)))
        rintro ⟨port, e2e⟩
        rcases other with h | h
        · exact h port
        · exact e2e h
      · refine (run h).trans (good ((State.ptpReceive_announce kind).trans (if_pos ?_)))
        rcases foreign with h | h | h
        · exact .inl h
        · exact .inr (.inl h)
        · exact .inr (.inr (by rw [h]; decide))
    · refine ⟨fun idle => good (if_neg (off idle)), fun due => ?_⟩
      have run := State.exec_ptpMessageSend due
      have bounds := State.ptpGapBeats_bounds s.beat s.freeCtr
      refine ⟨fun kind => ?_, fun kind => ?_, fun kind => ?_, fun kind => ?_⟩
      all_goals subst kind
      · exact ⟨_, bounds (logBeats (s.ptpLog 7 0)) 30, run⟩
      · exact ⟨_, bounds (logBeats (s.ptpLog 15 8)) 30, run⟩
      · exact ⟨_, bounds (logBeats (s.ptpLog 23 16)) 100, run⟩
      · exact ⟨_, bounds (logBeats (s.ptpLog 23 16)) 30, run⟩
    · rw [State.ptpLeaves_stamped ptp kind]
      exact ⟨fun room => congrArg (·, c) (if_neg (Nat.not_le.mpr room)), fun full => congrArg (·, c) (if_pos full)⟩
    · rcases idle with steered | none
      · unfold State.holdoverDue at due
        rw [steered, Bool.not_true, Bool.and_false, Bool.false_and, Bool.false_and] at due
        exact Bool.false_ne_true due
      · exact off none due

end Sys2Proof.Machine
end

section
/-! PROOF. A time-interval unit from RUN to its statistics (R395, R396). -/

namespace Sys2Proof.Machine

namespace State

/-- There are eight trigger inputs, four time-interval units and sixteen markers (R390, R393, R397). -/
theorem Inv.trigs_length {s : State} (h : s.Inv) : s.trigs.length = 8 := by
  obtain ⟨-, -, -, -, -, -, -, -, trigs, -⟩ := h
  exact trigs

theorem Inv.tius_length {s : State} (h : s.Inv) : s.tius.length = 4 := by
  obtain ⟨-, -, -, -, -, -, -, -, -, tius, -⟩ := h
  exact tius

theorem Inv.marks_length {s : State} (h : s.Inv) : s.marks.length = 16 := by
  obtain ⟨-, -, -, -, -, -, -, -, -, -, marks, -⟩ := h
  exact marks

theorem modTiu_modTiu (s : State) (k : Nat) (f g : Tiu → Tiu) : (s.modTiu k f).modTiu k g = s.modTiu k (g ∘ f) := by
  unfold modTiu
  rw [List.modify_modify_eq]

/-- Registers that are cleared read 0; the others stay. -/
theorem foldl_clear {s : State} (hi : s.Inv) (l : List Nat) :
    let t := l.foldl (fun t a => t.setReg a 0) s
    (∀ a ∈ l, t.getReg a = 0) ∧ (∀ a, a ∉ l → t.getReg a = s.getReg a) ∧ ∃ r, t = { s with regs := r } := by
  induction l generalizing s with
  | nil => exact ⟨nofun, fun _ _ => rfl, _, rfl⟩
  | cons b l ih =>
    obtain ⟨clear, others, r, fields⟩ := ih (setReg_inv b 0 hi)
    refine ⟨fun a mem => ?_, fun a other => ?_, r, fields⟩
    · by_cases later : a ∈ l
      · exact clear a later
      · have here : a = b := (List.mem_cons.mp mem).resolve_right later
        subst here
        exact (others a later).trans (getReg_setReg_self hi.regs_wf _ _)
    · rw [List.mem_cons, not_or] at other
      exact (others a other.2).trans (getReg_setReg_other _ _ other.1)

section
variable {s g : State} {p : Port} {u : Sid} {k : Fin 4}

/-- A write of a unit's CMD whose check passes (R396). -/
theorem hostWrite_tiuCmd (takes : s.Takes p u (Reg.tiuCmd k) g) {v : Word} (reserved : v &&& ~~~(0x3 : Word) = 0)
    (check : g.tiuCmdCheck k v = .ok) (free : v &&& 1 &&& BitVec.ofNat 32 (g.tiu k).running.toNat = 0) :
    s.hostWrite p u (Reg.tiuCmd k) v = (g.tiuCmdDo k v).wrote p (Reg.tiuCmd k) := by
  have coded : RegDesc.reserved { name := .tiuCmd, off := 0x408, dims := [(0x40, 4)], lease := .chip, wo := 0x2, w1s := 0x1 } =
      ~~~(0x3 : Word) := by decide
  exact hostWrite_takes takes (by simp only [Reg.tiuCmd]; omega) (findAt_tiuCmd k) rfl nofun (by dsimp only; decide) (by rw [coded]; exact reserved) rfl check
    free

/-- The registers that RUN clears (R396). -/
def tiuStatRegs (k : Nat) : List Nat :=
  [Reg.tiuCount k, Reg.tiuMin k, Reg.tiuMax k, Reg.tiuStd k, Reg.tiuMeanLo k, Reg.tiuMeanHi k, Reg.tiuOrphans k]

theorem exec_tiuRun (takes : s.Takes p u (Reg.tiuCmd k) g) (up : g.shutting = false) (idle : (g.tiu k).running = false)
    (done : (g.tiu k).endFrom = none) :
    exec (.tiuRun p u k) s =
      .next (((tiuStatRegs k).foldl (fun t a => t.setReg a 0) (g.modTiu k fun _ => { running := true })).wrote p (Reg.tiuCmd k)) := by
  have free : g.tiuBusy k = false := by
    unfold tiuBusy
    rw [idle, done]
    rfl
  have check : g.tiuCmdCheck k 1 = .ok := by
    show ((Err.need (!g.shutting) .eState).orElse (Err.need (!g.tiuBusy k) .eBusy)) = .ok
    rw [up, free]
    rfl
  exact congrArg Host.Outcome.next (hostWrite_tiuCmd (v := 1) takes (by decide) check (by rw [idle]; rfl))

theorem exec_tiuAbort (takes : s.Takes p u (Reg.tiuCmd k) g) (run : (g.tiu k).running = true) :
    exec (.tiuAbort p u k) s = .next ((g.tiuEnd k).wrote p (Reg.tiuCmd k)) := by
  have busy : g.tiuBusy k = true := by
    unfold tiuBusy
    rw [run]
    rfl
  have check : g.tiuCmdCheck k 2 = .ok := by
    show (Err.need (g.tiuBusy k) .eState).orElse .ok = .ok
    rw [busy]
    rfl
  have effect : g.tiuCmdDo k 2 = g.tiuEnd k := if_pos run
  rw [← effect]
  exact congrArg Host.Outcome.next (hostWrite_tiuCmd (v := 2) takes (by decide) check (by rw [run]; rfl))

/-- A unit handles the event that is due (R395). -/
theorem exec_tiuEvent {e : TiuEv} (due : s.tiuDue k = some e) :
    exec (.tiuEvent k) s = .next ((s.modTiu k fun t => { t with evs := t.evs.drop 1 }).tiuHandle k e) := by
  show execTiuEvent k s = _
  unfold execTiuEvent
  rw [due]

/-- What an event does to a unit, by what waits for it (R395). -/
theorem tiuHandle_start {e : TiuEv} (start : e.isStart = true) (none : (s.tiu k).start = none) :
    s.tiuHandle k e = s.modTiu k fun t => { t with start := some e.bin_ } := by
  unfold tiuHandle
  dsimp only
  rw [none, start]

theorem tiuHandle_restart {e : TiuEv} {b : Nat} (start : e.isStart = true) (old : (s.tiu k).start = some b)
    (single : s.regBit (Reg.tiuCtrl k) 31 = false) :
    s.tiuHandle k e = (s.modTiu k fun t => { t with start := some e.bin_ }).raiseFlag (Reg.tiuFlags k) 2 := by
  unfold tiuHandle
  dsimp only
  rw [old, start, single]
  rfl

theorem tiuHandle_orphan {e : TiuEv} (stop : e.isStart = false) (none : (s.tiu k).start = none) :
    s.tiuHandle k e = (s.satReg (Reg.tiuOrphans k)).raiseFlag (Reg.tiuFlags k) 1 := by
  unfold tiuHandle
  dsimp only
  rw [none, stop]

theorem tiuHandle_stop {e : TiuEv} {b : Nat} (stop : e.isStart = false) (open_ : (s.tiu k).start = some b) :
    s.tiuHandle k e = (s.modTiu k fun t => { t with start := none }).tiuTake k (e.bin_ - b) := by
  unfold tiuHandle
  dsimp only
  rw [open_, stop]

/-- An interval that is neither 0 nor too long is taken, and ends the run at N (R396). -/
theorem tiuTake_counted (hi : s.Inv) {x : Nat} (some : 0 < x) (short : x < 2 ^ 32) :
    s.tiuTake k x =
      let t := (s.modTiu k fun t => { t with xs := t.xs ++ [x] }).addReg (Reg.tiuCount k) 1
      if s.tiuN k ≤ (s.tiu k).xs.length + 1 then t.tiuEnd k else t := by
  have nonzero : decide (x = 0) = false := decide_eq_false (Nat.pos_iff_ne_zero.mp some)
  have length : (((s.modTiu k fun t => { t with xs := t.xs ++ [x] }).addReg (Reg.tiuCount k) 1).tiu k).xs.length =
      (s.tiu k).xs.length + 1 := by
    show ((s.modTiu k fun t => { t with xs := t.xs ++ [x] }).tiu k).xs.length = _
    rw [tiu_modTiu_self (hi.tius_length.symm ▸ k.isLt)]
    exact List.length_append
  have limit : ((s.modTiu k fun t => { t with xs := t.xs ++ [x] }).addReg (Reg.tiuCount k) 1).tiuN k = s.tiuN k := by
    unfold tiuN regFld addReg
    rw [getReg_setReg_other _ _ (by simp only [Reg.tiuN, Reg.tiuCount]; omega)]
    rfl
  unfold tiuTake
  rw [if_neg (Nat.not_le.mpr short), nonzero]
  dsimp only [raiseIf, Bool.false_eq_true, if_false]
  rw [if_neg Bool.false_ne_true, limit, length]

/-- The statistics of an ended run (R396). -/
theorem exec_tiuDone (ended : (s.tiu k).endFrom.isSome = true) :
    exec (.tiuDone k) s = .next (((((s.setReg (Reg.tiuMin k) (BitVec.ofNat 32 (((s.tiu k).xs.min?).getD 0))).setReg (Reg.tiuMax k)
      (BitVec.ofNat 32 (((s.tiu k).xs.max?).getD 0))).setReg (Reg.tiuStd k) (BitVec.ofNat 32 (tiuStd (s.tiu k).xs))).setReg64
        (Reg.tiuMeanLo k) (BitVec.ofNat 64 (tiuMean (s.tiu k).xs))).modTiu k fun t => { t with endFrom := none, done := true }) :=
  congrArg Host.Outcome.next (if_pos ended)

end

end State

/-- Settles O46. -/
theorem timeIntervalUnits : Obligations.TimeIntervalUnits := by
  intro s g p u k e hi q cmd f stat
  have good : ∀ {t u : State}, t = u → .next t = (.next u : Res) := congrArg Host.Outcome.next
  have size : (k : Nat) < s.tius.length := hi.tius_length.symm ▸ k.isLt
  have unit : f.tiu k = { q with evs := q.evs.drop 1 } := State.tiu_modTiu_self size _
  have start : (f.tiu k).start = q.start := by rw [unit]
  have xs : (f.tiu k).xs = q.xs := by rw [unit]
  refine ⟨fun takes up idle done => ?_, fun takes run => State.exec_tiuAbort takes run, fun none => ?_, fun due first free => ?_,
    fun b due first old single => ?_, fun due stop free => ?_, fun b due stop since long => ?_, fun b due stop since some short => ?_,
    fun none => good (if_neg (by rw [show (s.tiu k).endFrom = Option.none from none]; exact Bool.false_ne_true)), fun ended => ?_⟩
  · have gi : g.Inv := takes.inv hi
    have inv := State.modTiu_inv k (fun _ => { running := true }) gi
    obtain ⟨clear, others, r, fields⟩ := State.foldl_clear inv (State.tiuStatRegs k)
    have run := State.exec_tiuRun takes up idle done
    generalize List.foldl _ _ (State.tiuStatRegs k) = t at clear others fields run
    refine ⟨t, run, ?_, clear, others, fun i ne => ?_, ?_, ?_⟩ <;> rw [fields]
    · exact State.tiu_modTiu_self (gi.tius_length.symm ▸ k.isLt) _
    · exact State.tiu_modTiu_ne _ ne
    · rfl
    · rfl
  · show execTiuEvent k s = _
    unfold execTiuEvent
    rw [none]
  · rw [State.exec_tiuEvent due]
    exact good (State.tiuHandle_start first (start.trans free))
  · rw [State.exec_tiuEvent due]
    exact good (State.tiuHandle_restart first (start.trans old) single)
  · rw [State.exec_tiuEvent due]
    exact good (State.tiuHandle_orphan stop (start.trans free))
  · rw [State.exec_tiuEvent due]
    exact good ((State.tiuHandle_stop stop (start.trans since)).trans (if_pos long))
  · have finv : f.Inv := State.modTiu_inv k _ hi
    have inv : (f.modTiu k fun t => { t with start := none }).Inv := State.modTiu_inv k _ finv
    have taken := State.tiuTake_counted (k := k) inv some short
    have kept : ((f.modTiu k fun t => { t with start := none }).tiu k).xs = q.xs :=
      by rw [State.tiu_modTiu_self (finv.tius_length.symm ▸ k.isLt), unit]
    have limit : (f.modTiu k fun t => { t with start := none }).tiuN k = s.tiuN k := rfl
    rw [kept, limit, State.modTiu_modTiu f] at taken
    rw [State.exec_tiuEvent due, State.tiuHandle_stop stop (start.trans since), taken]
    exact ⟨fun more => good (if_neg (Nat.not_le.mpr more)), fun last => good (if_pos last)⟩
  · have i1 := State.setReg_inv (Reg.tiuMin k) (BitVec.ofNat 32 ((q.xs.min?).getD 0)) hi
    have i2 := State.setReg_inv (Reg.tiuMax k) (BitVec.ofNat 32 ((q.xs.max?).getD 0)) i1
    have i3 := State.setReg_inv (Reg.tiuStd k) (BitVec.ofNat 32 (tiuStd q.xs)) i2
    refine ⟨_, State.exec_tiuDone ended, ?_, ?_, ?_, State.getReg64_setReg64 i3.regs_wf _ _, State.tiu_modTiu_self size _, fun a other => ?_⟩
    · rw [State.getReg_modTiu, State.getReg_setReg64_other, State.getReg_setReg_other, State.getReg_setReg_other,
        State.getReg_setReg_self hi.regs_wf] <;> simp only [Reg.tiuMin, Reg.tiuMax, Reg.tiuStd, Reg.tiuMeanLo] <;> omega
    · rw [State.getReg_modTiu, State.getReg_setReg64_other, State.getReg_setReg_other,
        State.getReg_setReg_self i1.regs_wf] <;> simp only [Reg.tiuMax, Reg.tiuStd, Reg.tiuMeanLo] <;> omega
    · rw [State.getReg_modTiu, State.getReg_setReg64_other, State.getReg_setReg_self i2.regs_wf] <;> simp only [Reg.tiuStd, Reg.tiuMeanLo] <;> omega
    · simp only [stat, List.mem_cons, List.not_mem_nil, or_false, not_or] at other
      obtain ⟨-, min, max, std, lo, high, -⟩ := other
      have upper : a ≠ Reg.tiuMeanLo k + 4 := fun e => high (e.trans (by simp only [Reg.tiuMeanLo, Reg.tiuMeanHi]; omega))
      rw [State.getReg_modTiu, State.getReg_setReg64_other _ _ lo upper, State.getReg_setReg_other _ _ std, State.getReg_setReg_other _ _ max,
        State.getReg_setReg_other _ _ min]

end Sys2Proof.Machine
end

section
/-! PROOF. Trigger edges, their latches, and marker outputs (R390-R392, R398-R401). -/

namespace Sys2Proof.Machine

namespace State

theorem modTrig_modTrig (s : State) (i : Nat) (f g : Trig → Trig) : (s.modTrig i f).modTrig i g = s.modTrig i (g ∘ f) := by
  unfold modTrig
  rw [List.modify_modify_eq]

theorem modTrig_congr {s : State} {i : Nat} {f g : Trig → Trig} (h : f (s.trig i) = g (s.trig i)) : s.modTrig i f = s.modTrig i g := by
  unfold modTrig
  rw [modify_congr (d := {}) h]

theorem modMark_congr {s : State} {i : Nat} {f g : Mark → Mark} (h : f (s.markOut i) = g (s.markOut i)) :
    s.modMark i f = s.modMark i g := by
  unfold modMark
  rw [modify_congr (d := {}) h]

/-- The rings that an input latches for, as TRIG_CTRL names them (R390). -/
theorem bit_ringMask (w : Word) {n : Nat} (small : n < 12) : bit (BitVec.ofNat 12 (fld w 27 16)) n = bit w (16 + n) := by
  have value : (BitVec.ofNat 12 (fld w 27 16)).toNat = fld w 27 16 := Nat.mod_eq_of_lt (fld_lt w 27 16)
  show (BitVec.ofNat 12 (fld w 27 16)).toNat.testBit n = _
  rw [value, fld_testBit, decide_eq_true (by omega), Bool.true_and]

/-- Latches that are set, in each ring named and in no other (R390). -/
theorem setLatches_marks {s : State} (hi : s.Inv) (i : Fin 8) (rise : Bool) (l : List Nat) :
    let t := l.foldl (fun t n => t.setLatch n i rise) s
    (∀ n ∈ l, bit (t.getReg (Reg.trigLatch n)) (2 * i + (!rise).toNat) = true) ∧
      (∀ a, (∀ n ∈ l, a ≠ Reg.trigLatch n) → t.getReg a = s.getReg a) ∧ t.trigs = s.trigs := by
  have place : 2 * i.val + (!rise).toNat < 32 := by
    have := Bool.toNat_le (!rise)
    omega
  induction l generalizing s with
  | nil => exact ⟨nofun, fun _ _ => rfl, rfl⟩
  | cons b l ih =>
    obtain ⟨set, others, trigs⟩ := ih (setLatch_inv b i rise hi)
    have here : (s.setLatch b i rise).getReg (Reg.trigLatch b) =
        putBit (s.getReg (Reg.trigLatch b)) (2 * i + (!rise).toNat) true := getReg_setReg_self hi.regs_wf _ _
    refine ⟨fun n mem => ?_, fun a other => ?_, trigs⟩
    · by_cases later : n ∈ l
      · exact set n later
      · have first : n = b := (List.mem_cons.mp mem).resolve_right later
        subst first
        have kept := others (Reg.trigLatch n) fun m mem same => later (by
          have : n = m := by simp only [Reg.trigLatch] at same; omega
          exact this ▸ mem)
        refine (congrArg (bit · _) kept).trans ?_
        rw [here, bit_putBit _ _ place, if_pos rfl]
    · refine (others a fun n mem => other n (List.mem_cons_of_mem _ mem)).trans ?_
      exact getReg_setReg_other _ _ (other b (List.mem_cons_self ..))

/-- An edge that acts leaves its time, and sets the latches of the rings that its input names (R390). -/
theorem trigAct_marks {s : State} (hi : s.Inv) (i : Fin 8) (bin : Nat) (rise : Bool)
    (quiet : ∀ k, k < 4 → (s.tiu k).running = false) (n : RingId) :
    let t := s.trigAct i bin rise
    t.trigs = s.trigs ∧ t.getReg (Reg.trigLastTs i) = ts32 (s.netTimeBin bin) ∧
      t.getReg (Reg.trigLastSub i) = BitVec.ofNat 32 ((subNs (s.netTimeBin bin)).toNat + 2 ^ 16 * (!rise).toNat) ∧
      (s.regBit (Reg.trigCtrl i) (16 + n) = true → bit (t.getReg (Reg.trigLatch n)) (2 * i + (!rise).toNat) = true) ∧
      (s.regBit (Reg.trigCtrl i) (16 + n) = false → t.getReg (Reg.trigLatch n) = s.getReg (Reg.trigLatch n)) := by
  have i1 := setReg_inv (Reg.trigLastTs i) (ts32 (s.netTimeBin bin)) hi
  have i2 := setReg_inv (Reg.trigLastSub i) (BitVec.ofNat 32 ((subNs (s.netTimeBin bin)).toNat + 2 ^ 16 * (!rise).toNat)) i1
  obtain ⟨u, uDef⟩ : ∃ u : State, u = (s.setReg (Reg.trigLastTs i) (ts32 (s.netTimeBin bin))).setReg (Reg.trigLastSub i)
    (BitVec.ofNat 32 ((subNs (s.netTimeBin bin)).toNat + 2 ^ 16 * (!rise).toNat)) := ⟨_, rfl⟩
  rw [← uDef] at i2
  have offered : u.forBelow 4 (fun k t => t.offerTiu k i bin (!rise)) = u := forBelow_still fun k small => by
    have idle : (u.tiu k).running = false := by rw [uDef]; exact quiet k small
    unfold offerTiu
    rw [idle]
    rfl
  have uTs : u.getReg (Reg.trigLastTs i) = ts32 (s.netTimeBin bin) := by
    rw [uDef, getReg_setReg_other _ _ (by simp only [Reg.trigLastTs, Reg.trigLastSub]; omega), getReg_setReg_self hi.regs_wf]
  have uSub : u.getReg (Reg.trigLastSub i) = BitVec.ofNat 32 ((subNs (s.netTimeBin bin)).toNat + 2 ^ 16 * (!rise).toNat) := by
    rw [uDef, getReg_setReg_self i1.regs_wf]
  have uReg : ∀ {a}, a ≠ Reg.trigLastTs i → a ≠ Reg.trigLastSub i → u.getReg a = s.getReg a := fun ts sub => by
    rw [uDef, getReg_setReg_other _ _ sub, getReg_setReg_other _ _ ts]
  have ctrl : u.getReg (Reg.trigCtrl i) = s.getReg (Reg.trigCtrl i) := by
    refine uReg ?_ ?_ <;> simp only [Reg.trigCtrl, Reg.trigLastTs, Reg.trigLastSub] <;> omega
  have run : s.trigAct i bin rise =
      (onesOf (BitVec.ofNat 12 (fld (s.getReg (Reg.trigCtrl i)) 27 16)) 12).foldl (fun t n => t.setLatch n i rise) u := by
    have same : s.trigAct i bin rise = (u.forBelow 4 fun k t => t.offerTiu k i bin (!rise)).forRings
        (BitVec.ofNat 12 ((u.forBelow 4 fun k t => t.offerTiu k i bin (!rise)).regFld (Reg.trigCtrl i) 27 16))
        fun n t => t.setLatch n i rise := by
      rw [uDef]
      rfl
    rw [same, offered]
    unfold forRings regFld
    rw [ctrl]
  obtain ⟨set, others, trigs⟩ := setLatches_marks i2 i rise (onesOf (BitVec.ofNat 12 (fld (s.getReg (Reg.trigCtrl i)) 27 16)) 12)
  have low : ∀ m ∈ onesOf (BitVec.ofNat 12 (fld (s.getReg (Reg.trigCtrl i)) 27 16)) 12, m < 12 := fun m mem => (mem_onesOf.mp mem).1
  rw [run]
  refine ⟨trigs.trans (by rw [uDef]; rfl), ?_, ?_, fun named => set n (mem_onesOf.mpr ⟨n.isLt, (bit_ringMask _ n.isLt).trans named⟩),
    fun other => ?_⟩
  · exact (others _ fun m mem => by simp only [Reg.trigLastTs, Reg.trigLatch]; omega).trans uTs
  · exact (others _ fun m mem => by simp only [Reg.trigLastSub, Reg.trigLatch]; omega).trans uSub
  · refine (others _ fun m mem same => ?_).trans (uReg (by simp only [Reg.trigLastTs, Reg.trigLatch]; omega)
      (by simp only [Reg.trigLastSub, Reg.trigLatch]; omega))
    have here : m = n.val := by simp only [Reg.trigLatch] at same; omega
    have set := (mem_onesOf.mp mem).2
    rw [here, bit_ringMask _ n.isLt] at set
    exact Bool.false_ne_true (other.symm.trans set)

/-- An edge that is taken (R390, R391). -/
theorem trigEdge_taken {s : State} {i bin : Nat} (rise : Bool) (on : s.regBit (Reg.trigCtrl i) 0 = true)
    (far : ∀ b, (s.trig i).last = some b → b + 128 ≤ bin) :
    s.trigEdge i bin rise = (s.modTrig i fun t => { t with last := some bin, pend := t.pend ++ [(bin, rise)] }).trigDeliver i := by
  have alive : ¬ (s.trig i).last.any (fun b => decide (bin < b + 128)) = true := by
    cases last : (s.trig i).last with
    | none => exact Bool.false_ne_true
    | some b => simpa using far b last
  exact (if_neg (not_not_intro on)).trans (if_neg alive)

/-- The only edge that waits at an input, as it is delivered (R390). -/
theorem trigDeliver_one {s : State} {i bin : Nat} {rise : Bool} (one : (s.trig i).pend = [(bin, rise)]) :
    s.trigDeliver i =
      if bin / 64 + 8 ≤ s.beat then (s.modTrig i fun t => { t with pend := [] }).trigAct i bin rise else s := by
  unfold trigDeliver
  dsimp only
  split
  · rename_i due
    have all : [(bin, rise)].filter (fun e => decide (e.1 / 64 + 8 ≤ s.beat)) = [(bin, rise)] := by simp [due]
    have rest : (s.modTrig i fun t => { t with pend := t.pend.filter fun e => !decide (e.1 / 64 + 8 ≤ s.beat) }) =
        s.modTrig i fun t => { t with pend := [] } := modTrig_congr (by rw [one]; simp [due])
    rw [one, all, rest]
    rfl
  · rename_i early
    have none : [(bin, rise)].filter (fun e => decide (e.1 / 64 + 8 ≤ s.beat)) = [] := by simp [early]
    have kept : (s.trig i).pend.filter (fun e => !decide (e.1 / 64 + 8 ≤ s.beat)) = (s.trig i).pend := by rw [one]; simp [early]
    have rest : (s.modTrig i fun t => { t with pend := t.pend.filter fun e => !decide (e.1 / 64 + 8 ≤ s.beat) }) = s.modTrig i id :=
      modTrig_congr (congrArg (fun p => ({ s.trig i with pend := p } : Trig)) kept)
    have still : s.modTrig i id = s := by
      unfold modTrig
      rw [List.modify_id]
    rw [one, none, rest, still]
    rfl

/-! ### Latches that the host clears -/

theorem foldl_clearBits {s : State} (hi : s.Inv) (a : Nat) (l : List Nat) (small : ∀ b ∈ l, b < 32) (i : Nat) :
    bit ((l.foldl (fun t b => t.setBit a b false) s).getReg a) i = (bit (s.getReg a) i && decide (i ∉ l)) := by
  induction l generalizing s with
  | nil => simp
  | cons b l ih =>
    have inv := setBit_inv a b false hi
    rw [List.foldl_cons, ih inv fun c mem => small c (List.mem_cons_of_mem _ mem)]
    have here : (s.setBit a b false).getReg a = putBit (s.getReg a) b false := getReg_setReg_self hi.regs_wf _ _
    rw [here, bit_putBit _ _ (small b (List.mem_cons_self ..))]
    by_cases first : i = b
    · subst first
      simp
    · rw [if_neg first]
      simp [first]

/-- A word below 2^16 has no bit above bit 15. -/
theorem getLsbD_high {v : Word} (small : v.toNat < 2 ^ 16) {i : Nat} (high : 16 ≤ i) : v.getLsbD i = false :=
  Nat.testBit_lt_two_pow (Nat.lt_of_lt_of_le small (Nat.pow_le_pow_right (by decide) high))

/-- Latches that no edge of the beat has set are cleared (R392). -/
theorem getReg_clearLatch {g : State} (hi : g.Inv) (n : RingId) {v : Word} (small : v.toNat < 2 ^ 16)
    (quiet : ∀ b, (Reg.trigLatch n, b) ∉ g.beatSets) :
    (g.clearLatch n v).getReg (Reg.trigLatch n) = g.getReg (Reg.trigLatch n) &&& ~~~v := by
  have plain : ∀ (l : List Nat) (t : State), t.beatSets = g.beatSets →
      l.foldl (fun t b => if (Reg.trigLatch n, b) ∈ t.beatSets then t else t.setBit (Reg.trigLatch n) b false) t =
        l.foldl (fun t b => t.setBit (Reg.trigLatch n) b false) t := by
    intro l
    induction l with
    | nil => exact fun _ _ => rfl
    | cons b l ih =>
      intro t sets
      rw [List.foldl_cons, List.foldl_cons, if_neg (by rw [sets]; exact quiet b)]
      exact ih _ sets
  unfold clearLatch
  rw [plain _ g rfl]
  refine BitVec.eq_of_getLsbD_eq fun i low => ?_
  have cleared := foldl_clearBits hi (Reg.trigLatch n) (onesOf v 16) (fun b mem => by have := (mem_onesOf.mp mem).1; omega) i
  refine cleared.trans ?_
  rw [BitVec.getLsbD_and, BitVec.getLsbD_not, decide_eq_true low, Bool.true_and]
  have member : decide (i ∉ onesOf v 16) = !v.getLsbD i := by
    by_cases high : i < 16
    · have : i ∈ onesOf v 16 ↔ v.getLsbD i = true := by rw [mem_onesOf]; exact and_iff_right high
      cases h : v.getLsbD i <;> simp [this, h]
    · have out := getLsbD_high small (Nat.not_lt.mp high)
      have none : i ∉ onesOf v 16 := fun mem => high (mem_onesOf.mp mem).1
      rw [out, decide_eq_true none]
      rfl
  rw [member]
  rfl

end State

end Sys2Proof.Machine
end

section
/-! PROOF. Triggers and markers, settled (R390-R392, R398-R401). -/

namespace Sys2Proof.Machine

namespace State

section
variable {s g : State} {p : Port} {u : Sid} {m : Fin 16}

/-- A write of a marker's HOST register (R401). -/
theorem hostWrite_markHost (takes : s.Takes p u (Reg.markHost m) g) {v : Word} (bits : v &&& ~~~(0x73 : Word) = 0)
    (action : fld v 1 0 ≠ 3) (own : g.regFld (Reg.markCtrl m) 31 28 = 15) (ts : g.regFld (Reg.tsetOwner (fld v 6 4)) 3 0 = 15) :
    s.hostWrite p u (Reg.markHost m) v = (g.markAt m (fld v 6 4) (fld v 1 0) g.beat).wrote p (Reg.markHost m) := by
  have coded : RegDesc.reserved { name := .markHost, off := 0x204, dims := [(0x10, 16)], lease := .chip, wo := 0x73 } = ~~~(0x73 : Word) := by
    decide
  have check : g.markHostCheck m v = .ok := by
    unfold markHostCheck
    rw [decide_eq_true action, decide_eq_true ⟨own, ts⟩]
    rfl
  exact write_takes takes (by simp only [Reg.markHost]; omega) (findAt_markHost m) (by decide) (by rw [coded]; exact bits)
    (decide_eq_true action) check

/-- The edges that a marker action places (R398). -/
theorem markAt_one (action : Nat) (low : action < 2) (ts A : Nat) :
    s.markAt m ts action A = ({ s with markNo := s.markNo + 1 } : State).modMark m fun y => { y with
      edges := (s.markOut m).edges ++ [{ bin_ := 64 * (A + 26) + s.regFld (Reg.tsetDelay ts) 11 0, high := decide (action = 0)
                                         order := s.markNo, pulse := false }] } := by
  have cases : action = 0 ∨ action = 1 := by omega
  have placed : ∀ h, s.placeEdge m (64 * (A + 26) + s.regFld (Reg.tsetDelay ts) 11 0) h false =
      ({ s with markNo := s.markNo + 1 } : State).modMark m fun y => { y with
        edges := (s.markOut m).edges ++ [{ bin_ := 64 * (A + 26) + s.regFld (Reg.tsetDelay ts) 11 0, high := h
                                           order := s.markNo, pulse := false }] } := fun h => modMark_congr rfl
  rcases cases with rfl | rfl
  · exact placed true
  · exact placed false

theorem markAt_pulse (ts A : Nat) :
    let at_ := 64 * (A + 26) + s.regFld (Reg.tsetDelay ts) 11 0
    s.markAt m ts 2 A = ({ s with markNo := s.markNo + 2 } : State).modMark m fun y => { y with
      edges := (s.markOut m).edges ++ [{ bin_ := at_, high := true, order := s.markNo, pulse := true },
        { bin_ := at_ + s.regFld (Reg.tsetWidth ts) 15 0, high := false, order := s.markNo + 1, pulse := true }] } := by
  intro at_
  have first : s.placeEdge m at_ true true = ({ s with markNo := s.markNo + 1 } : State).modMark m fun y => { y with
      edges := y.edges ++ [{ bin_ := at_, high := true, order := s.markNo, pulse := true }] } := rfl
  have both : s.markAt m ts 2 A = (s.placeEdge m at_ true true).placeEdge m (at_ + s.regFld (Reg.tsetWidth ts) 15 0) false true := rfl
  rw [both, first]
  unfold placeEdge modMark
  dsimp only
  rw [List.modify_modify_eq]
  refine congrArg (fun l => ({ s with markNo := s.markNo + 2, marks := l } : State)) (modify_congr (d := {}) ?_)
  exact congrArg (fun e => ({ s.markOut m with edges := e } : Mark)) (List.append_assoc _ _ _)

/-- No edge is due before its beat (R399). -/
theorem edgeDue_none (early : ∀ e ∈ (s.markOut m).edges, s.beat < e.bin_ / 64) : s.edgeDue m = none := by
  have none : (s.markOut m).edges.filter (fun e => decide (e.bin_ / 64 ≤ s.beat)) = [] :=
    List.filter_eq_nil_iff.mpr fun e mem => by simpa using early e mem
  unfold edgeDue
  rw [none]
  rfl

theorem exec_markerEdge {e : MEdge} (one : (s.markOut m).edges = [e]) (due : e.bin_ / 64 ≤ s.beat) :
    exec (.markerEdge m) s = .next (s.reachEdge m e.bin_) := by
  have first : s.edgeDue m = some e.bin_ := by
    unfold edgeDue
    rw [one]
    simp [due]
  show execMarkerEdge m s = _
  unfold execMarkerEdge
  rw [first]

/-- The only edge of an output, as it takes its level (R399). -/
theorem reachEdge_level {e : MEdge} (one : (s.markOut m).edges = [e]) :
    (((s.markOut m).edges.filter fun x => decide (x.bin_ = e.bin_)).foldl
      (fun (p : Nat × Bool) e => if p.1 ≤ e.order then (e.order, e.high) else p) (0, (s.markOut m).level)).2 = e.high ∧
    (s.modMark m fun x => { x with level := e.high, edges := x.edges.filter fun x => decide (x.bin_ ≠ e.bin_) }) =
      s.modMark m fun x => { x with level := e.high, edges := [] } := by
  refine ⟨by rw [one]; simp, modMark_congr ?_⟩
  have none : (s.markOut m).edges.filter (fun x => decide (x.bin_ ≠ e.bin_)) = [] := by rw [one]; simp
  exact congrArg (fun l => ({ s.markOut m with level := e.high, edges := l } : Mark)) none

/-- Nothing but units, sources, links and registers differs, and the outputs are as they were (R393, R402, R403). -/
def MarksKept (s t : State) : Prop := t.marks = s.marks ∧ t.rings = s.rings ∧ t.mem = s.mem

theorem MarksKept.offerTiu {t : State} (h : s.MarksKept t) (u src bin : Nat) (fall : Bool) : s.MarksKept (t.offerTiu u src bin fall) := by
  have role : ∀ {v : State}, s.MarksKept v → ∀ b, s.MarksKept (v.offerRole u bin b) := fun hv b => by
    unfold offerRole
    split
    · exact hv
    · exact hv
  unfold State.offerTiu
  dsimp only
  split
  · exact h
  · split <;> split
    · exact role (role h _) _
    · exact role h _
    · exact role h _
    · exact h

theorem MarksKept.sendTmark {t : State} (h : s.MarksKept t) (k m bin : Nat) (fall : Bool) : s.MarksKept (t.sendTmark k m bin fall) := by
  unfold State.sendTmark
  split
  · exact h
  · exact h

/-- What a change of level does beside the output (R393, R402, R403). -/
def levelEdge (s : State) (m bin : Nat) (level : Bool) : State :=
  let c := s.getReg (Reg.markCtrl m)
  let ball := bin + markDelay m
  let (s, ok) := s.srcTakes (8 + m) ball
  let s := if ok then s.forBelow 4 fun u s => s.offerTiu u (8 + m) ball (level == bit c 1) else s
  if s.trap.dbValid then
    (onesOf (BitVec.ofNat 4 (fld c 11 8)) 4).foldl (fun s k => if (s.link k).st = .up then s.sendTmark k m bin (!level) else s) s
  else s

theorem levelEdge_marks (s : State) (m bin : Nat) (level : Bool) : s.MarksKept (s.levelEdge m bin level) := by
  have taken : ∀ a b, s.MarksKept (s.srcTakes a b).1 := fun a b => by
    unfold srcTakes
    split
    · exact ⟨rfl, rfl, rfl⟩
    · exact ⟨rfl, rfl, rfl⟩
  have offered : ∀ {t : State} (c : Bool) (f : Nat → State → State), (∀ i v, s.MarksKept v → s.MarksKept (f i v)) → s.MarksKept t →
      s.MarksKept (if c = true then t.forBelow 4 f else t) := fun c f step ht => by
    split
    · exact forBelow_keeps (P := s.MarksKept) 4 ht step
    · exact ht
  have units := offered (s.srcTakes (8 + m) (bin + markDelay m)).2
    (fun u v => v.offerTiu u (8 + m) (bin + markDelay m) (level == bit (s.getReg (Reg.markCtrl m)) 1))
    (fun i v hv => hv.offerTiu _ _ _ _) (taken (8 + m) (bin + markDelay m))
  have sent : ∀ {t : State} (l : List Nat), s.MarksKept t → s.MarksKept (if t.trap.dbValid then
      l.foldl (fun s k => if (s.link k).st = .up then s.sendTmark k m bin (!level) else s) t else t) := fun l ht => by
    split
    · refine foldl_keeps (P := s.MarksKept) ht fun k _ v hv => ?_
      split
      · exact hv.sendTmark _ _ _ _
      · exact hv
    · exact ht
  exact sent (onesOf (BitVec.ofNat 4 (fld (s.getReg (Reg.markCtrl m)) 11 8)) 4) units

/-- The only edge of an output reaches it (R399). -/
theorem reachEdge_one {e : MEdge} (one : (s.markOut m).edges = [e]) :
    s.reachEdge m e.bin_ =
      let t := s.modMark m fun y => { y with level := e.high, edges := [] }
      if e.high = (s.markOut m).level ∨ ¬ s.regBit (Reg.markCtrl m) 0 = true then t else t.levelEdge m e.bin_ e.high := by
  obtain ⟨level, rest⟩ := reachEdge_level one
  unfold reachEdge
  dsimp only
  rw [level, rest]
  rfl

end

end State

/-- Settles O45. -/
theorem triggersAndMarkers : Obligations.TriggersAndMarkers := by
  intro s g p u i bin rise n m v hi q on x at_
  have good : ∀ {t u : State}, t = u → .next t = (.next u : Res) := congrArg Host.Outcome.next
  have off : ∀ {c : Bool}, c = false → ¬ c = true := fun h => by rw [h]; exact Bool.false_ne_true
  have size : (i : Nat) < s.trigs.length := hi.trigs_length.symm ▸ i.isLt
  refine ⟨fun come => ?_, fun takes small quiet => ?_, fun takes bits own ts => ?_, fun early => ?_, fun e one due => ?_⟩
  · have run : exec (.triggerEdge i bin rise) s = .next (s.trigEdge i bin rise) := good (if_pos come)
    rw [run]
    refine ⟨fun none => good (if_pos (off none)), fun b en last near => ?_, fun en far idle early => ?_, fun en far idle due units => ?_⟩
    · have dead : (s.trig i).last.any (fun b => decide (bin < b + 128)) = true := by
        rw [show (s.trig i).last = some b from last]
        exact decide_eq_true near
      exact good ((if_neg (not_not_intro en)).trans (if_pos dead))
    all_goals
      have taken := State.trigEdge_taken rise en far
      have mine : (s.modTrig i fun t => { t with last := some bin, pend := t.pend ++ [(bin, rise)] }).trig i =
          { q with last := some bin, pend := q.pend ++ [(bin, rise)] } := State.trig_modTrig_self size _
      have one : ((s.modTrig i fun t => { t with last := some bin, pend := t.pend ++ [(bin, rise)] }).trig i).pend = [(bin, rise)] := by
        rw [mine, idle]
        rfl
      rw [State.trigDeliver_one one] at taken
      rw [taken]
    · refine good ((if_neg (Nat.not_le.mpr early)).trans (State.modTrig_congr ?_))
      rw [show (s.trig i).pend = [] from idle]
      rfl
    · have inv := State.modTrig_inv i (fun t => { t with pend := [] })
        (State.modTrig_inv i (fun t => { t with last := some bin, pend := t.pend ++ [(bin, rise)] }) hi)
      obtain ⟨trigs, time, sub, set, clear⟩ := State.trigAct_marks inv i bin rise units n
      have unit := State.trig_modTrig_self (size.trans_eq (List.length_modify _ _ _).symm :
        i.val < (s.modTrig i fun t => { t with last := some bin, pend := t.pend ++ [(bin, rise)] }).trigs.length) fun t => { t with pend := [] }
      rw [mine] at unit
      refine ⟨_, good (if_pos due), ?_, ?_, time, sub, set, clear⟩
      · exact (congrArg (fun l : List Trig => (l.getD i {}).last) trigs).trans (congrArg Trig.last unit)
      · exact (congrArg (fun l : List Trig => (l.getD i {}).pend) trigs).trans (congrArg Trig.pend unit)
  · have gi : g.Inv := takes.inv hi
    have coded : RegDesc.reserved { name := .trigLclr, off := 0x140, dims := [(0x4, 12)], lease := .chip, wo := 0xFFFF } =
        ~~~(0xFFFF : Word) := by decide
    have bits : v &&& ~~~(0xFFFF : Word) = 0 := by
      refine BitVec.eq_of_getLsbD_eq fun j low => ?_
      have mask : ∀ j < 16, (~~~(0xFFFF : Word)).getLsbD j = false := by decide
      rw [BitVec.getLsbD_and]
      by_cases high : j < 16
      · rw [mask j high, Bool.and_false]
        exact BitVec.getLsbD_zero.symm
      · rw [State.getLsbD_high small (Nat.not_lt.mp high), Bool.false_and]
        exact BitVec.getLsbD_zero.symm
    obtain ⟨r, fields⟩ := State.clearLatch_fields g n v
    refine ⟨_, good (State.write_takes takes (by simp only [Reg.trigLclr]; omega) (State.findAt_trigLclr n) (by decide)
      (by rw [coded]; exact bits) rfl rfl), State.getReg_clearLatch gi n small quiet,
      fun a other => State.getReg_clearLatch_ne gi n v other, r, fields⟩
  · have write := fun action => State.hostWrite_markHost takes bits action own ts
    have run : exec (.markHost p u m v) s = .next (s.hostWrite p u (Reg.markHost m) v) := rfl
    rw [run]
    refine ⟨fun set => ?_, fun clear => ?_, fun pulse => ?_⟩
    · rw [write (by omega), State.markAt_one _ (by omega), set]
      rfl
    · rw [write (by omega), State.markAt_one _ (by omega), clear]
      rfl
    · rw [write (by omega), pulse, State.markAt_pulse]
  · show execMarkerEdge m s = _
    unfold execMarkerEdge
    rw [State.edgeDue_none early]
  · rw [State.exec_markerEdge one due, State.reachEdge_one one]
    refine ⟨fun still => good (if_pos (still.imp_right off)), fun change en => ?_⟩
    obtain ⟨marks, rings, mem⟩ := State.levelEdge_marks (s.modMark m fun y => { y with level := e.high, edges := [] }) m e.bin_ e.high
    have unit := State.markOut_modMark_self (hi.marks_length.symm ▸ m.isLt : m.val < s.marks.length) fun y =>
      { y with level := e.high, edges := [] }
    have moved : ¬ (e.high = (s.markOut m).level ∨ ¬ s.regBit (Reg.markCtrl m) 0 = true) := fun h => h.elim change fun h => h en
    refine ⟨_, good (if_neg moved), ?_, ?_, rings, mem⟩
    · exact (congrArg (fun l : List Mark => (l.getD m {}).level) marks).trans (congrArg Mark.level unit)
    · exact (congrArg (fun l : List Mark => (l.getD m {}).edges) marks).trans (congrArg Mark.edges unit)

end Sys2Proof.Machine
end

section
/-! PROOF. Stores into NVM (R429, R430, R453). -/

namespace Sys2Proof.Machine

namespace State

theorem bit_or (x y : Word) (i : Nat) : bit (x ||| y) i = (bit x i || bit y i) := by
  unfold bit
  rw [BitVec.toNat_or, Nat.testBit_or]

/-- What a save writes to CAL_STORE: PERIOD_MIN as it reads, and a start bit (R429). -/
def saveWord (c k : Word) : Word := (c &&& 0xFFFF0000) ||| k

theorem bit_saveWord (c k : Word) (i : Nat) : bit (saveWord c k) i = (bit c i && bit (0xFFFF0000 : Word) i || bit k i) := by
  unfold saveWord
  rw [bit_or, bit_and]

/-- A save leaves PERIOD_MIN as it is, and writes no reserved bit (R429). -/
theorem saveWord_fields (c : Word) {k : Word} (start : k = 1 ∨ k = 2) :
    fld (saveWord c k) 31 16 = fld c 31 16 ∧ bit (saveWord c k) 0 = bit k 0 ∧ bit (saveWord c k) 1 = bit k 1 ∧
      saveWord c k &&& ~~~(0xFFFF0003 : Word) = 0 ∧ saveWord c k &&& 3 = k := by
  have mask : ∀ i < 32, (16 ≤ i → bit (0xFFFF0000 : Word) i = true) ∧ (i < 2 → bit (0xFFFF0000 : Word) i = false) ∧
      (bit (0xFFFF0000 : Word) i && bit (~~~(0xFFFF0003 : Word)) i) = false ∧ (bit (0xFFFF0000 : Word) i && bit (3 : Word) i) = false := by
    decide
  have startBits : ∀ i < 32, (16 ≤ i → bit k i = false) ∧ (bit k i && bit (~~~(0xFFFF0003 : Word)) i) = false ∧
      (bit k i && bit (3 : Word) i) = bit k i := by
    rcases start with rfl | rfl <;> decide
  refine ⟨?_, ?_, ?_, ?_, ?_⟩
  · refine Nat.eq_of_testBit_eq fun i => ?_
    rw [fld_testBit, fld_testBit, bit_saveWord]
    by_cases low : i < 16
    · rw [(mask (16 + i) (by omega)).1 (by omega), (startBits (16 + i) (by omega)).1 (by omega), Bool.and_true, Bool.or_false]
    · rw [decide_eq_false (by omega), Bool.false_and, Bool.false_and]
  · rw [bit_saveWord, (mask 0 (by decide)).2.1 (by decide), Bool.and_false, Bool.false_or]
  · rw [bit_saveWord, (mask 1 (by decide)).2.1 (by decide), Bool.and_false, Bool.false_or]
  · refine BitVec.eq_of_getLsbD_eq fun i low => ?_
    have none : bit (saveWord c k &&& ~~~(0xFFFF0003 : Word)) i = false := by
      rw [bit_and, bit_saveWord, Bool.and_or_distrib_right, Bool.and_assoc, (mask i low).2.2.1, (startBits i low).2.1]
      simp
    exact none.trans BitVec.getLsbD_zero.symm
  · refine BitVec.eq_of_getLsbD_eq fun i low => ?_
    have same : bit (saveWord c k &&& 3) i = bit k i := by
      rw [bit_and, bit_saveWord, Bool.and_or_distrib_right, Bool.and_assoc, (mask i low).2.2.2, (startBits i low).2.2]
      simp
    exact same

section
variable {s g : State} {p : Port} {u : Sid}

/-- The frame of a write leaves the registers (R50). -/
theorem Takes.regs (hi : s.Inv) {a : Nat} (takes : s.Takes p u a g) (b : Nat) : g.getReg b = s.getReg b := by
  obtain ⟨-, -, -, regs, -⟩ := noteFrame_keeps hi u.isLt p none 0
  unfold getReg
  rw [takes.state]
  exact congrArg (fun r => Cells.get resetWord r b) regs

theorem storeCheck_ok (up : g.shutting = false) (free : g.nvmBusy = false) : g.storeCheck = .ok := by
  unfold storeCheck
  rw [up, free]
  rfl

/-- While nothing writes NVM no store runs (R430). -/
theorem store_none (free : g.nvmBusy = false) : g.cal.store = none := by
  unfold nvmBusy at free
  rw [Bool.or_eq_false_iff] at free
  exact Option.not_isSome_iff_eq_none.mp (by rw [free.1]; exact Bool.false_ne_true)

theorem storing_none (none : g.cal.store = none) (k : StoreKind) : g.storing k = false := by
  unfold storing
  rw [none]
  rfl

/-- A write of CAL_STORE that saves (R429, R430). -/
theorem hostWrite_calStore (takes : s.Takes p u Reg.calStore g) (up : g.shutting = false) (free : g.nvmBusy = false)
    (period : g.regFld Reg.calStore 31 16 = 0 ∨ 10 ≤ g.regFld Reg.calStore 31 16) {k : Word} (start : k = 1 ∨ k = 2) :
    s.hostWrite p u Reg.calStore (saveWord (g.getReg Reg.calStore) k) =
      ((g.setFld Reg.calStore 31 16 (g.regFld Reg.calStore 31 16)).startStore (if k = 1 then .cal else .clr)).wrote p Reg.calStore := by
  obtain ⟨field, b0, b1, reserved, low⟩ := saveWord_fields (g.getReg Reg.calStore) start
  have none := store_none free
  have check : g.calStoreCheck (saveWord (g.getReg Reg.calStore) k) = .ok := by
    have legal : (decide (g.regFld Reg.calStore 31 16 = 0) || decide (10 ≤ g.regFld Reg.calStore 31 16)) = true := by
      rw [Bool.or_eq_true, decide_eq_true_eq, decide_eq_true_eq]
      exact period
    unfold calStoreCheck
    dsimp only
    rw [field, b0, b1, storeCheck_ok up free]
    change ((Err.need (decide (g.regFld Reg.calStore 31 16 = 0) || decide (10 ≤ g.regFld Reg.calStore 31 16)) .eRange).orElse _).orElse _ = _
    rw [legal]
    rcases start with rfl | rfl <;> rfl
  have idle : saveWord (g.getReg Reg.calStore) k &&& 3 &&& g.calStoreRead = 0 := by
    have read : (3 : Word) &&& g.calStoreRead = 0 := by
      have bits : ∀ i, i < 2 → bit g.calStoreRead i = false := fun i small => by
        unfold calStoreRead
        rw [storing_none none, storing_none none, bit_putBit _ _ (by decide), bit_putBit _ _ (by decide)]
        have : i = 0 ∨ i = 1 := by omega
        rcases this with rfl | rfl <;> rfl
      have three : ∀ i < 32, 2 ≤ i → bit (3 : Word) i = false := by decide
      refine BitVec.eq_of_getLsbD_eq fun i low => ?_
      have clear : bit ((3 : Word) &&& g.calStoreRead) i = false := by
        rw [bit_and]
        by_cases small : i < 2
        · rw [bits i small, Bool.and_false]
        · rw [three i low (Nat.not_lt.mp small), Bool.false_and]
      exact clear.trans BitVec.getLsbD_zero.symm
    rw [BitVec.and_assoc, read]
    exact BitVec.and_zero
  have effect : g.calStoreDo (saveWord (g.getReg Reg.calStore) k) =
      (g.setFld Reg.calStore 31 16 (g.regFld Reg.calStore 31 16)).startStore (if k = 1 then .cal else .clr) := by
    unfold calStoreDo
    dsimp only
    rw [b0, b1, field]
    rcases start with rfl | rfl <;> rfl
  have legal : decide (fld (saveWord (g.getReg Reg.calStore) k) 31 16 = 0 ∨ 10 ≤ fld (saveWord (g.getReg Reg.calStore) k) 31 16) = true :=
    decide_eq_true (by rw [field]; exact period)
  rw [← effect]
  exact hostWrite_takes takes (by decide) findAt_calStore rfl nofun (by decide) reserved legal check idle

theorem exec_repmapSave (takes : s.Takes p u Reg.repmapCtrl g) (up : g.shutting = false) (free : g.nvmBusy = false) :
    exec (.repmapSave p u) s = .next ((g.startStore .rep).wrote p Reg.repmapCtrl) := by
  have idle : (1 : Word) &&& 1 &&& BitVec.ofNat 32 (g.storing .rep).toNat = 0 := by
    rw [storing_none (store_none free)]
    rfl
  exact congrArg Host.Outcome.next
    (hostWrite_takes (v := 1) takes (by decide) findAt_repmapCtrl rfl nofun (by decide) (by decide) rfl (storeCheck_ok up free) idle)

theorem exec_storeComplete {t : Store} (runs : s.cal.store = some t) (ok : Bool) :
    exec (.storeComplete ok) s = .next (if t.start < s.beat then s.finishStore t ok else s) := by
  show execStoreComplete ok s = _
  unfold execStoreComplete
  rw [runs]

/-- A store that has been read back, before what its kind adds (R429). -/
def storeEnded (s : State) (t : Store) (ok : Bool) : State := ((s.writeStore t ok).modCal fun c => { c with store := none }).showNvm

theorem finishStore_rep {t : Store} (kind : t.kind = .rep) (ok : Bool) : s.finishStore t ok = s.storeEnded t ok := by
  unfold finishStore
  dsimp only
  rw [kind]
  rfl

theorem finishStore_net {t : Store} (kind : t.kind = .net) (ok : Bool) :
    s.finishStore t ok = if ok = true ∧ ¬ s.macOwn = true then (s.storeEnded t ok).ownMac else s.storeEnded t ok := by
  unfold finishStore
  dsimp only
  rw [kind]
  rfl

theorem finishStore_clr {t : Store} (kind : t.kind = .clr) (ok : Bool) :
    s.finishStore t ok = if ok = true then (s.storeEnded t ok).satReg Reg.calStores
      else (((s.storeEnded t ok).satReg Reg.calStores).raiseFlag Reg.calFlags 1).slotInvalid 1 t.toB := by
  unfold finishStore
  dsimp only
  rw [kind]
  rfl

/-- What the end of a calibration store does beside the store (R429). -/
def calStored (v : State) (toB ok : Bool) : State :=
  let u := (v.satReg Reg.calStores).modCal fun c => { c with lastStore := v.beat }
  if ok = true then { u with calBad := false } else (u.raiseFlag Reg.calFlags 1).slotInvalid 1 toB

theorem finishStore_cal {t : Store} (kind : t.kind = .cal) (ok : Bool) : s.finishStore t ok = (s.storeEnded t ok).calStored t.toB ok := by
  unfold finishStore storeEnded
  generalize State.showNvm _ = v
  dsimp only
  rw [kind]
  rfl

end

end State

end Sys2Proof.Machine
end

section
/-! PROOF. The evaluation of calibration blocks and monitor visits (R408, R411-R417, R425). -/

namespace Sys2Proof.Machine

namespace State

/-- There are 24 RX channels and 4 converter dies to calibrate (R407, R411). -/
theorem Inv.rxCal_length {s : State} (h : s.Inv) : s.cal.rx.length = 24 := by
  obtain ⟨-, -, -, -, -, -, -, -, -, -, -, -, -, cal, -⟩ := h
  exact cal.1

theorem Inv.dies_length {s : State} (h : s.Inv) : s.cal.die.length = 4 := by
  obtain ⟨-, -, -, -, -, -, -, -, -, -, -, -, -, cal, -⟩ := h
  exact cal.2.2

theorem rxCal_modRxCal {s : State} {r : Nat} (h : r < s.cal.rx.length) (f : RxCal → RxCal) : (s.modRxCal r f).rxCal r = f (s.rxCal r) :=
  getD_modify_self h

theorem dieCal_modDie {s : State} {d : Nat} (h : d < s.cal.die.length) (f : DieCal → DieCal) : (s.modDie d f).dieCal d = f (s.dieCal d) :=
  getD_modify_self h

theorem dieCal_modDie_ne {s : State} {d i : Nat} (f : DieCal → DieCal) (ne : i ≠ d) : (s.modDie d f).dieCal i = s.dieCal i :=
  getD_modify_ne ne

/-! ### Slices -/

section
variable {s t : State} {r : Nat}

/-- What a block says of a channel's slices depends on its slots, its sums and its active trims alone (R408, R423). -/
def SameSlices (s t : State) (r : Nat) : Prop :=
  (t.rxCal r).slots = (s.rxCal r).slots ∧ (t.rxCal r).seenSums = (s.rxCal r).seenSums ∧ (t.rxCal r).failRun = (s.rxCal r).failRun ∧
    (∀ x, t.getReg (Reg.rxtrimAct r x) = s.getReg (Reg.rxtrimAct r x)) ∧
    t.getReg (Reg.rxCtrl (r / 2) (r % 2)) = s.getReg (Reg.rxCtrl (r / 2) (r % 2))

theorem SameSlices.sum (h : s.SameSlices t r) (b : BlockStats) (x : Nat) : t.sliceSum r b x = s.sliceSum r b x := by
  obtain ⟨-, sums, -⟩ := h
  unfold sliceSum
  rw [sums]

theorem SameSlices.target (h : s.SameSlices t r) (b : BlockStats) (q x : Nat) : t.sliceTarget r q b x = s.sliceTarget r q b x := by
  have sum := h.sum b
  obtain ⟨slots, -, -, trims, ctrl⟩ := h
  unfold sliceTarget regFld
  dsimp only
  rw [slots, trims, ctrl]
  simp only [sum]

theorem SameSlices.dead (h : s.SameSlices t r) (b : BlockStats) (x : Nat) : t.sliceDead r b x = s.sliceDead r b x := by
  have sum := h.sum b
  obtain ⟨slots, -⟩ := h
  unfold sliceDead
  rw [slots]
  simp only [sum]

theorem SameSlices.judged (h : s.SameSlices t r) (b : BlockStats) (k : Bool) : t.judgeSlices r b k = s.judgeSlices r b k := by
  have target := h.target b
  have dead := h.dead b
  obtain ⟨slots, -, runs, -⟩ := h
  unfold judgeSlices
  rw [slots, runs]
  simp only [target, dead]

/-- The counts and confidences of a block that is evaluated (R408, R433). -/
def evalCounted (s : State) (r : Nat) (c : Nat × Nat × Nat) : State :=
  ((s.addReg (Reg.rxcalBlocks r) 1).setReg (Reg.rxcalConfA r) (BitVec.ofNat 32 (65536 * c.2.1 + c.1))).setReg (Reg.rxcalConfB r)
    (BitVec.ofNat 32 c.2.2)

/-- A block with no estimation enabled, no injection, no failing slice and no step in shadow counts, and notes the slices' runs (R408,
R423). -/
theorem evalBlock_plain {u : State} {b : BlockStats} (idle : (u.rxCal r).inj = none)
    (en : ∀ q, q < 3 → (u.evalCounted r (rxConf (u.rxCal r).seenPows b)).calEn q = false)
    (late : (u.evalCounted r (rxConf (u.rxCal r).seenPows b)).regBit Reg.calCtrl 16 = false)
    (sound : ∀ k, ((u.evalCounted r (rxConf (u.rxCal r).seenPows b)).judgeSlices r b k).1 = none)
    (rest : ∀ runs, (((u.evalCounted r (rxConf (u.rxCal r).seenPows b)).modRxCal r fun c => { c with failRun := runs }).rxCal r).rot ≠
      .shadow)
    (clear : ∀ runs, (((u.evalCounted r (rxConf (u.rxCal r).seenPows b)).modRxCal r fun c => { c with failRun := runs }).rxCal r).inj =
      none) :
    ∃ runs, u.evalBlock r b = (u.evalCounted r (rxConf (u.rxCal r).seenPows b)).modRxCal r fun c => { c with failRun := runs } := by
  have normal : u.injected r = false := by
    unfold injected
    rw [idle]
  obtain ⟨c, conf⟩ : ∃ c, c = rxConf (u.rxCal r).seenPows b := ⟨_, rfl⟩
  obtain ⟨c0, c1, c2⟩ := c
  rw [← conf] at en late sound rest clear ⊢
  have counted : u.evalCounted r (c0, c1, c2) = ((u.addReg (Reg.rxcalBlocks r) 1).setReg (Reg.rxcalConfA r)
    (BitVec.ofNat 32 (65536 * c1 + c0))).setReg (Reg.rxcalConfB r) (BitVec.ofNat 32 c2) := rfl
  have frozen : ∀ conf : Nat → Nat, (u.evalCounted r (c0, c1, c2)).forBelow 3 (fun q s => s.freezeRx r q (conf q)) =
      u.evalCounted r (c0, c1, c2) := fun conf => forBelow_still fun q small => if_pos (by rw [en q small]; exact Bool.false_ne_true)
  have moved : ∀ (live : State → Nat → Bool) (lim : Nat), (u.evalCounted r (c0, c1, c2)).forBelow 3 (fun q s =>
      if (s.calEn q && live s q) = true then s.moveRx r q lim b else s) = u.evalCounted r (c0, c1, c2) := fun live lim =>
    forBelow_still fun q small => if_neg (by rw [en q small, Bool.false_and]; exact Bool.false_ne_true)
  have failed : ∀ k, (u.evalCounted r (c0, c1, c2)).failSlices r b k = (u.evalCounted r (c0, c1, c2)).modRxCal r fun c =>
      { c with failRun := ((u.evalCounted r (c0, c1, c2)).judgeSlices r b k).2 } := fun k => by
    have none := sound k
    unfold failSlices
    generalize (u.evalCounted r (c0, c1, c2)).judgeSlices r b k = j at none ⊢
    obtain ⟨bad, runs⟩ := j
    dsimp only at none ⊢
    rw [none]
  have shadow : ∀ runs, ((u.evalCounted r (c0, c1, c2)).modRxCal r fun c => { c with failRun := runs }).shadowBlock r b =
      (u.evalCounted r (c0, c1, c2)).modRxCal r fun c => { c with failRun := runs } := fun runs => by
    unfold shadowBlock
    split
    · rfl
    · split
      · exact absurd (by assumption) (rest runs)
      · rfl
  have finished : ∀ runs, ((u.evalCounted r (c0, c1, c2)).modRxCal r fun c => { c with failRun := runs }).finishInj r =
      (u.evalCounted r (c0, c1, c2)).modRxCal r fun c => { c with failRun := runs } := fun runs => by
    unfold finishInj
    rw [clear runs]
  obtain ⟨v, vDef⟩ : ∃ v, v = u.evalCounted r (c0, c1, c2) := ⟨_, rfl⟩
  rw [← vDef] at late frozen moved failed shadow finished counted ⊢
  have run : ∃ k, u.evalBlock r b = if (v.modRxCal r fun c => { c with failRun := (v.judgeSlices r b k).2 }).regBit Reg.calCtrl 16 = true then
      (v.modRxCal r fun c => { c with failRun := (v.judgeSlices r b k).2 }).requestApply (r / 6)
      else v.modRxCal r fun c => { c with failRun := (v.judgeSlices r b k).2 } := by
    unfold evalBlock
    rw [normal]
    dsimp only
    simp only [Bool.false_eq_true, if_false, false_and, ← conf, ← counted]
    rw [frozen, moved, failed]
    simp only [shadow, ite_self, finished]
    exact ⟨_, rfl⟩
  obtain ⟨k, run⟩ := run
  exact ⟨_, run.trans (if_neg (by rw [show (v.modRxCal r fun c => { c with failRun := (v.judgeSlices r b k).2 }).regBit Reg.calCtrl 16 =
    v.regBit Reg.calCtrl 16 from rfl, late]; exact Bool.false_ne_true))⟩

end

end State

end Sys2Proof.Machine
end

section
/-! PROOF. The APPLY of a die: the shadow trims go into force (R411-R413). -/

namespace Sys2Proof.Machine

namespace State

/-- The addresses of the active trims (R433). -/
def isActive (a : Nat) : Prop := (0x30700 ≤ a ∧ a < 0x307C0) ∨ (0x33000 ≤ a ∧ a < 0x34800) ∨ (0x37000 ≤ a ∧ a < 0x38800)

/-- The shadow of an active trim is no active trim (R433). -/
theorem shadowOf_inactive {a : Nat} (h : isActive a) : ¬ isActive (shadowOf a) := by
  unfold isActive shadowOf at *
  split <;> omega

/-- The registers of `T` hold what their shadows held, every other register what it held; time, memories and calibration stay. -/
def Copied (s t : State) (T : Nat → Prop) : Prop :=
  (∀ a, T a → t.getReg a = s.getReg (shadowOf a)) ∧ (∀ a, ¬ T a → t.getReg a = s.getReg a) ∧ t.mem = s.mem ∧ t.beat = s.beat ∧ t.cal = s.cal

theorem Copied.none (s : State) : s.Copied s fun _ => False := ⟨nofun, fun _ _ => rfl, rfl, rfl, rfl⟩

theorem Copied.trans {s t u : State} {T T' : Nat → Prop} (h : s.Copied t T) (h' : t.Copied u T') (active : ∀ a, T a → isActive a)
    (active' : ∀ a, T' a → isActive a) : s.Copied u fun a => T a ∨ T' a := by
  obtain ⟨copied, others, mem, beat, cal⟩ := h
  obtain ⟨copied', others', mem', beat', cal'⟩ := h'
  refine ⟨fun a named => ?_, fun a other => ?_, mem'.trans mem, beat'.trans beat, cal'.trans cal⟩
  · by_cases later : T' a
    · exact (copied' a later).trans (others _ fun h => shadowOf_inactive (active' a later) (active _ h))
    · exact (others' a later).trans (copied a (named.resolve_right later))
  · rw [not_or] at other
    exact (others' a other.2).trans (others a other.1)

theorem Copied.congr {s t : State} {T T' : Nat → Prop} (h : s.Copied t T) (same : ∀ a, T a ↔ T' a) : s.Copied t T' := by
  have : T = T' := funext fun a => propext (same a)
  exact this ▸ h

/-- A change of the rings alone leaves registers, memories and calibration. -/
theorem Copied.rings {s t : State} {T : Nat → Prop} (h : s.Copied t T) (r : List Ring) : s.Copied { t with rings := r } T := h

/-- A loop whose turns each copy the registers of their own set. -/
theorem Copied.forBelow {s : State} (hi : s.Inv) (k : Nat) {f : Nat → State → State} {T : Nat → Nat → Prop}
    (active : ∀ i, i < k → ∀ a, T i a → isActive a) (turn : ∀ i, i < k → ∀ u, u.Inv → (f i u).Inv ∧ u.Copied (f i u) (T i)) :
    (s.forBelow k f).Inv ∧ s.Copied (s.forBelow k f) fun a => ∃ i, i < k ∧ T i a := by
  induction k with
  | zero => exact ⟨hi, (Copied.none s).congr fun a => ⟨nofun, fun ⟨i, h, _⟩ => absurd h (Nat.not_lt_zero i)⟩⟩
  | succ k ih =>
    obtain ⟨inv, copied⟩ := ih (fun i h => active i (Nat.lt_succ_of_lt h)) fun i h => turn i (Nat.lt_succ_of_lt h)
    have run : s.forBelow (k + 1) f = f k (s.forBelow k f) := by
      unfold State.forBelow
      rw [List.range_succ, List.foldl_append]
      rfl
    obtain ⟨inv', copied'⟩ := turn k (Nat.lt_succ_self k) _ inv
    rw [run]
    refine ⟨inv', (copied.trans copied' (fun a ⟨i, h, named⟩ => active i (Nat.lt_succ_of_lt h) a named)
      (active k (Nat.lt_succ_self k))).congr fun a => ⟨?_, ?_⟩⟩
    · rintro (⟨i, h, named⟩ | named)
      · exact ⟨i, Nat.lt_succ_of_lt h, named⟩
      · exact ⟨k, Nat.lt_succ_self k, named⟩
    · rintro ⟨i, h, named⟩
      rcases Nat.lt_succ_iff_lt_or_eq.mp h with low | rfl
      · exact .inl ⟨i, low, named⟩
      · exact .inr named

/-- The copy of one trim word (R411). -/
theorem copied_applyWord {s : State} (hi : s.Inv) (c : Bool) {act shadow : Nat} (pair : shadowOf act = shadow) :
    (applyWord (s, c) act shadow).1.Inv ∧ s.Copied (applyWord (s, c) act shadow).1 (· = act) := by
  subst pair
  unfold applyWord
  dsimp only
  split
  · rename_i same
    refine ⟨hi, ?_, fun _ _ => rfl, rfl, rfl, rfl⟩
    rintro a rfl
    exact same
  · refine ⟨setReg_inv _ _ hi, ?_, fun a other => getReg_setReg_other _ _ other, rfl, rfl, rfl⟩
    rintro a rfl
    exact getReg_setReg_self hi.regs_wf _ _

/-- The copies of a row of trim words (R411). -/
theorem copied_applyWords {s : State} (hi : s.Inv) (k : Nat) {act shadow : Nat → Nat} (active : ∀ x, x < k → isActive (act x))
    (pair : ∀ x, x < k → shadowOf (act x) = shadow x) :
    let p := (List.range k).foldl (fun p x => applyWord p (act x) (shadow x)) (s, false)
    p.1.Inv ∧ s.Copied p.1 fun a => ∃ x, x < k ∧ a = act x := by
  induction k with
  | zero => exact ⟨hi, (Copied.none s).congr fun a => ⟨nofun, fun ⟨i, h, _⟩ => absurd h (Nat.not_lt_zero i)⟩⟩
  | succ k ih =>
    obtain ⟨inv, copied⟩ := ih (fun x h => active x (Nat.lt_succ_of_lt h)) fun x h => pair x (Nat.lt_succ_of_lt h)
    dsimp only
    rw [List.range_succ, List.foldl_append]
    obtain ⟨inv', copied'⟩ := copied_applyWord inv
      ((List.range k).foldl (fun p x => applyWord p (act x) (shadow x)) (s, false)).2 (pair k (Nat.lt_succ_self k))
    refine ⟨inv', (copied.trans copied' (fun a ⟨x, h, e⟩ => e ▸ active x (Nat.lt_succ_of_lt h))
      (fun a e => e ▸ active k (Nat.lt_succ_self k))).congr fun a => ⟨?_, ?_⟩⟩
    · rintro (⟨x, h, e⟩ | e)
      · exact ⟨x, Nat.lt_succ_of_lt h, e⟩
      · exact ⟨k, Nat.lt_succ_self k, e⟩
    · rintro ⟨x, h, e⟩
      rcases Nat.lt_succ_iff_lt_or_eq.mp h with low | rfl
      · exact .inl ⟨x, low, e⟩
      · exact .inr e

/-- The trims of an RX channel, of a TX channel and of a bias output go into force (R251, R411). -/
theorem copied_applyRx {s : State} (hi : s.Inv) {r : Nat} (small : r < 24) :
    (s.applyRx r).Inv ∧ s.Copied (s.applyRx r) fun a => ∃ x, x < 49 ∧ a = Reg.rxtrimAct r x := by
  obtain ⟨inv, copied⟩ := copied_applyWords hi 49 (act := Reg.rxtrimAct r) (shadow := Reg.rxtrim r)
    (fun x h => by simp only [isActive, Reg.rxtrimAct]; omega)
    (fun x h => by rw [shadowOf, if_neg (by simp only [Reg.rxtrimAct]; omega)]; simp only [Reg.rxtrimAct, Reg.rxtrim]; omega)
  refine ⟨applyRx_inv r hi, ?_⟩
  unfold applyRx
  dsimp only
  split
  · exact copied.rings _
  · exact copied

theorem copied_applyTx {s : State} (hi : s.Inv) {t : Nat} (small : t < 48) :
    (s.applyTx t).Inv ∧ s.Copied (s.applyTx t) fun a => ∃ w, w < 21 ∧ a = Reg.txtrimAct t w := by
  obtain ⟨inv, copied⟩ := copied_applyWords hi 21 (act := Reg.txtrimAct t) (shadow := Reg.txtrim t)
    (fun x h => by simp only [isActive, Reg.txtrimAct]; omega)
    (fun x h => by rw [shadowOf, if_neg (by simp only [Reg.txtrimAct]; omega)]; simp only [Reg.txtrimAct, Reg.txtrim]; omega)
  refine ⟨applyTx_inv t hi, ?_⟩
  unfold applyTx
  dsimp only
  split
  · exact copied.rings _
  · exact copied

theorem copied_applyBias {s : State} (hi : s.Inv) {k : Nat} (small : k < 48) :
    (s.applyBias k).Inv ∧ s.Copied (s.applyBias k) (· = Reg.biastrimAct k) := by
  obtain ⟨inv, copied⟩ := copied_applyWord hi false (act := Reg.biastrimAct k) (shadow := Reg.biastrim k)
    (by rw [shadowOf, if_pos (by simp only [Reg.biastrimAct]; omega)]; simp only [Reg.biastrimAct, Reg.biastrim]; omega)
  refine ⟨applyBias_inv k hi, ?_⟩
  unfold applyBias
  dsimp only
  split
  · exact copied.rings _
  · exact copied

/-- A change that leaves the calibration block's registers, the memories, the time and the calibration. -/
def CalKept (s t : State) : Prop :=
  (∀ a, 0x30000 ≤ a → a < 0x40000 → t.getReg a = s.getReg a) ∧ t.mem = s.mem ∧ t.beat = s.beat ∧ t.cal = s.cal

theorem CalKept.refl (s : State) : s.CalKept s := ⟨fun _ _ _ => rfl, rfl, rfl, rfl⟩

theorem CalKept.trans {s t u : State} (h : s.CalKept t) (h' : t.CalKept u) : s.CalKept u := by
  obtain ⟨regs, mem, beat, cal⟩ := h
  obtain ⟨regs', mem', beat', cal'⟩ := h'
  exact ⟨fun a low high => (regs' a low high).trans (regs a low high), mem'.trans mem, beat'.trans beat, cal'.trans cal⟩

theorem CalKept.setReg {s t : State} (h : s.CalKept t) (a : Nat) (v : Word) (far : 0x40000 ≤ a) : s.CalKept (t.setReg a v) := by
  obtain ⟨regs, rest⟩ := h
  exact ⟨fun b low high => (getReg_setReg_other _ _ (by omega)).trans (regs b low high), rest⟩

theorem CalKept.raiseFlag {s t : State} (h : s.CalKept t) (a b : Nat) (far : 0x40000 ≤ a) : s.CalKept (t.raiseFlag a b) := by
  obtain ⟨regs, rest⟩ := h
  refine ⟨fun c low high => (getReg_raiseFlag_other _ (by omega) ?_).trans (regs c low high), rest⟩
  unfold flagCntAddr
  split
  · omega
  · split <;> omega

theorem CalKept.raiseEvent {s t : State} (h : s.CalKept t) (code src : Nat) (data : Word) : s.CalKept (t.raiseEvent code src data) := by
  refine h.trans ?_
  obtain ⟨regs, r, b, k, c, p, m, fields⟩ := Noted.raiseEvent t code src data
  exact ⟨fun a low high => regs a (by unfold evReg; omega), by rw [fields], by rw [fields], by rw [fields]⟩

theorem CalKept.rings {s t : State} (h : s.CalKept t) (r : List Ring) : s.CalKept { t with rings := r } := h

/-- A spare cell that takes over leaves the trims (R241, R242). -/
theorem calKept_swapCell (s : State) (t : Nat) : s.CalKept (s.swapCell t) := by
  have map : ∀ {u : State} {v : Word}, s.CalKept u → s.CalKept (u.setReg (Reg.txCellMap (t / 4) (t % 4)) v) := fun h =>
    h.setReg _ _ (by simp only [Reg.txCellMap]; omega)
  have cleared : ∀ (l : List Nat), s.CalKept
      (l.foldl (fun s i => s.setFld (Reg.txCellMap (t / 4) (t % 4)) (8 * i + 7) (8 * i) 0) s) := fun l =>
    foldl_keeps (P := s.CalKept) (CalKept.refl s) fun i _ u hu => map hu
  unfold swapCell
  dsimp only
  split
  · split
    · exact (((map (cleared _)).raiseFlag _ _ (by simp only [Reg.txFlags]; omega)).raiseEvent _ _ _).rings _
    · exact CalKept.refl s
  · exact CalKept.refl s

/-- The trims of a die that an APPLY copies (R411). -/
def dieTrims (d a : Nat) : Prop :=
  (∃ i, i < 6 ∧ ∃ x, x < 49 ∧ a = Reg.rxtrimAct (6 * d + i) x) ∨
    ∃ i, i < 12 ∧ ((∃ w, w < 21 ∧ a = Reg.txtrimAct (12 * d + i) w) ∨ a = Reg.biastrimAct (12 * d + i))

/-- An APPLY copies the trims of its die, and leaves the rest of the calibration block but its own marks (R411-R413). -/
theorem applyDie_marks {s : State} (hi : s.Inv) (d : Fin 4) (forced : Bool) :
    let t := s.applyDie d forced
    (∀ a, dieTrims d a → t.getReg a = s.getReg (shadowOf a)) ∧ t.getReg64 (Reg.lastApplyLo d) = s.beatCount ∧ (t.dieCal d).req = none ∧
      t.mem = s.mem := by
  obtain ⟨i1, rx⟩ := Copied.forBelow hi 6 (f := fun i s => s.applyRx (6 * d + i))
    (T := fun i a => ∃ x, x < 49 ∧ a = Reg.rxtrimAct (6 * d + i) x)
    (fun i small a ⟨x, h, e⟩ => by subst e; simp only [isActive, Reg.rxtrimAct]; omega)
    fun i small u inv => copied_applyRx inv (by omega)
  obtain ⟨i2, tx⟩ := Copied.forBelow i1 12 (f := fun i s => (s.applyTx (12 * d + i)).applyBias (12 * d + i))
    (T := fun i a => (∃ w, w < 21 ∧ a = Reg.txtrimAct (12 * d + i) w) ∨ a = Reg.biastrimAct (12 * d + i))
    (fun i small a h => by
      rcases h with ⟨w, low, rfl⟩ | rfl
      · simp only [isActive, Reg.txtrimAct]; omega
      · simp only [isActive, Reg.biastrimAct]; omega)
    fun i small u inv => by
      obtain ⟨j1, c1⟩ := copied_applyTx inv (t := 12 * d + i) (by omega)
      obtain ⟨j2, c2⟩ := copied_applyBias j1 (k := 12 * d + i) (by omega)
      refine ⟨j2, c1.trans c2 (fun a ⟨w, low, e⟩ => ?_) fun a e => ?_⟩
      · subst e; simp only [isActive, Reg.txtrimAct]; omega
      · subst e; simp only [isActive, Reg.biastrimAct]; omega
  have both := rx.trans tx
    (fun a ⟨i, small, x, low, e⟩ => by subst e; simp only [isActive, Reg.rxtrimAct]; omega)
    (fun a ⟨i, small, h⟩ => by
      rcases h with ⟨w, low, rfl⟩ | rfl
      · simp only [isActive, Reg.txtrimAct]; omega
      · simp only [isActive, Reg.biastrimAct]; omega)
  obtain ⟨u, uDef⟩ : ∃ u : State, u = (s.forBelow 6 fun i s => s.applyRx (6 * d + i)).forBelow 12 fun i s =>
    (s.applyTx (12 * d + i)).applyBias (12 * d + i) := ⟨_, rfl⟩
  rw [← uDef] at both i2
  obtain ⟨copied, -, mem, beat, cal⟩ := both
  have i3 : (u.forBelow 12 fun i s => s.swapCell (12 * d + i)).Inv :=
    forBelow_keeps (P := State.Inv) 12 i2 fun i t ht => swapCell_inv _ ht
  have kept : u.CalKept (u.forBelow 12 fun i s => s.swapCell (12 * d + i)) :=
    forBelow_keeps (P := u.CalKept) 12 (CalKept.refl u) fun i t ht => ht.trans (calKept_swapCell t _)
  obtain ⟨v, vDef⟩ : ∃ v : State, v = u.forBelow 12 fun i s => s.swapCell (12 * d + i) := ⟨_, rfl⟩
  rw [← vDef] at kept i3
  obtain ⟨regs, mem', beat', cal'⟩ := kept
  have run : s.applyDie d forced = ((v.setReg64 (Reg.lastApplyLo d) v.beatCount).raiseIf forced Reg.calFlags 0).modDie d fun c =>
      { c with req := none } := by
    rw [vDef, uDef]
    rfl
  have flag : ∀ {w : State} {a : Nat}, a ≠ Reg.calFlags → a ≠ Reg.calFlags + 4 → (w.raiseIf forced Reg.calFlags 0).getReg a = w.getReg a :=
    fun h1 h2 => by
      cases forced with
      | false => rfl
      | true => exact getReg_raiseFlag_other _ h1 (by rw [flagCntAddr_low (by decide)]; exact h2)
  rw [run]
  refine ⟨fun a named => ?_, ?_, ?_, ?_⟩
  · have active : isActive a := by
      rcases named with ⟨i, small, x, low, rfl⟩ | ⟨i, small, ⟨w, low, rfl⟩ | rfl⟩
      · simp only [isActive, Reg.rxtrimAct]; omega
      · simp only [isActive, Reg.txtrimAct]; omega
      · simp only [isActive, Reg.biastrimAct]; omega
    have away : 0x30700 ≤ a ∧ a < 0x40000 := by unfold isActive at active; omega
    refine (flag (by simp only [Reg.calFlags]; omega) (by simp only [Reg.calFlags]; omega)).trans ?_
    rw [getReg_setReg64_other _ _ (by simp only [Reg.lastApplyLo]; omega) (by simp only [Reg.lastApplyLo]; omega)]
    exact (regs a (by omega) (by omega)).trans (copied a named)
  · have time : v.beatCount = s.beatCount := congrArg (BitVec.ofNat 64) (beat'.trans beat)
    have low := flag (w := v.setReg64 (Reg.lastApplyLo d) v.beatCount) (a := Reg.lastApplyLo d)
      (by simp only [Reg.lastApplyLo, Reg.calFlags]; omega) (by simp only [Reg.lastApplyLo, Reg.calFlags]; omega)
    have high := flag (w := v.setReg64 (Reg.lastApplyLo d) v.beatCount) (a := Reg.lastApplyLo d + 4)
      (by simp only [Reg.lastApplyLo, Reg.calFlags]; omega) (by simp only [Reg.lastApplyLo, Reg.calFlags]; omega)
    have same := getReg64_setReg64 i3.regs_wf (Reg.lastApplyLo d) v.beatCount
    unfold getReg64 at same ⊢
    rw [time] at same low high
    rw [time]
    exact (congrArg₂ pairWord low high).trans same
  · have dies : ((v.setReg64 (Reg.lastApplyLo d) v.beatCount).raiseIf forced Reg.calFlags 0).cal = s.cal := by
      refine Eq.trans ?_ (cal'.trans cal)
      cases forced <;> rfl
    have unit := dieCal_modDie (s := (v.setReg64 (Reg.lastApplyLo d) v.beatCount).raiseIf forced Reg.calFlags 0) (d := d)
      (by rw [dies, hi.dies_length]; exact d.isLt) fun c => { c with req := none }
    rw [unit]
  · refine Eq.trans ?_ (mem'.trans mem)
    cases forced <;> rfl

end State

end Sys2Proof.Machine
end

section
/-! PROOF. Injections, CAL_APPLY and the calibration and store obligation (O47). -/

namespace Sys2Proof.Machine

namespace State

section
variable {s g : State} {p : Port} {u : Sid} {v : Word}

/-- While no EN bit is set nothing is estimated (R408). -/
theorem calEn_false (off : s.regFld Reg.calCtrl 4 0 = 0) {q : Nat} (small : q < 5) : s.calEn q = false := by
  have clear := fld_testBit (s.getReg Reg.calCtrl) 4 0 q
  rw [show fld (s.getReg Reg.calCtrl) 4 0 = 0 from off, Nat.zero_testBit, decide_eq_true (by omega), Bool.true_and, Nat.zero_add] at clear
  exact clear.symm

/-- What estimation looks at does not depend on registers other than CAL_CTRL. -/
theorem calEn_congr {t : State} (same : t.getReg Reg.calCtrl = s.getReg Reg.calCtrl) (q : Nat) : t.calEn q = s.calEn q :=
  congrArg (bit · q) same

theorem evalCounted_other {r : Fin 24} (c : Nat × Nat × Nat) {a : Nat}
    (far : a ∉ [Reg.rxcalBlocks r, Reg.rxcalConfA r, Reg.rxcalConfB r]) : (s.evalCounted r c).getReg a = s.getReg a := by
  simp only [List.mem_cons, List.not_mem_nil, or_false, not_or] at far
  obtain ⟨blocks, confA, confB⟩ := far
  unfold evalCounted addReg
  rw [getReg_setReg_other _ _ confB, getReg_setReg_other _ _ confA, getReg_setReg_other _ _ blocks]

/-- A block with no estimation enabled counts and is otherwise without effect on the registers (R408). -/
theorem evalBlock_counts (hi : s.Inv) (r : Fin 24) (b : BlockStats) (off : s.regFld Reg.calCtrl 4 0 = 0)
    (late : s.regBit Reg.calCtrl 16 = false) (idle : (s.rxCal r).inj = none) (sound : ∀ k, (s.judgeSlices r b k).1 = none)
    (rest : (s.rxCal r).rot ≠ .shadow) :
    let c := rxConf (s.rxCal r).seenPows b
    let t := (s.modRxCal r fun y => { y with evalAt := none }).evalBlock r b
    t.getReg (Reg.rxcalBlocks r) = s.getReg (Reg.rxcalBlocks r) + 1 ∧
      t.getReg (Reg.rxcalConfA r) = BitVec.ofNat 32 (65536 * c.2.1 + c.1) ∧ t.getReg (Reg.rxcalConfB r) = BitVec.ofNat 32 c.2.2 ∧
      (∀ a, a ∉ [Reg.rxcalBlocks r, Reg.rxcalConfA r, Reg.rxcalConfB r] → t.getReg a = s.getReg a) ∧ t.rings = s.rings := by
  obtain ⟨f, fDef⟩ : ∃ f, f = s.modRxCal r fun y => { y with evalAt := none } := ⟨_, rfl⟩
  have here : r.val < s.cal.rx.length := by rw [hi.rxCal_length]; exact r.isLt
  have unit : f.rxCal r = { s.rxCal r with evalAt := none } := by
    rw [fDef]
    exact rxCal_modRxCal here _
  have regs : ∀ a, f.getReg a = s.getReg a := fun a => by rw [fDef]; rfl
  have rings : f.rings = s.rings := by rw [fDef]; rfl
  have fInv : f.Inv := by rw [fDef]; exact modRxCal_inv r _ hi
  obtain ⟨c, cDef⟩ : ∃ c, c = rxConf (s.rxCal r).seenPows b := ⟨_, rfl⟩
  have conf : rxConf (f.rxCal r).seenPows b = c := by rw [unit, cDef]
  have far : ∀ {a : Nat}, a ≠ Reg.rxcalBlocks r → a ≠ Reg.rxcalConfA r → a ≠ Reg.rxcalConfB r →
      (f.evalCounted r c).getReg a = s.getReg a := fun h1 h2 h3 =>
    (evalCounted_other c (by simp only [List.mem_cons, List.not_mem_nil, or_false, not_or]; exact ⟨h1, h2, h3⟩)).trans (regs _)
  have ctrl : (f.evalCounted r c).getReg Reg.calCtrl = s.getReg Reg.calCtrl :=
    far (by simp only [Reg.calCtrl, Reg.rxcalBlocks]; omega) (by simp only [Reg.calCtrl, Reg.rxcalConfA]; omega)
      (by simp only [Reg.calCtrl, Reg.rxcalConfB]; omega)
  have cal : (f.evalCounted r c).cal = f.cal := rfl
  have counted : (f.evalCounted r c).rxCal r = { s.rxCal r with evalAt := none } := unit
  have same : s.SameSlices (f.evalCounted r c) r := by
    have small := r.isLt
    refine ⟨by rw [counted], by rw [counted], by rw [counted], fun x => ?_, ?_⟩
    · exact far (by simp only [Reg.rxtrimAct, Reg.rxcalBlocks]; omega) (by simp only [Reg.rxtrimAct, Reg.rxcalConfA]; omega)
        (by simp only [Reg.rxtrimAct, Reg.rxcalConfB]; omega)
    · exact far (by simp only [Reg.rxCtrl, Reg.rxcalBlocks]; omega) (by simp only [Reg.rxCtrl, Reg.rxcalConfA]; omega)
        (by simp only [Reg.rxCtrl, Reg.rxcalConfB]; omega)
  have still : ∀ runs, ((f.evalCounted r c).modRxCal r fun c => { c with failRun := runs }).rxCal r =
      { s.rxCal r with evalAt := none, failRun := runs } := fun runs => by
    rw [rxCal_modRxCal (by rw [cal, fInv.rxCal_length]; exact r.isLt), counted]
  obtain ⟨runs, run⟩ := evalBlock_plain (u := f) (r := r) (b := b) (by rw [unit]; exact idle)
    (fun q small => by rw [conf, calEn_congr ctrl]; exact calEn_false off (by omega))
    (by rw [conf]; exact (congrArg (bit · 16) ctrl).trans late)
    (fun k => by rw [conf, same.judged]; exact sound k)
    (fun runs => by rw [conf, still]; exact rest)
    (fun runs => by rw [conf, still]; exact idle)
  dsimp only
  rw [← fDef, ← cDef, run, conf]
  refine ⟨?_, ?_, ?_, fun a other => (evalCounted_other c other).trans (regs a), rings⟩
  · show (((f.addReg (Reg.rxcalBlocks r) 1).setReg (Reg.rxcalConfA r) _).setReg (Reg.rxcalConfB r) _).getReg _ = _
    rw [getReg_setReg_other _ _ (by simp only [Reg.rxcalBlocks, Reg.rxcalConfB]; omega),
      getReg_setReg_other _ _ (by simp only [Reg.rxcalBlocks, Reg.rxcalConfA]; omega)]
    unfold addReg
    rw [getReg_setReg_self fInv.regs_wf, regs]
    rfl
  · show (((f.addReg (Reg.rxcalBlocks r) 1).setReg (Reg.rxcalConfA r) _).setReg (Reg.rxcalConfB r) _).getReg _ = _
    rw [getReg_setReg_other _ _ (by simp only [Reg.rxcalConfA, Reg.rxcalConfB]; omega)]
    exact getReg_setReg_self (setReg_inv _ _ fInv).regs_wf _ _
  · exact getReg_setReg_self (setReg_inv _ _ (setReg_inv _ _ fInv)).regs_wf _ _

/-- A monitor visit with no estimation enabled notes its confidence alone (R415, R425). -/
theorem evalVisit_plain {f : State} {t active : Nat} {m : MonVisit} (small : t < 48) (off : f.regFld Reg.calCtrl 4 0 = 0)
    (late : f.regBit Reg.calCtrl 16 = false) (none : (f.tx (t / 4) (t % 4)).subst = none) (cells : m.cells = []) (dead : m.dead = []) :
    f.evalVisit t active m = f.setFld (Reg.txcal t) 15 0 (txConf active) := by
  obtain ⟨w, wDef⟩ : ∃ w, w = f.setFld (Reg.txcal t) 15 0 (txConf active) := ⟨_, rfl⟩
  have ctrl : w.getReg Reg.calCtrl = f.getReg Reg.calCtrl := by
    rw [wDef]
    exact getReg_setReg_other _ _ (by simp only [Reg.calCtrl, Reg.txcal]; omega)
  have en : ∀ {q : Nat}, q < 5 → w.calEn q = false := fun h => (calEn_congr ctrl _).trans (calEn_false off h)
  have frozen : w.forBelow 2 (fun q s => s.freezeTx t q (txConf active)) = w := forBelow_still fun q h => by
    unfold freezeTx
    exact if_pos (by rw [en (by omega)]; exact Bool.false_ne_true)
  have idle : w.substVisit t m.spareErr = w := by
    have kept : (w.tx (t / 4) (t % 4)).subst = Option.none := by rw [wDef]; exact none
    unfold substVisit
    dsimp only
    rw [kept]
  have sound : w.failingCell t m = Option.none := by
    unfold failingCell
    rw [cells, dead]
    simp
  have run : f.evalVisit t active m = if w.regBit Reg.calCtrl 16 = true then w.requestApply (t / 12) else w := by
    unfold evalVisit
    simp only [cells, List.foldl_nil, ← wDef, frozen, en (show 4 < 5 by decide), Bool.false_eq_true, false_and, if_false, idle, sound,
      ite_self]
  rw [run, ← wDef]
  exact if_neg (by rw [show w.regBit Reg.calCtrl 16 = f.regBit Reg.calCtrl 16 from congrArg (bit · 16) ctrl, late]
                   exact Bool.false_ne_true)

/-- A write of INJ that starts an injection (R418). -/
theorem exec_injectionStart {r : Fin 24} (takes : s.Takes p u (Reg.rxcalInj r) g) (bits : v &&& ~~~3 = 0)
    (live : g.rxLive (r.val / 2) (r.val % 2) = true) (ring : g.ringRuns (r.val / 2) = false) (unseen : g.carObserves r = false)
    (quiet : g.inputLoud r = false) (idle : (g.rxCal r).inj = none) :
    exec (.injectionStart p u r v) s = .next (((g.setBit (Reg.rxcalInj r) 1 (bit v 1)).modRxCal r fun y => { y with
      inj := some { from_ := (g.beat / 786432 + 1) * 786432 } }).wrote p (Reg.rxcalInj r)) := by
  have b0 : bit (v ||| 1) 0 = true := by rw [bit_or]; exact Bool.or_true _
  have b1 : bit (v ||| 1) 1 = bit v 1 := by rw [bit_or]; exact Bool.or_false _
  have reserved : (v ||| 1) &&& ~~~3 = 0 := by
    have ones : (1 : Word) &&& ~~~3 = 0 := by decide
    rw [BitVec.and_comm, BitVec.and_or_distrib_left, BitVec.and_comm _ v, bits, BitVec.and_comm, ones]
    rfl
  have coded : RegDesc.reserved
      { name := .rxcalInj, off := 0x10C, dims := [(0x20, 24)], lease := .chip, reset := 0x2, rw := 0x2, w1s := 0x1 } =
      ~~~(3 : Word) := by decide
  have check : g.injCheck r (v ||| 1) = .ok := by
    unfold injCheck
    rw [b0, live, ring, unseen, quiet, idle]
    rfl
  have free : (v ||| 1) &&& 1 &&& putBit (g.getReg (Reg.rxcalInj r)) 0 (g.rxCal r).inj.isSome = 0 := by
    have clear : bit (putBit (g.getReg (Reg.rxcalInj r)) 0 false) 0 = false := by
      rw [bit_putBit _ _ (by decide)]
      rfl
    rw [idle, BitVec.and_assoc, show (1 : Word) &&& putBit (g.getReg (Reg.rxcalInj r)) 0 (none : Option Inj).isSome = 0 from one_and (by decide) clear]
    exact BitVec.and_zero
  have effect : g.injDo r (v ||| 1) = (g.setBit (Reg.rxcalInj r) 1 (bit v 1)).modRxCal r fun y => { y with
      inj := some { from_ := (g.beat / 786432 + 1) * 786432 } } := by
    unfold injDo
    dsimp only
    rw [b0, b1]
    rfl
  rw [← effect]
  exact congrArg Host.Outcome.next
    (hostWrite_takes takes (by have := r.isLt; simp only [Reg.rxcalInj]; omega) (findAt_rxcalInj r) rfl nofun (by dsimp only; decide)
      (by dsimp only; rw [coded]; exact reserved) rfl check free)

/-! ### CAL_APPLY -/

/-- The requests of several dies, each free before (R412). -/
theorem requests_spec {l : List Nat} (hi : g.Inv) (nodup : l.Nodup) (small : ∀ d ∈ l, d < 4) (free : ∀ d ∈ l, (g.dieCal d).req = none) :
    let t := l.foldl (fun s d => s.requestApply d) g
    (∀ i, (t.dieCal i).req = if i ∈ l then some g.beat else (g.dieCal i).req) ∧ ∃ ds, t = { g with cal := { g.cal with die := ds } } := by
  induction l generalizing g with
  | nil => exact ⟨fun i => rfl, _, rfl⟩
  | cons d l ih =>
    obtain ⟨fresh, nodup⟩ := List.nodup_cons.mp nodup
    have here : d < g.cal.die.length := by rw [hi.dies_length]; exact small d (by simp)
    have others : ∀ i, i ≠ d → (g.requestApply d).dieCal i = g.dieCal i := fun i ne => dieCal_modDie_ne _ ne
    obtain ⟨reqs, ds, fields⟩ := ih (g := g.requestApply d) (requestApply_inv d hi) nodup (fun x h => small x (by simp [h]))
      fun x h => by
        rw [others x fun e => fresh (e ▸ h)]
        exact free x (by simp [h])
    refine ⟨fun i => (reqs i).trans ?_, ds, fields⟩
    by_cases same : i = d
    · subst same
      rw [if_neg fresh, if_pos (by simp)]
      unfold requestApply
      rw [dieCal_modDie here]
      dsimp only
      rw [free i (by simp)]
      rfl
    · rw [others i same]
      exact if_congr (by simp [same]) rfl rfl

theorem bit_calApplyRead {i : Nat} (small : i < 4) : bit g.calApplyRead i = (g.dieCal i).req.isSome := by
  have table : ∀ a b c d : Bool,
      let w : Word := BitVec.ofNat 32 ([2 ^ 0 * a.toNat, 2 ^ 1 * b.toNat, 2 ^ 2 * c.toNat, 2 ^ 3 * d.toNat].sum)
      bit w 0 = a ∧ bit w 1 = b ∧ bit w 2 = c ∧ bit w 3 = d := by
    decide
  obtain ⟨h0, h1, h2, h3⟩ := table (g.dieCal 0).req.isSome (g.dieCal 1).req.isSome (g.dieCal 2).req.isSome (g.dieCal 3).req.isSome
  have cases : i = 0 ∨ i = 1 ∨ i = 2 ∨ i = 3 := by omega
  rcases cases with rfl | rfl | rfl | rfl
  · exact h0
  · exact h1
  · exact h2
  · exact h3

/-- A write of CAL_APPLY (R412, R413). -/
theorem exec_calApplyWrite (takes : s.Takes p u Reg.calApply g) (bits : v.toNat < 16)
    (free : ∀ i, i < 4 → bit v i = true → (g.dieCal i).req = none) :
    exec (.calApplyWrite p u v) s = .next ((g.calApplyDo v).wrote p Reg.calApply) := by
  have check : g.calApplyCheck v = .ok := by
    unfold calApplyCheck
    have all : ((onesOf v 4).all fun d => (g.dieCal d).req.isNone) = true := List.all_eq_true.mpr fun d named => by
      obtain ⟨small, set⟩ := mem_onesOf.mp named
      rw [free d small set]
      rfl
    rw [all]
    rfl
  have idle : v &&& 0xF &&& g.calApplyRead = 0 := by
    refine BitVec.eq_of_getLsbD_eq fun i low => ?_
    have clear : bit (v &&& 0xF &&& g.calApplyRead) i = false := by
      rw [bit_and, bit_and]
      by_cases small : i < 4
      · rw [bit_calApplyRead small]
        cases set : bit v i with
        | false => rfl
        | true => rw [free i small set]; exact Bool.and_false _
      · have mask : ∀ i < 32, ¬ i < 4 → bit (0xF : Word) i = false := by decide
        rw [mask i low small, Bool.and_false, Bool.false_and]
    exact clear.trans BitVec.getLsbD_zero.symm
  exact congrArg Host.Outcome.next
    (hostWrite_takes takes (by decide) findAt_calApply rfl nofun (by decide) (high_zero (k := 4) (by decide) bits) rfl check idle)

end

/-- Every active trim of a die is copied (R411). -/
theorem dieTrims_rx {d i k : Nat} (lane : i < 6) (slice : k < 49) : dieTrims d (Reg.rxtrimAct (6 * d + i) k) := .inl ⟨i, lane, k, slice, rfl⟩
theorem dieTrims_tx {d i w : Nat} (chan : i < 12) (word : w < 21) : dieTrims d (Reg.txtrimAct (12 * d + i) w) :=
  .inr ⟨i, chan, .inl ⟨w, word, rfl⟩⟩
theorem dieTrims_bias {d i : Nat} (out : i < 12) : dieTrims d (Reg.biastrimAct (12 * d + i)) := .inr ⟨i, out, .inr rfl⟩

end State

open State in
/-- Settles O47, from the evaluation of a block and a visit without estimation, the copies of an APPLY, and the ends of stores. -/
theorem calibrationAndStores : Obligations.CalibrationAndStores := by
  unfold Obligations.CalibrationAndStores
  have good : ∀ {t u : State}, t = u → .next t = (.next u : Res) := congrArg Host.Outcome.next
  refine ⟨?_, ?_⟩
  · intro s g p u r d b m v hi x plain c
    refine ⟨fun due => ?_, fun other => good (if_neg other), fun t seen => ?_, fun t e seen ne => ?_, fun takes bits live ring unseen quiet idle =>
      exec_injectionStart takes bits live ring unseen quiet idle, fun takes bits free => ?_, fun idle => ?_, fun forced due => ?_, fun idle => ?_,
      fun forced sp due spare sound => ?_, fun gap due => ?_, fun other => ?_⟩
    · have run : exec (.calBlockEvaluation r b) s = .next ((s.modRxCal r fun y => { y with evalAt := none }).evalBlock r b) :=
        good (if_pos due)
      exact ⟨run, fun ⟨off, late⟩ idle sound rest => ⟨_, run, evalBlock_counts hi r b off late idle sound rest⟩⟩
    · intro f
      have run : exec (.monitorVisit d m) s = .next (f.evalVisit t (s.dieCal d).seenActive m) := by
        show execMonitorVisit d m s = _
        unfold execMonitorVisit
        rw [seen]
        exact good (if_pos rfl)
      refine ⟨run, fun ⟨off, late⟩ small none cells dead => run.trans (good ?_)⟩
      exact evalVisit_plain (f := f) small off late none cells dead
    · show execMonitorVisit d m s = _
      unfold execMonitorVisit
      rw [seen]
      exact good (if_neg ne)
    · have gInv := takes.inv hi
      obtain ⟨reqs, fields⟩ := requests_spec (l := onesOf v 4) gInv (onesOf_nodup v 4) (fun i h => (mem_onesOf.mp h).1)
        fun i h => free i (mem_onesOf.mp h).1 (mem_onesOf.mp h).2
      refine ⟨_, exec_calApplyWrite takes bits free, fun i small => (reqs i).trans ?_, fields⟩
      exact if_congr (by rw [mem_onesOf]; simp [small]) rfl rfl
    · show execApplyDie d s = _
      unfold execApplyDie
      rw [idle]
    · obtain ⟨copied, time, req, mem⟩ := applyDie_marks hi d forced
      have small := d.isLt
      refine ⟨s.applyDie d forced, ?_, req, fun i k lane slice => ?_, fun i w chan word => ?_, fun i out => ?_, time, mem⟩
      · show execApplyDie d s = _
        unfold execApplyDie
        rw [due]
      · rw [copied _ (dieTrims_rx lane slice), shadowOf, if_neg (by simp only [Reg.rxtrimAct]; omega)]
        exact congrArg s.getReg (by simp only [Reg.rxtrimAct, Reg.rxtrim]; omega)
      · rw [copied _ (dieTrims_tx chan word), shadowOf, if_neg (by simp only [Reg.txtrimAct]; omega)]
        exact congrArg s.getReg (by simp only [Reg.txtrimAct, Reg.txtrim]; omega)
      · rw [copied _ (dieTrims_bias out), shadowOf, if_pos (by simp only [Reg.biastrimAct]; omega)]
        exact congrArg s.getReg (by simp only [Reg.biastrimAct, Reg.biastrim]; omega)
    · show execSliceRotate r s = _
      unfold execSliceRotate
      rw [idle]
    · show execSliceRotate r s = _
      unfold execSliceRotate
      rw [due]
      dsimp only
      unfold rotate
      rw [spare]
      dsimp only
      rw [show (s.rxCal r).failing = none from sound]
      rfl
    · exact good (if_pos (decide_eq_true ⟨gap, due⟩))
    · have idle : s.rotStepDue r = false := decide_eq_false fun ⟨gap, due⟩ => other.elim (absurd gap) fun early => absurd due (Nat.not_le.mpr early)
      exact good (if_neg (by rw [idle]; exact Bool.false_ne_true))
  · intro s g p u ok t hi period saves ended bad
    refine ⟨fun takes up free legal => ?_, fun takes up free => exec_repmapSave takes up free, fun on due up free ready => ?_, fun off => ?_, fun idle => ?_,
      fun runs early => ?_, fun runs late => ?_⟩
    · have same : s.getReg Reg.calStore = g.getReg Reg.calStore := (takes.regs hi _).symm
      have save : ∀ k : Word, (s.getReg Reg.calStore &&& 0xFFFF0000) ||| k = saveWord (g.getReg Reg.calStore) k := fun k => by
        rw [same]
        rfl
      refine ⟨good ?_, good ?_⟩
      · rw [save]
        exact hostWrite_calStore takes up free legal (.inl rfl)
      · rw [save]
        exact hostWrite_calStore takes up free legal (.inr rfl)
    · refine good (if_pos ?_)
      unfold periodicDue
      rw [storeCheck_ok up free]
      dsimp only
      rw [decide_eq_true ⟨on, due⟩, decide_eq_true ready]
      rfl
    · refine good (if_neg ?_)
      unfold periodicDue
      dsimp only
      rw [decide_eq_false fun h => h.1 off]
      exact Bool.false_ne_true
    · show execStoreComplete ok s = _
      unfold execStoreComplete
      rw [idle]
    · exact (exec_storeComplete runs ok).trans (good (if_neg (Nat.not_lt.mpr early)))
    · have run : exec (.storeComplete ok) s = .next (s.finishStore t ok) := (exec_storeComplete runs ok).trans (good (if_pos late))
      rw [run]
      refine ⟨?_, ?_, ?_, ?_, ?_, ?_⟩
      · rintro (kind | ⟨kind, bad⟩)
        · exact good (finishStore_rep kind ok)
        · refine good ((finishStore_net kind ok).trans (if_neg ?_))
          rintro ⟨yes, own⟩
          rcases bad with no | has
          · exact Bool.false_ne_true (no.symm.trans yes)
          · exact own has
      · rintro kind rfl own
        exact good ((finishStore_net kind true).trans (if_pos ⟨rfl, by rw [own]; exact Bool.false_ne_true⟩))
      · rintro kind rfl
        exact good (finishStore_clr kind true)
      · rintro kind rfl
        exact good (finishStore_clr kind false)
      · rintro kind rfl
        exact good (finishStore_cal kind true)
      · rintro kind rfl
        exact good (finishStore_cal kind false)

end Sys2Proof.Machine
end

section
/-! PROOF. The memories' own machinery: corrected words, borrowed windows, clears (R440, R441, R449-R456). -/

namespace Sys2Proof.Machine

namespace State

section
variable {s g : State}

/-! ### Bytes -/

/-- A memory whose cells of some addresses are dropped holds 0 there (R456). -/
theorem get_filter {α : Type} [DecidableEq α] {d : Nat → BitVec 8} (out : Nat → Bool) (l : List (Nat × BitVec 8)) (x : Nat) :
    Cells.get d (l.filter fun c => out c.1) x = if out x = true then Cells.get d l x else d x := by
  induction l with
  | nil => exact (ite_self _).symm
  | cons c l ih =>
    rw [List.filter_cons]
    by_cases here : c.1 = x
    · by_cases keep : out x = true
      · rw [if_pos (by rw [here]; exact keep), if_pos keep]
        unfold Cells.get
        rw [if_pos here, if_pos here]
      · rw [if_neg (by rw [here]; exact keep), ih, if_neg keep, if_neg keep]
    · have step : ∀ t : List (Nat × BitVec 8), Cells.get d (c :: t) x = Cells.get d t x := fun t => if_neg here
      split
      · rw [step, step, ih]
      · rw [step, ih]

/-- Bytes that are cleared read 0, the others as before (R456). -/
theorem byte_clearBytes (s : State) (a k x : Nat) : (s.clearBytes a k).byte x = if a ≤ x ∧ x < a + k then 0 else s.byte x := by
  have kept := get_filter (α := Nat) (d := Memory.unlisted) (fun x => !decide (a ≤ x ∧ x < a + k)) s.mem x
  refine Eq.trans kept ?_
  by_cases here : a ≤ x ∧ x < a + k
  · rw [if_pos here, decide_eq_true here]
    rfl
  · rw [if_neg here, decide_eq_false here]
    rfl

/-- Several clears, each of its own bytes. -/
theorem byte_clears {k : Nat} {f : Nat → State → State} {R : Nat → Nat → Prop} [∀ c x, Decidable (R c x)]
    (clear : ∀ c u x, (f c u).byte x = if R c x then 0 else u.byte x) (x : Nat) :
    ((∃ c, c < k ∧ R c x) → (s.forBelow k f).byte x = 0) ∧ ((∀ c, c < k → ¬ R c x) → (s.forBelow k f).byte x = s.byte x) := by
  induction k with
  | zero => exact ⟨fun ⟨c, low, _⟩ => absurd low (Nat.not_lt_zero c), fun _ => rfl⟩
  | succ k ih =>
    obtain ⟨cleared, kept⟩ := ih
    have run : s.forBelow (k + 1) f = f k (s.forBelow k f) := by
      unfold forBelow
      rw [List.range_succ, List.foldl_append]
      rfl
    rw [run, clear]
    refine ⟨fun ⟨c, low, named⟩ => ?_, fun away => ?_⟩
    · split
      · rfl
      · rename_i other
        rcases Nat.lt_succ_iff_lt_or_eq.mp low with low | rfl
        · exact cleared ⟨c, low, named⟩
        · exact absurd named other
    · rw [if_neg (away k (Nat.lt_succ_self k))]
      exact kept fun c low => away c (Nat.lt_succ_of_lt low)

/-! ### What reads of damaged words leave -/

theorem raiseEvent_kept (s : State) (c x : Nat) (d : Word) :
    (s.raiseEvent c x d).mem = s.mem ∧ (s.raiseEvent c x d).beat = s.beat ∧ (s.raiseEvent c x d).memu = s.memu := by
  obtain ⟨-, r, b, k, c, p, m, e⟩ := Noted.raiseEvent s c x d
  rw [e]
  exact ⟨rfl, rfl, rfl⟩

/-- A read of a damaged word changes registers, the event log and what waits for write-back (R440). -/
theorem eccWord_fields (s : State) (d : Damage) : ∃ r b k c p m f w, s.eccWord d = { s with
    regs := r, beatSets := b, evKeys := k, evCounts := c, evToPush := p, carmineNow := m, memu := { s.memu with fixed := f, writeback := w } } := by
  have counted : ∃ r, s.satReg Reg.eccUncorr = { s with regs := r } := by
    unfold satReg
    split
    · exact ⟨s.regs, rfl⟩
    · exact ⟨_, rfl⟩
  unfold eccWord
  split
  · obtain ⟨x, xDef⟩ := counted
    obtain ⟨-, r, b, k, c, p, m, e⟩ := Noted.raiseEvent (((s.satReg Reg.eccUncorr).setReg Reg.lastUncorr (BitVec.ofNat 32 d.1)).raiseFlag
      Reg.memFlags 1) 0x0602 0x07 (BitVec.ofNat 32 d.1)
    rw [e, xDef]
    exact ⟨r, b, k, c, p, m, s.memu.fixed, s.memu.writeback, rfl⟩
  · obtain ⟨-, r, b, k, c, p, m, e⟩ := Noted.raiseEvent (((s.addReg64 Reg.eccCorrLo 1).setReg Reg.lastCorr (BitVec.ofNat 32 d.1)).raiseFlag
      Reg.memFlags 0) 0x0601 0x07 (BitVec.ofNat 32 d.1)
    rw [e]
    exact ⟨r, b, k, c, p, m, _, _, rfl⟩

theorem eccWord_kept (s : State) (d : Damage) : (s.eccWord d).beat = s.beat ∧ (s.eccWord d).mem = s.mem ∧
    ∃ f w, (s.eccWord d).memu = { s.memu with fixed := f, writeback := w } := by
  obtain ⟨r, b, k, c, p, m, f, w, e⟩ := eccWord_fields s d
  rw [e]
  exact ⟨rfl, rfl, f, w, rfl⟩

theorem eccRead_beat (s : State) (a k : Nat) : (s.eccRead a k).beat = s.beat :=
  foldl_keeps (P := fun t => t.beat = s.beat) rfl fun d _ t same => (eccWord_kept t d).1.trans same

/-- A word with no more than 2 damaged bytes is corrected where it stands (R440). -/
theorem settleWord_mem {d : Damage} (few : d.2.length ≤ 2) (s : State) : (s.settleWord d).mem = s.mem := by
  unfold settleWord
  rw [if_pos few]
  rfl

/-- A word that is settled holds what a read of it delivers (R440). -/
theorem byte_settleWord (hi : s.Inv) {d : Damage} (sound : d.bad = false) :
    (∀ i, i < wordBytes d.1 → (s.settleWord d).byte (d.1 + i) = s.byte (d.1 + i) ^^^ d.wrong i) ∧
      ∀ x, x < d.1 ∨ d.1 + wordBytes d.1 ≤ x → (s.settleWord d).byte x = s.byte x := by
  by_cases few : d.2.length ≤ 2
  · have same : ∀ x, (s.settleWord d).byte x = s.byte x := fun x => congrArg (Cells.get Memory.unlisted · x) (settleWord_mem few s)
    refine ⟨fun i _ => ?_, fun x _ => same x⟩
    rw [same, show d.wrong i = 0 from if_pos few]
    exact (BitVec.xor_zero ..).symm
  · have wrote : ∀ x, (s.settleWord d).byte x =
        (s.setBytes d.1 ((List.range (wordBytes d.1)).map fun i => s.badByte d (d.1 + i))).byte x := fun x => by
      unfold settleWord
      rw [if_neg few]
      rfl
    refine ⟨fun i low => ?_, fun x out => ?_⟩
    · rw [wrote, byte_setBytes hi.mem_wf, if_pos (by rw [List.length_map, List.length_range]; omega)]
      simp only [Nat.add_sub_cancel_left, List.getD_eq_getElem?_getD, List.getElem?_map, List.getElem?_range low, Option.map_some,
        Option.getD_some, badByte, sound]
      rfl
    · rw [wrote, byte_setBytes hi.mem_wf, if_neg (by rw [List.length_map, List.length_range]; omega)]

/-- A borrowed window whose words have no more than 2 damaged bytes returns as it was (R450, R451). -/
theorem restoreWin_mem (few : ∀ d ∈ s.memu.damaged, d.2.length ≤ 2) (w : Borrow) : (s.restoreWin w).mem = s.mem := by
  unfold restoreWin
  refine foldl_keeps (P := fun t => t.mem = s.mem) rfl fun d named t same => (settleWord_mem (few d ?_) t).trans same
  exact (List.mem_filter.mp named).1

/-! ### Faulty rows -/

/-- Row repair leaves the memories' contents (R452). -/
theorem repairRow_mem (s : State) (code inst row fuel : Nat) : (s.repairRow code inst row fuel).mem = s.mem := by
  induction fuel generalizing s with
  | zero => rfl
  | succ fuel ih =>
    unfold repairRow
    split
    · exact (raiseEvent_kept _ _ _ _).1
    · dsimp only
      split
      · exact ih _
      · exact (raiseEvent_kept _ _ _ _).1

theorem faultyRow_mem (s : State) (code inst row : Nat) (repair : Bool) : (s.faultyRow code inst row repair).mem = s.mem := by
  unfold faultyRow
  dsimp only
  split
  · exact repairRow_mem _ _ _ _ _
  · rfl

/-! ### The end of a run -/

/-- The end of a run (R457). -/
theorem endMarch_marks (hi : s.Inv) {st : Nat} (small : st < 4) :
    (s.endMarch st).mem = s.mem ∧ (s.endMarch st).memu = { s.memu with march := none } ∧
      fld ((s.endMarch st).getReg Reg.mtestStatus) 1 0 = st := by
  have status : fld ((s.setFld Reg.mtestStatus 1 0 st).getReg Reg.mtestStatus) 1 0 = st := by
    rw [getReg_setFld_self hi, fld_putFld_self _ _ (by decide)]
    exact Nat.mod_eq_of_lt small
  unfold endMarch
  dsimp only
  split <;> exact ⟨rfl, rfl, status⟩

/-- What follows a release leaves the contents, and no window is borrowed (R450). -/
theorem afterWin_marks (s : State) (m : March) (w : Borrow) (advance : Bool) :
    (s.afterWin m w advance).mem = s.mem ∧ (s.afterWin m w advance).memu.borrow = none := by
  have ended : ∀ (u : State) (st : Nat), u.memu.borrow = none → (u.endMarch st).mem = u.mem ∧ (u.endMarch st).memu.borrow = none := by
    intro u st none
    unfold endMarch
    dsimp only
    split <;> exact ⟨rfl, none⟩
  obtain ⟨row, next, last, run⟩ : ∃ row next last, s.afterWin m w advance =
      let u := s.modMemu fun u => { u with borrow := none, march := some next }
      if m.stopping = true then u.endMarch 3
      else if row < memRows m.code then u
      else if u.mtestAuto = true then u.modMemu fun u => { u with march := some last }
      else u.endMarch 2 := ⟨_, _, _, rfl⟩
  rw [run]
  dsimp only
  split
  · exact ended _ _ rfl
  · split
    · exact ⟨rfl, rfl⟩
    · split
      · exact ⟨rfl, rfl⟩
      · exact ended _ _ rfl

theorem releaseWin_marks (few : ∀ d ∈ s.memu.damaged, d.2.length ≤ 2) (m : March) (w : Borrow) (faulty abandoned : Bool) :
    (s.releaseWin m w faulty abandoned).memu.borrow = none ∧ (s.releaseWin m w faulty abandoned).mem = s.mem := by
  obtain ⟨v, vDef⟩ : ∃ v, v = if faulty = true then (s.restoreWin w).faultyRow w.code w.inst w.row (s.restoreWin w).mtestRepair
    else s.restoreWin w := ⟨_, rfl⟩
  have mem : v.mem = s.mem := by
    rw [vDef]
    split
    · exact (faultyRow_mem _ _ _ _ _).trans (restoreWin_mem few w)
    · exact restoreWin_mem few w
  have counted : (v.satReg Reg.mtestAbandon).mem = s.mem := by
    unfold satReg
    split <;> exact mem
  unfold releaseWin
  dsimp only
  rw [← vDef]
  split
  · obtain ⟨kept, none⟩ := afterWin_marks v m w true
    exact ⟨none, kept.trans mem⟩
  · split
    · obtain ⟨kept, none⟩ := afterWin_marks (v.satReg Reg.mtestAbandon) m w false
      exact ⟨none, kept.trans counted⟩
    · obtain ⟨kept, none⟩ := afterWin_marks ((v.satReg Reg.mtestAbandon).setFld Reg.mtestStatus 15 8
        (min 255 ((v.satReg Reg.mtestAbandon).regFld Reg.mtestStatus 15 8 + 1))) m w true
      exact ⟨none, kept.trans counted⟩

/-- A change of an instruction memory, and the OK bits, leave the contents (R187, R504). -/
theorem instrWritten_kept (s : State) (n : Nat) :
    (s.instrWritten n).mem = s.mem ∧ (s.instrWritten n).regs = s.regs ∧ (s.instrWritten n).memu = s.memu := by
  unfold instrWritten
  split <;> exact ⟨rfl, rfl, rfl⟩

theorem unsign_kept (s : State) (code n : Nat) : (s.unsign code n).mem = s.mem ∧ (s.unsign code n).memu = s.memu ∧
    ∀ a, a ≠ Reg.ownAuth → (s.unsign code n).getReg a = s.getReg a := by
  unfold unsign
  split
  · exact ⟨rfl, rfl, fun a ne => getReg_setReg_other _ _ ne⟩
  · split
    · exact ⟨rfl, rfl, fun a ne => getReg_setReg_other _ _ ne⟩
    · exact ⟨rfl, rfl, fun _ _ => rfl⟩

/-- A destructive run that ends leaves its rows 0 and every other byte (R449, R456). -/
theorem endDestruct_marks (hi : s.Inv) (m : March) (rows : Nat) (faults : List Nat) :
    (s.endDestruct m rows faults).memu.march = none ∧
      (∀ x, (s.endDestruct m rows faults).byte x =
        if memBase m.code m.inst ≤ x ∧ x < memBase m.code m.inst + 256 * rows then 0 else s.byte x) ∧
      fld ((s.endDestruct m rows faults).getReg Reg.mtestStatus) 1 0 = if rows < memRows m.code ∨ m.stopping = true then 3 else 2 := by
  obtain ⟨v, vDef⟩ : ∃ v, v = (faults.filter fun r => decide (r < rows)).foldl (fun (u : State) r =>
    u.faultyRow m.code m.inst r (u.mtestRepair && !m.stopping)) s := ⟨_, rfl⟩
  have vInv : v.Inv := vDef ▸ foldl_keeps (P := State.Inv) hi fun r _ t ht => faultyRow_inv _ _ _ _ ht
  have vMem : v.mem = s.mem := vDef ▸ foldl_keeps (P := fun t => t.mem = s.mem) rfl fun r _ t same => (faultyRow_mem _ _ _ _ _).trans same
  obtain ⟨w, wDef⟩ : ∃ w, w = (v.setFld Reg.mtestStatus 31 16 (rows - 1)).clearBytes (memBase m.code m.inst) (256 * rows) := ⟨_, rfl⟩
  have wInv : w.Inv := wDef ▸ clearBytes_inv _ _ (setFld_inv _ _ _ _ vInv)
  have wByte : ∀ x, w.byte x = if memBase m.code m.inst ≤ x ∧ x < memBase m.code m.inst + 256 * rows then 0 else s.byte x := fun x => by
    rw [wDef, byte_clearBytes]
    exact if_congr Iff.rfl rfl (congrArg (Cells.get Memory.unlisted · x) vMem)
  obtain ⟨y, yDef⟩ : ∃ y, y = if m.code = 0 then w.instrWritten m.inst else w := ⟨_, rfl⟩
  have yInv : y.Inv := by
    rw [yDef]
    split
    · exact instrWritten_inv _ wInv
    · exact wInv
  have yMem : y.mem = w.mem := by
    rw [yDef]
    split
    · exact (instrWritten_kept w _).1
    · rfl
  have run : s.endDestruct m rows faults = (y.unsign m.code m.inst).endMarch (if rows < memRows m.code ∨ m.stopping then 3 else 2) := by
    rw [yDef, wDef, vDef]
    rfl
  obtain ⟨mem, unit, status⟩ := endMarch_marks (unsign_inv m.code m.inst yInv)
    (show (if rows < memRows m.code ∨ m.stopping = true then 3 else 2) < 4 by split <;> decide)
  rw [run]
  refine ⟨by rw [unit], fun x => ?_, status⟩
  rw [← wByte]
  exact congrArg (Cells.get Memory.unlisted · x) (mem.trans ((unsign_kept y _ _).1.trans yMem))

end

end State

end Sys2Proof.Machine
end

section
/-! PROOF. MTEST_CMD, RET and the memories' obligation (O48). -/

namespace Sys2Proof.Machine

namespace State

section
variable {s g : State} {p : Port} {u : Sid}

/-! ### The march test -/

theorem exec_mtestStart (takes : s.Takes p u Reg.mtestCmd g) (manual : g.mtestAuto = false)
    (inst : g.regFld Reg.mtestCfg 11 8 < memInstances (g.regFld Reg.mtestCfg 15 12)) (idle : g.memu.march = none)
    (state : g.marchState (g.regFld Reg.mtestCfg 15 12) (g.regFld Reg.mtestCfg 11 8) (g.regBit Reg.mtestCfg 0) = true)
    (free : g.regBit Reg.mtestCfg 0 = true ∨ g.checkReads (g.regFld Reg.mtestCfg 15 12) (g.regFld Reg.mtestCfg 11 8) = false) :
    exec (.mtestStart p u) s = .next
      ((g.startMarch (g.regFld Reg.mtestCfg 15 12) (g.regFld Reg.mtestCfg 11 8) (g.regBit Reg.mtestCfg 0)).wrote p Reg.mtestCmd) := by
  have start : bit (1 : Word) 0 = true ∧ bit (1 : Word) 1 = false := by decide
  have run : (true = true ∧ ¬ g.mtestAuto = true) := ⟨rfl, by rw [manual]; exact Bool.false_ne_true⟩
  have check : g.mtestCmdCheck 1 = .ok := by
    have unread : (g.regBit Reg.mtestCfg 0 || !g.checkReads (g.regFld Reg.mtestCfg 15 12) (g.regFld Reg.mtestCfg 11 8)) = true := by
      rcases free with keep | quiet
      · rw [keep]; rfl
      · rw [quiet]; exact Bool.or_true _
    unfold mtestCmdCheck
    dsimp only
    rw [start.1, start.2, if_pos run, state, idle, unread, decide_eq_true inst]
    rfl
  have effect : g.mtestCmdDo 1 =
      g.startMarch (g.regFld Reg.mtestCfg 15 12) (g.regFld Reg.mtestCfg 11 8) (g.regBit Reg.mtestCfg 0) := by
    unfold mtestCmdDo
    rw [start.1, start.2, if_neg Bool.false_ne_true, if_pos run]
  have reads : (1 : Word) &&& 1 &&& BitVec.ofNat 32 (g.memu.march.isSome && !g.mtestAuto).toNat = 0 := by
    rw [idle, manual]
    rfl
  rw [← effect]
  exact congrArg Host.Outcome.next
    (hostWrite_takes (v := 1) takes (by decide) findAt_mtestCmd rfl nofun (by decide) (by decide) rfl check reads)

theorem exec_mtestAbort (takes : s.Takes p u Reg.mtestCmd g) (runs : g.memu.march.isSome = true) :
    exec (.mtestAbort p u) s = .next ((if g.memu.borrow.isNone ∧ g.memu.march.any (·.preserving) then g.endMarch 3
      else g.modMemu fun m => { m with march := m.march.map fun r => { r with stopping := true } }).wrote p Reg.mtestCmd) := by
  have check : g.mtestCmdCheck 2 = .ok := by
    unfold mtestCmdCheck
    dsimp only
    rw [show bit (2 : Word) 1 = true by decide, show bit (2 : Word) 0 = false by decide, runs,
      if_neg (show ¬ (false = true ∧ _) from fun h => Bool.false_ne_true h.1)]
    rfl
  have reads : (2 : Word) &&& 1 &&& BitVec.ofNat 32 (g.memu.march.isSome && !g.mtestAuto).toNat = 0 := BitVec.zero_and
  exact congrArg Host.Outcome.next
    (hostWrite_takes (v := 2) takes (by decide) findAt_mtestCmd rfl nofun (by decide) (by decide) rfl check reads)

/-- An ABORT of a preserving run with no window borrowed ends it, and a map that it has repaired is stored (R453, R457). -/
theorem endMarch_aborted (s : State) : s.endMarch 3 =
    let ended := (s.setFld Reg.mtestStatus 1 0 3).modMemu fun x => { x with march := none }
    if s.regFld Reg.mtestFaults 31 16 = 0 then ended else ended.modCal fun c => { c with repDue := true } := by
  have faults : ((s.setFld Reg.mtestStatus 1 0 3).modMemu fun x => { x with march := none }).regFld Reg.mtestFaults 31 16 =
      s.regFld Reg.mtestFaults 31 16 := congrArg (fld · 31 16) (getReg_setReg_other _ _ (by decide))
  unfold endMarch
  dsimp only
  rw [faults]

/-! ### Retention -/

/-- A write of RET (R454). -/
theorem exec_retModeWrite {n : RingId} {v : Word} (takes : s.Takes p u (Reg.ret n) g) (bits : v.toNat < 4) (check : g.retCheck n v = .ok) :
    exec (.retModeWrite p u n v) s = .next ((g.retDo n v).wrote p (Reg.ret n)) := by
  have mode : fld v 1 0 ≠ 3 := fun three => by
    unfold retCheck at check
    dsimp only at check
    rw [three] at check
    generalize Err.need _ Err.eState = e at check
    generalize Err.need _ Err.eBusy = e' at check
    cases check
  have reserved : v &&& ~~~(0x3 : Word) = 0 := high_zero (k := 2) (by decide) bits
  have low : v &&& RegDesc.reserved { name := .ret, off := 0x100, dims := [(0x4, 12)], lease := .ring, rw := 0x3, ro := 0x30000 } = 0 := by
    have coded : RegDesc.reserved { name := .ret, off := 0x100, dims := [(0x4, 12)], lease := .ring, rw := 0x3, ro := 0x30000 } =
        ~~~(0x30000 : Word) &&& ~~~(0x3 : Word) := by decide
    rw [coded, BitVec.and_comm (~~~(0x30000 : Word)), ← BitVec.and_assoc, reserved]
    exact BitVec.zero_and
  exact congrArg Host.Outcome.next
    (write_takes takes (by have := n.isLt; simp only [Reg.ret]; omega) (findAt_ret n) (by decide) low (decide_eq_true mode) check)

/-- The memories of a ring are cleared, one after the other (R455, R456). -/
theorem byte_clearMems {n : Nat} {f : Nat → State → State} (clear : ∀ c u, (f c u).mem = (u.clearMem c n).mem) (x : Nat) :
    ((∃ c, c < 9 ∧ memBase c n ≤ x ∧ x < memBase c n + memSize c) → (s.forBelow 9 f).byte x = 0) ∧
      ((∀ c, c < 9 → ¬ (memBase c n ≤ x ∧ x < memBase c n + memSize c)) → (s.forBelow 9 f).byte x = s.byte x) :=
  byte_clears (R := fun c x => memBase c n ≤ x ∧ x < memBase c n + memSize c) (fun c u x =>
    (congrArg (Cells.get Memory.unlisted · x) (clear c u)).trans (byte_clearBytes u (memBase c n) (memSize c) x)) x

/-- What a write of RET that turns the memories off leaves (R454, R455). -/
theorem retDo_off (hi : g.Inv) {n : RingId} {v : Word} (off : fld v 1 0 = 2) (ne : fld v 1 0 ≠ g.regFld (Reg.ret n) 17 16) :
    (g.retDo n v).regFld (Reg.ret n) 17 16 = 2 ∧ (g.retDo n v).regFld (Reg.ret n) 1 0 = 2 ∧
      (∀ c x, c < 9 → memBase c n ≤ x → x < memBase c n + memSize c → (g.retDo n v).byte x = 0) ∧
      (∀ x, (∀ c, c < 9 → x < memBase c n ∨ memBase c n + memSize c ≤ x) → (g.retDo n v).byte x = g.byte x) := by
  obtain ⟨f, fDef⟩ : ∃ f, f = (g.setFld (Reg.ret n) 1 0 2).setFld (Reg.ret n) 17 16 2 := ⟨_, rfl⟩
  have run : g.retDo n v = f.forBelow 9 fun c s => s.clearMem c n := by
    unfold retDo
    dsimp only
    unfold retState
    rw [off, if_neg (fun same => ne (off.trans same)), if_neg (by decide), if_pos rfl, fDef]
  have word : f.getReg (Reg.ret n) = putFld (putFld (g.getReg (Reg.ret n)) 1 0 2) 17 16 2 := by
    rw [fDef, getReg_setFld_self (setFld_inv _ _ _ _ hi), getReg_setFld_self hi]
  have regs : (f.forBelow 9 fun c s => s.clearMem c n).getReg (Reg.ret n) = f.getReg (Reg.ret n) :=
    forBelow_keeps (P := fun t => t.getReg (Reg.ret n) = f.getReg (Reg.ret n)) 9 rfl fun c t same => same
  have bytes := byte_clearMems (s := f) (n := n) (f := fun c s => s.clearMem c n) fun c u => rfl
  rw [run]
  refine ⟨?_, ?_, fun c x low lower upper => (bytes x).1 ⟨c, low, lower, upper⟩, fun x away => ?_⟩
  · unfold regFld
    rw [regs, word, fld_putFld_self _ _ (by decide)]
    rfl
  · unfold regFld
    rw [regs, word, fld_putFld_ne _ _ (by decide) (.inr (by decide)), fld_putFld_self _ _ (by decide)]
    rfl
  · refine ((bytes x).2 fun c low inside => ?_).trans (by rw [fDef]; rfl)
    have := away c low
    omega

/-- The wake from off ends with the memories cleared (R455). -/
theorem wakeEnd_cleared (hi : s.Inv) (n : RingId) : (s.wakeEnd n true).regFld (Reg.ret n) 17 16 = 0 ∧
    ∀ c x, c < 9 → memBase c n ≤ x → x < memBase c n + memSize c → (s.wakeEnd n true).byte x = 0 := by
  obtain ⟨f, fDef⟩ : ∃ f, f = (s.setFld (Reg.ret n) 17 16 0).modMemu fun m => { m with wake := m.wake.set n none } := ⟨_, rfl⟩
  have word : f.getReg (Reg.ret n) = putFld (s.getReg (Reg.ret n)) 17 16 0 := by
    rw [fDef]
    exact getReg_setFld_self hi ..
  have run : s.wakeEnd n true = (f.clearRing n).instrWritten n := by
    rw [fDef]
    rfl
  have own : Reg.ret n ≠ Reg.ownAuth := by have := n.isLt; simp only [Reg.ret, Reg.ownAuth]; omega
  have regs : (f.clearRing n).getReg (Reg.ret n) = f.getReg (Reg.ret n) :=
    forBelow_keeps (P := fun t => t.getReg (Reg.ret n) = f.getReg (Reg.ret n)) 9 rfl fun c t same =>
      ((unsign_kept (t.clearMem c n) c n).2.2 _ own).trans same
  obtain ⟨mem, kept, -⟩ := instrWritten_kept (f.clearRing n) n
  have bytes := byte_clearMems (s := f) (n := n) (f := fun c s => (s.clearMem c n).unsign c n) fun c u => (unsign_kept (u.clearMem c n) c n).1
  rw [run]
  refine ⟨?_, fun c x low lower upper => (congrArg (Cells.get Memory.unlisted · x) mem).trans ((bytes x).1 ⟨c, low, lower, upper⟩)⟩
  have same : ((f.clearRing n).instrWritten n).getReg (Reg.ret n) = f.getReg (Reg.ret n) :=
    (congrArg (Cells.get resetWord · (Reg.ret n)) kept).trans regs
  unfold regFld
  rw [same, word, fld_putFld_self _ _ (by decide)]
  rfl

end

end State

open State in
/-- Settles O48, from the bytes that write-backs, clears and releases leave and the end of a run. -/
theorem memoryTestAndRetention : Obligations.MemoryTestAndRetention := by
  unfold Obligations.MemoryTestAndRetention
  have good : ∀ {t u : State}, t = u → .next t = (.next u : Res) := congrArg Host.Outcome.next
  have off : ∀ {c : Bool}, c = false → ¬ c = true := fun h => by rw [h]; exact Bool.false_ne_true
  refine ⟨?_, ?_⟩
  · intro s g p u a m w faulty faults rows hi code inst keep base r at_ first
    refine ⟨fun waits => ?_, fun none => good (if_neg none), fun none => ?_, fun d scrub found => ?_,
      fun takes manual legal idle state free => exec_mtestStart takes manual legal idle state free, fun takes runs unborrowed preserving => ?_,
      fun takes runs other => ?_, fun runs due => ?_, fun idle => ?_, fun runs borrowed few => ?_, fun idle => ?_, fun idle => ?_,
      fun runs ends => ?_, fun idle => ?_⟩
    · intro found kept
      have run : exec (.eccWriteback a) s = .next (match s.memu.damaged.find? fun d => d.1 == a.toNat with
          | some d => if Damage.bad d then kept else s.settleWord d
          | none => kept) := good (if_pos waits)
      refine ⟨fun none => ?_, fun d some bad => ?_, fun d some few => ?_, fun d some sound => ?_⟩
      · rw [run, show (s.memu.damaged.find? fun d => d.1 == a.toNat) = _ from none]
      · rw [run, show (s.memu.damaged.find? fun d => d.1 == a.toNat) = _ from some]
        exact good (if_pos bad)
      · rw [run, show (s.memu.damaged.find? fun d => d.1 == a.toNat) = _ from some]
        have sound : Damage.bad d = false := by
          unfold Damage.bad
          rw [decide_eq_false (Nat.not_lt.mpr few)]
          rfl
        refine good ((if_neg (off sound)).trans ?_)
        unfold settleWord
        rw [if_pos few]
      · rw [run, show (s.memu.damaged.find? fun d => d.1 == a.toNat) = _ from some]
        obtain ⟨here, others⟩ := byte_settleWord hi sound
        exact ⟨_, good (if_neg (off sound)), here, others⟩
    · show execScrubRead a s = _
      unfold execScrubRead
      rcases none with no | clean
      · exact good (if_neg (off no))
      · have quiet : s.scrub base = s := by
          unfold scrub
          rw [List.find?_eq_none.mpr fun d named => by simpa using clean d named]
        exact good ((congrArg (fun t => if s.scrubbable a.toNat = true then t else s) quiet).trans (ite_self s))
    · have run : exec (.scrubRead a) s = .next ((s.eccWord d).modMemu fun m => { m with
          scrubbed := m.scrubbed ++ [base]
          curFix := if Damage.bad d then m.curFix else m.curFix ++ [base]
          suspects := if !Damage.bad d && m.passFix.contains base && !m.suspects.contains base then m.suspects ++ [base] else m.suspects }) := by
        refine good ((if_pos scrub).trans ?_)
        unfold State.scrub
        rw [show (s.memu.damaged.find? fun d => decide (d.1 = arrayBase a.toNat)) = _ from found]
      obtain ⟨-, -, f, w, unit⟩ := eccWord_kept s d
      have pass : (s.eccWord d).memu.passFix = s.memu.passFix := by rw [unit]
      have suspects : (s.eccWord d).memu.suspects = s.memu.suspects := by rw [unit]
      rw [run]
      refine ⟨fun bad => ?_, fun sound fresh => ?_, fun sound again unsuspected => ?_⟩
      · rw [bad]
        rfl
      · have no : (s.eccWord d).memu.passFix.contains base = false := by rw [pass]; simpa using fresh
        refine good (congrArg (fun m => { s.eccWord d with memu := m }) ?_)
        dsimp only
        rw [sound, no]
        rfl
      · have yes : (s.eccWord d).memu.passFix.contains base = true := by rw [pass]; simpa using again
        have no : (s.eccWord d).memu.suspects.contains base = false := by rw [suspects]; simpa using unsuspected
        refine good (congrArg (fun m => { s.eccWord d with memu := m }) ?_)
        dsimp only
        rw [sound, yes, no]
        rfl
    · rw [exec_mtestAbort takes (by rw [runs]; rfl), runs, unborrowed]
      refine good (congrArg (State.wrote · p Reg.mtestCmd) ?_)
      exact (if_pos ⟨rfl, preserving⟩).trans (endMarch_aborted g)
    · rw [exec_mtestAbort takes (by rw [runs]; rfl)]
      refine good (congrArg (State.wrote · p Reg.mtestCmd) ((if_neg ?_).trans ?_))
      · rw [runs]
        rintro ⟨unborrowed, preserving⟩
        rcases other with borrowed | destructive
        · exact borrowed (Option.isNone_iff_eq_none.mp unborrowed)
        · exact off destructive preserving
      · exact congrArg (fun x : Option March => { g with memu := { g.memu with march := x.map fun r : March => { r with stopping := true } } }) runs
    · show execWindowBorrow s = _
      unfold execWindowBorrow
      rw [runs]
      refine good ((if_pos due).trans ?_)
      unfold borrowWin
      have beat : (s.eccRead at_ 256).beat = s.beat := eccRead_beat s at_ 256
      show ((s.eccRead at_ 256).setFld Reg.mtestStatus 31 16 r.2.2).modMemu (fun x => { x with
        borrow := some { code := r.1, inst := r.2.1, row := r.2.2, at_ := (s.eccRead at_ 256).beat },
        suspects := x.suspects.filter fun y => !decide (at_ ≤ y ∧ y < at_ + 256) }) = _
      rw [beat]
    · show execWindowBorrow s = _
      unfold execWindowBorrow
      split
      · exact good (if_neg (off idle))
      · rfl
    · refine ⟨fun due => ⟨s.releaseWin m w faulty false, ?_, releaseWin_marks few m w faulty false⟩,
        fun due => ⟨s.releaseWin m w faulty true, ?_, releaseWin_marks few m w faulty true⟩⟩
      · show execWindowRelease faulty s = _
        unfold execWindowRelease
        rw [runs, borrowed]
        exact good (if_pos due)
      · show execWindowAbandon faulty s = _
        unfold execWindowAbandon
        rw [runs, borrowed]
        exact good (if_pos due)
    · show execWindowRelease faulty s = _
      unfold execWindowRelease
      split
      · exact good (if_neg (off idle))
      · rfl
    · show execWindowAbandon faulty s = _
      unfold execWindowAbandon
      split
      · exact good (if_neg (off idle))
      · rfl
    · obtain ⟨march, bytes, status⟩ := endDestruct_marks hi m rows faults
      refine ⟨s.endDestruct m rows faults, ?_, march, fun x lower upper => (bytes x).trans (if_pos ⟨lower, upper⟩),
        fun x away => (bytes x).trans (if_neg fun ⟨lower, upper⟩ => ?_), status⟩
      · show execMtestDone faults s = _
        unfold execMtestDone
        rw [runs, ends]
      · change x < memBase m.code m.inst ∨ memBase m.code m.inst + 256 * rows ≤ x at away
        omega
    · show execMtestDone faults s = _
      unfold execMtestDone
      rw [idle]
      split
      · contradiction
      · rfl
  · intro s g p u n v hi ret st mode
    refine ⟨fun takes bits check => ?_, fun idle => ?_, fun due => ?_, fun due => ?_⟩
    · rw [exec_retModeWrite takes bits check]
      have gInv := takes.inv hi
      refine ⟨fun same => good (congrArg (State.wrote · p ret) (if_pos same)), fun ne retention => ?_, fun ne on => ?_, fun ne down => ?_⟩
      · refine good (congrArg (State.wrote · p ret) ?_)
        unfold retDo
        dsimp only
        unfold retState
        rw [show fld v 1 0 = 1 from retention, if_neg (fun same => ne (Eq.trans retention same)), if_neg (by decide), if_neg (by decide)]
      · refine good (congrArg (State.wrote · p ret) ?_)
        unfold retDo
        dsimp only
        unfold retState
        rw [show fld v 1 0 = 0 from on, if_neg (fun same => ne (Eq.trans on same)), if_pos rfl]
        rfl
      · exact ⟨g.retDo n v, rfl, retDo_off gInv down ne⟩
    · show execRetWakeDone n s = _
      unfold execRetWakeDone
      rw [idle]
    · show execRetWakeDone n s = _
      unfold execRetWakeDone
      rw [due]
      rfl
    · refine ⟨s.wakeEnd n true, ?_, wakeEnd_cleared hi n⟩
      show execRetWakeDone n s = _
      unfold execRetWakeDone
      rw [due]

end Sys2Proof.Machine
end

section
/-! PROOF. Carousel: slots, frames, spectra and pushes (O49). -/

namespace Sys2Proof.Machine

namespace State

/-- There are 8 Carousel slots (R458). -/
theorem Inv.car_length {s : State} (h : s.Inv) : s.car.length = 8 := by
  obtain ⟨-, -, -, -, -, -, -, -, -, -, -, car, -⟩ := h
  exact car

section
variable {s g : State} {p : Port} {u : Sid} {i : Fin 8}

/-- A write of CMD that its check lets pass (R459, R460). -/
theorem hostWrite_carCmd {v : Word} (takes : s.Takes p u (Reg.carCmd i) g) (bits : v &&& ~~~3 = 0) (both : fld v 1 0 ≠ 3)
    (check : g.carCmdCheck i v = .ok) : s.hostWrite p u (Reg.carCmd i) v = (g.carCmdDo i v).wrote p (Reg.carCmd i) :=
  write_takes takes (by have := i.isLt; simp only [Reg.carCmd]; omega) (findAt_carCmd i) (by dsimp only; decide) bits
    (decide_eq_true both) check

theorem carCmdCheck_stop (busy : g.carBusy i = true) : g.carCmdCheck i 2 = .ok := by
  unfold carCmdCheck
  dsimp only
  rw [busy]
  rfl

/-- Nothing stands in the way of a slot's accesses to its memory (R438, R451). -/
theorem undamaged (none : s.memu.damaged = []) (a k : Nat) : s.damageIn a k = [] := by
  unfold damageIn
  rw [none]
  rfl

/-- What a frame that enters the accumulator leaves (R464, R465). -/
theorem carFrame_sound (sound : s.memu.damaged = [] ∧ s.memu.borrow = none) : s.carFrame i =
    let c := s.carSlot i
    let N := c.p0 + 1024 * c.frame + 1023
    let old := if c.bins.isEmpty then List.replicate 4096 {} else c.bins
    let xs := s.frameSamples (s.carRx i) N
    let zone := s.regFld (Reg.rxCtrl (s.carRx i / 2) (s.carRx i % 2)) 5 4
    let added := List.zipWith (fun (a : BinAcc) k => binAdd a (binPower zone xs k) (s.carThr i k)) old (List.range 4096)
    if (c.frame + 1) % c.k = 0 then
      s.modCar i fun c' => { c' with
        frame := c'.frame + 1, bins := [], flags := c'.flags.filter (fun e => decide (c.frame / c.k < e.1))
        ready := c'.ready ++ [(c.frame / c.k, N + 7232, ((c.flags.find? fun e => e.1 = c.frame / c.k).map (·.2)).getD 0, added)] }
    else s.modCar i fun c' => { c' with frame := c'.frame + 1, bins := added } := by
  obtain ⟨none, whole⟩ := sound
  unfold carFrame
  dsimp only
  rw [rtRead_sound whole (undamaged none _ _)]
  rfl

/-- What a spectrum that is ready leaves where it is not pushed (R465). -/
theorem specReady_marks (hi : s.Inv) {num ready : Nat} {fl : BitVec 16} {bins : List BinAcc} {rest : List (Nat × Nat × BitVec 16 × List BinAcc)}
    (first : (s.carSlot i).ready = (num, ready, fl, bins) :: rest) (sound : s.memu.damaged = [] ∧ s.memu.borrow = none)
    (kept : s.carPush i = false) :
    let c := s.carSlot i
    let t := s.specReady i num fl bins
    (t.carSlot i).ready = rest ∧
      t.mem = (s.setBytes (carBuf i (num % 2))
        (s.specHeader i num 0 4096 (putBit (putBit fl 4 c.thinned) 0 true) ++ bins.flatMap (binBytes c.k))).mem ∧
      t.getReg (Reg.carSpecNum i) = s.getReg (Reg.carSpecNum i) + 1 ∧ bit (t.getReg (Reg.carStatus i)) 8 = decide (num % 2 = 1) ∧
      (t.carSlot i).running = (c.running && c.stopping != some num) := by
  obtain ⟨none, whole⟩ := sound
  obtain ⟨x, xDef⟩ : ∃ x, x = putBit fl 4 (s.carSlot i).thinned := ⟨_, rfl⟩
  obtain ⟨bs, bsDef⟩ : ∃ bs, bs = s.specHeader i num 0 4096 (putBit x 0 true) ++ bins.flatMap (binBytes (s.carSlot i).k) := ⟨_, rfl⟩
  obtain ⟨v, vDef⟩ : ∃ v, v = s.setBytes (carBuf i (num % 2)) bs := ⟨_, rfl⟩
  have stored : s.rtStore (carBuf i (num % 2)) bs = v := by
    rw [vDef]
    exact rtStore_sound whole (undamaged none _ _)
  obtain ⟨m, fields⟩ := setBytes_fields s (carBuf i (num % 2)) bs
  have vFields : v = { s with mem := m } := by
    rw [vDef]
    exact fields s rfl
  have vInv : v.Inv := vDef ▸ setBytes_inv _ _ hi
  obtain ⟨w, wDef⟩ : ∃ w, w = (v.addReg (Reg.carSpecNum i) 1).setBit (Reg.carStatus i) 8 (decide (num % 2 = 1)) := ⟨_, rfl⟩
  obtain ⟨y, yDef⟩ : ∃ y, y = (w.raiseIf (bit x 3) (Reg.carFlags i) 1).raiseIf (bit x 1) (Reg.carFlags i) 0 := ⟨_, rfl⟩
  have flags : ∀ a, a ≠ Reg.carFlags i → a ≠ Reg.carFlags i + 4 → y.getReg a = w.getReg a := fun a flag count => by
    have one : ∀ (u : State) (c : Bool) (b : Nat), b < 4 → (u.raiseIf c (Reg.carFlags i) b).getReg a = u.getReg a := fun u c b low => by
      cases c with
      | false => rfl
      | true => exact getReg_raiseFlag_other _ flag (by rw [flagCntAddr_low low]; exact count)
    rw [yDef, one _ _ _ (by decide), one _ _ _ (by decide)]
  have car : y.car = s.car := by
    have one : ∀ (u : State) (c : Bool) (b : Nat), (u.raiseIf c (Reg.carFlags i) b).car = u.car := fun u c b => by cases c <;> rfl
    rw [yDef, one, one, wDef]
    show v.car = s.car
    rw [vFields]
  have mem : y.mem = v.mem := by
    have one : ∀ (u : State) (c : Bool) (b : Nat), (u.raiseIf c (Reg.carFlags i) b).mem = u.mem := fun u c b => by cases c <;> rfl
    rw [yDef, one, one, wDef]
    rfl
  have slot : y.carSlot i = s.carSlot i := congrArg (fun l : List CarSlot => l.getD i {}) car
  obtain ⟨t, tDef⟩ : ∃ t, t = y.modCar i fun c => { c with
    ready := c.ready.drop 1
    running := c.running && c.stopping != some num
    stopping := if c.stopping = some num then Option.none else c.stopping } := ⟨_, rfl⟩
  have cfg : t.carPush i = false := by
    have same : t.getReg (Reg.carCfg i) = s.getReg (Reg.carCfg i) := by
      rw [tDef]
      refine (flags _ (by simp only [Reg.carCfg, Reg.carFlags]; omega) (by simp only [Reg.carCfg, Reg.carFlags]; omega)).trans ?_
      rw [wDef, show (State.setBit _ _ _ _).getReg (Reg.carCfg i) = _ from
        getReg_setReg_other _ _ (by simp only [Reg.carCfg, Reg.carStatus]; omega)]
      refine (getReg_setReg_other _ _ (by simp only [Reg.carCfg, Reg.carSpecNum]; omega)).trans ?_
      rw [vFields]
      rfl
    exact (congrArg (bit · 0) same).trans kept
  have run : s.specReady i num fl bins = t := by
    have shape : s.specReady i num fl bins = if t.carPush i ∧ ¬ (s.carSlot i).sessGone then
        (let (keep, sum) := t.thin (s.carSlot i).thinSum
         let z := t.modCar i fun c => { c with thinSum := sum }
         if keep then z.modCar i fun c => { c with thinned := false, toPush := c.toPush ++ [num] }
         else ((z.satReg (Reg.carThin i)).raiseFlag (Reg.carFlags i) 2).modCar i fun c => { c with thinned := true }) else t := by
      rw [tDef, yDef, wDef, ← stored, bsDef, xDef]
      rfl
    rw [shape, cfg]
    exact if_neg fun h => Bool.false_ne_true h.1
  have unit : t.carSlot i = { s.carSlot i with
      ready := (s.carSlot i).ready.drop 1
      running := (s.carSlot i).running && (s.carSlot i).stopping != some num
      stopping := if (s.carSlot i).stopping = some num then Option.none else (s.carSlot i).stopping } := by
    rw [tDef, carSlot_modCar_self (by rw [car, hi.car_length]; exact i.isLt), slot]
  have regs : ∀ a, t.getReg a = y.getReg a := fun a => by rw [tDef]; rfl
  dsimp only
  rw [run]
  refine ⟨by rw [unit, first]; rfl, ?_, ?_, ?_, by rw [unit]⟩
  · rw [tDef, ← xDef, ← bsDef, ← vDef]
    exact mem
  · rw [regs, flags _ (by simp only [Reg.carSpecNum, Reg.carFlags]; omega) (by simp only [Reg.carSpecNum, Reg.carFlags]; omega), wDef]
    refine (getReg_setReg_other _ _ (by simp only [Reg.carSpecNum, Reg.carStatus]; omega)).trans ?_
    refine (getReg_setReg_self vInv.regs_wf _ _).trans ?_
    rw [vFields]
    rfl
  · rw [regs, flags _ (by simp only [Reg.carStatus, Reg.carFlags]; omega) (by simp only [Reg.carStatus, Reg.carFlags]; omega), wDef,
      getReg_setBit_self (addReg_inv _ _ vInv), bit_putBit _ _ (by decide), if_pos rfl]

theorem eccWord_car (s : State) (d : Damage) : (s.eccWord d).car = s.car := by
  obtain ⟨r, b, k, c, p, m, f, w, e⟩ := eccWord_fields s d
  rw [e]

/-- A push of a spectrum leaves the slots but for its queue, and the memories (R469). -/
theorem specPush_marks (hi : s.Inv) (num : Nat) : ∃ v : State, v.car = s.car ∧ v.mem = s.mem ∧
    s.specPush i num = v.modCar i fun c => { c with toPush := c.toPush.drop 1 } := by
  have read : ∀ a k, (s.eccRead a k).car = s.car ∧ (s.eccRead a k).mem = s.mem := fun a k =>
    foldl_keeps (P := fun t => t.car = s.car ∧ t.mem = s.mem) ⟨rfl, rfl⟩ fun d _ t ⟨car, mem⟩ =>
      ⟨(eccWord_car t d).trans car, (eccWord_kept t d).2.1.trans mem⟩
  have sess : s.carSess i < 8 := fld_lt ..
  have pushed : ∀ (parts : List (Nat × Nat)) (ops : BitVec 32 → Nat × Nat → List OpResp),
      let v := parts.foldl (fun (t : State) (part : Nat × Nat) =>
        let (q, t) := t.nextSeqNo 1 i
        t.pushClassC (s.carSess i) (ops q part)) (s.eccRead (carBuf i (num % 2)) 40992)
      v.Inv ∧ v.car = s.car ∧ v.mem = s.mem := fun parts ops =>
    foldl_keeps (P := fun t => t.Inv ∧ t.car = s.car ∧ t.mem = s.mem) ⟨eccRead_inv _ _ hi, read _ _⟩ fun part _ t ⟨inv, car, mem⟩ => by
      have inv' : (t.nextSeqNo 1 i).2.Inv := .upd inv rfl
      obtain ⟨w, run, wInv, -, -, e, l, r, b, fields⟩ := pushClassC_marks inv' sess (ops (t.nextSeqNo 1 i).1 part)
      have kept : w.Inv ∧ w.car = s.car ∧ w.mem = s.mem := ⟨wInv, by rw [fields]; exact car, by rw [fields]; exact mem⟩
      rw [← run] at kept
      exact kept
  have shape := pushed (if s.pushJumbo (s.pushPorts (s.carSess i)) then [(0, 896), (896, 896), (1792, 896), (2688, 896), (3584, 512)]
      else (List.range 32).map fun k => (128 * k, 128)) fun q part =>
    let head := s.load (carBuf i (num % 2)) 32
    let all := s.load (carBuf i (num % 2) + 32) 40960
    let fl := BitVec.ofNat 16 (leAt head 20 2)
    let h := head.take 4 ++ leBytes 2 part.1 ++ leBytes 2 part.2 ++ (head.drop 8).take 12 ++
      leBytes 2 (putBit fl 0 (decide (part.1 + part.2 = 4096))).toNat ++ head.drop 22
    [classData 1 i q (h ++ (all.drop (10 * part.1)).take (10 * part.2))]
  exact ⟨_, shape.2.1, shape.2.2, rfl⟩

end

end State

open State in
/-- Settles O49: a slot's commands, the frame that enters its accumulator and the spectrum that leaves it. -/
theorem carouselSpectra : Obligations.CarouselSpectra := by
  unfold Obligations.CarouselSpectra
  have good : ∀ {t u : State}, t = u → .next t = (.next u : Res) := congrArg Host.Outcome.next
  intro s g p u i num ready fl bins hi c N old xs zone added sound
  have here : i.val < s.car.length := by rw [hi.car_length]; exact i.isLt
  refine ⟨fun takes check => ?_, fun takes busy => ?_, fun idle => ?_, fun due clean more => ?_, fun due clean full => ?_,
    fun rest first early => ?_, fun rest first due clean kept => ?_, fun rest first => ?_, fun none => ?_⟩
  · exact good ((hostWrite_carCmd takes (by decide) (by decide) check).trans rfl)
  · exact good ((hostWrite_carCmd takes (by decide) (by decide) (carCmdCheck_stop busy)).trans rfl)
  · exact good (if_neg (by rw [idle]; exact Bool.false_ne_true))
  · refine good ((if_pos due).trans ((carFrame_sound clean).trans (if_neg more)))
  · refine ⟨_, good ((if_pos due).trans ((carFrame_sound clean).trans (if_pos full))), ?_, ?_,
      ⟨((c.flags.find? fun e => e.1 = c.frame / c.k).map (·.2)).getD 0, ?_⟩, rfl, rfl, fun k ne =>
      carSlot_modCar_ne _ ne⟩
    all_goals rw [carSlot_modCar_self here]
  · show execSpectrumReady i s = _
    unfold execSpectrumReady
    rw [show (s.carSlot i).ready = _ from first]
    exact good (if_neg (Nat.not_le.mpr early))
  · obtain ⟨left, mem, count, buffer, running⟩ := specReady_marks hi first clean kept
    refine ⟨s.specReady i num fl bins, ?_, left, mem, count, buffer, running⟩
    show execSpectrumReady i s = _
    unfold execSpectrumReady
    rw [show (s.carSlot i).ready = _ from first]
    exact good (if_pos due)
  · obtain ⟨v, car, mem, run⟩ := specPush_marks (i := i) hi num
    have slots : ∀ k, v.carSlot k = s.carSlot k := fun k => congrArg (fun l : List CarSlot => l.getD k {}) car
    refine ⟨s.specPush i num, ?_, ?_, by rw [run]; exact mem, fun k ne => by rw [run, carSlot_modCar_ne _ ne, slots]⟩
    · show execSpectrumPush i s = _
      unfold execSpectrumPush
      rw [show (s.carSlot i).toPush = _ from first]
    · rw [run, carSlot_modCar_self (by rw [car]; exact here), slots]
      show (s.carSlot i).toPush.drop 1 = rest
      rw [show (s.carSlot i).toPush = _ from first]
      rfl
  · show execSpectrumPush i s = _
    unfold execSpectrumPush
    rw [show (s.carSlot i).toPush = _ from none]

end Sys2Proof.Machine
end

section
/-! PROOF. Housekeeping: conversions, rounds, fans and telemetry (O50). -/

namespace Sys2Proof.Machine

namespace State

/-- There are 16 sensors (R474). -/
theorem Inv.sens_length {s : State} (h : s.Inv) : s.hk.sens.length = 16 := by
  obtain ⟨-, -, -, -, -, -, -, -, -, -, -, -, -, -, hk⟩ := h
  exact hk.1

theorem sens_modSens {s : State} {i : Nat} (here : i < s.hk.sens.length) (f : Sensor → Sensor) : (s.modSens i f).sens i = f (s.sens i) :=
  getD_modify_self here

theorem sens_modSens_ne {s : State} {i k : Nat} (ne : k ≠ i) (f : Sensor → Sensor) : (s.modSens i f).sens k = s.sens k := getD_modify_ne ne

section
variable {s : State}

/-! ### A conversion -/

/-- What every conversion shows (R473). -/
def hkRead (s : State) (x : Int) : State :=
  (s.setReg (Reg.hkVal s.hk.slot) (BitVec.ofNat 16 (s.getReg Reg.hkStatus).toNat ++ BitVec.ofInt 16 x)).modHk fun h => { h with
    slot := s.hk.slot + 1, convAt := s.beat + s.convBeats }

theorem getReg_hkRead (x : Int) {a : Nat} (ne : a ≠ Reg.hkVal s.hk.slot) : (s.hkRead x).getReg a = s.getReg a := getReg_setReg_other _ _ ne

/-- The values of a round stand apart from every other register (R490). -/
theorem getReg_hkRead_far (x : Int) (slot : s.hk.slot < 96) {a : Nat} (far : a < 0x20100 ∨ 0x20280 ≤ a) :
    (s.hkRead x).getReg a = s.getReg a := getReg_hkRead x (by simp only [Reg.hkVal]; omega)

/-- What a conversion shows, by its slot (R473, R475, R476). -/
theorem conversion_eq (slot : s.hk.slot < 96) (code : BitVec 12) (val : Int) : s.conversion code val =
    let k := s.hk.slot
    let u := s.hkRead (if k < 4 ∨ 92 ≤ k then (code.toNat : Int) else val)
    let v :=
      if k < 4 then u
      else if k < 20 then (if s.hk.refBad then u else u.tempReading (k - 4) code.toNat val)
      else if k < 44 then u.supplyReading (k - 20) val
      else if k < 92 then u.biasReadback ((k - 44) / 4) ((k - 44) % 4) (s.getReg Reg.hkStatus).toNat val
      else u
    if k = 95 then v.endRound else v := by
  have beats : ∀ w, (s.setReg (Reg.hkVal s.hk.slot) w).convBeats = s.convBeats := fun w => by
    unfold convBeats regBit
    rw [getReg_setReg_other _ _ (by simp only [Reg.hkVal, Reg.hkCtrl]; omega)]
  unfold conversion
  dsimp only
  rw [beats]
  rfl

/-! ### The end of a round -/

theorem edgeBeat_fields (s : State) : ∃ e, s.edgeBeat = s.modHk fun h => { h with edgeAt := e } := by
  unfold edgeBeat
  split
  · exact ⟨_, rfl⟩
  · exact ⟨s.hk.edgeAt, rfl⟩

/-- What the end of a round leaves (R476, R477, R489). -/
theorem endRound_marks (hi : s.Inv) :
    let t := s.endRound
    t.getReg Reg.hkStatus = s.getReg Reg.hkStatus + 1 ∧ t.hk.waitEdge = some s.beat ∧
      (s.hk.refBad = true → bit (t.getReg Reg.thermFlags) 6 = true) ∧
      (∀ a, a ≠ Reg.hkStatus → s.hk.refBad = false ∨ (a ≠ Reg.thermFlags ∧ a ≠ Reg.thermFlags + 8) → t.getReg a = s.getReg a) ∧
      (s.regBit Reg.telemCtrl 0 = true → s.regFld Reg.telemCtrl 23 8 ≤ s.hk.telemN + 1 →
        t.hk.telemDue = some ((s.getReg Reg.hkStatus).toNat, s.hk.roundAt)) ∧ t.rings = s.rings ∧ t.mem = s.mem := by
  obtain ⟨v, vDef⟩ : ∃ v, v = (s.addReg Reg.hkStatus 1).raiseIf s.hk.refBad Reg.thermFlags 6 := ⟨_, rfl⟩
  have count : flagCntAddr Reg.thermFlags 6 = Reg.thermFlags + 8 := by decide
  have others : ∀ a, s.hk.refBad = false ∨ (a ≠ Reg.thermFlags ∧ a ≠ Reg.thermFlags + 8) →
      v.getReg a = (s.addReg Reg.hkStatus 1).getReg a := fun a away => by
    rw [vDef]
    unfold raiseIf
    split
    · rename_i bad
      obtain ⟨flag, next⟩ := away.resolve_left (by rw [bad]; exact Bool.noConfusion)
      exact getReg_raiseFlag_other _ flag (by rw [count]; exact next)
    · rfl
  have kept : v.hk = s.hk ∧ v.beat = s.beat ∧ v.rings = s.rings ∧ v.mem = s.mem := by
    rw [vDef]
    unfold raiseIf
    split <;> exact ⟨rfl, rfl, rfl, rfl⟩
  obtain ⟨hk, beat, rings, mem⟩ := kept
  obtain ⟨e, edge⟩ := edgeBeat_fields (v.modHk fun h => { h with waitEdge := some v.beat, telemN := h.telemN + 1 })
  obtain ⟨w, wDef⟩ : ∃ w, w = (v.modHk fun h => { h with waitEdge := some v.beat, telemN := h.telemN + 1 }).edgeBeat := ⟨_, rfl⟩
  have run : s.endRound = if w.regBit Reg.telemCtrl 0 ∧ w.regFld Reg.telemCtrl 23 8 ≤ w.hk.telemN then
      w.modHk fun h => { h with telemN := 0, telemDue := some ((s.getReg Reg.hkStatus).toNat, h.roundAt) } else w := by
    rw [wDef, vDef]
    rfl
  rw [edge] at wDef
  have final : (s.endRound.regs = v.regs ∧ s.endRound.rings = v.rings ∧ s.endRound.mem = v.mem ∧ s.endRound.hk.waitEdge = some v.beat) ∧
      (v.regBit Reg.telemCtrl 0 = true → v.regFld Reg.telemCtrl 23 8 ≤ v.hk.telemN + 1 →
        s.endRound.hk.telemDue = some ((s.getReg Reg.hkStatus).toNat, v.hk.roundAt)) := by
    rw [run, wDef]
    refine ⟨?_, fun on due => ?_⟩
    · split <;> exact ⟨rfl, rfl, rfl, rfl⟩
    · exact congrArg (fun t : State => t.hk.telemDue) (if_pos ⟨on, due⟩)
  obtain ⟨⟨regs, rings', mem', wait⟩, telem⟩ := final
  have read : ∀ a, s.endRound.getReg a = v.getReg a := fun a => congrArg (Cells.get resetWord · a) regs
  have ctrl : v.getReg Reg.telemCtrl = s.getReg Reg.telemCtrl :=
    (others _ (.inr (by decide))).trans (getReg_setReg_other _ _ (by decide))
  refine ⟨?_, wait.trans (congrArg some beat), fun bad => ?_, fun a ne away => (read a).trans ((others a away).trans (getReg_setReg_other _ _ ne)),
    fun on due => ?_, rings'.trans rings, mem'.trans mem⟩
  · rw [read, others _ (.inr (by decide))]
    exact getReg_setReg_self hi.regs_wf _ _
  · rw [read, vDef, bit_raiseIf (addReg_inv _ _ hi) _ _ (by decide), bad]
    simp
  · rw [telem (by unfold regBit at on ⊢; rw [ctrl]; exact on) (by unfold regFld at due ⊢; rw [ctrl, hk]; exact due), hk]

/-! ### A counted reading -/

/-- Nothing but the event log and the thermal flags differs between the states. -/
def ThermNoted (s t : State) : Prop :=
  t.Inv ∧ (∀ a, ¬ evReg a → a ≠ Reg.thermFlags → a ≠ Reg.thermFlags + 4 → t.getReg a = s.getReg a) ∧ t.hk = s.hk ∧ t.rings = s.rings ∧
    t.mem = s.mem

theorem ThermNoted.refl (hi : s.Inv) : s.ThermNoted s := ⟨hi, fun _ _ _ _ => rfl, rfl, rfl, rfl⟩

theorem ThermNoted.raiseEvent {t : State} (h : s.ThermNoted t) (code src : Nat) (data : Word) : s.ThermNoted (t.raiseEvent code src data) := by
  obtain ⟨inv, regs, hk, rings, mem⟩ := h
  obtain ⟨same, r, b, k, c, p, m, fields⟩ := Noted.raiseEvent t code src data
  exact ⟨raiseEvent_inv _ _ _ inv, fun a ev flag count => (same a ev).trans (regs a ev flag count), by rw [fields]; exact hk,
    by rw [fields]; exact rings, by rw [fields]; exact mem⟩

theorem ThermNoted.raiseFlag {t : State} (h : s.ThermNoted t) {b : Nat} (low : b < 4) : s.ThermNoted (t.raiseFlag Reg.thermFlags b) := by
  obtain ⟨inv, regs, hk, rings, mem⟩ := h
  exact ⟨raiseFlag_inv _ _ inv, fun a ev flag count => (getReg_raiseFlag_other _ flag (by rw [flagCntAddr_low low]; exact count)).trans
    (regs a ev flag count), hk, rings, mem⟩

/-- A sensor whose reading lies below 112 C and that is in no shutdown takes no step to it (R478). -/
theorem levelOf_cool {x : Sensor} (calm : x.level ≠ .shutdown) (cool : x.up.getD 2 0 = 0) : levelOf x ≠ .shutdown := by
  have low : thermalCode x.level < 3 := by
    cases h : x.level
    case shutdown => exact absurd h calm
    all_goals decide
  have no : (decide (4 ≤ x.up.getD (3 - 1) 0) || decide (3 ≤ thermalCode x.level)) = false := by
    rw [show x.up.getD (3 - 1) 0 = 0 from cool, decide_eq_false (Nat.not_le.mpr low)]
    rfl
  unfold levelOf
  dsimp only
  split
  · rename_i h
    rw [no] at h
    exact absurd h Bool.false_ne_true
  · split
    · exact Thermal.noConfusion
    · split <;> exact Thermal.noConfusion

/-- What a counted reading below 112 C leaves (R478, R490). -/
theorem countTemp_marks (hi : s.Inv) {i : Nat} (small : i < 16) {t : Int} (cool : t < 1792) (calm : (s.sens i).level ≠ .shutdown) :
    let z := s.countTemp i t
    (∀ a, ¬ evReg a → a ≠ Reg.thermFlags → a ≠ Reg.thermFlags + 4 → a ≠ Reg.thermSens i → a ≠ Reg.thermStatus → a ≠ Reg.throttleR →
        z.getReg a = s.getReg a) ∧
      (z.sens i).temp = t ∧ (z.sens i).lastCode = (s.sens i).lastCode ∧ fld (z.getReg (Reg.thermSens i)) 15 0 = (BitVec.ofInt 16 t).toNat ∧
      (∀ k, k ≠ i → z.sens k = s.sens k) ∧ z.rings = s.rings ∧ z.mem = s.mem := by
  obtain ⟨v, vDef⟩ : ∃ v, v = s.modSens i fun x => { x with
    temp := t
    up := [runOf (x.up.getD 0 0) (1520 ≤ t), runOf (x.up.getD 1 0) (1600 ≤ t), runOf (x.up.getD 2 0) (1792 ≤ t)]
    below := [runOf (x.below.getD 0 0) (t < 1472), runOf (x.below.getD 1 0) (t < 1552)] } := ⟨_, rfl⟩
  have here : i < s.hk.sens.length := by rw [hi.sens_length]; exact small
  have vSens : v.sens i = { s.sens i with
      temp := t
      up := [runOf ((s.sens i).up.getD 0 0) (1520 ≤ t), runOf ((s.sens i).up.getD 1 0) (1600 ≤ t), runOf ((s.sens i).up.getD 2 0) (1792 ≤ t)]
      below := [runOf ((s.sens i).below.getD 0 0) (t < 1472), runOf ((s.sens i).below.getD 1 0) (t < 1552)] } := by
    rw [vDef]
    exact sens_modSens here _
  have vInv : v.Inv := vDef ▸ modSens_inv _ _ hi
  have level : levelOf (v.sens i) ≠ .shutdown := by
    rw [vSens]
    refine levelOf_cool calm ?_
    show runOf _ (decide (1792 ≤ t)) = 0
    rw [decide_eq_false (Int.not_le.mpr cool)]
    rfl
  obtain ⟨now, nowDef⟩ : ∃ now, now = levelOf (v.sens i) := ⟨_, rfl⟩
  obtain ⟨w, wDef⟩ : ∃ w, w = v.modSens i fun x => { x with level := now, excess := excessOf { x with level := now } } := ⟨_, rfl⟩
  have wInv : w.Inv := wDef ▸ modSens_inv _ _ vInv
  have vHere : i < v.hk.sens.length := by rw [vInv.sens_length]; exact small
  have wSens : (w.sens i).temp = t ∧ (w.sens i).lastCode = (s.sens i).lastCode := by
    rw [wDef, sens_modSens vHere, vSens]
    exact ⟨rfl, rfl⟩
  obtain ⟨y, yDef⟩ : ∃ y, y = (match now with
    | .warn => if (v.sens i).level = Thermal.normal then (w.raiseFlag Reg.thermFlags 0).raiseEvent 0x0301 0x02 (BitVec.ofNat 32 i) else w
    | .throttle =>
      if (v.sens i).level = Thermal.normal ∨ (v.sens i).level = Thermal.warn then
        (w.raiseFlag Reg.thermFlags 1).raiseEvent 0x0302 0x02 (BitVec.ofNat 32 (i + 256 * min 255 (w.sens i).excess))
      else w
    | .normal => if (v.sens i).level = Thermal.normal then w else w.raiseEvent 0x0303 0x02 (BitVec.ofNat 32 i)
    | .shutdown => if (v.sens i).level = Thermal.shutdown then w else w.startShutdown i false) := ⟨_, rfl⟩
  have run : s.countTemp i t = (y.showSens i).showThermal := by
    rw [yDef, wDef, nowDef, vDef]
    rfl
  have noted : w.ThermNoted y := by
    rw [yDef]
    cases now with
    | normal =>
      dsimp only
      split
      · exact .refl wInv
      · exact (ThermNoted.refl wInv).raiseEvent _ _ _
    | warn =>
      dsimp only
      split
      · exact ((ThermNoted.refl wInv).raiseFlag (by decide)).raiseEvent _ _ _
      · exact .refl wInv
    | throttle =>
      dsimp only
      split
      · exact ((ThermNoted.refl wInv).raiseFlag (by decide)).raiseEvent _ _ _
      · exact .refl wInv
    | shutdown => exact absurd nowDef.symm level
  obtain ⟨yInv, regs, hk, rings, mem⟩ := noted
  have sens : ∀ k, y.sens k = w.sens k := fun k => congrArg (fun h : HkUnit => h.sens.getD k {}) hk
  have shown : ∀ a, a ≠ Reg.thermStatus → a ≠ Reg.throttleR → (y.showSens i).showThermal.getReg a = (y.showSens i).getReg a :=
    fun a status rate =>
      (getReg_setReg_other _ _ rate).trans ((getReg_setReg_other _ _ status).trans ((getReg_setReg_other _ _ status).trans
        (getReg_setReg_other _ _ status)))
  have wRegs : ∀ a, w.getReg a = s.getReg a := fun a => by rw [wDef, vDef]; rfl
  dsimp only
  rw [run]
  refine ⟨fun a ev flag count sensor status rate => ?_, ?_, ?_, ?_, fun k ne => ?_, ?_, ?_⟩
  · rw [shown a status rate]
    refine (getReg_setReg_other _ _ sensor).trans ((getReg_setReg_other _ _ sensor).trans ((regs a ev flag count).trans (wRegs a)))
  · exact (congrArg Sensor.temp (sens i)).trans wSens.1
  · exact (congrArg Sensor.lastCode (sens i)).trans wSens.2
  · rw [shown _ (by simp only [Reg.thermSens, Reg.thermStatus]; omega) (by simp only [Reg.thermSens, Reg.throttleR]; omega)]
    show fld (((y.setFld _ _ _ _).setFld (Reg.thermSens i) 15 0 (BitVec.ofInt 16 (y.sens i).temp).toNat).getReg (Reg.thermSens i)) 15 0 = _
    rw [getReg_setFld_self (setFld_inv _ _ _ _ yInv), fld_putFld_self _ _ (by decide), sens, wSens.1]
    exact Nat.mod_eq_of_lt (BitVec.isLt _)
  · exact (sens k).trans (by rw [wDef, sens_modSens_ne ne, vDef, sens_modSens_ne ne])
  · exact rings.trans (by rw [wDef, vDef]; rfl)
  · exact mem.trans (by rw [wDef, vDef]; rfl)

/-- A sound reading of a sensor that is not broken (R478, R479). -/
theorem tempReading_marks (hi : s.Inv) {i code : Nat} (small : i < 16) {t : Int} (whole : (s.sens i).broken = false)
    (sound : s.brokenCause i code t (if (s.sens i).lastCode = some code then (s.sens i).sameRun + 1 else 1) = none) (cool : t < 1792)
    (calm : (s.sens i).level ≠ .shutdown) :
    let z := s.tempReading i code t
    (∀ a, ¬ evReg a → a ≠ Reg.thermFlags → a ≠ Reg.thermFlags + 4 → a ≠ Reg.thermSens i → a ≠ Reg.thermStatus → a ≠ Reg.throttleR →
        z.getReg a = s.getReg a) ∧
      (z.sens i).temp = t ∧ (z.sens i).lastCode = some code ∧ fld (z.getReg (Reg.thermSens i)) 15 0 = (BitVec.ofInt 16 t).toNat ∧
      (∀ k, k ≠ i → z.sens k = s.sens k) ∧ z.rings = s.rings ∧ z.mem = s.mem := by
  obtain ⟨v, vDef⟩ : ∃ v, v = s.modSens i fun x => { x with
    lastCode := some code, sameRun := if (s.sens i).lastCode = some code then (s.sens i).sameRun + 1 else 1 } := ⟨_, rfl⟩
  have here : i < s.hk.sens.length := by rw [hi.sens_length]; exact small
  have run : s.tempReading i code t = v.countTemp i t := by
    unfold tempReading
    rw [if_neg (by rw [whole]; exact Bool.false_ne_true)]
    dsimp only
    rw [sound, vDef]
  have vSens : v.sens i = { s.sens i with
      lastCode := some code, sameRun := if (s.sens i).lastCode = some code then (s.sens i).sameRun + 1 else 1 } := by
    rw [vDef]
    exact sens_modSens here _
  obtain ⟨regs, temp, last, shown, others, rings, mem⟩ := countTemp_marks (s := v) (vDef ▸ modSens_inv _ _ hi) small cool
    (by rw [vSens]; exact calm)
  dsimp only
  rw [run]
  refine ⟨fun a ev flag count sensor status rate => (regs a ev flag count sensor status rate).trans (by rw [vDef]; rfl), temp,
    last.trans (by rw [vSens]), shown, fun k ne => (others k ne).trans (by rw [vDef, sens_modSens_ne ne]), rings.trans (by rw [vDef]; rfl),
    mem.trans (by rw [vDef]; rfl)⟩

end

end State

end Sys2Proof.Machine
end

section
/-! PROOF. The housekeeping obligation (O50). -/

namespace Sys2Proof.Machine

namespace State

section
variable {s : State}

/-- A round that starts (R476, R477). -/
theorem startRound_eq (s : State) : s.startRound = ({ s with freeCtr := s.freeCtr + 1 } : State).modHk fun h => { h with
    roundAt := s.beat, slot := 0, convAt := s.beat + s.convBeats, waitEdge := none, edgeAt := none, refBad := Config.refFails s.freeCtr } := rfl

theorem getReg_hkRead_self (hi : s.Inv) (x : Int) :
    (s.hkRead x).getReg (Reg.hkVal s.hk.slot) = BitVec.ofNat 16 (s.getReg Reg.hkStatus).toNat ++ BitVec.ofInt 16 x :=
  getReg_setReg_self hi.regs_wf _ _

theorem hkRead_inv (hi : s.Inv) (x : Int) : (s.hkRead x).Inv := modHk_inv _ (fun _ h => h) (setReg_inv _ _ hi)

/-- A fan's speed (R488). -/
theorem fanUpdate_eq (s : State) (f : Nat) (rpm : BitVec 16) :
    s.fanUpdate f rpm =
      (let fan := s.hk.fans.getD f {}
       let low := s.regBit (Reg.fanCtrl f) 0 && decide (rpm.toNat < s.regFld (Reg.fanMinRpm f) 15 0)
       ((s.setReg (Reg.fanTach f) (rpm.zeroExtend 32)).modHk fun h => { h with fans := h.fans.modify f fun y => {
          lowFor := if low then fan.lowFor + 1 else 0, nextAt := y.nextAt + 1500000000 } }).raiseIf
            (low && decide (fan.lowFor = 2)) Reg.thermFlags 4) := by
  unfold fanUpdate runOf
  dsimp only
  cases s.regBit (Reg.fanCtrl f) 0 && decide (rpm.toNat < s.regFld (Reg.fanMinRpm f) 15 0) with
  | false => rfl
  | true =>
    have third : (((s.hk.fans.getD f {}).lowFor + 1 == 3) : Bool) = (true && decide ((s.hk.fans.getD f {}).lowFor = 2)) := by
      rw [Bool.true_and, beq_eq_decide]
      exact decide_eq_decide.mpr ⟨Nat.succ.inj, congrArg Nat.succ⟩
    rw [if_pos rfl, third]

/-- The telemetry of a round has 52 words (R489). -/
theorem classData_telemetry (seq : BitVec 32) (num time sub : Nat) (vals : Nat → Nat) :
    classData 3 0 seq (leBytes 4 num ++ leBytes 4 time ++ leBytes 2 sub ++ List.replicate 6 0 ++
      (List.range 96).flatMap fun j => leBytes 2 (vals j)) =
    { op := 0x0B, addr := 3, count := 52, body := leBytes 4 seq.toNat ++ (leBytes 4 num ++ leBytes 4 time ++ leBytes 2 sub ++
      List.replicate 6 0 ++ (List.range 96).flatMap fun j => leBytes 2 (vals j)) } := by
  have words : (leBytes 4 num ++ leBytes 4 time ++ leBytes 2 sub ++ List.replicate 6 0 ++
      (List.range 96).flatMap fun j => leBytes 2 (vals j)).length = 208 := by
    simp only [List.length_append, length_leBytes, List.length_replicate, List.length_flatMap, List.map_const', List.length_range,
      List.sum_replicate, smul_eq_mul]
  unfold classData
  rw [words]
  rfl

/-- A telemetry push that is not thinned waits on the port that carries the session's pushes (R489). -/
theorem telemetry_marks (hi : s.Inv) {num start q : Nat} (ports : s.pushPorts (s.regFld Reg.telemCtrl 6 4) = [q])
    (room : (s.port q).classCHeld ≤ 262144) (keep : (s.thin s.hk.telemSum).1 = true) :
    let u := s.regFld Reg.telemCtrl 6 4
    let t := s.telemetry num start
    t.hk.telemDue = none ∧ s.Queued t q (s.pushFrame u .classC [classData 3 0 (s.nextSeqNo 3 0).1 (leBytes 4 num ++
      leBytes 4 (ts32 (s.netTime start)).toNat ++ leBytes 2 (subNs (s.netTime start)).toNat ++ List.replicate 6 0 ++
      (List.range 96).flatMap fun k => leBytes 2 (s.regFld (Reg.hkVal k) 15 0))] q) := by
  obtain ⟨v, vDef⟩ : ∃ v, v = (s.nextSeqNo 3 0).2.modHk fun h => { h with telemSum := (s.thin s.hk.telemSum).2, telemDue := none } := ⟨_, rfl⟩
  have vInv : v.Inv := by
    rw [vDef]
    exact modHk_inv _ (fun _ h => h) (.upd hi rfl)
  have vPorts : v.pushPorts (s.regFld Reg.telemCtrl 6 4) = [q] := by rw [vDef]; exact ports
  obtain ⟨ops, opsDef⟩ : ∃ ops, ops = [classData 3 0 (s.nextSeqNo 3 0).1 (leBytes 4 num ++
      leBytes 4 (ts32 (s.netTime start)).toNat ++ leBytes 2 (subNs (s.netTime start)).toNat ++ List.replicate 6 0 ++
      (List.range 96).flatMap fun k => leBytes 2 (s.regFld (Reg.hkVal k) 15 0))] := ⟨_, rfl⟩
  obtain ⟨t, push, -, -, queued, e, l, r, b, fields⟩ := pushClassC_marks vInv (fld_lt (s.getReg Reg.telemCtrl) 6 4) ops
  have run : s.telemetry num start = t := by
    have shape : s.telemetry num start = if (s.thin s.hk.telemSum).1 = true then v.pushClassC (v.regFld Reg.telemCtrl 6 4) ops else v := by
      rw [vDef, opsDef]
      rfl
    rw [shape, if_pos keep, ← push, vDef]
    rfl
  dsimp only
  rw [run, ← opsDef]
  refine ⟨by rw [fields, vDef]; rfl, ?_⟩
  have waits := queued q (by
    show q ∈ v.pushPorts (s.regFld Reg.telemCtrl 6 4)
    rw [vPorts]
    exact List.mem_singleton.mpr rfl) (by rw [vDef]; exact room)
  rw [vDef] at waits
  exact waits

end

end State

open State in
/-- Settles O50: what each slot of a round converts, its end, the fans and the telemetry. -/
theorem housekeepingRounds : Obligations.HousekeepingRounds := by
  unfold Obligations.HousekeepingRounds
  have good : ∀ {t u : State}, t = u → .next t = (.next u : Res) := congrArg Host.Outcome.next
  have off : ∀ {c : Bool}, c = false → ¬ c = true := fun h => by rw [h]; exact Bool.false_ne_true
  intro s edge code val f pulses hi k round next read win out x n b o shift mismatch rpm fan low
  refine ⟨fun due => ?_, fun idle => good (if_neg (off idle)), fun idle => good (if_neg (off idle)), fun due => ?_, fun due => ?_, fun early => ?_,
    fun none => ?_, fun num start q seq due ports room keep seqDef => ?_⟩
  · refine good ((if_pos due).trans ?_)
    rw [startRound_eq]
    cases edge with
    | true => rfl
    | false =>
      by_cases sync : s.regBit Reg.hkCtrl 8 = true
      · have same : (s.raiseFlag Reg.thermFlags 5).convBeats = s.convBeats := by
          unfold convBeats regBit
          rw [getReg_raiseFlag_other _ (by decide) (by decide)]
        rw [if_pos ⟨Bool.false_ne_true, sync⟩, if_pos ⟨rfl, sync⟩, same]
        rfl
      · rw [if_neg fun h => sync h.2, if_neg fun h => sync h.2]
        rfl
  · have slot : k < 96 := by
      unfold conversionDue at due
      rw [Bool.and_eq_true, decide_eq_true_eq] at due
      exact due.2.1
    have run : exec (.hkConversion code val) s = .next (s.conversion code val) := good (if_pos due)
    have reads : ∀ y, s.hkRead y = read y := fun y => rfl
    rw [run, conversion_eq slot]
    refine ⟨fun low => ?_, fun low high => ?_, fun low high => ?_, fun low high bad => ?_, fun low high => ?_, fun last => ?_,
      fun low high sound whole fine cool calm => ?_⟩
    · refine good ?_
      simp only [show s.hk.slot < 4 from low, show ¬ s.hk.slot = 95 by omega, true_or, if_true, if_false]
      rfl
    · refine good ?_
      simp only [show ¬ s.hk.slot < 4 by omega, show ¬ s.hk.slot < 20 by omega, show s.hk.slot < 44 from high,
        show ¬ 92 ≤ s.hk.slot by omega, show ¬ s.hk.slot = 95 by omega, or_self, if_true, if_false]
      unfold supplyReading
      rw [getReg_hkRead_far _ slot (by simp only [Reg.supWin]; omega)]
      rfl
    · refine good ?_
      simp only [show ¬ s.hk.slot < 4 by omega, show ¬ s.hk.slot < 20 by omega, show ¬ s.hk.slot < 44 by omega,
        show ¬ s.hk.slot < 92 by omega, show 92 ≤ s.hk.slot from low, show ¬ s.hk.slot = 95 by omega, or_true, if_true, if_false]
      rfl
    · refine good ?_
      simp only [show ¬ s.hk.slot < 4 by omega, show s.hk.slot < 20 from high, show ¬ 92 ≤ s.hk.slot by omega,
        show ¬ s.hk.slot = 95 by omega, or_self, bad, if_true, if_false]
      rfl
    · refine good ?_
      simp only [show ¬ s.hk.slot < 4 by omega, show ¬ s.hk.slot < 20 by omega, show ¬ s.hk.slot < 44 by omega,
        show s.hk.slot < 92 from high, show ¬ 92 ≤ s.hk.slot by omega, show ¬ s.hk.slot = 95 by omega, or_self, if_true, if_false]
      have thr : ∀ w, ((s.hkRead val).setReg (Reg.biasReadback n b) w).getReg (Reg.biasMismatchThr n b) =
          s.getReg (Reg.biasMismatchThr n b) := fun w =>
        (getReg_setReg_other _ _ (by simp only [Reg.biasReadback, Reg.biasMismatchThr]; omega)).trans
          (getReg_hkRead_far _ slot (by simp only [Reg.biasMismatchThr]; omega))
      unfold biasReadback regFld
      dsimp only
      rw [thr]
      rfl
    · have shown : s.conversion code val = (read code.toNat).endRound := by
        rw [conversion_eq slot]
        have here : s.hk.slot = 95 := last
        simp only [show ¬ s.hk.slot < 4 by omega, show ¬ s.hk.slot < 20 by omega, show ¬ s.hk.slot < 44 by omega,
          show ¬ s.hk.slot < 92 by omega, show 92 ≤ s.hk.slot by omega, or_true, if_true, if_false]
        rw [if_pos here]
        rfl
      have rInv : (read code.toNat).Inv := hkRead_inv hi _
      obtain ⟨count, wait, flag, others, telem, rings, mem⟩ := endRound_marks rInv
      have kept : ∀ {a : Nat}, a < 0x20100 ∨ 0x20280 ≤ a → (read code.toNat).getReg a = s.getReg a := fun far =>
        getReg_hkRead_far _ slot far
      refine ⟨(read code.toNat).endRound, by rw [← shown, conversion_eq slot], ?_, ?_, wait, flag, fun sound => ?_, fun on due => ?_, rings, mem⟩
      · rw [others _ (by decide) (.inr ⟨by decide, by decide⟩)]
        have value : (read code.toNat).getReg (Reg.hkVal k) = _ := getReg_hkRead_self hi code.toNat
        rw [show k = 95 from last] at value
        refine value.trans (congrArg (round ++ ·) ?_)
        exact BitVec.ofInt_natCast 16 code.toNat
      · rw [count, kept (.inl (by decide))]
      · exact (others _ (by decide) (.inl sound)).trans (kept (.inl (by decide)))
      · have same := kept (a := Reg.telemCtrl) (.inl (by decide))
        have due' := telem (by unfold regBit at on ⊢; rw [same]; exact on) (by unfold regFld at due ⊢; rw [same]; exact due)
        rw [kept (a := Reg.hkStatus) (.inl (by decide))] at due'
        exact due'
    · have small : k - 4 < 16 := by omega
      obtain ⟨regs, temp, code', shown, others, rings, mem⟩ := tempReading_marks (s := read val) (hkRead_inv hi val) small whole fine cool calm
      refine ⟨(read val).tempReading (k - 4) code.toNat val, good ?_, ?_, temp, code', shown, others, rings, mem⟩
      · simp only [show ¬ s.hk.slot < 4 by omega, show s.hk.slot < 20 from high, show ¬ 92 ≤ s.hk.slot by omega,
          show ¬ s.hk.slot = 95 by omega, or_self, sound, Bool.false_eq_true, if_true, if_false]
        rfl
      · rw [regs _ (by unfold evReg; simp only [Reg.hkVal]; omega) (by simp only [Reg.hkVal, Reg.thermFlags]; omega)
          (by simp only [Reg.hkVal, Reg.thermFlags]; omega) (by simp only [Reg.hkVal, Reg.thermSens]; omega)
          (by simp only [Reg.hkVal, Reg.thermStatus]; omega) (by simp only [Reg.hkVal, Reg.throttleR]; omega)]
        exact getReg_hkRead_self hi val
  · exact good ((if_pos due).trans (fanUpdate_eq s f (rpmOf pulses)))
  · exact good (if_neg (Nat.not_le.mpr early))
  · show execTelemetryPush s = _
    unfold execTelemetryPush
    rw [none]
  · subst seqDef
    obtain ⟨done, queued⟩ := telemetry_marks (num := num) (start := start) hi ports room keep
    refine ⟨s.telemetry num start, ?_, done, ?_⟩
    · show execTelemetryPush s = _
      unfold execTelemetryPush
      rw [due]
    · have frame := classData_telemetry (s.nextSeqNo 3 0).1 num (ts32 (s.netTime start)).toNat (subNs (s.netTime start)).toNat
        fun j => s.regFld (Reg.hkVal j) 15 0
      rw [frame] at queued
      exact queued

end Sys2Proof.Machine
end

section
/-! PROOF. Shutdown, hard trip and reset (O51). -/

namespace Sys2Proof.Machine

namespace State

section
variable {s g : State}

/-! ### An operation on every converter channel -/

/-- The converter channels of a state: an accessor `get` of `m` units of a ring, each of which `op` turns into `F` of it. -/
structure Grid {α : Type} (get : State → Nat → Nat → α) (op : Nat → Nat → State → State) (F : α → α) (m : Nat) : Prop where
  here : ∀ u : State, u.Inv → ∀ n, n < 12 → ∀ c, c < m → get (op n c u) n c = F (get u n c)
  others : ∀ (u : State) (n c i j : Nat), i ≠ n ∨ j ≠ c → get (op n c u) i j = get u i j
  inv : ∀ u : State, u.Inv → ∀ n c, (op n c u).Inv
  fields : ∀ (u : State) (n c : Nat), ∃ r, op n c u = { u with rings := r }

theorem forBelow_succ (s : State) (k : Nat) (f : Nat → State → State) : s.forBelow (k + 1) f = f k (s.forBelow k f) := by
  unfold forBelow
  rw [List.range_succ, List.foldl_append]
  rfl

section
variable {α : Type} {get : State → Nat → Nat → α} {op : Nat → Nat → State → State} {F : α → α} {m : Nat}

theorem Grid.row (h : Grid get op F m) (hi : s.Inv) {n : Nat} (ring : n < 12) {k : Nat} (low : k ≤ m) :
    let t := s.forBelow k fun c u => op n c u
    t.Inv ∧ (∀ i j, get t i j = if i = n ∧ j < k then F (get s i j) else get s i j) ∧ ∃ r, t = { s with rings := r } := by
  induction k with
  | zero => exact ⟨hi, fun i j => (if_neg fun h => Nat.not_lt_zero j h.2).symm, s.rings, rfl⟩
  | succ k ih =>
    obtain ⟨inv, cells, r, fields⟩ := ih (Nat.le_of_succ_le low)
    dsimp only
    rw [forBelow_succ]
    obtain ⟨r', fields'⟩ := h.fields (s.forBelow k fun c u => op n c u) n k
    refine ⟨h.inv _ inv _ _, fun i j => ?_, r', by rw [fields', fields]⟩
    by_cases same : i = n ∧ j = k
    · obtain ⟨rfl, rfl⟩ := same
      rw [h.here _ inv _ ring _ low, cells, if_neg fun h => Nat.lt_irrefl _ h.2, if_pos ⟨rfl, Nat.lt_succ_self _⟩]
    · rw [h.others _ _ _ _ _ (by omega), cells]
      exact if_congr (by omega) rfl rfl

theorem Grid.rows (h : Grid get op F m) (hi : s.Inv) {k : Nat} (low : k ≤ 12) :
    let t := s.forBelow k fun n u => u.forBelow m fun c u => op n c u
    t.Inv ∧ (∀ i j, get t i j = if i < k ∧ j < m then F (get s i j) else get s i j) ∧ ∃ r, t = { s with rings := r } := by
  induction k with
  | zero => exact ⟨hi, fun i j => (if_neg fun h => Nat.not_lt_zero i h.1).symm, s.rings, rfl⟩
  | succ k ih =>
    obtain ⟨inv, cells, r, fields⟩ := ih (Nat.le_of_succ_le low)
    dsimp only
    rw [forBelow_succ]
    obtain ⟨inv', cells', r', fields'⟩ := h.row inv (n := k) low (Nat.le_refl m)
    refine ⟨inv', fun i j => ?_, r', by rw [fields', fields]⟩
    by_cases same : i = k
    · subst same
      rw [cells', cells, if_neg (show ¬ (i < i ∧ j < m) from fun h => Nat.lt_irrefl _ h.1)]
      exact if_congr (by omega) rfl rfl
    · rw [cells', if_neg fun h => same h.1, cells]
      exact if_congr (by omega) rfl rfl

end

theorem txGrid (F : TxCh → TxCh) : Grid State.tx (fun n c u => u.modTx n c F) F 4 where
  here u hi n ring c low := tx_modTx_self hi.rings_length ring (by rw [(hi.ring_sized ring).2.1]; exact low) F
  others u n c i j ne := tx_modTx_ne F ne
  inv u hi n c := modTx_inv n c F hi
  fields u n c := ⟨_, rfl⟩

/-- An operation on every TX channel (R244, R486, R487). -/
theorem forTx_spec (hi : s.Inv) (F : TxCh → TxCh) :
    let t := s.forBelow 12 fun n u => u.forBelow 4 fun c u => u.modTx n c F
    t.Inv ∧ (∀ n c, n < 12 → c < 4 → t.tx n c = F (s.tx n c)) ∧ ∃ r, t = { s with rings := r } := by
  obtain ⟨inv, cells, fields⟩ := (txGrid F).rows hi (Nat.le_refl 12)
  exact ⟨inv, fun n c ring low => (cells n c).trans (if_pos ⟨ring, low⟩), fields⟩

/-! ### Graceful shutdown -/

/-- What an abandoned NVM write leaves (R431, R502). -/
theorem cutNvm_kept (hi : s.Inv) : let t := s.cutNvm
    t.Inv ∧ t.cal.store = none ∧ t.mem = s.mem ∧ t.beat = s.beat ∧ t.hk = s.hk ∧ t.links = s.links ∧ t.rings = s.rings ∧ t.rst = s.rst ∧
      t.car = s.car := by
  have ended : ∀ (o : SecOp) (e : Err), let t := s.cutStore.endSecOp o e
      t.cal.store = none ∧ t.mem = s.mem ∧ t.beat = s.beat ∧ t.hk = s.hk ∧ t.links = s.links ∧ t.rings = s.rings ∧ t.rst = s.rst ∧
        t.car = s.car := fun o e => by
    unfold endSecOp
    dsimp only
    split <;> exact ⟨rfl, rfl, rfl, rfl, rfl, rfl, rfl, rfl⟩
  refine ⟨cutNvm_inv hi, ?_⟩
  unfold cutNvm
  dsimp only
  split
  · split
    · exact ended _ _
    · exact ⟨rfl, rfl, rfl, rfl, rfl, rfl, rfl, rfl⟩
  · exact ⟨rfl, rfl, rfl, rfl, rfl, rfl, rfl, rfl⟩

/-- A link that powers down (R486). -/
def linkDown (k : Nat) (s : State) : State :=
  if (s.link k).st = .off then s else s.modLink k fun l => { freqOk := l.freqOk, st := .off, since := s.beat }

theorem linksDown_spec (hi : s.Inv) {k : Nat} (low : k ≤ 4) : let t := s.forBelow k linkDown
    t.Inv ∧ (∀ i, i < k → (t.link i).st = .off) ∧ ∃ l, t = { s with links := l } := by
  induction k with
  | zero => exact ⟨hi, fun i h => absurd h (Nat.not_lt_zero i), s.links, rfl⟩
  | succ k ih =>
    obtain ⟨inv, offs, l, fields⟩ := ih (Nat.le_of_succ_le low)
    dsimp only
    rw [forBelow_succ]
    obtain ⟨u, uDef⟩ : ∃ u, u = s.forBelow k linkDown := ⟨_, rfl⟩
    rw [← uDef] at inv offs fields ⊢
    unfold linkDown
    split
    · rename_i isOff
      refine ⟨inv, fun i h => ?_, l, fields⟩
      rcases Nat.lt_succ_iff_lt_or_eq.mp h with h | rfl
      · exact offs i h
      · exact isOff
    · refine ⟨modLink_inv _ _ inv, fun i h => ?_, _, by rw [fields]; rfl⟩
      rcases Nat.lt_succ_iff_lt_or_eq.mp h with h | rfl
      · rw [link_modLink_ne _ (Nat.ne_of_lt h)]
        exact offs i h
      · rw [link_modLink_self (by rw [inv.links_length]; exact low)]

/-- Beat W of a shutdown (R486). -/
theorem shutPower_marks (hi : s.Inv) : let t := s.shutPower
    t.hk.shutW = some s.beat ∧ t.hk.powered = false ∧ (∀ k, k < 4 → (t.link k).st = .off) ∧ t.cal.store = none ∧ t.mem = s.mem ∧
      ∀ n c, n < 12 → c < 4 → (t.tx n c).out = if (s.tx n c).out = .off then .off else .rampDown (s.beat + 150000) := by
  obtain ⟨inv, store, mem, -, hk, links, rings, -⟩ := cutNvm_kept hi
  obtain ⟨x, xDef⟩ : ∃ x, x = s.cutNvm := ⟨_, rfl⟩
  rw [← xDef] at inv store mem hk links rings
  obtain ⟨v, vDef⟩ : ∃ v : State, v = ((x.modHk fun h => { h with shutW := some s.beat }).modHk fun h => { h with powered := false }).modCal
    fun c => { c with die := c.die.map fun d => { d with chan := none, seen := none } } := ⟨_, rfl⟩
  have vInv : v.Inv := by
    rw [vDef]
    refine modCal_inv _ (fun c h => ?_) (modHk_inv _ (fun _ h => h) (modHk_inv _ (fun _ h => h) inv))
    obtain ⟨rx, tx, die⟩ := h
    exact ⟨rx, tx, (List.length_map ..).trans die⟩
  obtain ⟨lInv, offs, l, lFields⟩ := linksDown_spec vInv (Nat.le_refl 4)
  obtain ⟨w, wDef⟩ : ∃ w : State, w = v.forBelow 4 linkDown := ⟨_, rfl⟩
  rw [← wDef] at lInv offs lFields
  obtain ⟨-, outs, r, fields⟩ := forTx_spec lInv fun x => { x with out := if x.out = .off then .off else .rampDown (s.beat + 150000) }
  have run : s.shutPower = w.forBelow 12 fun n u => u.forBelow 4 fun c u => u.modTx n c fun x =>
      { x with out := if x.out = .off then .off else .rampDown (s.beat + 150000) } := by
    rw [wDef, vDef, xDef]
    rfl
  have wTx : ∀ n c, w.tx n c = s.tx n c := fun n c => by
    have same : w.rings = s.rings := by
      rw [lFields, vDef]
      exact rings
    unfold tx ring
    rw [same]
  dsimp only
  rw [run]
  refine ⟨?_, ?_, ?_, ?_, ?_, fun n c ring low => (congrArg TxCh.out (outs n c ring low)).trans (by rw [wTx])⟩
  · rw [fields, lFields, vDef]
    rfl
  · rw [fields, lFields, vDef]
    rfl
  · rw [fields]
    exact offs
  · rw [fields, lFields, vDef]
    exact store
  · rw [fields, lFields, vDef]
    exact mem

/-! ### The hard trip -/

/-- The clear input's action of a trip changes bias outputs alone (R261). -/
theorem clearShut_fields (s : State) (force : Bool) : ∃ r, s.clearShut force = { s with rings := r, rst := { s.rst with clrShut := true } } := by
  have turn : ∀ (u : State) (n b : Nat), ∃ r, u.clearAssert n b force = { u with rings := r } := fun u n b => by
    unfold clearAssert
    dsimp only
    split <;> exact ⟨_, rfl⟩
  have all : ∀ u : State, ∃ r, (u.forBias fun n b s => s.clearAssert n b force) = { u with rings := r } := fun u =>
    forBelow_keeps (P := fun t => ∃ r, t = { u with rings := r }) 12 ⟨u.rings, rfl⟩ fun n t ⟨r, ht⟩ =>
      forBelow_keeps (P := fun t => ∃ r, t = { u with rings := r }) 4 ⟨r, ht⟩ fun b t ⟨r, ht⟩ => by
        obtain ⟨r', e⟩ := turn t n b
        exact ⟨r', e.trans (by rw [ht])⟩
  unfold clearShut
  dsimp only
  split
  · exact ⟨s.rings, rfl⟩
  · exact all _

/-- Every slot stops (R471). -/
theorem carHalt_spec (hi : s.Inv) : let t := s.carHalt
    t.Inv ∧ (∀ i, i < 8 → (t.carSlot i).running = false) ∧ ∃ c, t = { s with car := c } := by
  have turn : ∀ k, k ≤ 8 → let t := s.forBelow k fun i s => s.modCar i fun c => { c with
        running := false, stopping := none, ready := [], toPush := [] }
      t.Inv ∧ (∀ i, i < k → (t.carSlot i).running = false) ∧ ∃ c, t = { s with car := c } := fun k low => by
    induction k with
    | zero => exact ⟨hi, fun i h => absurd h (Nat.not_lt_zero i), s.car, rfl⟩
    | succ k ih =>
      obtain ⟨inv, still, c, fields⟩ := ih (Nat.le_of_succ_le low)
      dsimp only
      rw [forBelow_succ]
      refine ⟨modCar_inv _ _ inv, fun i h => ?_, _, by rw [fields]; rfl⟩
      rcases Nat.lt_succ_iff_lt_or_eq.mp h with h | rfl
      · rw [carSlot_modCar_ne _ (Nat.ne_of_lt h)]
        exact still i h
      · rw [carSlot_modCar_self (by rw [inv.car_length]; exact low)]
  exact turn 8 (Nat.le_refl 8)

/-- A trip of a device at rest (R487). -/
theorem trip_marks (hi : s.Inv) (rest : ∀ n, n < 12 → (s.seq n).st ∈ [RingState.idle, .halted, .aborted, .mck]) (free : s.sec.op = none) :
    let t := s.trip
    t.hk.tripped = true ∧ t.hk.tripOff = some (s.beat + 30) ∧ t.regBit Reg.thermStatus 7 = true ∧ t.rst.clrShut = true ∧
      (∀ k, k < 8 → (t.carSlot k).running = false) ∧ t.cal.store = none ∧ t.mem = s.mem := by
  obtain ⟨v, vDef⟩ : ∃ v : State, v = (s.modHk fun h => { h with tripped := true, tripOff := some (s.beat + 30) }).setBit Reg.thermStatus 7 true :=
    ⟨_, rfl⟩
  have vInv : v.Inv := vDef ▸ setBit_inv _ _ _ (modHk_inv _ (fun _ h => h) hi)
  have quiet : (v.forBelow 12 fun n s => s.requestAbort n 2) = v := forBelow_still fun n ring => by
    have st := rest n ring
    have same : v.seq n = s.seq n := by rw [vDef]; rfl
    unfold requestAbort
    rw [same]
    simp only [List.mem_cons, List.not_mem_nil, or_false] at st
    rcases st with h | h | h | h <;> rw [h]
  obtain ⟨r, cleared⟩ := clearShut_fields v true
  obtain ⟨w, wDef⟩ : ∃ w, w = v.clearShut true := ⟨_, rfl⟩
  have wInv : w.Inv := wDef ▸ clearShut_inv _ vInv
  rw [← wDef] at cleared
  obtain ⟨hInv, still, c, halted⟩ := carHalt_spec wInv
  obtain ⟨-, store, mem, -, hk, -, -, rst, car⟩ := cutNvm_kept hInv
  have idle : w.carHalt.sec.op = none := by
    rw [halted, cleared, vDef]
    exact free
  have cut : w.carHalt.cutNvm = w.carHalt.cutStore := by
    unfold cutNvm
    dsimp only
    rw [show w.carHalt.cutStore.sec.op = none from idle]
  have run : s.trip = w.carHalt.cutNvm := by
    have none : w.carHalt.cutNvm.sec.op = Option.none := by rw [cut]; exact idle
    unfold trip
    dsimp only
    rw [← vDef, quiet, ← wDef, none]
  dsimp only
  rw [run]
  refine ⟨?_, ?_, ?_, ?_, fun k low => ?_, store, ?_⟩
  · rw [hk, halted, cleared, vDef]
    rfl
  · rw [hk, halted, cleared, vDef]
    rfl
  · have word : w.carHalt.cutNvm.getReg Reg.thermStatus = v.getReg Reg.thermStatus := by
      rw [cut, halted, cleared]
      rfl
    show bit (w.carHalt.cutNvm.getReg Reg.thermStatus) 7 = true
    rw [word, vDef]
    refine (congrArg (bit · 7) (getReg_setReg_self hi.regs_wf _ _)).trans ?_
    rw [bit_putBit _ _ (by decide), if_pos rfl]
  · rw [rst, halted, cleared]
  · have same : w.carHalt.cutNvm.carSlot k = w.carHalt.carSlot k := congrArg (fun l : List CarSlot => l.getD k {}) car
    rw [same]
    exact still k low
  · rw [mem, halted, cleared, vDef]
    rfl

end

end State

end Sys2Proof.Machine
end

section
/-! PROOF. Reset, and the obligation on shutdown, trip and reset (O51). -/

namespace Sys2Proof.Machine

namespace State

section
variable {s g : State} {p : Port} {u : Sid}

/-- RST_CAUSE as a cause sets it (R515). -/
def causeWord (s : State) (cause : Nat) : Word :=
  BitVec.ofNat 32 (65536 * (if cause = 0 then 0 else min 65535 (fld (s.getReg Reg.rstCause) 31 16 + 1)) +
    (2 ^ cause + (if s.hk.tripped then 16 else 0)))

theorem bit_causeWord (s : State) {cause : Nat} (small : cause < 4) : bit (s.causeWord cause) cause = true := by
  unfold causeWord bit
  rw [BitVec.toNat_ofNat, Nat.testBit_mod_two_pow, decide_eq_true (show cause < 32 by omega), Bool.true_and]
  have low : 2 ^ cause + (if s.hk.tripped then 16 else 0) < 2 ^ 16 := by
    have : 2 ^ cause ≤ 2 ^ 3 := Nat.pow_le_pow_right (by decide) (by omega)
    split <;> omega
  rw [show (65536 : Nat) = 2 ^ 16 from rfl, Nat.testBit_two_pow_mul_add _ low, if_pos (by omega)]
  have cases : cause = 0 ∨ cause = 1 ∨ cause = 2 ∨ cause = 3 := by omega
  rcases cases with rfl | rfl | rfl | rfl <;> split <;> rfl

/-- A ring that a reset leaves has its units at their reset values but for its bias outputs (R513, R529). -/
theorem wiped_ring (s : State) {n : Nat} (ring : n < 12) : (s.wiped.seq n).st = .idle ∧ (s.wiped.jug n).st = .idle := by
  have rings : ∃ b : Nat → Nat → BiasOut, s.wiped.rings =
      (List.replicate 12 ({} : Ring)).mapIdx fun n r => { r with bias := (List.range 4).map fun i => b n i } := ⟨_, rfl⟩
  obtain ⟨b, rings⟩ := rings
  have unit : s.wiped.ring n = { ({} : Ring) with bias := (List.range 4).map fun i => b n i } := by
    unfold State.ring
    rw [rings, List.getD_eq_getElem?_getD, List.getElem?_mapIdx, List.getElem?_replicate, if_pos ring]
    rfl
  unfold seq jug
  rw [unit]
  exact ⟨rfl, rfl⟩

/-- What entering reset leaves (R512, R513, R515). -/
theorem enterReset_marks (s : State) {cause : Nat} (small : cause < 4) : let t := s.enterReset cause
    t.rst.inReset = true ∧ t.mem = s.mem ∧ t.nvm = s.nvm ∧ (∀ a, a ≠ Reg.rstCause → t.getReg a = resetWord a) ∧
      bit (t.getReg Reg.rstCause) cause = true ∧ (∀ n, n < 12 → (t.seq n).st = .idle ∧ (t.jug n).st = .idle) ∧
      t.sess = State.reset.sess ∧ t.sched = [] ∧ t.pending = s.pending := by
  obtain ⟨v, vDef⟩ : ∃ v, v = s.wiped.modRst fun r => { r with inReset := true } := ⟨_, rfl⟩
  have run : s.enterReset cause = v.setReg Reg.rstCause (s.causeWord cause) := by
    rw [vDef]
    rfl
  have regs : v.regs = [] := by rw [vDef]; rfl
  have read : ∀ a, v.getReg a = resetWord a := fun a => by
    unfold getReg
    rw [regs]
    rfl
  dsimp only
  rw [run]
  refine ⟨by rw [vDef]; rfl, by rw [vDef]; rfl, by rw [vDef]; rfl, fun a ne => (getReg_setReg_other _ _ ne).trans (read a), ?_, fun n ring => ?_,
    by rw [vDef]; rfl, by rw [vDef]; rfl, by rw [vDef]; rfl⟩
  · rw [getReg_setReg_self (by rw [regs]; rfl)]
    exact bit_causeWord s small
  · rw [vDef]
    exact wiped_ring s ring

theorem causeBit_small (c : ResetCause) : causeBit c < 4 := by cases c <;> decide

/-- A reset condition that begins (R512). -/
def conditionHeld (c : ResetCause) (r : Rst) : Rst := { r with
  clearAt := none, assertAt := r.ticks
  vddio := if c = .por then false else r.vddio
  resetN := if c = .pin then false else r.resetN
  pwrOk := if c = .pwrOk then false else r.pwrOk }

/-- The end of reset (R512, R515, R522). -/
theorem endReset_marks (hi : s.Inv) : let t := s.endReset
    t.rst.inReset = false ∧ t.rst.phase = .bootRom ∧ t.rst.ticks = 0 ∧ t.rst.phaseAt = 0 ∧ t.rst.strap = s.rst.strapPin ∧
      t.rst.bootMode = s.rst.bootPin ∧ t.getReg Reg.rstCause = s.causesHeld ∧ (∀ a, a ≠ Reg.rstCause → t.getReg a = s.getReg a) ∧
      t.sec.nonceNo = some s.freeCtr ∧ t.mem = s.mem ∧ t.nvm = s.nvm := by
  obtain ⟨v, vDef⟩ : ∃ v, v = (s.setReg Reg.rstCause s.causesHeld).newNonce := ⟨_, rfl⟩
  obtain ⟨w, wDef⟩ : ∃ w, w = v.forBias fun n b s => s.modBias n b fun o => { o with rampTo := o.rampTo - s.rst.ticks } := ⟨_, rfl⟩
  have fields : ∃ r, w = { v with rings := r } := by
    rw [wDef]
    exact forBelow_keeps (P := fun t => ∃ r, t = { v with rings := r }) 12 ⟨v.rings, rfl⟩ fun n t ht =>
      forBelow_keeps (P := fun t => ∃ r, t = { v with rings := r }) 4 ht fun b t ⟨r, ht⟩ => by
        subst ht
        exact ⟨_, rfl⟩
  have run : s.endReset = w.modRst fun r => { r with
      inReset := false, clearAt := none, assertAt := 0, vddio := true, resetN := true, pwrOk := true, ticks := 0, phaseAt := 0
      phase := .bootRom, strap := r.strapPin, bootMode := r.bootPin } := by
    rw [wDef, vDef]
    rfl
  obtain ⟨r, fields⟩ := fields
  have regs : ∀ a, w.getReg a = (s.setReg Reg.rstCause s.causesHeld).getReg a := fun a => by
    rw [fields, vDef]
    rfl
  obtain ⟨c, cDef⟩ : ∃ c, c = s.causesHeld := ⟨_, rfl⟩
  rw [← cDef] at vDef regs ⊢
  dsimp only
  rw [run]
  refine ⟨rfl, rfl, rfl, rfl, ?_, ?_, (regs _).trans (getReg_setReg_self hi.regs_wf _ _), fun a ne => (regs a).trans (getReg_setReg_other _ _ ne),
    ?_, ?_, ?_⟩
  all_goals
    rw [fields, vDef]
    rfl

/-- A write of RST_CMD with its confirmation (R514). -/
theorem exec_rstCmdReset (takes : s.Takes p u Reg.rstCmd g) (rest : ∀ n, n < 12 → g.ringRuns n = false) (store : g.cal.store = none)
    (op : g.sec.op = none) : exec (.rstCmdReset p u 0xF05E) s = .next
      ((g.modRst fun r => { r with swAt := some (r.swAt.getD (g.beat + 15000)) }).wrote p Reg.rstCmd) := by
  have word : (0xF05E : BitVec 16) ++ (1 : BitVec 16) = (0xF05E0001 : Word) := by decide
  have check : g.rstCheck 0xF05E0001 = .ok := by
    have all : ((List.range 12).all fun n => !g.ringRuns n) = true :=
      List.all_eq_true.mpr fun n h => by rw [rest n (List.mem_range.mp h)]; rfl
    unfold rstCheck
    rw [if_pos (by decide), all, store, op]
    rfl
  show execRstCmdReset p u 0xF05E s = _
  unfold execRstCmdReset
  rw [word]
  refine congrArg Host.Outcome.next ((write_takes takes (by decide) findAt_rstCmd (by decide) (by decide) (by decide) check).trans ?_)
  rfl

end

end State

open State in
/-- Settles O51: the fields that power-down, trip and reset leave, each a fold over the units it reaches. -/
theorem shutdownTripAndReset : Obligations.ShutdownTripAndReset := by
  unfold Obligations.ShutdownTripAndReset
  have good : ∀ {t u : State}, t = u → .next t = (.next u : Res) := congrArg Host.Outcome.next
  have off : ∀ {c : Bool}, c = false → ¬ c = true := fun h => by rw [h]; exact Bool.false_ne_true
  refine ⟨fun s i hi => ⟨fun b shut first late free => ?_, fun b shut early => ?_, fun idle => ?_, fun w shut late fresh => ?_, fun w shut early => ?_,
    fun none => ?_, fun dead => good (if_pos dead), fun whole untripped => ⟨good (if_neg ?_), fun rest free => ?_⟩⟩, fun s g p u c hi => ?_⟩
  · have due : s.powerDownDue = true := by
      unfold powerDownDue
      rw [shut, first]
      dsimp only
      rw [decide_eq_true late, Bool.true_and]
      rcases free with ⟨store, sec⟩ | long
      · rw [store, sec]
        rfl
      · rw [decide_eq_true long, Bool.or_true]
    exact ⟨_, good (if_pos due), shutPower_marks hi⟩
  · have idle : s.powerDownDue = false := by
      unfold powerDownDue
      rw [shut]
      cases s.hk.shutW with
      | some w => rfl
      | none =>
        dsimp only
        rcases early with early | ⟨busy, early⟩
        · rw [decide_eq_false (Nat.not_le.mpr early), Bool.false_and]
        · rw [decide_eq_false (show ¬ b + 4500000 ≤ s.beat from Nat.not_le.mpr early), Bool.or_false]
          rcases busy with store | sec
          · rw [show s.cal.store.isNone = false by rw [← Option.not_isSome, store]; rfl, Bool.false_and, Bool.and_false]
          · rw [sec, Bool.not_true, Bool.and_false, Bool.and_false]
    exact good (if_neg (off idle))
  · have quiet : s.powerDownDue = false := by
      unfold powerDownDue
      split
      · rename_i h h'
        rcases idle with none | done
        · rw [none] at h
          cases h
        · rw [h'] at done
          cases done
      · rfl
    exact good (if_neg (off quiet))
  · obtain ⟨v, vDef⟩ : ∃ v, v = s.setBit Reg.thermStatus 6 true := ⟨_, rfl⟩
    obtain ⟨-, outs, r, fields⟩ := forTx_spec (s := v) (vDef ▸ setBit_inv _ _ _ hi) fun x => { x with out := .off }
    have all : v.allTx .off = { v with rings := r } := fields
    refine ⟨v.allTx .off, ?_, ?_, fun n c ring low => congrArg TxCh.out (outs n c ring low), ?_⟩
    · show execShutdownDone s = _
      unfold execShutdownDone
      rw [shut]
      dsimp only
      rw [if_pos ⟨late, off fresh⟩, vDef]
    · have word : (v.allTx .off).getReg Reg.thermStatus = v.getReg Reg.thermStatus :=
        by rw [all]; rfl
      unfold regBit
      rw [word, vDef, getReg_setBit_self hi, bit_putBit _ _ (by decide), if_pos rfl]
    · exact by rw [all, vDef]; rfl
  · show execShutdownDone s = _
    unfold execShutdownDone
    rw [shut]
    exact good (if_neg fun h => absurd h.1 (Nat.not_le.mpr early))
  · show execShutdownDone s = _
    unfold execShutdownDone
    rw [none]
  · exact fun dead => dead.elim (off whole) (off untripped)
  · exact ⟨s.trip, good (if_neg fun dead => dead.elim (off whole) (off untripped)), trip_marks hi rest free⟩
  intro cause
  refine ⟨fun out => ?_, fun inside => good ?_, fun inside late => ?_, fun inside early => good (if_neg ?_), fun out => good (if_neg ?_),
    fun takes rest store op => exec_rstCmdReset takes rest store op, fun none => ?_, fun t due early => ?_, fun b due late => ?_⟩
  · obtain ⟨inReset, mem, nvm, regs, bits, units, sess, sched, pending⟩ := enterReset_marks s (causeBit_small c)
    obtain ⟨v, vDef⟩ : ∃ v, v = s.enterReset (causeBit c) := ⟨_, rfl⟩
    rw [← vDef] at inReset mem nvm regs bits units sess sched pending
    have run : s.assertReset c = v.modRst (conditionHeld c) := by
      unfold assertReset
      rw [if_neg (off out), vDef]
      rfl
    exact ⟨v.modRst (conditionHeld c), good run, inReset, mem, nvm, regs, bits, units, sess, sched, pending⟩
  · unfold assertReset
    rw [if_pos inside]
    refine congrArg (State.modRst _) (funext fun r => ?_)
    cases c <;> simp
  · obtain ⟨inReset, phase, ticks, at_, strap, boot, held, regs, nonce, mem, nvm⟩ := endReset_marks hi
    refine ⟨s.endReset, good (if_pos ?_), inReset, phase, ticks, at_, strap, boot, held, regs, nonce, mem, nvm⟩
    unfold resetMayEnd
    rw [inside, decide_eq_true late]
    rfl
  · unfold resetMayEnd
    rw [decide_eq_false (Nat.not_le.mpr early), Bool.and_false]
    exact Bool.false_ne_true
  · unfold resetMayEnd
    rw [out, Bool.false_and]
    exact Bool.false_ne_true
  · show execSoftwareResetExpiry s = _
    unfold execSoftwareResetExpiry
    rw [none]
  · show execSoftwareResetExpiry s = _
    unfold execSoftwareResetExpiry
    rw [due]
    exact good (if_neg (Nat.not_le.mpr early))
  · obtain ⟨inReset, mem, nvm, regs, bits, -⟩ := enterReset_marks s (cause := 3) (by decide)
    obtain ⟨v, vDef⟩ : ∃ v, v = s.enterReset 3 := ⟨_, rfl⟩
    rw [← vDef] at inReset mem nvm regs bits
    refine ⟨v.modRst fun r => { r with clearAt := some 0 }, ?_, inReset, rfl, regs, bits, mem, nvm⟩
    show execSoftwareResetExpiry s = _
    unfold execSoftwareResetExpiry
    rw [due, vDef]
    exact good (if_pos late)

end Sys2Proof.Machine
end

section
/-! PROOF. Start-up, clocks and SYNC (O54). -/

namespace Sys2Proof.Machine

namespace State

section
variable {s g : State} {p : Port} {u : Sid}

/-! ### Start-up -/

/-- The firmware slots are judged by NVM and fuses (R494), which events leave. -/
theorem slotInvalid_kept (s : State) (area : Nat) (b : Bool) : (s.slotInvalid area b).nvm = s.nvm ∧ (s.slotInvalid area b).sec = s.sec := by
  obtain ⟨-, r, x, k, c, p, m, e⟩ := Noted.raiseEvent s 0x0401 (if area = 0 then 0x08 else 0x03) (BitVec.ofNat 32 (area + 256 * b.toNat))
  unfold slotInvalid
  rw [e]
  exact ⟨rfl, rfl⟩

theorem slotGood_congr {t : State} (nvm : t.nvm = s.nvm) (sec : t.sec = s.sec) (b : Bool) : t.slotGood b = s.slotGood b := by
  unfold slotGood imgGood hdrValid serial32
  rw [nvm, sec]

/-- Firmware is booted from a good slot (R495). -/
theorem bootSlot_isSome (s : State) : s.bootSlot.isSome = (s.slotGood false || s.slotGood true) := by
  unfold bootSlot
  dsimp only
  generalize (if (s.hdrValid fwMagic s.nvm.fwA.hdr && s.hdrValid fwMagic s.nvm.fwB.hdr) = true then
    below s.nvm.fwA.hdr.seq s.nvm.fwB.hdr.seq else s.hdrValid fwMagic s.nvm.fwB.hdr) = first
  cases first with
  | false =>
    rw [Bool.not_false]
    cases s.slotGood false <;> cases s.slotGood true <;> rfl
  | true =>
    rw [Bool.not_true]
    cases s.slotGood false <;> cases s.slotGood true <;> rfl

theorem bootFw_fwBad (s : State) : s.bootFw.fwBad = !(s.slotGood false || s.slotGood true) := by
  obtain ⟨v, vDef⟩ : ∃ v, v = if s.slotGood false = true then s else s.slotInvalid 0 false := ⟨_, rfl⟩
  have vGood : ∀ b, v.slotGood b = s.slotGood b := fun b => by
    rw [vDef]
    split
    · rfl
    · obtain ⟨nvm, sec⟩ := slotInvalid_kept s 0 false
      exact slotGood_congr nvm sec b
  obtain ⟨w, wDef⟩ : ∃ w, w = if v.slotGood true = true then v else v.slotInvalid 0 true := ⟨_, rfl⟩
  have wGood : ∀ b, w.slotGood b = s.slotGood b := fun b => by
    rw [wDef]
    split
    · exact vGood b
    · obtain ⟨nvm, sec⟩ := slotInvalid_kept v 0 true
      exact (slotGood_congr nvm sec b).trans (vGood b)
  have slot := bootSlot_isSome w
  rw [wGood, wGood] at slot
  unfold bootFw
  dsimp only
  rw [← vDef, ← wDef, ← slot]
  cases w.bootSlot with
  | some b => rfl
  | none => rfl

/-- The work of a phase is done (R522). -/
theorem exec_phase (out : s.rst.inReset = false) (late : s.rst.phaseAt + s.phaseMin ≤ s.rst.ticks)
    (work : s.rst.phase = .bootRom ∧ s.rst.bootMode ≠ 3 ∨ s.rst.phase = .fwCheck ∨ s.rst.phase = .memClear ∨ s.rst.phase = .pllLock)
    (faults : List (Nat × Nat × Nat)) : exec (.startupPhaseComplete faults) s = .next (s.endPhase faults) := by
  have due : s.workPhase = true := by
    unfold workPhase
    rw [out, decide_eq_true late]
    rcases work with ⟨phase, mode⟩ | phase | phase | phase
    · rw [phase]
      exact decide_eq_true mode
    all_goals rw [phase]; rfl
  exact congrArg Host.Outcome.next (if_pos due)

theorem enterRecovery_phase (s : State) : s.enterRecovery.rst.phase = .recovery := rfl
theorem endPll_phase (s : State) : s.endPll.rst.phase = .link := rfl

theorem endFw_phase (s : State) : s.endFw.rst.phase = if s.slotGood false = true ∨ s.slotGood true = true then .memClear else .recovery := by
  have bad := bootFw_fwBad s
  obtain ⟨v, vDef⟩ : ∃ v, v = s.bootFw := ⟨_, rfl⟩
  rw [← vDef] at bad
  unfold endFw
  dsimp only
  rw [← vDef, bad]
  cases s.slotGood false <;> cases s.slotGood true <;> rfl

theorem endClear_marks (s : State) (faults : List (Nat × Nat × Nat)) : let t := s.endClear faults
    t.rst.phase = .pllLock ∧ t.mem = [] ∧ t.memu.damaged = [] := ⟨rfl, rfl, rfl⟩

/-! ### Clocks -/

/-- A link that fails, and no other (R352). -/
theorem failLink_marks (hi : s.Inv) {k : Nat} (small : k < 4) (c : LinkCause) : let t := s.failLink k c
    t.Inv ∧ (t.link k).st = .failed ∧ (∀ i, i ≠ k → t.link i = s.link i) ∧ t.rst = s.rst ∧ t.trap = s.trap ∧ t.rings = s.rings ∧
      t.mem = s.mem := by
  obtain ⟨v, vDef⟩ : ∃ v, v = ((s.setFld (Reg.linkStatus k) 11 8 (causeCode c)).modLink k fun l => { l with st := .failed, since := s.beat }).modLink k
      fun x => { x with queue := x.queue.filter fun f => decide (3 < f.typ), down := x.down || decide ((s.link k).st = .up) } := ⟨_, rfl⟩
  have run := failLink_eq (s := s) (k := ⟨k, small⟩) c
  dsimp only at run
  rw [← vDef] at run
  have here : k < s.links.length := by rw [hi.links_length]; exact small
  have failed : (v.link k).st = .failed := by
    rw [vDef, modLink_modLink]
    exact congrArg Link.st (link_modLink_self (s := s.setFld _ _ _ _) here _)
  have others : ∀ i, i ≠ k → v.link i = s.link i := fun i ne => by
    rw [vDef, link_modLink_ne _ ne, link_modLink_ne _ ne]
    rfl
  have kept : v.rst = s.rst ∧ v.trap = s.trap ∧ v.rings = s.rings ∧ v.mem = s.mem := by
    rw [vDef]
    exact ⟨rfl, rfl, rfl, rfl⟩
  refine ⟨failLink_inv _ _ hi, ?_⟩
  rw [run]
  split
  · obtain ⟨-, r, b, e, c, p, m, fields⟩ := Noted.raiseEvent (v.raiseFlag (Reg.linkFlags k) 3) 0x0503 0x04 (BitVec.ofNat 32 (k + 4 + 8 * 15))
    rw [fields]
    exact ⟨failed, others, kept⟩
  · exact ⟨failed, others, kept⟩

/-- The links that are UP fail, the others stay (R519). -/
theorem failUp_spec (hi : s.Inv) {k : Nat} (low : k ≤ 4) (c : LinkCause) :
    let t := s.forBelow k fun k s => if (s.link k).st = .up then s.failLink k c else s
    t.Inv ∧ (∀ i, i < k → (s.link i).st = .up → (t.link i).st = .failed) ∧ (∀ i, k ≤ i → t.link i = s.link i) ∧ t.rst = s.rst ∧
      t.trap = s.trap ∧ t.rings = s.rings ∧ t.mem = s.mem := by
  induction k with
  | zero => exact ⟨hi, fun i h => absurd h (Nat.not_lt_zero i), fun _ _ => rfl, rfl, rfl, rfl, rfl⟩
  | succ k ih =>
    obtain ⟨inv, failed, others, rst, trap, rings, mem⟩ := ih (Nat.le_of_succ_le low)
    dsimp only
    rw [forBelow_succ]
    obtain ⟨v, vDef⟩ : ∃ v, v = s.forBelow k fun k s => if (s.link k).st = .up then s.failLink k c else s := ⟨_, rfl⟩
    rw [← vDef] at inv failed others rst trap rings mem ⊢
    split
    · obtain ⟨inv', here, rest, rst', trap', rings', mem'⟩ := failLink_marks inv (k := k) (by omega) c
      refine ⟨inv', fun i h up => ?_, fun i h => (rest i (by omega)).trans (others i (by omega)), rst'.trans rst, trap'.trans trap,
        rings'.trans rings, mem'.trans mem⟩
      by_cases same : i = k
      · exact same ▸ here
      · rw [rest i same]
        exact failed i (by omega) up
    · rename_i down
      refine ⟨inv, fun i h up => ?_, fun i h => others i (by omega), rst, trap, rings, mem⟩
      by_cases same : i = k
      · subst same
        rw [others i (Nat.le_refl i)] at down
        exact absurd up down
      · exact failed i (by omega) up

theorem loseRef_marks (hi : s.Inv) : let t := s.loseRef
    t.rst.refHold = true ∧ t.rst.refOk = false ∧ t.trap.dbValid = false ∧ (∀ k, k < 4 → (s.link k).st = .up → (t.link k).st = .failed) ∧
      t.rings = s.rings ∧ t.mem = s.mem := by
  obtain ⟨v, vDef⟩ : ∃ v : State, v = { (s.modRst fun r => { r with refHold := true, refOk := false }).raiseFlag Reg.clkFlags 0 with
    trap := { s.trap with dbValid := false } } := ⟨_, rfl⟩
  have vInv : v.Inv := by
    have base := raiseFlag_inv Reg.clkFlags 0 (modRst_inv (fun r => { r with refHold := true, refOk := false }) hi)
    rw [vDef]
    exact .upd base rfl
  obtain ⟨-, failed, -, rst, trap, rings, mem⟩ := failUp_spec vInv (Nat.le_refl 4) .freq
  have run : s.loseRef = v.forBelow 4 fun k s => if (s.link k).st = .up then s.failLink k .freq else s := by
    rw [vDef]
    rfl
  have links : ∀ k, v.link k = s.link k := fun k => by rw [vDef]; rfl
  dsimp only
  rw [run]
  refine ⟨by rw [rst, vDef]; rfl, by rw [rst, vDef]; rfl, by rw [trap, vDef], fun k low up => failed k low (by rw [links]; exact up),
    rings.trans (by rw [vDef]; rfl), mem.trans (by rw [vDef]; rfl)⟩

/-- READY of an RX channel goes to 0 (R520). -/
def unready (b n c : Nat) (s : State) : State :=
  s.modRx n c fun x => { x with ready := false, readyAt := if x.ready then some b else x.readyAt }

theorem unreadyGrid (b : Nat) : Grid State.rx (unready b)
    (fun x => { x with ready := false, readyAt := if x.ready then some b else x.readyAt }) 2 where
  here u hi n ring c low := rx_modRx_self hi.rings_length ring (by
    obtain ⟨-, -, -, rx, -⟩ := hi.ring_sized ring
    rw [rx]
    exact low) _
  others u n c i j ne := rx_modRx_ne _ ne
  inv u hi n c := modRx_inv n c _ hi
  fields u n c := ⟨_, rfl⟩

/-- Two loops whose turns agree on the states that they meet. -/
theorem forBelow_congr {P : State → Prop} {f f' : Nat → State → State} (start : P s) (turn : ∀ i t, P t → f i t = f' i t ∧ P (f' i t)) (k : Nat) :
    s.forBelow k f = s.forBelow k f' ∧ P (s.forBelow k f') := by
  induction k with
  | zero => exact ⟨rfl, start⟩
  | succ k ih =>
    obtain ⟨same, holds⟩ := ih
    rw [forBelow_succ, forBelow_succ, same]
    exact turn k _ holds

/-- A write of CLK_CMD that relocks (R520). -/
theorem exec_relock (hi : g.Inv) (takes : s.Takes p u Reg.clkCmd g) (ref : g.rst.refOk = true) (rings : ∀ n, n < 12 → g.ringRuns n = false)
    (slots : ∀ i, i < 8 → g.carBusy i = false) (links : g.linkActive = false) (idle : g.rst.relockTo = none) :
    ∃ t : State, exec (.relock p u) s = .next (t.wrote p Reg.clkCmd) ∧ t.rst.relockTo = some g.beat ∧
      (∀ n c, n < 12 → c < 2 → (t.rx n c).ready = false) ∧ t.regs = g.regs ∧ t.mem = g.mem := by
  have check : g.relockCheck 1 = .ok := by
    have all : ((List.range 12).all fun n => !g.ringRuns n) = true :=
      List.all_eq_true.mpr fun n h => by rw [rings n (List.mem_range.mp h)]; rfl
    have still : ((List.range 8).all fun i => !g.carBusy i) = true :=
      List.all_eq_true.mpr fun i h => by rw [slots i (List.mem_range.mp h)]; rfl
    unfold relockCheck
    rw [if_pos (by decide), ref, all, still, links, idle]
    rfl
  have reads : (1 : Word) &&& 1 &&& BitVec.ofNat 32 g.rst.relockTo.isSome.toNat = 0 := by
    rw [idle]
    rfl
  obtain ⟨v, vDef⟩ : ∃ v, v = g.modRst fun r => { r with relockTo := some g.beat } := ⟨_, rfl⟩
  obtain ⟨-, cells, r, fields⟩ := (unreadyGrid g.beat).rows (s := v)
    (vDef ▸ modRst_inv _ hi) (Nat.le_refl 12)
  have effect : g.relockDo 1 = v.forBelow 12 fun n s => s.forBelow 2 fun c s => unready g.beat n c s := by
    unfold relockDo
    rw [if_pos (by decide), ← vDef]
    have start : v.beat = g.beat := by rw [vDef]; rfl
    have turn : ∀ (n c : Nat) (t : State), t.beat = g.beat → unready t.beat n c t = unready g.beat n c t ∧ (unready g.beat n c t).beat = g.beat :=
      fun n c t beat => ⟨by rw [beat], beat⟩
    exact (forBelow_congr (f := fun n t => t.forBelow 2 fun c t => unready t.beat n c t)
      (f' := fun n t => t.forBelow 2 fun c t => unready g.beat n c t) (P := fun t => t.beat = g.beat) start
      (fun n t beat => forBelow_congr (P := fun t => t.beat = g.beat) beat (turn n) 2) 12).1
  refine ⟨_, congrArg Host.Outcome.next
    (hostWrite_takes (v := 1) takes (by decide) findAt_clkCmd rfl nofun (by decide) (by decide) rfl check reads), ?_⟩
  show (g.relockDo 1).rst.relockTo = some g.beat ∧ (∀ n c, n < 12 → c < 2 → ((g.relockDo 1).rx n c).ready = false) ∧
    (g.relockDo 1).regs = g.regs ∧ (g.relockDo 1).mem = g.mem
  rw [effect]
  refine ⟨by rw [fields, vDef]; rfl, fun n c ring low => ?_, by rw [fields, vDef]; rfl, by rw [fields, vDef]; rfl⟩
  rw [cells, if_pos ⟨ring, low⟩]

end

end State

end Sys2Proof.Machine
end

section
/-! PROOF. Captures of SYNC and the obligation on start-up and clocks (O54). -/

namespace Sys2Proof.Machine

namespace State

section
variable {s g : State} {p : Port} {u : Sid}

/-- The end of the boot ROM, by BOOT_MODE (R498, R522). -/
theorem endBoot_phase (s : State) :
    (s.rst.bootMode = 2 → s.endBoot.rst.phase = .test) ∧ (s.rst.bootMode = 1 → s.endBoot.rst.phase = .recovery) ∧
    (s.rst.bootMode = 0 → s.endBoot.rst.phase = .fwCheck) := by
  obtain ⟨v, vDef⟩ : ∃ v, v = (s.modRst fun r => { r with coreLock := true, mgmtLock := true, refOk := true }).drawRefs := ⟨_, rfl⟩
  have mode : v.rst.bootMode = s.rst.bootMode := by rw [vDef]; rfl
  unfold endBoot
  dsimp only
  rw [← vDef, mode]
  refine ⟨fun two => ?_, fun one => ?_, fun zero => ?_⟩
  · rw [if_pos two]
    rfl
  · rw [if_neg (by rw [one]; decide), if_pos one]
    exact enterRecovery_phase v
  · rw [if_neg (by rw [zero]; decide), if_neg (by rw [zero]; decide), if_neg (by rw [zero]; decide)]
    rfl

/-- Where beats count and a reference edge starts the beat, a capture waits for nothing but SYNC_IN's pause (R518, R530). -/
theorem mayCapture_iff : s.mayCapture = true ↔
    (s.rst.coreLock = true ∧ s.rst.inReset = false) ∧ s.beat % 6 = 0 ∧ ∀ b, s.rst.syncAt = some b → b + 18 ≤ s.beat := by
  unfold mayCapture beating
  rw [Bool.and_eq_true, Bool.and_eq_true, Bool.and_eq_true, Bool.not_eq_true', decide_eq_true_eq, and_assoc]
  refine and_congr_right fun _ => and_congr_right fun _ => ?_
  cases s.rst.syncAt with
  | none => exact ⟨fun _ => nofun, fun _ => rfl⟩
  | some b =>
    refine ⟨fun late b' same => ?_, fun late => decide_eq_true (late b rfl)⟩
    cases same
    exact of_decide_eq_true late

/-- What a flag that may be raised leaves. -/
theorem raiseIf_kept (s : State) (c : Bool) (a b : Nat) : (s.raiseIf c a b).rst = s.rst ∧ (s.raiseIf c a b).trap = s.trap ∧
    (s.raiseIf c a b).rings = s.rings ∧ (s.raiseIf c a b).mem = s.mem := by
  cases c <;> exact ⟨rfl, rfl, rfl, rfl⟩

theorem getReg64_raiseIf_other (s : State) (c : Bool) {lo a b : Nat} (low : lo ≠ a ∧ lo + 4 ≠ a)
    (count : lo ≠ flagCntAddr a b ∧ lo + 4 ≠ flagCntAddr a b) : (s.raiseIf c a b).getReg64 lo = s.getReg64 lo := by
  cases c with
  | false => rfl
  | true => exact getReg64_raiseFlag_other s low count

/-- A capture edge (R530, R531, R534). -/
theorem capture_marks (hi : s.Inv) : let t := s.capture
    t.getReg64 Reg.syncLastLo = s.beatCount ∧ t.rst.syncAt = some s.beat ∧ bit (t.getReg Reg.syncFlags) 0 = true ∧ t.rst.armed = false ∧
      (s.rst.armed = true → t.getReg64 Reg.dbOffsetLo = s.getReg64 Reg.syncDbLo - s.beatCount ∧ t.trap.dbValid = true) ∧
      (s.rst.armed = false → t.getReg64 Reg.dbOffsetLo = s.getReg64 Reg.dbOffsetLo ∧ t.trap = s.trap) ∧ t.rings = s.rings ∧ t.mem = s.mem := by
  obtain ⟨y, yDef⟩ : ∃ y, y = s.setReg64 Reg.syncLastLo s.beatCount := ⟨_, rfl⟩
  obtain ⟨v, vDef⟩ : ∃ v, v = (y.raiseFlag Reg.syncFlags 0).modRst fun r => { r with syncAt := some s.beat } := ⟨_, rfl⟩
  have yInv : y.Inv := yDef ▸ setReg64_inv _ _ hi
  have vInv : v.Inv := vDef ▸ modRst_inv _ (raiseFlag_inv _ _ yInv)
  have kept : v.trap = s.trap ∧ v.rings = s.rings ∧ v.mem = s.mem ∧ v.rst = { s.rst with syncAt := some s.beat } ∧ v.beatCount = s.beatCount := by
    rw [vDef, yDef]
    exact ⟨rfl, rfl, rfl, rfl, rfl⟩
  obtain ⟨trap, rings, mem, rst, time⟩ := kept
  have flagged : ∀ lo, lo ≠ Reg.syncFlags ∧ lo + 4 ≠ Reg.syncFlags → lo ≠ Reg.syncFlags + 4 ∧ lo + 4 ≠ Reg.syncFlags + 4 →
      v.getReg64 lo = y.getReg64 lo := fun lo low count => by
    rw [vDef]
    exact getReg64_raiseFlag_other y low (by rw [flagCntAddr_low (by decide)]; exact count)
  have last : v.getReg64 Reg.syncLastLo = s.beatCount := by
    rw [flagged _ (by decide) (by decide), yDef]
    exact getReg64_setReg64 hi.regs_wf _ _
  have offset : v.getReg64 Reg.dbOffsetLo = s.getReg64 Reg.dbOffsetLo := by
    rw [flagged _ (by decide) (by decide), yDef]
    exact getReg64_setReg64_other _ _ (by decide)
  have domain : v.getReg64 Reg.syncDbLo = s.getReg64 Reg.syncDbLo := by
    rw [flagged _ (by decide) (by decide), yDef]
    exact getReg64_setReg64_other _ _ (by decide)
  have flag : bit (v.getReg Reg.syncFlags) 0 = true := by
    rw [vDef]
    exact bit_raiseFlag yInv _ (by decide)
  obtain ⟨w, wDef⟩ : ∃ w, w = if v.rst.armed = true then
      { (v.setReg64 Reg.dbOffsetLo (v.getReg64 Reg.syncDbLo - v.beatCount)).modRst (fun r => { r with armed := false }) with
        trap := { v.trap with dbValid := true } } else v := ⟨_, rfl⟩
  have run : ∃ c, s.capture = w.raiseIf c Reg.syncFlags 1 := ⟨_, by rw [wDef, vDef, yDef]; rfl⟩
  obtain ⟨c, run⟩ := run
  obtain ⟨rst', trap', rings', mem'⟩ := raiseIf_kept w c Reg.syncFlags 1
  have wide : ∀ lo, lo ≠ Reg.syncFlags ∧ lo + 4 ≠ Reg.syncFlags → lo ≠ Reg.syncFlags + 4 ∧ lo + 4 ≠ Reg.syncFlags + 4 →
      (w.raiseIf c Reg.syncFlags 1).getReg64 lo = w.getReg64 lo := fun lo low count =>
    getReg64_raiseIf_other w c low (by rw [flagCntAddr_low (by decide)]; exact count)
  dsimp only
  rw [run]
  have flags : w.Inv → bit (w.getReg Reg.syncFlags) 0 = true → bit ((w.raiseIf c Reg.syncFlags 1).getReg Reg.syncFlags) 0 = true :=
    fun inv set => by
      rw [bit_raiseIf inv _ _ (by decide)]
      unfold regBit
      rw [set]
      rfl
  rw [wide _ (by decide) (by decide), wide _ (by decide) (by decide), rst', trap', rings', mem']
  have armed : v.rst.armed = s.rst.armed := by rw [rst]
  cases was : s.rst.armed with
  | true =>
    have wRun : w = { (v.setReg64 Reg.dbOffsetLo (v.getReg64 Reg.syncDbLo - v.beatCount)).modRst (fun r => { r with armed := false }) with
        trap := { v.trap with dbValid := true } } := wDef.trans (if_pos (armed.trans was))
    have others : ∀ a, a ≠ Reg.dbOffsetLo → a ≠ Reg.dbOffsetLo + 4 → w.getReg a = v.getReg a := fun a low high => by
      rw [wRun]
      exact getReg_setReg64_other _ _ low high
    have inv : w.Inv := by
      rw [wRun]
      exact .upd (modRst_inv (fun r => { r with armed := false }) (setReg64_inv Reg.dbOffsetLo (v.getReg64 Reg.syncDbLo - v.beatCount) vInv)) rfl
    refine ⟨?_, ?_, flags inv ?_, ?_, fun _ => ⟨?_, ?_⟩, nofun, ?_, ?_⟩
    · rw [← last]
      exact congrArg₂ pairWord (others _ (by decide) (by decide)) (others _ (by decide) (by decide))
    · rw [wRun]
      exact congrArg Rst.syncAt rst
    · rw [others _ (by decide) (by decide)]
      exact flag
    · rw [wRun]
      rfl
    · rw [← domain, ← time, wRun]
      exact getReg64_setReg64 vInv.regs_wf _ _
    · rw [wRun]
    · rw [wRun]
      exact rings
    · rw [wRun]
      exact mem
  | false =>
    have wRun : w = v := wDef.trans (if_neg (by rw [armed, was]; exact Bool.false_ne_true))
    rw [wRun] at flags ⊢
    exact ⟨last, by rw [rst], flags vInv flag, armed.trans was, nofun, fun _ => ⟨offset, trap⟩, rings, mem⟩

/-- A write of SYNC_CMD (R531, R533). -/
theorem hostWrite_syncCmd {v : Word} (takes : s.Takes p u Reg.syncCmd g) (bits : v &&& ~~~7 = 0) (one : popCount v 3 ≤ 1)
    (check : g.syncCmdCheck v = .ok) (free : v &&& 1 &&& BitVec.ofNat 32 g.rst.armed.toNat = 0) :
    s.hostWrite p u Reg.syncCmd v = (g.syncCmdDo v).wrote p Reg.syncCmd :=
  hostWrite_takes takes (by decide) findAt_syncCmd rfl nofun (by decide) bits (decide_eq_true one) check free

/-- What a loss of lock leaves (R61, R521). -/
theorem loseLock_marks (hi : s.Inv) {q : Nat} (small : q < 2) : let t := s.loseLock q
    (t.port q).locked = false ∧ (∀ k, k ≠ q → t.port k = s.port k) ∧ t.rst = s.rst ∧ t.regs = s.regs ∧ t.rings = s.rings := by
  unfold loseLock
  split
  · refine ⟨?_, fun k ne => port_modPort_ne _ ne, rfl, rfl, rfl⟩
    rw [port_modPort_self (by rw [hi.ports_length]; exact small)]
  · rename_i unlocked
    exact ⟨Bool.eq_false_iff.mpr unlocked, fun _ _ => rfl, rfl, rfl, rfl⟩

end

end State

open State in
/-- Settles O54: the phases one by one, then the clocks, captures and pulses. -/
theorem startupClocksAndSync : Obligations.StartupClocksAndSync := by
  unfold Obligations.StartupClocksAndSync
  have good : ∀ {t u : State}, t = u → .next t = (.next u : Res) := congrArg Host.Outcome.next
  have off : ∀ {c : Bool}, c = false → ¬ c = true := fun h => by rw [h]; exact Bool.false_ne_true
  refine ⟨?_, ?_⟩
  · intro s faults hi ph work reaches
    have idle : s.workPhase = false → exec (.startupPhaseComplete faults) s = .next s := fun no => good (if_neg (off no))
    have least : s.phaseMin = work := by
      have cases : ph = .memClear ∨ ph ≠ .memClear := Classical.em _
      unfold phaseMin
      rcases cases with h | h
      · rw [show s.rst.phase = .memClear from h]
        exact (if_pos h).symm
      · refine Eq.trans ?_ (if_neg h).symm
        split
        · rename_i h'
          exact absurd h' h
        · rfl
    refine ⟨fun early => idle ?_, fun out late => ?_, fun inside => idle ?_, fun phase late => ?_, fun phase => ?_⟩
    · unfold workPhase
      rw [least, decide_eq_false (Nat.not_le.mpr early), Bool.and_false, Bool.false_and]
    · rw [← least] at late
      have run := exec_phase out late
      refine ⟨fun boot mode => ⟨_, run (.inl ⟨boot, by rw [mode]; decide⟩) faults, ?_⟩,
        fun boot mode => ⟨_, run (.inl ⟨boot, by rw [mode]; decide⟩) faults, ?_⟩,
        fun boot mode => ⟨_, run (.inl ⟨boot, by rw [mode]; decide⟩) faults, ?_⟩, fun boot mode => idle ?_,
        fun check fine => ⟨_, run (.inr (.inl check)) faults, ?_⟩, fun check a b => ⟨_, run (.inr (.inl check)) faults, ?_⟩,
        fun clear => ⟨_, run (.inr (.inr (.inl clear))) faults, ?_⟩, fun pll => ⟨_, run (.inr (.inr (.inr pll))) faults, ?_⟩,
        fun ready => idle ?_⟩
      · unfold endPhase
        rw [show s.rst.phase = .bootRom from boot]
        exact (endBoot_phase s).2.2 mode
      · unfold endPhase
        rw [show s.rst.phase = .bootRom from boot]
        exact (endBoot_phase s).2.1 mode
      · unfold endPhase
        rw [show s.rst.phase = .bootRom from boot]
        exact (endBoot_phase s).1 mode
      · unfold workPhase
        rw [show s.rst.phase = .bootRom from boot, mode]
        exact Bool.and_false _
      · unfold endPhase
        rw [show s.rst.phase = .fwCheck from check]
        exact (endFw_phase s).trans (if_pos fine)
      · unfold endPhase
        rw [show s.rst.phase = .fwCheck from check]
        exact (endFw_phase s).trans (if_neg fun h => h.elim (off a) (off b))
      · unfold endPhase
        rw [show s.rst.phase = .memClear from clear]
        exact endClear_marks s faults
      · unfold endPhase
        rw [show s.rst.phase = .pllLock from pll]
        exact endPll_phase s
      · unfold workPhase
        rw [show s.rst.phase = .ready from ready]
        exact Bool.and_false _
    · unfold workPhase
      rw [inside]
      rfl
    · exact good ((if_pos ⟨phase, late⟩).trans rfl)
    · exact good (if_neg fun h => phase h.1)
  · intro s g p u hi db period done
    refine ⟨⟨_, rfl, loseRef_marks hi⟩, rfl, fun takes ref rings slots links idle => exec_relock (takes.inv hi) takes ref rings slots links idle,
      fun t relock past => ?_, fun re => if_pos re, fun none => ?_, ?_, rfl, fun no => good (if_neg ?_), fun b at_ early => good (if_neg ?_),
      fun grid out lock gap => ?_, fun takes => ⟨fun links idle => ?_, fun armed => ?_, fun mode free => ?_⟩, fun mode grid fresh => ?_,
      fun other => ?_⟩
    · show execRelockDone s = _
      unfold execRelockDone
      rw [relock]
      exact good ((if_pos past).trans rfl)
    · show execRelockDone s = _
      unfold execRelockDone
      rw [none]
    · obtain ⟨v, vDef⟩ : ∃ v, v = (s.modRst fun r => { r with mgmtHold := true }).raiseFlag Reg.clkFlags 1 := ⟨_, rfl⟩
      have base : State.Inv (s.modRst fun r => { r with mgmtHold := true }) := modRst_inv _ hi
      have vInv : v.Inv := vDef ▸ raiseFlag_inv _ _ base
      obtain ⟨first, others, rst, regs, rings⟩ := loseLock_marks vInv (q := 0) (by decide)
      obtain ⟨second, others', rst', regs', rings'⟩ := loseLock_marks (loseLock_inv 0 vInv) (q := 1) (by decide)
      refine ⟨(v.loseLock 0).loseLock 1, by rw [vDef]; rfl, ?_, ?_, second, ?_, ?_⟩
      · rw [rst', rst, vDef]
        rfl
      · rw [others' 0 (by decide)]
        exact first
      · rw [show ((v.loseLock 0).loseLock 1).getReg Reg.clkFlags = v.getReg Reg.clkFlags from
          congrArg (Cells.get resetWord · Reg.clkFlags) (regs'.trans regs), vDef]
        exact bit_raiseFlag base _ (by decide)
      · rw [rings', rings, vDef]
        rfl
    · rw [mayCapture_iff]
      rintro ⟨⟨lock, out⟩, grid, -⟩
      rcases no with h | h | h
      · exact h grid
      · exact off out h
      · exact off h lock
    · rw [mayCapture_iff]
      rintro ⟨-, -, gap⟩
      exact Nat.not_le.mpr early (gap b at_)
    · exact ⟨s.capture, good (if_pos (mayCapture_iff.mpr ⟨⟨lock, out⟩, grid, gap⟩)), capture_marks hi⟩
    · refine good ((hostWrite_syncCmd takes (by decide) (by decide) ?_ ?_).trans rfl)
      · unfold syncCmdCheck
        rw [links, idle]
        rfl
      · rw [idle]
        rfl
    · refine good ((hostWrite_syncCmd takes (by decide) (by decide) ?_ BitVec.zero_and).trans rfl)
      unfold syncCmdCheck
      rw [armed]
      rfl
    · refine good ((hostWrite_syncCmd takes (by decide) (by decide) ?_ BitVec.zero_and).trans rfl)
      unfold syncCmdCheck
      rw [mode, free]
      rfl
    · exact good (if_pos (decide_eq_true ⟨mode, grid, fresh⟩))
    · refine good (if_neg (off (decide_eq_false fun h => ?_)))
      obtain ⟨mode, grid, -⟩ := h
      exact other.elim (absurd mode) (absurd grid)

end Sys2Proof.Machine
end

section
/-! PROOF. The security engine: firmware updates and fuse writes, and the obligation on them (O52). -/

namespace Sys2Proof.Machine

namespace State

section
variable {s g : State} {p : Port} {u : Sid} {o : SecOp}

/-- No security operation stands in the way of another (R502). -/
theorem secFree_ok (up : g.shutting = false) (idle : g.sec.op = none) : g.secFree = .ok := by
  unfold secFree
  rw [up, idle]
  rfl

/-- While none runs, the bit of an operation reads 0 (R507). -/
theorem secIs_idle (idle : g.sec.op = none) (k : SecKind) : g.secIs k = false := by
  unfold secIs
  rw [idle]
  rfl

/-- A security operation that begins with a read of memory starts in the beat of the read (R507). -/
theorem startSecOp_eccRead (g : State) (a k : Nat) (o : SecOp) : (g.eccRead a k).startSecOp o =
    ((g.eccRead a k).setFld (resultReg o.kind) 1 0 1).modSec fun x => { x with op := some { o with start := g.beat } } := by
  unfold startSecOp
  rw [eccRead_beat]

/-- The end of an operation that is no UNLOCK and has a result (R507). -/
theorem endSecOp_result (s : State) (e : Err) (named : o.kind ≠ .unlock) (result : o.kind ≠ .attest) : s.endSecOp o e =
    (s.setReg (resultReg o.kind) (e.code.zeroExtend 32 <<< 16 ||| 2)).modSec fun x => { x with op := none } := by
  unfold endSecOp
  rw [if_neg named, if_neg result]

theorem exec_fwUpdateStart (takes : s.Takes p u Reg.fwUpdCmd g) (up : g.shutting = false) (idle : g.sec.op = none) (free : g.nvmBusy = false)
    {src len : Nat} (srcDef : (g.getReg Reg.fwUpdSrc).toNat = src) (lenDef : (g.getReg Reg.fwUpdLen).toNat = len)
    (place : src % 32 = 0 ∧ 0x10000000 ≤ src ∧ src + len ≤ 0x10400000) (size : 8048 ≤ len ∧ len ≤ 175024 ∧ (len - 7984) % 64 = 0) :
    exec (.fwUpdateStart p u) s =
      .next (((g.eccRead src len).startSecOp { kind := .update, block := g.load src len }).wrote p Reg.fwUpdCmd) := by
  have check : g.fwUpdCheck 1 = .ok := by
    unfold fwUpdCheck
    dsimp only
    rw [if_pos (by decide), srcDef, lenDef, decide_eq_true place, decide_eq_true size, secFree_ok up idle, free]
    rfl
  have effect : g.fwUpdDo 1 = (g.eccRead src len).startSecOp { kind := .update, block := g.load src len } := by
    unfold fwUpdDo
    dsimp only
    rw [if_pos (by decide), srcDef, lenDef]
  have reads : (1 : Word) &&& 1 &&& BitVec.ofNat 32 (g.secIs .update).toNat = 0 := by
    rw [secIs_idle idle]
    rfl
  refine congrArg Host.Outcome.next
    ((hostWrite_takes (v := 1) takes (by decide) findAt_fwUpdCmd rfl nofun (by decide) (by decide) rfl check reads).trans ?_)
  exact congrArg (fun t : State => t.wrote p Reg.fwUpdCmd) effect

/-- A write of FUSE_CMD with its confirmation (R497). -/
theorem hostWrite_fuseCmd (takes : s.Takes p u Reg.fuseCmd g) (up : g.shutting = false) (idle : g.sec.op = none) {v : Word} {op : Nat}
    (bits : v &&& ~~~0xFFFF0003 = 0) (confirmed : fld v 31 16 = 0xF05E) (named : fld v 1 0 = op)
    (may : op = 1 ∧ g.sec.fuses.minSvn < g.sec.img.svn ∧ g.slotGood (!g.sec.slotB) = false ∨ op = 2 ∧ g.sec.img.key = 1) :
    s.hostWrite p u Reg.fuseCmd v = (g.startSecOp { kind := .fuse op, writing := true }).wrote p Reg.fuseCmd := by
  have range : fld v 31 16 = 0xF05E ∧ (fld v 1 0 = 1 ∨ fld v 1 0 = 2) := by
    rw [named]
    exact ⟨confirmed, may.imp (·.1) (·.1)⟩
  have check : g.fuseCheck v = .ok := by
    unfold fuseCheck
    dsimp only
    rw [decide_eq_true range, secFree_ok up idle, named]
    rcases may with ⟨one, newer, bad⟩ | ⟨two, key⟩
    · rw [one, if_neg (by decide), decide_eq_true newer, bad]
      rfl
    · rw [two, if_pos rfl, key]
      rfl
  refine (write_takes takes (by decide) findAt_fuseCmd (by decide) bits (decide_eq_true range) check).trans ?_
  show (g.fuseDo v).wrote p Reg.fuseCmd = _
  unfold fuseDo
  rw [named]

/-- A slot's content when an update has written it, and what follows the read-back (R496). -/
theorem finishUpdate_eq (s : State) (o : SecOp) (ok : Bool) : ∃ x : NvmFw, s.finishUpdate o ok =
      (let v := s.modNvm fun n => if s.updTarget then { n with fwB := x } else { n with fwA := x }
       if ok then { v.endSecOp o .ok with fwBad := false } else (v.endSecOp o .eInternal).slotInvalid 0 s.updTarget) ∧
    x.img = readImg s.sec.fuses o.block ∧ x.hdr.magic = fwMagic ∧ x.hdr.unit = s.serial32 ∧ x.hdr.checkOk = ok :=
  ⟨_, rfl, rfl, rfl, rfl, rfl⟩

/-- The end of an update's write (R496). -/
theorem finishUpdate_marks (hi : s.Inv) (update : o.kind = .update) (ok : Bool) : let t := s.finishUpdate o ok
    t.sec.op = none ∧
    (let x := if s.updTarget then t.nvm.fwB else t.nvm.fwA
     x.img = readImg s.sec.fuses o.block ∧ x.hdr.magic = fwMagic ∧ x.hdr.unit = s.serial32 ∧ x.hdr.checkOk = ok) ∧
    (ok = true → t.getReg Reg.fwUpdStatus = 2 ∧ t.fwBad = false) ∧ t.mem = s.mem ∧ t.rings = s.rings := by
  obtain ⟨x, run, content⟩ := finishUpdate_eq s o ok
  obtain ⟨v, vDef⟩ : ∃ v, v = s.modNvm fun n => if s.updTarget then { n with fwB := x } else { n with fwA := x } := ⟨_, rfl⟩
  have vInv : v.Inv := vDef ▸ .upd hi rfl
  have slot : (if s.updTarget then v.nvm.fwB else v.nvm.fwA) = x := by
    rw [vDef]
    show (if s.updTarget then (if s.updTarget then ({ s.nvm with fwB := x } : Nvm) else { s.nvm with fwA := x }).fwB
      else (if s.updTarget then ({ s.nvm with fwB := x } : Nvm) else { s.nvm with fwA := x }).fwA) = x
    cases s.updTarget <;> rfl
  have kept : v.mem = s.mem ∧ v.rings = s.rings := by
    rw [vDef]
    exact ⟨rfl, rfl⟩
  dsimp only at run ⊢
  rw [← vDef, endSecOp_result v .ok (by rw [update]; nofun) (by rw [update]; nofun),
    endSecOp_result v .eInternal (by rw [update]; nofun) (by rw [update]; nofun), update] at run
  cases ok with
  | true =>
    rw [run, if_pos rfl]
    refine ⟨rfl, ?_, fun _ => ⟨getReg_setReg_self vInv.regs_wf _ _, rfl⟩, kept.1, kept.2⟩
    rw [← slot] at content
    exact content
  | false =>
    obtain ⟨w, wDef⟩ : ∃ w, w = (v.setReg (resultReg .update) (Err.eInternal.code.zeroExtend 32 <<< 16 ||| 2)).modSec
      fun x => { x with op := none } := ⟨_, rfl⟩
    obtain ⟨nvm, sec⟩ := slotInvalid_kept w 0 s.updTarget
    rw [run, if_neg Bool.false_ne_true, ← wDef, nvm, sec]
    refine ⟨by rw [wDef]; rfl, ?_, nofun, ?_, ?_⟩
    · rw [← slot] at content
      rw [wDef]
      exact content
    · exact ((raiseEvent_kept w _ _ _).1).trans (by rw [wDef]; exact kept.1)
    · obtain ⟨-, r, b, k, c, p, m, e⟩ := Noted.raiseEvent w 0x0401 0x08 (BitVec.ofNat 32 (0 + 256 * s.updTarget.toNat))
      exact (congrArg State.rings e).trans (by rw [wDef]; exact kept.2)

theorem exec_fwUpdateComplete (ready : s.secReady = some o) (update : o.kind = .update) (ok : Bool) :
    exec (.fwUpdateComplete ok) s = .next (s.stepUpdate o ok) := by
  show execFwUpdateComplete ok s = _
  unfold execFwUpdateComplete
  rw [ready]
  exact congrArg Host.Outcome.next (if_pos update)

theorem exec_fuseWriteComplete (ready : s.secReady = some o) {op : Nat} (fuse : o.kind = .fuse op) :
    exec .fuseWriteComplete s = .next (s.finishFuse o op) := by
  show execFuseWriteComplete s = _
  unfold execFuseWriteComplete
  rw [ready]
  dsimp only
  rw [fuse]

end

end State

open State in
/-- Settles O52: each start is a write that no check refuses, and an update ends in the slot that it erased. -/
theorem firmwareAndFuses : Obligations.FirmwareAndFuses := by
  unfold Obligations.FirmwareAndFuses
  intro s g p u o ok hi
  dsimp only
  refine ⟨fun takes align low high least most blocks up idle free => ?_, fun none => ⟨?_, ?_⟩, fun ready update => ⟨?_, ?_, ?_⟩,
    fun takes up idle => ⟨fun newer bad => ?_, fun key => ?_⟩, fun ready fuse => ?_, fun ready fuse => ?_⟩
  · rw [exec_fwUpdateStart takes up idle free rfl rfl ⟨align, low, high⟩ ⟨least, most, blocks⟩, startSecOp_eccRead]
    rfl
  · show execFwUpdateComplete ok s = _
    unfold execFwUpdateComplete
    rw [none]
  · show execFuseWriteComplete s = _
    unfold execFuseWriteComplete
    rw [none]
  · intro reading good
    rw [exec_fwUpdateComplete ready update ok]
    unfold stepUpdate
    rw [if_neg (by rw [reading]; exact Bool.false_ne_true), if_pos good]
    rfl
  · intro reading bad
    rw [exec_fwUpdateComplete ready update ok]
    unfold stepUpdate
    rw [if_neg (by rw [reading]; exact Bool.false_ne_true), if_neg bad, endSecOp_result s _ (by rw [update]; nofun) (by rw [update]; nofun), update]
    rfl
  · intro writing
    refine ⟨s.finishUpdate o ok, ?_, finishUpdate_marks hi update ok⟩
    rw [exec_fwUpdateComplete ready update ok]
    unfold stepUpdate
    rw [if_pos writing]
  · exact congrArg Host.Outcome.next
      ((hostWrite_fuseCmd (v := 0xF05E0001) takes up idle (by decide) (by decide) rfl (.inl ⟨rfl, newer, bad⟩)).trans rfl)
  · exact congrArg Host.Outcome.next
      ((hostWrite_fuseCmd (v := 0xF05E0002) takes up idle (by decide) (by decide) rfl (.inr ⟨rfl, key⟩)).trans rfl)
  · rw [exec_fuseWriteComplete ready fuse]
    unfold finishFuse
    rw [endSecOp_result _ _ (by rw [fuse]; nofun) (by rw [fuse]; nofun), fuse]
    rfl
  · rw [exec_fuseWriteComplete ready fuse]
    unfold finishFuse
    rw [endSecOp_result _ _ (by rw [fuse]; nofun) (by rw [fuse]; nofun), fuse]
    rfl

end Sys2Proof.Machine
end

section
/-! PROOF. Owner operations and attestation, and the obligation on them (O53). -/

namespace Sys2Proof.Machine

/-- A number comes before the next (R428). -/
theorem below_next (x : BitVec 32) : below x (x + 1) = true ∧ below (x + 1) x = false := by
  have up : (x + 1 - x).toNat = 1 := by bv_omega
  have down : (x - (x + 1)).toNat = 2 ^ 32 - 1 := by bv_omega
  unfold below
  rw [up, down]
  decide

namespace State

section
variable {s g : State} {p : Port} {u : Sid} {o : SecOp}

/-! ### Attestation -/

theorem exec_attestationStart (takes : s.Takes p u Reg.attCmd g) (up : g.shutting = false) (idle : g.sec.op = none) :
    exec (.attestationStart p u) s = .next ((g.startSecOp { kind := .attest, nonce := g.reportBytes }).wrote p Reg.attCmd) := by
  have check : g.attCheck 1 = .ok := by
    unfold attCheck
    rw [if_pos (by decide), secFree_ok up idle]
  have reads : (1 : Word) &&& 1 &&& BitVec.ofNat 32 (g.secIs .attest).toNat = 0 := by
    rw [secIs_idle idle]
    rfl
  exact congrArg Host.Outcome.next
    ((hostWrite_takes (v := 1) takes (by decide) findAt_attCmd rfl nofun (by decide) (by decide) rfl check reads).trans rfl)

/-- The words of a report that is done (R500). -/
theorem finishAtt_marks (hi : s.Inv) (attest : o.kind = .attest) : let t := s.finishAtt o
    t.sec = { s.sec with op := none } ∧
    (∀ i, i < 2012 → t.getReg (Reg.attReport i) = wordAt (o.nonce ++ slhSign s.sec.fuses.privKey o.nonce) (4 * i)) ∧
    t.getReg Reg.attCount = s.getReg Reg.attCount + 1 ∧ t.getReg Reg.attStatus = 2 ∧ t.mem = s.mem ∧ t.rings = s.rings := by
  obtain ⟨r, rDef⟩ : ∃ r, r = o.nonce ++ slhSign s.sec.fuses.privKey o.nonce := ⟨_, rfl⟩
  obtain ⟨v, vDef⟩ : ∃ v, v = s.forBelow 2012 fun i t => t.setReg (Reg.attReport i) (wordAt r (4 * i)) := ⟨_, rfl⟩
  have inj : ∀ i j, Reg.attReport i = Reg.attReport j → i = j := fun i j same => by
    unfold Reg.attReport at same
    omega
  obtain ⟨inv, mine, others, regs, fields⟩ := forBelow_setReg hi 2012 Reg.attReport inj fun i => wordAt r (4 * i)
  rw [← vDef] at inv mine others fields
  have run : s.finishAtt o = ((v.addReg Reg.attCount 1).setReg Reg.attStatus 2).modSec fun x => { x with op := none } := by
    unfold finishAtt endSecOp
    dsimp only
    rw [if_neg (by rw [attest]; nofun), if_pos attest, attest, vDef, rDef]
    rfl
  have away : ∀ i, Reg.attReport i ≠ Reg.attStatus ∧ Reg.attReport i ≠ Reg.attCount := fun i => by
    unfold Reg.attReport Reg.attStatus Reg.attCount
    omega
  have counted : (v.addReg Reg.attCount 1).Inv := setReg_inv _ _ inv
  dsimp only
  rw [run, ← rDef]
  refine ⟨?_, fun i low => ?_, ?_, getReg_setReg_self counted.regs_wf _ _, ?_, ?_⟩
  · rw [fields]
    rfl
  · exact ((getReg_setReg_other _ _ (away i).1).trans (getReg_setReg_other _ _ (away i).2)).trans (mine i low)
  · refine (getReg_setReg_other _ _ (by decide)).trans ((getReg_setReg_self inv.regs_wf _ _).trans ?_)
    rw [others _ fun i _ => (away i).2.symm]
    rfl
  · rw [fields]
    rfl
  · rw [fields]
    rfl

/-! ### Owner records -/

/-- The record that a LOCK or UNLOCK writes (R503). -/
def ownRecord (s : State) (locked : Bool) (hash : List Byte) (ok : Bool) : NvmOwn :=
  { hdr := (s.nextHdr ownMagic s.nvm.ownA.hdr s.nvm.ownB.hdr 36 ok).sealed (ownContent locked hash), locked := locked, hash := hash }

/-- The target of an owner record is B (R429). -/
def ownToB (s : State) : Bool := s.targetB ownMagic s.nvm.ownA.hdr s.nvm.ownB.hdr

theorem ownToB_eq (s : State) : s.ownToB = decide (s.newerOf ownMagic s.nvm.ownA.hdr s.nvm.ownB.hdr = some false) := by
  unfold ownToB targetB
  cases s.newerOf ownMagic s.nvm.ownA.hdr s.nvm.ownB.hdr with
  | none => rfl
  | some b => cases b <;> rfl

theorem writeOwner_eq (s : State) (locked : Bool) (hash : List Byte) (ok : Bool) : s.writeOwner locked hash ok =
    s.modNvm fun v => if s.ownToB then { v with ownB := s.ownRecord locked hash ok } else { v with ownA := s.ownRecord locked hash ok } := rfl

theorem hdrValid_ownRecord (s : State) (locked : Bool) (hash : List Byte) : s.hdrValid ownMagic (s.ownRecord locked hash true).hdr = true := by
  show (decide (ownMagic = ownMagic ∧ (2 : BitVec 16) = 2 ∧ s.serial32 = s.serial32 ∧ (BitVec.ofNat 32 36).toNat ≤ areaRoom ownMagic) && true) = true
  rw [decide_eq_true ⟨rfl, rfl, rfl, by decide⟩]
  rfl

/-- The newer of a pair is valid (R428). -/
theorem newerOf_valid {m : Word} {a b : NvmHdr} : (s.newerOf m a b = some false → s.hdrValid m a = true) ∧
    (s.newerOf m a b = some true → s.hdrValid m b = true) ∧ (s.newerOf m a b = none → s.hdrValid m b = false) := by
  unfold newerOf
  cases s.hdrValid m a <;> cases s.hdrValid m b <;> simp

/-- A valid header that follows the newer of a pair, or stands alone, is the newer one in its place (R428, R429). -/
theorem newerOf_next {m : Word} {a b h : NvmHdr} (valid : s.hdrValid m h = true) :
    (s.newerOf m a b = some false → h.seq = a.seq + 1 → s.newerOf m a h = some true) ∧
    (s.newerOf m a b = some true → h.seq = b.seq + 1 → s.newerOf m h b = some false) ∧
    (s.newerOf m a b = none → s.newerOf m h b = some false) := by
  refine ⟨fun first next => ?_, fun last next => ?_, fun none => ?_⟩
  · have stands := newerOf_valid.1 first
    unfold newerOf
    rw [stands, valid, next]
    exact congrArg some (below_next a.seq).1
  · have stands := newerOf_valid.2.1 last
    unfold newerOf
    rw [stands, valid, next]
    exact congrArg some (below_next b.seq).2
  · have bad := newerOf_valid.2.2 none
    unfold newerOf
    rw [bad, valid]

/-- After a good record has been written the other copy is the target (R429). -/
theorem ownToB_written (s : State) (locked : Bool) (hash : List Byte) : (s.writeOwner locked hash true).ownToB = !s.ownToB := by
  obtain ⟨first, last, alone⟩ := newerOf_next (a := s.nvm.ownA.hdr) (b := s.nvm.ownB.hdr) (hdrValid_ownRecord s locked hash)
  have seq : (s.ownRecord locked hash true).hdr.seq = match s.newerOf ownMagic s.nvm.ownA.hdr s.nvm.ownB.hdr with
    | some true => s.nvm.ownB.hdr.seq + 1 | some false => s.nvm.ownA.hdr.seq + 1 | none => 1 := rfl
  have toB : s.ownToB = true → (s.writeOwner locked hash true).ownToB =
      (s.newerOf ownMagic s.nvm.ownA.hdr (s.ownRecord locked hash true).hdr == some false) := fun b => by
    rw [writeOwner_eq, b]
    rfl
  have toA : s.ownToB = false → (s.writeOwner locked hash true).ownToB =
      (s.newerOf ownMagic (s.ownRecord locked hash true).hdr s.nvm.ownB.hdr == some false) := fun a => by
    rw [writeOwner_eq, a]
    rfl
  cases newer : s.newerOf ownMagic s.nvm.ownA.hdr s.nvm.ownB.hdr with
  | none =>
    have a : s.ownToB = false := by rw [ownToB_eq, newer]; rfl
    rw [toA a, a, alone newer]
    rfl
  | some b =>
    rw [newer] at seq
    cases b with
    | false =>
      have b : s.ownToB = true := by rw [ownToB_eq, newer]; rfl
      rw [toB b, b, first newer seq]
      rfl
    | true =>
      have a : s.ownToB = false := by rw [ownToB_eq, newer]; rfl
      rw [toA a, a, last newer seq]
      rfl

end

end State

end Sys2Proof.Machine
end

section
/-! PROOF. The steps of owner operations, and the obligation on attestation and the owner lock (O53). -/

namespace Sys2Proof.Machine

/-- An owner operation that writes records (R503). -/
def SecKind.Writes (k : SecKind) : Prop := k = .lock ∨ k = .unlock

namespace State

section
variable {s g : State} {p : Port} {u : Sid} {o : SecOp}

/-- The owner key's hash that a LOCK or UNLOCK leaves: 0 while unlocked (R503). -/
def newHash (o : SecOp) : List Byte := if decide (o.kind = .lock) then sha256 (blkKey o.block) else List.replicate 32 0

/-- Locked, or unlocked: what an owner operation leaves (R503). -/
def locks (o : SecOp) : Bool := decide (o.kind = .lock)

/-- The record that is written, and the one that is not. -/
def pairFrom (toB : Bool) (v : Nvm) : NvmOwn × NvmOwn := if toB then (v.ownB, v.ownA) else (v.ownA, v.ownB)

/-- The state in which an owner record has been written, whose read-back is drawn (R503). -/
def ownWritten (s : State) (o : SecOp) : State :=
  ({ s with freeCtr := s.freeCtr + 1 } : State).writeOwner (locks o) (newHash o) (Config.readBack s.freeCtr)

theorem finishOwner_eq (s : State) (o : SecOp) : s.finishOwner o =
    if ¬ o.second then
      if Config.readBack s.freeCtr then ((s.ownWritten o).beginOwner o).modSec fun x => { x with op := x.op.map fun y => { y with second := true } }
      else (s.ownWritten o).endSecOp o .eInternal
    else ((if locks o then (s.ownWritten o).setReg Reg.ownAuth 0 else s.ownWritten o).modSec fun x =>
      { x with locked := locks o, keyLost := if locks o then false else x.keyLost, ownHash := newHash o }).endSecOp o .ok := rfl

theorem ownWritten_marks (s : State) (o : SecOp) : let t := s.ownWritten o
    ((pairFrom s.ownToB t.nvm).1.locked = locks o ∧ (pairFrom s.ownToB t.nvm).1.hash = newHash o) ∧
    (pairFrom s.ownToB t.nvm).2 = (pairFrom s.ownToB s.nvm).2 ∧ t.sec = s.sec ∧ t.regs = s.regs ∧ t.freeCtr = s.freeCtr + 1 := by
  have same : ({ s with freeCtr := s.freeCtr + 1 } : State).ownToB = s.ownToB := rfl
  dsimp only
  unfold ownWritten
  rw [writeOwner_eq, same]
  cases s.ownToB <;> exact ⟨⟨rfl, rfl⟩, rfl, rfl, rfl, rfl⟩

/-- An UNLOCK ends with a new OWN_NONCE (R503). -/
theorem endSecOp_unlock (s : State) (unlock : o.kind = .unlock) (e : Err) : s.endSecOp o e =
    (s.newNonce.setReg Reg.ownStatus (e.code.zeroExtend 32 <<< 16 ||| 2)).modSec fun x => { x with op := none } := by
  unfold endSecOp
  dsimp only
  rw [if_pos unlock, if_neg (by rw [unlock]; nofun), unlock]
  rfl

/-- The end of a LOCK or UNLOCK (R503, R507). -/
theorem endSecOp_owner (hi : s.Inv) (writes : o.kind.Writes) (e : Err) : let t := s.endSecOp o e
    t.nvm = s.nvm ∧ t.sec.op = none ∧ t.sec.locked = s.sec.locked ∧ t.sec.ownHash = s.sec.ownHash ∧
    (o.kind = .unlock → t.sec.nonceNo = some s.freeCtr) ∧ t.getReg Reg.ownStatus = (e.code.zeroExtend 32 <<< 16 ||| 2) ∧
    (∀ a, a ≠ Reg.ownStatus → t.getReg a = s.getReg a) := by
  dsimp only
  rcases writes with lock | unlock
  · rw [endSecOp_result s e (by rw [lock]; nofun) (by rw [lock]; nofun), lock]
    exact ⟨rfl, rfl, rfl, rfl, nofun, getReg_setReg_self hi.regs_wf _ _, fun a ne => getReg_setReg_other _ _ ne⟩
  · rw [endSecOp_unlock s unlock e]
    exact ⟨rfl, rfl, rfl, rfl, fun _ => rfl, getReg_setReg_self (newNonce_inv hi).regs_wf _ _, fun a ne => getReg_setReg_other _ _ ne⟩

/-- A record has been written (R503, R506). -/
theorem finishOwner_marks (hi : s.Inv) (writes : o.kind.Writes) (writing : o.writing = true) : let t := s.finishOwner o
    let target := fun t : State => pairFrom s.ownToB t.nvm
    (o.second = false → Config.readBack s.freeCtr = true → (target t).1.locked = locks o ∧ (target t).1.hash = newHash o ∧ (target t).2 = {} ∧
      t.sec = { s.sec with op := some { o with second := true } } ∧ t.regs = s.regs) ∧
    (o.second = false → Config.readBack s.freeCtr = false → (target t).2 = (target s).2 ∧ t.sec.op = none ∧ t.sec.locked = s.sec.locked ∧
      t.sec.ownHash = s.sec.ownHash ∧ t.getReg Reg.ownAuth = s.getReg Reg.ownAuth ∧
      t.getReg Reg.ownStatus = (Err.eInternal.code.zeroExtend 32 <<< 16 ||| 2)) ∧
    (o.second = true → (target t).1.locked = locks o ∧ (target t).1.hash = newHash o ∧ (target t).2 = (target s).2 ∧ t.sec.op = none ∧
      t.sec.locked = locks o ∧ t.sec.ownHash = newHash o ∧ t.getReg Reg.ownAuth = (if locks o then 0 else s.getReg Reg.ownAuth) ∧
      t.getReg Reg.ownStatus = 2 ∧ (locks o = false → t.sec.nonceNo = some (s.freeCtr + 1))) := by
  obtain ⟨⟨locked, hash⟩, other, sec, regs, ctr⟩ := ownWritten_marks s o
  have flips : Config.readBack s.freeCtr = true → (s.ownWritten o).ownToB = !s.ownToB := fun good => by
    have run : s.ownWritten o = ({ s with freeCtr := s.freeCtr + 1 } : State).writeOwner (locks o) (newHash o) true := by
      unfold ownWritten
      rw [good]
    rw [run, ownToB_written]
    rfl
  obtain ⟨v, vDef⟩ : ∃ v, v = s.ownWritten o := ⟨_, rfl⟩
  have run := finishOwner_eq s o
  rw [← vDef] at locked hash other sec regs ctr flips run
  have inv : v.Inv := vDef ▸ writeOwner_inv _ _ _ (.upd hi rfl)
  dsimp only
  refine ⟨fun first good => ?_, fun first bad => ?_, fun second => ?_⟩
  · rw [run, if_pos (by rw [first]; exact Bool.false_ne_true), if_pos good]
    have begun : (v.beginOwner o).nvm = if v.ownToB then { v.nvm with ownB := {} } else { v.nvm with ownA := {} } := rfl
    have op : (v.beginOwner o).sec = { v.sec with op := some { o with writing := true } } := rfl
    refine ⟨?_, ?_, ?_, ?_, regs⟩
    · show (pairFrom s.ownToB (v.beginOwner o).nvm).1.locked = _
      rw [← locked, begun, flips good]
      cases s.ownToB <;> rfl
    · show (pairFrom s.ownToB (v.beginOwner o).nvm).1.hash = _
      rw [← hash, begun, flips good]
      cases s.ownToB <;> rfl
    · show (pairFrom s.ownToB (v.beginOwner o).nvm).2 = _
      rw [begun, flips good]
      cases s.ownToB <;> rfl
    · show ({ (v.beginOwner o).sec with op := (v.beginOwner o).sec.op.map fun y => { y with second := true } } : SecUnit) = _
      rw [op, sec, ← writing]
      rfl
  · obtain ⟨nvm, op, lock', hash', -, status, others⟩ := endSecOp_owner inv writes .eInternal
    rw [run, if_pos (by rw [first]; exact Bool.false_ne_true), if_neg (by rw [bad]; exact Bool.false_ne_true), nvm, lock', hash', sec,
      others _ (by decide)]
    refine ⟨other, op, rfl, rfl, ?_, status⟩
    exact congrArg (fun r => Cells.get resetWord r Reg.ownAuth) regs
  · obtain ⟨w, wDef⟩ : ∃ w, w = if locks o then v.setReg Reg.ownAuth 0 else v := ⟨_, rfl⟩
    obtain ⟨x, xDef⟩ : ∃ x, x = w.modSec fun x =>
      { x with locked := locks o, keyLost := if locks o then false else x.keyLost, ownHash := newHash o } := ⟨_, rfl⟩
    have auth : w.getReg Reg.ownAuth = if locks o then 0 else s.getReg Reg.ownAuth := by
      rw [wDef]
      cases locks o with
      | true => exact getReg_setReg_self inv.regs_wf _ _
      | false => exact congrArg (fun r => Cells.get resetWord r Reg.ownAuth) regs
    have kept : w.nvm = v.nvm ∧ w.freeCtr = v.freeCtr ∧ w.Inv := by
      rw [wDef]
      cases locks o with
      | true => exact ⟨rfl, rfl, setReg_inv _ _ inv⟩
      | false => exact ⟨rfl, rfl, inv⟩
    have xInv : x.Inv := xDef ▸ .upd kept.2.2 rfl
    obtain ⟨nvm, op, lock', hash', nonce, status, others⟩ := endSecOp_owner xInv writes .ok
    have nvm' : (x.endSecOp o .ok).nvm = v.nvm := by
      rw [nvm, xDef]
      exact kept.1
    rw [run, if_neg (by rw [second]; decide), ← wDef, ← xDef, nvm', lock', hash', others _ (by decide)]
    refine ⟨locked, hash, other, op, by rw [xDef]; rfl, by rw [xDef]; rfl, ?_, status, fun unlocks => ?_⟩
    · rw [← auth, xDef]
      rfl
    · have unlock : o.kind = .unlock := writes.resolve_left fun lock => by
        unfold locks at unlocks
        rw [decide_eq_true lock] at unlocks
        exact absurd unlocks (by decide)
      rw [nonce unlock, ← ctr, ← kept.2.1, xDef]
      rfl

end

end State

end Sys2Proof.Machine
end

section
/-! PROOF. The commands of the owner lock, and the obligation on attestation and the owner lock (O53). -/

namespace Sys2Proof.Machine

namespace State

section
variable {s g : State} {p : Port} {u : Sid} {o : SecOp}

/-- The state that an owner operation asks for: a CHECK needs its ring at rest, a LOCK or UNLOCK every ring and the other lock (R503). -/
def ownMay (g : State) (v : Word) : Bool :=
  if bit v 0 then
    !g.ringRuns (fld v 11 8) && decide ((g.jug (fld v 11 8)).st ≠ .running) && !g.destructOn (kindCode (blkKind g.ownBlock)) (fld v 11 8)
  else
    ((List.range 12).all fun n => !g.ringRuns n) &&
      (if bit v 1 then !g.sec.locked || (g.sec.keyLost && decide (g.rst.phase = .recovery)) else g.sec.locked)

/-- A write of OWN_CMD that names one operation (R502, R503, R507). -/
theorem hostWrite_ownCmd (takes : s.Takes p u Reg.ownCmd g) (up : g.shutting = false) (idle : g.sec.op = none) {v : Word}
    (bits : v &&& ~~~0xFFFF0F07 = 0) (one : popCount v 3 = 1) (some : fld v 2 0 ≠ 0) (ring : fld v 11 8 < 12)
    (confirmed : fld v 31 16 = if bit v 0 then 0 else 0xF05E) (may : g.ownMay v = true) :
    s.hostWrite p u Reg.ownCmd v = (g.ownDo v).wrote p Reg.ownCmd := by
  have check : g.ownCheck v = .ok := by
    have conf : (if bit v 0 then decide (fld v 31 16 = 0) else decide (fld v 31 16 = 0xF05E)) = true := by
      rw [confirmed]
      cases bit v 0 <;> rfl
    unfold ownMay at may
    unfold ownCheck
    dsimp only
    rw [if_neg some, decide_eq_true ⟨one, ring⟩, conf, may, secFree_ok up idle]
    rfl
  exact write_takes takes (by decide) findAt_ownCmd (by decide) bits (decide_eq_true ⟨one.le, ring⟩) check

/-- The word of OWNER_CHECK (R503). -/
theorem checkWord (n : RingId) : let v := BitVec.ofNat 32 (256 * n.val + 1)
    v &&& ~~~0xFFFF0F07 = 0 ∧ popCount v 3 = 1 ∧ fld v 2 0 ≠ 0 ∧ fld v 11 8 = n.val ∧ fld v 31 16 = 0 ∧ bit v 0 = true := by
  revert n
  decide

theorem exec_ownerCheck (takes : s.Takes p u Reg.ownCmd g) (up : g.shutting = false) (idle : g.sec.op = none) (n : RingId)
    (rest : g.ringRuns n = false) (still : (g.jug n).st ≠ .running) (whole : g.destructOn (kindCode (blkKind g.ownBlock)) n = false) :
    exec (.ownerCheck p u n) s = .next (((g.eccRead (g.getReg Reg.ownSrc).toNat 7920).startSecOp
      { kind := .check n, block := g.ownBlock }).wrote p Reg.ownCmd) := by
  obtain ⟨bits, one, some, ring, conf, check⟩ := checkWord n
  have may : g.ownMay (BitVec.ofNat 32 (256 * n.val + 1)) = true := by
    unfold ownMay
    rw [if_pos check, ring, rest, decide_eq_true still, whole]
    rfl
  refine congrArg Host.Outcome.next
    ((hostWrite_ownCmd takes up idle bits one some (by rw [ring]; exact n.isLt) (by rw [conf, if_pos check]) may).trans ?_)
  unfold ownDo
  dsimp only
  rw [if_pos check, ring]

theorem exec_ownerLock (takes : s.Takes p u Reg.ownCmd g) (up : g.shutting = false) (idle : g.sec.op = none)
    (rest : ∀ i, i < 12 → g.ringRuns i = false) (free : g.sec.locked = false) :
    exec (.ownerLock p u 0xF05E) s = .next (((g.eccRead (g.getReg Reg.ownSrc).toNat 7920).startSecOp
      { kind := .lock, block := g.ownBlock }).wrote p Reg.ownCmd) := by
  have may : g.ownMay 0xF05E0002 = true := by
    unfold ownMay
    rw [if_neg (by decide), if_pos (by decide), free, List.all_eq_true.mpr fun n h => by rw [rest n (List.mem_range.mp h)]; rfl]
    rfl
  exact congrArg Host.Outcome.next ((hostWrite_ownCmd (v := 0xF05E0002) takes up idle (by decide) (by decide) (by decide) (by decide) (by decide)
    may).trans rfl)

theorem exec_ownerUnlock (takes : s.Takes p u Reg.ownCmd g) (up : g.shutting = false) (idle : g.sec.op = none)
    (rest : ∀ i, i < 12 → g.ringRuns i = false) (locked : g.sec.locked = true) :
    exec (.ownerUnlock p u 0xF05E) s = .next (((g.eccRead (g.getReg Reg.ownSrc).toNat 7920).startSecOp
      { kind := .unlock, block := g.ownBlock }).wrote p Reg.ownCmd) := by
  have may : g.ownMay 0xF05E0004 = true := by
    unfold ownMay
    rw [if_neg (by decide), if_neg (by decide), locked, List.all_eq_true.mpr fun n h => by rw [rest n (List.mem_range.mp h)]; rfl]
    rfl
  exact congrArg Host.Outcome.next ((hostWrite_ownCmd (v := 0xF05E0004) takes up idle (by decide) (by decide) (by decide) (by decide) (by decide)
    may).trans rfl)

theorem exec_attestationComplete (ready : s.secReady = some o) (attest : o.kind = .attest) :
    exec .attestationComplete s = .next (s.finishAtt o) := by
  show execAttestationComplete s = _
  unfold execAttestationComplete
  rw [ready]
  exact congrArg Host.Outcome.next (if_pos attest)

theorem exec_ownerOpComplete (ready : s.secReady = some o) (owner : o.kind.Writes ∨ ∃ n, o.kind = .check n) :
    exec .ownerOpComplete s = .next (s.stepOwner o) := by
  show execOwnerOpComplete s = _
  unfold execOwnerOpComplete
  rw [ready]
  dsimp only
  rcases owner with (kind | kind) | ⟨n, kind⟩ <;> rw [kind]

/-- The target of an owner record is erased (R429, R503). -/
theorem beginOwner_eq (s : State) (o : SecOp) : s.beginOwner o = (s.modNvm fun v =>
    if s.newerOf ownMagic v.ownA.hdr v.ownB.hdr = some false then { v with ownB := {} } else { v with ownA := {} }).modSec
      fun x => { x with op := some { o with writing := true } } := by
  have erased : (if s.ownToB then ({ s.nvm with ownB := {} } : Nvm) else { s.nvm with ownA := {} }) =
      if s.newerOf ownMagic s.nvm.ownA.hdr s.nvm.ownB.hdr = some false then { s.nvm with ownB := {} } else { s.nvm with ownA := {} } := by
    rw [ownToB_eq]
    exact if_congr decide_eq_true_iff rfl rfl
  exact congrArg (fun n => ({ s with nvm := n } : State).modSec fun x => { x with op := some { o with writing := true } }) erased

/-- A CHECK that has been verified (R503). -/
theorem stepOwner_check {n : Nat} (kind : o.kind = .check n) (reading : o.writing = false) : s.stepOwner o =
    if s.ownError o = .ok then (s.setBit Reg.ownAuth (n + if blkKind o.block = 0 then 0 else 16) true).endSecOp o .ok
    else s.endSecOp o (s.ownError o) := by
  unfold stepOwner
  rw [reading, if_neg Bool.false_ne_true]
  dsimp only
  rw [kind]

/-- A LOCK or UNLOCK that has been verified (R503). -/
theorem stepOwner_writes (writes : o.kind.Writes) (reading : o.writing = false) : s.stepOwner o =
    if s.ownError o = .ok then s.beginOwner o else s.endSecOp o (s.ownError o) := by
  unfold stepOwner
  rw [reading, if_neg Bool.false_ne_true]
  dsimp only
  rcases writes with kind | kind <;> rw [kind]

end

end State

open State in
/-- Settles O53: each start is a write that no check refuses; after a good first record the other copy is the target. -/
theorem attestationAndOwner : Obligations.AttestationAndOwner := by
  unfold Obligations.AttestationAndOwner
  intro s g p u n o hi
  dsimp only
  refine ⟨fun takes up idle => (exec_attestationStart takes up idle).trans rfl, fun none => ⟨?_, ?_⟩,
    fun ready attest => ⟨_, exec_attestationComplete ready attest, finishAtt_marks hi attest⟩,
    fun takes up idle => ⟨fun rest still whole => ?_, fun rest free => ?_, fun rest locked => ?_⟩, fun ready => ⟨?_, ?_, ?_, ?_, ?_, ?_⟩⟩
  · show execAttestationComplete s = _
    unfold execAttestationComplete
    rw [none]
  · show execOwnerOpComplete s = _
    unfold execOwnerOpComplete
    rw [none]
  · rw [exec_ownerCheck takes up idle n rest still whole, startSecOp_eccRead]
    rfl
  · rw [exec_ownerLock takes up idle rest free, startSecOp_eccRead]
    rfl
  · rw [exec_ownerUnlock takes up idle rest locked, startSecOp_eccRead]
    rfl
  · intro kind reading good
    rw [exec_ownerOpComplete ready (.inr ⟨_, kind⟩), stepOwner_check kind reading, if_pos good,
      endSecOp_result _ _ (by rw [kind]; nofun) (by rw [kind]; nofun), kind]
    rfl
  · intro kind reading bad
    rw [exec_ownerOpComplete ready (.inr ⟨_, kind⟩), stepOwner_check kind reading, if_neg bad,
      endSecOp_result _ _ (by rw [kind]; nofun) (by rw [kind]; nofun), kind]
    rfl
  · intro kind reading good
    rw [exec_ownerOpComplete ready (.inl kind), stepOwner_writes kind reading, if_pos good]
    exact congrArg Host.Outcome.next (beginOwner_eq s o)
  · intro kind reading bad
    rw [exec_ownerOpComplete ready (.inl (.inl kind)), stepOwner_writes (.inl kind) reading, if_neg bad,
      endSecOp_result _ _ (by rw [kind]; nofun) (by rw [kind]; nofun), kind]
    rfl
  · intro kind reading bad
    rw [exec_ownerOpComplete ready (.inl (.inr kind)), stepOwner_writes (.inr kind) reading, if_neg bad, endSecOp_unlock s kind]
  · intro kind writing
    have marks := finishOwner_marks hi kind writing
    dsimp only at marks
    rw [← ownToB_eq]
    refine ⟨s.finishOwner o, ?_, ?_⟩
    · rw [exec_ownerOpComplete ready (.inl kind)]
      unfold stepOwner
      rw [if_pos writing]
    · cases toB : s.ownToB <;> rw [toB] at marks <;> exact marks

end Sys2Proof.Machine
end

section
/-! PROOF. What the end of a shot and a halt leave of a ring: its records, windows, fades and voices. -/

namespace Sys2Proof.Machine

/-- A change of one unit that leaves what is counted of each. -/
theorem map_modify_same {α β : Type} {c : α → β} {g : α → α} (same : ∀ x, c (g x) = c x) (l : List α) (i : Nat) :
    (l.modify i g).map c = l.map c := by
  refine List.ext_getElem? fun k => ?_
  rw [List.getElem?_map, List.getElem?_modify, List.getElem?_map]
  cases l[k]? with
  | none => rfl
  | some x =>
    refine congrArg some ?_
    by_cases here : i = k
    · exact (congrArg c (if_pos here)).trans (same x)
    · exact congrArg c (if_neg here)

/-- The windows of a lane that count as pending (R80). -/
def Lane.pending (x : Lane) : Nat := (x.wins.filter fun w => !w.nr).length

/-- A change of windows that leaves NR leaves the count of those pending (R80). -/
theorem pending_map (x : Lane) (p : Win → Bool) {f : Win → Win} (nr : ∀ w, (f w).nr = w.nr) :
    Lane.pending { x with wins := x.wins.map fun w => if p w then f w else w } = x.pending := by
  unfold Lane.pending
  rw [List.filter_map, List.length_map]
  refine congrArg (fun q => (List.filter q x.wins).length) (funext fun w => ?_)
  dsimp only [Function.comp]
  cases p w with
  | true => exact congrArg not (nr w)
  | false => rfl

namespace State

/-! ### Frames of a ring with a fixed list of registers -/

section
variable {s t : State} {n : Nat} {as : List Nat}

theorem OnlyRing.start (s : State) (n : Nat) (as : List Nat) : s.OnlyRing s n as := (OnlyRing.refl s n).mono nofun

/-- A register of the list is written. -/
theorem OnlyRing.put (h : s.OnlyRing t n as) {a : Nat} (listed : a ∈ as) (v : Word) : s.OnlyRing (t.setReg a v) n as := by
  obtain ⟨regs, rings, l, r, b, rfl⟩ := h
  exact ⟨fun x out => (getReg_setReg_other _ _ (ne_of_mem_of_not_mem listed out).symm).trans (regs x out), rings, l, _, b, rfl⟩

/-- A flag of a register of the list is raised, whose counters are listed too. -/
theorem OnlyRing.flag (h : s.OnlyRing t n as) {a b : Nat} (listed : a ∈ as) (counters : flagCntAddr a b ∈ as) :
    s.OnlyRing (t.raiseFlag a b) n as := by
  obtain ⟨regs, rings, l, r, c, rfl⟩ := h
  exact ⟨fun x out => (getReg_raiseFlag_other _ (ne_of_mem_of_not_mem listed out).symm (ne_of_mem_of_not_mem counters out).symm).trans
    (regs x out), rings, l, _, _, rfl⟩

theorem OnlyRing.flagIf (h : s.OnlyRing t n as) {a b : Nat} (listed : a ∈ as) (counters : flagCntAddr a b ∈ as) (c : Bool) :
    s.OnlyRing (t.raiseIf c a b) n as := by
  cases c with
  | false => exact h
  | true => exact h.flag listed counters

theorem OnlyRing.beat (h : s.OnlyRing t n as) : t.beat = s.beat := by
  obtain ⟨-, -, l, r, b, rfl⟩ := h
  rfl

/-! ### The records and windows of a shot that ends -/

/-- Nothing differs but the records and windows of ring `n`, of which as many stand and wait as before (R191). -/
structure ShotKept (s t : State) (n : Nat) : Prop where
  only : s.OnlyRing t n []
  inv : t.Inv
  seq : t.seq n = s.seq n
  records : t.resqFill n = s.resqFill n
  pending : t.pendingWins n = s.pendingWins n
  strm : ∀ j, t.strm n j = s.strm n j

/-- A change of windows that leaves NR. -/
theorem ShotKept.modWins (h : s.ShotKept t n) (l : Nat) (p : Win → Bool) {f : Win → Win} (nr : ∀ w, (f w).nr = w.nr) :
    s.ShotKept (t.modWins n l p f) n := by
  obtain ⟨only, inv, seq, records, pending, strm⟩ := h
  refine ⟨only.modRing _, modWins_inv _ _ _ _ inv, ?_, ?_, ?_, ?_⟩
  · rw [← seq]
    exact seq_modLane ..
  · rw [← records]
    unfold resqFill State.modWins
    rw [resq_modLane]
  · rw [← pending]
    unfold pendingWins State.modWins modLane
    rw [ring_modRing]
    split
    · exact congrArg List.sum (map_modify_same (c := Lane.pending) (fun x => pending_map x p nr) _ l)
    · rfl
  · intro j
    rw [← strm]
    exact strm_modLane ..

/-- A change of a TX channel. -/
theorem ShotKept.modTx (h : s.ShotKept t n) (c : Nat) (f : TxCh → TxCh) : s.ShotKept (t.modTx n c f) n := by
  obtain ⟨only, inv, seq, records, pending, strm⟩ := h
  refine ⟨only.modRing _, modTx_inv _ _ _ inv, (seq_modTx ..).trans seq, ?_, ?_, fun j => (strm_modTx ..).trans (strm j)⟩
  · rw [← records]
    unfold resqFill
    rw [resq_modTx]
  · rw [← pending]
    unfold pendingWins State.modTx
    rw [ring_modRing]
    split <;> rfl

/-- The TX channels do not change when a shot ends. -/
theorem tx_endShotRecords (none : s.NoneHeld n) (c : Nat) : (s.endShotRecords n).tx n c = s.tx n c := by
  unfold endShotRecords releaseHeld
  rw [List.filter_eq_nil_iff.mpr fun r isin => by rw [none r isin]; exact Bool.false_ne_true]
  exact forBelow_keeps (P := fun t => t.tx n c = s.tx n c) 32 (tx_modResq ..) fun l t h => (tx_modLane ..).trans h

/-- The records and windows of a shot that ends with none held (R191). -/
theorem endShotRecords_kept (hi : s.Inv) (none : s.NoneHeld n) : s.ShotKept (s.endShotRecords n) n := by
  obtain ⟨f, fDef⟩ : ∃ f : ResQ → ResQ, f = fun q => { q with
    recs := q.recs.map (fun r => if r.held then { r with held := false, since := s.beat } else r) } := ⟨_, rfl⟩
  have released : s.releaseHeld n (s.shotFlags n) = s.modResq n f := by
    unfold releaseHeld
    rw [List.filter_eq_nil_iff.mpr fun r isin => by rw [none r isin]; exact Bool.false_ne_true, fDef]
    rfl
  have start : s.ShotKept (s.modResq n f) n := by
    refine ⟨(OnlyRing.refl s n).modRing _, modResq_inv _ _ hi, seq_modResq .., ?_, ?_, fun _ => strm_modResq ..⟩
    · unfold resqFill resq modResq
      rw [ring_modRing]
      split
      · rw [fDef]
        exact List.length_map ..
      · rfl
    · unfold pendingWins modResq
      rw [ring_modRing]
      split <;> rfl
  unfold endShotRecords
  rw [released]
  exact forBelow_keeps (P := fun t => s.ShotKept t n) 32 start fun l t h => h.modWins l _ fun _ => rfl

/-- A state that keeps records and windows of one that keeps them. -/
theorem ShotKept.inHalt (h : s.ShotKept t n) (i : Nat) : s.OnlyRing (t.jugPend n i) n [] ∧ (t.jugPend n i).seq n = s.seq n :=
  ⟨h.only.modRing _, (seq_modJug ..).trans h.seq⟩

/-! ### The voices of a ring that halts -/

/-- Nothing differs but ring `n` without its sequencer, records and Juggler, and the registers of its streams (R225). -/
structure HaltKept (s t : State) (n : Nat) : Prop where
  only : s.OnlyRing t n (streamRegs n)
  inv : t.Inv
  seq : t.seq n = s.seq n
  resq : t.resq n = s.resq n

theorem HaltKept.modVoice (h : s.HaltKept t n) (v : Nat) (f : Voice → Voice) : s.HaltKept (t.modVoice n v f) n :=
  ⟨h.only.modRing _, modVoice_inv _ _ _ h.inv, (seq_modVoice ..).trans h.seq, (resq_modVoice ..).trans h.resq⟩

theorem HaltKept.modStrm (h : s.HaltKept t n) (j : Nat) (f : Strm → Strm) : s.HaltKept (t.modStrm n j f) n :=
  ⟨h.only.modRing _, modStrm_inv _ _ _ h.inv, (seq_modStrm ..).trans h.seq, (resq_modStrm ..).trans h.resq⟩

theorem mem_streamRegs {j : Nat} (small : j < 4) : Reg.strmPlayptr n j ∈ streamRegs n ∧ Reg.strmLimit n j ∈ streamRegs n := by
  have turn := List.mem_range.mpr small
  exact ⟨List.mem_flatMap.mpr ⟨j, turn, by simp⟩, List.mem_flatMap.mpr ⟨j, turn, by simp⟩⟩

theorem HaltKept.setPlayPtr (h : s.HaltKept t n) {j : Nat} (small : j < 4) (i : BitVec 32) : s.HaltKept (t.setPlayPtr n j i) n := by
  obtain ⟨play, limit⟩ := mem_streamRegs (n := n) small
  obtain ⟨only, inv, seq, resq⟩ := h
  exact HaltKept.modStrm ⟨(only.put play _).put limit _, setReg_inv _ _ (setReg_inv _ _ inv), seq, resq⟩ j _

/-- A stream that the ring does not have holds no released unit. -/
theorem strm_beyond (hi : t.Inv) (ring : n < 12) {j : Nat} (beyond : ¬ j < 4) : t.strm n j = {} := by
  unfold strm
  rw [List.getD_eq_default _ _ (by rw [(hi.ring_sized ring).2.2.2.2.2.1]; omega)]

theorem HaltKept.advancePlay (h : s.HaltKept t n) (ring : n < 12) (j fuel : Nat) : s.HaltKept (t.advancePlay n j fuel) n := by
  induction fuel generalizing t with
  | zero => exact h
  | succ fuel ih =>
    unfold State.advancePlay
    dsimp only
    split
    · rename_i released
      by_cases small : j < 4
      · exact ih ((h.modStrm j _).setPlayPtr small _)
      · rw [strm_beyond h.inv ring small] at released
        exact absurd released List.not_mem_nil
    · exact h

theorem HaltKept.dropReq (h : s.HaltKept t n) (ring : n < 12) (r : VReq) : s.HaltKept (t.dropReq n r) n := by
  unfold State.dropReq
  split
  · exact forBelow_keeps (P := fun t => s.HaltKept t n) _ h fun _ _ h => (h.modStrm _ _).advancePlay ring _ _
  · exact h

/-- A pending jump request is void (R203). -/
theorem HaltKept.voidJump (h : s.HaltKept t n) (ring : n < 12) (v : Nat) : s.HaltKept (t.voidJump n v) n := by
  unfold State.voidJump
  split
  · dsimp only
    split
    · exact HaltKept.modVoice ((h.modVoice v _).dropReq ring _) v _
    · exact HaltKept.modVoice (h.dropReq ring _) v _
  · exact h

theorem jump_voidJump {n : RingId} (hi : t.Inv) (v : Fin 32) : ((t.voidJump n v).voice n v).jump = none := by
  unfold State.voidJump
  split
  · dsimp only
    split
    · rw [(dropReq_inv _ _ (takeBack_inv n v _ hi)).voice_modVoice]
    · rw [(dropReq_inv _ _ hi).voice_modVoice]
  · assumption

/-- Where no jump request is pending, the repetitions and chains that were chosen go, and nothing starts (R225). -/
theorem HaltKept.endFollowers {n : RingId} (h : s.HaltKept t n) {v : Fin 32} (void : (t.voice n v).jump = none) :
    s.HaltKept (t.endFollowers n v) n := by
  unfold State.endFollowers
  split
  · exact h
  · rw [settleJump_none]
    · exact h.modVoice v _
    · rw [h.inv.voice_modVoice]
      exact void

theorem haltVoices_kept {n : RingId} (hi : s.Inv) : (s.modSeq n fun q => { q with haltFrom := some s.beat }).HaltKept (s.haltVoices n true) n := by
  refine foldl_keeps (P := fun t => HaltKept _ t n) ⟨.start _ n _, modSeq_inv _ _ hi, rfl, rfl⟩ fun v turn t h => ?_
  exact (h.voidJump n.isLt v).endFollowers (v := ⟨v, List.mem_range.mp turn⟩) (jump_voidJump h.inv ⟨v, List.mem_range.mp turn⟩)

end

end State

end Sys2Proof.Machine
end

section
/-! PROOF. Shot boundaries and the end of HALT's drain, and the obligation on them (O8). -/

namespace Sys2Proof.Machine

namespace State

section
variable {s t : State} {n : RingId}

/-- Two frames of a ring in a row. -/
theorem OnlyRing.next {u : State} {n : Nat} {as bs : List Nat} (h : s.OnlyRing t n as) (h' : t.OnlyRing u n bs) (sub : ∀ a ∈ bs, a ∈ as) :
    s.OnlyRing u n as := by
  obtain ⟨regs, rings, l, r, b, rfl⟩ := h
  obtain ⟨regs', rings', l', r', b', rfl⟩ := h'
  exact ⟨fun a out => (regs' a fun isin => out (sub a isin)).trans (regs a out), fun k ne => (rings' k ne).trans (rings k ne), l', r', b', rfl⟩

/-- The ring enters HALTED (R191, R330). -/
theorem enterHalted_marks (hi : s.Inv) (none : s.NoneHeld n) : let t := s.enterHalted n
    t.seq n = { s.seq n with st := .halted, wait := .none, haltPend := false } ∧ bit (t.jug n).ipend 4 = true ∧ s.OnlyRing t n [] := by
  obtain ⟨v, vDef⟩ : ∃ v, v = s.modSeq n fun q => { q with st := .halted, wait := .none, haltPend := false } := ⟨_, rfl⟩
  have seq : v.seq n = { s.seq n with st := .halted, wait := .none, haltPend := false } := by
    rw [vDef, seq_modSeq_self hi.rings_length n.isLt]
  have only : s.OnlyRing v n [] := vDef ▸ (OnlyRing.refl s n).modRing _
  have inv : v.Inv := vDef ▸ modSeq_inv _ _ hi
  have kept := endShotRecords_kept inv (n := n) (by rw [NoneHeld, vDef, resq_modSeq]; exact none)
  obtain ⟨frame, same⟩ := kept.inHalt 4
  have run : s.enterHalted n = (v.endShotRecords n).jugPend n 4 := by rw [vDef]; rfl
  dsimp only
  rw [run]
  refine ⟨same.trans seq, ?_, only.next frame nofun⟩
  unfold jugPend
  rw [jug_modJug_self kept.inv.rings_length n.isLt, bit_putBit _ _ (by decide), if_pos rfl]

/-- RSC and PC are no registers of a stream. -/
theorem seqRsc_stream (n : Nat) : Reg.seqRsc n ∉ streamRegs n := by
  simp only [streamRegs, List.mem_flatMap, List.mem_range, List.mem_cons, List.not_mem_nil, or_false, Reg.seqRsc, Reg.strmPlayptr, Reg.strmLimit]
  omega

theorem seqPc_stream (n : Nat) : Reg.seqPc n ∉ Reg.seqRsc n :: streamRegs n := by
  simp only [streamRegs, List.mem_flatMap, List.mem_range, List.mem_cons, List.not_mem_nil, or_false, Reg.seqRsc, Reg.seqPc, Reg.strmPlayptr,
    Reg.strmLimit]
  omega

/-- A host halt is taken (R172, R194, R225). -/
theorem takeHalt_marks (hi : s.Inv) (none : s.NoneHeld n) : let t := s.takeHalt n
    t.seq n = { s.seq n with
      haltFrom := some s.beat, thermEnd := .none, pWm := false, pCredit := false, st := .halted, wait := .none, haltPend := false } ∧
    t.getReg (Reg.seqRsc n) = 2 ∧ bit (t.jug n).ipend 4 = true ∧ s.OnlyRing t n (Reg.seqRsc n :: streamRegs n) := by
  obtain ⟨v, vDef⟩ : ∃ v, v = s.setRsc n 2 0 := ⟨_, rfl⟩
  have vInv : v.Inv := vDef ▸ setReg_inv _ _ hi
  have voices := haltVoices_kept (n := n) vInv
  obtain ⟨w, wDef⟩ : ∃ w, w = v.haltVoices n true := ⟨_, rfl⟩
  rw [← wDef] at voices
  obtain ⟨only, inv, seq, resq⟩ := voices
  obtain ⟨x, xDef⟩ : ∃ x, x = w.modSeq n fun q => { q with thermEnd := .none, pWm := false, pCredit := false } := ⟨_, rfl⟩
  have xInv : x.Inv := xDef ▸ modSeq_inv _ _ inv
  have xNone : x.NoneHeld n := by
    rw [NoneHeld, xDef, resq_modSeq, resq, resq_modSeq, vDef]
    exact none
  have run : s.takeHalt n = x.enterHalted n := by rw [xDef, wDef, vDef]; rfl
  obtain ⟨halted, pend, frame⟩ := enterHalted_marks xInv xNone
  have here : v.seq n = s.seq n ∧ v.beat = s.beat := by
    rw [vDef]
    exact ⟨rfl, rfl⟩
  have stopped : x.seq n = { s.seq n with haltFrom := some s.beat, thermEnd := .none, pWm := false, pCredit := false } := by
    rw [xDef, seq_modSeq_self inv.rings_length n.isLt, seq, seq_modSeq_self vInv.rings_length n.isLt, here.1, here.2]
  have toV : s.OnlyRing v n (Reg.seqRsc n :: streamRegs n) := vDef ▸ (OnlyRing.start s n _).put (List.mem_cons_self ..) _
  have toX : v.OnlyRing x n (streamRegs n) := by
    rw [xDef]
    exact (((OnlyRing.start v n _).modRing _).next only fun _ h => h).modRing _
  dsimp only
  rw [run]
  refine ⟨by rw [halted, stopped], ?_, pend, (toV.next toX fun a h => List.mem_cons_of_mem _ h).next frame nofun⟩
  rw [frame.1 _ nofun, toX.1 _ (seqRsc_stream n), vDef]
  exact getReg_setReg_self hi.regs_wf _ _

/-! ### A shot boundary without a halt -/

/-- A host's fade request that waits takes its beat at the boundary (R230). -/
def offered (b : Nat) (x : TxCh) : TxCh := if x.host.isSome ∧ x.hostAt.isNone then { x with hostAt := some (b + 26) } else x

theorem offered_eq (b : Nat) (x : TxCh) :
    offered b x = { x with hostAt := if x.host.isSome ∧ x.hostAt = none then some (b + 26) else x.hostAt } := by
  unfold offered
  split
  · rename_i waits
    rw [if_pos ⟨waits.1, Option.isNone_iff_eq_none.mp waits.2⟩]
  · rename_i other
    rw [if_neg fun waits => other ⟨waits.1, Option.isNone_iff_eq_none.mpr waits.2⟩]

theorem offerFades_marks (hi : s.Inv) : s.ShotKept (s.offerFades n) n ∧ ∀ c < 4, (s.offerFades n).tx n c = offered s.beat (s.tx n c) := by
  have run : s.offerFades n = s.forBelow 4 fun c t => t.modTx n c (offered s.beat) :=
    (forBelow_congr (f := fun c t => t.modTx n c (offered t.beat)) (f' := fun c t => t.modTx n c (offered s.beat))
      (P := fun t => t.beat = s.beat) rfl (fun c t beat => ⟨by rw [beat], beat⟩) 4).1
  rw [run]
  obtain ⟨-, cells, -⟩ := (txGrid (offered s.beat)).row hi n.isLt (Nat.le_refl 4)
  refine ⟨?_, fun c low => (cells n c).trans (if_pos ⟨rfl, low⟩)⟩
  exact forBelow_keeps (P := fun t => s.ShotKept t n) 4 ⟨.refl s n, hi, rfl, rfl, rfl, fun _ => rfl⟩ fun c t h => h.modTx c _

/-- The registers of the flags that a boundary may raise (R189). -/
def boundaryFlags (n : Nat) : List Nat :=
  [Reg.resqFlags n, Reg.resqFlags n + 4] ++ (List.range 4).flatMap fun j => [Reg.strmFlags n j, Reg.strmFlags n j + 4]

theorem mem_boundaryFlags {n j : Nat} (small : j < 4) : Reg.strmFlags n j ∈ boundaryFlags n ∧ Reg.strmFlags n j + 4 ∈ boundaryFlags n := by
  have turn := List.mem_range.mpr small
  exact ⟨List.mem_append_right _ (List.mem_flatMap.mpr ⟨j, turn, by simp⟩), List.mem_append_right _ (List.mem_flatMap.mpr ⟨j, turn, by simp⟩)⟩

/-- No register of a stream that a pause condition reads is a flag. -/
theorem strm_not_flag (n j : Nat) :
    Reg.strmCfg n j ∉ boundaryFlags n ∧ Reg.strmLow n j ∉ boundaryFlags n ∧ Reg.strmPlayptr n j ∉ boundaryFlags n := by
  simp only [boundaryFlags, List.mem_append, List.mem_flatMap, List.mem_range, List.mem_cons, List.not_mem_nil, or_false, Reg.strmCfg,
    Reg.strmLow, Reg.strmPlayptr, Reg.strmFlags, Reg.resqFlags]
  omega

/-- The stream pause condition does not depend on flags (R74). -/
theorem creditPause_congr (regs : ∀ a, a ∉ boundaryFlags n → t.getReg a = s.getReg a) (strm : ∀ j, t.strm n j = s.strm n j) :
    t.creditPause n = s.creditPause n := by
  have words : ∀ j, t.getReg (Reg.strmCfg n j) = s.getReg (Reg.strmCfg n j) ∧ t.getReg (Reg.strmLow n j) = s.getReg (Reg.strmLow n j) ∧
      t.getReg (Reg.strmPlayptr n j) = s.getReg (Reg.strmPlayptr n j) := fun j => by
    obtain ⟨cfg, low, play⟩ := strm_not_flag n j
    exact ⟨regs _ cfg, regs _ low, regs _ play⟩
  unfold creditPause strmEn readyRun unitFilled strmUnits playPtr regBit regFld
  refine congrArg (List.range 4).any (funext fun j => ?_)
  obtain ⟨cfg, low, play⟩ := words j
  rw [cfg, low, play, strm j]

/-- The flags of the streams are raised (R189). -/
theorem raiseStreams_marks {u : State} (h : s.OnlyRing u n (boundaryFlags n)) (c : Nat → State → Bool) :
    let t := u.forBelow 4 fun j t => t.raiseIf (c j t) (Reg.strmFlags n j) 3
    s.OnlyRing t n (boundaryFlags n) ∧ t.rings = u.rings := by
  refine foldl_keeps (P := fun t => s.OnlyRing t n (boundaryFlags n) ∧ t.rings = u.rings) ⟨h, rfl⟩ fun j turn t ⟨only, rings⟩ => ?_
  obtain ⟨flag, count⟩ := mem_boundaryFlags (n := n) (List.mem_range.mp turn)
  refine ⟨only.flagIf flag (by rw [flagCntAddr_low (by decide)]; exact count) _, ?_⟩
  obtain ⟨-, -, same, -⟩ := raiseIf_kept t (c j t) (Reg.strmFlags n j) 3
  exact same.trans rings

/-- CP1 without a halt (R168, R189, R230). -/
theorem boundary_marks (hi : s.Inv) (none : s.NoneHeld n) (free : (s.seq n).haltPend = false) : let t := s.boundary n
    ((t.seq n).wait = .cp2 ∧ (t.seq n).st = (s.seq n).st ∧ (t.seq n).boundaryAt = s.beat ∧
      (t.seq n).udrCp1 = (s.regBit (Reg.seqSt n) 6 && s.regBit (Reg.seqCtrl n) 0) ∧ (t.seq n).pCredit = s.creditPause n ∧
      (t.seq n).pWm = decide (s.regFld (Reg.resqHwm n) 15 0 < s.resqFill n + s.pendingWins n)) ∧
    (∀ c < 4, t.tx n c = offered s.beat (s.tx n c)) ∧ s.OnlyRing t n (boundaryFlags n) := by
  obtain ⟨v, vDef⟩ : ∃ v, v = s.modSeq n fun q => { q with
    boundaryAt := s.beat, udrCp1 := s.regBit (Reg.seqSt n) 6 && s.regBit (Reg.seqCtrl n) 0, thermHeld := false, holdMarked := false } := ⟨_, rfl⟩
  have vInv : v.Inv := vDef ▸ modSeq_inv _ _ hi
  have vNone : v.NoneHeld n := by
    rw [NoneHeld, vDef, resq_modSeq]
    exact none
  obtain ⟨w, wDef⟩ : ∃ w, w = v.endShotRecords n := ⟨_, rfl⟩
  obtain ⟨x, xDef⟩ : ∃ x, x = w.offerFades n := ⟨_, rfl⟩
  have ended : v.ShotKept w n := wDef ▸ endShotRecords_kept vInv vNone
  obtain ⟨faded, tx⟩ := offerFades_marks (n := n) ended.inv
  rw [← xDef] at faded tx
  obtain ⟨wm, wmDef⟩ : ∃ wm, wm = decide (x.regFld (Reg.resqHwm n) 15 0 < x.resqFill n + x.pendingWins n) := ⟨_, rfl⟩
  obtain ⟨y, yDef⟩ : ∃ y, y = x.raiseIf wm (Reg.resqFlags n) 0 := ⟨_, rfl⟩
  obtain ⟨z, zDef⟩ : ∃ z, z = y.forBelow 4 fun j s =>
    s.raiseIf (s.strmEn n j && decide (s.readyRun n j < s.regFld (Reg.strmLow n j) 6 0)) (Reg.strmFlags n j) 3 := ⟨_, rfl⟩
  obtain ⟨e, eDef⟩ : ∃ e, e = x.ringExcess n := ⟨_, rfl⟩
  have run : s.boundary n = z.modSeq n fun q => { q with
      wait := .cp2, evalAt := .none, pWm := wm, pCredit := z.creditPause n
      thermEnd := if 1 ≤ e then some (z.beat + min (1500 * e) 1500000) else .none } := by
    have halt : (v.seq n).haltPend = false := by
      rw [vDef, seq_modSeq_self hi.rings_length n.isLt]
      exact free
    unfold boundary
    dsimp only
    rw [← vDef, halt, if_neg Bool.false_ne_true, ← wDef, ← xDef, ← wmDef, ← yDef, ← zDef, ← eDef]
  have toV : s.OnlyRing v n [] := vDef ▸ (OnlyRing.refl s n).modRing _
  have toX : s.OnlyRing x n [] := (toV.next ended.only nofun).next faded.only nofun
  have toY : s.OnlyRing y n (boundaryFlags n) := yDef ▸ (toX.mono nofun).flagIf (List.mem_cons_self ..) (List.mem_cons_of_mem _ (List.mem_cons_self ..)) wm
  have yRings : y.rings = x.rings := by
    obtain ⟨-, -, same, -⟩ := raiseIf_kept x wm (Reg.resqFlags n) 0
    rw [yDef, same]
  obtain ⟨toZ, zRings⟩ := raiseStreams_marks toY fun j s => s.strmEn n j && decide (s.readyRun n j < s.regFld (Reg.strmLow n j) 6 0)
  rw [← zDef] at toZ zRings
  have ring : z.ring n = x.ring n := congrArg (fun l => l.getD n {}) (zRings.trans yRings)
  have seq : z.seq n = v.seq n := (congrArg Ring.seq ring).trans (faded.seq.trans ended.seq)
  have vSeq : v.seq n = { s.seq n with
      boundaryAt := s.beat, udrCp1 := s.regBit (Reg.seqSt n) 6 && s.regBit (Reg.seqCtrl n) 0, thermHeld := false, holdMarked := false } := by
    rw [vDef, seq_modSeq_self hi.rings_length n.isLt]
  have vRing : (∀ j, v.strm n j = s.strm n j) ∧ (∀ c, v.tx n c = s.tx n c) ∧ v.resqFill n = s.resqFill n ∧ v.pendingWins n = s.pendingWins n := by
    rw [vDef]
    refine ⟨fun j => strm_modSeq .., fun c => tx_modSeq .., congrArg (fun q : ResQ => q.recs.length) (resq_modSeq ..), ?_⟩
    unfold pendingWins modSeq
    rw [ring_modRing]
    split <;> rfl
  obtain ⟨vStrm, vTx, vFill, vWins⟩ := vRing
  have strm : ∀ j, z.strm n j = s.strm n j := fun j => by
    refine (congrArg (fun r : Ring => r.strm.getD j {}) ring).trans ?_
    exact (faded.strm j).trans ((ended.strm j).trans (vStrm j))
  have high : wm = decide (s.regFld (Reg.resqHwm n) 15 0 < s.resqFill n + s.pendingWins n) := by
    unfold regFld at wmDef ⊢
    rw [wmDef, toX.1 _ nofun, faded.records, ended.records, vFill, faded.pending, ended.pending, vWins]
  have zLength : z.rings.length = 12 := by rw [zRings, yRings, faded.inv.rings_length]
  dsimp only
  rw [run, seq_modSeq_self zLength n.isLt, seq, vSeq]
  refine ⟨⟨rfl, rfl, rfl, rfl, creditPause_congr toZ.1 strm, high⟩, fun c low => ?_, toZ.modRing _⟩
  rw [tx_modSeq]
  refine (congrArg (fun r : Ring => r.tx.getD c {}) ring).trans ((tx c low).trans ?_)
  have beat : w.beat = s.beat := (toV.next ended.only nofun).beat
  rw [beat, wDef, tx_endShotRecords vNone, vTx]

end

end State

end Sys2Proof.Machine
end

section
/-! PROOF. The obligation on shot boundaries and the end of HALT's drain (O8). -/

namespace Sys2Proof.Machine

namespace State

section
variable {s : State} {n : RingId}

/-- A frame of a sequencer is one of its ring. -/
theorem OnlySeq.onlyRing {t : State} {n : Nat} {as : List Nat} (h : s.OnlySeq t n as) : s.OnlyRing t n as := by
  obtain ⟨regs, q, r, b, rfl⟩ := h
  exact ⟨regs, fun _ ne => ring_modRing_ne _ ne, _, r, b, rfl⟩

/-- CP1 with a halt that waits (R172, R194). -/
theorem boundary_halts (hi : s.Inv) (none : s.NoneHeld n) (halt : (s.seq n).haltPend = true) : let t := s.boundary n
    (t.seq n).st = .halted ∧ (t.seq n).wait = .none ∧ (t.seq n).haltPend = false ∧ t.getReg (Reg.seqRsc n) = 2 ∧
      t.getReg (Reg.seqPc n) = s.getReg (Reg.seqPc n) ∧ (t.seq n).haltFrom = some s.beat ∧ bit (t.jug n).ipend 4 = true ∧
      s.OnlyRing t n (Reg.seqRsc n :: streamRegs n) := by
  obtain ⟨v, vDef⟩ : ∃ v, v = s.modSeq n fun q => { q with
    boundaryAt := s.beat, udrCp1 := s.regBit (Reg.seqSt n) 6 && s.regBit (Reg.seqCtrl n) 0, thermHeld := false, holdMarked := false } := ⟨_, rfl⟩
  have vInv : v.Inv := vDef ▸ modSeq_inv _ _ hi
  have toV : s.OnlyRing v n [] := vDef ▸ (OnlyRing.refl s n).modRing _
  obtain ⟨faded, -⟩ := offerFades_marks (n := n) vInv
  have resq : (v.offerFades n).resq n = s.resq n := by
    have same : v.resq n = s.resq n := by
      rw [vDef]
      exact resq_modSeq ..
    exact forBelow_keeps (P := fun t => t.resq n = s.resq n) 4 same fun _ _ h => (resq_modTx ..).trans h
  have toX : s.OnlyRing (v.offerFades n) n (Reg.seqRsc n :: streamRegs n) := (toV.next faded.only nofun).mono nofun
  obtain ⟨seq, rsc, pend, frame⟩ := takeHalt_marks (n := n) faded.inv (by rw [NoneHeld, resq]; exact none)
  have run : s.boundary n = (v.offerFades n).takeHalt n := by
    have waits : (v.seq n).haltPend = true := by
      rw [vDef, seq_modSeq_self hi.rings_length n.isLt]
      exact halt
    unfold boundary
    dsimp only
    rw [← vDef, if_pos waits]
  have all := toX.next frame fun _ h => h
  dsimp only
  rw [run, seq]
  exact ⟨rfl, rfl, rfl, rsc, all.1 _ (seqPc_stream n), congrArg some toX.beat, pend, all⟩

/-- HALT's drain ends (R169, R191). -/
theorem exec_haltComplete (hi : s.Inv) (st : (s.seq n).st = .running) (wait : (s.seq n).wait = .haltDrain) (empty : (s.seq n).taq = [])
    (began : (s.seq n).haltFrom.isSome = true) (ready : s.haltReady n = true) (unheld : s.NoneHeld n) : ∃ t, exec (.haltComplete n) s = .next t ∧
      t.seq n = { s.seq n with
        st := .halted, wait := .none, issueAt := s.beat + 1, haltPend := false, caseGot := none, caseUse := none } ∧
      t.getReg (Reg.seqPc n) = BitVec.ofNat 32 ((s.seqPc n + 1) % 32768) ∧ t.getReg (Reg.seqRsc n) = 0 ∧
      bit (t.jug n).ipend 4 = true ∧ s.OnlyRing t n [Reg.seqPc n, Reg.seqRsc n] := by
  obtain ⟨⟨pc, rsc, seq⟩, only⟩ := goTo_frame hi n.isLt (s.seqPc n + 1) 1
  have resq : (s.goNext n).resq n = s.resq n := resq_modSeq ..
  obtain ⟨halted, pend, frame⟩ := enterHalted_marks (n := n) (goTo_inv n (s.seqPc n + 1) 1 hi)
    (show (s.goNext n).NoneHeld n by rw [NoneHeld, resq]; exact unheld)
  refine ⟨(s.goNext n).enterHalted n, ?_, halted.trans (by rw [seq]), ?_, ?_, pend, only.onlyRing.next frame nofun⟩
  · show execHaltComplete n s = _
    unfold execHaltComplete
    have drains : (s.seq n).haltFrom.isNone = false := by
      rw [← Option.not_isSome, began]
      rfl
    dsimp only
    rw [if_pos ⟨st, wait, empty⟩, drains, if_neg Bool.false_ne_true, if_pos ready]
  · exact (frame.1 _ nofun).trans pc
  · exact (frame.1 _ nofun).trans rsc

theorem exec_shotBoundary (st : (s.seq n).st = .running) {b : Nat} (wait : (s.seq n).wait = .cp1 b) (due : b ≤ s.beat) :
    exec (.shotBoundary n) s = .next (s.boundary n) := by
  show execShotBoundary n s = _
  unfold execShotBoundary
  rw [if_neg fun other => other st, wait]
  exact congrArg Host.Outcome.next (if_pos due)

end

end State

open State in
/-- Settles O8: at CP1 the records and windows keep their number, so the pause conditions are those of the state before; a halt releases
the units of void requests and starts nothing. -/
theorem shotBoundaryAndHalt : Obligations.ShotBoundaryAndHalt := by
  unfold Obligations.ShotBoundaryAndHalt
  refine ⟨fun s n hi st => ⟨fun wait empty => ?_, fun wait waits => ?_, fun b wait due none free => ?_, fun b wait due none halt => ?_⟩,
    fun s n hi st wait empty began ready none => exec_haltComplete hi st wait empty began ready none⟩
  · show execShotBoundary n s = _
    unfold execShotBoundary
    rw [if_neg fun other => other st, wait]
    exact congrArg Host.Outcome.next (if_pos empty)
  · show execShotBoundary n s = _
    unfold execShotBoundary
    rw [if_neg fun other => other st, wait]
    exact congrArg Host.Outcome.next (if_neg waits)
  · obtain ⟨⟨cp2, stays, at_, vector, credit, high⟩, tx, only⟩ := boundary_marks hi none free
    refine ⟨s.boundary n, exec_shotBoundary st wait due, cp2, stays.trans st, at_, vector, credit, high, fun c low => ?_, only⟩
    rw [tx c low, offered_eq]
  · exact ⟨s.boundary n, exec_shotBoundary st wait due, boundary_halts hi none halt⟩

end Sys2Proof.Machine
end

section
/-! PROOF. The start of a shot (R118, R124, R168, R206, R254, R330). -/

namespace Sys2Proof.Machine

namespace State

section
variable {s t : State} {n : RingId}

/-! ### What a shot start sets before the ring goes on -/

/-- The registers that a shot start sets before the ring goes on. -/
def shotRegs (n : Nat) : List Nat := [Reg.seqSc n, Reg.seqDrvf n, Reg.seqDrvc n, Reg.seqSt n] ++ (List.range 4).map (Reg.biasOut n)

/-- A shot starts, but for where the ring goes on (R168). -/
def shotBegun (s : State) (n : Nat) : State :=
  let a := (s.addReg (Reg.seqSc n) 1).clearValid n
  let b := (a.setReg (Reg.seqSt n) (a.getReg (Reg.seqSt n) &&& ~~~(0x160 : Word))).modSeq n fun q => { q with
    st := .running, shotAt := s.beat, refAt := s.beat, thrShot := q.thermHeld, shotNo := q.shotNo + 1, gridAt := s.beat
    thermEnd := none, pWm := false, pCredit := false }
  (b.forBelow 4 fun b s => s.biasSample n b).jugPend n 3

/-- Where the ring goes on at a shot start (R168, R206). -/
theorem shotStart_eq (s : State) (n : Nat) : s.shotStart n =
    (let t := s.shotBegun n
     if (t.seq n).udrCp1 then
       if t.depth n < 16 then ((t.pushCall n (t.seqPc n + 1)).raiseFlag (Reg.seqFlags n) 4).goTo n (t.regFld (Reg.seqUdrVec n) 14 0) 1
       else (t.raiseFlag (Reg.seqFlags n) 5).goTo n (t.seqPc n + 1) 1
     else t.goTo n (t.seqPc n + 1) 1) := rfl

theorem mem_shotRegs (n : Nat) :
    Reg.seqSc n ∈ shotRegs n ∧ Reg.seqDrvf n ∈ shotRegs n ∧ Reg.seqDrvc n ∈ shotRegs n ∧ Reg.seqSt n ∈ shotRegs n ∧
    ∀ b < 4, Reg.biasOut n b ∈ shotRegs n := by
  refine ⟨by simp [shotRegs], by simp [shotRegs], by simp [shotRegs], by simp [shotRegs], fun b low => ?_⟩
  exact List.mem_append_right _ (List.mem_map.mpr ⟨b, List.mem_range.mpr low, rfl⟩)

/-- The registers of a shot start differ. -/
theorem shotRegs_ne (n b : Nat) : (Reg.seqSc n ≠ Reg.seqDrvf n ∧ Reg.seqSc n ≠ Reg.seqDrvc n ∧ Reg.seqSc n ≠ Reg.seqSt n) ∧
    (Reg.seqDrvf n ≠ Reg.seqSt n ∧ Reg.seqDrvc n ≠ Reg.seqSt n) ∧
    Reg.seqSc n ≠ Reg.biasOut n b ∧ Reg.seqDrvf n ≠ Reg.biasOut n b ∧ Reg.seqDrvc n ≠ Reg.biasOut n b ∧ Reg.seqSt n ≠ Reg.biasOut n b := by
  simp only [Reg.seqSc, Reg.seqDrvf, Reg.seqDrvc, Reg.seqSt, Reg.biasOut]
  omega

/-- The sequencer at the start of a shot, but for what meets the posts of its beat (R118, R124, R168). -/
def begunSeq (s : State) (n : Nat) (m : Option Meet) : Seq :=
  { s.seq n with
    st := .running, shotAt := s.beat, refAt := s.beat, thrShot := (s.seq n).thermHeld, shotNo := (s.seq n).shotNo + 1, gridAt := s.beat
    thermEnd := none, pWm := false, pCredit := false, meet := m }

theorem shotBegun_marks (hi : s.Inv) : let t := s.shotBegun n
    t.Inv ∧ t.seq n = s.begunSeq n (t.seq n).meet ∧ t.getReg (Reg.seqSc n) = s.getReg (Reg.seqSc n) + 1 ∧
    t.getReg (Reg.seqDrvf n) = State.postMask true (s.meetNow n).posts ∧ t.getReg (Reg.seqDrvc n) = State.postMask false (s.meetNow n).posts ∧
    t.getReg (Reg.seqSt n) = s.getReg (Reg.seqSt n) &&& ~~~(0x160 : Word) ∧
    (∀ b < 4, t.getReg (Reg.biasOut n b) = BitVec.ofInt 32 (Int.fdiv (s.biasOut n b).y 64)) ∧ bit (t.jug n).ipend 3 = true ∧
    s.OnlyRing t n (shotRegs n) := by
  obtain ⟨scListed, fListed, cListed, stListed, biasListed⟩ := mem_shotRegs n
  obtain ⟨⟨scF, scC, scSt⟩, ⟨fSt, cSt⟩, -⟩ := shotRegs_ne n 0
  obtain ⟨c, cDef⟩ : ∃ c, c = s.addReg (Reg.seqSc n) 1 := ⟨_, rfl⟩
  have cInv : c.Inv := cDef ▸ setReg_inv _ _ hi
  obtain ⟨drvf, drvc, only, seq⟩ := endValid_frame cInv n.isLt 0 true
  obtain ⟨a, aDef⟩ : ∃ a, a = c.clearValid n := ⟨_, rfl⟩
  have aRun : c.endValid n 0 true = a := aDef.symm
  have aInv : a.Inv := aDef ▸ endValid_inv _ _ _ cInv
  dsimp only at drvf drvc seq
  rw [aRun] at drvf drvc only seq
  have posts : (c.meetNow n).posts = (s.meetNow n).posts := by
    rw [cDef]
    exact meetNow_posts rfl rfl
  have alone : ∀ x y : Word, (x &&& 0) ||| y = y := fun x y => by simp
  rw [posts] at drvf drvc
  have drvf := drvf.trans (alone _ _)
  have drvc := drvc.trans (alone _ _)
  obtain ⟨d, dDef⟩ : ∃ d, d = a.setReg (Reg.seqSt n) (a.getReg (Reg.seqSt n) &&& ~~~(0x160 : Word)) := ⟨_, rfl⟩
  have dInv : d.Inv := dDef ▸ setReg_inv _ _ aInv
  obtain ⟨e, eDef⟩ : ∃ e, e = d.modSeq n fun q => { q with
    st := .running, shotAt := s.beat, refAt := s.beat, thrShot := q.thermHeld, shotNo := q.shotNo + 1, gridAt := s.beat
    thermEnd := none, pWm := false, pCredit := false } := ⟨_, rfl⟩
  have eInv : e.Inv := eDef ▸ modSeq_inv _ _ dInv
  have toC : s.OnlyRing c n (shotRegs n) := cDef ▸ (OnlyRing.start s n _).put scListed _
  have toA : s.OnlyRing a n (shotRegs n) := toC.next only.onlyRing fun x isin => by
    rcases List.mem_cons.mp isin with rfl | last
    · exact fListed
    · rw [List.mem_singleton.mp last]
      exact cListed
  have toE : s.OnlyRing e n (shotRegs n) := by
    rw [eDef, dDef]
    exact (toA.put stListed _).modRing _
  have eSeq : e.seq n = s.begunSeq n (a.seq n).meet := by
    rw [eDef, seq_modSeq_self dInv.rings_length n.isLt, show d.seq n = a.seq n from by rw [dDef]; rfl, seq, cDef]
    rfl
  have bias : ∀ b, e.biasOut n b = s.biasOut n b := fun b => by
    rw [eDef, biasOut_modSeq, dDef]
    show a.biasOut n b = s.biasOut n b
    rw [aDef]
    unfold clearValid endValid
    dsimp only
    rw [biasOut_modSeq, cDef]
    rfl
  have inj : ∀ i j, Reg.biasOut n i = Reg.biasOut n j → i = j := fun i j same => by
    unfold Reg.biasOut at same
    omega
  obtain ⟨inv, mine, others, r, fields⟩ := forBelow_setReg eInv 4 (Reg.biasOut n) inj fun b =>
    BitVec.ofInt 32 (Int.fdiv (s.biasOut n b).y 64)
  obtain ⟨f, fDef⟩ : ∃ f, f = e.forBelow 4 fun b t => t.setReg (Reg.biasOut n b) (BitVec.ofInt 32 (Int.fdiv (s.biasOut n b).y 64)) := ⟨_, rfl⟩
  rw [← fDef] at inv mine others fields
  have sampled : (e.forBelow 4 fun b t => t.biasSample n b) = f := by
    rw [fDef]
    refine (forBelow_congr (f := fun b t => t.biasSample n b)
      (f' := fun b t => t.setReg (Reg.biasOut n b) (BitVec.ofInt 32 (Int.fdiv (s.biasOut n b).y 64)))
      (P := fun t => ∀ b, t.biasOut n b = s.biasOut n b) bias (fun b t same => ⟨?_, same⟩) 4).1
    unfold biasSample
    rw [same b]
  have run : s.shotBegun n = f.jugPend n 3 := by
    rw [← sampled, eDef, dDef, aDef, cDef]
    rfl
  have toF : s.OnlyRing f n (shotRegs n) := by
    obtain ⟨regs, rings, l, r', b, eFields⟩ := toE
    refine ⟨fun x out => ?_, fun k ne => ?_, l, r, b, by rw [fields, eFields]⟩
    · exact (others x fun b low => (ne_of_mem_of_not_mem (biasListed b low) out).symm).trans (regs x out)
    · rw [fields]
      exact rings k ne
  have low : ∀ x, (∀ b < 4, x ≠ Reg.biasOut n b) → (s.shotBegun n).getReg x = d.getReg x := fun x away => by
    rw [run]
    refine (others x away).trans ?_
    rw [eDef]
    rfl
  have seqs : (s.shotBegun n).seq n = e.seq n := by
    rw [run, fields]
    exact seq_modJug ..
  dsimp only
  refine ⟨?_, ?_, ?_, ?_, ?_, ?_, ?_, ?_, ?_⟩
  · rw [run]
    exact jugPend_inv _ _ inv
  · rw [seqs, eSeq]
    rfl
  · rw [low _ fun b _ => (shotRegs_ne n b).2.2.1, dDef]
    refine (getReg_setReg_other _ _ scSt).trans ((only.1 _ ?_).trans ?_)
    · simp [scF, scC]
    · rw [cDef]
      exact getReg_setReg_self hi.regs_wf _ _
  · rw [low _ fun b _ => (shotRegs_ne n b).2.2.2.1, dDef]
    exact (getReg_setReg_other _ _ fSt).trans drvf
  · rw [low _ fun b _ => (shotRegs_ne n b).2.2.2.2.1, dDef]
    exact (getReg_setReg_other _ _ cSt).trans drvc
  · rw [low _ fun b _ => (shotRegs_ne n b).2.2.2.2.2, dDef, getReg_setReg_self aInv.regs_wf, only.1 _ (by simp [fSt.symm, cSt.symm]), cDef]
    exact congrArg (· &&& ~~~(0x160 : Word)) (getReg_setReg_other _ _ scSt.symm)
  · intro b low
    rw [run]
    exact mine b low
  · rw [run]
    unfold jugPend
    rw [jug_modJug_self inv.rings_length n.isLt, bit_putBit _ _ (by decide), if_pos rfl]
  · rw [run]
    exact toF.modRing _

end

end State

end Sys2Proof.Machine
end

section
/-! PROOF. Where a ring goes on at the start of a shot (R168, R206). -/

namespace Sys2Proof.Machine

namespace State

section
variable {s t : State} {n : RingId}

/-- The registers in which a ring goes on at a shot start, `d` being the depth of its stack (R168, R206). -/
def onwardRegs (n d : Nat) : List Nat := [Reg.seqSt n, Reg.seqFlags n, Reg.seqFlags n + 8, Reg.seqStack n d, Reg.seqPc n, Reg.seqRsc n]

/-- The registers that a shot start sets are none of those, but for st. -/
theorem shotRegs_onward (n : RingId) {d : Nat} (depth : d < 32) (b : Nat) :
    Reg.seqSc n ∉ onwardRegs n d ∧ Reg.seqDrvf n ∉ onwardRegs n d ∧ Reg.seqDrvc n ∉ onwardRegs n d ∧
    Reg.biasOut n b ∉ onwardRegs n d := by
  simp only [onwardRegs, List.mem_cons, List.not_mem_nil, or_false, Reg.seqSc, Reg.seqDrvf, Reg.seqDrvc, Reg.seqSt, Reg.biasOut,
    Reg.seqFlags, Reg.seqStack, Reg.seqPc, Reg.seqRsc]
  omega

/-- The registers from which a ring goes on are not set at a shot start. -/
theorem onward_shotRegs (n : Nat) : Reg.seqPc n ∉ shotRegs n ∧ Reg.seqUdrVec n ∉ shotRegs n := by
  simp only [shotRegs, List.mem_append, List.mem_map, List.mem_range, List.mem_cons, List.not_mem_nil, or_false, Reg.seqSc, Reg.seqDrvf,
    Reg.seqDrvc, Reg.seqSt, Reg.biasOut, Reg.seqPc, Reg.seqUdrVec]
  omega

/-- The registers that may differ after a shot start. -/
def startRegs (n d : Nat) : List Nat :=
  [Reg.seqSc n, Reg.seqDrvf n, Reg.seqDrvc n, Reg.seqSt n, Reg.seqPc n, Reg.seqRsc n, Reg.seqFlags n, Reg.seqFlags n + 4, Reg.seqFlags n + 8,
    Reg.seqStack n d] ++ (List.range 4).map (Reg.biasOut n)

theorem shotRegs_start {n d x : Nat} (isin : x ∈ shotRegs n) : x ∈ startRegs n d := by
  rcases List.mem_append.mp isin with first | bias
  · simp only [List.mem_cons, List.not_mem_nil, or_false] at first
    rcases first with rfl | rfl | rfl | rfl <;> simp [startRegs]
  · exact List.mem_append_right _ bias

theorem onwardRegs_start {n d x : Nat} (isin : x ∈ onwardRegs n d) : x ∈ startRegs n d := by
  simp only [onwardRegs, List.mem_cons, List.not_mem_nil, or_false] at isin
  rcases isin with rfl | rfl | rfl | rfl | rfl | rfl <;> simp [startRegs]

/-- The bits of st that a shot start clears are none of DEPTH (R118). -/
theorem depth_cleared (x : Word) : fld (x &&& ~~~(0x160 : Word)) 20 16 = fld x 20 16 := by
  refine Nat.eq_of_testBit_eq fun i => ?_
  rw [fld_testBit, fld_testBit, bit_and]
  by_cases low : i < 5
  · have kept : ∀ i < 5, bit (~~~(0x160 : Word)) (16 + i) = true := by decide
    rw [kept i low, Bool.and_true]
  · rw [decide_eq_false (show ¬ i < 20 + 1 - 16 by omega)]
    simp

/-- The ring goes on from `w`, which differs from the begun shot in registers alone. -/
theorem shotOnward_marks (hi : s.Inv) {w : State} (inv : w.Inv) (only : (s.shotBegun n).OnlyRing w n (onwardRegs n (s.depth n)))
    (ring : w.rings = (s.shotBegun n).rings) (pc : Nat) : let t := w.goTo n pc 1
    (t.seq n = { s.begunSeq n (t.seq n).meet with wait := .none, issueAt := s.beat + 1, caseGot := none, caseUse := none } ∧
      t.getReg (Reg.seqSc n) = s.getReg (Reg.seqSc n) + 1 ∧ t.getReg (Reg.seqDrvf n) = State.postMask true (s.meetNow n).posts ∧
      t.getReg (Reg.seqDrvc n) = State.postMask false (s.meetNow n).posts ∧ t.getReg (Reg.seqRsc n) = 0 ∧ bit (t.jug n).ipend 3 = true ∧
      (∀ b < 4, t.getReg (Reg.biasOut n b) = BitVec.ofInt 32 (Int.fdiv (s.biasOut n b).y 64))) ∧
    t.getReg (Reg.seqPc n) = BitVec.ofNat 32 (pc % 32768) ∧ (∀ x, x ≠ Reg.seqPc n → x ≠ Reg.seqRsc n → t.getReg x = w.getReg x) ∧
    s.OnlyRing t n (startRegs n (s.depth n)) := by
  obtain ⟨-, seq, sc, drvf, drvc, -, bias, pend, begun⟩ := shotBegun_marks (n := n) hi
  obtain ⟨⟨pcIs, rsc, seqIs⟩, frame⟩ := goTo_frame inv n.isLt pc 1
  have deep : s.depth n < 32 := fld_lt _ 20 16
  have same : w.ring n = (s.shotBegun n).ring n := congrArg (fun l => l.getD n {}) ring
  have ends : (s.shotBegun n).OnlyRing (w.goTo n pc 1) n (onwardRegs n (s.depth n)) := only.next frame.onlyRing fun x isin => by
    rcases List.mem_cons.mp isin with rfl | last
    · simp [onwardRegs]
    · rw [List.mem_singleton.mp last]
      simp [onwardRegs]
  have beat : w.beat = s.beat := only.beat.trans begun.beat
  have away := shotRegs_onward n deep
  obtain ⟨scAway, fAway, cAway, -⟩ := away 0
  have seqs : w.seq n = s.begunSeq n ((s.shotBegun n).seq n).meet := (congrArg Ring.seq same).trans seq
  dsimp only
  refine ⟨⟨?_, (ends.1 _ scAway).trans sc, (ends.1 _ fAway).trans drvf, (ends.1 _ cAway).trans drvc, rsc, ?_, ?_⟩, pcIs, ?_, ?_⟩
  · rw [seqIs, seqs, beat]
    rfl
  · have jug : (w.goTo n pc 1).jug n = (s.shotBegun n).jug n := (jug_modSeq ..).trans (congrArg Ring.jug same)
    rw [jug]
    exact pend
  · intro b small
    exact (ends.1 _ (away b).2.2.2).trans (bias b small)
  · exact fun x notPc notRsc => frame.1 x (by simp [notPc, notRsc])
  · exact (begun.mono fun _ => shotRegs_start).next ends fun _ => onwardRegs_start

end

end State

end Sys2Proof.Machine
end

section
/-! PROOF. The start of a shot, with the under-run handler (R118, R124, R168, R206). -/

namespace Sys2Proof.Machine

namespace State

section
variable {s t : State} {n : RingId}

/-- The flags of a sequencer are none of the registers that it goes on with. -/
theorem seqFlags_ne (n : Nat) : Reg.seqFlags n ≠ Reg.seqPc n ∧ Reg.seqFlags n ≠ Reg.seqRsc n ∧ Reg.seqFlags n ≠ Reg.seqSt n ∧
    Reg.seqFlags n + 8 ≠ Reg.seqSt n := by
  simp only [Reg.seqFlags, Reg.seqPc, Reg.seqRsc, Reg.seqSt]
  omega

theorem seqStack_flags (n d : Nat) : Reg.seqStack n d ≠ Reg.seqFlags n ∧ Reg.seqStack n d ≠ Reg.seqFlags n + 8 := by
  simp only [Reg.seqStack, Reg.seqFlags]
  omega

/-- The next shot starts (R118, R124, R168, R206). -/
theorem shotStart_marks (hi : s.Inv) : let t := s.shotStart n
    let st := s.getReg (Reg.seqSt n) &&& ~~~(0x160 : Word)
    let vector := (s.seq n).udrCp1 = true
    (t.seq n = { s.begunSeq n (t.seq n).meet with wait := .none, issueAt := s.beat + 1, caseGot := none, caseUse := none } ∧
      t.getReg (Reg.seqSc n) = s.getReg (Reg.seqSc n) + 1 ∧ t.getReg (Reg.seqDrvf n) = State.postMask true (s.meetNow n).posts ∧
      t.getReg (Reg.seqDrvc n) = State.postMask false (s.meetNow n).posts ∧ t.getReg (Reg.seqRsc n) = 0 ∧ bit (t.jug n).ipend 3 = true ∧
      (∀ b < 4, t.getReg (Reg.biasOut n b) = BitVec.ofInt 32 (Int.fdiv (s.biasOut n b).y 64))) ∧
    (¬ vector → t.getReg (Reg.seqSt n) = st ∧ t.getReg (Reg.seqPc n) = BitVec.ofNat 32 ((s.seqPc n + 1) % 32768)) ∧
    (vector → s.depth n < 16 → t.getReg (Reg.seqSt n) = putFld st 20 16 (s.depth n + 1) ∧
      t.getReg (Reg.seqStack n (s.depth n)) = BitVec.ofNat 32 ((s.seqPc n + 1) % 32768) ∧
      t.getReg (Reg.seqPc n) = BitVec.ofNat 32 (s.regFld (Reg.seqUdrVec n) 14 0) ∧ bit (t.getReg (Reg.seqFlags n)) 4 = true) ∧
    (vector → 16 ≤ s.depth n → t.getReg (Reg.seqSt n) = st ∧ bit (t.getReg (Reg.seqFlags n)) 5 = true ∧
      t.getReg (Reg.seqPc n) = BitVec.ofNat 32 ((s.seqPc n + 1) % 32768)) ∧
    s.OnlyRing t n (startRegs n (s.depth n)) := by
  obtain ⟨inv, seq, -, -, -, st, -, -, begun⟩ := shotBegun_marks (n := n) hi
  obtain ⟨pcAway, vecAway⟩ := onward_shotRegs n
  obtain ⟨t, tDef⟩ : ∃ t, t = s.shotBegun n := ⟨_, rfl⟩
  have onward := fun {w : State} => shotOnward_marks (w := w) (n := n) hi
  rw [← tDef] at inv seq st begun onward
  have pc : t.seqPc n = s.seqPc n := congrArg (fun x => fld x 14 0) (begun.1 _ pcAway)
  have depth : t.depth n = s.depth n := by
    unfold State.depth regFld
    rw [st]
    exact depth_cleared _
  have vector : (t.seq n).udrCp1 = (s.seq n).udrCp1 := by
    rw [seq]
    rfl
  have counters : ∀ b, 4 ≤ b → flagCntAddr (Reg.seqFlags n) b = Reg.seqFlags n + 8 := fun b high => by
    unfold flagCntAddr
    rw [if_neg (Nat.not_lt.mpr high), if_neg (by unfold Reg.seqFlags; omega)]
  have flagsIn : Reg.seqFlags n ∈ onwardRegs n (s.depth n) := by simp [onwardRegs]
  have countIn : Reg.seqFlags n + 8 ∈ onwardRegs n (s.depth n) := by simp [onwardRegs]
  obtain ⟨stPc, stRsc⟩ := seqSt_ne n
  obtain ⟨stackSt, stackPc, stackRsc⟩ := seqStack_ne n (s.depth n)
  obtain ⟨flagsPc, flagsRsc, flagsSt, countSt⟩ := seqFlags_ne n
  obtain ⟨stackFlags, stackCount⟩ := seqStack_flags n (s.depth n)
  have run := shotStart_eq s n
  dsimp only at run
  rw [← tDef, vector, depth, pc] at run
  have pushed : t.OnlyRing (t.pushCall n (s.seqPc n + 1)) n (onwardRegs n (s.depth n)) := by
    unfold pushCall
    dsimp only
    rw [depth]
    exact ((OnlyRing.start t n _).put (by simp [onwardRegs]) _).put (by simp [onwardRegs]) _
  have pushInv : (t.pushCall n (s.seqPc n + 1)).Inv := pushCall_inv _ _ inv
  dsimp only
  by_cases vec : (s.seq n).udrCp1 = true
  · by_cases room : s.depth n < 16
    · rw [if_pos vec, if_pos room] at run
      obtain ⟨w, wDef⟩ : ∃ w, w = (t.pushCall n (s.seqPc n + 1)).raiseFlag (Reg.seqFlags n) 4 := ⟨_, rfl⟩
      obtain ⟨shared, goes, kept, only⟩ := onward (w := w) (wDef ▸ raiseFlag_inv _ _ pushInv)
        (by rw [wDef]; exact pushed.flag flagsIn (by rw [counters 4 (by decide)]; exact countIn)) (by rw [wDef]; rfl) (t.regFld (Reg.seqUdrVec n) 14 0)
      rw [run, ← wDef]
      refine ⟨shared, fun other => absurd vec other, fun _ _ => ⟨?_, ?_, ?_, ?_⟩, fun _ full => absurd room (Nat.not_lt.mpr full), only⟩
      · rw [kept _ stPc stRsc, wDef, getReg_raiseFlag_other _ flagsSt.symm (by rw [counters 4 (by decide)]; exact countSt.symm)]
        unfold pushCall
        dsimp only
        rw [depth, State.setFld, getReg_setReg_self (setReg_inv _ _ inv).regs_wf, getReg_setReg_other _ _ stackSt.symm, st]
      · rw [kept _ stackPc stackRsc, wDef, getReg_raiseFlag_other _ stackFlags (by rw [counters 4 (by decide)]; exact stackCount)]
        unfold pushCall
        dsimp only
        rw [depth]
        exact (getReg_setReg_other _ _ stackSt).trans (getReg_setReg_self inv.regs_wf _ _)
      · rw [goes, Nat.mod_eq_of_lt (show t.regFld (Reg.seqUdrVec n) 14 0 < 32768 from fld_lt _ 14 0)]
        exact congrArg (fun x => BitVec.ofNat 32 (fld x 14 0)) (begun.1 _ vecAway)
      · rw [kept _ flagsPc flagsRsc, wDef]
        exact bit_raiseFlag pushInv _ (by decide)
    · rw [if_pos vec, if_neg room] at run
      obtain ⟨w, wDef⟩ : ∃ w, w = t.raiseFlag (Reg.seqFlags n) 5 := ⟨_, rfl⟩
      obtain ⟨shared, goes, kept, only⟩ := onward (w := w) (wDef ▸ raiseFlag_inv _ _ inv)
        (by rw [wDef]; exact (OnlyRing.start t n _).flag flagsIn (by rw [counters 5 (by decide)]; exact countIn)) (by rw [wDef]; rfl) (s.seqPc n + 1)
      rw [run, ← wDef]
      refine ⟨shared, fun other => absurd vec other, fun _ few => absurd few room, fun _ _ => ⟨?_, ?_, goes⟩, only⟩
      · rw [kept _ stPc stRsc, wDef, getReg_raiseFlag_other _ flagsSt.symm (by rw [counters 5 (by decide)]; exact countSt.symm)]
        exact st
      · rw [kept _ flagsPc flagsRsc, wDef]
        exact bit_raiseFlag inv _ (by decide)
  · rw [if_neg vec] at run
    obtain ⟨shared, goes, kept, only⟩ := onward (w := t) inv (.start t n _) rfl (s.seqPc n + 1)
    rw [run]
    refine ⟨shared, fun _ => ⟨?_, goes⟩, fun yes => absurd yes vec, fun yes => absurd yes vec, only⟩
    exact (kept _ stPc stRsc).trans st

end

end State

end Sys2Proof.Machine
end

section
/-! PROOF. The beats of CP2, and the obligation on the start of a shot or a pause (O9). -/

namespace Sys2Proof.Machine

namespace State

section
variable {s t : State} {n : RingId}

/-! ### The pause conditions of a beat -/

/-- The records that stand and may come exceed the high watermark (R80). -/
def overHigh (s : State) (n : Nat) : Bool := decide (s.regFld (Reg.resqHwm n) 15 0 < s.resqFill n + s.pendingWins n)

/-- The watermark pause (R80, R189). -/
def overMark (s : State) (n : Nat) : Bool :=
  ((s.seq n).pWm && decide (s.regFld (Reg.resqLwm n) 15 0 < s.resqFill n)) || s.overHigh n

/-- The thermal pause lasts (R189, R483). -/
def stillHot (s : State) (n : Nat) : Bool := (s.seq n).thermEnd.any fun b => decide (s.beat < b)

/-- A beat of CP2 with its pause conditions: flags alone differ before the sequencer takes them over, none when neither a watermark nor a
stream pauses the ring (R80, R189). -/
theorem evalPauses_eq (hi : s.Inv) : ∃ z : State, s.OnlyRing z n (boundaryFlags n) ∧ z.rings = s.rings ∧ z.Inv ∧
    (s.overMark n = false → s.creditPause n = false → z = s) ∧
    s.evalPauses n = (s.overMark n || s.creditPause n || s.stillHot n || (s.seq n).hold, z.modSeq n fun q => { q with
      pWm := s.overMark n, pCredit := s.creditPause n, thermEnd := if s.stillHot n then q.thermEnd else none
      thermHeld := q.thermHeld || s.stillHot n, evalAt := some s.beat }) := by
  obtain ⟨y, yDef⟩ : ∃ y, y = s.raiseIf (s.overHigh n && !(s.seq n).pWm) (Reg.resqFlags n) 0 := ⟨_, rfl⟩
  obtain ⟨z, zDef⟩ : ∃ z, z = y.forBelow 4 fun j s =>
    s.raiseIf (!(s.seq n).pCredit && s.strmEn n j && decide (s.readyRun n j < s.regFld (Reg.strmLow n j) 6 0)) (Reg.strmFlags n j) 3 := ⟨_, rfl⟩
  have toY : s.OnlyRing y n (boundaryFlags n) := yDef ▸ (OnlyRing.start s n _).flagIf (List.mem_cons_self ..)
    (List.mem_cons_of_mem _ (List.mem_cons_self ..)) _
  have yRings : y.rings = s.rings := by
    obtain ⟨-, -, same, -⟩ := raiseIf_kept s (s.overHigh n && !(s.seq n).pWm) (Reg.resqFlags n) 0
    rw [yDef, same]
  obtain ⟨toZ, zRings⟩ := raiseStreams_marks toY fun j s =>
    !(s.seq n).pCredit && s.strmEn n j && decide (s.readyRun n j < s.regFld (Reg.strmLow n j) 6 0)
  rw [← zDef] at toZ zRings
  have yInv : y.Inv := yDef ▸ raiseIf_inv _ _ _ hi
  have zInv : z.Inv := zDef ▸ forBelow_inv _ _ (fun _ _ => raiseIf_inv _ _ _) yInv
  have rings : z.rings = s.rings := zRings.trans yRings
  have credit : y.creditPause n = s.creditPause n := creditPause_congr toY.1 fun j => congrArg (fun l => (l.getD n {}).strm.getD j {}) yRings
  refine ⟨z, toZ, rings, zInv, fun low flows => ?_, ?_⟩
  · have high : s.overHigh n = false := (Bool.or_eq_false_iff.mp low).2
    have same : y = s := by
      rw [yDef, high]
      rfl
    rw [zDef, same]
    refine foldl_keeps (P := fun t => t = s) rfl fun j turn t isS => ?_
    have full : (s.strmEn n j && decide (s.readyRun n j < s.regFld (Reg.strmLow n j) 6 0)) = false :=
      Bool.eq_false_iff.mpr (List.any_eq_false.mp flows j turn)
    rw [isS]
    dsimp only
    rw [Bool.and_assoc, full, Bool.and_false]
    rfl
  · have seq : z.seq n = s.seq n := congrArg (fun l => (l.getD n {}).seq) rings
    have hot : z.stillHot n = s.stillHot n := by
      unfold stillHot
      rw [seq, toZ.beat]
    have run : s.evalPauses n =
        (let v := z.modSeq n fun q => { q with
          pWm := s.overMark n, pCredit := y.creditPause n, thermEnd := if z.stillHot n then q.thermEnd else none
          thermHeld := q.thermHeld || z.stillHot n, evalAt := some z.beat }
         (s.overMark n || y.creditPause n || z.stillHot n || (v.seq n).hold, v)) := by
      rw [zDef, yDef]
      rfl
    dsimp only at run
    rw [run, seq_modSeq_self zInv.rings_length n.isLt, seq, credit, hot, toZ.beat]

theorem overMark_iff (s : State) (n : Nat) : s.overMark n = true ↔
    ((s.seq n).pWm = true ∧ s.regFld (Reg.resqLwm n) 15 0 < s.resqFill n) ∨ s.regFld (Reg.resqHwm n) 15 0 < s.resqFill n + s.pendingWins n := by
  unfold overMark overHigh
  rw [Bool.or_eq_true, Bool.and_eq_true, decide_eq_true_iff, decide_eq_true_iff]

theorem stillHot_iff (s : State) (n : Nat) : s.stillHot n = true ↔ ∃ b, (s.seq n).thermEnd = some b ∧ s.beat < b := by
  unfold stillHot
  rw [Option.any_eq_true]
  simp only [decide_eq_true_eq]

/-- A beat of CP2 in which no halt waits (R168, R189). -/
theorem exec_shotStart (st : (s.seq n).st = .running ∨ (s.seq n).st = .paused) (wait : (s.seq n).wait = .cp2)
    (later : (s.seq n).boundaryAt < s.beat) (fresh : (s.seq n).evalAt ≠ some s.beat) (free : (s.seq n).haltPend = false) {pause : Bool}
    (eval : s.evalPauses n = (pause, t)) : exec (.shotStart n) s = .next (if pause then t.pauseBeat n else t.shotStart n) := by
  show execShotStart n s = _
  unfold execShotStart
  dsimp only
  rw [if_pos ⟨st, wait, later, fresh⟩, free, if_neg Bool.false_ne_true, eval]

/-- The registers that a PAUSED beat may change. -/
def pauseRegs (n : Nat) : List Nat :=
  [Reg.seqFlags n, Reg.seqFlags n + 4, Reg.resqFlags n, Reg.resqFlags n + 4] ++
    (List.range 4).flatMap fun j => [Reg.strmFlags n j, Reg.strmFlags n j + 4]

/-- A PAUSED beat (R189, R190). -/
theorem pauseBeat_marks (hi : t.Inv) : let u := t.pauseBeat n
    u.seq n = { t.seq n with st := .paused, holdMarked := (t.seq n).holdMarked || (t.seq n).hold } ∧
      ((t.seq n).hold = true → (t.seq n).holdMarked = false → bit (u.getReg (Reg.seqFlags n)) 0 = true) ∧ t.OnlyRing u n (pauseRegs n) := by
  obtain ⟨v, vDef⟩ : ∃ v, v = t.modSeq n fun q => { q with st := .paused, holdMarked := q.holdMarked || q.hold } := ⟨_, rfl⟩
  have inv : v.Inv := vDef ▸ modSeq_inv _ _ hi
  have run : t.pauseBeat n = v.raiseIf ((t.seq n).hold && !(t.seq n).holdMarked) (Reg.seqFlags n) 0 := by
    rw [vDef]
    rfl
  obtain ⟨-, -, rings, -⟩ := raiseIf_kept v ((t.seq n).hold && !(t.seq n).holdMarked) (Reg.seqFlags n) 0
  dsimp only
  rw [run]
  refine ⟨?_, fun hold unmarked => ?_, ?_⟩
  · refine (congrArg (fun l => (l.getD n {}).seq) rings).trans ?_
    show v.seq n = _
    rw [vDef, seq_modSeq_self hi.rings_length n.isLt]
  · rw [hold, unmarked]
    exact bit_raiseFlag inv _ (by decide)
  · have toV : t.OnlyRing v n (pauseRegs n) := vDef ▸ (OnlyRing.start t n _).modRing _
    exact toV.flagIf (by simp [pauseRegs]) (by rw [flagCntAddr_low (by decide)]; simp [pauseRegs]) _

end

end State

open State in
/-- Settles O9: a beat of CP2 without a pause condition raises no flag, so the shot starts from the state before with its pauses cleared. -/
theorem shotStartOrPause : Obligations.ShotStartOrPause := by
  unfold Obligations.ShotStartOrPause
  intro s n hi
  dsimp only
  intro st wait later fresh free
  obtain ⟨z, only, rings, inv, quiet, eval⟩ := evalPauses_eq (n := n) hi
  obtain ⟨v, vDef⟩ : ∃ v, v = z.modSeq n fun q => { q with
    pWm := s.overMark n, pCredit := s.creditPause n, thermEnd := if s.stillHot n then q.thermEnd else none
    thermHeld := q.thermHeld || s.stillHot n, evalAt := some s.beat } := ⟨_, rfl⟩
  rw [← vDef] at eval
  have run := exec_shotStart st wait later fresh free eval
  have vInv : v.Inv := vDef ▸ modSeq_inv _ _ inv
  have zSeq : z.seq n = s.seq n := congrArg (fun l => (l.getD n {}).seq) rings
  have vSeq : v.seq n = { s.seq n with
      pWm := s.overMark n, pCredit := s.creditPause n, thermEnd := if s.stillHot n then (s.seq n).thermEnd else none
      thermHeld := (s.seq n).thermHeld || s.stillHot n, evalAt := some s.beat } := by
    rw [vDef, seq_modSeq_self inv.rings_length n.isLt, zSeq]
  refine ⟨fun calm flows cool off => ?_, fun pauses => ?_⟩
  · have low : s.overMark n = false := Bool.eq_false_iff.mpr fun h => calm ((overMark_iff s n).mp h)
    have cold : s.stillHot n = false := Bool.eq_false_iff.mpr fun h => cool ((stillHot_iff s n).mp h)
    have same : z = s := quiet low flows
    have toV : s.OnlyRing v n (startRegs n (s.depth n)) := by
      rw [vDef, same]
      exact (OnlyRing.start s n _).modRing _
    have regs : ∀ a, v.getReg a = s.getReg a := fun a => by
      rw [vDef, same]
      rfl
    obtain ⟨⟨seq, sc, drvf, drvc, rsc, pend, bias⟩, straight, handled, full, frame⟩ := shotStart_marks (n := n) vInv
    have posts : (v.meetNow n).posts = (s.meetNow n).posts := meetNow_posts (by rw [vSeq]) toV.beat
    have outs : ∀ b, v.biasOut n b = s.biasOut n b := fun b => by
      rw [vDef, biasOut_modSeq, same]
    have vector : (v.seq n).udrCp1 = (s.seq n).udrCp1 := by rw [vSeq]
    have pc : v.seqPc n = s.seqPc n := congrArg (fun x => fld x 14 0) (regs _)
    have depth : v.depth n = s.depth n := congrArg (fun x => fld x 20 16) (regs _)
    have vec : v.regFld (Reg.seqUdrVec n) 14 0 = s.regFld (Reg.seqUdrVec n) 14 0 := congrArg (fun x => fld x 14 0) (regs _)
    rw [regs, vector, pc] at straight
    rw [regs, vector, pc, depth, vec] at handled
    rw [regs, vector, pc, depth] at full
    rw [depth] at frame
    rw [posts] at drvf drvc
    refine ⟨v.shotStart n, ?_, ?_, sc.trans (by rw [regs]), drvf, drvc, rsc, pend, fun b small => (bias b small).trans (by rw [outs]),
      straight, handled, full, toV.next frame fun _ h => h⟩
    · rw [run, low, flows, cold, off]
      rfl
    · refine seq.trans ?_
      unfold begunSeq
      rw [vSeq, flows, cold, toV.beat, Bool.or_false]
  · obtain ⟨seq, flag, frame⟩ := pauseBeat_marks (n := n) vInv
    have toV : s.OnlyRing v n (pauseRegs n) := by
      rw [vDef]
      exact (only.mono fun a isin => List.mem_cons_of_mem _ (List.mem_cons_of_mem _ isin)).modRing _
    have pause : (s.overMark n || s.creditPause n || s.stillHot n || (s.seq n).hold) = true := by
      rcases pauses with mark | flows | hot | hold
      · rw [(overMark_iff s n).mpr mark]
        rfl
      · rw [flows, Bool.or_true]
        rfl
      · rw [(stillHot_iff s n).mpr hot, Bool.or_true]
        rfl
      · rw [hold, Bool.or_true]
    refine ⟨v.pauseBeat n, ?_, ?_, ?_, ?_, ?_, ?_, ?_, toV.next frame fun _ h => h⟩
    · rw [run, pause]
      rfl
    · rw [seq]
    · rw [seq, vSeq]
      exact wait
    · rw [seq, vSeq]
      exact overMark_iff s n
    · rw [seq, vSeq]
    · rw [seq, vSeq, ← stillHot_iff]
      dsimp only
      cases hot : s.stillHot n with
      | true =>
        obtain ⟨b, ends, -⟩ := (stillHot_iff s n).mp hot
        rw [if_pos rfl, ends]
        exact ⟨fun _ => rfl, fun _ => rfl⟩
      | false => exact ⟨nofun, nofun⟩
    · intro hold unmarked
      exact flag (by rw [vSeq]; exact hold) (by rw [vSeq]; exact unmarked)

end Sys2Proof.Machine
end
